-- ==== Sys2Proof/Word.lean ====
section
/-! DEFINITION. The word types of the J7 (spec/00_scope.md R9: little-endian, bit 0 least significant) and their plainest arithmetic. -/
namespace Sys2Proof

/-- A byte. -/
abbrev Byte := BitVec 8
/-- A vector register (01_machine_state.md R14). -/
abbrev W32 := BitVec 32
/-- A uniform register, an address, a 64-bit pair (01_machine_state.md R16). -/
abbrev W64 := BitVec 64
/-- A program counter: the address of a 64-bit word (01_machine_state.md R37). -/
abbrev Pc := BitVec 61

/-- The word number `pc` as a byte address (R37). -/
def Pc.addr (pc : Pc) : W64 := pc ++ 0#3
/-- The word that holds byte address `a`; bits [2:0] are ignored (R37, R93). -/
def Pc.ofAddr (a : W64) : Pc := a.extractLsb' 3 61
/-- The 64-bit pair of two 32-bit registers, low half first (R14). -/
def pair64 (lo hi : W32) : W64 := hi ++ lo
/-- Low half of a 64-bit value. -/
def lo32 (x : W64) : W32 := x.setWidth 32
/-- High half of a 64-bit value. -/
def hi32 (x : W64) : W32 := x.extractLsb' 32 32
/-- The number `a` is a multiple of `n`. -/
def aligned (n a : Nat) : Bool := a % n == 0
/-- `⌈a ÷ b⌉`. -/
def ceilDiv (a b : Nat) : Nat := (a + b - 1) / b

end Sys2Proof
end

