-- ==== Sys2Proof/Machine/Numbers.lean ====
section
/-! DEFINITION. Number formats and exact arithmetic (02_number_formats.md R41 to R71): exact values are fractions, one rounding at the end. -/
namespace Sys2Proof.Machine

/-- The rounding modes (02 R51). -/
inductive RMode where
  | rn | rz | rp | rm | rs
  deriving DecidableEq, Repr

/-- A rounding code of 03 R84; 5 to 7 are reserved. -/
def RMode.ofCode : Nat → Option RMode
  | 0 => some .rn | 1 => some .rz | 2 => some .rp | 3 => some .rm | 4 => some .rs | _ => none

/-- An exact value (01 R38, Widen): NaN, an infinity, or a signed fraction (a zero keeps its sign). -/
inductive XReal where
  | nan
  | inf (neg : Bool)
  | fin (neg : Bool) (num den : Nat)
  deriving DecidableEq, Repr

/-- A floating-point format: exponent and fraction widths, bias, and whether it has infinities (02 R41). -/
structure FFmt where
  eb : Nat
  fb : Nat
  bias : Nat
  hasInf : Bool
  deriving DecidableEq, Repr

/-- 02 R41. -/
def FFmt.f32 : FFmt := ⟨8, 23, 127, true⟩
/-- 02 R41. -/
def FFmt.f16 : FFmt := ⟨5, 10, 15, true⟩
/-- 02 R41. -/
def FFmt.bf16 : FFmt := ⟨8, 7, 127, true⟩
/-- 02 R41. -/
def FFmt.e5m2 : FFmt := ⟨5, 2, 15, true⟩
/-- 02 R41. -/
def FFmt.e4m3 : FFmt := ⟨4, 3, 7, false⟩

/-- Width in bits. -/
def FFmt.width (f : FFmt) : Nat := f.eb + f.fb + 1
/-- The bits of the greatest finite value (02 R43). -/
def FFmt.maxFin (f : FFmt) : Nat :=
  if f.hasInf then (2 ^ f.eb - 1) * 2 ^ f.fb - 1 else 2 ^ (f.eb + f.fb) - 2
/-- The bits of +infinity. -/
def FFmt.infBits (f : FFmt) : Nat := (2 ^ f.eb - 1) * 2 ^ f.fb
/-- The canonical NaN (02 R43, R44). -/
def FFmt.nanBits (f : FFmt) : Nat :=
  if f.hasInf then f.infBits + 2 ^ (f.fb - 1) else 2 ^ (f.eb + f.fb) - 1
/-- Magnitude bits with a sign. -/
def FFmt.signed (f : FFmt) (neg : Bool) (mag : Nat) : Nat := if neg then 2 ^ (f.eb + f.fb) + mag else mag

/-- `num / den × 2^e` as a fraction. -/
def XReal.scaled (neg : Bool) (num den : Nat) (e : Int) : XReal :=
  if e ≥ 0 then .fin neg (num * 2 ^ e.toNat) den else .fin neg num (den * 2 ^ (-e).toNat)

/-- The exact value of an encoding (02 R42). -/
def widen (f : FFmt) (bits : Nat) : XReal :=
  let s := bits.testBit (f.eb + f.fb)
  let e := bits / 2 ^ f.fb % 2 ^ f.eb
  let m := bits % 2 ^ f.fb
  if e = 0 then .fin s m (2 ^ (f.bias + f.fb - 1))
  else if e = 2 ^ f.eb - 1 ∧ f.hasInf then (if m = 0 then .inf s else .nan)
  else if e = 2 ^ f.eb - 1 ∧ m = 2 ^ f.fb - 1 then .nan
  else XReal.scaled s (2 ^ f.fb + m) 1 (Int.ofNat e - f.bias - f.fb)

/-- The exact value of an integer. -/
def XReal.ofInt (x : Int) : XReal := .fin (x < 0) x.natAbs 1

/-- `⌊log2 (num/den)⌋` for a positive fraction. -/
def floorLog2 (num den : Nat) : Int :=
  let k : Int := Int.ofNat num.log2 - den.log2
  let fits := if k ≥ 0 then den * 2 ^ k.toNat ≤ num else den ≤ num * 2 ^ (-k).toNat
  if fits then k else k - 1

/-- `num/den ÷ 2^q` as a fraction. -/
def inUnits (num den : Nat) (q : Int) : Nat × Nat :=
  if q ≥ 0 then (num, den * 2 ^ q.toNat) else (num * 2 ^ (-q).toNat, den)

/-- Does the magnitude `⌊t⌋ + rem/den` go up (02 R52, R60)? `g` is the random value of R59 under .rs. -/
def roundsUp (mode : RMode) (neg : Bool) (floor rem den g : Nat) : Bool :=
  match mode with
  | .rz => false
  | .rp => !neg && decide (rem > 0)
  | .rm => neg && decide (rem > 0)
  | .rn => decide (2 * rem > den) || (decide (2 * rem = den) && decide (floor % 2 = 1))
  | .rs => decide (rem > 0) && decide (rem * 65536 / den + g ≥ 65536)

/-- The exponent of the unit in the last place at the magnitude of a fraction (02 R52 step 1). -/
def FFmt.unitExp (f : FFmt) (num den : Nat) : Int :=
  let e := floorLog2 num den + f.bias
  (if e < 1 then 1 else e) - f.bias - f.fb

/-- The discarded bits D of an element (02 R58). -/
def discarded (f : FFmt) : XReal → Nat
  | .fin _ num den =>
    if num = 0 then 0 else
      let (n, d) := inUnits num den (f.unitExp num den)
      n % d * 65536 / d
  | _ => 0

/-- The random value g from the neighbours' discarded bits (02 R59). -/
def stochastic (left right : Nat) : Nat :=
  let k : BitVec 32 := (BitVec.ofNat 32 (left * 65536) ||| BitVec.ofNat 32 right) ^^^ 0x6A09E667#32
  let k := (k ^^^ (k >>> 15)) * 0x2C1B3C6D#32
  let k := (k ^^^ (k >>> 12)) * 0x297A2D39#32
  let k := k ^^^ (k >>> 15)
  (k >>> 16).toNat

/-- An infinite result in a format, with the saturation of 02 R54 and the .e4m3 rule of R53. -/
def FFmt.infResult (f : FFmt) (neg sat : Bool) : Nat :=
  if sat then f.signed neg f.maxFin else if f.hasInf then f.signed neg f.infBits else f.nanBits

/-- Overflow (02 R53). -/
def FFmt.overflow (f : FFmt) (mode : RMode) (neg sat : Bool) : Nat :=
  match mode, neg with
  | .rz, n => f.signed n f.maxFin
  | .rp, true => f.signed true f.maxFin
  | .rm, false => f.signed false f.maxFin
  | _, n => f.infResult n sat

/-- RoundTo(fmt, x, mode) with an optional .sat (02 R52 to R54, R60). -/
def roundTo (f : FFmt) (x : XReal) (mode : RMode) (sat : Bool := false) (g : Nat := 0) : Nat :=
  match x with
  | .nan => f.nanBits
  | .inf neg => f.infResult neg sat
  | .fin neg num den =>
    if num = 0 then f.signed neg 0 else
      let q := f.unitExp num den
      let (n, d) := inUnits num den q
      let t := n / d + (if roundsUp mode neg (n / d) (n % d) d g then 1 else 0)
      let e := (q + f.bias + f.fb).toNat
      let bits := (e - 1) * 2 ^ f.fb + t
      if bits > f.maxFin then f.overflow mode neg sat else f.signed neg bits

/-- The exact value rounded to an integer under a mode (02 R55). -/
def roundInt (x : XReal) (mode : RMode) : Option Int :=
  match x with
  | .fin neg num den =>
    let t := num / den + (if roundsUp mode neg (num / den) (num % den) den 0 then 1 else 0)
    some (if neg then -(t : Int) else t)
  | _ => none

/-- Sign of an exact value. -/
def XReal.neg? : XReal → Bool
  | .nan => false | .inf n => n | .fin n _ _ => n
/-- Is it NaN? -/
def XReal.isNan : XReal → Bool
  | .nan => true | _ => false
/-- Is it a zero? -/
def XReal.isZero : XReal → Bool
  | .fin _ 0 _ => true | _ => false
/-- The value with its sign changed. -/
def XReal.negate : XReal → XReal
  | .nan => .nan | .inf n => .inf (!n) | .fin n a b => .fin (!n) a b

/-- A fraction brought to a denominator it divides, or both multiplied out. -/
def common (a b c d : Nat) : Nat × Nat × Nat :=
  if b = d then (a, c, b)
  else if b % d = 0 then (a, c * (b / d), b)
  else if d % b = 0 then (a * (d / b), c, d)
  else (a * d, c * b, b * d)

/-- The exact sum. An exact zero from nonzero operands takes its sign from the mode; a sum of zeros is −0 only if both are −0 (02 R56). -/
def XReal.add (mode : RMode) : XReal → XReal → XReal
  | .nan, _ => .nan
  | _, .nan => .nan
  | .inf n, .inf m => if n = m then .inf n else .nan
  | .inf n, _ => .inf n
  | _, .inf n => .inf n
  | .fin n a b, .fin m c d =>
    if a = 0 ∧ c = 0 then .fin (n && m) 0 1
    else
      let (x, y, z) := common a b c d
      if n = m then .fin n (x + y) z
      else if x = y then .fin (mode = .rm) 0 1
      else if x > y then .fin n (x - y) z else .fin m (y - x) z

/-- The exact product; 0 × ∞ is NaN (04 R123). -/
def XReal.mul : XReal → XReal → XReal
  | .nan, _ => .nan
  | _, .nan => .nan
  | .inf n, y => if y.isZero then .nan else .inf (n != y.neg?)
  | x, .inf m => if x.isZero then .nan else .inf (x.neg? != m)
  | .fin n a b, .fin m c d => .fin (n != m) (a * c) (b * d)

/-- The exact quotient (04 R123). -/
def XReal.div : XReal → XReal → XReal
  | .nan, _ => .nan
  | _, .nan => .nan
  | .inf _, .inf _ => .nan
  | .inf n, y => .inf (n != y.neg?)
  | x, .inf m => .fin (x.neg? != m) 0 1
  | .fin n a b, .fin m c d =>
    if c = 0 then (if a = 0 then .nan else .inf (n != m)) else .fin (n != m) (a * d) (b * c)

/-- The exact sum of a list; a sum of zeros is −0 only if every addend is −0 (02 R56), and an empty sum is +0. -/
def XReal.sum (mode : RMode) (xs : List XReal) : XReal :=
  match xs with
  | [] => .fin false 0 1
  | x :: rest =>
    let s := rest.foldl (XReal.add .rn) x
    match s with
    | .fin _ 0 _ => if (x :: rest).all XReal.isZero then .fin ((x :: rest).all XReal.neg?) 0 1 else .fin (mode = .rm) 0 1
    | _ => s

/-- `a < b` of exact values that are not NaN (−0 and +0 are equal). -/
def XReal.lt : XReal → XReal → Bool
  | .inf n, .inf m => n && !m
  | .inf n, _ => n
  | _, .inf m => !m
  | .fin n a b, .fin m c d =>
    let (x, y, _) := common a b c d
    match n, m with
    | false, false => decide (x < y)
    | true, true => decide (y < x)
    | true, false => decide (x + y > 0)
    | false, true => false
  | _, _ => false
/-- `a = b` of exact values that are not NaN. -/
def XReal.eqv (a b : XReal) : Bool := !a.isNan && !b.isNan && !a.lt b && !b.lt a

/-- Square root of a natural number, rounded down, bit by bit. -/
def isqrtGo (n : Nat) : Nat → Nat → Nat
  | 0, r => r
  | k + 1, r => isqrtGo n k (if (r + 2 ^ k) * (r + 2 ^ k) ≤ n then r + 2 ^ k else r)
/-- `⌊√n⌋`. -/
def isqrt (n : Nat) : Nat := isqrtGo n (n.log2 / 2 + 1) 0

/-- √(num/den), exact if rational, else a fraction strictly between the same two multiples of 2^−400 as the root; no rounding
boundary of any format lies strictly between those, so one rounding of it is the rounding of the root (04 R123). -/
def sqrtFrac (num den : Nat) : Nat × Nat :=
  let n := num * 4 ^ 400
  let r := isqrt (n / den)
  if r * r * den = n then (r, 2 ^ 400) else (2 * r + 1, 2 ^ 401)

/-- √x (04 R123). -/
def XReal.sqrt : XReal → XReal
  | .nan => .nan
  | .inf n => if n then .nan else .inf false
  | .fin n a b => if a = 0 then .fin n 0 1 else if n then .nan else let (p, q) := sqrtFrac a b; .fin false p q

/-! ### Block formats (02 R48 to R50, R65, R66): 16 elements, m mantissa bits -/

/-- The exact value of element `i` of a block (R49). -/
def bxElem (m : Nat) (block : Nat) (i : Nat) : XReal :=
  let se := block % 256
  if se = 255 then .nan else
    let u := block / 2 ^ (8 + 2 * (i / 4)) % 4
    let f := block / 2 ^ (16 + i * (m + 1)) % 2 ^ (m + 1)
    XReal.scaled (f.testBit m) (f % 2 ^ m) 1 (Int.ofNat se - 127 - u - (m - 1))

/-- The exponent of Step(E, u) (R49). -/
def bxStep (m e u : Nat) : Int := Int.ofNat e - 127 - u - (m - 1)

/-- RN(y, E, u) of R65. -/
def bxNearest (m : Nat) (x : XReal) (e u : Nat) : Nat :=
  match x with
  | .fin _ num den =>
    let (n, d) := inUnits num den (bxStep m e u)
    n / d + (if roundsUp .rn false (n / d) (n % d) d 0 then 1 else 0)
  | _ => 0

/-- The greatest magnitude of a list of finite values. -/
def maxMag (xs : List XReal) : Nat × Nat :=
  xs.foldl (fun acc x => match x with
    | .fin _ n d => if (XReal.fin false acc.1 acc.2).lt (.fin false n d) then (n, d) else acc
    | _ => acc) (0, 1)

/-- The discarded bits of an element at unit Step(E, u) (R58). -/
def bxDiscard (m : Nat) (x : XReal) (e u : Nat) : Nat :=
  match x with
  | .fin _ num den => if num = 0 then 0 else let (n, d) := inUnits num den (bxStep m e u); n % d * 65536 / d
  | _ => 0

/-- Pack(x[0..15], m, mode) of R65; the .rs neighbours lie within the block (R61). -/
def bxPack (m : Nat) (xs : List XReal) (mode : RMode) : Nat :=
  let x (i : Nat) := xs.getD i (.fin false 0 1)
  if xs.any (fun v => match v with | .fin _ _ _ => false | _ => true) then 255
  else
    let (an, ad) := maxMag xs
    let e0 := if an = 0 then 0 else
      let e := floorLog2 an ad + 127
      let e := if e < 0 then 0 else if e > 254 then 254 else e.toNat
      if e < 254 ∧ bxNearest m (.fin false an ad) e 0 = 2 ^ m then e + 1 else e
    let us := (List.range 4).map fun g =>
      let ok u := (List.range 4).all fun i => bxNearest m (x (4 * g + i)) e0 u ≤ 2 ^ m - 1
      if ok 3 then 3 else if ok 2 then 2 else if ok 1 then 1 else 0
    let u (i : Nat) := us.getD (i / 4) 0
    let ds := (List.range 16).map fun i => bxDiscard m (x i) e0 (u i)
    let elem (i : Nat) : Nat :=
      match x i with
      | .fin neg num den =>
        let (n, d) := inUnits num den (bxStep m e0 (u i))
        let g := stochastic (ds.getD ((i + 15) % 16) 0) (ds.getD ((i + 1) % 16) 0)
        let t := n / d + (if roundsUp mode neg (n / d) (n % d) d g then 1 else 0)
        (if neg then 2 ^ m else 0) + min t (2 ^ m - 1)
      | _ => 0
    e0 + us.getD 0 0 * 2 ^ 8 + us.getD 1 0 * 2 ^ 10 + us.getD 2 0 * 2 ^ 12 + us.getD 3 0 * 2 ^ 14
      + (List.range 16).foldl (fun acc i => acc + elem i * 2 ^ (16 + i * (m + 1))) 0

/-- Mantissa bits of a block type code (03 R84, 02 R48). -/
def bxMant (ty : Nat) : Nat := if ty = 0x12 then 2 else if ty = 0x13 then 4 else 7
/-- Bytes of a block of a type (02 R49). -/
def bxBytes (ty : Nat) : Nat := if ty = 0x12 then 8 else if ty = 0x13 then 12 else 18

/-! ### Types by code (03 R84) -/

/-- The floating-point format of a type code. -/
def floatOf (ty : Nat) : Option FFmt :=
  match ty with
  | 0x0D => some .f16 | 0x0E => some .bf16 | 0x0F => some .f32 | 0x10 => some .e4m3 | 0x11 => some .e5m2 | _ => none
/-- Width and signedness of an integer type code .i8 to .n64. -/
def intOf (ty : Nat) : Option (Nat × Bool) :=
  match ty with
  | 0x05 => some (8, true) | 0x06 => some (16, true) | 0x07 => some (32, true) | 0x08 => some (64, true)
  | 0x09 => some (8, false) | 0x0A => some (16, false) | 0x0B => some (32, false) | 0x0C => some (64, false) | _ => none
/-- The integer that the low bits of a word stand for. -/
def intVal (w : Nat) (sg : Bool) (bits : Nat) : Int :=
  let x := bits % 2 ^ w
  if sg ∧ x ≥ 2 ^ (w - 1) then (x : Int) - 2 ^ w else x
/-- Clamped to the range of an integer type. -/
def intClamp (w : Nat) (sg : Bool) (x : Int) : Int :=
  let lo : Int := if sg then -(2 ^ (w - 1)) else 0
  let hi : Int := if sg then 2 ^ (w - 1) - 1 else 2 ^ w - 1
  if x < lo then lo else if x > hi then hi else x
/-- An integer as bits of a width. -/
def intBits (w : Nat) (x : Int) : Nat := (x % 2 ^ w).toNat
/-- RoundTo an integer type: rounds, clamps, NaN becomes 0 (02 R55). -/
def roundToInt (w : Nat) (sg : Bool) (x : XReal) (mode : RMode) : Int :=
  match x with
  | .nan => 0
  | .inf neg => if neg then intClamp w sg (-(2 ^ 70)) else intClamp w sg (2 ^ 70)
  | v => intClamp w sg ((roundInt v mode).getD 0)
/-- The exact value of an element of a type (02 R62). -/
def widenTy (ty bits : Nat) : XReal :=
  match floatOf ty, intOf ty with
  | some f, _ => widen f (bits % 2 ^ f.width)
  | none, some (w, sg) => XReal.ofInt (intVal w sg bits)
  | none, none => .nan

/-! ### Chunked accumulation (02 R67, R68) and INT4 expansion (R70, R71) -/

/-- One chunk of R68: the products' exact sum joins the accumulator. -/
def accChunk (acc : Nat) (products : List XReal) : Nat :=
  let s := XReal.sum .rn products
  if s.isNan then FFmt.f32.nanBits
  else if s.isZero then acc
  else roundTo .f32 ((widen .f32 acc).add .rn s) .rn

/-- The chunks of a list, `c` at a time; `fuel` bounds their number. -/
def chunksOf {α : Type} (c : Nat) : Nat → List α → List (List α)
  | 0, _ => []
  | _ + 1, [] => []
  | fuel + 1, xs => xs.take c :: chunksOf c fuel (xs.drop c)

/-- An accumulator element after the K products of a step in increasing k (R68). -/
def accumulate (c acc : Nat) (products : List XReal) : Nat :=
  (chunksOf c products.length products).foldl accChunk acc

/-- A weight code with its scale and zero point (R70, R71). -/
def int4Weight (scale code zero : Nat) : Nat :=
  roundTo .bf16 ((widen .bf16 scale).mul (XReal.ofInt ((code : Int) - zero))) .rn

end Sys2Proof.Machine
end

