-- ==== Sys2Proof/Machine/Flags.lean ====
section
/-! DEFINITION. What sets a predicate: carries and borrows (04 R117), integer and floating-point conditions (R118, R126), classes (R127). -/
namespace Sys2Proof.Machine

/-- a + b + cin and the carry out (04 R117). -/
def addCarry (a b : W32) (cin : Bool) : W32 × Bool :=
  let n := a.toNat + b.toNat + cin.toNat
  (BitVec.ofNat 32 n, decide (n ≥ 2 ^ 32))
/-- a − b − cin and the borrow out (04 R117). -/
def subBorrow (a b : W32) (cin : Bool) : W32 × Bool :=
  (a - b - BitVec.ofNat 32 cin.toNat, decide (a.toNat < b.toNat + cin.toNat))

/-- The conditions of 04 R118 on two integers; 6 and 7 are reserved. -/
def condInt (code : Nat) (a b : Int) : Bool :=
  match code with
  | 0 => a == b | 1 => a != b | 2 => decide (a < b) | 3 => decide (a ≤ b) | 4 => decide (a > b) | 5 => decide (a ≥ b) | _ => false

/-- `a cond b` for MOD of 04 R118: [2:0] the condition, [3] unsigned. -/
def intCompare {n : Nat} (mod : Nat) (a b : BitVec n) : Bool :=
  if mod / 8 % 2 = 1 then condInt (mod % 8) a.toNat b.toNat else condInt (mod % 8) a.toInt b.toInt

/-- The conditions of 04 R126. -/
def floatCompare (code : Nat) (x y : XReal) : Bool :=
  let un := x.isNan || y.isNan
  match code with
  | 0 => x.eqv y
  | 1 => un || !x.eqv y
  | 2 => !un && x.lt y
  | 3 => !un && (x.lt y || x.eqv y)
  | 4 => !un && y.lt x
  | 5 => !un && (y.lt x || x.eqv y)
  | 6 => un
  | _ => !un

/-- The one-hot class of an encoding (04 R127). -/
def floatClass (f : FFmt) (bits : Nat) : Nat :=
  let b := bits % 2 ^ f.width
  match widen f b with
  | .nan => 256
  | .inf neg => if neg then 1 else 128
  | .fin neg num _ =>
    if num = 0 then (if neg then 8 else 16)
    else if b / 2 ^ f.fb % 2 ^ f.eb = 0 then (if neg then 4 else 32)
    else (if neg then 2 else 64)

end Sys2Proof.Machine
end

