-- ==== Sys2Proof/Machine/Functions.lean ====
section
/-! DEFINITION. The functions of 04 R124 as exact values that round correctly: rational results exactly, the others as fixed-point values
with 768 fraction bits (log entry 15: far below half a unit of any result of .f32, .f16 or .bf16). -/
namespace Sys2Proof.Machine

/-- Fraction bits of the fixed-point values. -/
def fixBits : Nat := 768
/-- 1 in fixed point. -/
def fixOne : Nat := 2 ^ fixBits
/-- A product in fixed point. -/
def fixMul (a b : Nat) : Nat := a * b / fixOne

/-- `Σ z^(2i+1) ÷ (2i+1)` in fixed point with alternating signs if `alt`; `t` is the current power, `sq` is z². -/
def oddSeries (alt : Bool) (sq : Nat) : Nat → Nat → Nat → Int → Int
  | 0, _, _, acc => acc
  | fuel + 1, i, t, acc =>
    let term : Int := t / (2 * i + 1)
    oddSeries alt sq fuel (i + 1) (fixMul t sq) (if alt ∧ i % 2 = 1 then acc - term else acc + term)

/-- artanh(1/k) or arctan(1/k) in fixed point. -/
def seriesInv (alt : Bool) (k : Nat) : Nat := (oddSeries alt (fixOne / (k * k)) 400 0 (fixOne / k) 0).toNat
/-- ln 2 = 2 artanh(1/3). -/
def fixLn2 : Nat := 2 * seriesInv false 3
/-- π = 16 arctan(1/5) − 4 arctan(1/239). -/
def fixPi : Nat := 16 * seriesInv true 5 - 4 * seriesInv true 239

/-- `Σ y^i ÷ i!` in fixed point, 0 ≤ y < 1. -/
def expSeries (y : Nat) : Nat → Nat → Nat → Nat → Nat
  | 0, _, _, acc => acc
  | fuel + 1, i, t, acc => expSeries y fuel (i + 1) (fixMul t y / (i + 1)) (acc + t)
/-- e^y for 0 ≤ y < 1 in fixed point. -/
def fixExp (y : Nat) : Nat := expSeries y 160 0 fixOne 0

/-- 2^x for a signed fraction: exact for integers, otherwise 2^⌊x⌋ × e^(frac · ln 2). -/
def exp2Frac (neg : Bool) (num den : Nat) : XReal :=
  let n : Int := if neg then -(ceilDiv num den : Int) else num / den
  let f : Nat := if neg then (den - num % den) % den else num % den
  if n > 300 then .fin false (2 ^ 300) 1
  else if n < -300 then .fin false 1 (2 ^ 300)
  else if f = 0 then XReal.scaled false 1 1 n
  else XReal.scaled false (fixExp (fixMul (f * fixOne / den) fixLn2)) fixOne n

/-- 2^x (04 R124). -/
def fnExp2 : XReal → XReal
  | .nan => .nan
  | .inf n => if n then .fin false 0 1 else .inf false
  | .fin n a b => exp2Frac n a b

/-- ln of a fraction in [1, 2), by 2 artanh((m − 1)/(m + 1)), in fixed point. -/
def fixLn (num den : Nat) : Nat :=
  let z := (num - den) * fixOne / (num + den)
  2 * (oddSeries false (fixMul z z) 300 0 z 0).toNat

/-- log2 x (04 R124). -/
def fnLog2 : XReal → XReal
  | .nan => .nan
  | .inf n => if n then .nan else .inf false
  | .fin n a b =>
    if a = 0 then .inf true
    else if n then .nan
    else
      let e := floorLog2 a b
      let (p, q) := inUnits a b e
      if p = q then XReal.ofInt e
      else
        let v : Int := e * fixOne + (fixLn p q * fixOne / fixLn2 : Nat)
        .fin (v < 0) v.natAbs fixOne

/-- cos (`k = 0`) or sin (`k = 1`) of 0 ≤ y < 2 in fixed point by its series. -/
def trigSeries (y : Nat) : Nat → Nat → Nat → Int → Int
  | 0, _, _, acc => acc
  | fuel + 1, k, t, acc =>
    trigSeries y fuel (k + 2) (fixMul (fixMul t y) y / ((k + 1) * (k + 2))) (if k / 2 % 2 = 1 then acc - t else acc + t)
/-- sin y. -/
def fixSin (y : Nat) : Int := trigSeries y 90 1 y 0
/-- cos y. -/
def fixCos (y : Nat) : Int := trigSeries y 90 0 fixOne 0

/-- The quadrant and the rest of a positive fraction modulo π/2, in fixed point. -/
def reduceAngle (num den : Nat) : Nat × Nat :=
  let x := num * fixOne / den
  let half := fixPi / 2
  let k := x / half
  (k % 4, x - k * half)

/-- sin of a positive fraction; `shift = 1` gives cos. -/
def trigOf (num den shift : Nat) : Int :=
  let (q, y) := reduceAngle num den
  match (q + shift) % 4 with
  | 0 => fixSin y | 1 => fixCos y | 2 => -(fixSin y) | _ => -(fixCos y)

/-- sin x, x in radians (04 R124). -/
def fnSin : XReal → XReal
  | .fin n a b =>
    if a = 0 then .fin n 0 1
    else let v := trigOf a b 0; .fin (n != decide (v < 0)) v.natAbs fixOne
  | _ => .nan
/-- cos x (04 R124). -/
def fnCos : XReal → XReal
  | .fin _ a b => if a = 0 then .fin false 1 1 else let v := trigOf a b 1; .fin (v < 0) v.natAbs fixOne
  | _ => .nan

/-- e^x as a fraction for |x| ≤ 200: 2^(x ÷ ln 2). -/
def expFrac (neg : Bool) (num den : Nat) : XReal :=
  exp2Frac neg (num * fixOne / den * fixOne / fixLn2) fixOne

/-- tanh x (04 R124); beyond 100 the result lies within 2^−200 of ±1. -/
def fnTanh : XReal → XReal
  | .nan => .nan
  | .inf n => .fin n 1 1
  | .fin n a b =>
    if a = 0 then .fin n 0 1
    else if a > 100 * b then .fin n (2 ^ 200 - 1) (2 ^ 200)
    else match expFrac false (2 * a) b with
      | .fin _ p q => .fin n (p - q) (p + q)
      | v => v

/-- 1 ÷ (1 + e^(−x)) (04 R124). -/
def fnSig : XReal → XReal
  | .nan => .nan
  | .inf n => if n then .fin false 0 1 else .fin false 1 1
  | .fin n a b =>
    if a = 0 then .fin false 1 2
    else if a > 200 * b then (if n then .fin false 1 (2 ^ 280) else .fin false (2 ^ 280 - 1) (2 ^ 280))
    else match expFrac false a b with
      | .fin _ p q => if n then .fin false q (p + q) else .fin false p (p + q)
      | v => v

/-- 1 ÷ x (04 R124). -/
def fnRcp (x : XReal) : XReal := (XReal.fin false 1 1).div x
/-- 1 ÷ √x (04 R124). -/
def fnRsq (x : XReal) : XReal :=
  match x with
  | .fin n a b => if a = 0 then .inf n else if n then .nan else let (p, q) := sqrtFrac b a; .fin false p q
  | .inf false => .fin false 0 1
  | _ => .nan

end Sys2Proof.Machine
end

