-- ==== Sys2Proof/Syntax.lean ====
section
/-! DEFINITION. The moves of the J7: one constructor of Instr for each row of spec/opcode_table.json. An instruction's constructor carries
the fields of its word by the names of 03_encoding_and_assembly.md (R74 to R76); a move of another agent carries none. -/
namespace Sys2Proof

/-- A guard: predicate index and negate bit (03 R79). -/
structure Guard where
  neg : Bool
  idx : BitVec 4
  deriving DecidableEq, Repr

/-- The fields of a standard word below its opcode (03 R74). -/
structure Std where
  ga : Guard
  gb : Guard
  d : BitVec 9
  a : BitVec 9
  b : BitVec 9
  la : BitVec 4
  keep : BitVec 2
  hint : BitVec 2
  bk : BitVec 2
  ak : BitVec 1
  mod : BitVec 5
  deriving DecidableEq, Repr

/-- The fields of an extended instruction below its opcode (03 R75). -/
structure Ext where
  ga : Guard
  gb : Guard
  d : BitVec 9
  a : BitVec 9
  b : BitVec 9
  la : BitVec 4
  keep : BitVec 3
  hint : BitVec 2
  modlo : BitVec 7
  c : BitVec 9
  e : BitVec 9
  bk : BitVec 2
  ak : BitVec 1
  ck : BitVec 1
  modhi : BitVec 8
  imm : BitVec 32
  deriving DecidableEq, Repr

/-- A row that has both formats (the conditional forms of 07 R235). -/
inductive Form where
  | std (w : Std)
  | ext (w : Ext)
  deriving DecidableEq, Repr

/-- One slot of a compact pair (03 R76). -/
structure Slot where
  op : BitVec 7
  grd : BitVec 4
  d : BitVec 9
  s : BitVec 9
  sk : BitVec 2
  deriving DecidableEq, Repr

/-- A compact pair: slot 0 is first in program order (03 R72, R77). -/
structure Pair where
  s0 : Slot
  s1 : Slot
  deriving DecidableEq, Repr

/-- A boot stage that failed, and why (14 R434). -/
structure BootFail where
  stage : Nat
  reason : BitVec 16
  deriving DecidableEq, Repr

/-- The mailbox fields that come with every command (14 R435). -/
structure MbHead where
  cseq : Byte
  alen : BitVec 16
  deriving DecidableEq, Repr

/-- What registering a launch queue fixes (11 R349, 13 R415). -/
structure QueueCfg where
  base : Nat
  count : Nat
  tailPa : Nat
  pasid : BitVec 20
  tenant : BitVec 16
  privileged : Bool
  s0 : W32
  deriving DecidableEq, Repr

/-- What registering a fault queue or the event queue fixes (12 R392, 13 R418). -/
structure RingCfg where
  base : Nat
  count : Nat
  tailPa : Nat
  headPa : Nat
  deriving DecidableEq, Repr

/-- An endpoint binding (13 R432); `bind = false` unbinds. -/
structure BindCfg where
  bind : Bool
  ep : Nat
  queue : Nat
  lseq : W32
  node : Nat
  senders : List Nat
  slots : Nat
  deriving DecidableEq, Repr

/-- The pools of mailbox command 0x0C (14 R437): backing areas, save areas, and 16 trace pages for each core named. -/
structure PoolCfg where
  backing : List Nat
  saves : List Nat
  trace : List (Nat × List Nat)
  deriving DecidableEq, Repr

/-- What travels between packages. An access asks for its runs (13 R425, R427; an atomic carries the operation code of 06 R207 and its comparand), and has
an answer (bytes of a read, none of a write); a query of a count (R428) has a count, none where it is unknown; a version has notices (10 R340); records (R431),
grants, revokes and credits (R432) and Crucible messages (08 R292) carry their headers. -/
inductive FabReq where
  | load
  | store (bytes : List Byte)
  | atomic (op : Nat) (x cmp : W64)
  | red (op : Nat) (x : W64)
  | granule (bytes : List Byte)
  | fill
  | answer (bytes : List Byte)
  | query
  | count (n : Option Nat)
  | notice (version : W32)
  | noticeAck
  | record (hdr : BitVec 128) (bytes : List Byte)
  | recordAck (ep : Nat) (rseq : W32) (delivered : Bool)
  | grant (ep n : Nat)
  | revoke (ep : Nat)
  | credit (ep : Nat)
  | crucible (hdr : BitVec 128) (payload : List Byte)
  deriving DecidableEq, Repr

/-- A fabric packet (13 R424 to R428): source and target package, hop count, priority class, offset PA[43:0] and width of its run, a second run where an
access has one on the same package, the flow, interval and number the sender gave it. -/
structure Packet where
  src : Nat
  dst : Nat
  hop : Nat
  prio : Nat
  offset : Nat
  width : Nat
  more : Option (Nat × Nat)
  flow : Nat
  interval : Nat
  id : Nat
  req : FabReq
  deriving DecidableEq, Repr

/-- An access to register space (10 R448). -/
inductive IoAccess where
  | load
  | store (x : W64)
  | atomic (x : W64)
  deriving DecidableEq, Repr

/-- The units the self-test tests (12 R411, 13 R419). -/
inductive TestUnit where
  | hbm | l2 | l1 | scratchpad | accumulator | registerFile
  deriving DecidableEq, Repr

/-- Who raises a fatal trap or backs off for a permit: a warp, the matrix stream of a block, an engine command of a block, or a context whose restore failed (12 R381, R383, R407). -/
inductive Agent where
  | warp (id : Nat)
  | stream (block : Nat)
  | engine (block : Nat)
  | restore (ctx : Nat)
  deriving DecidableEq, Repr

/-- The mailbox commands (14 R437): what the driver wrote to ARGS, field by field (log entry 10); a route table and a tenant's key material stand in host
memory from an address on. -/
inductive MbArgs where
  | setPortRoles (roles : Nat)
  | acceptFeatures (word : BitVec 256)
  | registerLaunchQueue (q : Nat) (cfg : QueueCfg)
  | registerFaultQueue (q : Nat) (cfg : RingCfg)
  | registerStatusPage (pa : Nat)
  | registerEventQueue (cfg : RingCfg)
  | setPasidContext (pasid : BitVec 20) (entry : BitVec 128)
  | mapTenant (tenant : BitVec 16) (key : Nat) (src n : Nat)
  | reKeyPage (page key : Nat)
  | loadRouteTable (src : Nat)
  | bindEndpoint (cfg : BindCfg)
  | setPools (cfg : PoolCfg)
  | setLarderSize (n : Nat)
  | setTongsTimer (quad t : Nat)
  | setThermalLimits (cap threshold : Nat)
  | attest (nonce : BitVec 512)
  | releaseDumpOrTrace (tenant : BitVec 16) (pa : Nat) (signature : List Byte)
  | restoreMemoryImage (src : Nat)
  | mailboxUnknownCode (code : Byte)
  deriving DecidableEq, Repr, Inhabited

/-- What comes with a move of another agent: the host's or a peer's input, or the thing the move acts on. The docstring of each move's meaning
says which shape it takes; a proposal with another shape cannot happen (log entry 9). -/
inductive Arg where
  | none
  | boot (fail : Option BootFail)
  | mailbox (h : MbHead) (c : MbArgs)
  | id (a : Nat)
  | two (a b : Nat)
  | three (a b c : Nat)
  | word (a : Nat) (x : W32)
  | flag (a : Nat) (ok : Bool)
  | agent (a : Agent)
  | temps (core : Nat) (ts : List Nat)
  | badPage (block page : Nat) (bad : Option Byte)
  | range (pasid : BitVec 20) (va : W64) (bytes : Nat)
  | bytes (a : Nat) (bs : List Byte)
  | access (a : Nat) (bs : Option (List Byte))
  | link (port : Nat) (sub far : Byte)
  | packet (p : Packet)
  | message (hdr : BitVec 128) (bs : List Byte)
  | fill (owner : Nat) (tenant : BitVec 16) (va : W64) (version : W32) (bs : List Byte)
  | io (offset : Nat) (access : IoAccess)
  | test (unit : TestUnit) (place : Nat) (corrected : Bool)
  | translated (wait pa : Nat) (perm : Byte)
  deriving DecidableEq, Repr

/-- One constructor for each row of the table of operations and events: an instruction carries its fields; a move of another agent takes
what comes with it from the state (`Arg`). -/
inductive Instr where
  /-- R77: A compact pair issues two short instructions as their standard forms, reading all sources before either writes. -/
  | compactPair (p : Pair)
  /-- R113: Standard form: 32-bit integer add. -/
  | iadd (w : Std)
  /-- R114: Extended form: 32-bit integer add with IMM32 and optional .sat. -/
  | iaddExt (w : Ext)
  /-- R113: Standard form: 32-bit integer subtract. -/
  | isub (w : Std)
  /-- R114: Extended form: 32-bit integer subtract with IMM32 and optional .sat. -/
  | isubExt (w : Ext)
  /-- R117: Adds with carry in and carry out through a predicate. -/
  | iaddc (w : Std)
  /-- R117: Subtracts with borrow in and borrow out through a predicate. -/
  | isubb (w : Std)
  /-- R113: Standard form: low 32 bits of a product. -/
  | imul (w : Std)
  /-- R113: Extended form: low 32 bits of a product. -/
  | imulExt (w : Ext)
  /-- R113: High 32 bits of the 64-bit product. -/
  | imulh (w : Std)
  /-- R113: Low 32 bits of a × b + c. -/
  | imad (w : Ext)
  /-- R119: Widening multiply-add into a 64-bit pair. -/
  | imadw (w : Ext)
  /-- R113: Integer negate. -/
  | ineg (w : Std)
  /-- R113: Integer absolute value. -/
  | iabs (w : Std)
  /-- R113: Standard form: integer minimum. -/
  | imin (w : Std)
  /-- R113: Extended form: integer minimum. -/
  | iminExt (w : Ext)
  /-- R113: Standard form: integer maximum. -/
  | imax (w : Std)
  /-- R113: Extended form: integer maximum. -/
  | imaxExt (w : Ext)
  /-- R113: Clamps a between b and c. -/
  | iclamp (w : Ext)
  /-- R113: Standard form: bitwise AND. -/
  | iand (w : Std)
  /-- R113: Extended form: bitwise AND. -/
  | iandExt (w : Ext)
  /-- R113: Standard form: bitwise OR. -/
  | ior (w : Std)
  /-- R113: Extended form: bitwise OR. -/
  | iorExt (w : Ext)
  /-- R113: Standard form: bitwise XOR. -/
  | ixor (w : Std)
  /-- R113: Extended form: bitwise XOR. -/
  | ixorExt (w : Ext)
  /-- R113: Bitwise NOT. -/
  | inot (w : Std)
  /-- R113: Standard form: a AND NOT b. -/
  | iandn (w : Std)
  /-- R113: Extended form: a AND NOT b. -/
  | iandnExt (w : Ext)
  /-- R115: Shift left. -/
  | ishl (w : Std)
  /-- R115: Logical shift right. -/
  | ishr (w : Std)
  /-- R115: Arithmetic shift right. -/
  | isar (w : Std)
  /-- R115: Rotate left. -/
  | irot (w : Std)
  /-- R116: Bit-field extract. -/
  | ibfe (w : Ext)
  /-- R116: Bit-field insert. -/
  | ibfi (w : Ext)
  /-- R113: Population count. -/
  | ipopc (w : Std)
  /-- R113: Count leading zeros. -/
  | iclz (w : Std)
  /-- R113: Count trailing zeros. -/
  | ictz (w : Std)
  /-- R113: Bit reverse. -/
  | ibrev (w : Std)
  /-- R117: Selects a or b by a predicate. -/
  | isel (w : Std)
  /-- R118: Standard form: integer compare into a predicate. -/
  | icmp (w : Std)
  /-- R118: Extended form: integer compare into a predicate. -/
  | icmpExt (w : Ext)
  /-- R120: Four-byte dot product with addend. -/
  | idot4 (w : Ext)
  /-- R120: Sum of absolute byte differences with addend. -/
  | isad (w : Ext)
  /-- R119: 64-bit address from base plus shifted index. -/
  | lea (w : Ext)
  /-- R119: High half of a split-register address computation. -/
  | leahi (w : Ext)
  /-- R119: Standard form: 64-bit add. -/
  | add64 (w : Std)
  /-- R119: Extended form: 64-bit add. -/
  | add64Ext (w : Ext)
  /-- R119: Standard form: 64-bit subtract. -/
  | sub64 (w : Std)
  /-- R119: Extended form: 64-bit subtract. -/
  | sub64Ext (w : Ext)
  /-- R118: Standard form: 64-bit compare into a predicate. -/
  | cmp64 (w : Std)
  /-- R118: Extended form: 64-bit compare into a predicate. -/
  | cmp64Ext (w : Ext)
  /-- R119: 64-bit shift left. -/
  | shl64 (w : Std)
  /-- R119: 64-bit logical or arithmetic shift right. -/
  | shr64 (w : Std)
  /-- R121: Integer divide, trapping divide-by-zero. -/
  | idiv (w : Std)
  /-- R121: Integer remainder, trapping divide-by-zero. -/
  | irem (w : Std)
  /-- R123: Standard form: floating add, rounded once. -/
  | fadd (w : Std)
  /-- R123: Extended form: floating add with optional .sat. -/
  | faddExt (w : Ext)
  /-- R123: Standard form: floating subtract. -/
  | fsub (w : Std)
  /-- R123: Extended form: floating subtract with optional .sat. -/
  | fsubExt (w : Ext)
  /-- R123: Standard form: floating multiply. -/
  | fmul (w : Std)
  /-- R123: Extended form: floating multiply with optional .sat. -/
  | fmulExt (w : Ext)
  /-- R123: Fused multiply-add with one rounding. -/
  | ffma (w : Ext)
  /-- R125: Floating minimum. -/
  | fmin (w : Std)
  /-- R125: Floating maximum. -/
  | fmax (w : Std)
  /-- R126: Standard form: floating compare into a predicate. -/
  | fcmp (w : Std)
  /-- R126: Extended form: floating compare into a predicate. -/
  | fcmpExt (w : Ext)
  /-- R127: One-hot floating-point class. -/
  | fclass (w : Std)
  /-- R125: Round to an integral value. -/
  | frnd (w : Std)
  /-- R124: Correctly rounded reciprocal. -/
  | frcp (w : Std)
  /-- R124: Correctly rounded reciprocal square root. -/
  | frsq (w : Std)
  /-- R123: Square root. -/
  | fsqrt (w : Std)
  /-- R123: Floating divide. -/
  | fdiv (w : Std)
  /-- R124: Correctly rounded 2^x. -/
  | fexp2 (w : Std)
  /-- R124: Correctly rounded log2. -/
  | flog2 (w : Std)
  /-- R124: Correctly rounded sine. -/
  | fsin (w : Std)
  /-- R124: Correctly rounded cosine. -/
  | fcos (w : Std)
  /-- R124: Correctly rounded tanh. -/
  | ftanh (w : Std)
  /-- R124: Correctly rounded sigmoid. -/
  | fsig (w : Std)
  /-- R128: Standard form: packed half-precision add. -/
  | hadd2 (w : Std)
  /-- R128: Extended form: packed half-precision add with optional .sat. -/
  | hadd2Ext (w : Ext)
  /-- R128: Standard form: packed half-precision multiply. -/
  | hmul2 (w : Std)
  /-- R128: Extended form: packed half-precision multiply with optional .sat. -/
  | hmul2Ext (w : Ext)
  /-- R128: Packed .f16 fused multiply-add. -/
  | hfma2 (w : Ext)
  /-- R128: Packed .bf16 fused multiply-add. -/
  | bfma2 (w : Ext)
  /-- R129: Two-element dot product plus .f32 addend, rounded once. -/
  | fdot2 (w : Ext)
  /-- R131: Converts one element per lane with one rounding. -/
  | cvt (w : Std)
  /-- R133: Packs 16 values into a BX block. -/
  | bxpack (w : Ext)
  /-- R134: Unpacks a BX block into 16 values. -/
  | bxunpack (w : Ext)
  /-- R135: Sets a predicate from b ≠ 0. -/
  | pset (w : Std)
  /-- R135: Predicate AND. -/
  | pand (w : Std)
  /-- R135: Predicate OR. -/
  | por (w : Std)
  /-- R135: Predicate XOR. -/
  | pxor (w : Std)
  /-- R135: Predicate NOT. -/
  | pnot (w : Std)
  /-- R136: Moves predicates to predicates or to and from a vector register. -/
  | pmov (w : Std)
  /-- R137: Copies a 32-bit or 64-bit value. -/
  | mov (w : Std)
  /-- R137: Writes IMM32 to a vector, pair or uniform register. -/
  | movi (w : Ext)
  /-- R138: Moves between uniform and vector registers. -/
  | movs (w : Std)
  /-- R139: Standard form: 64-bit uniform add. -/
  | sadd (w : Std)
  /-- R139: Extended form: 64-bit uniform add with IMM32. -/
  | saddExt (w : Ext)
  /-- R139: Standard form: uniform subtract. -/
  | ssub (w : Std)
  /-- R139: Extended form: uniform subtract. -/
  | ssubExt (w : Ext)
  /-- R139: Standard form: uniform AND. -/
  | sand (w : Std)
  /-- R139: Extended form: uniform AND. -/
  | sandExt (w : Ext)
  /-- R139: Standard form: uniform OR. -/
  | sor (w : Std)
  /-- R139: Extended form: uniform OR. -/
  | sorExt (w : Ext)
  /-- R139: Uniform shift. -/
  | sshl (w : Std)
  /-- R139: Standard form: uniform compare to 0 or 1. -/
  | scmp (w : Std)
  /-- R139: Extended form: uniform compare. -/
  | scmpExt (w : Ext)
  /-- R140: Reads a special register. -/
  | sprrd (w : Std)
  /-- R141: Writes a special register, checked for access; from a stream, ROWPROG only. -/
  | sprwr (w : Std)
  /-- R145: Standard form: loads a Benes control word as one event. -/
  | bnload (w : Std)
  /-- R145: Extended form: loads a Benes control word with an IMM32 offset. -/
  | bnloadExt (w : Ext)
  /-- R146: Computes a Benes control word from a permutation. -/
  | bnperm (w : Std)
  /-- R147: Routes values through the Benes network. -/
  | bnmov (w : Std)
  /-- R148: Reads from another lane of the segment. -/
  | shfl (w : Std)
  /-- R149: Combines a predicate across lanes. -/
  | vote (w : Std)
  /-- R150: Reduction across lanes with Exec. -/
  | redux (w : Std)
  /-- R151: Prefix scan across lanes with Exec. -/
  | scan (w : Std)
  /-- R152: Mask of lanes with an equal value. -/
  | matchLanes (w : Std)
  /-- R153: Counts set bits of a mask, all or below the lane. -/
  | popm (w : Std)
  /-- R163: Standard form: branch by imm9 offset. -/
  | bra (w : Std)
  /-- R163: Extended form: branch by IMM32 offset. -/
  | braExt (w : Ext)
  /-- R235: Matrix-stream conditional branch on an x register against zero. -/
  | braCond (w : Form)
  /-- R163: Indirect branch. -/
  | brx (w : Std)
  /-- R163: Standard form: call with a link pair. -/
  | call (w : Std)
  /-- R163: Extended form: call with an IMM32 offset. -/
  | callExt (w : Ext)
  /-- R235: Matrix-stream conditional call with an x-register link. -/
  | callCond (w : Form)
  /-- R163: Indirect call. -/
  | callx (w : Std)
  /-- R164: Return to a byte address. -/
  | ret (w : Std)
  /-- R165: Ends threads when non-speculative, and may retire the warp and the block. -/
  | exit (w : Std)
  /-- R166: Makes the warp ineligible until others have issued or 16 clk pass. -/
  | yield (w : Std)
  /-- R166: Does nothing. -/
  | nop (w : Std)
  /-- R168: Initialises a barrier's expected count. -/
  | barInit (w : Std)
  /-- R168: Arrives at a barrier, writing a token and flipping the phase at the last arrival. -/
  | barArrive (w : Std)
  /-- R168: Waits until the barrier's phase differs from the token. -/
  | barWait (w : Std)
  /-- R168: Arrives and waits on an internal token. -/
  | barSync (w : Std)
  /-- R173: Emits a record from registers into a node's bin, staged under speculation. -/
  | emit (w : Ext)
  /-- R173: Emits a record read from memory into a node's bin. -/
  | emitm (w : Ext)
  /-- R177: Moves lanes into the block's reorder pool under a key and continuation. -/
  | reorder (w : Ext)
  /-- R180: Records each lane's early trigger. -/
  | trig (w : Std)
  /-- R181: Waits until a level group's retire count reaches b. -/
  | lwait (w : Std)
  /-- R198: Standard form: load. -/
  | ld (w : Std)
  /-- R198: Extended form: load with scaled index and offset. -/
  | ldExt (w : Ext)
  /-- R198: Standard form: store. -/
  | st (w : Std)
  /-- R198: Extended form: store with scaled index and offset. -/
  | stExt (w : Ext)
  /-- R201: Standard form: waits for a full granule, loads it and optionally empties it. -/
  | ldfe (w : Std)
  /-- R201: Extended form of ldfe. -/
  | ldfeExt (w : Ext)
  /-- R201: Standard form: stores and sets the granule full. -/
  | stfe (w : Std)
  /-- R201: Extended form of stfe. -/
  | stfeExt (w : Ext)
  /-- R202: Sets the full-empty bits of a range. -/
  | fereset (w : Std)
  /-- R202: Reads 64 full-empty bits. -/
  | fequery (w : Std)
  /-- R203: Loads a BX block as one event. -/
  | ldbx (w : Ext)
  /-- R203: Stores a BX block as one event. -/
  | stbx (w : Ext)
  /-- R205: Standard form: prefetch, making no event. -/
  | pfetch (w : Std)
  /-- R205: Extended form of pfetch. -/
  | pfetchExt (w : Ext)
  /-- R207: Standard form: atomic read-modify-write returning the old value. -/
  | atom (w : Std)
  /-- R207: Extended form: atomic with offset, including cas. -/
  | atomExt (w : Ext)
  /-- R207: Standard form: reduction without a result. -/
  | red (w : Std)
  /-- R207: Extended form: reduction with offset. -/
  | redExt (w : Ext)
  /-- R213: Engine copy, optionally expanding compressed source. -/
  | copy (w : Ext)
  /-- R214: Engine gather by index list. -/
  | gather (w : Ext)
  /-- R214: Engine scatter by index list. -/
  | scatter (w : Ext)
  /-- R213: Engine fill with a 64-bit pattern. -/
  | fill (w : Ext)
  /-- R223: Publishes a buffered region by swapping its front copy. -/
  | pub (w : Std)
  /-- R225: Waits on a completion channel and reports its sticky error. -/
  | cwait (w : Std)
  /-- R226: Reads a channel's count and sticky error without waiting. -/
  | cpoll (w : Std)
  /-- R228: Loads a codec table image into a port slot. -/
  | ctab (w : Ext)
  /-- R230: Closes a fabric store interval and checks its counts. -/
  | fabfence (w : Std)
  /-- R231: Streams a whole-memory checkpoint image. -/
  | mckpt (w : Ext)
  /-- R239: Reserves and zeroes accumulator slots. -/
  | mres (w : Std)
  /-- R240: Releases accumulator slots. -/
  | mrel (w : Std)
  /-- R244: Checks shape and prologue records and warms the record cache. -/
  | mshape (w : Ext)
  /-- R247: Tile step with INT4 weight expansion. -/
  | mprol (w : Ext)
  /-- R245: Zeroes an accumulator slot. -/
  | mzero (w : Std)
  /-- R247: Tile step C += A · B. -/
  | mmac (w : Ext)
  /-- R252: Reads a slot window out to memory with one rounding. -/
  | mread (w : Ext)
  /-- R252: Loads a slot window from memory. -/
  | mwrite (w : Ext)
  /-- R253: Waits until at most b Anvil operations of the stream are outstanding. -/
  | mwait (w : Std)
  /-- R258: Requests per-lane network evaluation from the Tongs. -/
  | nnev (w : Ext)
  /-- R267: Sends the launch's pending Tongs tiles at once. -/
  | nnflush (w : Std)
  /-- R279: Starts a ray query and traverses. -/
  | rtrace (w : Ext)
  /-- R279: Rejects the candidate and traverses on. -/
  | rnext (w : Std)
  /-- R279: Commits the candidate, optionally ending the query. -/
  | rhit (w : Std)
  /-- R279: Ends the ray query. -/
  | rend (w : Std)
  /-- R279: Reads the query's result. -/
  | rquery (w : Std)
  /-- R283: Forwards remote work records to another package's endpoint. -/
  | rfwd (w : Ext)
  /-- R289: Sends a Crucible compositing collective. -/
  | ccomp (w : Ext)
  /-- R291: Sends a Crucible all-reduce collective. -/
  | callred (w : Ext)
  /-- R183: Raises a software-chosen trap. -/
  | trap (w : Std)
  /-- R184: Ends the handler and resumes at TRAPPC or the next instruction. -/
  | rti (w : Std)
  /-- R185: Sets TMASK.M. -/
  | tmask (w : Std)
  /-- R185: Clears TMASK.M, delivering held events. -/
  | tunmask (w : Std)
  /-- R187: Standard form: removes translations. -/
  | tlbinv (w : Std)
  /-- R187: Extended form: removes translations with an IMM32 PASID. -/
  | tlbinvExt (w : Ext)
  /-- R188: Writes back, drops or invalidates cached copies. -/
  | cachectl (w : Std)
  /-- R189: Writes a marker record to the trace ring. -/
  | tmark (w : Std)
  /-- R190: Turns speculation off for the warp. -/
  | specoff (w : Std)
  /-- R190: Turns speculation back on. -/
  | specon (w : Std)
  /-- R191: Ends the launch with status halted. -/
  | halt (w : Std)
  /-- R192: Offers the core for pre-emption. -/
  | ctxsw (w : Std)
  /-- R434: Power-on starts the Hearth boot stages 0 to 4, which verify firmware, train HBM, zero state and open the mailbox. -/
  | powerOn
  /-- R434: A package reset writes back host sectors, recalls host-held HBM lines and reruns the boot stages. -/
  | packageReset
  /-- R414: A function or CXL reset writes back every modified host sector and releases the sectors before any state is lost. -/
  | functionReset
  /-- R437: Mailbox command 0x01 sets each of the 12 ports as a fabric link or an Ultra Ethernet port, before features are accepted. -/
  | setPortRoles
  /-- R421: Mailbox command 0x02 accepts a subset of the offered feature word, or is refused. -/
  | acceptFeatures
  /-- R349: Mailbox command 0x03 registers a launch queue with its base, count, tail word, PASID, tenant, privilege and first SEQ. -/
  | registerLaunchQueue
  /-- R392: Mailbox command 0x04 registers fault queue 0 to 3 with its base, count, tail word and head word. -/
  | registerFaultQueue
  /-- R415: Mailbox command 0x05 registers the 4 KiB status page. -/
  | registerStatusPage
  /-- R418: Mailbox command 0x06 registers the driver's event queue. -/
  | registerEventQueue
  /-- R385: Mailbox command 0x07 binds a PASID to a context entry, and is refused when a MODE 1 entry names an unregistered fault queue. -/
  | setPasidContext
  /-- R437: Mailbox command 0x08 maps a tenant to a key index with its public key and wrapped AES key. -/
  | mapTenant
  /-- R341: Mailbox command 0x09 changes a page's key index and rewrites the page as zeros under the new key. -/
  | reKeyPage
  /-- R423: Mailbox command 0x0A loads the 128-entry route table once no ordered packet sent under the old table is unacknowledged. -/
  | loadRouteTable
  /-- R432: Mailbox command 0x0B binds or unbinds a receive endpoint and sends slot grants to the senders. -/
  | bindEndpoint
  /-- R437: Mailbox command 0x0C sets the scratchpad backing pool, the save-area pool and the trace-ring pages. -/
  | setPools
  /-- R339: Mailbox command 0x0D sets the Larder size in 4 MiB units, and is refused while any launch runs. -/
  | setLarderSize
  /-- R261: Mailbox command 0x0E sets a quad's Tongs timer T, or every quad's. -/
  | setTongsTimer
  /-- R440: Mailbox command 0x0F sets the power cap and the migration threshold. -/
  | setThermalLimits
  /-- R438: Mailbox command 0x10 returns a report over the measurements, features, roles, table digests and nonce, signed with the identity key. -/
  | attest
  /-- R399: Mailbox command 0x11 releases a tenant's dumps or trace records only against the tenant's signature. -/
  | releaseDumpOrTrace
  /-- R439: Mailbox command 0x12 verifies an mckpt image and writes back the pages whose key index is mapped. -/
  | restoreMemoryImage
  /-- R437: A CODE write naming no command is refused with RSN 0x0001, and a CODE write while busy is ignored and counted. -/
  | mailboxUnknownCode
  /-- R350: A write to a launch queue's tail word invalidates the scheduler's copy and wakes it to read the new entries. -/
  | tailWordWrite
  /-- R352: The scheduler accepts an entry in SEQ order, copies it and reads the header, or stops the queue. -/
  | launchEntryAccept
  /-- R355: When its last dependence triggers, a launch enters lease set-up, PENDING. -/
  | dependenceSatisfied
  /-- R358: When every leased page and pool page is resident, the extent table is built and the launch becomes LIVE, or it ends LEASEFAIL or REFUSED 0x09. -/
  | leaseSetupDone
  /-- R360: The scheduler places a block on a core once all its resources are free, and sets every thread's state by R13. -/
  | blockPlace
  /-- R356: A launch triggers when every thread has triggered or exited and no record waits, and its dependants start. -/
  | launchTrigger
  /-- R356: A launch completes when every thread and stream has exited and every command has completed, and the completion record and status page are written. -/
  | launchComplete
  /-- R363: A sent record takes the lowest free pool slot and joins its node's bin in one event. -/
  | recordPlacement
  /-- R363: A slot freed when a batch starts serves the oldest waiting sender. -/
  | poolSlotFree
  /-- R364: A bin holding a full batch, when room exists, launches a batch of the oldest records as one warp. -/
  | batchLaunch
  /-- R364: A bin timer that expires launches every record present, up to BATCH, once room exists. -/
  | binTimerExpiry
  /-- R367: When every resident warp of a core has waited on a pool for 65,536 base clk, the core is pre-empted and the waiting batch is placed there. -/
  | poolStallRelief
  /-- R361: A consumer reserve that falls free is offered first to the waiting batch of the highest node index. -/
  | consumerReserveFree
  /-- R368: At each clk a quarter selects one ready warp, by starvation, then class, then age. -/
  | quarterIssueSelect
  /-- R166: A yielded warp becomes eligible again after 16 clk, if not sooner. -/
  | yieldTimeout
  /-- R370: A block of class c that has waited 2 µs with no room pre-empts a core running only lower classes. -/
  | priorityPreempt
  /-- R375: A core that is hot, with blocks resident 4 ms, has its context migrated to a core that is not hot. -/
  | thermalMigration
  /-- R371: When the spill engine has read the incoming context into the shadow bank, SWAP begins, or the restore fails its integrity check. -/
  | shadowLoadDone
  /-- R373: The banks are exchanged in 64 clk, after outgoing warps roll back, finish and save their state. -/
  | shadowSwap
  /-- R371: The outgoing context has been written to its save area and the core returns to RUN. -/
  | spillDone
  /-- R374: A saved context returns whole to a core with room and the same slot numbers free. -/
  | contextRestore
  /-- R372: A save area that returns to the pool lets a waiting pre-emption begin. -/
  | saveAreaReturn
  /-- R32: When speculation resolves without rollback, the staged records and commands are sent in program order. -/
  | stagedRelease
  /-- R300: A load performs once it holds its value, older accesses have performed and its line is unchanged, and it leaves the read set. -/
  | loadPerform
  /-- R300: A store leaves the store buffer in program order and is written at the site that owns the line. -/
  | storePerform
  /-- R307: An invalidation, engine write, publish, snoop or eviction that reaches a read-set line rolls the warp back to its checkpoint. -/
  | rollback
  /-- R312: At each 4,096 base clk boundary the core's rollback count restarts, and 256 rollbacks within one interval put every resident warp into careful mode. -/
  | rollbackIntervalExpiry
  /-- R86: A long-latency instruction completes, writes its destinations and releases a thread waiting at the end of its window. -/
  | longInstructionComplete
  /-- R217: An asynchronous engine trap is held and delivered at the warp's next instruction boundary with M = 0. -/
  | asyncTrapDelivery
  /-- R383: A fatal trap stops the launch, writes the dump and completes the launch FAULTED. -/
  | fatalTrap
  /-- R381: A back-off that expires makes a warp or stream refused a trap permit retry its instruction from decode. -/
  | permitBackoffExpiry
  /-- R394: A service write to the head word wakes a fault waiting for room in the queue. -/
  | faultQueueHeadMove
  /-- R382: When the service marks an entry SERVED or FAILED, its waiting warps replay or raise page-fault REASON 0x07. -/
  | faultEntryComplete
  /-- R391: A PRI page response from the host marks the fault SERVED or FAILED. -/
  | priResponse
  /-- R391: A host ATS invalidation completes once the guarantee of R396 holds for the PASID and range. -/
  | atsInvalidationRequest
  /-- R338: A host ownership snoop invalidates one sector, sends modified data to the host and evicts the line from the L1s and the L2. -/
  | hostSnoopOwnership
  /-- R338: A host read snoop returns modified data and downgrades the sector and the L1 copies to shared. -/
  | hostSnoopRead
  /-- R413: A host CXL.mem read or ownership request reaches the home slice as one event, and is refused all ones or discarded on keyed pages. -/
  | hostMemAccess
  /-- R413: The host's answer to a back-invalidation snoop lets a waiting device store to the line perform. -/
  | backInvalidateAnswer
  /-- R336: The home's acknowledgement frees a write-back buffer entry, and a superseded write-back is discarded. -/
  | writebackAck
  /-- R414: A surprise loss of the host link holds modified sectors in the bridge and logs a host-loss event. -/
  | linkDown
  /-- R414: When the link retrains, the held modified sectors are written back first. -/
  | linkRetrain
  /-- R419: A fabric or Ethernet port goes down, comes up or retrains, and a LINK event is queued. -/
  | fabricLinkChange
  /-- R424: A fabric packet is forwarded on its next hop, delivered, or discarded with a ROUTE event when it arrives with hop count 4. -/
  | fabricPacketArrival
  /-- R427: A remote load, store, red or atomic is applied at the target's ingress atomic cache or home slice, in route order. -/
  | remoteAccessIngress
  /-- R300: A remote load value or store acknowledgement returns and the access completes. -/
  | remoteResponseArrival
  /-- R426: After 200 µs without a response, a remote load or atomic traps fatally and a remote write is taken as acknowledged but uncounted. -/
  | remoteTimeout
  /-- R427: An ingress atomic-cache line idle for 2 µs is written back and released. -/
  | atomicCacheLeaseExpiry
  /-- R427: A local access to a line held by the ingress atomic cache recalls it after the operation in progress. -/
  | atomicCacheRecall
  /-- R429: A count-table entry not queried for 10 ms is freed and its flow marked uncounted. -/
  | countEntryAgeOut
  /-- R428: A fabfence query to a target returns and frees the count entry, or replies unknown. -/
  | countQuery
  /-- R431: A remote work record arrives at an endpoint and is refused, discarded as a duplicate, or held in a receive slot for placement. -/
  | remoteRecordArrival
  /-- R283: An acknowledgement or refusal of a forwarded record reaches the sender's rfwd. -/
  | recordAckArrival
  /-- R432: A grant from a target sets the sender's credits for an endpoint. -/
  | slotGrant
  /-- R432: A revoke from a target sets the credits to zero, and waiting rfwd lanes give FAILED. -/
  | slotRevoke
  /-- R432: A slot's credit returns to the sender once its record is placed. -/
  | creditReturn
  /-- R430: The transport declares an Ultra Ethernet peer unreachable, and a PEERGONE event is queued. -/
  | peergone
  /-- R287: A checked collective starts when one of the 16 places is free. -/
  | collectiveStart
  /-- R292: A Crucible data message is acknowledged, merged, or discarded as a duplicate, and a configuration mismatch ends the rank GROUP. -/
  | crucibleData
  /-- R444: A request-again is answered from the kept copy of the message. -/
  | requestAgain
  /-- R293: An abort ends the receiving rank PEER, or GROUP for ERR 0x11. -/
  | crucibleAbort
  /-- R444: An acknowledgement discards the kept copy of a sent message. -/
  | crucibleAck
  /-- R293: A step timer expiry sends request-again, and after the third the rank ends LOST and sends aborts. -/
  | crucibleRoundTimer
  /-- R294: The Crucible publishes the region, or makes a non-swapping publish, and writes the completion record. -/
  | collectiveComplete
  /-- R340: A store to the shard version register sends version notices and performs once every Larder has acknowledged. -/
  | shardVersionWrite
  /-- R340: A version notice drops every Larder line of its owner and is acknowledged. -/
  | versionNotice
  /-- R340: A Larder fill response is installed, or discarded and requested again if its version is stale. -/
  | larderFillResponse
  /-- R448: An I/O access to an unassigned register-space or telemetry offset loads zero and discards stores. -/
  | registerSpaceOther
  /-- R326: An access to an unpinned scratchpad page pins it in a frame, zero-filled or filled from its backing. -/
  | scratchpadPin
  /-- R326: The page fill completes and the pinning access proceeds, or uncorrectable-memory is raised. -/
  | scratchpadFillDone
  /-- R328: Unpinning writes a frame's modified lines and full-empty bits to the backing and frees the frame. -/
  | scratchpadUnpin
  /-- R411: A corrected or uncorrectable error starts a pattern test of the unit, whose result goes to the log, telemetry and an ERRCLASS event. -/
  | errorSelftest
  /-- R440: Package power averaged over 1 ms above the cap lowers the arithmetic clock by 100 MHz. -/
  | powerThrottle
  /-- R440: Power 5% below the cap for 10 ms raises the arithmetic clock again. -/
  | powerRecover
  /-- R261: An nnev request's rows are appended to pending tiles of their key, and a full tile is sent. -/
  | tongsRequest
  /-- R261: A pending tile whose timer T expires is sent padded to 128 rows. -/
  | tongsTimerExpiry
  /-- R264: A sent tile's record is read, checked and translated, and failures trap the warps attributed to the tile. -/
  | tongsTileCheck
  /-- R263: Tile results return, and an nnev whose rows have all returned writes its outputs. -/
  | tongsTileResult
  /-- R369: A free Anvil grants the reservation entry of the lowest effective class, oldest first. -/
  | anvilPassGrant
  /-- R247: A pass completes its rows and frees its reservation entry. -/
  | anvilPassDone
  /-- R279: The ray engine ends a traversal in DONE or stops at a candidate, and writes the eight result registers. -/
  | rayTraversalDone
  /-- R218: An engine command completes, writes its completion record and lowers its channel count. -/
  | engineCommandDone
  /-- R228: A ctab that waits 65,536 clk gives up with BUSY and leaves the slot unchanged. -/
  | ctabWaitTimeout
  /-- R178: Threads leave a reorder pool as a full warp, or as partial warps when no thread of the block is ready outside the pool. -/
  | reorderPoolDepart
  /-- R414: A quad or compute die with no resident block enters power-gating: its L1s write back every modified host line and answer snoops until acknowledged, and only then does the domain gate. -/
  | powerGating
  /-- R391: In MODE 3 the host's ATS translation completion arrives and is held as a TLB entry, letting the waiting access go on. -/
  | atsTranslationCompletion
  /-- R418: A driver write to the event queue's head word returns room, and one LOST event records the count of dropped events. -/
  | eventQueueHeadMove
  /-- R340: Acknowledgements of a version notice arrive at the owner, and the shard-version store performs when the last one has arrived. -/
  | versionNoticeAcknowledgement
  /-- R411: The targeted self-test of a unit ends within 2 µs: the data is restored, the accesses that waited go on, and the result is logged as transient or lasting. -/
  | selfTestEnd
  /-- R228: A coded block queued at a port leaves it, so that no queued block carries the slot's current generation and a waiting ctab loads its image. -/
  | queuedBlockSent
  deriving DecidableEq, Repr

end Sys2Proof
end

