-- ==== Sys2Proof/Config.lean ====
section
/-! DEFINITION. What an implementation fixes and what the spec leaves open. The opaque constants are the free values: no proof can see what they are. -/
namespace Sys2Proof.Config

/-- A choice the spec leaves open, numbered by State.free (log entry 6). -/
opaque freeNat : Nat → Nat
/-- A byte string the spec leaves open: a signature, a certificate, a ciphertext (log entry 16). -/
opaque freeBytes : Nat → List Byte
/-- The integrity tag of a line under a key (10 R342; log entry 16). -/
opaque lineTag : Nat → Nat → List Byte → BitVec 15
/-- The 64-byte AES-XTS-256 key of a key index, unwrapped from what came with the tenant's mapping (10 R341, 14 R437; log entry 16). -/
opaque memKey : Nat → List Byte → List Byte
/-- The home slice's hash of a line over the next hops of unordered traffic (13 R425; log entry 6). -/
opaque hopHash : Nat → Nat

/-- The set of an L1 that a line falls into (10 R332; log entry 6). -/
opaque l1Set : Nat → Nat
/-- The home slice of a line, chosen by a fixed hash that is not architectural (10 R334; log entry 6). -/
opaque homeSlice : Nat → Nat
/-- Which of its Ultra Ethernet ports a package uses for a peer (13 R430; log entry 6). -/
opaque uePort : Nat → Nat
/-- The firmware images that a boot loads: the Hearth's, and the three of the dies (14 R434; log entry 16). -/
opaque firmware : Nat → Nat → List Byte
/-- The package's identity key (14 R438; log entry 16). -/
opaque identityKey : List Byte
/-- An ML-DSA-65 signature under a key over a message, with the signer's randomness (14 R438; log entry 16). -/
opaque mlDsaSign : List Byte → List Byte → List Byte → List Byte
/-- The certificate chain of the identity key (14 R438; log entry 16). -/
opaque certificates : List Byte
/-- What the driver's bytes in ARGS say for a command: where each argument lies in them is not given (14 R435, R437; log entry 10). -/
opaque argsOf : Nat → List Byte → MbArgs
/-- Bytes of a save area after its records and drained slots, whose layout is not architectural (12 R400; log entry 65). -/
opaque areaTail : Nat

/-- Page requests beside the first that the host's allocation lets stand unanswered (12 R391; log entry 32). -/
opaque hostRequests : Nat

/-- 00 R3: cores on the package. -/
def cores : Nat := 192
/-- 00 R3: quarters of a core. -/
def quarters : Nat := 4
/-- 01 R15: 32-bit registers in a quarter's live bank. -/
def bankRegs : Nat := 65536
/-- 01 R15: warps resident in a quarter at most. -/
def quarterWarps : Nat := 16
/-- 00 R3: named barriers of a core. -/
def coreBarriers : Nat := 512
/-- 00 R3: trap permits of a core. -/
def permits : Nat := 4
/-- 07 R238: entries of a quad's reservation table. -/
def reservations : Nat := 32
/-- 08 R287: collectives that run at once. -/
def collectives : Nat := 16
/-- 13 R432: receive slots of a package. -/
def receiveSlots : Nat := 16384
/-- 13 R427: lines of the ingress atomic cache. -/
def ingressLines : Nat := 256
/-- 13 R428: entries of the count table. -/
def countEntries : Nat := 4096
/-- 13 R420: the 256-bit feature word the J7 offers, bits 0 to 9. -/
def offered : BitVec 256 := 0x3FF#256
/-- 10 R332: sets of an L1, of 16 ways each. -/
def l1Sets : Nat := 128
/-- 10 R332: ways of an L1's set. -/
def l1Ways : Nat := 16
/-- 10 R333: lines of a core's uniform-constant cache. -/
def uccLines : Nat := 128
/-- 10 R334: slices of the L2. -/
def slices : Nat := 384
/-- 00 R3: lines of the L2, 384 MiB. -/
def l2Lines : Nat := 3145728
/-- 10 R323: bytes of HBM. -/
def hbmBytes : Nat := 0x8000000000
/-- 10 R323: first offset of register space. -/
def regBase : Nat := 0xF0000000000
/-- 14 R441: the telemetry block in register space. -/
def telemetryBase : Nat := 0xF0000010000
/-- 01 R34: the on-chip window. -/
def windowBase : W64 := 0x00FFFF0000000000#64

end Sys2Proof.Config
end

