-- ==== Sys2Proof/Machine/Fields.lean ====
section
/-! DEFINITION. What each opcode takes in each field of its word: operand classes and kinds, modifiers, KEEP, HINT and LA
(03 R74 to R92, R96 to R101, and the encodings of chapters 04 to 08), as one check per field in the order of R96. -/
namespace Sys2Proof.Machine

/-- The fields of a standard word or an extended instruction as numbers (03 R74, R75); `mod` is MOD or MODLO. -/
structure Fields where
  ext : Bool
  ga : Guard
  gb : Guard
  d : Nat
  a : Nat
  b : Nat
  la : Nat
  keep : Nat
  hint : Nat
  mod : Nat
  bk : Nat
  ak : Nat
  c : Nat
  e : Nat
  ck : Nat
  mhi : Nat
  imm : W32
  deriving DecidableEq, Repr

/-- The fields of a standard word. -/
def Fields.ofStd (w : Std) : Fields :=
  ⟨false, w.ga, w.gb, w.d.toNat, w.a.toNat, w.b.toNat, w.la.toNat, w.keep.toNat, w.hint.toNat, w.mod.toNat, w.bk.toNat, w.ak.toNat,
    0, 0, 0, 0, 0⟩
/-- The fields of an extended instruction. -/
def Fields.ofExt (w : Ext) : Fields :=
  ⟨true, w.ga, w.gb, w.d.toNat, w.a.toNat, w.b.toNat, w.la.toNat, w.keep.toNat, w.hint.toNat, w.modlo.toNat, w.bk.toNat, w.ak.toNat,
    w.c.toNat, w.e.toNat, w.ck.toNat, w.modhi.toNat, w.imm⟩
/-- The fields of either format. -/
def Fields.ofForm : Form → Fields
  | .std w => .ofStd w
  | .ext w => .ofExt w

/-- What decoding depends on: the stream, the declared registers N, the warp width W and the features accepted (R80, R100, 13 R421). -/
structure DecCtx where
  matrix : Bool
  regs : Nat
  width : Nat
  features : BitVec 256
  deriving DecidableEq, Repr

/-- Operand classes (03 R80); `v n al` is n registers from a multiple of al; `any`: the modifier that would say the class has a reserved
value, so the field is not checked and the modifier's own reason is the one reported (DEDUCED, log 22). -/
inductive Cls where
  | none
  | v (n al : Nat)
  | u | ud | p | pw | bn | m
  | spr | sprw
  | num (bound : Nat)
  | any
  deriving DecidableEq, Repr

/-- A source operand: a fixed class with zero kind bits, or the kinds it may take (03 R81). -/
structure Src where
  fixed : Option Cls := .none
  v : Option (Nat × Nat) := .none
  imm : Bool := false
  u : Bool := false
  zero : Bool := false
  deriving DecidableEq, Repr

/-- An operand that is not taken. -/
def Src.no : Src := ⟨some .none, none, false, false, false⟩
/-- A fixed class. -/
def Src.fix (c : Cls) : Src := ⟨some c, none, false, false, false⟩
/-- A source whose class a reserved modifier leaves unsaid (log 22). -/
def Src.any : Src := Src.fix .any
/-- V of n registers, or U. -/
def Src.vu (n : Nat) : Src := ⟨none, some (n, n), false, true, false⟩
/-- V only. -/
def Src.vOnly (n al : Nat) : Src := ⟨none, some (n, al), false, false, false⟩
/-- U only. -/
def Src.uOnly : Src := ⟨none, none, false, true, false⟩
/-- V of n registers, immediate, U or literal zero. -/
def Src.viuz (n : Nat) : Src := ⟨none, some (n, n), true, true, true⟩
/-- V, U or literal zero. -/
def Src.vuz (n : Nat) : Src := ⟨none, some (n, n), false, true, true⟩
/-- Immediate, U or literal zero. -/
def Src.iuz : Src := ⟨none, none, true, true, true⟩

/-- What an opcode takes. `mod`, `mhi` and `immBad` hold the reason of a modifier or IMM32 that is refused; `dSrc`: field D is a source;
`xp`, `xv`: predicates and vector registers written beyond D and E. -/
structure OpSpec where
  d : Cls := .none
  a : Src := .no
  b : Src := .no
  c : Src := .no
  e : Cls := .none
  mod : Option Nat := none
  mhi : Option Nat := none
  immBad : Option Nat := none
  immUsed : Bool := false
  long : Bool := false
  hint : Bool := false
  dSrc : Bool := false
  xp : List Nat := []
  xv : Nat := 0
  dBad : Option Nat := none
  bBad : Option Nat := none
  deriving DecidableEq, Repr

/-- The reason 0x08 unless a modifier is legal (03 R97). -/
def unless8 (ok : Bool) : Option Nat := if ok then none else some 8

/-- The class of a field where its modifier is legal, else no class (log 22). -/
def Cls.when (ok : Bool) (c : Cls) : Cls := if ok then c else .any
/-- The same of a source. -/
def Src.when (ok : Bool) (s : Src) : Src := if ok then s else .any

/-- Modifiers of a plain instruction: the type list and, in the extended form, MODHI at most `hi`. -/
def typed (s : OpSpec) (f : Fields) (types : List Nat) (hi : Nat) : OpSpec :=
  { s with mod := unless8 (types.contains f.mod), mhi := unless8 (f.mhi ≤ hi) }

/-- FT and RND of 04 R122: FT within the list, RND at most `rmax`, MODHI[0] .sat if allowed. Rounding code 4 (.rs) has REASON 0x08 here, where 03 R97
could also give 0x0B (log entry 22). -/
def floatMod (s : OpSpec) (f : Fields) (fts : List Nat) (rmax hi : Nat) : OpSpec :=
  { s with mod := unless8 (decide (f.mod < 32) && fts.contains (f.mod / 8) && decide (f.mod % 8 ≤ rmax)), mhi := unless8 (f.mhi ≤ hi) }

/-- Three-operand shape of 04 R112. -/
def ab : OpSpec := { d := .v 1 1, a := .vu 1, b := .viuz 1 }
/-- The same with C. -/
def abc : OpSpec := { ab with c := .vu 1 }
/-- One source A. -/
def aOnly : OpSpec := { d := .v 1 1, a := .vu 1 }

/-- Integer and address opcodes (04 R112 to R121). Literal zero as B of `imadw`, `lea` and `leahi` is accepted, as R112 allows; R119 does not list it
(log entry 22). -/
def intSpec (op : Nat) (f : Fields) : OpSpec :=
  let carry : OpSpec := { ab with mod := unless8 (f.mod < 16) }
  let pc := if f.mod % 16 = 15 then [] else [f.mod % 16]
  match op with
  | 0x001 | 0x002 => typed ab f [7, 11] 1
  | 0x003 | 0x004 => { carry with xp := pc }
  | 0x005 | 0x006 | 0x00B | 0x00C => typed ab f [7, 11] 0
  | 0x007 | 0x00D => typed abc f [7, 11] 0
  | 0x008 => typed { abc with d := .v 2 2, c := .vu 2 } f [7, 11] 0
  | 0x009 | 0x00A => typed aOnly f [7] 0
  | 0x00E | 0x00F | 0x010 | 0x012 | 0x013 | 0x014 | 0x016 => typed ab f [2] 0
  | 0x011 | 0x019 | 0x01A | 0x01B | 0x01C => typed aOnly f [2] 0
  | 0x015 => typed ab f [7] 0
  | 0x017 => typed ab f [7, 11] 0
  | 0x018 => typed abc f [2] 0
  | 0x01D => carry
  | 0x01E => { ab with d := .p, mod := unless8 (decide (f.mod < 16) && decide (f.mod % 8 ≤ 5)), mhi := unless8 (f.mhi = 0) }
  | 0x025 => { d := .p, a := .vu 2, b := .viuz 2,
               mod := unless8 (decide (f.mod < 16) && decide (f.mod % 8 ≤ 5)), mhi := unless8 (f.mhi = 0) }
  | 0x01F => { abc with mod := unless8 (f.mod < 8), mhi := unless8 (f.mhi = 0) }
  | 0x020 => { abc with mod := unless8 (decide (f.mod < 8) && decide (f.mod % 2 = f.mod / 2 % 2)), mhi := unless8 (f.mhi = 0) }
  | 0x021 => { d := .v 2 2, a := .vu 2, b := .viuz 1, mod := unless8 (f.mod < 16), mhi := unless8 (f.mhi = 0) }
  | 0x022 => { d := .v 1 1, a := .vOnly 1 1, b := .viuz 1, c := .vu 1, mod := unless8 (f.mod < 16), mhi := unless8 (f.mhi = 0) }
  | 0x023 | 0x024 => typed { d := .v 2 2, a := .vu 2, b := ⟨none, some (2, 2), true, true, false⟩ } f [3] 0
  | 0x026 => typed { d := .v 2 2, a := .vu 2, b := ⟨none, some (1, 1), true, true, false⟩ } f [3] 0
  | 0x027 => typed { d := .v 2 2, a := .vu 2, b := ⟨none, some (1, 1), true, true, false⟩ } f [3, 8] 0
  | _ => { typed ab f [7, 11] 0 with long := true }

/-- The pairs, roundings and saturations that `cvt` refuses (04 R130, 02 R63, R64, R55, R57). -/
def cvtRefused (dt st rnd : Nat) (sat : Bool) : Bool :=
  let isInt t := decide (5 ≤ t ∧ t ≤ 0xC)
  let isFloat t := decide (0xD ≤ t ∧ t ≤ 0x11)
  if !(isInt dt || isFloat dt) || !(isInt st || isFloat st) then true
  else if isInt dt && isInt st then decide (rnd ≠ 0)
  else if isInt dt then decide (rnd = 4)
  else if isInt st then (dt == 0xF && decide (rnd = 4)) || (sat && dt == 0xF && [5, 6, 9, 10].contains st)
  else
    let exact := dt == st || dt == 0xF || ([0x10, 0x11].contains st && [0xD, 0xE].contains dt)
    (dt == 0xF && decide (rnd = 4)) || (sat && exact)

/-- The registers of a block of a type (04 R133). -/
def blockCls (ty : Nat) : Nat × Nat := if ty = 0x12 then (2, 2) else if ty = 0x13 then (4, 4) else (5, 8)
/-- The registers of 16 unpacked values (04 R133). -/
def valuesCls (ty : Nat) : Nat × Nat := if ty = 0xF then (16, 16) else (8, 8)

/-- Floating-point and conversion opcodes (04 R122 to R134). -/
def floatSpec (op : Nat) (f : Fields) : OpSpec :=
  match op with
  | 0x040 | 0x041 | 0x042 => floatMod ab f [0, 1, 2] 3 1
  | 0x043 => floatMod abc f [0, 1, 2] 3 1
  | 0x044 | 0x045 => floatMod ab f [0, 1, 2] 0 0
  | 0x046 => floatMod { ab with d := .p } f [0, 1, 2] 7 0
  | 0x047 => floatMod aOnly f [0, 1, 2] 0 0
  | 0x048 => floatMod aOnly f [0, 1, 2] 3 0
  | 0x04B => { floatMod aOnly f [0, 1, 2] 3 0 with long := true }
  | 0x04C => { floatMod ab f [0, 1, 2] 3 0 with long := true }
  | 0x053 | 0x054 => floatMod ab f [1, 2] 3 1
  | 0x055 => floatMod abc f [1] 3 1
  | 0x056 => floatMod abc f [2] 3 1
  | 0x057 => floatMod abc f [1, 2] 3 1
  | 0x058 =>
    let st := f.b % 32
    let wide t := decide (t = 8 ∨ t = 0xC)
    { d := .when (f.mod < 0x16) (if wide f.mod then .v 2 2 else .v 1 1)
      a := .when (st < 0x16) (.vu (if wide st then 2 else 1))
      b := .fix (.num 512)
      bBad := unless8 (decide (st < 0x16) && decide (f.b / 32 % 8 ≤ 4))
      mod := if f.mod ≥ 0x16 then some 8
             else if cvtRefused f.mod st (f.b / 32 % 8) (decide (f.b / 256 = 1)) then some 0xB else none }
  | 0x059 =>
    let (vn, va) := valuesCls (f.mhi % 32)
    let (bn, ba) := blockCls f.mod
    { d := .when ([0x12, 0x13, 0x14].contains f.mod) (.v bn ba), a := .when ([0xD, 0xE, 0xF].contains (f.mhi % 32)) (.vOnly vn va)
      mod := unless8 ([0x12, 0x13, 0x14].contains f.mod)
      mhi := unless8 ([0xD, 0xE, 0xF].contains (f.mhi % 32) && decide (f.mhi / 32 ≤ 4)) }
  | 0x05A =>
    let (vn, va) := valuesCls f.mod
    let (bn, ba) := blockCls (f.mhi % 32)
    { d := .when ([0xD, 0xE, 0xF].contains f.mod) (.v vn va), a := .when ([0x12, 0x13, 0x14].contains (f.mhi % 32)) (.vOnly bn ba)
      mod := unless8 ([0xD, 0xE, 0xF].contains f.mod)
      mhi := if f.mhi / 32 = 4 then some 0xB else unless8 ([0x12, 0x13, 0x14].contains (f.mhi % 32) && decide (f.mhi / 32 ≤ 3)) }
  | _ => { floatMod aOnly f [0, 1, 2] 0 0 with long := true }

/-- Predicate, move, uniform and special-register opcodes (04 R135 to R141, 07 R236). -/
def moveSpec (op : Nat) (f : Fields) (cx : DecCtx) : OpSpec :=
  let pred : OpSpec := { d := .p, a := .fix .p, b := .fix .p, mod := unless8 (f.mod < 4) }
  match op with
  | 0x080 => { d := .p, b := .viuz 1, mod := unless8 (f.mod = 0) }
  | 0x081 | 0x082 | 0x083 => pred
  | 0x084 => { d := .p, a := .fix .p, mod := unless8 (f.mod = 0) }
  | 0x085 =>
    match f.mod with
    | 0 => { d := .p, a := .fix .p }
    | 1 => { d := .v 1 1 }
    | 2 => { a := .vOnly 1 1, xp := List.range 15 }
    | _ => { d := .any, a := .any, b := .any, mod := some 8 }
  | 0x086 => if f.mod = 3 then { d := .v 2 2, b := .viuz 2 } else { d := .v 1 1, b := .viuz 1, mod := unless8 (f.mod = 2) }
  | 0x087 =>
    { d := match f.mod / 32 with | 0 => .v 1 1 | 1 => .v 2 2 | 2 => .ud | _ => .any
      b := ⟨none, none, true, false, false⟩
      mod := unless8 ([0x02, 0x23, 0x43].contains f.mod), mhi := unless8 (f.mhi = 0) }
  | 0x088 =>
    let n := if f.mod / 2 % 2 = 1 then 2 else 1
    if f.mod % 2 = 0 then { d := .v n n, a := .uOnly, mod := unless8 (f.mod < 4) }
    else { d := .ud, a := .vOnly n n, b := ⟨none, none, true, true, false⟩, mod := unless8 (f.mod < 4) }
  | 0x089 | 0x08A | 0x08B | 0x08C =>
    { d := .ud, a := .uOnly, b := .iuz, mod := unless8 (f.mod = 0), mhi := unless8 (f.mhi = 0) }
  | 0x08D => { d := .ud, a := .uOnly, b := .iuz, mod := unless8 (f.mod < 3) }
  | 0x08E => { d := .ud, a := .uOnly, b := .iuz, mod := unless8 (decide (f.mod < 16) && decide (f.mod % 8 ≤ 5)), mhi := unless8 (f.mhi = 0) }
  | 0x08F =>
    { d := match f.mod with | 0 => .v 1 1 | 1 => .v 2 2 | 2 => .ud | _ => .any
      a := .fix .spr
      mod := unless8 (decide (f.mod < 3) && (!cx.matrix || f.mod == 2) && !(f.mod == 2 && decide (f.a = 0 ∨ f.a = 2))) }
  | _ => { d := .sprw, b := .viuz (if f.mod = 1 then 2 else 1), dSrc := true, mod := unless8 (f.mod < 2) }

/-- Cross-lane opcodes (04 R145 to R153). -/
def laneSpec (op : Nat) (f : Fields) (cx : DecCtx) : OpSpec :=
  match op with
  | 0x0A0 =>
    { d := .bn, a := .uOnly, b := if f.ext then .no else .iuz, immUsed := true, hint := true, long := true
      mod := unless8 (f.mod = 0), mhi := unless8 (f.mhi = 0) }
  | 0x0A1 => { d := .bn, a := .vOnly 1 1, long := true, mod := unless8 (f.mod < 16), xp := if f.mod % 16 = 15 then [] else [f.mod % 16] }
  | 0x0A2 => { d := .v 1 1, a := .vOnly 1 1, b := .fix .bn, long := true, mod := unless8 (f.mod = 0) }
  | 0x0A3 => { d := .v 1 1, a := .vOnly 1 1, b := .viuz 1, long := true, mod := unless8 (f.mod / 4 = 0 || decide (2 ^ (f.mod / 4) ≤ cx.width)) }
  | 0x0A4 => { d := if f.mod % 4 = 3 then .v 2 2 else .p, a := .fix .p, mod := unless8 (f.mod < 8) }
  | 0x0A5 =>
    { d := .v 1 1, a := .vOnly 1 1, long := true
      mod := unless8 (decide (f.mod < 16) && decide (f.mod % 8 ≠ 7) && (decide (f.mod < 8) || f.mod % 8 == 1 || f.mod % 8 == 2)) }
  | 0x0A6 =>
    { d := .v 1 1, a := .vOnly 1 1, long := true
      mod := unless8 (decide (f.mod % 8 ≠ 7) && (decide (f.mod % 16 < 8) || f.mod % 8 == 1 || f.mod % 8 == 2)) }
  | 0x0A7 => { d := .v 2 2, a := .vOnly (if f.mod % 2 = 1 then 2 else 1) (if f.mod % 2 = 1 then 2 else 1), long := true, mod := unless8 (f.mod < 2) }
  | _ => { d := .v 1 1, a := .vu 2, mod := unless8 (f.mod < 2) }

/-- Control, synchronisation and work-creation opcodes (05 R162 to R181, 07 R235). -/
def controlSpec (op : Nat) (f : Fields) (cx : DecCtx) : OpSpec :=
  let target : Src := if f.ext then .no else ⟨none, none, true, false, false⟩
  let cond := decide (f.mod / 8 % 2 = 1)
  let cmod := if cx.matrix then unless8 (if cond then decide (f.mod < 16) && decide (f.mod % 8 ≤ 5) else f.mod == 0) else unless8 (f.mod = 0)
  match op with
  | 0x0C0 => { a := if cx.matrix && cond then .uOnly else .no, b := target, immUsed := true, mod := cmod, mhi := unless8 (f.mhi = 0) }
  | 0x0C1 | 0x0C4 => { a := .vu 2, mod := unless8 (f.mod = 0) }
  | 0x0C2 =>
    { d := if cx.matrix then .ud else .v 2 2, a := if cx.matrix && cond then .uOnly else .no, b := target, immUsed := true
      mod := cmod, mhi := unless8 (f.mhi = 0) }
  | 0x0C3 => { d := .v 2 2, a := .vu 2, mod := unless8 (f.mod = 0) }
  | 0x0C8 =>
    let form := f.mod % 4
    { d := if cx.matrix then .none else match form with | 1 => .p | 2 => .pw | _ => .none
      dSrc := form == 2
      a := .fix (.num 512)
      b := if form = 0 then ⟨none, none, true, true, false⟩ else .no
      mod := unless8 (f.mod < 4) }
  | 0x0C9 | 0x0CA =>
    let n := 4 * (f.mhi % 16 + 1)
    { d := .v 1 1, e := .p
      a := if op = 0x0C9 then .vOnly n 4 else .vu 2
      b := if op = 0x0C9 then .viuz 1 else .vuz 1
      immUsed := op == 0x0CA
      mod := unless8 (f.mod = 0), mhi := unless8 (f.mhi < 16) }
  | 0x0CB =>
    { a := .vu 1, immUsed := true, e := if f.mod % 2 = 1 then .none else .num (cx.regs + 1)
      mod := unless8 (f.mod < 2), mhi := unless8 (f.mhi = 0) }
  | 0x0CD => { b := .viuz 1, mod := unless8 (f.mod < 6) }
  | _ => { mod := unless8 (f.mod = 0) }

/-- Bytes of a type of 03 R84 that `ld` and `st` take (06 R197). -/
def typeBytes (ty : Nat) : Nat :=
  match ty with
  | 0x00 | 0x05 | 0x09 | 0x10 | 0x11 => 1
  | 0x01 | 0x06 | 0x0A | 0x0D | 0x0E => 2
  | 0x03 | 0x08 | 0x0C => 8
  | 0x04 => 16
  | _ => 4

/-- Registers of a datum of so many bytes. -/
def dataRegs (bytes : Nat) : Nat := if bytes = 16 then 4 else if bytes = 8 then 2 else 1

/-- The shared address form of 06 R193 with the modifier check `ok` on MOD or MODLO[4:0]. A shift with an immediate B, which R193 does not name, is refused
with REASON 0x08 at MODLO before the kind's 0x07 (log entry 22). -/
def addressed (f : Fields) (d : Nat × Nat) (ok : Bool) : OpSpec :=
  { d := .when ok (.v d.1 d.2), a := .vu 2, b := if f.ext then .vuz 1 else .viuz 1, immUsed := true, long := true, hint := true
    mod := unless8 (ok && (f.bk == 0 || decide (f.mod < 32)))
    mhi := unless8 (decide (f.mhi ≤ 1) && (f.bk == 0 || f.mhi == 0)) }

/-- Memory and atomic opcodes (06 R193 to R207). -/
def memSpec (op : Nat) (f : Fields) : OpSpec :=
  let ty := f.mod % 32
  match op with
  | 0x0E0 => let n := dataRegs (typeBytes ty); addressed f (n, n) (ty ≤ 0x11)
  | 0x0E1 => let n := dataRegs (typeBytes ty); { addressed f (n, n) (ty ≤ 0x11) with dSrc := true }
  | 0x0E2 => let n := dataRegs (2 ^ (ty % 8)); addressed f (n, n) (decide (ty < 16) && [2, 3, 4].contains (ty % 8))
  | 0x0E3 => let n := dataRegs (2 ^ (ty % 8)); { addressed f (n, n) ([2, 3, 4].contains ty) with dSrc := true }
  | 0x0E4 => { a := .uOnly, b := .iuz, long := true, mod := unless8 (f.mod < 2) }
  | 0x0E5 => { addressed f (2, 2) (f.mod = 0) with hint := false }
  | 0x0E6 => addressed f (blockCls ty) ([0x12, 0x13, 0x14].contains ty)
  | 0x0E7 => { addressed f (blockCls ty) ([0x12, 0x13, 0x14].contains ty) with dSrc := true }
  | 0x0E8 => { addressed f (1, 1) (ty ≤ 1) with d := .none }
  | _ =>
    let wide := decide (f.mod / 16 % 2 = 1)
    let n := if wide then 2 else 1
    let o := f.mod % 16
    let cas := op == 0x0E9 && o == 10
    let ok := !(wide && decide (11 ≤ o ∧ o ≤ 13))
    { d := if op = 0x0E9 then .when ok (.v n n) else .none
      a := .vu 2
      b := .when ok (if f.ext then .vuz n else .viuz n)
      c := if cas then .vu n else .no
      immUsed := true, long := true, hint := true
      mod := unless8 (decide (f.mod < 32) && !(o == 10 && !(cas && f.ext)) && ok)
      mhi := unless8 (f.mhi = 0) }

/-- Engine opcodes (06 R209 to R231) and the Crucible's (08 R286). -/
def engineSpec (op : Nat) (f : Fields) (cx : DecCtx) : OpSpec :=
  let dm := f.mod / 16 % 4
  let rec' : Cls := if f.mod / 8 % 2 = 1 then .u else .none
  let cmd (okDm : Bool) : OpSpec := { a := .uOnly, b := .uOnly, c := .uOnly, e := rec', dSrc := true, long := true,
                                       mod := unless8 (decide (f.mod < 64) && okDm), mhi := unless8 (f.mhi = 0) }
  let control : Option Nat := unless8 (f.imm.toNat / 2 ^ 28 == 0 && decide (f.imm.toNat / 2 ^ 24 % 8 ≤ 4) && f.imm.toNat % 2 ^ 24 != 0)
  let zeroB : Src := ⟨none, none, false, false, true⟩
  match op with
  | 0x120 =>
    { cmd (decide (dm ≠ 3) && (f.mhi != 1 || dm == 1)) with
      hint := true, mhi := unless8 (decide (f.mhi ≤ 1) && (f.mhi == 0 || cx.features.getLsbD 7)), immUsed := f.mhi == 1
      immBad := if f.mhi = 1 then unless8 (f.imm.toNat < 12) else none }
  | 0x121 | 0x122 => { cmd (decide (dm ≠ 3)) with hint := true, immUsed := true, immBad := control }
  | 0x123 => cmd (decide (dm ≠ 3))
  | 0x124 => { a := .uOnly, b := ⟨none, none, false, true, true⟩, long := true, mod := unless8 (f.mod < 8) }
  | 0x125 => { d := .p, b := .iuz, long := true, mod := unless8 (f.mod < 8) }
  | 0x126 => { d := .v 1 1, long := true, mod := unless8 (f.mod < 8) }
  | 0x127 =>
    { d := .v 1 1, a := .uOnly, long := true, immUsed := true, immBad := unless8 (f.imm.toNat < 12)
      mod := unless8 (f.mod < 8), mhi := unless8 (f.mhi = 0) }
  | 0x128 => { d := .v 1 1, long := true, mod := unless8 (f.mod = 0) }
  | 0x129 => { cmd (decide (dm = 0 ∨ dm = 2)) with b := zeroB }
  | 0x166 => { cmd (decide (dm = 1)) with b := zeroB, c := .no }
  | _ => { cmd (decide (dm ≤ 1)) with b := zeroB, c := .no }

/-- Matrix-stream and Tongs opcodes (07 R239 to R254). -/
def matrixSpec (op : Nat) (f : Fields) : OpSpec :=
  let recForm : OpSpec := { d := .m, a := .uOnly, immUsed := true, mod := unless8 (f.mod = 0), mhi := unless8 (f.mhi = 0) }
  match op with
  | 0x140 => { d := .ud, b := .uOnly, mod := unless8 (f.mod < 2) }
  | 0x141 => { b := .uOnly, mod := unless8 (f.mod = 0) }
  | 0x142 => { recForm with c := if f.mod % 2 = 1 then .uOnly else .no, mod := unless8 (f.mod < 2) }
  | 0x143 => { recForm with c := .uOnly }
  | 0x144 => { d := .m, mod := unless8 (f.mod = 0) }
  | 0x145 => recForm
  | 0x146 =>
    { d := .m, a := .uOnly, b := .uOnly, c := .uOnly
      mod := unless8 ([0xF, 0xD, 0xE, 0x10, 0x11].contains (f.mod % 32) && decide (f.mod / 32 ≤ 2))
      mhi := if f.mhi < 16 ∧ f.mhi % 8 = 4 ∧ f.mod % 32 = 0xF then some 0xB else unless8 (decide (f.mhi < 16) && decide (f.mhi % 8 ≤ 4)) }
  | 0x147 => { d := .m, a := .uOnly, b := .uOnly, c := .uOnly, mod := unless8 ([0xF, 0xD, 0xE].contains f.mod), mhi := unless8 (f.mhi = 0) }
  | 0x148 => { b := .iuz, mod := unless8 (f.mod = 0) }
  | 0x149 =>
    { d := .v 1 1, a := .vOnly 1 1, b := ⟨none, some (2, 2), false, true, false⟩, c := .vu 1, long := true, xv := 32
      mod := unless8 (f.mod < 2), mhi := unless8 (f.mhi = 0) }
  | _ => { long := true, mod := unless8 (f.mod = 0) }

/-- Ray and remote-work opcodes (08 R273, R274, R282). -/
def raySpec (op : Nat) (f : Fields) : OpSpec :=
  match op with
  | 0x160 =>
    { d := .v 8 8, a := .vOnly 8 8, b := ⟨none, some (2, 2), false, true, false⟩, long := true, immUsed := true
      immBad := unless8 (f.imm.toNat / 2 ^ 13 == 0 && f.imm.toNat / 2 ^ 9 % 4 != 3)
      mod := unless8 (f.mod = 0), mhi := unless8 (f.mhi = 0) }
  | 0x162 => { d := .v 8 8, long := true, mod := unless8 (f.mod < 2) }
  | 0x165 =>
    { d := .v 1 1, e := .p, a := .vOnly (4 * (f.mhi % 16 + 1)) 4, b := .viuz 1, c := .vu 1, long := true
      mod := unless8 (f.mod < 2), mhi := unless8 (f.mhi < 16) }
  | _ => { d := .v 8 8, long := true, mod := unless8 (f.mod = 0) }

/-- Trap and system opcodes (05 R183 to R192). What a KIND of `tlbinv` does not use may be given or be zero (B for `.all`, C beside it and for `.pasid`), and
`cachectl.iinv` takes literal zero as B: the rules give the layout of these operands only (log entry 22). -/
def systemSpec (op : Nat) (f : Fields) : OpSpec :=
  match op with
  | 0x180 => { a := if f.mod % 2 = 1 then .vu 1 else .no, b := ⟨none, none, true, false, false⟩, mod := unless8 (f.mod < 2) }
  | 0x181 => { mod := unless8 (f.mod < 2) }
  | 0x184 =>
    let kind := f.mod / 4 % 4
    { a := if kind = 3 then .any else if kind = 0 then .uOnly else .no
      b := if kind = 3 then .any else if kind = 2 ∧ f.bk = 0 then .no else if f.ext then ⟨none, none, true, false, false⟩ else .uOnly
      c := if kind = 3 then .any else if f.ext && (kind == 0 || f.ck == 1) then .uOnly else .no
      immUsed := f.ext, immBad := if f.ext then unless8 (f.imm.toNat < 2 ^ 20) else none, long := true
      mod := unless8 (decide (f.mod < 16) && decide (kind ≤ 2) && (kind == 0 || f.mod % 4 == 0)), mhi := unless8 (f.mhi = 0) }
  | 0x185 =>
    { a := .when (f.mod ≤ 4) (if f.mod = 0 then .no else .uOnly)
      b := if f.mod = 0 then (if f.bk = 3 then ⟨none, none, false, false, true⟩ else .no) else .iuz
      long := true, mod := unless8 (f.mod ≤ 4) }
  | 0x186 => { b := .viuz 1, mod := unless8 (f.mod = 0) }
  | _ => { mod := unless8 (f.mod = 0) }

/-- What an opcode takes (03 R99 names the groups). -/
def opSpec (op : Nat) (f : Fields) (cx : DecCtx) : OpSpec :=
  if op < 0x040 then intSpec op f
  else if op < 0x080 then floatSpec op f
  else if op < 0x0A0 then moveSpec op f cx
  else if op < 0x0C0 then laneSpec op f cx
  else if op < 0x0E0 then controlSpec op f cx
  else if op < 0x120 then memSpec op f
  else if op < 0x140 then engineSpec op f cx
  else if op < 0x160 then matrixSpec op f
  else if op = 0x166 ∨ op = 0x167 then engineSpec op f cx
  else if op < 0x180 then raySpec op f
  else systemSpec op f

/-- The special-register indices that are assigned (01 R21). -/
def sprIndices : List Nat :=
  [0x000, 0x001, 0x002, 0x003, 0x004, 0x005, 0x006, 0x007, 0x008, 0x010, 0x011, 0x012, 0x013, 0x014, 0x015, 0x018, 0x020, 0x021, 0x030]
/-- The special registers that a warp may name in `sprwr` (R21: H or RW). -/
def sprWritable : List Nat := [0x010, 0x011, 0x012, 0x013, 0x014]
/-- The special registers that a matrix stream reads (07 R236). -/
def sprStream : List Nat := [0x003, 0x004, 0x005, 0x006, 0x007, 0x008, 0x020, 0x030]

/-- A field value against its class; the reason of a failure (03 R80, R97). -/
def clsBad (cx : DecCtx) (c : Cls) (k : Nat) : Option Nat :=
  let r (ok : Bool) : Option Nat := if ok then none else some 3
  match c with
  | .none => r (k == 0)
  | .v n al => r (decide (k % al = 0) && decide (k + n ≤ cx.regs))
  | .u => r (decide (k < if cx.matrix then 32 else 64))
  | .ud => r (if cx.matrix then decide (k < 32) else decide (16 ≤ k) && decide (k < 64))
  | .p => r (decide (k < 16))
  | .pw => r (decide (k < 15))
  | .bn => r (decide (k < 8))
  | .m => r (decide (k < 32))
  | .spr => if (if cx.matrix then sprStream else sprIndices).contains k then none else some 0xA
  | .sprw => if (if cx.matrix then [0x020] else sprWritable).contains k then none else some 0xA
  | .num n => r (decide (k < n))
  | .any => none

/-- The field of a source under its kind (R80 to R83); kinds: 0 V, 1 immediate, 2 U, 3 literal zero. -/
def srcBad (cx : DecCtx) (ext : Bool) (s : Src) (kind val : Nat) : Option Nat :=
  match s.fixed with
  | some c => clsBad cx c val
  | none =>
    match kind with
    | 0 => match s.v with
      | some (n, al) => if cx.matrix then none else clsBad cx (.v n al) val
      | none => none
    | 1 => if s.imm && ext && val != 0 then some 7 else none
    | 2 => if s.u then clsBad cx .u val else none
    | _ => if s.zero && val != 0 then some 7 else none

/-- The kind bits of a source (R81, R100). -/
def kindBad (cx : DecCtx) (s : Src) (kind : Nat) : Option Nat :=
  let ok : Bool :=
    match s.fixed with
    | some c => c == .any || kind == 0
    | none => match kind with
      | 0 => s.v.isSome && !cx.matrix
      | 1 => s.imm
      | 2 => s.u
      | _ => s.zero
  if ok then none else some 7

/-- May KEEP name this source (R91)? -/
def keepOk (s : Src) (kind : Nat) : Bool := (s.fixed == some .any || s.fixed.isNone && s.v.isSome) && kind == 0

/-- The first failing field check of a standard word or extended instruction, in the order of R96 step 5. -/
def fieldBad (cx : DecCtx) (op : Nat) (f : Fields) : Option Nat :=
  let s := opSpec op f cx
  let always (g : Guard) : Bool := g.idx == 15#4 && !g.neg
  let akind := 2 * f.ak
  let keep :=
    match f.keep with
    | 0 => true
    | 1 => keepOk s.a akind
    | 2 => keepOk s.b f.bk
    | 3 => f.ext && keepOk s.c (2 * f.ck)
    | _ => false
  let head : List (Option Nat) :=
    [ if cx.matrix && !(always f.ga && always f.gb) then some 8 else none,
      clsBad cx s.d f.d, srcBad cx f.ext s.a akind f.a, srcBad cx f.ext s.b f.bk f.b, s.bBad,
      if f.la != 0 && (cx.matrix || !s.long) then some 6 else none,
      if keep then none else some 4,
      if f.hint != 0 && !s.hint then some 5 else none ]
  let tail : List (Option Nat) :=
    if f.ext then
      [ s.mod, srcBad cx true s.c (2 * f.ck) f.c, clsBad cx s.e f.e,
        kindBad cx s.b f.bk, kindBad cx s.a akind, kindBad cx s.c (2 * f.ck), s.mhi,
        if s.immUsed then s.immBad else if f.bk = 1 && s.b.imm then none else unless8 (f.imm = 0) ]
    else [ kindBad cx s.b f.bk, kindBad cx s.a akind, s.mod ]
  (head ++ tail).findSome? id

/-! ### Formats, streams and features of the opcode map (03 R99, R100; 13 R420, R421) -/

/-- The opcodes that have a standard form. -/
def hasStd (op : Nat) : Bool :=
  (decide (0x001 ≤ op ∧ op ≤ 0x029) && !(List.contains [0x007, 0x008, 0x00D, 0x017, 0x018, 0x01F, 0x020, 0x021, 0x022] op))
  || (decide (0x040 ≤ op ∧ op ≤ 0x058) && !(List.contains [0x043, 0x055, 0x056, 0x057] op))
  || (decide (0x080 ≤ op ∧ op ≤ 0x090) && op != 0x087)
  || decide (0x0A0 ≤ op ∧ op ≤ 0x0A8)
  || (decide (0x0C0 ≤ op ∧ op ≤ 0x0CD) && !(List.contains [0x0C9, 0x0CA, 0x0CB] op))
  || (decide (0x0E0 ≤ op ∧ op ≤ 0x0EA) && !(List.contains [0x0E6, 0x0E7] op))
  || [0x124, 0x125, 0x126, 0x128, 0x140, 0x141, 0x144, 0x148, 0x14A, 0x161, 0x162, 0x163, 0x164].contains op
  || decide (0x180 ≤ op ∧ op ≤ 0x18A)
/-- The opcodes that have an extended form. -/
def hasExt (op : Nat) : Bool :=
  [0x001, 0x002, 0x005, 0x007, 0x008, 0x00B, 0x00C, 0x00D, 0x00E, 0x00F, 0x010, 0x012, 0x017, 0x018, 0x01E, 0x01F, 0x020, 0x021, 0x022,
   0x023, 0x024, 0x025, 0x040, 0x041, 0x042, 0x043, 0x046, 0x053, 0x054, 0x055, 0x056, 0x057, 0x059, 0x05A, 0x087, 0x089, 0x08A, 0x08B,
   0x08C, 0x08E, 0x0A0, 0x0C0, 0x0C2, 0x0C9, 0x0CA, 0x0CB].contains op
  || (decide (0x0E0 ≤ op ∧ op ≤ 0x0EA) && op != 0x0E4 && op != 0x0E5)
  || [0x120, 0x121, 0x122, 0x123, 0x127, 0x129, 0x142, 0x143, 0x145, 0x146, 0x147, 0x149, 0x160, 0x165, 0x166, 0x167, 0x184].contains op
/-- The opcodes that are assigned (R99). -/
def assigned (op : Nat) : Bool := hasStd op || hasExt op
/-- The feature bit that an opcode needs (13 R420). -/
def featureOf (op : Nat) : Option Nat :=
  if 0x160 ≤ op ∧ op ≤ 0x164 then some 3 else if op = 0x166 ∨ op = 0x167 then some 4 else if op = 0x165 then some 5
  else if op = 0x129 then some 9 else none
/-- Available in the stream (R100)? -/
def inStream (matrix : Bool) (op : Nat) : Bool :=
  let sequencer := decide (0x140 ≤ op ∧ op ≤ 0x148)
  if matrix then sequencer || [0x0C7, 0x0C0, 0x0C2, 0x0C4, 0x0C5, 0x0C8, 0x089, 0x08A, 0x08B, 0x08C, 0x08D, 0x08E, 0x08F, 0x090].contains op
  else !sequencer

/-! ### Compact pairs (03 R76 to R78, R101) -/

/-- D of a compact opcode is a pair. -/
def slotWide (op : Nat) : Bool := decide (0x32 ≤ op ∧ op ≤ 0x35)
/-- S of a compact opcode is a pair when it is a vector register. -/
def slotWideS (op : Nat) : Bool := decide (op = 0x32 ∨ op = 0x33)
/-- The first failing field of a slot. -/
def slotBad (cx : DecCtx) (s : Slot) : Option Nat :=
  let op := s.op.toNat
  let n := if slotWide op then 2 else 1
  let m := if slotWideS op then 2 else 1
  let src : Src := ⟨none, some (m, m), decide (op < 0x3E), true, false⟩
  [clsBad cx (.v n n) s.d.toNat, srcBad cx false src s.sk.toNat s.s.toNat, kindBad cx src s.sk.toNat].findSome? id
/-- The banks of registers k to k + n − 1 (R78). -/
def banks (k n : Nat) : List Nat := (List.range n).map fun i => (k + i) % 4
/-- Do two slots break the bank rules of R78? -/
def bankBad (p : Pair) : Bool :=
  let n (s : Slot) := if slotWide s.op.toNat then 2 else 1
  let m (s : Slot) := if slotWideS s.op.toNat then 2 else 1
  let overlap (x y : List Nat) := x.any y.contains
  overlap (banks p.s0.d.toNat (n p.s0)) (banks p.s1.d.toNat (n p.s1))
    || (p.s0.sk == 0#2 && p.s1.sk == 0#2 && overlap (banks p.s0.s.toNat (m p.s0)) (banks p.s1.s.toNat (m p.s1)))
/-- The first failing check of a pair after its opcodes: the reason and the slot (R96 steps 5 and 6, R97). -/
def pairBad (cx : DecCtx) (p : Pair) : Option (Nat × Nat) :=
  match slotBad cx p.s0, slotBad cx p.s1 with
  | some r, _ => some (r, 0)
  | none, some r => some (r, 1)
  | none, none => if bankBad p then some (9, 1) else none

end Sys2Proof.Machine
end

