-- ==== Sys2Proof/Decode.lean ====
section
/-! DEFINITION. The decoder, total on any words and refusing by the cause and reason of 03 R96 and R97, and the encoder. -/
namespace Sys2Proof

open Sys2Proof.Machine

/-! ### Words and fields (03 R74 to R76) -/

/-- A guard field: negate above the index. -/
def Guard.pack (g : Guard) : BitVec 5 := BitVec.ofBool g.neg ++ g.idx
/-- The guard in a field. -/
def Guard.unpack (x : BitVec 5) : Guard := ⟨x.getLsbD 4, x.extractLsb' 0 4⟩

/-- A standard word (R74). -/
def packStd (op : Nat) (w : Std) : W64 :=
  (1#2 ++ BitVec.ofNat 9 op ++ w.ga.pack ++ w.gb.pack ++ w.d ++ w.a ++ w.b ++ w.la ++ w.keep ++ w.hint ++ w.bk ++ w.ak ++ w.mod : BitVec 64)
/-- The fields of a standard word. -/
def unpackStd (x : W64) : Std where
  ga := .unpack (x.extractLsb' 48 5)
  gb := .unpack (x.extractLsb' 43 5)
  d := x.extractLsb' 34 9
  a := x.extractLsb' 25 9
  b := x.extractLsb' 16 9
  la := x.extractLsb' 12 4
  keep := x.extractLsb' 10 2
  hint := x.extractLsb' 8 2
  bk := x.extractLsb' 6 2
  ak := x.extractLsb' 5 1
  mod := x.extractLsb' 0 5

/-- The two words of an extended instruction (R75). -/
def packExt (op : Nat) (w : Ext) : W64 × W64 :=
  ((2#2 ++ BitVec.ofNat 9 op ++ w.ga.pack ++ w.gb.pack ++ w.d ++ w.a ++ w.b ++ w.la ++ w.keep ++ w.hint ++ w.modlo : BitVec 64),
   (3#2 ++ w.c ++ w.e ++ w.bk ++ w.ak ++ w.ck ++ w.modhi ++ w.imm : BitVec 64))
/-- The fields of an extended instruction. -/
def unpackExt (x y : W64) : Ext where
  ga := .unpack (x.extractLsb' 48 5)
  gb := .unpack (x.extractLsb' 43 5)
  d := x.extractLsb' 34 9
  a := x.extractLsb' 25 9
  b := x.extractLsb' 16 9
  la := x.extractLsb' 12 4
  keep := x.extractLsb' 9 3
  hint := x.extractLsb' 7 2
  modlo := x.extractLsb' 0 7
  c := y.extractLsb' 53 9
  e := y.extractLsb' 44 9
  bk := y.extractLsb' 42 2
  ak := y.extractLsb' 41 1
  ck := y.extractLsb' 40 1
  modhi := y.extractLsb' 32 8
  imm := y.extractLsb' 0 32

/-- One slot (R76). -/
def Slot.pack (s : Slot) : BitVec 31 := s.op ++ s.grd ++ s.d ++ s.s ++ s.sk
/-- The fields of a slot. -/
def Slot.unpack (x : BitVec 31) : Slot := ⟨x.extractLsb' 24 7, x.extractLsb' 20 4, x.extractLsb' 11 9, x.extractLsb' 2 9, x.extractLsb' 0 2⟩
/-- A compact pair: slot 0 above slot 1 (R76). -/
def packPair (p : Pair) : W64 := (0#2 ++ p.s0.pack ++ p.s1.pack : BitVec 64)
/-- The two slots of a word. -/
def unpackPair (x : W64) : Pair := ⟨.unpack (x.extractLsb' 31 31), .unpack (x.extractLsb' 0 31)⟩

/-- The opcode field of a standard or first word. -/
def opcodeOf (x : W64) : Nat := (x.extractLsb' 53 9).toNat
/-- The format bits [63:62] (R72). -/
def formatOf (x : W64) : Nat := (x.extractLsb' 62 2).toNat

/-! ### The opcode map (03 R99, R235) -/

/-- The instruction of a standard word by its opcode (03 R99); none for an opcode without this format. -/
def stdInstr (op : Nat) (w : Std) : Option Instr :=
  match op with
  | 0x001 => some (.iadd w)
  | 0x002 => some (.isub w)
  | 0x003 => some (.iaddc w)
  | 0x004 => some (.isubb w)
  | 0x005 => some (.imul w)
  | 0x006 => some (.imulh w)
  | 0x009 => some (.ineg w)
  | 0x00A => some (.iabs w)
  | 0x00B => some (.imin w)
  | 0x00C => some (.imax w)
  | 0x00E => some (.iand w)
  | 0x00F => some (.ior w)
  | 0x010 => some (.ixor w)
  | 0x011 => some (.inot w)
  | 0x012 => some (.iandn w)
  | 0x013 => some (.ishl w)
  | 0x014 => some (.ishr w)
  | 0x015 => some (.isar w)
  | 0x016 => some (.irot w)
  | 0x019 => some (.ipopc w)
  | 0x01A => some (.iclz w)
  | 0x01B => some (.ictz w)
  | 0x01C => some (.ibrev w)
  | 0x01D => some (.isel w)
  | 0x01E => some (.icmp w)
  | 0x023 => some (.add64 w)
  | 0x024 => some (.sub64 w)
  | 0x025 => some (.cmp64 w)
  | 0x026 => some (.shl64 w)
  | 0x027 => some (.shr64 w)
  | 0x028 => some (.idiv w)
  | 0x029 => some (.irem w)
  | 0x040 => some (.fadd w)
  | 0x041 => some (.fsub w)
  | 0x042 => some (.fmul w)
  | 0x044 => some (.fmin w)
  | 0x045 => some (.fmax w)
  | 0x046 => some (.fcmp w)
  | 0x047 => some (.fclass w)
  | 0x048 => some (.frnd w)
  | 0x049 => some (.frcp w)
  | 0x04A => some (.frsq w)
  | 0x04B => some (.fsqrt w)
  | 0x04C => some (.fdiv w)
  | 0x04D => some (.fexp2 w)
  | 0x04E => some (.flog2 w)
  | 0x04F => some (.fsin w)
  | 0x050 => some (.fcos w)
  | 0x051 => some (.ftanh w)
  | 0x052 => some (.fsig w)
  | 0x053 => some (.hadd2 w)
  | 0x054 => some (.hmul2 w)
  | 0x058 => some (.cvt w)
  | 0x080 => some (.pset w)
  | 0x081 => some (.pand w)
  | 0x082 => some (.por w)
  | 0x083 => some (.pxor w)
  | 0x084 => some (.pnot w)
  | 0x085 => some (.pmov w)
  | 0x086 => some (.mov w)
  | 0x088 => some (.movs w)
  | 0x089 => some (.sadd w)
  | 0x08A => some (.ssub w)
  | 0x08B => some (.sand w)
  | 0x08C => some (.sor w)
  | 0x08D => some (.sshl w)
  | 0x08E => some (.scmp w)
  | 0x08F => some (.sprrd w)
  | 0x090 => some (.sprwr w)
  | 0x0A0 => some (.bnload w)
  | 0x0A1 => some (.bnperm w)
  | 0x0A2 => some (.bnmov w)
  | 0x0A3 => some (.shfl w)
  | 0x0A4 => some (.vote w)
  | 0x0A5 => some (.redux w)
  | 0x0A6 => some (.scan w)
  | 0x0A7 => some (.matchLanes w)
  | 0x0A8 => some (.popm w)
  | 0x0C0 => some (if w.mod.getLsbD 3 then .braCond (.std w) else .bra w)
  | 0x0C1 => some (.brx w)
  | 0x0C2 => some (if w.mod.getLsbD 3 then .callCond (.std w) else .call w)
  | 0x0C3 => some (.callx w)
  | 0x0C4 => some (.ret w)
  | 0x0C5 => some (.exit w)
  | 0x0C6 => some (.yield w)
  | 0x0C7 => some (.nop w)
  | 0x0C8 => some (match w.mod.toNat % 4 with | 0 => .barInit w | 1 => .barArrive w | 2 => .barWait w | _ => .barSync w)
  | 0x0CC => some (.trig w)
  | 0x0CD => some (.lwait w)
  | 0x0E0 => some (.ld w)
  | 0x0E1 => some (.st w)
  | 0x0E2 => some (.ldfe w)
  | 0x0E3 => some (.stfe w)
  | 0x0E4 => some (.fereset w)
  | 0x0E5 => some (.fequery w)
  | 0x0E8 => some (.pfetch w)
  | 0x0E9 => some (.atom w)
  | 0x0EA => some (.red w)
  | 0x124 => some (.pub w)
  | 0x125 => some (.cwait w)
  | 0x126 => some (.cpoll w)
  | 0x128 => some (.fabfence w)
  | 0x140 => some (.mres w)
  | 0x141 => some (.mrel w)
  | 0x144 => some (.mzero w)
  | 0x148 => some (.mwait w)
  | 0x14A => some (.nnflush w)
  | 0x161 => some (.rnext w)
  | 0x162 => some (.rhit w)
  | 0x163 => some (.rend w)
  | 0x164 => some (.rquery w)
  | 0x180 => some (.trap w)
  | 0x181 => some (.rti w)
  | 0x182 => some (.tmask w)
  | 0x183 => some (.tunmask w)
  | 0x184 => some (.tlbinv w)
  | 0x185 => some (.cachectl w)
  | 0x186 => some (.tmark w)
  | 0x187 => some (.specoff w)
  | 0x188 => some (.specon w)
  | 0x189 => some (.halt w)
  | 0x18A => some (.ctxsw w)
  | _ => none

/-- The instruction of a extended word by its opcode (03 R99); none for an opcode without this format. -/
def extInstr (op : Nat) (w : Ext) : Option Instr :=
  match op with
  | 0x001 => some (.iaddExt w)
  | 0x002 => some (.isubExt w)
  | 0x005 => some (.imulExt w)
  | 0x007 => some (.imad w)
  | 0x008 => some (.imadw w)
  | 0x00B => some (.iminExt w)
  | 0x00C => some (.imaxExt w)
  | 0x00D => some (.iclamp w)
  | 0x00E => some (.iandExt w)
  | 0x00F => some (.iorExt w)
  | 0x010 => some (.ixorExt w)
  | 0x012 => some (.iandnExt w)
  | 0x017 => some (.ibfe w)
  | 0x018 => some (.ibfi w)
  | 0x01E => some (.icmpExt w)
  | 0x01F => some (.idot4 w)
  | 0x020 => some (.isad w)
  | 0x021 => some (.lea w)
  | 0x022 => some (.leahi w)
  | 0x023 => some (.add64Ext w)
  | 0x024 => some (.sub64Ext w)
  | 0x025 => some (.cmp64Ext w)
  | 0x040 => some (.faddExt w)
  | 0x041 => some (.fsubExt w)
  | 0x042 => some (.fmulExt w)
  | 0x043 => some (.ffma w)
  | 0x046 => some (.fcmpExt w)
  | 0x053 => some (.hadd2Ext w)
  | 0x054 => some (.hmul2Ext w)
  | 0x055 => some (.hfma2 w)
  | 0x056 => some (.bfma2 w)
  | 0x057 => some (.fdot2 w)
  | 0x059 => some (.bxpack w)
  | 0x05A => some (.bxunpack w)
  | 0x087 => some (.movi w)
  | 0x089 => some (.saddExt w)
  | 0x08A => some (.ssubExt w)
  | 0x08B => some (.sandExt w)
  | 0x08C => some (.sorExt w)
  | 0x08E => some (.scmpExt w)
  | 0x0A0 => some (.bnloadExt w)
  | 0x0C0 => some (if w.modlo.getLsbD 3 then .braCond (.ext w) else .braExt w)
  | 0x0C2 => some (if w.modlo.getLsbD 3 then .callCond (.ext w) else .callExt w)
  | 0x0C9 => some (.emit w)
  | 0x0CA => some (.emitm w)
  | 0x0CB => some (.reorder w)
  | 0x0E0 => some (.ldExt w)
  | 0x0E1 => some (.stExt w)
  | 0x0E2 => some (.ldfeExt w)
  | 0x0E3 => some (.stfeExt w)
  | 0x0E6 => some (.ldbx w)
  | 0x0E7 => some (.stbx w)
  | 0x0E8 => some (.pfetchExt w)
  | 0x0E9 => some (.atomExt w)
  | 0x0EA => some (.redExt w)
  | 0x120 => some (.copy w)
  | 0x121 => some (.gather w)
  | 0x122 => some (.scatter w)
  | 0x123 => some (.fill w)
  | 0x127 => some (.ctab w)
  | 0x129 => some (.mckpt w)
  | 0x142 => some (.mshape w)
  | 0x143 => some (.mprol w)
  | 0x145 => some (.mmac w)
  | 0x146 => some (.mread w)
  | 0x147 => some (.mwrite w)
  | 0x149 => some (.nnev w)
  | 0x160 => some (.rtrace w)
  | 0x165 => some (.rfwd w)
  | 0x166 => some (.ccomp w)
  | 0x167 => some (.callred w)
  | 0x184 => some (.tlbinvExt w)
  | _ => none

/-- What an instruction is in memory: a pair, a standard word or an extended instruction with its opcode; none for a move of another agent. -/
inductive Enc where
  | pair (p : Pair)
  | std (op : Nat) (w : Std)
  | ext (op : Nat) (w : Ext)
  deriving DecidableEq, Repr

/-- The encoding of an instruction by the opcode map (03 R99). -/
def Instr.enc : Instr → Option Enc
  | .compactPair p => some (.pair p)
  | .iadd w => some (.std 0x001 w)
  | .isub w => some (.std 0x002 w)
  | .iaddc w => some (.std 0x003 w)
  | .isubb w => some (.std 0x004 w)
  | .imul w => some (.std 0x005 w)
  | .imulh w => some (.std 0x006 w)
  | .ineg w => some (.std 0x009 w)
  | .iabs w => some (.std 0x00A w)
  | .imin w => some (.std 0x00B w)
  | .imax w => some (.std 0x00C w)
  | .iand w => some (.std 0x00E w)
  | .ior w => some (.std 0x00F w)
  | .ixor w => some (.std 0x010 w)
  | .inot w => some (.std 0x011 w)
  | .iandn w => some (.std 0x012 w)
  | .ishl w => some (.std 0x013 w)
  | .ishr w => some (.std 0x014 w)
  | .isar w => some (.std 0x015 w)
  | .irot w => some (.std 0x016 w)
  | .ipopc w => some (.std 0x019 w)
  | .iclz w => some (.std 0x01A w)
  | .ictz w => some (.std 0x01B w)
  | .ibrev w => some (.std 0x01C w)
  | .isel w => some (.std 0x01D w)
  | .icmp w => some (.std 0x01E w)
  | .add64 w => some (.std 0x023 w)
  | .sub64 w => some (.std 0x024 w)
  | .cmp64 w => some (.std 0x025 w)
  | .shl64 w => some (.std 0x026 w)
  | .shr64 w => some (.std 0x027 w)
  | .idiv w => some (.std 0x028 w)
  | .irem w => some (.std 0x029 w)
  | .fadd w => some (.std 0x040 w)
  | .fsub w => some (.std 0x041 w)
  | .fmul w => some (.std 0x042 w)
  | .fmin w => some (.std 0x044 w)
  | .fmax w => some (.std 0x045 w)
  | .fcmp w => some (.std 0x046 w)
  | .fclass w => some (.std 0x047 w)
  | .frnd w => some (.std 0x048 w)
  | .frcp w => some (.std 0x049 w)
  | .frsq w => some (.std 0x04A w)
  | .fsqrt w => some (.std 0x04B w)
  | .fdiv w => some (.std 0x04C w)
  | .fexp2 w => some (.std 0x04D w)
  | .flog2 w => some (.std 0x04E w)
  | .fsin w => some (.std 0x04F w)
  | .fcos w => some (.std 0x050 w)
  | .ftanh w => some (.std 0x051 w)
  | .fsig w => some (.std 0x052 w)
  | .hadd2 w => some (.std 0x053 w)
  | .hmul2 w => some (.std 0x054 w)
  | .cvt w => some (.std 0x058 w)
  | .pset w => some (.std 0x080 w)
  | .pand w => some (.std 0x081 w)
  | .por w => some (.std 0x082 w)
  | .pxor w => some (.std 0x083 w)
  | .pnot w => some (.std 0x084 w)
  | .pmov w => some (.std 0x085 w)
  | .mov w => some (.std 0x086 w)
  | .movs w => some (.std 0x088 w)
  | .sadd w => some (.std 0x089 w)
  | .ssub w => some (.std 0x08A w)
  | .sand w => some (.std 0x08B w)
  | .sor w => some (.std 0x08C w)
  | .sshl w => some (.std 0x08D w)
  | .scmp w => some (.std 0x08E w)
  | .sprrd w => some (.std 0x08F w)
  | .sprwr w => some (.std 0x090 w)
  | .bnload w => some (.std 0x0A0 w)
  | .bnperm w => some (.std 0x0A1 w)
  | .bnmov w => some (.std 0x0A2 w)
  | .shfl w => some (.std 0x0A3 w)
  | .vote w => some (.std 0x0A4 w)
  | .redux w => some (.std 0x0A5 w)
  | .scan w => some (.std 0x0A6 w)
  | .matchLanes w => some (.std 0x0A7 w)
  | .popm w => some (.std 0x0A8 w)
  | .bra w => some (.std 0x0C0 w)
  | .brx w => some (.std 0x0C1 w)
  | .call w => some (.std 0x0C2 w)
  | .callx w => some (.std 0x0C3 w)
  | .ret w => some (.std 0x0C4 w)
  | .exit w => some (.std 0x0C5 w)
  | .yield w => some (.std 0x0C6 w)
  | .nop w => some (.std 0x0C7 w)
  | .trig w => some (.std 0x0CC w)
  | .lwait w => some (.std 0x0CD w)
  | .ld w => some (.std 0x0E0 w)
  | .st w => some (.std 0x0E1 w)
  | .ldfe w => some (.std 0x0E2 w)
  | .stfe w => some (.std 0x0E3 w)
  | .fereset w => some (.std 0x0E4 w)
  | .fequery w => some (.std 0x0E5 w)
  | .pfetch w => some (.std 0x0E8 w)
  | .atom w => some (.std 0x0E9 w)
  | .red w => some (.std 0x0EA w)
  | .pub w => some (.std 0x124 w)
  | .cwait w => some (.std 0x125 w)
  | .cpoll w => some (.std 0x126 w)
  | .fabfence w => some (.std 0x128 w)
  | .mres w => some (.std 0x140 w)
  | .mrel w => some (.std 0x141 w)
  | .mzero w => some (.std 0x144 w)
  | .mwait w => some (.std 0x148 w)
  | .nnflush w => some (.std 0x14A w)
  | .rnext w => some (.std 0x161 w)
  | .rhit w => some (.std 0x162 w)
  | .rend w => some (.std 0x163 w)
  | .rquery w => some (.std 0x164 w)
  | .trap w => some (.std 0x180 w)
  | .rti w => some (.std 0x181 w)
  | .tmask w => some (.std 0x182 w)
  | .tunmask w => some (.std 0x183 w)
  | .tlbinv w => some (.std 0x184 w)
  | .cachectl w => some (.std 0x185 w)
  | .tmark w => some (.std 0x186 w)
  | .specoff w => some (.std 0x187 w)
  | .specon w => some (.std 0x188 w)
  | .halt w => some (.std 0x189 w)
  | .ctxsw w => some (.std 0x18A w)
  | .barInit w => some (.std 0x0C8 w)
  | .barArrive w => some (.std 0x0C8 w)
  | .barWait w => some (.std 0x0C8 w)
  | .barSync w => some (.std 0x0C8 w)
  | .iaddExt w => some (.ext 0x001 w)
  | .isubExt w => some (.ext 0x002 w)
  | .imulExt w => some (.ext 0x005 w)
  | .imad w => some (.ext 0x007 w)
  | .imadw w => some (.ext 0x008 w)
  | .iminExt w => some (.ext 0x00B w)
  | .imaxExt w => some (.ext 0x00C w)
  | .iclamp w => some (.ext 0x00D w)
  | .iandExt w => some (.ext 0x00E w)
  | .iorExt w => some (.ext 0x00F w)
  | .ixorExt w => some (.ext 0x010 w)
  | .iandnExt w => some (.ext 0x012 w)
  | .ibfe w => some (.ext 0x017 w)
  | .ibfi w => some (.ext 0x018 w)
  | .icmpExt w => some (.ext 0x01E w)
  | .idot4 w => some (.ext 0x01F w)
  | .isad w => some (.ext 0x020 w)
  | .lea w => some (.ext 0x021 w)
  | .leahi w => some (.ext 0x022 w)
  | .add64Ext w => some (.ext 0x023 w)
  | .sub64Ext w => some (.ext 0x024 w)
  | .cmp64Ext w => some (.ext 0x025 w)
  | .faddExt w => some (.ext 0x040 w)
  | .fsubExt w => some (.ext 0x041 w)
  | .fmulExt w => some (.ext 0x042 w)
  | .ffma w => some (.ext 0x043 w)
  | .fcmpExt w => some (.ext 0x046 w)
  | .hadd2Ext w => some (.ext 0x053 w)
  | .hmul2Ext w => some (.ext 0x054 w)
  | .hfma2 w => some (.ext 0x055 w)
  | .bfma2 w => some (.ext 0x056 w)
  | .fdot2 w => some (.ext 0x057 w)
  | .bxpack w => some (.ext 0x059 w)
  | .bxunpack w => some (.ext 0x05A w)
  | .movi w => some (.ext 0x087 w)
  | .saddExt w => some (.ext 0x089 w)
  | .ssubExt w => some (.ext 0x08A w)
  | .sandExt w => some (.ext 0x08B w)
  | .sorExt w => some (.ext 0x08C w)
  | .scmpExt w => some (.ext 0x08E w)
  | .bnloadExt w => some (.ext 0x0A0 w)
  | .braExt w => some (.ext 0x0C0 w)
  | .callExt w => some (.ext 0x0C2 w)
  | .emit w => some (.ext 0x0C9 w)
  | .emitm w => some (.ext 0x0CA w)
  | .reorder w => some (.ext 0x0CB w)
  | .ldExt w => some (.ext 0x0E0 w)
  | .stExt w => some (.ext 0x0E1 w)
  | .ldfeExt w => some (.ext 0x0E2 w)
  | .stfeExt w => some (.ext 0x0E3 w)
  | .ldbx w => some (.ext 0x0E6 w)
  | .stbx w => some (.ext 0x0E7 w)
  | .pfetchExt w => some (.ext 0x0E8 w)
  | .atomExt w => some (.ext 0x0E9 w)
  | .redExt w => some (.ext 0x0EA w)
  | .copy w => some (.ext 0x120 w)
  | .gather w => some (.ext 0x121 w)
  | .scatter w => some (.ext 0x122 w)
  | .fill w => some (.ext 0x123 w)
  | .ctab w => some (.ext 0x127 w)
  | .mckpt w => some (.ext 0x129 w)
  | .mshape w => some (.ext 0x142 w)
  | .mprol w => some (.ext 0x143 w)
  | .mmac w => some (.ext 0x145 w)
  | .mread w => some (.ext 0x146 w)
  | .mwrite w => some (.ext 0x147 w)
  | .nnev w => some (.ext 0x149 w)
  | .rtrace w => some (.ext 0x160 w)
  | .rfwd w => some (.ext 0x165 w)
  | .ccomp w => some (.ext 0x166 w)
  | .callred w => some (.ext 0x167 w)
  | .tlbinvExt w => some (.ext 0x184 w)
  | .braCond (.std w) => some (.std 0x0C0 w)
  | .braCond (.ext w) => some (.ext 0x0C0 w)
  | .callCond (.std w) => some (.std 0x0C2 w)
  | .callCond (.ext w) => some (.ext 0x0C2 w)
  | .powerOn => none
  | .packageReset => none
  | .functionReset => none
  | .setPortRoles => none
  | .acceptFeatures => none
  | .registerLaunchQueue => none
  | .registerFaultQueue => none
  | .registerStatusPage => none
  | .registerEventQueue => none
  | .setPasidContext => none
  | .mapTenant => none
  | .reKeyPage => none
  | .loadRouteTable => none
  | .bindEndpoint => none
  | .setPools => none
  | .setLarderSize => none
  | .setTongsTimer => none
  | .setThermalLimits => none
  | .attest => none
  | .releaseDumpOrTrace => none
  | .restoreMemoryImage => none
  | .mailboxUnknownCode => none
  | .tailWordWrite => none
  | .launchEntryAccept => none
  | .dependenceSatisfied => none
  | .leaseSetupDone => none
  | .blockPlace => none
  | .launchTrigger => none
  | .launchComplete => none
  | .recordPlacement => none
  | .poolSlotFree => none
  | .batchLaunch => none
  | .binTimerExpiry => none
  | .poolStallRelief => none
  | .consumerReserveFree => none
  | .quarterIssueSelect => none
  | .yieldTimeout => none
  | .priorityPreempt => none
  | .thermalMigration => none
  | .shadowLoadDone => none
  | .shadowSwap => none
  | .spillDone => none
  | .contextRestore => none
  | .saveAreaReturn => none
  | .stagedRelease => none
  | .loadPerform => none
  | .storePerform => none
  | .rollback => none
  | .rollbackIntervalExpiry => none
  | .longInstructionComplete => none
  | .asyncTrapDelivery => none
  | .fatalTrap => none
  | .permitBackoffExpiry => none
  | .faultQueueHeadMove => none
  | .faultEntryComplete => none
  | .priResponse => none
  | .atsInvalidationRequest => none
  | .hostSnoopOwnership => none
  | .hostSnoopRead => none
  | .hostMemAccess => none
  | .backInvalidateAnswer => none
  | .writebackAck => none
  | .linkDown => none
  | .linkRetrain => none
  | .fabricLinkChange => none
  | .fabricPacketArrival => none
  | .remoteAccessIngress => none
  | .remoteResponseArrival => none
  | .remoteTimeout => none
  | .atomicCacheLeaseExpiry => none
  | .atomicCacheRecall => none
  | .countEntryAgeOut => none
  | .countQuery => none
  | .remoteRecordArrival => none
  | .recordAckArrival => none
  | .slotGrant => none
  | .slotRevoke => none
  | .creditReturn => none
  | .peergone => none
  | .collectiveStart => none
  | .crucibleData => none
  | .requestAgain => none
  | .crucibleAbort => none
  | .crucibleAck => none
  | .crucibleRoundTimer => none
  | .collectiveComplete => none
  | .shardVersionWrite => none
  | .versionNotice => none
  | .larderFillResponse => none
  | .registerSpaceOther => none
  | .scratchpadPin => none
  | .scratchpadFillDone => none
  | .scratchpadUnpin => none
  | .errorSelftest => none
  | .powerThrottle => none
  | .powerRecover => none
  | .tongsRequest => none
  | .tongsTimerExpiry => none
  | .tongsTileCheck => none
  | .tongsTileResult => none
  | .anvilPassGrant => none
  | .anvilPassDone => none
  | .rayTraversalDone => none
  | .engineCommandDone => none
  | .ctabWaitTimeout => none
  | .reorderPoolDepart => none
  | .powerGating => none
  | .atsTranslationCompletion => none
  | .eventQueueHeadMove => none
  | .versionNoticeAcknowledgement => none
  | .selfTestEnd => none
  | .queuedBlockSent => none
/-- The instruction of an encoding, where the format is defined. -/
def Enc.instr : Enc → Option Instr
  | .pair p => some (.compactPair p)
  | .std op w => stdInstr op w
  | .ext op w => extInstr op w

/-- The words of an encoding. -/
def Enc.words : Enc → List W64
  | .pair p => [packPair p]
  | .std op w => [packStd op w]
  | .ext op w => [(packExt op w).1, (packExt op w).2]

/-- How many words an encoding takes (R73). -/
def Enc.length : Enc → Nat
  | .ext _ _ => 2
  | _ => 1

/-! ### Decoding (03 R96 to R98) -/

/-- A decode trap: cause, reason, TRAPINFO and TRAPAUX (R97). -/
structure DTrap where
  cause : Nat
  reason : Nat
  info : W64
  aux : Option W64
  deriving DecidableEq, Repr

/-- Step 1 of R96: the structure of the words. The second word counts only after a `10` word. -/
def readEnc (x y : W64) : Except DTrap Enc :=
  match formatOf x with
  | 0 => .ok (.pair (unpackPair x))
  | 1 => .ok (.std (opcodeOf x) (unpackStd x))
  | 2 => if formatOf y = 3 then .ok (.ext (opcodeOf x) (unpackExt x y)) else .error ⟨2, 2, x, some y⟩
  | _ => .error ⟨1, 3, x, none⟩

/-- The opcode check of a compact slot (R96 step 2). -/
def slotOpBad (s : Slot) : Option Nat := if s.op = 0#7 then some 1 else if s.op.toNat ≥ 0x40 then some 2 else none

/-- Steps 2 to 4 of R96 for an opcode: cause and reason. -/
def opBad (cx : DecCtx) (ext : Bool) (op : Nat) : Option (Nat × Nat) :=
  if op = 0 then some (1, 1)
  else if !assigned op || (match featureOf op with | some b => !cx.features.getLsbD b | none => false) then some (1, 2)
  else if !inStream cx.matrix op then some (1, 4)
  else if !(if ext then hasExt op else hasStd op) then some (2, 1)
  else none

/-- The first failing check of R96 steps 2 to 6: cause, reason and, for a pair, the slot. -/
def encBad (cx : DecCtx) : Enc → Option (Nat × Nat × Nat)
  | .pair p =>
    match slotOpBad p.s0, slotOpBad p.s1 with
    | some r, _ => some (1, r, 0)
    | none, some r => some (1, r, 1)
    | none, none =>
      if cx.matrix then some (1, 4, 0)
      else (pairBad cx p).map fun (r, s) => (2, r, s)
  | .std op w =>
    match opBad cx false op with
    | some (c, r) => some (c, r, 0)
    | none => (fieldBad cx op (.ofStd w)).map fun r => (2, r, 0)
  | .ext op w =>
    match opBad cx true op with
    | some (c, r) => some (c, r, 0)
    | none => (fieldBad cx op (.ofExt w)).map fun r => (2, r, 0)

/-- TRAPAUX of a decode trap (R97). -/
def decodeAux (e : Enc) (y : W64) (slot : Nat) : Option W64 :=
  match e with
  | .pair _ => some (BitVec.ofNat 64 slot)
  | .std _ _ => none
  | .ext _ _ => some y

/-- The instruction in the word `x` (and, after a `10` word, `y`), or the trap that decoding raises (R96, R97). -/
def decode (cx : DecCtx) (x y : W64) : Except DTrap Instr :=
  match readEnc x y with
  | .error t => .error t
  | .ok e =>
    match encBad cx e with
    | some (c, r, s) => .error ⟨c, r, x, decodeAux e y s⟩
    | none =>
      match e.instr with
      | some i => .ok i
      | none => .error ⟨2, 1, x, decodeAux e y 0⟩

/-- Words the instruction at a first word takes: two for format `10` (R73). -/
def wordsAt (x : W64) : Nat := if formatOf x = 2 then 2 else 1

/-- Why words are refused: too few of them, or a decode trap. -/
inductive Reject where
  | short
  | trap (t : DTrap)
  deriving DecidableEq, Repr

/-- Decoding a list of words: the instruction and the rest of the list. -/
def decodeWords (cx : DecCtx) : List W64 → Except Reject (Instr × List W64)
  | [] => .error .short
  | [x] => if formatOf x = 2 then .error .short else
    match decode cx x 0 with | .ok i => .ok (i, []) | .error t => .error (.trap t)
  | x :: y :: rest =>
    match decode cx x y with
    | .ok i => .ok (i, if formatOf x = 2 then rest else y :: rest)
    | .error t => .error (.trap t)

/-- A 64-bit word of up to eight bytes, little-endian (00 R9). -/
def wordOfBytes : List Byte → W64
  | [] => 0
  | b :: bs => (wordOfBytes bs <<< 8) ||| b.setWidth 64
/-- Decoding bytes as they lie in memory, the first at the lowest address; a trailing part of a word is left over. -/
def decodeBytes (cx : DecCtx) (bs : List Byte) : Except Reject (Instr × List Byte) :=
  if bs.length < 8 then .error .short
  else
    let x := wordOfBytes (bs.take 8)
    if formatOf x = 2 ∧ bs.length < 16 then .error .short
    else match decode cx x (wordOfBytes ((bs.drop 8).take 8)) with
      | .ok i => .ok (i, bs.drop (8 * wordsAt x))
      | .error t => .error (.trap t)

/-! ### Encoding -/

/-- The words of an instruction; none for a move of another agent, which has no word. -/
def encode (i : Instr) : Option (List W64) := i.enc.map Enc.words

/-- The context the table's words are read in: 512 registers, 16 lanes, every offered feature. -/
def tableCtx (matrix : Bool) : DecCtx := ⟨matrix, 512, 16, Config.offered⟩

/-- The instruction of a table word: read in a warp stream, else in a matrix stream. -/
def decodeTableWord (nbits w : Nat) : Option Instr :=
  let x := BitVec.ofNat 64 (w % 2 ^ nbits)
  let y := BitVec.ofNat 64 (w % 2 ^ nbits / 2 ^ 64)
  match decode (tableCtx false) x y with
  | .ok i => some i
  | .error _ => match decode (tableCtx true) x y with
    | .ok i => some i
    | .error _ => none

end Sys2Proof
end

