-- ==== Sys2Proof/Machine/Crypto.lean ====
section
/-! DEFINITION. The published functions that the spec names (00 R3): SHA3-384 with its permutation (FIPS 202), ML-DSA-65 verification (FIPS 204),
AES-XTS-256 (FIPS 197, IEEE 1619). The spec gives none of their tables: they are taken from those standards (log entry 16). -/
namespace Sys2Proof.Machine

/-- The number of a little-endian byte string (00 R9). -/
def leNat : List Byte → Nat
  | [] => 0
  | b :: bs => b.toNat + 256 * leNat bs
/-- The low `n` bytes of a number, least significant first. -/
def leBytes : Nat → Nat → List Byte
  | 0, _ => []
  | n + 1, x => BitVec.ofNat 8 x :: leBytes n (x / 256)

/-! ### The Keccak permutation and its sponges -/

/-- Rotation offsets of the lanes, x + 5y. -/
def keccakRot : List Nat := [0, 1, 62, 28, 27, 36, 44, 6, 55, 20, 3, 10, 43, 25, 39, 41, 45, 15, 21, 8, 18, 2, 61, 56, 14]
/-- The next state of the round constants' shift register. -/
def rcNext (r : Nat) : Nat := let x := 2 * r; if x < 256 then x else (BitVec.ofNat 9 x ^^^ 0x171#9).toNat
/-- The bit stream of the round constants from a register on. -/
def rcBits : Nat → Nat → List Bool
  | 0, _ => []
  | n + 1, r => (r % 2 == 1) :: rcBits n (rcNext r)
/-- Round constants: bit 2^j − 1 of round i is bit j + 7i of the stream. -/
def keccakRc (i : Nat) : W64 :=
  let t := rcBits (7 * i + 7) 1
  BitVec.ofNat 64 ((List.range 7).foldl (fun x j => if t.getD (7 * i + j) false then x + 2 ^ (2 ^ j - 1) else x) 0)
/-- One round: theta, rho and pi, chi, iota. -/
def keccakRound (a : List W64) (i : Nat) : List W64 :=
  let c := (List.range 5).map fun x => (List.range 5).foldl (fun z y => z ^^^ a.getD (x + 5 * y) 0) 0
  let d := (List.range 5).map fun x => c.getD ((x + 4) % 5) 0 ^^^ (c.getD ((x + 1) % 5) 0).rotateLeft 1
  let a := a.zipIdx.map fun (z, k) => z ^^^ d.getD (k % 5) 0
  let b := (List.range 25).map fun k =>
    let src := (k % 5 + 3 * (k / 5)) % 5 + 5 * (k % 5)
    (a.getD src 0).rotateLeft (keccakRot.getD src 0)
  (List.range 25).map fun k =>
    let at_ (x : Nat) : W64 := b.getD (x % 5 + 5 * (k / 5)) 0
    (b.getD k 0 ^^^ (~~~at_ (k % 5 + 1) &&& at_ (k % 5 + 2))) ^^^ (if k = 0 then keccakRc i else 0)
/-- The permutation of 24 rounds. -/
def keccak (a : List W64) : List W64 := (List.range 24).foldl keccakRound a
/-- A block of the rate is absorbed. -/
def absorb (a : List W64) (block : List Byte) : List W64 :=
  keccak (a.zipIdx.map fun (z, k) => z ^^^ BitVec.ofNat 64 (leNat ((block.drop (8 * k)).take 8)))
/-- The bytes of a state within the rate. -/
def squeezed (rate : Nat) (a : List W64) : List Byte := (a.flatMap fun z => leBytes 8 z.toNat).take rate
/-- The padded message of a sponge, with its domain bits. -/
def sponged (rate domain : Nat) (m : List Byte) : List Byte :=
  let k := rate - m.length % rate
  m ++ (List.range k).map fun i => (if i = 0 then BitVec.ofNat 8 domain else 0) ||| (if i + 1 = k then 0x80#8 else 0)
/-- Blocks absorbed one after another. -/
def absorbAll (rate : Nat) : Nat → List Byte → List W64 → List W64
  | 0, _, a => a
  | n + 1, m, a => absorbAll rate n (m.drop rate) (absorb a (m.take rate))
/-- Blocks squeezed one after another. -/
def squeezeAll (rate : Nat) : Nat → List W64 → List Byte
  | 0, _ => []
  | n + 1, a => squeezed rate a ++ squeezeAll rate n (keccak a)
/-- `blocks` blocks of a sponge's output. -/
def sponge (rate domain blocks : Nat) (m : List Byte) : List Byte :=
  let p := sponged rate domain m
  squeezeAll rate blocks (absorbAll rate (p.length / rate) p (List.replicate 25 0))
/-- SHA3-384, its first byte least significant. -/
def sha3 (m : List Byte) : BitVec 384 := BitVec.ofNat 384 (leNat ((sponge 104 6 1 m).take 48))
/-- SHAKE128: `blocks` blocks of 168 bytes. -/
def shake128 (blocks : Nat) (m : List Byte) : List Byte := sponge 168 0x1F blocks m
/-- SHAKE256: `n` bytes. -/
def shake256 (n : Nat) (m : List Byte) : List Byte := (sponge 136 0x1F (ceilDiv n 136) m).take n

/-! ### ML-DSA-65 -/

/-- The modulus. -/
def dsaQ : Nat := 8380417
/-- Powers modulo q; `fuel` bounds the bits of the exponent. -/
def dsaPow (b : Nat) : Nat → Nat → Nat
  | 0, _ => 1
  | fuel + 1, e => let h := dsaPow b fuel (e / 2); let s := h * h % dsaQ; if e % 2 = 1 then s * b % dsaQ else s
/-- The bits of a byte, reversed. -/
def bitRev8 (m : Nat) : Nat := (List.range 8).foldl (fun x i => 2 * x + m / 2 ^ i % 2) 0
/-- The number-theoretic transform of a block of 2^n coefficients at node `m` of the tree. -/
def ntt : Nat → Nat → List Nat → List Nat
  | 0, _, f => f
  | n + 1, m, f =>
    let h := 2 ^ n
    let z := dsaPow 1753 9 (bitRev8 m)
    let t := (f.drop h).map fun x => z * x % dsaQ
    ntt n (2 * m) ((f.take h).zipWith (fun a b => (a + b) % dsaQ) t) ++ ntt n (2 * m + 1) ((f.take h).zipWith (fun a b => (a + dsaQ - b) % dsaQ) t)
/-- Its inverse, but for the factor 256. -/
def nttBack : Nat → Nat → List Nat → List Nat
  | 0, _, f => f
  | n + 1, m, f =>
    let h := 2 ^ n
    let z := dsaPow 1753 10 (512 - bitRev8 m)
    let a := nttBack n (2 * m) (f.take h)
    let b := nttBack n (2 * m + 1) (f.drop h)
    a.zipWith (fun x y => (x + y) % dsaQ) b ++ a.zipWith (fun x y => z * ((x + dsaQ - y) % dsaQ) % dsaQ) b
/-- Coefficients of a polynomial from its transform. -/
def invNtt (f : List Nat) : List Nat := (nttBack 8 1 f).map fun x => 8347681 * x % dsaQ
/-- Numbers of `w` bits each, packed from the least significant bit up. -/
def unpackBits (w n : Nat) (bs : List Byte) : List Nat := let x := leNat bs; (List.range n).map fun i => x / 2 ^ (w * i) % 2 ^ w
/-- Coefficients drawn three bytes at a time, those below q. -/
def rejSample : Nat → List Byte → List Nat
  | 0, _ => []
  | fuel + 1, bs => match bs with
    | a :: b :: c :: rest =>
      let z := a.toNat + 256 * b.toNat + 65536 * (c.toNat % 128)
      if z < dsaQ then z :: rejSample fuel rest else rejSample fuel rest
    | _ => []
/-- An entry of the matrix, as its transform. -/
def dsaMatrix (rho : List Byte) (r s : Nat) : List Nat :=
  (rejSample 448 (shake128 8 (rho ++ [BitVec.ofNat 8 s, BitVec.ofNat 8 r]))).take 256
/-- The challenge polynomial from the bytes drawn: places `i` on, one sign bit each. -/
def dsaBall (signs : Nat) : Nat → Nat → List Byte → List Nat → List Nat
  | 0, _, _, c => c
  | fuel + 1, i, bs, c =>
    if 256 ≤ i then c
    else match bs with
      | [] => c
      | j :: rest =>
        if i < j.toNat then dsaBall signs fuel i rest c
        else dsaBall signs fuel (i + 1) rest ((c.set i (c.getD j.toNat 0)).set j.toNat (if signs.testBit (i - 207) then dsaQ - 1 else 1))
/-- The hints of a signature, one list of places for each row; none where they are not in their one form. -/
def dsaHints (y : List Byte) : Option (List (List Nat)) :=
  let n (i : Nat) : Nat := (y.getD i 0).toNat
  let rows := (List.range 6).map fun i => (if i = 0 then 0 else n (54 + i), n (55 + i))
  let good (r : Nat × Nat) : Bool := decide (r.1 ≤ r.2 ∧ r.2 ≤ 55) && (List.range (r.2 - r.1 - 1)).all fun k => decide (n (r.1 + k) < n (r.1 + k + 1))
  if rows.all good && (List.range 55).all (fun i => decide (i < n 60) || n i == 0) then
    some (rows.map fun r => (List.range (r.2 - r.1)).map fun k => n (r.1 + k))
  else none
/-- The high part of a coefficient, corrected by its hint. -/
def useHint (hint : Bool) (r : Nat) : Nat :=
  let g := 523776
  let low := r % g
  let neg := decide (g / 2 < low)
  let high := if neg then r / g + 1 else r / g
  let (r1, up) := if high = 16 then (0, false) else (high, !neg && decide (0 < low))
  if !hint then r1 else if up then (r1 + 1) % 16 else (r1 + 15) % 16
/-- ML-DSA-65 verification of a signature over a message under a public key, with an empty context string. -/
def mlDsaVerify (pk msg sig : List Byte) : Bool :=
  match dsaHints (sig.drop 3248) with
  | none => false
  | some hints =>
    if pk.length ≠ 1952 ∨ sig.length ≠ 3309 then false
    else
      let ct := sig.take 48
      let z := (List.range 5).map fun i => (unpackBits 20 256 ((sig.drop (48 + 640 * i)).take 640)).map fun (x : Nat) => (524288 : Int) - (x : Int)
      let mu := shake256 64 (shake256 64 pk ++ [0, 0] ++ msg)
      let drawn := shake256 1088 ct
      let c := ntt 8 1 (dsaBall (leNat (drawn.take 8)) 1080 207 (drawn.drop 8) (List.replicate 256 0))
      let zt := z.map fun p => ntt 8 1 (p.map fun x => (x % (dsaQ : Int)).toNat)
      let w1 := (List.range 6).flatMap fun r =>
        let t := ntt 8 1 ((unpackBits 10 256 ((pk.drop (32 + 320 * r)).take 320)).map fun x => 8192 * x % dsaQ)
        let row := (List.range 5).foldl (fun a s => a.zipWith (fun x y => (x + y) % dsaQ) ((dsaMatrix (pk.take 32) r s).zipWith (fun x y => x * y % dsaQ) (zt.getD s [])))
          (List.replicate 256 0)
        let w := invNtt (row.zipWith (fun x y => (x + dsaQ - y) % dsaQ) (c.zipWith (fun x y => x * y % dsaQ) t))
        let h := hints.getD r []
        leBytes 128 ((w.zipIdx.map fun (x, i) => useHint (h.contains i) x * 16 ^ i).foldl (fun a b => a + b) 0)
      z.all (fun p => p.all fun x => decide (x.natAbs < 524092)) && shake256 48 (mu ++ w1) == ct

/-! ### AES-XTS-256 -/

/-- Doubling in the field of 2^8 elements. -/
def gf2 (x : Byte) : Byte := (x <<< 1) ^^^ (if x.getLsbD 7 then 0x1B else 0)
/-- Product in the field; `n` bits of the first factor. -/
def gfMul : Nat → Byte → Byte → Byte
  | 0, _, _ => 0
  | n + 1, a, b => (if a.getLsbD 0 then b else 0) ^^^ gfMul n (a >>> 1) (gf2 b)
/-- The inverse in the field, zero for zero: the 254th power. -/
def gfInv (x : Byte) : Byte := (List.range 7).foldl (fun (p : Byte × Byte) _ => let s := gfMul 8 p.1 p.1; (s, gfMul 8 p.2 s)) (x, 1) |>.2
/-- The substitution of a byte. -/
def aesSub (x : Byte) : Byte := let b := gfInv x; b ^^^ b.rotateLeft 1 ^^^ b.rotateLeft 2 ^^^ b.rotateLeft 3 ^^^ b.rotateLeft 4 ^^^ 0x63
/-- Its inverse. -/
def aesUnsub (x : Byte) : Byte := gfInv (x.rotateLeft 1 ^^^ x.rotateLeft 3 ^^^ x.rotateLeft 6 ^^^ 0x05)
/-- Bytes added in the field. -/
def xorBytes (a b : List Byte) : List Byte := a.zipWith (fun x y => x ^^^ y) b
/-- The words of a 256-bit key's schedule, `n` more after those that stand. -/
def aesSchedule : Nat → List (List Byte) → List (List Byte)
  | 0, ws => ws
  | n + 1, ws =>
    let i := ws.length
    let t := ws.getLast?.getD []
    let rcon : Byte := (List.range (i / 8 - 1)).foldl (fun x _ => gf2 x) 1
    let t := if i % 8 = 0 then xorBytes ((t.rotateLeft 1).map aesSub) [rcon, 0, 0, 0] else if i % 8 = 4 then t.map aesSub else t
    aesSchedule n (ws ++ [xorBytes (ws.getD (i - 8) []) t])
/-- The round keys of a key of 32 bytes. -/
def aesKeys (key : List Byte) : List (List Byte) :=
  let ws := aesSchedule 52 ((List.range 8).map fun i => (key.drop (4 * i)).take 4)
  (List.range 15).map fun r => ((ws.drop (4 * r)).take 4).flatten
/-- The bytes of a block moved: row r by r columns, forwards or back. -/
def shiftRows (k : Nat) (b : List Byte) : List Byte := (List.range 16).map fun i => b.getD (i % 4 + 4 * ((i / 4 + k * (i % 4)) % 4)) 0
/-- The columns of a block multiplied by a circulant. -/
def mixColumns (m : List Byte) (b : List Byte) : List Byte :=
  (List.range 16).map fun i => (List.range 4).foldl (fun x j => x ^^^ gfMul 8 (m.getD ((j + 4 - i % 4) % 4) 0) (b.getD (i / 4 * 4 + j) 0)) 0
/-- A block encrypted. -/
def aesEncrypt (ks : List (List Byte)) (b : List Byte) : List Byte :=
  let b := (List.range 13).foldl (fun b r => xorBytes (mixColumns [2, 3, 1, 1] (shiftRows 1 (b.map aesSub))) (ks.getD (r + 1) [])) (xorBytes b (ks.getD 0 []))
  xorBytes (shiftRows 1 (b.map aesSub)) (ks.getD 14 [])
/-- A block decrypted. -/
def aesDecrypt (ks : List (List Byte)) (b : List Byte) : List Byte :=
  let b := (List.range 13).foldl (fun b r => mixColumns [14, 11, 13, 9] (xorBytes ((shiftRows 3 b).map aesUnsub) (ks.getD (13 - r) []))) (xorBytes b (ks.getD 14 []))
  xorBytes ((shiftRows 3 b).map aesUnsub) (ks.getD 0 [])
/-- The tweak of the next block. -/
def xtsNext (t : List Byte) : List Byte :=
  let x := leNat t
  leBytes 16 (if x < 2 ^ 127 then 2 * x else (BitVec.ofNat 128 (2 * x) ^^^ 0x87#128).toNat)
/-- Blocks of a line, each between two additions of its tweak. -/
def xtsBlocks (f : List Byte → List Byte) : Nat → List Byte → List Byte → List Byte
  | 0, _, _ => []
  | n + 1, t, bs => xorBytes (f (xorBytes (bs.take 16) t)) t ++ xtsBlocks f n (xtsNext t) (bs.drop 16)
/-- A 128-byte line encrypted, or decrypted, under a key of 64 bytes with its tweak (10 R341). -/
def aesXts (decrypt : Bool) (key : List Byte) (tweak : Nat) (line : List Byte) : List Byte :=
  let k1 := aesKeys (key.take 32)
  xtsBlocks (if decrypt then aesDecrypt k1 else aesEncrypt k1) 8 (aesEncrypt (aesKeys (key.drop 32)) (leBytes 16 tweak)) line

end Sys2Proof.Machine
end

