-- ==== Sys2Proof/Machine/State.lean ====
section
/-! DEFINITION. The state of one J7 package as plain data, the reasons a step can stop, and the state after reset (INVENTORY.md, State). -/
namespace Sys2Proof.Machine

/-- Why a run stops: nothing of the spec stops the J7 without a next state, so the one fault is the model's own. -/
inductive Fault where
  /-- Raised by `step` when the boot halted the package at a failing stage (14 R434); safe: the hardware does nothing then either. -/
  | packageHalted (stage : Nat)
  deriving DecidableEq, Repr

/-- Why an instruction has no meaning here. -/
inductive Refusal where
  /-- Raised by an arm of `exec` for an instruction without a meaning; safe: nothing is claimed of it. -/
  | notModelled (mnemonic : String)
  deriving DecidableEq, Repr

/-- Bytes by address, addresses strictly rising, no byte equal to what an unlisted address reads as (zero, 14 R434). -/
abbrev Mem := List Host.Cell

/-- A place in memory after translation: a physical address, a block's scratchpad, a quad's accumulator slots (01 R34). -/
inductive Loc where
  | pa (a : Nat)
  | sp (block off : Nat)
  | acc (quad off : Nat)
  deriving DecidableEq, Repr

/-- What a thread waits for (05 R154): `limit`, before an instruction that would pass a limit of speculation, of a staged buffer or of a channel; `check`, while
a check of its instruction waits for the host, so that its warp is disabled (12 R376); `stall`, what its instruction needs first; `swap`, its context's return (05 R192); `service`, a served fault by its number, or none while it backs off for a permit
(12 R381, R382). -/
inductive Wait where
  | none
  | bar (b : Nat) (phase : Bool)
  | lwait (level count : Nat)
  | fullEmpty
  | stall
  | limit
  | check
  | long
  | rti (next : Bool)
  | service (fault : Option Nat)
  | remote
  | credit (pkg ep lane : Nat)
  | swap
  deriving DecidableEq, Repr

/-- A hit of a ray (08 R276): exact t as a fraction, results as .f32 bits, the addresses that order it. -/
structure Hit where
  tNum : Int
  tDen : Nat
  t : W32
  u : W32
  v : W32
  geom : W32
  prim : W32
  instId : W32
  instAddr : Option Nat
  triAddr : Nat
  deriving DecidableEq, Repr

/-- The three states of a query (08 R272). -/
inductive QState where
  | none | cand | done
  deriving DecidableEq, Repr

/-- A reference still to visit: a child pointer, the address of the instance record it lies in (none outside), the first triangle of a leaf not yet tested
(for a remote node: whether the Larder has failed), and where the segment enters its box. -/
structure RayItem where
  ptr : W64
  inst : Option Nat
  tri : Nat
  num : Int
  den : Nat
  deriving DecidableEq, Repr

/-- A remote child noted by a traversal (08 R278): pointer and exact entry distance. -/
structure Noted where
  ptr : W64
  num : Int
  den : Nat
  deriving DecidableEq, Repr

/-- What a ray instruction asks of its lane's query (08 R279); `run`: a traversal that has begun goes on. -/
inductive RayAct where
  | trace | next | hit | hitEnd | finish | query | run
  deriving DecidableEq, Repr

/-- The ray query of a thread (08 R272); `offered`: the candidates already given, by instance and triangle (R277). -/
structure RayQuery where
  state : QState
  ray : List W32
  ctl : W32
  items : List RayItem
  committed : Option Hit
  cand : Option Hit
  offered : List (Option Nat × Nat)
  noted : List Noted
  remotes : Nat
  result : List W32
  deriving DecidableEq, Repr

/-- A query in NONE (08 R272). -/
def RayQuery.empty : RayQuery := ⟨.none, [], 0, [], .none, .none, [], [], 0, List.replicate 8 0⟩

/-- A translation held in a TLB (12 R390, R391). -/
structure TlbEntry where
  pasid : BitVec 20
  vpage : Nat
  ppage : Nat
  perm : Byte
  io : Bool
  buf : Option Nat
  deriving DecidableEq, Repr

/-- A run of an access inside one page: its first address, its bytes, its place, and what using it changes (06 R194). -/
structure Seg where
  va : W64
  n : Nat
  loc : Loc
  io : Bool
  buf : Option Nat
  mark : Option (Nat × Byte)
  fill : Option TlbEntry
  sites : List Nat
  deriving DecidableEq, Repr

/-- What an instruction that performs in parts has evaluated for a lane, once for its issue (01 R38, R40): the lane's address and operands, its checked
runs, the words of the instruction, and the error that a peer's answer reported: address and reason. `tag` names the issue: the lanes that it took go on
together. A lane of the path without Exec has no runs. -/
structure Plan where
  tag : Nat
  va : W64
  b : W64
  c : W64
  segs : List Seg
  words : W64 × W64
  bad : Option (W64 × Nat)
  deriving DecidableEq, Repr

/-- A thread (01 R13). An instruction that performs in parts leaves `plan` with what it evaluated at its issue; `got` holds what it has already obtained
for the lane. -/
structure Lane where
  populated : Bool
  exited : Bool
  held : Bool
  handler : Bool
  wait : Wait
  got : Option (List Byte)
  plan : Option Plan
  pc : Pc
  v : List W32
  p : BitVec 15
  wid : W64
  node : Option Nat
  depth : Nat
  triggered : Bool
  skip : Nat
  query : RayQuery
  deriving DecidableEq, Repr

/-- The trap registers of a warp (01 R13, R25, R26). -/
structure TrapRegs where
  cause : W32
  pc : W64
  info : W64
  aux : W64
  tba : W64
  mask : W32
  deriving DecidableEq, Repr

/-- A register a long instruction writes (03 R87). -/
inductive Dest where
  | v (k : Nat)
  | p (k : Nat)
  | u (k : Nat)
  | bn (k : Nat)
  deriving DecidableEq, Repr

/-- One write of a register. -/
inductive RegWrite where
  | v (lane k : Nat) (x : W32)
  | p (lane k : Nat) (x : Bool)
  | u (k : Nat) (x : W64)
  | bn (k : Nat) (x : BitVec 352)
  | fmt (x : W32)
  deriving DecidableEq, Repr

/-- A long-latency instruction whose results are not yet visible in every lane (03 R86): the instructions left in the window of each lane,
the parts of its work still outstanding elsewhere, whether it has completed, the writes gathered, whether its registers of the warp are still to be
written (04 R111), and the error that its data met: lane, address, reason (R89). -/
structure LongOp where
  id : Nat
  addr : W64
  left : List (Nat × Nat)
  parts : Nat
  done : Bool
  dests : List Dest
  writes : List RegWrite
  shared : Bool
  bad : Option (Nat × W64 × Nat)
  deriving DecidableEq, Repr

/-- What a store, red, stfe or fereset does when it performs (09 R300); `buf`: the descriptor of the buffered region it reaches and its address,
whose front copy a publish changes before the entry performs (06 R221, R223). -/
inductive StoreEff where
  | bytes (lane : Nat) (loc : Loc) (buf : Option (Nat × W64)) (xs : List Byte)
  | fill (lane : Nat) (loc : Loc) (xs : List Byte)
  | granules (block first count : Nat) (full : Bool)
  | red (lane : Nat) (loc : Loc) (buf : Option (Nat × W64)) (op : Nat) (wide : Bool) (x : W64)
  deriving DecidableEq, Repr

/-- An unfinished access of a warp's speculation window (09 R304). -/
inductive Access where
  | load (seq : Nat) (addr : W64) (lines : List Loc)
  | store (seq hint : Nat) (effs : List StoreEff)
  deriving DecidableEq, Repr

/-- A record of `emit` (05 R173). -/
structure EmitRec where
  node : Nat
  depth : Nat
  bytes : List Byte
  deriving DecidableEq, Repr

/-- The engine commands (06 R209, 08 R286). -/
inductive EngOp where
  | copy | gather | scatter | fill | pub | mckpt | ccomp | callred
  deriving DecidableEq, Repr

/-- A granule that an engine command has still to move (06 R215): the element it belongs to, or how far into the destination it lies for a command on a range;
its source and its destination. -/
structure Granule where
  elem : Nat
  src : W64
  dst : W64
  deriving DecidableEq, Repr

/-- An engine command with every register value taken at issue (06 R209). `list`: the elements of a `gather` or `scatter`, source and destination, once
its index list has been read (R214); `left`: once it has begun, the granules that it has still to move, or the block of a coded source that comes next; `image`: what a checkpoint has taken;
`stale`: the address of such a block and how many stale copies of it came (R227). `phase`: 0 its data is not done, 1 it is, 2 its record is on the fabric; `stat`, `fva` and `fin` are what its record says; a command that is cancelled
before it begins has its `stat` already. `pub`: the Crucible publishes its region, since a CLOCK (08 R294): the time and the region's descriptor. -/
structure EngCmd where
  id : Nat
  op : EngOp
  warp : Nat
  block : Nat
  launch : Nat
  core : Nat
  slot : Nat
  addr : W64
  a : W64
  b : W64
  c : W64
  recAddr : Option W64
  ch : Nat
  dm : Nat
  unz : Bool
  imm : W32
  hint : Nat
  list : Option (List (W64 × W64))
  left : Option (List Granule)
  image : List Byte
  stale : Nat × Nat
  phase : Nat
  stat : Nat
  fva : W64
  fin : Nat
  sentAt : Nat
  pub : Option (Nat × Nat)
  deriving DecidableEq, Repr

/-- One lane's request to its ray engine (08 R280). -/
structure RayReq where
  warp : Nat
  lane : Nat
  long : Nat
  dest : Nat
  act : RayAct
  addr : W64
  root : W64
  ray : List W32
  ctl : W32
  deriving DecidableEq, Repr

/-- One row of a request to the Tongs (07 R258): the lane, its handle and format word, and its input registers. -/
structure NnRow where
  warp : Nat
  long : Nat
  lane : Nat
  src : Nat
  dst : Nat
  regs : Nat
  handle : W64
  fmt : W32
  inputs : List W32
  deriving DecidableEq, Repr

/-- A request to the Tongs of a quad (07 R261); one without rows is an `nnflush` (R267). -/
structure NnReq where
  quad : Nat
  launch : Nat
  warp : Nat
  long : Nat
  flush : Bool
  rows : List NnRow
  deriving DecidableEq, Repr

/-- An entry of the staged-command buffer (01 R32). -/
inductive Cmd where
  | engine (c : EngCmd)
  | ray (rs : List RayReq)
  | nnev (r : NnReq)
  deriving DecidableEq, Repr

/-- A completion channel (06 R209, R225). -/
structure Chan where
  count : Nat
  sticky : Bool
  deriving DecidableEq, Repr

/-- A record of the trace ring (12 R409). -/
structure TraceRec where
  kind : Nat
  info : Nat
  slot : Nat
  a0 : BitVec 54
  a1 : BitVec 54
  deriving DecidableEq, Repr

/-- The registers a rollback restores (09 R307, R310). -/
structure WarpRegs where
  lanes : List Lane
  s : List W64
  bn : List (BitVec 352)
  trap : TrapRegs
  fmtword : W32
  deriving DecidableEq, Repr

/-- An open checkpoint (09 R303): the registers, and what was staged and held when it opened. -/
structure Ckpt where
  regs : WarpRegs
  seq : Nat
  emits : Nat
  cmds : Nat
  traces : Nat
  longs : List LongOp
  yielded : Option Nat
  openedAt : Nat
  deriving DecidableEq, Repr

/-- A warp's speculation state (01 R28, 09). `order` says of each staged operation, oldest first, whether it is a record; `sending` counts the
records sent that no pool slot holds yet (05 R174). -/
structure Spec where
  soff : Bool
  crfl : Nat
  window : List Access
  readSet : List Loc
  ckpt : Option Ckpt
  ulog : Nat
  emits : List EmitRec
  cmds : List Cmd
  order : List Bool
  sending : Nat
  rbCount : Nat
  rbAddr : W64
  nextSeq : Nat
  deriving DecidableEq, Repr

/-- An asynchronous trap that is held (01 R27, 06 R217). -/
structure AsyncTrap where
  cause : Nat
  reason : Nat
  info : W64
  aux : W64
  deriving DecidableEq, Repr

/-- A fatal trap that has not been processed (12 R383); `fault`: the fault whose service failed (17 R445). -/
structure FatalTrap where
  cause : Nat
  reason : Nat
  lane : Nat
  beyond : Bool
  pc : W64
  info : W64
  aux : W64
  auxv : Bool
  clock : Nat
  fault : Option Nat
  deriving DecidableEq, Repr

/-- The back-off of an agent that found no trap permit (12 R381), at an instruction; `retryAt` is 0 once the retry has begun. -/
structure Backoff where
  wait : Nat
  retryAt : Nat
  pc : Pc
  deriving DecidableEq, Repr

/-- Remote writes of a thread counted for a flow, an interval and a target (06 R229; 13 R428). -/
structure SentCount where
  lane : Nat
  flow : Nat
  interval : Nat
  target : Nat
  count : Nat
  deriving DecidableEq, Repr

/-- A warp (01 R13). `service`: the served fault its handler waits for (12 R382); `backoff`: its back-offs, one for each instruction (R381); `deferred`: the
path that issues at the next turn (05 R156); `badRows`: its register-file rows with an uncorrectable error
(R379); `asked`, `askedFor`: what the targets have answered to its fence, and what it had counted when they were asked (06 R230); `yielded`, `readySince`: counts of arithmetic cycles (05 R166, 11 R368). -/
structure Warp where
  id : Nat
  block : Nat
  core : Nat
  slot : Nat
  prio : Nat
  regs : WarpRegs
  warpx : W32
  spec : Spec
  longs : List LongOp
  nextLong : Nat
  chans : List Chan
  interval : Nat
  flow : Nat
  sent : List SentCount
  asked : List (Nat × Option Nat)
  askedFor : List SentCount
  remoteTarget : Option Nat
  remoteOpen : Nat
  asyncs : List AsyncTrap
  permit : Bool
  backoff : List Backoff
  service : Option Nat
  fatal : Option FatalTrap
  decodedExt : Option Bool
  yielded : Option Nat
  deferred : Option Pc
  disabled : Bool
  badRows : List Nat
  heldTrace : List TraceRec
  ctabSince : Option Nat
  age : Nat
  readySince : Option Nat
  deriving DecidableEq, Repr

/-- A named barrier (05 R167). -/
structure Bar where
  ready : Bool
  e : Nat
  a : Nat
  phase : Bool
  deriving DecidableEq, Repr

/-- What a matrix stream waits for (07 R233); `service` as for a thread. -/
inductive SWait where
  | none
  | bar (b : Nat) (phase : Bool)
  | mres (mask : W32)
  | service (fault : Option Nat)
  | stall
  deriving DecidableEq, Repr

/-- A matrix stream (07 R233). -/
structure Stream where
  x : List W64
  pc : Pc
  run : Bool
  next : Nat
  tokens : List Bool
  wait : SWait
  exited : Bool
  fatal : Option FatalTrap
  failed : Bool
  permit : Bool
  backoff : Option Backoff
  deriving DecidableEq, Repr

/-- A thread in its block's reorder pool (05 R177), with the flow, interval and counts it carries (06 R229; 13 R428); `due`: it
was there when no thread of its block was ready outside, and leaves with its pair (05 R178). -/
structure PoolThread where
  pc : Pc
  key : W32
  lane : Lane
  flow : Nat
  interval : Nat
  sent : List SentCount
  due : Bool
  deriving DecidableEq, Repr

/-- A scratchpad page that has been pinned once (10 R326): its frame, when it was last used, and the error its fill or its frame met (R329, 12 R379).
The bytes of a page without a frame lie in the block's backing area. -/
structure Page where
  no : Nat
  frame : Option Nat
  filling : Bool
  lastUse : Nat
  bad : Option Byte
  deriving DecidableEq, Repr

/-- A block on a core (01 R13, 11 R360): first placed at a CLOCK, on its present core since another (11 R375). Of the words that stores have replaced it may
still fetch those from `codeFrom` on (03 R95). -/
structure Block where
  id : Nat
  launch : Nat
  blockx : W64
  core : Nat
  winSlot : Nat
  scratchBytes : Nat
  scratch : Mem
  feEmpty : List Nat
  pages : List Page
  backing : Option Nat
  bars : List Bar
  pool : List PoolThread
  codeFrom : Nat
  stream : Option Stream
  batch : Option (Nat × Nat)
  batchSize : Nat
  batchExits : Nat
  poolFault : Option (Nat × W64)
  placedAt : Nat
  arrivedAt : Nat
  deriving DecidableEq, Repr

/-- An accumulator slot (01 R20): the block that holds it, its bytes, and the rows with an uncorrectable error (12 R379). -/
structure AccSlot where
  owner : Option Nat
  bytes : Mem
  bad : List Nat
  deriving DecidableEq, Repr

/-- What an Anvil operation does, with the records read at its issue (07 R245, R247, R252), or one layer of a Tongs tile (R261). -/
inductive AnvilKind where
  | mzero
  | mmac (recAddr : W64) (shape : Nat)
  | mprol (recAddr : W64) (shape prologue : Nat)
  | mread (base stride window : W64) (ty dm rnd : Nat) (sat : Bool)
  | mwrite (base stride window : W64) (ty : Nat)
  | tongs (tile layer : Nat)
  deriving DecidableEq, Repr

/-- A part of a read-out or a load that is still to be made (07 R252): a run of elements of a row of the slot, and for a load its source once it has been
read. -/
structure SlotPart where
  row : Nat
  col : Nat
  n : Nat
  xs : Option (List Byte)
  deriving DecidableEq, Repr

/-- An entry of a quad's reservation table (07 R238, 11 R369); `arrived` counts arithmetic cycles, `sentAt` is a CLOCK. `kept`: the rows of B, scales and zero points that its pass has read (07 R247);
`unwritten`: a row of its slot that the pass has read and not yet written (R250); `parts`: what a read-out or a load that has begun has still to move. -/
structure AnvilOp where
  id : Nat
  quad : Nat
  block : Nat
  launch : Nat
  slot : Nat
  kind : AnvilKind
  cls : Nat
  arrived : Nat
  sentAt : Nat
  granted : Bool
  kept : Option (List (List Byte))
  unwritten : Option (List Byte)
  parts : Option (List SlotPart)
  deriving DecidableEq, Repr

/-- A Tongs tile (07 R261); once checked it holds its record, the layers it takes and the bytes read (R264, R266). -/
structure Tile where
  id : Nat
  quad : Nat
  launch : Nat
  handle : W64
  fmt : W32
  rows : List NnRow
  firstAt : Nat
  timer : Nat
  sent : Bool
  checked : Bool
  layers : Nat
  passed : Bool
  record : List Byte
  data : List (List Byte)
  deriving DecidableEq, Repr

/-- The Tongs and Anvil state of the quads. -/
structure Quads where
  acc : List (Nat × Nat × AccSlot)
  waiters : List (Nat × Nat × W32)
  ops : List AnvilOp
  nnReqs : List NnReq
  tiles : List Tile
  timers : List (Nat × Nat)
  deriving DecidableEq, Repr

/-- A leased range of pages (11 R357): first page, pages, permitted kinds. -/
structure Lease where
  first : Nat
  count : Nat
  acc : BitVec 2
  deriving DecidableEq, Repr

/-- A run of the extent table (11 R357). -/
structure Extent where
  vpage : Nat
  ppage : Nat
  count : Nat
  acc : BitVec 2
  io : Bool
  buf : Option Nat
  deriving DecidableEq, Repr

/-- A node of the node table (11 R362). -/
structure Node where
  entry : W64
  pool : W64
  poolN : Nat
  timer : Nat
  batch : Nat
  recBytes : Nat
  maxDepth : Nat
  strict : Bool
  deriving DecidableEq, Repr

/-- A record in a pool slot and its node's bin (11 R363). -/
structure PoolRec where
  node : Nat
  slot : Nat
  depth : Nat
  bytes : List Byte
  placedAt : Nat
  deriving DecidableEq, Repr

/-- A record whose sender waits for a pool slot (11 R363), since a CLOCK: a warp, or a receive slot: endpoint, source,
slot; `lane`: that of the `rfwd` to this package that sent it (08 R283). -/
structure Sender where
  warp : Option Nat
  ep : Option (Nat × Nat × Nat)
  rc : EmitRec
  since : Nat
  lane : Option Nat
  deriving DecidableEq, Repr

/-- The launch header's fields (11 R353) and the queue's (11 R349). -/
structure Header where
  entry : W64
  mentry : W64
  tba : W64
  dumpp : W64
  leasep : W64
  nodep : W64
  lanes : Nat
  regs : Nat
  blk : Nat
  widths : List Nat
  scratch : Nat
  bars : Nat
  prio : Nat
  cres : Nat
  trfl : Byte
  tenant : BitVec 16
  strict : Bool
  lcnt : Nat
  consts : List W64
  privileged : Bool
  pasid : BitVec 20
  deriving DecidableEq, Repr

/-- The phases of a launch (11 R352, R355, R358); `reading`: accepted, its header not read yet (its address stands in `hdr.entry`); `listing`: its
header has been read, its lease list not yet; `tabling`: its node table not yet. -/
inductive Phase where
  | reading | listing | tabling | waiting | pending | live | ended | done
  deriving DecidableEq, Repr

/-- A fatal trap of an engine command that reached no warp (06 R217): the block of the command, its core, the trap, the back-off for a permit. -/
structure Orphan where
  block : Nat
  core : Nat
  trap : FatalTrap
  backoff : Option Backoff
  deriving DecidableEq, Repr

/-- A launch (11); `waitSince`: when its next block began to wait (R370); `remains`: blocks that retired with engine commands outstanding, as they
were; `codeFrom`: the words replaced when it was dispatched (03 R95); `tableHead`: the header of its node table once it has been read (R362). -/
structure Launch where
  id : Nat
  queue : Nat
  seq : W32
  crec : W64
  deps : List W32
  hdr : Header
  phase : Phase
  leases : List Lease
  extents : List Extent
  nodes : List Node
  overflow : Option Nat
  records : List PoolRec
  senders : List Sender
  nextBlock : Nat
  batches : Nat
  issued : Bool
  exits : List W64
  triggered : Bool
  otherf : Nat
  dumped : Bool
  stat : Byte
  reason : Byte
  halting : Bool
  orphans : List Orphan
  remains : List Block
  waitSince : Nat
  codeFrom : Option Nat
  tableHead : Option Nat
  deriving DecidableEq, Repr

/-- A launch queue (11 R349, 13 R415). -/
structure Queue where
  no : Nat
  cfg : QueueCfg
  tail : W32
  accepted : W32
  read : Nat
  regn : Nat
  stop : Byte
  lcomp : W32
  ltrig : W32
  deriving DecidableEq, Repr

/-- A fault queue (12 R392). -/
structure FaultQ where
  no : Nat
  cfg : RingCfg
  tail : W32
  head : W32
  deriving DecidableEq, Repr

/-- The event queue (13 R418): `seq` events since registration, `dropped` since the last LOST event. -/
structure EventQ where
  cfg : RingCfg
  tail : W32
  head : W32
  seq : Nat
  dropped : Nat
  deriving DecidableEq, Repr

/-- The status page (13 R415). -/
structure Status where
  page : Option Nat
  evseq : Nat
  resets : Nat
  deriving DecidableEq, Repr

/-- Who waits for a served fault (12 R393), or reads a source on a peer; the Hearth has no fault. -/
inductive FaultAgent where
  | warp (id : Nat)
  | stream (block : Nat)
  | engine (id : Nat)
  | anvil (op : Nat)
  | tongs (warp : Nat)
  | ray (warp lane : Nat)
  | crucible (id : Nat)
  | sched (launch : Nat)
  | hearth
  deriving DecidableEq, Repr

/-- Where a fault waits: the entry of a fault queue, room in it, a page request to the host, the host's allocation of such requests, a translation request
to the host (12 R391, R394). -/
inductive FaultPlace where
  | entry (fq t : Nat)
  | room (fq : Nat)
  | pri
  | held
  | ats
  | served
  | failed
  deriving DecidableEq, Repr

/-- A fault passed to its service (12 R394). -/
structure FaultWait where
  id : Nat
  agent : FaultAgent
  place : FaultPlace
  pasid : BitVec 20
  va : W64
  reason : Nat
  acc : Nat
  launch : Nat
  core : Nat
  slot : Nat
  lane : Nat
  deriving DecidableEq, Repr

/-- The states of a line in an L1 (10 R332); an absent entry is invalid. -/
inductive L1St where
  | shared | exclusive | modified
  deriving DecidableEq, Repr

/-- The states of a sector in the CXL bridge (10 R337); an absent entry is invalid. -/
inductive SecSt where
  | shared | exclusive | modified
  deriving DecidableEq, Repr

/-- A line in an evicting cache's write-back buffer (10 R336); the bridge's buffer holds sectors under a core number past the last (13 R414). -/
structure WbEntry where
  core : Nat
  line : Nat
  superseded : Bool
  deriving DecidableEq, Repr

/-- A line of a core's uniform-constant cache (10 R333): its tags, the physical line, and the translation that filled it. -/
structure UccLine where
  core : Nat
  vline : Nat
  pasid : BitVec 20
  tenant : BitVec 16
  line : Nat
  entry : TlbEntry
  deriving DecidableEq, Repr

/-- Where lines are held (10); values live in State.mem, since the place of a line never changes a value. `hints`: the hint that a line was allocated
with in a core's L1, or with no core in the L2 (03 R92). -/
structure Caches where
  l1 : List (Nat × Nat × L1St)
  ucc : List UccLine
  hints : List (Option Nat × Nat × Nat)
  l2 : List Nat
  sectors : List (Nat × SecSt)
  hostHeld : List Nat
  backInv : List Nat
  writeBacks : List WbEntry
  gated : List Nat
  deriving DecidableEq, Repr

/-- A line of the ingress atomic cache (13 R427). -/
structure IngressLine where
  line : Nat
  modified : Bool
  lastAtomic : Nat
  lastUse : Nat
  deriving DecidableEq, Repr

/-- An entry of the count table (13 R428, R429). -/
structure CountEntry where
  src : Nat
  flow : Nat
  interval : Nat
  count : Nat
  unknown : Bool
  touched : Nat
  deriving DecidableEq, Repr

/-- A record held in a receive slot (13 R431, R432). -/
structure HeldRec where
  src : Nat
  sslot : Nat
  rseq : W32
  bytes : List Byte
  deriving DecidableEq, Repr

/-- A bound receive endpoint (13 R432). -/
structure Endpoint where
  ep : Nat
  launch : Nat
  node : Nat
  tenant : BitVec 16
  senders : List Nat
  slots : Nat
  held : List HeldRec
  deriving DecidableEq, Repr

/-- Credits for an endpoint of a target and the next record number (13 R431, R432). -/
structure Credit where
  pkg : Nat
  ep : Nat
  free : Nat
  granted : Nat
  rseq : W32
  deriving DecidableEq, Repr

/-- A run on this package of an access that lies partly on a peer (06 R204): where in the access it begins, its place, its length, the buffered region and
the address it is reached by, the bytes that a store puts there. -/
structure NearRun where
  off : Nat
  loc : Loc
  n : Nat
  buf : Option (Nat × W64)
  xs : List Byte
  deriving DecidableEq, Repr

/-- A remote access without its answer (13 R426): the bytes of a read's answer fill the parts `spots` of the lane's `got` (offset and length), in order; a
write to the package's own shard version (10 R340) is one too, and so are an engine's accesses and a query of a count (06 R230), which is a read of no
lane; `off` is the lane of a forwarded record. `near`: the runs of the same access on this package, which perform with the answer, in one event; `seq`: the
memory instruction of the warp (09 R304); `reader`: the agent, other than a warp's access, whose source it reads; the fabric address then stands in
`va`. -/
structure Remote where
  id : Nat
  warp : Nat
  target : Nat
  issued : Nat
  isRead : Bool
  lane : Nat
  off : Nat
  va : W64
  flow : Nat
  interval : Nat
  cmd : Option Nat
  near : List NearRun
  spots : List (Nat × Nat)
  seq : Nat
  reader : Option FaultAgent
  deriving DecidableEq, Repr

/-- What the package sends out: to peers, as packets over a fabric port or as messages over an Ultra Ethernet port (13 R424, R430), and to its host (log
entry 17). -/
inductive Out where
  | packet (port : Nat) (p : Packet)
  | message (dst : Nat) (req : FabReq)
  | snoopAnswer (pa : Nat) (bytes : List Byte)
  | hostRead (pa : Nat) (bytes : List Byte)
  | backInvalidate (line : Nat)
  | writeBack (line : Nat)
  | cleanEvict (sector : Nat)
  | pageRequest (pasid : BitVec 20) (va : W64) (wait : Nat)
  | translate (pasid : BitVec 20) (va : W64) (wait : Nat)
  | invalidationDone (pasid : BitVec 20) (va : W64)
  deriving DecidableEq, Repr

/-- A pixel of a tile image with its origin rank (08 R288, R289). -/
structure Pixel where
  r : BitVec 16
  g : BitVec 16
  b : BitVec 16
  a : BitVec 16
  depth : W32
  origin : Nat
  deriving DecidableEq, Repr

/-- A message of the Crucible that is kept until acknowledged, or that has come in and waits for its step (08 R292, R293); `image`: it is one of a
`ccomp`, whose UNIT holds BANDS. -/
structure CMsg where
  image : Bool
  pkg : Nat
  hdr : BitVec 128
  payload : List Byte
  deriving DecidableEq, Repr

/-- A collective that runs (08 R285 to R293): its command, the fields of its descriptor and rank table, the step it is in, its own partial image or sums,
the messages that have come in, decoded, the step's deadline and requests, and the status it ended with. -/
structure Collective where
  cmd : EngCmd
  tag : W32
  rank : Nat
  ranks : List Nat
  opm : Nat
  alg : Bool
  out : Bool
  count : Nat
  slot : Nat
  timerUs : Nat
  sbase : W64
  dbase : W64
  step : Nat
  pixels : List Pixel
  values : List W32
  early : List CMsg
  deadline : Nat
  requests : Nat
  stat : Option Nat
  deriving DecidableEq, Repr

/-- The Crucible (08): running collectives, kept messages, the tags that have completed with their rank tables. -/
structure Crucible where
  colls : List Collective
  kept : List CMsg
  done : List (W32 × List Nat)
  deriving DecidableEq, Repr

/-- A buffered region's engine side (06 R223, R224): granules written since the last publish, first failing status. -/
structure Region where
  desc : Nat
  written : List Nat
  spoil : Option Byte
  deriving DecidableEq, Repr

/-- A codec slot of a port (06 R228, 10 R345). -/
structure Table where
  port : Nat
  slot : Nat
  gen : Nat
  image : List Byte
  deriving DecidableEq, Repr

/-- The codec: loaded slots, blocks queued at ports (port, slot, generation), stale copies seen of a block. -/
structure Codec where
  tables : List Table
  queued : List (Nat × Nat × Nat)
  deriving DecidableEq, Repr

/-- A Larder line (10 R339). -/
structure LarderLine where
  tenant : BitVec 16
  owner : Nat
  vline : Nat
  bytes : List Byte
  deriving DecidableEq, Repr

/-- The Larder and the shard version (10 R339, R340). While the version changes, `newVersion` holds it with the number of the store that changes it (even
for the package's own stores, odd for a peer's), and `writes` the stores that wait for their turn. -/
structure Larder where
  units : Nat
  lines : List LarderLine
  versions : List (Nat × W32)
  filledBy : List Nat
  awaiting : List Nat
  version : W32
  newVersion : Option (Nat × W32)
  writes : List (Nat × W32)
  deriving DecidableEq, Repr

/-- The pre-emption phases of a core (11 R371). -/
inductive CorePhase where
  | run | load | swap | spill
  deriving DecidableEq, Repr

/-- A page of a trace ring (12 R408). -/
structure TracePage where
  pa : Nat
  tenant : Option (BitVec 16)
  fill : Nat
  stamp : Nat
  deriving DecidableEq, Repr

/-- What a core holds apart from its blocks and warps. -/
structure Core where
  no : Nat
  phase : CorePhase
  incoming : Option Nat
  outgoing : Option Nat
  rollbacks : Nat
  rollbacksTotal : Nat
  careful : Nat
  tracesLost : Nat
  lostTotal : Nat
  sinceMark : Nat
  pages : List TracePage
  lastIssue : List (Nat × Nat)
  temp : Nat
  interval : Nat
  deriving DecidableEq, Repr

/-- A saved context (11 R371, 12 R400): the save area of each block; `migrated`: it left a hot core (11 R375). -/
structure Context where
  num : Nat
  blocks : List Block
  warps : List Warp
  acc : List (Nat × Nat × AccSlot)
  ops : List AnvilOp
  sseq : Nat
  areas : List (Nat × Nat)
  migrated : Bool
  savedAt : Nat
  deriving DecidableEq, Repr

/-- The pools of mailbox command 0x0C (14 R437). -/
structure Pools where
  backing : List Nat
  saves : List Nat
  deriving DecidableEq, Repr

/-- The mailbox (14 R435); `pending`: the command that is being carried out while ST is 1; `rsvd`: the reserved half of its first word. -/
structure Mailbox where
  code : Byte
  cseq : Byte
  alen : BitVec 16
  st : Byte
  sseq : Byte
  rsn : BitVec 16
  args : List Byte
  pending : Option MbArgs
  rsvd : W32
  deriving DecidableEq, Repr

/-- The boot (14 R434): the stage it halted at, if any, and the measurements. -/
structure Boot where
  halted : Option BootFail
  m0 : BitVec 384
  m1 : BitVec 384
  deriving DecidableEq, Repr

/-- Power and clock (14 R440). -/
structure Thermal where
  capW : Nat
  thresholdC : Nat
  clockMhz : Nat
  powerMw : Nat
  belowSince : Option Nat
  deriving DecidableEq, Repr

/-- Package counters of the telemetry block (14 R441); `units`: corrected errors of a unit at a place since reset (13 R419);
`tested`: the results of the self-tests, unit, place and whether the fault is lasting (12 R411). -/
structure Telemetry where
  ignored : Nat
  refused : Nat
  migrations : Nat
  hbm : List (Nat × Nat × Nat)
  units : List (Nat × Nat × Nat)
  tested : List (Nat × Nat × Bool)
  deriving DecidableEq, Repr

/-- A self-test (12 R411), with the time by which it ends; none while that of a register row waits for its bank to be the empty shadow bank. -/
structure SelfTest where
  id : Nat
  unit : TestUnit
  place : Nat
  corrected : Bool
  deadline : Option Nat
  deriving DecidableEq, Repr

/-- A tenant's mapping (14 R437, command 0x08): key index, ML-DSA-65 public key, wrapped AES key. -/
structure Tenant where
  no : BitVec 16
  key : Nat
  pubKey : List Byte
  wrapped : List Byte
  deriving DecidableEq, Repr

/-- The host link and ports (13 R414, 14 R437); `peers`: the packages that the transport has declared unreachable; `addrs`, `peerTable`, `delivery`: the
addresses of the Ultra Ethernet ports and of the peers, and the peers with a packet delivery context (13 R430). -/
structure Ports where
  roles : BitVec 12
  rolesSet : Bool
  down : BitVec 12
  hostUp : Bool
  heldSectors : Nat
  hostLosses : Nat
  peers : List Nat
  discarded : Nat
  addrs : List (Nat × List Byte)
  peerTable : List (Nat × List Byte)
  delivery : List Nat
  deriving DecidableEq, Repr

/-- Numbers the package gives out. -/
structure Counters where
  warp : Nat
  block : Nat
  launch : Nat
  cmd : Nat
  tile : Nat
  op : Nat
  wait : Nat
  remote : Nat
  ctx : Nat
  sseq : Nat
  flow : Nat
  test : Nat
  images : Nat
  deriving DecidableEq, Repr

/-- One path of an issue turn (05 R155): a path of a warp, or a matrix stream; `words`: words of the instruction decoded there, 0 for a compact pair; `code`:
those words; `quota`: how many lanes beside the first perform an access before another agent's event may come between (01 R39). -/
structure Issue where
  stream : Bool
  owner : Nat
  pc : Pc
  lanes : BitVec 64
  words : Nat
  code : W64 × W64
  quota : Nat
  deriving DecidableEq, Repr

/-- The issue turn that is being taken (05 R155): its warp, the lanes that were ready as it began, the lanes of the paths that have issued, how many these
are, the address and the instruction of the first one. -/
structure Turn where
  warp : Nat
  ready : BitVec 64
  on : BitVec 64
  paths : Nat
  first : Option (Pc × Instr)
  deriving DecidableEq, Repr

/-- The machine. `work`: base clk weighted by the arithmetic clock's MHz (00 R10); `fetched`: bytes that came from a peer for an agent that still reads
its source there, by fabric address; none for a read that failed. `seen`: the records that have come for an endpoint, taken or
refused, by source and number (13 R431). `hostWait`: lines that this move must store to and that the host has to give up first;
`blocked`: moves that wait for such lines (13 R413; log entry 64); `resetting`: a reset that waits until the host has what it must get first (R414). `oldCode`: the words that stores have
replaced, oldest first (03 R95). -/
structure State where
  clock : Nat
  work : Nat
  free : Nat
  agenda : List (Instr × Arg)
  arg : Arg
  turn : List Issue
  taking : Option Turn
  cur : Issue
  boot : Boot
  mailbox : Mailbox
  features : Option (BitVec 256)
  pkg : Nat
  ports : Ports
  mem : Mem
  oldCode : List (Loc × W64)
  keys : List (Nat × Nat)
  tenants : List Tenant
  badLines : List (Nat × Byte)
  pasids : List (BitVec 20 × BitVec 128)
  tlb : List TlbEntry
  queues : List Queue
  faultQs : List FaultQ
  faultWaits : List FaultWait
  status : Status
  eventQ : Option EventQ
  launches : List Launch
  blocks : List Block
  warps : List Warp
  cores : List Core
  contexts : List Context
  pools : Pools
  quads : Quads
  engines : List EngCmd
  rays : List RayReq
  regions : List Region
  checkpointing : Option Nat
  codec : Codec
  crucible : Crucible
  larder : Larder
  cache : Caches
  routes : List W32
  endpoints : List Endpoint
  credits : List Credit
  seen : List (Nat × Nat × W32)
  ingress : List IngressLine
  arrived : List Packet
  counts : List CountEntry
  remotes : List Remote
  fetched : List (FaultAgent × Nat × (Nat ⊕ List Byte))
  out : List Out
  thermal : Thermal
  telemetry : Telemetry
  tests : List SelfTest
  errorLog : List (BitVec 8 × Nat)
  digests : List (BitVec 384)
  ioResult : W64
  hostWait : List Nat
  blocked : List (Instr × Arg)
  resetting : Option (Instr × Arg)
  ctr : Counters
  deriving DecidableEq, Repr

/-- The state after reset: the boot has run to the end of stage 4 and nothing has been registered (14 R434; log entries 3 and 21). -/
def State.reset : State where
  clock := 0
  work := 0
  free := 0
  agenda := []
  arg := .none
  turn := []
  taking := .none
  cur := ⟨false, 0, 0, 0, 1, (0, 0), 0⟩
  boot := ⟨.none, sha3 (Config.firmware 0 0), sha3 (Config.firmware 0 1)⟩
  mailbox := ⟨0, 0, 0, 0, 0, 0, [], .none, 0⟩
  features := .none
  pkg := 0
  ports := ⟨0, false, 0, true, 0, 0, [], 0, [], [], []⟩
  mem := []
  oldCode := []
  keys := []
  tenants := []
  badLines := []
  pasids := []
  tlb := []
  queues := []
  faultQs := []
  faultWaits := []
  status := ⟨.none, 0, 1⟩
  eventQ := .none
  launches := []
  blocks := []
  warps := []
  cores := []
  contexts := []
  pools := ⟨[], []⟩
  quads := ⟨[], [], [], [], [], []⟩
  engines := []
  rays := []
  regions := []
  checkpointing := .none
  codec := ⟨[], []⟩
  crucible := ⟨[], [], []⟩
  larder := ⟨0, [], [], [], [], 0, .none, []⟩
  cache := ⟨[], [], [], [], [], [], [], [], []⟩
  routes := List.replicate 128 0
  endpoints := []
  credits := []
  seen := []
  ingress := []
  arrived := []
  counts := []
  remotes := []
  fetched := []
  out := []
  thermal := ⟨2600, 95, 1600, 0, .none⟩
  telemetry := ⟨0, 0, 0, [], [], []⟩
  tests := []
  errorLog := []
  digests := []
  ioResult := 0
  hostWait := []
  blocked := []
  resetting := .none
  ctr := ⟨1, 1, 1, 1, 1, 1, 1, 1, 1, 1, 1, 1, 0⟩

end Sys2Proof.Machine
end

