-- ==== Sys2Proof/Machine/Base.lean ====
section
/-! DEFINITION. The named operations over lists, bytes, memory, warps, lanes and registers; the commit of an instruction; the windows of long
instructions (03 R86); places and lines (01 R34, 10). -/
namespace Sys2Proof.Machine

/-! ### Lists -/

/-- The list with element `i` changed. -/
def modifyNth {α : Type} : List α → Nat → (α → α) → List α
  | [], _, _ => []
  | x :: xs, 0, f => f x :: xs
  | x :: xs, n + 1, f => x :: modifyNth xs n f
/-- Number of elements that satisfy a test. -/
def countIf {α : Type} (p : α → Bool) (xs : List α) : Nat := (xs.filter p).length
/-- A list without repeats, the first of each kept. -/
def dedup {α : Type} [DecidableEq α] (xs : List α) : List α :=
  xs.foldl (fun acc x => if acc.contains x then acc else acc ++ [x]) []
/-- Insertion into an increasing list. -/
def insertNat (x : Nat) : List Nat → List Nat
  | [] => [x]
  | y :: ys => if x ≤ y then x :: y :: ys else y :: insertNat x ys
/-- A list in increasing order. -/
def sortNat (xs : List Nat) : List Nat := xs.foldr insertNat []
/-- The element with the least key, the first among equals. -/
def minBy {α : Type} (key : α → Nat) : List α → Option α
  | [] => none
  | x :: xs => match minBy key xs with
    | none => some x
    | some y => some (if key x ≤ key y then x else y)

/-- Bits [hi:lo] of a record held as a number. -/
def bits (x hi lo : Nat) : Nat := x / 2 ^ lo % 2 ^ (hi + 1 - lo)

/-! ### Sparse memory in canonical form: addresses rising, no zero byte (14 R434) -/

/-- The byte at an address; an unlisted one reads zero. -/
def Mem.get (m : Mem) (a : Nat) : Byte :=
  match m with
  | [] => 0
  | (k, v) :: t => if a = k then v else Mem.get t a
/-- The memory with one byte written. -/
def Mem.set (m : Mem) (a : Nat) (b : Byte) : Mem :=
  match m with
  | [] => if b = 0 then [] else [(a, b)]
  | (k, v) :: t =>
    if a < k then (if b = 0 then (k, v) :: t else (a, b) :: (k, v) :: t)
    else if a = k then (if b = 0 then t else (a, b) :: t)
    else (k, v) :: Mem.set t a b
/-- Bytes from an address upward. -/
def Mem.read (m : Mem) (a n : Nat) : List Byte := (List.range n).map fun i => m.get (a + i)
/-- Bytes written from an address upward. -/
def Mem.write (m : Mem) (a : Nat) : List Byte → Mem
  | [] => m
  | b :: bs => Mem.write (m.set a b) (a + 1) bs
/-- Zeros over a range. -/
def Mem.clear (m : Mem) (a n : Nat) : Mem := m.filter fun c => decide (c.1 < a) || decide (a + n ≤ c.1)
/-- The canonical form: addresses strictly rising, no byte equal to what an unlisted address reads as. -/
def Mem.wf (m : Mem) : Bool := decide (m.Pairwise fun c d => c.1 < d.1) && m.all fun c => c.2 != 0

/-! ### Physical space (00 R7; 10 R323) -/

/-- A fabric address. -/
def isFabric (pa : Nat) : Bool := bits pa 51 51 == 1
/-- A host address. -/
def isHost (pa : Nat) : Bool := bits pa 51 50 == 1
/-- An address of this package's HBM. -/
def isHbm (pa : Nat) : Bool := decide (pa < Config.hbmBytes)
/-- A register-space offset. -/
def isReg (off : Nat) : Bool := decide (Config.regBase ≤ off ∧ off < 2 ^ 44)
/-- The line of a physical address. -/
def lineOf (a : Nat) : Nat := a / 128 * 128

/-- Physical bytes. -/
def State.readPa (s : State) (a n : Nat) : List Byte := s.mem.read a n
/-- Physical bytes as a number. -/
def State.numPa (s : State) (a n : Nat) : Nat := leNat (s.mem.read a n)
/-- Physical memory written. -/
def State.writePa (s : State) (a : Nat) (bs : List Byte) : State := { s with mem := s.mem.write a bs }

/-! ### Choices the spec leaves open (log entry 6) -/

/-- A free number for this step and purpose. -/
def State.pick (s : State) (salt : Nat) : Nat := Config.freeNat (s.free * 2 ^ 80 + salt % 2 ^ 80)
/-- A free yes or no. -/
def State.choose (s : State) (salt : Nat) : Bool := s.pick salt % 2 == 1

/-! ### Finding and updating the things of the state -/

/-- A warp by number. -/
def State.warp? (s : State) (id : Nat) : Option Warp := s.warps.find? fun w => w.id == id
/-- Replaces the warp with the same number. -/
def State.putWarp (s : State) (w : Warp) : State := { s with warps := s.warps.map fun v => if v.id = w.id then w else v }
/-- Changes a warp. -/
def State.modWarp (s : State) (id : Nat) (f : Warp → Warp) : State :=
  { s with warps := s.warps.map fun v => if v.id = id then f v else v }
/-- Changes every warp, in residence or in a saved context. -/
def State.mapWarps (s : State) (f : Warp → Warp) : State :=
  { s with warps := s.warps.map f, contexts := s.contexts.map fun c => { c with warps := c.warps.map f } }
/-- A block by number. -/
def State.block? (s : State) (id : Nat) : Option Block := s.blocks.find? fun b => b.id == id
/-- Changes a block. -/
def State.modBlock (s : State) (id : Nat) (f : Block → Block) : State :=
  { s with blocks := s.blocks.map fun v => if v.id = id then f v else v }
/-- A launch by number. -/
def State.launch? (s : State) (id : Nat) : Option Launch := s.launches.find? fun l => l.id == id
/-- Changes a launch. -/
def State.modLaunch (s : State) (id : Nat) (f : Launch → Launch) : State :=
  { s with launches := s.launches.map fun v => if v.id = id then f v else v }
/-- A core with nothing on it. -/
def Core.fresh (no : Nat) : Core := ⟨no, .run, none, none, 0, 0, 0, 0, 0, 0, [], [], 0, 0⟩
/-- A core by number. -/
def State.core (s : State) (no : Nat) : Core := (s.cores.find? fun c => c.no == no).getD (Core.fresh no)
/-- Changes a core. -/
def State.modCore (s : State) (no : Nat) (f : Core → Core) : State :=
  if s.cores.any fun c => c.no == no then { s with cores := s.cores.map fun c => if c.no = no then f c else c }
  else { s with cores := s.cores ++ [f (Core.fresh no)] }
/-- A block in residence or in a saved context. -/
def State.anyBlock? (s : State) (id : Nat) : Option Block :=
  match s.block? id with
  | some b => some b
  | none => (s.contexts.flatMap (·.blocks)).find? fun b => b.id == id
/-- Changes a block in residence or in a saved context. -/
def State.modAnyBlock (s : State) (id : Nat) (f : Block → Block) : State :=
  let g (b : Block) : Block := if b.id = id then f b else b
  { s with blocks := s.blocks.map g, contexts := s.contexts.map fun c => { c with blocks := c.blocks.map g } }
/-- Arithmetic cycles since package reset: base clk where the arithmetic clock runs at 1,600 MHz, fewer where it is lowered (00 R10, 14 R440). -/
def State.cycles (s : State) : Nat := s.work / 1600
/-- A move proposed for a later step. -/
def State.propose (s : State) (i : Instr) (a : Arg) : State := { s with agenda := s.agenda ++ [(i, a)] }

/-- A move that comes before every other one proposed. -/
def State.proposeFirst (s : State) (i : Instr) (a : Arg) : State := { s with agenda := (i, a) :: s.agenda }

/-- The quad of a core (01 R24). -/
def quadOf (core : Nat) : Nat := core / 4
/-- The quarter of a warp slot: quarter q holds slots 16q to 16q + 15. -/
def quarterOf (slot : Nat) : Nat := slot / 16

/-! ### Lanes and registers (01 R14 to R18, R38) -/

/-- A lane number with no thread. -/
def Lane.none : Lane :=
  ⟨false, false, false, false, .none, Option.none, Option.none, 0, [], 0, 0, Option.none, 0, false, 0, RayQuery.empty⟩
/-- Lane `l` of a warp. -/
def Warp.lane (w : Warp) (l : Nat) : Lane := w.regs.lanes.getD l Lane.none
/-- Warp width W. -/
def Warp.width (w : Warp) : Nat := w.regs.lanes.length
/-- V(k, l). -/
def Warp.v (w : Warp) (l k : Nat) : W32 := (w.lane l).v.getD k 0
/-- V(k:k+1, l). -/
def Warp.v2 (w : Warp) (l k : Nat) : W64 := pair64 (w.v l k) (w.v l (k + 1))
/-- S(k). -/
def Warp.s (w : Warp) (k : Nat) : W64 := w.regs.s.getD k 0
/-- P(k, l); p15 reads true (R17). -/
def Warp.p (w : Warp) (l k : Nat) : Bool := k == 15 || (w.lane l).p.getLsbD k
/-- bn register k. -/
def Warp.bnr (w : Warp) (k : Nat) : BitVec 352 := w.regs.bn.getD k 0

/-- One bit of a predicate word set; a write to p15 is discarded (R17). -/
def setPred (p : BitVec 15) (k : Nat) (x : Bool) : BitVec 15 :=
  if k < 15 then (if x then p ||| (1#15 <<< k) else p &&& ~~~(1#15 <<< k)) else p

/-- Registers with lane `l` changed. -/
def WarpRegs.modLane (r : WarpRegs) (l : Nat) (f : Lane → Lane) : WarpRegs := { r with lanes := modifyNth r.lanes l f }
/-- One register write. -/
def WarpRegs.write (r : WarpRegs) : RegWrite → WarpRegs
  | .v l k x => r.modLane l fun t => { t with v := t.v.set k x }
  | .p l k x => r.modLane l fun t => { t with p := setPred t.p k x }
  | .u k x => { r with s := r.s.set k x }
  | .bn k x => { r with bn := r.bn.set k x }
  | .fmt x => { r with fmtword := x }
/-- Register writes in order. -/
def WarpRegs.writes (r : WarpRegs) (ws : List RegWrite) : WarpRegs := ws.foldl WarpRegs.write r
/-- A 64-bit value into a pair, low half first (R14). -/
def writePair (l k : Nat) (x : W64) : List RegWrite := [.v l k (lo32 x), .v l (k + 1) (hi32 x)]
/-- The same change to some lanes. -/
def Warp.modLanes (w : Warp) (ls : List Nat) (f : Lane → Lane) : Warp :=
  { w with regs := ls.foldl (fun r l => r.modLane l f) w.regs }

/-- A change of the lanes that a test names, in the registers and in an open checkpoint alike: a rollback does not undo what another agent did to a
thread that waits (09 R307, R308). -/
def Warp.onLanes (w : Warp) (p : Lane → Bool) (f : Lane → Lane) : Warp :=
  let g (r : WarpRegs) : WarpRegs := { r with lanes := r.lanes.map fun t => if t.populated && !t.exited && p t then f t else t }
  { w with regs := g w.regs, spec := { w.spec with ckpt := w.spec.ckpt.map fun c => { c with regs := g c.regs } } }

/-- The same for one lane by its number. -/
def Warp.bothLane (w : Warp) (l : Nat) (f : Lane → Lane) : Warp :=
  { w with regs := w.regs.modLane l f, spec := { w.spec with ckpt := w.spec.ckpt.map fun c => { c with regs := c.regs.modLane l f } } }
/-- A lane at the beginning of an instruction: it waits for nothing and nothing of it has been done. -/
def Lane.fresh (t : Lane) : Lane := { t with wait := .none, got := Option.none, plan := Option.none }
/-- Does a thread stand before its instruction for a reason that ends elsewhere (05 R154)? -/
def Lane.stands (t : Lane) : Bool := t.wait == .stall || t.wait == .limit || t.wait == .check || t.wait == .long
/-- Has a lane runs still to perform at the places that its instruction translated (01 R38)? Those in a scratchpad stay where they are whatever is
translated anew. -/
def Lane.owes (t : Lane) : Bool :=
  t.got.isNone && t.plan.any fun p => p.segs.any fun g => match g.loc with | .sp _ _ => false | _ => true

/-- Lanes that hold a thread that has not exited. -/
def Warp.live (w : Warp) : List Nat := (List.range w.width).filter fun l => (w.lane l).populated && !(w.lane l).exited
/-- A thread is ready when it has not exited, does not wait and is not held (05 R154). -/
def Lane.ready (t : Lane) : Bool := t.populated && !t.exited && !t.held && t.wait == .none
/-- Is a warp disabled: the Tongs have still to check its rows, or a check of an instruction of it waits for the host (12 R376)? -/
def Warp.off (w : Warp) : Bool := w.disabled || w.live.any fun l => (w.lane l).wait == .check
/-- ACTIVE: the lanes of the issuing path that hold a live thread (R38). -/
def Warp.active (w : Warp) (mask : BitVec 64) : List Nat := w.live.filter fun l => mask.getLsbD l
/-- Does a lane outside a path owe runs of an instruction that it performs in parts? -/
def Warp.owing (w : Warp) (path : List Nat) : Bool := w.live.any fun l => !path.contains l && (w.lane l).owes
/-- Guard(g, l) (R38). -/
def Warp.guard (w : Warp) (g : Guard) (l : Nat) : Bool := w.p l g.idx.toNat != g.neg
/-- A set of lanes as a mask. -/
def maskOf (ls : List Nat) : BitVec 64 := ls.foldl (fun m l => m ||| (1#64 <<< l)) 0

/-! ### The instruction that issues -/

/-- The warp that issues, with its block and launch. -/
structure Env where
  w : Warp
  b : Block
  l : Launch

/-- The warp, block and launch of the path that issues now. -/
def State.env (s : State) : Option Env :=
  match s.warp? s.cur.owner with
  | none => none
  | some w => match s.block? w.block with
    | none => none
    | some b => (s.launch? b.launch).map fun l => ⟨w, b, l⟩
/-- Acts on the issuing warp; a path whose warp is gone does nothing. -/
def State.onWarp (s : State) (k : Env → State) : State :=
  match s.env with
  | some e => k e
  | none => s
/-- ACTIVE of the issuing path. -/
def State.act (s : State) (w : Warp) : List Nat := w.active s.cur.lanes
/-- The lanes with Exec under two guards (R38). -/
def State.exec (s : State) (w : Warp) (ga gb : Guard) : List Nat := (s.act w).filter fun l => w.guard ga l && w.guard gb l

/-! ### Speculation state (05 R158, 09 R303) -/

/-- No access has to perform, nothing is staged, no checkpoint is open (05 R158). -/
def Warp.settled (w : Warp) : Bool :=
  w.spec.window.isEmpty && w.spec.emits.isEmpty && w.spec.cmds.isEmpty && w.spec.ckpt.isNone && w.spec.sending == 0 && w.remoteOpen == 0
/-- Is the warp speculative (09 R303)? -/
def Warp.speculative (w : Warp) : Bool := !w.settled
/-- May the warp issue no access past an unfinished one (09 R309)? -/
def Warp.careful (w : Warp) : Bool := w.spec.soff || decide (w.spec.crfl > 0)
/-- The registers a list of writes names, each once. -/
def destsOf (ws : List RegWrite) : List Dest :=
  dedup (ws.filterMap fun
    | .v _ k _ => some (.v k) | .p _ k _ => if k < 15 then some (.p k) else none
    | .u k _ => some (.u k) | .bn k _ => some (.bn k) | .fmt _ => none)
/-- Has the undo log room for so many entries (09 R304)? -/
def Warp.logRoom (w : Warp) (n : Nat) : Bool := w.spec.ckpt.isNone || decide (w.spec.ulog + n ≤ 24)

/-- The window lane counts of every outstanding long instruction after `n` instructions issued in some lanes (03 R86). A compact pair met with one
instruction left in a window issues whole: the spec does not say whether it waits (log entry 61). -/
def tickLongs (ops : List LongOp) (act : List Nat) (n : Nat) : List LongOp :=
  ops.map fun o => { o with left := o.left.map fun (l, k) => if act.contains l then (l, k - n) else (l, k) }

/-- The lanes of an instruction that perform an access before another agent's event may come between two of them (01 R39; log entry 58). -/
def State.lanesNow (s : State) (n : Nat) : Nat := min n (s.cur.quota + 1)
/-- Instructions the issuing word counts as: a compact pair is two (03 R86, 09 R313). -/
def Issue.count (i : Issue) : Nat := if i.words = 0 then 2 else 1
/-- Words the issuing instruction takes. -/
def Issue.length (i : Issue) : Nat := if i.words = 2 then 2 else 1

/-- The instruction lowers the careful count (09 R313). -/
def Warp.counted (w : Warp) (i : Issue) : Warp := { w with spec := { w.spec with crfl := w.spec.crfl - i.count } }
/-- The instruction has issued: windows and the careful count go down (03 R86, 09 R313), the program counters of ACTIVE move on (R73). -/
def Warp.advance (w : Warp) (i : Issue) (act : List Nat) : Warp :=
  let w := { w.counted i with
    longs := tickLongs w.longs act i.count
    backoff := w.backoff.filter fun b => b.retryAt != 0 || !act.any fun l => (w.lane l).pc == b.pc }
  w.modLanes act fun t => { t with pc := t.pc + BitVec.ofNat 61 i.length, got := Option.none, plan := Option.none }

/-- Register writes take effect; under a checkpoint they enter the undo log (09 R304). -/
def Warp.commit (w : Warp) (ws : List RegWrite) : Warp :=
  { w with regs := w.regs.writes ws
           spec := { w.spec with ulog := if w.spec.ckpt.isNone then 0 else w.spec.ulog + (destsOf ws).length } }

/-- A thread waits at its instruction. -/
def State.waitLanes (s : State) (w : Warp) (ls : List Nat) (why : Wait) : State :=
  s.putWarp (w.modLanes ls fun t => { t with wait := why })
/-- The path stalls before its instruction until something has happened elsewhere (05 R154). -/
def State.stall (s : State) (w : Warp) : State := s.waitLanes w (s.act w) .stall
/-- The warp is disabled at the path's instruction: a check of it waits for the host (12 R376, R391). -/
def State.disable (s : State) (w : Warp) : State := s.waitLanes w (s.act w) .check
/-- The path waits before an instruction that would pass a limit (05 R154; 09 R304). -/
def State.limit (s : State) (w : Warp) : State := s.waitLanes w (s.act w) .limit

/-- The end of an instruction that writes registers at once. -/
def State.finish (s : State) (e : Env) (ws : List RegWrite) : State :=
  if e.w.logRoom (destsOf ws).length then s.putWarp ((e.w.commit ws).advance s.cur (s.act e.w)) else s.limit e.w

/-! ### Long-latency instructions (03 R85 to R90) -/

/-- What a completed long instruction writes as a lane leaves its window; a register of the warp once, with the first lane (04 R111). -/
def LongOp.writesFor (o : LongOp) (l : Nat) : List RegWrite :=
  o.writes.filter fun
    | .v l' _ _ => l' == l
    | .p l' _ _ => l' == l
    | _ => o.shared
/-- A lane leaves the window of a completed long instruction: its results become visible there. -/
def Warp.closeLong (w : Warp) (o : LongOp) (l : Nat) : Warp :=
  { w with regs := w.regs.writes (o.writesFor l)
           longs := w.longs.map fun p => if p.id = o.id then { p with left := p.left.filter (fun q => q.1 != l), shared := false } else p }
/-- Drops the long instructions no lane needs any more; while a checkpoint is open they are kept for a rollback (09 R307). -/
def Warp.dropLongs (w : Warp) : Warp :=
  if w.spec.ckpt.isSome then w else { w with longs := w.longs.filter fun o => !(o.done && o.left.isEmpty) }
/-- Every window of a lane that has ended, or all of them with `all`, is closed where the long instruction has completed. -/
def Warp.closeLane (w : Warp) (l : Nat) (all : Bool) : Warp :=
  (w.longs.filter fun o => o.done && o.left.any fun q => q.1 == l && (all || q.2 == 0)).foldl (fun v o => v.closeLong o l) w
/-- Does a lane stand at the end of a window, or with `all` in any window, of a long instruction that has not completed? -/
def Warp.longPending (w : Warp) (l : Nat) (all : Bool) : Bool :=
  w.longs.any fun o => !o.done && o.left.any fun q => q.1 == l && (all || q.2 == 0)
/-- Every outstanding long instruction completes into the registers (R89). -/
def Warp.settleLongs (w : Warp) : Warp :=
  (w.live.foldl (fun v l => v.closeLane l true) w).dropLongs
/-- Has every long instruction completed? -/
def Warp.longsDone (w : Warp) : Bool := w.longs.all fun o => o.done

/-- The end of a long instruction: with no promise and no work elsewhere it writes at once; otherwise its window opens (R86). -/
def State.finishLong (s : State) (e : Env) (la : Nat) (dests : List Dest) (ws : List RegWrite) (parts : Nat := 0)
    (bad : Option (Nat × W64 × Nat) := none) : State :=
  let act := s.act e.w
  let n := (dedup (dests ++ destsOf ws)).length
  if !e.w.logRoom n then s.limit e.w
  else if la = 0 ∧ parts = 0 then s.putWarp ((e.w.commit ws).advance s.cur act)
  else
    let w := e.w.advance s.cur act
    let o : LongOp := ⟨w.nextLong, e.w.lane (act.headD 0) |>.pc.addr, act.map fun l => (l, la), parts, false, dests, ws, true, bad⟩
    s.putWarp { w with longs := w.longs ++ [o], nextLong := w.nextLong + 1
                       spec := { w.spec with ulog := if w.spec.ckpt.isNone then 0 else w.spec.ulog + n } }

/-- One part of a long instruction's work elsewhere has ended, with what it writes. -/
def Warp.longPart (w : Warp) (op : Nat) (ws : List RegWrite) : Warp :=
  { w with longs := w.longs.map fun o => if o.id = op then { o with parts := o.parts - 1, writes := o.writes ++ ws } else o }

/-! ### Places in memory (01 R34; 10 R325, R326) -/

/-- A scratchpad page by number, if it has been pinned once. -/
def Block.page? (b : Block) (n : Nat) : Option Page := b.pages.find? fun p => p.no == n
/-- Bytes of a backing area: 256 pages of 4,096 data bytes, then 32 bytes of full-empty bits for each page (10 R325; their order: log entry 62). -/
def areaBytes : Nat := 256 * 4128
/-- Where a byte of the scratchpad lies in the backing area: a byte of a page that has been pinned and holds no frame (10 R326, R328). -/
def Block.areaAt (b : Block) (o : Nat) : Option Nat :=
  match b.page? (o / 4096), b.backing with
  | some p, some a => if p.frame.isNone || p.filling then some (a + o) else none
  | _, _ => none
/-- Where the full-empty bits of a page lie in a backing area. -/
def areaBits (a page : Nat) : Nat := a + 256 * 4096 + 32 * page
/-- A byte of a block's scratchpad. -/
def State.spByte (s : State) (b : Block) (o : Nat) : Byte :=
  match b.areaAt o with
  | some a => s.mem.get a
  | none => b.scratch.get o
/-- Is a granule of a block's scratchpad full (06 R199)? -/
def State.granuleFull (s : State) (b : Block) (g : Nat) : Bool :=
  match b.areaAt (16 * g), b.backing with
  | some _, some a => (s.mem.get (areaBits a (g / 256) + g % 256 / 8)).getLsbD (g % 8)
  | _, _ => !b.feEmpty.contains g

/-- Bytes at a place. -/
def State.readLoc (s : State) (l : Loc) (n : Nat) : List Byte :=
  match l with
  | .pa a => s.readPa a n
  | .sp b o => match s.anyBlock? b with | some b => (List.range n).map fun i => s.spByte b (o + i) | none => List.replicate n 0
  | .acc q o => match s.quads.acc.find? fun a => a.1 == q && a.2.1 == o / 65536 with
    | some a => a.2.2.bytes.read (o % 65536) n
    | none => List.replicate n 0
/-- A byte of a block's scratchpad written. -/
def State.spPut (s : State) (id o : Nat) (x : Byte) : State :=
  match (s.anyBlock? id).bind fun b => b.areaAt o with
  | some a => { s with mem := s.mem.set a x }
  | none => s.modAnyBlock id fun b => { b with scratch := b.scratch.set o x }
/-- Bytes written to a block's scratchpad. -/
def State.spWrite (s : State) (id o : Nat) : List Byte → State
  | [] => s
  | x :: xs => (s.spPut id o x).spWrite id (o + 1) xs
/-- Bytes written at a place. -/
def State.writeLoc (s : State) (l : Loc) (bs : List Byte) : State :=
  match l with
  | .pa a => s.writePa a bs
  | .sp b o => s.spWrite b o bs
  | .acc q o => { s with quads := { s.quads with acc := s.quads.acc.map fun a =>
      if a.1 = q ∧ a.2.1 = o / 65536 then (a.1, a.2.1, { a.2.2 with bytes := a.2.2.bytes.write (o % 65536) bs }) else a } }
/-- One full-empty bit written. -/
def State.putGranule (s : State) (id g : Nat) (full : Bool) : State :=
  match s.anyBlock? id with
  | none => s
  | some b => match b.areaAt (16 * g), b.backing with
    | some _, some a =>
      let k := areaBits a (g / 256) + g % 256 / 8
      let m : Byte := 1#8 <<< (g % 8)
      { s with mem := s.mem.set k (if full then s.mem.get k ||| m else s.mem.get k &&& ~~~m) }
    | _, _ => s.modAnyBlock id fun b =>
      let rest := b.feEmpty.filter fun h => h != g
      { b with feEmpty := if full then rest else insertNat g rest }
/-- Do two runs of bytes share a byte? -/
def overlap (a : Loc) (n : Nat) (b : Loc) (m : Nat) : Bool :=
  match a, b with
  | .pa x, .pa y => decide (x < y + m ∧ y < x + n)
  | .sp p x, .sp q y => p == q && decide (x < y + m ∧ y < x + n)
  | .acc p x, .acc q y => p == q && decide (x < y + m ∧ y < x + n)
  | _, _ => false

/-! ### Lines, and what reaches them (09 R306) -/

/-- A place some bytes on. -/
def Loc.plus (l : Loc) (k : Nat) : Loc :=
  match l with | .pa a => .pa (a + k) | .sp b o => .sp b (o + k) | .acc q o => .acc q (o + k)
/-- The 128-byte line of a place. -/
def Loc.line (l : Loc) : Loc :=
  match l with | .pa a => .pa (a / 128 * 128) | .sp b o => .sp b (o / 128 * 128) | .acc q o => .acc q (o / 128 * 128)
/-- The lines of a run of bytes. -/
def linesOf (l : Loc) (n : Nat) : List Loc :=
  if n = 0 then [] else dedup ((List.range (n / 128 + 2)).filterMap fun i => if i * 128 < n + 128 then some (l.plus (min (i * 128) (n - 1))).line else none)
/-- A number that names a line in a move. -/
def Loc.code : Loc → Nat
  | .pa a => a | .sp b o => 2 ^ 60 * (2 * b + 1) + o | .acc q o => 2 ^ 60 * (2 * q + 2) + o
/-- The lines an open load read. -/
def Access.loadLines : Access → List Loc
  | .load _ _ ls => ls
  | .store _ _ _ => []
/-- Something reached these lines: every warp but `by_` (the agent of a store, whose own loads its store buffer serves) that has one of them in its read set
rolls back before anything else happens (09 R306). -/
def State.disturb (s : State) (lines : List Loc) (by_ : Option Nat) : State :=
  let hit (w : Warp) : Option Loc := lines.find? w.spec.readSet.contains
  { s with agenda := (s.warps.filterMap fun w : Warp =>
      if w.spec.ckpt.isNone || some w.id == by_ then none else (hit w).map fun l => (Instr.rollback, Arg.two w.id l.code)) ++ s.agenda }

end Sys2Proof.Machine
end

