-- ==== Sys2Proof/Machine/Cache.lean ====
section
/-! DEFINITION. Where lines are held (03 R92; 10 R332 to R338; 13 R413, R427): states without data, since the place of a line never changes a value
(log entry 18); writes and reads of lines at the site that owns them; poisoned lines (10 R342); key indices (10 R341); registers of device register
space (10 R448, 14 R441). -/
namespace Sys2Proof.Machine

/-! ### Lines in the L1s, the uniform-constant caches, the L2 and the bridge -/

/-- The state of a line in a core's L1; none when invalid. -/
def Caches.l1At (c : Caches) (core line : Nat) : Option L1St := (c.l1.find? fun x => x.1 == core && x.2.1 == line).map (·.2.2)
/-- A line of a core's L1 takes a state. -/
def Caches.setL1 (c : Caches) (core line : Nat) (st : L1St) : Caches :=
  { c with l1 := (c.l1.filter fun x => !(x.1 == core && x.2.1 == line)) ++ [(core, line, st)] }
/-- A line leaves the L1s, the uniform-constant caches among them (10 R333), of the cores that a test names. -/
def Caches.dropAt (c : Caches) (on : Nat → Bool) (line : Nat) : Caches :=
  { c with l1 := c.l1.filter fun x => x.2.1 != line || !on x.1
           ucc := c.ucc.filter fun x => x.line != line || !on x.core
           hints := c.hints.filter fun h => h.2.1 != line || match h.1 with | some k => !on k | none => true }
/-- A line leaves every L1 but one; no uniform-constant cache keeps it. -/
def Caches.dropOthers (c : Caches) (core line : Nat) : Caches :=
  { c.dropAt (fun k => k != core) line with ucc := c.ucc.filter fun x => x.line != line }
/-- A line leaves every L1. -/
def Caches.dropL1 (c : Caches) (line : Nat) : Caches := c.dropAt (fun _ => true) line
/-- The copies of a line in every L1 become shared (10 R335, R338). -/
def Caches.share (c : Caches) (line : Nat) : Caches :=
  { c with l1 := c.l1.map fun (k, l, st) => (k, l, if l = line then .shared else st) }
/-- Does the directory find a holder of a line beside a core: another core's L1 or uniform-constant cache, the host, the ingress cache (10 R332, R333;
13 R413)? -/
def State.heldElsewhere (s : State) (core line : Nat) : Bool :=
  (s.cache.l1.any fun x => x.2.1 == line && x.1 != core) || (s.cache.ucc.any fun x => x.line == line && x.core != core) ||
    s.cache.hostHeld.contains line || s.ingress.any fun i => i.line == line
/-- The state of a sector at the bridge. -/
def Caches.sector (c : Caches) (a : Nat) : Option SecSt := (c.sectors.find? fun x => x.1 == a).map (·.2)
/-- A sector takes a state. -/
def Caches.setSector (c : Caches) (a : Nat) (st : SecSt) : Caches :=
  { c with sectors := (c.sectors.filter fun x => x.1 != a) ++ [(a, st)] }
/-- A sector is released. -/
def Caches.dropSector (c : Caches) (a : Nat) : Caches := { c with sectors := c.sectors.filter fun x => x.1 != a }
/-- A held sector that a write uses becomes modified, another exclusive; a read obtains a missing one shared (10 R337). -/
def Caches.obtain (c : Caches) (write : Bool) (touched : Bool) (a : Nat) : Caches :=
  if write then
    if touched || c.sector a == some .modified then c.setSector a .modified else c.setSector a .exclusive
  else if (c.sector a).isSome then c else c.setSector a .shared
/-- Both sectors of a host line in the state an access needs; a write changes `n` bytes from `a` on. -/
def Caches.bridge (c : Caches) (write : Bool) (line a n : Nat) : Caches :=
  if isHost line then (c.obtain write (a < line + 64) line).obtain write (line + 64 < a + n) (line + 64) else c
/-- The hint a line was allocated with (03 R92): 0 default, 1 stream, 2 retain. -/
def Caches.hintOf (c : Caches) (core : Option Nat) (line : Nat) : Nat :=
  ((c.hints.find? fun h => h.1 == core && h.2.1 == line).map (·.2.2)).getD 0
/-- A line is allocated with a hint. -/
def Caches.setHint (c : Caches) (core : Option Nat) (line hint : Nat) : Caches :=
  { c with hints := (c.hints.filter fun h => !(h.1 == core && h.2.1 == line)) ++ (if hint = 1 ∨ hint = 2 then [(core, line, hint)] else []) }
/-- A write-back on its way is superseded by an access that reaches the home first (10 R336). -/
def Caches.supersede (c : Caches) (line : Nat) : Caches :=
  { c with writeBacks := c.writeBacks.map fun w => if w.line = line ∧ w.core < Config.cores then { w with superseded := true } else w }
/-- A sector in the bridge's write-back buffer (13 R414): the buffer stands under the number past the last core. -/
def bridgeEntry (sector : Nat) : WbEntry := ⟨Config.cores, sector, false⟩
/-- Does the bridge's write-back buffer still answer for a sector (13 R414)? -/
def Caches.bridgeHolds (c : Caches) (sector : Nat) : Bool := c.writeBacks.contains (bridgeEntry sector)
/-- The bridge's write-back of a sector goes: another has its data (13 R414). -/
def Caches.bridgeDrop (c : Caches) (sector : Nat) : Caches := { c with writeBacks := c.writeBacks.filter fun w => w != bridgeEntry sector }

/-- Lines that open loads of any warp have read. -/
def State.inReadSet (s : State) (line : Nat) : Bool := s.warps.any fun w => w.spec.window.any fun a => a.loadLines.contains (.pa line)
/-- The lines that a hint allows as victims: stream lines first, retained lines last (03 R92). -/
def Caches.preferred (c : Caches) (core : Option Nat) (lines : List Nat) : List Nat :=
  let stream := lines.filter fun l => c.hintOf core l == 1
  let plain := lines.filter fun l => c.hintOf core l != 2
  if !stream.isEmpty then stream else if !plain.isEmpty then plain else lines

/-- Lines that an L2 slice holds at most: the L2 less the Larder (10 R334, R339; the Larder's share is spread over the slices, log entry 63). -/
def State.sliceLines (s : State) : Nat := (Config.l2Lines - s.larder.units * 32768) / Config.slices
/-- The L2's lines of one slice. -/
def State.sliceOf (s : State) (line : Nat) : List Nat := s.cache.l2.filter fun x => Config.homeSlice x % Config.slices == Config.homeSlice line % Config.slices
/-- A line leaves the L2 after every L1, which reaches read sets (10 R334). -/
def State.evictL2 (s : State) (line : Nat) : State :=
  let c := s.cache.dropL1 line
  { s with cache := { c with l2 := c.l2.filter (fun x => x != line), hints := c.hints.filter fun h => h.2.1 != line } }.disturb [.pa line] none
/-- A full slice gives a line up; which one the hints leave is open (log entry 6). -/
def State.makeRoomL2 (s : State) (line : Nat) : State :=
  let mine := s.sliceOf line
  if s.cache.l2.length < s.sliceLines then s
  else if mine.length < s.sliceLines then s
  else
    let among := s.cache.preferred none mine
    match among[s.pick (2 ^ 71 + line) % among.length]? with
    | some x => s.evictL2 x
    | none => s
/-- The line is in the L2 (the L2 holds every line that an L1 holds, R334). -/
def State.fillL2 (s : State) (hint line : Nat) : State :=
  if s.cache.l2.contains line then s
  else
    let s := s.makeRoomL2 line
    { s with cache := { s.cache with l2 := s.cache.l2 ++ [line] }.setHint none line hint }
/-- A changed Larder size: slices with more lines than they now hold give some up. -/
def State.trimL2 (s : State) : State :=
  s.cache.l2.foldl (fun s x => if s.sliceLines < (s.sliceOf x).length then s.makeRoomL2 x else s) s

/-- Room for one more line in a full set of an L1: a victim outside every read set if there is one, else read sets are reached by the eviction
(09 R305); which line the hints leave is open (log entry 6). A modified victim is written back (R336). -/
def State.makeRoom (s : State) (core line : Nat) : State :=
  let mine := (s.cache.l1.filter fun x => x.1 == core && Config.l1Set x.2.1 % Config.l1Sets == Config.l1Set line % Config.l1Sets).map (·.2.1)
  if s.cache.l1.length < Config.l1Ways then s
  else if mine.length < Config.l1Ways then s
  else
    let free := mine.filter fun x => !s.inReadSet x
    let among := s.cache.preferred (some core) (if free.isEmpty then mine else free)
    match among[s.pick (2 ^ 70 + core) % among.length]? with
    | none => s
    | some x =>
      let c := { s.cache with l1 := s.cache.l1.filter fun y => !(y.1 == core && y.2.1 == x)
                              hints := s.cache.hints.filter fun h => !(h.1 == some core && h.2.1 == x)
                              writeBacks := if s.cache.l1At core x = some .modified then s.cache.writeBacks ++ [⟨core, x, false⟩] else s.cache.writeBacks }
      { s with cache := c }.disturb [.pa x] none

/-- A load of a line by a core; `hint` is that of 03 R92: 3 allocates nothing in the L1 (R332). -/
def State.cacheLoadLine (s : State) (core hint line : Nat) : State :=
  let s := { s with cache := s.cache.bridge false line line 128 }.fillL2 hint line
  match s.cache.l1At core line with
  | some _ => s
  | none =>
    let s := { s with cache := (s.cache.share line).supersede line }
    if hint = 3 then s
    else
      let s := s.makeRoom core line
      let alone := !s.heldElsewhere core line &&
        (!isHost line || (s.cache.sector line != some .shared && s.cache.sector (line + 64) != some .shared))
      { s with cache := (s.cache.setL1 core line (if alone then .exclusive else .shared)).setHint (some core) line hint }
/-- A store or atomic to a line by a core (R332, R335): it performs in the core's L1 if the line is there, else at the home; every other copy goes. -/
def State.cacheStoreAt (s : State) (core hint a n : Nat) : State :=
  let line := lineOf a
  let s := { s with cache := s.cache.bridge true line a n }.fillL2 hint line
  let c := (s.cache.dropOthers core line).supersede line
  { s with cache := if (c.l1At core line).isSome then c.setL1 core line .modified else c }
/-- A write by an engine or another agent at the home slice: every L1 copy goes. -/
def State.homeStoreAt (s : State) (a n : Nat) : State :=
  let line := lineOf a
  let s := { s with cache := s.cache.bridge true line a n }.fillL2 0 line
  { s with cache := (s.cache.dropL1 line).supersede line }
/-- The ingress atomic cache gives a line up, writing it back (13 R427). -/
def State.recallLine (s : State) (line : Nat) : State := { s with ingress := s.ingress.filter fun i => i.line != line }
/-- A line is brought into the L2 with a hint (06 R205): a host line's missing sectors are obtained (R337). -/
def State.prefetchL2 (s : State) (hint line : Nat) : State := { s with cache := s.cache.bridge false line line 128 }.fillL2 hint line
/-- A read of a line at the home slice: a line that an L1 owns is served from it and left shared; a host line's missing sectors are obtained
(R335, R337); the ingress atomic cache gives the line up (13 R427). -/
def State.homeLoadAt (s : State) (hint line : Nat) : State :=
  let s := (s.recallLine line).prefetchL2 hint line
  { s with cache := (s.cache.share line).supersede line }

/-- The physical addresses of the lines of a run; none in the window, of a peer or in register space. -/
def physLines (l : Loc) (n : Nat) : List Nat :=
  match l with
  | .pa a => if isFabric a || (!isHost a && isReg (a % 2 ^ 44)) then [] else (linesOf l n).filterMap fun | .pa x => some x | _ => none
  | _ => []
/-- A write of a run at a site: a core's L1 or, with none, the home. -/
def State.cacheStore (s : State) (core : Option Nat) (hint : Nat) (l : Loc) (n : Nat) : State :=
  match l with
  | .pa a => if n = 0 then s else
      (physLines l n).foldl (fun s x =>
        let lo := max a x
        let k := min (a + n) (x + 128) - lo
        match core with | some c => s.cacheStoreAt c hint lo k | none => s.homeStoreAt lo k) s
  | _ => s
/-- A read of a run by an agent without an L1: an engine, a fetch, a walk, a peer. -/
def State.homeLoad (s : State) (hint : Nat) (l : Loc) (n : Nat) : State := (physLines l n).foldl (State.homeLoadAt · hint) s

/-! ### The uniform-constant cache (10 R333) -/

/-- The line of a core's uniform-constant cache that serves an address of a launch. -/
def State.uccAt (s : State) (core : Nat) (pasid : BitVec 20) (tenant : BitVec 16) (va : W64) : Option UccLine :=
  s.cache.ucc.find? fun x => x.core == core && x.pasid == pasid && x.tenant == tenant && x.vline == va.toNat / 128
/-- A load of a line through the uniform-constant cache: a miss is filled through the home and holds the translation; a full cache gives a line up
(which is open, log entry 6). -/
def State.uccLoadLine (s : State) (core : Nat) (tenant : BitVec 16) (hint : Nat) (va : W64) (line : Nat) (t : TlbEntry) : State :=
  if (s.uccAt core t.pasid tenant va).any fun x => x.line == line && x.entry == t then s
  else
    let s := s.homeLoadAt hint line
    let rest := s.cache.ucc.filter fun x => !(x.core == core && x.pasid == t.pasid && x.tenant == tenant && x.vline == va.toNat / 128)
    let mine := rest.filter fun x => x.core == core
    let rest := if mine.length < Config.uccLines then rest else match mine[s.pick (2 ^ 72 + core) % mine.length]? with
      | some x => rest.erase x
      | none => rest
    { s with cache := { s.cache with ucc := rest ++ [⟨core, va.toNat / 128, t.pasid, tenant, line, t⟩] } }
/-- The lines of the uniform-constant caches over a range of pages of a PASID go (10 R333). -/
def Caches.uccDrop (c : Caches) (named : BitVec 20 → Nat → Bool) : Caches := { c with ucc := c.ucc.filter fun x => !named x.pasid (x.vline / 32) }

/-! ### Lines held elsewhere -/

/-- The lines of a run leave the ingress atomic cache: a local access recalls them at the home slice (13 R427). -/
def State.recallLines (s : State) (l : Loc) (n : Nat) : State := (physLines l n).foldl State.recallLine s
/-- A line of HBM that the host caches, among those of a run (13 R413). -/
def State.hostLine (s : State) (l : Loc) (n : Nat) : Option Nat := (physLines l n).find? s.cache.hostHeld.contains
/-- A back-invalidation snoop for a line, once. -/
def State.backInvalidate (s : State) (line : Nat) : State :=
  if s.cache.backInv.contains line then s
  else { s with cache := { s.cache with backInv := s.cache.backInv ++ [line] }, out := s.out ++ [.backInvalidate line] }

/-! ### Poisoned lines, and writes at a site (09 R300, 10 R342) -/

/-- The errors of the lines that a write reaches: a line written in part stays poisoned, one written whole is well again (06 R198, 10 R342). -/
def State.mergeErrors (s : State) (l : Loc) (n : Nat) : State :=
  match l with
  | .pa a => if n = 0 then s else
      { s with badLines := s.badLines.filterMap fun b =>
          if a / 128 ≤ b.1 ∧ b.1 ≤ (a + n - 1) / 128 then
            (if a ≤ b.1 * 128 ∧ b.1 * 128 + 128 ≤ a + n then none else some (b.1, 3))
          else some b }
  | _ => s
/-- The first error in the lines of a run (10 R342), in the fill or frame of its scratchpad page or in its accumulator rows (R329, 12 R379): how far
into the run it begins, and the uncorrectable-memory reason. -/
def State.errorAt (s : State) (l : Loc) (n : Nat) : Option (Nat × Nat) :=
  match l with
  | .pa a => (minBy (·.1) (s.badLines.filter fun b => decide (a / 128 ≤ b.1 ∧ b.1 ≤ (a + n - 1) / 128) && decide (0 < n))).map fun b =>
      (b.1 * 128 - a, b.2.toNat)
  | .sp b o => (s.anyBlock? b).bind fun blk =>
      (minBy (·.no) (blk.pages.filter fun p => p.bad.isSome && decide (o / 4096 ≤ p.no ∧ p.no ≤ (o + n - 1) / 4096 ∧ 0 < n))).bind
        fun p => p.bad.map fun r => (p.no * 4096 - o, r.toNat)
  | .acc q o => (s.quads.acc.find? fun a => a.1 == q && a.2.1 == o / 65536).bind fun a =>
      (minBy id (a.2.2.bad.filter fun r => decide (o % 65536 / 512 ≤ r ∧ r ≤ (o % 65536 + n - 1) / 512 ∧ 0 < n))).map fun r => (r * 512 - o % 65536, 5)
/-- Base clk of 2 µs. -/
def twoMicroseconds : Nat := 3200
/-- Does a run lie in a line or row that is being tested: an access to it waits, 2 µs at most (12 R411)? A frame of a scratchpad stands for its bank words
(log entry 75). -/
def State.underTest (s : State) (l : Loc) (n : Nat) : Bool :=
  s.tests.any fun t => t.deadline.any (fun d => decide (s.clock < d)) && match t.unit, l with
    | .hbm, .pa a | .l2, .pa a | .l1, .pa a => overlap (.pa (lineOf t.place)) 128 (.pa a) n
    | .scratchpad, .sp b o => (s.anyBlock? b).any fun b => b.core == t.place / 65536 &&
        b.pages.any fun p => p.frame == some (t.place % 65536) && decide (o / 4096 ≤ p.no ∧ p.no ≤ (o + n - 1) / 4096)
    | .accumulator, .acc q o => q == t.place / 65536 && o / 65536 == t.place / 256 % 256 &&
        decide (o % 65536 / 512 ≤ t.place % 256 ∧ t.place % 256 ≤ (o % 65536 + n - 1) / 512)
    | _, _ => false
/-- The words of a run that a store is about to replace: a block may fetch them until a later moment that 03 R95 gives. -/
def State.keepOld (s : State) (l : Loc) (n : Nat) : State :=
  let at_ (o : Nat) : Loc := match l with | .pa _ => .pa o | .sp b _ => .sp b o | .acc q _ => .acc q o
  let o := match l with | .pa a => a | .sp _ a => a | .acc _ a => a
  { s with oldCode := s.oldCode ++ ((List.range ((o + n + 7) / 8 - o / 8)).map fun i => at_ (8 * (o / 8 + i))).map fun w => (w, BitVec.ofNat 64 (leNat (s.readLoc w 8))) }
/-- Bytes are written at the site that owns their lines: a core's L1 or, with none, the home slice. Other warps that read a line in an open load
roll back (09 R306, R335). -/
def State.writeSite (s : State) (core : Option Nat) (by_ : Option Nat) (l : Loc) (xs : List Byte) (hint : Nat := 0) : State :=
  let s := s.recallLines l xs.length
  ((((s.mergeErrors l xs.length).cacheStore core hint l xs.length).keepOld l xs.length).writeLoc l xs).disturb (linesOf l xs.length) by_
/-- A store that this move makes needs lines of HBM: those that the host caches it has to give up first, and the step then asks for them and makes the
move when they have come (13 R413; log entry 64). -/
def State.needLines (s : State) (l : Loc) (n : Nat) : State :=
  { s with hostWait := s.hostWait ++ (physLines l n).filter s.cache.hostHeld.contains }
/-- The package stores bytes in its memory on its own behalf. -/
def State.ownStore (s : State) (pa : Nat) (bs : List Byte) : State := (s.needLines (.pa pa) bs.length).writeSite none none (.pa pa) bs

/-! ### Key indices (10 R341; 14 R437) -/

/-- Key index of a page of HBM (10 R341); 0 unless changed. -/
def State.keyOf (s : State) (pa : Nat) : Nat := ((s.keys.find? fun k => k.1 == pa / 4096).map (·.2)).getD 0
/-- A page is rewritten as zeros under a key (10 R341): a write of every line of it. -/
def State.reKey (s : State) (pa key : Nat) : State :=
  let s := s.ownStore (pa / 4096 * 4096) (List.replicate 4096 0)
  { s with keys := (s.keys.filter fun k => k.1 != pa / 4096) ++ (if key = 0 then [] else [(pa / 4096, key)]) }
/-- The key of a key index (10 R341, 14 R437). -/
def State.memKey (s : State) (k : Nat) : List Byte := Config.memKey k (((s.tenants.find? fun t => t.key == k).map (·.wrapped)).getD [])
/-- The key index of a tenant, if one is mapped (14 R437). -/
def State.keyOfTenant (s : State) (t : BitVec 16) : Option Nat := (s.tenants.find? fun x => x.no == t).map (·.key)
/-- Do the pages of an area lie under the key of a tenant? Nothing but a Hearth command puts them there (R341), so the pool supplies to a block an area
that the driver has put under its key (10 R325, 11 R371; log entry 65). -/
def State.areaKeyed (s : State) (tenant : BitVec 16) (n a : Nat) : Bool :=
  ((List.range ((a % 4096 + n + 4095) / 4096)).map fun i => a + 4096 * i).all fun p => s.keyOf p == (s.keyOfTenant tenant).getD 0

/-! ### Device register space (10 R448; 14 R441) -/

/-- An 8-byte word of the telemetry block. -/
def State.telemetryWord (s : State) (off : Nat) : Nat :=
  let cap (x : Nat) : Nat := min x (2 ^ 64 - 1)
  match off with
  | 0x00 => cap s.thermal.powerMw
  | 0x08 => s.thermal.clockMhz
  | 0x10 => s.thermal.capW * 1000
  | 0x18 => s.thermal.thresholdC * 1000
  | 0x20 => cap s.telemetry.ignored
  | 0x28 => cap s.telemetry.refused
  | 0x30 => cap s.telemetry.migrations
  | _ =>
    if 0x1000 ≤ off ∧ off < 0x1000 + 32 * Config.cores then
      let c := s.core ((off - 0x1000) / 32)
      match (off - 0x1000) / 8 % 4 with
      | 0 => cap c.temp | 1 => cap c.rollbacksTotal | 2 => cap c.careful | _ => c.lostTotal
    else if 0x3000 ≤ off then
      match s.telemetry.hbm.find? fun h => h.1 == (off - 0x3000) / 16 with
      | some h => if (off - 0x3000) / 8 % 2 = 0 then cap h.2.1 else cap h.2.2
      | none => 0
    else 0
/-- A byte of device register space; what holds no register reads zero. -/
def State.regByte (s : State) (off : Nat) : Byte :=
  if Config.regBase ≤ off ∧ off < Config.regBase + 4 then BitVec.ofNat 8 (s.larder.version.toNat / 256 ^ (off - Config.regBase))
  else if Config.telemetryBase ≤ off ∧ off < Config.telemetryBase + 0x10000 then
    let o := off - Config.telemetryBase
    BitVec.ofNat 8 (s.telemetryWord (o / 8 * 8) / 256 ^ (o % 8))
  else 0

end Sys2Proof.Machine
end

