-- ==== Sys2Proof/Machine/Ops.lean ====
section
/-! DEFINITION. The trace ring (12 R408 to R410); taking a trap and returning from one (05 R182, R184; 12 R380 to R383); the fault queue (R392 to
R394). -/
namespace Sys2Proof.Machine

/-- What a meaning answers. -/
abbrev Answer := Host.Outcome State Fault Refusal

/-! ### The trace ring (12 R408 to R410) -/


/-- A trace record as a number (R409). -/
def TraceRec.num (r : TraceRec) : Nat := r.kind + r.info % 1024 * 16 + r.slot % 64 * 2 ^ 14 + r.a0.toNat * 2 ^ 20 + r.a1.toNat * 2 ^ 74
/-- Bits [56:3] of an address. -/
def addr54 (a : W64) : BitVec 54 := a.extractLsb' 3 54

/-- A record goes to the current page of its tenant, to the next free page, or to the page written least recently, which is re-keyed and
zeroed (R408). A core whose ring the driver has not allocated loses it and counts the loss (R410). -/
def State.traceOne (s : State) (core : Nat) (tenant : BitVec 16) (r : TraceRec) : State :=
  let c := s.core core
  let put (s : State) (p : TracePage) (fill : Nat) : State :=
    (s.ownStore (p.pa + 16 * fill) (leBytes 16 r.num)).modCore core fun c =>
      { c with pages := c.pages.map (fun q => if q.pa = p.pa then { q with tenant := some tenant, fill := fill + 1, stamp := s.clock } else q)
               sinceMark := c.sinceMark + 1 }
  match c.pages.find? fun p => p.tenant == some tenant && decide (p.fill < 256) with
  | some p => put s p p.fill
  | none =>
    match minBy (fun p : TracePage => if p.tenant.isNone then 0 else p.stamp + 1) c.pages with
    | some p => put (s.reKey p.pa ((s.keyOfTenant tenant).getD 0)) p 0
    | none => s.modCore core fun c => { c with tracesLost := min (c.tracesLost + 1) 1023, lostTotal := min (c.lostTotal + 1) (2 ^ 64 - 1) }

/-- A record, preceded by the time and loss record every 4,096 records and after any loss (R410, KIND 15). -/
def State.trace (s : State) (core : Nat) (tenant : BitVec 16) (r : TraceRec) : State :=
  let c := s.core core
  if c.pages ≠ [] ∧ (c.tracesLost > 0 ∨ c.sinceMark ≥ 4096) then
    let s := s.traceOne core tenant ⟨15, c.tracesLost, 0, 0, BitVec.ofNat 54 s.clock⟩
    (s.modCore core fun c => { c with tracesLost := 0, sinceMark := 0 }).traceOne core tenant r
  else s.traceOne core tenant r

/-- The trace record of an instruction of a warp: held while the warp is speculative (R410). -/
def State.traceWarp (s : State) (id : Nat) (flag : Option Nat) (kind info : Nat) (a1 : BitVec 54) (pc : Pc) : State :=
  match s.warp? id with
  | none => s
  | some w =>
    match (s.block? w.block).bind fun b => s.launch? b.launch with
    | none => s
    | some l =>
      if (match flag with | some k => l.hdr.trfl.getLsbD k | none => true) then
        let r : TraceRec := ⟨kind, info, w.slot, pc.setWidth 54, a1⟩
        if w.speculative then s.putWarp { w with heldTrace := w.heldTrace ++ [r] }
        else s.trace w.core l.hdr.tenant r
      else s

/-! ### Traps (01 R25 to R27, R40; 05 R182; 12 R377 to R384) -/

/-- A served fault: page-fault reason, access kinds (bit 0 read, 1 write, 2 execute, 3 atomic) and the address (12 R393). -/
structure ServedFault where
  reason : Nat
  acc : Nat
  va : W64
  deriving DecidableEq, Repr

/-- A trap as an instruction raises it. -/
structure Trap where
  cause : Nat
  reason : Nat
  lane : Nat
  info : W64
  aux : Option W64 := none
  fatal : Bool := false
  served : Option ServedFault := none
  fetch : Bool := false
  deriving DecidableEq, Repr

/-- Uncorrectable-memory in a lane's data (03 R89). -/
def dataTrap (x : Nat × W64 × Nat) : Trap := { cause := 0xF, reason := x.2.2, lane := x.1, info := x.2.1, fatal := true }
/-- Is service beyond the core required (12 R377, R378)? -/
def Trap.beyond (t : Trap) : Bool :=
  t.served.isSome || t.cause == 5 || t.cause == 0xF || t.cause == 0x10 || (t.cause == 4 && t.reason == 7)
/-- Does an asynchronous trap require it? -/
def asyncBeyond (cause reason : Nat) : Bool := ({ cause := cause, reason := reason, lane := 0, info := 0 } : Trap).beyond
/-- The TRAPCAUSE word (01 R25). -/
def trapCause (cause reason lane : Nat) (auxv fatal beyond : Bool) : W32 :=
  BitVec.ofNat 32 (cause % 256 + reason % 256 * 2 ^ 8 + lane % 64 * 2 ^ 16 + auxv.toNat * 2 ^ 22 + fatal.toNat * 2 ^ 23 + beyond.toNat * 2 ^ 24)
/-- TMASK.M (01 R26). -/
def TrapRegs.masked (t : TrapRegs) : Bool := t.mask.getLsbD 0
/-- TMASK.H (01 R26). -/
def TrapRegs.inHandler (t : TrapRegs) : Bool := t.mask.getLsbD 1

/-- Trap entry (01 R40, 05 R182): the trap registers are written, H and M set, the threads of the path begin at TBA, every other thread
is held at its own program counter. `pc` is the byte address TRAPPC takes; `ext` is the format decoded there, if it was decoded. -/
def Warp.enterHandler (w : Warp) (path : List Nat) (t : Trap) (beyond : Bool) (pc : W64) (ext : Option Bool) : Warp :=
  let tr : TrapRegs := { cause := trapCause t.cause t.reason t.lane t.aux.isSome false beyond, pc := pc, info := t.info,
                         aux := t.aux.getD 0, tba := w.regs.trap.tba, mask := 3 }
  let regs := { w.regs with trap := tr }
  let w := { w with regs := regs, decodedExt := ext }
  let others := w.live.filter fun l => !path.contains l
  (w.modLanes path fun l => { l.fresh with pc := Pc.ofAddr tr.tba, handler := true }).modLanes others
    fun l => { l with held := true, handler := false }

/-- A fatal trap is pending: the warp stops where it stands (12 R383). -/
def Warp.setFatal (w : Warp) (t : Trap) (beyond : Bool) (pc : W64) (clock : Nat) : Warp :=
  { w with fatal := some ⟨t.cause, t.reason, t.lane, beyond, pc, t.info, t.aux.getD 0, t.aux.isSome, clock, none⟩ }

/-- Permits in use on a core (12 R381). -/
def State.permitsUsed (s : State) (core : Nat) : Nat :=
  countIf (fun w => w.core == core && w.permit) s.warps
    + countIf (fun b => b.core == core && match b.stream with | some x => x.permit | none => false) s.blocks
/-- Is a permit free on a core? -/
def State.permitFree (s : State) (core : Nat) : Bool := decide (s.permitsUsed core < Config.permits)
/-- The next back-off at an instruction: 64 clk, then twice the last, up to 4,096 (12 R381). -/
def nextBackoff (clock : Nat) (pc : Pc) : Option Backoff → Backoff
  | none => ⟨64, clock + 64, pc⟩
  | some b => let d := if b.pc = pc then min 4096 (2 * b.wait) else 64; ⟨d, clock + d, pc⟩
/-- A warp backs off at an instruction. -/
def Warp.backOff (w : Warp) (clock : Nat) (pc : Pc) : Warp :=
  { w with backoff := (w.backoff.filter fun b => b.pc != pc) ++ [nextBackoff clock pc (w.backoff.find? fun b => b.pc == pc)] }
/-- The back-off of an instruction is over. -/
def Warp.dropBackoff (w : Warp) (pc : Pc) : Warp := { w with backoff := w.backoff.filter fun b => b.pc != pc }

/-! ### The fault queue (12 R392 to R394) -/

/-- The context entry of a PASID (12 R385); MODE 0 where none is bound. -/
def State.pasidEntry (s : State) (p : BitVec 20) : BitVec 128 := ((s.pasids.find? fun x => x.1 == p).map (·.2)).getD 0
/-- MODE of a context entry. -/
def ctxMode (e : BitVec 128) : Nat := bits e.toNat 1 0
/-- ROOT of a context entry. -/
def ctxRoot (e : BitVec 128) : Nat := bits e.toNat 107 64
/-- FQ of a context entry. -/
def ctxFq (e : BitVec 128) : Nat := bits e.toNat 109 108

/-- SRC of a fault-queue entry (12 R393). -/
def FaultAgent.src : FaultAgent → Nat
  | .warp _ => 0 | .stream _ => 1 | .engine _ => 2 | .anvil _ => 3 | .tongs _ => 4 | .ray _ _ => 5 | .crucible _ => 6 | .sched _ => 7 | .hearth => 7

/-- The first 8 bytes of a fresh entry: STAT PENDING and the kinds seen (12 R393). -/
def faultLow (acc : Nat) : Nat := 1 + acc % 16 * 256
/-- A fault-queue entry as a number (12 R393). -/
def faultEntry (f : FaultWait) (lq : Nat) (lseq : W32) : Nat :=
  faultLow f.acc + f.reason * 2 ^ 96 + f.pasid.toNat * 2 ^ 108 + f.agent.src * 2 ^ 139 + f.slot % 64 * 2 ^ 142 + f.core % 256 * 2 ^ 148
    + lq % 16 * 2 ^ 156 + lseq.toNat * 2 ^ 160 + f.va.toNat * 2 ^ 192

/-- Address of entry t (12 R392). -/
def FaultQ.entryAt (q : FaultQ) (t : Nat) : Nat := q.cfg.base + 32 * (t % q.cfg.count)
/-- Entries of a queue between head and tail. -/
def FaultQ.used (q : FaultQ) : Nat := (q.tail - q.head).toNat
/-- The place of a pending entry of the same PASID and page (12 R394 step 1). -/
def State.pendingEntry (s : State) (q : FaultQ) (pasid : BitVec 20) (va : W64) : Option Nat :=
  ((List.range q.used).map fun i => (q.head + BitVec.ofNat 32 i).toNat).find? fun t =>
    let e := s.numPa (q.entryAt t) 32
    bits e 7 0 == 1 && bits e 127 108 == pasid.toNat && bits e 255 204 == va.toNat / 4096

/-- A fault joins its queue: it merges into a pending entry, is written as a new one, or waits for room (12 R394). -/
def State.placeFault (s : State) (f : FaultWait) : State × FaultPlace :=
  let fq := ctxFq (s.pasidEntry f.pasid)
  match s.faultQs.find? fun q => q.no == fq with
  | none => (s, .room fq)
  | some q =>
    let s := ((List.range q.used).map fun i => (q.head + BitVec.ofNat 32 i).toNat).foldl (fun s t => s.homeLoad 0 (.pa (q.entryAt t)) 32) s
    match s.pendingEntry q f.pasid f.va with
    | some t =>
      let e := s.numPa (q.entryAt t) 8
      let dup := min 0xFFFF (bits e 63 48 + 1)
      let acc := (BitVec.ofNat 4 (bits e 11 8) ||| BitVec.ofNat 4 f.acc).toNat
      (s.ownStore (q.entryAt t) (leBytes 8 (bits e 7 0 + acc * 256 + bits e 47 12 * 2 ^ 12 + dup * 2 ^ 48)), .entry fq t)
    | none =>
      if q.used < q.cfg.count ∧ !(s.faultWaits.any fun x => match x.place with
          | .entry k t => k == fq && t % q.cfg.count == q.tail.toNat % q.cfg.count | _ => false) then
        let (lq, lseq) := match s.launch? f.launch with | some l => (l.queue, l.seq) | none => (0, 0)
        let t := q.tail.toNat
        let s := s.ownStore (q.entryAt t) (leBytes 32 (faultEntry f lq lseq))
        let s := { s with faultQs := s.faultQs.map fun p : FaultQ => if p.no = fq then { p with tail := p.tail + 1 } else p }
        (s.ownStore q.cfg.tailPa (leBytes 4 (q.tail + 1).toNat), .entry fq t)
      else (s, .room fq)

/-- Has a PASID a service for its faults: none where no context of a valid MODE is bound (12 R385)? -/
def State.serviced (s : State) (pasid : BitVec 20) : Bool := ctxMode (s.pasidEntry pasid) != 0
/-- Does a fault lie in a page of a PASID? -/
def FaultWait.inPage (f : FaultWait) (pasid : BitVec 20) (va : W64) : Bool := f.pasid == pasid && f.va.toNat / 4096 == va.toNat / 4096
/-- The page requests that the host has not answered. -/
def State.priOpen (s : State) : Nat :=
  (dedup ((s.faultWaits.filter fun x => x.place == .pri).map fun x => (x.pasid, x.va.toNat / 4096))).length
/-- A fault joins the page request of its page, makes one, or waits where the host's allocation is used up (12 R391; log entry 32). -/
def State.askPage (s : State) (f : FaultWait) : State × FaultPlace :=
  if s.faultWaits.any fun x => x.place == .pri && x.inPage f.pasid f.va then (s, .pri)
  else if s.priOpen < 1 + Config.hostRequests then ({ s with out := s.out ++ [.pageRequest f.pasid f.va f.id] }, .pri)
  else (s, .held)
/-- A fault is passed to the service of its PASID: the fault queue in MODE 1, a PRI page request in MODE 2 and 3 (12 R391, R394); where there is none it
has failed at once. -/
def State.serve (s : State) (agent : FaultAgent) (pasid : BitVec 20) (q : ServedFault) (launch core slot : Nat) (lane : Nat := 0) : State × Nat :=
  let id := s.ctr.wait
  let f : FaultWait := ⟨id, agent, .failed, pasid, q.va, q.reason, q.acc, launch, core, slot, lane⟩
  let s := { s with ctr := { s.ctr with wait := id + 1 } }
  let (s, place) : State × FaultPlace := match ctxMode (s.pasidEntry pasid) with
    | 0 => (s, .failed)
    | 1 => s.placeFault f
    | _ => s.askPage f
  ({ s with faultWaits := s.faultWaits ++ [{ f with place := place }] }, id)

/-- A lane whose instruction runs again from decode: an answer of a peer that was an error is asked for anew; what has performed is not repeated. -/
def Lane.again (t : Lane) : Lane :=
  if t.plan.any fun p => p.bad.isSome then { t with got := Option.none, plan := t.plan.map fun p => { p with bad := Option.none } } else t
/-- A warp that asks for a permit: it holds one already, takes a free one, or backs off at its instruction and runs it again later (12 R381). -/
def State.withPermit (s : State) (w : Warp) (path : List Nat) (pc : Pc) (k : Warp → State) : State :=
  if w.permit || s.permitFree w.core then k ({ w with permit := true }.dropBackoff pc)
  else s.putWarp ((w.backOff s.clock pc).modLanes path fun l => { l.again with wait := .service none })
/-- Raising a trap in a path of a warp, on the Tongs' behalf for a miss of its own (07 R265) (01 R33, R40; 12 R380 to R382): only once the warp is
non-speculative, its long instructions have completed and what its other paths have begun in part has performed (else it stalls); fatal with no handler or
masked; a fatal trap and a served fault need a permit; a fault that no service takes is the failure of R382. `ext` is the format decoded at the trap;
`again`: the instruction can be run again. -/
def State.raiseOn (s : State) (w : Warp) (l : Launch) (path : List Nat) (ext : Option Bool) (t : Trap) (again : Bool := true) : State :=
  if !w.settled || !w.longsDone || w.owing path then s.waitLanes w path .stall
  else
    let w := w.settleLongs
    let pc := (w.lane (path.headD 0)).pc
    let record (s : State) (beyond : Bool) : State := s.traceWarp w.id none 8 (t.cause + beyond.toNat * 256) (addr54 t.info) pc
    let stop (t : Trap) (beyond : Bool) : State :=
      if again then s.withPermit w path pc fun w => s.putWarp (w.setFatal t beyond pc.addr s.clock)
      else s.putWarp (w.setFatal t beyond pc.addr s.clock)
    let fatal := t.fatal || w.regs.trap.masked
    match t.served with
    | none =>
      if fatal || w.regs.trap.tba == (0 : W64) then stop t t.beyond
      else record (s.putWarp ((w.dropBackoff pc).enterHandler path t false pc.addr ext)) false
    | some q =>
      if fatal then stop t true
      else if !s.serviced l.hdr.pasid then stop { cause := 4, reason := 7, lane := t.lane, info := q.va } true
      else s.withPermit w path pc fun w =>
        let (s, id) := s.serve (if t.reason = 6 then .tongs w.id else .warp w.id) l.hdr.pasid q l.id w.core w.slot t.lane
        if w.regs.trap.tba == (0 : W64) then s.putWarp (w.modLanes path fun l => { l with wait := .service (some id) })
        else record (s.putWarp ({ w with service := some id }.enterHandler path t true pc.addr ext)) true
/-- Raising a trap at the issuing instruction. -/
def State.raise (s : State) (e : Env) (t : Trap) : State :=
  s.raiseOn e.w e.l (s.act e.w) (if t.fetch then none else some (s.cur.words == 2)) t

/-- Does a thread of the warp wait at its instruction for a served fault (12 R382)? -/
def Warp.waitsServed (w : Warp) : Bool := w.live.any fun l => match (w.lane l).wait with | .service (some _) => true | _ => false
/-- Return from a handler (05 R184; 12 R382: a permit goes back): TMASK := 0, each handler thread resumes at TRAPPC or after the instruction there, the held threads
become ready, one that stood at an `rti` of an outer handler with them. `len` is the length of the instruction at TRAPPC. -/
def Warp.leaveHandler (w : Warp) (len : Nat) : Warp :=
  let at_ := Pc.ofAddr w.regs.trap.pc
  let w := { w with regs := { w.regs with trap := { w.regs.trap with mask := 0 } }, decodedExt := none, permit := w.waitsServed }
  (w.modLanes (w.live.filter fun l => (w.lane l).handler) fun t =>
    { t with handler := false, wait := .none, pc := if t.wait = .rti true then at_ + BitVec.ofNat 61 len else at_ }).modLanes
    w.live fun t => { t with held := false, wait := match t.wait with | .rti _ => .none | y => y }

end Sys2Proof.Machine
end

