-- ==== Sys2Proof/Machine/Operands.lean ====
section
/-! DEFINITION. Operand forms: how the kinds of A, B and C read a value (03 R81 to R83), what an instruction writes (R87), and the drivers that
run an instruction lane by lane (04 R107) or once for the warp (R111). -/
namespace Sys2Proof.Machine

/-! ### Immediates (03 R82) -/

/-- The value v of imm9: field B in two's complement. -/
def Fields.imm9 (f : Fields) : Int := (BitVec.ofNat 9 f.b).toInt
/-- An immediate B as a raw or integer value of a width. -/
def Fields.immRaw (f : Fields) (n : Nat) : BitVec n := if f.ext then f.imm.signExtend n else BitVec.ofInt n f.imm9
/-- The bits of an integer from −256 to 255 in a floating-point format, where it is exact. -/
def exactBits (t : FFmt) (v : Int) : Nat := roundTo t (XReal.ofInt v) .rn
/-- An immediate B of a floating-point type, as bits. -/
def Fields.immFlt (f : Fields) (t : FFmt) : W32 :=
  if f.ext then BitVec.ofNat 32 (f.imm.toNat % 2 ^ t.width) else BitVec.ofNat 32 (exactBits t f.imm9)
/-- An immediate B of a packed pair. -/
def Fields.immPacked (f : Fields) (t : FFmt) : W32 :=
  if f.ext then f.imm else let h := exactBits t f.imm9; BitVec.ofNat 32 (h + h * 2 ^ 16)

/-! ### Sources of a warp instruction (03 R81) -/

/-- A at 32 bits: V, or the low half of U. -/
def Warp.opA (w : Warp) (f : Fields) (l : Nat) : W32 := if f.ak = 1 then lo32 (w.s f.a) else w.v l f.a
/-- A at 64 bits: V2 or U. -/
def Warp.opA64 (w : Warp) (f : Fields) (l : Nat) : W64 := if f.ak = 1 then w.s f.a else w.v2 l f.a
/-- C at 32 bits. -/
def Warp.opC (w : Warp) (f : Fields) (l : Nat) : W32 := if f.ck = 1 then lo32 (w.s f.c) else w.v l f.c
/-- C at 64 bits. -/
def Warp.opC64 (w : Warp) (f : Fields) (l : Nat) : W64 := if f.ck = 1 then w.s f.c else w.v2 l f.c
/-- B at 32 bits with the immediate's value given. -/
def Warp.opBi (w : Warp) (f : Fields) (l : Nat) (imm : W32) : W32 :=
  match f.bk with | 0 => w.v l f.b | 1 => imm | 2 => lo32 (w.s f.b) | _ => 0
/-- B, raw or integer. -/
def Warp.opB (w : Warp) (f : Fields) (l : Nat) : W32 := w.opBi f l (f.immRaw 32)
/-- B of a floating-point type. -/
def Warp.opBf (w : Warp) (f : Fields) (t : FFmt) (l : Nat) : W32 := w.opBi f l (f.immFlt t)
/-- B of a packed pair. -/
def Warp.opBp (w : Warp) (f : Fields) (t : FFmt) (l : Nat) : W32 := w.opBi f l (f.immPacked t)
/-- B at 64 bits. -/
def Warp.opB64 (w : Warp) (f : Fields) (l : Nat) : W64 :=
  match f.bk with | 0 => w.v2 l f.b | 1 => f.immRaw 64 | 2 => w.s f.b | _ => 0
/-- A uniform B: imm9 or IMM32 sign-extended, U, or zero (04 R139), under a reading of the uniform registers. -/
def Fields.uniB (f : Fields) (reg : Nat → W64) : W64 :=
  match f.bk with | 1 => f.immRaw 64 | 2 => reg f.b | _ => 0

/-! ### What an instruction writes (03 R87, R88) -/

/-- The registers a field of a class names as destination. -/
def clsDests (c : Cls) (k : Nat) : List Dest :=
  match c with
  | .v n _ => (List.range n).map fun i => .v (k + i)
  | .ud => [.u k]
  | .p | .pw => if k < 15 then [.p k] else []
  | .bn => [.bn k]
  | _ => []
/-- The destinations an opcode's fields name, whatever the guards hold. -/
def opDests (op : Nat) (f : Fields) : List Dest :=
  let o := opSpec op f ⟨false, 512, 64, 0⟩
  let outs := (List.range o.xv).map fun i => Dest.v (f.d + i)
  (if o.dSrc then [] else clsDests o.d f.d) ++ (match o.e with | .p => clsDests .p f.e | _ => []) ++ o.xp.map Dest.p ++ outs
/-- The destinations of a compact slot. -/
def slotDests (x : Slot) : List Dest := clsDests (.v (if slotWide x.op.toNat then 2 else 1) 1) x.d.toNat
/-- The destinations of an encoded instruction. -/
def encDests : Enc → List Dest
  | .pair p => slotDests p.s0 ++ slotDests p.s1
  | .std op w => opDests op (.ofStd w)
  | .ext op w => opDests op (.ofExt w)
/-- The destinations of an instruction; none for a move of another agent. -/
def instrDests (i : Instr) : List Dest := match i.enc with | some e => encDests e | none => []

/-! ### What an instruction reads (03 R80, R81; 04 R110) -/

/-- The registers a field of a class reads. -/
def clsReads (c : Cls) (k : Nat) : List Dest :=
  match c with
  | .v n _ => (List.range n).map fun i => .v (k + i)
  | .u | .ud => [.u k]
  | .bn => [.bn k]
  | _ => []
/-- The registers a source operand reads under its kind. -/
def srcReads (x : Src) (kind k : Nat) : List Dest :=
  match x.fixed with
  | some c => clsReads c k
  | none => match kind, x.v with
    | 0, some (n, _) => (List.range n).map fun i => .v (k + i)
    | 2, _ => [.u k]
    | _, _ => []
/-- The vector, uniform and bn registers an opcode's fields read, whatever the guards hold. -/
def opReads (op : Nat) (f : Fields) : List Dest :=
  let o := opSpec op f ⟨false, 512, 64, 0⟩
  (if o.dSrc then clsReads o.d f.d else []) ++ srcReads o.a (2 * f.ak) f.a ++ srcReads o.b f.bk f.b ++
    (if f.ext then srcReads o.c (2 * f.ck) f.c ++ (match o.e with | .u => [.u f.e] | _ => []) else [])
/-- The registers a compact slot reads. -/
def slotReads (x : Slot) : List Dest :=
  let n := if slotWide x.op.toNat then 2 else 1
  clsReads (.v n 1) x.d.toNat ++ (match x.sk.toNat with | 0 => clsReads (.v n 1) x.s.toNat | 2 => [.u x.s.toNat] | _ => [])
/-- The registers an encoded instruction reads. -/
def instrReads (i : Instr) : List Dest :=
  match i.enc with
  | some (.pair p) => slotReads p.s0 ++ slotReads p.s1
  | some (.std op w) => opReads op (.ofStd w)
  | some (.ext op w) => opReads op (.ofExt w)
  | none => []
/-- The uniform and bn registers among some. -/
def warpRegs (ds : List Dest) : List Dest := ds.filter fun | .u _ => true | .bn _ => true | _ => false
/-- The opcode of an instruction word; 0 for a compact pair. -/
def instrOp (i : Instr) : Nat := match i.enc with | some (.std op _) => op | some (.ext op _) => op | _ => 0
/-- The instructions that share no issue turn with another: `bar`, `reorder`, `trig`, `lwait`, `exit`, `yield`, the system group, `sprwr` (05 R156). -/
def issuesAlone (i : Instr) : Bool :=
  let op := instrOp i
  List.contains [0x0C5, 0x0C6, 0x0C8, 0x0CB, 0x0CC, 0x0CD, 0x090] op || decide (0x180 ≤ op ∧ op ≤ 0x19F)
/-- The special registers that an instruction writes: FMTWORD by `nnev` (07 R263); `sprwr` issues alone. -/
def sprWrites (i : Instr) : List Nat := match i with | .nnev _ => [0x021] | _ => []
/-- The special register that an instruction reads. -/
def sprReads (i : Instr) : List Nat := match i with | .sprrd w => [(Fields.ofStd w).a] | _ => []
/-- May two instructions not issue in one turn (04 R110, 05 R156)? -/
def turnConflict (i j : Instr) : Bool :=
  issuesAlone i || issuesAlone j ||
  (sprWrites i).any (sprWrites j).contains || (sprWrites i).any (sprReads j).contains || (sprWrites j).any (sprReads i).contains ||
  let wi := warpRegs (instrDests i); let wj := warpRegs (instrDests j)
  wi.any wj.contains || wi.any (instrReads j).contains || wj.any (instrReads i).contains

/-! ### Drivers -/

/-- A fixed-latency instruction: what each lane with Exec writes, from the state before it (04 R107). -/
def State.perLane (s : State) (f : Fields) (r : Warp → Nat → List RegWrite) : State :=
  s.onWarp fun e => s.finish e ((s.exec e.w f.ga f.gb).flatMap (r e.w))
/-- The same for a long-latency instruction with no work elsewhere (03 R86). -/
def State.perLaneLong (s : State) (op : Nat) (f : Fields) (r : Warp → Nat → List RegWrite) : State :=
  s.onWarp fun e => s.finishLong e f.la (opDests op f) ((s.exec e.w f.ga f.gb).flatMap (r e.w))
/-- One 32-bit result in D for each lane with Exec. -/
def State.vOp (s : State) (f : Fields) (r : Warp → Nat → W32) : State := s.perLane f fun w l => [.v l f.d (r w l)]
/-- One 64-bit result in D:D+1 for each lane with Exec. -/
def State.vOp64 (s : State) (f : Fields) (r : Warp → Nat → W64) : State := s.perLane f fun w l => writePair l f.d (r w l)
/-- One predicate in D for each lane with Exec. -/
def State.pOp (s : State) (f : Fields) (r : Warp → Nat → Bool) : State := s.perLane f fun w l => [.p l f.d (r w l)]
/-- One 32-bit result in D of a long-latency instruction. -/
def State.vOpLong (s : State) (op : Nat) (f : Fields) (r : Warp → Nat → W32) : State :=
  s.perLaneLong op f fun w l => [.v l f.d (r w l)]

/-! ### The matrix stream that issues (07 R233) -/

/-- The block, stream and launch of a stream that issues. -/
structure SEnv where
  b : Block
  x : Stream
  l : Launch

/-- The matrix stream that issues now. -/
def State.senv (s : State) : Option SEnv :=
  match s.block? s.cur.owner with
  | none => none
  | some b => match b.stream with
    | none => none
    | some x => (s.launch? b.launch).map fun l => ⟨b, x, l⟩
/-- Acts on the issuing stream. -/
def State.onStream (s : State) (k : SEnv → State) : State :=
  match s.senv with
  | some e => k e
  | none => s
/-- Replaces a block's matrix stream. -/
def State.putStream (s : State) (b : Nat) (x : Stream) : State := s.modBlock b fun b => { b with stream := some x }
/-- x register k. -/
def Stream.reg (x : Stream) (k : Nat) : W64 := x.x.getD k 0
/-- A write of an x register. -/
def Stream.setReg (x : Stream) (k : Nat) (v : W64) : Stream := { x with x := x.x.set k v }
/-- The stream moves past the issuing instruction. -/
def Stream.advance (x : Stream) (i : Issue) : Stream := { x with pc := x.pc + BitVec.ofNat 61 i.length, backoff := none }

/-- A trap of a matrix stream (07 R237): a served fault waits for its service without a permit, every other is fatal and needs one for its dump
(12 R381). -/
def State.raiseStream (s : State) (e : SEnv) (t : Trap) : State :=
  match t.served with
  | some q =>
    let (s, id) := s.serve (.stream e.b.id) e.l.hdr.pasid q e.l.id e.b.core 0
    s.putStream e.b.id { e.x with wait := .service (some id) }
  | none =>
    if s.permitFree e.b.core then s.putStream e.b.id { e.x with
      permit := true, backoff := none
      fatal := some ⟨t.cause, t.reason, 0, t.beyond, e.x.pc.addr, t.info, t.aux.getD 0, t.aux.isSome, s.clock, none⟩ }
    else s.putStream e.b.id { e.x with wait := .service none, backoff := some (nextBackoff s.clock e.x.pc e.x.backoff) }
/-- A write of a uniform register from uniform sources: once, if some lane has Exec (04 R111); in a matrix stream always. -/
def State.uniform (s : State) (f : Fields) (r : (Nat → W64) → W64) : State :=
  if s.cur.stream then s.onStream fun e => s.putStream e.b.id ((e.x.setReg f.d (r e.x.reg)).advance s.cur)
  else s.onWarp fun e => s.finish e (if (s.exec e.w f.ga f.gb).isEmpty then [] else [.u f.d (r e.w.s)])

end Sys2Proof.Machine
end

