-- ==== Sys2Proof/Machine/Float.lean ====
section
/-! DEFINITION. The floating-point instructions (04 R122 to R129). -/
namespace Sys2Proof.Machine

/-! ### Results -/

/-- The format that FT names in MOD[4:3] (04 R122). -/
def ftOf (mod : Nat) : FFmt := match mod / 8 % 4 with | 0 => .f32 | 1 => .f16 | _ => .bf16
/-- The rounding mode of MOD[2:0] (04 R122). -/
def rndOf (mod : Nat) : RMode := (RMode.ofCode (mod % 8)).getD .rn
/-- The value of an operand in a format: its low bits. -/
def fval (t : FFmt) (x : W32) : XReal := widen t (x.toNat % 2 ^ t.width)
/-- A result placed in a register (04 R108). -/
def fres (t : FFmt) (m : RMode) (sat : Bool) (x : XReal) : W32 := BitVec.ofNat 32 (roundTo t x m sat)
/-- The difference. -/
def XReal.sub (m : RMode) (x y : XReal) : XReal := x.add m y.negate
/-- 1 ÷ x. -/
def fnRecip (x : XReal) : XReal := XReal.div (.fin false 1 1) x
/-- The lesser or greater of two values: −0 below +0; a NaN gives the other (04 R125). -/
def fminmax (t : FFmt) (max : Bool) (a b : W32) : W32 :=
  let x := fval t a
  let y := fval t b
  let keep (z : W32) : W32 := BitVec.ofNat 32 (z.toNat % 2 ^ t.width)
  if x.isNan && y.isNan then BitVec.ofNat 32 t.nanBits
  else if x.isNan then keep b
  else if y.isNan then keep a
  else
    let xLess := x.lt y || (x.eqv y && x.neg? && !y.neg?)
    if xLess != max then keep a else if x.lt y || y.lt x || x.neg? != y.neg? then keep b else keep a
/-- Rounding to an integral value in the format (04 R125). -/
def fintegral (t : FFmt) (m : RMode) (x : XReal) : W32 :=
  match x with
  | .fin neg num _ =>
    if num = 0 then fres t .rn false x
    else match roundInt x m with
      | some i => fres t .rn false (.fin neg i.natAbs 1)
      | none => fres t .rn false x
  | _ => fres t .rn false x
/-- The lower half of a packed operand. -/
def loHalf (x : W32) : W32 := x &&& 0xFFFF
/-- The upper half of a packed operand. -/
def hiHalf (x : W32) : W32 := x >>> 16
/-- Two halves together. -/
def packHalves (l h : W32) : W32 := (h <<< 16) ||| (l &&& 0xFFFF)
/-- RoundTo(.f32, x_lo × y_lo + x_hi × y_hi + z) with one exact sum (04 R129). -/
def dotHalves (t : FFmt) (m : RMode) (sat : Bool) (a b c : W32) : W32 :=
  fres .f32 m sat (XReal.sum m [(fval t (loHalf a)).mul (fval t (loHalf b)), (fval t (hiHalf a)).mul (fval t (hiHalf b)), fval .f32 c])

/-! ### Drivers of the family -/

/-- D := RoundTo(t, r(mode, x, y), rm). -/
def State.flt2 (s : State) (f : Fields) (r : RMode → XReal → XReal → XReal) : State :=
  let t := ftOf f.mod
  let m := rndOf f.mod
  s.vOp f fun w l => fres t m (f.mhi.testBit 0) (r m (fval t (w.opA f l)) (fval t (w.opBf f t l)))
/-- D := RoundTo(t, r(x), rm) of a long-latency instruction. -/
def State.flt1Long (s : State) (op : Nat) (f : Fields) (r : XReal → XReal) : State :=
  let t := ftOf f.mod
  s.vOpLong op f fun w l => fres t (rndOf f.mod) false (r (fval t (w.opA f l)))
/-- Each half of D := RoundTo(t, r(x, y), rm) (04 R128). -/
def State.halves2 (s : State) (f : Fields) (r : RMode → XReal → XReal → XReal) : State :=
  let t := ftOf f.mod
  let m := rndOf f.mod
  let half (a b : W32) : W32 := fres t m (f.mhi.testBit 0) (r m (fval t a) (fval t b))
  s.vOp f fun w l =>
    let a := w.opA f l
    let b := w.opBp f t l
    packHalves (half (loHalf a) (loHalf b)) (half (hiHalf a) (hiHalf b))
/-- Each half of D := RoundTo(t, x × y + z, rm) (04 R128). -/
def State.halves3 (s : State) (f : Fields) : State :=
  let t := ftOf f.mod
  let m := rndOf f.mod
  let half (a b c : W32) : W32 := fres t m (f.mhi.testBit 0) (((fval t a).mul (fval t b)).add m (fval t c))
  s.vOp f fun w l =>
    let a := w.opA f l
    let b := w.opBp f t l
    let c := w.opC f l
    packHalves (half (loHalf a) (loHalf b) (loHalf c)) (half (hiHalf a) (hiHalf b) (hiHalf c))
/-- P(D) := x cond y (04 R126). -/
def State.fcmp2 (s : State) (f : Fields) : State :=
  let t := ftOf f.mod
  s.pOp f fun w l => floatCompare (f.mod % 8) (fval t (w.opA f l)) (fval t (w.opBf f t l))

/-! ### Meanings -/

/-- 04 R123. -/
def execFadd (w : Std) (s : State) : Answer := .next (s.flt2 (.ofStd w) XReal.add)
/-- 04 R123. -/
def execFaddExt (w : Ext) (s : State) : Answer := .next (s.flt2 (.ofExt w) XReal.add)
/-- 04 R123. -/
def execFsub (w : Std) (s : State) : Answer := .next (s.flt2 (.ofStd w) XReal.sub)
/-- 04 R123. -/
def execFsubExt (w : Ext) (s : State) : Answer := .next (s.flt2 (.ofExt w) XReal.sub)
/-- 04 R123. -/
def execFmul (w : Std) (s : State) : Answer := .next (s.flt2 (.ofStd w) fun _ => XReal.mul)
/-- 04 R123. -/
def execFmulExt (w : Ext) (s : State) : Answer := .next (s.flt2 (.ofExt w) fun _ => XReal.mul)
/-- 04 R123: the product is exact and only the sum is rounded. -/
def execFfma (w : Ext) (s : State) : Answer :=
  let f := Fields.ofExt w
  let t := ftOf f.mod
  let m := rndOf f.mod
  .next (s.vOp f fun w l =>
    fres t m (f.mhi.testBit 0) (((fval t (w.opA f l)).mul (fval t (w.opBf f t l))).add m (fval t (w.opC f l))))
/-- 04 R125. -/
def execFmin (w : Std) (s : State) : Answer :=
  let f := Fields.ofStd w
  let t := ftOf f.mod
  .next (s.vOp f fun w l => fminmax t false (w.opA f l) (w.opBf f t l))
/-- 04 R125. -/
def execFmax (w : Std) (s : State) : Answer :=
  let f := Fields.ofStd w
  let t := ftOf f.mod
  .next (s.vOp f fun w l => fminmax t true (w.opA f l) (w.opBf f t l))
/-- 04 R126. -/
def execFcmp (w : Std) (s : State) : Answer := .next (s.fcmp2 (.ofStd w))
/-- 04 R126. -/
def execFcmpExt (w : Ext) (s : State) : Answer := .next (s.fcmp2 (.ofExt w))
/-- 04 R127. -/
def execFclass (w : Std) (s : State) : Answer :=
  let f := Fields.ofStd w
  .next (s.vOp f fun w l => BitVec.ofNat 32 (floatClass (ftOf f.mod) (w.opA f l).toNat))
/-- 04 R125. -/
def execFrnd (w : Std) (s : State) : Answer :=
  let f := Fields.ofStd w
  .next (s.vOp f fun w l => fintegral (ftOf f.mod) (rndOf f.mod) (fval (ftOf f.mod) (w.opA f l)))
/-- 04 R124. -/
def execFrcp (w : Std) (s : State) : Answer := .next (s.flt1Long 0x049 (.ofStd w) fnRcp)
/-- 04 R124. -/
def execFrsq (w : Std) (s : State) : Answer := .next (s.flt1Long 0x04A (.ofStd w) fnRsq)
/-- 04 R123. -/
def execFsqrt (w : Std) (s : State) : Answer := .next (s.flt1Long 0x04B (.ofStd w) XReal.sqrt)
/-- 04 R123. -/
def execFdiv (w : Std) (s : State) : Answer :=
  let f := Fields.ofStd w
  let t := ftOf f.mod
  .next (s.vOpLong 0x04C f fun w l => fres t (rndOf f.mod) false ((fval t (w.opA f l)).div (fval t (w.opBf f t l))))
/-- 04 R124. -/
def execFexp2 (w : Std) (s : State) : Answer := .next (s.flt1Long 0x04D (.ofStd w) fnExp2)
/-- 04 R124. -/
def execFlog2 (w : Std) (s : State) : Answer := .next (s.flt1Long 0x04E (.ofStd w) fnLog2)
/-- 04 R124. -/
def execFsin (w : Std) (s : State) : Answer := .next (s.flt1Long 0x04F (.ofStd w) fnSin)
/-- 04 R124. -/
def execFcos (w : Std) (s : State) : Answer := .next (s.flt1Long 0x050 (.ofStd w) fnCos)
/-- 04 R124. -/
def execFtanh (w : Std) (s : State) : Answer := .next (s.flt1Long 0x051 (.ofStd w) fnTanh)
/-- 04 R124. -/
def execFsig (w : Std) (s : State) : Answer := .next (s.flt1Long 0x052 (.ofStd w) fnSig)
/-- 04 R128. -/
def execHadd2 (w : Std) (s : State) : Answer := .next (s.halves2 (.ofStd w) XReal.add)
/-- 04 R128. -/
def execHadd2Ext (w : Ext) (s : State) : Answer := .next (s.halves2 (.ofExt w) XReal.add)
/-- 04 R128. -/
def execHmul2 (w : Std) (s : State) : Answer := .next (s.halves2 (.ofStd w) fun _ => XReal.mul)
/-- 04 R128. -/
def execHmul2Ext (w : Ext) (s : State) : Answer := .next (s.halves2 (.ofExt w) fun _ => XReal.mul)
/-- 04 R128. -/
def execHfma2 (w : Ext) (s : State) : Answer := .next (s.halves3 (.ofExt w))
/-- 04 R128. -/
def execBfma2 (w : Ext) (s : State) : Answer := .next (s.halves3 (.ofExt w))
/-- 04 R129. -/
def execFdot2 (w : Ext) (s : State) : Answer :=
  let f := Fields.ofExt w
  let t := ftOf f.mod
  .next (s.vOp f fun w l => dotHalves t (rndOf f.mod) (f.mhi.testBit 0) (w.opA f l) (w.opBp f t l) (w.opC f l))

end Sys2Proof.Machine
end

