-- ==== Sys2Proof/Machine/Translate.lean ====
section
/-! DEFINITION. From a virtual address to a place in memory: canonical form and the on-chip window (01 R34 to R36), the walk (12 R385 to R391),
leases (11 R357 to R359), populated space (10 R323, R324), key indices (12 R398); reading and writing a place. -/
namespace Sys2Proof.Machine

/-- What an access needs of its page (12 R387). -/
inductive Use where
  | fetch | read | write | atomic
  deriving DecidableEq, Repr

/-- What kind of place an access demands (06 R194 step 3): full-empty accesses a scratchpad (R199), atomics no accumulator slot (R208). -/
inductive Kind where
  | plain | fullEmpty | atomic
  deriving DecidableEq, Repr

/-- Why an access cannot be made (06 R194; 12 R377 to R379); `bad`: an uncorrectable error in a table entry that the walk reads (10 R342). -/
inductive AccFault where
  | page (reason : Nat) (va : W64)
  | misaligned (reason : Nat) (va : W64)
  | served (q : ServedFault)
  | lease (reason : Nat) (va : W64)
  | key (va : W64)
  | ats (va : W64)
  | bad (reason : Nat) (va : W64)
  deriving DecidableEq, Repr

/-- The address a fault reports. -/
def AccFault.va : AccFault → W64
  | .page _ v => v | .misaligned _ v => v | .served q => q.va | .lease _ v => v | .key v => v | .ats v => v | .bad _ v => v

/-- The trap of a fault in a lane (12 R377). -/
def AccFault.trap (f : AccFault) (lane : Nat) (aux : Option W64) : Trap :=
  match f with
  | .page r v => { cause := 4, reason := r, lane := lane, info := v, aux := aux }
  | .misaligned r v => { cause := 6, reason := r, lane := lane, info := v }
  | .served q => { cause := 4, reason := q.reason, lane := lane, info := q.va, aux := aux, served := some q }
  | .lease r v => { cause := 5, reason := r, lane := lane, info := v, aux := aux, fatal := true }
  | .key v => { cause := 4, reason := 9, lane := lane, info := v, aux := aux, fatal := true }
  | .ats v => { cause := 4, reason := 2, lane := lane, info := v, aux := aux }
  | .bad r v => { cause := 0xF, reason := r, lane := lane, info := v, aux := aux, fatal := true }

/-- Bit of ACC in a fault-queue entry (12 R393). -/
def Use.accBit : Use → Nat
  | .read => 1 | .write => 2 | .fetch => 4 | .atomic => 8
/-- Does the access write? -/
def Use.writes : Use → Bool
  | .write | .atomic => true
  | _ => false
/-- The permission bits of a leaf that an access needs, without U (12 R387). -/
def Use.need : Use → Byte
  | .fetch => 0x08 | .read => 0x02 | .write => 0x04 | .atomic => 0x06
/-- Does a leaf permit the access (12 R387)? -/
def permitted (privileged : Bool) (u : Use) (perm : Byte) : Bool :=
  perm &&& u.need == u.need && (privileged || perm &&& 0x10 == 0x10)
/-- ACC bits of a lease that an access needs (11 R357). -/
def Use.leaseNeed : Use → BitVec 2
  | .read => 1 | .write => 2 | .atomic => 3 | .fetch => 0

/-- Canonical form (01 R36). -/
def canonical (va : W64) : Bool := va == (va.setWidth 57).signExtend 64

/-! ### The walk (12 R386, R388) -/

/-- A leaf as the walk read it: the 4 KiB page it gives, its permission byte, the I/O attribute, a buffered region's descriptor, where the
permission byte lies, and the entries read. -/
structure Leaf where
  ppage : Nat
  perm : Byte
  io : Bool
  buf : Option Nat
  site : Option Nat
  sites : List Nat
  deriving DecidableEq, Repr

/-- Why a walk gives no leaf: the page-fault reason of 12 R386, or the uncorrectable error of an entry's line (10 R342). -/
inductive WalkFail where
  | page (reason : Nat)
  | bad (reason : Nat)
  deriving DecidableEq, Repr

/-- The walk from a table at a level (4 is the top), after the entries at `seen`. Bit positions: log entry 20. -/
def State.walkFrom (s : State) (mode1 : Bool) (va : W64) : Nat → Nat → List Nat → Except WalkFail Leaf
  | 0, _, _ => .error (.page 0x0A)
  | n + 1, table, seen =>
    let sh := 12 + 9 * n
    let site := table + va.toNat / 2 ^ sh % 512 * 8
    let e := s.numPa site 8
    let sites := seen ++ [site]
    match s.errorAt (.pa site) 8 with
    | some (_, r) => .error (.bad r)
    | none =>
    if e % 2 = 0 then .error (.page 2)
    else
      let leaf := bits e 3 1 != 0
      let ppn := bits e 53 10
      let isBuf := mode1 && leaf && bits e 8 8 == 1
      let common := bits e 63 63 != 0 || bits e 62 61 == 3 || bits e 60 60 != 0 || bits e 53 50 != 0
      let bad :=
        if leaf then (bits e 59 54 != 0 && !isBuf) || (bits e 2 2 == 1 && bits e 1 1 == 0) || ppn % 2 ^ (9 * n) != 0 || n == 4
        else bits e 62 61 != 0 || bits e 59 54 != 0 || bits e 7 6 != 0 || bits e 4 4 != 0 || n == 0
      if common || bad then .error (.page 0x0A)
      else if leaf then
        .ok { ppage := ppn + va.toNat / 4096 % 2 ^ (9 * n), perm := BitVec.ofNat 8 e, io := bits e 62 61 == 2
              buf := if isBuf then some (ppn * 4096 + bits e 59 54 * 64) else none, site := some site, sites := sites }
      else s.walkFrom mode1 va n (ppn * 4096) sites

/-- The walk of a PASID's tables (12 R385, R386); no valid context gives a fault of an invalid entry. -/
def State.walk (s : State) (pasid : BitVec 20) (va : W64) : Except WalkFail Leaf :=
  let c := s.pasidEntry pasid
  if ctxMode c = 1 ∨ ctxMode c = 2 then s.walkFrom (ctxMode c == 1) va 5 (ctxRoot c * 4096) [] else .error (.page 2)

/-- A translation that a TLB holds. -/
def TlbEntry.leaf (t : TlbEntry) : Leaf := ⟨t.ppage, t.perm, t.io, t.buf, none, []⟩
/-- The held translation of a page. -/
def State.held (s : State) (pasid : BitVec 20) (va : W64) : Option TlbEntry :=
  s.tlb.find? fun t => t.pasid == pasid && t.vpage == va.toNat / 4096

/-- The leaf an access uses: a held one or a fresh walk, as 12 R390 leaves open (log entry 11); in MODE 3 the host's answer (R391). -/
def State.leaf (s : State) (pasid : BitVec 20) (privileged : Bool) (u : Use) (va : W64) : Except AccFault Leaf :=
  let refuse (r : Nat) : Except AccFault Leaf := .error (.served ⟨r, u.accBit, va⟩)
  let ok (p : Byte) : Bool := permitted privileged u p
  if ctxMode (s.pasidEntry pasid) = 3 then
    match s.held pasid va with
    | none => .error (.ats va)
    | some t => if ok t.perm then .ok t.leaf else refuse (if t.perm &&& 0x0E == 0 then 2 else 4)
  else
    let fresh : Except AccFault Leaf :=
      match s.walk pasid va with
      | .error (.page r) => refuse r
      | .error (.bad r) => .error (.bad r va)
      | .ok f => if ok f.perm then .ok f else refuse 4
    match s.held pasid va with
    | none => fresh
    | some t => if ok t.perm && (!u.writes || t.perm.getLsbD 7) && s.choose (va.toNat / 4096) then .ok t.leaf else fresh

/-! ### Leases (11 R357 to R359) -/

/-- The kinds that the leases over a page permit together; none outside every lease. -/
def Launch.leaseAcc (l : Launch) (vpage : Nat) : Option (BitVec 2) :=
  (l.leases.filter fun r => decide (r.first ≤ vpage ∧ vpage < r.first + r.count)).foldl
    (fun acc r => some (acc.getD 0 ||| r.acc)) none
/-- The extent that covers a page. -/
def Launch.extent (l : Launch) (vpage : Nat) : Option Extent :=
  l.extents.find? fun x => decide (x.vpage ≤ vpage ∧ vpage < x.vpage + x.count)

/-! ### Populated space and keys (10 R324; 12 R398) -/

/-- The route to a package exists and fabric links were accepted (13 R421, R423). -/
def State.routed (s : State) (pkg : Nat) : Bool :=
  (match s.features with | some f => f.getLsbD 6 | none => false) && (s.routes.getD pkg 0).getLsbD 20
/-- May a translation yield this address (10 R324; 13 R421, R423)? -/
def State.populated (s : State) (pa : Nat) (io : Bool) : Bool :=
  let off := pa % 2 ^ 44
  let layout := isHbm off || (isReg off && io)
  if isFabric pa then layout && s.routed (bits pa 50 44)
  else isHost pa || (bits pa 49 44 == 0 && layout)
/-- May a launch reach a page of HBM (12 R398)? -/
def State.keyOk (s : State) (l : Launch) (pa : Nat) : Bool :=
  !isHbm pa || (let k := s.keyOf pa; (k == 0 && l.hdr.privileged) || s.tenants.any fun t => t.no == l.hdr.tenant && t.key == k)
/-- May the scheduler reach a page for a tenant (12 R398)? -/
def State.schedKeyOk (s : State) (tenant : BitVec 16) (pa : Nat) : Bool :=
  !isHbm pa || (let k := s.keyOf pa; k == 0 || s.tenants.any fun t => t.no == tenant && t.key == k)

/-- Where an access of a buffered region lands: the front copy, or the shadow copy with `shadow` (06 R221, 12 R389). -/
def State.bufAddr (s : State) (desc : Nat) (va : W64) (shadow : Bool) : Option Nat :=
  let d := s.numPa desc 64
  let off := va.toNat - bits d 127 64
  if isHbm (desc + 63) && decide (bits d 127 64 ≤ va.toNat) && decide (off < bits d 159 128 * 4096) then
    some ((if (bits d 0 0 == 1) != shadow then bits d 319 256 else bits d 255 192) + off)
  else none

/-! ### Translating -/

/-- Where an address leads, and what using it changes: the A and D bits of its leaf, a TLB entry, the lines of the entries the walk read. -/
structure Mapped where
  pa : Nat
  io : Bool
  buf : Option Nat
  mark : Option (Nat × Byte)
  fill : Option TlbEntry
  sites : List Nat
  deriving DecidableEq, Repr

/-- The address a leaf gives, checked against populated space (R324); the descriptor of a buffered region is read for it (R389), and an error in its line is
met there (10 R342). -/
def State.place (s : State) (u : Use) (va : W64) (shadow : Bool) (pasid : BitVec 20) (f : Leaf) : Except AccFault Mapped :=
  let served (r : Nat) : Except AccFault Mapped := .error (.served ⟨r, u.accBit, va⟩)
  let pa? := match f.buf with
    | none => some (f.ppage * 4096 + va.toNat % 4096)
    | some d => s.bufAddr d va shadow
  match f.buf.bind fun d => s.errorAt (.pa d) 64, pa? with
  | some (_, r), _ => .error (.bad r va)
  | none, none => served 0x0A
  | none, some pa =>
    if !s.populated pa f.io then served 8
    else
      let perm := f.perm ||| 0x40#8 ||| (if u.writes then 0x80#8 else 0)
      .ok { pa := pa, io := f.io, buf := f.buf
            mark := f.site.bind fun a => if perm = f.perm then none else some (a, perm)
            fill := f.site.map fun _ => ⟨pasid, va.toNat / 4096, f.ppage, perm, f.io, f.buf⟩
            sites := f.sites }

/-- The key check of an agent's access for a launch: of the page reached, and of the page of the region's descriptor (12 R398). -/
def State.keyed (s : State) (l : Launch) (va : W64) (m : Mapped) : Except AccFault Mapped :=
  if s.keyOk l m.pa && m.buf.all (s.keyOk l) then .ok m else .error (.key va)

/-- A page through an extent, whose leaf takes its marks at the entry's site (11 R357; 12 R388). -/
def State.extentPage (s : State) (l : Launch) (u : Use) (shadow : Bool) (x : Extent) (va : W64) : Except AccFault Mapped :=
  let page := if x.buf.isSome then x.ppage else x.ppage + (va.toNat / 4096 - x.vpage)
  let site := match s.walk l.hdr.pasid va with
    | .ok f => if f.ppage = page then some (f.perm, f.site) else none
    | .error _ => none
  let f : Leaf := ⟨page, (site.map (·.1)).getD 0xC0, x.io, x.buf, site.bind (·.2), []⟩
  (s.place u va shadow l.hdr.pasid f).map fun m => { m with fill := none }
/-- Translation for a launch; `leased` for every access that lease checks apply to (11 R359). -/
def State.xlate (s : State) (l : Launch) (u : Use) (leased shadow : Bool) (va : W64) : Except AccFault Mapped :=
  let normal : Except AccFault Mapped :=
    match s.leaf l.hdr.pasid l.hdr.privileged u va with
    | .error e => .error e
    | .ok f => match s.place u va shadow l.hdr.pasid f with
      | .error e => .error e
      | .ok m => s.keyed l va m
  if !leased then normal
  else
    let vp := va.toNat / 4096
    match l.leaseAcc vp with
    | none => if l.hdr.strict then .error (.lease 1 va) else normal
    | some acc =>
      if acc &&& u.leaseNeed != u.leaseNeed then .error (.lease 2 va)
      else match l.extent vp with
        | none => normal
        | some x => match s.extentPage l u shadow x va with
          | .error e => .error e
          | .ok m => s.keyed l va m

/-! ### The on-chip window (01 R34, R35) -/

/-- On whose behalf an access is made: the launch, the core (which names the quad), the block that runs, and the agent that makes it. -/
structure Who where
  launch : Launch
  core : Nat
  block : Nat
  agent : FaultAgent
  deriving DecidableEq, Repr

/-- The issuing warp as an agent. -/
def Env.who (e : Env) : Who := ⟨e.l, e.w.core, e.b.id, .warp e.w.id⟩
/-- In the window? -/
def inWindow (va : W64) : Bool := va.extractLsb' 40 24 == 0x00FFFF#24
/-- A scratchpad place, or the first address of a run that lies beyond the declared bytes: TRAPINFO of an access that begins inside them and runs past
them, which 01 R35 leaves open (log entry 60). -/
def scratchLoc (b : Block) (base : W64) (off n : Nat) : Except AccFault Loc :=
  if off + n ≤ b.scratchBytes then .ok (.sp b.id off)
  else .error (.page 3 (if off < b.scratchBytes then base + BitVec.ofNat 64 b.scratchBytes else base + BitVec.ofNat 64 off))
/-- A run of bytes in the window, inside one page; a window address names the quad of the agent's core (01 R34). -/
def State.windowLoc (s : State) (w : Who) (va : W64) (n : Nat) : Except AccFault Loc :=
  let o := va.toNat % 2 ^ 40
  let bad : Except AccFault Loc := .error (.page 3 va)
  if o < 0x100000 then
    match s.anyBlock? w.block with
    | some b => scratchLoc b Config.windowBase o n
    | none => bad
  else if 0x100000000 ≤ o ∧ o < 0x100000000 + 64 * 0x100000 then
    let slot := (o - 0x100000000) / 0x100000
    match s.blocks.find? fun b => quadOf b.core == quadOf w.core && b.winSlot == slot && b.launch == w.launch.id with
    | some b => scratchLoc b (va - BitVec.ofNat 64 (o % 0x100000)) (o % 0x100000) n
    | none => bad
  else if 0x8000000000 ≤ o ∧ o < 0x8000000000 + 32 * 0x10000 then
    let q := quadOf w.core
    if s.quads.acc.any fun a => a.1 == q && a.2.1 == (o - 0x8000000000) / 0x10000 && a.2.2.owner == some w.block then
      .ok (.acc q (o - 0x8000000000))
    else bad
  else bad

/-! ### Checked accesses (06 R194) -/

/-- A run at a translated address. -/
def Mapped.seg (m : Mapped) (va : W64) (n : Nat) : Seg := ⟨va, n, .pa m.pa, m.io, m.buf, m.mark, m.fill, m.sites⟩
/-- A run that lies in the window. -/
def Seg.window (va : W64) (n : Nat) (loc : Loc) : Seg := ⟨va, n, loc, false, none, none, none, []⟩
/-- The runs of `n` bytes at an address, cut at page boundaries; `fuel` bounds their number. -/
def runsOf : Nat → W64 → Nat → List (W64 × Nat)
  | 0, _, _ => []
  | fuel + 1, va, n =>
    if n = 0 then [] else
      let k := min n (4096 - va.toNat % 4096)
      (va, k) :: runsOf fuel (va + BitVec.ofNat 64 k) (n - k)

/-- Steps 1 to 3 for a run: its place if it lies in the window. -/
def State.stepWindow (s : State) (w : Who) (k : Kind) (r : W64 × Nat) : Except AccFault (Option Loc) :=
  if !canonical r.1 then .error (.page 1 r.1)
  else if inWindow r.1 then
    match s.windowLoc w r.1 r.2 with
    | .error e => .error e
    | .ok loc => match loc with
      | .acc _ _ => if k = .plain then .ok (some loc) else .error (.page 5 r.1)
      | _ => .ok (some loc)
  else if k = .fullEmpty then .error (.page 5 r.1) else .ok none

/-- Step 5 for a run. -/
def State.stepXlate (s : State) (w : Who) (u : Use) (shadow : Bool) (r : W64 × Nat) (loc : Option Loc) : Except AccFault Seg :=
  match loc with
  | some l => .ok (.window r.1 r.2 l)
  | none => match s.xlate w.launch u true shadow r.1 with
    | .error e => .error e
    | .ok m => .ok (m.seg r.1 r.2)

/-- An access of `n` bytes aligned to `al` (else misaligned with reason `rs`), checked in the order of R194. -/
def State.access (s : State) (w : Who) (u : Use) (k : Kind) (al rs : Nat) (va : W64) (n : Nat) : Except AccFault (List Seg) := do
  let runs := runsOf 4 va n
  let locs ← runs.mapM (s.stepWindow w k)
  if va.toNat % al ≠ 0 then .error (.misaligned rs va)
  else (runs.zip locs).mapM fun (r, l) => s.stepXlate w u false r l

/-- A fabric or I/O access (06 R196). -/
def Seg.far (g : Seg) : Bool := g.io || (match g.loc with | .pa a => isFabric a | _ => false)
/-- A peer's memory, reached over the fabric. -/
def Seg.remote (g : Seg) : Bool := match g.loc with | .pa a => isFabric a | _ => false

/-! ### Using what was translated -/

/-- A scratchpad access marks its pages as used (10 R327). -/
def State.touchPages (s : State) (l : Loc) (n : Nat) : State :=
  match l with
  | .sp b o => s.modAnyBlock b fun b => { b with pages := b.pages.map fun p : Page =>
      if o / 4096 ≤ p.no ∧ p.no ≤ (o + n - 1) / 4096 then { p with lastUse := s.clock } else p }
  | _ => s
/-- Using a run: its walk read its entries, and its region's descriptor, its leaf's A and D bits are set at the entry's site, its translation is held (12
R388 to R390). -/
def State.useSeg (s : State) (g : Seg) : State :=
  let s := match g.buf with | some d => (s.touchPages g.loc g.n).homeLoad 0 (.pa d) 64 | none => s.touchPages g.loc g.n
  let s := g.sites.foldl (fun s a => s.homeLoad 0 (.pa a) 8) s
  let s := match g.mark with
    | some (a, b) => s.ownStore a [b]
    | none => s
  match g.fill with
  | some t => { s with tlb := (s.tlb.filter fun x => !(x.pasid == t.pasid && x.vpage == t.vpage)) ++ [t] }
  | none => s
/-- Using every run of a list. -/
def State.useSegs (s : State) (gs : List Seg) : State := gs.foldl State.useSeg s

/-- The bytes of the runs of an access, in order. -/
def State.readSegs (s : State) (gs : List Seg) : List Byte := gs.flatMap fun g => s.readLoc g.loc g.n
/-- The first error in an access: its address and reason. -/
def State.errorIn (s : State) (gs : List Seg) : Option (W64 × Nat) :=
  gs.findSome? fun g => (s.errorAt g.loc g.n).map fun (k, r) => (g.va + BitVec.ofNat 64 k, r)
/-- A scratchpad page of a block in residence that an access names and that holds no frame (10 R326): block and page. A block in a saved context has no
core to pin a page on: what reaches it reaches its backing area (log entry 62). -/
def State.unpinned (s : State) (l : Loc) (n : Nat) : Option (Nat × Nat) :=
  match l with
  | .sp b o => match s.block? b with
    | some blk => ((List.range ((o + n - 1) / 4096 + 1 - o / 4096)).map (· + o / 4096)).findSome? fun p =>
        if blk.pages.any fun q => q.no == p && ((q.frame.isSome && !q.filling) || q.bad.isSome) then none else some (b, p)
    | none => none
  | _ => none

/-- A translation request to the host for a page (12 R391), once. -/
def State.askHost (s : State) (agent : FaultAgent) (l : Launch) (u : Use) (va : W64) (core slot : Nat) : State :=
  let p := l.hdr.pasid
  if s.faultWaits.any fun f => f.place == .ats && f.pasid == p && f.va.toNat / 4096 == va.toNat / 4096 then s
  else
    let id := s.ctr.wait
    { s with faultWaits := s.faultWaits ++ [⟨id, agent, .ats, p, va, 2, u.accBit, l.id, core, slot, 0⟩]
             out := s.out ++ [.translate p va id], ctr := { s.ctr with wait := id + 1 } }
/-- A translation that was refused is not held (12 R390). -/
def State.dropHeld (s : State) (pasid : BitVec 20) (va : W64) : State :=
  { s with tlb := s.tlb.filter fun t => !(t.pasid == pasid && t.vpage == va.toNat / 4096) }

/-- A failed check of a warp's access: the trap of the lane, or the wait for the host's translation. -/
def State.faultLane (s : State) (e : Env) (u : Use) (lane : Nat) (aux : Option W64) (f : AccFault) : State :=
  match f with
  | .ats va => (s.askHost (.warp e.w.id) e.l u va e.w.core e.w.slot).disable e.w
  | .served q => (s.dropHeld e.l.hdr.pasid q.va).raise e (f.trap lane aux)
  | _ => s.raise e (f.trap lane aux)

/-- The matrix stream as an agent. -/
def SEnv.who (e : SEnv) : Who := ⟨e.l, e.b.core, e.b.id, .stream e.b.id⟩
/-- The stream waits and runs its instruction again later. -/
def State.stallStream (s : State) (e : SEnv) : State := s.putStream e.b.id { e.x with wait := .stall }
/-- A failed check of a stream's own read (07 R237). -/
def State.faultStream (s : State) (e : SEnv) (u : Use) (aux : Option W64) (f : AccFault) : State :=
  match f with
  | .ats va => (s.askHost (.stream e.b.id) e.l u va e.b.core 0).stallStream e
  | .served q => (s.dropHeld e.l.hdr.pasid q.va).raiseStream e (f.trap 0 aux)
  | _ => s.raiseStream e (f.trap 0 aux)

end Sys2Proof.Machine
end

