-- ==== Sys2Proof/Machine/Perform.lean ====
section
/-! DEFINITION. How an access performs (09 R296 to R316): the read-modify-write operations, writes at a site, full-empty bits, the speculation
window with its checkpoint and rollback, requests to peer packages. -/
namespace Sys2Proof.Machine

/-! ### Read-modify-write (06 R207) -/

/-- The new value of an integer operation; none where nothing is written. -/
def atomicInt {n : Nat} (op : Nat) (old x c : BitVec n) : Option (BitVec n) :=
  match op with
  | 0 => some (old + x)
  | 1 => some (old - x)
  | 2 => some (if x.slt old then x else old)
  | 3 => some (if old.slt x then x else old)
  | 4 => some (if x.ult old then x else old)
  | 5 => some (if old.ult x then x else old)
  | 6 => some (old &&& x)
  | 7 => some (old ||| x)
  | 8 => some (old ^^^ x)
  | 9 => some x
  | 10 => if old = c then some x else none
  | 14 => some (if old.ult x then old + 1 else old)
  | _ => some (if x.ult old then old - 1 else old)
/-- The new value of an operation on 32 bits. -/
def atomic32 (op : Nat) (old x c : W32) : Option W32 :=
  match op with
  | 11 => some (fres .f32 .rn false (XReal.add .rn (fval .f32 old) (fval .f32 x)))
  | 12 => some (fminmax .f32 false old x)
  | 13 => some (fminmax .f32 true old x)
  | _ => atomicInt op old x c
/-- The bytes that an operation writes over the bytes it finds: 8 of them for the wide form. -/
def atomicBytes (op : Nat) (old : List Byte) (x c : W64) : Option (List Byte) :=
  if old.length = 8 then (atomicInt op (BitVec.ofNat 64 (leNat old)) x c).map fun r => leBytes 8 r.toNat
  else (atomic32 op (BitVec.ofNat 32 (leNat old)) (lo32 x) (lo32 c)).map fun r => leBytes 4 r.toNat

/-! ### Runs in the caches (10 R332, R333) -/

/-- The held translation that a run used, if it is the one a TLB holds. -/
def State.usedEntry (s : State) (pasid : BitVec 20) (g : Seg) : Option TlbEntry :=
  (s.held pasid g.va).filter fun t => t.buf == g.buf && (t.buf.isSome || g.loc == .pa (t.ppage * 4096 + g.va.toNat % 4096))
/-- A load's runs in the caches of its core; a uniform load whose translation is held goes through the uniform-constant cache, for a PASID and tenant. -/
def State.cacheLoad (s : State) (core hint : Nat) (gs : List Seg) (ucc : Option (BitVec 20 × BitVec 16) := none) : State :=
  (gs.filter fun g => !g.io).foldl (fun s g =>
    match ucc, ucc.bind (fun x => s.usedEntry x.1 g), physLines g.loc g.n with
    | some x, some t, [line] => if hint = 3 then s.cacheLoadLine core hint line else s.uccLoadLine core x.2 hint g.va line t
    | _, _, ls => ls.foldl (fun s l => s.cacheLoadLine core hint l) s) s
/-- A uniform load may use the translation that its core's uniform-constant cache holds (10 R333, 12 R390): it stands in the TLBs then. -/
def State.uccHeld (s : State) (core : Nat) (pasid : BitVec 20) (tenant : BitVec 16) (va : W64) : State :=
  match s.uccAt core pasid tenant va with
  | some x => if s.choose (va.toNat / 128 + 2 ^ 66) then
      { s with tlb := (s.tlb.filter fun t => !(t.pasid == pasid && t.vpage == va.toNat / 4096)) ++ [x.entry] } else s
  | none => s
/-- A line that the ingress atomic cache holds among these runs (13 R427). -/
def State.ingressHeld (s : State) (gs : List Seg) : Option Nat :=
  (gs.flatMap fun g => physLines g.loc g.n).find? fun x => s.ingress.any fun i => i.line == x
/-- Does a run lie in this package's register space? -/
def Seg.regs (g : Seg) : Bool := match g.loc with | .pa a => !isFabric a && !isHost a && isReg (a % 2 ^ 44) | _ => false
/-- The bytes of a run on this package, device registers included. -/
def State.segBytes (s : State) (g : Seg) : List Byte :=
  if g.regs then (match g.loc with | .pa a => (List.range g.n).map fun i => s.regByte (a + i) | _ => []) else s.readLoc g.loc g.n
/-- The window slot or scratchpad that a place lies in is still there for the block: an accumulator slot may have been released since the place was
checked (07 R240). -/
def State.standsAt (s : State) (block : Nat) (l : Loc) : Bool :=
  match l with
  | .acc q o => s.quads.acc.any fun a => a.1 == q && a.2.1 == o / 65536 && a.2.2.owner == some block
  | _ => true

/-! ### Full-empty bits (06 R199 to R202; 09 R319) -/

/-- Is the granule at a place full? -/
def State.fullAt (s : State) (l : Loc) : Bool :=
  match l with
  | .sp b o => match s.anyBlock? b with | some b => s.granuleFull b (o / 16) | none => true
  | _ => true
/-- Threads that wait for a granule look again, those of a saved context too. -/
def State.wakeGranules (s : State) : State := s.mapWarps fun w => w.onLanes (fun t => t.wait == .fullEmpty) fun t => { t with wait := .none }
/-- The bits of a run of granules are set full or empty. -/
def State.setGranules (s : State) (block first count : Nat) (full : Bool) : State :=
  let away := match s.anyBlock? block with
    | some b => b.pages.any fun p => (b.areaAt (p.no * 4096)).isSome
    | none => false
  let s := if away then ((List.range count).map (· + first)).foldl (fun s g => s.putGranule block g full) s
    else s.modAnyBlock block fun b =>
      let rest := b.feEmpty.filter fun g => !(decide (first ≤ g) && decide (g < first + count))
      { b with feEmpty := if full then rest else sortNat (rest ++ (List.range count).map (· + first)) }
  if full then s.wakeGranules else s
/-- One granule at a place. -/
def State.setGranule (s : State) (l : Loc) (full : Bool) : State :=
  match l with
  | .sp b o => s.setGranules b (o / 16) 1 full
  | _ => s

/-! ### Store-buffer entries (09 R300, R302) -/

/-- Place and length of what an entry changes; none for a range of full-empty bits. -/
def StoreEff.span : StoreEff → Option (Loc × Nat)
  | .bytes _ l _ xs => some (l, xs.length)
  | .fill _ l xs => some (l, xs.length)
  | .granules _ _ _ _ => none
  | .red _ l _ _ wide _ => some (l, if wide then 8 else 4)
/-- One entry performs. A change of full-empty bits reaches every read set, the warp's own too (09 R306). -/
def State.performEff (s : State) (core hint : Nat) (by_ : Option Nat) (e : StoreEff) : State :=
  match e with
  | .bytes _ l _ xs => s.writeSite (some core) by_ l xs hint
  | .fill _ l xs => (s.writeSite (some core) none l xs hint).setGranule l true
  | .granules b first count full =>
    (s.setGranules b first count full).disturb (linesOf (.sp b (first * 16)) (count * 16)) none
  | .red _ l _ op wide x =>
    match atomicBytes op (s.readLoc l (if wide then 8 else 4)) x 0 with
    | some r => s.writeSite (some core) by_ l r hint
    | none => s
/-- The entry at the front copy of its region as the selector stands (06 R221): what a publish of the region makes of it. -/
def StoreEff.retarget (s : State) (desc : Nat) (e : StoreEff) : StoreEff :=
  let at_ (buf : Option (Nat × W64)) (l : Loc) : Loc := match buf with
    | some (d, va) => if d = desc then ((s.bufAddr d va false).map Loc.pa).getD l else l
    | none => l
  match e with
  | .bytes lane l buf xs => .bytes lane (at_ buf l) buf xs
  | .red lane l buf op wide x => .red lane (at_ buf l) buf op wide x
  | .fill _ _ _ => e
  | .granules _ _ _ _ => e
/-- A place reached through a buffered region, after a publish of it. -/
def State.frontLoc (s : State) (desc : Nat) (buf : Option (Nat × W64)) (l : Loc) : Loc :=
  match buf with
  | some (d, va) => if d = desc then ((s.bufAddr d va false).map Loc.pa).getD l else l
  | none => l
/-- What warps and their remote accesses have still to perform after a publish of a region: stores, the runs of an instruction that performs in parts, the
runs on this package of an access that lies partly on a peer. -/
def State.retargetStores (s : State) (desc : Nat) : State :=
  let seg (g : Seg) : Seg := { g with loc := s.frontLoc desc (g.buf.map fun d => (d, g.va)) g.loc }
  let lane (t : Lane) : Lane := { t with plan := t.plan.map fun p => { p with segs := p.segs.map seg } }
  let t := s.mapWarps fun w => { w with
    regs := { w.regs with lanes := w.regs.lanes.map lane }
    spec := { w.spec with
      ckpt := w.spec.ckpt.map fun c => { c with regs := { c.regs with lanes := c.regs.lanes.map lane } }
      window := w.spec.window.map fun
        | .store q h es => .store q h (es.map fun e => e.retarget s desc)
        | .load q pc ls => .load q pc ls } }
  { t with remotes := t.remotes.map fun r => { r with near := r.near.map fun n => { n with loc := s.frontLoc desc n.buf n.loc } } }
/-- The lane whose store an entry is; none for a range of full-empty bits. -/
def StoreEff.lane : StoreEff → Option Nat
  | .bytes l _ _ _ => some l
  | .fill l _ _ => some l
  | .granules _ _ _ _ => none
  | .red l _ _ _ _ _ => some l
/-- The entries of the first lane of a store, which perform as one event, and those of the others (01 R39; 06 R204). -/
def firstLane (es : List StoreEff) : List StoreEff × List StoreEff :=
  let own (e : StoreEff) : Bool := e.lane == es.head?.bind StoreEff.lane
  (es.takeWhile own, es.dropWhile own)
/-- The oldest access of a warp is a store of which these entries are left. -/
def Warp.storeRest (w : Warp) (es : List StoreEff) : Warp :=
  match w.spec.window with
  | .store q h _ :: rest => { w with spec := { w.spec with window := .store q h es :: rest } }
  | _ => w
/-- The first line that the host caches among those an entry writes. -/
def State.effHostLine (s : State) (e : StoreEff) : Option Nat :=
  match e.span with
  | some (l, n) => s.hostLine l n
  | none => none

/-! ### The speculation window (09 R303 to R307) -/

/-- What a load finds in the store buffer (09 R301): nothing that matters, its bytes, or a store that must perform first. -/
inductive Forward where
  | memory
  | bytes (xs : List Byte)
  | wait
  deriving DecidableEq, Repr

/-- The entry covers the run and is the lane's own: the bytes it forwards. -/
def coveredBy (lane' : Nat) (l' : Loc) (xs : List Byte) (lane : Nat) (l : Loc) (n : Nat) : Forward :=
  let skip? : Option Nat := match l', l with
    | .pa a, .pa b => if a ≤ b ∧ b + n ≤ a + xs.length then some (b - a) else none
    | .sp p a, .sp q b => if p = q ∧ a ≤ b ∧ b + n ≤ a + xs.length then some (b - a) else none
    | .acc p a, .acc q b => if p = q ∧ a ≤ b ∧ b + n ≤ a + xs.length then some (b - a) else none
    | _, _ => none
  match skip? with
  | some k => if lane' = lane then .bytes ((xs.drop k).take n) else .wait
  | none => .wait
/-- What a load looks at: data, full-empty bits (`fequery`), or data of full granules (`ldfe`). -/
inductive Look where
  | data | bits | full
  deriving DecidableEq, Repr
/-- One entry against one run of a load. -/
def StoreEff.forward (e : StoreEff) (look : Look) (lane : Nat) (l : Loc) (n : Nat) (acc : Forward) : Forward :=
  match e with
  | .bytes lane' l' _ xs => if overlap l' xs.length l n && look != .bits then coveredBy lane' l' xs lane l n else acc
  | .fill lane' l' xs => if overlap l' xs.length l n then (if look = .bits then .wait else coveredBy lane' l' xs lane l n) else acc
  | .granules b first count _ => if look != .data && overlap (.sp b (first * 16)) (count * 16) l n then .wait else acc
  | .red _ l' _ _ wide _ => if overlap l' (if wide then 8 else 4) l n then .wait else acc
/-- The youngest entry that bears on a run decides. -/
def Warp.forward (w : Warp) (look : Look) (lane : Nat) (l : Loc) (n : Nat) : Forward :=
  (w.spec.window.flatMap fun | .store _ _ es => es | .load _ _ _ => []).foldl (fun acc e => e.forward look lane l n acc) .memory

/-- An unfinished access enters the window. -/
def Warp.enqueue (w : Warp) (a : Nat → Access) : Warp :=
  { w with spec := { w.spec with window := w.spec.window ++ [a w.spec.nextSeq], nextSeq := w.spec.nextSeq + 1 } }
/-- A checkpoint before the instruction, unless one is open (09 R303). -/
def Warp.openCkpt (w : Warp) (clock : Nat) : Warp :=
  match w.spec.ckpt with
  | some _ => w
  | none => { w with spec := { w.spec with
      ulog := 0
      ckpt := some ⟨w.regs, w.spec.nextSeq, w.spec.emits.length, w.spec.cmds.length, w.heldTrace.length, w.longs, w.yielded, clock⟩ } }
/-- The rollback count returns to 0 when the load that it names performs (09 R311). -/
def Warp.loadDone (w : Warp) (pc : W64) : Warp := if w.spec.rbAddr = pc then { w with spec := { w.spec with rbCount := 0 } } else w
/-- The checkpoint closes once no access older than the newest open load is left (09 R303); that load has then performed (R300). -/
def Warp.closeCkpt (w : Warp) : Warp :=
  if w.spec.window.tail.any fun a => !a.loadLines.isEmpty then w
  else
    let v := match w.spec.window with
      | .load _ pc _ :: rest => { w with spec := { w.spec with window := rest } }.loadDone pc
      | _ => w
    { v with spec := { v.spec with ckpt := none, ulog := 0, readSet := [] } }.dropLongs
/-- The oldest access has performed and leaves the window. -/
def Warp.performed (w : Warp) : Warp := { w with spec := { w.spec with window := w.spec.window.tail } }

/-- The lines that the open loads of a window have read. -/
def readLines (xs : List Access) : List Loc := dedup (xs.flatMap Access.loadLines)

/-- The long instructions after a rollback: those of the checkpoint, with its counts and what has come back since (09 R307). -/
def rolledLongs (now old : List LongOp) : List LongOp :=
  old.map fun o => match now.find? fun n => n.id == o.id with
    | some n => { n with left := o.left, shared := o.shared }
    | none => o
/-- How many of the staged commands that a rollback discards counted in a channel. -/
def discarded_ (cs : List Cmd) (k : Nat) : Nat := countIf (fun | .engine c => c.ch == k | _ => false) cs
/-- The order of the staged operations after a rollback: the first `emits` records and `cmds` commands. -/
def keepOrder : List Bool → Nat → Nat → List Bool
  | [], _, _ => []
  | true :: xs, e + 1, c => true :: keepOrder xs e c
  | true :: xs, 0, c => keepOrder xs 0 c
  | false :: xs, e, c + 1 => false :: keepOrder xs e c
  | false :: xs, e, 0 => keepOrder xs e 0
/-- A lane after a rollback: its registers are those of the checkpoint; what is no register of it stays, its ray query and its skip count, and it looks
again at what it waited for in the issue stage. -/
def Lane.rolled (now then_ : Lane) : Lane :=
  { then_ with skip := now.skip, query := now.query, wait := if then_.stands then .none else then_.wait }
/-- A rollback to the checkpoint (09 R307). -/
def Warp.rollTo (w : Warp) (c : Ckpt) : Warp :=
  { w with
    regs := { c.regs with lanes := (w.regs.lanes.zip c.regs.lanes).map fun (a, b) => a.rolled b }
    yielded := c.yielded
    disabled := false
    longs := rolledLongs w.longs c.longs
    heldTrace := w.heldTrace.take c.traces
    chans := w.chans.zipIdx.map fun (x, k) => { x with count := x.count - discarded_ (w.spec.cmds.drop c.cmds) k }
    spec := { w.spec with
      window := w.spec.window.filter fun | .load q _ _ => decide (q < c.seq) | .store q _ _ => decide (q < c.seq)
      readSet := [], ckpt := none, ulog := 0
      emits := w.spec.emits.take c.emits
      cmds := w.spec.cmds.take c.cmds
      order := keepOrder w.spec.order c.emits c.cmds } }
/-- The oldest open load that read a line: its program counter (09 R303). -/
def Warp.openLoad (w : Warp) (code : Nat) : Option (W64 × Loc) :=
  w.spec.window.findSome? fun
    | .load _ pc ls => (ls.find? fun l => l.code == code).map fun l => (pc, l)
    | .store _ _ _ => none
/-- The rollback count that a rollback caused by a load reaches (09 R311). -/
def Warp.rollCount (w : Warp) (pc : W64) : Nat := if w.spec.rbCount > 0 ∧ w.spec.rbAddr = pc then w.spec.rbCount + 1 else 1
/-- The warp after it; at 4 it turns careful and the count returns to 0. -/
def Warp.countRollback (w : Warp) (pc : W64) : Warp :=
  let n := w.rollCount pc
  { w with spec := if n ≥ 4 then { w.spec with rbCount := 0, rbAddr := pc, crfl := 512 } else { w.spec with rbCount := n, rbAddr := pc } }
/-- The address that names a line in a trace record. -/
def Loc.trace (l : Loc) : W64 :=
  match l with
  | .pa a => BitVec.ofNat 64 a
  | .sp _ o => Config.windowBase + BitVec.ofNat 64 o
  | .acc _ o => Config.windowBase + BitVec.ofNat 64 (0x8000000000 + o)
/-- A rollback of a core counts; 256 within an interval make every resident warp of it careful (09 R312). -/
def State.countCore (s : State) (core : Nat) : State :=
  let now := s.clock / 4096
  let s := s.modCore core fun c =>
    { c with rollbacks := (if c.interval = now then c.rollbacks else 0) + 1, rollbacksTotal := c.rollbacksTotal + 1, interval := now }
  if (s.core core).rollbacks = 256 then
    { s with warps := s.warps.map fun w : Warp => if w.core = core then { w with spec := { w.spec with crfl := max w.spec.crfl 512 } } else w }.modCore
      core fun c => { c with careful := c.careful + 1 }
  else s
/-- A warp rolls back to its checkpoint (09 R307, R308, R312); `cause`: the load whose line was reached, and the line (R311); none at a shadow swap or a
stop of the launch (01 R33), whose trace record names the checkpoint and no line (log entry 67). -/
def State.rollWarp (s : State) (w : Warp) (cause : Option (W64 × Loc)) : State :=
  match w.spec.ckpt with
  | none => s
  | some c =>
    let v := w.rollTo c
    let n := match cause with | some (pc, _) => v.rollCount pc | none => v.spec.rbCount
    let v := match cause with | some (pc, _) => v.countRollback pc | none => v
    let at_ : Pc := match cause with | some (pc, _) => Pc.ofAddr pc | none => (v.lane (v.live.headD 0)).pc
    let s := (s.putWarp v).countCore w.core
    match (s.block? w.block).bind fun b => s.launch? b.launch with
    | some l => s.trace w.core l.hdr.tenant ⟨11, n, w.slot, at_.setWidth 54, (cause.map fun x => addr54 x.2.trace).getD 0⟩
    | none => s

/-- Warps roll back at a shadow swap or a stop of their launch. -/
def State.rollAll (s : State) (ws : List Warp) : State :=
  ws.foldl (fun s w => match s.warp? w.id with | some v => s.rollWarp v none | none => s) s

/-- The trace records that a warp's speculation held are written once it is non-speculative (12 R410). -/
def State.flushTrace (s : State) (id : Nat) : State :=
  match s.warp? id with
  | none => s
  | some w =>
    if w.speculative then s
    else match (s.block? w.block).bind fun b => s.launch? b.launch with
      | some l => (w.heldTrace.foldl (fun s r => s.trace w.core l.hdr.tenant r) s).modWarp id fun w => { w with heldTrace := [] }
      | none => s

/-! ### Packets and requests to peer packages (13 R424 to R428) -/

/-- The target package of a fabric address. -/
def targetOf (pa : Nat) : Nat := bits pa 50 44
/-- The targets of the remote runs of an access. -/
def farTargets (gs : List Seg) : List Nat :=
  dedup (gs.filterMap fun g => match g.loc with | .pa a => if isFabric a then some (targetOf a) else none | _ => none)
/-- Traffic that spreads over the next hops (R425): engine writes, Larder fills, version notices. -/
def unordered : FabReq → Bool
  | .granule _ => true | .fill => true | .notice _ => true | _ => false
/-- The port that a packet leaves by: HOP0, or a hash of the line among the next hops. -/
def State.hopPort (s : State) (p : Packet) : Nat :=
  let e := (s.routes.getD p.dst 0).toNat
  let i := if unordered p.req then Config.hopHash (p.offset / 128) % (bits e 17 16 + 1) else 0
  bits e (4 * i + 3) (4 * i)
/-- A packet goes out over the port of its next hop; without a route, or over a link that is down, it is lost (R426). -/
def State.sendPacket (s : State) (p : Packet) : State :=
  if !s.routed p.dst || s.ports.down.getLsbD (s.hopPort p) then s else { s with out := s.out ++ [.packet (s.hopPort p) p] }
/-- What a package is told that is no access: over the fabric where a route leads to it, else over an Ultra Ethernet port, by a packet delivery context of
its own that the transport sets up (R430); a package that the peer table does not name, or that the transport has given up, is not reached. Its packet has class 0 and the number of what it
answers (log entry 48). No such message is as long as the 4,096 bytes of a frame: the longest, of the Crucible, has 944. -/
def State.tellPkg (s : State) (dst id : Nat) (req : FabReq) : State :=
  if s.routed dst then s.sendPacket ⟨s.pkg, dst, 0, 0, 0, 0, none, 0, 0, id, req⟩
  else if s.ports.peerTable.any (fun x => x.1 == dst) && !s.ports.peers.contains dst then
    { s with out := s.out ++ [.message dst req], ports := { s.ports with delivery := dedup (s.ports.delivery ++ [dst]) } }
  else s
/-- One more write of a lane counted for a flow, interval and target (06 R229). -/
def countSent (xs : List SentCount) (lane flow interval target : Nat) : List SentCount :=
  let same (x : SentCount) : Bool := x.lane == lane && x.flow == flow && x.interval == interval && x.target == target
  if xs.any same then xs.map fun x => if same x then { x with count := x.count + 1 } else x
  else xs ++ [⟨lane, flow, interval, target, 1⟩]
/-- Does a request write? -/
def reqCounted : FabReq → Bool
  | .store _ => true | .red _ _ => true | .granule _ => true | _ => false
/-- The flow numbers in use on the package: those of its warps, of what they carry, and of the threads of the reorder pools (06 R229). -/
def State.flowsUsed (s : State) : List Nat :=
  (s.warps ++ s.contexts.flatMap (·.warps)).flatMap (fun w => w.flow :: w.sent.map (·.flow)) ++
    (s.blocks ++ s.contexts.flatMap (·.blocks)).flatMap fun b => b.pool.flatMap fun t => t.flow :: t.sent.map (·.flow)
/-- A number of 24 bits that no flow of the package has (13 R428); 0 stands for none. -/
def State.newFlow (s : State) : Nat :=
  let used := s.flowsUsed
  (((List.range (used.length + 2)).map fun i => (s.ctr.flow + i) % 2 ^ 24).find? fun f => f != 0 && !used.contains f).getD 0
/-- A warp, in residence or in a saved context, that makes its first remote write receives a flow number (13 R428). -/
def State.ensureFlow (s : State) (id : Nat) : State :=
  if (s.warps ++ s.contexts.flatMap (·.warps)).any fun w => w.id == id && w.flow == 0 then
    { s with ctr := { s.ctr with flow := s.newFlow + 1 } }.mapWarps fun w => if w.id = id then { w with flow := s.newFlow } else w
  else s
/-- Unfinished memory instructions of a warp: those of its window, and those that wait for an answer of a peer (01 R28, 09 R304). -/
def State.outstanding (s : State) (w : Warp) : Nat :=
  w.spec.window.length + (dedup ((s.remotes.filter fun r => r.warp == w.id && r.cmd.isNone && decide (r.lane < 64)).map (·.seq))).length
/-- The runs of an access on one package, with how far into the access they begin. -/
def farRuns (t : Nat) : Nat → List Seg → List (Nat × Seg)
  | _, [] => []
  | off, g :: gs => (if g.remote && farTargets [g] == [t] then [(off, g)] else []) ++ farRuns t (off + g.n) gs
/-- The runs of an access on this package, with what a store of `xs` puts there. -/
def nearRuns (xs : List Byte) : Nat → List Seg → List NearRun
  | _, [] => []
  | off, g :: gs => (if g.remote then [] else [⟨off, g.loc, g.n, g.buf.map fun d => (d, g.va), (xs.drop off).take g.n⟩]) ++ nearRuns xs (off + g.n) gs
/-- A lane's request to one package, for the runs of its access there: one packet, which is one event at its target. `near`: the runs on this package, which
perform with the answer (06 R204). -/
def State.sendRemote (s : State) (id lane : Nat) (t : Nat) (runs : List (Nat × Seg)) (near : List NearRun) (req : FabReq) : State :=
  let s := if reqCounted req then s.ensureFlow id else s
  match s.warp? id, runs with
  | some w, (off, g) :: rest =>
    let rid := s.ctr.remote
    let at_ (g : Seg) : Nat := match g.loc with | .pa a => a % 2 ^ 44 | _ => 0
    let p : Packet := ⟨s.pkg, t, 0, w.prio, at_ g, g.n, rest.head?.map fun x => (at_ x.2, x.2.n), w.flow, w.interval % 256, rid, req⟩
    let r : Remote := ⟨rid, id, t, s.clock, !reqCounted req, lane, off, g.va, w.flow, w.interval, none, near, runs.map fun x => (x.1, x.2.n), w.spec.nextSeq, none⟩
    let s : State := { s.sendPacket p with ctr := { s.ctr with remote := rid + 1 }, remotes := s.remotes ++ [r] }
    s.modWarp id fun w =>
      { w with remoteOpen := w.remoteOpen + 1, sent := if reqCounted req then countSent w.sent lane w.flow w.interval t else w.sent
               remoteTarget := if reqCounted req && near.isEmpty && (w.remoteOpen == 0 || w.remoteTarget == some t) then some t else none }
  | _, _ => s
/-- A lane's requests to the peers that its access reaches, one for each; the runs on this package go with the first (log entry 34). -/
def State.sendAccess (s : State) (id lane : Nat) (gs : List Seg) (near : List NearRun) (req : List (Nat × Seg) → FabReq) : State :=
  (farTargets gs).zipIdx.foldl (fun s (t, i) =>
    let runs := farRuns t 0 gs
    s.sendRemote id lane t runs (if i = 0 then near else []) (req runs)) s
/-- Does a warp wait for the value of a remote read? -/
def State.readsOpen (s : State) (id : Nat) : Bool := s.remotes.any fun r => r.warp == id && r.isRead && r.reader.isNone && decide (r.lane ≤ 64)

end Sys2Proof.Machine
end

