-- ==== Sys2Proof/Machine/Access.lean ====
section
/-! DEFINITION. The accesses of a warp's memory instructions (06 R193 to R196): the addresses and checks of every lane, loads with the store buffer and
the checkpoint, stores into the window, requests to peers. -/
namespace Sys2Proof.Machine

/-- The address of a lane (06 R193): MODLO[6:5] the shift and MODHI[0] the extension of a V index. -/
def Warp.address (w : Warp) (f : Fields) (l : Nat) : W64 :=
  let a := w.opA64 f l
  if f.ext then
    let b : W64 := match f.bk with
      | 0 => if f.mhi % 2 = 1 then (w.v l f.b).signExtend 64 else (w.v l f.b).setWidth 64
      | 2 => w.s f.b
      | _ => 0
    a + (b <<< (f.mod / 32)) + f.imm.signExtend 64
  else
    a + match f.bk with
      | 0 => (w.v l f.b).signExtend 64
      | 1 => BitVec.ofInt 64 f.imm9
      | 2 => w.s f.b
      | _ => 0

/-- The registers' words of a loaded datum: a narrow one is extended (04 R108), a longer one takes a word for each four bytes. -/
def loadWords (signed : Bool) (bs : List Byte) : List W32 :=
  if bs.length < 4 then
    let x := leNat bs
    [if signed && x.testBit (8 * bs.length - 1) then BitVec.ofNat 32 (x + 2 ^ 32 - 2 ^ (8 * bs.length)) else BitVec.ofNat 32 x]
  else (List.range ((bs.length + 3) / 4)).map fun i => BitVec.ofNat 32 (leNat ((bs.drop (4 * i)).take 4))
/-- Bytes of a lane's registers from `k` on. -/
def Warp.regBytes (w : Warp) (l k n : Nat) : List Byte :=
  ((List.range ((n + 3) / 4)).flatMap fun i => leBytes 4 (w.v l (k + i)).toNat).take n

/-- One lane's access: address, bytes, the operands that go with it, its checked runs. -/
structure LaneAcc where
  lane : Nat
  va : W64
  n : Nat
  b : W64
  c : W64
  segs : List Seg
  deriving DecidableEq, Repr

/-- What an instruction evaluates for each lane at its issue (01 R38): the address, two operands, and a check of its own that comes before the address's. -/
structure LaneArgs where
  addr : Nat → W64
  b : Nat → W64 := fun _ => 0
  c : Nat → W64 := fun _ => 0
  pre : Nat → Option Trap := fun _ => none

/-- How an instruction accesses memory: bytes for each lane, alignment and the reason of its failure, what kind of place, whether it is a block
format access (R204). -/
structure Shape where
  n : Nat
  al : Nat
  rs : Nat
  kind : Kind := .plain
  block : Bool := false
  deriving DecidableEq, Repr

/-- Every lane's checks in lane order (06 R194; 01 R40): the first lane that fails with its fault. -/
def State.checkLanes (s : State) (w : Who) (u : Use) (h : Shape) (x : LaneArgs) (ls : List Nat) : Except (Nat × AccFault) (List LaneAcc) :=
  ls.mapM fun l => match s.access w u h.kind h.al h.rs (x.addr l) h.n with
    | .ok g => .ok ⟨l, x.addr l, h.n, x.b l, x.c l, g⟩
    | .error f => .error (l, f)
/-- The runs of every lane. -/
def allSegs (as : List LaneAcc) : List Seg := as.flatMap (·.segs)
/-- A failed check of a lane: TRAPAUX of a block access is its first byte (R204). -/
def State.faultAcc (s : State) (e : Env) (u : Use) (h : Shape) (x : LaneArgs) (y : Nat × AccFault) : State :=
  s.faultLane e u y.1 (if h.block then some (x.addr y.1) else none) y.2
/-- Uncorrectable-memory in loaded data (03 R89): at the instruction, or once its window has opened, when it would complete. -/
def State.loadError (s : State) (e : Env) (la : Nat) (dests : List Dest) (x : Nat × W64 × Nat) : State :=
  if la ≠ 0 ∧ e.w.settled then s.finishLong e la dests [] 0 (some x) else s.raise e (dataTrap x)
/-- The first lane whose data has an error. -/
def State.laneError (s : State) (as : List LaneAcc) : Option (Nat × W64 × Nat) :=
  as.findSome? fun a => (s.errorIn (a.segs.filter fun g => !g.remote)).map fun x => (a.lane, x.1, x.2)

/-- What must come before the runs are used: a scratchpad page is pinned, the ingress atomic cache gives its line up (10 R326; 13 R427). Then
their translations are used. An error of a page is reported in the lane that met it (01 R40). -/
def State.prepared (s : State) (e : Env) (as : List LaneAcc) (k : State → State) : State :=
  match (allSegs as).findSome? fun g => s.unpinned g.loc g.n with
  | some (b, p) => (s.propose .scratchpadPin (.two b p)).stall e.w
  | none => match s.ingressHeld (allSegs as) with
    | some line => (s.propose .atomicCacheRecall (.id line)).stall e.w
    | none => if (allSegs as).any fun g => s.underTest g.loc g.n then s.stall e.w else
      match as.findSome? fun a => (s.errorIn (a.segs.filter fun g => match g.loc with | .sp _ _ => true | _ => false)).map fun x => (a.lane, x) with
      | some (l, va, r) => s.raise e { cause := 0xF, reason := r, lane := l, info := va, fatal := true }
      | none => k (s.useSegs (allSegs as))
/-- The lanes of the path keep what the instruction has evaluated for them, since it performs in parts (01 R38). -/
def State.keepPlans (s : State) (e : Env) (as : List LaneAcc) : Warp :=
  let bare (g : Seg) : Seg := { g with mark := none, fill := none, sites := [] }
  let plan (l : Nat) : Plan := match as.find? fun a => a.lane == l with
    | some a => ⟨s.free, a.va, a.b, a.c, a.segs.map bare, s.cur.code, none⟩
    | none => ⟨s.free, 0, 0, 0, [], s.cur.code, none⟩
  (s.act e.w).foldl (fun w l => w.modLanes [l] fun t => { t with plan := some (t.plan.getD (plan l)) }) e.w
/-- Has the instruction of a path performed in part? -/
def State.resumed (s : State) (e : Env) : Bool := (s.act e.w).any fun l => (e.w.lane l).plan.isSome
/-- The address of a lane's access, as its instruction evaluated it. -/
def Warp.plannedVa (w : Warp) (l : Nat) (va : W64) : W64 := match (w.lane l).plan with | some p => p.va | none => va
/-- The accesses of the lanes `todo`: as their issue evaluated and checked them where the instruction has performed in part, else checked now, lane by lane
(01 R38, R40; 06 R194); an error in the data of a lower lane comes before the failure of a higher one. An accumulator slot that was released meanwhile is
gone (07 R240). -/
def State.planned (s : State) (e : Env) (u : Use) (h : Shape) (x : LaneArgs) (todo : List Nat) (k : State → List LaneAcc → State) : State :=
  if s.resumed e then
    match (s.act e.w).findSome? fun l => ((e.w.lane l).plan.bind (·.bad)).map fun y => (l, y) with
    | some (l, va, r) => s.raise e (dataTrap (l, va, r))
    | none =>
      let as := todo.filterMap fun l => (e.w.lane l).plan.map fun p => (⟨l, p.va, h.n, p.b, p.c, p.segs⟩ : LaneAcc)
      match as.findSome? fun a => (a.segs.find? fun g => !s.standsAt e.b.id g.loc).map fun g => (a.lane, g.va) with
      | some (l, va) => s.faultAcc e u h x (l, .page 3 va)
      | none => s.prepared e as fun s => k s as
  else
    let below (ls : List Nat) (fail : State) : State :=
      match s.checkLanes e.who u h x ls with
      | .error _ => fail
      | .ok as => if as.isEmpty then fail else s.prepared e as fun s => match s.laneError as with | some y => s.raise e (dataTrap y) | none => fail
    let good := todo.takeWhile fun l => (x.pre l).isNone
    match s.checkLanes e.who u h x good, (todo.drop good.length).head?.bind x.pre with
    | .error y, _ => below (good.takeWhile fun l => l != y.1) (s.faultAcc e u h x y)
    | .ok _, some t => below good (s.raise e t)
    | .ok as, none => s.prepared e as fun s => k s as
/-- A line of HBM that the host caches is asked back first, for an access that writes at once (13 R413). -/
def State.ownLines (s : State) (e : Env) (gs : List Seg) (k : State → State) : State :=
  match gs.findSome? fun g => s.hostLine g.loc g.n with
  | some line => (s.backInvalidate line).stall e.w
  | none => k s

/-! ### Loads -/

/-- The 64 full-empty bits from a place, as bytes (06 R202). -/
def State.granuleBits (s : State) (l : Loc) : List Byte :=
  (List.range 8).map fun j => BitVec.ofNat 8 (leBits ((List.range 8).map fun i => s.fullAt (l.plus (16 * (8 * j + i)))))
where
  /-- The number of a list of bits, the first least significant. -/
  leBits : List Bool → Nat
    | [] => 0
    | b :: bs => b.toNat + 2 * leBits bs
/-- What a lane's access reads on this package: data, or full-empty bits in their place. -/
def State.laneBytes (s : State) (look : Look) (a : LaneAcc) : List Byte :=
  if look = .bits then (match a.segs with | g :: _ => s.granuleBits g.loc | [] => []) else a.segs.flatMap s.segBytes
/-- The bytes a load takes past older unfinished accesses; none where it must wait (09 R301). -/
def State.specBytes (s : State) (w : Warp) (look : Look) (a : LaneAcc) : Option (List Byte) :=
  match a.segs.map fun g => w.forward look a.lane g.loc g.n with
  | [.bytes xs] => some xs
  | fs => if fs.all fun f => f == .memory then some (s.laneBytes look a) else none

/-- A load instruction: its fields and destinations, the shape of each lane's access, what it looks at, whether its address is uniform (10 R333), the
lanes that make one, what it evaluates for them, and how it ends given the bytes of each lane. -/
structure LoadOp where
  f : Fields
  dests : List Dest
  h : Shape
  look : Look := .data
  uni : Bool := false
  lanes : List Nat → List Nat := id
  args : Env → LaneArgs := fun e => { addr := e.w.address f }
  finish : State → Env → List Nat → (Nat → List Byte) → State

/-- The end of a load into registers: it writes its destinations and moves on (03 R86); trace record of a kind (12 R410). -/
def State.finishRegs (s : State) (e : Env) (f : Fields) (dests : List Dest) (addr : Warp → Nat → W64) (kind : Nat)
    (writes : Nat → List Byte → List RegWrite) (ex : List Nat) (got : Nat → List Byte) : State :=
  let s := s.finishLong e f.la dests (ex.flatMap fun l => writes l (got l))
  match ex with
  | [] => s
  | l :: _ => s.traceWarp e.w.id (some (if kind = 5 then 1 else 2)) kind l (addr54 (e.w.plannedVa l (addr e.w l))) (e.w.lane l).pc
/-- A load into registers. -/
def regLoad (op : Nat) (f : Fields) (h : Shape) (writes : Nat → List Byte → List RegWrite) (kind : Nat := 5) : LoadOp :=
  { f := f, dests := opDests op f, h := h, uni := (op == 0x0E0 || op == 0x0E6) && f.ak == 1 && f.bk != 0
    finish := fun s e ex got => s.finishRegs e f (opDests op f) (fun w l => w.address f l) kind writes ex got }
/-- The bytes that a lane has obtained, in this attempt or an earlier one. -/
def obtained (w : Warp) (now : List (Nat × List Byte)) (l : Nat) : List Byte :=
  match now.find? fun x => x.1 == l with
  | some x => x.2
  | none => (w.lane l).got.getD []
/-- Lanes keep what they have obtained. -/
def Warp.keepGot (w : Warp) (now : List (Nat × List Byte)) : Warp :=
  now.foldl (fun w x => w.modLanes [x.1] fun t => { t with got := some x.2 }) w

/-- Does a run reach the shard version register (10 R340)? -/
def Seg.version (g : Seg) : Bool :=
  g.regs && match g.loc with | .pa a => decide (a < Config.regBase + 4) && decide (Config.regBase < a + g.n) | _ => false
/-- The lanes that access memory next, in increasing order (01 R39): as many of those on this package as this move allows, one alone that reaches the shard
version, or from a lane that reaches a peer on those that reach the same peer alone, since one route keeps the order of what travels on it (09 R316). -/
def State.nextBatch (s : State) (as : List LaneAcc) : List LaneAcc :=
  match as with
  | [] => []
  | a :: _ =>
    if a.segs.any Seg.remote then
      (if a.segs.all Seg.remote && (farTargets a.segs).length == 1 then
        as.takeWhile fun b => b.segs.all Seg.remote && farTargets b.segs == farTargets a.segs else [a])
    else if a.segs.any Seg.version then [a]
    else
      let near := as.takeWhile fun b => !b.segs.any Seg.remote && !b.segs.any Seg.version
      near.take (s.lanesNow near.length)
/-- Lanes that have performed keep what they obtained; the instruction goes on with the others. -/
def State.keepGoing (s : State) (e : Env) (as : List LaneAcc) (now : List (Nat × List Byte)) : State := s.putWarp ((s.keepPlans e as).keepGot now)
/-- Lanes that reach a peer send their requests; the path waits for the answers (R196). -/
def State.askPeers (s : State) (e : Env) (req : LaneAcc → FabReq) (as peer : List LaneAcc) : State :=
  let s := peer.foldl (fun s a => s.sendAccess e.w.id a.lane a.segs (nearRuns [] 0 a.segs) fun _ => req a)
    (s.keepGoing e as (peer.map fun a => (a.lane, List.replicate a.n 0)))
  s.modWarp e.w.id fun w => w.modLanes (s.act e.w) fun t => { t with wait := .remote }
/-- A load with nothing older unfinished performs when it issues (log entry 7; 09 R311): its lanes in order, as many as this move allows. -/
def State.loadNow (s : State) (e : Env) (o : LoadOp) (ex : List Nat) (as batch : List LaneAcc) : State :=
  let now := batch.map fun a => (a.lane, s.laneBytes o.look a)
  if batch.length < as.length then s.keepGoing e as now
  else o.finish s { e with w := e.w.loadDone (e.w.lane (ex.headD 0)).pc.addr } ex (obtained e.w now)
/-- A load past older unfinished accesses: it opens a checkpoint, takes its value and enters its lines into the read set (09 R301, R303 to R305). It waits
where a store younger than the open checkpoint has not performed: that store would have to perform before the checkpoint closes, and a rollback could not
take it back (09 R302; log entry 79). -/
def State.loadAhead (s : State) (e : Env) (o : LoadOp) (ex : List Nat) (as : List LaneAcc) : State :=
  let w := e.w.openCkpt s.clock
  let n := (dedup o.dests).length
  let lines := dedup ((allSegs as).flatMap fun g => linesOf g.loc g.n)
  let set := dedup (w.spec.readSet ++ lines)
  let younger (c : Ckpt) : Bool := w.spec.window.any fun | .store q _ _ => decide (c.seq ≤ q) | .load _ _ _ => false
  match as.mapM (fun a => (s.specBytes e.w o.look a).map fun xs => (a.lane, xs)) with
  | none => s.stall e.w
  | some now =>
    if e.w.careful || e.w.remoteOpen != 0 || w.spec.ckpt.any younger then s.stall e.w
    else if decide (32 ≤ s.outstanding e.w) || decide (24 < w.spec.ulog + n) || decide (128 < set.length) then s.limit e.w
    else
      let pc := (e.w.lane (ex.headD 0)).pc.addr
      let w := (w.enqueue fun q => .load q pc lines)
      o.finish s { e with w := { w with spec := { w.spec with readSet := set } } } ex (obtained e.w now)
/-- A load whose lanes have been checked (06 R196): a fabric or I/O access waits until the warp is non-speculative; a lane that reaches a peer asks it; with
nothing older unfinished it performs, else it runs ahead. -/
def State.loadGo (s : State) (e : Env) (o : LoadOp) (ex : List Nat) (as : List LaneAcc) : State :=
  let idle := e.w.spec.window.isEmpty && e.w.remoteOpen == 0
  let cached (s : State) (as : List LaneAcc) : State :=
    s.cacheLoad e.w.core o.f.hint (allSegs as) (if o.uni then some (e.l.hdr.pasid, e.l.hdr.tenant) else none)
  if (allSegs as).any Seg.far && !e.w.settled then s.stall e.w
  else if as.isEmpty || idle then
    let batch := s.nextBatch as
    if (allSegs batch).any Seg.remote then s.askPeers e (fun _ => .load) as batch
    else (cached s batch).loadNow e o ex as batch
  else if s.resumed e then s.stall e.w
  else (cached s as).loadAhead e o ex as
/-- A load (06 R196, R198): every lane is checked, then it performs, runs ahead or waits as its place demands. -/
def State.memLoad (s : State) (o : LoadOp) : State :=
  s.onWarp fun e =>
    let ex := o.lanes (s.exec e.w o.f.ga o.f.gb)
    let todo := ex.filter fun l => (e.w.lane l).got.isNone
    let x := o.args e
    let s := if o.uni && !s.resumed e then s.uccHeld e.w.core e.l.hdr.pasid e.l.hdr.tenant (x.addr (ex.headD 0)) else s
    s.planned e .read o.h x todo fun s as =>
      match s.laneError as with
      | some y => s.loadError e o.f.la o.dests y
      | none => s.loadGo e o ex as

/-! ### Stores -/

/-- A store instruction: its fields, shape, what it evaluates for a lane, the entries of a lane's access, the bytes it puts there and the request for those
of its runs that lie on one peer. -/
structure StoreOp where
  f : Fields
  h : Shape
  use : Use := .write
  args : Env → LaneArgs := fun e => { addr := e.w.address f }
  effs : LaneAcc → List StoreEff
  bytes : LaneAcc → List Byte := fun _ => []
  req : LaneAcc → List (Nat × Seg) → FabReq

/-- The end of a store: no destination; trace record KIND 6. -/
def State.finishStore (s : State) (e : Env) (o : StoreOp) (ex : List Nat) : State :=
  let s := s.finishLong e o.f.la [] []
  match ex with
  | [] => s
  | l :: _ => s.traceWarp e.w.id (some 2) 6 l (addr54 (e.w.plannedVa l ((o.args e).addr l))) (e.w.lane l).pc

/-- A store to the shard version register: it performs when every Larder has acknowledged its notice (10 R340); until then it is an access without
its answer. Its number among the stores that change the version is even, a peer's odd. -/
def State.storeVersion (s : State) (id : Nat) (va : W64) (x : W32) : State :=
  let rid := s.ctr.remote
  let r : Remote := ⟨rid, id, s.pkg, s.clock, false, 0, 0, va, 0, 0, none, [], [], ((s.warp? id).map (·.spec.nextSeq)).getD 0, none⟩
  let s : State := { s with ctr := { s.ctr with remote := rid + 1 }, remotes := s.remotes ++ [r] }
  (s.proposeFirst .shardVersionWrite (.word (2 * rid) x)).modWarp id fun w => { w with remoteOpen := w.remoteOpen + 1, remoteTarget := none }
/-- The version register after a store of bytes at an offset. -/
def versionAfter (old : W32) (off : Nat) (xs : List Byte) : W32 :=
  BitVec.ofNat 32 (leNat ((List.range 4).map fun i => match xs[Config.regBase + i - off]? with
    | some b => if off ≤ Config.regBase + i then b else BitVec.ofNat 8 (old.toNat / 256 ^ i)
    | none => BitVec.ofNat 8 (old.toNat / 256 ^ i)))
/-- The version that stores made so far lead to: the last that waits for its turn, the one that changes it, the register's. -/
def Larder.latest (l : Larder) : W32 := ((l.writes.getLast?.map (·.2)).or (l.newVersion.map (·.2))).getD l.version
/-- A store entry performs at once where its run is an I/O page of this package; stores to register space are discarded but for the version. -/
def State.storeIo (s : State) (id core hint : Nat) (g : Seg) (e : StoreEff) : State :=
  if g.version then match e, g.loc with
    | .bytes _ _ _ xs, .pa a => s.storeVersion id g.va (versionAfter s.larder.latest a xs)
    | _, _ => s
  else if g.regs then s
  else s.performEff core hint (some id) e
/-- One lane's access: it performs here, or its requests to peers are sent, with which its runs here perform (06 R204). -/
def State.storeRuns (s : State) (e : Env) (o : StoreOp) (a : LaneAcc) : State :=
  if a.segs.any Seg.remote then s.sendAccess e.w.id a.lane a.segs (nearRuns (o.bytes a) 0 a.segs) (o.req a)
  else (a.segs.zip (o.effs a)).foldl (fun s (g, x) => s.storeIo e.w.id e.w.core o.f.hint g x) s
/-- May a fabric or I/O store go: the warp is non-speculative but for remote stores to the same target (06 R196, 09 R316), and in careful mode for
nothing (R309)? -/
def Warp.storeMayGo (w : Warp) (gs : List Seg) : Bool :=
  w.settled || (!w.careful && { w with remoteOpen := 0 }.settled && w.remoteTarget.isSome && gs.all (fun g => g.remote) &&
    farTargets gs == w.remoteTarget.toList)
/-- A fabric or I/O store or reduction (R196): its lanes in order, as far as they may go without an acknowledgement; the others wait for it. -/
def State.storeFar (s : State) (e : Env) (o : StoreOp) (done : State → Env → State) (as : List LaneAcc) : State :=
  if as.isEmpty then done s e
  else
    let now := s.nextBatch as
    if !e.w.storeMayGo (allSegs now) then s.stall e.w
    else if decide (32 ≤ s.outstanding e.w) then s.limit e.w
    else s.ownLines e ((allSegs now).filter fun g => !g.remote) fun s =>
      if now.length < as.length then now.foldl (fun s a => s.storeRuns e o a) (s.keepGoing e as (now.map fun a => (a.lane, [])))
      else (now.foldl (fun s a => s.storeRuns e o a) (done s e)).modWarp e.w.id fun w => { w with spec := { w.spec with nextSeq := w.spec.nextSeq + 1 } }
/-- A store whose lanes have been checked: its entries enter the store buffer as one access, or it goes to its peers and I/O pages at once. -/
def State.storeGo (s : State) (e : Env) (o : StoreOp) (done : State → Env → State) (as : List LaneAcc) : State :=
  if (allSegs as).any Seg.far || s.resumed e then s.storeFar e o done as
  else if as.isEmpty then done s e
  else if e.w.remoteOpen != 0 || (e.w.careful && !e.w.spec.window.isEmpty) then s.stall e.w
  else if decide (32 ≤ s.outstanding e.w) then s.limit e.w
  else done s { e with w := e.w.enqueue fun q => .store q o.f.hint (as.flatMap o.effs) }
/-- A store (06 R196, R198): every lane is checked, then its entries enter the store buffer as one access. -/
def State.memStore (s : State) (o : StoreOp) : State :=
  s.onWarp fun e =>
    let ex := s.exec e.w o.f.ga o.f.gb
    s.planned e o.use o.h (o.args e) (ex.filter fun l => (e.w.lane l).got.isNone) fun s as => s.storeGo e o (fun s e => s.finishStore e o ex) as

end Sys2Proof.Machine
end

