-- ==== Sys2Proof/Machine/Agents.lean ====
section
/-! DEFINITION. Reads and writes that the Anvil, the Tongs, the ray engines, the Crucible and the copy engines make for a launch (06 R216, R217;
07 R247, R249). -/
namespace Sys2Proof.Machine

/-- Why an agent cannot read: the access itself, or data with an error (10 R342). -/
inductive ReadFail where
  | acc (f : AccFault)
  | bad (va : W64) (reason : Nat)
  deriving DecidableEq, Repr

/-- What has come from a peer for an agent's read of a run at a fabric address: the bytes, or the reason of the error that the read met. -/
def State.fetchedAt (s : State) (a : FaultAgent) (pa n : Nat) : Option (Nat ⊕ List Byte) :=
  (s.fetched.find? fun x => x.1 == a && x.2.1 == pa && (match x.2.2 with | .inl _ => true | .inr bs => decide (n ≤ bs.length))).map (·.2.2)
/-- The fabric address of a run on another package. -/
def Seg.farPa (g : Seg) : Option Nat := match g.loc with | .pa a => if isFabric a then some a else none | _ => none
/-- The bytes of a run as an agent reads them. -/
def State.runBytes (s : State) (w : Who) (g : Seg) : List Byte :=
  match g.farPa with
  | none => s.segBytes g
  | some pa => match s.fetchedAt w.agent pa g.n with
    | some (.inr bs) => bs.take g.n
    | _ => List.replicate g.n 0
/-- The runs of a range, cut at page boundaries, translated for a use. -/
def State.reach (s : State) (w : Who) (u : Use) (shadow : Bool) (va : W64) (n : Nat) : Except AccFault (List Seg) :=
  (runsOf (n / 4096 + 2) va n).mapM fun r => match s.stepWindow w .plain r with
    | .error e => .error e
    | .ok loc => s.stepXlate w u shadow r loc
/-- The first error that a read of runs meets: in lines of this package, or at the peer that holds them (10 R342; 13 R426). -/
def State.readError (s : State) (w : Who) (gs : List Seg) : Option (W64 × Nat) :=
  match s.errorIn gs with
  | some x => some x
  | none => gs.findSome? fun g => match g.farPa.bind fun pa => s.fetchedAt w.agent pa g.n with
    | some (.inl r) => some (g.va, r)
    | _ => none
/-- A fault of a translation as an agent meets it. -/
def AccFault.read (f : AccFault) : ReadFail := match f with | .bad r va => .bad va r | f => .acc f
/-- A range is read by an agent: its runs, or why not. -/
def State.reachRead (s : State) (w : Who) (va : W64) (n : Nat) : Except ReadFail (List Seg) :=
  match s.reach w .read false va n with
  | .error f => .error f.read
  | .ok gs => match s.readError w gs with
    | some (a, r) => .error (.bad a r)
    | none => .ok gs
/-- The bytes of the runs of a read. -/
def State.reachBytes (s : State) (w : Who) (gs : List Seg) : List Byte := gs.flatMap (s.runBytes w)
/-- Several ranges, in order; the first failure. -/
def State.reachAll (s : State) (w : Who) (rs : List (W64 × Nat)) : Except ReadFail (List (List Seg)) :=
  rs.mapM fun r => s.reachRead w r.1 r.2

/-- The fault of an agent that is with its service. -/
def State.agentWait (s : State) (a : FaultAgent) : Option FaultWait := s.faultWaits.find? fun f => f.agent == a
/-- Has the service reported failure for an agent? -/
def State.agentFailed (s : State) (a : FaultAgent) : Option FaultWait := s.faultWaits.find? fun f => f.agent == a && f.place == .failed
/-- Does an agent wait for its service? -/
def State.agentBusy (s : State) (a : FaultAgent) : Bool := s.faultWaits.any fun f => f.agent == a && f.place != .failed && f.place != .ats
/-- Has the service reported failure for a page of an agent's fault? -/
def State.failedAt (s : State) (a : FaultAgent) (va : W64) : Bool :=
  s.faultWaits.any fun f => f.agent == a && f.place == .failed && f.va.toNat / 4096 == va.toNat / 4096
/-- A fault of an agent is passed to the service without a permit (12 R381). -/
def State.serveAgent (s : State) (a : FaultAgent) (l : Launch) (q : ServedFault) (core slot : Nat) : State :=
  if s.agentBusy a then s else ((s.dropHeld l.hdr.pasid q.va).serve a l.hdr.pasid q l.id core slot).1
/-- An agent has no more use for its service's answer, nor for what came to it from peers. -/
def State.dropWait (s : State) (a : FaultAgent) : State :=
  { s with faultWaits := s.faultWaits.filter (fun f => f.agent != a), fetched := s.fetched.filter fun x => x.1 != a }

/-- Cause, reason and address of a fault that cannot be served, or after its service reported failure. -/
def ReadFail.trap (aux : Option W64) : ReadFail → Trap
  | .acc f => { f.trap 0 aux with aux := aux, served := none, fatal := true }
  | .bad va r => { cause := 0xF, reason := r, lane := 0, info := va, aux := aux, fatal := true }
/-- The fault to be served, if it is one. -/
def ReadFail.served? : ReadFail → Option ServedFault
  | .acc (.served q) => some q
  | _ => none

/-- A read request of an agent for bytes of a peer (06 R216): its answer is kept for the agent. -/
def State.sendFetch (s : State) (a : FaultAgent) (prio pa n : Nat) : State :=
  let t := targetOf pa
  let rid := s.ctr.remote
  { s.sendPacket ⟨s.pkg, t, 0, prio, pa % 2 ^ 44, n, none, 0, 0, rid, .load⟩ with
    ctr := { s.ctr with remote := rid + 1 }
    remotes := s.remotes ++ [⟨rid, 0, t, s.clock, true, 67, 0, BitVec.ofNat 64 pa, 0, 0, none, [], [], 0, some a⟩] }
/-- The runs on other packages whose bytes have not come: those not yet asked for are asked for. None when all is there. -/
def State.fetchRuns (s : State) (a : FaultAgent) (prio : Nat) (gs : List Seg) : Option State :=
  let far := (gs.filterMap fun g => g.farPa.map fun pa => (pa, g.n)).filter fun x => (s.fetchedAt a x.1 x.2).isNone
  if far.isEmpty then none
  else some (far.foldl (fun s x => if s.remotes.any fun r => r.reader == some a && r.va == BitVec.ofNat 64 x.1 then s else s.sendFetch a prio x.1 x.2) s)
/-- What must come before an agent uses runs: a scratchpad page is pinned, the ingress atomic cache gives its line up, the host gives up a line that
is written, a peer sends what is read there, a test of a line ends (10 R326; 12 R411; 13 R413, R427). None when nothing must. -/
def State.agentPrep (s : State) (w : Who) (reads writes : List Seg) : Option State :=
  match (reads ++ writes).findSome? fun g => s.unpinned g.loc g.n with
  | some (b, p) => some (s.propose .scratchpadPin (.two b p))
  | none => match s.ingressHeld (reads ++ writes) with
    | some line => some (s.propose .atomicCacheRecall (.id line))
    | none => if (reads ++ writes).any fun g => s.underTest g.loc g.n then some s else match writes.findSome? fun g => s.hostLine g.loc g.n with
      | some line => some (s.backInvalidate line)
      | none => s.fetchRuns w.agent w.launch.hdr.prio reads
/-- The runs of a read are used: their translations, and their lines at the home slices (10 R335, R337); `hint` is that of 03 R92. -/
def State.useReads (s : State) (hint : Nat) (gs : List Seg) : State := gs.foldl (fun s g => s.homeLoad hint g.loc g.n) (s.useSegs gs)

/-- A warp in residence or in a saved context. -/
def State.anyWarp? (s : State) (id : Nat) : Option Warp :=
  match s.warp? id with
  | some w => some w
  | none => (s.contexts.flatMap (·.warps)).find? fun w => w.id == id
/-- Changes a warp in residence or in a saved context. -/
def State.modAnyWarp (s : State) (id : Nat) (f : Warp → Warp) : State :=
  let g (w : Warp) : Warp := if w.id = id then f w else w
  { s with warps := s.warps.map g, contexts := s.contexts.map fun c => { c with warps := c.warps.map g } }

/-- A granule that an engine writes to another package, counted for its warp and none of its threads (06 R229). -/
def State.sendGranule (s : State) (cmd warp : Nat) (va : W64) (pa : Nat) (xs : List Byte) : State :=
  let s := s.ensureFlow warp
  let (flow, interval, prio) := match s.anyWarp? warp with | some w => (w.flow, w.interval, w.prio) | none => (0, 0, 0)
  let t := targetOf pa
  let rid := s.ctr.remote
  let s : State := { s.sendPacket ⟨s.pkg, t, 0, prio, pa % 2 ^ 44, xs.length, none, flow, interval % 256, rid, .granule xs⟩ with
    ctr := { s.ctr with remote := rid + 1 }
    remotes := s.remotes ++ [⟨rid, warp, t, s.clock, false, 64, 0, va, flow, interval, some cmd, [], [], 0, none⟩] }
  s.modAnyWarp warp fun w => { w with sent := countSent w.sent 64 flow interval t }
/-- A run cut into granules: offset and bytes of each. -/
def granulesOf (xs : List Byte) : List (Nat × List Byte) := (chunksOf 16 xs.length xs).zipIdx.map fun (g, i) => (16 * i, g)
/-- A destination run takes its bytes: at the home of its lines, or as granules sent to its package. -/
def State.engineWrite (s : State) (cmd warp : Nat) (full : Bool) (g : Seg) (xs : List Byte) : State :=
  match g.loc with
  | .pa a =>
    if isFabric a then (granulesOf xs).foldl (fun s x => s.sendGranule cmd warp (g.va + BitVec.ofNat 64 x.1) (a + x.1) x.2) s
    else if g.regs then s else s.writeSite none none g.loc xs
  | .sp b o =>
    let s := s.writeSite none none g.loc xs
    if full then s.setGranules b (o / 16) (ceilDiv xs.length 16) true else s
  | .acc _ _ => s.writeSite none none g.loc xs
/-- Bytes over the runs of a destination. -/
def State.engineWrites (s : State) (cmd warp : Nat) (full : Bool) : List Seg → List Byte → State
  | [], _ => s
  | g :: gs, xs => (s.engineWrite cmd warp full g (xs.take g.n)).engineWrites cmd warp full gs (xs.drop g.n)
/-- Some of what is left to move, and the rest: how much of it and which is open (06 R215, R216; log entry 13). -/
def State.someOf {α : Type} (s : State) (xs : List α) : List α × List α :=
  let k := s.pick (2 ^ 78 + 1) % xs.length
  let n := 1 + s.pick (2 ^ 78 + 2) % xs.length
  ((xs.drop k ++ xs.take k).take n, (xs.drop k ++ xs.take k).drop n)
/-- Is a write of a command to another package not acknowledged yet? -/
def State.unacked (s : State) (cmd : Nat) : Bool := s.remotes.any fun r => r.cmd == some cmd

/-! ### Buffered regions (06 R221, R223, R224) -/

/-- The region on the engine's side. -/
def State.region (s : State) (desc : Nat) : Region := (s.regions.find? fun r => r.desc == desc).getD ⟨desc, [], none⟩
/-- Changes a region. -/
def State.putRegion (s : State) (r : Region) : State := { s with regions := (s.regions.filter fun x => x.desc != r.desc) ++ [r] }
/-- The descriptor of the region of an address, without a fault. -/
def State.regionAt (s : State) (l : Launch) (va : W64) : Option Nat :=
  match s.xlate l .write true true va with
  | .ok m => m.buf
  | .error _ => none
/-- The regions that shadow writes of ranges reach, as far as they can be told. -/
def State.regionsAt (s : State) (l : Launch) (vas : List W64) : List Nat := dedup (vas.filterMap (s.regionAt l))
/-- The regions of runs, each once. -/
def regionsOf (gs : List Seg) : List Nat := dedup (gs.filterMap (·.buf))
/-- The one region that runs lie in; none if they lie in several or in none. -/
def oneRegion (gs : List Seg) : Option Nat :=
  match dedup (gs.map (·.buf)) with
  | [some d] => some d
  | _ => none
/-- Granules of a region that shadow writes reach. -/
def State.markRegion (s : State) (desc : Nat) (gs : List Seg) : State :=
  let vbase := bits (s.numPa desc 64) 127 64
  let r := s.region desc
  let new := (gs.filter fun g => g.buf == some desc).flatMap fun g => (List.range (ceilDiv g.n 16)).map fun i => (g.va.toNat - vbase) / 16 + i
  s.putRegion { r with written := dedup (r.written ++ new) }
/-- Granules that shadow writes reach, in each of their regions. -/
def State.markWritten (s : State) (gs : List Seg) : State := (regionsOf gs).foldl (fun s d => s.markRegion d gs) s
/-- A shadow write into a region ended with another status than DONE (06 R224). -/
def State.spoil (s : State) (desc st : Nat) : State :=
  let r := s.region desc
  s.putRegion { r with spoil := some (r.spoil.getD (BitVec.ofNat 8 st)) }

end Sys2Proof.Machine
end

