-- ==== Sys2Proof/Machine/Codec.lean ====
section
/-! DEFINITION. The exponent-table codec (10 R344 to R348): table images, coding a block, expanding a block. -/
namespace Sys2Proof.Machine

/-- Element formats of a block: width in bytes, mantissa bits, exponent bits (10 R344, R346). -/
structure CodecFmt where
  code : Nat
  w : Nat
  m : Nat
  x : Nat
  deriving DecidableEq, Repr

/-- EW of a header. -/
def CodecFmt.ofCode : Nat → Option CodecFmt
  | 0 => some ⟨0, 2, 7, 8⟩
  | 1 => some ⟨1, 2, 10, 5⟩
  | 2 => some ⟨2, 4, 23, 8⟩
  | _ => none
/-- Bits of a sign-and-mantissa entry. -/
def CodecFmt.f (t : CodecFmt) : Nat := t.m + 1
/-- Elements of a block at most. -/
def CodecFmt.maxEl (t : CodecFmt) : Nat := if t.w = 4 then 32 else 64

/-- A code: symbol, length, value. -/
structure CodecCode where
  sym : Nat
  len : Nat
  val : Nat
  deriving DecidableEq, Repr

/-- The canonical codes of a table image (10 R345). -/
def codecCodes (image : List Byte) : List CodecCode :=
  let of (n : Nat) : List Nat := (List.range 256).filter fun s => (image.getD s 0).toNat % 16 == n
  ((List.range 15).foldl (fun (p : List CodecCode × Nat) i =>
    (of (i + 1)).foldl (fun (q : List CodecCode × Nat) s => (q.1 ++ [⟨s, i + 1, q.2⟩], q.2 + 1)) (p.1, p.2 * 2)) ([], 0)).1

/-- Exponent of an element. -/
def CodecFmt.expOf (t : CodecFmt) (e : Nat) : Nat := e / 2 ^ t.m % 2 ^ t.x
/-- Sign and mantissa of an element. -/
def CodecFmt.smOf (t : CodecFmt) (e : Nat) : Nat := e % 2 ^ t.m + e / 2 ^ (t.m + t.x) % 2 * 2 ^ t.m
/-- An element of its sign and mantissa and its exponent. -/
def CodecFmt.join (t : CodecFmt) (sm ex : Nat) : Nat := sm % 2 ^ t.m + ex * 2 ^ t.m + sm / 2 ^ t.m * 2 ^ (t.m + t.x)

/-- The code values of a list of symbols appended to a bit stream held as a number with its length; none where a symbol has no code. -/
def codeSyms (codes : List CodecCode) (bits len : Nat) : List Nat → Option (Nat × Nat)
  | [] => some (bits, len)
  | s :: ss => match codes.find? fun c => c.sym == s with
    | none => none
    | some c =>
      let b := (List.range c.len).foldl (fun b i => if c.val.testBit (c.len - 1 - i) then b + 2 ^ (len + i) else b) bits
      codeSyms codes b (len + c.len) ss
/-- A block of elements as coded by a slot (10 R346, R347). -/
def codecBlock (t : CodecFmt) (slot gen : Nat) (image : List Byte) (els : List Nat) : List Byte :=
  let raw := els.length * t.w * 8
  let head := (els.zipIdx.map fun (e, i) => t.smOf e * 2 ^ (i * t.f)).foldl (fun a b => a + b) 0
  let coded := (codeSyms (codecCodes image) head (els.length * t.f) (els.map t.expOf)).filter fun c => decide (c.2 < raw)
  let hdr (rawBit units : Nat) : List Byte :=
    leBytes 16 (t.code + rawBit * 4 + slot * 8 + gen % 256 * 2 ^ 8 + (els.length - 1) * 2 ^ 16 + units * 2 ^ 24)
  match coded with
  | some (bits, len) => let u := max 1 (ceilDiv len 128); hdr 0 u ++ leBytes (u * 16) bits
  | none => let u := ceilDiv raw 128; hdr 1 u ++ leBytes (u * 16) (leNat (els.flatMap fun e => leBytes t.w e))

/-- One symbol read from bit `p`; `fuel` bounds the length of a code. -/
def readSym (codes : List CodecCode) (bits : Nat) : Nat → Nat → Nat → Nat → Option (Nat × Nat)
  | 0, _, _, _ => none
  | fuel + 1, p, len, v =>
    let v := 2 * v + (bits / 2 ^ p % 2)
    match codes.find? fun c => c.len == len + 1 && c.val == v with
    | some c => some (c.sym, p + 1)
    | none => readSym codes bits fuel (p + 1) (len + 1) v
/-- Symbols read one after another. -/
def readSyms (codes : List CodecCode) (bits : Nat) : Nat → Nat → Option (List Nat × Nat)
  | 0, p => some ([], p)
  | n + 1, p => match readSym codes bits 15 p 0 0 with
    | none => none
    | some (s, p) => match readSyms codes bits n p with
      | none => none
      | some (ss, q) => some (s :: ss, q)

/-- A block's header as a number: slot, generation, payload bytes. -/
def blockSlot (h : Nat) : Nat := bits h 5 3
/-- Generation of a header. -/
def blockGen (h : Nat) : Nat := bits h 15 8
/-- Payload bytes of a header. -/
def blockPayload (h : Nat) : Nat := bits h 31 24 * 16
/-- The elements' bytes of a block, given its header and payload; none for a size mismatch (10 R348). -/
def expandBlock (image : List Byte) (h : Nat) (payload : List Byte) : Option (List Byte) :=
  match CodecFmt.ofCode (bits h 1 0) with
  | none => none
  | some t =>
    let n := bits h 22 16 + 1
    let clen := bits h 31 24
    let x := leNat payload
    if bits h 127 32 ≠ 0 ∨ bits h 23 23 ≠ 0 ∨ bits h 7 6 ≠ 0 ∨ clen < 1 ∨ 12 < clen ∨ t.maxEl < n then none
    else if bits h 2 2 = 1 then
      if clen ≠ ceilDiv (n * t.w) 16 ∨ x / 2 ^ (8 * n * t.w) ≠ 0 then none else some (payload.take (n * t.w))
    else
      match readSyms (codecCodes image) x n (n * t.f) with
      | none => none
      | some (syms, p) =>
        if clen * 128 < p ∨ p + 128 ≤ clen * 128 ∨ x / 2 ^ p ≠ 0 ∨ syms.any (fun s => decide (2 ^ t.x ≤ s)) then none
        else some ((syms.zipIdx).flatMap fun (s, i) => leBytes t.w (t.join (x / 2 ^ (i * t.f) % 2 ^ t.f) s))

/-- The slot of a port: generation and image; zeros until loaded (06 R228). -/
def Codec.slot (c : Codec) (port slot : Nat) : Nat × List Byte :=
  match c.tables.find? fun t => t.port == port && t.slot == slot with
  | some t => (t.gen, t.image)
  | none => (0, List.replicate 256 0)

end Sys2Proof.Machine
end

