-- ==== Sys2Proof/Machine/Fetch.lean ====
section
/-! DEFINITION. Fetching and decoding the instruction of a path, and what holds it back before it acts: a pending asynchronous trap,
the end of a lookahead window, a lookahead violation (03 R86 to R89, R94 to R98; 05 R154; 06 R217). -/
namespace Sys2Proof.Machine

/-- What a step does next: runs an instruction or event from a state, or only changes the state. -/
inductive Prep where
  | run (i : Instr) (s : State)
  | quiet (s : State)

/-- A word that could not be fetched: a failed check, an error in the line (10 R342), a scratchpad page that must be pinned first (R326), a line that is
being tested (12 R411). -/
inductive FetchFail where
  | fault (f : AccFault)
  | error (reason : Nat) (va : W64)
  | unpinned (block page : Nat)
  | tested
  deriving DecidableEq, Repr

/-- The words that a block may still fetch at a place instead of the present one: those that stores replaced since its launch was dispatched or the block
dropped its fetched words (03 R95; log entry 12). -/
def State.oldWords (s : State) (block : Nat) (l : Loc) : List W64 :=
  match s.block? block with
  | some b => ((s.oldCode.drop b.codeFrom).filter fun x => x.1 == l).map (·.2)
  | none => []

/-- One word at a byte address: translated with execute access and no lease check (03 R94, 11 R359); a word that a store has replaced may come instead (03
R95). From a page of another package a free word comes, and no request is sent: 13 R425 names no fetch among the remote accesses (log entry 78). -/
def State.fetchWord (s : State) (w : Who) (va : W64) : Except FetchFail (W64 × State) :=
  let keep (l : Loc) (x : W64) (s : State) : Except FetchFail (W64 × State) :=
    let olds := s.oldWords w.block l
    .ok (if olds.isEmpty then x else (olds ++ [x]).getD (s.pick (va.toNat + 2 ^ 64) % (olds.length + 1)) x, s)
  if !canonical va then .error (.fault (.page 1 va))
  else if inWindow va then
    match s.windowLoc w va 8 with
    | .error f => .error (.fault f)
    | .ok loc => match s.unpinned loc 8 with
      | some (b, p) => .error (.unpinned b p)
      | none => match s.errorAt loc 8 with
        | some (_, r) => .error (.error r va)
        | none => if s.underTest loc 8 then .error .tested else keep loc (wordOfBytes (s.readLoc loc 8)) (s.touchPages loc 8)
  else match s.xlate w.launch .fetch false false va with
    | .error f => .error (.fault f)
    | .ok m =>
      match s.errorAt (.pa m.pa) 8 with
      | some (_, r) => .error (.error r va)
      | none => if s.underTest (.pa m.pa) 8 then .error .tested else
        let x := if isFabric m.pa then BitVec.ofNat 64 (s.pick va.toNat) else wordOfBytes (s.readPa m.pa 8)
        keep (.pa m.pa) x ((s.useSeg (m.seg va 8)).homeLoad 0 (.pa m.pa) 8)

/-- The words of the instruction at a word address; the second is fetched only after a `10` word (03 R73, R94). -/
def State.fetchInstr (s : State) (w : Who) (pc : Pc) : Except FetchFail (W64 × W64 × State) :=
  match s.fetchWord w pc.addr with
  | .error f => .error f
  | .ok (x, s) =>
    if formatOf x = 2 then
      match s.fetchWord w (pc + 1).addr with
      | .error f => .error f
      | .ok (y, s) => .ok (x, y, s)
    else .ok (x, 0, s)

/-- The trap of a fetch that failed: precise, naming the instruction's first word (03 R94). -/
def FetchFail.trap (f : FetchFail) (lane : Nat) : Trap :=
  match f with
  | .fault f => { f.trap lane none with fetch := true }
  | .error r va => { cause := 0xF, reason := r, lane := lane, info := va, fatal := true, fetch := true }
  | .unpinned _ _ => { cause := 0xF, reason := 5, lane := lane, info := 0, fatal := true, fetch := true }
  | .tested => { cause := 0xF, reason := 5, lane := lane, info := 0, fatal := true, fetch := true }

/-- The trap of words that do not decode (03 R97). -/
def decodeTrap (t : DTrap) (lane : Nat) : Trap := { cause := t.cause, reason := t.reason, lane := lane, info := t.info, aux := t.aux }

/-- What decoding depends on for an instruction of a launch. -/
def State.decCtx (s : State) (matrix : Bool) (l : Launch) : DecCtx := ⟨matrix, l.hdr.regs, l.hdr.lanes, s.features.getD 0⟩

/-- The opcodes before which every open window ends: the control group, the system group, `sprrd` and `sprwr` (03 R86). -/
def endsWindows (op : Nat) : Bool := decide (0x0C0 ≤ op ∧ op ≤ 0x0DF) || decide (0x180 ≤ op ∧ op ≤ 0x19F) || op == 0x08F || op == 0x090
/-- Does an instruction end every open window? -/
def instrEnds (i : Instr) : Bool :=
  match i.enc with | some (.std op _) => endsWindows op | some (.ext op _) => endsWindows op | _ => false
/-- The marker of an instruction's length and count: 0 for a compact pair, else its words. -/
def instrMark (i : Instr) : Nat := match i.enc with | some (.pair _) => 0 | some (.ext _ _) => 2 | _ => 1

/-- Reason and index of a register written twice (03 R88). -/
def Dest.code : Dest → Nat × Nat
  | .v k => (1, k) | .p k => (2, k) | .u k => (3, k) | .bn k => (4, k)

/-- A lookahead violation: the long instruction and the register written twice, and the lowest lane that violates (03 R87, R88; 01 R40). Of several long
instructions the oldest of that lane is named, of several registers the first in the order of the instruction's fields (log entry 78). -/
def Warp.violation (w : Warp) (act : List Nat) (dests : List Dest) : Option (LongOp × Dest × Nat) :=
  act.findSome? fun l => (w.longs.filter fun o => o.left.any fun q => q.1 == l).findSome? fun o => (dests.find? o.dests.contains).map fun d => (o, d, l)

/-- The instruction may act in the lanes of a path whose windows allow it; the other lanes wait (03 R86). One that reads a register-file row with an
uncorrectable error traps (12 R377, R379). -/
def State.issueChecked (s : State) (e : Env) (i : Instr) : Prep :=
  let ends := instrEnds i
  let act := s.act e.w
  let w := (act.foldl (fun w l => w.closeLane l ends) e.w).dropLongs
  let wait := act.filter fun l => w.longPending l ends
  let w := w.modLanes wait fun t => { t with wait := .long }
  let rest := act.filter fun l => !wait.contains l
  let s := { s with cur := { s.cur with lanes := maskOf rest, words := (instrMark i) } }.putWarp w
  if rest.isEmpty then .quiet s
  else if (instrReads i).any fun d => match d with | .v k => w.badRows.contains k | _ => false then
    .quiet (s.raise { e with w := w } { cause := 0xF, reason := 4, lane := rest.headD 0, info := 0, fatal := true })
  else match w.violation rest (instrDests i) with
    | none => .run i (s.modLaunch e.l.id fun l => { l with issued := true })
    | some (o, d, l) =>
      if o.done then
        .quiet (s.raise { e with w := w } { cause := 3, reason := d.code.1, lane := l, info := o.addr, aux := some (BitVec.ofNat 64 d.code.2) })
      else .quiet (s.putWarp (w.modLanes rest fun t => { t with wait := .long }))

/-- May an asynchronous trap be delivered to a warp (01 R27)? -/
def Warp.asyncDue (w : Warp) : Bool := !w.asyncs.isEmpty && !w.regs.trap.masked

/-- Threads that go on together: where some have begun an instruction that performs in parts, those of the first such issue. -/
def Warp.together (w : Warp) (ls : List Nat) : List Nat :=
  match ls.findSome? fun l => (w.lane l).plan with
  | some p => ls.filter fun l => (w.lane l).plan.any fun q => q.tag == p.tag
  | none => ls
/-- The lanes of a path that can still issue: ready threads at the path's program counter (05 R154). -/
def Warp.pathLanes (w : Warp) (i : Issue) : List Nat :=
  w.together ((w.active i.lanes).filter fun l => (w.lane l).ready && (w.lane l).pc == i.pc)
/-- Does a core exchange its banks, so that a path issues only to perform what it owes (11 R371)? -/
def State.swapHolds (s : State) (w : Warp) (ls : List Nat) : Bool := (s.core w.core).phase == .swap && !ls.any fun l => (w.lane l).owes
/-- The words of a path's instruction: those of its issue where it performs in parts, else as fetched. -/
def State.pathWords (s : State) (e : Env) (ls : List Nat) (pc : Pc) : Except FetchFail (W64 × W64 × State) :=
  match ls.findSome? fun l => (e.w.lane l).plan with
  | some p => .ok (p.words.1, p.words.2, s)
  | none => s.fetchInstr e.who pc

/-- Does a rollback of a warp wait for a line that its trace record needs (13 R413)? Nothing else happens to the warp before it (09 R306). -/
def State.rollBlocked (s : State) (id : Nat) : Bool := s.blocked.any fun m => match m with | (.rollback, .two w _) => w == id | _ => false
/-- A path of a warp takes its turn; one that may not share it with the path that has issued issues at the warp's next turn (05 R156). -/
def State.issueWarp (s : State) (i : Issue) : Prep :=
  let s := { s with cur := { i with words := 1 } }
  match s.env with
  | none => .quiet s
  | some e =>
    let lanes := e.w.pathLanes i
    let s := { s with cur := { i with words := 1, lanes := maskOf lanes, quota := s.pick (2 ^ 79) % 64 } }
    if lanes.isEmpty || e.w.fatal.isSome || e.w.off || e.w.spec.sending != 0 || s.rollBlocked e.w.id || e.l.phase != .live || e.l.halting || s.swapHolds e.w lanes then .quiet s
    else if e.w.asyncDue && lanes.all (fun l => (e.w.lane l).plan.isNone) then
      .quiet (if e.w.settled && e.w.longsDone && !e.w.owing lanes then s.propose .asyncTrapDelivery (.id e.w.id) else s.stall e.w)
    else match e.b.poolFault with
    | some (r, va) => .quiet (s.raise e { cause := 0xF, reason := r, lane := lanes.headD 0, info := va, fatal := true, fetch := true })
    | none =>
      match s.pathWords e lanes i.pc with
      | .error f =>
        .quiet (match f with
          | .fault (.ats va) => (s.askHost (.warp e.w.id) e.l .fetch va e.w.core e.w.slot).disable e.w
          | .fault (.served q) => (s.dropHeld e.l.hdr.pasid q.va).raise e (f.trap (lanes.headD 0))
          | .unpinned b p => (s.propose .scratchpadPin (.two b p)).stall e.w
          | .tested => s.stall e.w
          | _ => s.raise e (f.trap (lanes.headD 0)))
      | .ok (x, y, s) =>
        let s := { s with cur := { s.cur with words := wordsAt x, code := (x, y) } }
        match decode (s.decCtx false e.l) x y with
        | .error t => .quiet (s.raise e (decodeTrap t (lanes.headD 0)))
        | .ok ins =>
          if (s.taking.bind (·.first)).any fun j => turnConflict j.2 ins then .quiet (s.putWarp { e.w with deferred := some i.pc })
          else s.issueChecked e ins

/-- A matrix stream takes its turn: one instruction at a time, with no lookahead and no speculation (07 R233). -/
def State.issueStream (s : State) (i : Issue) : Prep :=
  let s := { s with cur := { i with words := 1 } }
  match s.senv with
  | none => .quiet s
  | some e =>
    if e.x.exited || e.x.failed || e.x.fatal.isSome || e.x.wait != .none || e.l.phase != .live || e.l.halting || (s.core e.b.core).phase == .swap then .quiet s
    else
      match s.fetchInstr e.who e.x.pc with
      | .error f =>
        .quiet (match f with
          | .fault g => s.faultStream e .fetch none g
          | .unpinned b p => (s.propose .scratchpadPin (.two b p)).stallStream e
          | .tested => s.stallStream e
          | _ => s.raiseStream e (f.trap 0))
      | .ok (x, y, s) =>
        match decode (s.decCtx true e.l) x y with
        | .error t => .quiet (s.raiseStream e (decodeTrap t 0))
        | .ok ins => .run ins ({ s with cur := { s.cur with words := (instrMark ins) } }.modLaunch e.l.id fun l => { l with issued := true })

/-- A turn: a path of a warp or a matrix stream. -/
def State.issue (s : State) (i : Issue) : Prep := if i.stream then s.issueStream i else s.issueWarp i

end Sys2Proof.Machine
end

