-- ==== Sys2Proof/Machine/Lifecycle.lean ====
section
/-! DEFINITION. What ends and what is released by it: barrier phases and deadlock (05 R168 to R170), retire counts (R181), handlers (R184; 12 R382),
warps and blocks that retire (R165), accumulator reservations (07 R239). -/
namespace Sys2Proof.Machine

/-! ### Barriers -/

/-- Changes the warps of a block. -/
def State.modBlockWarps (s : State) (b : Nat) (f : Warp → Warp) : State :=
  { s with warps := s.warps.map fun w : Warp => if w.block = b then f w else w }
/-- The warps of a block. -/
def State.blockWarps (s : State) (b : Nat) : List Warp := s.warps.filter fun w => w.block == b
/-- A lane that was released from the standard word it waits at goes on after it. -/
def Lane.release (t : Lane) : Lane := { t.fresh with pc := t.pc + 1 }
/-- Releases the lanes of a warp that wait as a test says. -/
def Warp.releaseLanes (w : Warp) (p : Lane → Bool) : Warp := w.onLanes p Lane.release
/-- A phase of barrier `k` has ended: every waiter of the old phase goes on (05 R168). -/
def State.releaseBar (s : State) (b k : Nat) (old : Bool) : State :=
  let s := s.modBlockWarps b fun w => w.releaseLanes fun t => t.wait == .bar k old
  s.modBlock b fun b => { b with stream := b.stream.map fun x : Stream => if x.wait = .bar k old then { x with wait := .none, pc := x.pc + 1 } else x }
/-- Arrivals at a barrier; a full count flips the phase (05 R168). -/
def State.arrive (s : State) (b k n : Nat) : State :=
  match (s.block? b).bind fun b => b.bars[k]? with
  | none => s
  | some bar =>
    let full := bar.a + n == bar.e
    let bar' : Bar := if full then { bar with a := 0, phase := !bar.phase } else { bar with a := bar.a + n }
    let s := s.modBlock b fun b => { b with bars := b.bars.set k bar' }
    if full then s.releaseBar b k bar.phase else s
/-- Does a thread wait in `bar`? -/
def Lane.inBar (t : Lane) : Option Nat := match t.wait with | .bar k _ => some k | _ => Option.none
/-- Does a stream wait in `bar`? -/
def Stream.inBar (x : Stream) : Option Nat := match x.wait with | .bar k _ => some k | _ => none

/-- Deadlock (05 R169): every thread of the block that has not exited, and its stream unless it has exited, waits in `bar`. -/
def State.deadlocked (s : State) (b : Block) : Bool :=
  let threads := (s.blockWarps b.id).flatMap fun w => w.live.map w.lane
  let stream := match b.stream with | some x => x.exited || x.inBar.isSome | none => true
  b.pool.isEmpty && (threads.all fun t => t.inBar.isSome) && stream &&
    (!threads.isEmpty || match b.stream with | some x => x.inBar.isSome | none => false)
/-- The deadlock trap in one warp: the path of its lowest waiting lane traps. -/
def State.deadlockWarp (s : State) (w : Warp) (l : Launch) : State :=
  match w.live with
  | [] => s
  | g :: _ =>
    let pc := (w.lane g).pc
    s.raiseOn w l (w.live.filter fun i => (w.lane i).pc == pc) (some false)
      { cause := 0xD, reason := 6, lane := g, info := BitVec.ofNat 64 ((w.lane g).inBar.getD 0) } (again := false)
/-- Looks for a deadlock of a block after one of its threads has come to wait or has left. -/
def State.checkDeadlock (s : State) (block : Nat) : State :=
  match s.block? block with
  | none => s
  | some b => match s.launch? b.launch with
    | none => s
    | some l =>
      if !s.deadlocked b then s
      else match s.blockWarps block, b.stream with
        | [], some x => s.putStream block { x with
            fatal := some ⟨0xD, 6, 0, false, x.pc.addr, BitVec.ofNat 64 (x.inBar.getD 0), 0, false, s.clock, none⟩ }
        | ws, _ => ws.foldl (fun s w => s.deadlockWarp w l) s

/-! ### Retire counts (05 R181) -/

/-- The lowest WID bit above the fields f0 to fk (01 R29). -/
def Header.groupShift (h : Header) (k : Nat) : Nat := (h.widths.take (k + 1)).foldl (fun a b => a + b) 0
/-- RC of the level-k group of a thread. -/
def Launch.retired (l : Launch) (k : Nat) (wid : W64) : Nat :=
  countIf (fun x : W64 => x >>> l.hdr.groupShift k == wid >>> l.hdr.groupShift k) l.exits
/-- The count that an `lwait` of a thread compares, and the size of its group; a batch thread counts its own batch (11 R365). -/
def waitCount (l : Launch) (b : Block) (k : Nat) (wid : W64) : Nat × Nat :=
  if b.batch.isSome then (b.batchExits, if k = 0 then b.batchSize else 0)
  else (l.retired k wid, 2 ^ l.hdr.groupShift k)
/-- Lanes whose level wait has been met go on, those of a saved context too (05 R160). -/
def State.releaseLevels (s : State) (launch : Nat) : State :=
  match s.launch? launch with
  | none => s
  | some l =>
    s.mapWarps fun w => match s.anyBlock? w.block with
      | some b => if b.launch = launch then w.releaseLanes fun t => match t.wait with
          | .lwait k c => decide ((waitCount l b k t.wid).1 ≥ c)
          | _ => false
        else w
      | none => w

/-! ### The end of a handler (05 R184; 12 R382) -/

/-- The handler threads of a warp that have not exited. -/
def Warp.handlerLanes (w : Warp) : List Nat := w.live.filter fun l => (w.lane l).handler
/-- Every handler thread stands at an `rti`. -/
def Warp.handlerDone (w : Warp) : Bool := w.handlerLanes.all fun l => match (w.lane l).wait with | .rti _ => true | _ => false
/-- Lanes of the handler that stand at `rti.next`. -/
def Warp.nextLanes (w : Warp) : List Nat := w.handlerLanes.filter fun l => (w.lane l).wait == .rti true
/-- The handler ends: where `rti.next` needs the length of the word at TRAPPC and it is not known, it is fetched; a fault there is raised at the
`rti.next` (05 R184), which runs again after a back-off (12 R381). The trace record holds the resume address of the lowest thread (R410). A word whose translation the host holds, or whose scratchpad page holds no frame, or that is being tested, is waited for. -/
def State.endHandler (s : State) (w : Warp) : State :=
  match (s.block? w.block).bind fun b => (s.launch? b.launch).map fun l => (b, l) with
  | none => s
  | some (b, l) =>
    let low := w.handlerLanes.headD 0
    let len (s : State) (n : Nat) : State :=
      (s.putWarp (w.leaveHandler n)).traceWarp w.id none 9 0 (((w.leaveHandler n).lane low).pc.setWidth 54) (w.lane low).pc
    if w.nextLanes.isEmpty then len s 1
    else match w.decodedExt with
      | some x => len s (if x then 2 else 1)
      | none =>
        match s.fetchWord ⟨l, w.core, b.id, .warp w.id⟩ (Pc.ofAddr w.regs.trap.pc).addr with
        | .ok (x, s) => len s (wordsAt x)
        | .error (.fault (.ats va)) => s.askHost (.warp w.id) l .fetch va w.core w.slot
        | .error (.unpinned b p) => s.propose .scratchpadPin (.two b p)
        | .error .tested => s
        | .error f => s.raiseOn w l w.nextLanes (some false) (f.trap (w.nextLanes.headD 0))
/-- A warp whose handler threads all stand at `rti`, or have all exited, leaves its handler unless it waits for a service. -/
def State.tryLeave (s : State) (id : Nat) : State :=
  match s.warp? id with
  | none => s
  | some w =>
    if !w.regs.trap.inHandler || !w.handlerDone || w.service.isSome then s
    else if w.handlerLanes.isEmpty then s.putWarp (w.leaveHandler 1)
    else s.endHandler w

/-- Handlers whose end waited for the word at TRAPPC look again. -/
def State.retryHandlers (s : State) : State :=
  (s.warps.filter fun w => w.regs.trap.inHandler && w.handlerDone).foldl (fun s w => s.tryLeave w.id) s

/-! ### Accumulator reservations (07 R239) -/

/-- The contexts that wait in the shadow banks of a quad's cores; their slots are taken (11 R371, R374). -/
def State.incomingTo (s : State) (quad : Nat) : List Context :=
  s.contexts.filter fun x => s.cores.any fun c => quadOf c.no == quad && c.incoming == some x.num
/-- Is a slot unreserved in a quad, or held by the block? -/
def State.slotFree (s : State) (quad block slot : Nat) : Bool :=
  let here := match s.block? block with | some b => (s.core b.core).incoming | none => none
  !((s.incomingTo quad).any fun x => some x.num != here && x.acc.any fun a : Nat × Nat × AccSlot => a.2.1 == slot) &&
  !s.quads.acc.any fun a => a.1 == quad && a.2.1 == slot && a.2.2.owner.isSome && a.2.2.owner != some block
/-- The slots of a mask. -/
def slotsOf (mask : W32) : List Nat := (List.range 32).filter fun i => mask.getLsbD i
/-- A stream that waits for a reservation tries again. -/
def State.wakeReservers (s : State) : State :=
  { s with blocks := s.blocks.map fun b : Block => { b with stream := b.stream.map fun x : Stream =>
      match x.wait with | .mres _ => { x with wait := .none } | _ => x } }
/-- Releases the slots of a block among those given, in one event: a load of them that has not performed looks again (07 R240; 09 R306). -/
def State.releaseSlots (s : State) (block : Nat) (slots : List Nat) : State :=
  let mine (a : Nat × Nat × AccSlot) : Bool := a.2.2.owner == some block && slots.contains a.2.1
  ({ s with quads := { s.quads with acc := s.quads.acc.filter fun a => !mine a } }.disturb
    ((s.quads.acc.filter mine).flatMap fun a : Nat × Nat × AccSlot => linesOf (.acc a.1 (a.2.1 * 65536)) 65536) none).wakeReservers

/-! ### Warps, blocks and streams that end (05 R165) -/

/-- Has a block nothing left to run: no warp, an empty pool, its stream ended, no Anvil operation outstanding? -/
def State.blockEnded (s : State) (b : Block) : Bool :=
  (s.blockWarps b.id).isEmpty && b.pool.isEmpty && (match b.stream with | some x => x.exited && x.fatal.isNone | none => true) &&
    !s.quads.ops.any fun o => o.block == b.id
/-- A block as it stands, its scratchpad gathered from its frames and its backing. -/
def State.gathered (s : State) (b : Block) : Block :=
  { b with scratch := Mem.write [] 0 (s.readLoc (.sp b.id 0) b.scratchBytes), feEmpty := (List.range (b.scratchBytes / 16)).filter fun g => !s.granuleFull b g
           backing := none }
/-- The places of a page in its block's backing area: its data, its full-empty bits. -/
def pageSites (a page : Nat) : Loc × Loc := (.pa (a + 4096 * page), .pa (areaBits a page))
/-- The uncorrectable error that a fill of a page meets (10 R329, R342). -/
def State.fillError (s : State) (b : Block) (page : Nat) : Option Byte :=
  b.backing.bind fun a => ((s.errorAt (pageSites a page).1 4096).or (s.errorAt (pageSites a page).2 32)).map fun x => BitVec.ofNat 8 x.2
/-- A block retires: scratchpad, barriers, reservations and backing are released. What it held is kept for a dump while engine commands of it are
outstanding, since a trap of theirs then ends the launch with a dump of this block (06 R217). -/
def State.retireBlock (s : State) (b : Block) : State :=
  let s := if s.engines.any fun c => c.block == b.id then
      let kept := s.gathered b
      s.modLaunch b.launch fun l => { l with remains := l.remains ++ [kept] }
    else s
  let s := s.releaseSlots b.id (List.range 32)
  { s with blocks := s.blocks.filter fun x => x.id != b.id
           quads := { s.quads with waiters := s.quads.waiters.filter fun w => w.2.1 != b.id }
           pools := { s.pools with backing := s.pools.backing ++ b.backing.toList } }
/-- A block that has ended retires. -/
def State.settleBlock (s : State) (id : Nat) : State :=
  match s.block? id with
  | some b => if s.blockEnded b then s.retireBlock b else s
  | none => s
/-- A warp without a live thread retires and its registers return to the quarter. -/
def State.settleWarp (s : State) (id : Nat) : State :=
  match s.warp? id with
  | some w => if w.live.isEmpty && w.fatal.isNone then { s with warps := s.warps.filter fun v => v.id != id } else s
  | none => s

/-- Threads exit (05 R165): their events count in the retire counts, waits they end go on, and what has ended retires. -/
def State.exitLanes (s : State) (e : Env) (ls : List Nat) : State :=
  let wids := ls.map fun l => (e.w.lane l).wid
  let s := if e.b.batch.isSome then s.modBlock e.b.id fun b => { b with batchExits := b.batchExits + ls.length }
           else s.modLaunch e.l.id fun l => { l with exits := l.exits ++ wids }
  let s := s.modWarp e.w.id fun w => w.modLanes ls fun t => { t with exited := true, wait := .none, query := RayQuery.empty }
  ((((s.tryLeave e.w.id).settleWarp e.w.id).releaseLevels e.l.id).checkDeadlock e.b.id).settleBlock e.b.id

end Sys2Proof.Machine
end

