-- ==== Sys2Proof/Machine/Control.lean ====
section
/-! DEFINITION. Branches, calls, exit, yield, nop, barriers, early trigger and level waits (05 R162 to R170, R180, R181; 07 R235). -/
namespace Sys2Proof.Machine

/-! ### Branches and calls -/

/-- The trace record of a stream's instruction. -/
def State.traceStream (s : State) (e : SEnv) (flag kind info : Nat) (a1 : BitVec 54) : State :=
  if e.l.hdr.trfl.getLsbD flag then s.trace e.b.core e.l.hdr.tenant ⟨kind, info, 0, e.x.pc.setWidth 54, a1⟩ else s
/-- The target of a direct branch at a program counter: the words after the instruction and the offset (03 R93). -/
def Fields.target (f : Fields) (pc : Pc) : Pc :=
  if f.ext then pc + 2 + f.imm.signExtend 61 else pc + 1 + BitVec.ofInt 61 f.imm9

/-- A branch or call of a warp (05 R163): lanes with Exec go to their target after writing the link, the others go on. `low`: the trace record
names the lowest lane. -/
def State.jump (s : State) (f : Fields) (kind : Nat) (low link : Bool) (tgt : Warp → Nat → Pc) : State :=
  s.onWarp fun e =>
    let ex := s.exec e.w f.ga f.gb
    let after (l : Nat) : W64 := ((e.w.lane l).pc + BitVec.ofNat 61 s.cur.length).addr
    let ws := if link then ex.flatMap fun l => writePair l f.d (after l) else []
    if !e.w.logRoom (destsOf ws).length then s.limit e.w
    else
      let w := (e.w.commit ws).advance s.cur (s.act e.w)
      let s := s.putWarp (ex.foldl (fun v l => v.modLanes [l] fun t => { t with pc := tgt e.w l }) w)
      match ex with
      | [] => s
      | l :: _ => s.traceWarp e.w.id (some 0) kind (if low then l else 0) ((tgt e.w l).setWidth 54) (e.w.lane l).pc
/-- A branch or call of a matrix stream (07 R235): taken if the condition holds. -/
def State.jumpStream (s : State) (kind : Nat) (link : Option Nat) (taken : SEnv → Bool) (tgt : SEnv → Pc) : State :=
  s.onStream fun e =>
    let next := e.x.advance s.cur
    if !taken e then s.putStream e.b.id next
    else
      let x := match link with | some d => next.setReg d next.pc.addr | none => next
      (s.putStream e.b.id { x with pc := tgt e }).traceStream e 0 kind 0 ((tgt e).setWidth 54)
/-- The condition of a stream's conditional branch: x(A) as a signed value against zero. -/
def Fields.condHolds (f : Fields) (e : SEnv) : Bool := condInt (f.mod % 8) (e.x.reg f.a).toInt 0
/-- An unconditional direct branch or call in either stream. -/
def State.direct (s : State) (f : Fields) (kind : Nat) (link : Bool) : State :=
  if s.cur.stream then s.jumpStream kind (if link then some f.d else none) (fun _ => true) fun e => f.target e.x.pc
  else s.jump f kind false link fun w l => f.target (w.lane l).pc
/-- A conditional branch or call of a stream. -/
def State.conditional (s : State) (f : Fields) (kind : Nat) (link : Bool) : State :=
  s.jumpStream kind (if link then some f.d else none) f.condHolds fun e => f.target e.x.pc
/-- An indirect branch, call or return. -/
def State.indirect (s : State) (f : Fields) (kind : Nat) (link : Bool) : State :=
  if s.cur.stream then s.jumpStream kind none (fun _ => true) fun e => Pc.ofAddr (e.x.reg f.a)
  else s.jump f kind true link fun w l => Pc.ofAddr (w.opA64 f l)

/-- 05 R163. -/
def execBra (w : Std) (s : State) : Answer := .next (s.direct (.ofStd w) 1 false)
/-- 05 R163. -/
def execBraExt (w : Ext) (s : State) : Answer := .next (s.direct (.ofExt w) 1 false)
/-- 07 R235. -/
def execBraCond (w : Form) (s : State) : Answer := .next (s.conditional (.ofForm w) 1 false)
/-- 05 R163. -/
def execBrx (w : Std) (s : State) : Answer := .next (s.indirect (.ofStd w) 2 false)
/-- 05 R163. -/
def execCall (w : Std) (s : State) : Answer := .next (s.direct (.ofStd w) 3 true)
/-- 05 R163. -/
def execCallExt (w : Ext) (s : State) : Answer := .next (s.direct (.ofExt w) 3 true)
/-- 07 R235. -/
def execCallCond (w : Form) (s : State) : Answer := .next (s.conditional (.ofForm w) 3 true)
/-- 05 R163: A is read before D is written. -/
def execCallx (w : Std) (s : State) : Answer := .next (s.indirect (.ofStd w) 2 true)
/-- 05 R163, R164: `brx` with its own trace record. -/
def execRet (w : Std) (s : State) : Answer := .next (s.indirect (.ofStd w) 4 false)

/-! ### Exit, yield, nop -/

/-- Acts once the warp is non-speculative (05 R158), else stalls. -/
def State.whenSettled (s : State) (k : Env → State) : State := s.onWarp fun e => if e.w.settled then k e else s.stall e.w

/-- 05 R165. -/
def execExit (w : Std) (s : State) : Answer :=
  let f := Fields.ofStd w
  .next (
    if s.cur.stream then s.onStream fun e =>
      ((s.putStream e.b.id { e.x.advance s.cur with exited := true }).checkDeadlock e.b.id).settleBlock e.b.id
    else s.whenSettled fun e =>
      let ex := s.exec e.w f.ga f.gb
      let s := s.putWarp (e.w.advance s.cur (s.act e.w))
      match ex with
      | [] => s
      | l :: _ => (s.traceWarp e.w.id (some 4) 14 l 0 (e.w.lane l).pc).exitLanes e ex)
/-- 05 R166: ineligible for 16 arithmetic cycles, or until the others had a turn. -/
def execYield (w : Std) (s : State) : Answer :=
  let f := Fields.ofStd w
  .next (s.onWarp fun e =>
    let v := e.w.advance s.cur (s.act e.w)
    s.putWarp (if (s.exec e.w f.ga f.gb).isEmpty then v else { v with yielded := some (s.cycles + 16) }))
/-- 05 R166. -/
def execNop (_w : Std) (s : State) : Answer :=
  .next (if s.cur.stream then s.onStream fun e => s.putStream e.b.id (e.x.advance s.cur) else s.onWarp fun e => s.finish e [])

/-! ### Named barriers (05 R167 to R171) -/

/-- Barrier-misuse (05 R169). -/
def misuse (reason lane k : Nat) : Trap := { cause := 0xD, reason := reason, lane := lane, info := BitVec.ofNat 64 k }
/-- The end of a `bar` that acts in no lane: the path goes on. -/
def State.skipWarp (s : State) (e : Env) : State := s.putWarp (e.w.advance s.cur (s.act e.w))

/-- `bar.init` of count `n` on barrier `k`: the misuse, or the barrier initialised with its phase unchanged (R168). -/
def barInit (bars : List Bar) (k : Nat) (n : Int) : Except Nat (List Bar) :=
  match bars[k]? with
  | none => .error 1
  | some b =>
    if b.ready && b.a != 0 then .error 4
    else if n ≤ 0 ∨ n > 65535 then .error 5
    else .ok (bars.set k { b with ready := true, e := n.toNat, a := 0 })
/-- The misuse of an arrival of `n`, or of a wait (n = 0), on barrier `k` (R168). -/
def barBad (bars : List Bar) (k n : Nat) : Option Nat :=
  match bars[k]? with
  | none => some 1
  | some b => if !b.ready then some 2 else if b.a + n > b.e then some 3 else none
/-- The phase of a barrier. -/
def barPhase (bars : List Bar) (k : Nat) : Bool := (bars[k]?.map (·.phase)).getD false
/-- The expected count of `init`: imm9, or the low 32 bits of U. -/
def barCount (f : Fields) (reg : Nat → W64) : Int := if f.bk = 1 then f.imm9 else (lo32 (reg f.b)).toNat

/-- 05 R168: once for the warp. -/
def execBarInit (w : Std) (s : State) : Answer :=
  let f := Fields.ofStd w
  .next (
    if s.cur.stream then s.onStream fun e =>
      match barInit e.b.bars f.a (barCount f e.x.reg) with
      | .error r => s.raiseStream e (misuse r 0 f.a)
      | .ok bars => (s.putStream e.b.id (e.x.advance s.cur)).modBlock e.b.id fun b => { b with bars := bars }
    else s.whenSettled fun e =>
      match s.exec e.w f.ga f.gb with
      | [] => s.skipWarp e
      | l :: _ =>
        match barInit e.b.bars f.a (barCount f e.w.s) with
        | .error r => s.raise e (misuse r l f.a)
        | .ok bars => (s.skipWarp e).modBlock e.b.id fun b => { b with bars := bars })

/-- 05 R168: the token is the phase before the arrivals. -/
def execBarArrive (w : Std) (s : State) : Answer :=
  let f := Fields.ofStd w
  .next (
    if s.cur.stream then s.onStream fun e =>
      match barBad e.b.bars f.a 1 with
      | some r => s.raiseStream e (misuse r 0 f.a)
      | none =>
        (s.putStream e.b.id { e.x.advance s.cur with tokens := e.x.tokens.set f.a (barPhase e.b.bars f.a) }).arrive e.b.id f.a 1
    else s.whenSettled fun e =>
      match s.exec e.w f.ga f.gb with
      | [] => s.skipWarp e
      | l :: ls =>
        match barBad e.b.bars f.a (ls.length + 1) with
        | some r => s.raise e (misuse r l f.a)
        | none =>
          let tok := barPhase e.b.bars f.a
          (s.putWarp ((e.w.commit ((l :: ls).map fun i => .p i f.d tok)).advance s.cur (s.act e.w))).arrive e.b.id f.a (ls.length + 1))

/-- The lanes that wait on a barrier keep the instruction; the others of the path go on. -/
def State.waitBar (s : State) (e : Env) (ls : List Nat) (k : Nat) (tok : Nat → Bool) : State :=
  let w := e.w.advance s.cur ((s.act e.w).filter fun l => !ls.contains l)
  s.putWarp (ls.foldl (fun v l => v.modLanes [l] fun t => { t with wait := .bar k (tok l) }) w)

/-- 05 R168. -/
def execBarWait (w : Std) (s : State) : Answer :=
  let f := Fields.ofStd w
  .next (
    if s.cur.stream then s.onStream fun e =>
      match barBad e.b.bars f.a 0 with
      | some r => s.raiseStream e (misuse r 0 f.a)
      | none =>
        let tok := e.x.tokens.getD f.a false
        if barPhase e.b.bars f.a = tok then (s.putStream e.b.id { e.x with wait := .bar f.a tok }).checkDeadlock e.b.id
        else s.putStream e.b.id (e.x.advance s.cur)
    else s.whenSettled fun e =>
      match s.exec e.w f.ga f.gb with
      | [] => s.skipWarp e
      | l :: ls =>
        match barBad e.b.bars f.a 0 with
        | some r => s.raise e (misuse r l f.a)
        | none =>
          let phase := barPhase e.b.bars f.a
          let wait := (l :: ls).filter fun i => e.w.p i f.d == phase
          (s.waitBar e wait f.a fun _ => phase).checkDeadlock e.b.id)

/-- 05 R168: an arrival with an internal token, then a wait on it. -/
def execBarSync (w : Std) (s : State) : Answer :=
  let f := Fields.ofStd w
  .next (
    if s.cur.stream then s.onStream fun e =>
      match barBad e.b.bars f.a 1 with
      | some r => s.raiseStream e (misuse r 0 f.a)
      | none =>
        ((s.putStream e.b.id { e.x with wait := .bar f.a (barPhase e.b.bars f.a) }).arrive e.b.id f.a 1).checkDeadlock e.b.id
    else s.whenSettled fun e =>
      match s.exec e.w f.ga f.gb with
      | [] => s.skipWarp e
      | l :: ls =>
        match barBad e.b.bars f.a (ls.length + 1) with
        | some r => s.raise e (misuse r l f.a)
        | none =>
          let phase := barPhase e.b.bars f.a
          ((s.waitBar e (l :: ls) f.a fun _ => phase).arrive e.b.id f.a (ls.length + 1)).checkDeadlock e.b.id)

/-! ### Early trigger and level waits (05 R180, R181) -/

/-- 05 R180. -/
def execTrig (w : Std) (s : State) : Answer :=
  let f := Fields.ofStd w
  .next (s.whenSettled fun e =>
    s.putWarp ((e.w.modLanes (s.exec e.w f.ga f.gb) fun t => { t with triggered := true }).advance s.cur (s.act e.w)))
/-- 05 R181: MOD[2:0] the level. -/
def execLwait (w : Std) (s : State) : Answer :=
  let f := Fields.ofStd w
  .next (s.whenSettled fun e =>
    let ex := s.exec e.w f.ga f.gb
    let k := f.mod % 8
    let count (l : Nat) : Nat × Nat := waitCount e.l e.b k (e.w.lane l).wid
    let want (l : Nat) : Nat := (e.w.opB f l).toNat
    match ex.find? fun l => decide (want l ≥ (count l).2) with
    | some l => s.raise e (misuse 8 l 0)
    | none =>
      let wait := ex.filter fun l => decide ((count l).1 < want l)
      let v := e.w.advance s.cur ((s.act e.w).filter fun l => !wait.contains l)
      (s.putWarp (wait.foldl (fun v l => v.modLanes [l] fun t => { t with wait := .lwait k (want l) }) v)).checkDeadlock e.b.id)

end Sys2Proof.Machine
end

