-- ==== Sys2Proof/Machine/Engine.lean ====
section
/-! DEFINITION. Commands to the engines and the Crucible as warps issue them (06 R209 to R214, R222; 08 R286), the staged-command buffer (01 R32),
completion channels (06 R225, R226), `ctab` (R228) and `fabfence` (R230). -/
namespace Sys2Proof.Machine

/-! ### Sending and staging (01 R32; 06 R209) -/

/-- The control of `gather` and `scatter` (06 R214): element bytes, count, bytes of an index. -/
def elemBytes (imm : W32) : Nat := 2 ^ (bits imm.toNat 26 24 + 4)
/-- Count of elements. -/
def elemCount (imm : W32) : Nat := bits imm.toNat 23 0
/-- Bytes of an index. -/
def indexBytes (imm : W32) : Nat := if bits imm.toNat 27 27 = 1 then 8 else 4
/-- The agent as which a command translates (06 R217). -/
def EngCmd.who (c : EngCmd) (l : Launch) : Who := ⟨l, c.core, c.block, .engine c.id⟩
/-- The elements that `gather` and `scatter` name: source and destination of each, from the index list's bytes. -/
def indexed (c : EngCmd) (idx : List Byte) : List (W64 × W64) :=
  let z := elemBytes c.imm
  (chunksOf (indexBytes c.imm) idx.length idx).zipIdx.map fun (b, i) =>
    let x := BitVec.ofNat 64 (leNat b * z)
    let y := BitVec.ofNat 64 (i * z)
    if c.op = .gather then (c.b + x, c.a + y) else (c.b + y, c.a + x)
/-- The reading of an index list: it waits for something, fails, or gives the elements. -/
inductive Listed where
  | wait (s : State)
  | fail (x : ReadFail)
  | ok (s : State) (es : List (W64 × W64))
/-- The index list of a command is read (06 R214, R216). -/
def State.readList (s : State) (w : Who) (c : EngCmd) : Listed :=
  match s.reachRead w c.c (elemCount c.imm * indexBytes c.imm) with
  | .error x => .fail x
  | .ok gs => match s.agentPrep w gs [] with
    | some t => .wait t
    | none => .ok (s.useReads c.hint gs) (indexed c (s.reachBytes w gs))
/-- The destination of a command that writes `n` bytes, as it is checked at issue (06 R212 step 4). -/
def State.destBad (s : State) (w : Who) (a : W64) (n dm : Nat) : Option AccFault :=
  if inWindow a || (n != 0 && inWindow (a + BitVec.ofNat 64 (n - 1))) then
    if dm = 1 then some (.page 5 a)
    else if n = 0 then none
    else if !inWindow a then some (.page 5 a)
    else match s.windowLoc w a n with
      | .error f => some f
      | .ok (.acc _ _) => some (.page 5 a)
      | .ok _ => none
  else if dm = 2 then some (.page 5 a) else none
/-- How the destination of an element of a `scatter` stands its check. -/
inductive ElemRes where
  | good
  | bad
  | fault (x : ReadFail)
/-- 06 R214. -/
def State.elemCheck (s : State) (w : Who) (c : EngCmd) (a : W64) : ElemRes :=
  let z := elemBytes c.imm
  if !canonical a then .bad
  else if inWindow a || c.dm == 2 then (if (s.destBad w a z c.dm).isSome then .bad else .good)
  else if c.dm = 1 then match s.reach w .write true a z with
    | .error f => .fault f.read
    | .ok gs => if (oneRegion gs).isNone then .bad else .good
  else .good
/-- The first element of a `scatter` that does not stand its check. -/
def State.scatterCheck (s : State) (w : Who) (c : EngCmd) : List (W64 × W64) → Option (W64 × ElemRes)
  | [] => none
  | e :: es => match s.elemCheck w c e.2 with
    | .good => s.scatterCheck w c es
    | x => some (e.2, x)
/-- The granules of a run of a scratchpad become empty in the event of the send (06 R215; 09 R319). -/
def State.emptyRun (s : State) (w : Who) (r : W64 × Nat) : State :=
  if r.2 = 0 then s
  else match s.windowLoc w r.1 r.2 with
    | .ok (.sp b o) => (s.setGranules b (o / 16) (ceilDiv r.2 16) false).disturb (linesOf (.sp b o) r.2) none
    | _ => s
/-- The granules that a full-empty `scatter` will write become empty, if every element stands its check (06 R214, R215). -/
def State.emptyElems (s : State) (w : Who) (c : EngCmd) (es : List (W64 × W64)) : State :=
  if c.dm = 2 ∧ (s.scatterCheck w c es).isNone then es.foldl (fun s e => s.emptyRun w (e.2, elemBytes c.imm)) s else s
/-- A `scatter` reads its index list when it is sent (06 R214), so it is sent once the list can be read or its reading has failed: what is asked for till then,
its service among it (R217); none for a command that may be sent now. -/
def State.sendWait (s : State) (c : Cmd) : Option State :=
  match c with
  | .engine c => match c.op, s.launch? c.launch with
    | .scatter, some l => match s.readList (c.who l) c with
      | .wait t => some t
      | .fail (.acc (.served q)) => if s.failedAt (.engine c.id) q.va then none else some (s.serveAgent (.engine c.id) l q c.core c.slot)
      | .fail (.acc (.ats va)) => some (s.askHost (.engine c.id) l .read va c.core c.slot)
      | _ => none
    | _, _ => none
  | _ => none
/-- A command leaves for its engine: a `scatter` reads its index list, a full-empty destination is emptied (06 R214, R215). -/
def State.sendCmd (s : State) (c : Cmd) : State :=
  match c with
  | .engine c =>
    let put (s : State) (c : EngCmd) : State := { s with engines := s.engines ++ [{ c with sentAt := s.clock }] }
    match s.launch? c.launch with
    | none => put s c
    | some l =>
      let w := c.who l
      match c.op with
      | .scatter => match s.readList w c with
        | .ok t es => put (t.emptyElems w c es) { c with list := some es }
        | _ => put s c
      | .gather => put (if c.dm = 2 then s.emptyRun w (c.a, elemCount c.imm * elemBytes c.imm) else s) c
      | _ => put (if c.dm = 2 then s.emptyRun w (c.a, c.c.toNat) else s) c
  | .ray rs => { s with rays := s.rays ++ rs }
  | .nnev r => { s with quads := { s.quads with nnReqs := s.quads.nnReqs ++ [r] } }
/-- A command of a warp: sent at once when the warp is non-speculative, else staged, as is one that cannot be sent yet; no room stalls (01 R32). `direct` says
which. -/
def State.stageCmd (s : State) (direct : Bool) (id : Nat) (c : Cmd) : State :=
  if direct && (s.sendWait c).isNone then s.sendCmd c
  else s.modWarp id fun w => { w with spec := { w.spec with cmds := w.spec.cmds ++ [c], order := w.spec.order ++ [false] } }
/-- Has a speculative warp room for one more staged command? -/
def Warp.cmdRoom (w : Warp) : Bool := w.settled || decide (w.spec.cmds.length < 8)

/-! ### Engine commands (06 R209 to R214) -/

/-- One command more on a channel. -/
def Warp.countChan (w : Warp) (ch : Nat) : Warp := { w with chans := modifyNth w.chans ch fun c => { c with count := c.count + 1 } }
/-- The channel of a command. -/
def Fields.chan (f : Fields) : Nat := f.mod % 8
/-- The destination mode of a command. -/
def Fields.dm (f : Fields) : Nat := f.mod / 16 % 4
/-- The record address of a command with REC. -/
def Fields.recAddr (f : Fields) (w : Warp) : Option W64 := if f.mod / 8 % 2 = 1 then some (w.s f.e) else none

/-- A checked operand: its value, whether it is an address, what it must be a multiple of. -/
structure EngArg where
  v : W64
  addr : Bool
  al : Nat
  deriving DecidableEq, Repr

/-- Canonical form of every address, then alignment of every operand, then the length (06 R212 steps 2 and 3). -/
def argsBad (xs : List EngArg) (len : Option W64) : Option AccFault :=
  match xs.find? fun x => x.addr && !canonical x.v with
  | some x => some (.page 1 x.v)
  | none => match xs.find? fun x => x.v.toNat % x.al != 0 with
    | some x => some (.misaligned 3 x.v)
    | none => match len with
      | some n => if n.toNat ≥ 2 ^ 40 then some (.misaligned 4 n) else none
      | none => none
/-- A command with its register values (06 R209). -/
def Env.command (e : Env) (s : State) (f : Fields) (op : EngOp) (a b c : W64) (ra : Option W64) (ch dm : Nat) : EngCmd :=
  ⟨s.ctr.cmd, op, e.w.id, e.b.id, e.l.id, e.w.core, e.w.slot, (e.w.lane ((s.act e.w).headD 0)).pc.addr, a, b, c, ra, ch, dm,
    f.mhi % 2 == 1 && op == .copy, f.imm, if op = .copy ∨ op = .gather ∨ op = .scatter then f.hint else 0, none, none, [], (0, 0), 0, 0, 0, 0, 0, none⟩
/-- A command issues, or stalls for want of room (06 R209). -/
def State.issueCmd (s : State) (e : Env) (f : Fields) (c : EngCmd) : State :=
  if !e.w.cmdRoom || decide ((e.w.chans.getD c.ch ⟨0, false⟩).count ≥ 64) then s.limit e.w
  else
    let s := { s with ctr := { s.ctr with cmd := s.ctr.cmd + 1 } }
    (s.finishLong { e with w := e.w.countChan c.ch } f.la [] []).stageCmd e.w.settled e.w.id (.engine c)
/-- An engine instruction: once for the warp; privilege, operands, destination, then the command. -/
def State.engineOp (s : State) (f : Fields) (op : EngOp) (priv : Bool) (args : Warp → List EngArg) (len : Warp → Option W64)
    (dest : Env → Option AccFault) (cmd : Warp → W64 × W64 × W64) (ra : Warp → Option W64) (dm : Nat) : State :=
  s.onWarp fun e =>
    match s.exec e.w f.ga f.gb with
    | [] => s.finishLong e f.la [] []
    | l :: _ =>
      if priv && !e.l.hdr.privileged then s.raise e { cause := 7, reason := 2, lane := l, info := 0 }
      else match argsBad (args e.w) (len e.w) with
        | some x => s.raise e (x.trap l none)
        | none => match dest e with
          | some x => s.raise e (x.trap l none)
          | none => let (a, b, c) := cmd e.w; s.issueCmd e f (e.command s f op a b c (ra e.w) f.chan dm)
/-- An address operand of 16-byte alignment. -/
def EngArg.base (v : W64) : EngArg := ⟨v, true, 16⟩
/-- The record address as an operand. -/
def recArg (f : Fields) (w : Warp) : List EngArg := ((f.recAddr w).map EngArg.base).toList
/-- `copy`, `fill` and `mckpt`: a length in C. -/
def State.lengthOp (s : State) (f : Fields) (op : EngOp) (priv src : Bool) : State :=
  s.engineOp f op priv (fun w => [EngArg.base (w.s f.a)] ++ (if src then [EngArg.base (w.s f.b)] else []) ++ [⟨w.s f.c, false, 16⟩] ++ recArg f w)
    (fun w => some (w.s f.c))
    (fun e => if op = .mckpt ∧ f.dm = 2 then some (.page 5 (e.w.s f.a)) else s.destBad e.who (e.w.s f.a) (e.w.s f.c).toNat f.dm) (fun w => (w.s f.a, if op = .mckpt then 0 else w.s f.b, w.s f.c))
    f.recAddr f.dm
/-- `gather` and `scatter`: an index list in C. -/
def State.indexOp (s : State) (f : Fields) (op : EngOp) (n : Nat) : State :=
  s.engineOp f op false (fun w => [EngArg.base (w.s f.a), EngArg.base (w.s f.b), EngArg.base (w.s f.c)] ++ recArg f w)
    (fun _ => none) (fun e => s.destBad e.who (e.w.s f.a) n f.dm) (fun w => (w.s f.a, w.s f.b, w.s f.c)) f.recAddr f.dm

/-- 06 R213. -/
def execCopy (w : Ext) (s : State) : Answer := .next (s.lengthOp (.ofExt w) .copy false true)
/-- 06 R213. -/
def execFill (w : Ext) (s : State) : Answer := .next (s.lengthOp (.ofExt w) .fill false false)
/-- 06 R214. -/
def execGather (w : Ext) (s : State) : Answer := let f := Fields.ofExt w; .next (s.indexOp f .gather (elemCount f.imm * elemBytes f.imm))
/-- 06 R214: the base alone is checked, as the address of one granule. -/
def execScatter (w : Ext) (s : State) : Answer := .next (s.indexOp (.ofExt w) .scatter 16)
/-- 06 R231. -/
def execMckpt (w : Ext) (s : State) : Answer := .next (s.lengthOp (.ofExt w) .mckpt true false)
/-- 06 R222: A the descriptor; B the record address, or none. -/
def execPub (w : Std) (s : State) : Answer :=
  let f := Fields.ofStd w
  let ra (w : Warp) : Option W64 := if f.bk = 2 then some (w.s f.b) else none
  .next (s.engineOp f .pub false (fun w => ⟨w.s f.a, true, 64⟩ :: ((ra w).map EngArg.base).toList) (fun _ => none) (fun _ => none)
    (fun w => (w.s f.a, 0, 0)) ra 0)
/-- A collective: A the descriptor, E the record address (08 R286). -/
def State.collectiveOp (s : State) (f : Fields) (op : EngOp) : State :=
  s.engineOp f op false (fun w => ⟨w.s f.a, true, 64⟩ :: recArg f w) (fun _ => none) (fun _ => none) (fun w => (w.s f.a, 0, 0)) f.recAddr f.dm
/-- 08 R289. -/
def execCcomp (w : Ext) (s : State) : Answer := .next (s.collectiveOp (.ofExt w) .ccomp)
/-- 08 R291. -/
def execCallred (w : Ext) (s : State) : Answer := .next (s.collectiveOp (.ofExt w) .callred)

/-! ### Completion channels (06 R225, R226) -/

/-- 06 R225: waits for the channel, writes whether it was without error, clears the sticky error. -/
def execCwait (w : Std) (s : State) : Answer :=
  let f := Fields.ofStd w
  .next (s.whenSettled fun e =>
    let ex := s.exec e.w f.ga f.gb
    let c := e.w.chans.getD f.chan ⟨0, false⟩
    if !ex.isEmpty && decide ((f.uniB e.w.s).toNat < c.count) then s.stall e.w
    else
      let v := if ex.isEmpty then e.w else { e.w with chans := modifyNth e.w.chans f.chan fun c => { c with sticky := false } }
      s.finishLong { e with w := v } f.la (opDests 0x125 f) (ex.map fun l => .p l f.d !c.sticky))
/-- 06 R226: reads without waiting. -/
def execCpoll (w : Std) (s : State) : Answer :=
  let f := Fields.ofStd w
  .next (s.onWarp fun e =>
    let c := e.w.chans.getD f.chan ⟨0, false⟩
    s.vOpLong 0x126 f fun _ _ => BitVec.ofNat 32 (c.count + c.sticky.toNat * 256))

/-! ### Table slots (06 R228) -/

/-- A queued block of a port carries the slot's current generation. -/
def Codec.busy (c : Codec) (port slot : Nat) : Bool := c.queued.contains (port, slot, (c.slot port slot).1)
/-- A slot takes an image and its next generation. -/
def Codec.load (c : Codec) (port slot : Nat) (image : List Byte) : Codec :=
  { c with tables := (c.tables.filter fun t => !(t.port == port && t.slot == slot)) ++ [⟨port, slot, ((c.slot port slot).1 + 1) % 256, image⟩] }
/-- 06 R228: waits while a queued block carries the slot's generation, gives up after 65,536 clk (`ctabWaitTimeout`), else reads the image and
loads it. -/
def execCtab (w : Ext) (s : State) : Answer :=
  let f := Fields.ofExt w
  let port := f.imm.toNat % 16
  .next (s.whenSettled fun e =>
    let ex := s.exec e.w f.ga f.gb
    match ex with
    | [] => s.finishLong e f.la (opDests 0x127 f) []
    | l :: _ =>
      let (gen, _) := s.codec.slot port f.chan
      if !e.l.hdr.privileged then s.raise e { cause := 7, reason := 2, lane := l, info := 0 }
      else match argsBad [⟨e.w.s f.a, true, 256⟩] none with
        | some x => s.raise e (x.trap l none)
        | none =>
          if !s.resumed e && s.codec.busy port f.chan && (match e.w.ctabSince with | some t => decide (s.clock < t + 65536) | none => true) then
            s.stall { e.w with ctabSince := some (e.w.ctabSince.getD s.clock) }
          else
            let e := { e with w := { e.w with ctabSince := none } }
            if !s.resumed e && s.codec.busy port f.chan then
              s.finishLong e f.la (opDests 0x127 f) (ex.map fun l => .v l f.d (BitVec.ofNat 32 (7 + gen * 256)))
            else s.memLoad
              { f := f, dests := opDests 0x127 f, h := ⟨256, 256, 3, .plain, false⟩, lanes := fun ex => ex.take 1
                args := fun e => { addr := fun _ => e.w.s f.a }
                finish := fun s e' one got =>
                  let e' := { e' with w := { e'.w with ctabSince := none } }
                  let s := s.finishLong e' f.la (opDests 0x127 f)
                    (ex.map fun l => .v l f.d (BitVec.ofNat 32 (1 + (gen + 1) % 256 * 256)))
                  { s with codec := s.codec.load port f.chan (got (one.headD 0)) } })

/-! ### Fabric store intervals (06 R229, R230) -/

/-- What a target has answered, summed over the flows that the warp carries; none once a target answered "unknown". -/
def askedTotal (w : Warp) (target : Nat) : Option Nat :=
  (w.asked.filter fun a => a.1 == target).foldl (fun t a => match t, a.2 with | some x, some y => some (x + y) | _, _ => none) (some 0)
/-- What was sent to a target in the interval. -/
def sentTotal (w : Warp) (target : Nat) : Nat := ((w.sent.filter fun x => x.target == target).map (·.count)).foldl (fun a b => a + b) 0
/-- The flows, intervals and targets that a warp counted, each once. -/
def Warp.flows (w : Warp) : List (Nat × Nat × Nat) := dedup (w.sent.map fun x => (x.flow, x.interval, x.target))
/-- The next query of a fence, one for each flow, interval and target counted (13 R428). -/
def State.askCount (s : State) (id : Nat) (x : Nat × Nat × Nat) : State :=
  let (flow, interval, target) := x
  let rid := s.ctr.remote
  { s.sendPacket ⟨s.pkg, target, 0, ((s.warp? id).map (·.prio)).getD 0, 0, 0, none, flow, interval % 256, rid, .query⟩ with
    ctr := { s.ctr with remote := rid + 1 }
    remotes := s.remotes ++ [⟨rid, id, target, s.clock, true, 64, 0, 0, flow, interval, none, [], [], 0, none⟩] }
/-- Does a fence of a warp wait for answers? -/
def State.asking (s : State) (id : Nat) : Bool := s.remotes.any fun r => r.warp == id && r.lane == 64 && r.isRead
/-- 06 R230: once every write is acknowledged the targets are asked; with their answers to what is counted by then the interval closes. While one path of the
warp asks, another waits. -/
def execFabfence (w : Std) (s : State) : Answer :=
  let f := Fields.ofStd w
  .next (s.whenSettled fun e =>
    let ex := s.exec e.w f.ga f.gb
    match ex with
    | [] => s.finishLong e f.la (opDests 0x128 f) []
    | l :: _ =>
      if s.remotes.any (fun r => r.warp == e.w.id && r.cmd.isSome) || s.asking e.w.id then s.stall e.w
      else if e.w.asked.length < e.w.flows.length ∨ e.w.askedFor ≠ e.w.sent then
        (e.w.flows.foldl (fun s x => s.askCount e.w.id x) (s.putWarp { s.keepPlans e [] with asked := [], askedFor := e.w.sent })).modWarp e.w.id fun w =>
          w.modLanes (s.act w) fun t => { t with wait := .remote }
      else
        let i := e.w.interval
        let targets := sortNat (dedup (e.w.sent.map (·.target)))
        let v := { e.w with interval := i + 1, sent := [], asked := [], askedFor := [] }
        match targets.find? fun t => askedTotal e.w t != some (sentTotal e.w t) with
        | some t =>
          (s.putWarp v).raise { e with w := v } { cause := 0xC, reason := if (askedTotal e.w t).isNone then 2 else 1, lane := l
                                                  info := BitVec.ofNat 64 i, aux := some (BitVec.ofNat 64 t) }
        | none => s.finishLong { e with w := v } f.la (opDests 0x128 f) (ex.map fun l => .v l f.d (BitVec.ofNat 32 i)))

end Sys2Proof.Machine
end

