-- ==== Sys2Proof/Machine/Matrix.lean ====
section
/-! DEFINITION. The matrix stream's instructions: reservations (07 R239, R240), shape and prologue records (R241 to R246), tile steps, read-out,
load and wait as they issue (R247, R252, R253). -/
namespace Sys2Proof.Machine

/-! ### Reservations (07 R239, R240) -/

/-- Slots that a block holds. -/
def State.heldSlots (s : State) (block : Nat) : List Nat := (s.quads.acc.filter fun a => a.2.2.owner == some block).map (·.2.1)
/-- Every slot of a mask unreserved, or held by the block. -/
def State.maskFree (s : State) (quad block : Nat) (mask : W32) : Bool := (slotsOf mask).all (s.slotFree quad block)
/-- The masks of the waiting requests of a quad that are served now: free, and behind no earlier one that overlaps. -/
def State.servable (s : State) (quad : Nat) (seen : List W32) : List (Nat × Nat × W32) → List W32
  | [] => []
  | w :: ws =>
    if w.1 ≠ quad then s.servable quad seen ws
    else if s.maskFree quad w.2.1 w.2.2 && seen.all (fun m => m &&& w.2.2 == 0#32) then w.2.2 :: s.servable quad (w.2.2 :: seen) ws
    else s.servable quad (w.2.2 :: seen) ws
/-- A waiting request that stands before this one: an earlier one that overlaps, or for a new request one that is served now (log entry 71). -/
def State.behindWaiter (s : State) (quad block : Nat) (mask : W32) : Bool :=
  if s.quads.waiters.any fun w => w.2.1 == block then
    (s.quads.waiters.takeWhile fun w => w.2.1 != block).any fun w => w.1 == quad && w.2.2 &&& mask != 0#32
  else (s.servable quad [] s.quads.waiters).any fun m => m &&& mask != 0#32
/-- The slots of a mask are held by the block, those it did not hold as zeros. -/
def State.takeSlots (s : State) (quad block : Nat) (mask : W32) : State :=
  let new := (slotsOf mask).filter fun i => !(s.heldSlots block).contains i
  { s with quads := { s.quads with
      acc := (s.quads.acc.filter fun a => !(a.1 == quad && new.contains a.2.1)) ++ new.map fun i => (quad, i, ⟨some block, [], []⟩)
      waiters := s.quads.waiters.filter fun w => w.2.1 != block } }
/-- 07 R239. -/
def execMres (w : Std) (s : State) : Answer :=
  let f := Fields.ofStd w
  .next (s.onStream fun e =>
    let q := quadOf e.b.core
    let mask := lo32 (e.x.reg f.b)
    let done (s : State) (v : W64) : State := s.putStream e.b.id ((e.x.setReg f.d v).advance s.cur)
    if s.maskFree q e.b.id mask && !s.behindWaiter q e.b.id mask then done (s.takeSlots q e.b.id mask) (mask.setWidth 64)
    else if f.mod % 2 = 1 ∨ s.heldSlots e.b.id ≠ [] then done s 0
    else
      let s := if s.quads.waiters.any fun w => w.2.1 == e.b.id then s
        else { s with quads := { s.quads with waiters := s.quads.waiters ++ [(q, e.b.id, mask)] } }
      s.putStream e.b.id { e.x with wait := .mres mask })
/-- Operations of a block's stream that are outstanding on a slot. -/
def State.slotOps (s : State) (block slot : Nat) : List AnvilOp := s.quads.ops.filter fun o => o.block == block && o.slot == slot
/-- Has an access to a slot of a block still to perform that was checked while the block held it: a store in a buffer, or the near part of an access that a peer
has to answer? -/
def State.slotStores (s : State) (quad slot : Nat) : Bool :=
  let here (l : Loc) : Bool := match l with | .acc q o => q == quad && o / 65536 == slot | _ => false
  (s.warps.any fun w => w.spec.window.any fun
    | .store _ _ es => es.any fun e => e.span.any fun x => here x.1
    | .load _ _ _ => false) || s.remotes.any fun r => r.near.any fun n => here n.loc
/-- 07 R240: each held slot goes once no operation on it is outstanding and no store to it that has been checked; the stream goes on when none is left. -/
def execMrel (w : Std) (s : State) : Answer :=
  let f := Fields.ofStd w
  .next (s.onStream fun e =>
    let mine := (slotsOf (lo32 (e.x.reg f.b))).filter (s.heldSlots e.b.id).contains
    let free := mine.filter fun i => (s.slotOps e.b.id i).isEmpty && !s.slotStores (quadOf e.b.core) i
    let s := if free.isEmpty then s else s.releaseSlots e.b.id free
    if free.length = mine.length then s.putStream e.b.id (e.x.advance s.cur) else s.stallStream e)

/-! ### Shape and prologue records (07 R241 to R246) -/

/-- Fields of a shape record. -/
structure TileShape where
  abase : W64
  bbase : W64
  astride : Nat
  bstride : Nat
  k : Nat
  m : Nat
  n : Nat
  aty : Nat
  bty : Nat
  blay : Bool
  deriving DecidableEq, Repr
/-- 07 R241. -/
def TileShape.ofRec (r : Nat) : TileShape :=
  ⟨BitVec.ofNat 64 (bits r 63 0), BitVec.ofNat 64 (bits r 127 64), bits r 159 128, bits r 191 160, bits r 223 192, bits r 231 224, bits r 239 232,
    bits r 244 240, bits r 249 245, bits r 250 250 == 1⟩
/-- Fields of a prologue record (07 R246). -/
structure Prologue where
  scbase : W64
  zpbase : W64
  scstride : Nat
  zpstride : Nat
  gs : Nat
  deriving DecidableEq, Repr
/-- 07 R246. -/
def Prologue.ofRec (r : Nat) : Prologue :=
  ⟨BitVec.ofNat 64 (bits r 63 0), BitVec.ofNat 64 (bits r 127 64), bits r 159 128, bits r 191 160, bits r 193 192⟩
/-- Group size. -/
def Prologue.group (p : Prologue) : Nat := 32 * 2 ^ p.gs

/-- A block format? -/
def isBx (ty : Nat) : Bool := decide (0x12 ≤ ty ∧ ty ≤ 0x14)
/-- Bytes of `n` consecutive elements of a type; a reserved code has no size. -/
def rowBytes (ty n : Nat) : Nat :=
  if isBx ty then ceilDiv n 16 * bxBytes ty else if ty = 0x15 then ceilDiv n 2 else if ty < 0x15 then n * typeBytes ty else 0
/-- Rows of B and their elements. -/
def TileShape.bRows (t : TileShape) : Nat × Nat := if t.blay then (t.n, t.k) else (t.k, t.n)
/-- Type pairs the Anvil takes (07 R242). -/
def pairTaken (a b : Nat) : Bool :=
  let f8 (x : Nat) : Bool := x == 0x10 || x == 0x11
  (f8 a && f8 b) || (a == 5 && b == 5) || (isBx a && isBx b) || (a == 0xD && b == 0xD) || (a == 0xE && b == 0xE) || (a == 0xE && b == 0x15)
/-- Does a range reach the accumulator slots of the window? -/
def inAccWindow (va : W64) (n : Nat) : Bool :=
  let lo := Config.windowBase.toNat + 0x8000000000
  decide (va.toNat < lo + 32 * 0x10000 ∧ lo < va.toNat + n)
/-- Does a row of a strided range reach them? -/
def rowsInAcc (base stride : W64) (rows bytes : Nat) : Bool :=
  bytes != 0 && (List.range rows).any fun i => inAccWindow (base + BitVec.ofNat 64 i * stride) bytes
/-- The first condition of R243 that a tile step breaks. -/
def tileBad (held : Bool) (va : W64) (r : Nat) (prol : Option (W64 × Nat)) : Option Nat :=
  let t := TileShape.ofRec r
  let p := prol.map fun x => Prologue.ofRec x.2
  let ra := rowBytes t.aty t.k
  let rb := rowBytes t.bty t.bRows.2
  let al (ty v : Nat) : Bool := v % (if isBx ty then 4 else 16) != 0
  let checks : List (Nat × Bool) :=
    [(1, t.m == 0 || t.n == 0 || t.k == 0 || decide (128 < t.m) || decide (128 < t.n) || decide (2 ^ 20 < t.k)),
     (2, decide (t.astride < ra) || decide (t.bstride < rb)),
     (3, al t.aty t.abase.toNat || al t.aty t.astride || al t.bty t.bbase.toNat || al t.bty t.bstride),
     (4, !pairTaken t.aty t.bty),
     (5, isBx t.aty && (t.k % 16 != 0 || !t.blay)),
     (6, (t.bty == 0x15) != prol.isSome || (t.bty == 0x15 && !t.blay)),
     (7, match p with | some p => p.gs == 3 || t.k % p.group != 0 | none => false),
     (8, bits r 511 251 != 0 || (match prol with | some x => bits x.2 255 194 != 0 | none => false)),
     (9, !held),
     (0xA, match p with | some p => p.scbase.toNat % 2 != 0 || p.scstride % 2 != 0 | none => false),
     (0xB, va.toNat % 64 != 0 || (match prol with | some x => x.1.toNat % 32 != 0 | none => false)),
     (0xD, decide (t.k ≤ 2 ^ 20) && (rowsInAcc t.abase (BitVec.ofNat 64 t.astride) t.m ra || rowsInAcc t.bbase (BitVec.ofNat 64 t.bstride) t.bRows.1 rb ||
       (match p with
        | some p => rowsInAcc p.scbase (BitVec.ofNat 64 p.scstride) t.n (2 * (t.k / p.group)) ||
            rowsInAcc p.zpbase (BitVec.ofNat 64 p.zpstride) t.n (ceilDiv (t.k / p.group) 2)
        | none => false)))]
  (checks.find? (·.2)).map (·.1)

/-- Shape-invalid in a stream: TRAPAUX the slot (07 R243). -/
def shapeTrap (reason slot : Nat) (info : W64) : Trap := { cause := 8, reason := reason, lane := 0, info := info, aux := some (BitVec.ofNat 64 slot), fatal := true }
/-- The stream goes on, and has no more use for what came to it from peers. -/
def State.passStream (s : State) (e : SEnv) : State :=
  { s with fetched := s.fetched.filter fun x => x.1 != FaultAgent.stream e.b.id }.putStream e.b.id (e.x.advance s.cur)
/-- A record that a stream reads at issue (07 R237, R243); what must come before the read is waited for. -/
def State.streamRecord (s : State) (e : SEnv) (va : W64) (n : Nat) (k : Nat → State → State) : State :=
  match s.reachRead e.who va n with
  | .error (.acc f) => s.faultStream e .read none f
  | .error (.bad a r) => s.raiseStream e { cause := 0xF, reason := r, lane := 0, info := a, fatal := true }
  | .ok gs => match s.agentPrep e.who gs [] with
    | some t => t.stallStream e
    | none => k (leNat (s.reachBytes e.who gs)) (s.useReads 0 gs)
/-- Does the block hold a slot? -/
def State.holdsSlot (s : State) (block slot : Nat) : Bool := (s.heldSlots block).contains slot
/-- A tile step's records are read and checked (07 R243). -/
def State.tileRecords (s : State) (e : SEnv) (slot : Nat) (va : W64) (prol : Option W64) (k : Nat → Nat → State → State) : State :=
  match (va :: prol.toList).find? fun a => !canonical a with
  | some a => s.raiseStream e { cause := 4, reason := 1, lane := 0, info := a, fatal := true }
  | none => s.streamRecord e va 64 fun r s =>
      let after (p : Nat) (s : State) : State :=
        match tileBad (s.holdsSlot e.b.id slot) va r (prol.map fun a => (a, p)) with
        | some c => s.raiseStream e (shapeTrap c slot va)
        | none => k r p s
      match prol with
      | some a => s.streamRecord e a 32 after
      | none => after 0 s

/-! ### Operations (07 R238, R245 to R247, R252) -/

/-- Room in the reservation table of a quad. -/
def State.tableRoom (s : State) (quad : Nat) : Bool := decide (countIf (fun o => o.quad == quad) s.quads.ops < Config.reservations)
/-- An operation of the stream enters the table, and the stream goes on. -/
def State.enterOp (s : State) (e : SEnv) (slot : Nat) (k : AnvilKind) : State :=
  let o : AnvilOp := ⟨s.ctr.cmd, quadOf e.b.core, e.b.id, e.l.id, slot, k, e.l.hdr.prio, s.cycles, s.clock, false, none, none, none⟩
  { s with quads := { s.quads with ops := s.quads.ops ++ [o] }, ctr := { s.ctr with cmd := s.ctr.cmd + 1 } }.passStream e
/-- Stalls before the operation while the table is full. -/
def State.withRoom (s : State) (k : SEnv → State) : State :=
  s.onStream fun e => if s.tableRoom (quadOf e.b.core) then k e else s.stallStream e
/-- x(A) + sext(IMM32). -/
def recordAt (f : Fields) (x : Stream) : W64 := x.reg f.a + f.imm.signExtend 64
/-- 07 R244: reads and checks, and changes nothing a program can see. -/
def execMshape (w : Ext) (s : State) : Answer :=
  let f := Fields.ofExt w
  .next (s.onStream fun e =>
    s.tileRecords e (f.d % 32) (recordAt f e.x) (if f.mod % 2 = 1 then some (e.x.reg f.c) else none)
      fun _ _ s => s.passStream e)
/-- 07 R247. -/
def execMmac (w : Ext) (s : State) : Answer :=
  let f := Fields.ofExt w
  .next (s.withRoom fun e => s.tileRecords e (f.d % 32) (recordAt f e.x) none
    fun r _ s => s.enterOp e (f.d % 32) (.mmac (recordAt f e.x) r))
/-- 07 R246, R247. -/
def execMprol (w : Ext) (s : State) : Answer :=
  let f := Fields.ofExt w
  .next (s.withRoom fun e => s.tileRecords e (f.d % 32) (recordAt f e.x) (some (e.x.reg f.c))
    fun r p s => s.enterOp e (f.d % 32) (.mprol (recordAt f e.x) r p))
/-- 07 R245. -/
def execMzero (w : Std) (s : State) : Answer :=
  let f := Fields.ofStd w
  .next (s.withRoom fun e =>
    if s.holdsSlot e.b.id (f.d % 32) then s.enterOp e (f.d % 32) .mzero else s.raiseStream e (shapeTrap 9 (f.d % 32) 0))

/-- The window word of `mread` and `mwrite` (07 R252): first column, columns, first row, rows. -/
structure SlotWindow where
  fcol : Nat
  nc : Nat
  frow : Nat
  nr : Nat
  deriving DecidableEq, Repr
/-- 07 R252. -/
def SlotWindow.ofWord (w : W64) : SlotWindow := ⟨bits w.toNat 31 24, bits w.toNat 23 16, bits w.toNat 15 8, bits w.toNat 7 0⟩
/-- Address of a row of the window in memory. -/
def rowAt (base stride : W64) (i : Nat) : W64 := base + BitVec.ofNat 64 i * stride
/-- The first check of R243 and R252 that a window in memory fails: a shape-invalid reason. -/
def windowBad (base stride word : W64) (ty : Nat) : Option Nat :=
  let w := SlotWindow.ofWord word
  let n := w.nc * typeBytes ty
  if bits word.toNat 63 32 ≠ 0 ∨ w.nc = 0 ∨ 128 < w.nc ∨ 128 < w.fcol + w.nc ∨ w.nr = 0 ∨ 128 < w.nr ∨ 128 < w.frow + w.nr ∨
      base.toNat % 16 ≠ 0 ∨ stride.toNat % 16 ≠ 0 ∨ n % 16 ≠ 0 ∨ stride.toNat < n then some 0xC
  else if rowsInAcc base stride w.nr n then some 0xD else none
/-- The rows of a window in memory: address and bytes. -/
def windowRows (base stride word : W64) (ty : Nat) : List (W64 × Nat) :=
  (List.range (SlotWindow.ofWord word).nr).map fun i => (rowAt base stride i, (SlotWindow.ofWord word).nc * typeBytes ty)
/-- 07 R252: each row of the destination is checked as that of an engine command (06 R212); the destination granules of a full-empty read-out become empty as the operation is sent. -/
def execMread (w : Ext) (s : State) : Answer :=
  let f := Fields.ofExt w
  let slot := f.d % 32
  let ty := f.mod % 32
  let dm := f.mod / 32
  .next (s.withRoom fun e =>
    let (base, stride, word) := (e.x.reg f.a, e.x.reg f.b, e.x.reg f.c)
    if !s.holdsSlot e.b.id slot then s.raiseStream e (shapeTrap 9 slot base)
    else match windowBad base stride word ty with
      | some r => s.raiseStream e (shapeTrap r slot base)
      | none =>
        let rows := windowRows base stride word ty
        match rows.findSome? fun r => s.destBad e.who r.1 r.2 dm with
        | some x => s.raiseStream e { x.trap 0 none with fatal := true }
        | none =>
          let t := s.enterOp e slot (.mread base stride word ty dm (f.mhi % 8) (f.mhi / 8 % 2 = 1))
          if dm = 2 then rows.foldl (fun t r => t.emptyRun e.who r) t else t)
/-- 07 R252. -/
def execMwrite (w : Ext) (s : State) : Answer :=
  let f := Fields.ofExt w
  let slot := f.d % 32
  .next (s.withRoom fun e =>
    let (base, stride, word) := (e.x.reg f.a, e.x.reg f.b, e.x.reg f.c)
    if !s.holdsSlot e.b.id slot then s.raiseStream e (shapeTrap 9 slot base)
    else match windowBad base stride word (f.mod % 32) with
      | some r => s.raiseStream e (shapeTrap r slot base)
      | none => s.enterOp e slot (.mwrite base stride word (f.mod % 32)))
/-- 07 R253. -/
def execMwait (w : Std) (s : State) : Answer :=
  let f := Fields.ofStd w
  .next (s.onStream fun e =>
    if countIf (fun o => o.block == e.b.id) s.quads.ops ≤ (f.uniB e.x.reg).toNat then s.putStream e.b.id (e.x.advance s.cur)
    else s.stallStream e)

end Sys2Proof.Machine
end

