-- ==== Sys2Proof/Machine/EngineRun.lean ====
section
/-! DEFINITION. What the copy engines do with a command once it is sent (06 R213 to R219, R223, R224, R227, R231, R232): its data part by part, then
its completion record and the fall of its channel's count (log entry 13). -/
namespace Sys2Proof.Machine

/-- How the data of a command goes: it waits or goes on, ends with a status and perhaps a trap for its warp, or is done with a count finished. -/
inductive EngRes where
  | wait (s : State)
  | fail (st : Nat) (fva : W64) (trap : Option (Nat × Nat × W64))
  | ok (s : State) (fin : Nat)

/-- A fault of a command: served, awaited from the host, or its status (06 R217, 12 R398). -/
def State.engFault (s : State) (c : EngCmd) (l : Launch) (u : Use) (x : ReadFail) : EngRes :=
  match x with
  | .acc (.served q) => if s.failedAt (.engine c.id) q.va then .fail 2 q.va none else .wait (s.serveAgent (.engine c.id) l q c.core c.slot)
  | .acc (.ats va) => .wait (s.askHost (.engine c.id) l u va c.core c.slot)
  | .acc (.lease r va) => .fail 3 va (some (5, r, va))
  | .acc f => .fail 2 f.va none
  | .bad va r => .fail 4 va (some (0xF, r, va))

/-- The status of a write that could not be made (06 R219). -/
def ReadFail.status : ReadFail → Nat
  | .acc (.lease _ _) => 3
  | .acc _ => 2
  | .bad _ _ => 4

/-- Destination ranges of a command: their runs; an accumulator slot is no destination (06 R212). -/
def State.reachDest (s : State) (w : Who) (dm : Nat) (rs : List (W64 × Nat)) : Except ReadFail (List Seg) :=
  match rs.mapM fun r => s.reach w .write (dm == 1) r.1 r.2 with
  | .error f => .error (.acc f)
  | .ok gss => match gss.flatten.find? fun g => match g.loc with | .acc _ _ => true | _ => false with
    | some g => .error (.acc (.page 5 g.va))
    | none => .ok gss.flatten

/-- The first error in the scratchpad pages that a write reaches (10 R329). -/
def State.pageError (s : State) (ws : List Seg) : Option (W64 × Nat) := s.errorIn (ws.filter fun g => match g.loc with | .sp _ _ => true | _ => false)
/-- Changes an outstanding command. -/
def State.modCmd (s : State) (id : Nat) (f : EngCmd → EngCmd) : State := { s with engines := s.engines.map fun c => if c.id = id then f c else c }
/-- The eight bytes of a fill pattern, repeated. -/
def patternBytes (x : W64) (n : Nat) : List Byte := (List.range n).map fun i => BitVec.ofNat 8 (x.toNat / 256 ^ (i % 8))
/-- Of granules on one destination the last stays (06 R214). -/
def lastOnes : List Granule → List Granule
  | [] => []
  | g :: gs => if gs.any fun h => h.dst == g.dst then lastOnes gs else g :: lastOnes gs
/-- The granules of a range of `n` bytes. -/
def rangeGranules (src dst : W64) (n : Nat) : List Granule :=
  (List.range (n / 16)).map fun i => ⟨16 * i, src + BitVec.ofNat 64 (16 * i), dst + BitVec.ofNat 64 (16 * i)⟩
/-- The granules of elements of `z` bytes. -/
def elemGranules (z : Nat) (es : List (W64 × W64)) : List Granule :=
  lastOnes (es.zipIdx.flatMap fun (e, i) => (rangeGranules e.1 e.2 z).map fun g => { g with elem := i })
/-- What a command has finished, in bytes or elements (06 R218). -/
def EngCmd.finished (c : EngCmd) : Nat :=
  match c.left, c.op with
  | some gs, .copy => if c.unz then (gs.head?.map (·.elem)).getD 0 else c.c.toNat - 16 * gs.length
  | some gs, .fill | some gs, .mckpt => c.c.toNat - 16 * gs.length
  | some gs, .gather | some gs, .scatter => elemCount c.imm - (dedup (gs.map (·.elem))).length
  | _, _ => 0
/-- A command goes on with what is left, or its data is done. -/
def State.engNext (s : State) (c : EngCmd) (rest : List Granule) (fin : Nat) : EngRes :=
  if rest.isEmpty then .ok s fin else .wait (s.modCmd c.id fun c => { c with left := some rest })
/-- The bytes that a command writes to granules, `gss` the runs of their sources. -/
def State.granuleBytes (s : State) (c : EngCmd) (l : Launch) (gs : List Granule) (gss : List (List Seg)) : List Byte :=
  match c.op with
  | .fill => patternBytes c.b (16 * gs.length)
  | .mckpt => gs.flatMap fun g => (c.image.drop g.elem).take 16
  | _ => s.reachBytes (c.who l) gss.flatten
/-- Does a command read its granules in memory? -/
def EngOp.reads (op : EngOp) : Bool := op == .copy || op == .gather || op == .scatter
/-- Some of the granules of a command that are left: their sources are read, each is written, under the destination mode as one event (06 R215, R216). -/
def State.engMove (s : State) (c : EngCmd) (l : Launch) (gs : List Granule) (fin : Nat) : EngRes :=
  let w := c.who l
  let (now, rest) := s.someOf gs
  match if c.op.reads then s.reachAll w (now.map fun g => (g.src, 16)) else .ok [] with
  | .error x => s.engFault c l .read x
  | .ok gss => match s.reachDest w c.dm (now.map fun g => (g.dst, 16)) with
    | .error x => s.engFault c l .write x
    | .ok ws =>
      if c.dm = 1 ∧ ws.any fun g => g.buf.isNone then .fail 5 0 none
      else match s.pageError ws with
        | some (va, r) => s.engFault c l .write (.bad va r)
        | none => match s.agentPrep w gss.flatten ws with
          | some t => .wait t
          | none =>
            let t := ((s.useReads c.hint gss.flatten).useSegs ws).engineWrites c.id c.warp (c.dm == 2) ws (s.granuleBytes c l now gss)
            (if c.dm = 1 then t.markWritten ws else t).engNext c rest fin
/-- A command with destination ranges begins: a shadow destination lies wholly in one buffered region, or nothing is written (06 R219). -/
def State.engBegin (s : State) (c : EngCmd) (l : Launch) (dests : List (W64 × Nat)) (gs : List Granule) : EngRes :=
  let t := s.modCmd c.id fun c => { c with left := some gs }
  if c.dm = 1 then match s.reachDest (c.who l) 1 dests with
    | .error x => s.engFault c l .write x
    | .ok ws => if (oneRegion ws).isNone then .fail 5 0 none else .wait t
  else .wait t

/-- The next block of a compressed source at `va`, of which `n` bytes have been expanded (06 R227, 10 R344, R348): it is read in one move, checked, expanded
and written to the shadow copy. -/
def State.unzip (s : State) (c : EngCmd) (l : Launch) (n : Nat) (va : W64) : EngRes :=
  let w := c.who l
  match s.reachRead w va 16 with
  | .error x => s.engFault c l .read x
  | .ok g1 => match s.agentPrep w g1 [] with
    | some t => .wait t
    | none =>
      let h := leNat (s.reachBytes w g1)
      let (gen, image) := s.codec.slot (c.imm.toNat % 16) (blockSlot h)
      let mismatch : EngRes := .fail 8 0 (some (0xA, 0, va))
      if blockGen h ≠ gen then
        (let k := if c.stale.1 = va.toNat then c.stale.2 + 1 else 1
         if 3 ≤ k then .fail 9 0 (some (0xB, 0, va))
         else .wait { s.modCmd c.id fun c => { c with stale := (va.toNat, k) } with fetched := s.fetched.filter fun x => x.1 != FaultAgent.engine c.id })
      else if bits h 31 24 > 12 then mismatch
      else match s.reachRead w (va + 16) (blockPayload h) with
        | .error x => s.engFault c l .read x
        | .ok g2 => match s.agentPrep w g2 [] with
          | some t => .wait t
          | none => match expandBlock image h (s.reachBytes w g2) with
            | none => mismatch
            | some ys =>
              let at_ : W64 := c.a + BitVec.ofNat 64 n
              if c.c.toNat < n + ys.length then mismatch
              else match s.reachDest w 1 [(at_, ys.length)] with
                | .error x => s.engFault c l .write x
                | .ok ws =>
                  if ws.any fun g => g.buf.isNone then .fail 5 0 none
                  else match s.agentPrep w [] ws with
                    | some t => .wait t
                    | none =>
                      let t := ((s.useReads c.hint (g1 ++ g2)).useSegs ws).engineWrites c.id c.warp false ws ys
                      let next : Granule := ⟨n + ys.length, va + 16 + BitVec.ofNat 64 (blockPayload h), c.a⟩
                      (t.markWritten ws).engNext c (if n + ys.length < c.c.toNat then [next] else []) c.c.toNat

/-- The destination of a command: the Crucible's stands in its descriptor (08 R285). -/
def State.cmdDest (s : State) (c : EngCmd) (l : Launch) : W64 :=
  match c.op with
  | .ccomp | .callred => match s.xlate l .read true false c.a with
    | .ok m => BitVec.ofNat 64 (s.numPa (m.pa + 8) 8)
    | .error _ => 0
  | _ => c.a
/-- Addresses that a shadow command writes, one in each page it reaches: the elements of a `scatter`, its base where its list could not be read and it writes
nothing; else its range. -/
def State.cmdReach (s : State) (c : EngCmd) (l : Launch) : List W64 :=
  let pages (a : W64) (n : Nat) : List W64 := a :: (runsOf (n / 4096 + 2) a n).map (·.1)
  match c.op, c.list with
  | .scatter, some es => es.map (·.2)
  | .scatter, none => [c.a]
  | .gather, _ => pages c.a (elemCount c.imm * elemBytes c.imm)
  | .copy, _ | .fill, _ => pages c.a c.c.toNat
  | _, _ => [s.cmdDest c l]
/-- The regions that a shadow command reaches, as far as they can be told (06 R223, R224). -/
def State.cmdRegions (s : State) (c : EngCmd) (l : Launch) : List Nat :=
  match c.pub with
  | some p => [p.2]
  | none => if c.dm = 1 then s.regionsAt l (s.cmdReach c l) else []
/-- The regions that a shadow `mread` reaches. -/
def State.opRegions (s : State) (o : AnvilOp) : List Nat :=
  match o.kind, s.launch? o.launch with
  | .mread base stride word ty 1 _ _, some l => s.regionsAt l ((windowRows base stride word ty).map (·.1))
  | _, _ => []
/-- Is a running collective or a read-out one with a region as its shadow destination, sent before? -/
def State.shadowOthers (s : State) (desc at_ : Nat) : Bool :=
  (s.crucible.colls.any fun k => k.cmd.dm == 1 && decide (k.cmd.sentAt < at_) &&
    match s.launch? k.cmd.launch with | some l => s.regionAt l k.dbase == some desc | none => false) ||
  (s.quads.ops ++ s.contexts.flatMap (·.ops)).any fun o => decide (o.sentAt < at_) && (s.opRegions o).contains desc
/-- Is a shadow command to a region outstanding that was sent before (06 R223)? -/
def State.shadowBefore (s : State) (desc at_ : Nat) : Bool :=
  (s.engines.any fun c => decide (c.sentAt < at_) && (s.launch? c.launch).any fun l => (s.cmdRegions c l).contains desc) || s.shadowOthers desc at_
/-- The physical descriptor that a publish names, where it can be told. -/
def State.pubDesc (s : State) (c : EngCmd) : Option Nat :=
  match s.launch? c.launch with
  | some l => match s.xlate l .read true false c.a with | .ok m => some m.pa | .error _ => none
  | none => none
/-- A publish of a region, sent or begun by the Crucible before, that is outstanding. -/
def State.pubBefore (s : State) (desc at_ : Nat) : Bool :=
  s.engines.any fun c => (c.op == .pub && c.phase == 0 && decide (c.sentAt < at_) && s.pubDesc c == some desc) ||
    c.pub.any fun p => decide (p.1 < at_) && p.2 == desc
/-- Does the Crucible's own publish of a region, begun at a time, wait (06 R223; 08 R294): for the shadow commands sent before it, but for those that a warp's
publish holds, since that publish waits for the collective, and for those of collectives that have come to their own publish? -/
def State.collWaits (s : State) (desc at_ : Nat) : Bool :=
  (s.engines.any fun c => decide (c.sentAt < at_) && c.pub.isNone && !s.pubBefore desc c.sentAt &&
    (s.launch? c.launch).any fun l => (s.cmdRegions c l).contains desc) || s.shadowOthers desc at_

/-- The copies of a buffered region, as its descriptor gives them (06 R221). -/
structure Copies where
  vbase : Nat
  pages : Nat
  front : Nat
  shadow : Nat
  deriving DecidableEq, Repr
/-- 06 R221. -/
def State.copies (s : State) (desc : Nat) : Copies :=
  let d := s.numPa desc 64
  let (pc0, pc1) := (bits d 255 192, bits d 319 256)
  ⟨bits d 127 64, bits d 159 128, if bits d 0 0 = 1 then pc1 else pc0, if bits d 0 0 = 1 then pc0 else pc1⟩
/-- What a publish carries over: the granules that no engine wrote, a line of them together: offset and bytes. -/
def State.carried (s : State) (desc pages : Nat) : List (Nat × Nat) :=
  (List.range (32 * pages)).flatMap fun j =>
    let ks := (List.range 8).filter fun i => !(s.region desc).written.contains (8 * j + i)
    if ks.length = 8 then [(128 * j, 128)] else ks.map fun i => (128 * j + 16 * i, 16)
/-- The runs of what is carried, in the copy at `base`. -/
def Copies.runs (d : Copies) (base : Nat) (xs : List (Nat × Nat)) : List Seg :=
  xs.map fun x => ⟨BitVec.ofNat 64 (d.vbase + x.1), x.2, .pa (base + x.1), false, none, none, none, []⟩
/-- May a publish reach a run of a copy: populated, under a key that the launch may reach (10 R324; 12 R398)? -/
def State.copyOk (s : State) (l : Launch) (g : Seg) : Bool :=
  match g.loc with | .pa a => !isFabric a && s.populated a false && s.keyOk l a | _ => false
/-- The swap of a region (06 R223) by an agent: what no engine wrote is read in the front copy and carried over, the selector turns, every reader of the old
front is reached; DONE counts every line. What the agent may not reach or cannot read ends it with its status (R217; 12 R398). -/
def State.publish (s : State) (w : Who) (desc : Nat) : EngRes :=
  let d := s.copies desc
  let xs := s.carried desc d.pages
  let (rs, ws) := (d.runs d.front xs, d.runs d.shadow xs)
  match (rs ++ ws).find? fun g => !s.copyOk w.launch g with
  | some g => .fail 2 g.va none
  | none => match s.errorIn rs with
    | some (va, r) => .fail 4 va (some (0xF, r, va))
    | none => match s.agentPrep w rs (⟨0, 8, .pa desc, false, none, none, none, []⟩ :: ws) with
      | some t => .wait t
      | none =>
        let sel := s.numPa desc 8
        let t := (ws.zip (rs.map s.segBytes)).foldl (fun s (g, x) => s.writeSite none none g.loc x) (rs.foldl (fun s g => s.homeLoad 0 g.loc g.n) s)
        let t := (t.writeSite none none (.pa desc) (leBytes 8 (((sel / 2 + 1) % 2 ^ 63) * 2 + (1 - sel % 2)))).disturb
          (linesOf (.pa d.front) (d.pages * 4096) ++ linesOf (.pa d.shadow) (d.pages * 4096)) none
        .ok ((t.retargetStores desc).putRegion ⟨desc, [], none⟩) (d.pages * 32)

/-- A page of the image of a checkpoint (06 R232, 10 R341, R343): its lines as stored, then tags and key index. -/
def State.imagePage (s : State) (p : Nat) : List Byte :=
  let key := s.keyOf (p * 4096)
  let k := s.memKey key
  let stored := (List.range 32).flatMap fun i => aesXts false k (32 * p + i) (s.readPa (p * 4096 + 128 * i) 128)
  let tags := (List.range 32).foldl (fun t i => t + (Config.lineTag key (p * 4096 + 128 * i) ((stored.drop (128 * i)).take 128)).toNat * 2 ^ (15 * i)) 0
  (List.range 4096).map (fun i => stored.getD i 0) ++ leBytes 64 (tags + key % 128 * 2 ^ 480)
/-- Bytes of an image. -/
def imageBytes : Nat := 4096 + Config.hbmBytes / 4096 * 4160
/-- What the image reads: a line that an L1 owns is served from it and left shared, a line in the ingress atomic cache is given up (10 R335; 13 R427). -/
def State.readWhole (s : State) : State :=
  { s with ingress := [], cache := { s.cache with l1 := s.cache.l1.map fun x => if isHbm x.2.1 then (x.1, x.2.1, .shared) else x } }
/-- The image of device memory as it stands (06 R231, R232). -/
def State.image (s : State) : List Byte :=
  leBytes 8 s.clock ++ leBytes 8 Config.hbmBytes ++ leBytes 8 (Config.hbmBytes / 4096) ++ leBytes 8 (s.ctr.images + 1) ++ List.replicate (4096 - 32) 0
    ++ (List.range (Config.hbmBytes / 4096)).flatMap s.imagePage

/-- The event of a checkpoint (06 R231): the image is taken as memory stands, its granules are then written. A target outside host and fabric memory ends
with FAULT and its address, an error in a line of memory with UNCORR and a free address (log entry 82). -/
def State.takeImage (s : State) (c : EngCmd) (l : Launch) : EngRes :=
  match s.reachDest (c.who l) 0 [(c.a, imageBytes)] with
  | .error x => s.engFault c l .write x
  | .ok ws =>
    match ws.find? fun g => match g.loc with | .pa a => !(isHost a || isFabric a) | _ => true with
    | some g => .fail 2 g.va none
    | none => match s.errorAt (.pa 0) Config.hbmBytes with
      | some (_, r) => let va := BitVec.ofNat 64 (s.pick (2 ^ 78 + 3)); .fail 4 va (some (0xF, r, va))
      | none =>
        .wait ({ s.readWhole with checkpointing := some c.id, ctr := { s.ctr with images := s.ctr.images + 1 } }.modCmd c.id fun c =>
          { c with image := s.image, left := some (rangeGranules 0 c.a imageBytes) })
/-- The index list of a command that has not read it yet. -/
def State.engList (s : State) (c : EngCmd) (l : Launch) : EngRes :=
  match s.readList (c.who l) c with
  | .wait t => .wait t
  | .fail x => s.engFault c l .read x
  | .ok t es => .wait (t.modCmd c.id fun c => { c with list := some es })
/-- A publish that a warp has sent (06 R222 to R224): it waits for the shadow commands and publishes of its region sent before. -/
def State.engPublish (s : State) (c : EngCmd) (l : Launch) : EngRes :=
  let w := c.who l
  match s.reachRead w c.a 64 with
  | .error x => s.engFault c l .read x
  | .ok [g] => match g.loc with
    | .pa d =>
      if !isHbm d || g.io then .fail 2 c.a none
      else if s.shadowBefore d c.sentAt || s.pubBefore d c.sentAt then .wait s
      else match s.agentPrep w [g] [] with
        | some t => .wait t
        | none => match (s.region d).spoil with
          | some st => .fail st.toNat 0 none
          | none => (s.useReads 0 [g]).publish w d
    | _ => .fail 2 c.a none
  | .ok _ => .fail 2 c.a none
/-- The next part of the data of a command (06 R213, R214, R223, R227, R231); a length of 0 is done at once (R212). -/
def State.engData (s : State) (c : EngCmd) (l : Launch) : EngRes :=
  let n := c.c.toNat
  match c.op, c.left with
  | .copy, none => if n = 0 then .ok s 0 else s.engBegin c l [(c.a, n)] (if c.unz then [⟨0, c.b, c.a⟩] else rangeGranules c.b c.a n)
  | .copy, some gs =>
    if c.unz then (match gs with | g :: _ => s.unzip c l g.elem g.src | [] => .ok s n)
    else s.engMove c l gs n
  | .fill, none => if n = 0 then .ok s 0 else s.engBegin c l [(c.a, n)] (rangeGranules 0 c.a n)
  | .fill, some gs => s.engMove c l gs n
  | .gather, none => match c.list with
    | none => s.engList c l
    | some es => s.engBegin c l [(c.a, elemCount c.imm * elemBytes c.imm)] (elemGranules (elemBytes c.imm) es)
  | .scatter, none => match c.list with
    | none => s.engList c l
    | some es => match s.scatterCheck (c.who l) c es with
      | some (_, .fault x) => s.engFault c l .write x
      | some (va, _) => .fail (if c.dm = 1 then 5 else 2) va none
      | none => .wait (s.modCmd c.id fun x => { x with left := some (elemGranules (elemBytes c.imm) es) })
  | .gather, some gs | .scatter, some gs => s.engMove c l gs (elemCount c.imm)
  | .pub, _ => s.engPublish c l
  | .mckpt, none =>
    if n = 0 then .ok s 0
    else if s.checkpointing.isSome then .fail 7 0 none
    else if n < imageBytes then .fail 8 0 none
    else s.takeImage c l
  | .mckpt, some gs => s.engMove c l gs imageBytes
  | .ccomp, _ | .callred, _ => .wait s

/-- An asynchronous trap is held: the first of its cause, in increasing cause code (01 R27). -/
def holdAsync (a : AsyncTrap) (xs : List AsyncTrap) : List AsyncTrap :=
  if xs.any fun x => x.cause == a.cause then xs
  else xs.filter (fun x => decide (x.cause < a.cause)) ++ [a] ++ xs.filter fun x => decide (a.cause < x.cause)
/-- An asynchronous trap: held for a warp, else for the lowest live warp of its block, else fatal for its launch (06 R217). -/
def State.asyncTrapTo (s : State) (warp block launch core : Nat) (a : AsyncTrap) : State :=
  let give (id : Nat) : State := s.modAnyWarp id fun w => { w with asyncs := holdAsync a w.asyncs }
  let all := (s.warps ++ s.contexts.flatMap (·.warps)).filter fun w => !w.live.isEmpty
  match all.find? fun w => w.id == warp with
  | some w => give w.id
  | none => match minBy (·.slot) (all.filter fun w => w.block == block) with
    | some w => give w.id
    | none => s.modLaunch launch fun l =>
        if l.halting || l.dumped then l
        else
          let on := match (s.anyBlock? block).or (l.remains.find? fun b => b.id == block) with | some b => b.core | none => core
          { l with orphans := l.orphans ++ [⟨block, on, ⟨a.cause, a.reason, 0, asyncBeyond a.cause a.reason, 0, a.info, a.aux, true, s.clock, none⟩, none⟩] }
/-- An asynchronous trap of a command. -/
def State.asyncTrap (s : State) (c : EngCmd) (t : Nat × Nat × W64) : State :=
  s.asyncTrapTo c.warp c.block c.launch c.core ⟨t.1, t.2.1, t.2.2, c.addr⟩

/-- KIND of a completion record (06 R218). -/
def EngOp.kind : EngOp → Nat
  | .copy => 0 | .gather => 1 | .scatter => 2 | .fill => 3 | .pub => 4 | .mckpt => 9 | .ccomp => 0x46 | .callred => 0x47
/-- A completion record (06 R218). -/
def EngCmd.record (c : EngCmd) : List Byte := leBytes 16 (c.stat + c.op.kind * 256 + min c.fin 0xFFFFFFFF * 2 ^ 32 + c.fva.toNat * 2 ^ 64)
/-- The command has completed: the channel's count falls, its error sticks (06 R218, R225). -/
def State.cmdComplete (s : State) (c : EngCmd) (recordFailed : Bool) : State :=
  let s := (s.modAnyWarp c.warp fun w => { w with chans := modifyNth w.chans c.ch fun x =>
    { count := x.count - 1, sticky := x.sticky || c.stat != 1 || recordFailed } }).dropWait (.engine c.id)
  { s with engines := s.engines.filter fun x => x.id != c.id, checkpointing := if s.checkpointing = some c.id then none else s.checkpointing }
/-- The completion of a command whose data is done: its record, translated as a plain destination, then the fall of the count (06 R218). -/
def State.cmdRecord (s : State) (c : EngCmd) (l : Launch) : State :=
  if s.unacked c.id then s
  else if c.phase = 2 then s.cmdComplete c false
  else match c.recAddr with
    | none => s.cmdComplete c false
    | some va => match s.reachDest (c.who l) 0 [(va, 16)] with
      | .error x => match s.engFault c l .write x with
        | .wait t => t
        | .fail _ _ (some t) => (s.asyncTrap c t).cmdComplete c true
        | _ => s.cmdComplete c true
      | .ok ws => match s.agentPrep (c.who l) [] ws with
        | some t => t
        | none =>
          let t := (s.useSegs ws).engineWrites c.id c.warp false ws c.record
          if t.unacked c.id then t.modCmd c.id fun c => { c with phase := 2 } else t.cmdComplete c false
/-- The data of a command has ended. -/
def State.cmdData (s : State) (c : EngCmd) (l : Launch) (st : Nat) (fva : W64) (fin : Nat) (trap : Option (Nat × Nat × W64)) : State :=
  let c' := { c with phase := 1, stat := st, fva := fva, fin := fin }
  let s := (s.dropWait (.engine c.id)).modCmd c.id fun _ => c'
  let s := match trap with | some t => s.asyncTrap c t | none => s
  let s := if st = 1 then s else (s.cmdRegions c l).foldl (fun s d => s.spoil d st) s
  s.cmdRecord c' l
/-- A publish that does not swap clears the spoil (06 R224). -/
def State.clearSpoil (s : State) (c : EngCmd) : State :=
  match c.op, s.pubDesc c with
  | .pub, some d => s.putRegion ⟨d, [], none⟩
  | _, _ => s
/-- Is a shadow command held behind a publish (06 R223)? -/
def State.cmdHeld (s : State) (c : EngCmd) (l : Launch) : Bool :=
  c.phase == 0 && c.pub.isNone && (s.cmdRegions c l).any fun d => s.pubBefore d c.sentAt

/-- The Crucible's own publish of a region ends (08 R294): without a swap on another status than DONE or where the region is spoiled (06 R224). -/
def State.collPublish (s : State) (c : EngCmd) (l : Launch) (desc : Nat) : State :=
  let done (s : State) (c : EngCmd) : State :=
    let c := { c with phase := 1, pub := none }
    ((s.dropWait (.engine c.id)).modCmd c.id fun _ => c).cmdRecord c l
  let clear : State := s.putRegion ⟨desc, [], none⟩
  if c.stat ≠ 1 then done clear c
  else match (s.region desc).spoil with
    | some st => done clear { c with stat := st.toNat, fin := 0 }
    | none => match s.publish (c.who l) desc with
      | .wait t => t
      | .fail st fva trap => done (match trap with | some t => clear.asyncTrap c t | none => clear) { c with stat := st, fva := fva, fin := 0 }
      | .ok t _ => done t c
/-- 06 R209, R218; 08 R294 (`.id` the command): the command's next part. -/
def execEngineCommandDone (s : State) : Answer :=
  .next (match s.arg with
  | .id id => match s.engines.find? fun c => c.id == id with
    | none => s
    | some c => match s.launch? c.launch with
      | none => s
      | some l =>
        if s.agentBusy (.engine id) || s.cmdHeld c l then s
        else if let some p := c.pub then (if s.collWaits p.2 p.1 then s else s.collPublish c l p.2)
        else if c.phase ≠ 0 then s.cmdRecord c l
        else if c.stat = 6 then s.cmdData c l 6 0 0 none
        else match s.engData c l with
          | .wait t => t
          | .fail st fva trap =>
            (if c.op = .pub ∧ trap.isNone ∧ (s.pubDesc c).any fun d => (s.region d).spoil.isSome then s.clearSpoil c else s).cmdData c l st fva c.finished trap
          | .ok t fin => t.cmdData c l 1 0 fin none
  | _ => s)

end Sys2Proof.Machine
end

