-- ==== Sys2Proof/Machine/Anvil.lean ====
section
/-! DEFINITION. The Anvil at work: the arbiter of passes (11 R369), tile steps row by row (07 R247 to R249), read-out and load (R252). -/
namespace Sys2Proof.Machine

/-! ### The arbiter (11 R369, 07 R238) -/

/-- An entry may be granted when no earlier operation of its stream on its slot is outstanding; while its core exchanges its banks it is on its way out of
the table (07 R251). -/
def State.opEligible (s : State) (o : AnvilOp) : Bool :=
  !o.granted && match o.kind with
  | .tongs _ _ => true
  | _ => (match s.block? o.block with | some b => (s.core b.core).phase != .swap | none => false) && !(s.quads.ops.takeWhile fun p => p.id != o.id).any fun p => p.block == o.block && p.slot == o.slot &&
      match p.kind with | .tongs _ _ => false | _ => true
/-- The effective class of an entry, which falls with the arithmetic cycles that it has waited (00 R10). -/
def State.opClass (s : State) (o : AnvilOp) : Nat := o.cls - (s.cycles - o.arrived) / 4096
/-- The entry that a free Anvil grants. -/
def State.anvilChoice (s : State) (quad : Nat) : Option AnvilOp :=
  let mine := s.quads.ops.filter fun o => o.quad == quad
  if mine.any (·.granted) then none
  else
    let es := mine.filter s.opEligible
    match minBy s.opClass es with
    | none => none
    | some b => minBy (·.arrived) (es.filter fun o => s.opClass o == s.opClass b)
/-- Changes an entry. -/
def State.modOp (s : State) (id : Nat) (f : AnvilOp → AnvilOp) : State :=
  { s with quads := { s.quads with ops := s.quads.ops.map fun o => if o.id = id then f o else o } }
/-- Changes the stream of a block, in residence or saved. -/
def State.modStream (s : State) (block : Nat) (f : Stream → Stream) : State := s.modAnyBlock block fun b => { b with stream := b.stream.map f }
/-- 11 R369 (`.id` the operation): a pass begins; RUN is set for a tile step (07 R248). -/
def execAnvilPassGrant (s : State) : Answer :=
  .next (match s.arg with
  | .id id => match s.quads.ops.find? fun o => o.id == id with
    | none => s
    | some o =>
      if s.anvilChoice o.quad != some o then s
      else
        let s := s.modOp id fun o => { o with granted := true }
        match o.kind with
        | .mmac _ _ | .mprol _ _ _ => s.modStream o.block fun x => { x with run := true }
        | _ => s
  | _ => s)

/-! ### Operands (07 R242, R246) -/

/-- Element `k` of a row. -/
def rowElem (ty : Nat) (row : List Byte) (k : Nat) : XReal :=
  if isBx ty then bxElem (bxMant ty) (leNat ((row.drop (k / 16 * bxBytes ty)).take (bxBytes ty))) (k % 16)
  else widenTy ty (leNat ((row.drop (k * typeBytes ty)).take (typeBytes ty)))
/-- Nibble `k` of a packed row (02 R47). -/
def nibbleAt (row : List Byte) (k : Nat) : Nat := (row.getD (k / 2) 0).toNat / (if k % 2 = 1 then 16 else 1) % 16
/-- The rows of memory of each operand of a step: A from row `from_`, B, then scales and zero points. -/
structure TileRanges where
  a : Nat → W64 × Nat
  b : List (W64 × Nat)
  sc : List (W64 × Nat)
  zp : List (W64 × Nat)
/-- 07 R242, R246. -/
def TileShape.ranges (t : TileShape) (p : Option Prologue) : TileRanges :=
  let row (base : W64) (stride i : Nat) : W64 := base + BitVec.ofNat 64 (i * stride)
  { a := fun i => (row t.abase t.astride i, rowBytes t.aty t.k)
    b := (List.range t.bRows.1).map fun i => (row t.bbase t.bstride i, rowBytes t.bty t.bRows.2)
    sc := match p with | some p => (List.range t.n).map fun j => (row p.scbase p.scstride j, 2 * (t.k / p.group)) | none => []
    zp := match p with | some p => (List.range t.n).map fun j => (row p.zpbase p.zpstride j, ceilDiv (t.k / p.group) 2) | none => [] }
/-- Column `j` of B in increasing k, from its rows, scales and zero points (07 R242, R246; 02 R70). -/
def TileShape.column (t : TileShape) (p : Option Prologue) (b sc zp : List (List Byte)) (j : Nat) : List XReal :=
  (List.range t.k).map fun k =>
    match p with
    | some p =>
      let g := k / p.group
      widen .bf16 (int4Weight (leNat (((sc.getD j []).drop (2 * g)).take 2)) (nibbleAt (b.getD j []) k) (nibbleAt (zp.getD j []) g))
    | none => if t.blay then rowElem t.bty (b.getD j []) k else rowElem t.bty (b.getD k []) j
/-- The chunk size (02 R67). -/
def TileShape.chunk (t : TileShape) : Nat := if (t.aty == 0xD || t.aty == 0xE || t.bty == 0xD || t.bty == 0xE) then 16 else 32

/-! ### Ends of operations -/

/-- Offset of an element of a slot (01 R20). -/
def slotOff (slot i j : Nat) : Nat := slot * 65536 + i * 512 + j * 4
/-- An operation leaves the table; its block may have nothing left (05 R165). -/
def State.opDone (s : State) (o : AnvilOp) : State :=
  ({ s.dropWait (.anvil o.id) with quads := { s.quads with ops := s.quads.ops.filter fun p => p.id != o.id } }).settleBlock o.block
/-- A tile step is complete: ROWPROG is zero again (07 R247). -/
def State.stepDone (s : State) (o : AnvilOp) : State := (s.modStream o.block fun x => { x with run := false, next := 0 }).opDone o
/-- A fault that ends an operation is fatal in its stream (07 R249); a shadow read-out spoils its regions with a status (06 R224). -/
def State.opFatal (s : State) (o : AnvilOp) (st : Nat) (t : Trap) : State :=
  let s := (s.opRegions o).foldl (fun s d => s.spoil d st) s
  let s := s.modStream o.block fun x => if x.fatal.isSome then x else
    { x with fatal := some ⟨t.cause, t.reason, 0, t.beyond, x.pc.addr, t.info, BitVec.ofNat 64 o.slot, true, s.clock, none⟩ }
  s.opDone o
/-- A fault met in a pass: served, awaited from the host, or fatal (07 R249). -/
def State.opFault (s : State) (o : AnvilOp) (b : Block) (l : Launch) (u : Use) (x : ReadFail) : State :=
  match x with
  | .acc (.served q) =>
    if s.failedAt (.anvil o.id) q.va then s.opFatal o 2 { cause := 4, reason := 7, lane := 0, info := q.va } else s.serveAgent (.anvil o.id) l q b.core 0
  | .acc (.ats va) => s.askHost (.anvil o.id) l u va b.core 0
  | x => s.opFatal o x.status (x.trap none)
/-- The agent as which an operation translates. -/
def AnvilOp.who (o : AnvilOp) (b : Block) (l : Launch) : Who := ⟨l, b.core, b.id, .anvil o.id⟩
/-- The place of an element of an operation's slot. -/
def AnvilOp.at_ (o : AnvilOp) (i j : Nat) : Loc := .acc o.quad (slotOff o.slot i j)
/-- An error in rows of an operation's slot (12 R379): the address of the first in the window, and the reason. -/
def State.slotError (s : State) (o : AnvilOp) (i n : Nat) : Option ReadFail :=
  (s.errorAt (o.at_ i 0) n).map fun (k, r) => .bad (Config.windowBase + BitVec.ofNat 64 (0x8000000000 + slotOff o.slot i 0 + k)) r

/-! ### Tile steps (07 R247 to R249) -/

/-- One row of C after the step. -/
def rowResult (t : TileShape) (cols : List (List XReal)) (a old : List Byte) : List Byte :=
  let ak := (List.range t.k).map (rowElem t.aty a)
  (cols.zipIdx).flatMap fun (col, j) =>
    leBytes 4 (accumulate t.chunk (leNat ((old.drop (4 * j)).take 4)) (List.zipWith XReal.mul ak col))
/-- What came from peers for an operation has been read. -/
def State.dropFetched (s : State) (a : FaultAgent) : State := { s with fetched := s.fetched.filter fun x => x.1 != a }
/-- The rows of B, scales and zero points of a step, each read once (07 R247). -/
def State.tileKeep (s : State) (o : AnvilOp) (b : Block) (l : Launch) (r : TileRanges) : State :=
  match s.reachAll (o.who b l) (r.b ++ r.sc ++ r.zp) with
  | .error x => s.opFault o b l .read x
  | .ok gss => match s.agentPrep (o.who b l) gss.flatten [] with
    | some t => t
    | none => ((s.useReads 0 gss.flatten).dropFetched (.anvil o.id)).modOp o.id fun p => { p with kept := some (gss.map (s.reachBytes (o.who b l))) }
/-- Row `i` of a step is computed from a row of A and the row of the slot as it stands; it is written later (07 R250). -/
def State.tileRow (s : State) (o : AnvilOp) (b : Block) (l : Launch) (t : TileShape) (p : Option Prologue) (kept : List (List Byte)) (i : Nat) : State :=
  let ra := (t.ranges p).a i
  match s.reachRead (o.who b l) ra.1 ra.2 with
  | .error x => s.opFault o b l .read x
  | .ok gs => match s.agentPrep (o.who b l) gs [], s.slotError o i (4 * t.n) with
    | some t, _ => t
    | none, some x => s.opFault o b l .read x
    | none, none =>
      let (nb, ns) := (t.bRows.1, if p.isSome then t.n else 0)
      let cols := (List.range t.n).map (t.column p (kept.take nb) ((kept.drop nb).take ns) (kept.drop (nb + ns)))
      ((s.useReads 0 gs).dropFetched (.anvil o.id)).modOp o.id fun q =>
        { q with unwritten := some (rowResult t cols (s.reachBytes (o.who b l) gs) (s.readLoc (o.at_ i 0) (4 * t.n))) }
/-- The next part of a granted tile step: a row that stands unwritten is written whole and counted, else the next row from ROWPROG.NEXT is read. -/
def State.tilePass (s : State) (o : AnvilOp) (b : Block) (l : Launch) (t : TileShape) (p : Option Prologue) : State :=
  let next := match b.stream with | some x => x.next | none => 0
  match o.unwritten, o.kept with
  | some row, _ =>
    let s := ((s.writeSite none none (o.at_ next 0) row).modStream o.block fun x => { x with next := next + 1 }).modOp o.id fun q => { q with unwritten := none }
    if t.m ≤ next + 1 then s.stepDone o else s
  | none, kept =>
    if t.m ≤ next then s.stepDone o
    else match kept with
      | none => s.tileKeep o b l (t.ranges p)
      | some rows => s.tileRow o b l t p rows next

/-! ### Read-out and load (07 R252) -/

/-- A row of a slot, all 128 elements. -/
def State.slotRow (s : State) (o : AnvilOp) (i : Nat) : List XReal :=
  let xs := s.readLoc (o.at_ i 0) 512
  (List.range 128).map fun j => widen .f32 (leNat ((xs.drop (4 * j)).take 4))
/-- A row of the window as `mread` stores it; under .rs columns not read contribute no discarded bits (R252). -/
def readOutRow (w : SlotWindow) (f : FFmt) (rnd : Nat) (sat : Bool) (row : List XReal) : List Byte :=
  let mode := (RMode.ofCode rnd).getD .rn
  let read (j : Nat) : Bool := decide (w.fcol ≤ j ∧ j < w.fcol + w.nc)
  let d (j : Nat) : Nat := if read j then discarded f (row.getD j .nan) else 0
  (List.range w.nc).flatMap fun k =>
    let j := w.fcol + k
    leBytes (f.width / 8) (roundTo f (row.getD j .nan) mode sat (if mode = .rs then stochastic (d ((j + 127) % 128)) (d ((j + 1) % 128)) else 0))
/-- The parts of a window that move as granules of memory: `k` elements each. -/
def SlotWindow.parts (w : SlotWindow) (k : Nat) : List SlotPart :=
  (List.range w.nr).flatMap fun i => (List.range (w.nc / k)).map fun j => ⟨w.frow + i, w.fcol + k * j, k, none⟩
/-- The address of a part in memory, elements of `z` bytes. -/
def SlotWindow.partAt (w : SlotWindow) (base stride : W64) (z : Nat) (p : SlotPart) : W64 :=
  rowAt base stride (p.row - w.frow) + BitVec.ofNat 64 ((p.col - w.fcol) * z)
/-- An operation goes on with the parts that are left. -/
def State.withParts (s : State) (o : AnvilOp) (ps : List SlotPart) : State := s.modOp o.id fun o => { o with parts := some ps }
/-- Some of the parts of a read-out that are left: each granule is rounded from the slot as it stands and written under the destination mode (07 R252; 06
R215). -/
def State.readParts (s : State) (o : AnvilOp) (b : Block) (l : Launch) (base stride word : W64) (ty dm rnd : Nat) (sat : Bool) (ps : List SlotPart) : State :=
  let w := SlotWindow.ofWord word
  let z := typeBytes ty
  let (now, rest) := s.someOf ps
  match s.reachDest (o.who b l) dm (now.map fun p => (w.partAt base stride z p, 16)) with
  | .error x => s.opFault o b l .write x
  | .ok gs =>
    if dm = 1 ∧ gs.any fun g => g.buf.isNone then s.opFatal o 5 { cause := 4, reason := 5, lane := 0, info := base }
    else match s.agentPrep (o.who b l) [] gs, (now.findSome? fun p => s.slotError o p.row 512).or ((s.pageError gs).map fun x => .bad x.1 x.2) with
      | some s, _ => s
      | none, some x => s.opFault o b l .read x
      | none, none =>
        let bytes := now.flatMap fun p => ((readOutRow w ((floatOf ty).getD .f32) rnd sat (s.slotRow o p.row)).drop ((p.col - w.fcol) * z)).take 16
        let t := (s.useSegs gs).engineWrites o.id 0 (dm == 2) gs bytes
        (if dm = 1 then t.markWritten gs else t).withParts o rest
/-- A read-out: a shadow destination lies wholly in one buffered region and waits for a publish of it sent before; then its granules are written (06 R219,
R223), and its writes to a peer acknowledged. -/
def State.readOut (s : State) (o : AnvilOp) (b : Block) (l : Launch) (base stride word : W64) (ty dm rnd : Nat) (sat : Bool) : State :=
  match o.parts with
  | some [] => if s.unacked o.id then s else s.opDone o
  | some ps => s.readParts o b l base stride word ty dm rnd sat ps
  | none =>
    let t := s.withParts o ((SlotWindow.ofWord word).parts (16 / typeBytes ty))
    if dm = 1 then match s.reachDest (o.who b l) 1 (windowRows base stride word ty) with
      | .error x => s.opFault o b l .write x
      | .ok gs =>
        if (oneRegion gs).isNone then s.opFatal o 5 { cause := 4, reason := 5, lane := 0, info := base }
        else if (oneRegion gs).any fun d => s.pubBefore d o.sentAt then s
        else t
    else t
/-- The parts of a slot that a granule of a source becomes: its elements as .f32, cut at the slot's granules. -/
def slotGranules (ty : Nat) (p : SlotPart) (xs : List Byte) : List SlotPart :=
  ((List.range (ceilDiv (p.col + p.n) 4 - p.col / 4)).map (· + p.col / 4)).map fun g =>
    let lo := max p.col (4 * g)
    let n := min (p.col + p.n) (4 * g + 4) - lo
    ⟨p.row, lo, n, some ((List.range n).flatMap fun k => leBytes 4 (roundTo .f32 (rowElem ty xs (lo - p.col + k)) .rn))⟩
/-- Some of the parts of a load that are left: a granule of the source is read whole, or a granule of the slot is written (07 R252; 06 R216). -/
def State.loadParts (s : State) (o : AnvilOp) (b : Block) (l : Launch) (base stride word : W64) (ty : Nat) (ps : List SlotPart) : State :=
  let w := SlotWindow.ofWord word
  let (now, rest) := s.someOf ps
  let src := now.filter fun p => p.xs.isNone
  match s.reachAll (o.who b l) (src.map fun p => (w.partAt base stride (typeBytes ty) p, 16)) with
  | .error x => s.opFault o b l .read x
  | .ok gss => match s.agentPrep (o.who b l) gss.flatten [] with
    | some s => s
    | none =>
      let new := (src.zip gss).flatMap fun (p, gs) => slotGranules ty p (s.reachBytes (o.who b l) gs)
      (now.foldl (fun s p => match p.xs with | some xs => s.writeSite none none (o.at_ p.row p.col) xs | none => s)
        (s.useReads 0 gss.flatten)).withParts o (rest ++ new)
/-- A load: every element widens into its slot. -/
def State.loadSlot (s : State) (o : AnvilOp) (b : Block) (l : Launch) (base stride word : W64) (ty : Nat) : State :=
  match o.parts with
  | some [] => s.opDone o
  | some ps => s.loadParts o b l base stride word ty ps
  | none => s.withParts o ((SlotWindow.ofWord word).parts (16 / typeBytes ty))
/-- Every element of a slot becomes +0 (07 R245). -/
def State.zeroSlot (s : State) (o : AnvilOp) : State :=
  (({ s with quads := { s.quads with acc := s.quads.acc.map fun a : Nat × Nat × AccSlot =>
      if a.1 = o.quad ∧ a.2.1 = o.slot then (a.1, a.2.1, { a.2.2 with bytes := [] }) else a } }).disturb
    (linesOf (.acc o.quad (o.slot * 65536)) 65536) none).opDone o

/-- A layer of a Tongs tile has passed: the next takes its place in the table, or the tile's results are ready (07 R261). -/
def State.layerDone (s : State) (o : AnvilOp) (tile layer : Nat) : State :=
  let rest := s.quads.ops.filter fun p => p.id != o.id
  match s.quads.tiles.find? fun t => t.id == tile with
  | none => { s with quads := { s.quads with ops := rest } }
  | some t =>
    if layer < t.layers then
      { s with quads := { s.quads with ops := rest ++ [{ o with id := s.ctr.cmd, kind := .tongs tile (layer + 1), granted := false, arrived := s.cycles }] }
               ctr := { s.ctr with cmd := s.ctr.cmd + 1 } }
    else { s with quads := { s.quads with ops := rest
                                          tiles := s.quads.tiles.map fun t => if t.id = tile then { t with passed := true } else t } }

/-- 07 R247, R249, R252 (`.id` the operation): a granted operation does its next part and ends with the last, or waits for a fault
that is being served. -/
def execAnvilPassDone (s : State) : Answer :=
  .next (match s.arg with
  | .id id => match s.quads.ops.find? fun o => o.id == id with
    | none => s
    | some o =>
      if !o.granted || s.agentBusy (.anvil id) then s
      else match o.kind with
        | .tongs tile layer => s.layerDone o tile layer
        | k => match s.anyBlock? o.block, s.launch? o.launch with
          | some b, some l => match k with
            | .mzero => s.zeroSlot o
            | .mmac _ r => s.tilePass o b l (.ofRec r) none
            | .mprol _ r p => s.tilePass o b l (.ofRec r) (some (.ofRec p))
            | .mread base stride word ty dm rnd sat => s.readOut o b l base stride word ty dm rnd sat
            | .mwrite base stride word ty => s.loadSlot o b l base stride word ty
            | .tongs _ _ => s
          | _, _ => s
  | _ => s)

end Sys2Proof.Machine
end

