-- ==== Sys2Proof/Machine/Convert.lean ====
section
/-! DEFINITION. Conversion and block packing (04 R130 to R134; 02 R57 to R66). -/
namespace Sys2Proof.Machine

/-- Registers of an element of a type. -/
def wideTy (ty : Nat) : Bool := ty == 8 || ty == 0xC
/-- A number's bits as a pair or a register value with the placement of 04 R108 for a type. -/
def placed (ty : Nat) (x : Int) : W64 :=
  match intOf ty with
  | some (w, sg) =>
    let v : Int := intVal w sg (intBits w x)
    BitVec.ofInt 64 v
  | none => BitVec.ofInt 64 x
/-- One conversion with one rounding (04 R131); `g` is the random value under .rs. -/
def convert (dt st rnd : Nat) (sat : Bool) (bits g : Nat) : W64 :=
  let m := (RMode.ofCode rnd).getD .rn
  match intOf dt, intOf st with
  | some (dw, ds), some (sw, ss) =>
    let x := intVal sw ss bits
    placed dt (if sat then intClamp dw ds x else x)
  | some (dw, ds), none => placed dt (roundToInt dw ds (widenTy st bits) m)
  | none, _ => match floatOf dt with
    | some t => BitVec.ofNat 64 (roundTo t (widenTy st bits) m sat g)
    | none => 0
/-- The discarded bits of a conversion (02 R58). -/
def convertDiscard (dt st bits : Nat) : Nat :=
  match floatOf dt with
  | some t => discarded t (widenTy st bits)
  | none => 0
/-- Writes of a conversion's result: a pair for a 64-bit type. -/
def convertWrites (dt l d : Nat) (x : W64) : List RegWrite := if wideTy dt then writePair l d x else [.v l d (lo32 x)]
/-- A lane's source element. -/
def Warp.opSt (w : Warp) (f : Fields) (st l : Nat) : Nat := if wideTy st then (w.opA64 f l).toNat else (w.opA f l).toNat

/-- 04 R130 to R132; the neighbours under .rs are lanes l − 1 and l + 1 modulo W, without Exec contributing 0. -/
def execCvt (w : Std) (s : State) : Answer :=
  let f := Fields.ofStd w
  let dt := f.mod
  let st := f.b % 32
  let rnd := f.b / 32 % 8
  .next (s.onWarp fun e =>
    let act := s.exec e.w f.ga f.gb
    let disc (l : Nat) : Nat := if act.contains l then convertDiscard dt st (e.w.opSt f st l) else 0
    let n := e.w.width
    let g (l : Nat) : Nat := if rnd = 4 then stochastic (disc ((l + n - 1) % n)) (disc ((l + 1) % n)) else 0
    s.perLane f fun w l => convertWrites dt l f.d (convert dt st rnd (f.b / 256 == 1) (w.opSt f st l) (g l)))

/-- Element i of 16 unpacked values (04 R133). -/
def Warp.unpacked (w : Warp) (ty base l i : Nat) : XReal :=
  if ty = 0xF then widenTy ty (w.v l (base + i)).toNat
  else widenTy ty ((w.v l (base + i / 2)).toNat / 2 ^ (16 * (i % 2)) % 65536)
/-- Registers that hold a block. -/
def blockRegs (ty : Nat) : Nat := (blockCls ty).1
/-- A block in registers from `k` upward. -/
def blockWrites (ty l k block : Nat) : List RegWrite :=
  (List.range (blockRegs ty)).map fun i => .v l (k + i) (BitVec.ofNat 32 (block / 2 ^ (32 * i)))
/-- A block's bits from registers. -/
def Warp.blockBits (w : Warp) (ty k l : Nat) : Nat :=
  (List.range (blockRegs ty)).foldl (fun acc i => acc + (w.v l (k + i)).toNat * 2 ^ (32 * i)) 0 % 2 ^ (8 * bxBytes ty)

/-- 04 R133. -/
def execBxpack (w : Ext) (s : State) : Answer :=
  let f := Fields.ofExt w
  let ty := f.mod
  .next (s.perLane f fun w l =>
    let xs := (List.range 16).map (w.unpacked (f.mhi % 32) f.a l)
    blockWrites ty l f.d (bxPack (bxMant ty) xs ((RMode.ofCode (f.mhi / 32)).getD .rn)))

/-- 04 R134. -/
def execBxunpack (w : Ext) (s : State) : Answer :=
  let f := Fields.ofExt w
  let bt := f.mhi % 32
  let m := (RMode.ofCode (f.mhi / 32)).getD .rn
  .next (s.perLane f fun w l =>
    let block := w.blockBits bt f.a l
    let elem (i : Nat) : Nat := match floatOf f.mod with | some t => roundTo t (bxElem (bxMant bt) block i) m | none => 0
    if f.mod = 0xF then (List.range 16).map fun i => .v l (f.d + i) (BitVec.ofNat 32 (elem i))
    else (List.range 8).map fun i => .v l (f.d + i) (BitVec.ofNat 32 (elem (2 * i) + elem (2 * i + 1) * 65536)))

end Sys2Proof.Machine
end

