-- ==== Sys2Proof/Machine/Integer.lean ====
section
/-! DEFINITION. The 32-bit integer and the 64-bit and address instructions (04 R112 to R121). -/
namespace Sys2Proof.Machine

/-! ### Results -/

/-- Is a type code one of the unsigned types .n8 to .n64 (03 R84)? -/
def unsignedTy (ty : Nat) : Bool := decide (9 ≤ ty)
/-- A 32-bit value under a type. -/
def ext32 (un : Bool) (x : W32) : Int := if un then x.toNat else x.toInt
/-- An exact result, wrapped or with .sat clamped to the type's range (04 R114). -/
def narrow32 (un sat : Bool) (x : Int) : W32 := BitVec.ofInt 32 (if sat then intClamp 32 (!un) x else x)
/-- Bits [63:32] of the exact product (04 R113). -/
def mulHigh (un : Bool) (a b : W32) : W32 := hi32 (BitVec.ofInt 64 (ext32 un a * ext32 un b))
/-- The lesser under a type. -/
def minTy (un : Bool) (a b : W32) : W32 := if ext32 un a ≤ ext32 un b then a else b
/-- The greater under a type. -/
def maxTy (un : Bool) (a b : W32) : W32 := if ext32 un a ≤ ext32 un b then b else a
/-- Absolute value; −2^31 gives itself (04 R113). -/
def absInt (a : W32) : W32 := if a.msb then 0 - a else a
/-- Leading zeros, 32 for zero. -/
def countLead (a : W32) : W32 := BitVec.ofNat 32 (if a = 0 then 32 else 31 - a.toNat.log2)
/-- Trailing zeros, 32 for zero. -/
def countTrail (a : W32) : W32 := BitVec.ofNat 32 (((List.range 32).find? fun i => a.getLsbD i).getD 32)
/-- Set bits of a value of any width. -/
def countOnes {n : Nat} (a : BitVec n) : Nat := ((List.range n).filter fun i => a.getLsbD i).length
/-- Set bits, 0 to 32. -/
def popCount (a : W32) : W32 := BitVec.ofNat 32 (countOnes a)
/-- Bit i goes to bit 31 − i. -/
def bitReverse (a : W32) : W32 := a.reverse
/-- Shift left; 0 from a count of the width (04 R115, R119). -/
def shiftLeft {n : Nat} (a : BitVec n) (c : Nat) : BitVec n := if c < n then a <<< c else 0
/-- Logical shift right. -/
def shiftRight {n : Nat} (a : BitVec n) (c : Nat) : BitVec n := if c < n then a >>> c else 0
/-- Arithmetic shift right: sign copies from a count of the width. -/
def shiftArith {n : Nat} (a : BitVec n) (c : Nat) : BitVec n := if c < n then a.sshiftRight c else if a.msb then BitVec.allOnes n else 0
/-- Rotate left by the count modulo 32 (04 R115). -/
def rotate (a : W32) (c : Nat) : W32 := a.rotateLeft (c % 32)
/-- pos and w of a bit field (04 R116). -/
def fieldOf (b : W32) : Nat × Nat := (b.toNat % 256, min (b.toNat / 256 % 256) 32)
/-- Bit-field extract (04 R116). -/
def extractField (un : Bool) (a b : W32) : W32 :=
  let (pos, w) := fieldOf b
  let wide : Int := ext32 un a
  let x := wide / 2 ^ pos % 2 ^ w
  if w = 0 then 0 else BitVec.ofInt 32 (if !un ∧ x ≥ 2 ^ (w - 1) then x - 2 ^ w else x)
/-- Bit-field insert (04 R116). -/
def insertField (a b c : W32) : W32 :=
  let (pos, w) := fieldOf b
  let mask : W32 := shiftLeft (BitVec.ofNat 32 (2 ^ w - 1)) pos
  (c &&& ~~~mask) ||| (shiftLeft a pos &&& mask)
/-- Byte i of a word, signed or not. -/
def byteOf (sg : Bool) (x : W32) (i : Nat) : Int := let b := x.extractLsb' (8 * i) 8; if sg then b.toInt else b.toNat
/-- Four-byte dot product with addend (04 R120). -/
def dotBytes (mod : Nat) (a b c : W32) : W32 :=
  let sum := (List.range 4).foldl (fun (t : Int) i => t + byteOf (mod.testBit 0) a i * byteOf (mod.testBit 1) b i) c.toInt
  narrow32 false (mod.testBit 2) sum
/-- Sum of absolute byte differences with addend (04 R120). -/
def sadBytes (mod : Nat) (a b c : W32) : W32 :=
  let sum := (List.range 4).foldl (fun (t : Int) i => t + (byteOf (mod.testBit 0) a i - byteOf (mod.testBit 1) b i).natAbs) c.toInt
  narrow32 false (mod.testBit 2) sum
/-- ext(b) shifted by sh, for `lea` and `leahi` (04 R119): MODLO[2:0] the shift, MODLO[3] sign extension. -/
def leaIndex (mod : Nat) (b : W32) : W64 := (if mod.testBit 3 then b.signExtend 64 else b.setWidth 64) <<< (mod % 8)
/-- Quotient truncated toward zero (04 R121). -/
def divTy (un : Bool) (a b : W32) : W32 := BitVec.ofInt 32 ((ext32 un a).tdiv (ext32 un b))
/-- Remainder with the sign of the dividend (04 R121). -/
def remTy (un : Bool) (a b : W32) : W32 := BitVec.ofInt 32 ((ext32 un a).tmod (ext32 un b))

/-! ### Drivers of the family -/

/-- D := r(type, A, B). -/
def State.int2 (s : State) (f : Fields) (r : Bool → W32 → W32 → W32) : State :=
  s.vOp f fun w l => r (unsignedTy f.mod) (w.opA f l) (w.opB f l)
/-- D := r(type, A, B, C). -/
def State.int3 (s : State) (f : Fields) (r : Bool → W32 → W32 → W32 → W32) : State :=
  s.vOp f fun w l => r (unsignedTy f.mod) (w.opA f l) (w.opB f l) (w.opC f l)
/-- D := r(A). -/
def State.int1 (s : State) (f : Fields) (r : W32 → W32) : State := s.vOp f fun w l => r (w.opA f l)
/-- D := r(A, count B). -/
def State.shift (s : State) (f : Fields) (r : W32 → Nat → W32) : State := s.vOp f fun w l => r (w.opA f l) (w.opB f l).toNat
/-- A result and a carry through the predicate of MOD[3:0] (04 R117); index 15 reads no carry and discards it. -/
def State.carryOp (s : State) (f : Fields) (r : W32 → W32 → Bool → W32 × Bool) : State :=
  s.perLane f fun w l =>
    let c := f.mod % 16
    let x := r (w.opA f l) (w.opB f l) (c != 15 && w.p l c)
    [.v l f.d x.1, .p l c x.2]
/-- P(D) := A cond B. -/
def State.icmp32 (s : State) (f : Fields) : State := s.pOp f fun w l => intCompare f.mod (w.opA f l) (w.opB f l)
/-- P(D) := A cond B at 64 bits. -/
def State.icmp64 (s : State) (f : Fields) : State := s.pOp f fun w l => intCompare f.mod (w.opA64 f l) (w.opB64 f l)
/-- D:D+1 := r(A, B) at 64 bits. -/
def State.int64 (s : State) (f : Fields) (r : W64 → W64 → W64) : State := s.vOp64 f fun w l => r (w.opA64 f l) (w.opB64 f l)
/-- D:D+1 := A shifted by the count B[31:0] (04 R119). -/
def State.shift64 (s : State) (f : Fields) (r : W64 → Nat → W64) : State := s.vOp64 f fun w l => r (w.opA64 f l) (w.opB f l).toNat
/-- Division: divide-by-zero in any lane with Exec leaves no effect (04 R121). -/
def State.divide (s : State) (op reason : Nat) (f : Fields) (r : Bool → W32 → W32 → W32) : State :=
  s.onWarp fun e =>
    match (s.exec e.w f.ga f.gb).find? fun l => e.w.opB f l == 0 with
    | some l => s.raise e { cause := 0x11, reason := reason, lane := l, info := (e.w.opA f l).setWidth 64 }
    | none => s.vOpLong op f fun w l => r (unsignedTy f.mod) (w.opA f l) (w.opB f l)

/-! ### Meanings -/

/-- 04 R113. -/
def execIadd (w : Std) (s : State) : Answer := .next (s.int2 (.ofStd w) fun _ a b => a + b)
/-- 04 R113, R114. -/
def execIaddExt (w : Ext) (s : State) : Answer :=
  .next (s.int2 (.ofExt w) fun un a b => narrow32 un (w.modhi.getLsbD 0) (ext32 un a + ext32 un b))
/-- 04 R113. -/
def execIsub (w : Std) (s : State) : Answer := .next (s.int2 (.ofStd w) fun _ a b => a - b)
/-- 04 R113, R114. -/
def execIsubExt (w : Ext) (s : State) : Answer :=
  .next (s.int2 (.ofExt w) fun un a b => narrow32 un (w.modhi.getLsbD 0) (ext32 un a - ext32 un b))
/-- 04 R117. -/
def execIaddc (w : Std) (s : State) : Answer := .next (s.carryOp (.ofStd w) addCarry)
/-- 04 R117. -/
def execIsubb (w : Std) (s : State) : Answer := .next (s.carryOp (.ofStd w) subBorrow)
/-- 04 R113. -/
def execImul (w : Std) (s : State) : Answer := .next (s.int2 (.ofStd w) fun _ a b => a * b)
/-- 04 R113. -/
def execImulExt (w : Ext) (s : State) : Answer := .next (s.int2 (.ofExt w) fun _ a b => a * b)
/-- 04 R113. -/
def execImulh (w : Std) (s : State) : Answer := .next (s.int2 (.ofStd w) mulHigh)
/-- 04 R113. -/
def execImad (w : Ext) (s : State) : Answer := .next (s.int3 (.ofExt w) fun _ a b c => a * b + c)
/-- 04 R119. -/
def execImadw (w : Ext) (s : State) : Answer :=
  let f := Fields.ofExt w
  let un := unsignedTy f.mod
  .next (s.vOp64 f fun w l => BitVec.ofInt 64 (ext32 un (w.opA f l) * ext32 un (w.opB f l)) + w.opC64 f l)
/-- 04 R113. -/
def execIneg (w : Std) (s : State) : Answer := .next (s.int1 (.ofStd w) fun a => 0 - a)
/-- 04 R113. -/
def execIabs (w : Std) (s : State) : Answer := .next (s.int1 (.ofStd w) absInt)
/-- 04 R113. -/
def execImin (w : Std) (s : State) : Answer := .next (s.int2 (.ofStd w) minTy)
/-- 04 R113. -/
def execIminExt (w : Ext) (s : State) : Answer := .next (s.int2 (.ofExt w) minTy)
/-- 04 R113. -/
def execImax (w : Std) (s : State) : Answer := .next (s.int2 (.ofStd w) maxTy)
/-- 04 R113. -/
def execImaxExt (w : Ext) (s : State) : Answer := .next (s.int2 (.ofExt w) maxTy)
/-- 04 R113: min(max(a, b), c). -/
def execIclamp (w : Ext) (s : State) : Answer := .next (s.int3 (.ofExt w) fun un a b c => minTy un (maxTy un a b) c)
/-- 04 R113. -/
def execIand (w : Std) (s : State) : Answer := .next (s.int2 (.ofStd w) fun _ a b => a &&& b)
/-- 04 R113. -/
def execIandExt (w : Ext) (s : State) : Answer := .next (s.int2 (.ofExt w) fun _ a b => a &&& b)
/-- 04 R113. -/
def execIor (w : Std) (s : State) : Answer := .next (s.int2 (.ofStd w) fun _ a b => a ||| b)
/-- 04 R113. -/
def execIorExt (w : Ext) (s : State) : Answer := .next (s.int2 (.ofExt w) fun _ a b => a ||| b)
/-- 04 R113. -/
def execIxor (w : Std) (s : State) : Answer := .next (s.int2 (.ofStd w) fun _ a b => a ^^^ b)
/-- 04 R113. -/
def execIxorExt (w : Ext) (s : State) : Answer := .next (s.int2 (.ofExt w) fun _ a b => a ^^^ b)
/-- 04 R113. -/
def execInot (w : Std) (s : State) : Answer := .next (s.int1 (.ofStd w) fun a => ~~~a)
/-- 04 R113. -/
def execIandn (w : Std) (s : State) : Answer := .next (s.int2 (.ofStd w) fun _ a b => a &&& ~~~b)
/-- 04 R113. -/
def execIandnExt (w : Ext) (s : State) : Answer := .next (s.int2 (.ofExt w) fun _ a b => a &&& ~~~b)
/-- 04 R115. -/
def execIshl (w : Std) (s : State) : Answer := .next (s.shift (.ofStd w) shiftLeft)
/-- 04 R115. -/
def execIshr (w : Std) (s : State) : Answer := .next (s.shift (.ofStd w) shiftRight)
/-- 04 R115. -/
def execIsar (w : Std) (s : State) : Answer := .next (s.shift (.ofStd w) shiftArith)
/-- 04 R115. -/
def execIrot (w : Std) (s : State) : Answer := .next (s.shift (.ofStd w) rotate)
/-- 04 R116. -/
def execIbfe (w : Ext) (s : State) : Answer := .next (s.int2 (.ofExt w) extractField)
/-- 04 R116. -/
def execIbfi (w : Ext) (s : State) : Answer := .next (s.int3 (.ofExt w) fun _ => insertField)
/-- 04 R113. -/
def execIpopc (w : Std) (s : State) : Answer := .next (s.int1 (.ofStd w) popCount)
/-- 04 R113. -/
def execIclz (w : Std) (s : State) : Answer := .next (s.int1 (.ofStd w) countLead)
/-- 04 R113. -/
def execIctz (w : Std) (s : State) : Answer := .next (s.int1 (.ofStd w) countTrail)
/-- 04 R113. -/
def execIbrev (w : Std) (s : State) : Answer := .next (s.int1 (.ofStd w) bitReverse)
/-- 04 R117: the predicate of MOD[3:0] selects; p15 gives a. -/
def execIsel (w : Std) (s : State) : Answer :=
  let f := Fields.ofStd w
  .next (s.vOp f fun w l => if w.p l (f.mod % 16) then w.opA f l else w.opB f l)
/-- 04 R118. -/
def execIcmp (w : Std) (s : State) : Answer := .next (s.icmp32 (.ofStd w))
/-- 04 R118. -/
def execIcmpExt (w : Ext) (s : State) : Answer := .next (s.icmp32 (.ofExt w))
/-- 04 R120. -/
def execIdot4 (w : Ext) (s : State) : Answer := .next (s.int3 (.ofExt w) fun _ => dotBytes w.modlo.toNat)
/-- 04 R120. -/
def execIsad (w : Ext) (s : State) : Answer := .next (s.int3 (.ofExt w) fun _ => sadBytes w.modlo.toNat)
/-- 04 R119. -/
def execLea (w : Ext) (s : State) : Answer :=
  let f := Fields.ofExt w
  .next (s.vOp64 f fun w l => w.opA64 f l + leaIndex f.mod (w.opB f l))
/-- 04 R119: bits [63:32] of (c ∥ a) plus the index. -/
def execLeahi (w : Ext) (s : State) : Answer :=
  let f := Fields.ofExt w
  .next (s.vOp f fun w l => hi32 (pair64 (w.opA f l) (w.opC f l) + leaIndex f.mod (w.opB f l)))
/-- 04 R119. -/
def execAdd64 (w : Std) (s : State) : Answer := .next (s.int64 (.ofStd w) fun a b => a + b)
/-- 04 R119. -/
def execAdd64Ext (w : Ext) (s : State) : Answer := .next (s.int64 (.ofExt w) fun a b => a + b)
/-- 04 R119. -/
def execSub64 (w : Std) (s : State) : Answer := .next (s.int64 (.ofStd w) fun a b => a - b)
/-- 04 R119. -/
def execSub64Ext (w : Ext) (s : State) : Answer := .next (s.int64 (.ofExt w) fun a b => a - b)
/-- 04 R118. -/
def execCmp64 (w : Std) (s : State) : Answer := .next (s.icmp64 (.ofStd w))
/-- 04 R118. -/
def execCmp64Ext (w : Ext) (s : State) : Answer := .next (s.icmp64 (.ofExt w))
/-- 04 R119. -/
def execShl64 (w : Std) (s : State) : Answer := .next (s.shift64 (.ofStd w) shiftLeft)
/-- 04 R119: type .i64 (0x08) is arithmetic. -/
def execShr64 (w : Std) (s : State) : Answer :=
  .next (s.shift64 (.ofStd w) (if w.mod = 8#5 then shiftArith else shiftRight))
/-- 04 R121. -/
def execIdiv (w : Std) (s : State) : Answer := .next (s.divide 0x028 1 (.ofStd w) divTy)
/-- 04 R121. -/
def execIrem (w : Std) (s : State) : Answer := .next (s.divide 0x029 2 (.ofStd w) remTy)

end Sys2Proof.Machine
end

