-- ==== Sys2Proof/Machine/Compact.lean ====
section
/-! DEFINITION. The compact pair (03 R76 to R78, R101; 04 R142): each slot acts as its standard form, and both read before either writes. -/
namespace Sys2Proof.Machine

/-- S at 32 bits, an immediate supplied by its type's rule. -/
def Warp.slotS (w : Warp) (x : Slot) (l : Nat) (imm : W32) : W32 :=
  match x.sk.toNat with | 0 => w.v l x.s.toNat | 1 => imm | _ => lo32 (w.s x.s.toNat)
/-- S, raw or integer. -/
def Warp.slotI (w : Warp) (x : Slot) (l : Nat) : W32 := w.slotS x l (BitVec.ofInt 32 x.s.toInt)
/-- S of a floating-point type. -/
def Warp.slotF (w : Warp) (x : Slot) (t : FFmt) (l : Nat) : W32 := w.slotS x l (BitVec.ofNat 32 (exactBits t x.s.toInt))
/-- S of a packed pair. -/
def Warp.slotP (w : Warp) (x : Slot) (t : FFmt) (l : Nat) : W32 :=
  w.slotS x l (let h := exactBits t x.s.toInt; BitVec.ofNat 32 (h + h * 65536))
/-- S at 64 bits. -/
def Warp.slot64 (w : Warp) (x : Slot) (l : Nat) : W64 :=
  match x.sk.toNat with | 0 => w.v2 l x.s.toNat | 1 => BitVec.ofInt 64 x.s.toInt | _ => w.s x.s.toNat

/-- The result of a compact opcode in a lane, 32 or 64 bits (03 R101). -/
def Warp.slotResult (w : Warp) (x : Slot) (l : Nat) : W32 ⊕ W64 :=
  let op := x.op.toNat
  let d := w.v l x.d.toNat
  let i := w.slotI x l
  let rnd (base : Nat) : RMode := (RMode.ofCode (op - base)).getD .rn
  let flt (m : RMode) (r : RMode → XReal → XReal → XReal) : W32 := fres .f32 m false (r m (fval .f32 d) (fval .f32 (w.slotF x .f32 l)))
  let half (m : RMode) (r : RMode → XReal → XReal → XReal) : W32 :=
    let b := w.slotP x .f16 l
    let h (p q : W32) : W32 := fres .f16 m false (r m (fval .f16 p) (fval .f16 q))
    packHalves (h (loHalf d) (loHalf b)) (h (hiHalf d) (hiHalf b))
  let mul : RMode → XReal → XReal → XReal := fun _ => XReal.mul
  let cvt (dt st rm : Nat) : W32 :=
    let src := match floatOf st with | some t => w.slotF x t l | none => i
    lo32 (convert dt st rm false src.toNat 0)
  match op with
  | 0x01 => .inl (d + i) | 0x02 => .inl (d - i) | 0x03 => .inl (d * i)
  | 0x04 => .inl (minTy false d i) | 0x05 => .inl (maxTy false d i) | 0x06 => .inl (minTy true d i) | 0x07 => .inl (maxTy true d i)
  | 0x08 => .inl (d &&& i) | 0x09 => .inl (d ||| i) | 0x0A => .inl (d ^^^ i) | 0x0B => .inl (d &&& ~~~i)
  | 0x0C => .inl (shiftLeft d i.toNat) | 0x0D => .inl (shiftRight d i.toNat) | 0x0E => .inl (shiftArith d i.toNat)
  | 0x0F => .inl (rotate d i.toNat)
  | 0x10 => .inl (0 - i) | 0x11 => .inl (absInt i) | 0x12 => .inl (~~~i) | 0x13 => .inl (popCount i)
  | 0x14 => .inl (countLead i) | 0x15 => .inl (countTrail i) | 0x16 => .inl (bitReverse i) | 0x17 => .inl i
  | 0x18 | 0x19 | 0x1A | 0x1B => .inl (flt (rnd 0x18) XReal.add)
  | 0x1C | 0x1D | 0x1E | 0x1F => .inl (flt (rnd 0x1C) mul)
  | 0x20 | 0x21 | 0x22 | 0x23 => .inl (flt (rnd 0x20) XReal.sub)
  | 0x24 => .inl (fminmax .f32 false d (w.slotF x .f32 l)) | 0x25 => .inl (fminmax .f32 true d (w.slotF x .f32 l))
  | 0x26 => .inl (half .rn XReal.add) | 0x27 => .inl (half .rn mul)
  | 0x28 => .inl (cvt 0x0F 0x07 0) | 0x29 => .inl (cvt 0x0F 0x0B 0) | 0x2A => .inl (cvt 0x07 0x0F 0) | 0x2B => .inl (cvt 0x0B 0x0F 0)
  | 0x2C => .inl (cvt 0x07 0x0F 1) | 0x2D => .inl (cvt 0x0B 0x0F 1) | 0x2E => .inl (cvt 0x0F 0x0D 0) | 0x2F => .inl (cvt 0x0F 0x0E 0)
  | 0x30 => .inl (cvt 0x0D 0x0F 0) | 0x31 => .inl (cvt 0x0E 0x0F 0)
  | 0x32 => .inr (w.v2 l x.d.toNat + w.slot64 x l) | 0x33 => .inr (w.v2 l x.d.toNat - w.slot64 x l)
  | 0x34 => .inr (shiftLeft (w.v2 l x.d.toNat) i.toNat) | 0x35 => .inr (shiftRight (w.v2 l x.d.toNat) i.toNat)
  | 0x36 => .inl (mulHigh false d i) | 0x37 => .inl (mulHigh true d i)
  | 0x38 | 0x39 | 0x3A => .inl (half (rnd 0x37) XReal.add)
  | 0x3B | 0x3C | 0x3D => .inl (half (rnd 0x3A) mul)
  | 0x3E => .inl (cvt 0x0F 0x10 0)
  | _ => .inl (cvt 0x0F 0x11 0)

/-- What a slot writes in a lane with Exec: guard GRD with no negate (03 R77). -/
def Warp.slotWrites (w : Warp) (x : Slot) (l : Nat) : List RegWrite :=
  match w.slotResult x l with
  | .inl r => [.v l x.d.toNat r]
  | .inr r => writePair l x.d.toNat r
/-- The lanes of ACTIVE in which a slot acts. -/
def State.slotLanes (s : State) (w : Warp) (x : Slot) : List Nat := (s.act w).filter fun l => w.p l x.grd.toNat

/-- 03 R77: one unit on one path; both slots read all their sources before either writes. -/
def execCompactPair (p : Pair) (s : State) : Answer :=
  .next (s.onWarp fun e =>
    s.finish e ((s.slotLanes e.w p.s0).flatMap (e.w.slotWrites p.s0) ++ (s.slotLanes e.w p.s1).flatMap (e.w.slotWrites p.s1)))

end Sys2Proof.Machine
end

