-- ==== Sys2Proof/Machine/CrossLane.lean ====
section
/-! DEFINITION. The cross-lane instructions (04 R143 to R153), but for `bnload`, which is a memory access. -/
namespace Sys2Proof.Machine

/-! ### The Benes network (04 R144, R146, R147) -/

/-- n of a warp of 2^n lanes. -/
def netSize (width : Nat) : Nat := width.log2
/-- The lane bit that stage s pairs: |s − (n − 1)|. -/
def stageBit (n s : Nat) : Nat := (s - (n - 1)) + ((n - 1) - s)
/-- SwitchIndex(g, b). -/
def switchIndex (g b : Nat) : Nat := g / 2 ^ (b + 1) * 2 ^ b + g % 2 ^ b
/-- Bit(s, g): the control-bit index of the stage-s switch whose lo lane is g. -/
def netBit (n s g : Nat) : Nat := s * 2 ^ (n - 1) + switchIndex g (stageBit n s)

/-- The inner loop of Route: follows one cycle from o; `fuel` bounds its length. -/
def routeCycle (perm inv : List Nat) (h : Nat) : Nat → Nat → List (Option Bool) → List (Option Bool)
  | 0, _, side => side
  | fuel + 1, o, side =>
    match side.getD o none with
    | some _ => side
    | none =>
      let side := (side.set o (some false)).set (o ^^^ h) (some true)
      routeCycle perm inv h fuel (inv.getD (perm.getD o 0 ^^^ h) 0 ^^^ h) side

/-- Route(T, m, perm): the indexes of the control bits that are set. -/
def route (n : Nat) : Nat → Nat → List Nat → List Nat
  | 0, _, _ => []
  | 1, t, perm => if perm.getD 0 0 = 1 then [netBit n (n - 1) (t * 2)] else []
  | m + 2, t, perm =>
    let size := 2 ^ (m + 2)
    let h := 2 ^ (m + 1)
    let g0 := t * size
    let inv := (List.range size).map fun x => perm.findIdx fun y => y == x
    let side := (List.range h).foldl (fun side k => routeCycle perm inv h size k side) (List.replicate size none)
    let sd (o : Nat) : Bool := (side.getD o none).getD false
    let here := (List.range h).flatMap fun j =>
      (if sd (inv.getD j 0) then [netBit n (n - (m + 2)) (g0 + j)] else [])
        ++ if sd j then [netBit n (n + m) (g0 + j)] else []
    let sub (w : Bool) : List Nat := (List.range h).map fun q => perm.getD (if sd q = w then q else q + h) 0 % h
    here ++ route n (m + 1) (2 * t) (sub false) ++ route n (m + 1) (2 * t + 1) (sub true)

/-- The control word with the given bits set. -/
def netWord (bits : List Nat) : BitVec 352 := bits.foldl (fun x i => x ||| (1#352 <<< i)) 0

/-- The lanes whose request is honoured, with what they ask for (04 R146): in range and not claimed by a lower lane. -/
def netOk (width : Nat) (ask : Nat → Option Nat) : List (Nat × Nat) :=
  (List.range width).foldl (fun acc l => match ask l with
    | some x => if x < width ∧ !acc.any (fun p => p.2 == x) then acc ++ [(l, x)] else acc
    | none => acc) []
/-- The whole permutation: the other lanes take the spare lanes in increasing order. -/
def netPerm (width : Nat) (ok : List (Nat × Nat)) : List Nat :=
  let spare := (List.range width).filter fun x => !ok.any fun p => p.2 == x
  ((List.range width).foldl (fun (acc : List Nat × List Nat) l => match ok.find? fun p => p.1 == l with
    | some p => (acc.1 ++ [p.2], acc.2)
    | none => (acc.1 ++ [acc.2.headD 0], acc.2.tail)) ([], spare)).1

/-- Stage s exchanges the values of its switches whose control bit is set (04 R147). -/
def netStage {α : Type} (n : Nat) (word : BitVec 352) (xs : List α) (s : Nat) (dflt : α) : List α :=
  let b := stageBit n s
  (List.range (2 ^ n)).map fun i =>
    let lo := if i.testBit b then i - 2 ^ b else i
    if word.getLsbD (netBit n s lo) then xs.getD (i ^^^ 2 ^ b) dflt else xs.getD i dflt
/-- The values after every stage. -/
def netApply {α : Type} (n : Nat) (word : BitVec 352) (xs : List α) (dflt : α) : List α :=
  (List.range (2 * n - 1)).foldl (fun xs s => netStage n word xs s dflt) xs

/-- 04 R146. -/
def execBnperm (w : Std) (s : State) : Answer :=
  let f := Fields.ofStd w
  .next (s.onWarp fun e =>
    let act := s.exec e.w f.ga f.gb
    let n := netSize e.w.width
    let ok := netOk e.w.width fun l => if act.contains l then some (e.w.v l f.a).toNat else none
    let word := netWord (route n n 0 (netPerm e.w.width ok))
    s.finishLong e f.la (opDests 0x0A1 f)
      (if act.isEmpty then [] else .bn f.d word :: if f.mod % 16 = 15 then [] else act.map fun l => .p l (f.mod % 16) (ok.any fun p => p.1 == l)))
/-- 04 R147. -/
def execBnmov (w : Std) (s : State) : Answer :=
  let f := Fields.ofStd w
  .next (s.onWarp fun e =>
    let act := s.exec e.w f.ga f.gb
    let xs := (List.range e.w.width).map fun l => if act.contains l then e.w.v l f.a else 0
    let ys := netApply (netSize e.w.width) (e.w.bnr f.b) xs 0
    s.finishLong e f.la (opDests 0x0A2 f) (act.map fun l => .v l f.d (ys.getD l 0)))

/-! ### Shuffles, votes and reductions -/

/-- The source lane of `shfl` (04 R148): MOD[1:0] the mode, MOD[4:2] the segment. -/
def shflSource (width mod l k : Nat) : Nat :=
  let size := if mod / 4 = 0 then width else 2 ^ (mod / 4)
  let base := l - l % size
  let q := l % size
  match mod % 4 with
  | 0 => base + k % size
  | 1 => base + (q + k % size) % size
  | 2 => base + (q + size - k % size) % size
  | _ => base + (q ^^^ (k % size))
/-- 04 R148. -/
def execShfl (w : Std) (s : State) : Answer :=
  let f := Fields.ofStd w
  .next (s.onWarp fun e =>
    let act := s.exec e.w f.ga f.gb
    s.vOpLong 0x0A3 f fun w l =>
      let src := shflSource w.width f.mod l (w.opB f l).toNat
      if act.contains src then w.v src f.a else 0)

/-- 04 R149. -/
def execVote (w : Std) (s : State) : Answer :=
  let f := Fields.ofStd w
  .next (s.onWarp fun e =>
    let act := s.exec e.w f.ga f.gb
    let val (l : Nat) : Bool := e.w.p l f.a != f.mod.testBit 2
    let yes := act.filter val
    match f.mod % 4 with
    | 0 => s.pOp f fun _ _ => yes.length == act.length
    | 1 => s.pOp f fun _ _ => !yes.isEmpty
    | 2 => s.pOp f fun _ _ => yes.isEmpty || yes.length == act.length
    | _ => s.vOp64 f fun _ _ => maskOf yes)

/-- The reduction of a list of values (04 R150, R151); an empty list gives the identity. MOD[2:0] the operation, MOD[3] unsigned. -/
def reduce (mod : Nat) (xs : List W32) : W32 :=
  let un := mod.testBit 3
  match mod % 8 with
  | 0 => xs.foldl (fun a b => a + b) 0
  | 1 => xs.foldl (minTy un) (if un then 0xFFFFFFFF else 0x7FFFFFFF)
  | 2 => xs.foldl (maxTy un) (if un then 0 else 0x80000000)
  | 3 => xs.foldl (fun a b => a &&& b) 0xFFFFFFFF
  | 4 => xs.foldl (fun a b => a ||| b) 0
  | 5 => xs.foldl (fun a b => a ^^^ b) 0
  | _ => fres .f32 .rn false (XReal.sum .rn (xs.map (fval .f32)))
/-- 04 R150. -/
def execRedux (w : Std) (s : State) : Answer :=
  let f := Fields.ofStd w
  .next (s.onWarp fun e =>
    let xs := (s.exec e.w f.ga f.gb).map fun l => e.w.v l f.a
    s.vOpLong 0x0A5 f fun _ _ => reduce f.mod xs)
/-- 04 R151: MOD[4] selects the exclusive form. -/
def execScan (w : Std) (s : State) : Answer :=
  let f := Fields.ofStd w
  .next (s.onWarp fun e =>
    let act := s.exec e.w f.ga f.gb
    s.vOpLong 0x0A6 f fun w l => reduce f.mod ((act.filter fun j => decide (j < l) || (j == l && !f.mod.testBit 4)).map fun j => w.v j f.a))
/-- 04 R152. -/
def execMatchLanes (w : Std) (s : State) : Answer :=
  let f := Fields.ofStd w
  .next (s.onWarp fun e =>
    let act := s.exec e.w f.ga f.gb
    s.perLaneLong 0x0A7 f fun w l => writePair l f.d (maskOf (act.filter fun j =>
      if f.mod.testBit 0 then w.v2 j f.a == w.v2 l f.a else w.v j f.a == w.v l f.a)))
/-- 04 R153; a mask is taken modulo the warp width (R143; log entry 22). -/
def execPopm (w : Std) (s : State) : Answer :=
  let f := Fields.ofStd w
  .next (s.vOp f fun w l =>
    let m := w.opA64 f l &&& BitVec.ofNat 64 (2 ^ w.width - 1)
    BitVec.ofNat 32 (if f.mod.testBit 0 then countOnes (m &&& (BitVec.ofNat 64 (2 ^ l - 1))) else countOnes m))

end Sys2Proof.Machine
end

