-- ==== Sys2Proof/Machine/Geometry.lean ====
section
/-! DEFINITION. Exact geometry of the ray engine (08 R269, R271, R276): fractions, boxes, triangles, instance transforms. -/
namespace Sys2Proof.Machine

/-- An exact fraction; the denominator is positive. -/
structure Frac where
  num : Int
  den : Nat
  deriving DecidableEq, Repr
/-- An integer. -/
def Frac.ofInt (x : Int) : Frac := ⟨x, 1⟩
/-- Sum. -/
def Frac.add (a b : Frac) : Frac := ⟨a.num * b.den + b.num * a.den, a.den * b.den⟩
/-- Difference. -/
def Frac.sub (a b : Frac) : Frac := ⟨a.num * b.den - b.num * a.den, a.den * b.den⟩
/-- Product. -/
def Frac.mul (a b : Frac) : Frac := ⟨a.num * b.num, a.den * b.den⟩
/-- Quotient by a nonzero fraction. -/
def Frac.div (a b : Frac) : Frac := ⟨(if b.num < 0 then -1 else 1) * a.num * b.den, a.den * b.num.natAbs⟩
/-- Comparison. -/
def Frac.le (a b : Frac) : Bool := decide (a.num * b.den ≤ b.num * a.den)
/-- Strict comparison. -/
def Frac.lt (a b : Frac) : Bool := decide (a.num * b.den < b.num * a.den)
/-- Equality of values. -/
def Frac.eqv (a b : Frac) : Bool := a.num * b.den == b.num * a.den
/-- The larger. -/
def Frac.max (a b : Frac) : Frac := if a.le b then b else a
/-- The smaller. -/
def Frac.min (a b : Frac) : Frac := if a.le b then a else b
/-- The value as a float rounds it, .rn. -/
def Frac.toF32 (a : Frac) : W32 := BitVec.ofNat 32 (roundTo .f32 (.fin (a.num < 0) a.num.natAbs a.den) .rn)
/-- A finite float. -/
def fracOf (x : W32) : Option Frac :=
  match widen .f32 x.toNat with
  | .fin n a b => some ⟨if n then -(a : Int) else a, b⟩
  | _ => none
/-- A list of finite floats. -/
def fracsOf (xs : List W32) : Option (List Frac) := xs.mapM fracOf

/-- A vector. -/
structure Vec3 where
  x : Frac
  y : Frac
  z : Frac
  deriving DecidableEq, Repr
/-- Difference of vectors. -/
def Vec3.sub (a b : Vec3) : Vec3 := ⟨a.x.sub b.x, a.y.sub b.y, a.z.sub b.z⟩
/-- Dot product. -/
def Vec3.dot (a b : Vec3) : Frac := (a.x.mul b.x).add ((a.y.mul b.y).add (a.z.mul b.z))
/-- Cross product. -/
def Vec3.cross (a b : Vec3) : Vec3 :=
  ⟨(a.y.mul b.z).sub (a.z.mul b.y), (a.z.mul b.x).sub (a.x.mul b.z), (a.x.mul b.y).sub (a.y.mul b.x)⟩
/-- Determinant of three columns. -/
def det3 (a b c : Vec3) : Frac := a.dot (b.cross c)
/-- The zero vector? -/
def Vec3.isZero (a : Vec3) : Bool := a.x.num == 0 && a.y.num == 0 && a.z.num == 0
/-- The opposite vector. -/
def Vec3.neg (a : Vec3) : Vec3 := ⟨⟨-a.x.num, a.x.den⟩, ⟨-a.y.num, a.y.den⟩, ⟨-a.z.num, a.z.den⟩⟩
/-- Three floats as a vector, if all are finite. -/
def vecOf (a b c : W32) : Option Vec3 :=
  match fracOf a, fracOf b, fracOf c with
  | some x, some y, some z => some ⟨x, y, z⟩
  | _, _, _ => none

/-! ### Bounds (08 R276) -/

/-- Is a value at or above a lower bound that may be infinite? -/
def aboveMin (tmin : W32) (t : Frac) : Bool :=
  match widen .f32 tmin.toNat with | .inf n => n | .nan => false | .fin n a b => (Frac.mk (if n then -(a : Int) else a) b).le t
/-- Is a value at or below an upper bound that may be infinite? -/
def belowMax (tmax : W32) (t : Frac) : Bool :=
  match widen .f32 tmax.toNat with | .inf n => !n | .nan => false | .fin n a b => t.le (Frac.mk (if n then -(a : Int) else a) b)

/-! ### Triangles (08 R276) -/

/-- The exact solution t, u, v of a ray and a triangle; none if it yields no hit; culling by `cullF` and `cullB`. -/
def solveTri (o d v0 v1 v2 : Vec3) (tmin tmax : W32) (cullF cullB : Bool) : Option (Frac × Frac × Frac) :=
  let e1 := v1.sub v0
  let e2 := v2.sub v0
  let r := o.sub v0
  let nd := d.neg
  let det := det3 e1 e2 nd
  if det.num = 0 then none
  else
    let u := (det3 r e2 nd).div det
    let v := (det3 e1 r nd).div det
    let t := (det3 e1 e2 r).div det
    let facing := (e1.cross e2).dot d
    if u.num < 0 ∨ v.num < 0 ∨ !(u.add v).le (.ofInt 1) ∨ !aboveMin tmin t ∨ !belowMax tmax t then none
    else if (facing.num < 0 ∧ cullF) ∨ (facing.num > 0 ∧ cullB) then none
    else some (t, u, v)

/-! ### Boxes (08 R269, R277) -/

/-- Where the segment of a ray enters a slab, with its bounds so far; none if it misses. -/
def slab (o d lo hi : Frac) (near far : Option Frac) : Option (Option Frac × Option Frac) :=
  if d.num = 0 then (if lo.le o && o.le hi then some (near, far) else none)
  else
    let t1 := (lo.sub o).div d
    let t2 := (hi.sub o).div d
    let (a, b) := if t1.le t2 then (t1, t2) else (t2, t1)
    some (some (match near with | some n => n.max a | none => a), some (match far with | some f => f.min b | none => b))
/-- The bound of a float as a finite value; none if infinite. -/
def bound (x : W32) : Option Frac := fracOf x
/-- The distance at which the segment from tmin to a limit enters a box; none if it misses. A segment without a beginning, of a direction that an instance has
rounded to zero, enters below every distance. -/
def meetBox (o d lo hi : Vec3) (tmin : W32) (limit : Option Frac) : Option Frac :=
  match slab o.x d.x lo.x hi.x (bound tmin) limit with
  | none => none
  | some (n, f) => match slab o.y d.y lo.y hi.y n f with
    | none => none
    | some (n, f) => match slab o.z d.z lo.z hi.z n f with
      | some (n, f) =>
        let n := n.getD ⟨-(2 ^ 300), 1⟩
        if f.all n.le then some n else none
      | none => none
/-- lo or hi of a child's box on an axis: origin + q × 2^exp. -/
def boxEdge (origin : Frac) (q : Nat) (e : Int) : Frac :=
  origin.add (if e ≥ 0 then ⟨(q * 2 ^ e.toNat : Nat), 1⟩ else ⟨q, 2 ^ (-e).toNat⟩)

/-! ### Instances (08 R271) -/

/-- A row of the matrix applied: three products and, for a point, the translation, rounded once. -/
def xformRow (m : List W32) (v : List W32) (point : Bool) : W32 :=
  let w (x : W32) : XReal := widen .f32 x.toNat
  let ps := (List.zipWith (fun a b => (w a).mul (w b)) (m.take 3) v) ++ (if point then [w (m.getD 3 0)] else [])
  BitVec.ofNat 32 (roundTo .f32 (XReal.sum .rn ps) .rn)
/-- The eight values of a ray inside an instance. -/
def xformRay (m : List W32) (ray : List W32) : List W32 :=
  let rows := [m.take 4, (m.drop 4).take 4, (m.drop 8).take 4]
  rows.map (fun r => xformRow r (ray.take 3) true) ++ rows.map (fun r => xformRow r ((ray.drop 3).take 3) false) ++ ray.drop 6

end Sys2Proof.Machine
end

