-- ==== Sys2Proof/Machine/Network.lean ====
section
/-! DEFINITION. What the Tongs computes for a lane (07 R255 to R260), from the bytes of its record, weights and biases. -/
namespace Sys2Proof.Machine

/-! ### The format word (07 R255) -/

/-- A format of the Tongs by its code. -/
def nnFmt : Nat → Option FFmt
  | 0 => some .f32 | 1 => some .f16 | 2 => some .bf16 | 3 => some .e4m3 | 4 => some .e5m2 | _ => none
/-- A signed byte. -/
def signed8 (x : Nat) : Int := (BitVec.ofNat 8 x).toInt
/-- Fields of a format word. -/
structure NnFmt where
  ifmt : Nat
  ofmt : Nat
  hfmt : Nat
  rnd : Nat
  sat : Bool
  isc : Int
  osc : Int
  deriving DecidableEq, Repr
/-- 07 R255. -/
def NnFmt.ofWord (w : W32) : NnFmt :=
  let x := w.toNat
  ⟨x % 16, x / 16 % 16, x / 256 % 16, x / 4096 % 8, x / 2 ^ 15 % 2 == 1, signed8 (x / 2 ^ 16), signed8 (x / 2 ^ 24)⟩
/-- Is a format word valid? -/
def NnFmt.valid (f : NnFmt) : Bool :=
  decide (1 ≤ f.ifmt ∧ f.ifmt ≤ 4) && decide (1 ≤ f.hfmt ∧ f.hfmt ≤ 4) && decide (f.ofmt ≤ 4) && decide (f.rnd ≤ 4) && !(f.rnd == 4 && f.ofmt == 0)
/-- Elements in a register (07 R257). -/
def perReg (code : Nat) : Nat := if code = 0 then 1 else if code ≤ 2 then 2 else 4

/-! ### The network record (07 R256, R264) -/

/-- A network record. -/
structure NetRec where
  bitsOf : Nat
  deriving DecidableEq, Repr
/-- A field of the record. -/
def NetRec.field (r : NetRec) (hi lo : Nat) : Nat := r.bitsOf / 2 ^ lo % 2 ^ (hi + 1 - lo)
/-- Number of layers. -/
def NetRec.layers (r : NetRec) : Nat := r.field 135 128
/-- Width of hidden layer `t`. -/
def NetRec.h (r : NetRec) (t : Nat) : Nat := r.field (167 + 8 * (t - 1)) (160 + 8 * (t - 1))
/-- Activation of layer `t`. -/
def NetRec.act (r : NetRec) (t : Nat) : Nat := r.field (226 + 3 * (t - 1)) (224 + 3 * (t - 1))
/-- Weight format of layer `t` as a format code. -/
def NetRec.wfmt (r : NetRec) (t : Nat) : Nat := r.field (249 + 2 * (t - 1)) (248 + 2 * (t - 1)) + 1
/-- Inputs. -/
def NetRec.nin (r : NetRec) : Nat := r.field 143 136
/-- Outputs. -/
def NetRec.nout (r : NetRec) : Nat := r.field 151 144
/-- Output width of layer `t`. -/
def NetRec.out (r : NetRec) (t : Nat) : Nat := if t = r.layers then r.nout else r.h t
/-- Input width of layer `t`. -/
def NetRec.inw (r : NetRec) (t : Nat) : Nat := if t = 1 then r.nin else r.out (t - 1)
/-- The first condition on the record alone that fails (07 R264). -/
def NetRec.bad (r : NetRec) : Option Nat :=
  let l := r.layers
  let above := (List.range 8).map (· + 1) |>.filter fun t => decide (l < t)
  if l = 0 ∨ 8 < l then some 0x10
  else if r.nin = 0 ∨ 64 < r.nin ∨ r.nout = 0 ∨ 32 < r.nout ∨
      ((List.range 7).map (· + 1)).any (fun t => if t < l then r.h t == 0 || decide (128 < r.h t) else r.h t != 0) ∨
      above.any (fun t => r.act t != 0 || r.field (249 + 2 * (t - 1)) (248 + 2 * (t - 1)) != 0) then some 0x11
  else if ((List.range 8).map (· + 1)).any (fun t => decide (6 ≤ r.act t)) then some 0x12
  else if r.field 511 264 ≠ 0 ∨ r.field 223 216 ≠ 0 ∨ r.field 159 152 ≠ 0 then some 0x13
  else none
/-- Are the weight and bias bases misaligned (07 R264, REASON 0x16)? -/
def NetRec.misaligned (r : NetRec) : Bool := r.field 63 0 % 64 != 0 || r.field 127 64 % 16 != 0
/-- Bytes of a padded weight row of layer `t` (07 R257). -/
def NetRec.rowBytes (r : NetRec) (t : Nat) : Nat := (r.inw t * (if r.wfmt t ≤ 2 then 2 else 1) + 15) / 16 * 16
/-- Layer `t`'s weights: offset from WPTR and bytes. -/
def NetRec.weightsAt (r : NetRec) : Nat → Nat × Nat
  | 0 => (0, 0)
  | t + 1 =>
    let p := r.weightsAt t
    ((p.1 + p.2 + 63) / 64 * 64, r.out (t + 1) * r.rowBytes (t + 1))
/-- Layer `t`'s biases: offset from BPTR and bytes. -/
def NetRec.biasAt (r : NetRec) : Nat → Nat × Nat
  | 0 => (0, 0)
  | t + 1 => let p := r.biasAt t; (p.1 + p.2, (r.out (t + 1) * 4 + 15) / 16 * 16)

/-! ### Activations (07 R260) -/

/-- sqrt(2/pi) in fixed point. -/
def fixRoot2Pi : Nat := isqrt (2 * fixOne * fixOne * fixOne / fixPi)
/-- GELU of a finite value other than zero: x ÷ (1 + e^(−2z)) with z = √(2/π)(x + 0.044715x³) (log entry 15); where e^(−2z) is below 2^−300, a
positive x gives a value that lies below it by less than that part. -/
def geluFin (n : Bool) (a b : Nat) : XReal :=
  let num := fixRoot2Pi * 2 * (a * (1000000 * b * b + 44715 * a * a))
  let den := fixOne * (1000000 * b * b * b)
  if num > 208 * den then (if n then .fin true 1 (2 ^ 400) else .fin false (a * (2 ^ 300 - 1)) (b * 2 ^ 300))
  else match expFrac false num den with
    | .fin _ p q => if n then .fin true (a * q) (b * (p + q)) else .fin false (a * p) (b * (p + q))
    | v => v
/-- The activations. -/
def nnAct (code : Nat) (x : XReal) : XReal :=
  match code with
  | 0 => x
  | 1 => match x with | .nan => .nan | .inf n => if n then .fin false 0 1 else .inf false | .fin n a b => if n || a == 0 then .fin false 0 1 else .fin n a b
  | 2 => match x with | .nan => .nan | .inf n => if n then .fin true 0 1 else .inf false | .fin n a b => if a = 0 then x else geluFin n a b
  | 3 => fnSig x
  | 4 => fnTanh x
  | _ => fnSin x

/-! ### A lane's evaluation (07 R257, R259) -/

/-- Number of a byte string, least significant first. -/
def bytesNat (xs : List Byte) : Nat := xs.foldr (fun b n => b.toNat + 256 * n) 0
/-- A row of values rounded to a format; the .rs neighbours lie within the row (02 R61). -/
def roundRow (f : FFmt) (rnd : Nat) (sat : Bool) (ys : List XReal) : List Nat :=
  let mode := (RMode.ofCode rnd).getD .rn
  let n := ys.length
  let ds := ys.map (discarded f)
  ys.zipIdx.map fun (y, j) => roundTo f y mode sat (if mode = .rs then stochastic (ds.getD ((j + n - 1) % n) 0) (ds.getD ((j + 1) % n) 0) else 0)
/-- One layer before its rounding. -/
def NetRec.layer (r : NetRec) (t : Nat) (inCode : Nat) (weights biases : List Byte) (x : List XReal) : List XReal :=
  let f := (nnFmt (r.wfmt t)).getD .f16
  let z := f.width / 8
  let c := if perReg inCode = 2 ∨ r.wfmt t ≤ 2 then 16 else 32
  (List.range (r.out t)).map fun j =>
    let row := weights.drop (j * r.rowBytes t)
    let ws := (List.range (r.inw t)).map fun k => widen f (bytesNat ((row.drop (k * z)).take z))
    nnAct (r.act t) (widen .f32 (accumulate c (bytesNat ((biases.drop (4 * j)).take 4)) (List.zipWith XReal.mul ws x)))
/-- Layers from `t` on; `data` holds each layer's weights and biases in turn. -/
def NetRec.run (r : NetRec) (f : NnFmt) : Nat → Nat → List (List Byte) → List XReal → List Nat
  | 0, _, _, _ => []
  | n + 1, t, data, x =>
    let y := r.layer t (if t = 1 then f.ifmt else f.hfmt) (data.getD 0 []) (data.getD 1 []) x
    if t = r.layers then
      roundRow ((nnFmt f.ofmt).getD .f32) f.rnd f.sat (y.map fun v => v.mul (XReal.scaled false 1 1 f.osc))
    else
      let g := (nnFmt f.hfmt).getD .f16
      r.run f n (t + 1) (data.drop 2) ((roundRow g f.rnd f.sat y).map (widen g))
/-- A lane's result: the words of its output registers, from those of its inputs. -/
def NetRec.eval (r : NetRec) (word : W32) (data : List (List Byte)) (inputs : List W32) : List W32 :=
  let f := NnFmt.ofWord word
  let g := (nnFmt f.ifmt).getD .f16
  let e := perReg f.ifmt
  let x := (List.range r.nin).map fun i =>
    (widen g ((inputs.getD (i / e) 0).toNat / 2 ^ (i % e * g.width) % 2 ^ g.width)).mul (XReal.scaled false 1 1 f.isc)
  let out := r.run f 8 1 data x
  let h := (nnFmt f.ofmt).getD .f32
  let o := perReg f.ofmt
  (List.range ((r.nout + o - 1) / o)).map fun k =>
    BitVec.ofNat 32 ((List.range o).foldl (fun a i => a + (out.getD (k * o + i) 0) * 2 ^ (i * h.width)) 0)

end Sys2Proof.Machine
end

