-- ==== Sys2Proof/Machine/Tongs.lean ====
section
/-! DEFINITION. `nnev` and `nnflush` as they issue (07 R254, R258, R267), and the Tongs: batching, checking and returning tiles (R261 to R266). -/
namespace Sys2Proof.Machine

/-! ### Issue (07 R254, R258, R263) -/

/-- Format word of a lane. -/
def nnWord (f : Fields) (w : Warp) (l : Nat) : W32 := w.opC f l
/-- Handle of a lane. -/
def nnHandle (f : Fields) (w : Warp) (l : Nat) : W64 := w.opB64 f l
/-- The first failing check over the lanes with Exec (07 R258). -/
def nnBad (handle : Nat → W64) (word : Nat → W32) (ex : List Nat) : Option Trap :=
  match ex.find? fun l => (handle l).toNat % 64 != 0 with
  | some l => some { cause := 6, reason := 3, lane := l, info := handle l }
  | none => ex.findSome? fun g0 =>
      if (ex.takeWhile (· != g0)).any fun l => handle l == handle g0 then none
      else match ex.find? fun l => handle l == handle g0 && word l != word g0 with
        | some l => some { cause := 9, reason := 0, lane := l, info := handle g0, aux := some ((word g0).setWidth 64) }
        | none => if (NnFmt.ofWord (word g0)).valid then none else some { cause := 8, reason := 0x14, lane := g0, info := handle g0 }
/-- 07 R254, R258: the requests of the lanes go to the quad's Tongs; the warp stays disabled at the instruction until their tiles are checked
(R264, 12 R376). -/
def execNnev (w : Ext) (s : State) : Answer :=
  let f := Fields.ofExt w
  let dests := opDests 0x149 f
  .next (s.onWarp fun e =>
    match s.exec e.w f.ga f.gb with
    | [] => s.finishLong e f.la dests []
    | l0 :: ls =>
      let ex := l0 :: ls
      match nnBad (nnHandle f e.w) (nnWord f e.w) ex with
      | some t => s.raise e t
      | none =>
        if !e.w.cmdRoom || !e.w.logRoom dests.length then s.limit e.w
        else
          let id := e.w.nextLong
          let row (l : Nat) : NnRow :=
            ⟨e.w.id, id, l, f.a, f.d, e.l.hdr.regs, nnHandle f e.w l, nnWord f e.w l, ((e.w.lane l).v.drop f.a).take 64⟩
          let act := s.act e.w
          let o : LongOp := ⟨id, (e.w.lane (act.headD 0)).pc.addr, act.map fun l => (l, f.la), ex.length, false, dests, [.fmt (nnWord f e.w l0)], true, none⟩
          let v := { e.w with longs := e.w.longs ++ [o], nextLong := id + 1, disabled := true
                              spec := { e.w.spec with ulog := if e.w.spec.ckpt.isNone then 0 else e.w.spec.ulog + dests.length } }
          (s.putWarp v).stageCmd e.w.settled e.w.id (.nnev ⟨quadOf e.w.core, e.l.id, e.w.id, id, f.mod % 2 == 1, ex.map row⟩))
/-- 07 R267: completes once the pending tiles of the launch have been sent. -/
def execNnflush (w : Std) (s : State) : Answer :=
  let f := Fields.ofStd w
  .next (s.onWarp fun e =>
    if (s.exec e.w f.ga f.gb).isEmpty then s.finishLong e f.la [] []
    else if !e.w.cmdRoom || !e.w.logRoom 0 then s.limit e.w
    else (s.finishLong e f.la [] [] 1).stageCmd e.w.settled e.w.id (.nnev ⟨quadOf e.w.core, e.l.id, e.w.id, e.w.nextLong, true, []⟩))

/-! ### Tiles (07 R261) -/

/-- A quad's timer setting T. -/
def State.tongsTimer (s : State) (quad : Nat) : Nat := ((s.quads.timers.find? fun t => t.1 == quad).map (·.2)).getD 1024
/-- Changes a tile. -/
def State.modTile (s : State) (id : Nat) (f : Tile → Tile) : State :=
  { s with quads := { s.quads with tiles := s.quads.tiles.map fun t => if t.id = id then f t else t } }
/-- A row enters its tile: the pending one of its key with room, or a new one; a full tile is sent. -/
def State.enterRow (s : State) (quad launch : Nat) (r : NnRow) : State :=
  match s.quads.tiles.find? fun t => t.quad == quad && t.launch == launch && t.handle == r.handle && t.fmt == r.fmt && !t.sent with
  | some t => s.modTile t.id fun t => { t with rows := t.rows ++ [r], sent := decide (t.rows.length + 1 ≥ 128) }
  | none =>
    let t : Tile := ⟨s.ctr.tile, quad, launch, r.handle, r.fmt, [r], s.clock, s.tongsTimer quad, false, false, 0, false, [], []⟩
    { s with quads := { s.quads with tiles := s.quads.tiles ++ [t] }, ctr := { s.ctr with tile := s.ctr.tile + 1 } }
/-- Pending tiles are sent. -/
def State.sendTiles (s : State) (p : Tile → Bool) : State :=
  { s with quads := { s.quads with tiles := s.quads.tiles.map fun t => if p t then { t with sent := true } else t } }
/-- 07 R261, R267 (`.id` the quad): the oldest request of a quad reaches its Tongs. -/
def execTongsRequest (s : State) : Answer :=
  .next (match s.arg with
  | .id quad => match s.quads.nnReqs.find? fun r => r.quad == quad with
    | none => s
    | some r =>
      let s := { s with quads := { s.quads with nnReqs := s.quads.nnReqs.erase r } }
      if r.rows.isEmpty then
        (s.sendTiles fun t => t.quad == quad && t.launch == r.launch).modAnyWarp r.warp fun w => w.longPart r.long []
      else
        let s := r.rows.foldl (fun s x => s.enterRow quad r.launch x) s
        if r.flush then s.sendTiles fun t => t.rows.any fun x => x.warp == r.warp && x.long == r.long else s
  | _ => s)
/-- 07 R261 (`.id` the tile): T clk have passed since its first row entered. -/
def execTongsTimerExpiry (s : State) : Answer :=
  .next (match s.arg with
  | .id id => s.sendTiles fun t => t.id == id && decide (t.firstAt + t.timer ≤ s.clock)
  | _ => s)

/-! ### Checking a tile (07 R264, R265) -/

/-- A number that no block has: the owner of the Tongs' passes. -/
def noBlock : Nat := 2 ^ 64
/-- The rows of an instruction leave every tile and request. -/
def State.withdraw (s : State) (warp long : Nat) : State :=
  let keep (r : NnRow) : Bool := !(r.warp == warp && r.long == long)
  { s with quads := { s.quads with
      tiles := (s.quads.tiles.map fun t => { t with rows := t.rows.filter keep }).filter fun t => !t.rows.isEmpty
      nnReqs := s.quads.nnReqs.filter fun r => !(r.warp == warp && r.long == long) } }
/-- A warp traps at its `nnev`: the instruction leaves nothing behind (07 R265, 01 R40). -/
def State.nnTrap (s : State) (l : Launch) (warp long : Nat) (t : Trap) : State :=
  match s.warp? warp with
  | none => s
  | some w => match w.longs.find? fun o => o.id == long with
    | none => s
    | some o =>
      let v := { w with longs := w.longs.filter (fun o => o.id != long), disabled := false }
      let path := (o.left.map (·.1)).filter fun l => (v.lane l).populated && !(v.lane l).exited
      ((s.withdraw warp long).putWarp v).raiseOn v l path (some true) t
/-- The instructions with rows in a tile: warp, long instruction, lowest lane. -/
def Tile.owners (t : Tile) : List (Nat × Nat × Nat) :=
  (dedup (t.rows.map fun r => (r.warp, r.long))).map fun (w, o) =>
    (w, o, (sortNat ((t.rows.filter fun r => r.warp == w && r.long == o).map (·.lane))).headD 0)
/-- Every warp with a row in the tile traps. -/
def State.failTile (s : State) (l : Launch) (t : Tile) (trap : Nat → Trap) : State :=
  t.owners.foldl (fun s x => s.nnTrap l x.1 x.2.1 (trap x.2.2)) s
/-- The trap of a read that failed for a tile. -/
def tileTrap (h : W64) (x : ReadFail) (lane : Nat) : Trap :=
  match x with
  | .acc (.served q) => { cause := 4, reason := 6, lane := lane, info := h, aux := some q.va, served := some { q with reason := 6 } }
  | .acc f => { f.trap lane none with info := h, aux := some f.va }
  | .bad va r => { cause := 0xF, reason := r, lane := lane, info := h, aux := some va, fatal := true }
/-- Do the registers that an instruction's rows read and write exist (07 R264, REASON 0x15)? -/
def rowFits (r : NetRec) (x : NnRow) : Bool :=
  let f := NnFmt.ofWord x.fmt
  decide (x.src + ceilDiv r.nin (perReg f.ifmt) ≤ x.regs) && decide (x.dst + ceilDiv r.nout (perReg f.ofmt) ≤ x.regs)
/-- A warp whose rows are all in checked tiles goes on: its window opens (07 R264). -/
def State.nnOpen (s : State) (warp long : Nat) : State :=
  let mine (r : NnRow) : Bool := r.warp == warp && r.long == long
  if s.quads.nnReqs.any (fun r => r.rows.any mine) || s.quads.tiles.any (fun t => !t.checked && t.rows.any mine) then s
  else s.modAnyWarp warp fun w =>
    match w.longs.find? fun o => o.id == long with
    | none => w
    | some o =>
      let act := o.left.map (·.1)
      let v := { w with longs := w.longs.filter (fun p => p.id != long), disabled := false }.advance ⟨false, warp, 0, maskOf act, 2, (0, 0), 0⟩ act
      { v with longs := v.longs ++ [o] }
/-- The tile is checked: its bytes are read, its first layer enters the reservation table. -/
def State.passTile (s : State) (l : Launch) (t : Tile) (w : Who) (r : NetRec) (record : List Byte) (data : List (List Byte)) (gs : List Seg) : State :=
  let s := ((s.useReads 0 gs).dropFetched w.agent).modTile t.id fun t => { t with checked := true, layers := r.layers, record := record, data := data }
  let o : AnvilOp := ⟨s.ctr.cmd, t.quad, noBlock, l.id, 0, .tongs t.id 1, l.hdr.prio, s.cycles, s.clock, false, none, none, none⟩
  let s := { s with quads := { s.quads with ops := s.quads.ops ++ [o] }, ctr := { s.ctr with cmd := s.ctr.cmd + 1 } }
  t.owners.foldl (fun s x => s.nnOpen x.1 x.2.1) s
/-- A failed read of a tile. -/
def State.tileReadFail (s : State) (l : Launch) (t : Tile) (w0 : Warp) (x : ReadFail) : State :=
  match x with
  | .acc (.ats va) => s.askHost (.tongs w0.id) l .read va w0.core w0.slot
  | _ => s.failTile l t (tileTrap t.handle x)
/-- The rows of a tile whose warps belong to another block than a given one. -/
def State.strangers (s : State) (t : Tile) (block : Nat) : List NnRow :=
  t.rows.filter fun r => (s.anyWarp? r.warp).any fun w => w.block != block
/-- A tile whose record, weights or biases lie in the window gives up the rows of other blocks, for which these addresses name other bytes (07 R262; 01
R34): they make a tile of their own. -/
def State.splitTile (s : State) (t : Tile) (block : Nat) : State :=
  let out := s.strangers t block
  { s with
    ctr := { s.ctr with tile := s.ctr.tile + 1 }
    quads := { s.quads with tiles := s.quads.tiles.map (fun x => if x.id = t.id then { x with rows := x.rows.filter fun r => !out.contains r } else x) ++
      [{ t with id := s.ctr.tile, rows := out }] } }
/-- Is an address of a tile such that rows of other blocks must leave it? -/
def State.splits (s : State) (t : Tile) (block : Nat) (vas : List W64) : Bool := vas.any inWindow && !(s.strangers t block).isEmpty
/-- 07 R264, R265 (`.id` the tile): a sent tile's record, weights and biases are checked and read. -/
def execTongsTileCheck (s : State) : Answer :=
  .next (match s.arg with
  | .id id => match s.quads.tiles.find? fun t => t.id == id && t.sent && !t.checked with
    | none => s
    | some t => match s.launch? t.launch, s.warp? ((t.rows.map (·.warp)).headD 0) with
      | some l, some w0 =>
        if !s.tableRoom t.quad then s
        else if s.splits t w0.block [t.handle] then s.splitTile t w0.block
        else
          let who : Who := ⟨l, w0.core, w0.block, .tongs w0.id⟩
          match s.reachRead who t.handle 64 with
          | .error x => s.tileReadFail l t w0 x
          | .ok g0 => match s.agentPrep who g0 [] with
            | some s => s
            | none =>
            let record := s.reachBytes who g0
            let r : NetRec := ⟨leNat record⟩
            let invalid (reason lane : Nat) : Trap := { cause := 8, reason := reason, lane := lane, info := t.handle, aux := some t.handle }
            match r.bad with
            | some c => s.failTile l t (invalid c)
            | none =>
              let unfit := t.owners.filter fun x => t.rows.any fun y => y.warp == x.1 && y.long == x.2.1 && !rowFits r y
              if !unfit.isEmpty then unfit.foldl (fun s x => s.nnTrap l x.1 x.2.1 (invalid 0x15 x.2.2)) s
              else if r.misaligned then s.failTile l t (invalid 0x16)
              else
                let ts := (List.range r.layers).map (· + 1)
                let ranges := ts.flatMap fun k =>
                  [(BitVec.ofNat 64 (r.field 63 0 + (r.weightsAt k).1), (r.weightsAt k).2), (BitVec.ofNat 64 (r.field 127 64 + (r.biasAt k).1), (r.biasAt k).2)]
                if s.splits t w0.block (ranges.map (·.1)) then s.splitTile t w0.block
                else match s.reachAll who ranges with
                | .error x => s.tileReadFail l t w0 x
                | .ok gss => match s.agentPrep who gss.flatten [] with
                  | some s => s
                  | none => s.passTile l t who r record (gss.map (s.reachBytes who)) (g0 ++ gss.flatten)
      | _, _ => s
  | _ => s)

/-- 07 R259, R262, R263 (`.id` the tile): every row's result returns to its instruction. -/
def execTongsTileResult (s : State) : Answer :=
  .next (match s.arg with
  | .id id => match s.quads.tiles.find? fun t => t.id == id && t.passed with
    | none => s
    | some t =>
      let r : NetRec := ⟨leNat t.record⟩
      let s := t.rows.foldl (fun s x =>
        let out := r.eval x.fmt t.data x.inputs
        s.modAnyWarp x.warp fun w => w.longPart x.long (out.zipIdx.map fun (v, k) => .v x.lane (x.dst + k) v)) s
      { s with quads := { s.quads with tiles := s.quads.tiles.filter fun t => t.id != id } }
  | _ => s)

end Sys2Proof.Machine
end

