-- ==== Sys2Proof/Machine/Ray.lean ====
section
/-! DEFINITION. The ray instructions as they issue (08 R272 to R275, R279 to R281) and the ray engine's traversal (R268 to R271, R276 to R278),
with the Larder's lookups (10 R339). Order of visits: log entry 14. -/
namespace Sys2Proof.Machine

/-! ### Pointers and results (08 R268, R275) -/

/-- KIND. -/
def ptrKind (p : W64) : Nat := bits p.toNat 63 62
/-- REMOTE. -/
def ptrRemote (p : W64) : Bool := p.getLsbD 61
/-- The sign-extended address, with the owner's bits of a remote pointer cleared. -/
def ptrAddr (p : W64) : W64 :=
  let a : W64 := (p.setWidth 57).signExtend 64
  if ptrRemote p then a &&& ~~~0x7F#64 else a
/-- The owning package of a remote pointer. -/
def ptrOwner (p : W64) : Nat := bits p.toNat 6 0
/-- The status words. -/
def missWords (ray : List W32) : List W32 := [0, ray.getD 7 0, 0, 0, 0, 0xFFFFFFFF, 0, 0]
/-- HIT (1) and CAND (2). -/
def hitWords (st : Nat) (h : Hit) : List W32 :=
  [BitVec.ofNat 32 (st + h.geom.toNat % 2 ^ 24 * 256), h.t, h.u, h.v, h.prim, h.instId, lo32 (BitVec.ofNat 64 h.triAddr), hi32 (BitVec.ofNat 64 h.triAddr)]
/-- FAULT, LEASE, UNCORR, BADNODE with an address. -/
def faultWords (st : Nat) (va : W64) : List W32 := [BitVec.ofNat 32 st, 0, 0, 0, 0, 0, lo32 va, hi32 va]
/-- NOQUERY. -/
def noQueryWords : List W32 := [4, 0, 0, 0, 0, 0, 0, 0]

/-! ### Issue (08 R273, R280, R281) -/

/-- A ray instruction: one request for each lane with Exec. -/
def State.rayOp (s : State) (op : Nat) (f : Fields) (act : RayAct) (root : Warp → Nat → W64) : State :=
  let dests := opDests op f
  s.onWarp fun e =>
    match s.exec e.w f.ga f.gb with
    | [] => s.finishLong e f.la dests []
    | l0 :: ls =>
      let ex := l0 :: ls
      let bad (l : Nat) : Option (Nat × AccFault) :=
        let p := root e.w l
        if act = .trace ∧ inWindow (ptrAddr p) ∧ ptrKind p ≠ 0 then
          match s.windowLoc e.who (ptrAddr p) (if ptrKind p = 2 then 48 else 128) with
          | .error x => some (l, x)
          | .ok _ => none
        else none
      match ex.findSome? bad with
      | some (l, x) => s.raise e (x.trap l none)
      | none =>
        if !e.w.cmdRoom || !e.w.logRoom dests.length then s.limit e.w
        else
          let long := e.w.nextLong
          let req (l : Nat) : RayReq :=
            ⟨e.w.id, l, long, f.d, act, (e.w.lane l).pc.addr, root e.w l, ((e.w.lane l).v.drop f.a).take 8, f.imm⟩
          (s.finishLong e f.la dests [] ex.length).stageCmd e.w.settled e.w.id (.ray (ex.map req))
/-- 08 R273 to R276. -/
def execRtrace (w : Ext) (s : State) : Answer := let f := Fields.ofExt w; .next (s.rayOp 0x160 f .trace fun w l => w.opB64 f l)
/-- 08 R279. -/
def execRnext (w : Std) (s : State) : Answer := .next (s.rayOp 0x161 (.ofStd w) .next fun _ _ => 0)
/-- 08 R279. -/
def execRhit (w : Std) (s : State) : Answer :=
  let f := Fields.ofStd w
  .next (s.rayOp 0x162 f (if f.mod % 2 = 1 then .hitEnd else .hit) fun _ _ => 0)
/-- 08 R279. -/
def execRend (w : Std) (s : State) : Answer := .next (s.rayOp 0x163 (.ofStd w) .finish fun _ _ => 0)
/-- 08 R279. -/
def execRquery (w : Std) (s : State) : Answer := .next (s.rayOp 0x164 (.ofStd w) .query fun _ _ => 0)

/-! ### Hits and limits (08 R276 to R278) -/

/-- The exact t of a hit. -/
def Hit.frac (h : Hit) : Frac := ⟨h.tNum, h.tDen⟩
/-- Does a hit precede another? Outside instances the instance record's address counts as 0. -/
def Hit.before (a b : Hit) : Bool :=
  let (i, j) := (a.instAddr.getD 0, b.instAddr.getD 0)
  a.frac.lt b.frac || (a.frac.eqv b.frac && (decide (i < j) || (i == j && decide (a.triAddr < b.triAddr))))
/-- Does a hit precede the committed one? -/
def RayQuery.precedes (q : RayQuery) (h : Hit) : Bool := match q.committed with | some c => h.before c | none => true
/-- The current limit: the committed hit, else tmax; none if infinite. -/
def RayQuery.limit (q : RayQuery) : Option Frac := match q.committed with | some c => some c.frac | none => bound (q.ray.getD 7 0)
/-- A query that has ended with a result. -/
def RayQuery.ended (q : RayQuery) (words : List W32) : RayQuery := { q with state := .done, result := words, items := [], cand := none, noted := [] }
/-- The result of a traversal that is complete; `remote`: noted children count (08 R278). The number of remote children takes every noted one, those beyond
the final limit too: R275 does not say (log entry 90). -/
def RayQuery.final (q : RayQuery) (remote : Bool) : List W32 :=
  let w := match q.committed with | some c => hitWords 1 c | none => missWords q.ray
  let near := if remote then q.noted.filter fun n => match q.limit with | some l => (Frac.mk n.num n.den).le l | none => true else []
  let less (a b : Noted) : Bool :=
    (Frac.mk a.num a.den).lt ⟨b.num, b.den⟩ || ((Frac.mk a.num a.den).eqv ⟨b.num, b.den⟩ &&
      (decide (ptrOwner a.ptr < ptrOwner b.ptr) || (ptrOwner a.ptr == ptrOwner b.ptr && decide ((ptrAddr a.ptr).toNat < (ptrAddr b.ptr).toNat))))
  match near with
  | [] => w
  | n :: ns =>
    let m := ns.foldl (fun m x => if less x m then x else m) n
    (BitVec.ofNat 32 (3 + min q.remotes 255 * 256 + q.committed.isSome.toNat * 65536) :: (w.drop 1).take 5) ++ [lo32 m.ptr, hi32 m.ptr]
/-- Does a ray miss at once (08 R276)? -/
def rayVoid (ray : List W32) : Bool :=
  let w (i : Nat) : XReal := widen .f32 (ray.getD i 0).toNat
  (List.range 8).any (fun i => (w i).isNan) || (List.range 6).any (fun i => match w i with | .fin _ _ _ => false | _ => true) ||
    ((w 3).isZero && (w 4).isZero && (w 5).isZero) || (w 7).lt (w 6)

/-! ### One visit -/

/-- Is the segment from tmin to tmax empty because a bound is infinite on the wrong side (08 R276, R278)? -/
def segVoid (ray : List W32) : Bool :=
  (match widen .f32 (ray.getD 6 0).toNat with | .inf n => !n | _ => false) || (match widen .f32 (ray.getD 7 0).toNat with | .inf n => n | _ => false)
/-- What a visit leads to: the query goes on, stops at a candidate, ends with a fault status, waits for a node from the Larder or for what must come
before a read, or a read failed. -/
inductive Visit where
  | on (q : RayQuery) (used : List Seg)
  | cand (q : RayQuery) (used : List Seg)
  | status (st : Nat) (va : W64)
  | fill (va : W64) (owner : Nat)
  | prep (s : State)
  | fail (x : ReadFail)

/-- Fields of an instance record. -/
structure InstRec where
  xform : List W32
  root : W64
  instId : W32
  imask : Nat
  fopq : Bool
  nocull : Bool
/-- 08 R271. -/
def InstRec.ofBytes (bs : List Byte) : InstRec :=
  let x := leNat bs
  ⟨(List.range 12).map fun i => BitVec.ofNat 32 (bits x (32 * i + 31) (32 * i)), BitVec.ofNat 64 (bits x 447 384), BitVec.ofNat 32 (bits x 479 448),
    bits x 487 480, bits x 488 488 == 1, bits x 489 489 == 1⟩

/-- The children of a node that are visited: those whose box the segment meets and, by a free choice, others; a remote child that no Larder serves
is noted (08 R269, R277, R278). -/
def State.openNode (s : State) (q : RayQuery) (ray : List W32) (inst : Option Nat) (node : List Byte) (salt : Nat) (larder : Bool) : RayQuery :=
  let x := leNat node
  let o? := vecOf (ray.getD 0 0) (ray.getD 1 0) (ray.getD 2 0)
  let d? := vecOf (ray.getD 3 0) (ray.getD 4 0) (ray.getD 5 0)
  let org? := vecOf (BitVec.ofNat 32 (bits x 31 0)) (BitVec.ofNat 32 (bits x 63 32)) (BitVec.ofNat 32 (bits x 95 64))
  let exp (a : Nat) : Int := (BitVec.ofNat 8 (bits x (103 + 8 * a) (96 + 8 * a))).toInt
  (List.range 8).foldl (fun q i =>
    let p : W64 := BitVec.ofNat 64 (bits x (575 + 64 * i) (512 + 64 * i))
    let b (j : Nat) : Nat := (node.getD (16 + 6 * i + j) 0).toNat
    if ptrKind p = 0 ∨ b 3 < b 0 ∨ b 4 < b 1 ∨ b 5 < b 2 then q
    else
      let k := salt * 8 + i
      let entry : Option Frac := match o?, d?, org? with
        | some o, some d, some g => if segVoid ray then none else
          meetBox o d ⟨boxEdge g.x (b 0) (exp 0), boxEdge g.y (b 1) (exp 1), boxEdge g.z (b 2) (exp 2)⟩
            ⟨boxEdge g.x (b 3) (exp 0), boxEdge g.y (b 4) (exp 1), boxEdge g.z (b 5) (exp 2)⟩ (ray.getD 6 0) q.limit
        | _, _, _ => if s.choose (2 ^ 74 + k) then some ⟨s.pick (2 ^ 75 + k), 1⟩ else none
      match entry with
      | some t =>
        if ptrRemote p && ptrKind p == 1 && inst.isNone && !larder then
          { q with noted := q.noted ++ [⟨p, t.num, t.den⟩], remotes := q.remotes + 1 }
        else { q with items := q.items ++ [⟨p, inst, 0, t.num, t.den⟩] }
      | none =>
        if !ptrRemote p && s.choose (2 ^ 76 + k) then { q with items := q.items ++ [⟨p, inst, 0, 0, 1⟩] } else q) q

/-- The next triangle of a leaf is tested (08 R270, R276, R277). -/
def testTri (q : RayQuery) (ray : List W32) (inst : Option InstRec) (it : RayItem) (data : List Byte) (va : W64) : RayQuery × Bool :=
  let x := leNat data
  let f (i : Nat) : W32 := BitVec.ofNat 32 (bits x (32 * i + 31) (32 * i))
  let last := decide (it.tri ≥ bits it.ptr.toNat 60 57)
  let rest := q.items.erase it ++ (if last then [] else [{ it with tri := it.tri + 1 }])
  let q := { q with items := rest }
  let ctl := q.ctl.toNat
  let cull := match inst with | some r => !r.nocull | none => true
  match vecOf (ray.getD 0 0) (ray.getD 1 0) (ray.getD 2 0), vecOf (ray.getD 3 0) (ray.getD 4 0) (ray.getD 5 0), vecOf (f 0) (f 1) (f 2),
      vecOf (f 3) (f 4) (f 5), vecOf (f 6) (f 7) (f 8) with
  | some o, some d, some v0, some v1, some v2 =>
    match solveTri o d v0 v1 v2 (ray.getD 6 0) (ray.getD 7 0) (cull && bits ctl 10 10 == 1) (cull && bits ctl 9 9 == 1) with
    | none => (q, false)
    | some (t, u, v) =>
      let h : Hit := ⟨t.num, t.den, t.toF32, u.toF32, v.toF32, BitVec.ofNat 32 (bits x 343 320), BitVec.ofNat 32 (bits x 319 288),
        (match inst with | some r => r.instId | none => 0xFFFFFFFF), it.inst, va.toNat⟩
      if !q.precedes h || q.offered.contains (it.inst, va.toNat) then (q, false)
      else if bits x 344 344 == 1 || (match inst with | some r => r.fopq | none => false) || bits ctl 8 8 == 1 then
        ({ q with committed := some h, items := if bits ctl 11 11 = 1 then [] else q.items }, false)
      else ({ q with cand := some h, state := .cand, offered := q.offered ++ [(it.inst, va.toNat)] }, true)
  | _, _, _, _, _ => (q, false)

/-- The Larder line of a node of another package (10 R339). -/
def State.larderLine (s : State) (l : Launch) (owner : Nat) (va : W64) : Option (List Byte) :=
  (s.larder.lines.find? fun x => x.tenant == l.hdr.tenant && x.owner == owner && x.vline == va.toNat % 2 ^ 57 / 128).map (·.bytes)
/-- Can the Larder serve a node: does the launch's translation lead to the owner's memory (08 R278)? -/
def State.larderReach (s : State) (l : Launch) (owner : Nat) (va : W64) : Option Nat :=
  match s.xlate l .read true false va with
  | .ok m => if isFabric m.pa && targetOf m.pa == owner && !m.io then some m.pa else none
  | .error _ => none
/-- Is the Larder in use for a query (08 R278; 13 R421)? -/
def State.larderOn (s : State) (q : RayQuery) : Bool :=
  q.ctl.getLsbD 12 && (match s.features with | some f => f.getLsbD 8 | none => false) && decide (0 < s.larder.units)

/-- A read of a visit: it fails, waits for what must come first, or goes on with its runs and bytes. -/
def State.visitRead (s : State) (w : Who) (va : W64) (n : Nat) (k : List Seg → List Byte → Visit) : Visit :=
  match s.reachRead w va n with
  | .error x => .fail x
  | .ok gs => match s.agentPrep w gs [] with
    | some t => .prep t
    | none => k gs (s.reachBytes w gs)
/-- A visit outside an instance, or inside one, whose record is read again. -/
def State.visitIn (s : State) (w : Who) (it : RayItem) (k : Option InstRec → List Seg → Visit) : Visit :=
  match it.inst with
  | none => k none []
  | some a => s.visitRead w (BitVec.ofNat 64 a) 128 fun gs bs => k (some (.ofBytes bs)) gs
/-- One visit of an item: a node, a triangle of a leaf, an instance (08 R268 to R278). A record whose ROOT is empty, of KIND 00, ends the query with BADNODE
like one of another kind: the spec does not name it (log entry 89). -/
def State.visit (s : State) (w : Who) (q : RayQuery) (it : RayItem) (salt : Nat) : Visit :=
  let p := it.ptr
  let va := ptrAddr p
  let drop : RayQuery := { q with items := q.items.erase it }
  s.visitIn w it fun inst used =>
    let ray := match inst with | some r => xformRay r.xform q.ray | none => q.ray
    if ptrKind p = 0 then .on drop []
    else if ptrRemote p then
      if ptrKind p ≠ 1 ∨ it.inst.isSome then .status 0xB va
      else
        let noted : RayQuery := { drop with noted := drop.noted ++ [⟨p, it.num, it.den⟩], remotes := drop.remotes + 1 }
        if !s.larderOn q || it.tri == 1 then .on noted []
        else match s.larderReach w.launch (ptrOwner p) va with
          | none => .on noted []
          | some _ => match s.larderLine w.launch (ptrOwner p) va with
            | some node => .on (s.openNode drop ray none node salt true) []
            | none => .fill va (ptrOwner p)
    else if ptrKind p = 1 then
      if va.toNat % 128 ≠ 0 then .status 0xB va
      else s.visitRead w va 128 fun gs bs => .on (s.openNode drop ray it.inst bs salt (s.larderOn q)) (used ++ gs)
    else if ptrKind p = 2 then
      if va.toNat % 16 ≠ 0 then .status 0xB va
      else
        let ta := va + BitVec.ofNat 64 (48 * it.tri)
        s.visitRead w ta 48 fun gs bs =>
          let (q, stop) := testTri q ray inst it bs ta
          if stop then .cand q (used ++ gs) else .on q (used ++ gs)
    else if it.inst.isSome ∨ va.toNat % 128 ≠ 0 then .status 0xB va
    else s.visitRead w va 128 fun gs bs =>
      let r := InstRec.ofBytes bs
      if bits q.ctl.toNat 7 0 &&& r.imask = 0 then .on drop gs
      else if ptrRemote r.root ∨ !(ptrKind r.root = 1 ∨ ptrKind r.root = 2) then .status 0xB (ptrAddr r.root)
      else .on { drop with items := drop.items ++ [⟨r.root, some va.toNat, 0, it.num, it.den⟩] } gs

/-! ### The traversal -/

/-- A lane's query is set, in a checkpoint too: what the ray engine does is not undone by a rollback (08 R280). -/
def Warp.setQuery (w : Warp) (lane : Nat) (q : RayQuery) : Warp :=
  let f (r : WarpRegs) : WarpRegs := r.modLane lane fun t => { t with query := q }
  { w with regs := f w.regs, spec := { w.spec with ckpt := w.spec.ckpt.map fun c => { c with regs := f c.regs } } }
/-- A request ends: the query is kept, the eight results return (08 R275). -/
def State.rayEnd (s : State) (r : RayReq) (q : RayQuery) (words : List W32) : State :=
  let s := { s.dropWait (.ray r.warp r.lane) with rays := s.rays.filter fun x => !(x.warp == r.warp && x.lane == r.lane && x.long == r.long) }
  s.modAnyWarp r.warp fun w =>
    (w.setQuery r.lane q).longPart r.long ((words.zipIdx).map fun (x, k) => .v r.lane (r.dest + k) x)
/-- The request goes on from its query in a later step. -/
def State.rayPause (s : State) (r : RayReq) (q : RayQuery) : State :=
  { s with rays := s.rays.map fun x : RayReq => if x.warp = r.warp ∧ x.lane = r.lane ∧ x.long = r.long then { x with act := .run } else x }.modAnyWarp r.warp fun w => w.setQuery r.lane q
/-- A fault status ends the query; LEASE and UNCORR also trap (08 R281). -/
def State.rayStatus (s : State) (r : RayReq) (w : Warp) (launch : Nat) (q : RayQuery) (st : Nat) (va : W64) (trap : Option (Nat × Nat)) : State :=
  let words := faultWords st va
  let s := match trap with
    | some (c, reason) => s.asyncTrapTo r.warp w.block launch w.core ⟨c, reason, va, r.addr⟩
    | none => s
  s.rayEnd r (q.ended words) words
/-- A line is asked of its owner for a traversal (10 R340). -/
def State.askLine (s : State) (r : RayReq) (l : Launch) (va : W64) (owner : Nat) : State :=
  if s.remotes.any fun x => x.lane == 65 && x.target == owner && x.va == va && x.warp == r.warp then s
  else match s.larderReach l owner va with
    | none => s
    | some pa =>
      let rid := s.ctr.remote
      { s.sendPacket ⟨s.pkg, owner, 0, l.hdr.prio, pa % 2 ^ 44, 128, none, 0, 0, rid, .fill⟩ with
        ctr := { s.ctr with remote := rid + 1 }
        remotes := s.remotes ++ [⟨rid, r.warp, owner, s.clock, true, 65, 0, va, 0, 0, none, [], [], 0, none⟩] }
/-- Visits, at most `fuel` in one step, in an order of the engine's choosing. -/
def State.traverse (s : State) (r : RayReq) (wp : Warp) (w : Who) : Nat → RayQuery → State
  | 0, q => s.rayPause r q
  | fuel + 1, q =>
    match q.items[s.pick (2 ^ 73 + fuel) % q.items.length]? with
    | none => let words := q.final true; s.rayEnd r (q.ended words) words
    | some it =>
      match s.visit w q it fuel with
      | .on q used => (s.useReads 0 used).traverse r wp w fuel q
      | .prep t => t.rayPause r q
      | .cand q used => match q.cand with
        | some h => (s.useReads 0 used).rayEnd r { q with result := hitWords 2 h } (hitWords 2 h)
        | none => s.rayPause r q
      | .status st va => s.rayStatus r wp w.launch.id q st va none
      | .fill va owner => (s.askLine r w.launch va owner).rayPause r q
      | .fail x => match x with
        | .acc (.served f) =>
          if s.failedAt (.ray r.warp r.lane) f.va then s.rayStatus r wp w.launch.id q 8 f.va none
          else (s.serveAgent (.ray r.warp r.lane) w.launch f wp.core wp.slot).rayPause r q
        | .acc (.ats va) => (s.askHost (.ray r.warp r.lane) w.launch .read va wp.core wp.slot).rayPause r q
        | .acc (.lease c va) => s.rayStatus r wp w.launch.id q 9 va (some (5, c))
        | .bad va c => s.rayStatus r wp w.launch.id q 0xA va (some (0xF, c))
        | .acc f => s.rayStatus r wp w.launch.id q 8 f.va none
/-- Visits in one step. -/
def rayFuel : Nat := 4096
/-- A new query from its ray (08 R276, R279). -/
def RayQuery.start (r : RayReq) : RayQuery :=
  { RayQuery.empty with
    ray := r.ray, ctl := r.ctl
    items := [⟨r.root, none, 0, (match bound (r.ray.getD 6 0) with | some t => t.num | none => -(2 ^ 300)), (match bound (r.ray.getD 6 0) with | some t => t.den | none => 1)⟩] }
/-- What a query shows without change (08 R279, `rquery`). -/
def RayQuery.shown (q : RayQuery) : List W32 :=
  match q.state with | .none => noQueryWords | _ => q.result
/-- The candidate is committed if it precedes the committed hit (08 R279). -/
def RayQuery.commit (q : RayQuery) : RayQuery :=
  match q.cand with
  | some h => { q with committed := if q.precedes h then some h else q.committed, cand := none, state := .none }
  | none => q
/-- A lane's request is carried out, or goes on (08 R279). -/
def State.rayStep (s : State) (r : RayReq) (wp : Warp) (w : Who) : State :=
  let q := (wp.lane r.lane).query
  let go (q : RayQuery) : State := s.traverse r wp w rayFuel q
  match r.act with
  | .trace =>
    if rayVoid r.ray then
      let words := missWords r.ray
      s.rayEnd r ((RayQuery.start r).ended words) words
    else go (RayQuery.start r)
  | .run => go q
  | .query => s.rayEnd r q q.shown
  | .next => if q.state = .cand then go { q with cand := none, state := .none } else s.rayEnd r q q.shown
  | .hit =>
    if q.state = .cand then
      let q := q.commit
      go (if bits q.ctl.toNat 11 11 = 1 then { q with items := [] } else q)
    else s.rayEnd r q q.shown
  | .hitEnd =>
    if q.state = .cand then let words := q.commit.final false; s.rayEnd r (q.commit.ended words) words else s.rayEnd r q q.shown
  | .finish =>
    if q.state = .cand then let words := q.final false; s.rayEnd r (q.ended words) words else s.rayEnd r RayQuery.empty q.shown
/-- 08 R277 to R281 (`.two` the warp and the lane): a lane's request ends, or waits for a fault's service or a line. -/
def execRayTraversalDone (s : State) : Answer :=
  .next (match s.arg with
  | .two warp lane => match s.rays.find? fun r => r.warp == warp && r.lane == lane, s.anyWarp? warp with
    | some r, some w => match (s.anyBlock? w.block).bind fun b => s.launch? b.launch with
      | some l =>
        if s.agentBusy (.ray warp lane) || s.remotes.any (fun x => x.lane == 65 && x.warp == warp) then s
        else s.rayStep r w ⟨l, w.core, w.block, .ray warp lane⟩
      | none => s
    | _, _ => s
  | _ => s)

end Sys2Proof.Machine
end

