-- ==== Sys2Proof/Machine/WorkCreation.lean ====
section
/-! DEFINITION. Instructions that create and regroup work: `emit`, `emitm` (05 R172 to R175) and `reorder` (R176 to R179). -/
namespace Sys2Proof.Machine

/-! ### Records -/

/-- Emit-depth (05 R173). -/
def emitTrap (reason lane nd : Nat) : Trap := { cause := 0xE, reason := reason, lane := lane, info := BitVec.ofNat 64 nd }
/-- The depth that a record of a lane would have (05 R173). -/
def recDepth (w : Warp) (l nd : Nat) : Nat := if (w.lane l).node = some nd then (w.lane l).depth + 1 else 0
/-- The check of one lane's record of N bytes: node, size, depth in a strict node (05 R173). -/
def emitBad (l : Launch) (w : Warp) (lane nd n : Nat) : Option Trap :=
  match l.nodes[nd]? with
  | none => some (emitTrap 3 lane nd)
  | some x =>
    if n ≠ x.recBytes then some (emitTrap 2 lane nd)
    else if recDepth w lane nd > x.maxDepth ∧ x.strict then some (emitTrap 1 lane nd)
    else none
/-- Is a record within its node's depth? -/
def depthOk (l : Launch) (w : Warp) (lane nd : Nat) : Bool :=
  match l.nodes[nd]? with | some x => decide (recDepth w lane nd ≤ x.maxDepth) | none => false
/-- Status word and result predicate of a lane (05 R173). -/
def emitStatus (f : Fields) (l : Launch) (w : Warp) (lane nd : Nat) : List RegWrite :=
  if depthOk l w lane nd then [.v lane f.d (BitVec.ofNat 32 (recDepth w lane nd * 256)), .p lane f.e true]
  else [.v lane f.d (BitVec.ofNat 32 (1 + (w.lane lane).depth * 256)), .p lane f.e false]
/-- Records join the staged buffer of a speculative warp; else they are sent: each waits for a pool slot in its turn (05 R174). -/
def State.stageRecords (s : State) (direct : Bool) (w launch : Nat) (rs : List EmitRec) : State :=
  if rs.isEmpty then s
  else if direct then
    (s.modLaunch launch fun l => { l with senders := l.senders ++ rs.map fun r => ⟨some w, none, r, s.clock, none⟩ }).modWarp w fun w =>
      { w with spec := { w.spec with sending := w.spec.sending + rs.length } }
  else s.modWarp w fun w =>
    { w with spec := { w.spec with emits := w.spec.emits ++ rs, order := w.spec.order ++ rs.map fun _ => true } }
/-- Record size (05 R172). -/
def Fields.recBytes (f : Fields) : Nat := 16 * (f.mhi % 16 + 1)
/-- The end of `emit` and `emitm`: status words, then the records in lane order. -/
def State.finishEmit (s : State) (e : Env) (f : Fields) (direct : Bool) (ex : List Nat) (nd : Nat → Nat) (bytes : Nat → List Byte) : State :=
  let rs := (ex.filter fun l => depthOk e.l e.w l (nd l)).map fun l => (⟨nd l, recDepth e.w l (nd l), bytes l⟩ : EmitRec)
  (s.finish e (ex.flatMap fun l => emitStatus f e.l e.w l (nd l))).stageRecords direct e.w.id e.l.id rs
/-- The room of an emit before it acts: it waits where it would pass a limit (01 R32), else goes on. -/
def State.emitRoom (s : State) (e : Env) (ex : List Nat) (nd : Nat → Nat) (k : State) : State :=
  let n := countIf (fun l => depthOk e.l e.w l (nd l)) ex
  if !e.w.settled && (decide (8 < e.w.spec.emits.length + n) || !e.w.logRoom 2) then s.limit e.w else k
/-- The checks and the room of an emit before it acts: a trap, a wait, or going on. -/
def State.emitReady (s : State) (e : Env) (f : Fields) (ex : List Nat) (nd : Nat → Nat) (k : State) : State :=
  match ex.findSome? fun l => emitBad e.l e.w l (nd l) f.recBytes with
  | some t => s.raise e t
  | none => s.emitRoom e ex nd k

/-- 05 R173: the record comes from registers. -/
def execEmit (w : Ext) (s : State) : Answer :=
  let f := Fields.ofExt w
  .next (s.onWarp fun e =>
    let ex := s.exec e.w f.ga f.gb
    let nd (l : Nat) : Nat := (e.w.opBi f l f.imm).toNat
    s.emitReady e f ex nd (s.finishEmit e f e.w.settled ex nd fun l => e.w.regBytes l f.a f.recBytes))
/-- The node that a lane's record is for, as its instruction evaluated it. -/
def Warp.plannedNode (w : Warp) (f : Fields) (l : Nat) : Nat := match (w.lane l).plan with | some p => p.b.toNat | none => (w.opBi f l 0).toNat
/-- 05 R173: the record is read from memory, as loads under the rules of 06 R196; the lanes are checked one by one, the record before the address. -/
def execEmitm (w : Ext) (s : State) : Answer :=
  let f := Fields.ofExt w
  .next (s.onWarp fun e =>
    let o : LoadOp :=
      { f := f, dests := [.v f.d] ++ if f.e < 15 then [.p f.e] else []
        h := ⟨f.recBytes, 16, 3, .plain, false⟩
        args := fun e =>
          { addr := fun l => e.w.opA64 f l + f.imm.signExtend 64, b := fun l => BitVec.ofNat 64 (e.w.plannedNode f l)
            pre := fun l => emitBad e.l e.w l (e.w.plannedNode f l) f.recBytes }
        finish := fun s e' ex got => s.finishEmit e' f e.w.settled ex (e.w.plannedNode f) got }
    s.emitRoom e (s.exec e.w f.ga f.gb) (e.w.plannedNode f) (s.memLoad o))

/-! ### Reorder points (05 R176 to R179) -/

/-- A thread as it crosses a reorder point: the first `k` registers stay, the rest and the predicates are cleared (05 R179). -/
def Lane.crossing (t : Lane) (pc : Pc) (k : Nat) : Lane :=
  { t with wait := .none, got := Option.none, plan := Option.none, held := false, handler := false, pc := pc, skip := 0, p := 0
           v := t.v.zipIdx.map fun (x, i) => if i < k then x else 0 }
/-- 05 R177: lanes with Exec enter the block's pool; the others go on; a warp left with no thread is freed. -/
def execReorder (w : Ext) (s : State) : Answer :=
  let f := Fields.ofExt w
  .next (s.whenSettled fun e =>
    match s.exec e.w f.ga f.gb with
    | [] => s.skipWarp e
    | l :: ls =>
      if e.w.regs.trap.inHandler then s.raise e (misuse 7 l 0)
      else
        let pc := f.target (e.w.lane l).pc
        let k := if f.mod % 2 = 1 then (e.w.lane l).v.length else f.e
        let w := e.w.advance s.cur (s.act e.w)
        let left := w.modLanes (l :: ls) fun t => { t with populated := false, wait := .none, got := Option.none, plan := Option.none }
        let takes (i : Nat) (x : SentCount) : Bool := x.lane == i || (i == l && left.live.isEmpty && x.lane == 64)
        let rest := { left with sent := left.sent.filter fun x => !(l :: ls).contains x.lane }
        let threads := (l :: ls).map fun i =>
          (⟨pc, e.w.opA f i, (e.w.lane i).crossing pc k, e.w.flow, e.w.interval, e.w.sent.filter (takes i), false⟩ : PoolThread)
        let s := (s.putWarp rest).modBlock e.b.id fun b => { b with pool := b.pool ++ threads }
        let s := s.traceWarp e.w.id (some 4) 12 0 (pc.setWidth 54) (e.w.lane l).pc
        (s.settleWarp e.w.id).checkDeadlock e.b.id)

end Sys2Proof.Machine
end

