-- ==== Sys2Proof/Machine/RemoteWork.lean ====
section
/-! DEFINITION. Pools and bins (11 R363, R366), `rfwd` (08 R282 to R284), credits and receive slots (13 R431, R432). -/
namespace Sys2Proof.Machine

/-! ### Pools (11 R363) -/

/-- The lowest free slot of a node's pool. -/
def Launch.freeSlot (l : Launch) (node : Nat) : Option Nat :=
  match l.nodes[node]? with
  | none => none
  | some n => (List.range n.poolN).find? fun i => !l.records.any fun r => r.node == node && r.slot == i
/-- Address of a pool slot. -/
def Launch.slotVa (l : Launch) (node slot : Nat) : W64 :=
  match l.nodes[node]? with
  | some n => n.pool + BitVec.ofNat 64 (slot * n.recBytes)
  | none => 0
/-- The runs of a pool slot in memory for a use; the pool's pages are in the extent table, so they are always found. -/
def State.poolRuns (s : State) (l : Launch) (u : Use) (va : W64) (n : Nat) : List Seg :=
  (runsOf 4 va n).filterMap fun r =>
    match (match l.extent (r.1.toNat / 4096) with | some x => s.extentPage l u false x r.1 | none => s.xlate l u false false r.1) with
    | .ok m => some (m.seg r.1 r.2)
    | .error _ => none
/-- A record takes the lowest free slot, its bytes are written there, and it joins the bin, in one event. -/
def State.placeRecord (s : State) (launch : Nat) (rc : EmitRec) : State :=
  match s.launch? launch with
  | none => s
  | some l => match l.freeSlot rc.node with
    | none => s
    | some slot =>
      let gs := s.poolRuns l .write (l.slotVa rc.node slot) rc.bytes.length
      (((gs.foldl (fun s g => s.needLines g.loc g.n) s).useSegs gs).engineWrites 0 0 false gs rc.bytes).modLaunch launch fun l =>
        { l with records := l.records ++ [⟨rc.node, slot, rc.depth, rc.bytes, s.clock⟩] }
/-- The sender that a free slot of a node serves: the one that began to wait there first, its warp's first record; a warp in a saved context sends nothing
(05 R174, 11 R363). -/
def State.nextSender (s : State) (l : Launch) (node : Nat) : Option Sender :=
  minBy (·.since) ((l.senders.zipIdx.filter fun (x, i) => x.rc.node == node &&
    (match x.warp with
    | some w => (s.warp? w).isSome && !(l.senders.take i).any fun y => y.warp == some w
    | none => true)).map (·.1))
/-- A record in a receive slot has been placed: the slot is free, the sender gets its acknowledgement and its credit (08 R284, 13 R432; log entry 72). -/
def State.freeReceive (s : State) (ep src sslot : Nat) : State :=
  match (s.endpoints.find? fun e => e.ep == ep).bind fun e => e.held.find? fun h => h.src == src && h.sslot == sslot with
  | none => s
  | some h => ({ s with endpoints := s.endpoints.map fun e : Endpoint => if e.ep = ep then { e with held := e.held.erase h } else e }.tellPkg src 0
      (.recordAck ep h.rseq true)).tellPkg src 0 (.credit ep)
/-- A lane's status is settled (a byte), or its record is on its way; a rollback that another path of the warp takes does not undo it (09 R307). -/
def Warp.settleLane (w : Warp) (lane st : Nat) : Warp := w.bothLane lane fun t => { t with got := some [BitVec.ofNat 8 st] }
/-- The oldest waiting sender of a node is served (11 R363, R366); a warp that waits on begins to wait anew (R367). -/
def State.serveSender (s : State) (launch node : Nat) : State :=
  match s.launch? launch with
  | none => s
  | some l => match s.nextSender l node, l.freeSlot node with
    | some x, some _ =>
      let s := (s.placeRecord launch x.rc).modLaunch launch fun l =>
        { l with senders := (l.senders.erase x).map fun y : Sender => if y.warp.isSome ∧ y.warp = x.warp then { y with since := s.clock } else y }
      let s := match x.warp with
        | some w => s.modAnyWarp w fun w =>
            let w := { w with spec := { w.spec with sending := w.spec.sending - 1 } }
            match x.lane with | some l => w.settleLane l 0 | none => w
        | none => s
      match x.ep with
      | some (ep, src, sslot) => s.freeReceive ep src sslot
      | none => s
    | _, _ => s
/-- 11 R363 (`.two` launch and node). -/
def execRecordPlacement (s : State) : Answer := .next (match s.arg with | .two l n => s.serveSender l n | _ => s)
/-- 11 R363 (`.two` launch and node): a freed slot serves the oldest waiting sender. -/
def execPoolSlotFree (s : State) : Answer := .next (match s.arg with | .two l n => s.serveSender l n | _ => s)

/-! ### `rfwd` (08 R282, R283) -/

/-- The node that the node table marks as overflow, if its records have the size. -/
def Launch.overflowFor (l : Launch) (n : Nat) : Option Nat :=
  match l.overflow with
  | some o => match l.nodes[o]? with | some x => if x.recBytes = n then some o else none | none => none
  | none => none
/-- A record of a lane on its way to another package, or to a pool of this one. -/
def rfwdSent : Nat := 0xFF
/-- The header of a remote record (13 R431). -/
def recordHeader (tenant : BitVec 16) (slot n ep src : Nat) (rseq : W32) : BitVec 128 :=
  BitVec.ofNat 128 (rseq.toNat + src % 256 * 2 ^ 32 + ep % 16 * 2 ^ 40 + (n / 16 - 1) % 16 * 2 ^ 44 + slot % 65536 * 2 ^ 48 + tenant.toNat * 2 ^ 64)

/-- The Ultra Ethernet ports of the package (14 R437). -/
def State.uePorts (s : State) : List Nat := (List.range 12).filter fun p => !s.ports.roles.getLsbD p
/-- Is there a way to a package: a route over the fabric, or an Ultra Ethernet port and an entry of the peer table (13 R424, R430)? -/
def State.hasPath (s : State) (pkg : Nat) : Bool := s.routed pkg || (!s.uePorts.isEmpty && s.ports.peerTable.any fun x => x.1 == pkg)
/-- Has the transport declared a package unreachable that only it reaches (13 R430)? -/
def State.peerGone (s : State) (pkg : Nat) : Bool := !s.routed pkg && s.ports.peers.contains pkg
/-- The receive slot that the next record to an endpoint takes: the lowest that no unacknowledged record has taken (13 R431). -/
def State.nextSslot (s : State) (pkg ep granted : Nat) : Option Nat :=
  (List.range granted).find? fun k => !s.remotes.any fun r => r.lane == 66 && r.target == pkg && r.flow == ep && r.interval == k
/-- Records of a warp's lanes wait for the overflow node's pool in their turn (08 R283). -/
def State.spillRecord (s : State) (e : Env) (lane node : Nat) (bytes : List Byte) : State :=
  (s.modWarp e.w.id fun w => w.settleLane lane 1).stageRecords true e.w.id e.l.id [⟨node, 0, bytes⟩]
/-- The endpoint on this package that takes a record of a launch's tenant and size (08 R283, 13 R432). -/
def State.takesRecord (s : State) (ep : Nat) (tenant : BitVec 16) (n : Nat) : Option Endpoint :=
  s.endpoints.find? fun e => e.ep == ep && e.tenant == tenant &&
    match (s.launch? e.launch).bind fun l => l.nodes[e.node]? with | some x => x.recBytes == n | none => false
/-- The next lane of an `rfwd`: a status at once, a record sent or spilled, or a wait (08 R283). -/
def State.forwardLane (s : State) (e : Env) (lane pk ep n : Nat) (spill : Option Nat) (bytes : List Byte) : State :=
  let act := s.act e.w
  if pk > 127 ∨ ep > 15 ∨ !(pk == s.pkg || s.hasPath pk) then s.modWarp e.w.id fun w => w.settleLane lane 2
  else if s.peerGone pk then s.modWarp e.w.id fun w => w.settleLane lane 3
  else if pk = s.pkg then
    match s.takesRecord ep e.l.hdr.tenant n with
    | none => s.modWarp e.w.id fun w => w.settleLane lane 3
    | some x =>
      let full := match s.launch? x.launch with
        | some l => (l.freeSlot x.node).isNone
        | none => true
      match full, spill with
      | true, some o => s.spillRecord e lane o bytes
      | _, _ => (s.modLaunch x.launch fun l => { l with senders := l.senders ++ [⟨some e.w.id, none, ⟨x.node, 0, bytes⟩, s.clock, some lane⟩] }).modWarp e.w.id fun w =>
          { w.settleLane lane rfwdSent with spec := { w.spec with sending := w.spec.sending + 1 } }
  else match (s.credits.find? fun c => c.pkg == pk && c.ep == ep && decide (0 < c.free)).bind fun c => (s.nextSslot pk ep c.granted).map fun k => (c, k) with
    | none => match spill with
      | some o => s.spillRecord e lane o bytes
      | none => s.waitLanes ((s.warp? e.w.id).getD e.w) act (.credit pk ep lane)
    | some (c, sslot) =>
      let rid := s.ctr.remote
      let hdr := recordHeader e.l.hdr.tenant sslot n ep s.pkg c.rseq
      let s : State := { s with
        credits := s.credits.map fun x : Credit => if x.pkg = pk ∧ x.ep = ep then { x with free := x.free - 1, rseq := x.rseq + 1 } else x
        ctr := { s.ctr with remote := rid + 1 }
        remotes := s.remotes ++ [⟨rid, e.w.id, pk, s.clock, false, 66, lane, 0, ep, sslot, none, [], [], c.rseq.toNat, none⟩] }
      (s.tellPkg pk rid (.record hdr bytes)).modWarp e.w.id fun w => w.settleLane lane rfwdSent
/-- 08 R283: the lanes in turn, each from where the instruction left it, with what it has evaluated once (01 R38); it ends when every record sent is
acknowledged. -/
def execRfwd (w : Ext) (s : State) : Answer :=
  let f := Fields.ofExt w
  let dests : List Dest := .v f.d :: (if f.e < 15 then [.p f.e] else [])
  let n := f.recBytes
  .next (s.whenSettled fun e =>
    let ex := s.exec e.w f.ga f.gb
    let w := s.keepPlans e (ex.map fun l => ⟨l, 0, 0, (e.w.opBi f l f.imm).setWidth 64, (e.w.opC f l).setWidth 64, []⟩)
    let pk (l : Nat) : Nat := ((w.lane l).plan.map (·.b.toNat)).getD 0
    let ep (l : Nat) : Nat := ((w.lane l).plan.map (·.c.toNat)).getD 0
    match ex with
    | [] => s.finishLong e f.la dests []
    | l0 :: _ =>
      if f.mod % 2 = 1 ∧ !s.resumed e ∧ (e.l.overflowFor n).isNone then s.raise e { cause := 0xE, reason := 4, lane := l0, info := 0 }
      else match ex.find? fun l => (e.w.lane l).got.isNone with
        | some lane =>
          (s.putWarp w).forwardLane e lane (pk lane) (ep lane) n (if f.mod % 2 = 1 then e.l.overflowFor n else none) (e.w.regBytes lane f.a n)
        | none =>
          let st (l : Nat) : Nat := match (e.w.lane l).got with | some (b :: _) => b.toNat | _ => 3
          if ex.any fun l => st l == rfwdSent then s.stall e.w
          else s.finishLong e f.la dests (ex.flatMap fun l =>
            (RegWrite.v l f.d (BitVec.ofNat 32 (st l + pk l * 256))) :: (if f.e < 15 then [RegWrite.p l f.e (st l == 0)] else [])))

/-! ### Acknowledgements, credits, grants (13 R431, R432) -/

/-- What stands at an `rfwd` for a credit of an endpoint; `fail`: the endpoint was revoked, and the lane that waits ends FAILED. -/
def State.wakeCredit (s : State) (pkg ep : Nat) (fail : Bool) : State :=
  s.mapWarps fun w =>
    let lane? (t : Lane) : Option Nat := match t.wait with | .credit p e lane => if p = pkg ∧ e = ep then some lane else none | _ => none
    let w := if fail then (dedup (w.live.filterMap fun l => lane? (w.lane l))).foldl (fun w l => w.settleLane l 3) w else w
    w.onLanes (fun t => (lane? t).isSome) fun t => { t with wait := .none }
/-- 08 R283 (`.flag` the record's number here, and whether it was delivered). -/
def execRecordAckArrival (s : State) : Answer :=
  .next (match s.arg with
  | .flag rid ok => match s.remotes.find? fun r => r.id == rid && r.lane == 66 with
    | none => s
    | some r => ({ s with remotes := s.remotes.filter fun x => x.id != rid }.modAnyWarp r.warp fun w => w.settleLane r.off (if ok then 0 else 3)).wakeCredit
        r.target r.flow false
  | _ => s)
/-- The credits for an endpoint of a package. -/
def State.modCredit (s : State) (pkg ep : Nat) (f : Credit → Credit) : State :=
  if s.credits.any fun c => c.pkg == pkg && c.ep == ep then
    { s with credits := s.credits.map fun c => if c.pkg = pkg ∧ c.ep = ep then f c else c }
  else { s with credits := s.credits ++ [f ⟨pkg, ep, 0, 0, 0⟩] }
/-- 13 R432 (`.two` package and endpoint). -/
def execCreditReturn (s : State) : Answer :=
  .next (match s.arg with
  | .two pkg ep =>
    if s.credits.any fun c => c.pkg == pkg && c.ep == ep && decide (c.free < c.granted) then
      (s.modCredit pkg ep fun c => { c with free := c.free + 1 }).wakeCredit pkg ep false
    else s
  | _ => s)
/-- 13 R432 (`.three` package, endpoint, slots). -/
def execSlotGrant (s : State) : Answer :=
  .next (match s.arg with
  | .three pkg ep n => ({ s with ports := { s.ports with peers := s.ports.peers.filter fun p => p != pkg } }.modCredit pkg ep fun c => { c with free := n, granted := n, rseq := 0 }).wakeCredit pkg ep false
  | _ => s)
/-- 13 R432 (`.two` package and endpoint): credits become zero, and who waits for one ends FAILED. -/
def execSlotRevoke (s : State) : Answer :=
  .next (match s.arg with
  | .two pkg ep => (s.modCredit pkg ep fun c => { c with free := 0, granted := 0 }).wakeCredit pkg ep true
  | _ => s)

/-- A record's number is noted for its endpoint and source; those that the count modulo 2^32 has left far behind are forgotten (13 R431). -/
def State.noteRecord (s : State) (ep src : Nat) (rseq : W32) : State :=
  let near (x : W32) : Bool := decide ((rseq - x).toNat < 2 ^ 31 ∨ 3 * 2 ^ 30 ≤ (rseq - x).toNat)
  { s with seen := (s.seen.filter fun p => p.1 != ep || p.2.1 != src || near p.2.2) ++ [(ep, src, rseq)] }
/-- 13 R431 (`.message` header and bytes): a record is discarded as a duplicate of one taken or refused, refused at once, or held in its receive slot until
its pool has room (08 R284, 11 R366). The credit of a refused record does not come back: a slot returns its credit when its record has been placed (R432;
log entry 83). -/
def execRemoteRecordArrival (s : State) : Answer :=
  .next (match s.arg with
  | .message hdr bytes =>
    let x := hdr.toNat
    let (rseq, src, ep, sslot) := (BitVec.ofNat 32 (bits x 31 0), bits x 39 32, bits x 43 40, bits x 63 48)
    let n := 16 * (bits x 47 44 + 1)
    let t := s.noteRecord ep src rseq
    let refuse : State := t.tellPkg src 0 (.recordAck ep rseq false)
    if s.seen.contains (ep, src, rseq) then s
    else match s.takesRecord ep (BitVec.ofNat 16 (bits x 79 64)) n with
      | none => refuse
      | some e =>
        if !e.senders.contains src || e.held.any (fun h => h.src == src && h.sslot == sslot) then refuse
        else
          let t : State := { t with endpoints := t.endpoints.map fun y : Endpoint => if y.ep = ep then
            { y with held := y.held ++ [⟨src, sslot, rseq, bytes.take n⟩] } else y }
          t.modLaunch e.launch fun l => { l with senders := l.senders ++ [⟨none, some (ep, src, sslot), ⟨e.node, 0, bytes.take n⟩, s.clock, none⟩] }
  | _ => s)

end Sys2Proof.Machine
end

