-- ==== Sys2Proof/Machine/Crucible.lean ====
section
/-! DEFINITION. The Crucible: collectives from their descriptors to their completion (08 R285 to R295; 16 R444). Source and result move in one step
each (log entry 13). -/
namespace Sys2Proof.Machine

/-! ### The plan of a rank (R290) -/

/-- A step: the rank it sends to and the units sent, the rank it receives from and the units received, and whether they are merged. -/
structure CStep where
  dst : Nat
  send : Nat × Nat
  src : Nat
  recv : Nat × Nat
  merge : Bool
  deriving DecidableEq, Repr

/-- The rounds of the binary swap from round `k` on, over a range. -/
def swapRounds (rank : Nat) : Nat → Nat → Nat × Nat → List CStep
  | 0, _, _ => []
  | n + 1, k, (lo, hi) =>
    let mid := lo + (hi - lo) / 2
    let mate := (BitVec.ofNat 8 rank ^^^ BitVec.ofNat 8 (2 ^ k)).toNat
    let (keep, give) := if rank.testBit k then ((mid, hi), (lo, mid)) else ((lo, mid), (mid, hi))
    ⟨mate, give, mate, keep, true⟩ :: swapRounds rank n (k + 1) keep
/-- Chunk `c` of the ring. -/
def ringChunk (p u c : Nat) : Nat × Nat := (c % p * u / p, (c % p + 1) * u / p)
/-- A rank's steps: the first phase, and with OUT the second. -/
def plan (alg out : Bool) (rank p u : Nat) : List CStep :=
  if alg then
    let next := (rank + 1) % p
    let prev := (rank + p - 1) % p
    ((List.range (p - 1)).map fun i => ⟨next, ringChunk p u (rank + p - i), prev, ringChunk p u (rank + p - (i + 1)), true⟩) ++
    (if out then (List.range (p - 1)).map fun i => ⟨next, ringChunk p u (rank + p + 1 - i), prev, ringChunk p u (rank + p - i), false⟩ else [])
  else
    let first := swapRounds rank p.log2 0 (0, u)
    first ++ (if out then first.reverse.map fun x => ⟨x.dst, x.recv, x.src, x.send, false⟩ else [])
/-- Steps of the first phase. -/
def firstPhase (alg : Bool) (p : Nat) : Nat := if alg then p - 1 else p.log2

/-- Group size. -/
def Collective.p (k : Collective) : Nat := k.ranks.length
/-- Is it `ccomp`? -/
def Collective.image (k : Collective) : Bool := k.cmd.op == .ccomp
/-- Units: bands or elements. -/
def Collective.units (k : Collective) : Nat := if k.image then 4 * k.count else k.count
/-- Units that one message carries. -/
def Collective.per (k : Collective) : Nat := if k.image then 4 else 32
/-- The steps of a collective. -/
def Collective.steps (k : Collective) : List CStep := plan k.alg k.out k.rank k.p k.units
/-- The numbers of the messages that carry a range; an empty one is not sent. -/
def Collective.parts (k : Collective) (r : Nat × Nat) : List Nat :=
  if r.1 < r.2 then (List.range ((r.2 - 1) / k.per + 1 - r.1 / k.per)).map (· + r.1 / k.per) else []
/-- STEP of a step: rounds from 0, steps of the ring from 1. -/
def Collective.stepNo (k : Collective) : Nat := k.step + k.alg.toNat
/-- The range a rank writes: what it owns, or with OUT everything. -/
def Collective.result (k : Collective) : Nat × Nat :=
  if k.out then (0, k.units) else match k.steps[firstPhase k.alg k.p - 1]? with | some x => x.recv | none => (0, k.units)

/-! ### Messages (R292) -/

/-- CFG of a descriptor, as it stands at [127:87]. -/
def Collective.cfg (k : Collective) : Nat := (k.p - 1) + k.opm * 2 ^ 7 + k.alg.toNat * 2 ^ 9 + k.out.toNat * 2 ^ 10 + (k.count - 1) * 2 ^ 11
/-- A header. -/
def Collective.header (k : Collective) (mkind err step unit : Nat) : BitVec 128 :=
  BitVec.ofNat 128 (k.tag.toNat + unit % 2 ^ 28 * 2 ^ 32 + mkind * 2 ^ 60 + k.rank * 2 ^ 64 + step % 256 * 2 ^ 71 + err * 2 ^ 79 + k.cfg * 2 ^ 87)
/-- Tag of a header. -/
def hdrTag (h : BitVec 128) : W32 := h.setWidth 32
/-- Number of the tile or block of a header: BANDS left out. -/
def hdrUnit (image : Bool) (h : BitVec 128) : Nat := if image then bits h.toNat 55 32 else bits h.toNat 56 32
/-- MKIND, FROM, STEP, ERR and CFG of a header. -/
def hdrKind (h : BitVec 128) : Nat := bits h.toNat 63 60
/-- FROM. -/
def hdrFrom (h : BitVec 128) : Nat := bits h.toNat 70 64
/-- STEP. -/
def hdrStep (h : BitVec 128) : Nat := bits h.toNat 78 71
/-- ERR. -/
def hdrErr (h : BitVec 128) : Nat := bits h.toNat 86 79
/-- CFG. -/
def hdrCfg (h : BitVec 128) : Nat := bits h.toNat 127 87

/-- The bands of tile `i` in a range, as BANDS. -/
def bandsOf (r : Nat × Nat) (i : Nat) : Nat := (List.range 4).foldl (fun x b => if r.1 ≤ 4 * i + b ∧ 4 * i + b < r.2 then x + 2 ^ b else x) 0
/-- A pixel of a band that is not carried. -/
def Pixel.zero : Pixel := ⟨0, 0, 0, 0, 0, 0⟩
/-- The values a message carries, one list for each codec block: 16-bit channels, then depths; or 32 partials. -/
def Collective.blocks (k : Collective) (r : Nat × Nat) (i : Nat) : List Byte × List (CodecFmt × List Nat) :=
  let f16 : CodecFmt := ⟨1, 2, 10, 5⟩
  let f32 : CodecFmt := ⟨2, 4, 23, 8⟩
  if k.image then
    let px := (List.range 64).map fun j => if (bandsOf r i).testBit (j / 16) then k.pixels.getD (64 * i + j) .zero else .zero
    (px.map fun x => BitVec.ofNat 8 x.origin,
      [(f16, px.map fun x => x.r.toNat), (f16, px.map fun x => x.g.toNat), (f16, px.map fun x => x.b.toNat), (f16, px.map fun x => x.a.toNat),
       (f32, (px.take 32).map fun x => x.depth.toNat), (f32, (px.drop 32).map fun x => x.depth.toNat)])
  else
    ([], [(f32, (List.range 32).map fun j => if r.1 ≤ 32 * i + j ∧ 32 * i + j < r.2 then (k.values.getD (32 * i + j) 0).toNat else 0)])
/-- The port to a package: the first hop of its route, or the Ultra Ethernet port that serves a package without one (log entry 6). -/
def State.portTo (s : State) (pkg : Nat) : Nat :=
  if s.routed pkg then bits (s.routes.getD pkg 0).toNat 3 0 else s.uePorts.getD (Config.uePort pkg % s.uePorts.length) 0
/-- A data message, coded with the table of its port (10 R347). -/
def State.codeMessage (s : State) (k : Collective) (pkg : Nat) (r : Nat × Nat) (i : Nat) : List Byte :=
  let (gen, image) := s.codec.slot (s.portTo pkg) k.slot
  let (head, bs) := k.blocks r i
  head ++ bs.flatMap fun b => codecBlock b.1 k.slot gen image b.2
/-- What the expander finds wrong with a message (08 R293; 10 R348): a stale generation, which counts as missing, or a size mismatch. -/
inductive Coding where
  | stale
  | mismatch
  deriving DecidableEq, Repr
/-- One codec block taken from a payload: the 128 bytes of its elements and the rest; the generation is checked before the size (10 R348). -/
def Codec.takeBlock (c : Codec) (port : Nat) (bs : List Byte) : Except Coding (List Byte × List Byte) :=
  let h := leNat (bs.take 16)
  let (gen, image) := c.slot port (blockSlot h)
  let n := 16 + blockPayload h
  if bs.length < 16 then .error .mismatch
  else if blockGen h ≠ gen then .error .stale
  else if bs.length < n then .error .mismatch
  else match expandBlock image h ((bs.drop 16).take (n - 16)) with
    | some x => if x.length = 128 then .ok (x, bs.drop n) else .error .mismatch
    | none => .error .mismatch
/-- Codec blocks taken one after another. -/
def Codec.takeBlocks (c : Codec) (port : Nat) : Nat → List Byte → Except Coding (List Byte)
  | 0, _ => .ok []
  | n + 1, bs => match c.takeBlock port bs with
    | .error x => .error x
    | .ok (x, rest) => match c.takeBlocks port n rest with
      | .error y => .error y
      | .ok y => .ok (x ++ y)
/-- A message's payload, decoded: origins and channels, or partials. -/
def State.decodeMessage (s : State) (k : Collective) (pkg : Nat) (bs : List Byte) : Except Coding (List Byte) :=
  if k.image then (match s.codec.takeBlocks (s.portTo pkg) 6 (bs.drop 64) with
    | .ok x => .ok (bs.take 64 ++ x)
    | .error x => .error x)
  else s.codec.takeBlocks (s.portTo pkg) 1 bs
/-- Pixel `j` of a decoded message. -/
def pixelAt (bs : List Byte) (j : Nat) : Pixel :=
  let n (off w : Nat) : Nat := leNat ((bs.drop (off + w * j)).take w)
  ⟨BitVec.ofNat 16 (n 64 2), BitVec.ofNat 16 (n 192 2), BitVec.ofNat 16 (n 320 2), BitVec.ofNat 16 (n 448 2), BitVec.ofNat 32 (n 576 4), (bs.getD j 0).toNat⟩

/-! ### Merging (R289, R291) -/

/-- Is (depth, origin) of `f` less: NaN above everything, −0 equal to +0? -/
def Pixel.front (f g : Pixel) : Bool :=
  let a := fval .f32 f.depth
  let b := fval .f32 g.depth
  if a.isNan && b.isNan then decide (f.origin < g.origin)
  else if a.isNan then false
  else if b.isNan then true
  else a.lt b || (!b.lt a && decide (f.origin < g.origin))
/-- A value of a channel. -/
def chan (x : BitVec 16) : XReal := widen .f16 x.toNat
/-- A channel rounded. -/
def toChan (x : XReal) : BitVec 16 := BitVec.ofNat 16 (roundTo .f16 x .rn)
/-- Two pixels merge by OPM: depth, alpha, count. -/
def Pixel.merge (opm : Nat) (f g : Pixel) : Pixel :=
  let (x, y) := if f.front g then (f, g) else (g, f)
  match opm with
  | 0 => x
  | 1 =>
    let over_ (a b : BitVec 16) : BitVec 16 := toChan ((chan a).add .rn (((XReal.fin false 1 1).add .rn (chan x.a).negate).mul (chan b)))
    { x with r := over_ x.r y.r, g := over_ x.g y.g, b := over_ x.b y.b, a := over_ x.a y.a }
  | _ =>
    let n := min (f.depth.toNat + g.depth.toNat) 0xFFFFFFFF
    let mean (a b : BitVec 16) : BitVec 16 :=
      if n = 0 then 0
      else toChan ((((chan a).mul (.fin false f.depth.toNat 1)).add .rn ((chan b).mul (.fin false g.depth.toNat 1))).div (.fin false n 1))
    ⟨mean f.r g.r, mean f.g g.g, mean f.b g.b, mean f.a g.a, BitVec.ofNat 32 n, g.origin⟩
/-- The received units of a message over the rank's own. -/
def Collective.take (k : Collective) (x : CStep) (i : Nat) (bs : List Byte) : Collective :=
  if k.image then
    { k with pixels := k.pixels.zipIdx.map fun (own, j) =>
        if j / 64 = i ∧ x.recv.1 ≤ j / 16 ∧ j / 16 < x.recv.2 then
          (let f := pixelAt bs (j % 64); if x.merge then f.merge k.opm own else f) else own }
  else
    { k with values := k.values.zipIdx.map fun (own, j) =>
        if j / 32 = i ∧ x.recv.1 ≤ j ∧ j < x.recv.2 then
          (let f : W32 := BitVec.ofNat 32 (leNat ((bs.drop (4 * (j % 32))).take 4)); if x.merge then fres .f32 .rn false (XReal.add .rn (fval .f32 f) (fval .f32 own)) else f)
        else own }

/-! ### Running -/

/-- A running collective by tag. -/
def State.coll? (s : State) (tag : W32) : Option Collective := s.crucible.colls.find? fun k => k.tag == tag
/-- Changes a collective. -/
def State.putColl (s : State) (k : Collective) : State :=
  { s with crucible := { s.crucible with colls := s.crucible.colls.map fun x => if x.tag = k.tag then k else x } }
/-- A message without data goes out. -/
def State.tell (s : State) (pkg : Nat) (h : BitVec 128) : State := s.tellPkg pkg 0 (.crucible h [])
/-- A kept message goes out. -/
def State.sendKept (s : State) (m : CMsg) : State := s.tellPkg m.pkg 0 (.crucible m.hdr m.payload)
/-- Base clk of a collective's timer. -/
def Collective.timer (k : Collective) : Nat := k.timerUs * 1600
/-- A step is entered: its data goes out and is kept, the timer starts. -/
def State.enterStep (s : State) (k : Collective) : State :=
  match k.steps[k.step]? with
  | none => s.putColl k
  | some x =>
    let pkg := k.ranks.getD x.dst 0
    let msgs := (k.parts x.send).map fun i =>
      (⟨k.image, pkg, k.header 0 0 k.stepNo (i + (if k.image then bandsOf x.send i * 2 ^ 24 else 0)), s.codeMessage k pkg x.send i⟩ : CMsg)
    let gen := (s.codec.slot (s.portTo pkg) k.slot).1
    let s : State := { msgs.foldl State.sendKept s with
      crucible := { s.crucible with kept := s.crucible.kept ++ msgs }
      codec := { s.codec with queued := s.codec.queued ++ msgs.map fun _ => (s.portTo pkg, k.slot, gen) } }
    s.putColl { k with deadline := s.clock + k.timer, requests := 0 }
/-- The message of the current step with a number, if it has come. -/
def Collective.arrived (k : Collective) (i : Nat) : Option CMsg := k.early.find? fun m => hdrStep m.hdr == k.stepNo && hdrUnit k.image m.hdr == i
/-- The steps whose messages have all come are taken, one after another. -/
def State.advanceColl (s : State) (tag : W32) : Nat → State
  | 0 => s
  | n + 1 => match s.coll? tag with
    | none => s
    | some k => match k.steps[k.step]? with
      | none => s
      | some x =>
        let need := k.parts x.recv
        if k.stat.isSome || need.any fun i => (k.arrived i).isNone then s
        else
          let k' := need.foldl (fun (y : Collective) i => match k.arrived i with | some m => y.take x i m.payload | none => y) k
          let k' := { k' with early := k.early.filter (fun m => hdrStep m.hdr != k.stepNo), step := k.step + 1 }
          (s.enterStep k').advanceColl tag n
/-- A rank that fails while it runs tells every rank of its table. -/
def State.abortColl (s : State) (k : Collective) (st : Nat) : State :=
  ((List.range k.p).filter fun r => r != k.rank).foldl (fun (s : State) r => s.tell (k.ranks.getD r 0) (k.header 2 st k.stepNo 0)) (s.putColl { k with stat := some st })

/-! ### The end of a command (R294, R295) -/

/-- The region of a shadow destination. -/
def State.collRegion (s : State) (c : EngCmd) (l : Launch) (dbase : W64) : Option Nat := if c.dm = 1 then s.regionAt l dbase else none
/-- A command ends: with a region it goes on with the Crucible's publish of it (06 R223, R224), which swaps only where the status is DONE; else with its
record. -/
def State.endColl (s : State) (c : EngCmd) (l : Launch) (region : Option Nat) (st : Nat) (fva : W64) (fin : Nat) (trap : Option (Nat × Nat × W64)) : State :=
  let c' := { c with phase := if region.isSome then 0 else 1, stat := st, fva := fva, fin := fin, pub := region.map fun d => (s.clock, d) }
  let s := s.dropWait (.crucible c.id)
  let gone := s.crucible.colls.filter fun k => k.cmd.id == c.id
  let s : State := { s with
    crucible := { s.crucible with colls := s.crucible.colls.filter (fun k => k.cmd.id != c.id), done := s.crucible.done ++ gone.map fun k => (k.tag, k.ranks) }
    engines := s.engines.filter (fun x => x.id != c.id) ++ [c'] }
  let s := match trap with | some t => s.asyncTrap c t | none => s
  if region.isSome then s else s.cmdRecord c' l
/-- A fault of the Crucible: served, awaited from the host, or the end of the command (06 R217). -/
def State.collFault (s : State) (c : EngCmd) (l : Launch) (u : Use) (region : Option Nat) (x : ReadFail) : State :=
  match x with
  | .acc (.served q) => if s.failedAt (.crucible c.id) q.va then s.endColl c l region 2 q.va 0 none else s.serveAgent (.crucible c.id) l q c.core c.slot
  | .acc (.ats va) => s.askHost (.crucible c.id) l u va c.core c.slot
  | .acc (.lease r va) => s.endColl c l region 3 va 0 (some (5, r, va))
  | .acc f => s.endColl c l region 2 f.va 0 none
  | .bad va r => s.endColl c l region 4 va 0 (some (0xF, r, va))

/-! ### Starting (R285, R287) -/

/-- Is a field of a descriptor out of range? -/
def descBad (op : EngOp) (d : Nat) : Bool :=
  let p := bits d 271 264 + 1
  bits d 511 304 != 0 || bits d 287 283 != 0 || bits d 279 276 != 0 || bits d 263 263 != 0 || bits d 303 288 == 0 ||
  bits d 273 272 == 3 || (op == .callred && bits d 273 272 == 2) || decide (p < 2 ∨ 128 < p) || decide (p ≤ bits d 262 256) || bits d 255 224 == 0 ||
  (if op == .ccomp then decide (2 ^ 24 ≤ bits d 255 224) else decide (2 ^ 30 < bits d 255 224)) ||
  (!d.testBit 274 && p != 2 ^ p.log2) || bits d 3 0 != 0 || bits d 67 64 != 0
/-- A collective of a descriptor and a rank table. -/
def Collective.ofDesc (c : EngCmd) (d : Nat) (ranks : List Nat) : Collective where
  cmd := c
  tag := BitVec.ofNat 32 (bits d 223 192)
  rank := bits d 262 256
  ranks := ranks
  opm := bits d 273 272
  alg := d.testBit 274
  out := d.testBit 275
  count := bits d 255 224
  slot := bits d 282 280
  timerUs := bits d 303 288
  sbase := BitVec.ofNat 64 (bits d 63 0)
  dbase := BitVec.ofNat 64 (bits d 127 64)
  step := 0
  pixels := []
  values := []
  early := []
  deadline := 0
  requests := 0
  stat := none
/-- Bytes of an element of `callred`. -/
def Collective.elem (k : Collective) : Nat := if k.opm = 1 then 2 else 4
/-- Bytes of source and of destination. -/
def Collective.size (k : Collective) : Nat := if k.image then 768 * k.count else k.elem * k.count
/-- Is the rank table wrong for this package? -/
def State.ranksBad (s : State) (k : Collective) : Bool :=
  k.ranks.any (fun r => decide (128 ≤ r)) || k.ranks.getD k.rank 128 != s.pkg || dedup k.ranks != k.ranks ||
  k.ranks.any fun r => r != s.pkg && !s.hasPath r
/-- The source as pixels of the own rank, or as elements widened to .f32. -/
def Collective.load (k : Collective) (bs : List Byte) : Collective :=
  let n (off w : Nat) : Nat := leNat ((bs.drop off).take w)
  if k.image then
    { k with pixels := (List.range (64 * k.count)).map fun j =>
        let t := 768 * (j / 64)
        let p := j % 64
        let ch (i : Nat) : BitVec 16 := BitVec.ofNat 16 (n (t + 8 * p + 2 * i) 2)
        ⟨ch 0, ch 1, ch 2, ch 3, BitVec.ofNat 32 (n (t + 512 + 4 * p) 4), k.rank⟩ }
  else
    { k with values := (List.range k.count).map fun j =>
        if k.opm = 1 then BitVec.ofNat 32 (roundTo .f32 (widen .bf16 (n (2 * j) 2)) .rn) else BitVec.ofNat 32 (n (4 * j) 4) }
/-- Do two ranges of bytes meet? -/
def rangesMeet (a b : W64) (n : Nat) : Bool := decide (a.toNat < b.toNat + n) && decide (b.toNat < a.toNat + n)
/-- A checked collective begins: kept copies of an earlier one with its tag go (16 R444). -/
def State.beginColl (s : State) (k : Collective) : State :=
  let cr := s.crucible
  let s : State := { s with
    engines := s.engines.filter fun x => x.id != k.cmd.id
    crucible := ⟨cr.colls ++ [k], cr.kept.filter fun m => hdrTag m.hdr != k.tag, cr.done.filter fun x => x.1 != k.tag⟩ }
  (s.enterStep k).advanceColl k.tag (k.steps.length + 1)
/-- A command as the agent of its reads and writes. -/
def EngCmd.collWho (c : EngCmd) (l : Launch) : Who := { c.who l with agent := .crucible c.id }
/-- The descriptor, the rank table, the destination and the source of a command, in turn; the region of a shadow destination is known from the descriptor
on. -/
def State.startColl (s : State) (c : EngCmd) (l : Launch) : State :=
  let w := c.collWho l
  let region := s.collRegion c l (s.cmdDest c l)
  match s.reachRead w c.a 64 with
  | .error x => s.collFault c l .read region x
  | .ok ds => match s.agentPrep w ds [] with
    | some t => t
    | none =>
      let d := leNat (s.reachBytes w ds)
      let region := s.collRegion c l (BitVec.ofNat 64 (bits d 127 64))
      if descBad c.op d then s.endColl c l region 0x12 0 0 none
      else match s.reachRead w (BitVec.ofNat 64 (bits d 191 128)) (bits d 271 264 + 1) with
        | .error x => s.collFault c l .read region x
        | .ok rs => match s.agentPrep w rs [] with
          | some t => t
          | none =>
            let k := Collective.ofDesc c d ((s.reachBytes w rs).map BitVec.toNat)
            if s.ranksBad k || (s.coll? k.tag).isSome then s.endColl c l region 0x12 0 0 none
            else if c.op = .callred ∧ c.dm = 0 ∧ rangesMeet k.sbase k.dbase k.size then s.endColl c l none 0x13 0 0 none
            else match (if c.dm = 1 then s.reachDest w 1 [(k.dbase, k.size)] else .ok []) with
              | .error x => s.collFault c l .write region x
              | .ok ws =>
                if c.dm = 1 ∧ (oneRegion ws).isNone then s.endColl c l region 5 0 0 none
                else if (region.any fun r => s.pubBefore r c.sentAt) || decide (Config.collectives ≤ s.crucible.colls.length) then s
                else match s.reachRead w k.sbase k.size with
                  | .error x => s.collFault c l .read region x
                  | .ok ss => match s.agentPrep w ss [] with
                    | some t => t
                    | none => ((s.dropWait (.crucible c.id)).useReads 0 (ds ++ rs ++ ss)).beginColl (k.load (s.reachBytes w ss))
/-- A Crucible command that has not begun. -/
def EngCmd.collective (c : EngCmd) : Bool := (c.op == .ccomp || c.op == .callred) && c.phase == 0 && c.pub.isNone
/-- 08 R287 (`.id` the command): the first that waits starts, or completes without having started. -/
def execCollectiveStart (s : State) : Answer :=
  .next (match s.arg with
  | .id id => match s.engines.find? EngCmd.collective with
    | some c => match s.launch? c.launch with
      | some l =>
        if c.id != id || s.agentBusy (.crucible id) then s
        else s.startColl c l
      | none => s
    | none => s
  | _ => s)

/-! ### Messages that arrive (R292, R293; 16 R444) -/

/-- The rank table of a tag that runs or has completed. -/
def State.tableOf (s : State) (tag : W32) : Option (List Nat) :=
  match s.coll? tag with
  | some k => some k.ranks
  | none => (s.crucible.done.find? fun x => x.1 == tag).map (·.2)
/-- A data message is acknowledged: its header with this rank as sender, and this rank's configuration. -/
def State.acknowledge (s : State) (h : BitVec 128) (ranks : List Nat) (cfg : Nat) : State :=
  let me := ranks.findIdx fun r => r == s.pkg
  let x := h.toNat
  s.tell (ranks.getD (hdrFrom h) 0) (BitVec.ofNat 128 (bits x 59 0 + 3 * 2 ^ 60 + me * 2 ^ 64 + bits x 78 71 * 2 ^ 71 + cfg * 2 ^ 87))
/-- The collective that a message finds running here with another configuration: it ends GROUP (08 R292). -/
def State.otherCfg (s : State) (h : BitVec 128) : Option Collective :=
  (s.coll? (hdrTag h)).filter fun k => k.stat.isNone && hdrCfg h != k.cfg
/-- Has a message of a running collective come before: for a step that is over, or one that waits for its step? -/
def Collective.had (k : Collective) (h : BitVec 128) : Bool :=
  decide (hdrStep h < k.stepNo) || k.early.any fun m => hdrStep m.hdr == hdrStep h && hdrUnit k.image m.hdr == hdrUnit k.image h
/-- 08 R292 (`.message` header and payload): a duplicate is acknowledged and discarded (16 R444); a message that does not expand ends the command with
SIZE, one of a stale generation is missing still and keeps its copy at the sender (R293; 10 R348; log entry 54). -/
def execCrucibleData (s : State) : Answer :=
  .next (match s.arg with
  | .message h bs =>
    if hdrKind h ≠ 0 then s
    else match s.coll? (hdrTag h) with
      | none => match s.tableOf (hdrTag h) with
        | some ranks => s.acknowledge h ranks (hdrCfg h)
        | none => s
      | some k =>
        if k.stat.isSome then s.acknowledge h k.ranks k.cfg
        else if hdrCfg h ≠ k.cfg then (s.acknowledge h k.ranks k.cfg).abortColl k 0x11
        else if k.had h then s.acknowledge h k.ranks k.cfg
        else match s.decodeMessage k (k.ranks.getD (hdrFrom h) 0) bs with
          | .error .stale => s
          | .error .mismatch => (s.acknowledge h k.ranks k.cfg).putColl { k with stat := some 8 }
          | .ok xs => ((s.acknowledge h k.ranks k.cfg).putColl
              { k with early := k.early ++ [⟨k.image, k.ranks.getD (hdrFrom h) 0, h, xs⟩] }).advanceColl k.tag (k.steps.length + 1)
  | _ => s)
/-- Is a kept message the one that a header speaks of: tag, step and number of the tile or block? -/
def CMsg.answers (m : CMsg) (h : BitVec 128) : Bool :=
  hdrTag m.hdr == hdrTag h && hdrStep m.hdr == hdrStep h && hdrUnit m.image m.hdr == hdrUnit m.image h
/-- 16 R444 (`.message`): the kept copy goes out again; another configuration ends the collective that runs (08 R292). -/
def execRequestAgain (s : State) : Answer :=
  .next (match s.arg with
  | .message h _ =>
    if hdrKind h ≠ 1 then s
    else match s.otherCfg h, s.crucible.kept.find? fun m => m.answers h with
      | some k, _ => s.abortColl k 0x11
      | none, some m => s.sendKept m
      | none, none => s
  | _ => s)
/-- 08 R293 (`.message`): the receiver ends GROUP on ERR 0x11 and sends no abort; it ends GROUP and tells every rank on another configuration (R292);
else it ends PEER and sends no abort (log entry 76). -/
def execCrucibleAbort (s : State) : Answer :=
  .next (match s.arg with
  | .message h _ => match s.coll? (hdrTag h) with
    | some k =>
      if hdrKind h ≠ 2 ∨ k.stat.isSome then s
      else if hdrErr h = 0x11 then s.putColl { k with stat := some 0x11 }
      else if hdrCfg h ≠ k.cfg then s.abortColl k 0x11
      else s.putColl { k with stat := some 0x14 }
    | none => s
  | _ => s)
/-- 16 R444 (`.message`): the kept copy goes; another configuration ends the collective that runs (08 R292). -/
def execCrucibleAck (s : State) : Answer :=
  .next (match s.arg with
  | .message h _ =>
    if hdrKind h ≠ 3 then s
    else
      let t : State := { s with crucible := { s.crucible with kept := s.crucible.kept.filter fun m => !m.answers h } }
      match s.otherCfg h with
      | some k => t.abortColl k 0x11
      | none => t
  | _ => s)
/-- 08 R293 (`.id` the command): a step's timer has expired: the missing messages are asked for again; after the third request the rank ends LOST. -/
def execCrucibleRoundTimer (s : State) : Answer :=
  .next (match s.arg with
  | .id id => match s.crucible.colls.find? fun k => k.cmd.id == id with
    | none => s
    | some k => match k.steps[k.step]? with
      | none => s
      | some x =>
        let missing := (k.parts x.recv).filter fun i => (k.arrived i).isNone
        if k.stat.isSome || missing.isEmpty || decide (s.clock < k.deadline) then s
        else if k.requests ≥ 3 then s.abortColl k 0x10
        else missing.foldl (fun (s : State) i => s.tell (k.ranks.getD x.src 0) (k.header 1 0 k.stepNo i))
          (s.putColl { k with requests := k.requests + 1, deadline := s.clock + k.timer })
  | _ => s)

/-! ### Results (R288, R291, R294) -/

/-- The places and bytes that a rank writes. -/
def Collective.writes (k : Collective) : List ((W64 × Nat) × List Byte) :=
  let (lo, hi) := k.result
  if k.image then
    ((List.range (hi - lo)).map (· + lo)).flatMap fun q =>
      let px := (k.pixels.drop (16 * q)).take 16
      let t := k.dbase + BitVec.ofNat 64 (768 * (q / 4))
      [((t + BitVec.ofNat 64 (128 * (q % 4)), 128), px.flatMap fun x => leBytes 2 x.r.toNat ++ leBytes 2 x.g.toNat ++ leBytes 2 x.b.toNat ++ leBytes 2 x.a.toNat),
       ((t + BitVec.ofNat 64 (512 + 64 * (q % 4)), 64), px.flatMap fun x => leBytes 4 x.depth.toNat)]
  else if lo < hi then
    [((k.dbase + BitVec.ofNat 64 (k.elem * lo), k.elem * (hi - lo)), ((k.values.drop lo).take (hi - lo)).flatMap fun v =>
      if k.opm = 1 then leBytes 2 (roundTo .bf16 (fval .f32 v) .rn) else leBytes 4 v.toNat)]
  else []
/-- DONE of a record: the tiles that the rank's own result touches, or its elements; with OUT = 0 the spec does not say whether the rest of the object counts
(log entry 88). -/
def Collective.finished (k : Collective) : Nat := if k.image then (k.parts k.result).length else k.result.2 - k.result.1
/-- 08 R294 (`.id` the command): the results are written, and the command goes on with its region's publish or completes; or it ends with its status. A
message that did not expand has no source address: TRAPINFO of its 0x0A is free (log entry 76). -/
def execCollectiveComplete (s : State) : Answer :=
  .next (match s.arg with
  | .id id => match s.crucible.colls.find? fun k => k.cmd.id == id with
    | none => s
    | some k => match s.launch? k.cmd.launch with
      | none => s
      | some l =>
        let c := k.cmd
        let region := s.collRegion c l k.dbase
        if s.agentBusy (.crucible id) then s
        else match k.stat with
          | some st => s.endColl c l region st 0 0 (if st = 8 then some (0xA, 0, BitVec.ofNat 64 (s.pick (2 ^ 78))) else none)
          | none =>
            if k.step < k.steps.length then s
            else match s.reachDest (c.collWho l) c.dm (k.writes.map (·.1)) with
              | .error x => s.collFault c l .write region x
              | .ok ws => match s.pageError ws, s.agentPrep (c.collWho l) [] ws with
                | some (va, r), _ => s.collFault c l .write region (.bad va r)
                | none, some t => t
                | none, none =>
                  let t := (s.useSegs ws).engineWrites c.id c.warp false ws (k.writes.flatMap (·.2))
                  (if c.dm = 1 then t.markWritten ws else t).endColl c l region 1 0 k.finished none
  | _ => s)

end Sys2Proof.Machine
end

