-- ==== Sys2Proof/Machine/Move.lean ====
section
/-! DEFINITION. Predicate, move, uniform and special-register instructions (04 R135 to R141; 01 R21 to R28; 07 R236). -/
namespace Sys2Proof.Machine

/-! ### Predicates (04 R135, R136) -/

/-- P(D) := r(P(A)′, P(B)′) with the negations of MOD[0] and MOD[1]. -/
def State.pred2 (s : State) (f : Fields) (r : Bool → Bool → Bool) : State :=
  s.pOp f fun w l => r (w.p l f.a != f.mod.testBit 0) (w.p l f.b != f.mod.testBit 1)

/-- 04 R135. -/
def execPset (w : Std) (s : State) : Answer := let f := Fields.ofStd w; .next (s.pOp f fun w l => w.opB f l != 0)
/-- 04 R135. -/
def execPand (w : Std) (s : State) : Answer := .next (s.pred2 (.ofStd w) and)
/-- 04 R135. -/
def execPor (w : Std) (s : State) : Answer := .next (s.pred2 (.ofStd w) or)
/-- 04 R135. -/
def execPxor (w : Std) (s : State) : Answer := .next (s.pred2 (.ofStd w) xor)
/-- 04 R135. -/
def execPnot (w : Std) (s : State) : Answer := let f := Fields.ofStd w; .next (s.pOp f fun w l => !w.p l f.a)
/-- 04 R136: p15 reads 1, so bit 15 of the register form is 1. -/
def execPmov (w : Std) (s : State) : Answer :=
  let f := Fields.ofStd w
  .next (match f.mod with
    | 0 => s.pOp f fun w l => w.p l f.a
    | 1 => s.vOp f fun w l => (1#1 ++ (w.lane l).p).setWidth 32
    | _ => s.perLane f fun w l => (List.range 15).map fun k => .p l k ((w.v l f.a).getLsbD k))

/-! ### Moves (04 R137, R138) -/

/-- 04 R137. -/
def execMov (w : Std) (s : State) : Answer :=
  let f := Fields.ofStd w
  .next (if f.mod = 3 then s.vOp64 f fun w l => w.opB64 f l else s.vOp f fun w l => w.opB f l)
/-- 04 R137: MODLO[6:5] names the destination. -/
def execMovi (w : Ext) (s : State) : Answer :=
  let f := Fields.ofExt w
  .next (match f.mod / 32 with
    | 0 => s.vOp f fun _ _ => f.imm
    | 1 => s.vOp64 f fun _ _ => f.imm.signExtend 64
    | _ => s.uniform f fun _ => f.imm.signExtend 64)
/-- 04 R138. -/
def execMovs (w : Std) (s : State) : Answer :=
  let f := Fields.ofStd w
  let wide := f.mod.testBit 1
  .next (
    if f.mod % 2 = 0 then
      if wide then s.vOp64 f fun w _ => w.s f.a else s.vOp f fun w _ => lo32 (w.s f.a)
    else s.onWarp fun e =>
      let l := (f.uniB e.w.s).toNat % e.w.width
      let x : W64 := if (s.act e.w).contains l then (if wide then e.w.v2 l f.a else (e.w.v l f.a).setWidth 64) else 0
      s.uniform f fun _ => x)

/-! ### The uniform unit (04 R139) -/

/-- D := r(A, B) in uniform registers. -/
def State.uni2 (s : State) (f : Fields) (r : W64 → W64 → W64) : State := s.uniform f fun reg => r (reg f.a) (f.uniB reg)
/-- The shift kinds of `sshl`. -/
def uniShift (kind : Nat) (a b : W64) : W64 :=
  match kind with | 0 => shiftLeft a b.toNat | 1 => shiftRight a b.toNat | _ => shiftArith a b.toNat
/-- 1 if a cond b, else 0. -/
def uniCompare (mod : Nat) (a b : W64) : W64 := if intCompare mod a b then 1 else 0

/-- 04 R139. -/
def execSadd (w : Std) (s : State) : Answer := .next (s.uni2 (.ofStd w) fun a b => a + b)
/-- 04 R139. -/
def execSaddExt (w : Ext) (s : State) : Answer := .next (s.uni2 (.ofExt w) fun a b => a + b)
/-- 04 R139. -/
def execSsub (w : Std) (s : State) : Answer := .next (s.uni2 (.ofStd w) fun a b => a - b)
/-- 04 R139. -/
def execSsubExt (w : Ext) (s : State) : Answer := .next (s.uni2 (.ofExt w) fun a b => a - b)
/-- 04 R139. -/
def execSand (w : Std) (s : State) : Answer := .next (s.uni2 (.ofStd w) fun a b => a &&& b)
/-- 04 R139. -/
def execSandExt (w : Ext) (s : State) : Answer := .next (s.uni2 (.ofExt w) fun a b => a &&& b)
/-- 04 R139. -/
def execSor (w : Std) (s : State) : Answer := .next (s.uni2 (.ofStd w) fun a b => a ||| b)
/-- 04 R139. -/
def execSorExt (w : Ext) (s : State) : Answer := .next (s.uni2 (.ofExt w) fun a b => a ||| b)
/-- 04 R139. -/
def execSshl (w : Std) (s : State) : Answer := let f := Fields.ofStd w; .next (s.uni2 f (uniShift f.mod))
/-- 04 R139. -/
def execScmp (w : Std) (s : State) : Answer := let f := Fields.ofStd w; .next (s.uni2 f (uniCompare f.mod))
/-- 04 R139. -/
def execScmpExt (w : Ext) (s : State) : Answer := let f := Fields.ofExt w; .next (s.uni2 f (uniCompare f.mod))

/-! ### Special registers (01 R21 to R28) -/

/-- LVLSHAPE of a launch's block (01 R23), or of a batch (11 R365). -/
def lvlShape (h : Header) (batch : Bool) : W64 :=
  if batch then 6
  else BitVec.ofNat 64 ((List.range 6).foldl (fun acc k => acc + h.widths.getD k 0 * 2 ^ (7 * k)) (h.blk * 2 ^ 42))
/-- CORELOC (01 R24). -/
def coreLoc (core quarter slot : Nat) : W32 :=
  BitVec.ofNat 32 (slot % 64 + quarter % 4 * 2 ^ 6 + core % 256 * 2 ^ 8 + (if 96 ≤ core then 2 ^ 16 else 0))
/-- SPECCTL (01 R28), given the number of unfinished memory instructions. -/
def Spec.word (x : Spec) (outst : Nat) : W32 :=
  BitVec.ofNat 32 (x.soff.toNat + x.crfl % 1024 * 2 + x.ulog % 32 * 2 ^ 11 + outst % 64 * 2 ^ 16
    + x.emits.length % 16 * 2 ^ 22 + x.cmds.length % 16 * 2 ^ 26)
/-- ROWPROG of a block's stream (07 R248): NEXT and RUN, or 0 with no stream. -/
def Block.rowprog (b : Block) : W64 := match b.stream with | some x => BitVec.ofNat 64 (x.next % 256 + x.run.toNat * 256) | none => 0
/-- Does the block's stream have a tile step outstanding (07 R248)? -/
def State.tileStepOpen (s : State) (block : Nat) : Bool :=
  s.quads.ops.any fun o => o.block == block && match o.kind with | .mmac _ _ => true | .mprol _ _ _ => true | _ => false
/-- The special registers of a launch, block and core, zero-extended (01 R21). 01 R22 lets CLOCK differ by up to 4 between cores; here every core reads
the one value (log entry 57). -/
def State.sprCommon (s : State) (b : Block) (l : Launch) (quarter k : Nat) : W64 :=
  match k with
  | 0x003 => lvlShape l.hdr b.batch.isSome
  | 0x004 => b.blockx
  | 0x005 => (coreLoc b.core quarter b.winSlot).setWidth 64
  | 0x006 => l.seq.setWidth 64
  | 0x007 => l.hdr.tenant.setWidth 64
  | 0x008 => if l.hdr.privileged then 1 else 0
  | 0x020 => b.rowprog
  | 0x030 => BitVec.ofNat 64 s.clock
  | _ => 0
/-- A special register as a lane reads it, zero-extended (01 R21). -/
def State.sprLane (s : State) (e : Env) (l k : Nat) : W64 :=
  let w := e.w
  match k with
  | 0x000 => BitVec.ofNat 64 l
  | 0x001 => w.warpx.setWidth 64
  | 0x002 => (w.lane l).wid
  | 0x010 => w.regs.trap.cause.setWidth 64
  | 0x011 => w.regs.trap.pc
  | 0x012 => w.regs.trap.info
  | 0x013 => w.regs.trap.aux
  | 0x014 => w.regs.trap.tba
  | 0x015 => w.regs.trap.mask.setWidth 64
  | 0x018 => (w.spec.word (s.outstanding w)).setWidth 64
  | 0x021 => w.regs.fmtword.setWidth 64
  | _ => s.sprCommon e.b e.l (quarterOf w.slot) k

/-- 04 R140; in a matrix stream it writes an x register (07 R236). -/
def execSprrd (w : Std) (s : State) : Answer :=
  let f := Fields.ofStd w
  .next (
    if s.cur.stream then s.onStream fun e => s.uniform f fun _ => s.sprCommon e.b e.l 0 f.a
    else s.onWarp fun e => match f.mod with
      | 0 => s.vOp f fun _ l => lo32 (s.sprLane e l f.a)
      | 1 => s.vOp64 f fun _ l => s.sprLane e l f.a
      | _ => s.uniform f fun _ => s.sprLane e 0 f.a)

/-- The trap registers with one of them written; TBA drops bits [2:0] (04 R141, 01 R21), TRAPCAUSE its reserved
bits (01 R25; 00 R12). -/
def TrapRegs.write (t : TrapRegs) (k : Nat) (x : W64) : TrapRegs :=
  match k with
  | 0x010 => { t with cause := lo32 x &&& 0x01FFFFFF }
  | 0x011 => { t with pc := x &&& ~~~7 }
  | 0x012 => { t with info := x }
  | 0x013 => { t with aux := x }
  | 0x014 => { t with tba := x &&& ~~~7 }
  | _ => t
/-- 04 R141: the value of the lowest lane with Exec; an H register outside a handler raises privilege REASON 0x03; a stream writes
ROWPROG only. -/
def execSprwr (w : Std) (s : State) : Answer :=
  let f := Fields.ofStd w
  .next (
    if s.cur.stream then s.onStream fun e =>
      if s.tileStepOpen e.b.id then s.stallStream e
      else s.putStream e.b.id ({ e.x with next := (f.uniB e.x.reg).toNat % 2 ^ 8 }.advance s.cur)
    else s.onWarp fun e =>
      match s.exec e.w f.ga f.gb with
      | [] => s.finish e []
      | l :: _ =>
        if f.d != 0x014 && !e.w.regs.trap.inHandler then s.raise e { cause := 7, reason := 3, lane := l, info := 0 }
        else
          let x := if f.mod.testBit 0 || f.bk != 0 then e.w.opB64 f l else (e.w.opB f l).setWidth 64
          let v := { e.w with regs := { e.w.regs with trap := e.w.regs.trap.write f.d x }
                              decodedExt := if f.d = 0x011 then none else e.w.decodedExt }
          s.putWarp ((v.commit []).advance s.cur (s.act e.w)))

end Sys2Proof.Machine
end

