-- ==== Sys2Proof/Machine/Report.lean ====
section
/-! DEFINITION. What the package reports to the host: the status page (13 R415, R416) and the event queue (13 R418, R419). -/
namespace Sys2Proof.Machine

/-- Bytes that a report to the host puts at a physical address. -/
def State.report (s : State) (pa : Nat) (bs : List Byte) : State := s.ownStore pa bs
/-- A 32-bit field of the status page, then WCLK (R416). -/
def State.status32 (s : State) (off x : Nat) : State :=
  match s.status.page with
  | none => s
  | some p => (s.report (p + off) (leBytes 4 x)).report p (leBytes 8 s.clock)
/-- Offset of a queue's record. -/
def queueRec (q : Nat) : Nat := 64 + 64 * q
/-- A field of a queue's record, 4 bytes each from TAILSEEN on. -/
def State.statusQ (s : State) (q field : Nat) (x : Nat) : State := s.status32 (queueRec q + 4 * field) x

/-- The whole record of a queue, its reserved bits zero; a queue number that is not registered shows STOPR 5 (R415). -/
def State.statusRecord (s : State) (q : Nat) : State :=
  let t := match s.status.page with
    | some p => s.report (p + queueRec q + 24) (List.replicate 40 (0 : Byte))
    | none => s
  let fields : List Nat := match s.queues.find? fun x => x.no == q with
    | some x => [x.tail.toNat, x.accepted.toNat, x.lcomp.toNat, x.ltrig.toNat, x.regn, x.stop.toNat]
    | none => [0, 0, 0, 0, 0, 5]
  fields.zipIdx.foldl (fun t (x, i) => t.statusQ q i x) t
/-- The whole status page as it stands (R415). -/
def State.statusPage (s : State) : State :=
  let t := match s.status.page with
    | some p => s.report (p + 20) (List.replicate 44 (0 : Byte))
    | none => s
  (List.range 16).foldl State.statusRecord (((t.status32 16 s.features.isSome.toNat).status32 12 s.status.resets).status32 8 s.status.evseq)

/-- An event entry as a number (R419). -/
def eventEntry (kind sub seq clock d0 d1 : Nat) : Nat :=
  kind % 256 + sub % 256 * 2 ^ 8 + seq % 2 ^ 32 * 2 ^ 32 + clock % 2 ^ 64 * 2 ^ 64 + d0 % 2 ^ 64 * 2 ^ 128 + d1 % 2 ^ 64 * 2 ^ 192
/-- An event joins the queue, two stores and then the tail, or is dropped and counted where the queue is full (R418). -/
def State.event (s : State) (kind sub d0 d1 : Nat) : State :=
  match s.eventQ with
  | none => s
  | some q =>
    let n := q.seq + 1
    if (q.tail - q.head).toNat < q.cfg.count then
      let e := leBytes 32 (eventEntry kind sub n s.clock d0 d1)
      let pa := q.cfg.base + 32 * (q.tail.toNat % q.cfg.count)
      let s := ((s.report pa (e.take 16)).report (pa + 16) (e.drop 16)).report q.cfg.tailPa (leBytes 4 (q.tail + 1).toNat)
      { s with eventQ := some { q with tail := q.tail + 1, seq := n }, status := { s.status with evseq := n } }.status32 8 n
    else { s with eventQ := some { q with seq := n, dropped := q.dropped + 1 } }
/-- DATA1 of the events that name a launch: LSEQ and the launch queue. -/
def Launch.eventName (l : Launch) : Nat := l.seq.toNat + l.queue % 16 * 2 ^ 32

/-- Changes a launch queue. -/
def State.modQueue (s : State) (q : Nat) (f : Queue → Queue) : State := { s with queues := s.queues.map fun x => if x.no = q then f x else x }
/-- A launch queue by number. -/
def State.queue? (s : State) (q : Nat) : Option Queue := s.queues.find? fun x => x.no == q
/-- The newest launch of a queue that carries a sequence number. -/
def State.launchOf (s : State) (q : Nat) (seq : W32) : Option Launch := (s.launches.filter fun l => l.queue == q && l.seq == seq).getLast?
/-- A watermark (R415): the last number, from `x` up to the accepted one, before which every launch meets a test. -/
def State.watermark (s : State) (q : Queue) (p : Launch → Bool) : Nat → W32 → W32
  | 0, x => x
  | n + 1, x =>
    if x = q.accepted then x
    else match s.launchOf q.no (x + 1) with
      | some l => if p l then s.watermark q p n (x + 1) else x
      | none => x
/-- LTRIG and LCOMP of a queue move, each written where it changes (R416). -/
def State.moveMarks (s : State) (q : Nat) : State :=
  match s.queue? q with
  | none => s
  | some x =>
    let n := s.launches.length
    let t := s.watermark x (fun l => l.triggered || l.phase == .done) n x.ltrig
    let c := s.watermark x (fun l => l.phase == .done) n x.lcomp
    let s := s.modQueue q fun x => { x with ltrig := t, lcomp := c }
    let s := if c = x.lcomp then s else s.statusQ q 2 c.toNat
    if t = x.ltrig then s else s.statusQ q 3 t.toNat

/-- 13 R418 (`.word` the new head): room returns, and one LOST event records the drops; the write is an event of memory. -/
def execEventQueueHeadMove (s : State) : Answer :=
  .next (match s.arg, s.eventQ with
  | .word _ x, some q =>
    let s := { s with eventQ := some { q with head := x } }.report q.cfg.headPa (leBytes 4 x.toNat)
    if q.dropped > 0 ∧ (q.tail - x).toNat < q.cfg.count then
      { s with eventQ := some { q with head := x, dropped := 0 } }.event 8 0 q.dropped 0
    else s
  | _, _ => s)

end Sys2Proof.Machine
end

