-- ==== Sys2Proof/Machine/System.lean ====
section
/-! DEFINITION. Trap and system instructions (05 R183 to R191), invalidation of translations (12 R396), and the stop of a launch (05 R191). -/
namespace Sys2Proof.Machine

/-! ### Traps and handlers (05 R183 to R185) -/

/-- The causes that are fatal whatever their reason (12 R377). -/
def fatalCause (c : Nat) : Bool := c == 5 || c == 0xF || c == 0x10
/-- 05 R183: a code from 0x01 to 0x12 with REASON 0, another one as illegal-instruction REASON 0x05. -/
def execTrap (w : Std) (s : State) : Answer :=
  let f := Fields.ofStd w
  .next (s.whenSettled fun e =>
    match s.exec e.w f.ga f.gb with
    | [] => s.skipWarp e
    | l :: _ =>
      let info : W64 := if f.mod % 2 = 1 then (if f.ak = 1 then e.w.s f.a else (e.w.v l f.a).setWidth 64) else 0
      if 1 ≤ f.imm9 ∧ f.imm9 ≤ 0x12 then
        s.raise e { cause := f.imm9.toNat, reason := 0, lane := l, info := info, fatal := fatalCause f.imm9.toNat }
      else s.raise e { cause := 1, reason := 5, lane := l, info := packStd 0x180 w })
/-- 05 R184: the handler's threads wait here until every one of them stands at an `rti`; 12 R382: and until a served fault is marked. It is an instruction
that the warp issues (09 R313). -/
def execRti (w : Std) (s : State) : Answer :=
  let f := Fields.ofStd w
  .next (s.whenSettled fun e =>
    if !e.w.regs.trap.inHandler then s.raise e { cause := 7, reason := 1, lane := (s.act e.w).headD 0, info := 0 }
    else (s.waitLanes (e.w.counted s.cur) (s.act e.w) (.rti (f.mod % 2 = 1))).tryLeave e.w.id)
/-- TMASK.M set or cleared, once for the warp. -/
def State.setMask (s : State) (f : Fields) (m : Bool) : State :=
  s.whenSettled fun e =>
    let w := e.w.advance s.cur (s.act e.w)
    if (s.exec e.w f.ga f.gb).isEmpty then s.putWarp w
    else s.putWarp { w with regs := { w.regs with trap := { w.regs.trap with
      mask := if m then w.regs.trap.mask ||| 1 else w.regs.trap.mask &&& ~~~1 } } }
/-- 05 R185. -/
def execTmask (w : Std) (s : State) : Answer := .next (s.setMask (.ofStd w) true)
/-- 05 R185; a held asynchronous trap follows at the next instruction boundary (01 R27). -/
def execTunmask (w : Std) (s : State) : Answer := .next (s.setMask (.ofStd w) false)

/-! ### Invalidation of translations (05 R187; 12 R396, R397) -/

/-- Which translations: of a PASID or of all, and the pages from the first up to the last. -/
structure Named where
  pasid : Option (BitVec 20)
  first : Nat
  last : Nat
  deriving DecidableEq, Repr

/-- Is a page of a PASID named? -/
def Named.has (n : Named) (pasid : BitVec 20) (page : Nat) : Bool :=
  (match n.pasid with | some p => p == pasid | none => true) && decide (n.first ≤ page) && decide (page ≤ n.last)
/-- A range of pages from an address, ending at the top of its half of the address space (05 R187). -/
def pageRange (va : W64) (shift count : Nat) : Nat × Nat :=
  let first := va.toNat / 2 ^ shift * 2 ^ (shift - 12)
  let top := if va.getLsbD 56 then 2 ^ 52 - 1 else 2 ^ 44 - 1
  (first, min top (first + count * 2 ^ (shift - 12) - 1))
/-- Pages of a node's pool (11 R363). -/
def Node.poolPages (n : Node) : Nat × Nat := (n.pool.toNat / 4096, (n.pool.toNat + n.poolN * n.recBytes - 1) / 4096)
/-- The first leased or pool page of a launch that is named. -/
def Launch.namedPage (l : Launch) (n : Named) : Option Nat :=
  let hit (a b : Nat) : Option Nat := if n.has l.hdr.pasid (max a n.first) && decide (max a n.first ≤ b) then some (max a n.first) else none
  match l.leases.findSome? fun r => hit r.first (r.first + r.count - 1) with
  | some p => some p
  | none => l.nodes.findSome? fun x => hit x.poolPages.1 x.poolPages.2
/-- A fatal trap comes to a warp from elsewhere: its lowest live lane reports it, where the warp stands. -/
def Warp.struck (w : Warp) (t : Trap) (clock : Nat) : Warp :=
  if w.fatal.isSome || w.live.isEmpty then w
  else w.setFatal { t with lane := w.live.headD 0 } true (w.lane (w.live.headD 0)).pc.addr clock
/-- A fatal trap of every warp and stream of a launch that lives, in saved contexts too (11 R358): speculative warps roll back first, and the trap is
processed once the warp is non-speculative (01 R33). -/
def State.failLaunch (s : State) (l : Launch) (cause reason : Nat) (info : W64) : State :=
  let t : Trap := { cause := cause, reason := reason, lane := 0, info := info }
  let mine (s : State) (b : Nat) : Bool := match s.anyBlock? b with | some b => b.launch == l.id | none => false
  let s := s.rollAll (s.warps.filter fun w => mine s w.block)
  let s := s.mapWarps fun w => if mine s w.block then w.struck t s.clock else w
  let hit (b : Block) : Block :=
    if b.launch = l.id then { b with stream := b.stream.map fun x : Stream =>
      if x.exited || x.fatal.isSome then x else { x with fatal := some ⟨cause, reason, 0, true, x.pc.addr, info, 0, false, s.clock, none⟩ } } else b
  { s with blocks := s.blocks.map hit, contexts := s.contexts.map fun c => { c with blocks := c.blocks.map hit } }
/-- Has a launch a warp with a live thread or a stream that runs, in residence or saved? -/
def State.runsSomewhere (s : State) (l : Launch) : Bool :=
  let bs := (s.blocks ++ s.contexts.flatMap (·.blocks)).filter fun b => b.launch == l.id
  bs.any (fun b => b.stream.any fun x => !x.exited) ||
    (s.warps ++ s.contexts.flatMap (·.warps)).any fun w => !w.live.isEmpty && bs.any fun b => b.id == w.block
/-- Leases over named pages end, or return to PENDING where nothing of the launch has issued (11 R358). A launch that has issued and has no warp or stream
to trap ends as one that a lease-violation ended (log entry 69). What an engine of it still does translates anew (12 R397). -/
def State.endLeases (s : State) (n : Named) : State :=
  s.launches.foldl (fun s l =>
    if l.phase != .live then s
    else match l.namedPage n with
      | none => s
      | some p =>
        if !l.issued then s.modLaunch l.id fun l => { l with phase := .pending, extents := [] }
        else if s.runsSomewhere l then
          (s.failLaunch l 5 3 (BitVec.ofNat 64 (p * 4096))).modLaunch l.id fun l => { l with phase := .ended, extents := [] }
        else s.modLaunch l.id fun l => { l with phase := .ended, extents := [], halting := true, stat := 3, reason := 5 }) s
/-- The page of a Larder line, whose tag holds VA[56:7] (10 R339), as a page number of a canonical address. -/
def larderPage (vline : Nat) : Nat :=
  let p := vline / 32 % 2 ^ 45
  if p < 2 ^ 44 then p else p + (2 ^ 52 - 2 ^ 45)
/-- The effect of an invalidation (12 R396): held translations, lines of the uniform-constant caches and Larder lines go, leases end. -/
def State.invalidate (s : State) (n : Named) : State :=
  let s := { s with
    tlb := s.tlb.filter fun t => !n.has t.pasid t.vpage
    cache := s.cache.uccDrop n.has
    larder := { s.larder with lines := s.larder.lines.filter fun x => !(decide (n.first ≤ larderPage x.vline) && decide (larderPage x.vline ≤ n.last)) } }
  s.endLeases n
/-- Has every access that may have used a named translation performed: those of warps, the parts of an instruction still to perform among them, and those
of engines and of Larder fills on their way to or from a peer (12 R396)? -/
def State.drained (s : State) (n : Named) : Bool :=
  (s.warps.all fun w => (w.spec.window.isEmpty && w.remoteOpen == 0 && !w.owing []) ||
    match (s.block? w.block).bind fun b => s.launch? b.launch, n.pasid with
    | some l, some p => l.hdr.pasid != p
    | _, _ => false) && !s.remotes.any fun r => r.cmd.isSome || r.reader.isSome || r.lane == 65
/-- What a `tlbinv` names: KIND at MOD[3:2], SIZE at MOD[1:0]. -/
def tlbNamed (f : Fields) (reg : Nat → W64) : Named :=
  let b := reg f.b
  let pasid : BitVec 20 := if f.ext then f.imm.setWidth 20 else b.setWidth 20
  let count := (if f.ext then (lo32 (reg f.c)).toNat else (hi32 b).toNat) + 1
  match f.mod / 4 % 4 with
  | 0 => let r := pageRange (reg f.a) (12 + 9 * (f.mod % 4)) count; ⟨some pasid, r.1, r.2⟩
  | 1 => ⟨some pasid, 0, 2 ^ 52 - 1⟩
  | _ => ⟨none, 0, 2 ^ 52 - 1⟩
/-- Privilege (0x07), REASON 0x02 (05 R186). -/
def unprivileged (lane : Nat) : Trap := { cause := 7, reason := 2, lane := lane, info := 0 }
/-- `tlbinv` of either form. -/
def State.tlbInvalidate (s : State) (f : Fields) : State :=
  s.whenSettled fun e =>
    match s.exec e.w f.ga f.gb with
    | [] => s.finishLong e f.la [] []
    | l :: _ =>
      if !e.l.hdr.privileged then s.raise e (unprivileged l)
      else if f.mod / 4 % 4 = 0 ∧ !canonical (e.w.s f.a) then s.raise e { cause := 4, reason := 1, lane := l, info := e.w.s f.a }
      else
        let n := tlbNamed f e.w.s
        if s.drained n then (s.finishLong e f.la [] []).invalidate n else s.stall e.w
/-- 05 R187. -/
def execTlbinv (w : Std) (s : State) : Answer := .next (s.tlbInvalidate (.ofStd w))
/-- 05 R187. -/
def execTlbinvExt (w : Ext) (s : State) : Answer := .next (s.tlbInvalidate (.ofExt w))

/-! ### Cache control (05 R188) -/

/-- The leaf of a page whatever it permits; none where no valid entry maps it. In MODE 3 the host holds what no TLB does. -/
def State.anyLeaf (s : State) (pasid : BitVec 20) (va : W64) : Option Leaf :=
  if ctxMode (s.pasidEntry pasid) = 3 then
    match s.held pasid va with
    | some t => if t.perm &&& 0x0E == 0 then none else some t.leaf
    | none => none
  else match s.walk pasid va with
    | .ok f => some f
    | .error _ => none
/-- The physical lines of a virtual range, page by page, without faulting: lines of unmapped pages and of the window are skipped (05 R188). -/
def State.rangeLines (s : State) (l : Launch) (va : W64) (n : Nat) : List Nat :=
  (runsOf (n / 4096 + 2) va n).flatMap fun r =>
    if !canonical r.1 || inWindow r.1 then []
    else match s.anyLeaf l.hdr.pasid r.1 with
      | none => []
      | some f => match s.place .read r.1 false l.hdr.pasid f with
        | .ok m => physLines (.pa m.pa) r.2
        | .error _ => []
/-- A page of a range whose translation the host has still to be asked for (12 R391). -/
def State.rangeAsks (s : State) (l : Launch) (va : W64) (n : Nat) : Option W64 :=
  if ctxMode (s.pasidEntry l.hdr.pasid) = 3 then
    ((runsOf (n / 4096 + 2) va n).map (·.1)).find? fun a => canonical a && !inWindow a && (s.held l.hdr.pasid a).isNone
  else none
/-- A modified line is written back to its memory and stays (05 R188). -/
def State.cleanLine (s : State) (line : Nat) : State :=
  let c := s.cache
  let dirty := c.sectors.filter fun x => lineOf x.1 == line && x.2 == .modified
  { s with out := s.out ++ dirty.map fun x => Out.writeBack x.1
           cache := { c with l1 := c.l1.map fun (k, l, st) => (k, l, if l = line ∧ st = .modified then .exclusive else st)
                             sectors := c.sectors.map fun (a, st) => (a, if lineOf a = line ∧ st = .modified then .exclusive else st) } }
/-- A line leaves one core's L1, reaching read sets if it stood there. -/
def State.dropFromL1 (s : State) (core line : Nat) : State :=
  let s' : State := { s with cache := s.cache.dropAt (fun k => k == core) line }
  if (s.cache.l1At core line).isSome then s'.disturb [.pa line] none else s'
/-- The effect of a `cachectl` on the lines of its range (05 R188). -/
def State.cacheOp (s : State) (core op : Nat) (lines : List Nat) : State :=
  match op with
  | 1 => lines.foldl State.cleanLine s
  | 2 => lines.foldl (fun s x => s.dropFromL1 core x) s
  | _ => lines.foldl (fun s x => (s.cleanLine x).evictL2 x) s
/-- 05 R188: MOD[2:0] the operation. -/
def execCachectl (w : Std) (s : State) : Answer :=
  let f := Fields.ofStd w
  .next (s.whenSettled fun e =>
    match s.exec e.w f.ga f.gb with
    | [] => s.finishLong e f.la [] []
    | l :: _ =>
      if 3 ≤ f.mod ∧ !e.l.hdr.privileged then s.raise e (unprivileged l)
      else
        let a := e.w.s f.a
        let n := (f.uniB e.w.s).toNat
        let t := s.finishLong e f.la [] []
        match f.mod with
        | 0 => t.modBlock e.b.id fun b => { b with codeFrom := t.oldCode.length }
        | 4 => { t with larder := { t.larder with lines := t.larder.lines.filter fun x =>
                  !(decide (a.toNat % 2 ^ 57 / 128 ≤ x.vline) && decide (x.vline * 128 < a.toNat % 2 ^ 57 + n) && decide (0 < n)) } }
        | op => match s.rangeAsks e.l a n with
          | some va => (s.askHost (.warp e.w.id) e.l .read va e.w.core e.w.slot).disable e.w
          | none => t.cacheOp e.w.core op (s.rangeLines e.l a n))

/-! ### Marks, speculation, halt (05 R189 to R191) -/

/-- 05 R189. -/
def execTmark (w : Std) (s : State) : Answer :=
  let f := Fields.ofStd w
  .next (s.onWarp fun e =>
    match s.exec e.w f.ga f.gb with
    | [] => s.skipWarp e
    | l :: _ => (s.skipWarp e).traceWarp e.w.id (some 3) 10 0 ((e.w.opB f l).setWidth 54) (e.w.lane l).pc)
/-- SPECCTL.SOFF. -/
def State.setSoff (s : State) (f : Fields) (x : Bool) : State :=
  s.whenSettled fun e =>
    let w := e.w.advance s.cur (s.act e.w)
    s.putWarp (if (s.exec e.w f.ga f.gb).isEmpty then w else { w with spec := { w.spec with soff := x } })
/-- 05 R190. -/
def execSpecoff (w : Std) (s : State) : Answer := .next (s.setSoff (.ofStd w) true)
/-- 05 R190. -/
def execSpecon (w : Std) (s : State) : Answer := .next (s.setSoff (.ofStd w) false)

/-- A command that has not begun when its launch stops is cancelled (06 R219, R220), but for a collective (08 R295); which of the commands sent have begun is
open (log entry 6). -/
def State.cancelCmds (s : State) (launch : Nat) : State :=
  { s with engines := s.engines.map fun c =>
      if c.launch = launch ∧ c.phase = 0 ∧ c.left.isNone ∧ c.op ≠ .ccomp ∧ c.op ≠ .callred ∧ s.choose (2 ^ 76 + 2 ^ 60 + c.id) then { c with stat := 6 } else c }
/-- The saved blocks of a launch go, with what was saved of them; their areas return (05 R191; 12 R383). -/
def State.discardSaved (s : State) (launch : Nat) : State :=
  let gone := (s.contexts.flatMap (·.blocks)).filter fun b => b.launch == launch
  let mine (id : Nat) : Bool := gone.any fun b => b.id == id
  let kept := gone.filter fun b => s.engines.any fun c => c.block == b.id
  let remains := kept.map s.gathered
  let areas := s.contexts.flatMap fun c => (c.areas.filter fun x => mine x.1).map (·.2)
  { s with
    launches := s.launches.map fun l => if l.id = launch then { l with remains := l.remains ++ remains } else l
    pools := ⟨s.pools.backing ++ gone.flatMap fun b => b.backing.toList, s.pools.saves ++ areas⟩
    contexts := s.contexts.map fun c : Context =>
      { c with blocks := c.blocks.filter (fun b => !mine b.id)
               areas := c.areas.filter fun x => !mine x.1
               warps := c.warps.filter fun w => !mine w.block
               ops := c.ops.filter fun o => !mine o.block
               acc := c.acc.filter fun a => match a.2.2.owner with | some b => !mine b | none => true } }
/-- Every warp and stream of a launch stops (05 R191; 12 R383): speculative warps roll back, saved contexts of the launch go, commands that have not begun are
cancelled; the launch completes with the status given once what was sent has ended. -/
def State.stopLaunch (s : State) (launch : Nat) (stat reason : Byte) : State :=
  let s := s.modLaunch launch fun l => if l.halting then l else { l with halting := true, stat := stat, reason := reason }
  let mine (b : Nat) : Bool := match s.block? b with | some b => b.launch == launch | none => false
  let s := s.rollAll (s.warps.filter fun w => mine w.block)
  (s.discardSaved launch).cancelCmds launch
/-- 05 R191. -/
def execHalt (w : Std) (s : State) : Answer :=
  let f := Fields.ofStd w
  .next (s.whenSettled fun e =>
    match s.exec e.w f.ga f.gb with
    | [] => s.skipWarp e
    | l :: _ => if !e.l.hdr.privileged then s.raise e (unprivileged l) else (s.skipWarp e).stopLaunch e.l.id 2 0)

end Sys2Proof.Machine
end

