-- ==== Sys2Proof/Machine/Dump.lean ====
section
/-! DEFINITION. The dump of a block (12 R403 to R407, R446). -/
namespace Sys2Proof.Machine

/-! ### The dump engine's accesses (R403) -/

/-- Why the dump engine cannot go on: an access that fails, or a page that the host must translate first (12 R391). -/
inductive DumpStop where
  | fails
  | asks (va : W64)
  deriving DecidableEq, Repr
/-- A page of the dump area as the dump engine reaches it: in this package's HBM under the tenant's key. -/
def State.dumpPage (s : State) (l : Launch) (u : Use) (va : W64) : Except DumpStop Mapped :=
  if !canonical va || inWindow va then .error .fails
  else match s.leaf l.hdr.pasid l.hdr.privileged u va with
    | .error (.ats a) => .error (.asks a)
    | .error _ => .error .fails
    | .ok x => match s.place u va false l.hdr.pasid x with
      | .error _ => .error .fails
      | .ok m => if isHbm m.pa && s.keyOfTenant l.hdr.tenant == some (s.keyOf m.pa) then .ok m else .error .fails
/-- The runs of a range. -/
def State.dumpReach (s : State) (l : Launch) (u : Use) (va : W64) (n : Nat) : Except DumpStop (List Seg) :=
  (runsOf (n / 4096 + 2) va n).mapM fun r => (s.dumpPage l u r.1).map fun m => m.seg r.1 r.2
/-- The capacity at DUMPP. -/
def State.dumpCapacity (s : State) (l : Launch) : Except DumpStop Nat :=
  match s.dumpReach l .read l.hdr.dumpp 8 with
  | .ok gs => if (s.errorIn gs).isSome then .error .fails else .ok (leNat (s.readSegs gs))
  | .error e => .error e
/-- Bytes written into the area, page by page, up to a write that stops the engine. -/
def State.dumpWrite (s : State) (l : Launch) (va : W64) (bs : List Byte) : State × Option DumpStop :=
  ((runsOf (bs.length / 4096 + 2) va bs.length).foldl (fun (p : State × Option DumpStop × List Byte) r =>
    if p.2.1.isSome then p
    else match p.1.dumpPage l .write r.1 with
      | .error e => (p.1, some e, [])
      | .ok m => ((p.1.useSeg (m.seg r.1 r.2)).report m.pa (p.2.2.take r.2), none, p.2.2.drop r.2))
    (s, none, bs)) |> fun p => (p.1, p.2.1)

/-! ### The sections (R406, R407) -/

/-- A trap record: SRC, the TRAPCAUSE word, PC, TRAPINFO, TRAPAUX. -/
def trapRecord (src : Nat) (cause : W32) (pc info aux : W64) : List Byte :=
  leBytes 32 (src * 2 ^ 24 + cause.toNat * 2 ^ 32 + pc.toNat * 2 ^ 64 + info.toNat * 2 ^ 128 + aux.toNat * 2 ^ 192)
/-- The TRAPCAUSE word of a fatal trap (01 R25, R383). -/
def FatalTrap.word (f : FatalTrap) : W32 := trapCause f.cause f.reason f.lane f.auxv true f.beyond
/-- The byte address of the instruction a warp would issue next. -/
def Warp.nextAddr (w : Warp) : W64 :=
  match minBy (fun l => (w.lane l).pc.toNat) w.live with
  | some l => (w.lane l).pc.addr
  | none => 0
/-- The records of the asynchronous traps a warp holds (R384). -/
def Warp.heldRecords (w : Warp) : List (List Byte) :=
  w.asyncs.map fun a =>
    trapRecord w.slot (trapCause a.cause a.reason 0 true false (asyncBeyond a.cause a.reason)) w.nextAddr a.info a.aux
/-- A mask over 64 lanes as 8 bytes. -/
def laneMask (p : Nat → Bool) : List Byte := leBytes 8 (maskOf ((List.range 64).filter p)).toNat
/-- A warp record (R406); `outst`: its unfinished accesses. -/
def Warp.dumpRecord (outst : Nat) (w : Warp) : List Byte :=
  let t := w.regs.trap
  let each (f : Lane → List Byte) (n : Nat) : List Byte := (List.range 64).flatMap fun l => if l < w.width then f (w.lane l) else List.replicate n (0 : Byte)
  leBytes 64 (w.warpx.toNat + t.cause.toNat * 2 ^ 32 + t.pc.toNat * 2 ^ 64 + t.info.toNat * 2 ^ 128 + t.aux.toNat * 2 ^ 192 + t.tba.toNat * 2 ^ 256
    + t.mask.toNat * 2 ^ 320 + (w.spec.word outst).toNat * 2 ^ 352 + w.regs.fmtword.toNat * 2 ^ 384 + w.slot * 2 ^ 416)
  ++ laneMask (fun l => (w.lane l).populated) ++ laneMask (fun l => (w.lane l).exited)
  ++ laneMask (fun l => (w.lane l).wait != .none) ++ laneMask (fun l => (w.lane l).held) ++ List.replicate 32 (0 : Byte)
  ++ w.regs.s.flatMap (fun x => leBytes 8 x.toNat) ++ w.regs.bn.flatMap (fun x => leBytes 48 x.toNat)
  ++ each (fun t => leBytes 8 t.pc.addr.toNat) 8 ++ each (fun t => leBytes 8 t.wid.toNat) 8
  ++ each (fun t => leBytes 2 (t.p.toNat + 2 ^ 15)) 2
  ++ each (fun t => [match t.query.state with | .none => (0 : Byte) | .cand => 1 | .done => 2]) 1 ++ List.replicate 64 (0 : Byte)
  ++ (List.range (w.lane 0).v.length).flatMap fun k => (List.range w.width).flatMap fun l => leBytes 4 (w.v l k).toNat
/-- The matrix-stream record (R407). -/
def State.streamDump (s : State) (b : Block) (x : Stream) : List Byte :=
  let mask := (s.heldSlots b.id).foldl (fun m i => m ||| (1#32 <<< i)) 0
  let body := x.x.flatMap (fun r => leBytes 8 r.toNat) ++ leBytes 8 x.pc.addr.toNat ++ leBytes 4 b.rowprog.toNat
    ++ leBytes 4 mask.toNat ++ leBytes 4 (countIf (fun o => o.block == b.id) s.quads.ops)
  body ++ List.replicate (512 - body.length) 0
/-- A barrier record (R407). -/
def Bar.record (b : Bar) : List Byte := leBytes 8 (b.e % 65536 + b.a % 65536 * 2 ^ 16 + b.phase.toNat * 2 ^ 32 + b.ready.toNat * 2 ^ 33)
/-- The scratchpad section: the declared bytes, then one full-empty bit per granule (R407); of a block that has retired, as they were. -/
def State.scratchRecord (s : State) (b : Block) : List Byte :=
  let b := if (s.anyBlock? b.id).isSome then s.gathered b else b
  let n := b.scratchBytes / 16
  b.scratch.read 0 b.scratchBytes ++ (List.range (ceilDiv n 8)).map fun i =>
    BitVec.ofNat 8 ((List.range 8).foldl (fun x k => if 8 * i + k < n && !b.feEmpty.contains (8 * i + k) then x + 2 ^ k else x) 0)
/-- The most recent trace records of a tenant on a core, oldest first, at most 256 (R407). -/
def State.traceRecords (s : State) (core : Nat) (tenant : BitVec 16) : List Byte :=
  let pages := (s.core core).pages.filter fun p => p.tenant == some tenant
  let keys := sortNat (dedup (pages.map fun p => 2 * p.stamp + (decide (p.fill < 256)).toNat))
  let bytes := keys.flatMap fun k => (pages.filter fun p => 2 * p.stamp + (decide (p.fill < 256)).toNat == k).flatMap fun p => s.readPa p.pa (16 * p.fill)
  bytes.drop (bytes.length - 4096)

/-! ### The dump -/

/-- The sections laid out from byte 256, each at a 64-byte boundary (R403): what is placed, VALID, the offset fields, the end. -/
structure Layout where
  placed : List (Nat × List Byte)
  valid : Nat
  fields : Nat
  stop : Nat
/-- The next section: absent when empty, omitted whole where it would pass the capacity. -/
def Layout.add (cap : Nat) (y : Layout) (x : List Byte × Nat) : Layout :=
  let at_ := ceilDiv y.stop 64 * 64
  if x.1.isEmpty then y
  else if cap < at_ + x.1.length then { y with valid := (BitVec.ofNat 8 y.valid ||| 0x40).toNat }
  else ⟨y.placed ++ [(at_, x.1)], y.valid + 2 ^ x.2, y.fields + at_ * 2 ^ (384 + 32 * x.2), at_ + x.1.length⟩
/-- What a dump's header says beside its sections. -/
structure DumpInfo where
  trap : FatalTrap
  ctx : Nat
  isPartial : Bool
  otherf : Nat
  quarter : Nat
  ntrec : Nat
  nwarp : Nat
/-- WW of a width. -/
def widthCode (lanes : Nat) : Nat := if lanes = 64 then 2 else if lanes = 32 then 1 else 0
/-- The dump header (R405): its counts are those of the records that stand in the dump. -/
def dumpHeader (l : Launch) (b : Block) (d : DumpInfo) (y : Layout) (trc : Nat) : List Byte :=
  leBytes 256 (1 + l.seq.toNat * 2 ^ 32 + l.hdr.tenant.toNat * 2 ^ 64 + d.trap.cause % 256 * 2 ^ 80 + d.trap.reason % 256 * 2 ^ 88
    + (y.valid + d.isPartial.toNat * 128) * 2 ^ 96 + (if y.valid.testBit 1 then d.nwarp else 0) % 256 * 2 ^ 104
    + (if y.valid.testBit 0 then d.ntrec else 0) % 256 * 2 ^ 112 + widthCode l.hdr.lanes * 2 ^ 120
    + d.trap.clock % 2 ^ 64 * 2 ^ 128 + b.blockx.toNat * 2 ^ 192 + (coreLoc b.core d.quarter b.winSlot).toNat * 2 ^ 256 + l.hdr.regs * 2 ^ 288
    + b.bars.length * 2 ^ 304 + min d.otherf 0xFFFFFFFF * 2 ^ 320 + d.ctx % 2 ^ 32 * 2 ^ 352 + y.fields
    + (if y.valid.testBit 5 then trc else 0) * 2 ^ 576 + y.stop * 2 ^ 608)
/-- The first section that the dump engine cannot read: the scratchpad, for an error in the backing of an unpinned page, or the trace ring (R403; log entry
77). -/
def State.dumpError (s : State) (l : Launch) (b : Block) : Option Nat :=
  if b.pages.any fun p => p.frame.isNone && (s.fillError b p.no).isSome then some 4
  else if (s.core b.core).pages.any fun p => p.tenant == some l.hdr.tenant && (s.errorAt (.pa p.pa) (16 * p.fill)).isSome then some 5
  else none
/-- The dump is written, sections first and the header last; a failing write, or an error at the section `bad`, ends it with a DUMPFAIL event (R403). An
address is answered where the host must translate its page first: nothing has been written then. -/
def State.writeDump (s : State) (l : Launch) (b : Block) (d : DumpInfo) (secs : List (List Byte)) (bad : Option Nat := none) : Except W64 State :=
  let failed (s : State) : State := s.event 9 d.trap.cause l.hdr.dumpp.toNat l.eventName
  if l.hdr.dumpp = 0 then .ok s
  else match s.dumpCapacity l with
    | .error (.asks va) => .error va
    | .error .fails => .ok (failed s)
    | .ok cap =>
      if cap < 256 then .ok s
      else
        let y := (secs.take (bad.getD secs.length)).zipIdx.foldl (Layout.add cap) ⟨[], 0, 0, 256⟩
        let parts := if bad.isSome then y.placed else y.placed ++ [(0, dumpHeader l b d y (secs.getD 5 []).length)]
        let r := parts.foldl (fun (p : State × Option DumpStop) x => if p.2.isNone then p.1.dumpWrite l (l.hdr.dumpp + BitVec.ofNat 64 x.1) x.2 else p) (s, none)
        match r.2 with
        | some (.asks va) => .error va
        | some .fails => .ok (failed r.1)
        | none => .ok (if bad.isNone then r.1 else failed r.1)
/-- The sections of a block in the order of the header's offset fields: trap records, warps, stream, barriers, scratchpad, trace. -/
def State.dumpSections (s : State) (l : Launch) (b : Block) (ws : List Warp) (recs : List (List Byte)) : List (List Byte) :=
  [recs.flatten, ws.flatMap fun w => w.dumpRecord (s.outstanding w), match b.stream with | some x => s.streamDump b x | none => [],
    b.bars.flatMap Bar.record, s.scratchRecord b, s.traceRecords b.core l.hdr.tenant]
/-- Warps in warp-slot order. -/
def bySlot (ws : List Warp) : List Warp := (sortNat (dedup (ws.map (·.slot)))).flatMap fun k => ws.filter fun w => w.slot == k

end Sys2Proof.Machine
end

