-- ==== Sys2Proof/Machine/Schedule.lean ====
section
/-! DEFINITION. Which move comes next (log entry 1): a move the state proposes, the turn that is being issued, or, by a free choice, an
enabled move of another agent, a quarter's turn (05 R154 to R157, 11 R368) or a matrix stream's instruction. -/
namespace Sys2Proof.Machine

/-! ### Choosing a warp and its paths -/

/-- A warp that can issue: a ready thread, no fatal trap pending, no record it has sent without a slot (05 R174), its launch LIVE (11 R358, R368). -/
def State.warpReady (s : State) (w : Warp) : Bool :=
  w.fatal.isNone && !w.off && w.spec.sending == 0 && (w.live.any fun l => (w.lane l).ready && ((s.core w.core).phase != .swap || (w.lane l).owes)) &&
  !s.rollBlocked w.id &&
  match (s.block? w.block).bind fun b => s.launch? b.launch with
  | some l => l.phase == .live && !l.halting
  | none => false

/-- The warps of a quarter. -/
def State.quarterWarps (s : State) (core q : Nat) : List Warp := s.warps.filter fun w => w.core == core && quarterOf w.slot == q

/-- Is a warp excluded by `yield` (05 R166)? -/
def State.yielding (s : State) (core q : Nat) (w : Warp) : Bool :=
  match w.yielded with
  | none => false
  | some till =>
    decide (s.cycles < till) &&
    (s.quarterWarps core q).any fun v => v.id != w.id && s.warpReady v &&
      !(s.core core).lastIssue.any fun p => p.1 == v.id && decide (p.2 + 16 ≥ till)

/-- The warps of a quarter that it may select. -/
def State.selectable (s : State) (core q : Nat) : List Warp :=
  (s.quarterWarps core q).filter fun w => s.warpReady w && !s.yielding core q w

/-- The quarter's choice (11 R368): a starved warp, the one ready longest first; else the highest class, the oldest, the lowest slot. The counts of 05 R166
and 11 R368 are arithmetic cycles (00 R10). -/
def State.selectWarp (s : State) (core q : Nat) : Option Warp :=
  let ws := s.selectable core q
  let starved := ws.filter fun w => w.readySince.any fun t => decide (t + 1024 ≤ s.cycles)
  match minBy (fun w : Warp => w.readySince.getD 0) starved with
  | some w => some w
  | none =>
    let c := (minBy (·.prio) ws).map (·.prio)
    let ws := ws.filter fun w => some w.prio == c
    let a := (minBy (·.age) ws).map (·.age)
    minBy (·.slot) (ws.filter fun w => some w.age == a)

/-- The ready threads of a warp (05 R154): one that stands at the end of a window whose long instruction has not completed waits. -/
def Warp.readyLanes (w : Warp) : List Nat := w.live.filter fun l => (w.lane l).ready && !w.longPending l false
/-- The paths of a warp: ready threads with one program counter (05 R154). -/
def Warp.paths (w : Warp) : List (Pc × List Nat) :=
  let ready := w.readyLanes
  (dedup (ready.map fun l => (w.lane l).pc)).map fun pc => (pc, w.together (ready.filter fun l => (w.lane l).pc == pc))
/-- The largest skip count of a path. -/
def Warp.pathSkip (w : Warp) (p : Pc × List Nat) : Nat := (p.2.map fun l => (w.lane l).skip).foldl max 0
/-- The path with the greatest key; ties to the lower program counter. -/
def bestPath (key : Pc × List Nat → Nat) (ps : List (Pc × List Nat)) : Option (Pc × List Nat) :=
  ps.foldl (fun best p => match best with
    | none => some p
    | some b => if key p > key b ∨ (key p = key b ∧ p.1.toNat < b.1.toNat) then some p else some b) none

/-- The choice of a path among some (05 R155): one that is forced, by its skip count, else the one with most threads. -/
def Warp.choosePath (w : Warp) (ps : List (Pc × List Nat)) : Option (Pc × List Nat) :=
  match bestPath w.pathSkip (ps.filter fun p => decide (w.pathSkip p ≥ 64)) with
  | some p => some p
  | none => bestPath (fun p => p.2.length) ps
/-- Two paths in the order in which they issue, the lower address first (05 R156). -/
def orderPaths (a b : Pc × List Nat) : List (Pc × List Nat) := if a.1.toNat ≤ b.1.toNat then [a, b] else [b, a]
/-- The one or two paths of an issue turn (05 R155); a path that was put off issues before any new choice is made, and alone (R156; log entry 66). -/
def Warp.turnPaths (w : Warp) : List (Pc × List Nat) :=
  match w.paths.find? fun p => w.deferred == some p.1 with
  | some p => [p]
  | none => match w.choosePath w.paths with
    | none => []
    | some a => match w.choosePath (w.paths.filter fun p => p.1 != a.1) with
      | none => [a]
      | some b => orderPaths a b
/-- A path as a move of its turn. -/
def Warp.issueOf (w : Warp) (p : Pc × List Nat) : Issue := ⟨false, w.id, p.1, maskOf p.2, 1, (0, 0), 0⟩

/-- A quarter selects a warp (11 R368); the paths of its turn are chosen as the step ends. -/
def State.selectTurn (s : State) (core q : Nat) : State :=
  match s.selectWarp core q with
  | none => s
  | some w => { s.putWarp { w with yielded := none } with taking := some ⟨w.id, 0, 0, 0, none⟩ }
/-- The threads of a path that cannot issue now take their wait from a trial of the path, `u` the state after it; one whose trial asked for something
elsewhere stays as it is and issues, so that it asks (05 R154). -/
def Warp.tried (w : Warp) (s : State) (p : Pc × List Nat) (u : State) : Warp :=
  match u.warp? w.id with
  | some v =>
    let quiet := u.agenda.isEmpty && u.out.length == s.out.length && u.faultWaits.length == s.faultWaits.length && u.hostWait.isEmpty
    (p.2.filter fun l => (v.lane l).pc == p.1 && (v.lane l).stands && (quiet || ((v.lane l).wait != .stall && (v.lane l).wait != .check))).foldl
      (fun w l => w.modLanes [l] fun t => { t with wait := (v.lane l).wait }) w
  | none => w
/-- The turn of a warp that has been selected begins (05 R155): threads that a trial shows to wait are no ready ones, and the paths are chosen among the
others. `trial`: the state after a path's move. -/
def State.openTurn (s : State) (trial : State → Issue → State) : State :=
  match s.taking.bind fun t => s.warp? t.warp with
  | none => { s with taking := none }
  | some w =>
    let v := w.paths.foldl (fun v p => v.tried s p (trial { s with agenda := [], turn := [], taking := none } (w.issueOf p))) w
    match v.turnPaths with
    | [] => { s.putWarp v with taking := none }
    | ps => { s.putWarp { v with deferred := none } with turn := s.turn ++ ps.map v.issueOf, taking := some ⟨w.id, maskOf v.readyLanes, 0, 0, none⟩ }

/-- The lanes of a path that have not issued after its move: they wait before the instruction, have not done all of it, or nothing has happened to them;
`ran`: the instruction was run. -/
def Warp.notIssued (w : Warp) (p : Issue) (ran : Bool) (ls : List Nat) : List Nat :=
  ls.filter fun l => let t := w.lane l
    t.pc == p.pc && !t.exited && (t.stands || t.plan.isSome || t.wait == .service none || (t.ready && !ran))
/-- A turn ends: where a path has issued, the skip counts of the threads that were ready as it began and still are move (05 R155), and the warp has had its
turn (11 R368). The two turns of a pair of which one path was put off each move them (log entry 66). -/
def State.closeTurn (s : State) (t : Turn) : State :=
  let s := { s with taking := none }
  match s.warp? t.warp with
  | none => s
  | some w =>
    if t.paths = 0 then s
    else
      let ready := w.live.filter fun l => t.ready.getLsbD l && (w.lane l).ready && (w.lane l).plan.isNone
      let on := w.live.filter t.on.getLsbD
      let v := (w.modLanes (ready.filter fun l => !on.contains l) fun t => { t with skip := t.skip + 1 }).modLanes on fun t => { t with skip := 0 }
      (s.putWarp { v with readySince := none }).modCore w.core fun c => { c with lastIssue := (c.lastIssue.filter fun p => p.1 != w.id) ++ [(w.id, s.cycles)] }
/-- After a path's move: a path that could not issue after all was no ready path (05 R154), and another is chosen in its place, unless it was put off or has
begun: any other while none has issued, one at a higher address after that (R156). `before`: the state when it was its turn. -/
def State.pathDone (s before : State) (p : Issue) (ran : Option Instr) : State :=
  match s.taking, before.warp? p.owner with
  | some t, some old =>
    let ls := old.pathLanes p
    match s.warp? p.owner with
    | none => s.closeTurn { t with paths := t.paths + 1 }
    | some w =>
      let on := ls.filter fun l => !(w.notIssued p ran.isSome ls).contains l
      let t := if on.isEmpty then t else { t with on := t.on ||| maskOf on, paths := t.paths + 1, first := t.first.or (ran.map fun i => (p.pc, i)) }
      let rest := s.turn.map fun i => i.pc
      let again := w.paths.filter fun q => !rest.contains q.1 && (q.2.all fun l => !t.on.getLsbD l && (w.lane l).plan.isNone) &&
        (match t.first with | some f => decide (f.1.toNat < q.1.toNat) | none => true)
      let s := if !on.isEmpty || w.deferred == some p.pc || (ls.any fun l => (w.lane l).plan.isSome) || !s.warpReady w then s
        else match w.choosePath again with
          | none => s
          | some q => match s.turn with
            | i :: _ => { s with turn := (orderPaths q (i.pc, w.active i.lanes)).map w.issueOf }
            | [] => { s with turn := [w.issueOf q] }
      if s.turn.isEmpty then s.closeTurn t else { s with taking := some t }
  | _, _ => s

/-! ### The next move -/

/-- A move that the machine may make of its own accord: an event, or a matrix stream's next instruction. -/
inductive Move where
  | event (i : Instr) (a : Arg)
  | stream (block : Nat)

/-- A matrix stream that can issue. -/
def State.streamReady (s : State) (b : Block) : Bool :=
  match b.stream, s.launch? b.launch with
  | some x, some l => (s.core b.core).phase != .swap && !x.exited && !x.failed && x.fatal.isNone && x.wait == .none && l.phase == .live && !l.halting
  | _, _ => false

/-- The turns that could be taken: a quarter with a warp to select, a stream that can issue. -/
def State.turns (s : State) : List Move :=
  ((dedup (s.warps.map fun w => (w.core, quarterOf w.slot))).filterMap fun (c, q) =>
    if (s.selectable c q).isEmpty then none else some (Move.event .quarterIssueSelect (.two c q)))
  ++ s.blocks.filterMap fun b => if s.streamReady b then some (Move.stream b.id) else none

/-- The next move: proposals first, then the turn being issued, then a free choice among what `own` lists and the turns. -/
def State.nextMove (s : State) (own : List Move) : Prep :=
  match s.agenda with
  | (i, a) :: rest => .run i { s with agenda := rest, arg := a }
  | [] =>
    match s.turn with
    | p :: rest => { s with turn := rest }.issue p
    | [] =>
      let ms := own ++ s.turns
      match ms[s.pick 1 % ms.length]? with
      | some (.event i a) => .run i { s with arg := a }
      | some (.stream b) => match s.block? b with
        | some blk => match blk.stream with
          | some x => s.issue ⟨true, b, x.pc, 0, 1, (0, 0), 0⟩
          | none => .quiet s
        | none => .quiet s
      | none => .quiet s

/-- What stood still because of something elsewhere may try again. -/
def State.wake (s : State) : State :=
  let lane (t : Lane) : Lane := if t.wait = .stall ∨ t.wait = .limit ∨ t.wait = .check then { t with wait := .none } else t
  { s with warps := s.warps.map fun w => { w with regs := { w.regs with lanes := w.regs.lanes.map lane } }
           blocks := s.blocks.map fun b => { b with stream := b.stream.map fun x => if x.wait = .stall then { x with wait := .none } else x } }

/-- Is it a move of another agent that may let a stalled path go on? -/
def wakes (i : Instr) : Bool := i.enc.isNone && i != .quarterIssueSelect

/-- Does a move restart the package, and with it CLOCK (01 R22, 14 R434)? -/
def restarts (i : Instr) : Bool := i == .powerOn || i == .packageReset

/-- Since when each warp has been ready without being selected (11 R368). -/
def State.noteReady (s : State) : State :=
  { s with warps := s.warps.map fun w =>
      { w with readySince := if s.warpReady w && !s.yielding w.core (quarterOf w.slot) w then some (w.readySince.getD s.cycles) else none } }
/-- Self-tests whose 2 µs have just run out end (12 R411); what the patterns read back is open. -/
def State.testsOver (s : State) (from_ till : Nat) : List (Instr × Arg) :=
  (s.tests.filter fun t => t.deadline.any fun d => decide (from_ < d ∧ d ≤ till)).map fun t => (.selfTestEnd, .flag t.id (s.choose (2 ^ 79 + t.id)))
/-- The end of a step from a state whose CLOCK was `clock` and whose choices were numbered `free`: base clk pass (log entry 5), the choices
move on, stalled paths wake after an event. -/
def State.tick (s : State) (clock free : Nat) (event : Bool) : State :=
  let s := if event then s.wake else s
  let d := 1 + Config.freeNat (free * 2 ^ 80)
  { s with clock := clock + d, work := s.work + d * s.thermal.clockMhz, free := free + 1
           agenda := s.agenda ++ s.testsOver clock (clock + d) }.noteReady

/-- May the package take a step after a boot that halted: only a restart (14 R434)? -/
def State.stuck (s : State) : Option Nat :=
  match s.boot.halted with
  | none => none
  | some f => match s.agenda with
    | (i, _) :: _ => if restarts i then none else some f.stage
    | [] => some f.stage

end Sys2Proof.Machine
end

