-- ==== Sys2Proof/Machine/Faults.lean ====
section
/-! DEFINITION. How faults are answered and fatal traps are processed: permits and back-off (12 R381), fatal traps (R383, R384), entries of the
fault queue (R382, R394, R445), the host's answers (R391), asynchronous traps (01 R27, 06 R217). -/
namespace Sys2Proof.Machine

/-! ### Fatal traps (R383, R384) -/

/-- A pending fatal trap: who raised it, its block, its SRC, its core. -/
structure FatalRec where
  agent : Agent
  block : Nat
  src : Nat
  trap : FatalTrap
  core : Nat
/-- The fatal traps of a launch that have not been processed: of warps in slot order, of streams, of commands that reached no warp. -/
def State.fatalRecs (s : State) (l : Launch) : List FatalRec :=
  let bs := s.blocks.filter fun b => b.launch == l.id
  bs.flatMap (fun b => (bySlot (s.blockWarps b.id)).filterMap fun w => w.fatal.map fun f => ⟨.warp w.id, b.id, w.slot, f, b.core⟩)
  ++ bs.filterMap (fun b => (b.stream.bind (·.fatal)).map fun f => ⟨.stream b.id, b.id, 0x40, f, b.core⟩)
  ++ l.orphans.map fun o => ⟨.engine o.block, o.block, 0x41, o.trap, o.core⟩
/-- The trap registers of a warp with a fatal trap (R383 step 1). -/
def Warp.showFatal (w : Warp) : Warp :=
  match w.fatal with
  | some f => { w with regs := { w.regs with trap := { w.regs.trap with cause := f.word, pc := f.pc, info := f.info, aux := f.aux } } }
  | none => w
/-- The trap record of a fatal trap; the PC of one that an engine command raised is free (log entry 74). -/
def State.fatalRecord (s : State) (r : FatalRec) (i : Nat) : List Byte :=
  trapRecord r.src r.trap.word (if r.src = 0x41 then BitVec.ofNat 64 (s.pick (2 ^ 77 + 2 ^ 60 + i)) else r.trap.pc) r.trap.info r.trap.aux
/-- The launch stops, the block of the first trap is dumped, as it stands or as it retired, permits go back, the launch will complete FAULTED (R383).
`first` holds a permit; `rest` are the other pending traps in order. Where the host must translate a page of the dump area first (R391), its address. -/
def State.fatalDone (s : State) (l : Launch) (first : FatalRec) (rest : List FatalRec) : Except W64 State :=
  let mine (w : Warp) : Bool := match s.block? w.block with | some b => b.launch == l.id | none => false
  let s := (s.stopLaunch l.id 3 (BitVec.ofNat 8 first.trap.cause)).modLaunch l.id fun l =>
    { l with dumped := true, otherf := l.otherf + rest.length, orphans := [] }
  let s : State := { s with warps := s.warps.map fun w : Warp => if mine w then w.showFatal else w }
  let s := s.trace first.core l.hdr.tenant ⟨8, first.trap.cause % 256 + first.trap.beyond.toNat * 256 + 512, if first.src < 64 then first.src else 0,
    (Pc.ofAddr first.trap.pc).setWidth 54, addr54 first.trap.info⟩
  let dumped : Except W64 State := match (s.block? first.block).or (((s.launch? l.id).map (·.remains)).bind fun bs => bs.find? fun b => b.id == first.block) with
    | none => .ok s
    | some b =>
      let ws := bySlot (s.blockWarps b.id)
      let recs := (((first :: rest).filter fun r : FatalRec => r.block == b.id).zipIdx.map fun (r, i) => s.fatalRecord r i) ++ ws.flatMap Warp.heldRecords
      s.writeDump l b ⟨first.trap, 0, false, l.otherf + rest.length, if first.src < 64 then quarterOf first.src else 0, recs.length, ws.length⟩
        (s.dumpSections l b ws recs) (s.dumpError l b)
  dumped.map fun s => { s with
    warps := s.warps.map (fun w : Warp => if mine w then { w with permit := false, backoff := [] } else w)
    blocks := s.blocks.map fun b : Block => if b.launch = l.id then { b with stream := b.stream.map fun x : Stream => { x with permit := false, backoff := none } } else b }
/-- The same, once the host has translated the dump area. -/
def State.fatalStop (s : State) (l : Launch) (first : FatalRec) (rest : List FatalRec) : State :=
  match s.fatalDone l first rest with
  | .ok t => t
  | .error va => s.askHost (.sched l.id) l .write va 0xFF 0
/-- Does a trap come after another one: both for a failed fault entry of a page, whose faults reached it in the other order (17 R445)? -/
def FatalTrap.after (f g : FatalTrap) : Bool :=
  f.fault.any (fun i => g.fault.any fun j => decide (j < i)) && f.info.toNat / 4096 == g.info.toNat / 4096 && f.clock == g.clock

/-- The first trap of a block's commands that reached no warp. -/
def State.orphanOf (s : State) (b : Nat) : Option Orphan := (s.launches.flatMap (·.orphans)).find? fun o => o.block == b
/-- The core on which an agent needs a permit, and whether it holds one. -/
def State.permitOf (s : State) (a : Agent) : Option (Nat × Bool) :=
  match a with
  | .warp id => (s.warp? id).map fun w => (w.core, w.permit)
  | .stream b => (s.block? b).bind fun b => b.stream.map fun x => (b.core, x.permit)
  | .engine b => (s.orphanOf b).map fun o => (o.core, false)
  | .restore _ => none
/-- The launch of an agent. -/
def State.launchOfAgent (s : State) (a : Agent) : Option Launch :=
  match a with
  | .warp id => ((s.warp? id).bind fun w => s.block? w.block).bind fun b => s.launch? b.launch
  | .stream b => (s.block? b).bind fun b => s.launch? b.launch
  | .engine b => s.launches.find? fun l => l.orphans.any fun o => o.block == b
  | .restore _ => none
/-- An agent without a permit for its fatal trap backs off (R381). -/
def State.backOff (s : State) (a : Agent) : State :=
  match a with
  | .warp id => s.modWarp id fun w => w.backOff s.clock ((w.fatal.map fun f => Pc.ofAddr f.pc).getD 0)
  | .stream b => s.modBlock b fun b => { b with stream := b.stream.map fun x : Stream => { x with backoff := some (nextBackoff s.clock x.pc x.backoff) } }
  | .engine b => { s with launches := s.launches.map fun l : Launch => { l with orphans := l.orphans.map fun o : Orphan =>
      if o.block = b then { o with backoff := some (nextBackoff s.clock 0 o.backoff) } else o } }
  | .restore _ => s
/-- Is an agent at rest, so that its trap can be processed: a warp only once it is non-speculative (01 R33)? -/
def State.agentRests (s : State) (a : Agent) : Bool := match a with | .warp id => (s.warp? id).any Warp.settled | _ => true
/-- A fatal trap asks for a permit and is processed with it; `order`: agents whose traps arose with it, in order (R384, R445). -/
def State.fatalAttempt (s : State) (a : Agent) (order : List Agent := []) : State :=
  match s.launchOfAgent a, s.permitOf a with
  | some l, some (core, holds) =>
    if l.halting || !s.agentRests a then s
    else
      let recs := s.fatalRecs l
      match recs.find? fun r : FatalRec => r.agent == a with
      | none => s
      | some first =>
        if recs.any fun r => first.trap.after r.trap then s
        else if holds || s.permitFree core then
          let others := recs.takeWhile (fun r : FatalRec => r.agent != a) ++ (recs.dropWhile fun r : FatalRec => r.agent != a).drop 1
          s.fatalStop l first (order.filterMap (fun b => others.find? fun r => r.agent == b) ++ others.filter fun r => !order.contains r.agent)
        else s.backOff a
  | _, _ => s
/-- Has a fatal trap of an agent no back-off that runs, so that it asks for its permit now? -/
def State.fatalNew (s : State) (a : Agent) : Bool :=
  match a with
  | .warp id => (s.warp? id).any fun w => w.fatal.any fun f => w.permit || !w.backoff.any fun b => b.pc == Pc.ofAddr f.pc && b.retryAt != 0
  | .stream b => ((s.block? b).bind (·.stream)).any fun x => x.fatal.isSome && (x.permit || x.backoff.isNone)
  | .engine b => (s.orphanOf b).any fun o => o.backoff.isNone
  | .restore _ => false
/-- 12 R383 (`.agent` who raised it). -/
def execFatalTrap (s : State) : Answer :=
  .next (match s.arg with
  | .agent a => if s.fatalNew a then s.fatalAttempt a else s
  | _ => s)
/-- Does a warp wait for a service without the permit that it needs (12 R402)? -/
def Warp.needsPermit (w : Warp) : Bool := (w.service.isSome || w.waitsServed) && !w.permit
/-- A warp that waits for a service takes a permit again, or backs off (12 R402). -/
def State.rejoinService (s : State) (id : Nat) : State :=
  match s.warp? id with
  | some w =>
    let pc := Pc.ofAddr w.nextAddr
    if !w.needsPermit then s
    else if s.permitFree w.core then s.modWarp id fun w => { w with permit := true }.dropBackoff pc
    else s.modWarp id fun w => w.backOff s.clock pc
  | none => s
/-- Back-offs of a warp that are over: the threads that waited there run their instruction again from decode; a fatal trap, or a wait for a service, asks
again. -/
def State.warpRetries (s : State) (w : Warp) : State :=
  let due := w.backoff.filter fun b => b.retryAt != 0 && decide (b.retryAt ≤ s.clock)
  if due.isEmpty then s
  else
    let v : Warp := { w with backoff := w.backoff.map fun b => if due.contains b then { b with retryAt := 0 } else b }
    let s := s.putWarp (v.onLanes (fun t => t.wait == .service none && due.any fun b => b.pc == t.pc) fun t => { t with wait := .none })
    if w.fatal.isSome then s.fatalAttempt (.warp w.id) else s.rejoinService w.id
/-- 12 R381 (`.agent` who backed off): an instruction runs again from decode; a fatal trap asks again. -/
def execPermitBackoffExpiry (s : State) : Answer :=
  .next (match s.arg with
  | .agent a =>
    let ended (b : Backoff) : Bool := b.retryAt != 0 && decide (b.retryAt ≤ s.clock)
    match a with
    | .warp id => match s.warp? id with
      | some w => s.warpRetries w
      | none => s
    | .stream b => match (s.block? b).bind (·.stream) with
      | some x =>
        if !x.backoff.any ended then s
        else if x.fatal.isSome then s.fatalAttempt a
        else s.modBlock b fun b => { b with stream := b.stream.map fun x : Stream =>
          { x with wait := if x.wait = .service none then .none else x.wait, backoff := x.backoff.map fun k => { k with retryAt := 0 } } }
      | none => s
    | .engine b => if (s.orphanOf b).any fun o => o.backoff.any ended then s.fatalAttempt a else s
    | .restore _ => s
  | _ => s)

/-! ### Served and failed faults (R382, R394, R445) -/

/-- A fault leaves its service. -/
def State.dropFault (s : State) (id : Nat) : State := { s with faultWaits := s.faultWaits.filter fun f => f.id != id }
/-- Does a thread stand at its instruction waiting for a fault? -/
def Lane.awaits (t : Lane) (fault : Nat) : Bool := t.wait == .service (some fault)
/-- Does a warp wait for a fault: its handler, or threads at their instruction (R382)? -/
def Warp.awaits (w : Warp) (fault : Nat) : Bool := w.service == some fault || w.live.any fun l => (w.lane l).awaits fault
/-- A warp whose fault was served goes on: from its `rti`s, which release the permit, or at the instruction itself, where the permit goes once nothing of
the warp waits for a service any more (R382). -/
def State.servedWarp (s : State) (id fault : Nat) : State :=
  (s.modWarp id fun w : Warp =>
    if w.service = some fault then { w with service := none }
    else
      let v := w.onLanes (·.awaits fault) fun t => { t with wait := .none }
      { v with permit := v.permit && (v.regs.trap.inHandler || v.waitsServed) }).tryLeave id
/-- A warp whose fault failed raises page-fault REASON 0x07 at the instruction that met it, and keeps its permit (R382). -/
def State.failedWarp (s : State) (id : Nat) (f : FaultWait) : State :=
  s.modWarp id fun w =>
    let pc := if w.service = some f.id then w.regs.trap.pc else match w.live.find? fun l => (w.lane l).awaits f.id with
      | some l => (w.lane l).pc.addr
      | none => w.nextAddr
    let v := if w.service = some f.id then { w with service := none } else w
    if v.fatal.isSome then v
    else let v := v.setFatal { cause := 4, reason := 7, lane := f.lane, info := f.va } true pc s.clock
      { v with fatal := v.fatal.map fun x => { x with fault := some f.id } }
/-- A stream whose fault was answered: it runs its instruction again, or traps (07 R237). -/
def State.answeredStream (s : State) (b : Nat) (f : FaultWait) (ok : Bool) : State :=
  s.modBlock b fun b => { b with stream := b.stream.map fun x : Stream =>
    if ok then { x with wait := .none }
    else { x with wait := .none, fatal := some ⟨4, 7, 0, true, x.pc.addr, f.va, 0, false, s.clock, some f.id⟩ } }
/-- The warp of a fault, if its agent is one. -/
def FaultAgent.warp? : FaultAgent → Option Nat
  | .warp id => some id
  | .tongs id => some id
  | _ => none
/-- An answered fault reaches its agent if it is in residence; a saved context takes its answer at its return (R402). -/
def State.answerFault (s : State) (f : FaultWait) : State × List Agent :=
  match f.agent.warp?, f.agent with
  | some id, _ =>
    match s.warp? id with
    | some w =>
      if !w.awaits f.id then (s.dropFault f.id, [])
      else if f.place == .served then ((s.dropFault f.id).servedWarp id f.id, []) else ((s.dropFault f.id).failedWarp id f, [.warp id])
    | none => (if (s.anyWarp? id).isNone then s.dropFault f.id else s, [])
  | none, .stream b =>
    if (s.block? b).isSome then
      ((s.dropFault f.id).answeredStream b f (f.place == .served), if f.place == .served then [] else [.stream b])
    else if (s.anyBlock? b).isNone then (s.dropFault f.id, []) else (s, [])
  | none, _ => (if f.place == .served then s.dropFault f.id else s, [])
/-- Every answered fault reaches its agent; of the failed ones the first of a launch, in the order in which they reached the entry, writes the
dump (R445). -/
def State.answerFaults (s : State) : State :=
  let r := (s.faultWaits.filter fun f => f.place == .served || f.place == .failed).foldl (fun (p : State × List Agent) f =>
    let q := p.1.answerFault f
    (q.1, p.2 ++ q.2)) (s, [])
  r.2.foldl (fun s a => if (s.permitOf a).any fun p => p.2 then s.fatalAttempt a r.2 else s) r.1
/-- Faults at a place get their answer. -/
def State.markFaults (s : State) (p : FaultWait → Bool) (ok : Bool) : State :=
  ({ s with faultWaits := s.faultWaits.map fun f : FaultWait => if p f then { f with place := if ok then .served else .failed } else f }).answerFaults
/-- Faults that wait for room in a queue join it as far as there is room, in order (R394 step 3). -/
def State.roomFaults (s : State) (fq : Nat) : State :=
  (s.faultWaits.filter fun f => f.place == .room fq).foldl (fun s f =>
    let r := s.placeFault f
    { r.1 with faultWaits := r.1.faultWaits.map fun x : FaultWait => if x.id = f.id then { x with place := r.2 } else x }) s
/-- STAT of an entry. -/
def State.entryStat (s : State) (q : FaultQ) (t : Nat) : Nat := bits (s.numPa (q.entryAt t) 8) 7 0
/-- 12 R382 (`.two` queue and entry): the service has marked the entry; any other value than SERVED counts as FAILED (R393). -/
def execFaultEntryComplete (s : State) : Answer :=
  .next (match s.arg with
  | .two fq t => match s.faultQs.find? fun q => q.no == fq with
    | some q =>
      if s.entryStat q t = 1 ∨ !(s.faultWaits.any fun f => f.place == .entry fq t) then s
      else ((s.homeLoad 0 (.pa (q.entryAt t)) 32).markFaults (fun f => f.place == .entry fq t) (s.entryStat q t == 2)).roomFaults fq
    | none => s
  | _ => s)
/-- 12 R394 (`.word` queue and value): the service's store to the head word. -/
def execFaultQueueHeadMove (s : State) : Answer :=
  .next (match s.arg with
  | .word fq x => match s.faultQs.find? fun q => q.no == fq with
    | some q =>
      let s := (if s.numPa q.cfg.headPa 4 = x.toNat then s else s.report q.cfg.headPa (leBytes 4 x.toNat)).homeLoad 0 (.pa q.cfg.headPa) 4
      ({ s with faultQs := s.faultQs.map fun q : FaultQ => if q.no = fq then { q with head := x } else q }).roomFaults fq
    | none => s
  | _ => s)

/-! ### The host's answers (R391) -/

/-- Page requests that waited for the host's allocation go out as far as it now reaches (12 R391). -/
def State.askHeld (s : State) : State :=
  (s.faultWaits.filter fun f => f.place == .held).foldl (fun s f =>
    let r := s.askPage f
    { r.1 with faultWaits := r.1.faultWaits.map fun x : FaultWait => if x.id = f.id then { x with place := r.2 } else x }) s
/-- 12 R391 (`.flag` a fault that asked for its page, and whether the host mapped it): every fault of the page is answered. -/
def execPriResponse (s : State) : Answer :=
  .next (match s.arg with
  | .flag id ok => match s.faultWaits.find? fun f => f.id == id && f.place == .pri with
    | some f => s.markFaults (fun x => x.place == .pri && x.inPage f.pasid f.va) ok |>.askHeld
    | none => s
  | _ => s)
/-- 12 R391 (`.translated` the request, the page's physical address and its permissions): held in a TLB; who waited looks again. -/
def execAtsTranslationCompletion (s : State) : Answer :=
  .next (match s.arg with
  | .translated id pa perm => match s.faultWaits.find? fun f => f.id == id && f.place == .ats with
    | some f =>
      let page := f.va.toNat / 4096
      let t : State := { s.dropHeld f.pasid f.va with
        tlb := (s.dropHeld f.pasid f.va).tlb ++ [⟨f.pasid, page, pa / 4096, perm, false, none⟩]
        faultWaits := s.faultWaits.filter fun x => !(x.place == .ats && x.pasid == f.pasid && x.va.toNat / 4096 == page) }
      t.retryHandlers
    | none => s
  | _ => s)
/-- 12 R391 (`.range` PASID, address and bytes): completes once nothing uses a named translation any more, and answers the host. -/
def execAtsInvalidationRequest (s : State) : Answer :=
  .next (match s.arg with
  | .range pasid va n =>
    let x : Named := ⟨some pasid, va.toNat / 4096, (va.toNat + max n 1 - 1) / 4096⟩
    if s.drained x then { s.invalidate x with out := s.out ++ [.invalidationDone pasid va] } else s
  | _ => s)

/-! ### Asynchronous traps (01 R27, 06 R217) -/

/-- The path at whose boundary the trap is delivered: the one that issues, else the one with most threads. -/
def State.asyncPath (s : State) (w : Warp) : List Nat :=
  if s.cur.owner = w.id ∧ !s.cur.stream ∧ !(w.pathLanes s.cur).isEmpty then w.pathLanes s.cur
  else match bestPath (fun p => p.2.length) (w.paths.filter fun p => p.2.all fun l => (w.lane l).plan.isNone) with
    | some p => p.2
    | none => []
/-- 06 R217 (`.id` the warp): the oldest held trap, unless the warp masks traps. -/
def execAsyncTrapDelivery (s : State) : Answer :=
  .next (match s.arg with
  | .id id => match s.warp? id with
    | none => s
    | some w => match w.asyncs, s.asyncPath w, (s.block? w.block).bind fun b => s.launch? b.launch with
      | a :: rest, l0 :: ls, some l =>
        if !w.asyncDue || !w.settled || !w.longsDone || w.fatal.isSome || l.halting || w.owing (l0 :: ls) || (l0 :: ls).any fun l => (w.lane l).plan.isSome then s
        else
          let v := { w with asyncs := rest }
          (s.putWarp v).raiseOn v l (l0 :: ls) none { cause := a.cause, reason := a.reason, lane := l0, info := a.info, aux := some a.aux, fatal := fatalCause a.cause } (again := false)
      | _, _, _ => s
  | _ => s)

end Sys2Proof.Machine
end

