-- ==== Sys2Proof/Machine/Ingress.lean ====
section
/-! DEFINITION. The fabric side of the package: packets (13 R424, R425), the ingress atomic cache (R427), store counting (R428, R429), answers and
timeouts of this package's own accesses (R426), peers (R430), the shard version and Larder fills (10 R339, R340). -/
namespace Sys2Proof.Machine

/-! ### Packets in transit (R424, R425) -/

/-- A packet is discarded; the ROUTE event tells how many were since the last one (R419, R424). -/
def State.discardPacket (s : State) (dst : Nat) : State :=
  let n := s.ports.discarded + 1
  match s.eventQ with
  | none => { s with ports := { s.ports with discarded := n } }
  | some _ => { s with ports := { s.ports with discarded := 0 } }.event 5 0 dst n
/-- The move that an answer to an access of this package makes: a fill of the Larder, or a response. -/
def State.answerMove (s : State) (p : Packet) (bs : List Byte) : Option (Instr × Arg) :=
  (s.remotes.find? fun r => r.id == p.id && r.target == p.src && r.target != s.pkg).map fun r =>
    let tenant := ((((s.anyWarp? r.warp).bind fun w => s.anyBlock? w.block).bind fun b => s.launch? b.launch).map (·.hdr.tenant)).getD 0
    if r.lane = 65 ∧ !bs.isEmpty then (.larderFillResponse, .fill p.src tenant r.va (BitVec.ofNat 32 (leNat (bs.drop 128))) (bs.take 128))
    else (.remoteResponseArrival, .bytes p.id bs)
/-- What a packet makes happen at its target (R425, R428; 08 R283, R292; 10 R340; 13 R431, R432); an access waits at the network die. -/
def State.packetMove (s : State) (p : Packet) : Option (Instr × Arg) :=
  match p.req with
  | .load | .store _ | .atomic _ _ _ | .red _ _ | .granule _ | .fill => none
  | .answer bs => s.answerMove p bs
  | .count n => s.answerMove p (match n with | some k => leBytes 8 k | none => [])
  | .query => some (.countQuery, (.packet p))
  | .notice v => some (.versionNotice, (.word p.src v))
  | .noticeAck => some (.versionNoticeAcknowledgement, (.id p.src))
  | .record hdr bs => some (.remoteRecordArrival, (.message hdr bs))
  | .recordAck ep rseq ok =>
    (s.remotes.find? fun r => r.lane == 66 && r.target == p.src && r.flow == ep && r.seq == rseq.toNat).map fun r => (.recordAckArrival, .flag r.id ok)
  | .grant ep n => some (.slotGrant, (.three p.src ep n))
  | .revoke ep => some (.slotRevoke, (.two p.src ep))
  | .credit ep => some (.creditReturn, (.two p.src ep))
  | .crucible h bs =>
    let i := match bits h.toNat 63 60 with | 0 => some Instr.crucibleData | 1 => some .requestAgain | 2 => some .crucibleAbort | 3 => some .crucibleAck | _ => none
    i.map fun i => (i, .message h bs)
/-- Is it an access to this package's memory? -/
def isAccess : FabReq → Bool
  | .load | .store _ | .atomic _ _ _ | .red _ _ | .granule _ | .fill => true
  | _ => false
/-- 13 R424 (`.packet`): at its target an access waits at the network die, and another packet makes its move; elsewhere it goes on over its next hop, unless
its hop count is used up or no route leads on; a link that is down loses it (R426). -/
def execFabricPacketArrival (s : State) : Answer :=
  .next (match s.arg with
  | .packet p =>
    if p.dst = s.pkg then
      (if isAccess p.req then { s with arrived := s.arrived ++ [p] }
       else match s.packetMove p with
         | some (i, a) => s.propose i a
         | _ => s)
    else if p.hop ≥ 4 ∨ !s.routed p.dst then s.discardPacket p.dst
    else s.sendPacket { p with hop := p.hop + 1 }
  | _ => s)
/-- 13 R419, R422 (`.link` port, what happened, the package at the far end). No event of the table sets up the ports, so what the fabric manager and the
driver set there comes with this one (log entry 86): R422, the package's number (`.id`); R430, an Ultra Ethernet port's addresses (`.bytes` port and
addresses), an entry of the peer table (`.access` package, and its address or none), a packet delivery context that is asked for (`.flag` package, and whether
its delivery is reliable and unordered: any other is refused). -/
def execFabricLinkChange (s : State) : Answer :=
  .next (match s.arg with
  | .link port sub far =>
    if 12 ≤ port ∨ 2 < sub.toNat then s
    else
      let bit : BitVec 12 := 1#12 <<< port
      { s with ports := { s.ports with down := if sub = 0 then s.ports.down ||| bit else s.ports.down &&& ~~~bit } }.event 4 sub.toNat port far.toNat
  | .id n => if n < 128 then { s with pkg := n } else s
  | .bytes port a => if 12 ≤ port then s else { s with ports := { s.ports with addrs := (s.ports.addrs.filter fun x => x.1 != port) ++ [(port, a)] } }
  | .access p a =>
    if 128 ≤ p then s
    else { s with ports := { s.ports with peerTable := (s.ports.peerTable.filter fun x => x.1 != p) ++ a.toList.map fun y => (p, y) } }
  | .flag p rud =>
    if rud && s.ports.peerTable.any fun x => x.1 == p then { s with ports := { s.ports with delivery := dedup (s.ports.delivery ++ [p]) } } else s
  | _ => s)

/-! ### The count table (R428, R429) -/

/-- Is an entry the one of a source, flow and interval? -/
def CountEntry.names (c : CountEntry) (src flow interval : Nat) : Bool := c.src == src && c.flow == flow && c.interval == interval
/-- An arriving write is counted; with the table full its flow is marked uncounted. -/
def State.countWrite (s : State) (src flow interval : Nat) : State :=
  if s.counts.any fun c => c.names src flow interval then
    { s with counts := s.counts.map fun c => if c.names src flow interval then { c with count := c.count + 1 } else c }
  else
    let full := decide (Config.countEntries ≤ countIf (fun c : CountEntry => !c.unknown) s.counts)
    { s with counts := s.counts ++ [⟨src, flow, interval, if full then 0 else 1, full, s.clock⟩] }
/-- 13 R428, R429 (`.packet` the query): the entry's count, or unknown, is sent, and the entry is free. -/
def execCountQuery (s : State) : Answer :=
  .next (match s.arg with
  | .packet p =>
    let n := match s.counts.find? fun c => c.names p.src p.flow p.interval with
      | some c => if c.unknown then none else some c.count
      | none => some 0
    { s with counts := s.counts.filter fun c => !c.names p.src p.flow p.interval }.sendPacket ⟨s.pkg, p.src, 0, p.prio, 0, 0, none, p.flow, p.interval, p.id, .count n⟩
  | _ => s)
/-- Base clk of 10 ms. -/
def tenMilliseconds : Nat := 16000000
/-- 13 R429 (`.three` source, flow, interval): an entry not queried for 10 ms is freed, its flow marked uncounted. -/
def execCountEntryAgeOut (s : State) : Answer :=
  .next (match s.arg with
  | .three src flow interval =>
    { s with counts := s.counts.map fun c =>
        if c.names src flow interval && !c.unknown && decide (c.touched + tenMilliseconds ≤ s.clock) then { c with count := 0, unknown := true } else c }
  | _ => s)

/-! ### The ingress atomic cache (R427) -/

/-- Is a line held by the ingress atomic cache? -/
def State.ingressHas (s : State) (line : Nat) : Bool := s.ingress.any fun i => i.line == line
/-- The least recently used line is released where all are held. -/
def State.ingressRoom (s : State) : State :=
  if s.ingress.length < Config.ingressLines then s
  else match minBy (fun i : IngressLine => i.lastUse) s.ingress with
    | some i => s.recallLine i.line
    | none => s
/-- A line is taken from its home, as an owner: every L1 copy goes. -/
def State.takeLine (s : State) (line : Nat) : State :=
  if s.ingressHas line then s
  else
    let t := s.ingressRoom
    State.disturb { t with cache := (t.cache.dropL1 line).supersede line, ingress := t.ingress ++ [⟨line, false, s.clock, s.clock⟩] } [.pa line] none
/-- A line that the cache holds is used, and changed by an operation. -/
def State.useIngress (s : State) (line : Nat) (write atomic : Bool) : State :=
  { s with ingress := s.ingress.map fun i : IngressLine =>
      if i.line = line then ⟨line, i.modified || write, if atomic then s.clock else i.lastAtomic, s.clock⟩ else i }
/-- Bytes are written where the line is: in the ingress atomic cache, or at the home slice. -/
def State.ingressWrite (s : State) (a : Nat) (xs : List Byte) (atomic : Bool) : State :=
  let lines := physLines (.pa a) xs.length
  if lines.all s.ingressHas then
    let s := lines.foldl (fun s l => s.useIngress l true atomic) (s.mergeErrors (.pa a) xs.length)
    ((s.keepOld (.pa a) xs.length).writeLoc (.pa a) xs).disturb (linesOf (.pa a) xs.length) none
  else s.writeSite none none (.pa a) xs
/-- What a read of an arriving access finds; nothing where the data has an error (10 R342). -/
def State.ingressRead (s : State) (a n : Nat) : List Byte :=
  if isHbm a then (match s.errorAt (.pa a) n with | some _ => [] | none => s.readPa a n)
  else (List.range n).map fun i => s.regByte (a + i)
/-- A read at the ingress port: in the ingress atomic cache, or at the home slice. -/
def State.ingressLoad (s : State) (a n : Nat) : State :=
  if s.ingressHas (lineOf a) then s.useIngress (lineOf a) false false else s.homeLoad 0 (.pa a) n
/-- The runs of an access that arrives: offset and width. -/
def packetRuns (p : Packet) : List (Nat × Nat) := (p.offset, p.width) :: p.more.toList
/-- The bytes of a store over its runs: what lies in HBM is written, register space takes none. -/
def State.ingressStore (s : State) : List (Nat × Nat) → List Byte → State
  | [], _ => s
  | (a, n) :: rs, xs => (if isHbm a then s.ingressWrite a (xs.take n) false else s).ingressStore rs (xs.drop n)
/-- The bytes of a load over its runs; none where one of them has an error. -/
def State.ingressBytes (s : State) (rs : List (Nat × Nat)) : List Byte :=
  let xs := rs.map fun r => s.ingressRead r.1 r.2
  if xs.any List.isEmpty then [] else xs.flatten
/-- What an arriving access does, and its answer: a read gives bytes, none where the data has an error; a write gives none. A `red` on data with an error
reads none, and writes none. -/
def State.applyPacket (s : State) (p : Packet) : State × List Byte :=
  let a := p.offset
  match p.req with
  | .load => ((packetRuns p).foldl (fun s r => if isHbm r.1 then s.ingressLoad r.1 r.2 else s) s, s.ingressBytes (packetRuns p))
  | .store xs => (s.ingressStore (packetRuns p) xs, [])
  | .granule xs => (s.ingressStore (packetRuns p) xs, [])
  | .fill =>
    let bs := s.ingressRead (lineOf a) 128
    ({ s.ingressLoad (lineOf a) 128 with larder := { s.larder with filledBy := dedup (s.larder.filledBy ++ [p.src]) } },
      if bs.isEmpty then [] else bs ++ leBytes 4 s.larder.version.toNat)
  | .atomic op x c =>
    if !isHbm a then (s, List.replicate p.width (0 : Byte))
    else
      let t := s.takeLine (lineOf a)
      let old := t.ingressRead a p.width
      match (if old.isEmpty then none else atomicBytes op old x c) with
      | some r => ((t.ingressWrite a r true).useIngress (lineOf a) true true, old)
      | none => (t.useIngress (lineOf a) false true, old)
  | .red op x =>
    if !isHbm a then (s, [])
    else
      let t := s.takeLine (lineOf a)
      let old := t.ingressRead a p.width
      match (if old.isEmpty then none else atomicBytes op old x 0) with
      | some r => ((t.ingressWrite a r true).useIngress (lineOf a) true true, [])
      | none => (t.useIngress (lineOf a) false true, [])
  | .answer _ | .query | .count _ | .notice _ | .noticeAck | .record _ _ | .recordAck _ _ _ | .grant _ _ | .revoke _ | .credit _ | .crucible _ _ => (s, [])
/-- Does a store of a peer reach this package's shard version register? -/
def versionStore (p : Packet) : Option (List Byte) :=
  match p.req with
  | .store xs => if p.offset < Config.regBase + 4 ∧ Config.regBase < p.offset + xs.length then some xs else none
  | _ => none
/-- An access that has arrived leaves, answered in its class. -/
def State.answerPacket (s : State) (p : Packet) (ans : List Byte) : State :=
  { s with arrived := s.arrived.erase p }.sendPacket ⟨s.pkg, p.src, 0, p.prio, p.offset, p.width, none, p.flow, p.interval, p.id, .answer ans⟩
/-- An access of a peer has performed: it is counted where it writes (R428), and answered. -/
def State.finishPacket (s : State) (p : Packet) (ans : List Byte) : State :=
  (if reqCounted p.req then s.countWrite p.src p.flow p.interval else s).answerPacket p ans
/-- The number of a peer's store among those that change the shard version. -/
def versionPeer (p : Packet) : Nat := 2 * (128 * p.id + p.src % 128) + 1
/-- The first access of its source that waits is applied, counted where it writes (R428), and answered; one that the host must give a line up for waits
(R413), and a store to the version register until its notices have been acknowledged (10 R340). -/
def State.serveArrived (s : State) (p : Packet) : State :=
  if p.dst != s.pkg || (s.arrived.find? fun q => q.src == p.src) != some p || (packetRuns p).any (fun r => s.underTest (.pa r.1) r.2) then s
  else
    match versionStore p with
    | some xs =>
      let k := versionPeer p
      if s.larder.newVersion.any (fun x => x.1 == k) || s.larder.writes.any (fun x => x.1 == k) then s
      else s.proposeFirst .shardVersionWrite (.word k (versionAfter s.larder.latest p.offset xs))
    | none =>
      match (if p.req == FabReq.load || p.req == FabReq.fill then none else (packetRuns p).findSome? fun r => s.hostLine (.pa r.1) r.2) with
      | some line => s.backInvalidate line
      | none => let r := s.applyPacket p; r.1.finishPacket p r.2
/-- 13 R427 (`.packet`): an access that has arrived, or arrives now, is applied in its turn. 09 R317 (`.two` source and number): the application of a
write that waits fails, for an error of the ingress buffer or memory withdrawn: it writes no byte, is acknowledged, and is not counted. -/
def execRemoteAccessIngress (s : State) : Answer :=
  .next (match s.arg with
  | .packet p => { s with arrived := if s.arrived.contains p then s.arrived else s.arrived ++ [p] }.serveArrived p
  | .two src id => match s.arrived.find? fun q => q.src == src with
    | some p => if p.id = id ∧ reqCounted p.req then s.answerPacket p [] else s
    | none => s
  | _ => s)
/-- Base clk of the ingress atomic cache's lease, 2 µs. -/
def ingressLease : Nat := 3200
/-- 13 R427 (`.id` the line). -/
def execAtomicCacheLeaseExpiry (s : State) : Answer :=
  .next (match s.arg with
  | .id line => if s.ingress.any fun i => i.line == line && decide (i.lastAtomic + ingressLease ≤ s.clock) then s.recallLine line else s
  | _ => s)
/-- 13 R427 (`.id` the line): a local access has reached the home slice. -/
def execAtomicCacheRecall (s : State) : Answer := .next (match s.arg with | .id line => s.recallLine line | _ => s)

/-! ### This package's own accesses (R426; 09 R300) -/

/-- A remote access has its answer. -/
def State.dropRemote (s : State) (id : Nat) : State := { s with remotes := s.remotes.filter fun r => r.id != id }
/-- Bytes over a part of a list. -/
def overlay (old : List Byte) (off : Nat) (xs : List Byte) : List Byte := old.take off ++ xs ++ old.drop (off + xs.length)
/-- A warp with no read outstanding goes on; a rollback that another of its paths takes does not undo it (09 R307). -/
def State.wakeRemote (s : State) (id : Nat) : State :=
  if s.readsOpen id then s else s.modAnyWarp id fun w => w.onLanes (fun t => t.wait == .remote) fun t => { t with wait := .none }
/-- Is it an access that its warp counts as open? -/
def Remote.counted (r : Remote) : Bool := r.cmd.isNone && decide (r.lane < 64)
/-- A warp's access has been answered. -/
def Warp.oneAnswered (w : Warp) : Warp := { w with remoteOpen := w.remoteOpen - 1 }
/-- A remote read that ends in an error (R426): its lane keeps the address and the reason, and once every answer has come the instruction raises
uncorrectable-memory, fatal, for the lowest lane with one (01 R40). -/
def State.remoteFailed (s : State) (r : Remote) (reason : Nat) (va : W64) : State :=
  ((s.dropRemote r.id).modAnyWarp r.warp fun w => w.oneAnswered.bothLane r.lane fun t =>
    { t with plan := t.plan.map fun p => { p with bad := some (p.bad.getD (va, reason)) } }).wakeRemote r.warp
/-- A read that an agent made of a peer has its answer, or the reason of its failure. -/
def State.fetchedNow (s : State) (r : Remote) (a : FaultAgent) (x : Nat ⊕ List Byte) : State :=
  { s.dropRemote r.id with fetched := s.fetched ++ [(a, r.va.toNat, x)] }
/-- The bytes of a lane's access on this package, read when the peer's part comes, so that the whole is one event (09 R300); or the address and the
reason of an error there. -/
def State.nearBytes (s : State) (r : Remote) : Except (W64 × Nat) (List (Nat × List Byte)) :=
  r.near.mapM fun x => match s.errorAt x.loc x.n with
    | some (o, reason) => .error (r.va - BitVec.ofNat 64 r.off + BitVec.ofNat 64 (x.off + o), reason)
    | none => .ok (x.off, s.readLoc x.loc x.n)
/-- The runs of a store on this package perform with the acknowledgement of its part on a peer, in one event (06 R204). -/
def State.nearStores (s : State) (r : Remote) : State :=
  match s.anyWarp? r.warp with
  | none => s
  | some w => r.near.foldl (fun s x => (s.needLines x.loc x.n).writeSite (some w.core) (some r.warp) x.loc x.xs) s
/-- A read's answer over the parts of the access that it fills. -/
def overlays (old : List Byte) : List (Nat × Nat) → List Byte → List Byte
  | [], _ => old
  | (off, n) :: ps, xs => overlays (overlay old off (xs.take n)) ps (xs.drop n)
/-- A Larder fill that did not come: the child is noted like one with the Larder off (08 R278). -/
def State.fillLost (s : State) (r : Remote) : State :=
  (s.dropRemote r.id).modAnyWarp r.warp fun w =>
    let f (q : RayQuery) : RayQuery := { q with items := q.items.map fun i : RayItem => if ptrRemote i.ptr && ptrAddr i.ptr == r.va then { i with tri := 1 } else i }
    w.modLanes w.live fun t => { t with query := f t.query }
/-- A remote access is answered: a read's bytes, an acknowledgement, a count (empty: unknown). -/
def State.remoteAnswer (s : State) (r : Remote) (bs : List Byte) : State :=
  if r.lane = 64 ∧ r.isRead then
    ((s.dropRemote r.id).modAnyWarp r.warp fun w => { w with asked := w.asked ++ [(r.target, if bs.isEmpty then none else some (leNat bs))] }).wakeRemote r.warp
  else if let some a := r.reader then s.fetchedNow r a (if bs.isEmpty then .inl (1 + s.pick 8 % 3) else .inr bs)
  else if r.lane = 65 then (if bs.isEmpty then s.fillLost r else s)
  else if !r.counted then (if r.lane = 64 then s.dropRemote r.id else s)
  else if !r.isRead then ((s.dropRemote r.id).modAnyWarp r.warp Warp.oneAnswered).nearStores r
  else if bs.isEmpty then s.remoteFailed r (1 + s.pick 8 % 3) r.va
  else match s.nearBytes r with
    | .error (va, reason) => s.remoteFailed r reason va
    | .ok near => ((s.dropRemote r.id).modAnyWarp r.warp fun w => w.oneAnswered.bothLane r.lane fun t =>
        { t with got := t.got.map fun g => near.foldl (fun g (x : Nat × List Byte) => overlay g x.1 x.2) (overlays g r.spots bs) }).wakeRemote r.warp
/-- 09 R300 (`.bytes` the access and what the target answers). -/
def execRemoteResponseArrival (s : State) : Answer :=
  .next (match s.arg with
  | .bytes id bs => match s.remotes.find? fun r => r.id == id && r.target != s.pkg with
    | some r => s.remoteAnswer r bs
    | none => s
  | _ => s)
/-- Base clk of 200 µs. -/
def remoteLimit : Nat := 320000
/-- 13 R426 (`.id` the access): after 200 µs a read traps and a write is taken as acknowledged; a query is taken as unknown. -/
def execRemoteTimeout (s : State) : Answer :=
  .next (match s.arg with
  | .id id => match s.remotes.find? fun r => r.id == id && r.target != s.pkg && decide (r.issued + remoteLimit ≤ s.clock) with
    | some r =>
      if r.lane = 66 then s
      else if let some a := r.reader then s.fetchedNow r a (.inl 6)
      else if r.isRead ∧ r.lane < 64 then s.remoteFailed r 6 r.va
      else s.remoteAnswer r []
    | none => s
  | _ => s)
/-- 13 R430 (`.word` port and package): the transport gives a peer up; records on their way to it by that transport fail, and who waits for a credit
there looks again. -/
def execPeergone (s : State) : Answer :=
  .next (match s.arg with
  | .word port pkg =>
    let t : State := { s with ports := { s.ports with peers := dedup (s.ports.peers ++ [pkg.toNat]) } }.event 7 port pkg.toNat 0
    if t.routed pkg.toNat then t
    else (List.range 16).foldl (fun s ep => s.wakeCredit pkg.toNat ep false)
      ((t.remotes.filter fun r => r.lane == 66 && r.target == pkg.toNat).foldl (fun s r =>
        (s.dropRemote r.id).modAnyWarp r.warp fun w => w.settleLane r.off 3) t)
  | _ => s)

/-! ### The shard version and the Larder (10 R339, R340) -/

/-- A store to the version register performs, and is answered: this package's own or a peer's. -/
def State.versionDone (s : State) (k : Nat) (v : W32) : State :=
  let s : State := { s with larder := { s.larder with version := v, newVersion := none } }
  if k % 2 = 0 then (match s.remotes.find? fun r => r.id == k / 2 && r.target == s.pkg with
    | some r => (s.dropRemote r.id).modAnyWarp r.warp Warp.oneAnswered
    | none => s)
  else match s.arrived.find? fun p => versionPeer p == k with
    | some p => s.finishPacket p []
    | none => s
/-- A store to the version register has its turn: where the version changes, notices go to every package that has filled since the last change; else it
performs at once. -/
def State.versionTurn (s : State) (k : Nat) (v : W32) : State :=
  let l := s.larder
  if l.version = v ∨ l.filledBy = [] then s.versionDone k v
  else l.filledBy.foldl (fun s p => s.tellPkg p 0 (.notice v)) { s with larder := { l with newVersion := some (k, v), awaiting := l.filledBy, filledBy := [] } }
/-- The stores that wait for the version register have their turns, as far as one after another can perform. -/
def State.versionTurns (s : State) : Nat → State
  | 0 => s
  | n + 1 => match s.larder.newVersion, s.larder.writes with
    | none, (k, v) :: rest => ({ s with larder := { s.larder with writes := rest } }.versionTurn k v).versionTurns n
    | _, _ => s
/-- 10 R340 (`.word` the store and the version): the store joins those that wait; one changes the version at a time. -/
def execShardVersionWrite (s : State) : Answer :=
  .next (match s.arg with
  | .word k v =>
    let t : State := { s with larder := { s.larder with writes := s.larder.writes ++ [(k, v)] } }
    t.versionTurns t.larder.writes.length
  | _ => s)
/-- 10 R340 (`.id` the package that acknowledges): with the last acknowledgement the store performs, and the next has its turn. -/
def execVersionNoticeAcknowledgement (s : State) : Answer :=
  .next (match s.arg with
  | .id p => match s.larder.newVersion with
    | none => s
    | some (k, v) =>
      let rest := s.larder.awaiting.filter fun x => x != p
      let t : State := { s with larder := { s.larder with awaiting := rest } }
      if rest = [] then (t.versionDone k v).versionTurns t.larder.writes.length else t
  | _ => s)
/-- The version seen from a package, never lowered. -/
def Larder.see (l : Larder) (owner : Nat) (v : W32) : Larder :=
  let old := ((l.versions.find? fun x => x.1 == owner).map (·.2)).getD 0
  { l with versions := (l.versions.filter fun x => x.1 != owner) ++ [(owner, if old.ult v then v else old)] }
/-- 10 R340 (`.word` owner and version): every line of the owner goes, and the notice is acknowledged. -/
def execVersionNotice (s : State) : Answer :=
  .next (match s.arg with
  | .word owner v =>
    { s with larder := { s.larder.see owner v with lines := s.larder.lines.filter fun x => x.owner != owner } }.tellPkg owner 0 .noticeAck
  | _ => s)
/-- Lines that the Larder holds: 4 MiB for each unit. -/
def larderCap (units : Nat) : Nat := units * 32768
/-- A line joins the Larder; where it is full one goes, which is open (log entry 6). -/
def State.installLine (s : State) (x : LarderLine) : State :=
  let rest := s.larder.lines.filter fun y => !(y.tenant == x.tenant && y.owner == x.owner && y.vline == x.vline)
  let rest := if rest.length < larderCap s.larder.units then rest else rest.eraseIdx (s.pick (2 ^ 76 + 2 ^ 61) % rest.length)
  { s with larder := { s.larder with lines := rest ++ [x] } }
/-- 10 R339, R340 (`.fill` owner, tenant, address, the owner's version, the line): installed, or discarded where it is older than the version seen;
whoever asked looks again, and so asks again. -/
def execLarderFillResponse (s : State) : Answer :=
  .next (match s.arg with
  | .fill owner tenant va v bs =>
    let mine (r : Remote) : Bool := r.lane == 65 && r.target == owner && r.va == va &&
      ((s.anyWarp? r.warp).bind fun w => (s.anyBlock? w.block).bind fun b => s.launch? b.launch).any fun l => l.hdr.tenant == tenant
    if !s.remotes.any mine || s.larder.units == 0 then s
    else
      let t : State := { s with remotes := s.remotes.filter fun r => !mine r }
      let old := ((s.larder.versions.find? fun x => x.1 == owner).map (·.2)).getD 0
      if v.ult old then t
      else { t with larder := t.larder.see owner v }.installLine ⟨tenant, owner, va.toNat % 2 ^ 57 / 128, (bs ++ List.replicate 128 (0 : Byte)).take 128⟩
  | _ => s)

end Sys2Proof.Machine
end

