-- ==== Sys2Proof/Machine/HostLink.lean ====
section
/-! DEFINITION. The host on the CXL link: snoops of host sectors (10 R338), accesses to HBM and back-invalidation (12 R399; 13 R413), write-backs
(10 R336), loss and return of the link, function reset, power-gating (13 R414). -/
namespace Sys2Proof.Machine

/-! ### Snoops (10 R338) -/

/-- The 64-byte sector of an address. -/
def sectorOf (a : Nat) : Nat := a / 64 * 64
/-- A host line leaves every L1 and the L2, which reaches read sets. -/
def State.evictLine (s : State) (line : Nat) : State := { s with cache := s.cache.supersede line }.evictL2 line
/-- The data of a sector for the host, where it was modified, or is in the write-back buffer without the host's acknowledgement (13 R414). -/
def State.answerSnoop (s : State) (a : Nat) : State :=
  { s with out := s.out ++ [.snoopAnswer a (if s.cache.sector a = some .modified ∨ s.cache.bridgeHolds a then s.readPa a 64 else [])] }
/-- 10 R338 (`.bytes` an address in the sector, and what the host then stores there; empty: nothing). The other sector is written back if it was
modified, and kept exclusive. With the link down no snoop comes (13 R414). -/
def execHostSnoopOwnership (s : State) : Answer :=
  .next (match s.arg with
  | .bytes x bs =>
    if !isHost x || isFabric x || !s.ports.hostUp then s
    else
      let a := sectorOf x
      let line := lineOf x
      let other := if a = line then line + 64 else line
      let t := (s.answerSnoop a).evictLine line
      let t : State := { t with cache := (t.cache.dropSector a).bridgeDrop a, mem := t.mem.write a (bs.take 64) }
      if t.cache.sector other = some .modified then { t with cache := t.cache.setSector other .exclusive, out := t.out ++ [.writeBack other] } else t
  | _ => s)
/-- 10 R338 (`.id` an address in the sector). -/
def execHostSnoopRead (s : State) : Answer :=
  .next (match s.arg with
  | .id x =>
    if !isHost x || isFabric x || !s.ports.hostUp then s
    else
      let a := sectorOf x
      let t := s.answerSnoop a
      let c := t.cache.share (lineOf x)
      { t with cache := if (c.sector a).isSome then c.setSector a .shared else c }
  | _ => s)

/-! ### The host's accesses to HBM (12 R399, 13 R413) -/

/-- 13 R413, 12 R399 (`.access` an address, and the bytes written if it is a write): one access at the home slice; a keyed page gives all ones and takes
no write, and is counted. The host then holds the line. A read of a line with an error carries no bytes (10 R342); an access to a line under test waits
(12 R411). -/
def execHostMemAccess (s : State) : Answer :=
  .next (match s.arg with
  | .access a w =>
    if !isHbm (a / 64 * 64 + 63) || !s.ports.hostUp then s
    else if s.underTest (.pa (sectorOf a)) 64 then { s with blocked := s.blocked ++ [(.hostMemAccess, s.arg)] }
    else
      let line := lineOf a
      if s.keyOf a ≠ 0 then
        let t : State := { s with telemetry := { s.telemetry with refused := s.telemetry.refused + 1 } }
        match w with
        | some _ => t
        | none => { t with out := t.out ++ [Out.hostRead (sectorOf a) (List.replicate 64 (0xFF : Byte))] }
      else
        let t := s.recallLine line
        let t := match w with
          | some bs => t.writeSite none none (.pa a) (bs.take (sectorOf a + 64 - a))
          | none =>
            let t := t.homeLoadAt 0 line
            { t with out := t.out ++ [Out.hostRead (sectorOf a) (if (t.errorAt (.pa (sectorOf a)) 64).isSome then [] else t.readPa (sectorOf a) 64)] }
        { t with cache := { t.cache with hostHeld := dedup (t.cache.hostHeld ++ [line]) } }
  | _ => s)
/-- The moves that waited for a line go before all others. -/
def State.unblock (s : State) : State := { s with agenda := s.blocked ++ s.agenda, blocked := [] }
/-- 13 R413 (`.id` the line): the host has given the line up; the moves that waited for such lines look again. -/
def execBackInvalidateAnswer (s : State) : Answer :=
  .next (match s.arg with
  | .id line =>
    if s.cache.backInv.contains line then
      State.unblock { s with cache := { s.cache with backInv := s.cache.backInv.filter (fun x => x != line)
                                                     hostHeld := s.cache.hostHeld.filter fun x => x != line } }
    else s
  | _ => s)
/-- 10 R336 (`.two` core and line): the entry is free; a superseded write-back has been discarded. The data it carried is memory's already (log
entry 18). -/
def execWritebackAck (s : State) : Answer :=
  .next (match s.arg with
  | .two core line =>
    match s.cache.writeBacks.find? fun w => w.core == core && w.line == line with
    | some w => { s with cache := { s.cache with writeBacks := s.cache.writeBacks.erase w } }
    | none => s
  | _ => s)

/-! ### The link and resets (13 R414) -/

/-- The modified sectors. -/
def State.modifiedSectors (s : State) : List Nat := (s.cache.sectors.filter fun x => x.2 == .modified).map (·.1)
/-- Write-backs that the host has not acknowledged when the link is lost: the bridge holds their sectors as modified again. -/
def State.bridgeBack (s : State) : State :=
  { s with cache := (s.cache.writeBacks.filter fun w => w == bridgeEntry w.line).foldl (fun c w => (c.bridgeDrop w.line).setSector w.line .modified) s.cache }
/-- 13 R414: a surprise loss of the link; modified sectors are held, and the driver is told once it can read. -/
def execLinkDown (s : State) : Answer :=
  .next (if !s.ports.hostUp then s
    else
      let s := s.bridgeBack
      let n := s.modifiedSectors.length
      let t : State := { s with ports := { s.ports with hostUp := false, heldSectors := n } }
      if n = 0 then t else { t with ports := { t.ports with hostLosses := t.ports.hostLosses + 1 } }.event 6 0 n 0)
/-- Modified sectors are written back to the host and stay exclusive. -/
def State.writeBackSectors (s : State) : State :=
  { s with out := s.out ++ s.modifiedSectors.map Out.writeBack
           cache := { s.cache with sectors := s.cache.sectors.map fun x => (x.1, if x.2 = .modified then .exclusive else x.2) } }
/-- 13 R414: held sectors are written back first. -/
def execLinkRetrain (s : State) : Answer :=
  .next (if s.ports.hostUp then s
    else { s.writeBackSectors with ports := { s.ports with hostUp := true, heldSectors := 0 } })
/-- Host lines leave the device by clean evictions: no L1, L2 or bridge copy is left; open loads of them roll back. -/
def State.releaseSectors (s : State) : State :=
  let lines := dedup (s.cache.sectors.map fun x => lineOf x.1)
  lines.foldl State.evictLine { s with out := s.out ++ s.cache.sectors.map fun x => Out.cleanEvict x.1
                                       cache := { s.cache with sectors := [] } }
/-- What a reset asks of the host before any state is lost: modified sectors go to the bridge's write-back buffer, the host's copies of HBM lines are
recalled. -/
def State.askReset (s : State) : State :=
  let dirty := s.modifiedSectors
  let t := s.writeBackSectors
  s.cache.hostHeld.foldl State.backInvalidate
    { t with cache := { t.cache with writeBacks := t.cache.writeBacks ++ (dirty.filter fun a => !t.cache.bridgeHolds a).map bridgeEntry } }
/-- Has the host acknowledged every write, and given every line up? -/
def State.resetClear (s : State) : Bool :=
  s.modifiedSectors.isEmpty && !(s.cache.writeBacks.any fun w => w == bridgeEntry w.line) && s.cache.hostHeld.isEmpty
/-- A reset with the link up: until the host has what it must get the reset waits, and snoops are answered; then every sector is released, and `k` follows. -/
def State.resetThen (s : State) (i : Instr) (k : State → State) : State :=
  let t := s.askReset
  if t.resetClear then k { t.releaseSectors with resetting := none } else { t with resetting := some (i, s.arg) }
/-- 13 R414: every modified sector is written back and every sector released, the host's copies are recalled; what else a function or CXL reset changes
the spec does not say. -/
def execFunctionReset (s : State) : Answer :=
  .next (if s.ports.hostUp then s.resetThen .functionReset id else { s with resetting := none })

/-! ### Power-gating (13 R414) -/

/-- Cores from a first one. -/
def coresFrom (first n : Nat) : List Nat := (List.range n).map (· + first)
/-- A domain that can be gated: a quad or a compute die without a resident or incoming block. -/
def State.gateable (s : State) (first n : Nat) : Bool :=
  ((n == 4 && first % 4 == 0) || (n == 96 && first % 96 == 0)) && decide (first + n ≤ Config.cores) &&
  (coresFrom first n).all fun c => !(s.blocks.any fun b => b.core == c) && (s.core c).phase == .run && !s.cache.gated.contains c
/-- 13 R414 (`.word` first core and number of cores): the L1s write back modified host lines; the domain gates after the last acknowledgement. -/
def execPowerGating (s : State) : Answer :=
  .next (match s.arg with
  | .word first x =>
    let cs := coresFrom first x.toNat
    if x.toNat > 96 ∨ !s.gateable first x.toNat then s
    else
      let dirty := s.cache.l1.filter fun l => cs.contains l.1 && l.2.2 == .modified && isHost l.2.1
      if !dirty.isEmpty then
        { s with cache := { s.cache with l1 := s.cache.l1.filter (fun l => !dirty.contains l)
                                         writeBacks := s.cache.writeBacks ++ dirty.map fun l => ⟨l.1, l.2.1, false⟩ } }
      else if s.cache.writeBacks.any fun w => cs.contains w.core then s
      else { s with cache := { s.cache with l1 := s.cache.l1.filter (fun l => !cs.contains l.1)
                                            ucc := s.cache.ucc.filter (fun l => !cs.contains l.core)
                                            hints := s.cache.hints.filter (fun h => match h.1 with | some k => !cs.contains k | none => true)
                                            gated := s.cache.gated ++ cs } }
  | _ => s)

end Sys2Proof.Machine
end

