-- ==== Sys2Proof/Machine/Program.lean ====
section
/-! DEFINITION. Threads, warps, blocks and launches at their start (01 R13), and a program of one instruction, placed as a launch that
runs (log entry 2). -/
namespace Sys2Proof.Machine

/-- A thread at its start (01 R13). -/
def Lane.start (pc : Pc) (n : Nat) (wid : W64) : Lane :=
  ⟨true, false, false, false, .none, Option.none, Option.none, pc, List.replicate n 0, 0, wid, Option.none, 0, false, 0, RayQuery.empty⟩
/-- The registers of a warp at its start (01 R13). -/
def WarpRegs.start (lanes : List Lane) (consts : List W64) (tba : W64) : WarpRegs :=
  ⟨lanes, consts ++ List.replicate 48 0, List.replicate 8 0, ⟨0, 0, 0, 0, tba, 0⟩, 0⟩
/-- Speculation state at start. -/
def Spec.start : Spec := 
  { soff := false, crfl := 0, window := [], readSet := [], ckpt := none, ulog := 0, emits := [], cmds := [], order := [], sending := 0
    rbCount := 0, rbAddr := 0, nextSeq := 0 }
/-- A warp at its start. -/
def Warp.start (id block core slot prio : Nat) (regs : WarpRegs) (warpx : W32) (age : Nat) : Warp :=
  { id, block, core, slot, prio, regs, warpx, age
    spec := Spec.start, longs := [], nextLong := 0, chans := List.replicate 8 ⟨0, false⟩, interval := 0, flow := 0
    sent := [], asked := [], askedFor := [], remoteTarget := none, remoteOpen := 0, asyncs := [], permit := false, backoff := []
    service := none, fatal := none, decodedExt := none, yielded := none, deferred := none, disabled := false, badRows := []
    heldTrace := [], ctabSince := none, readySince := none }
/-- A matrix stream at its start (07 R233). -/
def Stream.start (entry : W64) (bars : Nat) : Stream :=
  ⟨List.replicate 32 0, .ofAddr entry, false, 0, List.replicate bars false, .none, false, none, false, false, none⟩
/-- A block at its start, without its warps (01 R13). -/
def Block.start (id launch : Nat) (blockx : W64) (core winSlot scratch bars : Nat) (stream : Option Stream) (now codeFrom : Nat) : Block :=
  ⟨id, launch, blockx, core, winSlot, scratch, [], [], [], none, List.replicate bars ⟨false, 0, 0, false⟩, [], codeFrom, stream, none, 0, 0, none,
    now, now⟩
/-- A launch with nothing started. -/
def Launch.start (id queue : Nat) (seq : W32) (crec : W64) (deps : List W32) (hdr : Header) (phase : Phase) : Launch :=
  { id, queue, seq, crec, deps, hdr, phase
    leases := [], extents := [], nodes := [], overflow := none, tableHead := none, records := [], senders := [], nextBlock := 0, batches := 0
    issued := false, codeFrom := none, exits := [], triggered := false, otherf := 0, dumped := false
    stat := 0, reason := 0, halting := false, orphans := [], remains := [], waitSince := 0 }

/-- The byte address the program stands at; its page maps to the same physical address. -/
def programBase : Nat := 0x40000000

/-- The header of the program's launch: 16 lanes, 512 registers, privileged, open mode. -/
def programHeader (matrix : Bool) : Header where
  entry := BitVec.ofNat 64 programBase
  mentry := if matrix then BitVec.ofNat 64 programBase else 0
  tba := 0
  dumpp := 0
  leasep := 0
  nodep := 0
  lanes := 16
  regs := 512
  blk := 0
  widths := [4, 0, 0, 0, 0, 0]
  scratch := 0
  bars := 0
  prio := 0
  cres := 0
  trfl := 0
  tenant := 0
  strict := false
  lcnt := 0
  consts := List.replicate 16 0
  privileged := true
  pasid := 0

/-- The program's page tables: the root in page 0x100 points to the table in page 0x101, whose first entry is a 512 GiB leaf at physical
address 0 with every permission (12 R386). -/
def programTables (m : Mem) : Mem :=
  (m.write 0x100000 (leBytes 8 (0x101 * 1024 + 1))).write 0x101000 (leBytes 8 0xDF)

/-- The state with a one-instruction program about to take its turn: a running launch, block and warp (or matrix stream) numbered 0. -/
def State.placeProgram (s : State) (matrix : Bool) (code : List Byte) : State :=
  let pc := Pc.ofAddr (BitVec.ofNat 64 programBase)
  let hdr := programHeader matrix
  let lanes := (List.range 16).map fun l => Lane.start pc 512 (BitVec.ofNat 64 l)
  let stream := if matrix then some (Stream.start hdr.mentry 0) else none
  { s with
    agenda := []
    boot := { s.boot with halted := none }
    features := some Config.offered
    pasids := (s.pasids.filter fun p => p.1 != 0) ++ [(0, BitVec.ofNat 128 (1 + 0x100 * 2 ^ 64))]
    tlb := s.tlb.filter fun t => t.pasid != 0
    keys := s.keys.filter fun k => k.1 != 0x100 && k.1 != 0x101 && k.1 != programBase / 4096
    badLines := s.badLines.filter fun b => b.1 != programBase / 128 && b.1 != 0x100000 / 128 && b.1 != 0x101000 / 128
    mem := (programTables s.mem).write programBase code
    launches := (s.launches.filter fun l => l.id != 0) ++ [Launch.start 0 0 0 0 [] hdr .live]
    blocks := (s.blocks.filter fun b => b.id != 0) ++ [Block.start 0 0 0 0 0 0 0 stream s.clock s.oldCode.length]
    warps := (s.warps.filter fun w => w.id != 0) ++ [Warp.start 0 0 0 0 0 (.start lanes hdr.consts 0) 0 s.clock]
    turn := [⟨matrix, 0, pc, 0xFFFF, 1, (0, 0), 0⟩]
    taking := none }

/-- A table word stored where the next step fetches: in a warp's program, or in a matrix stream's if only a stream takes it. -/
def State.withWord (s : State) (nbits w : Nat) : State :=
  let x := w % 2 ^ nbits
  let reads (m : Bool) : Bool := match decode (tableCtx m) (BitVec.ofNat 64 x) (BitVec.ofNat 64 (x / 2 ^ 64)) with
    | .ok _ => true
    | .error _ => false
  s.placeProgram (!reads false && reads true) (leBytes 16 x)

end Sys2Proof.Machine
end

