-- ==== Sys2Proof/Machine/Placement.lean ====
section
/-! DEFINITION. Room on a core and how blocks and batches take it (01 R15, R30; 10 R325; 11 R360, R361, R363 to R365). Which free core, warp
slot and window slot is taken is open (log entry 6). -/
namespace Sys2Proof.Machine

/-- Local-index width B (01 R29). -/
def Header.localWidth (h : Header) : Nat := h.groupShift h.blk
/-- Blocks of a launch. -/
def Header.blocks (h : Header) : Nat := 2 ^ (h.groupShift 5 - h.localWidth)
/-- Warps of a block (01 R30). -/
def Header.warps (h : Header) : Nat := max 1 (ceilDiv (2 ^ h.localWidth) h.lanes)
/-- Registers that a warp holds (01 R15). -/
def Warp.bankRegs (w : Warp) : Nat := w.width * (w.lane 0).v.length
/-- Warps of a batch block of a launch that sit in its consumer reserve. -/
def State.inReserve (s : State) (l : Launch) (w : Warp) : Bool :=
  match s.block? w.block with
  | some b => b.launch == l.id && (match b.batch with | some (_, 1) => true | _ => false)
  | none => false
/-- Registers in use in a quarter, but for the reserve's own batches of a launch. -/
def State.usedBut (s : State) (core q : Nat) (l : Launch) : Nat :=
  ((s.quarterWarps core q).filter fun w => !s.inReserve l w).foldl (fun n w => n + w.bankRegs) 0
/-- The quarters that keep a launch's reserve free (R361). -/
def State.reserveQuarters (s : State) (core : Nat) (l : Launch) : List Nat :=
  (List.range 4).filter fun q => decide (s.usedBut core q l + l.hdr.cres * 512 ≤ Config.bankRegs)
/-- Do the blocks and warps of a core keep its bounds (01 R15; 11 R360, R361)? -/
def State.coreLegal (s : State) (core : Nat) : Bool :=
  let mine := s.blocks.filter fun b => b.core == core
  ((List.range 4).all fun q =>
    let ws := s.quarterWarps core q
    decide (ws.length ≤ Config.quarterWarps) && decide (ws.foldl (fun n w => n + w.bankRegs) 0 ≤ Config.bankRegs)) &&
  decide ((mine.map fun b => b.bars.length).foldl (fun a b => a + b) 0 ≤ Config.coreBarriers) &&
  decide (countIf (fun b => b.stream.isSome) mine ≤ 2) &&
  s.launches.all fun l => l.hdr.cres == 0 || !(mine.any fun b => b.launch == l.id) || !(s.reserveQuarters core l).isEmpty

/-- One of the free numbers below a bound, as the spec leaves open. -/
def State.pickFree (s : State) (salt n : Nat) (used : List Nat) : Option Nat :=
  let free := (List.range n).filter fun i => !used.contains i
  free[s.pick (2 ^ 71 + 2 ^ 60 + salt) % free.length]?
/-- A free window slot of a core's quad. -/
def State.freeWindow (s : State) (core : Nat) : Option Nat :=
  s.pickFree core 64 (((s.blocks.filter fun b => quadOf b.core == quadOf core) ++ (s.incomingTo (quadOf core)).flatMap (·.blocks)).map (·.winSlot))
/-- A warp takes a free slot of a quarter. -/
def State.addWarp (s : State) (core q : Nat) (mk : Nat → Nat → Warp) : Option State :=
  (s.pickFree (1000 + s.ctr.warp) 16 ((s.quarterWarps core q).map fun w => w.slot % 16)).map fun i =>
    { s with warps := s.warps ++ [mk s.ctr.warp (16 * q + i)], ctr := { s.ctr with warp := s.ctr.warp + 1 } }
/-- A block joins a core in a window slot, its number taken. -/
def State.addBlock (s : State) (b : Block) : State := { s with blocks := s.blocks ++ [b], ctr := { s.ctr with block := s.ctr.block + 1 } }
/-- Can blocks be placed on the core now: not while a context is on its way in, nor in the swap (11 R371)? -/
def State.coreOpen (s : State) (core : Nat) : Bool := decide (core < Config.cores) && ((s.core core).phase == .run || (s.core core).phase == .spill)
/-- The core wakes from power-gating as it takes a block (13 R414). -/
def State.ungate (s : State) (core : Nat) : State :=
  { s with cache := { s.cache with gated := s.cache.gated.filter fun c => quadOf c != quadOf core } }

/-! ### Contexts -/

/-- A context by number. -/
def State.context? (s : State) (n : Nat) : Option Context := s.contexts.find? fun c => c.num == n
/-- Changes a context. -/
def State.modContext (s : State) (n : Nat) (f : Context → Context) : State := { s with contexts := s.contexts.map fun c => if c.num = n then f c else c }
/-- Is a context on its way to a core or from it? -/
def State.contextBusy (s : State) (n : Nat) : Bool := s.cores.any fun c => c.incoming == some n || c.outgoing == some n
/-- The highest class of some blocks. -/
def State.classOf (s : State) (bs : List Block) : Option Nat :=
  minBy id (bs.filterMap fun b => (s.launch? b.launch).map fun l => l.hdr.prio)
/-- The blocks of a core. -/
def State.coreBlocks (s : State) (core : Nat) : List Block := s.blocks.filter fun b => b.core == core
/-- The core with nothing on it: its blocks, warps and reservations are elsewhere. -/
def State.cleared (s : State) (core : Nat) : State :=
  let bs := s.coreBlocks core
  { s with
    blocks := s.blocks.filter fun b => b.core != core
    warps := s.warps.filter fun w => w.core != core
    quads := { s.quads with acc := s.quads.acc.filter fun a => !bs.any fun b => a.2.2.owner == some b.id
                            waiters := s.quads.waiters.filter fun w => !bs.any fun b => w.2.1 == b.id
                            ops := s.quads.ops.filter fun o => !bs.any fun b => o.block == b.id } }.wakeReservers
/-- The warps of a context take slots of their quarters on a core. -/
def State.seatWarps (s : State) (core : Nat) : List Warp → Option State
  | [] => some s
  | w :: ws =>
    let q := quarterOf w.slot
    let used := (s.quarterWarps core q).map fun v => v.slot % 16
    let slot? := if used.contains (w.slot % 16) then s.pickFree (3000 + w.id) 16 used else some (w.slot % 16)
    match slot? with
    | none => none
    | some i => ({ s with warps := s.warps ++ [{ w with core := core, slot := 16 * q + i, readySince := none }] }).seatWarps core ws
/-- A context with its blocks stands on a core, under the same window and accumulator slot numbers, if there is room, in the quad's reservation table too
(R374; log entry 70). -/
def State.seated (s : State) (x : Context) (core : Nat) : Option State :=
  let quad := quadOf core
  let others := (s.incomingTo quad).filter fun c => c.num != x.num
  if x.blocks.any (fun b => (s.blocks.any fun c => quadOf c.core == quad && c.winSlot == b.winSlot) || others.any fun y => y.blocks.any fun c => c.winSlot == b.winSlot) ||
      x.acc.any (fun a : Nat × Nat × AccSlot => (s.quads.acc.any fun c : Nat × Nat × AccSlot => c.1 == quad && c.2.1 == a.2.1 && c.2.2.owner.isSome) ||
        others.any fun y => y.acc.any fun c : Nat × Nat × AccSlot => c.2.1 == a.2.1) then none
  else
    let t := { s with
      blocks := s.blocks ++ x.blocks.map (fun b : Block => { b with core := core, arrivedAt := s.clock })
      quads := { s.quads with
        acc := s.quads.acc.filter (fun c : Nat × Nat × AccSlot => !x.acc.any fun a : Nat × Nat × AccSlot => c.1 == quad && c.2.1 == a.2.1)
          ++ x.acc.map fun a : Nat × Nat × AccSlot => (quad, a.2)
        ops := s.quads.ops ++ x.ops.map fun o : AnvilOp => { o with quad := quad, arrived := s.cycles } } }
    if Config.reservations < countIf (fun o => o.quad == quad) t.quads.ops then none
    else (t.seatWarps core x.warps).bind fun t => if t.coreLegal core then some t else none
/-- Is a core hot (R375)? -/
def State.hot (s : State) (core : Nat) : Bool := decide ((s.core core).temp > s.thermal.thresholdC * 1000)
/-- Has a core room for a saved context (R374)? None moves to a hot core, and one that left a hot core goes to another (R375). -/
def State.contextFits (s : State) (x : Context) (core : Nat) : Bool :=
  decide (core < Config.cores) && !(x.blocks.any fun b => if b.core = core then x.migrated else s.hot core) && (s.seated x core).isSome
/-- The cores that can take a saved context now. -/
def State.contextCores (s : State) (x : Context) : List Nat :=
  (List.range Config.cores).filter fun c => (s.core c).phase == .run && s.contextFits x c
/-- A saved context that waits for a core. -/
def State.contextWaits (s : State) (x : Context) : Bool := !x.blocks.isEmpty && !x.areas.isEmpty && !s.contextBusy x.num
/-- Is a saved context of an equal or higher class waiting for a core that it fits (R374)? -/
def State.contextFirst (s : State) (l : Launch) (core : Nat) : Bool :=
  s.contexts.any fun x => s.contextWaits x && (match s.classOf x.blocks with | some c => decide (c ≤ l.hdr.prio) | none => false) && s.contextFits x core

/-! ### Blocks (R360) -/

/-- The lanes of warp `j` of a block (01 R13, R30). -/
def blockLanes (h : Header) (blockx : Nat) (j : Nat) : List Lane :=
  (List.range h.lanes).map fun i =>
    let x := j * h.lanes + i
    let t := Lane.start (.ofAddr h.entry) h.regs (BitVec.ofNat 64 (blockx * 2 ^ h.localWidth + x))
    if x < 2 ^ h.localWidth then t else { t with populated := false }
/-- The warps of a block, warp j in quarter j mod 4 (R360). -/
def State.addBlockWarps (s : State) (h : Header) (id core blockx : Nat) : Nat → Option State
  | 0 => some s
  | n + 1 => (s.addBlockWarps h id core blockx n).bind fun s =>
      s.addWarp core (n % 4) fun w slot =>
        Warp.start w id core slot h.prio (.start (blockLanes h blockx n) h.consts h.tba) (BitVec.ofNat 32 n) s.clock
/-- A backing area for a block of a tenant: the pool's first that the driver has put under the tenant's key (10 R325, R341; log entry 65). -/
def State.backingFor (s : State) (tenant : BitVec 16) : Option Nat := s.pools.backing.find? (s.areaKeyed tenant areaBytes)
/-- An area is taken from the pool. -/
def State.dropBacking (s : State) (area : Nat) : State := { s with pools := { s.pools with backing := s.pools.backing.erase area } }
/-- Of the words that stores have replaced, the first that a block of a launch may still fetch (03 R95). -/
def State.codeFor (s : State) (l : Launch) : Nat := l.codeFrom.getD s.oldCode.length
/-- The next block of a launch on a core, if every resource is free (R360). -/
def State.tryBlock (s : State) (l : Launch) (core : Nat) : Option State :=
  let h := l.hdr
  match s.freeWindow core, s.backingFor h.tenant with
  | some win, some area =>
    let stream := if h.mentry = 0 then none else some (Stream.start h.mentry h.bars)
    let b := { Block.start s.ctr.block l.id (BitVec.ofNat 64 l.nextBlock) core win h.scratch h.bars stream s.clock (s.codeFor l) with backing := some area }
    ((((s.dropBacking area).addBlock b).ungate core).addBlockWarps h b.id core l.nextBlock h.warps).bind fun t =>
      if t.coreLegal core then some (t.modLaunch l.id fun l => { l with nextBlock := l.nextBlock + 1, codeFrom := some (s.codeFor l) }) else none
  | _, _ => none
/-- Does a launch have a block to place? -/
def Launch.wantsBlock (l : Launch) : Bool := l.phase == .live && !l.halting && decide (l.nextBlock < l.hdr.blocks)
/-- The cores that can take a launch's next block. -/
def State.blockCores (s : State) (l : Launch) : List Nat :=
  if l.wantsBlock then (List.range Config.cores).filter fun c => s.coreOpen c && (s.tryBlock l c).isSome else []
/-- Is launch `m` considered before `l`: by class, then by order of acceptance (R360)? -/
def Launch.before (m l : Launch) : Bool := decide (m.hdr.prio < l.hdr.prio) || (m.hdr.prio == l.hdr.prio && decide (m.id < l.id))

/-! ### Batches (R364, R365) -/

/-- The records in a node's bin, oldest first. -/
def Launch.bin (l : Launch) (node : Nat) : List PoolRec := l.records.filter fun r => r.node == node
/-- A batch due by count: the oldest BATCH records. -/
def Launch.fullBatch (l : Launch) (node : Nat) : List PoolRec :=
  match l.nodes[node]? with
  | some n => if n.batch ≤ (l.bin node).length then (l.bin node).take n.batch else []
  | none => []
/-- A batch due by the timer: every record present, at most BATCH. -/
def State.timedBatch (s : State) (l : Launch) (node : Nat) : List PoolRec :=
  match l.nodes[node]?, l.bin node with
  | some n, r :: rs => if r.placedAt + n.timer ≤ s.clock then (r :: rs).take n.batch else []
  | _, _ => []
/-- A batch that would start if room existed. -/
def State.dueBatch (s : State) (l : Launch) (node : Nat) : List PoolRec :=
  if l.phase != .live || l.halting then [] else match l.fullBatch node with | [] => s.timedBatch l node | rs => rs
/-- Since when a node's batch has been due: its last record came, or the timer of its first ran out. -/
def Launch.dueSince (l : Launch) (node : Nat) : Nat :=
  match l.fullBatch node, l.nodes[node]?, l.bin node with
  | r :: rs, _, _ => ((r :: rs).map (·.placedAt)).foldl max 0
  | [], some n, r :: _ => r.placedAt + n.timer
  | _, _, _ => 0
/-- The registers v0 up that hold a record (05 R172). -/
def recordRegs (bytes : List Byte) : List W32 := (List.range (bytes.length / 4)).map fun i => BitVec.ofNat 32 (leNat ((bytes.drop (4 * i)).take 4))
/-- A batch's lane. -/
def batchLane (h : Header) (n : Node) (b : Nat) (i : Nat) : Option PoolRec → Lane
  | some r =>
    let x := recordRegs r.bytes
    { Lane.start (.ofAddr n.entry) h.regs (BitVec.ofNat 64 (b * 64 + i)) with v := x ++ List.replicate (h.regs - x.length) 0, node := some r.node, depth := r.depth }
  | none => { Lane.start (.ofAddr n.entry) h.regs 0 with populated := false }
/-- The block of a batch; an error in one of its slots is raised at its first instruction (R363). -/
def State.batchBlock (s : State) (l : Launch) (node core win area : Nat) (reserve : Bool) (rs : List PoolRec) : Block :=
  { Block.start s.ctr.block l.id (BitVec.ofNat 64 l.batches) core win 0 0 none s.clock (s.codeFor l) with
    batch := some (node, reserve.toNat), batchSize := rs.length, backing := some area
    poolFault := rs.findSome? fun r =>
      (s.errorIn (s.poolRuns l .read (l.slotVa node r.slot) r.bytes.length)).map fun x => (x.2, l.slotVa node r.slot) }
/-- The warp of a batch. -/
def State.batchWarp (s : State) (l : Launch) (n : Node) (core : Nat) (rs : List PoolRec) (w slot : Nat) : Warp :=
  let lanes := (List.range l.hdr.lanes).map fun i => batchLane l.hdr n l.batches i rs[i]?
  Warp.start w s.ctr.block core slot l.hdr.prio (.start lanes l.hdr.consts l.hdr.tba) 0 s.clock
/-- A batch starts in a quarter of a core; `reserve`: in the consumer reserve. Its slots fall free. -/
def State.startBatch (s : State) (l : Launch) (node core q : Nat) (reserve : Bool) (rs : List PoolRec) : Option State :=
  match l.nodes[node]?, s.freeWindow core, s.backingFor l.hdr.tenant with
  | some n, some win, some area =>
    ((((s.dropBacking area).addBlock (s.batchBlock l node core win area reserve rs)).ungate core).addWarp core q (s.batchWarp l n core rs)).bind fun t =>
      if t.coreLegal core then some (t.modLaunch l.id fun m =>
        { m with batches := l.batches + 1, codeFrom := some (s.codeFor l), records := m.records.filter fun r => !rs.contains r }) else none
  | _, _, _ => none
/-- The lowest-numbered quarter with ordinary room takes the batch (R360). -/
def State.ordinaryBatch (s : State) (l : Launch) (node core : Nat) (rs : List PoolRec) : Option State :=
  if rs.isEmpty || !s.coreOpen core then none else (List.range 4).findSome? fun q => s.startBatch l node core q false rs
/-- The quarter that holds the launch's reserve takes the batch (R360, R361). -/
def State.reserveBatch (s : State) (l : Launch) (node core : Nat) (rs : List PoolRec) : Option State :=
  if rs.isEmpty || !s.coreOpen core || l.hdr.cres == 0 || !(s.blocks.any fun b => b.core == core && b.launch == l.id) then none
  else (s.reserveQuarters core l).findSome? fun q =>
    let used := ((s.quarterWarps core q).filter fun w => s.inReserve l w).foldl (fun n w => n + w.bankRegs) 0
    if used + l.hdr.lanes * l.hdr.regs ≤ l.hdr.cres * 512 then s.startBatch l node core q true rs else none

/-- Could a launch take room on a core now, with its next block or a batch that is due, in its reserve or elsewhere? -/
def State.roomFor (s : State) (m : Launch) (core : Nat) : Bool :=
  (m.wantsBlock && s.coreOpen core && (s.tryBlock m core).isSome) ||
  (List.range m.nodes.length).any fun i => (s.ordinaryBatch m i core (s.dueBatch m i)).isSome || (s.reserveBatch m i core (s.dueBatch m i)).isSome
/-- Does a launch leave the room of a core to a saved context or to a launch that is considered before it (R360, R374)? -/
def State.yieldsTo (s : State) (l : Launch) (core : Nat) : Bool :=
  s.contextFirst l core || s.launches.any fun m => m.before l && s.roomFor m core

/-- 11 R364 (`.three` launch, node and core). -/
def execBatchLaunch (s : State) : Answer :=
  .next (match s.arg with
  | .three id node core => match s.launch? id with
    | some l => if l.phase != .live || l.halting || s.yieldsTo l core then s else (s.ordinaryBatch l node core (l.fullBatch node)).getD s
    | none => s
  | _ => s)
/-- 11 R364 (`.three` launch, node and core). -/
def execBinTimerExpiry (s : State) : Answer :=
  .next (match s.arg with
  | .three id node core => match s.launch? id with
    | some l => if l.phase != .live || l.halting || s.yieldsTo l core then s else (s.ordinaryBatch l node core (s.timedBatch l node)).getD s
    | none => s
  | _ => s)
/-- The waiting batch of the highest node index. -/
def State.highestDue (s : State) (l : Launch) : Option (Nat × List PoolRec) :=
  ((List.range l.nodes.length).reverse.map fun i => (i, s.dueBatch l i)).find? fun x => !x.2.isEmpty
/-- 11 R361 (`.two` launch and core): a reserve goes to the waiting batch of the highest node index, in the launch's turn (R360, R374). -/
def execConsumerReserveFree (s : State) : Answer :=
  .next (match s.arg with
  | .two id core => match s.launch? id with
    | some l => match s.highestDue l with
      | some (node, rs) => if s.yieldsTo l core then s else (s.reserveBatch l node core rs).getD s
      | none => s
    | none => s
  | _ => s)

end Sys2Proof.Machine
end

