-- ==== Sys2Proof/Machine/Launches.lean ====
section
/-! DEFINITION. Launches from the tail word to the completion record (11 R350 to R358, R360; 13 R416). -/
namespace Sys2Proof.Machine

/-! ### The scheduler's own reads and writes (11 R359, 12 R398) -/

/-- A page as the scheduler reaches it for a launch. -/
def State.schedXlate (s : State) (l : Launch) (u : Use) (va : W64) : Except AccFault Mapped :=
  if !canonical va then .error (.page 1 va)
  else if inWindow va then .error (.page 3 va)
  else match s.leaf l.hdr.pasid l.hdr.privileged u va with
    | .error f => .error f
    | .ok x => match s.place u va false l.hdr.pasid x with
      | .error f => .error f
      | .ok m => if s.schedKeyOk l.hdr.tenant m.pa then .ok m else .error (.key va)
/-- The runs of a range as the scheduler reaches them. -/
def State.schedReach (s : State) (l : Launch) (u : Use) (va : W64) (n : Nat) : Except AccFault (List Seg) :=
  (runsOf (n / 4096 + 2) va n).mapM fun r => match s.schedXlate l u r.1 with
    | .error f => .error f
    | .ok m => .ok (m.seg r.1 r.2)
/-- The scheduler as an agent for a launch. -/
def Launch.sched (l : Launch) : Who := ⟨l, 0, 0, .sched l.id⟩
/-- Why the scheduler cannot go on with a launch: a reason to refuse it, a fault, or something that must come before a read. -/
inductive SchedStop where
  | refuse (reason : Nat)
  | fault (f : AccFault)
  | wait (s : State)
/-- A number the scheduler reads, with the runs read; data with an error cannot be read. -/
def State.schedRead (s : State) (l : Launch) (va : W64) (n : Nat) : Except SchedStop (Nat × List Seg) :=
  match s.schedReach l .read va n with
  | .error f => .error (.fault f)
  | .ok gs => match s.readError l.sched gs with
    | some _ => .error (.refuse 8)
    | none => match s.agentPrep l.sched gs [] with
      | some t => .error (.wait t)
      | none => .ok (leNat (s.reachBytes l.sched gs), gs)
/-- A fault of the scheduler goes to its service, or to the host; none where it cannot be served, since its PASID has no service or the service failed (12
R385, R393). -/
def State.schedServe (s : State) (l : Launch) (u : Use) (f : AccFault) : Option State :=
  match f with
  | .served q => if !s.serviced l.hdr.pasid || s.failedAt (.sched l.id) q.va then none else some (s.serveAgent (.sched l.id) l q 0xFF 0)
  | .ats va => some (s.askHost (.sched l.id) l u va 0xFF 0)
  | _ => none
/-- A launch ends before any thread starts, or is cancelled (R354, R355, R358): its completion follows. -/
def State.endLaunch (s : State) (id : Nat) (stat reason : Nat) : State :=
  (s.dropWait (.sched id)).stopLaunch id (BitVec.ofNat 8 stat) (BitVec.ofNat 8 reason)

/-! ### The header, the leases, the node table (R353, R354, R357, R362) -/

/-- A header's fields from its bytes as a number. -/
def Header.ofNum (x : Nat) (privileged : Bool) (pasid : BitVec 20) : Header where
  entry := BitVec.ofNat 64 (bits x 63 0)
  mentry := BitVec.ofNat 64 (bits x 127 64)
  tba := BitVec.ofNat 64 (bits x 383 320)
  dumpp := BitVec.ofNat 64 (bits x 319 256)
  leasep := BitVec.ofNat 64 (bits x 191 128)
  nodep := BitVec.ofNat 64 (bits x 255 192)
  lanes := 16 * 2 ^ bits x 385 384
  regs := 8 * (bits x 391 386 + 1)
  blk := bits x 394 392
  widths := (List.range 6).map fun k => bits x (454 + 7 * k) (448 + 7 * k)
  scratch := 16 * bits x 430 414
  bars := bits x 413 404
  prio := bits x 403 402
  cres := bits x 535 520
  trfl := BitVec.ofNat 8 (bits x 519 512)
  tenant := BitVec.ofNat 16 (bits x 447 432)
  strict := bits x 395 395 == 0
  lcnt := bits x 401 396
  consts := (List.range 16).map fun k => BitVec.ofNat 64 (bits x (1087 + 64 * k) (1024 + 64 * k))
  privileged := privileged
  pasid := pasid
/-- A byte address of code: canonical, bits [2:0] zero. -/
def codeAddr (a : W64) : Bool := canonical a && a.toNat % 8 == 0
/-- The highest level with a nonzero width; 0 if there is none. -/
def topLevel (widths : List Nat) : Nat := ((List.range 6).filter fun k => widths.getD k 0 != 0).getLast?.getD 0
/-- The first check of the header that fails (R354). -/
def State.headerBad (s : State) (x : Nat) (h : Header) (tenant : BitVec 16) : Option Nat :=
  if bits x 1023 536 ≠ 0 ∨ bits x 511 490 ≠ 0 ∨ bits x 431 431 ≠ 0 ∨ bits x 519 517 ≠ 0 ∨ bits x 385 384 = 3 ∨ h.scratch > 16 * 65536 ∨
      h.bars > 512 ∨ h.lcnt > 32 ∨ h.cres > 128 then some 1
  else if h.widths.foldl (fun a b => a + b) 0 > 64 ∨ h.blk > 5 ∨ h.blk > topLevel h.widths then some 2
  else if !codeAddr h.entry || !codeAddr h.mentry || !codeAddr h.tba then some 3
  else if h.tenant ≠ tenant ∨ (s.keyOfTenant h.tenant).isNone then some 7
  else if h.warps > 4 * min Config.quarterWarps (Config.bankRegs / (h.lanes * h.regs)) then some 4
  else none
/-- A lease entry (R357): its pages and kinds; none if it is invalid. -/
def leaseOf (consts : List W64) (e : Nat) : Option Lease :=
  let len := bits e 103 64
  let lo := consts.getD (bits e 107 104) 0 + BitVec.ofNat 64 (bits e 63 0)
  let last := lo.toNat + len - 1
  if bits e 127 110 ≠ 0 ∨ bits e 109 108 = 0 ∨ len = 0 ∨ last ≥ 2 ^ 64 then none
  else if !canonical lo || !canonical (BitVec.ofNat 64 last) || inWindow lo || inWindow (BitVec.ofNat 64 last) ||
      decide (lo.toNat < Config.windowBase.toNat ∧ Config.windowBase.toNat ≤ last) then none
  else some ⟨lo.toNat / 4096, last / 4096 + 1 - lo.toNat / 4096, BitVec.ofNat 2 (bits e 109 108)⟩
/-- A node entry (R362); none if a field is out of range. -/
def nodeOf (h : Header) (e : Nat) : Option Node :=
  let n : Node := ⟨BitVec.ofNat 64 (bits e 63 0), BitVec.ofNat 64 (bits e 127 64), bits e 151 128, bits e 183 160, bits e 189 184 + 1,
    16 * (bits e 195 192 + 1), bits e 200 196, bits e 201 201 == 1⟩
  if bits e 255 202 ≠ 0 ∨ bits e 191 190 ≠ 0 ∨ bits e 159 152 ≠ 0 ∨ bits e 2 0 ≠ 0 ∨ bits e 67 64 ≠ 0 ∨ n.poolN = 0 ∨ n.timer = 0 ∨
      n.batch > h.lanes ∨ bits e 195 192 * 4 + 4 > h.regs then none
  else some n
/-- The lease list of a header. -/
def State.readLeases (s : State) (l : Launch) (h : Header) : Except SchedStop (List Lease × List Seg) :=
  if h.lcnt = 0 then .ok ([], [])
  else if h.leasep.toNat % 16 ≠ 0 then .error (.refuse 5)
  else match s.schedRead l h.leasep (16 * h.lcnt) with
    | .error e => .error e
    | .ok (x, gs) => match (List.range h.lcnt).mapM fun i => leaseOf h.consts (bits x (128 * i + 127) (128 * i)) with
      | some ls => .ok (ls, gs)
      | none => .error (.refuse 5)
/-- The header of a node table (R362). -/
def State.readTableHead (s : State) (l : Launch) (h : Header) : Except SchedStop (Nat × List Seg) :=
  if h.nodep.toNat % 32 ≠ 0 then .error (.refuse 6)
  else match s.schedRead l h.nodep 32 with
    | .error e => .error e
    | .ok (x, gs) =>
      if bits x 7 0 = 0 ∨ bits x 7 0 > 64 ∨ bits x 255 16 ≠ 0 ∨ (bits x 15 8 ≠ 0xFF ∧ bits x 7 0 ≤ bits x 15 8) then .error (.refuse 6) else .ok (x, gs)
/-- The entries of a node table whose header is `x`. -/
def State.readNodes (s : State) (l : Launch) (h : Header) (x : Nat) : Except SchedStop (List Node × List Seg) :=
  match s.schedRead l (h.nodep + 32) (32 * bits x 7 0) with
  | .error e => .error e
  | .ok (y, gs) => match (List.range (bits x 7 0)).mapM fun i => nodeOf h (bits y (256 * i + 255) (256 * i)) with
    | some ns => if h.cres * 512 < h.lanes * h.regs then .error (.refuse 6) else .ok (ns, gs)
    | none => .error (.refuse 6)
/-- Has a PASID no context, or one of MODE 0 (12 R385)? -/
def State.pasidVoid (s : State) (p : BitVec 20) : Bool := ctxMode (s.pasidEntry p) == 0
/-- The scheduler's reads of a launch stop: the launch is refused, or goes on later. -/
def State.schedStop (s : State) (l : Launch) : SchedStop → State
  | .refuse r => s.endLaunch l.id 5 r
  | .fault f => (s.schedServe l .read f).getD (s.endLaunch l.id 5 8)
  | .wait t => t
/-- A part of a launch has been read, once: the launch goes on as `m`. -/
def State.readDone (s : State) (l m : Launch) (gs : List Seg) : State := ((s.dropWait (.sched l.id)).useReads 0 gs).modLaunch l.id fun _ => m
/-- The entries of the node table are read and checked: the launch waits for its dependences, or is refused (R354, R362). -/
def State.loadNodes (s : State) (l : Launch) (x : Nat) : State :=
  match s.readNodes l l.hdr x with
  | .error e => s.schedStop l e
  | .ok (ns, gs) => s.readDone l { l with nodes := ns, overflow := if bits x 15 8 = 0xFF then none else some (bits x 15 8), phase := .waiting } gs
/-- The node table of a launch is read, its header and its entries once each (R362). -/
def State.loadTable (s : State) (l : Launch) : State :=
  match l.tableHead with
  | some x => s.loadNodes l x
  | none =>
    if l.hdr.nodep = 0 then s.readDone l { l with phase := .waiting } []
    else match s.readTableHead l l.hdr with
      | .error e => s.schedStop l e
      | .ok (x, gs) => let m := { l with tableHead := some x }
        (s.readDone l m gs).loadNodes m x
/-- The lease list of a launch is read and checked, then its node table (R354, R357). -/
def State.loadLists (s : State) (l : Launch) : State :=
  match s.readLeases l l.hdr with
  | .error e => s.schedStop l e
  | .ok (ls, gs) => let m := { l with leases := ls, phase := .tabling }
    (s.readDone l m gs).loadTable m
/-- The header of a launch is read, once, and checked (R353, R354); a PASID of MODE 0 refuses it (12 R385). -/
def State.loadHeader (s : State) (l : Launch) : State :=
  if s.pasidVoid l.hdr.pasid then s.endLaunch l.id 5 8
  else match s.schedRead l l.hdr.entry 256 with
    | .error e => s.schedStop l e
    | .ok (x, gs) =>
      let h := Header.ofNum x l.hdr.privileged l.hdr.pasid
      match s.headerBad x h l.hdr.tenant with
      | some r => s.endLaunch l.id 5 r
      | none =>
        let m := { l with hdr := h, phase := .listing }
        (s.readDone l m gs).loadLists m
/-- The scheduler goes on with the reads of a launch. -/
def State.loadLaunch (s : State) (l : Launch) : State :=
  match l.phase with
  | .reading => s.loadHeader l
  | .listing => s.loadLists l
  | .tabling => s.loadTable l
  | _ => s

/-! ### Entries (R350 to R352, R355) -/

/-- 11 R350 (`.word` queue and value): a store to the tail word's line, and the scheduler's reading of it. -/
def execTailWordWrite (s : State) : Answer :=
  .next (match s.arg with
  | .word q x => match s.queue? q with
    | none => s
    | some c => (((if s.numPa c.cfg.tailPa 4 = x.toNat then s else s.report c.cfg.tailPa (leBytes 4 x.toNat)).modQueue q fun c =>
        { c with tail := x }).homeLoad 0 (.pa c.cfg.tailPa) 4).statusQ q 0 x.toNat
  | _ => s)
/-- The header that stands for one not yet read: the queue's fields, HDR in `entry`. -/
def Header.unread (c : QueueCfg) (hdr : W64) : Header :=
  { Header.ofNum 0 c.privileged c.pasid with entry := hdr, tenant := c.tenant }
/-- The dependences that have to be followed: all but those 4,097 or more numbers back (R355). -/
def liveDeps (newest : W32) (deps : List W32) : List W32 :=
  deps.filter fun q => let d := (newest - q).toNat; !(decide (4097 ≤ d) && decide (d < 2 ^ 31))
/-- A queue stops: STOPR, then the event (R352; 13 R416). -/
def State.stopQueue (s : State) (q why : Nat) (seq : Nat) : State :=
  ((s.modQueue q fun c => { c with stop := BitVec.ofNat 8 why }).statusQ q 5 why).event 3 why q seq
/-- Why an entry is not accepted (R352; 13 R415). -/
def entryBad (e : Nat) (next : W32) : Option Nat :=
  let hdr := BitVec.ofNat 64 (bits e 127 64)
  let crec := BitVec.ofNat 64 (bits e 319 256)
  if BitVec.ofNat 32 (bits e 31 0) ≠ next then some 1
  else if bits e 1023 320 ≠ 0 ∨ bits e 63 36 ≠ 0 then some 2
  else if hdr.toNat % 256 ≠ 0 ∨ crec.toNat % 16 ≠ 0 ∨ !canonical hdr ∨ !canonical crec then some 3
  else none
/-- The next entry of a queue is accepted and its header read, or the queue stops. -/
def State.acceptEntry (s : State) (q : Queue) : State :=
  let pa := q.cfg.base + 128 * (q.read % q.cfg.count)
  if !s.schedKeyOk q.cfg.tenant pa || (s.errorAt (.pa pa) 128).isSome then s.stopQueue q.no 4 (s.pick 2)
  else
    let s := s.homeLoad 0 (.pa pa) 128
    let e := s.numPa pa 128
    match entryBad e (q.accepted + 1) with
    | some why => s.stopQueue q.no why (bits e 31 0)
    | none =>
      let seq := q.accepted + 1
      let deps := ((List.range 4).filter fun k => e.testBit (32 + k)).map fun k => BitVec.ofNat 32 (bits e (159 + 32 * k) (128 + 32 * k))
      let l := Launch.start s.ctr.launch q.no seq (BitVec.ofNat 64 (bits e 319 256)) (liveDeps seq deps)
        (.unread q.cfg (BitVec.ofNat 64 (bits e 127 64))) .reading
      let s : State := { s with launches := s.launches ++ [l], ctr := { s.ctr with launch := l.id + 1 } }
      ((s.modQueue q.no fun c => { c with accepted := seq, read := c.read + 1 }).statusQ q.no 1 seq.toNat).loadHeader l
/-- 11 R352 (`.id` the queue; `.two` queue and launch: its reads go on). -/
def execLaunchEntryAccept (s : State) : Answer :=
  .next (match s.arg with
  | .id q => match s.queue? q with
    | some c => if c.stop = 0 ∧ BitVec.ofNat 32 c.read ≠ c.tail then s.acceptEntry c else s
    | none => s
  | .two _ id => match s.launch? id with
    | some l => if !l.halting && !s.agentBusy (.sched id) then s.loadLaunch l else s
    | none => s
  | _ => s)

/-- How a dependence stands: satisfied, failed, or neither yet. -/
inductive DepSt where
  | ready | failed | open
  deriving DecidableEq, Repr
/-- A dependence of a launch (R355): a number not yet accepted waits, one that was accepted is tracked; an accepted number that no launch carries is taken
as satisfied (log entry 73). -/
def State.depSt (s : State) (l : Launch) (q : W32) : DepSt :=
  if (s.queue? l.queue).any fun c => decide (2 ^ 31 ≤ (c.accepted - q).toNat) then .open
  else match s.launchOf l.queue q with
    | some m => if m.triggered then .ready else if m.phase == .done then .failed else .open
    | none => .ready
/-- 11 R355 (`.id` the launch): set-up begins, or the launch is cancelled. -/
def execDependenceSatisfied (s : State) : Answer :=
  .next (match s.arg with
  | .id id => match s.launch? id with
    | some l =>
      if l.phase != .waiting || l.halting then s
      else if l.deps.any fun q => s.depSt l q == .failed then s.endLaunch id 4 0
      else if l.deps.all fun q => s.depSt l q == .ready then s.modLaunch id fun l => { l with phase := .pending }
      else s
    | none => s
  | _ => s)

/-! ### Lease set-up (R357, R358) -/

/-- What set-up needs of a page: the leased kinds together, and whether it belongs to a pool. -/
structure LeasePage where
  vpage : Nat
  acc : BitVec 2
  pool : Bool
  deriving DecidableEq, Repr
/-- The pages of a launch's leases and pools, rising. -/
def Launch.setupPages (l : Launch) : List LeasePage :=
  let pool (p : Nat) : Bool := l.nodes.any fun n => decide (n.poolPages.1 ≤ p ∧ p ≤ n.poolPages.2)
  let pages := (l.leases.flatMap fun r => (List.range r.count).map (· + r.first)) ++
    l.nodes.flatMap fun n => (List.range (n.poolPages.2 + 1 - n.poolPages.1)).map (· + n.poolPages.1)
  (sortNat (dedup pages)).map fun p => ⟨p, (l.leaseAcc p).getD 0, pool p⟩
/-- What the leaf of a page must permit. -/
def LeasePage.uses (p : LeasePage) : List Use :=
  (if p.acc.getLsbD 0 then [Use.read] else []) ++ (if p.acc.getLsbD 1 || p.pool then [Use.write] else [])
/-- A page is translated for the extent table; pool pages lie under key 0 or the tenant's (R358). -/
def State.setupPage (s : State) (l : Launch) (p : LeasePage) : Except AccFault (Extent × Seg) :=
  let va := BitVec.ofNat 64 (p.vpage * 4096)
  match p.uses.findSome? fun u => match s.leaf l.hdr.pasid l.hdr.privileged u va with
      | .error f => some f
      | .ok _ => none with
  | some f => .error f
  | none => match s.leaf l.hdr.pasid l.hdr.privileged (if p.acc.getLsbD 0 then .read else .write) va with
    | .error f => .error f
    | .ok x => match s.place .read va false l.hdr.pasid x with
      | .error f => .error f
      | .ok m =>
        if !canonical va || inWindow va then .error (.page 3 va)
        else if p.pool && !s.schedKeyOk l.hdr.tenant m.pa then .error (.key va)
        else .ok (⟨p.vpage, x.ppage, 1, p.acc, x.io, x.buf⟩, { m.seg va 0 with fill := none })
/-- Does a page continue a run: in both spaces, of one kind (R357)? -/
def Extent.continues (a b : Extent) : Bool :=
  b.vpage == a.vpage + a.count && b.acc == a.acc && b.io == a.io && b.buf == a.buf && (if a.buf.isSome then true else b.ppage == a.ppage + a.count)
/-- Single pages as runs. -/
def joinExtents (xs : List Extent) : List Extent :=
  xs.foldl (fun acc x => match acc.getLast? with
    | some a => if a.continues x then acc.dropLast ++ [{ a with count := a.count + 1 }] else acc ++ [x]
    | none => [x]) []
/-- 11 R358 (`.id` the launch): LIVE, a fault to serve, LEASEFAIL, or REFUSED 0x09. -/
def execLeaseSetupDone (s : State) : Answer :=
  .next (match s.arg with
  | .id id => match s.launch? id with
    | some l =>
      if l.phase != .pending || l.halting || s.agentBusy (.sched id) then s
      else match l.setupPages.mapM (s.setupPage l) with
        | .error f => (s.schedServe l .read f).getD (s.endLaunch id 6 0)
        | .ok xs =>
          let es := joinExtents (xs.map (·.1))
          if es.length > 64 then s.endLaunch id 5 9
          else ((s.dropWait (.sched id)).useSegs (xs.map (·.2))).modLaunch id fun l => { l with phase := .live, extents := es, waitSince := s.clock }
    | none => s
  | _ => s)

/-! ### Placement (R360), trigger and completion (R356) -/

/-- 11 R360 (`.two` launch and core): the first launch in order of class and acceptance that has a block that fits. -/
def execBlockPlace (s : State) : Answer :=
  .next (match s.arg with
  | .two id core => match s.launch? id with
    | some l =>
      if !l.wantsBlock || !s.coreOpen core || s.yieldsTo l core || s.launches.any (fun m => m.before l && !(s.blockCores m).isEmpty) then s
      else (s.tryBlock l core).getD s
    | none => s
  | _ => s)

/-- The live threads of a launch: in warps, saved or not, and in pools. -/
def State.liveThreads (s : State) (id : Nat) : List Lane :=
  let bs := (s.blocks ++ s.contexts.flatMap (·.blocks)).filter fun b => b.launch == id
  (s.warps ++ s.contexts.flatMap (·.warps)).flatMap (fun w => if bs.any fun b => b.id == w.block then w.live.map w.lane else [])
    ++ bs.flatMap fun b => b.pool.map (·.lane)
/-- Every block has been placed, and no record waits in a bin, for a slot, or in a receive slot. -/
def State.noneWaiting (s : State) (l : Launch) : Bool :=
  decide (l.nextBlock = l.hdr.blocks) && l.records.isEmpty && l.senders.isEmpty && !(s.endpoints.any fun e => e.launch == l.id && !e.held.isEmpty)
/-- May the launch trigger (R356)? -/
def State.canTrigger (s : State) (l : Launch) : Bool :=
  l.phase == .live && !l.halting && !l.triggered && s.noneWaiting l && (s.liveThreads l.id).all fun t => t.triggered
/-- 11 R356 (`.id` the launch): its dependants may start. -/
def execLaunchTrigger (s : State) : Answer :=
  .next (match s.arg with
  | .id id => match s.launch? id with
    | some l => if s.canTrigger l then (s.modLaunch id fun l => { l with triggered := true }).moveMarks l.queue else s
    | none => s
  | _ => s)

/-- Has everything that the launch sent to an engine ended (R356)? -/
def State.commandsDone (s : State) (id : Nat) : Bool :=
  !(s.engines.any fun c => c.launch == id) && !(s.crucible.colls.any fun k => k.cmd.launch == id) && !(s.quads.ops.any fun o => o.launch == id)
/-- Has a warp of a stopped launch let go of what it had issued and staged (05 R191)? A record that waits for a pool is dropped with the launch. -/
def Warp.quiet (w : Warp) : Bool :=
  w.spec.window.isEmpty && w.spec.ckpt.isNone && w.remoteOpen == 0 && w.spec.order.isEmpty && w.spec.cmds.isEmpty && w.spec.emits.isEmpty
/-- May the launch complete: every block has ended, or a stopped launch has let go of what was sent (05 R191; 11 R356)? -/
def State.canComplete (s : State) (l : Launch) : Bool :=
  l.phase != .done && s.commandsDone l.id && !s.agentBusy (.sched l.id) && l.orphans.isEmpty &&
  if l.halting then s.blocks.all fun b => b.launch != l.id || ((s.blockWarps b.id).all Warp.quiet)
  else l.triggered && s.noneWaiting l && !(s.blocks ++ s.contexts.flatMap (·.blocks)).any fun b => b.launch == l.id
/-- A completion record (R356). -/
def Launch.record (l : Launch) (clock : Nat) : List Byte :=
  leBytes 16 ((if l.halting then l.stat.toNat else 1) + (if l.halting then l.reason.toNat else 0) * 256 + l.seq.toNat * 2 ^ 32
    + clock % 2 ^ 64 * 2 ^ 64)
/-- An endpoint is unbound: the records that it holds are refused, its senders get a revoke (13 R432). -/
def State.unbind (s : State) (ep : Nat) : State :=
  match s.endpoints.find? fun e => e.ep == ep with
  | none => s
  | some e =>
    let t : State := { s with endpoints := s.endpoints.filter fun x => x.ep != ep }
    e.senders.foldl (fun t p => t.tellPkg p 0 (.revoke ep)) (e.held.foldl (fun t h => t.tellPkg h.src 0 (.recordAck ep h.rseq false)) t)
/-- What a launch held goes (R356, R358): blocks, warps, requests, records, endpoints; an `rfwd` of this package whose record still waited for a slot ends
FAILED (08 R283). -/
def State.releaseLaunch (s : State) (l : Launch) : State :=
  let bs := s.blocks.filter fun b => b.launch == l.id
  let ws := (s.warps.filter fun w => bs.any fun b => b.id == w.block).map (·.id)
  let s := l.senders.foldl (fun s x => match x.warp with
    | some w => s.modAnyWarp w fun w =>
        let w := { w with spec := { w.spec with sending := w.spec.sending - 1 } }
        match x.lane with | some l => w.settleLane l 3 | none => w
    | none => s) s
  let s : State := { s with
    warps := s.warps.filter fun w => !ws.contains w.id
    launches := s.launches.map fun m => { m with senders := m.senders.filter fun x => !(x.warp.any fun w => ws.contains w) }
    fetched := s.fetched.filter fun x => match x.1 with
      | .warp w | .tongs w | .ray w _ => !ws.contains w
      | .stream b => !bs.any fun x => x.id == b
      | _ => true
    rays := s.rays.filter fun r => !ws.contains r.warp
    faultWaits := s.faultWaits.filter fun f => f.launch != l.id
    quads := { s.quads with nnReqs := s.quads.nnReqs.filter fun r => r.launch != l.id, tiles := s.quads.tiles.filter fun t => t.launch != l.id } }
  let s := bs.foldl State.retireBlock s
  (s.endpoints.filter fun e => e.launch == l.id).foldl (fun s e => s.unbind e.ep) s
/-- The launch has completed: what depends on it and the status page follow. -/
def State.completed (s : State) (l : Launch) : State :=
  (((s.dropWait (.sched l.id)).releaseLaunch l).modLaunch l.id fun l =>
    { l with phase := .done, extents := [], records := [], senders := [], remains := [] }).moveMarks l.queue
/-- The completion record could not be written (R356). -/
def State.recordFailed (s : State) (l : Launch) : State :=
  (s.event 0xA (if l.halting then l.stat.toNat else 1) l.crec.toNat l.eventName).completed l
/-- 11 R356 (`.id` the launch). -/
def execLaunchComplete (s : State) : Answer :=
  .next (match s.arg with
  | .id id => match s.launch? id with
    | some l =>
      if !s.canComplete l then s
      else if l.crec = 0 then s.completed l
      else match s.schedReach l .write l.crec 16 with
        | .error f => (s.schedServe l .write f).getD (s.recordFailed l)
        | .ok gs =>
          if gs.any fun g => g.remote || g.regs then s.recordFailed l
          else match s.agentPrep l.sched [] gs with
            | some t => t
            | none => ((s.useSegs gs).engineWrites 0 0 false gs (l.record s.clock)).completed l
    | none => s
  | _ => s)

end Sys2Proof.Machine
end

