-- ==== Sys2Proof/Machine/Hearth.lean ====
section
/-! DEFINITION. The Hearth: boot and resets (14 R434), the mailbox and its commands (R435 to R439), power (R440), the targeted self-test (12 R411). -/
namespace Sys2Proof.Machine

/-! ### Boot (R434) -/

/-- Does the boot get past a stage? -/
def passes (fail : Option BootFail) (stage : Nat) : Bool := match fail with | some f => decide (stage < f.stage) | none => true
/-- The state after the stages of the boot, or at the stage that failed, which has no effect of its own, nor has a later one: the mailbox shows the stage in
SSEQ and the reason in RSN (log entry 84). What survives is host memory, the Hearth's error log, what the outside world still sends, and the package's
number. -/
def State.reboot (s : State) (fail : Option BootFail) (resets : Nat) : State :=
  let clear := passes fail 1
  { State.reset with
    free := s.free
    agenda := s.blocked ++ s.agenda
    boot := ⟨fail, if passes fail 0 then sha3 (Config.firmware (s.free + 1) 0) else 0, if passes fail 2 then sha3 (Config.firmware (s.free + 1) 1) else 0⟩
    mailbox := match fail with
      | some f => { State.reset.mailbox with sseq := BitVec.ofNat 8 f.stage, rsn := f.reason }
      | none => State.reset.mailbox
    pkg := s.pkg
    mem := if clear then s.mem.filter (fun c => isHost c.1) else s.mem
    keys := if clear then [] else s.keys
    badLines := if clear then [] else s.badLines
    quads := if passes fail 3 then State.reset.quads else { State.reset.quads with acc := s.quads.acc }
    status := ⟨none, 0, if fail.isSome then resets else resets + 1⟩
    errorLog := s.errorLog
    ports := { State.reset.ports with hostLosses := s.ports.hostLosses }
    out := s.out }
/-- A boot may fail at the stages 0 to 3. -/
def bootFails : Option BootFail → Bool
  | none => true
  | some f => decide (f.stage < 4)
/-- Modified sectors that cannot be written back are lost: what the host's memory holds there is open (log entry 6). -/
def State.loseSectors (s : State) : State :=
  let lost := s.modifiedSectors
  if lost = [] then s
  else
    let t := lost.foldl (fun (t : State) a => t.writePa a ((List.range 64).map fun i => BitVec.ofNat 8 (s.pick (2 ^ 77 + a + i)))) s
    { t with errorLog := t.errorLog ++ [(0xFF, lost.length)] }
/-- 14 R434 (`.boot` how the boot ends). -/
def execPowerOn (s : State) : Answer :=
  .next (match s.arg with
  | .boot f => if bootFails f then s.loseSectors.reboot f 0 else s
  | _ => s)
/-- 14 R434, 13 R414 (`.boot` how the boot ends): host sectors are written back and HBM lines recalled before any state is lost, and the reset waits for
the host; with the link lost they go. -/
def execPackageReset (s : State) : Answer :=
  .next (match s.arg with
  | .boot f =>
    if !bootFails f then s
    else if s.ports.hostUp then s.resetThen .packageReset fun t => t.reboot f s.status.resets
    else s.loseSectors.reboot f s.status.resets
  | _ => s)

/-! ### The mailbox (R435 to R437) -/

/-- How a command ends: refused, done with results, ended part way, or still under way. -/
inductive MbEnd where
  | refused (rsn : Nat)
  | done (s : State) (results : List Byte)
  | failed (s : State) (rsn : Nat)
  | busy
/-- Bytes in ARGS, of 3,840 bytes, from an offset in it on (R435). -/
def Mailbox.putArgs (m : Mailbox) (off : Nat) (bs : List Byte) : Mailbox :=
  let old := m.args ++ List.replicate (off - m.args.length) (0 : Byte)
  { m with args := (old.take off ++ bs ++ old.drop (off + bs.length)).take 3840 }
/-- The mailbox after a command that ended as told: its results overwrite ARGS from offset 0x100 (R436). -/
def Mailbox.report (m : Mailbox) (st rsn : Nat) (res : List Byte) : Mailbox :=
  { m.putArgs 0 res with st := BitVec.ofNat 8 st, sseq := m.cseq, rsn := BitVec.ofNat 16 rsn, pending := none }
/-- A byte of the mailbox's region (R435). -/
def Mailbox.byteAt (m : Mailbox) (off : Nat) : Byte :=
  let part {n : Nat} (x : BitVec n) (k : Nat) : Byte := BitVec.ofNat 8 (x.toNat / 256 ^ k)
  match off with
  | 0 => m.code | 1 => m.cseq | 8 => m.st | 9 => m.sseq
  | _ =>
    if off < 4 then part m.alen (off - 2)
    else if off < 8 then part m.rsvd (off - 4)
    else if 10 ≤ off ∧ off < 12 then part m.rsn (off - 10)
    else if 0x100 ≤ off then m.args.getD (off - 0x100) 0
    else 0
/-- A byte that the driver writes, but for CODE: what the region does not list as writable takes none (R435). -/
def Mailbox.putByte (m : Mailbox) (off : Nat) (x : Byte) : Mailbox :=
  let part {n : Nat} (y : BitVec n) (k : Nat) : BitVec n := (y &&& ~~~(BitVec.ofNat n 0xFF <<< (8 * k))) ||| (x.setWidth n <<< (8 * k))
  if off = 1 then { m with cseq := x }
  else if 2 ≤ off ∧ off < 4 then { m with alen := part m.alen (off - 2) }
  else if 4 ≤ off ∧ off < 8 then { m with rsvd := part m.rsvd (off - 4) }
  else if 0x100 ≤ off ∧ off < 0x1000 then m.putArgs (off - 0x100) [x]
  else m
/-- A command: ignored and counted while another runs; refused out of range, then by a rule; else carried out (R436, R437). -/
def State.mailboxRun (s : State) (h : MbHead) (code : Nat) (c : MbArgs) (inRange : Bool) (run : MbEnd) : State :=
  if s.mailbox.st = 1 then { s with telemetry := { s.telemetry with ignored := s.telemetry.ignored + 1 } }
  else
    let m := { s.mailbox with code := BitVec.ofNat 8 code, cseq := h.cseq, alen := h.alen }
    if h.alen.toNat > 3840 ∨ !inRange then { s with mailbox := m.report 3 2 [] }
    else match run with
      | .refused r => { s with mailbox := m.report 3 r [] }
      | .done t res => { t with mailbox := m.report 2 0 res }
      | .failed t r => { t with mailbox := m.report 3 r [] }
      | .busy => { s with mailbox := { m with st := 1, sseq := m.cseq, rsn := 0, pending := some c } }
/-- A rule that refuses with RSN 0x0005, or the effects. -/
def refusedIf (bad : Bool) (t : State) (res : List Byte := []) : MbEnd := if bad then .refused 5 else .done t res

/-- Is a number a power of two within bounds? -/
def powerWithin (n lo hi : Nat) : Bool := decide (lo ≤ n ∧ n ≤ hi) && n == 2 ^ n.log2
/-- Do `n` bytes lie in HBM? -/
def inHbm (a n : Nat) : Bool := decide (a + n ≤ Config.hbmBytes)
/-- Do `n` bytes lie in host memory? -/
def inHost (a n : Nat) : Bool := isHost a && isHost (a + n - 1) && decide (a < 2 ^ 51)
/-- Do `n` bytes lie in host memory or in HBM? -/
def hostOrHbm (a n : Nat) : Bool := inHbm a n || inHost a n
/-- Does a range of HBM lie under key index 0? -/
def State.deviceKeyed (s : State) (a n : Nat) : Bool := (List.range (n / 4096 + 1)).all fun i => s.keyOf (min (a + 4096 * i) (a + n - 1)) == 0
/-- Is a feature bit accepted? -/
def State.feature (s : State) (k : Nat) : Bool := match s.features with | some f => f.getLsbD k | none => false

/-- 14 R437, 0x01 (`.mailbox`): 12 bits, before features are accepted. -/
def execSetPortRoles (s : State) : Answer :=
  .next (match s.arg with
  | .mailbox h (.setPortRoles r) =>
    s.mailboxRun h 1 (.setPortRoles r) (decide (r < 2 ^ 12))
      (refusedIf s.features.isSome { s with ports := { s.ports with roles := BitVec.ofNat 12 r, rolesSet := true } })
  | _ => s)
/-- 13 R421, 0x02 (`.mailbox`). -/
def execAcceptFeatures (s : State) : Answer :=
  .next (match s.arg with
  | .mailbox h (.acceptFeatures f) =>
    s.mailboxRun h 2 (.acceptFeatures f) true (refusedIf (f &&& ~~~Config.offered != 0 || !f.getLsbD 0 || s.features.isSome || (!f.getLsbD 6 && s.ports.roles != 0))
      ({ s with features := some f }.status32 16 1))
  | _ => s)
/-- Do two words of 4 bytes stand in lines of their own? -/
def ownWord (a : Nat) : Bool := a % 4 == 0 && hostOrHbm (a / 128 * 128) 128
/-- 11 R349, 13 R415, 0x03 (`.mailbox`). -/
def execRegisterLaunchQueue (s : State) : Answer :=
  .next (match s.arg with
  | .mailbox h (.registerLaunchQueue q c) =>
    let ok := decide (q < 16) && c.base % 4096 == 0 && powerWithin c.count 16 65536 && hostOrHbm c.base (128 * c.count) && ownWord c.tailPa
    let n := match s.queue? q with | some x => x.regn + 1 | none => 1
    let x : Queue := ⟨q, c, 0, c.s0 - 1, 0, n, 0, c.s0 - 1, c.s0 - 1⟩
    let t : State := { s with queues := s.queues.filter (fun y => y.no != q) ++ [x] }
    s.mailboxRun h 3 (.registerLaunchQueue q c) ok (refusedIf s.features.isNone (t.statusRecord q))
  | _ => s)
/-- 12 R392, 0x04 (`.mailbox`): faults that wait in a queue registered again join the new one. -/
def execRegisterFaultQueue (s : State) : Answer :=
  .next (match s.arg with
  | .mailbox h (.registerFaultQueue fq c) =>
    let ok := decide (fq < 4) && c.base % 4096 == 0 && powerWithin c.count 64 65536 && inHbm c.base (32 * c.count) && ownWord c.tailPa && ownWord c.headPa &&
      c.tailPa / 128 != c.headPa / 128
    let t : State := { s with
      faultQs := s.faultQs.filter (fun y => y.no != fq) ++ [⟨fq, c, 0, 0⟩]
      faultWaits := s.faultWaits.map fun f : FaultWait => match f.place with | .entry k _ => if k = fq then { f with place := .room fq } else f | _ => f }
    s.mailboxRun h 4 (.registerFaultQueue fq c) ok (refusedIf (!s.deviceKeyed c.base (32 * c.count)) (t.roomFaults fq))
  | _ => s)
/-- 13 R415, 0x05 (`.mailbox`): the page shows what stands. -/
def execRegisterStatusPage (s : State) : Answer :=
  .next (match s.arg with
  | .mailbox h (.registerStatusPage pa) =>
    let t : State := { s with status := { s.status with page := some pa } }
    s.mailboxRun h 5 (.registerStatusPage pa) (pa % 4096 == 0 && hostOrHbm pa 4096) (refusedIf (inHbm pa 4096 && s.keyOf pa != 0) t.statusPage)
  | _ => s)
/-- 13 R418, 0x06 (`.mailbox`): entries in HBM lie under key index 0, as those of a fault queue (12 R392). -/
def execRegisterEventQueue (s : State) : Answer :=
  .next (match s.arg with
  | .mailbox h (.registerEventQueue c) =>
    let ok := c.base % 4096 == 0 && powerWithin c.count 64 65536 && hostOrHbm c.base (32 * c.count) && ownWord c.tailPa && ownWord c.headPa && c.tailPa / 128 != c.headPa / 128
    s.mailboxRun h 6 (.registerEventQueue c) ok (refusedIf (inHbm c.base (32 * c.count) && !s.deviceKeyed c.base (32 * c.count))
      { s with eventQ := some ⟨c, 0, 0, 0, 0⟩ })
  | _ => s)
/-- 12 R385, 13 R421, 0x07 (`.mailbox`). -/
def execSetPasidContext (s : State) : Answer :=
  .next (match s.arg with
  | .mailbox h (.setPasidContext p e) =>
    let x := e.toNat
    let bad := (ctxMode e == 1 && !s.faultQs.any fun q => q.no == ctxFq e) || (ctxMode e == 2 && !s.feature 1) || (ctxMode e == 3 && !s.feature 2)
    s.mailboxRun h 7 (.setPasidContext p e) (bits x 127 110 == 0 && bits x 63 2 == 0) (refusedIf bad
      { s with pasids := s.pasids.filter (fun y => y.1 != p) ++ [(p, e)], digests := s.digests ++ [sha3 (leBytes 16 x)] })
  | _ => s)
/-- Bytes that the Hearth takes from host memory for a command (R437). -/
def State.bulk (s : State) (src n : Nat) : State × List Byte := (s.homeLoad 0 (.pa src) n, s.readPa src n)
/-- Bytes of an ML-DSA-65 public key. -/
def publicKeyBytes : Nat := 1952
/-- 14 R437, 0x08 (`.mailbox`): the key material, `n` bytes in host memory, is the public key and then the wrapped AES key (log entry 10). -/
def execMapTenant (s : State) : Answer :=
  .next (match s.arg with
  | .mailbox h (.mapTenant t k src n) =>
    let (u, bs) := s.bulk src n
    s.mailboxRun h 8 (.mapTenant t k src n) (decide (1 ≤ k ∧ k ≤ 127 ∧ publicKeyBytes ≤ n) && inHost src n)
      (.done { u with tenants := s.tenants.filter (fun y => y.no != t) ++ [⟨t, k, bs.take publicKeyBytes, bs.drop publicKeyBytes⟩] } [])
  | _ => s)
/-- 10 R341, 0x09 (`.mailbox`): the page is zeros under its new key before the command completes. -/
def execReKeyPage (s : State) : Answer :=
  .next (match s.arg with
  | .mailbox h (.reKeyPage page k) =>
    s.mailboxRun h 9 (.reKeyPage page k) (decide (k ≤ 127) && inHbm (page * 4096) 4096) (.done (s.reKey (page * 4096) k) [])
  | _ => s)

/-- Does a table entry keep the rules (13 R423)? -/
def State.routeOk (s : State) (dst : Nat) (e : W32) : Bool :=
  bits e.toNat 31 21 == 0 && (!e.getLsbD 20 || (dst != s.pkg && (List.range (bits e.toNat 17 16 + 1)).all fun i =>
    let p := bits e.toNat (4 * i + 3) (4 * i)
    decide (p < 12) && s.ports.roles.getLsbD p))
/-- Ordered packets that have no acknowledgement (13 R425): accesses of lanes, and reads that other agents make of a source on a peer. -/
def State.orderedOpen (s : State) : Bool := s.remotes.any fun r => r.target != s.pkg && r.cmd.isNone && (decide (r.lane < 64) || r.reader.isSome)
/-- The new routes. -/
def State.setRoutes (s : State) (es : List W32) : State :=
  { s with routes := es, digests := s.digests ++ [sha3 (es.flatMap fun e => leBytes 4 e.toNat)] }
/-- The 128 entries of a route table of 512 bytes in host memory. -/
def State.routeTable (s : State) (src : Nat) : State × List W32 :=
  let (t, bs) := s.bulk src 512
  (t, (List.range 128).map fun i => BitVec.ofNat 32 (leNat ((bs.drop (4 * i)).take 4)))
/-- A route table is loaded, is refused for one of its entries, or waits for acknowledgements (13 R423, R425). -/
def State.loadRoutes (s : State) (src : Nat) : MbEnd :=
  let (t, es) := s.routeTable src
  if !(es.zipIdx.all fun (e, i) => s.routeOk i e) then .refused 5
  else if s.orderedOpen then .busy
  else .done (t.setRoutes es) []
/-- A command that was under way looks again. -/
def State.mailboxAgain (s : State) : MbEnd → State
  | .refused r => { s with mailbox := s.mailbox.report 3 r [] }
  | .done t res => { t with mailbox := s.mailbox.report 2 0 res }
  | .failed t r => { t with mailbox := s.mailbox.report 3 r [] }
  | .busy => s
/-- 13 R423, R425, 0x0A (`.mailbox`; `.none`: the load that waited for its acknowledgements goes on). -/
def execLoadRouteTable (s : State) : Answer :=
  .next (match s.arg, s.mailbox.pending with
  | .mailbox h (.loadRouteTable src), _ => s.mailboxRun h 10 (.loadRouteTable src) (inHost src 512) (s.loadRoutes src)
  | .none, some (.loadRouteTable src) => s.mailboxAgain (s.loadRoutes src)
  | _, _ => s)

/-- The launch that a binding names: running, with the node (13 R432). -/
def State.boundLaunch (s : State) (c : BindCfg) : Option Launch :=
  match s.launchOf c.queue c.lseq with
  | some l => if l.phase == .live && !l.halting && decide (c.node < l.nodes.length) then some l else none
  | none => none
/-- Receive slots in use, but for an endpoint. -/
def State.slotsUsed (s : State) (ep : Nat) : Nat := ((s.endpoints.filter fun e => e.ep != ep).map fun e => e.slots * e.senders.length).foldl (fun a b => a + b) 0
/-- 13 R432, 0x0B (`.mailbox`). -/
def execBindEndpoint (s : State) : Answer :=
  .next (match s.arg with
  | .mailbox h (.bindEndpoint c) =>
    let held := s.endpoints.any fun e => e.ep == c.ep && !e.held.isEmpty
    let run : MbEnd :=
      if !s.feature 5 || held then .refused 5
      else if !c.bind then .done (s.unbind c.ep) []
      else match s.boundLaunch c with
        | none => .refused 5
        | some l =>
          if s.slotsUsed c.ep + c.slots * c.senders.length > Config.receiveSlots then .refused 5
          else
            let t := s.unbind c.ep
            .done (c.senders.foldl (fun (t : State) p => t.tellPkg p 0 (.grant c.ep c.slots))
              { t with endpoints := t.endpoints ++ [⟨c.ep, l.id, c.node, l.hdr.tenant, c.senders, c.slots, []⟩]
                       seen := t.seen.filter fun x => x.1 != c.ep }) []
    s.mailboxRun h 11 (.bindEndpoint c) (decide (c.ep < 16) && (!c.bind || (decide (1 ≤ c.slots ∧ c.slots ≤ 255) && decide (c.node < 64) && decide (c.queue < 16) &&
      c.senders.all (fun p => decide (p < 128)) && decide (dedup c.senders = c.senders)))) run
  | _ => s)
/-- 14 R437, 0x0C (`.mailbox`): areas and pages in HBM; a core that is named gets new trace pages (12 R408). -/
def execSetPools (s : State) : Answer :=
  .next (match s.arg with
  | .mailbox h (.setPools c) =>
    let ok := (c.backing ++ c.saves).all (fun a => inHbm a 1 && a % 64 == 0) &&
      c.trace.all fun x => decide (x.1 < Config.cores) && x.2.length == 16 && x.2.all fun a => inHbm a 4096 && a % 4096 == 0
    let t : State := { s with pools := ⟨c.backing, c.saves⟩ }
    s.mailboxRun h 12 (.setPools c) ok (.done (c.trace.foldl (fun (t : State) (x : Nat × List Nat) =>
      t.modCore x.1 fun k => { k with pages := x.2.map fun a => ⟨a, none, 0, 0⟩ }) t) [])
  | _ => s)
/-- 10 R339, 13 R421, 0x0D (`.mailbox`). -/
def execSetLarderSize (s : State) : Answer :=
  .next (match s.arg with
  | .mailbox h (.setLarderSize n) =>
    s.mailboxRun h 13 (.setLarderSize n) (decide (n ≤ 16)) (refusedIf ((s.launches.any fun l => l.phase == .live || l.phase == .ended) || (decide (0 < n) && !s.feature 8))
      (State.trimL2 { s with larder := { s.larder with units := n, lines := s.larder.lines.take (larderCap n) } }))
  | _ => s)
/-- 07 R261, 0x0E (`.mailbox`): quad 0xFF is every quad. -/
def execSetTongsTimer (s : State) : Answer :=
  .next (match s.arg with
  | .mailbox h (.setTongsTimer q t) =>
    let qs := if q = 0xFF then List.range 48 else [q]
    s.mailboxRun h 14 (.setTongsTimer q t) ((decide (q < 48) || q == 0xFF) && decide (1 ≤ t ∧ t ≤ 32))
      (.done { s with quads := { s.quads with timers := s.quads.timers.filter (fun x => !qs.contains x.1) ++ qs.map fun k => (k, 256 * t) } } [])
  | _ => s)
/-- 14 R440, 0x0F (`.mailbox`). -/
def execSetThermalLimits (s : State) : Answer :=
  .next (match s.arg with
  | .mailbox h (.setThermalLimits cap lim) =>
    s.mailboxRun h 15 (.setThermalLimits cap lim) (decide (1000 ≤ cap ∧ cap ≤ 2600) && decide (70 ≤ lim ∧ lim ≤ 105))
      (.done { s with thermal := { s.thermal with capW := cap, thresholdC := lim, belowSince := if cap < s.thermal.capW then none else s.thermal.belowSince } } [])
  | _ => s)
/-- The report of `Attest` before its signature (14 R438). -/
def State.attestation (s : State) (nonce : BitVec 512) : List Byte :=
  leBytes 48 s.boot.m0.toNat ++ leBytes 48 s.boot.m1.toNat ++ leBytes 32 ((s.features.map BitVec.toNat).getD 0) ++ leBytes 2 s.ports.roles.toNat
    ++ s.digests.flatMap (fun d => leBytes 48 d.toNat) ++ leBytes 64 nonce.toNat
/-- 14 R438, 0x10 (`.mailbox`): the report, its signature with the identity key, and that key's certificate chain (log entry 16). -/
def execAttest (s : State) : Answer :=
  .next (match s.arg with
  | .mailbox h (.attest n) =>
    let r := s.attestation n
    s.mailboxRun h 16 (.attest n) true (.done s (r ++ Config.mlDsaSign Config.identityKey r (Config.freeBytes (4 * s.free)) ++ Config.certificates))
  | _ => s)
/-- The challenge that a tenant signs (14 R437); the spec does not say how it comes about (log entry 16). -/
def State.challenge (s : State) : List Byte := Config.freeBytes (4 * s.free + 1)
/-- 12 R399, 0x11 (`.mailbox`): the page at the address, for the tenant whose page it is and who signed the challenge. -/
def execReleaseDumpOrTrace (s : State) : Answer :=
  .next (match s.arg with
  | .mailbox h (.releaseDumpOrTrace t pa sig) =>
    let bad := match s.tenants.find? fun x => x.no == t with
      | some x => !mlDsaVerify x.pubKey s.challenge sig || s.keyOf pa != x.key
      | none => true
    s.mailboxRun h 17 (.releaseDumpOrTrace t pa sig) (inHbm pa 1) (refusedIf bad s (s.readPa pa (min 3840 (pa / 4096 * 4096 + 4096 - pa))))
  | _ => s)

/-- Bytes of an image in host memory, or in fabric memory, from where they have been fetched (R231, R232, R439). -/
def State.imagePart (s : State) (src off n : Nat) : State × List Byte :=
  if isFabric src then (s, match s.fetchedAt .hearth src imageBytes with | some (.inr bs) => (bs.drop off).take n | _ => [])
  else s.bulk (src + off) n
/-- A page of an image (10 R343), of its bytes and their trailer: key, whether its tags are right, its bytes. -/
def State.imagePageAt (s : State) (p : Nat) (bs : List Byte) : Nat × Bool × List Byte :=
  let stored := bs.take 4096
  let t := leNat (bs.drop 4096)
  let key := bits t 486 480
  (key, (List.range 32).all fun i => Config.lineTag key (p * 4096 + 128 * i) ((stored.drop (128 * i)).take 128) == BitVec.ofNat 15 (bits t (15 * i + 14) (15 * i)),
    (List.range 32).flatMap fun i => aesXts true (s.memKey key) (32 * p + i) ((stored.drop (128 * i)).take 128))
/-- Pages are restored from `p` up: those whose key is mapped are written, the others are zero and counted; a page whose tags are wrong ends it (R439). -/
def State.restorePages (s : State) (src : Nat) : Nat → Nat → Nat → MbEnd
  | 0, _, skipped => .done s (leBytes 8 skipped)
  | n + 1, p, skipped =>
    let (s, bs) := s.imagePart src (4096 + 4160 * p) 4160
    let x := s.imagePageAt p bs
    let t := s.ownStore (p * 4096) (List.replicate 4096 (0 : Byte))
    if !x.2.1 then .failed s 4
    else if x.1 = 0 ∨ s.tenants.any (fun y => y.key == x.1) then
      ((t.reKey (p * 4096) x.1).ownStore (p * 4096) ((List.range 4096).map fun i => x.2.2.getD i 0)).restorePages src n (p + 1) skipped
    else t.restorePages src n (p + 1) (skipped + 1)
/-- An image is restored; one in fabric memory is fetched first, and one that cannot be read ends like a page that fails its tags (log entry 87). -/
def State.restoreImage (s : State) (src : Nat) : MbEnd :=
  if !s.queues.isEmpty then .refused 3
  else if !isFabric src then s.restorePages src (Config.hbmBytes / 4096) 0 0
  else match s.fetchedAt .hearth src imageBytes with
    | some (.inr _) => s.restorePages src (Config.hbmBytes / 4096) 0 0
    | some (.inl _) => .failed s 4
    | none => .busy
/-- 14 R439, 0x12 (`.mailbox`; `.none`: one whose image is fetched goes on): refused while a launch queue is registered. -/
def execRestoreMemoryImage (s : State) : Answer :=
  .next (match s.arg, s.mailbox.pending with
  | .mailbox h (.restoreMemoryImage src), _ =>
    let u := s.mailboxRun h 18 (.restoreMemoryImage src) (inHost src imageBytes || (isFabric src && decide (src < 2 ^ 52))) (s.restoreImage src)
    if s.mailbox.st != 1 && u.mailbox.st == 1 then u.sendFetch .hearth 0 src imageBytes else u
  | .none, some (.restoreMemoryImage src) =>
    let t := s.mailboxAgain (s.restoreImage src)
    if t.mailbox.pending.isNone then t.dropFetched .hearth else t
  | _, _ => s)
/-- The code of a command and the move that carries it out. -/
def commandOf : MbArgs → Nat × Instr
  | .setPortRoles _ => (1, .setPortRoles) | .acceptFeatures _ => (2, .acceptFeatures) | .registerLaunchQueue _ _ => (3, .registerLaunchQueue)
  | .registerFaultQueue _ _ => (4, .registerFaultQueue) | .registerStatusPage _ => (5, .registerStatusPage)
  | .registerEventQueue _ => (6, .registerEventQueue) | .setPasidContext _ _ => (7, .setPasidContext) | .mapTenant _ _ _ _ => (8, .mapTenant)
  | .reKeyPage _ _ => (9, .reKeyPage) | .loadRouteTable _ => (10, .loadRouteTable) | .bindEndpoint _ => (11, .bindEndpoint)
  | .setPools _ => (12, .setPools) | .setLarderSize _ => (13, .setLarderSize) | .setTongsTimer _ _ => (14, .setTongsTimer)
  | .setThermalLimits _ _ => (15, .setThermalLimits) | .attest _ => (16, .attest) | .releaseDumpOrTrace _ _ _ => (17, .releaseDumpOrTrace)
  | .restoreMemoryImage _ => (18, .restoreMemoryImage) | .mailboxUnknownCode _ => (0, .mailboxUnknownCode)
/-- A CODE write (R435 to R437): ignored and counted while a command runs; an unknown code is refused before anything else; a command takes its arguments
from ARGS (log entry 10), and one whose arguments do not make sense is refused as out of range. -/
def State.codeWrite (s : State) (code : Byte) : State :=
  let m := { s.mailbox with code := code }
  if m.st = 1 then { s with telemetry := { s.telemetry with ignored := s.telemetry.ignored + 1 } }
  else if !decide (1 ≤ code.toNat ∧ code.toNat ≤ 0x12) then { s with mailbox := m.report 3 1 [] }
  else
    let c := Config.argsOf code.toNat (m.args.take m.alen.toNat)
    if (commandOf c).1 = code.toNat then s.proposeFirst (commandOf c).2 (.mailbox ⟨m.cseq, m.alen⟩ c) else { s with mailbox := m.report 3 2 [] }
/-- 14 R435, R437: a write of the driver to the mailbox's region (`.bytes` offset and bytes); a read of 8 bytes of it (`.access` the offset); a code
that names no command (`.mailbox`). -/
def execMailboxUnknownCode (s : State) : Answer :=
  .next (match s.arg with
  | .bytes off bs =>
    let t : State := { s with mailbox := bs.zipIdx.foldl (fun m x => m.putByte (off + x.2) x.1) s.mailbox }
    match off, bs with
    | 0, code :: _ => t.codeWrite code
    | _, _ => t
  | .access off none => { s with ioResult := BitVec.ofNat 64 (leNat ((List.range 8).map fun i => s.mailbox.byteAt (off + i))) }
  | .mailbox h (.mailboxUnknownCode code) =>
    if 1 ≤ code.toNat ∧ code.toNat ≤ 0x12 then s
    else { s with mailbox := if s.mailbox.st = 1 then s.mailbox else { s.mailbox with cseq := h.cseq, alen := h.alen } }.codeWrite code
  | _ => s)

/-! ### Power (R440) -/

/-- 14 R440 (`.id` the power in mW, averaged over 1 ms): above the cap the arithmetic clock falls by 100 MHz, to 800 MHz at least; above 95% of it power
has not stayed 5% below. -/
def execPowerThrottle (s : State) : Answer :=
  .next (match s.arg with
  | .id mw =>
    let t := { s.thermal with powerMw := mw }
    { s with thermal := if mw > t.capW * 1000 then { t with clockMhz := max 800 (t.clockMhz - 100), belowSince := none }
                        else if mw * 100 > t.capW * 1000 * 95 then { t with belowSince := none } else t }
  | _ => s)
/-- 14 R440 (`.id` the power in mW): once power has stayed 5% below the cap for 10 ms the clock rises again. -/
def execPowerRecover (s : State) : Answer :=
  .next (match s.arg with
  | .id mw =>
    let t := { s.thermal with powerMw := mw }
    { s with thermal :=
        if mw * 100 > t.capW * 1000 * 95 then { t with belowSince := none }
        else match t.belowSince with
          | none => { t with belowSince := some s.clock }
          | some c => if c + tenMilliseconds ≤ s.clock then { t with clockMhz := min 1600 (t.clockMhz + 100), belowSince := some s.clock } else t }
  | _ => s)

/-! ### The targeted self-test (12 R411) -/

/-- The number of a unit in events (13 R419). -/
def testCode : TestUnit → Nat
  | .hbm => 0 | .l2 => 1 | .l1 => 2 | .scratchpad => 3 | .accumulator => 4 | .registerFile => 5
/-- Corrected errors of a unit at a place. -/
def Telemetry.corrected (t : Telemetry) (u : TestUnit) (place : Nat) : Nat :=
  ((t.units.find? fun x => x.1 == (testCode u) && x.2.1 == place).map (·.2.2)).getD 0
/-- An error is counted. -/
def Telemetry.count (t : Telemetry) (u : TestUnit) (place stack : Nat) (corrected : Bool) : Telemetry :=
  let units := if corrected then t.units.filter (fun x => !(x.1 == (testCode u) && x.2.1 == place)) ++ [((testCode u), place, t.corrected u place + 1)] else t.units
  let old := ((t.hbm.find? fun x => x.1 == stack).map (·.2)).getD (0, 0)
  let hbm := if u = .hbm then t.hbm.filter (fun x => x.1 != stack) ++ [(stack, old.1 + corrected.toNat, old.2 + (!corrected).toNat)] else t.hbm
  { t with units := units, hbm := hbm }
/-- A line has an uncorrectable error. -/
def State.spoilLine (s : State) (line reason : Nat) : State :=
  if s.badLines.any fun b => b.1 == line then s else { s with badLines := s.badLines ++ [(line, BitVec.ofNat 8 reason)] }
/-- Data of a unit is lost (12 R379, R411): a line of memory or of a cache is poisoned (10 R342); a page whose frame met the error, a row of an accumulator
slot, a row of a warp's registers are marked. The unit index of the last three is the core or quad times 2^16, and the frame; the slot times 2^8 and the
row (log entry 75). Whether code or tag failed is open (log entry 6). -/
def State.spoilUnit (s : State) (u : TestUnit) (place : Nat) : State :=
  let (k, slot, row) := (place / 65536, place / 256 % 256, place % 256)
  match u with
  | .hbm => s.spoilLine (place / 128) (1 + s.pick 9 % 2)
  | .l2 => s.spoilLine (place / 128) 1
  | .l1 => s.spoilLine (place / 128) 1
  | .scratchpad => { s with blocks := s.blocks.map fun b : Block => if b.core = k then
      { b with pages := b.pages.map fun p : Page => if p.frame = some (place % 65536) then { p with bad := some 5 } else p } else b }
  | .accumulator => { s with quads := { s.quads with acc := s.quads.acc.map fun (q, n, a) =>
      (q, n, if q = k ∧ n = slot then { a with bad := dedup (a.bad ++ [row]) } else a) } }
  | .registerFile => { s with warps := s.warps.map fun w : Warp => if w.core = k ∧ w.slot = slot then { w with badRows := dedup (w.badRows ++ [row]) } else w }
/-- 12 R411 (`.test` unit, physical address or unit index, corrected or not): the test begins; data that could not be corrected is lost. A register row is
tested when its bank is next the empty shadow bank; any other test ends within 2 µs. Which stack a line lies in is open (log entry 6). -/
def execErrorSelftest (s : State) : Answer :=
  .next (match s.arg with
  | .test u place corrected =>
    let s := if corrected then s else s.spoilUnit u place
    { s with
      tests := s.tests ++ [⟨s.ctr.test, u, place, corrected, if u = .registerFile then none else some (s.clock + twoMicroseconds)⟩]
      telemetry := s.telemetry.count u place (s.pick 10 % 8) corrected
      ctr := { s.ctr with test := s.ctr.test + 1 } }
  | _ => s)
/-- 12 R411 (`.flag` the test, and whether the fault is lasting): to the error log, telemetry and the event queue; what waited for the line goes on. -/
def execSelfTestEnd (s : State) : Answer :=
  .next (match s.arg with
  | .flag id lasting => match s.tests.find? fun t => t.id == id with
    | none => s
    | some t =>
      let sub := lasting.toNat + testCode t.unit * 16
      (State.unblock { s with
        tests := s.tests.filter (fun x => x.id != id)
        errorLog := s.errorLog ++ [(BitVec.ofNat 8 sub, t.place)]
        telemetry := { s.telemetry with tested := s.telemetry.tested ++ [(testCode t.unit, t.place, lasting)] } }).retryHandlers.event 2 sub t.place
        (s.telemetry.corrected t.unit t.place)
  | _ => s)

end Sys2Proof.Machine
end

