-- ==== Sys2Proof/Machine/Memory.lean ====
section
/-! DEFINITION. Loads, stores, full-empty instructions, block-format accesses, prefetch, atomics and reductions (06 R197 to R208), and `bnload` (04 R145). -/
namespace Sys2Proof.Machine

/-! ### Loads and stores (06 R197, R198) -/

/-- Bytes of a type that is sign-extended into its register (04 R108). -/
def signedTy (ty : Nat) : Bool := ty == 0x05 || ty == 0x06
/-- Writes of consecutive vector registers. -/
def vWrites (l d : Nat) (xs : List W32) : List RegWrite := xs.zipIdx.map fun (x, i) => .v l (d + i) x
/-- `ld` of either form. -/
def State.load (s : State) (f : Fields) : State :=
  let ty := f.mod % 32
  let n := typeBytes ty
  s.memLoad (regLoad 0x0E0 f ⟨n, n, 1, .plain, false⟩ fun l bs => vWrites l f.d (loadWords (signedTy ty) bs))
/-- What a store writes: each run takes its part of the lane's bytes. -/
def splitEffs (lane : Nat) (xs : List Byte) : Nat → List Seg → List StoreEff
  | _, [] => []
  | off, g :: gs => .bytes lane g.loc (g.buf.map fun d => (d, g.va)) ((xs.drop off).take g.n) :: splitEffs lane xs (off + g.n) gs
/-- A store of the low bytes of the registers from D on. -/
def State.storeData (s : State) (f : Fields) (h : Shape) : State :=
  s.onWarp fun e => s.memStore
    { f := f, h := h
      effs := fun a => splitEffs a.lane (e.w.regBytes a.lane f.d a.n) 0 a.segs
      bytes := fun a => e.w.regBytes a.lane f.d a.n
      req := fun a runs => .store (runs.flatMap fun (off, g) => ((e.w.regBytes a.lane f.d a.n).drop off).take g.n) }
/-- `st` of either form. -/
def State.store (s : State) (f : Fields) : State :=
  let n := typeBytes (f.mod % 32)
  s.storeData f ⟨n, n, 1, .plain, false⟩

/-- 06 R198. -/
def execLd (w : Std) (s : State) : Answer := .next (s.load (.ofStd w))
/-- 06 R198. -/
def execLdExt (w : Ext) (s : State) : Answer := .next (s.load (.ofExt w))
/-- 06 R198. -/
def execSt (w : Std) (s : State) : Answer := .next (s.store (.ofStd w))
/-- 06 R198. -/
def execStExt (w : Ext) (s : State) : Answer := .next (s.store (.ofExt w))

/-! ### Full-empty instructions (06 R199 to R202) -/

/-- The access shape of a full-empty datum: width code WD. -/
def feShape (f : Fields) : Shape := let n := 2 ^ (f.mod % 8); ⟨n, n, 1, .fullEmpty, false⟩
/-- The lanes of `ldfe` that perform now, in order: each takes its datum if its granule is full, the rest wait (06 R201). -/
def State.takeFull (s : State) (clr : Bool) (id : Nat) : List LaneAcc → State × List (Nat × List Byte) × Bool
  | [] => (s, [], true)
  | a :: as =>
    match a.segs with
    | [] => s.takeFull clr id as
    | g :: _ =>
      if !s.fullAt g.loc then (s, [], false)
      else
        let xs := s.laneBytes .data a
        let s := if clr then (s.setGranule g.loc false).disturb [g.loc.line] (some id) else s
        let (s, now, all) := s.takeFull clr id as
        (s, (a.lane, xs) :: now, all)
/-- `ldfe` of either form. -/
def State.loadFe (s : State) (f : Fields) : State :=
  let clr := f.mod / 8 % 2 = 1
  let o : LoadOp := { regLoad 0x0E2 f (feShape f) (fun l bs => vWrites l f.d (loadWords false bs)) (if clr then 7 else 5) with look := .full }
  s.onWarp fun e =>
    let ex := s.exec e.w f.ga f.gb
    let todo := ex.filter fun l => (e.w.lane l).got.isNone
    s.planned e (if clr then .atomic else .read) o.h { addr := e.w.address f } todo fun s as =>
      if e.w.spec.window.isEmpty && e.w.remoteOpen == 0 then
        let batch := as.take (s.lanesNow as.length)
        let (s, now, all) := s.takeFull clr e.w.id batch
        if !all then (s.keepGoing e as now).modWarp e.w.id fun w => w.modLanes (s.act e.w) fun t => { t with wait := .fullEmpty }
        else if batch.length < as.length then s.keepGoing e as now
        else o.finish s { e with w := e.w.loadDone (e.w.lane (ex.headD 0)).pc.addr } ex (obtained e.w now)
      else if clr || s.resumed e || !as.all (fun a => a.segs.all fun g => s.fullAt g.loc) then s.stall e.w
      else s.loadAhead e o ex as
/-- `stfe` of either form: the data and the full bit in one event. -/
def State.storeFe (s : State) (f : Fields) : State :=
  s.onWarp fun e => s.memStore
    { f := f, h := feShape f
      effs := fun a => a.segs.map fun g => .fill a.lane g.loc (e.w.regBytes a.lane f.d a.n)
      req := fun _ _ => .load }

/-- 06 R201. -/
def execLdfe (w : Std) (s : State) : Answer := .next (s.loadFe (.ofStd w))
/-- 06 R201. -/
def execLdfeExt (w : Ext) (s : State) : Answer := .next (s.loadFe (.ofExt w))
/-- 06 R201. -/
def execStfe (w : Std) (s : State) : Answer := .next (s.storeFe (.ofStd w))
/-- 06 R201. -/
def execStfeExt (w : Ext) (s : State) : Answer := .next (s.storeFe (.ofExt w))

/-- The check of a full-empty range [a, a + b) (06 R202): a as an access, both multiples of 16, the whole range in one scratchpad. -/
def State.feRange (s : State) (w : Who) (a : W64) (b : Nat) : Except AccFault Loc :=
  match s.stepWindow w .fullEmpty (a, 1) with
  | .error f => .error f
  | .ok none => .error (.page 5 a)
  | .ok (some loc) =>
    if a.toNat % 16 ≠ 0 ∨ b % 16 ≠ 0 then .error (.misaligned 3 a)
    else if b = 0 then .ok loc
    else match loc with
      | .sp k o => match s.anyBlock? k with
        | some blk => if o + b ≤ blk.scratchBytes then .ok loc else .error (.page 3 (a + BitVec.ofNat 64 (blk.scratchBytes - o)))
        | none => .error (.page 3 a)
      | _ => .error (.page 5 a)
/-- 06 R202: once for the warp; a length of zero makes no event. -/
def execFereset (w : Std) (s : State) : Answer :=
  let f := Fields.ofStd w
  .next (s.onWarp fun e =>
    let ex := s.exec e.w f.ga f.gb
    let done (s : State) (e : Env) : State :=
      (s.finishLong e f.la [] []).traceWarp e.w.id (some 2) 6 (ex.headD 0) (addr54 (e.w.s f.a)) (e.w.lane (ex.headD 0)).pc
    match ex with
    | [] => s.finishLong e f.la [] []
    | l :: _ =>
      let b := (f.uniB e.w.s).toNat
      match s.feRange e.who (e.w.s f.a) b with
      | .error x => s.faultLane e .write l none x
      | .ok loc =>
        if b = 0 then s.finishLong e f.la [] []
        else match loc with
          | .sp k o => s.prepared e [⟨l, e.w.s f.a, b, 0, 0, [Seg.window (e.w.s f.a) b loc]⟩] fun s =>
            if e.w.remoteOpen != 0 || (e.w.careful && !e.w.spec.window.isEmpty) then s.stall e.w
            else if decide (32 ≤ s.outstanding e.w) then s.limit e.w
            else done s { e with w := e.w.enqueue fun q => .store q 0 [.granules k (o / 16) (b / 16) (f.mod % 2 = 1)] }
          | _ => s)
/-- 06 R202: bit i of the result is the bit of granule i. -/
def execFequery (w : Std) (s : State) : Answer :=
  let f := Fields.ofStd w
  .next (s.memLoad { regLoad 0x0E5 f ⟨1024, 1024, 3, .fullEmpty, false⟩ fun l bs => writePair l f.d (BitVec.ofNat 64 (leNat bs)) with look := .bits })

/-! ### Block-format accesses (06 R203, R204) -/

/-- The shape of a block access. -/
def bxShape (f : Fields) : Shape := ⟨bxBytes (f.mod % 32), 4, 2, .plain, true⟩
/-- 06 R203: the register bytes beyond the block are zeroed. -/
def execLdbx (w : Ext) (s : State) : Answer :=
  let f := Fields.ofExt w
  .next (s.memLoad (regLoad 0x0E6 f (bxShape f) fun l bs =>
    vWrites l f.d ((loadWords false bs ++ [0, 0, 0]).take (blockCls (f.mod % 32)).1)))
/-- 06 R203: exactly the block's bytes. -/
def execStbx (w : Ext) (s : State) : Answer := let f := Fields.ofExt w; .next (s.storeData f (bxShape f))

/-! ### Prefetch (06 R205) -/

/-- `pfetch` of either form: the lines that can be reached are asked for; nothing else happens. -/
def State.prefetch (s : State) (f : Fields) : State :=
  s.onWarp fun e =>
    let ex := s.exec e.w f.ga f.gb
    let one (s : State) (l : Nat) : State :=
      let va := e.w.address f l
      if !canonical va || inWindow va then s
      else match s.xlate e.l .read true false va with
        | .error _ => s
        | .ok m =>
          if m.io || isFabric m.pa then s
          else if f.mod % 32 = 0 then (s.useSeg (m.seg va 1)).cacheLoadLine e.w.core f.hint (lineOf m.pa)
          else (s.useSeg (m.seg va 1)).prefetchL2 f.hint (lineOf m.pa)
    (ex.foldl one s).finishLong e f.la [] []
/-- 06 R205. -/
def execPfetch (w : Std) (s : State) : Answer := .next (s.prefetch (.ofStd w))
/-- 06 R205. -/
def execPfetchExt (w : Ext) (s : State) : Answer := .next (s.prefetch (.ofExt w))

/-! ### Atomics and reductions (06 R206 to R208) -/

/-- The address of an atomic: A, with IMM32 in the extended form. -/
def Warp.atomicAddress (w : Warp) (f : Fields) (l : Nat) : W64 := w.opA64 f l + if f.ext then f.imm.signExtend 64 else 0
/-- The operand of an atomic in a lane; the extended form's IMM32 is the offset, so B is then a register or zero. -/
def Warp.atomicB (w : Warp) (f : Fields) (l : Nat) : W64 :=
  if f.mod / 16 % 2 = 1 then w.opB64 f l else (w.opB f l).setWidth 64
/-- The comparand of `cas`. -/
def Warp.atomicC (w : Warp) (f : Fields) (l : Nat) : W64 := if f.mod / 16 % 2 = 1 then w.opC64 f l else (w.opC f l).setWidth 64
/-- The shape of an atomic. -/
def atomShape (f : Fields) : Shape := let n := if f.mod / 16 % 2 = 1 then 8 else 4; ⟨n, n, 1, .atomic, false⟩

/-- One lane's atomic on this package (06 R207): the old value, and the write at its site. Where no register stands an atomic gives zero and writes nothing
(10 R448); at the shard version and at a counter of telemetry, of which the spec says nothing, it gives what they hold and writes nothing (log entry 80). -/
def State.atomLane (s : State) (core id op hint : Nat) (a : LaneAcc) (x c : W64) : State × List Byte :=
  match a.segs with
  | [] => (s, [])
  | g :: _ =>
    let old := s.segBytes g
    if g.regs then (s, old)
    else match atomicBytes op old x c with
      | some r => (s.writeSite (some core) (some id) g.loc r hint, old)
      | none => (s, old)
/-- Lanes of an atomic on this package, in order. -/
def State.atomLanes (s : State) (e : Env) (f : Fields) : List LaneAcc → State × List (Nat × List Byte)
  | [] => (s, [])
  | a :: as =>
    let (s, old) := s.atomLane e.w.core e.w.id (f.mod % 16) f.hint a a.b a.c
    let (s, now) := s.atomLanes e f as
    (s, (a.lane, old) :: now)
/-- `atom` of either form: it performs once every older access has (06 R196). -/
def State.atomic (s : State) (f : Fields) : State :=
  s.onWarp fun e =>
    let ex := s.exec e.w f.ga f.gb
    let todo := ex.filter fun l => (e.w.lane l).got.isNone
    let x : LaneArgs := { addr := e.w.atomicAddress f, b := e.w.atomicB f, c := e.w.atomicC f }
    let done (s : State) (now : List (Nat × List Byte)) : State :=
      let s := s.finishLong e f.la (opDests 0x0E9 f) (ex.flatMap fun l => vWrites l f.d (loadWords false (obtained e.w now l)))
      match ex with
      | [] => s
      | l :: _ => s.traceWarp e.w.id (some 2) 7 l (addr54 (e.w.plannedVa l (x.addr l))) (e.w.lane l).pc
    s.planned e .atomic (atomShape f) x todo fun s as => s.ownLines e (allSegs as) fun s =>
      match s.laneError as with
      | some y => s.loadError e f.la (opDests 0x0E9 f) y
      | none =>
        if as.isEmpty then done s []
        else if !e.w.spec.window.isEmpty || e.w.remoteOpen != 0 || ((allSegs as).any Seg.far && !e.w.settled) then s.stall e.w
        else
          let batch := s.nextBatch as
          if (allSegs batch).any Seg.remote then s.askPeers e (fun a => .atomic (f.mod % 16) a.b a.c) as batch
          else
            let (s, now) := s.atomLanes e f batch
            if batch.length < as.length then s.keepGoing e as now else done s now
/-- `red` of either form: it enters the store buffer and executes at its site (09 R315). -/
def State.reduction (s : State) (f : Fields) : State :=
  let wide := f.mod / 16 % 2 = 1
  s.memStore
    { f := f, h := atomShape f
      args := fun e => { addr := e.w.atomicAddress f, b := e.w.atomicB f }
      effs := fun a => a.segs.map fun g => .red a.lane g.loc (g.buf.map fun d => (d, g.va)) (f.mod % 16) wide a.b
      req := fun a _ => .red (f.mod % 16) a.b }

/-- 06 R207. -/
def execAtom (w : Std) (s : State) : Answer := .next (s.atomic (.ofStd w))
/-- 06 R207. -/
def execAtomExt (w : Ext) (s : State) : Answer := .next (s.atomic (.ofExt w))
/-- 06 R207. -/
def execRed (w : Std) (s : State) : Answer := .next (s.reduction (.ofStd w))
/-- 06 R207. -/
def execRedExt (w : Ext) (s : State) : Answer := .next (s.reduction (.ofExt w))

/-! ### The control word of the Benes network (04 R145) -/

/-- Bytes of a control word of a warp of W lanes (04 R144). -/
def netBytes (width : Nat) : Nat := if width = 64 then 44 else if width = 32 then 18 else 7
/-- `bnload` of either form: one load event of the warp, made for its lowest lane with Exec. -/
def State.loadNet (s : State) (f : Fields) : State :=
  let addr (w : Warp) (_ : Nat) : W64 := w.s f.a + if f.ext then f.imm.signExtend 64 else f.uniB w.s
  s.onWarp fun e => s.memLoad
    { f := f, dests := opDests 0x0A0 f, h := ⟨netBytes e.w.width, 8, 3, .plain, true⟩, lanes := fun ex => ex.take 1, args := fun e => { addr := addr e.w }
      finish := fun s e ex got => s.finishRegs e f (opDests 0x0A0 f) addr 5 (fun _ bs => [.bn f.d (BitVec.ofNat 352 (leNat bs))]) ex got }
/-- 04 R145. -/
def execBnload (w : Std) (s : State) : Answer := .next (s.loadNet (.ofStd w))
/-- 04 R145. -/
def execBnloadExt (w : Ext) (s : State) : Answer := .next (s.loadNet (.ofExt w))

end Sys2Proof.Machine
end

