-- ==== Sys2Proof/Machine/Preempt.lean ====
section
/-! DEFINITION. Pre-emption by shadow swap (11 R367, R370 to R375; 12 R400 to R402; 05 R192). A context is swapped whole; the areas that hold a saved
one are its own until it has been restored. -/
namespace Sys2Proof.Machine

/-! ### Save areas (11 R371, R372; 12 R400) -/

/-- Bytes up to a 64-byte boundary. -/
def pad64 (xs : List Byte) : List Byte := xs ++ List.replicate (ceilDiv xs.length 64 * 64 - xs.length) (0 : Byte)
/-- The parts of a block's save area whose layout is architectural: header, warp records, stream record, barrier records. -/
def State.saveParts (s : State) (x : Context) (b : Block) : List (List Byte) :=
  let ws := bySlot (x.warps.filter fun w => w.block == b.id)
  let lseq := match s.launch? b.launch with | some l => l.seq.toNat | none => 0
  let t : State := { s with quads := { s.quads with acc := x.acc, ops := x.ops } }
  [leBytes 256 (1 + x.num % 2 ^ 32 * 2 ^ 32 + lseq * 2 ^ 64 + ws.length * 2 ^ 96 + x.sseq % 2 ^ 64 * 2 ^ 128 + x.savedAt % 2 ^ 64 * 2 ^ 192),
   ws.flatMap (fun w => pad64 (w.dumpRecord 0)), pad64 (match b.stream with | some y => t.streamDump b y | none => []), pad64 (b.bars.flatMap Bar.record)]
/-- The drained slots of a block in a context, which its save area holds too. -/
def Context.drained (x : Context) (b : Block) : List AccSlot := (x.acc.map (·.2.2)).filter fun a => a.owner == some b.id
/-- Bytes of a block's save area; those after its drained slots are as many as the implementation needs (log entry 65). -/
def State.areaLen (s : State) (x : Context) (b : Block) : Nat := (s.saveParts x b).flatten.length + 65536 * (x.drained b).length + Config.areaTail
/-- What a block's save area holds; its last part has no architectural layout and is open. -/
def State.areaImage (s : State) (x : Context) (b : Block) : List Byte :=
  (s.saveParts x b).flatten ++ (x.drained b).flatMap (fun a => a.bytes.read 0 65536) ++
    (List.range Config.areaTail).map fun i => BitVec.ofNat 8 (s.pick (2 ^ 70 + 2 ^ 60 + 2 ^ 20 * b.id + i))
/-- Save areas for blocks of a context: for each the pool's first that the driver has put under the key of its tenant (R341; log entry 65), and what the pool
is left with. -/
def State.pickAreas (s : State) (x : Context) : List Block → List Nat → Option (List (Nat × Nat) × List Nat)
  | [], pool => some ([], pool)
  | b :: bs, pool =>
    match pool.find? fun a => match s.launch? b.launch with | some l => s.areaKeyed l.hdr.tenant (s.areaLen x b) a | none => true with
    | none => none
    | some a => (s.pickAreas x bs (pool.erase a)).map fun (as, rest) => ((b.id, a) :: as, rest)
/-- What runs on a core, as a context. -/
def State.liveContext (s : State) (core : Nat) : Context :=
  let bs := s.coreBlocks core
  let mine (id : Nat) : Bool := bs.any fun b => b.id == id
  ⟨s.ctr.ctx, bs, s.warps.filter (fun w => w.core == core), s.quads.acc.filter (fun a => match a.2.2.owner with | some o => mine o | none => false),
    s.quads.ops.filter (fun o => mine o.block), s.ctr.sseq, [], false, s.clock⟩

/-! ### Beginning (R370, R372) -/

/-- A pre-emption of a core begins: one save area for each of its blocks is taken; none where the pool cannot supply them. -/
def State.beginSwap (s : State) (core : Nat) (incoming : Option Nat) (phase : CorePhase) : Option State :=
  let y := s.liveContext core
  (s.pickAreas y y.blocks s.pools.saves).map fun (areas, rest) =>
    let x : Context := { y with blocks := [], warps := [], acc := [], ops := [], areas := areas }
    ({ s with
      pools := { s.pools with saves := rest }
      contexts := s.contexts ++ [x]
      ctr := { s.ctr with ctx := x.num + 1, sseq := x.sseq + 1 } }).modCore core fun c =>
        { c with phase := phase, incoming := incoming, outgoing := some x.num }
/-- New blocks wait in the shadow bank as a context without areas (R371, R372): `build` puts them on the emptied core. -/
def State.loadNew (s : State) (core : Nat) (build : State → Option State) : Option State :=
  match build (s.cleared core) with
  | none => none
  | some t =>
    let x : Context := ⟨t.ctr.ctx, t.coreBlocks core, t.warps.filter fun w => w.core == core, [], [], 0, [], false, s.clock⟩
    ({ s with
      contexts := s.contexts ++ [x], launches := t.launches, pools := t.pools
      ctr := { t.ctr with ctx := x.num + 1 } }).beginSwap core (some x.num) .load
/-- What runs on a core is of a class below `c`: every block is of a greater one (R370). -/
def State.runsBelow (s : State) (core c : Nat) : Bool :=
  !(s.coreBlocks core).isEmpty && (s.coreBlocks core).all fun b => match s.launch? b.launch with
    | some l => decide (c < l.hdr.prio)
    | none => true
/-- Has no core room for a launch's next block (R370)? A core counts whatever its phase, but for one that exchanges its banks. -/
def State.noBlockRoom (s : State) (l : Launch) : Bool :=
  (List.range Config.cores).all fun c => (s.core c).phase == .swap || (s.tryBlock l c).isNone
/-- Has no core room for a saved context? -/
def State.noContextRoom (s : State) (x : Context) : Bool :=
  (List.range Config.cores).all fun c => (s.core c).phase == .swap || !s.contextFits x c
/-- Has no core room for a batch that is due, in the launch's reserve or elsewhere (R367, R370)? -/
def State.noBatchRoom (s : State) (l : Launch) (node : Nat) (rs : List PoolRec) : Bool :=
  (List.range Config.cores).all fun c => (s.core c).phase == .swap || ((s.ordinaryBatch l node c rs).isNone && (s.reserveBatch l node c rs).isNone)
/-- Can a context that a core spills come back to it at once (R371)? -/
def State.swapsBack (s : State) (x : Context) (core : Nat) : Bool :=
  (s.core core).phase == .spill && (s.core core).outgoing == some x.num && !x.blocks.isEmpty && !x.areas.isEmpty
/-- The swap of a core for a context begins: from RUN by way of LOAD, from SPILL back to the context that is spilled at once (R371). -/
def State.swapFor (s : State) (x : Context) (core : Nat) (quiet : State → State) : Option State :=
  if (s.core core).phase == .run && s.contextWaits x then s.beginSwap core (some x.num) .load
  else if s.swapsBack x core then (s.beginSwap core (some x.num) .swap).map quiet
  else none

/-- What happens to a context as its swap begins (R373): speculative warps roll back, Tongs tiles with its rows are sent. -/
def State.quiesce (s : State) (core : Nat) : State :=
  let ws := s.warps.filter fun w => w.core == core
  (s.rollAll ws).sendTiles fun t => t.rows.any fun r => ws.any fun w => w.id == r.warp
/-- May a launch's block or batch take a core of lower classes: the emptied core is offered in the order of R360 and R374? -/
def State.mayTake (s : State) (l : Launch) (core : Nat) : Bool :=
  (s.core core).phase == .run && decide (core < Config.cores) && s.runsBelow core l.hdr.prio && !(s.cleared core).yieldsTo l core
/-- 11 R370 (`.two` launch and core; `.three` with a saved context instead of a launch in the second place): a block that has waited 2 µs, or a due batch,
which is a block of its launch's class too (R365), takes a core that runs only lower classes; a spill of the context that comes back is abandoned (R371). -/
def execPriorityPreempt (s : State) : Answer :=
  .next (match s.arg with
  | .two id core => match s.launch? id with
    | some l =>
      if !s.mayTake l core then s
      else if l.wantsBlock && decide (l.waitSince + twoMicroseconds ≤ s.clock) && s.noBlockRoom l then (s.loadNew core fun t => t.tryBlock l core).getD s
      else match s.highestDue l with
        | some (node, rs) =>
          if decide (l.dueSince node + twoMicroseconds ≤ s.clock) && s.noBatchRoom l node rs then (s.loadNew core fun t => t.ordinaryBatch l node core rs).getD s else s
        | none => s
    | none => s
  | .three _ n core => match s.context? n with
    | some x => match s.classOf x.blocks with
      | some c =>
        if !(decide (x.savedAt + twoMicroseconds ≤ s.clock) && s.noContextRoom x && s.runsBelow core c && (s.cleared core).contextFits x core) ||
            s.launches.any (fun m => decide (m.hdr.prio < c) && (s.cleared core).roomFor m core) then s
        else (s.swapFor x core fun t => t.quiesce core).getD s
      | none => s
    | none => s
  | _ => s)
/-- Does every resident warp of a core wait on a pool without a free slot, for 65,536 base clk without a break (R367): with the record that it stands before,
the first that it has sent and no slot holds? -/
def State.poolStalled (s : State) (core : Nat) : Bool :=
  let ws := s.warps.filter fun w => w.core == core
  !ws.isEmpty && ws.all fun w => s.launches.any fun l =>
    (l.senders.find? fun x => x.warp == some w.id).any fun x => (l.freeSlot x.rc.node).isNone && decide (x.since + 65536 ≤ s.clock)
/-- 11 R367 (`.two` launch and core): the core is pre-empted, and a batch that waits since no room exists for it is placed there. -/
def execPoolStallRelief (s : State) : Answer :=
  .next (match s.arg with
  | .two id core => match s.launch? id with
    | some l => match s.highestDue l with
      | some (node, rs) =>
        if s.poolStalled core && s.noBatchRoom l node rs && (s.core core).phase == .run && decide (core < Config.cores) && (s.coreBlocks core).any fun b => b.launch == id then
          (s.loadNew core fun t => t.ordinaryBatch l node core rs).getD s
        else s
      | none => s
    | none => s
  | _ => s)
/-- Base clk of 4 ms. -/
def fourMilliseconds : Nat := 6400000
/-- 11 R375 (`.temps` a core and the temperatures of the cores in m°C): a hot core whose blocks have run there for 4 ms gives its context up. -/
def execThermalMigration (s : State) : Answer :=
  .next (match s.arg with
  | .temps core ts =>
    let s := (ts.take Config.cores).zipIdx.foldl (fun s (t, i) => s.modCore i fun c => { c with temp := t }) s
    let bs := s.coreBlocks core
    if s.hot core && (s.core core).phase == .run && !bs.isEmpty && bs.all fun b => decide (b.arrivedAt + fourMilliseconds ≤ s.clock) then
      match s.beginSwap core none .load with
      | some t => { t.modContext s.ctr.ctx fun c => { c with migrated := true } with telemetry := { t.telemetry with migrations := t.telemetry.migrations + 1 } }
      | none => s
    else s
  | _ => s)
/-- A saved context that `ctxsw` offers a core to: of an equal or higher class, with room once the core is empty (05 R192). Which of several is not said;
the first that was saved is taken. The class compared is that of the issuing warp's launch, and only saved contexts are offered the core, not blocks that
wait to be placed: of neither does R192 say more (log entry 59). -/
def State.offered (s : State) (core class_ : Nat) : Option Context :=
  s.contexts.find? fun x => (s.contextWaits x || s.swapsBack x core) && (match s.classOf x.blocks with | some c => decide (c ≤ class_) | none => false) &&
    (s.cleared core).contextFits x core
/-- The threads of a warp that could issue wait until their context has been out and returns (05 R192). -/
def State.awaitSwap (s : State) (id : Nat) : State :=
  s.modWarp id fun w => w.modLanes (w.live.filter fun l => (w.lane l).wait == .none) fun t => { t with wait := .swap }
/-- 05 R192: where a context waits for the core, its swap begins and the warp goes on when its own context returns; while an earlier request is carried
out this one waits (11 R371). Where the pool has too few save areas it has no effect (R372). -/
def execCtxsw (w : Std) (s : State) : Answer :=
  let f := Fields.ofStd w
  .next (s.whenSettled fun e =>
    match s.exec e.w f.ga f.gb with
    | [] => s.skipWarp e
    | l :: _ =>
      if !e.l.hdr.privileged then s.raise e (unprivileged l)
      else
        let t := s.skipWarp e
        let core := e.w.core
        match t.offered core e.l.hdr.prio with
        | none => t
        | some x => match (t.awaitSwap e.w.id).swapFor x core fun u => u.quiesce core with
          | some u => u
          | none => if (s.core core).phase == .run || s.swapsBack x core then t else s.stall e.w)

/-! ### A restore that fails (12 R401) -/

/-- The check of a save area (12 R401): the reason that a line with an error, or a header with another save sequence number, gives. -/
def State.areaCheck (s : State) (x : Context) (area n : Nat) : Option Nat :=
  match s.errorAt (.pa area) n with
  | some (_, r) => some (if r = 2 then 2 else 1)
  | none => if bits (s.numPa area 24) 191 128 = x.sseq % 2 ^ 64 then none else some 3
/-- The first reason for which a saved context cannot be restored; one whose areas have not been written yet is not read from them. -/
def State.restoreCheck (s : State) (x : Context) : Option Nat :=
  if s.cores.any fun c => c.outgoing == some x.num then none
  else x.blocks.findSome? fun b => (x.areas.find? fun y => y.1 == b.id).bind fun y => s.areaCheck x y.2 (s.areaLen x b)
/-- Was a dump section of a saved block verified: the lines of its records in the save area, of its scratchpad's backing, of the trace ring (R401)? -/
def State.verified (s : State) (l : Launch) (x : Context) (b : Block) (i : Nat) : Bool :=
  let lens := (s.saveParts x b).map List.length
  let clean (k : Nat) : Bool := ((x.areas.find? fun y => y.1 == b.id).bind fun y => s.errorAt (.pa (y.2 + (lens.take k).foldl (· + ·) 0)) (lens.getD k 0)).isNone
  match i with
  | 0 => true
  | 1 | 2 | 3 => clean i
  | 4 => !b.pages.any fun p => (s.fillError b p.no).isSome
  | _ => !(s.core b.core).pages.any fun p => p.tenant == some l.hdr.tenant && (s.errorAt (.pa p.pa) (16 * p.fill)).isSome
/-- The launch of a poisoned block ends FAULTED with restore-integrity, which its core's trace records first (R410); its dump holds the sections that were
verified. A launch and an address are answered where the host must translate a page of the dump area first. -/
def State.poisonBlock (s : State) (x : Context) (reason : Nat) (b : Block) : Except (Launch × W64) State :=
  match s.launch? b.launch with
  | none => .ok s
  | some l =>
    if l.halting then .ok s
    else
      let ws := bySlot (x.warps.filter fun w => w.block == b.id)
      let trap : FatalTrap := ⟨0x10, reason, 0, true, 0, BitVec.ofNat 64 x.num, 0, false, s.clock, none⟩
      let others := countIf (fun c => c.launch == l.id && c.id != b.id) x.blocks
      let s := s.trace b.core l.hdr.tenant ⟨8, 0x10 + 256 + 512, 0, 0, addr54 trap.info⟩
      let t : State := { s with quads := { s.quads with acc := s.quads.acc ++ x.acc } }
      let recs := [trapRecord 0x43 trap.word 0 trap.info 0]
      let secs := (t.dumpSections l b ws recs).zipIdx.map fun (c, i) => if s.verified l x b i then c else []
      match s.writeDump l b ⟨trap, x.num, true, l.otherf + others, 0, recs.length, ws.length⟩ secs with
      | .error va => .error (l, va)
      | .ok s => .ok (((s.stopLaunch l.id 3 0x10).modLaunch l.id fun l => { l with dumped := true, otherf := l.otherf + others }).event 1 reason x.num l.eventName)
/-- Every block of the context is poisoned, and its areas return; or the host is asked for a translation first, and the context stays as it is. -/
def State.restoreFailed (s : State) (x : Context) (reason : Nat) : Except State State :=
  match x.blocks.foldlM (fun s b => s.poisonBlock x reason b) s with
  | .error (l, va) => .error (s.askHost (.sched l.id) l .write va 0xFF 0)
  | .ok s => .ok { s with
      contexts := s.contexts.filter (fun c => c.num != x.num)
      pools := { s.pools with saves := s.pools.saves ++ ((s.context? x.num).map fun c => c.areas.map (·.2)).getD [] } }
/-- The outgoing context of a core that is not swapped after all gives its areas back. -/
def State.dropOutgoing (s : State) (core : Nat) : State :=
  match (s.core core).outgoing.bind s.context? with
  | some x => { s with contexts := s.contexts.filter (fun c => c.num != x.num), pools := { s.pools with saves := s.pools.saves ++ x.areas.map (·.2) } }
  | none => s
/-- Warps of a core that wait for their context's return go on. -/
def State.endAwait (s : State) (core : Nat) : State :=
  { s with warps := s.warps.map fun w => if w.core = core then w.onLanes (fun t => t.wait == .swap) (fun t => { t with wait := .none }) else w }
/-- Is a register row of a core's shadow bank being tested (12 R411)? -/
def State.bankTested (s : State) (core : Nat) : Bool :=
  s.tests.any fun t => t.unit == .registerFile && t.place / 65536 == core && t.deadline.any fun d => decide (s.clock < d)
/-- Register rows of a core that wait for their test are tested now that their bank is the empty shadow bank (12 R411). -/
def State.testBank (s : State) (core : Nat) : State :=
  { s with tests := s.tests.map fun t : SelfTest => if t.unit = .registerFile ∧ t.place / 65536 = core ∧ t.deadline.isNone then { t with deadline := some (s.clock + twoMicroseconds) } else t }
/-- 11 R371, 12 R401 (`.id` the core): SWAP begins, or the restore has failed and the live context runs on; streams whose reservations the context's slots
held up try again (07 R239). -/
def execShadowLoadDone (s : State) : Answer :=
  .next (match s.arg with
  | .id core =>
    if (s.core core).phase != .load || s.bankTested core then s
    else
      let x? := (s.core core).incoming.bind s.context?
      match x?, x?.bind s.restoreCheck with
      | some x, some r => match s.restoreFailed x r with
        | .error t => t
        | .ok t => (((t.dropOutgoing core).endAwait core).modCore core fun c => { c with phase := .run, incoming := none, outgoing := none }).wakeReservers
      | _, _ => (s.quiesce core).modCore core fun c => { c with phase := .swap }
  | _ => s)

/-! ### The swap (R373, R374; 12 R402) -/

/-- Can a warp be saved now: nothing speculative is left, no ray instruction runs, its Tongs requests are checked, what an instruction has begun in part has performed? -/
def State.warpSaves (s : State) (w : Warp) : Bool :=
  w.spec.window.isEmpty && w.spec.ckpt.isNone && w.remoteOpen == 0 && w.spec.cmds.isEmpty && w.spec.emits.isEmpty && !w.disabled && !w.owing [] &&
  !s.rays.any fun r => r.warp == w.id
/-- Can a block be saved now: its granted passes and page fills have ended? -/
def State.blockSaves (s : State) (b : Block) : Bool :=
  !(s.quads.ops.any fun o => o.block == b.id && o.granted) && !b.pages.any (·.filling)
/-- A warp as it is saved: permits go; a stalled path, and a warp that backed off, run their instruction again. -/
def Warp.saved (w : Warp) : Warp :=
  let v : Warp := { w with permit := false, backoff := w.backoff.map fun b => { b with retryAt := 0 } }
  v.modLanes (v.live.filter fun l => [Wait.stall, .limit, .check, .swap, .service none].contains (v.lane l).wait) fun t => { t with wait := .none }
/-- A block as it is saved: its stream's permit goes, and what the stream stood before it tries again; the spill engine unpins its pages (10 R329). -/
def Block.saved (b : Block) : Block :=
  { b with stream := b.stream.map fun x : Stream => { x with
             permit := false, backoff := x.backoff.map (fun k => { k with retryAt := 0 })
             wait := match x.wait with | .stall | .mres _ | .service none => .none | y => y } }
/-- The record of a context that goes out or comes in, one for each block (12 R410). -/
def State.traceContext (s : State) (core : Nat) (bs : List Block) (into : Bool) : State :=
  bs.foldl (fun s b => match s.launch? b.launch with
    | some l => s.trace core l.hdr.tenant ⟨13, into.toNat, 0, BitVec.ofNat 54 (s.pick (2 ^ 75 + 2 ^ 60 + b.id)), BitVec.ofNat 54 l.seq.toNat⟩
    | none => s) s
/-- What runs on a core goes into a context. -/
def State.takeOut (s : State) (core n : Nat) : State :=
  let bs := s.coreBlocks core
  let mine (id : Nat) : Bool := bs.any fun b => b.id == id
  ((s.cleared core).modContext n fun c =>
    { c with
      blocks := bs.map Block.saved, warps := (s.warps.filter fun w => w.core == core).map Warp.saved
      acc := s.quads.acc.filter (fun a => match a.2.2.owner with | some o => mine o | none => false)
      ops := s.quads.ops.filter (fun o => mine o.block), savedAt := s.clock }).traceContext core bs false
/-- A context runs on a core: answers that came meanwhile reach it, its waits for a service go on; a context of a saved kind stays in the list
until its areas have returned. -/
def State.bringIn (s : State) (x : Context) (core : Nat) : Option State :=
  (s.seated x core).map fun t =>
    let t := (t.ungate core).traceContext core x.blocks true
    let t : State := if x.areas.isEmpty then { t with contexts := t.contexts.filter fun c => c.num != x.num }
      else t.modContext x.num fun c => { c with blocks := [], warps := [], acc := [], ops := [] }
    let t := t.answerFaults
    x.warps.foldl (fun t w => t.rejoinService w.id) t
/-- 11 R373 (`.id` the core): once the outgoing context is at rest, the banks are exchanged. -/
def execShadowSwap (s : State) : Answer :=
  .next (match s.arg with
  | .id core =>
    let c := s.core core
    if c.phase != .swap || !((s.warps.filter fun w => w.core == core).all s.warpSaves) || !((s.coreBlocks core).all s.blockSaves) then s
    else match c.outgoing with
      | none => s
      | some n =>
        let t := s.takeOut core n
        let t : State := { t with turn := t.turn.filter fun i => if i.stream then (t.block? i.owner).isSome else (t.warp? i.owner).isSome }
        let u? := match c.incoming.bind s.context? with
          | some x => t.bringIn x core
          | none => some t
        match u? with
        | some u => u.modCore core fun c => { c with phase := .spill, incoming := none }
        | none => s
  | _ => s)

/-! ### Spill and restore (R371, R372, R374; 12 R400) -/

/-- A block's save area is written, which lies under its tenant's key (R371; log entry 65). -/
def State.spillBlock (s : State) (x : Context) (b : Block) : State :=
  match x.areas.find? fun y => y.1 == b.id with
  | none => s
  | some y => s.ownStore y.2 (s.areaImage x b)
/-- 11 R371 (`.id` the core): the outgoing context stands in its save areas and holds no frame any more; the core returns to RUN, its shadow bank empty. -/
def execSpillDone (s : State) : Answer :=
  .next (match s.arg with
  | .id core =>
    let x? := (s.core core).outgoing.bind s.context?
    if (s.core core).phase != .spill || (x?.any fun x => x.blocks.any fun b => b.pages.any fun p => p.frame.isSome) then s
    else ((match x? with | some x => x.blocks.foldl (fun (s : State) b => s.spillBlock x b) s | none => s).modCore core fun c => { c with phase := .run, outgoing := none }).testBank core
  | _ => s)
/-- 11 R374, 12 R401 (`.two` context and core): a saved context returns whole, or its restore fails. -/
def execContextRestore (s : State) : Answer :=
  .next (match s.arg with
  | .two n core => match s.context? n with
    | some x =>
      if !(s.contextWaits x && (s.core core).phase == .run && s.contextFits x core) then s
      else match s.restoreCheck x with
        | some r => match s.restoreFailed x r with
          | .error t => t
          | .ok t => t
        | none => (s.bringIn x core).getD s
    | none => s
  | _ => s)
/-- 11 R372 (`.id` the context): it has been restored or has ended; its areas return to the pool. -/
def execSaveAreaReturn (s : State) : Answer :=
  .next (match s.arg with
  | .id n => match s.context? n with
    | some x =>
      if x.blocks.isEmpty && !s.contextBusy n then
        { s with contexts := s.contexts.filter (fun c => c.num != n), pools := { s.pools with saves := s.pools.saves ++ x.areas.map (·.2) } }
      else s
    | none => s
  | _ => s)

end Sys2Proof.Machine
end

