-- ==== Sys2Proof/Machine/Resolve.lean ====
section
/-! DEFINITION. What resolves on a core after issue: accesses that perform (09 R300), rollbacks (R306, R312), long instructions (03 R86), staged
operations (01 R32), reorder pools (05 R178, R179), scratchpad pages (10 R326 to R329), waits that run out. -/
namespace Sys2Proof.Machine

/-! ### The speculation window (09 R300 to R312) -/

/-- 09 R300 (`.id` the warp): the oldest access is a load; it leaves the window and the read set (R305, R311). -/
def execLoadPerform (s : State) : Answer :=
  .next (match s.arg with
  | .id id => match s.warp? id with
    | some w => match w.spec.window with
      | .load _ pc _ :: rest =>
        if s.rollBlocked id then s else
        let x := { w.spec with window := rest, readSet := readLines rest }
        (s.putWarp (({ w with spec := x }.loadDone pc).closeCkpt)).flushTrace id
      | _ => s
    | none => s
  | _ => s)
/-- 09 R300, R302 (`.id` the warp): the oldest access is a store; that of its first lane is written at the site that owns its lines, once the host has given
them up (13 R413) and no test of them runs (12 R411); those of the other lanes follow, with other events between (01 R39). -/
def execStorePerform (s : State) : Answer :=
  .next (match s.arg with
  | .id id => match s.warp? id with
    | some w => match w.spec.window with
      | .store _ hint es :: _ =>
        let (now, later) := firstLane es
        match now.findSome? s.effHostLine with
        | some line => s.backInvalidate line
        | none =>
          if s.rollBlocked id || now.any fun e => e.span.any fun x => s.underTest x.1 x.2 then s
          else ((now.foldl (fun s e => s.performEff w.core hint (some id) e) s).modWarp id fun w =>
            if later.isEmpty then w.performed.closeCkpt else w.storeRest later).flushTrace id
      | _ => s
    | none => s
  | _ => s)
/-- 09 R307 (`.two` warp and line): the line was reached while an open load of the warp had read it. -/
def execRollback (s : State) : Answer :=
  .next (match s.arg with
  | .two id code => match s.warp? id with
    | some w => match w.openLoad code with
      | some c => s.rollWarp w (some c)
      | none => s
    | none => s
  | _ => s)
/-- 09 R312 (`.id` the core): a new interval of 4,096 base clk begins. -/
def execRollbackIntervalExpiry (s : State) : Answer :=
  .next (match s.arg with
  | .id c => if (s.core c).interval = s.clock / 4096 then s else s.modCore c fun c => { c with rollbacks := 0, interval := s.clock / 4096 }
  | _ => s)
/-- 03 R86 (`.two` warp and long instruction): its work elsewhere has ended; threads that wait at the end of its window go on. Data with an error is
fatal at the long instruction (R89), with a permit: where none is free the warp backs off, and the completion is tried again (12 R381; log entry 85). -/
def execLongInstructionComplete (s : State) : Answer :=
  .next (match s.arg with
  | .two id op => match s.warp? id with
    | some w =>
      match w.longs.find? fun o => o.id == op && o.parts == 0 && !o.done with
      | none => s
      | some ⟨_, addr, _, _, _, _, _, _, some x⟩ =>
        let pc := Pc.ofAddr addr
        if !w.settled || w.fatal.isSome || w.backoff.any (fun b => b.pc == pc && decide (s.clock < b.retryAt)) then s
        else if w.permit || s.permitFree w.core then s.putWarp (({ w with permit := true }.dropBackoff pc).setFatal (dataTrap x) true addr s.clock)
        else s.putWarp (w.backOff s.clock pc)
      | some _ =>
        let w := { w with longs := w.longs.map fun o : LongOp => if o.id = op then { o with done := true } else o }
        s.putWarp (w.onLanes (fun t => t.wait == .long) fun t => { t with wait := .none })
    | none => s
  | _ => s)
/-- Has a warp's speculation resolved, so that what it staged may be sent (01 R32)? -/
def Warp.maySend (w : Warp) : Bool := w.spec.window.isEmpty && w.spec.ckpt.isNone && w.remoteOpen == 0 && w.spec.sending == 0
/-- May it be sent now: a warp of a stopped launch sends what it staged although a record of it still waits for a pool (05 R191). -/
def State.sends (s : State) (w : Warp) : Bool :=
  w.maySend || ({ w with spec := { w.spec with sending := 0 } }.maySend && ((s.block? w.block).bind fun b => s.launch? b.launch).any (·.halting))
/-- 01 R32 (`.id` the warp): the oldest staged operation is sent; held trace records follow the last one. -/
def execStagedRelease (s : State) : Answer :=
  .next (match s.arg with
  | .id id => match s.warp? id with
    | some w =>
      if !s.sends w then s
      else match w.spec.order, w.spec.emits, w.spec.cmds, s.block? w.block with
        | true :: os, r :: rs, _, some b =>
          ((s.modWarp id fun w => { w with spec := { w.spec with order := os, emits := rs } }).stageRecords true id b.launch [r]).flushTrace id
        | false :: os, _, c :: cs, _ =>
          match s.sendWait c with
          | some t => t
          | none => ((s.modWarp id fun w => { w with spec := { w.spec with order := os, cmds := cs } }).sendCmd c).flushTrace id
        | _, _, _, _ => s.flushTrace id
    | none => s
  | _ => s)

/-! ### Turns and waits -/

/-- 11 R368 (`.two` core and quarter). -/
def execQuarterIssueSelect (s : State) : Answer := .next (match s.arg with | .two core q => s.selectTurn core q | _ => s)
/-- 05 R166 (`.id` the warp). -/
def execYieldTimeout (s : State) : Answer :=
  .next (match s.arg with
  | .id id => match s.warp? id with
    | some w => if w.yielded.any fun t => decide (t ≤ s.cycles) then s.modWarp id fun w => { w with yielded := none } else s
    | none => s
  | _ => s)
/-- 06 R228 (`.id` the warp): the `ctab` that has waited 65,536 clk looks at the slot for the last time. -/
def execCtabWaitTimeout (s : State) : Answer :=
  .next (match s.arg with
  | .id id => match s.warp? id with
    | some w =>
      if w.ctabSince.any fun t => decide (t + 65536 ≤ s.clock) then
        s.putWarp (w.onLanes (fun t => t.wait == .stall) fun t => { t with wait := .none })
      else s
    | none => s
  | _ => s)
/-- 06 R228 (`.id` the port): the oldest coded block queued at the port leaves it. -/
def execQueuedBlockSent (s : State) : Answer :=
  .next (match s.arg with
  | .id port => match s.codec.queued.find? fun q => q.1 == port with
    | some q => { s with codec := { s.codec with queued := s.codec.queued.erase q } }
    | none => s
  | _ => s)
/-- 10 R448 (`.io` offset and access): where no register stands, a load and an atomic give zero and nothing is written. -/
def execRegisterSpaceOther (s : State) : Answer :=
  .next (match s.arg with
  | .io off x =>
    let held := decide (Config.regBase ≤ off ∧ off < Config.regBase + 4) || decide (Config.telemetryBase ≤ off ∧ off < Config.telemetryBase + 0x10000)
    if held then s else match x with
      | .store _ => s
      | .load => { s with ioResult := 0 }
      | .atomic _ => { s with ioResult := 0 }
  | _ => s)

/-! ### Reorder pools (05 R178, R179) -/

/-- Is a thread of the block ready outside its pool (05 R154, R178)? One that stands before an instruction until something has performed, as R158 says of many,
does not wait in the sense of R154; one at the end of a window, one whose access a peer has still to answer, and those of a warp that is disabled, stands
before a limit or has sent records without a slot, wait. -/
def State.readyOutside (s : State) (block : Nat) : Bool :=
  (s.blockWarps block).any fun w => !w.off && w.spec.sending == 0 && w.live.any fun l => let t := w.lane l
    (t.ready || (!t.held && t.wait == .stall)) && !w.longPending l false
/-- The pool, with its threads marked to leave where no thread is ready outside. -/
def State.poolDue (s : State) (b : Block) : List PoolThread :=
  if s.readyOutside b.id then b.pool else b.pool.map fun t => { t with due := true }
/-- The threads of one pair among some, in increasing WID. -/
def pairThreads (xs : List PoolThread) (x : Pc × W32) : List PoolThread :=
  let xs := xs.filter fun t => t.pc == x.1 && t.key == x.2
  (sortNat (dedup (xs.map fun t => t.lane.wid.toNat))).flatMap fun n => xs.filter fun t => t.lane.wid.toNat == n
/-- The groups of some threads, one for each pair. -/
def pairGroups (xs : List PoolThread) : List (List PoolThread) := (dedup (xs.map fun t => (t.pc, t.key))).map (pairThreads xs)
/-- The group that leaves a pool next: W threads of one pair, or all that must leave of one pair. Which pair leaves first where several could is not said;
the first to have entered does (log entry 68). -/
def poolGroup (pool : List PoolThread) (width : Nat) : List PoolThread :=
  match (pairGroups pool).find? fun g => decide (width ≤ g.length) with
  | some g => g.take width
  | none => (pairGroups (pool.filter (·.due))).headD []
/-- The warp of a group (R179): it takes the flow of its lowest thread, and the counts of every thread, each under its new lane (06 R229; 13 R428). -/
def groupWarp (h : Header) (b : Block) (g : List PoolThread) (id slot : Nat) : Warp :=
  let lanes := (List.range h.lanes).map fun i => match g[i]? with
    | some t => t.lane
    | none => { Lane.start 0 h.regs 0 with populated := false }
  let w := Warp.start id b.id b.core slot h.prio (.start lanes h.consts h.tba) 0xFFFFFFFF b.placedAt
  { w with flow := (g.head?.map (·.flow)).getD 0, interval := (g.head?.map (·.interval)).getD 0
           sent := g.zipIdx.flatMap fun (t, i) => t.sent.map fun x => { x with lane := i } }
/-- 05 R178 (`.id` the block): a group leaves into the lowest-numbered quarter with room (11 R360). -/
def execReorderPoolDepart (s : State) : Answer :=
  .next (match s.arg with
  | .id id => match s.block? id with
    | some b => match s.launch? b.launch with
      | some l =>
        let pool := s.poolDue b
        match poolGroup pool l.hdr.lanes with
        | [] => s
        | g => if (s.core b.core).phase == .swap then s else
          let s := s.modBlock id fun b => { b with pool := pool }
          let t := s.modBlock id fun b => { b with pool := pool.filter fun x => !g.contains x }
          ((List.range 4).findSome? fun q => (t.addWarp b.core q (groupWarp l.hdr b g)).bind fun u => if u.coreLegal b.core then some u else none).getD s
      | none => s
    | none => s
  | _ => s)

/-! ### Scratchpad pages (10 R325 to R329) -/

/-- Frames of a core. -/
def coreFrames : Nat := 64
/-- Does a range at a place touch a page of a block? -/
def touchesPage (block page : Nat) (l : Loc) (n : Nat) : Bool :=
  match l with | .sp b o => b == block && decide (o / 4096 ≤ page ∧ page ≤ (o + n - 1) / 4096) | _ => false
/-- A warp whose open load has read a line of a page, and the line. -/
def State.readLock (s : State) (block page : Nat) : List (Warp × Loc) :=
  s.warps.filterMap fun w => ((readLines w.spec.window).find? fun l => touchesPage block page l 128).map fun l => (w, l)
/-- Is a page locked by an access that has not performed (R327)? -/
def State.storeLock (s : State) (block page : Nat) : Bool :=
  s.warps.any fun w => w.spec.window.any fun
    | .store _ _ es => es.any fun e => match e with
      | .granules b first count _ => touchesPage block page (.sp b (16 * first)) (16 * count)
      | _ => match e.span with | some (l, n) => touchesPage block page l n | none => false
    | .load _ _ _ => false
/-- Is a frame's page locked? -/
def State.pageLocked (s : State) (block page : Nat) : Bool := s.storeLock block page || !(s.readLock block page).isEmpty
/-- The blocks whose pages may hold frames of a core: those on it, and those of a context that it spills or takes back from its spill (10 R329). -/
def State.framers (s : State) (core : Nat) : List Block :=
  (s.blocks.filter fun b => b.core == core) ++ (s.contexts.filter fun x => (s.core core).outgoing == some x.num || (s.core core).incoming == some x.num).flatMap (·.blocks)
/-- The pages that hold frames of a core. -/
def State.framed (s : State) (core : Nat) : List (Block × Page) :=
  (s.framers core).flatMap fun b => (b.pages.filter fun p => p.frame.isSome).map fun p => (b, p)
/-- A page of a block changed. -/
def State.modPage (s : State) (block page : Nat) (f : Page → Page) : State :=
  s.modAnyBlock block fun b => { b with pages := b.pages.map fun p => if p.no = page then f p else p }
/-- A page takes a frame: zero data where it was never pinned, else it waits for its fill (R326). -/
def State.pinIn (s : State) (b : Block) (page frame : Nat) : State :=
  if b.pages.any fun p => p.no == page then s.modPage b.id page fun p => { p with frame := some frame, filling := true, lastUse := s.clock }
  else (s.modBlock b.id fun b => { b with pages := b.pages ++ [⟨page, some frame, false, s.clock, none⟩] }).retryHandlers
/-- The full-empty bits of a page as the backing area holds them (log entry 62). -/
def Block.bitBytes (b : Block) (page : Nat) : List Byte :=
  (List.range 32).map fun j => BitVec.ofNat 8 (boolBits ((List.range 8).map fun i => !b.feEmpty.contains (256 * page + 8 * j + i)))
where
  /-- The number of a list of bits, the first least significant. -/
  boolBits : List Bool → Nat
    | [] => 0
    | b :: bs => b.toNat + 2 * boolBits bs
/-- The granules of a page that its bits in a backing area give as empty. -/
def emptyOf (page : Nat) (bs : List Byte) : List Nat :=
  ((List.range 256).filter fun i => !(bs.getD (i / 8) 0).getLsbD (i % 8)).map (· + 256 * page)
/-- A frame takes the data and the bits of its page from the backing area, through the L2 (10 R326). -/
def State.fillPage (s : State) (b : Block) (page : Nat) : State :=
  match b.backing with
  | none => s
  | some a =>
    let (d, e) := pageSites a page
    let s := (s.homeLoad 0 d 4096).homeLoad 0 e 32
    let (xs, es) := (s.readLoc d 4096, emptyOf page (s.readLoc e 32))
    s.modAnyBlock b.id fun b => { b with scratch := (b.scratch.clear (4096 * page) 4096).write (4096 * page) xs, feEmpty := sortNat (b.feEmpty ++ es) }
/-- The lines of a run that differ from what memory holds are written there. -/
def State.writeChanged (s : State) : Nat → List (List Byte) → State
  | _, [] => s
  | a, x :: xs => (if s.readPa a x.length = x then s else s.ownStore a x).writeChanged (a + x.length) xs
/-- A frame's modified lines and its full-empty bits go to the backing area, through the L2 (10 R328). -/
def State.emptyPage (s : State) (b : Block) (page : Nat) : State :=
  match b.backing with
  | none => s
  | some a =>
    let lines := (List.range 32).map fun i => b.scratch.read (4096 * page + 128 * i) 128
    ((s.writeChanged (a + 4096 * page) lines).writeChanged (areaBits a page) [b.bitBytes page]).modAnyBlock b.id fun b =>
      { b with scratch := b.scratch.clear (4096 * page) 4096, feEmpty := b.feEmpty.filter fun g => g / 256 != page }
/-- 10 R326, R327 (`.two` block and page): a free frame; else the unlocked frame used longest ago is unpinned first; else the warp with the
youngest checkpoint that holds a line of a locked frame rolls back; else the pin waits. -/
def execScratchpadPin (s : State) : Answer :=
  .next (match s.arg with
  | .two id page => match s.block? id with
    | none => s
    | some b =>
      if b.pages.any fun p => p.no == page && (p.frame.isSome || p.bad.isSome) then s
      else
        let used := s.framed b.core
        match s.pickFree 2000 coreFrames (used.filterMap fun x => x.2.frame) with
        | some f => s.pinIn b page f
        | none => match minBy (fun x : Block × Page => x.2.lastUse) (used.filter fun x : Block × Page => !x.2.filling && !s.pageLocked x.1.id x.2.no) with
          | some x => (s.propose .scratchpadUnpin (.two x.1.id x.2.no)).propose .scratchpadPin (.two id page)
          | none =>
            match minBy (fun x : Warp × Loc => 2 ^ 64 - (x.1.spec.ckpt.map (·.openedAt)).getD 0) (used.flatMap fun x => s.readLock x.1.id x.2.no) with
            | some (w, l) => (s.propose .rollback (.two w.id l.code)).propose .scratchpadPin (.two id page)
            | none => s
  | _ => s)
/-- 10 R326, R329 (`.badPage` block, page and the reason of an error): the fill ends with the error that its lines have; after an error the frame stays
unfilled. -/
def execScratchpadFillDone (s : State) : Answer :=
  .next (match s.arg with
  | .badPage id page bad => match s.block? id with
    | some b =>
      if (b.pages.any fun p => p.no == page && p.filling) && bad == s.fillError b page then
        (if bad.isSome then s.modPage id page fun p => { p with filling := false, frame := none, bad := bad }
         else (s.fillPage b page).modPage id page fun p => { p with filling := false }).retryHandlers
      else s
    | none => s
  | _ => s)
/-- 10 R328 (`.two` block and page): the frame's data and full-empty bits go to the backing, and the frame is free. -/
def execScratchpadUnpin (s : State) : Answer :=
  .next (match s.arg with
  | .two id page => match s.anyBlock? id with
    | some b =>
      if (b.pages.any fun p => p.no == page && p.frame.isSome && !p.filling) && b.backing.isSome && !s.pageLocked id page then
        (s.emptyPage b page).modPage id page fun p => { p with frame := none }
      else s
    | none => s
  | _ => s)

end Sys2Proof.Machine
end

