-- ==== Sys2Proof/Machine/Dispatch.lean ====
section
/-! DEFINITION. One arm for each constructor of Instr: its meaning. -/
namespace Sys2Proof.Machine

/-- The meaning of a move. -/
def exec (i : Instr) (s : State) : Host.Outcome State Fault Refusal :=
  match i with
  | .compactPair p => Sys2Proof.Machine.execCompactPair p s
  | .iadd w => Sys2Proof.Machine.execIadd w s
  | .iaddExt w => Sys2Proof.Machine.execIaddExt w s
  | .isub w => Sys2Proof.Machine.execIsub w s
  | .isubExt w => Sys2Proof.Machine.execIsubExt w s
  | .iaddc w => Sys2Proof.Machine.execIaddc w s
  | .isubb w => Sys2Proof.Machine.execIsubb w s
  | .imul w => Sys2Proof.Machine.execImul w s
  | .imulExt w => Sys2Proof.Machine.execImulExt w s
  | .imulh w => Sys2Proof.Machine.execImulh w s
  | .imad w => Sys2Proof.Machine.execImad w s
  | .imadw w => Sys2Proof.Machine.execImadw w s
  | .ineg w => Sys2Proof.Machine.execIneg w s
  | .iabs w => Sys2Proof.Machine.execIabs w s
  | .imin w => Sys2Proof.Machine.execImin w s
  | .iminExt w => Sys2Proof.Machine.execIminExt w s
  | .imax w => Sys2Proof.Machine.execImax w s
  | .imaxExt w => Sys2Proof.Machine.execImaxExt w s
  | .iclamp w => Sys2Proof.Machine.execIclamp w s
  | .iand w => Sys2Proof.Machine.execIand w s
  | .iandExt w => Sys2Proof.Machine.execIandExt w s
  | .ior w => Sys2Proof.Machine.execIor w s
  | .iorExt w => Sys2Proof.Machine.execIorExt w s
  | .ixor w => Sys2Proof.Machine.execIxor w s
  | .ixorExt w => Sys2Proof.Machine.execIxorExt w s
  | .inot w => Sys2Proof.Machine.execInot w s
  | .iandn w => Sys2Proof.Machine.execIandn w s
  | .iandnExt w => Sys2Proof.Machine.execIandnExt w s
  | .ishl w => Sys2Proof.Machine.execIshl w s
  | .ishr w => Sys2Proof.Machine.execIshr w s
  | .isar w => Sys2Proof.Machine.execIsar w s
  | .irot w => Sys2Proof.Machine.execIrot w s
  | .ibfe w => Sys2Proof.Machine.execIbfe w s
  | .ibfi w => Sys2Proof.Machine.execIbfi w s
  | .ipopc w => Sys2Proof.Machine.execIpopc w s
  | .iclz w => Sys2Proof.Machine.execIclz w s
  | .ictz w => Sys2Proof.Machine.execIctz w s
  | .ibrev w => Sys2Proof.Machine.execIbrev w s
  | .isel w => Sys2Proof.Machine.execIsel w s
  | .icmp w => Sys2Proof.Machine.execIcmp w s
  | .icmpExt w => Sys2Proof.Machine.execIcmpExt w s
  | .idot4 w => Sys2Proof.Machine.execIdot4 w s
  | .isad w => Sys2Proof.Machine.execIsad w s
  | .lea w => Sys2Proof.Machine.execLea w s
  | .leahi w => Sys2Proof.Machine.execLeahi w s
  | .add64 w => Sys2Proof.Machine.execAdd64 w s
  | .add64Ext w => Sys2Proof.Machine.execAdd64Ext w s
  | .sub64 w => Sys2Proof.Machine.execSub64 w s
  | .sub64Ext w => Sys2Proof.Machine.execSub64Ext w s
  | .cmp64 w => Sys2Proof.Machine.execCmp64 w s
  | .cmp64Ext w => Sys2Proof.Machine.execCmp64Ext w s
  | .shl64 w => Sys2Proof.Machine.execShl64 w s
  | .shr64 w => Sys2Proof.Machine.execShr64 w s
  | .idiv w => Sys2Proof.Machine.execIdiv w s
  | .irem w => Sys2Proof.Machine.execIrem w s
  | .fadd w => Sys2Proof.Machine.execFadd w s
  | .faddExt w => Sys2Proof.Machine.execFaddExt w s
  | .fsub w => Sys2Proof.Machine.execFsub w s
  | .fsubExt w => Sys2Proof.Machine.execFsubExt w s
  | .fmul w => Sys2Proof.Machine.execFmul w s
  | .fmulExt w => Sys2Proof.Machine.execFmulExt w s
  | .ffma w => Sys2Proof.Machine.execFfma w s
  | .fmin w => Sys2Proof.Machine.execFmin w s
  | .fmax w => Sys2Proof.Machine.execFmax w s
  | .fcmp w => Sys2Proof.Machine.execFcmp w s
  | .fcmpExt w => Sys2Proof.Machine.execFcmpExt w s
  | .fclass w => Sys2Proof.Machine.execFclass w s
  | .frnd w => Sys2Proof.Machine.execFrnd w s
  | .frcp w => Sys2Proof.Machine.execFrcp w s
  | .frsq w => Sys2Proof.Machine.execFrsq w s
  | .fsqrt w => Sys2Proof.Machine.execFsqrt w s
  | .fdiv w => Sys2Proof.Machine.execFdiv w s
  | .fexp2 w => Sys2Proof.Machine.execFexp2 w s
  | .flog2 w => Sys2Proof.Machine.execFlog2 w s
  | .fsin w => Sys2Proof.Machine.execFsin w s
  | .fcos w => Sys2Proof.Machine.execFcos w s
  | .ftanh w => Sys2Proof.Machine.execFtanh w s
  | .fsig w => Sys2Proof.Machine.execFsig w s
  | .hadd2 w => Sys2Proof.Machine.execHadd2 w s
  | .hadd2Ext w => Sys2Proof.Machine.execHadd2Ext w s
  | .hmul2 w => Sys2Proof.Machine.execHmul2 w s
  | .hmul2Ext w => Sys2Proof.Machine.execHmul2Ext w s
  | .hfma2 w => Sys2Proof.Machine.execHfma2 w s
  | .bfma2 w => Sys2Proof.Machine.execBfma2 w s
  | .fdot2 w => Sys2Proof.Machine.execFdot2 w s
  | .cvt w => Sys2Proof.Machine.execCvt w s
  | .bxpack w => Sys2Proof.Machine.execBxpack w s
  | .bxunpack w => Sys2Proof.Machine.execBxunpack w s
  | .pset w => Sys2Proof.Machine.execPset w s
  | .pand w => Sys2Proof.Machine.execPand w s
  | .por w => Sys2Proof.Machine.execPor w s
  | .pxor w => Sys2Proof.Machine.execPxor w s
  | .pnot w => Sys2Proof.Machine.execPnot w s
  | .pmov w => Sys2Proof.Machine.execPmov w s
  | .mov w => Sys2Proof.Machine.execMov w s
  | .movi w => Sys2Proof.Machine.execMovi w s
  | .movs w => Sys2Proof.Machine.execMovs w s
  | .sadd w => Sys2Proof.Machine.execSadd w s
  | .saddExt w => Sys2Proof.Machine.execSaddExt w s
  | .ssub w => Sys2Proof.Machine.execSsub w s
  | .ssubExt w => Sys2Proof.Machine.execSsubExt w s
  | .sand w => Sys2Proof.Machine.execSand w s
  | .sandExt w => Sys2Proof.Machine.execSandExt w s
  | .sor w => Sys2Proof.Machine.execSor w s
  | .sorExt w => Sys2Proof.Machine.execSorExt w s
  | .sshl w => Sys2Proof.Machine.execSshl w s
  | .scmp w => Sys2Proof.Machine.execScmp w s
  | .scmpExt w => Sys2Proof.Machine.execScmpExt w s
  | .sprrd w => Sys2Proof.Machine.execSprrd w s
  | .sprwr w => Sys2Proof.Machine.execSprwr w s
  | .bnload w => Sys2Proof.Machine.execBnload w s
  | .bnloadExt w => Sys2Proof.Machine.execBnloadExt w s
  | .bnperm w => Sys2Proof.Machine.execBnperm w s
  | .bnmov w => Sys2Proof.Machine.execBnmov w s
  | .shfl w => Sys2Proof.Machine.execShfl w s
  | .vote w => Sys2Proof.Machine.execVote w s
  | .redux w => Sys2Proof.Machine.execRedux w s
  | .scan w => Sys2Proof.Machine.execScan w s
  | .matchLanes w => Sys2Proof.Machine.execMatchLanes w s
  | .popm w => Sys2Proof.Machine.execPopm w s
  | .bra w => Sys2Proof.Machine.execBra w s
  | .braExt w => Sys2Proof.Machine.execBraExt w s
  | .braCond w => Sys2Proof.Machine.execBraCond w s
  | .brx w => Sys2Proof.Machine.execBrx w s
  | .call w => Sys2Proof.Machine.execCall w s
  | .callExt w => Sys2Proof.Machine.execCallExt w s
  | .callCond w => Sys2Proof.Machine.execCallCond w s
  | .callx w => Sys2Proof.Machine.execCallx w s
  | .ret w => Sys2Proof.Machine.execRet w s
  | .exit w => Sys2Proof.Machine.execExit w s
  | .yield w => Sys2Proof.Machine.execYield w s
  | .nop w => Sys2Proof.Machine.execNop w s
  | .barInit w => Sys2Proof.Machine.execBarInit w s
  | .barArrive w => Sys2Proof.Machine.execBarArrive w s
  | .barWait w => Sys2Proof.Machine.execBarWait w s
  | .barSync w => Sys2Proof.Machine.execBarSync w s
  | .emit w => Sys2Proof.Machine.execEmit w s
  | .emitm w => Sys2Proof.Machine.execEmitm w s
  | .reorder w => Sys2Proof.Machine.execReorder w s
  | .trig w => Sys2Proof.Machine.execTrig w s
  | .lwait w => Sys2Proof.Machine.execLwait w s
  | .ld w => Sys2Proof.Machine.execLd w s
  | .ldExt w => Sys2Proof.Machine.execLdExt w s
  | .st w => Sys2Proof.Machine.execSt w s
  | .stExt w => Sys2Proof.Machine.execStExt w s
  | .ldfe w => Sys2Proof.Machine.execLdfe w s
  | .ldfeExt w => Sys2Proof.Machine.execLdfeExt w s
  | .stfe w => Sys2Proof.Machine.execStfe w s
  | .stfeExt w => Sys2Proof.Machine.execStfeExt w s
  | .fereset w => Sys2Proof.Machine.execFereset w s
  | .fequery w => Sys2Proof.Machine.execFequery w s
  | .ldbx w => Sys2Proof.Machine.execLdbx w s
  | .stbx w => Sys2Proof.Machine.execStbx w s
  | .pfetch w => Sys2Proof.Machine.execPfetch w s
  | .pfetchExt w => Sys2Proof.Machine.execPfetchExt w s
  | .atom w => Sys2Proof.Machine.execAtom w s
  | .atomExt w => Sys2Proof.Machine.execAtomExt w s
  | .red w => Sys2Proof.Machine.execRed w s
  | .redExt w => Sys2Proof.Machine.execRedExt w s
  | .copy w => Sys2Proof.Machine.execCopy w s
  | .gather w => Sys2Proof.Machine.execGather w s
  | .scatter w => Sys2Proof.Machine.execScatter w s
  | .fill w => Sys2Proof.Machine.execFill w s
  | .pub w => Sys2Proof.Machine.execPub w s
  | .cwait w => Sys2Proof.Machine.execCwait w s
  | .cpoll w => Sys2Proof.Machine.execCpoll w s
  | .ctab w => Sys2Proof.Machine.execCtab w s
  | .fabfence w => Sys2Proof.Machine.execFabfence w s
  | .mckpt w => Sys2Proof.Machine.execMckpt w s
  | .mres w => Sys2Proof.Machine.execMres w s
  | .mrel w => Sys2Proof.Machine.execMrel w s
  | .mshape w => Sys2Proof.Machine.execMshape w s
  | .mprol w => Sys2Proof.Machine.execMprol w s
  | .mzero w => Sys2Proof.Machine.execMzero w s
  | .mmac w => Sys2Proof.Machine.execMmac w s
  | .mread w => Sys2Proof.Machine.execMread w s
  | .mwrite w => Sys2Proof.Machine.execMwrite w s
  | .mwait w => Sys2Proof.Machine.execMwait w s
  | .nnev w => Sys2Proof.Machine.execNnev w s
  | .nnflush w => Sys2Proof.Machine.execNnflush w s
  | .rtrace w => Sys2Proof.Machine.execRtrace w s
  | .rnext w => Sys2Proof.Machine.execRnext w s
  | .rhit w => Sys2Proof.Machine.execRhit w s
  | .rend w => Sys2Proof.Machine.execRend w s
  | .rquery w => Sys2Proof.Machine.execRquery w s
  | .rfwd w => Sys2Proof.Machine.execRfwd w s
  | .ccomp w => Sys2Proof.Machine.execCcomp w s
  | .callred w => Sys2Proof.Machine.execCallred w s
  | .trap w => Sys2Proof.Machine.execTrap w s
  | .rti w => Sys2Proof.Machine.execRti w s
  | .tmask w => Sys2Proof.Machine.execTmask w s
  | .tunmask w => Sys2Proof.Machine.execTunmask w s
  | .tlbinv w => Sys2Proof.Machine.execTlbinv w s
  | .tlbinvExt w => Sys2Proof.Machine.execTlbinvExt w s
  | .cachectl w => Sys2Proof.Machine.execCachectl w s
  | .tmark w => Sys2Proof.Machine.execTmark w s
  | .specoff w => Sys2Proof.Machine.execSpecoff w s
  | .specon w => Sys2Proof.Machine.execSpecon w s
  | .halt w => Sys2Proof.Machine.execHalt w s
  | .ctxsw w => Sys2Proof.Machine.execCtxsw w s
  | .powerOn => Sys2Proof.Machine.execPowerOn s
  | .packageReset => Sys2Proof.Machine.execPackageReset s
  | .functionReset => Sys2Proof.Machine.execFunctionReset s
  | .setPortRoles => Sys2Proof.Machine.execSetPortRoles s
  | .acceptFeatures => Sys2Proof.Machine.execAcceptFeatures s
  | .registerLaunchQueue => Sys2Proof.Machine.execRegisterLaunchQueue s
  | .registerFaultQueue => Sys2Proof.Machine.execRegisterFaultQueue s
  | .registerStatusPage => Sys2Proof.Machine.execRegisterStatusPage s
  | .registerEventQueue => Sys2Proof.Machine.execRegisterEventQueue s
  | .setPasidContext => Sys2Proof.Machine.execSetPasidContext s
  | .mapTenant => Sys2Proof.Machine.execMapTenant s
  | .reKeyPage => Sys2Proof.Machine.execReKeyPage s
  | .loadRouteTable => Sys2Proof.Machine.execLoadRouteTable s
  | .bindEndpoint => Sys2Proof.Machine.execBindEndpoint s
  | .setPools => Sys2Proof.Machine.execSetPools s
  | .setLarderSize => Sys2Proof.Machine.execSetLarderSize s
  | .setTongsTimer => Sys2Proof.Machine.execSetTongsTimer s
  | .setThermalLimits => Sys2Proof.Machine.execSetThermalLimits s
  | .attest => Sys2Proof.Machine.execAttest s
  | .releaseDumpOrTrace => Sys2Proof.Machine.execReleaseDumpOrTrace s
  | .restoreMemoryImage => Sys2Proof.Machine.execRestoreMemoryImage s
  | .mailboxUnknownCode => Sys2Proof.Machine.execMailboxUnknownCode s
  | .tailWordWrite => Sys2Proof.Machine.execTailWordWrite s
  | .launchEntryAccept => Sys2Proof.Machine.execLaunchEntryAccept s
  | .dependenceSatisfied => Sys2Proof.Machine.execDependenceSatisfied s
  | .leaseSetupDone => Sys2Proof.Machine.execLeaseSetupDone s
  | .blockPlace => Sys2Proof.Machine.execBlockPlace s
  | .launchTrigger => Sys2Proof.Machine.execLaunchTrigger s
  | .launchComplete => Sys2Proof.Machine.execLaunchComplete s
  | .recordPlacement => Sys2Proof.Machine.execRecordPlacement s
  | .poolSlotFree => Sys2Proof.Machine.execPoolSlotFree s
  | .batchLaunch => Sys2Proof.Machine.execBatchLaunch s
  | .binTimerExpiry => Sys2Proof.Machine.execBinTimerExpiry s
  | .poolStallRelief => Sys2Proof.Machine.execPoolStallRelief s
  | .consumerReserveFree => Sys2Proof.Machine.execConsumerReserveFree s
  | .quarterIssueSelect => Sys2Proof.Machine.execQuarterIssueSelect s
  | .yieldTimeout => Sys2Proof.Machine.execYieldTimeout s
  | .priorityPreempt => Sys2Proof.Machine.execPriorityPreempt s
  | .thermalMigration => Sys2Proof.Machine.execThermalMigration s
  | .shadowLoadDone => Sys2Proof.Machine.execShadowLoadDone s
  | .shadowSwap => Sys2Proof.Machine.execShadowSwap s
  | .spillDone => Sys2Proof.Machine.execSpillDone s
  | .contextRestore => Sys2Proof.Machine.execContextRestore s
  | .saveAreaReturn => Sys2Proof.Machine.execSaveAreaReturn s
  | .stagedRelease => Sys2Proof.Machine.execStagedRelease s
  | .loadPerform => Sys2Proof.Machine.execLoadPerform s
  | .storePerform => Sys2Proof.Machine.execStorePerform s
  | .rollback => Sys2Proof.Machine.execRollback s
  | .rollbackIntervalExpiry => Sys2Proof.Machine.execRollbackIntervalExpiry s
  | .longInstructionComplete => Sys2Proof.Machine.execLongInstructionComplete s
  | .asyncTrapDelivery => Sys2Proof.Machine.execAsyncTrapDelivery s
  | .fatalTrap => Sys2Proof.Machine.execFatalTrap s
  | .permitBackoffExpiry => Sys2Proof.Machine.execPermitBackoffExpiry s
  | .faultQueueHeadMove => Sys2Proof.Machine.execFaultQueueHeadMove s
  | .faultEntryComplete => Sys2Proof.Machine.execFaultEntryComplete s
  | .priResponse => Sys2Proof.Machine.execPriResponse s
  | .atsInvalidationRequest => Sys2Proof.Machine.execAtsInvalidationRequest s
  | .hostSnoopOwnership => Sys2Proof.Machine.execHostSnoopOwnership s
  | .hostSnoopRead => Sys2Proof.Machine.execHostSnoopRead s
  | .hostMemAccess => Sys2Proof.Machine.execHostMemAccess s
  | .backInvalidateAnswer => Sys2Proof.Machine.execBackInvalidateAnswer s
  | .writebackAck => Sys2Proof.Machine.execWritebackAck s
  | .linkDown => Sys2Proof.Machine.execLinkDown s
  | .linkRetrain => Sys2Proof.Machine.execLinkRetrain s
  | .fabricLinkChange => Sys2Proof.Machine.execFabricLinkChange s
  | .fabricPacketArrival => Sys2Proof.Machine.execFabricPacketArrival s
  | .remoteAccessIngress => Sys2Proof.Machine.execRemoteAccessIngress s
  | .remoteResponseArrival => Sys2Proof.Machine.execRemoteResponseArrival s
  | .remoteTimeout => Sys2Proof.Machine.execRemoteTimeout s
  | .atomicCacheLeaseExpiry => Sys2Proof.Machine.execAtomicCacheLeaseExpiry s
  | .atomicCacheRecall => Sys2Proof.Machine.execAtomicCacheRecall s
  | .countEntryAgeOut => Sys2Proof.Machine.execCountEntryAgeOut s
  | .countQuery => Sys2Proof.Machine.execCountQuery s
  | .remoteRecordArrival => Sys2Proof.Machine.execRemoteRecordArrival s
  | .recordAckArrival => Sys2Proof.Machine.execRecordAckArrival s
  | .slotGrant => Sys2Proof.Machine.execSlotGrant s
  | .slotRevoke => Sys2Proof.Machine.execSlotRevoke s
  | .creditReturn => Sys2Proof.Machine.execCreditReturn s
  | .peergone => Sys2Proof.Machine.execPeergone s
  | .collectiveStart => Sys2Proof.Machine.execCollectiveStart s
  | .crucibleData => Sys2Proof.Machine.execCrucibleData s
  | .requestAgain => Sys2Proof.Machine.execRequestAgain s
  | .crucibleAbort => Sys2Proof.Machine.execCrucibleAbort s
  | .crucibleAck => Sys2Proof.Machine.execCrucibleAck s
  | .crucibleRoundTimer => Sys2Proof.Machine.execCrucibleRoundTimer s
  | .collectiveComplete => Sys2Proof.Machine.execCollectiveComplete s
  | .shardVersionWrite => Sys2Proof.Machine.execShardVersionWrite s
  | .versionNotice => Sys2Proof.Machine.execVersionNotice s
  | .larderFillResponse => Sys2Proof.Machine.execLarderFillResponse s
  | .registerSpaceOther => Sys2Proof.Machine.execRegisterSpaceOther s
  | .scratchpadPin => Sys2Proof.Machine.execScratchpadPin s
  | .scratchpadFillDone => Sys2Proof.Machine.execScratchpadFillDone s
  | .scratchpadUnpin => Sys2Proof.Machine.execScratchpadUnpin s
  | .errorSelftest => Sys2Proof.Machine.execErrorSelftest s
  | .powerThrottle => Sys2Proof.Machine.execPowerThrottle s
  | .powerRecover => Sys2Proof.Machine.execPowerRecover s
  | .tongsRequest => Sys2Proof.Machine.execTongsRequest s
  | .tongsTimerExpiry => Sys2Proof.Machine.execTongsTimerExpiry s
  | .tongsTileCheck => Sys2Proof.Machine.execTongsTileCheck s
  | .tongsTileResult => Sys2Proof.Machine.execTongsTileResult s
  | .anvilPassGrant => Sys2Proof.Machine.execAnvilPassGrant s
  | .anvilPassDone => Sys2Proof.Machine.execAnvilPassDone s
  | .rayTraversalDone => Sys2Proof.Machine.execRayTraversalDone s
  | .engineCommandDone => Sys2Proof.Machine.execEngineCommandDone s
  | .ctabWaitTimeout => Sys2Proof.Machine.execCtabWaitTimeout s
  | .reorderPoolDepart => Sys2Proof.Machine.execReorderPoolDepart s
  | .powerGating => Sys2Proof.Machine.execPowerGating s
  | .atsTranslationCompletion => Sys2Proof.Machine.execAtsTranslationCompletion s
  | .eventQueueHeadMove => Sys2Proof.Machine.execEventQueueHeadMove s
  | .versionNoticeAcknowledgement => Sys2Proof.Machine.execVersionNoticeAcknowledgement s
  | .selfTestEnd => Sys2Proof.Machine.execSelfTestEnd s
  | .queuedBlockSent => Sys2Proof.Machine.execQueuedBlockSent s

end Sys2Proof.Machine
end

