-- ==== Sys2Proof/Machine/Own.lean ====
section
/-! DEFINITION. The moves that the package makes of its own accord, each listed where the state may let it happen; the meaning of a move looks at all
that it needs, and one that cannot happen after all changes nothing (log entries 1 and 9). What comes from outside (the host, a link, a peer, the
mailbox, power) is listed nowhere here: it stands on the agenda. -/
namespace Sys2Proof.Machine

/-- A list of moves, kept where a condition holds. -/
def movesIf (c : Bool) (ms : List Move) : List Move := if c then ms else []
/-- The cores of the package. -/
def allCores : List Nat := List.range Config.cores

/-- The scheduler's moves for a launch (11 R352 to R370). -/
def State.launchMoves (s : State) (l : Launch) : List Move :=
  movesIf (l.phase == .reading || l.phase == .listing || l.phase == .tabling) [.event .launchEntryAccept (.two l.queue l.id)]
  ++ movesIf (l.phase == .waiting) [.event .dependenceSatisfied (.id l.id)]
  ++ movesIf (l.phase == .pending) [.event .leaseSetupDone (.id l.id)]
  ++ movesIf (s.canTrigger l) [.event .launchTrigger (.id l.id)]
  ++ movesIf (s.canComplete l) [.event .launchComplete (.id l.id)]
  ++ movesIf l.wantsBlock (allCores.map fun c => .event .blockPlace (.two l.id c))
  ++ movesIf (l.wantsBlock || (s.highestDue l).isSome) (allCores.map fun c => .event .priorityPreempt (.two l.id c))
  ++ (List.range l.nodes.length).flatMap (fun n =>
    movesIf (!(l.fullBatch n).isEmpty) (allCores.map fun c => .event .batchLaunch (.three l.id n c))
    ++ movesIf (!(s.timedBatch l n).isEmpty) (allCores.map fun c => .event .binTimerExpiry (.three l.id n c)))
  ++ movesIf (s.highestDue l).isSome (allCores.flatMap fun c =>
    [.event .consumerReserveFree (.two l.id c)] ++ movesIf (s.poolStalled c) [.event .poolStallRelief (.two l.id c)])
  ++ (dedup (l.senders.map fun x => x.rc.node)).flatMap (fun n => [.event .recordPlacement (.two l.id n), .event .poolSlotFree (.two l.id n)])

/-- Queues and the rings that others move on (11 R350, 12 R393, 13 R418). -/
def State.queueMoves (s : State) : List Move :=
  s.queues.flatMap (fun q =>
    let x := s.numPa q.cfg.tailPa 4
    movesIf (x != q.tail.toNat) [.event .tailWordWrite (.word q.no (BitVec.ofNat 32 x))] ++
    movesIf (q.stop == 0 && BitVec.ofNat 32 q.read != q.tail) [.event .launchEntryAccept (.id q.no)])
  ++ s.faultQs.flatMap (fun q =>
    let x := s.numPa q.cfg.headPa 4
    movesIf (x != q.head.toNat) [.event .faultQueueHeadMove (.word q.no (BitVec.ofNat 32 x))])
  ++ s.faultWaits.filterMap (fun f => match f.place with
    | .entry fq t => if (match s.faultQs.find? fun q => q.no == fq with | some q => s.entryStat q t != 1 | none => false) then
        some (.event .faultEntryComplete (.two fq t)) else none
    | _ => none)
  ++ (match s.eventQ with
    | some q => let x := s.numPa q.cfg.headPa 4
                movesIf (x != q.head.toNat) [.event .eventQueueHeadMove (.word 0 (BitVec.ofNat 32 x))]
    | none => [])

/-- The moves of a warp's accesses, long instructions and traps (03 R86, 06, 09 R300, 12 R381). -/
def State.warpMoves (s : State) (w : Warp) : List Move :=
  (match w.spec.window with
    | .load _ _ _ :: _ => [.event .loadPerform (.id w.id)]
    | .store _ _ _ :: _ => [.event .storePerform (.id w.id)]
    | [] => [])
  ++ w.longs.filterMap (fun o => if o.parts == 0 && !o.done then some (.event .longInstructionComplete (.two w.id o.id)) else none)
  ++ movesIf (s.sends w && (!w.spec.order.isEmpty || !w.heldTrace.isEmpty)) [.event .stagedRelease (.id w.id)]
  ++ movesIf (w.yielded.any fun t => decide (t ≤ s.cycles)) [.event .yieldTimeout (.id w.id)]
  ++ movesIf (w.ctabSince.any fun t => decide (t + 65536 ≤ s.clock)) [.event .ctabWaitTimeout (.id w.id)]
  ++ movesIf (!w.asyncs.isEmpty) [.event .asyncTrapDelivery (.id w.id)]
  ++ movesIf (s.fatalNew (.warp w.id) && w.settled) [.event .fatalTrap (.agent (.warp w.id))]
  ++ movesIf (w.backoff.any fun b => b.retryAt != 0 && decide (b.retryAt ≤ s.clock)) [.event .permitBackoffExpiry (.agent (.warp w.id))]

/-- The moves of a block: its reorder pool, its scratchpad pages, its matrix stream (05 R178, 10 R326 to R329, 12 R383). A fill meets the errors of its page's
lines in the backing area. -/
def State.blockMoves (s : State) (b : Block) : List Move :=
  movesIf (!b.pool.isEmpty) [.event .reorderPoolDepart (.id b.id)]
  ++ b.pages.flatMap (fun p =>
    movesIf p.filling [.event .scratchpadFillDone (.badPage b.id p.no (s.fillError b p.no))]
    ++ movesIf (p.frame.isSome && !p.filling) [.event .scratchpadUnpin (.two b.id p.no)])
  ++ (match b.stream with
    | some x => movesIf (s.fatalNew (.stream b.id)) [.event .fatalTrap (.agent (.stream b.id))] ++
        movesIf (x.backoff.any fun k => k.retryAt != 0 && decide (k.retryAt ≤ s.clock)) [.event .permitBackoffExpiry (.agent (.stream b.id))]
    | none => [])
/-- Traps of engine commands that reached no warp (06 R217). -/
def State.orphanMoves (s : State) : List Move :=
  (s.launches.flatMap (·.orphans)).flatMap fun o =>
    movesIf (s.fatalNew (.engine o.block)) [.event .fatalTrap (.agent (.engine o.block))] ++
    movesIf (o.backoff.any fun k => k.retryAt != 0 && decide (k.retryAt ≤ s.clock)) [.event .permitBackoffExpiry (.agent (.engine o.block))]

/-- The fixed-function units: Tongs, Anvil, ray engines, transfer engines, the Crucible, the codec's ports (07, 08, 06). -/
def State.unitMoves (s : State) : List Move :=
  (dedup (s.quads.nnReqs.map (·.quad))).map (fun q => .event .tongsRequest (.id q))
  ++ s.quads.tiles.flatMap (fun t =>
    movesIf (!t.sent) [.event .tongsTimerExpiry (.id t.id)] ++ movesIf (t.sent && !t.checked) [.event .tongsTileCheck (.id t.id)] ++
    movesIf t.passed [.event .tongsTileResult (.id t.id)])
  ++ s.quads.ops.map (fun o => if o.granted then .event .anvilPassDone (.id o.id) else .event .anvilPassGrant (.id o.id))
  ++ s.rays.map (fun r => .event .rayTraversalDone (.two r.warp r.lane))
  ++ s.engines.map (fun c => .event .engineCommandDone (.id c.id))
  ++ (s.engines.filter EngCmd.collective).map (fun c => .event .collectiveStart (.id c.id))
  ++ s.crucible.colls.flatMap (fun k => [.event .crucibleRoundTimer (.id k.cmd.id), .event .collectiveComplete (.id k.cmd.id)])
  ++ (dedup (s.codec.queued.map (·.1))).map (fun p => .event .queuedBlockSent (.id p))

/-- Pre-emption on a core, and its rollback interval (09 R312; 11 R371 to R375); the spill engine unpins the pages of what it saves (10 R329). -/
def State.coreMoves (s : State) (c : Core) : List Move :=
  (match c.phase with
    | .run => []
    | .load => [.event .shadowLoadDone (.id c.no)]
    | .swap => [.event .shadowSwap (.id c.no)]
    | .spill => [.event .spillDone (.id c.no)])
  ++ (match c.outgoing.bind s.context? with
    | some x => x.blocks.flatMap fun b => (b.pages.filter fun p => p.frame.isSome).map fun p => .event .scratchpadUnpin (.two b.id p.no)
    | none => [])
  ++ movesIf (c.interval != s.clock / 4096) [.event .rollbackIntervalExpiry (.id c.no)]
  ++ movesIf (s.hot c.no && c.phase == .run) [.event .thermalMigration (.temps c.no [])]
/-- Saved contexts, and one that is being spilled and may come back at once (11 R370 to R372, R374). -/
def State.contextMoves (s : State) : List Move :=
  s.contexts.flatMap fun x =>
    movesIf (s.contextWaits x) (allCores.map fun c => .event .contextRestore (.two x.num c))
    ++ allCores.flatMap (fun c => movesIf (s.contextWaits x || s.swapsBack x c) [.event .priorityPreempt (.three 0 x.num c)])
    ++ movesIf (x.blocks.isEmpty && !s.contextBusy x.num) [.event .saveAreaReturn (.id x.num)]

/-- The fabric's side of the package and the caches (10 R336, 13 R414, R426 to R430). -/
def State.fabricMoves (s : State) : List Move :=
  s.arrived.map (fun p => .event .remoteAccessIngress (.packet p))
  ++ s.ingress.flatMap (fun i => [.event .atomicCacheLeaseExpiry (.id i.line)])
  ++ s.counts.flatMap (fun c => movesIf (!c.unknown && decide (c.touched + tenMilliseconds ≤ s.clock)) [.event .countEntryAgeOut (.three c.src c.flow c.interval)])
  ++ s.remotes.flatMap (fun r => movesIf (decide (r.issued + remoteLimit ≤ s.clock)) [.event .remoteTimeout (.id r.id)])
  ++ s.cache.writeBacks.map (fun x => .event .writebackAck (.two x.core x.line))
  ++ (List.range 48).flatMap (fun q => movesIf (s.cache.l1.any (fun x => x.1 / 4 == q) && s.gateable (4 * q) 4) [.event .powerGating (.word (4 * q) 4)])
  ++ [0, 96].flatMap (fun d => movesIf (s.cache.l1.any (fun x => x.1 / 96 == d / 96) && s.gateable d 96) [.event .powerGating (.word d 96)])
/-- The Hearth's own moves: a self-test that ends before its time is over, a route table and a reset that wait (12 R411, 13 R414, 14 R437). -/
def State.hearthMoves (s : State) : List Move :=
  s.tests.flatMap (fun t => movesIf t.deadline.isSome [.event .selfTestEnd (.flag t.id false), .event .selfTestEnd (.flag t.id true)])
  ++ (match s.mailbox.pending with
    | some (.restoreMemoryImage _) => [.event .restoreMemoryImage .none]
    | some _ => [.event .loadRouteTable .none]
    | none => [])
  ++ (match s.resetting with | some (i, a) => [.event i a] | none => [])

/-- The enabled moves of the package's own agents. -/
def State.ownMoves (s : State) : List Move :=
  s.queueMoves ++ s.launches.flatMap s.launchMoves ++ s.warps.flatMap s.warpMoves ++ s.blocks.flatMap s.blockMoves ++ s.orphanMoves ++ s.unitMoves
  ++ s.cores.flatMap s.coreMoves ++ s.contextMoves ++ s.fabricMoves ++ s.hearthMoves

end Sys2Proof.Machine
end

