-- ==== Sys2Proof/Machine/Step.lean ====
section
/-! DEFINITION. One step of the package: the next move, its meaning, the passing of time (log entry 1). -/
namespace Sys2Proof.Machine

/-- A meaning's answer with the end of the step; a restart has set CLOCK to 0. -/
def endStep (clock free : Nat) (i : Option Instr) : Host.Outcome State Fault Refusal → Host.Outcome State Fault Refusal
  | .next s => .next (s.tick (if i.any restarts ∧ s.clock = 0 then 0 else clock) free (i.any wakes))
  | .fault r => .fault r
  | .refused r => .refused r

/-- The move that a step makes. -/
def State.move (s : State) : Prep := s.nextMove s.ownMoves

/-- The path whose turn it is: no proposed move comes before it. -/
def State.path? (s : State) : Option Issue := if s.agenda.isEmpty then s.turn.head? else none

/-- The state after the move of a path, made to see whether the path can issue (05 R154). -/
def State.trial (s : State) (p : Issue) : State :=
  match s.issue p with
  | .run i t => match Sys2Proof.Machine.exec i t with | .next u => u | _ => t
  | .quiet t => t
/-- The selection of a warp chooses the paths of its turn (05 R155). -/
def State.opened (s : State) (ran : Option Instr) : State := if ran = some .quarterIssueSelect then s.openTurn State.trial else s
/-- The move of a state that stores to lines of HBM the host must give up first (13 R413): they are asked for, and the move is made when they have come. One
that was proposed stands first then, a path or a stream waits before its instruction, and the package proposes another of its own again (log entry 64). -/
def State.withhold (s : State) (lines : List Nat) : State :=
  let t := lines.foldl State.backInvalidate s
  match s.agenda, s.turn with
  | m :: rest, _ => { t with agenda := rest, blocked := t.blocked ++ [m] }
  | [], p :: rest =>
    let t := { t with turn := rest }
    if p.stream then t.modBlock p.owner fun b => { b with stream := b.stream.map fun x => { x with wait := .stall } }
    else t.modWarp p.owner fun w => w.modLanes (w.pathLanes p) fun t => { t with wait := .stall }
  | [], [] => t
/-- After a move: one that needs lines of the host is withheld, else a selected warp's turn begins; a path's turn goes on or ends (05 R155). -/
def afterMove (s : State) (ran : Option Instr) : Host.Outcome State Fault Refusal → Host.Outcome State Fault Refusal
  | .next t =>
    let u := if t.hostWait = [] then t.opened ran else s.withhold t.hostWait
    .next (match s.path? with
    | some p => u.pathDone { s with turn := s.turn.tail } p (if t.hostWait = [] then ran else none)
    | none => u)
  | .fault r => .fault r
  | .refused r => .refused r

/-- One step. -/
def step (s : State) : Host.Outcome State Fault Refusal :=
  match s.stuck with
  | some stage => .fault (.packageHalted stage)
  | none =>
    match s.move with
    | .run i t => endStep s.clock s.free (some i) (afterMove s (some i) (exec i t))
    | .quiet t => endStep s.clock s.free none (afterMove s none (.next t))

/-- The state whose next step fetches and runs the instruction of a table word (log entry 2). -/
def State.withFetchWord (s : State) (nbits w : Nat) : State := s.withWord nbits w

end Sys2Proof.Machine
end

