-- ==== Sys2Proof/WellFormed.lean ====
section
/-! DEFINITION. When an instruction is one that a word can stand for: every check of 03 R96 passes. -/
namespace Sys2Proof

open Sys2Proof.Machine

/-- The rows that share an opcode name their own modifier: the conditional branches (07 R235) and the forms of `bar` (05 R167). -/
def Instr.ownForm : Instr → Bool
  | .bra w => !w.mod.getLsbD 3
  | .braExt w => !w.modlo.getLsbD 3
  | .braCond (.std w) => w.mod.getLsbD 3
  | .braCond (.ext w) => w.modlo.getLsbD 3
  | .call w => !w.mod.getLsbD 3
  | .callExt w => !w.modlo.getLsbD 3
  | .callCond (.std w) => w.mod.getLsbD 3
  | .callCond (.ext w) => w.modlo.getLsbD 3
  | .barInit w => w.mod.toNat % 4 == 0
  | .barArrive w => w.mod.toNat % 4 == 1
  | .barWait w => w.mod.toNat % 4 == 2
  | .barSync w => w.mod.toNat % 4 == 3
  | _ => true

/-- Well-formed in a context: it has an encoding, the encoding passes every check of 03 R96, and the row names the form it carries. -/
def WellFormed (cx : DecCtx) (i : Instr) : Bool :=
  i.ownForm && match i.enc with
    | some e => (encBad cx e).isNone
    | none => false

end Sys2Proof
end

