-- ==== Sys2Proof/Terms.lean ====
section
/-! DEFINITION. The words that the statements about instructions are written in: what an instruction of a warp writes, and that it changes nothing else. -/
namespace Sys2Proof.Machine

/-- A thread without its V and P registers, its program counter and the parts an unfinished instruction has obtained. -/
def Lane.rest (t : Lane) : Lane := { t with v := [], p := 0, pc := 0, got := Option.none, plan := Option.none }

/-- `w'` is the warp `w` after an instruction that has issued in the lanes `act` and has given the registers these values: V(k, l), P(k, l),
S(k), bn(k). The threads of `act` stand after the instruction; every other part of the warp is as it was, but for the counts of 03 R86, 09 R304
and R313 and the back-off of 12 R381. -/
structure Wrote (w w' : Warp) (i : Issue) (act : List Nat) (v : Nat → Nat → W32) (p : Nat → Nat → Bool) (u : Nat → W64)
    (bn : Nat → BitVec 352) : Prop where
  v : ∀ l k, w'.v l k = v l k
  p : ∀ l k, w'.p l k = p l k
  u : ∀ k, w'.s k = u k
  bn : ∀ k, w'.bnr k = bn k
  pc : ∀ l, (w'.lane l).pc = if l ∈ act then (w.lane l).pc + BitVec.ofNat 61 i.length else (w.lane l).pc
  thread : ∀ l, (w'.lane l).rest = (w.lane l).rest
  width : w'.width = w.width
  trap : w'.regs.trap = w.regs.trap
  fmt : w'.regs.fmtword = w.regs.fmtword
  windows : w'.longs = tickLongs w.longs act i.count
  spec : w'.spec = { w.spec with ulog := w'.spec.ulog, crfl := w.spec.crfl - i.count }
  others : w' = { w with regs := w'.regs, longs := w'.longs, spec := w'.spec, backoff := w'.backoff }

/-- One 32-bit result for register `d`. -/
def only1 (d : Nat) (x : W32) (k : Nat) : Option W32 := if k = d then some x else none
/-- A 64-bit result for the pair `d`, low half first. -/
def only2 (d : Nat) (x : W64) (k : Nat) : Option W32 := if k = d then some (lo32 x) else if k = d + 1 then some (hi32 x) else none
/-- Results for the registers from `d` on. -/
def onlyN (d : Nat) (xs : List W32) (k : Nat) : Option W32 := if d ≤ k then xs[k - d]? else none
/-- One result for predicate `d`; a write of p15 is discarded (01 R17). -/
def onlyP (d : Nat) (x : Bool) (k : Nat) : Option Bool := if k = d ∧ k < 15 then some x else none
/-- No result. -/
def nothing {α : Type} (_ : Warp) (_ _ : Nat) : Option α := none

/-- The instruction completes in every warp that issues it with room for `room` registers in the undo log (09 R304) and at least `fits` V registers
(01 R14), if `ok` holds. In each lane with Exec the V registers take `v` and the predicates `p` where these name a value; everything else
stays: no other register of any lane, no other warp, no byte of memory changes. -/
def Results (i : Instr) (ga gb : Guard) (room fits : Nat) (v : Warp → Nat → Nat → Option W32) (p : Warp → Nat → Nat → Option Bool)
    (ok : State → Warp → Prop := fun _ _ => True) : Prop :=
  ∀ (s : State) (e : Env), s.env = some e → e.w.logRoom room = true → (∀ t ∈ e.w.regs.lanes, fits ≤ t.v.length) → ok s e.w →
    ∃ w', exec i s = .next (s.putWarp w') ∧
      Wrote e.w w' s.cur (s.act e.w)
        (fun l k => if l ∈ s.exec e.w ga gb then (v e.w l k).getD (e.w.v l k) else e.w.v l k)
        (fun l k => if l ∈ s.exec e.w ga gb then (p e.w l k).getD (e.w.p l k) else e.w.p l k)
        e.w.s e.w.bnr

/-- One 32-bit result in D. -/
def Result32 (i : Instr) (f : Fields) (r : Warp → Nat → W32) : Prop :=
  Results i f.ga f.gb 1 (f.d + 1) (fun w l => only1 f.d (r w l)) nothing
/-- One 64-bit result in D:D+1. -/
def Result64 (i : Instr) (f : Fields) (r : Warp → Nat → W64) : Prop :=
  Results i f.ga f.gb 2 (f.d + 2) (fun w l => only2 f.d (r w l)) nothing
/-- One predicate in P(D). -/
def ResultP (i : Instr) (f : Fields) (r : Warp → Nat → Bool) : Prop :=
  Results i f.ga f.gb 1 0 nothing fun w l => onlyP f.d (r w l)

/-- A long-latency instruction with a promise (LA not 0) that needs nothing from elsewhere opens its window (03 R86, R87). It has read its
sources: what it will write, `ws`, stands in the newest entry of the warp's outstanding long instructions, with LA instructions left in each lane of
ACTIVE and the registers `ds` as its destinations. No register has changed; the threads stand after the instruction. -/
def OpensAt (i : Instr) (f : Fields) (s : State) (e : Env) (ds : List Dest) (ws : List RegWrite) : Prop :=
  ∃ w', exec i s = .next (s.putWarp w') ∧
    Wrote e.w { w' with longs := tickLongs e.w.longs (s.act e.w) s.cur.count, nextLong := e.w.nextLong } s.cur (s.act e.w)
      e.w.v e.w.p e.w.s e.w.bnr ∧
    w'.nextLong = e.w.nextLong + 1 ∧
    w'.longs = tickLongs e.w.longs (s.act e.w) s.cur.count ++
      [⟨e.w.nextLong, (e.w.lane ((s.act e.w).headD 0)).pc.addr, (s.act e.w).map fun l => (l, f.la), 0, false, ds, ws, true, none⟩]
/-- The same in every state that lets the warp issue it. -/
def OpensWindow (i : Instr) (f : Fields) (room : Nat) (ds : List Dest) (ws : Warp → Nat → List RegWrite)
    (ok : State → Warp → Prop := fun _ _ => True) : Prop :=
  f.la ≠ 0 → ∀ (s : State) (e : Env), s.env = some e → e.w.logRoom room = true → ok s e.w →
    OpensAt i f s e ds ((s.exec e.w f.ga f.gb).flatMap (ws e.w))
/-- A long-latency instruction with one 32-bit result in D: at once with LA = 0, else through its window. -/
def LongResult32 (i : Instr) (f : Fields) (r : Warp → Nat → W32) (ok : State → Warp → Prop := fun _ _ => True) : Prop :=
  (f.la = 0 → Results i f.ga f.gb 1 (f.d + 1) (fun w l => only1 f.d (r w l)) nothing ok) ∧
  OpensWindow i f 1 [.v f.d] (fun w l => [.v l f.d (r w l)]) ok

/-- A uniform instruction: in a warp, register D takes the value once if some lane of ACTIVE has Exec (04 R111), and no other register changes; in a
matrix stream x register D always takes it (07 R236), and the stream moves on. -/
def ResultU (i : Instr) (f : Fields) (r : (Nat → W64) → W64) : Prop :=
  (∀ (s : State) (e : Env), s.cur.stream = false → s.env = some e → e.w.logRoom 1 = true → f.d < e.w.regs.s.length →
    ∃ w', exec i s = .next (s.putWarp w') ∧
      Wrote e.w w' s.cur (s.act e.w) e.w.v e.w.p
        (fun k => if k = f.d ∧ s.exec e.w f.ga f.gb ≠ [] then r e.w.s else e.w.s k) e.w.bnr) ∧
  ∀ (s : State) (e : SEnv), s.cur.stream = true → s.senv = some e → f.d < e.x.x.length →
    ∃ x', exec i s = .next (s.putStream e.b.id x') ∧ (∀ k, x'.reg k = if k = f.d then r e.x.reg else e.x.reg k) ∧
      x'.pc = e.x.pc + BitVec.ofNat 61 s.cur.length ∧ x' = { e.x with x := x'.x, pc := x'.pc, backoff := none }
/-- The instruction of a warp completes: it commits these register writes in this order, and the threads of ACTIVE move on. -/
def Commits (i : Instr) (s : State) (e : Env) (ws : List RegWrite) : Prop :=
  exec i s = .next (s.putWarp ((e.w.commit ws).advance s.cur (s.act e.w)))
/-- A long-latency instruction of a warp completes: at once with LA = 0, else through its window. -/
def CommitsLong (i : Instr) (f : Fields) (s : State) (e : Env) (ds : List Dest) (ws : List RegWrite) : Prop :=
  (f.la = 0 → Commits i s e ws) ∧ (f.la ≠ 0 → OpensAt i f s e ds ws)
/-- The value that a list of writes leaves in V(k, l): that of the last write that names it. -/
def lastV (l k : Nat) : List RegWrite → Option W32
  | [] => none
  | x :: xs => match lastV l k xs, x with
    | some y, _ => some y
    | none, .v l' k' y => if l' = l ∧ k' = k then some y else none
    | none, _ => none
/-- The same of P(k, l). -/
def lastP (l k : Nat) : List RegWrite → Option Bool
  | [] => none
  | x :: xs => match lastP l k xs, x with
    | some y, _ => some y
    | none, .p l' k' y => if l' = l ∧ k' = k ∧ k < 15 then some y else none
    | none, _ => none
/-- The same of S(k). -/
def lastU (k : Nat) : List RegWrite → Option W64
  | [] => none
  | x :: xs => match lastU k xs, x with
    | some y, _ => some y
    | none, .u k' y => if k' = k then some y else none
    | none, _ => none
/-- The same of bn(k). -/
def lastBn (k : Nat) : List RegWrite → Option (BitVec 352)
  | [] => none
  | x :: xs => match lastBn k xs, x with
    | some y, _ => some y
    | none, .bn k' y => if k' = k then some y else none
    | none, _ => none
/-- Every write names a register that the warp has. -/
def RegWrite.fits (w : Warp) : RegWrite → Prop
  | .v l k _ => l < w.width ∧ k < (w.lane l).v.length
  | .p l _ _ => l < w.width
  | .u k _ => k < w.regs.s.length
  | .bn k _ => k < w.regs.bn.length
  | .fmt _ => False

/-- The number that a 32-bit value stands for under a type code of 03 R84: .n32 unsigned, .i32 in two's complement. -/
def tyVal (ty : Nat) (x : W32) : Int := if ty = 0x0B then x.toNat else x.toInt
/-- An exact number held within a range. -/
def clampTo (lo hi x : Int) : Int := max lo (min hi x)
/-- An exact number held within the range of a 32-bit type. -/
def tyClamp (ty : Nat) (x : Int) : Int := if ty = 0x0B then clampTo 0 (2 ^ 32 - 1) x else clampTo (-2 ^ 31) (2 ^ 31 - 1) x
/-- The conditions of 04 R118. -/
def compares (code : Nat) (a b : Int) : Bool :=
  match code with
  | 0 => decide (a = b) | 1 => decide (a ≠ b) | 2 => decide (a < b) | 3 => decide (a ≤ b) | 4 => decide (b < a) | _ => decide (b ≤ a)
/-- Byte `i` of a word as a number, signed or not. -/
def byteVal (signed : Bool) (x : W32) (i : Nat) : Int := if signed then (x.extractLsb' (8 * i) 8).toInt else (x.extractLsb' (8 * i) 8).toNat
/-- A type code of an instruction that takes .i32 and .n32. -/
def intType (ty : Nat) : Prop := ty = 0x07 ∨ ty = 0x0B


/-- The warp with the program counters of some lanes set. -/
def Warp.redirect (w : Warp) (ls : List Nat) (tgt : Nat → Pc) : Warp :=
  { w with regs := { w.regs with lanes := w.regs.lanes.zipIdx.map fun (t, l) => if l ∈ ls then { t with pc := tgt l } else t } }
/-- The warp with some lanes waiting. -/
def Warp.waiting (w : Warp) (ls : List Nat) (why : Nat → Wait) : Warp :=
  { w with regs := { w.regs with lanes := w.regs.lanes.zipIdx.map fun (t, l) => if l ∈ ls then { t with wait := why l } else t } }
/-- An instruction that has issued in the lanes `act` and has written no register. -/
def Moved (w w' : Warp) (i : Issue) (act : List Nat) : Prop := Wrote w w' i act w.v w.p w.s w.bnr
/-- The trace record of an instruction with lanes `ex` (12 R409): of the lowest lane, or none without a lane. -/
def State.tracedAt (s : State) (e : Env) (ex : List Nat) (flag : Nat) (kind : Nat) (info : Nat → Nat) (a1 : Nat → BitVec 54) : State :=
  match ex with
  | [] => s
  | l :: _ => s.traceWarp e.w.id (some flag) kind (info l) (a1 l) (e.w.lane l).pc

/-- A branch or call of a warp (05 R163): the lanes with Exec stand at their targets, the other lanes of ACTIVE after the instruction; a call
writes the address after itself to D:D+1 of each lane with Exec. The trace record names the lowest lane with `low`. -/
def Branches (i : Instr) (f : Fields) (kind : Nat) (low link : Bool) (tgt : Warp → Nat → Pc) : Prop :=
  ∀ (s : State) (e : Env), s.cur.stream = false → s.env = some e → e.w.logRoom (if link then 2 else 0) = true →
    (∀ t ∈ e.w.regs.lanes, f.d + 2 ≤ t.v.length) →
    let ex := s.exec e.w f.ga f.gb
    let after := fun l => ((e.w.lane l).pc + BitVec.ofNat 61 s.cur.length).addr
    ∃ u, Wrote e.w u s.cur (s.act e.w)
        (fun l k => if link = true ∧ l ∈ ex then (only2 f.d (after l) k).getD (e.w.v l k) else e.w.v l k) e.w.p e.w.s e.w.bnr ∧
      exec i s = .next ((s.putWarp (u.redirect ex (tgt e.w))).tracedAt e ex 0 kind (fun l => if low then l else 0) fun l => (tgt e.w l).setWidth 54)
/-- A branch or call of a matrix stream (07 R235): to its target if the condition holds, else after the instruction; a call writes the address after
itself to its x register. -/
def StreamBranches (i : Instr) (kind : Nat) (link : Option Nat) (taken : Stream → Bool) (tgt : Stream → Pc) : Prop :=
  ∀ (s : State) (e : SEnv), s.cur.stream = true → s.senv = some e → (∀ d, link = some d → d < e.x.x.length) →
    let next := e.x.pc + BitVec.ofNat 61 s.cur.length
    (taken e.x = false → exec i s = .next (s.putStream e.b.id { e.x with pc := next, backoff := none })) ∧
    (taken e.x = true → ∃ x', exec i s = .next ((s.putStream e.b.id { e.x with x := x', pc := tgt e.x, backoff := none }).traceStream e 0 kind 0 ((tgt e.x).setWidth 54)) ∧
      ∀ k, x'.getD k 0 = if link = some k then next.addr else e.x.reg k)

/-- The end of an instruction that may be of long latency, over a state `S` that has its other effects: with LA = 0 its writes take effect, else its
window opens with them (03 R86, R87). -/
def LongEnd (S s : State) (e : Env) (f : Fields) (ds : List Dest) (ws : List RegWrite) (t : State) : Prop :=
  (f.la = 0 → t = S.putWarp ((e.w.commit ws).advance s.cur (s.act e.w))) ∧
  (f.la ≠ 0 → ∃ w', t = S.putWarp w' ∧
    Wrote e.w { w' with longs := tickLongs e.w.longs (s.act e.w) s.cur.count, nextLong := e.w.nextLong } s.cur (s.act e.w)
      e.w.v e.w.p e.w.s e.w.bnr ∧
    w'.nextLong = e.w.nextLong + 1 ∧
    w'.longs = tickLongs e.w.longs (s.act e.w) s.cur.count ++
      [⟨e.w.nextLong, (e.w.lane ((s.act e.w).headD 0)).pc.addr, (s.act e.w).map fun l => (l, f.la), 0, false, ds, ws, true, none⟩])
/-- Room in the undo log for what a long instruction names and writes (09 R304). -/
def Warp.longRoom (w : Warp) (ds : List Dest) (ws : List RegWrite) : Prop := w.logRoom (dedup (ds ++ destsOf ws)).length = true

/-- The accesses of the lanes that still make one (01 R38, R40): those that their issue evaluated, where the instruction has performed in part, with no
error reported meanwhile and every place still there; else those that pass every check now (06 R194), no lane failing a check of the instruction's own. -/
def Planned (s : State) (e : Env) (u : Use) (h : Shape) (x : LaneArgs) (ls : List Nat) (as : List LaneAcc) : Prop :=
  if s.resumed e = true then
    (∀ l ∈ s.act e.w, ∀ p, (e.w.lane l).plan = some p → p.bad = none) ∧
    as = (ls.filterMap fun l => (e.w.lane l).plan.map fun p => ⟨l, p.va, h.n, p.b, p.c, p.segs⟩) ∧ ∀ g ∈ allSegs as, s.standsAt e.b.id g.loc = true
  else (∀ l ∈ ls, x.pre l = none) ∧ s.checkLanes e.who u h x ls = .ok as
/-- The accesses `as` of the lanes `ls` can be made at once: their scratchpad pages are pinned, no other holder must give a line up first, none lies in a line
under test, their data is without error, and none is a fabric or I/O access (06 R196) or reaches the shard version. -/
structure Reached (s : State) (e : Env) (u : Use) (h : Shape) (x : LaneArgs) (ls : List Nat) (as : List LaneAcc) : Prop where
  planned : Planned s e u h x ls as
  pinned : ∀ g ∈ allSegs as, s.unpinned g.loc g.n = none
  ours : s.ingressHeld (allSegs as) = none
  whole : ∀ g ∈ allSegs as, s.underTest g.loc g.n = false
  sound : ∀ g ∈ allSegs as, s.errorAt g.loc g.n = none
  near : ∀ g ∈ allSegs as, g.far = false ∧ g.version = false
/-- A warp whose instruction has performed in part: the lanes that `now` names have obtained these bytes, every lane of the path `act` keeps what its
issue evaluated, and nothing else of the warp has changed. -/
structure PartDone (w v : Warp) (act : List Nat) (now : List (Nat × List Byte)) : Prop where
  got : ∀ l < w.width, (v.lane l).got = match now.find? fun x => x.1 == l with | some x => some x.2 | none => (w.lane l).got
  plan : ∀ l < w.width, ((v.lane l).plan.isSome = true ↔ l ∈ act ∨ (w.lane l).plan.isSome = true)
  thread : ∀ l, { v.lane l with got := none, plan := none } = { w.lane l with got := none, plan := none }
  others : v = { w with regs := { w.regs with lanes := v.regs.lanes } }

/-- What a state holds in memory: physical bytes, scratchpads, accumulator slots. -/
def State.sameBytes (s t : State) : Prop := ∀ l n, t.readLoc l n = s.readLoc l n
/-- A load with nothing older unfinished whose lanes reach their data (06 R196, R198). The lanes `lanes` of those with Exec read `h.n` bytes at `addr`, in
increasing order, and between two of them another agent's events may come (01 R39): this move makes the accesses of the first `quota` + 1 lanes that are
left, a free number (log entry 58). Where lanes are left the warp keeps what these obtained; else the load completes, and the writes that `writes` makes of
the bytes stand in registers as `LongEnd` says. Memory, every block and every other warp stay, but for what using the translations leaves (the A bits of
their leaves, the TLB, the caches' states) and the trace record. With `uni` the translation may be one that the uniform-constant cache holds (10 R333). The
warp's rollback count is 0 if this load is the one it counts (09 R311). -/
def Loads (i : Instr) (f : Fields) (h : Warp → Shape) (look : Look) (uni : Bool) (dests : List Dest) (lanes : List Nat → List Nat) (addr : Warp → Nat → W64)
    (flag kind : Nat) (writes : Nat → List Byte → List RegWrite) : Prop :=
  ∀ (s : State) (e : Env) (as : List LaneAcc), s.env = some e →
    let ex := lanes (s.exec e.w f.ga f.gb)
    let held := if uni = true ∧ s.resumed e = false then s.uccHeld e.w.core e.l.hdr.pasid e.l.hdr.tenant (addr e.w (ex.headD 0)) else s
    Reached held e .read (h e.w) { addr := addr e.w } (ex.filter fun l => (e.w.lane l).got.isNone) as →
    as = [] ∨ (e.w.spec.window = [] ∧ e.w.remoteOpen = 0) →
    let batch := as.take (s.cur.quota + 1)
    let used := (held.useSegs (allSegs as)).cacheLoad e.w.core f.hint (allSegs batch) (if uni then some (e.l.hdr.pasid, e.l.hdr.tenant) else none)
    let now := batch.map fun a => (a.lane, used.laneBytes look a)
    (batch.length < as.length → ∃ v, exec i s = .next (used.putWarp v) ∧ PartDone e.w v (s.act e.w) now) ∧
    (batch.length = as.length →
      let ws := ex.flatMap fun l => writes l (obtained e.w now l)
      e.w.longRoom dests ws →
      ∃ t, LongEnd used s { e with w := e.w.loadDone (e.w.lane (ex.headD 0)).pc.addr } f dests ws t ∧
        exec i s = .next (t.tracedAt e ex flag kind id fun l => addr54 (e.w.plannedVa l (addr e.w l))))
/-- A store that issues (06 R196, R198; 09 R300): every lane reaches its place, the window has room, and the stores of all lanes enter it as one access
that has not performed. No byte of memory changes yet, but for what using the translations leaves (the A and D bits of their leaves) and the trace
record. -/
def Stores (i : Instr) (f : Fields) (h : Warp → Shape) (args : Warp → LaneArgs) (effs : Warp → LaneAcc → List StoreEff) : Prop :=
  ∀ (s : State) (e : Env) (as : List LaneAcc), s.env = some e →
    let ex := s.exec e.w f.ga f.gb
    s.resumed e = false → Reached s e .write (h e.w) (args e.w) ex as → (∀ l ∈ ex, (e.w.lane l).got = none) →
    e.w.remoteOpen = 0 → s.outstanding e.w < 32 → (e.w.careful = true → e.w.spec.window = []) → e.w.longRoom [] [] →
    let used := s.useSegs (allSegs as)
    let w := if as = [] then e.w else e.w.enqueue fun q => .store q f.hint (as.flatMap (effs e.w))
    ∃ t, LongEnd used s { e with w := w } f [] [] t ∧
      exec i s = .next (t.tracedAt e ex 2 6 id fun l => addr54 ((args e.w).addr l))

/-- The move answers a next state of which `p` holds. -/
def Leads (i : Instr) (s : State) (p : State → Prop) : Prop := ∃ t, exec i s = .next t ∧ p t
/-- What a package is told is on its way: in a packet of class 0 over the port of its next hop, where a route leads to it and the link is up; else, to a peer
that the transport has not given up, in a message over Ultra Ethernet (13 R425, R430). -/
def Told (s t : State) (dst : Nat) (req : FabReq) : Prop :=
  let p : Packet := ⟨s.pkg, dst, 0, 0, 0, 0, none, 0, 0, 0, req⟩
  (s.routed dst = true → s.ports.down.getLsbD (s.hopPort p) = false → Out.packet (s.hopPort p) p ∈ t.out) ∧
  (s.routed dst = false → (∃ x ∈ s.ports.peerTable, x.1 = dst) → dst ∉ s.ports.peers → Out.message dst req ∈ t.out)
/-- The mailbox reports a command: status, its CSEQ, reason (14 R435, R436). -/
def State.reports (t : State) (h : MbHead) (st : Byte) (rsn : BitVec 16) : Prop :=
  t.mailbox.st = st ∧ t.mailbox.sseq = h.cseq ∧ t.mailbox.rsn = rsn
/-- With this command the driver rings an idle mailbox, ARGS no longer than it holds. -/
def State.rings (s : State) (h : MbHead) (c : MbArgs) : Prop := s.arg = .mailbox h c ∧ s.mailbox.st ≠ 1 ∧ h.alen.toNat ≤ 3840
/-- The command is carried out: DONE, and `p` holds. -/
def Carried (s : State) (h : MbHead) (c : MbArgs) (p : State → Prop) : Prop := Leads (commandOf c).2 s fun t => t.reports h 2 0 ∧ p t

/-- The warps that a launch's next block brings (01 R30; 11 R360): warp j in quarter j mod 4, its threads at the entry with their local indices in WID,
the lanes past the block unpopulated. -/
def BlockWarps (s t : State) (l : Launch) (core : Nat) : Prop :=
  t.warps.length = s.warps.length + l.hdr.warps ∧ s.warps <+: t.warps ∧
  ∀ j < l.hdr.warps, ∃ w, t.warps[s.warps.length + j]? = some w ∧ w.block = s.ctr.block ∧ w.core = core ∧ quarterOf w.slot = j % 4 ∧
    w.warpx = BitVec.ofNat 32 j ∧ w.width = l.hdr.lanes ∧ ∀ i < l.hdr.lanes,
      let x := j * l.hdr.lanes + i
      ((w.lane i).populated = true ↔ x < 2 ^ l.hdr.localWidth) ∧ (w.lane i).pc = .ofAddr l.hdr.entry ∧
        (w.lane i).wid = BitVec.ofNat 64 (l.nextBlock * 2 ^ l.hdr.localWidth + x) ∧ (w.lane i).v = List.replicate l.hdr.regs 0 ∧ (w.lane i).p = 0
/-- A block takes the first backing area of the pool whose pages lie under the key of its launch's tenant (10 R325, R341; log entry 65); memory and keys
are as they were. -/
def AreaTaken (s t : State) (l : Launch) (b : Block) : Prop :=
  ∃ area, s.pools.backing.find? (s.areaKeyed l.hdr.tenant areaBytes) = some area ∧ t.pools.backing = s.pools.backing.erase area ∧ b.backing = some area ∧
    t.mem = s.mem ∧ t.keys = s.keys
/-- A block finds the same bytes and the same full-empty bits at every offset of its scratchpad (10 R326 to R328). -/
def SameScratch (s t : State) (b b' : Block) : Prop :=
  s.mem.wf = true → b.scratch.wf = true →
    (∀ o < 2 ^ 20, t.spByte b' o = s.spByte b o) ∧ ∀ g < 2 ^ 16, t.granuleFull b' g = s.granuleFull b g
/-- A batch of a node starts on a core (11 R364, R365): one block with one warp, a record to a lane in the registers v0 up, its node, its depth and its
number in WID, and the records have left the bin; `mark` is 1 in the consumer reserve. -/
def BatchStarts (s t : State) (l : Launch) (n : Node) (node core mark : Nat) (rs : List PoolRec) : Prop :=
  t.launch? l.id = some { l with batches := l.batches + 1, codeFrom := some (s.codeFor l), records := l.records.filter fun r => !rs.contains r } ∧
  ∃ b w, AreaTaken s t l b ∧ t.blocks = s.blocks ++ [b] ∧ t.warps = s.warps ++ [w] ∧ b.id = s.ctr.block ∧ b.launch = l.id ∧ b.core = core ∧ b.batch = some (node, mark) ∧
    b.batchSize = rs.length ∧ w.block = b.id ∧ w.core = core ∧ ∀ i < l.hdr.lanes,
      (∀ r, rs[i]? = some r → (w.lane i).populated = true ∧ (w.lane i).pc = .ofAddr n.entry ∧ (w.lane i).node = some r.node ∧ (w.lane i).depth = r.depth ∧
        (w.lane i).wid = BitVec.ofNat 64 (l.batches * 64 + i) ∧ ∀ k x, (recordRegs r.bytes)[k]? = some x → w.v i k = x) ∧
      (rs[i]? = none → (w.lane i).populated = false)
/-- A group of a reorder pool forms a warp in a quarter of its block's core, if it has room (05 R178, R179). -/
def State.seatGroup (s : State) (b : Block) (l : Launch) (g : List PoolThread) (q : Nat) : Option State :=
  let pool := s.poolDue b
  (((s.modBlock b.id fun x => { x with pool := pool }).modBlock b.id fun x => { x with pool := pool.filter fun y => !g.contains y }).addWarp b.core q
    (groupWarp l.hdr b g)).bind fun u => if u.coreLegal b.core then some u else none
/-- A swap of a core begins (11 R371, R372): its phase, what comes in, and a new context to go out with a save area for each block, taken from the pool,
that lies under the key of the block's tenant (R341; log entry 65); what runs there still runs. -/
def SwapBegins (s t : State) (core : Nat) (inc : Option Nat) (p : CorePhase) : Prop :=
  (t.core core).phase = p ∧ (t.core core).incoming = inc ∧ t.blocks = s.blocks ∧ t.warps = s.warps ∧
    ∃ x ∈ t.contexts, (t.core core).outgoing = some x.num ∧ x.areas.map (·.1) = (s.coreBlocks core).map (·.id) ∧ x.blocks = [] ∧ x.warps = [] ∧
      (x.areas.map (·.2) ++ t.pools.saves).Perm s.pools.saves ∧ ∀ y ∈ x.areas, ∃ b ∈ s.coreBlocks core, b.id = y.1 ∧
        ∀ l, s.launch? b.launch = some l → s.areaKeyed l.hdr.tenant (s.areaLen (s.liveContext core) b) y.2 = true

/-- The context `x` stands on a core (11 R374): its blocks and warps are there, and no saved context holds them any more. -/
def Seated (t : State) (x : Context) (core : Nat) : Prop :=
  (∀ b ∈ x.blocks, ∃ b' ∈ t.blocks, b'.id = b.id ∧ b'.core = core) ∧ (∀ w ∈ x.warps, ∃ w' ∈ t.warps, w'.id = w.id ∧ w'.core = core) ∧
  ∀ y ∈ t.contexts, y.num = x.num → y.blocks = [] ∧ y.warps = []
/-- The restore of a context has failed (12 R401): the context is gone, and the launches of its blocks end FAULTED with restore-integrity unless they
were ending already. -/
def RestoreFails (s t : State) (x : Context) : Prop :=
  (∀ y ∈ t.contexts, y.num ≠ x.num) ∧ ∀ b ∈ x.blocks, ∀ l, s.launch? b.launch = some l →
    ∃ l', t.launch? l.id = some l' ∧ l'.halting = true ∧ (l.halting = false → l'.stat = 3 ∧ l'.reason = 0x10)
/-- The outgoing context has left its core, which has no turn of it left (11 R373). -/
def State.swapped (s : State) (core n : Nat) : State :=
  let t := s.takeOut core n
  { t with turn := t.turn.filter fun i => if i.stream then (t.block? i.owner).isSome else (t.warp? i.owner).isSome }
/-- The cores with new temperatures in m°C (11 R375). -/
def State.withTemps (s : State) (ts : List Nat) : State :=
  (ts.take Config.cores).zipIdx.foldl (fun s (t, i) => s.modCore i fun c => { c with temp := t }) s
/-- A request to a ray engine has ended (08 R275): it is gone, its eight result words return to its instruction, and the thread keeps the query `q`. -/
def RayEnds (s t : State) (r : RayReq) (w : Warp) (words : List W32) (q : RayQuery) : Prop :=
  (∀ x ∈ t.rays, ¬(x.warp = r.warp ∧ x.lane = r.lane ∧ x.long = r.long)) ∧ t.mem = s.mem ∧
  ∃ v, t.warp? w.id = some v ∧ v.longs = (w.longPart r.long (words.zipIdx.map fun (x, k) => .v r.lane (r.dest + k) x)).longs ∧
    (r.lane < w.width → (v.lane r.lane).query = q)
/-- A command has completed without a record (06 R218, R225): it is gone, and its channel counts one less, with its error sticky if `bad`. -/
def CmdEnds (s t : State) (c : EngCmd) (bad : Bool) : Prop :=
  (∀ x ∈ t.engines, x.id ≠ c.id) ∧ ∀ w, s.warp? c.warp = some w → ∃ v, t.warp? c.warp = some v ∧
    v.chans = modifyNth w.chans c.ch fun x => ⟨x.count - 1, x.sticky || bad⟩
/-- A command may make its next part (06 R217, R223): it is the first of its number, no fault of it is with the service, and no publish holds it. -/
def CmdFree (s : State) (c : EngCmd) (l : Launch) : Prop :=
  s.arg = .id c.id ∧ (s.engines.find? fun x => x.id == c.id) = some c ∧ s.launch? c.launch = some l ∧ s.agentBusy (.engine c.id) = false ∧
    s.cmdHeld c l = false

/-- A tile step is complete (07 R247): the operation has left the table, and in its block's stream RUN and NEXT of ROWPROG are 0. -/
def StepEnds (u : State) (o : AnvilOp) (x : Stream) : Prop :=
  (∀ q ∈ u.quads.ops, q.id ≠ o.id) ∧ ∃ b', u.anyBlock? o.block = some b' ∧ b'.stream = some { x with run := false, next := 0 }
/-- The warps with a row in a tile that a test of their instruction names trap at their `nnev` with shape-invalid (07 R265): a warp that is settled, with that
one instruction outstanding and a handler, begins its handler with the cause, REASON, the lowest lane of its rows, the handle and the record's first byte;
no V register of it changes, and its rows have left every tile. The rows of all other instructions stay in their tiles, and other warps are as they were. -/
def TileTraps (s t : State) (y : Tile) (own : Nat → Nat → Prop) (reason : Nat) : Prop :=
  (∀ x ∈ y.owners, own x.1 x.2.1 → (∀ z ∈ y.owners, z.1 = x.1 → z = x) → ∀ w o, s.warp? x.1 = some w → w.longs = [o] → o.id = x.2.1 →
    let path := (o.left.map (·.1)).filter fun l => (w.lane l).populated && !(w.lane l).exited
    w.settled = true → w.owing path = false → w.regs.trap.masked = false → w.regs.trap.tba ≠ 0 →
    (∀ z ∈ t.quads.tiles, ∀ r ∈ z.rows, r.warp = x.1 → r.long ≠ x.2.1) ∧
    ∃ v, t.warp? x.1 = some v ∧ v.longs = [] ∧ v.disabled = false ∧ v.regs.trap.info = y.handle ∧ v.regs.trap.aux = y.handle ∧ v.regs.trap.mask = 3 ∧
      v.regs.trap.cause.toNat = 8 + reason * 2 ^ 8 + x.2.2 % 64 * 2 ^ 16 + 2 ^ 22 ∧ v.regs.trap.pc = (w.lane (path.headD 0)).pc.addr ∧
      (∀ l ∈ path, (v.lane l).pc = Pc.ofAddr w.regs.trap.tba) ∧ ∀ l k, v.v l k = w.v l k) ∧
  (∀ z ∈ s.quads.tiles, ∀ r ∈ z.rows, (∀ x ∈ y.owners, own x.1 x.2.1 → r.warp = x.1 → r.long ≠ x.2.1) → ∃ z' ∈ t.quads.tiles, z'.id = z.id ∧ r ∈ z'.rows) ∧
  ∀ w, s.warp? w.id = some w → (∀ x ∈ y.owners, own x.1 x.2.1 → x.1 ≠ w.id) → t.warp? w.id = some w

/-- A standard instruction's fields with both guards p15, no hint and no promise (03 R74, R79). -/
def plainStd (d a b : BitVec 9) (mod : BitVec 5) : Std :=
  ⟨⟨false, 15⟩, ⟨false, 15⟩, d, a, b, 0, 0, 0, 0, 0, mod⟩
/-- An extended instruction's fields with both guards p15, no hint and no promise (03 R75, R79). -/
def plainExt (d a b c e : BitVec 9) (modlo : BitVec 7) (imm : W32) : Ext :=
  ⟨⟨false, 15⟩, ⟨false, 15⟩, d, a, b, 0, 0, 0, modlo, c, e, 0, 0, 0, 0, imm⟩

end Sys2Proof.Machine
end

