-- ==== Sys2Proof/Certificates/Slice0/Obligations.lean ====
section
/-! DEFINITION. The statements about the model, for the provers. Each names the rules of spec/ it formalises or rests on. -/

open Sys2Proof Sys2Proof.Machine

/-- Every well-formed instruction has words, and decoding those words, whatever follows them, gives it back with the words that follow. Every word that
decodes gives a well-formed instruction, whose encoding is that word, or that word and the next for an extended instruction. (03 R72, 03 R73, 03 R74,
03 R75, 03 R76, 03 R96) -/
def Obligations.DecodeEncodeAgree : Prop :=
  (∀ (cx : DecCtx) (i : Instr), WellFormed cx i = true →
    ∃ ws, encode i = some ws ∧ ∀ rest, decodeWords cx (ws ++ rest) = .ok (i, rest)) ∧
  ∀ (cx : DecCtx) (x y : W64) (i : Instr), decode cx x y = .ok i →
    WellFormed cx i = true ∧ encode i = some (if formatOf x = 2 then [x, y] else [x])

/-- Ten words whose bits were laid out by hand from the tables of R74 to R76 and the opcode tables decode to the instruction they stand for: iadd, imad,
idiv with a promise, sprrd, bra with a negative offset, ld with a uniform base, trap, mzero, copy and a compact pair. (03 R74, 03 R75, 03 R76, 03 R99) -/
def Obligations.SpecWordsDecode : Prop :=
  decodeTableWord 64 0x402f780c02020007 = some (.iadd (plainStd 3 1 2 7)) ∧
  decodeTableWord 128 0xc06000000000000080ef781002020007 = some (.imad (plainExt 4 1 2 3 0 7 0)) ∧
  decodeTableWord 64 0x450f780c02025007 = some (.idiv { plainStd 3 1 2 7 with la := 5 }) ∧
  decodeTableWord 64 0x51ef781860000001 = some (.sprrd (plainStd 6 0x30 0 1)) ∧
  decodeTableWord 64 0x580f780001ff0040 = some (.bra { plainStd 0 0 0x1FF 0 with bk := 1 }) ∧
  decodeTableWord 64 0x5c0f782028040062 = some (.ld { plainStd 8 20 4 2 with bk := 1, ak := 1 }) ∧
  decodeTableWord 64 0x700f780000120040 = some (.trap { plainStd 0 0 0x12 0 with bk := 1 }) ∧
  decodeTableWord 64 0x688f781c00000000 = some (.mzero (plainStd 7 0 0 0)) ∧
  decodeTableWord 128 0xc2800b0000000000a40f780020120000 = some (.copy { plainExt 0 16 18 20 0 0 0 with bk := 2, ak := 1, ck := 1 }) ∧
  decodeTableWord 64 0x00f8101018f02824 = some (.compactPair ⟨⟨1, 15, 4, 8, 0⟩, ⟨0x18, 15, 5, 9, 0⟩⟩)

/-- When a path of a warp has its turn and nothing holds it back (a fatal trap, Tongs, an emission that waits, a rollback that waits, a swap, a pending
asynchronous trap, an error in a page, a stop of its launch), and the words at its program counter are fetched (or its instruction performs in parts
and they are those of its issue, log entry 58): words that do not decode raise their decode trap; if every lane stands at the end of the window of a
long instruction that has not completed, the lanes wait; an instruction that may not share its turn with the path before it is put off; if no lane
waits and no lookahead rule is broken, no register read has an error, the step is the meaning of the decoded instruction in the lanes of the path,
then the turn goes on to its next path, and base clk pass. The same holds of a matrix stream. With a move proposed by another agent (model: log entry
1) the step is the meaning of that move. One that would store to lines of HBM that the host holds is withheld: its lines are asked for and it waits
(model: log entry 64). A package whose boot has halted takes no step. (03 R73, 03 R86, 03 R94, 03 R97, 05 R154, 05 R156, 07 R233, 14 R434) -/
def Obligations.StepRunsDecodedInstruction : Prop :=
  (∀ (s : State) (p : Issue) (turns : List Issue) (e : Env) (x y : W64) (s2 : State),
    s.stuck = none → s.agenda = [] → s.turn = p :: turns → p.stream = false →
    ({ s with turn := turns, cur := { p with words := 1 } } : State).env = some e →
    let lanes := e.w.pathLanes p
    let s1 : State := { s with turn := turns, cur := { p with words := 1, lanes := maskOf lanes, quota := s.pick (2 ^ 79) % 64 } }
    lanes ≠ [] → e.w.fatal = none → e.w.off = false → s.rollBlocked e.w.id = false → e.w.spec.sending = 0 → e.l.phase = .live → e.l.halting = false →
    s.swapHolds e.w lanes = false → (e.w.asyncDue = false ∨ ∃ l ∈ lanes, (e.w.lane l).plan ≠ none) → e.b.poolFault = none →
    s1.pathWords e lanes p.pc = .ok (x, y, s2) →
    let s3 : State := { s2 with cur := { s2.cur with words := wordsAt x, code := (x, y) } }
    let ends := fun ran o => endStep s.clock s.free ran (afterMove s ran o)
    (∀ t, decode (s3.decCtx false e.l) x y = .error t → step s = ends none (.next (s3.raise e (decodeTrap t (lanes.headD 0))))) ∧
    ∀ i, decode (s3.decCtx false e.l) x y = .ok i →
      let act := s3.act e.w
      let w1 := (act.foldl (fun w l => w.closeLane l (instrEnds i)) e.w).dropLongs
      let s4 := fun on : List Nat => ({ s3 with cur := { s3.cur with lanes := maskOf on, words := instrMark i } } : State)
      ((∃ j, s3.taking.bind (·.first) = some j ∧ turnConflict j.2 i = true) →
        step s = ends none (.next (s3.putWarp { e.w with deferred := some p.pc }))) ∧
      ((∀ j, s3.taking.bind (·.first) = some j → turnConflict j.2 i = false) →
        ((∀ l ∈ act, w1.longPending l (instrEnds i) = true) →
          step s = ends none (.next ((s4 []).putWarp (w1.modLanes act fun t => { t with wait := .long })))) ∧
        (act ≠ [] → (∀ l ∈ act, w1.longPending l (instrEnds i) = false) → (∀ k, .v k ∈ instrReads i → k ∉ w1.badRows) →
          w1.violation act (instrDests i) = none →
          step s = ends (some i) (exec i (((s4 act).putWarp w1).modLaunch e.l.id fun l => { l with issued := true }))))) ∧
  (∀ (s : State) (p : Issue) (turns : List Issue) (e : SEnv) (x y : W64) (s2 : State),
    s.stuck = none → s.agenda = [] → s.turn = p :: turns → p.stream = true →
    let s1 : State := { s with turn := turns, cur := { p with words := 1 } }
    let ends := fun ran o => endStep s.clock s.free ran (afterMove s ran o)
    s1.senv = some e → e.x.exited = false → e.x.failed = false → e.x.fatal = none → e.x.wait = .none → e.l.phase = .live → e.l.halting = false →
    (s.core e.b.core).phase ≠ .swap → s1.fetchInstr e.who e.x.pc = .ok (x, y, s2) →
    (∀ t, decode (s2.decCtx true e.l) x y = .error t → step s = ends none (.next (s2.raiseStream e (decodeTrap t 0)))) ∧
    ∀ i, decode (s2.decCtx true e.l) x y = .ok i →
      step s = ends (some i) (exec i (({ s2 with cur := { s2.cur with words := instrMark i } } : State).modLaunch e.l.id fun l => { l with issued := true }))) ∧
  (∀ (s t : State) (ran : Option Instr), t.hostWait = [] → t.taking = none → ran ≠ some .quarterIssueSelect → afterMove s ran (.next t) = .next t) ∧
  (∀ (s t : State) (ran : Option Instr) (i : Instr) (a : Arg) (rest : List (Instr × Arg)), t.hostWait ≠ [] → s.agenda = (i, a) :: rest →
    afterMove s ran (.next t) = .next { t.hostWait.foldl State.backInvalidate s with agenda := rest, blocked := s.blocked ++ [(i, a)] }) ∧
  (∀ (s : State) (i : Instr) (a : Arg) (rest : List (Instr × Arg)), s.stuck = none → s.agenda = (i, a) :: rest →
    step s = endStep s.clock s.free (some i) (afterMove s (some i) (exec i { s with agenda := rest, arg := a }))) ∧
  ∀ (s : State) (f : Nat), s.stuck = some f → step s = .fault (.packageHalted f)

/-- After reset CLOCK is 0, the mailbox is idle, every byte of memory reads 0 (of device memory by R434; of host memory by the model's choice, log entry
4), no feature is accepted, no queue, tenant or translation is there, nothing runs, and the package can take a step (model: reset stands after boot
stage 4, log entry 3). (01 R22, 14 R434, 14 R435, 13 R420, 11 R349) -/
def Obligations.ResetState : Prop :=
  State.reset.clock = 0 ∧ State.reset.mailbox.st = 0 ∧ (∀ a, State.reset.mem.get a = 0) ∧ State.reset.features = none ∧
  State.reset.queues = [] ∧ State.reset.faultQs = [] ∧ State.reset.launches = [] ∧ State.reset.blocks = [] ∧ State.reset.warps = [] ∧
  State.reset.stuck = none ∧ State.reset.eventQ = none ∧ State.reset.tenants = [] ∧ State.reset.tlb = []

/-- The memory of the reset state is in canonical form: addresses strictly rising, no listed byte equal to the 0 that an unlisted address reads as (the
form is the model's own, log entry 4). (14 R434) -/
def Obligations.MemoryFormAtReset : Prop := State.reset.mem.wf = true

/-- From any state whose memory is in canonical form, every step that answers a next state leaves memory in canonical form: whatever an instruction, an
engine, the Hearth, the host or a peer stores, equal memories stay equal data (the form is the model's own, log entry 4). (09 R296, 14 R434) -/
def Obligations.MemoryFormKept : Prop :=
  ∀ s t : State, s.mem.wf = true → step s = .next t → t.mem.wf = true

/-- Every step that answers a next state, unless its move is power-on or a package reset, leaves a greater CLOCK; and the number of the free choices moves
on by one. That a step takes at least one clk is the model's choice (log entry 5). (01 R22) -/
def Obligations.ClockRises : Prop :=
  ∀ s t : State, (∀ i u, s.move = .run i u → restarts i = false) → step s = .next t → s.clock < t.clock ∧ t.free = s.free + 1

/-- An instruction that commits a list of register writes in a warp gives each V, P, S and bn register that the list names the value of the last write
that names it, leaves every other register, moves the threads of ACTIVE past the instruction, and changes nothing else of the warp. Predicate p15
reads true in every lane; a write to it changes no register and is no trap; a predicate below 15 is one bit of its thread. (R17) -/
def Obligations.CommitWritesRegisters : Prop :=
  (∀ (w : Warp) (i : Issue) (act : List Nat) (ws : List RegWrite), act.Nodup → (∀ l ∈ act, l < w.width) → (∀ x ∈ ws, x.fits w) →
    Wrote w ((w.commit ws).advance i act) i act
      (fun l k => (lastV l k ws).getD (w.v l k)) (fun l k => (lastP l k ws).getD (w.p l k))
      (fun k => (lastU k ws).getD (w.s k)) (fun k => (lastBn k ws).getD (w.bnr k))) ∧
  (∀ (w : Warp) (l : Nat), w.p l 15 = true) ∧
  (∀ (w : Warp) (l : Nat) (x : Bool), (w.commit [.p l 15 x]).regs = w.regs) ∧
  ∀ (p : BitVec 15) (k j : Nat) (x : Bool), k < 15 → j < 15 → (setPred p k x).getLsbD j = if j = k then x else p.getLsbD j

/-- In every warp that issues it, each integer instruction of R113, in the standard and the extended form without .sat, completes with the result of the
table in D in each lane with Exec: sums, differences, low and high products, negation, absolute value, minimum, maximum, clamp, the bit operations,
population count, leading and trailing zeros, bit reversal. No other register of any lane, no other warp and no byte of memory changes. (04 R107, 04
R112, 04 R113, 02 R46) -/
def Obligations.IntegerTable : Prop :=
  (∀ w : Std, let f := Fields.ofStd w
    Result32 (.iadd w) f (fun u l => u.opA f l + u.opB f l) ∧
    Result32 (.isub w) f (fun u l => u.opA f l - u.opB f l) ∧
    Result32 (.imul w) f (fun u l => u.opA f l * u.opB f l) ∧
    (intType f.mod → Result32 (.imulh w) f (fun u l => BitVec.ofInt 32 (tyVal f.mod (u.opA f l) * tyVal f.mod (u.opB f l) / 2 ^ 32))) ∧
    Result32 (.ineg w) f (fun u l => BitVec.ofInt 32 (-(u.opA f l).toInt)) ∧
    Result32 (.iabs w) f (fun u l => BitVec.ofInt 32 |(u.opA f l).toInt|) ∧
    (intType f.mod → Result32 (.imin w) f (fun u l => BitVec.ofInt 32 (min (tyVal f.mod (u.opA f l)) (tyVal f.mod (u.opB f l))))) ∧
    (intType f.mod → Result32 (.imax w) f (fun u l => BitVec.ofInt 32 (max (tyVal f.mod (u.opA f l)) (tyVal f.mod (u.opB f l))))) ∧
    Result32 (.iand w) f (fun u l => u.opA f l &&& u.opB f l) ∧
    Result32 (.ior w) f (fun u l => u.opA f l ||| u.opB f l) ∧
    Result32 (.ixor w) f (fun u l => u.opA f l ^^^ u.opB f l) ∧
    Result32 (.inot w) f (fun u l => ~~~ u.opA f l) ∧
    Result32 (.iandn w) f (fun u l => u.opA f l &&& ~~~ u.opB f l) ∧
    Result32 (.ipopc w) f (fun u l => BitVec.ofNat 32 ((List.range 32).countP fun i => (u.opA f l).getLsbD i)) ∧
    Result32 (.iclz w) f (fun u l => BitVec.ofNat 32 ((List.range 32).takeWhile fun i => !(u.opA f l).getLsbD (31 - i)).length) ∧
    Result32 (.ictz w) f (fun u l => BitVec.ofNat 32 ((List.range 32).takeWhile fun i => !(u.opA f l).getLsbD i).length) ∧
    Result32 (.ibrev w) f (fun u l => (u.opA f l).reverse)) ∧
  ∀ w : Ext, let f := Fields.ofExt w
    (f.mhi % 2 = 0 → Result32 (.iaddExt w) f (fun u l => u.opA f l + u.opB f l)) ∧
    (f.mhi % 2 = 0 → Result32 (.isubExt w) f (fun u l => u.opA f l - u.opB f l)) ∧
    Result32 (.imulExt w) f (fun u l => u.opA f l * u.opB f l) ∧
    Result32 (.imad w) f (fun u l => u.opA f l * u.opB f l + u.opC f l) ∧
    (intType f.mod → Result32 (.iminExt w) f (fun u l => BitVec.ofInt 32 (min (tyVal f.mod (u.opA f l)) (tyVal f.mod (u.opB f l))))) ∧
    (intType f.mod → Result32 (.imaxExt w) f (fun u l => BitVec.ofInt 32 (max (tyVal f.mod (u.opA f l)) (tyVal f.mod (u.opB f l))))) ∧
    (intType f.mod → Result32 (.iclamp w) f
      (fun u l => BitVec.ofInt 32 (min (max (tyVal f.mod (u.opA f l)) (tyVal f.mod (u.opB f l))) (tyVal f.mod (u.opC f l))))) ∧
    Result32 (.iandExt w) f (fun u l => u.opA f l &&& u.opB f l) ∧
    Result32 (.iorExt w) f (fun u l => u.opA f l ||| u.opB f l) ∧
    Result32 (.ixorExt w) f (fun u l => u.opA f l ^^^ u.opB f l) ∧
    Result32 (.iandnExt w) f (fun u l => u.opA f l &&& ~~~ u.opB f l)

/-- The shifts of R115 and the bit-field instructions of R116, at their opcodes and formats, complete in every warp that issues them with the result the
rules give in D, for every count, position and width; the extended iadd and isub with .sat clamp the exact result to the range of the type. (R115,
R116) -/
def Obligations.IntegerShiftsAndFields : Prop :=
  (∀ w : Std, Instr.enc (.ishl w) = some (.std 0x013 w) ∧ Instr.enc (.ishr w) = some (.std 0x014 w) ∧ Instr.enc (.isar w) = some (.std 0x015 w) ∧ Instr.enc (.irot w) = some (.std 0x016 w)) ∧
  (∀ w : Ext, Instr.enc (.ibfe w) = some (.ext 0x017 w) ∧ Instr.enc (.ibfi w) = some (.ext 0x018 w)) ∧
  (∀ w : Std, let f := Fields.ofStd w
    Result32 (.ishl w) f (fun u l => u.opA f l <<< (u.opB f l).toNat) ∧
    Result32 (.ishr w) f (fun u l => u.opA f l >>> (u.opB f l).toNat) ∧
    Result32 (.isar w) f (fun u l => (u.opA f l).sshiftRight (u.opB f l).toNat) ∧
    Result32 (.irot w) f (fun u l => (u.opA f l).rotateLeft ((u.opB f l).toNat % 32))) ∧
  ∀ w : Ext, let f := Fields.ofExt w
    (intType f.mod → f.mhi % 2 = 1 → Result32 (.iaddExt w) f
      (fun u l => BitVec.ofInt 32 (tyClamp f.mod (tyVal f.mod (u.opA f l) + tyVal f.mod (u.opB f l))))) ∧
    (intType f.mod → f.mhi % 2 = 1 → Result32 (.isubExt w) f
      (fun u l => BitVec.ofInt 32 (tyClamp f.mod (tyVal f.mod (u.opA f l) - tyVal f.mod (u.opB f l))))) ∧
    (intType f.mod → ∃ r, Result32 (.ibfe w) f r ∧ ∀ u l j, j < 32 →
      let a := u.opA f l
      let pos := (u.opB f l).toNat % 256
      let wd := min ((u.opB f l).toNat / 256 % 256) 32
      let src := fun k => if k < 32 then a.getLsbD k else f.mod == 0x07 && a.getLsbD 31
      (r u l).getLsbD j = if wd = 0 then false else if j < wd then src (pos + j) else f.mod == 0x07 && src (pos + wd - 1)) ∧
    ∃ r, Result32 (.ibfi w) f r ∧ ∀ u l j, j < 32 →
      let pos := (u.opB f l).toNat % 256
      let wd := min ((u.opB f l).toNat / 256 % 256) 32
      (r u l).getLsbD j = if pos ≤ j ∧ j < pos + wd then (u.opA f l).getLsbD (j - pos) else (u.opC f l).getLsbD j

/-- iaddc and isubb write the sum or difference with the carry in P(c, l) and the carry or borrow out there (none with c = 15); isel chooses by P(c, l);
icmp and cmp64, in both formats, write P(D, l) by the condition, signed or unsigned. Nothing else changes. (04 R117, 04 R118, 01 R17) -/
def Obligations.CarrySelectCompare : Prop :=
  (∀ w : Std, let f := Fields.ofStd w
    let c := f.mod % 16
    let cin := fun (u : Warp) l => c != 15 && u.p l c
    Results (.iaddc w) f.ga f.gb 2 (f.d + 1)
      (fun u l => only1 f.d (BitVec.ofNat 32 ((u.opA f l).toNat + (u.opB f l).toNat + (cin u l).toNat)))
      (fun u l => onlyP c (decide (2 ^ 32 ≤ (u.opA f l).toNat + (u.opB f l).toNat + (cin u l).toNat))) ∧
    Results (.isubb w) f.ga f.gb 2 (f.d + 1)
      (fun u l => only1 f.d (BitVec.ofInt 32 ((u.opA f l).toNat - (u.opB f l).toNat - (cin u l).toNat)))
      (fun u l => onlyP c (decide (((u.opA f l).toNat : Int) - (u.opB f l).toNat - (cin u l).toNat < 0))) ∧
    Result32 (.isel w) f (fun u l => if u.p l c then u.opA f l else u.opB f l) ∧
    (f.mod < 16 → f.mod % 8 ≤ 5 →
      ResultP (.icmp w) f (fun u l =>
        let val (x : W32) : Int := if f.mod / 8 = 1 then x.toNat else x.toInt
        compares (f.mod % 8) (val (u.opA f l)) (val (u.opB f l))) ∧
      ResultP (.cmp64 w) f (fun u l =>
        let val (x : W64) : Int := if f.mod / 8 = 1 then x.toNat else x.toInt
        compares (f.mod % 8) (val (u.opA64 f l)) (val (u.opB64 f l))))) ∧
  ∀ w : Ext, let f := Fields.ofExt w
    f.mod < 16 → f.mod % 8 ≤ 5 →
      ResultP (.icmpExt w) f (fun u l =>
        let val (x : W32) : Int := if f.mod / 8 = 1 then x.toNat else x.toInt
        compares (f.mod % 8) (val (u.opA f l)) (val (u.opB f l))) ∧
      ResultP (.cmp64Ext w) f (fun u l =>
        let val (x : W64) : Int := if f.mod / 8 = 1 then x.toNat else x.toInt
        compares (f.mod % 8) (val (u.opA64 f l)) (val (u.opB64 f l)))

/-- add64, sub64, shl64, shr64 (logical and arithmetic), imadw, lea and leahi, in each format they have, complete with the result of the table of R119 in
D:D+1 (leahi in D) of each lane with Exec, and change nothing else. (04 R119) -/
def Obligations.WideIntegers : Prop :=
  (∀ w : Std, let f := Fields.ofStd w
    Result64 (.add64 w) f (fun u l => u.opA64 f l + u.opB64 f l) ∧
    Result64 (.sub64 w) f (fun u l => u.opA64 f l - u.opB64 f l) ∧
    Result64 (.shl64 w) f (fun u l => u.opA64 f l <<< (u.opB f l).toNat) ∧
    (f.mod = 0x03 → Result64 (.shr64 w) f (fun u l => u.opA64 f l >>> (u.opB f l).toNat)) ∧
    (f.mod = 0x08 → Result64 (.shr64 w) f (fun u l => (u.opA64 f l).sshiftRight (u.opB f l).toNat))) ∧
  ∀ w : Ext, let f := Fields.ofExt w
    let index := fun (u : Warp) l => (if f.mod / 8 % 2 = 1 then (u.opB f l).toInt else ((u.opB f l).toNat : Int)) * 2 ^ (f.mod % 8)
    Result64 (.add64Ext w) f (fun u l => u.opA64 f l + u.opB64 f l) ∧
    Result64 (.sub64Ext w) f (fun u l => u.opA64 f l - u.opB64 f l) ∧
    (intType f.mod → Result64 (.imadw w) f
      (fun u l => BitVec.ofInt 64 (tyVal f.mod (u.opA f l) * tyVal f.mod (u.opB f l) + (u.opC64 f l).toNat))) ∧
    Result64 (.lea w) f (fun u l => BitVec.ofInt 64 ((u.opA64 f l).toNat + index u l)) ∧
    Result32 (.leahi w) f (fun u l => BitVec.ofInt 32 (((u.opC f l).toNat * 2 ^ 32 + (u.opA f l).toNat + index u l) / 2 ^ 32))

/-- idot4 and isad form their exact sum and wrap or clamp it. idiv and irem, at their opcodes, with no zero divisor in a lane with Exec, write the
quotient truncated toward zero or the remainder with the sign of the dividend; with LA = 0 at once, else through a window. With a zero divisor they
raise divide-by-zero in the lowest such lane, REASON 1 or 2, TRAPINFO the dividend, and have no other effect. (R121) -/
def Obligations.DotProductsAndDivision : Prop :=
  (∀ w : Std, Instr.enc (.idiv w) = some (.std 0x028 w) ∧ Instr.enc (.irem w) = some (.std 0x029 w)) ∧
  (∀ w : Ext, let f := Fields.ofExt w
    let out := fun x : Int => BitVec.ofInt 32 (if f.mod.testBit 2 then clampTo (-2 ^ 31) (2 ^ 31 - 1) x else x)
    Result32 (.idot4 w) f (fun u l => out ((u.opC f l).toInt +
      ((List.range 4).map fun i => byteVal (f.mod.testBit 0) (u.opA f l) i * byteVal (f.mod.testBit 1) (u.opB f l) i).sum)) ∧
    (f.mod.testBit 0 = f.mod.testBit 1 → Result32 (.isad w) f (fun u l => out ((u.opC f l).toInt +
      ((List.range 4).map fun i => |byteVal (f.mod.testBit 0) (u.opA f l) i - byteVal (f.mod.testBit 0) (u.opB f l) i|).sum)))) ∧
  ∀ w : Std, let f := Fields.ofStd w
    let nonzero := fun s u => ∀ l ∈ State.exec s u f.ga f.gb, u.opB f l ≠ 0
    intType f.mod →
      LongResult32 (.idiv w) f (fun u l => BitVec.ofInt 32 ((tyVal f.mod (u.opA f l)).tdiv (tyVal f.mod (u.opB f l)))) nonzero ∧
      LongResult32 (.irem w) f (fun u l => BitVec.ofInt 32 ((tyVal f.mod (u.opA f l)).tmod (tyVal f.mod (u.opB f l)))) nonzero ∧
      ∀ (s : State) (e : Env) (l : Nat), s.env = some e → (s.exec e.w f.ga f.gb).find? (fun l => e.w.opB f l == 0) = some l →
        exec (.idiv w) s = .next (s.raise e { cause := 0x11, reason := 1, lane := l, info := (e.w.opA f l).setWidth 64 }) ∧
        exec (.irem w) s = .next (s.raise e { cause := 0x11, reason := 2, lane := l, info := (e.w.opA f l).setWidth 64 })

/-- fadd, fsub, fmul, ffma, fdiv, fsqrt, in each format they have, write the exact result rounded once to the type under the rounding code, with .sat in
the extended forms; fmin, fmax, frnd, fclass and fcmp write what their rules give. Nothing else changes. (04 R122, 04 R123, 04 R125, 04 R126, 04 R127,
02 R52, 02 R54) -/
def Obligations.FloatArithmetic : Prop :=
  (∀ w : Std, let f := Fields.ofStd w
    let t := ftOf f.mod
    let m := rndOf f.mod
    let x := fun (u : Warp) l => fval t (u.opA f l)
    let y := fun (u : Warp) l => fval t (u.opBf f t l)
    Result32 (.fadd w) f (fun u l => BitVec.ofNat 32 (roundTo t ((x u l).add m (y u l)) m)) ∧
    Result32 (.fsub w) f (fun u l => BitVec.ofNat 32 (roundTo t ((x u l).add m (y u l).negate) m)) ∧
    Result32 (.fmul w) f (fun u l => BitVec.ofNat 32 (roundTo t ((x u l).mul (y u l)) m)) ∧
    LongResult32 (.fdiv w) f (fun u l => BitVec.ofNat 32 (roundTo t ((x u l).div (y u l)) m)) ∧
    LongResult32 (.fsqrt w) f (fun u l => BitVec.ofNat 32 (roundTo t (x u l).sqrt m)) ∧
    Result32 (.fmin w) f (fun u l => fminmax t false (u.opA f l) (u.opBf f t l)) ∧
    Result32 (.fmax w) f (fun u l => fminmax t true (u.opA f l) (u.opBf f t l)) ∧
    Result32 (.frnd w) f (fun u l => fintegral t m (x u l)) ∧
    Result32 (.fclass w) f (fun u l => BitVec.ofNat 32 (floatClass t (u.opA f l).toNat)) ∧
    ResultP (.fcmp w) f (fun u l => floatCompare (f.mod % 8) (x u l) (y u l))) ∧
  ∀ w : Ext, let f := Fields.ofExt w
    let t := ftOf f.mod
    let m := rndOf f.mod
    let sat := f.mhi.testBit 0
    let x := fun (u : Warp) l => fval t (u.opA f l)
    let y := fun (u : Warp) l => fval t (u.opBf f t l)
    let z := fun (u : Warp) l => fval t (u.opC f l)
    Result32 (.faddExt w) f (fun u l => BitVec.ofNat 32 (roundTo t ((x u l).add m (y u l)) m sat)) ∧
    Result32 (.fsubExt w) f (fun u l => BitVec.ofNat 32 (roundTo t ((x u l).add m (y u l).negate) m sat)) ∧
    Result32 (.fmulExt w) f (fun u l => BitVec.ofNat 32 (roundTo t ((x u l).mul (y u l)) m sat)) ∧
    Result32 (.ffma w) f (fun u l => BitVec.ofNat 32 (roundTo t (((x u l).mul (y u l)).add m (z u l)) m sat)) ∧
    ResultP (.fcmpExt w) f (fun u l => floatCompare (f.mod % 8) (x u l) (y u l))

/-- frcp, frsq, fexp2, flog2, fsin, fcos, ftanh and fsig write their function rounded to the type (the model rounds an approximation of 768 bits, log
entry 15), at once or through a window; hadd2, hmul2, hfma2 and bfma2 act on each half; fdot2 rounds the exact sum of two products and an addend once.
(04 R124, 04 R128, 04 R129) -/
def Obligations.FloatFunctionsAndHalves : Prop :=
  (∀ w : Std, let f := Fields.ofStd w
    let t := ftOf f.mod
    let m := rndOf f.mod
    let of := fun (g : XReal → XReal) (u : Warp) l => BitVec.ofNat 32 (roundTo t (g (fval t (u.opA f l))) m)
    LongResult32 (.frcp w) f (of fnRcp) ∧ LongResult32 (.frsq w) f (of fnRsq) ∧ LongResult32 (.fexp2 w) f (of fnExp2) ∧
    LongResult32 (.flog2 w) f (of fnLog2) ∧ LongResult32 (.fsin w) f (of fnSin) ∧ LongResult32 (.fcos w) f (of fnCos) ∧
    LongResult32 (.ftanh w) f (of fnTanh) ∧ LongResult32 (.fsig w) f (of fnSig) ∧
    (let half := fun (g : XReal → XReal → XReal) (a b : W32) => fres t m false (g (fval t a) (fval t b))
     let both := fun g (u : Warp) l => packHalves (half g (loHalf (u.opA f l)) (loHalf (u.opBp f t l))) (half g (hiHalf (u.opA f l)) (hiHalf (u.opBp f t l)))
     Result32 (.hadd2 w) f (both (XReal.add m)) ∧ Result32 (.hmul2 w) f (both XReal.mul))) ∧
  ∀ w : Ext, let f := Fields.ofExt w
    let t := ftOf f.mod
    let m := rndOf f.mod
    let sat := f.mhi.testBit 0
    let half := fun (g : XReal → XReal → XReal) (a b : W32) => fres t m sat (g (fval t a) (fval t b))
    let both := fun g (u : Warp) l => packHalves (half g (loHalf (u.opA f l)) (loHalf (u.opBp f t l))) (half g (hiHalf (u.opA f l)) (hiHalf (u.opBp f t l)))
    let fma := fun (a b c : W32) => fres t m sat (((fval t a).mul (fval t b)).add m (fval t c))
    let fmas := fun (u : Warp) l => packHalves (fma (loHalf (u.opA f l)) (loHalf (u.opBp f t l)) (loHalf (u.opC f l)))
      (fma (hiHalf (u.opA f l)) (hiHalf (u.opBp f t l)) (hiHalf (u.opC f l)))
    Result32 (.hadd2Ext w) f (both (XReal.add m)) ∧ Result32 (.hmul2Ext w) f (both XReal.mul) ∧
    Result32 (.hfma2 w) f fmas ∧ Result32 (.bfma2 w) f fmas ∧
    Result32 (.fdot2 w) f (fun u l => fres .f32 m sat (XReal.sum m
      [(fval t (loHalf (u.opA f l))).mul (fval t (loHalf (u.opBp f t l))), (fval t (hiHalf (u.opA f l))).mul (fval t (hiHalf (u.opBp f t l))),
        fval .f32 (u.opC f l)]))

/-- pset, pand, por, pxor, pnot, pmov (three forms), mov, movi (three forms) and movs (four forms) write what their rules give; a movs to a uniform
register writes it once if some lane of ACTIVE has Exec, from the named lane, or 0 if that lane is not in ACTIVE. Nothing else changes. (04 R111, 04
R135, 04 R136, 04 R137, 04 R138) -/
def Obligations.PredicatesAndMoves : Prop :=
  (∀ w : Std, let f := Fields.ofStd w
    let a := fun (u : Warp) l => u.p l f.a != f.mod.testBit 0
    let b := fun (u : Warp) l => u.p l f.b != f.mod.testBit 1
    ResultP (.pset w) f (fun u l => decide (u.opB f l ≠ 0)) ∧
    ResultP (.pand w) f (fun u l => a u l && b u l) ∧
    ResultP (.por w) f (fun u l => a u l || b u l) ∧
    ResultP (.pxor w) f (fun u l => a u l != b u l) ∧
    ResultP (.pnot w) f (fun u l => !u.p l f.a) ∧
    (f.mod = 0 → ResultP (.pmov w) f (fun u l => u.p l f.a)) ∧
    (f.mod = 1 → ∃ r, Result32 (.pmov w) f r ∧ ∀ u l k, k < 32 → (r u l).getLsbD k = (decide (k < 16) && u.p l k)) ∧
    (f.mod = 2 → Results (.pmov w) f.ga f.gb 15 0 nothing fun u l k => if k < 15 then some ((u.v l f.a).getLsbD k) else none) ∧
    (f.mod = 2 → Result32 (.mov w) f (fun u l => u.opB f l)) ∧
    (f.mod = 3 → Result64 (.mov w) f (fun u l => u.opB64 f l)) ∧
    (f.mod = 0 → Result32 (.movs w) f (fun u _ => lo32 (u.s f.a))) ∧
    (f.mod = 2 → Result64 (.movs w) f (fun u _ => u.s f.a)) ∧
    (f.mod = 1 ∨ f.mod = 3 → ∀ (s : State) (e : Env), s.cur.stream = false → s.env = some e → e.w.logRoom 1 = true → f.d < e.w.regs.s.length →
      ∃ w', exec (.movs w) s = .next (s.putWarp w') ∧
        Wrote e.w w' s.cur (s.act e.w) e.w.v e.w.p
          (fun k => if k = f.d ∧ s.exec e.w f.ga f.gb ≠ [] then
              (let l := (f.uniB e.w.s).toNat % e.w.width
               if l ∈ s.act e.w then (if f.mod = 3 then e.w.v2 l f.a else (e.w.v l f.a).setWidth 64) else 0)
            else e.w.s k) e.w.bnr)) ∧
  ∀ w : Ext, let f := Fields.ofExt w
    (f.mod / 32 = 0 → Result32 (.movi w) f (fun _ _ => f.imm)) ∧
    (f.mod / 32 = 1 → Result64 (.movi w) f (fun _ _ => f.imm.signExtend 64)) ∧
    (f.mod / 32 = 2 → ResultU (.movi w) f (fun _ => f.imm.signExtend 64))

/-- sadd, ssub, sand, sor, sshl (left, logical right, arithmetic right) and scmp, in each format they have: in a warp S(D) takes the result once if some
lane of ACTIVE has Exec and nothing else changes; in a matrix stream x(D) always takes it and the stream moves on. (04 R111, 04 R139, 07 R236) -/
def Obligations.UniformUnit : Prop :=
  (∀ w : Std, let f := Fields.ofStd w
    ResultU (.sadd w) f (fun u => u f.a + f.uniB u) ∧ ResultU (.ssub w) f (fun u => u f.a - f.uniB u) ∧
    ResultU (.sand w) f (fun u => u f.a &&& f.uniB u) ∧ ResultU (.sor w) f (fun u => u f.a ||| f.uniB u) ∧
    (f.mod = 0 → ResultU (.sshl w) f (fun u => u f.a <<< (f.uniB u).toNat)) ∧
    (f.mod = 1 → ResultU (.sshl w) f (fun u => u f.a >>> (f.uniB u).toNat)) ∧
    (f.mod = 2 → ResultU (.sshl w) f (fun u => (u f.a).sshiftRight (f.uniB u).toNat)) ∧
    (f.mod < 16 → f.mod % 8 ≤ 5 → ResultU (.scmp w) f (fun u =>
      let val (x : W64) : Int := if f.mod / 8 = 1 then x.toNat else x.toInt
      if compares (f.mod % 8) (val (u f.a)) (val (f.uniB u)) then 1 else 0))) ∧
  ∀ w : Ext, let f := Fields.ofExt w
    ResultU (.saddExt w) f (fun u => u f.a + f.uniB u) ∧ ResultU (.ssubExt w) f (fun u => u f.a - f.uniB u) ∧
    ResultU (.sandExt w) f (fun u => u f.a &&& f.uniB u) ∧ ResultU (.sorExt w) f (fun u => u f.a ||| f.uniB u) ∧
    (f.mod < 16 → f.mod % 8 ≤ 5 → ResultU (.scmpExt w) f (fun u =>
      let val (x : W64) : Int := if f.mod / 8 = 1 then x.toNat else x.toInt
      if compares (f.mod % 8) (val (u f.a)) (val (f.uniB u)) then 1 else 0))

/-- In a warp sprrd writes the special register to V, to a pair or, once, to a uniform register; in a matrix stream to its x register. LANE, WARPX, WID,
BLOCKX, SEQ, TENANT, PRIV, the trap registers, FMTWORD, LVLSHAPE, CORELOC, SPECCTL and ROWPROG read as the parts of the state that hold them, each at
its bits; a batch reads LVLSHAPE as one level of 6 bits. CLOCK is one count for every core (log entry 57: 01 R22 lets cores differ). (04 R140, 01 R21,
01 R23, 01 R24, 01 R28, 07 R236, 07 R248) -/
def Obligations.SpecialRegisterReads : Prop :=
  (∀ (w : Std) (s : State) (e : Env), s.env = some e → s.cur.stream = false → let f := Fields.ofStd w
    let lanes := s.exec e.w f.ga f.gb
    (f.mod = 0 → e.w.logRoom 1 = true → Commits (.sprrd w) s e (lanes.map fun l => .v l f.d (lo32 (s.sprLane e l f.a)))) ∧
    (f.mod = 1 → e.w.logRoom 2 = true → Commits (.sprrd w) s e (lanes.flatMap fun l => writePair l f.d (s.sprLane e l f.a))) ∧
    (f.mod = 2 → e.w.logRoom 1 = true → Commits (.sprrd w) s e (if lanes = [] then [] else [.u f.d (s.sprLane e 0 f.a)]))) ∧
  (∀ (w : Std) (s : State) (e : SEnv), s.senv = some e → s.cur.stream = true → let f := Fields.ofStd w
    exec (.sprrd w) s = .next (s.putStream e.b.id ((e.x.setReg f.d (s.sprCommon e.b e.l 0 f.a)).advance s.cur))) ∧
  ∀ (s : State) (e : Env) (l : Nat),
    s.sprLane e l 0x000 = BitVec.ofNat 64 l ∧ s.sprLane e l 0x001 = e.w.warpx.setWidth 64 ∧ s.sprLane e l 0x002 = (e.w.lane l).wid ∧
    s.sprLane e l 0x004 = e.b.blockx ∧ s.sprLane e l 0x006 = e.l.seq.setWidth 64 ∧ s.sprLane e l 0x007 = e.l.hdr.tenant.setWidth 64 ∧
    s.sprLane e l 0x008 = (if e.l.hdr.privileged then 1 else 0) ∧
    s.sprLane e l 0x010 = e.w.regs.trap.cause.setWidth 64 ∧ s.sprLane e l 0x011 = e.w.regs.trap.pc ∧ s.sprLane e l 0x012 = e.w.regs.trap.info ∧
    s.sprLane e l 0x013 = e.w.regs.trap.aux ∧ s.sprLane e l 0x014 = e.w.regs.trap.tba ∧ s.sprLane e l 0x015 = e.w.regs.trap.mask.setWidth 64 ∧
    s.sprLane e l 0x021 = e.w.regs.fmtword.setWidth 64 ∧ s.sprLane e l 0x030 = BitVec.ofNat 64 s.clock ∧
    (let x := (s.sprLane e l 0x003).toNat
     (e.b.batch.isSome = true → x = 6) ∧ (e.b.batch = none → (∀ k < 6, e.l.hdr.widths.getD k 0 < 128) → e.l.hdr.blk < 8 →
       (∀ k < 6, bits x (7 * k + 6) (7 * k) = e.l.hdr.widths.getD k 0) ∧ bits x 44 42 = e.l.hdr.blk ∧ bits x 63 45 = 0)) ∧
    (let x := (s.sprLane e l 0x005).toNat
     e.b.winSlot < 64 → e.w.slot < 64 → e.b.core < 192 → bits x 5 0 = e.b.winSlot ∧ bits x 7 6 = e.w.slot / 16 ∧ bits x 15 8 = e.b.core ∧
       bits x 63 16 = if 96 ≤ e.b.core then 1 else 0) ∧
    (let x := (s.sprLane e l 0x018).toNat
     e.w.spec.crfl < 1024 → e.w.spec.ulog < 32 → s.outstanding e.w < 64 → e.w.spec.emits.length < 16 → e.w.spec.cmds.length < 16 →
       bits x 0 0 = e.w.spec.soff.toNat ∧ bits x 10 1 = e.w.spec.crfl ∧ bits x 15 11 = e.w.spec.ulog ∧ bits x 21 16 = s.outstanding e.w ∧
       bits x 25 22 = e.w.spec.emits.length ∧ bits x 29 26 = e.w.spec.cmds.length ∧ bits x 63 30 = 0) ∧
    (e.b.stream = none → s.sprLane e l 0x020 = 0) ∧
    ∀ x, e.b.stream = some x → x.next < 256 → bits (s.sprLane e l 0x020).toNat 7 0 = x.next ∧ bits (s.sprLane e l 0x020).toNat 63 8 = x.run.toNat

/-- With some lane with Exec, sprwr writes TBA at any time and TRAPCAUSE, TRAPPC, TRAPINFO and TRAPAUX in a handler, from the lowest such lane, TBA and
TRAPPC with bits [2:0] clear, and changes no other register; outside a handler a write of another of these raises privilege with REASON 3. In a matrix
stream it sets ROWPROG's next row when no tile step is open. (04 R141, 01 R21, 07 R236, 07 R248) -/
def Obligations.SpecialRegisterWrites : Prop :=
  (∀ (w : Std) (s : State) (e : Env) (l : Nat) (ls : List Nat), s.env = some e → s.cur.stream = false → let f := Fields.ofStd w
    s.exec e.w f.ga f.gb = l :: ls →
    let x : W64 := if f.mod.testBit 0 ∨ f.bk ≠ 0 then e.w.opB64 f l else (e.w.opB f l).setWidth 64
    (f.d = 0x014 ∨ e.w.regs.trap.inHandler = true → f.d ∈ [0x010, 0x011, 0x012, 0x013, 0x014] →
      ∃ w', exec (.sprwr w) s = .next (s.putWarp w') ∧
        Wrote e.w { w' with regs := { w'.regs with trap := e.w.regs.trap }, decodedExt := e.w.decodedExt } s.cur (s.act e.w) e.w.v e.w.p e.w.s e.w.bnr ∧
        w'.regs.trap = { e.w.regs.trap with
          cause := if f.d = 0x010 then lo32 x &&& 0x01FFFFFF else e.w.regs.trap.cause
          pc := if f.d = 0x011 then x &&& ~~~7 else e.w.regs.trap.pc
          info := if f.d = 0x012 then x else e.w.regs.trap.info
          aux := if f.d = 0x013 then x else e.w.regs.trap.aux
          tba := if f.d = 0x014 then x &&& ~~~7 else e.w.regs.trap.tba }) ∧
    (f.d ≠ 0x014 → e.w.regs.trap.inHandler = false →
      exec (.sprwr w) s = .next (s.raise e { cause := 7, reason := 3, lane := l, info := 0 }))) ∧
  ∀ (w : Std) (s : State) (e : SEnv), s.senv = some e → s.cur.stream = true → s.tileStepOpen e.b.id = false →
    exec (.sprwr w) s = .next (s.putStream e.b.id ({ e.x with next := ((Fields.ofStd w).uniB e.x.reg).toNat % 256 }.advance s.cur))

/-- shfl, redux, scan, bnmov, match, bnperm, vote (all, any, uniform, mask) and popm commit, in each lane with Exec, the value their rules give from the
lanes with Exec; the long-latency ones at once with LA = 0, else through a window. popm counts only mask bits below the warp's width (log entry 22;
R153 speaks of the 64-bit mask). (04 R143, 04 R146, 04 R147, 04 R148, 04 R149, 04 R150, 04 R151, 04 R152, 04 R153) -/
def Obligations.CrossLaneResults : Prop :=
  ∀ (w : Std) (s : State) (e : Env), s.env = some e → let f := Fields.ofStd w
    let on := s.exec e.w f.ga f.gb
    let width := e.w.width
    let u := e.w
    (e.w.logRoom 1 = true →
      CommitsLong (.shfl w) f s e [.v f.d] (on.map fun l =>
        let k := (u.opB f l).toNat
        let size := if f.mod / 4 = 0 then width else 2 ^ (f.mod / 4)
        let base := l - l % size
        let src := match f.mod % 4 with
          | 0 => base + k % size
          | 1 => base + (l % size + k % size) % size
          | 2 => base + (l % size + size - k % size) % size
          | _ => base + (l % size ^^^ k % size)
        .v l f.d (if src ∈ on then u.v src f.a else 0)) ∧
      CommitsLong (.redux w) f s e [.v f.d] (on.map fun l => .v l f.d (reduce f.mod (on.map fun j => u.v j f.a))) ∧
      CommitsLong (.scan w) f s e [.v f.d] (on.map fun l =>
        .v l f.d (reduce f.mod ((on.filter fun j => if f.mod.testBit 4 then decide (j < l) else decide (j ≤ l)).map fun j => u.v j f.a))) ∧
      CommitsLong (.bnmov w) f s e [.v f.d] (on.map fun l =>
        .v l f.d ((netApply (netSize width) (u.bnr f.b) ((List.range width).map fun q => if q ∈ on then u.v q f.a else 0) 0).getD l 0)) ∧
      (f.mod % 4 = 0 → Commits (.vote w) s e (on.map fun l => .p l f.d (on.all fun j => u.p j f.a != f.mod.testBit 2))) ∧
      (f.mod % 4 = 1 → Commits (.vote w) s e (on.map fun l => .p l f.d (on.any fun j => u.p j f.a != f.mod.testBit 2))) ∧
      (f.mod % 4 = 2 → Commits (.vote w) s e (on.map fun l => .p l f.d
        ((on.all fun j => u.p j f.a != f.mod.testBit 2) || (on.all fun j => u.p j f.a == f.mod.testBit 2)))) ∧
      Commits (.popm w) s e (on.map fun l =>
        .v l f.d (BitVec.ofNat 32 ((List.range width).countP fun j => (u.opA64 f l).getLsbD j && (!f.mod.testBit 0 || decide (j < l)))))) ∧
    (e.w.logRoom 2 = true →
      (f.mod % 4 = 3 → Commits (.vote w) s e (on.flatMap fun l => writePair l f.d (maskOf (on.filter fun j => u.p j f.a != f.mod.testBit 2)))) ∧
      CommitsLong (.matchLanes w) f s e [.v f.d, .v (f.d + 1)] (on.flatMap fun l =>
        writePair l f.d (maskOf (on.filter fun j => if f.mod.testBit 0 then u.v2 j f.a == u.v2 l f.a else u.v j f.a == u.v l f.a))) ∧
      (on ≠ [] →
        let ok := netOk width fun l => if l ∈ on then some (u.v l f.a).toNat else none
        CommitsLong (.bnperm w) f s e ([.bn f.d] ++ if f.mod % 16 = 15 then [] else [.p (f.mod % 16)])
          (.bn f.d (netWord (route (netSize width) (netSize width) 0 (netPerm width ok)))
            :: if f.mod % 16 = 15 then [] else on.map fun l => .p l (f.mod % 16) (ok.any fun p => p.1 == l))))

/-- cvt commits the conversion of its source between the types of R63, under .rs with the neighbours' discarded bits of R132; bxpack commits the block of
16 values of its lane; bxunpack commits the 16 elements of its lane's block as .f32, or two to a register as .f16 or .bf16. (04 R130, 04 R131, 04
R132, 04 R133, 04 R134, 02 R65) -/
def Obligations.Conversions : Prop :=
  (∀ (w : Std) (s : State) (e : Env), s.env = some e → e.w.logRoom 2 = true → let f := Fields.ofStd w
    let on := s.exec e.w f.ga f.gb
    let st := f.b % 32
    let rnd := f.b / 32 % 8
    let src := fun l => if st = 0x08 ∨ st = 0x0C then (e.w.opA64 f l).toNat else (e.w.opA f l).toNat
    let disc := fun l => if l ∈ on then convertDiscard f.mod st (src l) else 0
    let n := e.w.width
    let g := fun l => if rnd = 4 then stochastic (disc ((l + n - 1) % n)) (disc ((l + 1) % n)) else 0
    let r := fun l => convert f.mod st rnd (f.b / 256 == 1) (src l) (g l)
    Commits (.cvt w) s e (on.flatMap fun l =>
      if f.mod = 0x08 ∨ f.mod = 0x0C then writePair l f.d (r l) else [.v l f.d (lo32 (r l))])) ∧
  ∀ (w : Ext) (s : State) (e : Env), s.env = some e → let f := Fields.ofExt w
    let on := s.exec e.w f.ga f.gb
    let m := (RMode.ofCode (f.mhi / 32)).getD .rn
    (e.w.logRoom (blockRegs f.mod) = true → Commits (.bxpack w) s e (on.flatMap fun l =>
      let block := bxPack (bxMant f.mod) ((List.range 16).map (e.w.unpacked (f.mhi % 32) f.a l)) m
      (List.range (blockRegs f.mod)).map fun i => .v l (f.d + i) (BitVec.ofNat 32 (block / 2 ^ (32 * i))))) ∧
    (e.w.logRoom 16 = true → f.mod = 0x0F → Commits (.bxunpack w) s e (on.flatMap fun l =>
      (List.range 16).map fun i => .v l (f.d + i)
        (BitVec.ofNat 32 (roundTo .f32 (bxElem (bxMant (f.mhi % 32)) (e.w.blockBits (f.mhi % 32) f.a l) i) m)))) ∧
    (e.w.logRoom 8 = true → ∀ t, (f.mod = 0x0D ∧ t = FFmt.f16) ∨ (f.mod = 0x0E ∧ t = FFmt.bf16) → Commits (.bxunpack w) s e (on.flatMap fun l =>
      let x := fun i => roundTo t (bxElem (bxMant (f.mhi % 32)) (e.w.blockBits (f.mhi % 32) f.a l) i) m
      (List.range 8).map fun i => .v l (f.d + i) (BitVec.ofNat 32 (x (2 * i) + x (2 * i + 1) * 65536))))

/-- A compact pair commits the writes of slot 0 in the lanes where its guard holds and then those of slot 1, both from the sources as they were before the
pair; the slots iadd, isub, imul, iand, ior, ixor, ishl, ineg, mov, fadd and add64 write what the standard form they name writes. (03 R76, 03 R77, 03
R101, 04 R142) -/
def Obligations.CompactPairs : Prop :=
  ∀ (p : Pair) (s : State) (e : Env), s.env = some e → e.w.logRoom 4 = true →
    Commits (.compactPair p) s e
      (((s.act e.w).filter fun l => e.w.p l p.s0.grd.toNat).flatMap (e.w.slotWrites p.s0) ++
        ((s.act e.w).filter fun l => e.w.p l p.s1.grd.toNat).flatMap (e.w.slotWrites p.s1)) ∧
    ∀ (x : Slot) (l : Nat), let d := x.d.toNat
      let a := e.w.v l d
      let b := e.w.slotI x l
      (x.op = 0x01 → e.w.slotWrites x l = [.v l d (a + b)]) ∧ (x.op = 0x02 → e.w.slotWrites x l = [.v l d (a - b)]) ∧
      (x.op = 0x03 → e.w.slotWrites x l = [.v l d (a * b)]) ∧ (x.op = 0x08 → e.w.slotWrites x l = [.v l d (a &&& b)]) ∧
      (x.op = 0x09 → e.w.slotWrites x l = [.v l d (a ||| b)]) ∧ (x.op = 0x0A → e.w.slotWrites x l = [.v l d (a ^^^ b)]) ∧
      (x.op = 0x0C → e.w.slotWrites x l = [.v l d (a <<< b.toNat)]) ∧ (x.op = 0x10 → e.w.slotWrites x l = [.v l d (-b)]) ∧
      (x.op = 0x17 → e.w.slotWrites x l = [.v l d b]) ∧
      (x.op = 0x18 → e.w.slotWrites x l = [.v l d (fres .f32 .rn false ((fval .f32 a).add .rn (fval .f32 (e.w.slotF x .f32 l))))]) ∧
      (x.op = 0x32 → e.w.slotWrites x l = writePair l d (e.w.v2 l d + e.w.slot64 x l))

/-- bra, brx, call, callx, ret and the extended bra and call send the lanes with Exec to their target and the other lanes of ACTIVE past the instruction;
a call writes the address after itself to D:D+1 (in a stream to x(D)). In a matrix stream the conditional forms go to the target if x(A) meets the
condition and past the instruction if not. Nothing else changes but the trace ring. (05 R162, 05 R163, 07 R235, 03 R93) -/
def Obligations.BranchesAndCalls : Prop :=
  (∀ w : Std, let f := Fields.ofStd w
    let near := fun pc : Pc => pc + 1 + BitVec.ofInt 61 f.imm9
    Branches (.bra w) f 1 false false (fun u l => near (u.lane l).pc) ∧ StreamBranches (.bra w) 1 none (fun _ => true) (fun x => near x.pc) ∧
    Branches (.brx w) f 2 true false (fun u l => Pc.ofAddr (u.opA64 f l)) ∧
    StreamBranches (.brx w) 2 none (fun _ => true) (fun x => Pc.ofAddr (x.reg f.a)) ∧
    Branches (.call w) f 3 false true (fun u l => near (u.lane l).pc) ∧ StreamBranches (.call w) 3 (some f.d) (fun _ => true) (fun x => near x.pc) ∧
    Branches (.callx w) f 2 true true (fun u l => Pc.ofAddr (u.opA64 f l)) ∧
    Branches (.ret w) f 4 true false (fun u l => Pc.ofAddr (u.opA64 f l)) ∧
    StreamBranches (.ret w) 4 none (fun _ => true) (fun x => Pc.ofAddr (x.reg f.a))) ∧
  (∀ w : Ext, let f := Fields.ofExt w
    let far := fun pc : Pc => pc + 2 + f.imm.signExtend 61
    Branches (.braExt w) f 1 false false (fun u l => far (u.lane l).pc) ∧ StreamBranches (.braExt w) 1 none (fun _ => true) (fun x => far x.pc) ∧
    Branches (.callExt w) f 3 false true (fun u l => far (u.lane l).pc) ∧
    StreamBranches (.callExt w) 3 (some f.d) (fun _ => true) (fun x => far x.pc)) ∧
  ∀ w : Form, let f := Fields.ofForm w
    let taken := fun x : Stream => compares (f.mod % 8) (x.reg f.a).toInt 0
    f.mod % 8 ≤ 5 →
      StreamBranches (.braCond w) 1 none taken (fun x => f.target x.pc) ∧ StreamBranches (.callCond w) 3 (some f.d) taken (fun x => f.target x.pc)

/-- Each completes in a warp (those that wait until it is non-speculative, when it is): nop moves on; yield makes the warp ineligible for 16 clk; tmark
writes a trace record; trig marks the threads; tmask and tunmask change bit 0 of TMASK alone; specoff and specon change SPECOFF alone; exit ends the
threads with Exec and counts them, a warp whose threads have all ended retires, and with the last of it the block; a privileged halt ends the launch
HALTED: none of its warps and streams is ready any more, its saved contexts are gone; lwait passes the lanes whose count has been reached, leaves the
others waiting, and raises barrier-misuse REASON 8 for a count that its group cannot reach. (05 R165, 05 R166, 05 R180, 05 R181, 05 R185, 05 R189, 05
R190, 05 R191) -/
def Obligations.WarpInstructionsWithoutResults : Prop :=
  ∀ (w : Std) (s : State) (e : Env), s.cur.stream = false → s.env = some e → let f := Fields.ofStd w
    let ex := s.exec e.w f.ga f.gb
    let moved := fun i (change : Warp → Warp) => ∃ u, Moved e.w u s.cur (s.act e.w) ∧ exec i s = .next (s.putWarp (change u))
    (e.w.logRoom 0 = true → exec (.nop w) s = .next (s.putWarp ((e.w.commit []).advance s.cur (s.act e.w)))) ∧
    moved (.yield w) (fun u => if ex = [] then u else { u with yielded := some (s.cycles + 16) }) ∧
    (∃ u, Moved e.w u s.cur (s.act e.w) ∧
      exec (.tmark w) s = .next ((s.putWarp u).tracedAt e ex 3 10 (fun _ => 0) fun l => (e.w.opB f l).setWidth 54)) ∧
    (e.w.settled = true →
      moved (.trig w) (fun u => { u with regs := { u.regs with lanes := u.regs.lanes.zipIdx.map fun (t, l) => if l ∈ ex then { t with triggered := true } else t } }) ∧
      moved (.tmask w) (fun u => if ex = [] then u else { u with regs := { u.regs with trap := { u.regs.trap with mask := u.regs.trap.mask ||| 1#32 } } }) ∧
      moved (.tunmask w) (fun u => if ex = [] then u else { u with regs := { u.regs with trap := { u.regs.trap with mask := u.regs.trap.mask &&& 0xFFFFFFFE#32 } } }) ∧
      moved (.specoff w) (fun u => if ex = [] then u else { u with spec := { u.spec with soff := true } }) ∧
      moved (.specon w) (fun u => if ex = [] then u else { u with spec := { u.spec with soff := false } }) ∧
      (ex ≠ [] → Leads (.exit w) s fun t =>
        (∀ v, t.warp? e.w.id = some v → ∀ l ∈ ex, (v.lane l).exited = true) ∧
        (e.b.batch = none → ∃ l', t.launch? e.l.id = some l' ∧ l'.exits = e.l.exits ++ ex.map fun l => (e.w.lane l).wid) ∧
        ((∃ l ∈ e.w.live, l ∉ ex) → (t.warp? e.w.id).isSome = true) ∧
        (e.w.regs.trap.inHandler = false → e.w.fatal = none → (∀ l ∈ e.w.live, l ∈ ex) → t.warp? e.w.id = none ∧
          (s.blockWarps e.b.id = [e.w] → e.b.pool = [] → (∀ x, e.b.stream = some x → x.exited = true ∧ x.fatal = none ∧ x.wait = .none) →
            (∀ o ∈ s.quads.ops, o.block ≠ e.b.id) → t.block? e.b.id = none))) ∧
      (ex ≠ [] → e.l.hdr.privileged = true → Leads (.halt w) s fun t =>
        (∃ l', t.launch? e.l.id = some l' ∧ l'.halting = true ∧ (e.l.halting = false → l'.stat = 2 ∧ l'.reason = 0)) ∧
        (∀ v ∈ t.warps, ∀ b, t.block? v.block = some b → b.launch = e.l.id → t.warpReady v = false) ∧
        (∀ b ∈ t.blocks, b.launch = e.l.id → t.streamReady b = false) ∧ ∀ x ∈ t.contexts, ∀ b ∈ x.blocks, b.launch ≠ e.l.id) ∧
      (let k := f.mod % 8
       let count := fun l => waitCount e.l e.b k (e.w.lane l).wid
       (∀ l0, (ex.find? fun l => decide ((count l).2 ≤ (e.w.opB f l).toNat)) = some l0 →
          exec (.lwait w) s = .next (s.raise e { cause := 0x0D, reason := 8, lane := l0, info := 0 })) ∧
       ((∀ l ∈ ex, (e.w.opB f l).toNat < (count l).2) →
         let late := ex.filter fun l => decide ((count l).1 < (e.w.opB f l).toNat)
         ∃ u, Moved e.w u s.cur ((s.act e.w).filter fun l => l ∉ late) ∧
           exec (.lwait w) s = .next ((s.putWarp (u.waiting late fun l => .lwait k (e.w.opB f l).toNat)).checkDeadlock e.b.id))))

/-- For every barrier (with no lane in Exec a bar only moves on: log entry 35) of the block and every state of it: init sets the count, arrive adds the
arriving lanes and writes the phase, wait and sync leave lanes waiting; the misuses of R169 raise barrier-misuse with REASON 1 to 5, and REASON 6
where every thread of the block and its stream wait in bar. An arrival that completes the phase flips it, clears the count, and releases exactly the
lanes, and the stream, that wait on that phase. (REASON 7 is reorder's, REASON 8 lwait's: stated there.) (05 R167, 05 R168, 05 R169, 05 R170) -/
def Obligations.Barriers : Prop :=
  (∀ (w : Std) (s : State) (e : Env), s.cur.stream = false → s.env = some e → e.w.settled = true → let f := Fields.ofStd w
    let k := f.a
    let ex := s.exec e.w f.ga f.gb
    let n := ex.length
    let count : Int := if f.bk = 1 then f.imm9 else ((e.w.s f.b).toNat % 2 ^ 32 : Nat)
    let misused := fun i r => exec i s = .next (s.raise e { cause := 0x0D, reason := r, lane := ex.headD 0, info := BitVec.ofNat 64 k })
    ex ≠ [] →
      (e.b.bars.length ≤ k → misused (.barInit w) 1 ∧ misused (.barArrive w) 1 ∧ misused (.barWait w) 1 ∧ misused (.barSync w) 1) ∧
      ∀ b, e.b.bars[k]? = some b →
        (b.ready = true → b.a ≠ 0 → misused (.barInit w) 4) ∧
        (b.ready = false ∨ b.a = 0 → count ≤ 0 ∨ 65535 < count → misused (.barInit w) 5) ∧
        (b.ready = false ∨ b.a = 0 → 0 < count → count ≤ 65535 → ∃ u, Moved e.w u s.cur (s.act e.w) ∧
          exec (.barInit w) s = .next ((s.putWarp u).modBlock e.b.id fun x => { x with bars := e.b.bars.set k ⟨true, count.toNat, 0, b.phase⟩ })) ∧
        (b.ready = false → misused (.barArrive w) 2 ∧ misused (.barWait w) 2 ∧ misused (.barSync w) 2) ∧
        (b.ready = true → b.e < b.a + n → misused (.barArrive w) 3 ∧ misused (.barSync w) 3) ∧
        (b.ready = true → b.a + n ≤ b.e → ∃ u,
          Wrote e.w u s.cur (s.act e.w) e.w.v (fun l p => if l ∈ ex ∧ p = f.d ∧ p < 15 then b.phase else e.w.p l p) e.w.s e.w.bnr ∧
          exec (.barArrive w) s = .next ((s.putWarp u).arrive e.b.id k n)) ∧
        (b.ready = true → b.a ≤ b.e → ∃ u,
          let late := ex.filter fun l => e.w.p l f.d == b.phase
          Moved e.w u s.cur ((s.act e.w).filter fun l => l ∉ late) ∧
          exec (.barWait w) s = .next ((s.putWarp (u.waiting late fun _ => .bar k b.phase)).checkDeadlock e.b.id)) ∧
        (b.ready = true → b.a + n ≤ b.e → ∃ u, Moved e.w u s.cur ((s.act e.w).filter fun l => l ∉ ex) ∧
          exec (.barSync w) s = .next (((s.putWarp (u.waiting ex fun _ => .bar k b.phase)).arrive e.b.id k n).checkDeadlock e.b.id))) ∧
  (∀ (s : State) (blk : Block) (k n : Nat) (b : Bar), s.block? blk.id = some blk → blk.bars[k]? = some b →
    (b.a + n ≠ b.e → s.arrive blk.id k n = s.modBlock blk.id fun x => { x with bars := x.bars.set k { b with a := b.a + n } }) ∧
    (b.a + n = b.e → ∀ v ∈ s.warps, ∃ v' ∈ (s.arrive blk.id k n).warps, v'.id = v.id ∧ ∀ l, l ∈ v.live →
      v'.lane l = if v.block = blk.id ∧ (v.lane l).wait = .bar k b.phase then
        { v.lane l with wait := .none, pc := (v.lane l).pc + 1, got := none, plan := none } else v.lane l) ∧
    (b.a + n = b.e → ∃ blk', (s.arrive blk.id k n).block? blk.id = some blk' ∧ blk'.bars = blk.bars.set k { b with a := 0, phase := !b.phase } ∧
      blk'.stream = blk.stream.map fun x => if x.wait = .bar k b.phase then { x with wait := .none, pc := x.pc + 1 } else x)) ∧
  ∀ (s : State) (blk : Block) (l : Launch), s.block? blk.id = some blk → s.launch? blk.launch = some l →
    let stuck := blk.pool = [] ∧ (∀ v ∈ s.warps, v.block = blk.id → ∀ i ∈ v.live, ∃ k t, (v.lane i).wait = .bar k t) ∧
      (∀ x, blk.stream = some x → x.exited = true ∨ ∃ k t, x.wait = .bar k t) ∧
      ((∃ v ∈ s.warps, v.block = blk.id ∧ v.live ≠ []) ∨ ∃ x k t, blk.stream = some x ∧ x.wait = .bar k t)
    (¬stuck → s.checkDeadlock blk.id = s) ∧
    (stuck → ∀ (v : Warp) (g : Nat) (rest : List Nat) (k : Nat) (t : Bool), (s.warps.filter fun x => x.block == blk.id) = [v] → v.live = g :: rest → (v.lane g).wait = .bar k t →
      s.checkDeadlock blk.id = s.raiseOn v l (v.live.filter fun i => (v.lane i).pc == (v.lane g).pc) (some false)
        { cause := 0x0D, reason := 6, lane := g, info := BitVec.ofNat 64 k } (again := false)) ∧
    (stuck → ∀ (x : Stream) (k : Nat) (t : Bool), (s.warps.filter fun x => x.block == blk.id) = [] → blk.stream = some x → x.wait = .bar k t →
      s.checkDeadlock blk.id = s.putStream blk.id { x with fatal := some ⟨0x0D, 6, 0, false, x.pc.addr, BitVec.ofNat 64 k, 0, false, s.clock, none⟩ })

/-- nop moves the stream on; exit ends it; bar.init, bar.arrive, bar.wait and bar.sync act as one arrival each, with the token the stream holds. (07 R233,
05 R168) -/
def Obligations.StreamControl : Prop :=
  ∀ (w : Std) (s : State) (e : SEnv), s.cur.stream = true → s.senv = some e → let f := Fields.ofStd w
    let k := f.a
    let past : Stream := { e.x with pc := e.x.pc + BitVec.ofNat 61 s.cur.length, backoff := none }
    let count : Int := if f.bk = 1 then f.imm9 else ((e.x.reg f.b).toNat % 2 ^ 32 : Nat)
    exec (.nop w) s = .next (s.putStream e.b.id past) ∧
    exec (.exit w) s = .next (((s.putStream e.b.id { past with exited := true }).checkDeadlock e.b.id).settleBlock e.b.id) ∧
    ∀ b, e.b.bars[k]? = some b →
      (b.ready = false ∨ b.a = 0 → 0 < count → count ≤ 65535 →
        exec (.barInit w) s = .next ((s.putStream e.b.id past).modBlock e.b.id fun x => { x with bars := e.b.bars.set k ⟨true, count.toNat, 0, b.phase⟩ })) ∧
      (b.ready = true → b.a < b.e →
        exec (.barArrive w) s = .next ((s.putStream e.b.id { past with tokens := e.x.tokens.set k b.phase }).arrive e.b.id k 1) ∧
        exec (.barSync w) s = .next (((s.putStream e.b.id { e.x with wait := .bar k b.phase }).arrive e.b.id k 1).checkDeadlock e.b.id)) ∧
      (b.ready = true → b.a ≤ b.e →
        (b.phase ≠ e.x.tokens.getD k false → exec (.barWait w) s = .next (s.putStream e.b.id past)) ∧
        (b.phase = e.x.tokens.getD k false →
          exec (.barWait w) s = .next ((s.putStream e.b.id { e.x with wait := .bar k b.phase }).checkDeadlock e.b.id)))

/-- A core trap that is not fatal, in a non-speculative warp whose long instructions have completed and whose other paths have no part of an access left
to perform, with a handler and not masked (TMASK.M = 0; re-entry with H = 1 included): TRAPCAUSE, TRAPPC, TRAPINFO and TRAPAUX take the trap, BEYOND
and FATAL are 0, TMASK is M = H = 1, the threads of the path begin at TBA, every other live thread is held at its own program counter, nothing else
changes. With TBA = 0, or masked, or of a fatal cause, the warp's fatal trap is pending and holds a permit, and nothing else of it has changed; with
no permit free the path backs off instead. (12 R380, 12 R381, 05 R182, 01 R25, 01 R26, 01 R27) -/
def Obligations.TrapEntry : Prop :=
  (∀ (s : State) (e : Env) (t : Trap), s.warp? e.w.id = some e.w → e.w.settled = true → e.w.longs = [] → e.w.regs.trap.masked = false →
    e.w.regs.trap.tba ≠ 0 → e.w.owing (s.act e.w) = false → t.fatal = false → t.served = none → t.cause < 256 → t.reason < 256 → t.lane < 64 →
    let pc := (e.w.lane ((s.act e.w).headD 0)).pc
    ∃ w', s.raise e t = (s.putWarp w').traceWarp e.w.id none 8 t.cause (addr54 t.info) pc ∧
      w'.regs.trap.pc = pc.addr ∧ w'.regs.trap.info = t.info ∧ w'.regs.trap.aux = t.aux.getD 0 ∧ w'.regs.trap.tba = e.w.regs.trap.tba ∧
      w'.regs.trap.mask = 3 ∧
      w'.regs.trap.cause.toNat = t.cause + t.reason * 2 ^ 8 + t.lane * 2 ^ 16 + t.aux.isSome.toNat * 2 ^ 22 ∧
      w'.regs.s = e.w.regs.s ∧ w'.regs.bn = e.w.regs.bn ∧ w'.regs.fmtword = e.w.regs.fmtword ∧ w'.width = e.w.width ∧
      (∀ l ∈ s.act e.w, w'.lane l = { e.w.lane l with pc := Pc.ofAddr e.w.regs.trap.tba, handler := true, wait := .none, got := none, plan := none }) ∧
      (∀ l ∈ e.w.live, l ∉ s.act e.w → w'.lane l = { e.w.lane l with held := true, handler := false }) ∧
      (∀ l, l ∉ e.w.live → w'.lane l = e.w.lane l) ∧
      w' = { e.w with regs := w'.regs, decodedExt := w'.decodedExt, backoff := w'.backoff }) ∧
  ∀ (s : State) (e : Env) (t : Trap), e.w.settled = true → e.w.longs = [] → e.w.owing (s.act e.w) = false → t.served = none →
    t.fatal = true ∨ e.w.regs.trap.mask.getLsbD 0 = true ∨ e.w.regs.trap.tba = 0 →
    (e.w.permit = true ∨ s.permitFree e.w.core = true →
      ∃ w' x, s.raise e t = s.putWarp w' ∧ w' = { e.w with permit := true, backoff := w'.backoff, fatal := some x } ∧ x.cause = t.cause ∧
        x.reason = t.reason ∧ x.lane = t.lane ∧ x.beyond = t.beyond ∧ x.pc = (e.w.lane ((s.act e.w).headD 0)).pc.addr ∧ x.info = t.info ∧ x.clock = s.clock) ∧
    (e.w.permit = false → s.permitFree e.w.core = false → ∃ w', s.raise e t = s.putWarp w' ∧ w' = { e.w with regs := w'.regs, backoff := w'.backoff } ∧
      w'.regs = { e.w.regs with lanes := w'.regs.lanes } ∧
      ∀ l < e.w.width, w'.lane l = if l ∈ s.act e.w then { (e.w.lane l).again with wait := .service none } else e.w.lane l)

/-- trap with some lane with Exec raises the cause 0x01 to 0x12 it names, fatal for 0x05, 0x0F and 0x10, and for any other number illegal-instruction 0x01
with REASON 0x05; its A in U gives all 64 bits as TRAPINFO (log entry 22); with none it moves on. Both act once the warp is non-speculative. rti
outside a handler raises privilege REASON 1; in a handler it lowers the careful count, its lanes wait to leave it and the handler is left if all have.
(05 R183, 05 R184, 12 R377, 09 R313) -/
def Obligations.TrapAndReturnInstructions : Prop :=
  ∀ (w : Std) (s : State) (e : Env), s.env = some e → e.w.settled = true → let f := Fields.ofStd w
    let ex := s.exec e.w f.ga f.gb
    (∀ l ls, ex = l :: ls →
      (1 ≤ f.imm9 → f.imm9 ≤ 0x12 → exec (.trap w) s =
        .next (s.raise e { cause := f.imm9.toNat, reason := 0, lane := l, info := (if f.mod % 2 = 1 then (if f.ak = 1 then e.w.s f.a else (e.w.v l f.a).setWidth 64) else 0), fatal := f.imm9 == 0x05 || f.imm9 == 0x0F || f.imm9 == 0x10 })) ∧
      (f.imm9 < 1 ∨ 0x12 < f.imm9 → ∃ info, exec (.trap w) s = .next (s.raise e { cause := 0x01, reason := 0x05, lane := l, info := info }))) ∧
    (ex = [] → ∃ u, Moved e.w u s.cur (s.act e.w) ∧ exec (.trap w) s = .next (s.putWarp u)) ∧
    (e.w.regs.trap.mask.getLsbD 1 = false → exec (.rti w) s = .next (s.raise e { cause := 0x07, reason := 0x01, lane := (s.act e.w).headD 0, info := 0 })) ∧
    (e.w.regs.trap.mask.getLsbD 1 = true → exec (.rti w) s = .next ((s.waitLanes { e.w with spec := { e.w.spec with crfl := e.w.spec.crfl - s.cur.count } } (s.act e.w) (.rti (f.mod % 2 = 1))).tryLeave e.w.id))

/-- When every handler thread waits to return and no fault of the warp is with the service: TMASK becomes 0, the permit goes back unless a thread waits
for a served fault of its own (log entry 36), each handler thread resumes at TRAPPC, or with .next after the instruction decoded there, every held
thread becomes ready at its own program counter, one that stood at an outer rti too, and no other register changes. (05 R184, 12 R382) -/
def Obligations.HandlerReturn : Prop :=
  ∀ (s : State) (w : Warp) (b : Block) (l : Launch), s.warp? w.id = some w → s.block? w.block = some b → s.launch? b.launch = some l →
    w.regs.trap.mask.getLsbD 1 = true → w.service = none → w.handlerLanes ≠ [] →
    (∀ i ∈ w.handlerLanes, (w.lane i).wait = .rti false ∨ (w.lane i).wait = .rti true) →
    ((∃ i ∈ w.handlerLanes, (w.lane i).wait = .rti true) → w.decodedExt ≠ none) →
    ∃ w', s.tryLeave w.id = (s.putWarp w').traceWarp w.id none 9 0 ((w'.lane (w.handlerLanes.headD 0)).pc.setWidth 54) (w.lane (w.handlerLanes.headD 0)).pc ∧
      w'.regs.trap = { w.regs.trap with mask := 0 } ∧ w'.permit = w.waitsServed ∧
      (∀ i ∈ w.handlerLanes, w'.lane i = { w.lane i with handler := false, held := false, wait := .none, pc := Pc.ofAddr w.regs.trap.pc + (if (w.lane i).wait = .rti true then (if w.decodedExt = some true then 2 else 1) else 0) }) ∧
      (∀ i ∈ w.live, i ∉ w.handlerLanes → w'.lane i = { w.lane i with held := false, wait := match (w.lane i).wait with | .rti _ => .none | y => y }) ∧
      w'.regs.s = w.regs.s ∧ w'.regs.bn = w.regs.bn ∧ w' = { w with regs := w'.regs, decodedExt := none, permit := w'.permit }

/-- In a user launch tlbinv, halt and the privileged forms of cachectl raise privilege REASON 2. cachectl completes and changes no value of memory: after
op 0 the block fetches no word that an earlier store has replaced, op 3 removes the lines of its range from every cache. tlbinv, once what it names
has drained (log entry 56), completes in both formats and leaves no translation it names. (05 R186, 05 R187, 05 R188, 12 R396) -/
def Obligations.SystemInstructions : Prop :=
  (∀ (w : Std) (s : State) (e : Env), s.env = some e → e.w.settled = true → let f := Fields.ofStd w
    let ex := s.exec e.w f.ga f.gb
    let user := fun i => exec i s = .next (s.raise e { cause := 0x07, reason := 0x02, lane := ex.headD 0, info := 0 })
    (ex ≠ [] → e.l.hdr.privileged = false →
      user (.tlbinv w) ∧ user (.halt w) ∧ (3 ≤ f.mod → user (.cachectl w))) ∧
    (ex ≠ [] → e.w.longRoom [] [] → f.mod < 3 ∨ e.l.hdr.privileged = true →
      (f.mod = 0 ∨ f.mod = 4 ∨ s.rangeAsks e.l (e.w.s f.a) (f.uniB e.w.s).toNat = none) → ∃ t u, LongEnd s s e f [] [] t ∧ exec (.cachectl w) s = .next u ∧
      u.mem = t.mem ∧ u.warps = t.warps ∧ u.launches = t.launches ∧ (∀ b ∈ u.blocks, ∃ b' ∈ t.blocks, b = { b' with codeFrom := b.codeFrom }) ∧
      (f.mod = 0 → ∀ b, u.block? e.b.id = some b → u.oldCode.drop b.codeFrom = []) ∧
      (f.mod = 3 → ∀ x ∈ s.rangeLines e.l (e.w.s f.a) (f.uniB e.w.s).toNat, (∀ c, u.cache.l1At c x = none) ∧ x ∉ u.cache.l2))) ∧
  (∀ (i : Instr) (f : Fields), (∃ w, i = .tlbinv w ∧ f = .ofStd w) ∨ (∃ w, i = .tlbinvExt w ∧ f = .ofExt w) →
    ∀ (s : State) (e : Env), s.env = some e → e.w.settled = true → s.exec e.w f.ga f.gb ≠ [] → e.l.hdr.privileged = true →
      (f.mod / 4 % 4 = 0 → canonical (e.w.s f.a) = true) → e.w.longRoom [] [] → s.drained (tlbNamed f e.w.s) = true →
      ∃ t, LongEnd s s e f [] [] t ∧ exec i s = .next (t.invalidate (tlbNamed f e.w.s)) ∧
        ∀ x ∈ (t.invalidate (tlbNamed f e.w.s)).tlb, (tlbNamed f e.w.s).has x.pasid x.vpage = false)

/-- With every lane's access checked and nothing older unfinished, ld, ldbx, fequery and bnload complete, in each format: the lanes with Exec obtain the
bytes at their addresses in lane order, in one move those of as many lanes as a free number allows (the model's choice, log entry 58), and with the
last the registers take them, at once or through a window; no block, no other warp and no byte of memory changes but the A and D bits of the leaves
used. A prefetch completes and leaves warps, launches and blocks as they are. ld with a uniform base may use a translation that the uniform-constant
cache holds (R333); the load that a warp's rollback count names sets it to 0 (R311). That a load with nothing older performs at issue is the model's
choice (log entry 7). (06 R196, 06 R197, 06 R198, 06 R203, 06 R204, 06 R205, 04 R145, 09 R298, 09 R311, 10 R333) -/
def Obligations.LoadsComplete : Prop :=
  (∀ (i : Instr) (f : Fields), (∃ w, i = .ld w ∧ f = .ofStd w) ∨ (∃ w, i = .ldExt w ∧ f = .ofExt w) →
    let n := typeBytes (f.mod % 32)
    Loads i f (fun _ => ⟨n, n, 1, .plain, false⟩) .data (f.ak == 1 && f.bk != 0) (opDests 0x0E0 f) id (fun u l => u.address f l) 1 5 fun l bs =>
      (loadWords (f.mod % 32 == 0x05 || f.mod % 32 == 0x06) bs).zipIdx.map fun (x, k) => .v l (f.d + k) x) ∧
  (∀ (w : Ext), let f := Fields.ofExt w
    Loads (.ldbx w) f (fun _ => ⟨bxBytes (f.mod % 32), 4, 2, .plain, true⟩) .data (f.ak == 1 && f.bk != 0) (opDests 0x0E6 f) id
      (fun u l => u.address f l) 1 5 fun l bs =>
      (((loadWords false bs ++ [0, 0, 0]).take (blockCls (f.mod % 32)).1)).zipIdx.map fun (x, k) => .v l (f.d + k) x) ∧
  (∀ (w : Std), let f := Fields.ofStd w
    Loads (.fequery w) f (fun _ => ⟨1024, 1024, 3, .fullEmpty, false⟩) .bits false (opDests 0x0E5 f) id (fun u l => u.address f l) 1 5 fun l bs =>
      [.v l f.d (BitVec.ofNat 32 (leNat bs)), .v l (f.d + 1) (BitVec.ofNat 32 (leNat bs / 2 ^ 32))]) ∧
  (∀ (i : Instr) (f : Fields), (∃ w, i = .bnload w ∧ f = .ofStd w) ∨ (∃ w, i = .bnloadExt w ∧ f = .ofExt w) →
    Loads i f (fun u => ⟨if u.width = 64 then 44 else if u.width = 32 then 18 else 7, 8, 3, .plain, true⟩) .data false (opDests 0x0A0 f)
      (fun ex => ex.take 1) (fun u _ => u.s f.a + if f.ext then f.imm.signExtend 64 else f.uniB u.s) 1 5
      fun _ bs => [.bn f.d (BitVec.ofNat 352 (leNat bs))]) ∧
  (∀ (s : State) (gs : List Seg) (core hint : Nat) (ucc : Option (BitVec 20 × BitVec 16)), s.sameBytes (s.cacheLoad core hint gs ucc) ∧
    ∀ a, (∀ g ∈ gs, ∀ m, g.mark = some m → m.1 ≠ a) → (s.useSegs gs).mem.get a = s.mem.get a) ∧
  ∀ (i : Instr) (f : Fields), (∃ w, i = .pfetch w ∧ f = .ofStd w) ∨ (∃ w, i = .pfetchExt w ∧ f = .ofExt w) →
    ∀ (s : State) (e : Env), s.env = some e → e.w.longRoom [] [] →
      ∃ S t, LongEnd S s e f [] [] t ∧ exec i s = .next t ∧ S.warps = s.warps ∧ S.launches = s.launches ∧ S.blocks = s.blocks ∧
        S.cur = s.cur ∧ S.quads = s.quads

/-- With every lane's access checked and room in the window, st, stbx, stfe and red, in each format, complete: the stores of all lanes enter the window as
one access with the bytes of the lanes' registers and the places their addresses name; the model performs the stores of one access lane by lane later
(log entry 58); no byte of memory changes but the A and D bits of the leaves used, and no register changes. (06 R197, 06 R198, 06 R201, 06 R203, 06
R206, 09 R300, 09 R302) -/
def Obligations.StoresIssue : Prop :=
  (∀ (i : Instr) (f : Fields), (∃ w, i = .st w ∧ f = .ofStd w) ∨ (∃ w, i = .stExt w ∧ f = .ofExt w) →
    let n := typeBytes (f.mod % 32)
    Stores i f (fun _ => ⟨n, n, 1, .plain, false⟩) (fun u => { addr := u.address f }) fun u a => splitEffs a.lane (u.regBytes a.lane f.d a.n) 0 a.segs) ∧
  (∀ (w : Ext), let f := Fields.ofExt w
    Stores (.stbx w) f (fun _ => ⟨bxBytes (f.mod % 32), 4, 2, .plain, true⟩) (fun u => { addr := u.address f })
      fun u a => splitEffs a.lane (u.regBytes a.lane f.d a.n) 0 a.segs) ∧
  (∀ (i : Instr) (f : Fields), (∃ w, i = .stfe w ∧ f = .ofStd w) ∨ (∃ w, i = .stfeExt w ∧ f = .ofExt w) →
    let n := 2 ^ (f.mod % 8)
    Stores i f (fun _ => ⟨n, n, 1, .fullEmpty, false⟩) (fun u => { addr := u.address f }) fun u a => a.segs.map fun g => .fill a.lane g.loc (u.regBytes a.lane f.d a.n)) ∧
  ∀ (i : Instr) (f : Fields), (∃ w, i = .red w ∧ f = .ofStd w) ∨ (∃ w, i = .redExt w ∧ f = .ofExt w) →
    let wide := f.mod / 16 % 2 = 1
    let n := if wide then 8 else 4
    Stores i f (fun _ => ⟨n, n, 1, .atomic, false⟩) (fun u => ⟨fun l => u.opA64 f l + if f.ext then f.imm.signExtend 64 else 0,
      fun l => if wide then u.opB64 f l else (u.opB f l).setWidth 64, fun _ => 0, fun _ => none⟩)
      fun _ a => a.segs.map fun g => .red a.lane g.loc (g.buf.map fun d => (d, g.va)) (f.mod % 16) wide a.b

/-- When the oldest access of a warp's window is a store, storePerform performs the effects of its first lane, where the host holds none of their lines;
those of the other lanes stay, and other events may come before them (log entry 58); with the last lane it leaves the window; no other warp's window
or uniform registers change. Bytes stored to physical memory are written at their place and every other byte reads as before (memory in canonical
form); bytes stored to a scratchpad page that holds a frame change no place outside scratchpads. (09 R300, 09 R302, 06 R198) -/
def Obligations.StoresPerform : Prop :=
  ∀ (s : State) (w : Warp) (q hint : Nat) (es : List StoreEff) (rest : List Access), s.warp? w.id = some w → s.arg = .id w.id →
    w.spec.window = .store q hint es :: rest → s.rollBlocked w.id = false →
    let now := (firstLane es).1
    let later := (firstLane es).2
    (∀ x ∈ now, s.effHostLine x = none) → (∀ x ∈ now, ∀ p, x.span = some p → s.underTest p.1 p.2 = false) →
    let t := now.foldl (fun t x => t.performEff w.core hint (some w.id) x) s
    (now ++ later = es ∧ (es ≠ [] → now ≠ []) ∧ (∀ x ∈ now, ∀ y ∈ now, x.lane = y.lane) ∧ ∀ x, now.head? = some x → ∀ y, later.head? = some y → x.lane ≠ y.lane) ∧
    (later = [] → exec .storePerform s = .next ((t.modWarp w.id fun v => v.performed.closeCkpt).flushTrace w.id)) ∧
    (later ≠ [] → exec .storePerform s = .next ((t.modWarp w.id fun v => v.storeRest later).flushTrace w.id)) ∧
    w.performed.spec.window = rest ∧ (w.storeRest later).spec.window = .store q hint later :: rest ∧
    t.warps.map (fun v => (v.id, v.regs.s, v.spec.window)) = s.warps.map (fun v => (v.id, v.regs.s, v.spec.window)) ∧
    ∀ (u : State) (lane pa : Nat) (buf : Option (Nat × W64)) (xs : List Byte),
      (u.mem.wf = true → ∀ a, (u.performEff w.core hint (some w.id) (.bytes lane (.pa pa) buf xs)).mem.get a =
        if pa ≤ a ∧ a < pa + xs.length then xs.getD (a - pa) 0 else u.mem.get a) ∧
      ∀ b o l n, (∀ m k, l ≠ .sp m k) → (∀ blk, u.anyBlock? b = some blk → ∀ k < xs.length, blk.areaAt (o + k) = none) →
        (u.performEff w.core hint (some w.id) (.bytes lane (.sp b o) buf xs)).readLoc l n = u.readLoc l n

/-- loadPerform takes the oldest load from the window, with the checkpoint closed when no access before the newest open load is left (that load has
performed then), and sets the rollback count to 0 if it names this load. rollback restores the registers of the checkpoint (skip counts, queries and
waits that another agent ended are kept), keeps the accesses older than it and the staged records and commands of before it, and changes no other
warp's registers or window, no launch and no block. (09 R304, 09 R305, 09 R307, 09 R308, 09 R311, 03 R90) -/
def Obligations.LoadsPerformAndRollBack : Prop :=
  (∀ (s : State) (w : Warp) (q : Nat) (pc : W64) (ls : List Loc) (rest : List Access), s.warp? w.id = some w → s.arg = .id w.id →
    w.spec.window = .load q pc ls :: rest → s.rollBlocked w.id = false →
    ∃ w', exec .loadPerform s = .next ((s.putWarp w').flushTrace w.id) ∧ w'.regs = w.regs ∧ w'.spec.rbAddr = w.spec.rbAddr ∧
      ((∀ a ∈ rest.tail, a.loadLines = []) → w'.spec.ckpt = none ∧ w'.spec.readSet = [] ∧
        w'.spec.window = (match rest with | .load _ _ _ :: xs => xs | _ => rest) ∧
        w'.spec.rbCount = (if w.spec.rbAddr = pc ∨ (match rest with | .load _ at' _ :: _ => decide (w.spec.rbAddr = at') | _ => false) = true then 0 else w.spec.rbCount)) ∧
      ((∃ a ∈ rest.tail, a.loadLines ≠ []) → w'.spec.ckpt = w.spec.ckpt ∧ w'.spec.readSet = readLines rest ∧ w'.spec.window = rest ∧
        w'.spec.rbCount = (if w.spec.rbAddr = pc then 0 else w.spec.rbCount))) ∧
  ∀ (s : State) (w : Warp) (c : Ckpt) (code : Nat) (pc : W64) (line : Loc), s.warp? w.id = some w → (s.warps.map (·.id)).Nodup →
    s.arg = .two w.id code → w.openLoad code = some (pc, line) → w.spec.ckpt = some c →
    ∃ t v, exec .rollback s = .next t ∧ t.warp? w.id = some v ∧ v.regs = { c.regs with lanes := v.regs.lanes } ∧
      (∀ l x y, w.regs.lanes[l]? = some x → c.regs.lanes[l]? = some y → v.lane l =
        { y with skip := x.skip, query := x.query, wait := if y.wait = .stall ∨ y.wait = .limit ∨ y.wait = .check ∨ y.wait = .long then .none else y.wait }) ∧
      v.spec.ckpt = none ∧ v.spec.readSet = [] ∧ v.yielded = c.yielded ∧
      v.spec.window = w.spec.window.filter (fun a => match a with | .load k _ _ => decide (k < c.seq) | .store k _ _ => decide (k < c.seq)) ∧
      v.spec.emits = w.spec.emits.take c.emits ∧ v.spec.cmds = w.spec.cmds.take c.cmds ∧
      (∀ u ∈ s.warps, u.id ≠ w.id → ∃ u' ∈ t.warps, u'.id = u.id ∧ u'.regs = u.regs ∧ u'.spec.window = u.spec.window) ∧
      t.launches = s.launches ∧ t.blocks = s.blocks

/-- With every lane's access checked and nothing unfinished, atom, in both formats, performs the lanes' atomics in increasing lane order; a move makes
those of as many lanes as a free number allows (the model's choice, log entry 58), and the path keeps their old values and goes on with the others;
with the last of them each old value is written to D. One atomic on physical memory answers the bytes as they were, writes the new value of its
operation at its place, and leaves every other byte (memory in canonical form); a cas that fails writes nothing. On 32 bits the operations 0 to 10, 14
and 15 give the new values of the table of R207. (06 R206, 06 R207, 06 R208, 05 R159, 09 R315) -/
def Obligations.AtomicsComplete : Prop :=
  (∀ (i : Instr) (f : Fields), (∃ w, i = .atom w ∧ f = .ofStd w) ∨ (∃ w, i = .atomExt w ∧ f = .ofExt w) →
    ∀ (s : State) (e : Env) (as : List LaneAcc), s.env = some e →
      let ex := s.exec e.w f.ga f.gb
      let wide := f.mod / 16 % 2 = 1
      let addr := fun l => e.w.opA64 f l + if f.ext then f.imm.signExtend 64 else 0
      let args : LaneArgs := { addr := addr, b := fun l => if wide then e.w.opB64 f l else (e.w.opB f l).setWidth 64
                               c := fun l => if wide then e.w.opC64 f l else (e.w.opC f l).setWidth 64 }
      let n := if wide then 8 else 4
      Reached s e .atomic ⟨n, n, 1, .atomic, false⟩ args (ex.filter fun l => (e.w.lane l).got.isNone) as → e.w.spec.window = [] → e.w.remoteOpen = 0 →
      let used := s.useSegs (allSegs as)
      (∀ g ∈ allSegs as, used.hostLine g.loc g.n = none) →
      let batch := as.take (s.cur.quota + 1)
      let r := used.atomLanes e f batch
      (batch.length < as.length → ∃ v, exec i s = .next (r.1.putWarp v) ∧ PartDone e.w v (s.act e.w) r.2) ∧
      (batch.length = as.length →
        let ws := ex.flatMap fun l => vWrites l f.d (loadWords false (obtained e.w r.2 l))
        e.w.longRoom (opDests 0x0E9 f) ws →
        ∃ t, LongEnd r.1 s e f (opDests 0x0E9 f) ws t ∧ exec i s = .next (t.tracedAt e ex 2 7 id fun l => addr54 (e.w.plannedVa l (addr l))))) ∧
  (∀ (s : State) (e : Env) (f : Fields) (a : LaneAcc) (as : List LaneAcc),
    let r := s.atomLane e.w.core e.w.id (f.mod % 16) f.hint a a.b a.c
    let rs := r.1.atomLanes e f as
    s.atomLanes e f (a :: as) = (rs.1, (a.lane, r.2) :: rs.2)) ∧
  (∀ (s : State) (core id op hint lane n : Nat) (va x c : W64) (g : Seg) (a : Nat), s.mem.wf = true → g.loc = .pa a → g.regs = false →
    let r := s.atomLane core id op hint ⟨lane, va, n, x, c, [g]⟩ x c
    let old := s.readLoc g.loc g.n
    r.2 = old ∧
    (∀ y, atomicBytes op old x c = some y → y.length = g.n → ∀ k, r.1.mem.get k = if a ≤ k ∧ k < a + g.n then y.getD (k - a) 0 else s.mem.get k) ∧
    (atomicBytes op old x c = none → r.1 = s)) ∧
  ∀ (old x c : W32), let of := fun op => atomicBytes op (leBytes 4 old.toNat) (x.setWidth 64) (c.setWidth 64)
    let val := fun r : W32 => some (leBytes 4 r.toNat)
    of 0 = val (old + x) ∧ of 1 = val (old - x) ∧ of 2 = val (BitVec.ofInt 32 (min old.toInt x.toInt)) ∧ of 3 = val (BitVec.ofInt 32 (max old.toInt x.toInt)) ∧
    of 4 = val (BitVec.ofNat 32 (min old.toNat x.toNat)) ∧ of 5 = val (BitVec.ofNat 32 (max old.toNat x.toNat)) ∧
    of 6 = val (old &&& x) ∧ of 7 = val (old ||| x) ∧ of 8 = val (old ^^^ x) ∧ of 9 = val x ∧
    of 10 = (if old = c then val x else none) ∧ of 14 = val (if old.toNat < x.toNat then old + 1 else old) ∧
    of 15 = val (if x.toNat < old.toNat then old - 1 else old)

/-- ldfe, in both formats, takes its granules in lane order; a move takes those of as many lanes as a free number allows (the model's choice, log entry
58). When every lane has found its granule full it completes with the granules' data; at an empty granule the path waits, keeping what it has taken;
without .clr it changes no bit. fereset enters a store of its granules' bits. Setting granules sets exactly the bits of the range and no byte. (06
R199, 06 R200, 06 R201, 06 R202, 09 R319) -/
def Obligations.FullEmpty : Prop :=
  (∀ (i : Instr) (f : Fields), (∃ w, i = .ldfe w ∧ f = .ofStd w) ∨ (∃ w, i = .ldfeExt w ∧ f = .ofExt w) →
    ∀ (s : State) (e : Env) (as : List LaneAcc) (use : Use), s.env = some e → use = (if f.mod / 8 % 2 = 1 then .atomic else .read) →
      let ex := s.exec e.w f.ga f.gb
      let n := 2 ^ (f.mod % 8)
      Reached s e use ⟨n, n, 1, .fullEmpty, false⟩ { addr := e.w.address f } (ex.filter fun l => (e.w.lane l).got.isNone) as →
      e.w.spec.window = [] → e.w.remoteOpen = 0 →
      let used := s.useSegs (allSegs as)
      let batch := as.take (s.cur.quota + 1)
      let r := used.takeFull (f.mod / 8 % 2 = 1) e.w.id batch
      let ws := ex.flatMap fun l => vWrites l f.d (loadWords false (obtained e.w r.2.1 l))
      (r.2.2 = true → batch.length < as.length → ∃ v, exec i s = .next (r.1.putWarp v) ∧ PartDone e.w v (s.act e.w) r.2.1) ∧
      (r.2.2 = true → batch.length = as.length → e.w.longRoom (opDests 0x0E2 f) ws →
        ∃ t, LongEnd r.1 s { e with w := e.w.loadDone (e.w.lane (ex.headD 0)).pc.addr } f (opDests 0x0E2 f) ws t ∧
          exec i s = .next (t.tracedAt e ex (if f.mod / 8 % 2 = 1 then 2 else 1) (if f.mod / 8 % 2 = 1 then 7 else 5) id fun l => addr54 (e.w.plannedVa l (e.w.address f l)))) ∧
      (r.2.2 = false → ∃ v, PartDone e.w v (s.act e.w) r.2.1 ∧
        exec i s = .next ((r.1.putWarp v).modWarp e.w.id fun u => u.modLanes (s.act e.w) fun t => { t with wait := .fullEmpty })) ∧
      (f.mod / 8 % 2 = 0 → r.1 = used ∧ (r.2.2 = true ↔ ∀ a ∈ batch, ∀ g, a.segs.head? = some g → used.fullAt g.loc = true))) ∧
  (∀ (w : Std) (s : State) (e : Env) (k o : Nat), s.env = some e → let f := Fields.ofStd w
    let ex := s.exec e.w f.ga f.gb
    let b := (f.uniB e.w.s).toNat
    ex ≠ [] → s.feRange e.who (e.w.s f.a) b = .ok (.sp k o) → b ≠ 0 → s.unpinned (.sp k o) b = none → s.errorAt (.sp k o) b = none →
    e.w.remoteOpen = 0 → s.outstanding e.w < 32 → (e.w.careful = true → e.w.spec.window = []) → e.w.longRoom [] [] →
    ∃ t, LongEnd (s.touchPages (.sp k o) b) s { e with w := e.w.enqueue fun q => .store q 0 [.granules k (o / 16) (b / 16) (f.mod % 2 = 1)] } f [] [] t ∧
      exec (.fereset w) s = .next (t.tracedAt e ex 2 6 id fun _ => addr54 (e.w.s f.a))) ∧
  ∀ (s : State) (blk : Block) (first count g : Nat) (full : Bool), s.mem.wf = true → s.anyBlock? blk.id = some blk →
    let t := s.setGranules blk.id first count full
    ∃ b', t.anyBlock? blk.id = some b' ∧ t.granuleFull b' g = (if first ≤ g ∧ g < first + count then full else s.granuleFull blk g) ∧
      b'.scratch = blk.scratch

/-- With every check of R212 passed, the warp non-speculative and the channel below 64, each command instruction completes: its channel counts one more,
and a command with the operands' values enters the engines' list, sent now; a scatter whose index list cannot be read yet is staged until it can. In
the destination mode that empties granules they are emptied at issue. (06 R209, 06 R210, 06 R212, 06 R215, 06 R222, 06 R231, 08 R286) -/
def Obligations.EngineCommandsIssue : Prop :=
  ∀ (i : Instr) (f : Fields) (op : EngOp), (∃ w, f = .ofExt w ∧
      ((i = .copy w ∧ op = .copy) ∨ (i = .fill w ∧ op = .fill) ∨ (i = .gather w ∧ op = .gather) ∨ (i = .scatter w ∧ op = .scatter) ∨
        (i = .mckpt w ∧ op = .mckpt) ∨ (i = .ccomp w ∧ op = .ccomp) ∨ (i = .callred w ∧ op = .callred))) ∨ (∃ w, f = .ofStd w ∧ i = .pub w ∧ op = .pub) →
    ∀ (s : State) (e : Env), s.env = some e →
      let u := e.w.s
      let rec16 : List W64 := if op = .pub then (if f.bk = 2 then [u f.b] else []) else if f.mod / 8 % 2 = 1 then [u f.e] else []
      let bases : List W64 := (match op with | .gather | .scatter => [u f.b, u f.c] | .copy => [u f.b] | _ => []) ++ rec16
      let size : Nat := match op with | .gather => elemCount f.imm * elemBytes f.imm | .scatter => 16 | _ => (u f.c).toNat
      let writes := op = .copy ∨ op = .fill ∨ op = .gather ∨ op = .scatter
      let sized := op = .copy ∨ op = .fill ∨ op = .mckpt
      let dm := if op = .pub then 0 else f.mod / 16 % 4
      let ch := f.mod % 8
      s.exec e.w f.ga f.gb ≠ [] → (op = .mckpt → e.l.hdr.privileged = true) →
      canonical (u f.a) = true → (∀ x ∈ bases, canonical x = true) →
      (u f.a).toNat % (if op = .pub ∨ op = .ccomp ∨ op = .callred then 64 else 16) = 0 → (∀ x ∈ bases, x.toNat % 16 = 0) →
      (sized → (u f.c).toNat % 16 = 0 ∧ (u f.c).toNat < 2 ^ 40) →
      (writes ∨ op = .mckpt → s.destBad e.who (u f.a) size dm = none) → (op = .mckpt → dm ≠ 2) →
      e.w.settled = true → (e.w.chans.getD ch ⟨0, false⟩).count < 64 → e.w.longRoom [] [] →
      ∃ (c : EngCmd) (t : State),
        c.op = op ∧ c.warp = e.w.id ∧ c.launch = e.l.id ∧ c.block = e.b.id ∧ c.id = s.ctr.cmd ∧ c.ch = ch ∧ c.dm = dm ∧ c.phase = 0 ∧ c.a = u f.a ∧
        (op = .copy ∨ op = .gather ∨ op = .scatter ∨ op = .fill → c.b = u f.b ∧ c.c = u f.c) ∧ c.recAddr = rec16.head? ∧ c.imm = f.imm ∧
        LongEnd { s with ctr := { s.ctr with cmd := s.ctr.cmd + 1 } } s
          { e with w := { e.w with chans := modifyNth e.w.chans ch fun x => { x with count := x.count + 1 } } } f [] [] t ∧
        (op ≠ .scatter → t.sendWait (.engine c) = none) ∧
        (t.sendWait (.engine c) = none → exec i s = .next (t.sendCmd (.engine c)) ∧
          (∃ es, { c with sentAt := s.clock, list := es } ∈ (t.sendCmd (.engine c)).engines ∧ (op ≠ .scatter → es = none)) ∧
          (dm ≠ 2 → op ≠ .scatter → t.sendCmd (.engine c) = { t with engines := t.engines ++ [{ c with sentAt := s.clock }] })) ∧
        (t.sendWait (.engine c) ≠ none → exec i s = .next (t.modWarp e.w.id fun w =>
          { w with spec := { w.spec with cmds := w.spec.cmds ++ [.engine c], order := w.spec.order ++ [false] } }))

/-- mckpt in a user launch raises privilege REASON 2; a copy, fill, gather or scatter whose destination is not canonical raises page-fault REASON 1; a
fill whose destination or size is no multiple of 16 raises misaligned REASON 3, and one of 2^40 bytes or more REASON 4. That TRAPINFO of a bad length
is the length is the model's choice (log entry 27; destinations that run into the window, log entry 41). (06 R212, 06 R231, 05 R186) -/
def Obligations.EngineCommandChecks : Prop :=
  ∀ (w : Ext) (s : State) (e : Env), s.env = some e → let f := Fields.ofExt w
    let u := e.w.s
    let l := (s.exec e.w f.ga f.gb).headD 0
    let page := fun i v => exec i s = .next (s.raise e { cause := 4, reason := 1, lane := l, info := v })
    let odd := fun i r v => exec i s = .next (s.raise e { cause := 6, reason := r, lane := l, info := v })
    s.exec e.w f.ga f.gb ≠ [] →
      (e.l.hdr.privileged = false → exec (.mckpt w) s = .next (s.raise e { cause := 7, reason := 2, lane := l, info := 0 })) ∧
      (canonical (u f.a) = false → page (.copy w) (u f.a) ∧ page (.fill w) (u f.a) ∧ page (.gather w) (u f.a) ∧ page (.scatter w) (u f.a)) ∧
      (canonical (u f.a) = true → f.mod / 8 % 2 = 0 →
        ((u f.a).toNat % 16 ≠ 0 → odd (.fill w) 3 (u f.a)) ∧
        ((u f.a).toNat % 16 = 0 → (u f.c).toNat % 16 ≠ 0 → odd (.fill w) 3 (u f.c)) ∧
        ((u f.a).toNat % 16 = 0 → (u f.c).toNat % 16 = 0 → 2 ^ 40 ≤ (u f.c).toNat → odd (.fill w) 4 (u f.c)))

/-- cpoll writes the channel's count and sticky error and changes neither; cwait completes when the count has come down, with the predicate and the error
cleared, and stalls before; fabfence, when every command of the warp has ended and every target has answered the count of what was sent, writes the
interval and begins the next, and where a target counted otherwise raises count-mismatch with the interval open all the same; ctab loads the table of
its port and slot when the slot is free and answers 1 and the new generation, or 7 after 65,536 clk of a busy slot, before which it stalls (the table
is read in one step, log entry 39). (06 R225, 06 R226, 06 R228, 06 R229, 06 R230) -/
def Obligations.ChannelsAndFences : Prop :=
  (∀ (w : Std) (s : State) (e : Env), s.env = some e → let f := Fields.ofStd w
    let ex := s.exec e.w f.ga f.gb
    let c := e.w.chans.getD (f.mod % 8) ⟨0, false⟩
    (e.w.longRoom (opDests 0x126 f) (ex.map fun l => RegWrite.v l f.d (BitVec.ofNat 32 (c.count + c.sticky.toNat * 256))) →
      ∃ t, LongEnd s s e f (opDests 0x126 f) (ex.map fun l => .v l f.d (BitVec.ofNat 32 (c.count + c.sticky.toNat * 256))) t ∧ exec (.cpoll w) s = .next t) ∧
    (e.w.settled = true → ex ≠ [] →
      (c.count ≤ (f.uniB e.w.s).toNat → e.w.longRoom (opDests 0x125 f) (ex.map fun l => RegWrite.p l f.d !c.sticky) →
        ∃ t, LongEnd s s { e with w := { e.w with chans := modifyNth e.w.chans (f.mod % 8) fun x => { x with sticky := false } } } f (opDests 0x125 f)
          (ex.map fun l => .p l f.d !c.sticky) t ∧ exec (.cwait w) s = .next t) ∧
      ((f.uniB e.w.s).toNat < c.count → exec (.cwait w) s = .next (s.stall e.w)) ∧
      ((∀ r ∈ s.remotes, r.warp = e.w.id → r.cmd = none ∧ ¬(r.lane = 64 ∧ r.isRead = true)) → e.w.flows.length ≤ e.w.asked.length → e.w.askedFor = e.w.sent →
        let v := { e.w with interval := e.w.interval + 1, sent := [], asked := [], askedFor := [] }
        (∀ p, (sortNat (dedup (e.w.sent.map (·.target)))).find? (fun p => askedTotal e.w p != some (sentTotal e.w p)) = some p →
          exec (.fabfence w) s = .next ((s.putWarp v).raise { e with w := v }
            { cause := 0xC, reason := if (askedTotal e.w p).isNone then 2 else 1, lane := ex.headD 0, info := BitVec.ofNat 64 e.w.interval, aux := some (BitVec.ofNat 64 p) })) ∧
        ((∀ x ∈ e.w.sent, askedTotal e.w x.target = some (sentTotal e.w x.target)) →
        e.w.longRoom (opDests 0x128 f) (ex.map fun l => RegWrite.v l f.d (BitVec.ofNat 32 e.w.interval)) →
        ∃ t, LongEnd s s { e with w := v } f (opDests 0x128 f) (ex.map fun l => .v l f.d (BitVec.ofNat 32 e.w.interval)) t ∧ exec (.fabfence w) s = .next t)))) ∧
  ∀ (w : Ext) (s : State) (e : Env), s.env = some e → e.w.settled = true → let f := Fields.ofExt w
    let ex := s.exec e.w f.ga f.gb
    let port := f.imm.toNat % 16
    let gen := (s.codec.slot port (f.mod % 8)).1
    ex ≠ [] → e.l.hdr.privileged = true → canonical (e.w.s f.a) = true → (e.w.s f.a).toNat % 256 = 0 → ∀ as,
      let done := ex.map fun l => RegWrite.v l f.d (BitVec.ofNat 32 (1 + (gen + 1) % 256 * 256))
      let late := ex.map fun l => RegWrite.v l f.d (BitVec.ofNat 32 (7 + gen * 256))
      (s.codec.busy port (f.mod % 8) = false →
        Reached s e .read ⟨256, 256, 3, .plain, false⟩ { addr := fun _ => e.w.s f.a } (ex.take 1) as → (∀ l ∈ ex, (e.w.lane l).got = none) →
        e.w.longRoom (opDests 0x127 f) done →
        let used := (s.useSegs (allSegs as)).cacheLoad e.w.core f.hint (allSegs as)
        ∃ t, LongEnd used s { e with w := { e.w.loadDone (e.w.lane (ex.headD 0)).pc.addr with ctabSince := none } } f (opDests 0x127 f) done t ∧
          exec (.ctab w) s = .next { t with codec := s.codec.load port (f.mod % 8) (used.laneBytes .data (as.headD ⟨0, 0, 0, 0, 0, []⟩)) }) ∧
      (s.resumed e = false → s.codec.busy port (f.mod % 8) = true → (∀ t0, e.w.ctabSince = some t0 → s.clock < t0 + 65536) →
        exec (.ctab w) s = .next (s.stall { e.w with ctabSince := some (e.w.ctabSince.getD s.clock) })) ∧
      (∀ t0, s.resumed e = false → s.codec.busy port (f.mod % 8) = true → e.w.ctabSince = some t0 → t0 + 65536 ≤ s.clock → e.w.longRoom (opDests 0x127 f) late →
        ∃ t, LongEnd s s { e with w := { e.w with ctabSince := none } } f (opDests 0x127 f) late t ∧ exec (.ctab w) s = .next t)

/-- mres takes its slots when all are free and none waits before it, answers 0 with .try or while the block holds slots, and otherwise waits (who may
pass: log entry 71); mrel releases exactly those of its slots that no operation of the block and no checked store uses (log entry 81), and waits while
one is left; mwait passes with at most B operations outstanding and waits with more. A slot taken anew reads zero. (07 R239, 07 R240, 07 R253, 01 R20) -/
def Obligations.MatrixReservations : Prop :=
  (∀ (w : Std) (s : State) (e : SEnv), s.senv = some e → let f := Fields.ofStd w
    let quad := quadOf e.b.core
    let mask := lo32 (e.x.reg f.b)
    let past := fun (v : W64) => { e.x with x := e.x.x.set f.d v, pc := e.x.pc + BitVec.ofNat 61 s.cur.length, backoff := none }
    (s.maskFree quad e.b.id mask = true → s.behindWaiter quad e.b.id mask = false →
      exec (.mres w) s = .next ((s.takeSlots quad e.b.id mask).putStream e.b.id (past (mask.setWidth 64)))) ∧
    (s.maskFree quad e.b.id mask = false → f.mod % 2 = 1 ∨ s.heldSlots e.b.id ≠ [] → exec (.mres w) s = .next (s.putStream e.b.id (past 0))) ∧
    (s.maskFree quad e.b.id mask = false → f.mod % 2 = 0 → s.heldSlots e.b.id = [] →
      ∃ t : State, exec (.mres w) s = .next (t.putStream e.b.id { e.x with wait := .mres mask }) ∧ t.quads.acc = s.quads.acc) ∧
    (let busy := fun i => s.slotOps e.b.id i ≠ [] ∨ s.slotStores quad i = true
     let waits := ∃ i ∈ s.heldSlots e.b.id, mask.getLsbD i = true ∧ busy i
     ∃ t : State, (∀ i, i ∈ t.heldSlots e.b.id ↔ i ∈ s.heldSlots e.b.id ∧ (mask.getLsbD i = false ∨ busy i)) ∧
        (waits → exec (.mrel w) s = .next (t.putStream e.b.id { e.x with wait := .stall })) ∧
        (¬waits → exec (.mrel w) s = .next (t.putStream e.b.id { e.x with pc := e.x.pc + BitVec.ofNat 61 s.cur.length, backoff := none }))) ∧
    (((s.quads.ops.filter fun o => o.block == e.b.id).length ≤ (f.uniB e.x.reg).toNat →
      exec (.mwait w) s = .next (s.putStream e.b.id { e.x with pc := e.x.pc + BitVec.ofNat 61 s.cur.length, backoff := none })) ∧
     ((f.uniB e.x.reg).toNat < (s.quads.ops.filter fun o => o.block == e.b.id).length →
      exec (.mwait w) s = .next (s.putStream e.b.id { e.x with wait := .stall })))) ∧
  ∀ (s : State) (quad block : Nat) (mask : W32) (i : Nat), i < 32 → mask.getLsbD i = true →
    i ∈ (s.takeSlots quad block mask).heldSlots block ∧
      (i ∉ s.heldSlots block → ∀ n, (s.takeSlots quad block mask).readLoc (.acc quad (i * 65536)) n = List.replicate n 0)

/-- With the record legal, the slot held and room in the quad's table, each operation enters the table as the youngest, with its record and its launch's
class, and the stream moves on; mshape checks its record and moves on; mzero on a slot not held raises shape-invalid REASON 9. Memory and every warp
stay. (07 R238, 07 R243, 07 R244, 07 R245, 07 R252) -/
def Obligations.MatrixOperationsIssue : Prop :=
  (∀ (w : Std) (s : State) (e : SEnv), s.senv = some e → let f := Fields.ofStd w
    let slot := f.d % 32
    s.tableRoom (quadOf e.b.core) = true →
      (s.holdsSlot e.b.id slot = true → exec (.mzero w) s = .next (s.enterOp e slot .mzero)) ∧
      (s.holdsSlot e.b.id slot = false → exec (.mzero w) s = .next (s.raiseStream e (shapeTrap 9 slot 0)))) ∧
  (∀ (w : Ext) (s : State) (e : SEnv) (ga gp : List Seg), s.senv = some e → let f := Fields.ofExt w
    let slot := f.d % 32
    let va := e.x.reg f.a + f.imm.signExtend 64
    let pa := e.x.reg f.c
    canonical va = true → s.reachRead e.who va 64 = .ok ga → s.agentPrep e.who ga [] = none →
    let s1 := s.useReads 0 ga
    let r := leNat (s.reachBytes e.who ga)
    (tileBad (s1.holdsSlot e.b.id slot) va r none = none →
      (s.tableRoom (quadOf e.b.core) = true → exec (.mmac w) s = .next (s1.enterOp e slot (.mmac va r))) ∧
      (f.mod % 2 = 0 → exec (.mshape w) s = .next (s1.passStream e))) ∧
    (canonical pa = true → s1.reachRead e.who pa 32 = .ok gp → s1.agentPrep e.who gp [] = none →
      let s2 := s1.useReads 0 gp
      let p := leNat (s1.reachBytes e.who gp)
      tileBad (s2.holdsSlot e.b.id slot) va r (some (pa, p)) = none →
        (s.tableRoom (quadOf e.b.core) = true → exec (.mprol w) s = .next (s2.enterOp e slot (.mprol va r p))) ∧
        (f.mod % 2 = 1 → exec (.mshape w) s = .next (s2.passStream e)))) ∧
  (∀ (w : Ext) (s : State) (e : SEnv), s.senv = some e → let f := Fields.ofExt w
    let slot := f.d % 32
    let ty := f.mod % 32
    let dm := f.mod / 32
    let a := e.x.reg f.a
    let b := e.x.reg f.b
    let c := e.x.reg f.c
    s.tableRoom (quadOf e.b.core) = true → s.holdsSlot e.b.id slot = true → windowBad a b c ty = none →
      exec (.mwrite w) s = .next (s.enterOp e slot (.mwrite a b c ty)) ∧
      ((∀ x ∈ windowRows a b c ty, s.destBad e.who x.1 x.2 dm = none) →
        let t := s.enterOp e slot (.mread a b c ty dm (f.mhi % 8) (f.mhi / 8 % 2 = 1))
        exec (.mread w) s = .next (if dm = 2 then (windowRows a b c ty).foldl (fun t x => t.emptyRun e.who x) t else t))) ∧
  ∀ (s : State) (e : SEnv) (slot : Nat) (k : AnvilKind), s.block? e.b.id = some e.b → let t := s.enterOp e slot k
    s.passStream e = ({ s with fetched := s.fetched.filter fun x => x.1 != .stream e.b.id } : State).putStream e.b.id
      { e.x with pc := e.x.pc + BitVec.ofNat 61 s.cur.length, backoff := none } ∧
    t.quads.ops = s.quads.ops ++ [⟨s.ctr.cmd, quadOf e.b.core, e.b.id, e.l.id, slot, k, e.l.hdr.prio, s.cycles, s.clock, false, none, none, none⟩] ∧ t.mem = s.mem ∧
    t.warps = s.warps ∧ t.block? e.b.id = some { e.b with stream := some { e.x with pc := e.x.pc + BitVec.ofNat 61 s.cur.length, backoff := none } }

/-- nnev with its lanes' checks passed sends one row for each lane with Exec, with the lane's inputs, and the warp is disabled (until its tiles are
checked); nnflush sends a flush; rtrace, rnext, rhit, rend and rquery send one request for each lane with Exec. No register changes at issue; a long
instruction with that many parts is outstanding. (07 R254, 07 R258, 07 R263, 07 R267, 08 R273, 08 R279, 08 R280) -/
def Obligations.NetworksAndRaysIssue : Prop :=
  (∀ (w : Ext) (s : State) (e : Env), s.env = some e → let f := Fields.ofExt w
    let ex := s.exec e.w f.ga f.gb
    ex ≠ [] → nnBad (fun l => e.w.opB64 f l) (fun l => e.w.opC f l) ex = none → e.w.settled = true → e.w.logRoom (opDests 0x149 f).length = true →
    let row := fun l => (⟨e.w.id, e.w.nextLong, l, f.a, f.d, e.l.hdr.regs, e.w.opB64 f l, e.w.opC f l, ((e.w.lane l).v.drop f.a).take 64⟩ : NnRow)
    ∃ v, exec (.nnev w) s = .next ((s.putWarp v).sendCmd (.nnev ⟨quadOf e.w.core, e.l.id, e.w.id, e.w.nextLong, f.mod % 2 == 1, ex.map row⟩)) ∧
      v.disabled = true ∧ v.regs = e.w.regs ∧ v.nextLong = e.w.nextLong + 1 ∧
      v.longs = e.w.longs ++ [⟨e.w.nextLong, (e.w.lane ((s.act e.w).headD 0)).pc.addr, (s.act e.w).map fun l => (l, f.la), ex.length, false, opDests 0x149 f,
        [.fmt (e.w.opC f (ex.headD 0))], true, none⟩]) ∧
  (∀ (w : Std) (s : State) (e : Env), s.env = some e → let f := Fields.ofStd w
    s.exec e.w f.ga f.gb ≠ [] → e.w.settled = true → e.w.logRoom 0 = true →
    ∃ v, exec (.nnflush w) s = .next ((s.putWarp v).sendCmd (.nnev ⟨quadOf e.w.core, e.l.id, e.w.id, e.w.nextLong, true, []⟩)) ∧
      v.nextLong = e.w.nextLong + 1 ∧ ∀ l, (v.lane l).v = (e.w.lane l).v ∧ (v.lane l).p = (e.w.lane l).p) ∧
  ∀ (i : Instr) (f : Fields) (act : RayAct) (root : Warp → Nat → W64) (op : Nat),
    (∃ w, i = .rtrace w ∧ f = .ofExt w ∧ act = .trace ∧ root = (fun u l => u.opB64 f l) ∧ op = 0x160) ∨
    (∃ w, f = .ofStd w ∧ root = (fun _ _ => 0) ∧ ((i = .rnext w ∧ act = .next ∧ op = 0x161) ∨ (i = .rhit w ∧ act = (if f.mod % 2 = 1 then .hitEnd else .hit) ∧ op = 0x162) ∨
      (i = .rend w ∧ act = .finish ∧ op = 0x163) ∨ (i = .rquery w ∧ act = .query ∧ op = 0x164))) →
    ∀ (s : State) (e : Env), s.env = some e →
      let ex := s.exec e.w f.ga f.gb
      (∀ (l0 : Nat) (rest : List Nat) (x : AccFault), act = .trace → ex = l0 :: rest → inWindow (ptrAddr (root e.w l0)) = true → ptrKind (root e.w l0) ≠ 0 →
        s.windowLoc e.who (ptrAddr (root e.w l0)) (if ptrKind (root e.w l0) = 2 then 48 else 128) = .error x → exec i s = .next (s.raise e (x.trap l0 none))) ∧
      (ex ≠ [] → (act = .trace → ∀ l ∈ ex, let p := root e.w l
        inWindow (ptrAddr p) = true → ptrKind p ≠ 0 → ∃ x, s.windowLoc e.who (ptrAddr p) (if ptrKind p = 2 then 48 else 128) = .ok x) →
      e.w.settled = true → e.w.logRoom (opDests op f).length = true →
      ∃ v, exec i s = .next ((s.putWarp v).sendCmd (.ray (ex.map fun l =>
          ⟨e.w.id, l, e.w.nextLong, f.d, act, (e.w.lane l).pc.addr, root e.w l, ((e.w.lane l).v.drop f.a).take 8, f.imm⟩))) ∧
        v.nextLong = e.w.nextLong + 1 ∧ (∀ l, (v.lane l).v = (e.w.lane l).v ∧ (v.lane l).p = (e.w.lane l).p ∧ (v.lane l).query = (e.w.lane l).query) ∧
        ∃ o ∈ v.longs, o.id = e.w.nextLong ∧ o.parts = ex.length ∧ o.done = false ∧ o.dests = opDests op f)

/-- With the lanes' checks passed in a non-speculative warp, emit and emitm stage one record for each lane within its depth, with the bytes of its
registers or of memory (read lane by lane, as a load does: log entries 39 and 58), and write the status word and predicate of each lane with Exec.
reorder in a handler raises barrier-misuse REASON 7; else its threads leave the warp for the block's pool with their key, their continuation and what
R179 carries, and the other threads stay. (05 R172, 05 R173, 05 R174, 05 R176, 05 R177, 05 R179) -/
def Obligations.RecordsAndReorder : Prop :=
  (∀ (w : Ext) (s : State) (e : Env), s.env = some e → let f := Fields.ofExt w
    let ex := s.exec e.w f.ga f.gb
    let nd := fun l => (e.w.opBi f l f.imm).toNat
    let n := 16 * (f.mhi % 16 + 1)
    let within := fun l => depthOk e.l e.w l (nd l)
    (∀ l ∈ ex, emitBad e.l e.w l (nd l) n = none) → e.w.settled = true →
    ∃ t : State, exec (.emit w) s = .next (t.stageRecords true e.w.id e.l.id ((ex.filter within).map fun l =>
          ⟨nd l, recDepth e.w l (nd l), e.w.regBytes l f.a n⟩)) ∧
      t = s.putWarp ((e.w.commit (ex.flatMap fun l => if within l then [.v l f.d (BitVec.ofNat 32 (recDepth e.w l (nd l) * 256)), .p l f.e true]
        else [.v l f.d (BitVec.ofNat 32 (1 + (e.w.lane l).depth * 256)), .p l f.e false])).advance s.cur (s.act e.w))) ∧
  (∀ (w : Ext) (s : State) (e : Env) (as : List LaneAcc), s.env = some e → let f := Fields.ofExt w
    let ex := s.exec e.w f.ga f.gb
    let nd := e.w.plannedNode f
    let n := 16 * (f.mhi % 16 + 1)
    let within := fun l => depthOk e.l e.w l (nd l)
    e.w.settled = true →
    Reached s e .read ⟨n, 16, 3, .plain, false⟩ { addr := fun l => e.w.opA64 f l + f.imm.signExtend 64, b := fun l => BitVec.ofNat 64 (nd l), pre := fun l => emitBad e.l e.w l (nd l) n }
      (ex.filter fun l => (e.w.lane l).got.isNone) as →
    let batch := as.take (s.cur.quota + 1)
    let used := (s.useSegs (allSegs as)).cacheLoad e.w.core f.hint (allSegs batch)
    let now := batch.map fun a => (a.lane, used.laneBytes .data a)
    (batch.length < as.length → ∃ v, exec (.emitm w) s = .next (used.putWarp v) ∧ PartDone e.w v (s.act e.w) now) ∧
    (batch.length = as.length → ∃ t : State,
      exec (.emitm w) s = .next (t.stageRecords true e.w.id e.l.id ((ex.filter within).map fun l => ⟨nd l, recDepth e.w l (nd l), obtained e.w now l⟩)) ∧
      t = used.putWarp (((e.w.loadDone (e.w.lane (ex.headD 0)).pc.addr).commit (ex.flatMap fun l => emitStatus f e.l e.w l (nd l))).advance s.cur (s.act e.w)))) ∧
  (∀ (s : State) (w launch : Nat) (rs : List EmitRec) (l : Launch), s.launch? launch = some l → rs ≠ [] →
    (∃ l', (s.stageRecords true w launch rs).launch? launch = some l' ∧ l'.senders = l.senders ++ rs.map fun r => ⟨some w, none, r, s.clock, none⟩) ∧
    ∀ v, s.warp? w = some v → ∃ v', (s.stageRecords true w launch rs).warp? w = some v' ∧ v'.spec.sending = v.spec.sending + rs.length ∧ v'.regs = v.regs) ∧
  ∀ (w : Ext) (s : State) (e : Env), s.env = some e → e.w.settled = true → let f := Fields.ofExt w
    let ex := s.exec e.w f.ga f.gb
    (ex ≠ [] → e.w.regs.trap.mask.getLsbD 1 = true → exec (.reorder w) s = .next (s.raise e { cause := 0x0D, reason := 7, lane := ex.headD 0, info := 0 })) ∧
    (ex ≠ [] → e.w.regs.trap.mask.getLsbD 1 = false → ∃ (t : State) (u : Warp), exec (.reorder w) s = .next ((t.settleWarp e.w.id).checkDeadlock e.b.id) ∧
      t = ((s.putWarp u).modBlock e.b.id fun b => { b with pool := b.pool ++ ex.map fun l =>
          { pc := f.target (e.w.lane (ex.headD 0)).pc, key := e.w.opA f l
            lane := (e.w.lane l).crossing (f.target (e.w.lane (ex.headD 0)).pc) (if f.mod % 2 = 1 then (e.w.lane (ex.headD 0)).v.length else f.e)
            flow := e.w.flow, interval := e.w.interval
            sent := e.w.sent.filter fun x => x.lane == l || (l == ex.headD 0 && u.live.isEmpty && x.lane == 64)
            due := false } }).traceWarp e.w.id (some 4) 12 0
              ((f.target (e.w.lane (ex.headD 0)).pc).setWidth 54) (e.w.lane (ex.headD 0)).pc ∧
      (∀ l ∈ ex, (u.lane l).populated = false) ∧ u.sent = e.w.sent.filter (fun x => !ex.contains x.lane) ∧ ∀ l, l ∉ ex → (u.lane l).v = (e.w.lane l).v ∧ (u.lane l).populated = (e.w.lane l).populated)

/-- rfwd sends the records lane by lane, each under one credit of its target's endpoint with the next sequence number, and completes with each lane's
status when all are answered; a record goes over the fabric where a route leads to its target, else over an Ultra Ethernet port. ctxsw in a user
launch raises privilege REASON 2; in a privileged one it completes, and begins a swap if a waiting context may take the core (which context is offered
it, and by whose class, is the model's choice, log entry 59; a swap that is under way, log entry 33). (08 R282, 08 R283, 13 R431, 13 R432, 05 R192, 05
R186) -/
def Obligations.ForwardAndOffer : Prop :=
  (∀ (w : Ext) (s : State) (e : Env), s.env = some e → e.w.settled = true → let f := Fields.ofExt w
    let ex := s.exec e.w f.ga f.gb
    let dests : List Dest := .v f.d :: (if f.e < 15 then [.p f.e] else [])
    let n := 16 * (f.mhi % 16 + 1)
    let pk := fun l => match (e.w.lane l).plan with | some p => p.b.toNat | none => (e.w.opBi f l f.imm).toNat
    let ep := fun l => match (e.w.lane l).plan with | some p => p.c.toNat | none => (e.w.opC f l).toNat
    let st := fun l => match (e.w.lane l).got with | some (b :: _) => b.toNat | _ => 3
    let ws := ex.flatMap fun l => RegWrite.v l f.d (BitVec.ofNat 32 (st l + pk l * 256)) :: (if f.e < 15 then [RegWrite.p l f.e (st l == 0)] else [])
    let spill := if f.mod % 2 = 1 then e.l.overflowFor n else none
    ex ≠ [] → (f.mod % 2 = 1 → e.l.overflowFor n ≠ none) →
      ((∀ l ∈ ex, (e.w.lane l).got ≠ none) → (∀ l ∈ ex, st l ≠ rfwdSent) → e.w.longRoom dests ws → ∃ t, LongEnd s s e f dests ws t ∧ exec (.rfwd w) s = .next t) ∧
      ((∀ l ∈ ex, (e.w.lane l).got ≠ none) → (∃ l ∈ ex, st l = rfwdSent) → exec (.rfwd w) s = .next (s.stall e.w)) ∧
      (∀ l, ex.find? (fun l => (e.w.lane l).got.isNone) = some l →
        ∃ v, PartDone e.w v (s.act e.w) [] ∧ exec (.rfwd w) s = .next ((s.putWarp v).forwardLane e l (pk l) (ep l) n spill (e.w.regBytes l f.a n)))) ∧
  (∀ (s : State) (e : Env) (l pk ep n : Nat) (spill : Option Nat) (bytes : List Byte) (c : Credit) (k : Nat), pk ≤ 127 → ep ≤ 15 → s.hasPath pk = true → s.peerGone pk = false → pk ≠ s.pkg →
    s.credits.find? (fun c => c.pkg == pk && c.ep == ep && decide (0 < c.free)) = some c → s.nextSslot pk ep c.granted = some k →
    let t := s.forwardLane e l pk ep n spill bytes
    let req := FabReq.record (recordHeader e.l.hdr.tenant k n ep s.pkg c.rseq) bytes
    let p : Packet := ⟨s.pkg, pk, 0, 0, 0, 0, none, 0, 0, s.ctr.remote, req⟩
    (s.routed pk = true → s.ports.down.getLsbD (s.hopPort p) = false → t.out = s.out ++ [.packet (s.hopPort p) p]) ∧
    (s.routed pk = false → t.out = s.out ++ [.message pk req]) ∧
    (∀ x ∈ t.credits, x.pkg = pk ∧ x.ep = ep → ∃ y ∈ s.credits, y.pkg = pk ∧ y.ep = ep ∧ x = { y with free := y.free - 1, rseq := y.rseq + 1 }) ∧ t.mem = s.mem) ∧
  ∀ (w : Std) (s : State) (e : Env), s.env = some e → e.w.settled = true → let f := Fields.ofStd w
    let ex := s.exec e.w f.ga f.gb
    (ex ≠ [] → e.l.hdr.privileged = false → exec (.ctxsw w) s = .next (s.raise e { cause := 7, reason := 2, lane := ex.headD 0, info := 0 })) ∧
    (ex = [] ∨ e.l.hdr.privileged = true → ∃ u, Moved e.w u s.cur (s.act e.w) ∧
      let t := s.putWarp u
      (ex = [] ∨ t.offered e.w.core e.l.hdr.prio = none → exec (.ctxsw w) s = .next t) ∧
      ∀ x, ex ≠ [] → t.offered e.w.core e.l.hdr.prio = some x →
        let v := t.awaitSwap e.w.id
        ((v.core e.w.core).phase = .run → v.contextWaits x = true →
          ∀ n, v.beginSwap e.w.core (some x.num) .load = some n → exec (.ctxsw w) s = .next n) ∧
        (v.swapsBack x e.w.core = true → ∀ n, v.beginSwap e.w.core (some x.num) .swap = some n → exec (.ctxsw w) s = .next (n.quiesce e.w.core)) ∧
        (v.swapFor x e.w.core (fun n => n.quiesce e.w.core) = none →
          exec (.ctxsw w) s = .next (if (s.core e.w.core).phase = .run ∨ s.swapsBack x e.w.core = true then t else s.stall e.w)))

/-- Power-on, and a package reset that has nothing to wait for or comes with the link down, restart CLOCK, end all work, forget registrations and
features, keep host memory but for sectors lost with the link down (their bytes are free, log entry 25), and count a boot that reached stage 4; a
stage has its effect (memory cleared, keys and errors forgotten, measurements taken, banks zeroed) only where the boot got past it, and the mailbox
shows the stage that failed in SSEQ and its reason in RSN: where it shows the stage is the model's choice (log entry 84). A reset with the link up
first writes every modified sector to the bridge's buffer and recalls the host's lines, and waits for the host; then a function reset releases every
sector and leaves memory and warps. A link loss holds the modified sectors, those in the buffer among them, and a retraining writes them back. What a
package reset leaves of registers the spec gives no value for is the model's choice (log entries 3 and 21). (14 R434, 13 R414, 13 R415, 13 R412) -/
def Obligations.BootResetAndLink : Prop :=
  (∀ (s : State) (f : Option BootFail), s.arg = .boot f → bootFails f = true →
    let clear : Prop := s.modifiedSectors = [] ∧ (∀ a, s.cache.bridgeHolds a = false) ∧ s.cache.hostHeld = []
    (∀ i, i = .powerOn ∨ (i = .packageReset ∧ (s.ports.hostUp = false ∨ clear)) → Leads i s fun t =>
      t.boot.halted = f ∧ t.clock = 0 ∧ t.features = none ∧ t.queues = [] ∧ t.launches = [] ∧ t.blocks = [] ∧ t.warps = [] ∧ t.tenants = [] ∧
      t.pasids = [] ∧ t.pkg = s.pkg ∧ t.resetting = none ∧ t.mailbox.st = 0 ∧
      (∀ x, f = some x → t.mailbox.sseq.toNat = x.stage ∧ t.mailbox.rsn = x.reason) ∧ (f = none → t.mailbox.sseq = 0 ∧ t.mailbox.rsn = 0) ∧
      (passes f 0 = false → t.boot.m0 = 0) ∧ (passes f 2 = false → t.boot.m1 = 0) ∧
      (passes f 1 = true → t.keys = [] ∧ t.badLines = [] ∧ ∀ a, isHost a = false → t.mem.get a = 0) ∧ (passes f 1 = false → t.keys = s.keys ∧ t.badLines = s.badLines) ∧
      t.quads.acc = (if passes f 3 = true then [] else s.quads.acc) ∧
      (s.modifiedSectors = [] → ∀ a, isHost a = true ∨ passes f 1 = false → t.mem.get a = s.mem.get a) ∧
      t.status.resets = (if i = .powerOn then 0 else s.status.resets) + (if f = none then 1 else 0))) ∧
  (∀ s : State, s.ports.hostUp = true → (∀ i, i = .functionReset ∨ (i = .packageReset ∧ ∃ f, s.arg = .boot f ∧ bootFails f = true) →
      s.modifiedSectors ≠ [] ∨ (∃ a, s.cache.bridgeHolds a = true) ∨ s.cache.hostHeld ≠ [] → Leads i s fun t =>
        t.resetting = some (i, s.arg) ∧ t.mem = s.mem ∧ t.warps = s.warps ∧ t.launches = s.launches ∧ t.modifiedSectors = [] ∧
        (∀ a ∈ s.modifiedSectors, Out.writeBack a ∈ t.out ∧ t.cache.bridgeHolds a = true) ∧ (∀ a, s.cache.bridgeHolds a = true → t.cache.bridgeHolds a = true) ∧
        ∀ a ∈ s.cache.hostHeld, a ∈ t.cache.backInv ∧ (a ∉ s.cache.backInv → Out.backInvalidate a ∈ t.out)) ∧
    (s.modifiedSectors = [] → (∀ a, s.cache.bridgeHolds a = false) → s.cache.hostHeld = [] → Leads .functionReset s fun t =>
      t.resetting = none ∧ t.cache.sectors = [] ∧ t.mem = s.mem ∧ t.warps = s.warps ∧ (∀ x ∈ s.cache.sectors, Out.cleanEvict x.1 ∈ t.out) ∧
      ∀ x ∈ s.cache.sectors, ∀ y ∈ t.cache.l1, y.2.1 ≠ lineOf x.1)) ∧
  ∀ s : State,
    (s.ports.hostUp = true → Leads .linkDown s fun t => t.ports.hostUp = false ∧
      ((∀ a, s.cache.bridgeHolds a = false) → t.ports.heldSectors = s.modifiedSectors.length) ∧
      (s.eventQ = none → ∀ a, a ∈ s.modifiedSectors ∨ s.cache.bridgeHolds a = true → a ∈ t.modifiedSectors)) ∧
    (s.ports.hostUp = false → Leads .linkRetrain s fun t => t.ports.hostUp = true ∧ t.ports.heldSectors = 0 ∧ t.modifiedSectors = [] ∧ t.mem = s.mem ∧
      ∀ a ∈ s.modifiedSectors, Out.writeBack a ∈ t.out)

/-- The driver writes the mailbox's region byte by byte where it may be written, and reads it; a write of CODE while a command runs is ignored and
counted, and with a known code starts that command with the arguments that ARGS hold, or refuses with reason 2 bytes that give none. ARGS longer than
3,840 bytes are refused with reason 2, an unknown code with reason 1, a command at the wrong time with reason 5 or 3, a bad argument with reason 2; a
refusal changes the mailbox alone. Where each argument lies in ARGS is not given: Config.argsOf (log entry 10). (14 R435, 14 R436, 14 R437) -/
def Obligations.MailboxProtocol : Prop :=
  (∀ (s : State) (h : MbHead) (c : MbArgs), s.arg = .mailbox h c → (∀ x, c = .mailboxUnknownCode x → x = 0 ∨ 0x12 < x.toNat) → s.mailbox.st = 1 →
    exec (commandOf c).2 s = .next { s with telemetry := { s.telemetry with ignored := s.telemetry.ignored + 1 } }) ∧
  (∀ (s : State) (h : MbHead) (c : MbArgs), s.arg = .mailbox h c → s.mailbox.st ≠ 1 → (∀ x, c ≠ .mailboxUnknownCode x) → 3840 < h.alen.toNat →
    Leads (commandOf c).2 s fun t => t.reports h 3 2 ∧ t = { s with mailbox := t.mailbox }) ∧
  (∀ (s : State) (h : MbHead) (x : Byte), s.arg = .mailbox h (.mailboxUnknownCode x) → s.mailbox.st ≠ 1 → x = 0 ∨ 0x12 < x.toNat →
    Leads .mailboxUnknownCode s fun t => t.reports h 3 1 ∧ t = { s with mailbox := t.mailbox }) ∧
  (∀ (s : State) (off : Nat) (bs : List Byte), s.arg = .bytes off bs → 0 < off → off + bs.length ≤ 0x1000 → s.mailbox.args.length ≤ 3840 →
    Leads .mailboxUnknownCode s fun t => t = { s with mailbox := t.mailbox } ∧ t.mailbox.code = s.mailbox.code ∧ t.mailbox.st = s.mailbox.st ∧
      ∀ o < 0x1000, t.mailbox.byteAt o = if off ≤ o ∧ o < off + bs.length ∧ (o < 8 ∨ 0x100 ≤ o) then bs.getD (o - off) 0 else s.mailbox.byteAt o) ∧
  (∀ (s : State) (off : Nat), s.arg = .access off none → exec .mailboxUnknownCode s =
    .next { s with ioResult := BitVec.ofNat 64 (leNat ((List.range 8).map fun i => s.mailbox.byteAt (off + i))) }) ∧
  (∀ (s : State) (code : Byte), s.arg = .bytes 0 [code] →
    (s.mailbox.st = 1 → Leads .mailboxUnknownCode s fun t => t.telemetry.ignored = s.telemetry.ignored + 1 ∧ t.mailbox = s.mailbox ∧ t.agenda = s.agenda) ∧
    (s.mailbox.st ≠ 1 → 1 ≤ code.toNat → code.toNat ≤ 0x12 →
      let c := Config.argsOf code.toNat (s.mailbox.args.take s.mailbox.alen.toNat)
      if (commandOf c).1 = code.toNat then exec .mailboxUnknownCode s = .next (s.proposeFirst (commandOf c).2 (.mailbox ⟨s.mailbox.cseq, s.mailbox.alen⟩ c))
      else Leads .mailboxUnknownCode s fun t => t.reports ⟨s.mailbox.cseq, s.mailbox.alen⟩ 3 2 ∧ t = { s with mailbox := t.mailbox })) ∧
  ∀ (s : State) (h : MbHead), (∀ r, s.rings h (.setPortRoles r) →
      (2 ^ 12 ≤ r → Leads .setPortRoles s fun t => t.reports h 3 2 ∧ t = { s with mailbox := t.mailbox }) ∧
      (r < 2 ^ 12 → s.features ≠ none → Leads .setPortRoles s fun t => t.reports h 3 5 ∧ t = { s with mailbox := t.mailbox })) ∧
    (∀ f, s.rings h (.acceptFeatures f) → s.features ≠ none ∨ f.getLsbD 0 = false → Leads .acceptFeatures s fun t => t.reports h 3 5 ∧ t = { s with mailbox := t.mailbox }) ∧
    (∀ src, s.rings h (.restoreMemoryImage src) → inHost src imageBytes = true ∨ (isFabric src = true ∧ src < 2 ^ 52) → s.queues ≠ [] →
      Leads .restoreMemoryImage s fun t => t.reports h 3 3 ∧ t = { s with mailbox := t.mailbox }) ∧
    (∀ t0 k src n, s.rings h (.mapTenant t0 k src n) → k = 0 ∨ 127 < k → Leads .mapTenant s fun t => t.reports h 3 2 ∧ t = { s with mailbox := t.mailbox })

/-- Each command of R437, with legal arguments at a legal time, reports DONE and does what its row says: port roles, features, launch, fault and event
queues, the status page with its fields and records as they stand (log entry 50), PASID contexts, tenants with their key material (public key first:
log entry 10) and page keys (a re-keyed page reads zero and no other byte changes), the route table from host memory (after ordered traffic has
drained), endpoints and their grants, pools and trace pages, Larder size, Tongs timers, thermal limits, attestation (the report, its signature with
the identity key, the certificates: log entry 16), releases (only with the tenant's signature over the challenge, else refused with reason 5) and the
restore of a memory image, which ends DONE or with reason 4 (pages with no key mapped: log entry 53); an image in fabric memory is fetched first, and
one that cannot be read ends with reason 4 (log entry 87). Results overwrite ARGS from its start. (14 R437, 14 R438, 14 R439, 13 R415, 13 R418, 13
R423, 13 R432, 12 R385, 12 R392, 12 R398, 11 R349, 14 R436) -/
def Obligations.MailboxCommands : Prop :=
  ∀ (s : State) (h : MbHead),
    (∀ r, s.rings h (.setPortRoles r) → r < 2 ^ 12 → s.features = none → Carried s h (.setPortRoles r) fun t => t.ports.roles.toNat = r) ∧
    (∀ f, s.rings h (.acceptFeatures f) → s.features = none → f &&& ~~~Config.offered = 0 → f.getLsbD 0 = true → f.getLsbD 6 = true ∨ s.ports.roles = 0 →
      Carried s h (.acceptFeatures f) fun t => t.features = some f) ∧
    (∀ q c, s.rings h (.registerLaunchQueue q c) → s.features ≠ none → q < 16 → c.base % 4096 = 0 → powerWithin c.count 16 65536 = true →
      hostOrHbm c.base (128 * c.count) = true → ownWord c.tailPa = true →
      Carried s h (.registerLaunchQueue q c) fun t => ∃ n, t.queue? q = some ⟨q, c, 0, c.s0 - 1, 0, n, 0, c.s0 - 1, c.s0 - 1⟩) ∧
    (∀ q c, s.rings h (.registerFaultQueue q c) → q < 4 → c.base % 4096 = 0 → powerWithin c.count 64 65536 = true → inHbm c.base (32 * c.count) = true →
      ownWord c.tailPa = true → ownWord c.headPa = true → c.tailPa / 128 ≠ c.headPa / 128 → s.deviceKeyed c.base (32 * c.count) = true →
      Carried s h (.registerFaultQueue q c) fun t => ∃ x ∈ t.faultQs, x.no = q ∧ x.cfg = c ∧ x.head = 0) ∧
    (∀ pa, s.rings h (.registerStatusPage pa) → pa % 4096 = 0 → hostOrHbm pa 4096 = true → inHbm pa 4096 = false ∨ s.keyOf pa = 0 →
      Carried s h (.registerStatusPage pa) fun t => t.status.page = some pa ∧ (s.mem.wf = true →
        let word (o n : Nat) : Nat := leNat ((List.range n).map fun i => t.mem.get (pa + o + i))
        word 0 8 = s.clock % 2 ^ 64 ∧ word 8 4 = s.status.evseq % 2 ^ 32 ∧ word 12 4 = s.status.resets % 2 ^ 32 ∧
          word 16 4 = s.features.isSome.toNat ∧ (∀ o, 20 ≤ o → o < 64 → t.mem.get (pa + o) = 0) ∧
          ∀ q < 16, (∀ k, 24 ≤ k → k < 64 → t.mem.get (pa + queueRec q + k) = 0) ∧ (s.queue? q = none → word (queueRec q + 20) 4 = 5) ∧
            ∀ x, s.queue? q = some x → word (queueRec q) 4 = x.tail.toNat ∧ word (queueRec q + 4) 4 = x.accepted.toNat ∧
              word (queueRec q + 8) 4 = x.lcomp.toNat ∧ word (queueRec q + 12) 4 = x.ltrig.toNat ∧ word (queueRec q + 16) 4 = x.regn % 2 ^ 32 ∧
              word (queueRec q + 20) 4 = x.stop.toNat)) ∧
    (∀ c, s.rings h (.registerEventQueue c) → c.base % 4096 = 0 → powerWithin c.count 64 65536 = true → hostOrHbm c.base (32 * c.count) = true →
      ownWord c.tailPa = true → ownWord c.headPa = true → c.tailPa / 128 ≠ c.headPa / 128 →
      inHbm c.base (32 * c.count) = false ∨ s.deviceKeyed c.base (32 * c.count) = true → Carried s h (.registerEventQueue c) fun t => t.eventQ = some ⟨c, 0, 0, 0, 0⟩) ∧
    (∀ p e, s.rings h (.setPasidContext p e) → bits e.toNat 127 110 = 0 → bits e.toNat 63 2 = 0 →
      (ctxMode e = 1 → ∃ q ∈ s.faultQs, q.no = ctxFq e) → (ctxMode e = 2 → s.feature 1 = true) → (ctxMode e = 3 → s.feature 2 = true) →
      Carried s h (.setPasidContext p e) fun t => t.pasidEntry p = e) ∧
    (∀ t0 k src n, s.rings h (.mapTenant t0 k src n) → 1 ≤ k → k ≤ 127 → publicKeyBytes ≤ n → inHost src n = true →
      Carried s h (.mapTenant t0 k src n) fun t => t.keyOfTenant t0 = some k ∧
        ⟨t0, k, s.readPa src publicKeyBytes, s.readPa (src + publicKeyBytes) (n - publicKeyBytes)⟩ ∈ t.tenants) ∧
    (∀ page k, s.rings h (.reKeyPage page k) → k ≤ 127 → inHbm (page * 4096) 4096 = true → s.mem.wf = true → Carried s h (.reKeyPage page k) fun t =>
      t.keyOf (page * 4096) = k ∧ (∀ a, page * 4096 ≤ a → a < page * 4096 + 4096 → t.mem.get a = 0) ∧
        ∀ a, a < page * 4096 ∨ page * 4096 + 4096 ≤ a → t.mem.get a = s.mem.get a) ∧
    (∀ src, inHost src 512 = true → let es := (List.range 128).map fun i => BitVec.ofNat 32 (leNat (s.readPa (src + 4 * i) 4))
      (∀ x ∈ es.zipIdx, s.routeOk x.2 x.1 = true) → (s.rings h (.loadRouteTable src) →
        (s.orderedOpen = false → Carried s h (.loadRouteTable src) fun t => t.routes = es) ∧
        (s.orderedOpen = true → Leads .loadRouteTable s fun t => t.reports h 1 0 ∧ t.routes = s.routes ∧ t.mailbox.pending = some (.loadRouteTable src))) ∧
      (s.arg = .none → s.mailbox.pending = some (.loadRouteTable src) → s.orderedOpen = false →
        Leads .loadRouteTable s fun t => t.routes = es ∧ t.mailbox.st = 2 ∧ t.mailbox.pending = none)) ∧
    (∀ c l, s.rings h (.bindEndpoint c) → s.feature 5 = true → c.ep < 16 → (∀ e ∈ s.endpoints, e.ep = c.ep → e.held = []) → c.bind = true → 1 ≤ c.slots → c.slots ≤ 255 →
      c.node < 64 → c.queue < 16 → (∀ p ∈ c.senders, p < 128) → dedup c.senders = c.senders → s.boundLaunch c = some l →
      s.slotsUsed c.ep + c.slots * c.senders.length ≤ Config.receiveSlots →
      Carried s h (.bindEndpoint c) fun t => ⟨c.ep, l.id, c.node, l.hdr.tenant, c.senders, c.slots, []⟩ ∈ t.endpoints ∧ (∀ x ∈ t.seen, x.1 ≠ c.ep) ∧
        ∀ p ∈ c.senders, Told s t p (.grant c.ep c.slots)) ∧
    (∀ c, s.rings h (.setPools c) → (∀ a ∈ c.backing ++ c.saves, inHbm a 1 = true ∧ a % 64 = 0) →
      (c.trace = [] → Carried s h (.setPools c) fun t => t.pools = ⟨c.backing, c.saves⟩) ∧
      ∀ k as, c.trace = [(k, as)] → k < Config.cores → as.length = 16 → (∀ a ∈ as, inHbm a 4096 = true ∧ a % 4096 = 0) →
        Carried s h (.setPools c) fun t => t.pools = ⟨c.backing, c.saves⟩ ∧ (t.core k).pages = as.map fun a => ⟨a, none, 0, 0⟩) ∧
    (∀ n, s.rings h (.setLarderSize n) → n ≤ 16 → (∀ l ∈ s.launches, l.phase ≠ .live ∧ l.phase ≠ .ended) → n = 0 ∨ s.feature 8 = true →
      Carried s h (.setLarderSize n) fun t => t.larder.units = n) ∧
    (∀ q x, s.rings h (.setTongsTimer q x) → q < 48 ∨ q = 0xFF → 1 ≤ x → x ≤ 32 →
      Carried s h (.setTongsTimer q x) fun t => ∀ k < 48, (q = 0xFF ∨ k = q → t.tongsTimer k = 256 * x) ∧ (q ≠ 0xFF → k ≠ q → t.tongsTimer k = s.tongsTimer k)) ∧
    (∀ cap lim, s.rings h (.setThermalLimits cap lim) → 1000 ≤ cap → cap ≤ 2600 → 70 ≤ lim → lim ≤ 105 →
      Carried s h (.setThermalLimits cap lim) fun t => t.thermal.capW = cap ∧ t.thermal.thresholdC = lim) ∧
    (∀ n, s.rings h (.attest n) → Carried s h (.attest n) fun t => ∃ r,
      let res := s.attestation n ++ Config.mlDsaSign Config.identityKey (s.attestation n) r ++ Config.certificates
      t.mailbox.args = (res ++ s.mailbox.args.drop res.length).take 3840) ∧
    (∀ t0 pa sig x, s.rings h (.releaseDumpOrTrace t0 pa sig) → inHbm pa 1 = true → s.tenants.find? (fun y => y.no == t0) = some x → s.keyOf pa = x.key →
      Leads .releaseDumpOrTrace s fun t => if mlDsaVerify x.pubKey s.challenge sig = true
        then t.reports h 2 0 ∧ (let n := min 3840 (pa / 4096 * 4096 + 4096 - pa); t.mailbox.args = (s.readPa pa n ++ s.mailbox.args.drop n).take 3840)
        else t.reports h 3 5 ∧ t = { s with mailbox := t.mailbox }) ∧
    (∀ src, inHost src imageBytes = true ∨ (isFabric src = true ∧ src < 2 ^ 52) → s.queues = [] →
      let pages := s.restorePages src (Config.hbmBytes / 4096) 0 0
      let ends (t : State) : Prop := ∃ t0 : State, t.mem = t0.mem ∧ t.keys = t0.keys ∧ t.mailbox.pending = none ∧
        ((∃ skipped, pages = .done t0 (leBytes 8 skipped) ∧ t.mailbox.st = 2 ∧ t.mailbox.rsn = 0 ∧
            t.mailbox.args = (leBytes 8 skipped ++ s.mailbox.args.drop 8).take 3840) ∨
          (pages = .failed t0 4 ∧ t.mailbox.st = 3 ∧ t.mailbox.rsn = 4))
      (s.rings h (.restoreMemoryImage src) → isFabric src = false → Leads .restoreMemoryImage s ends) ∧
      (s.rings h (.restoreMemoryImage src) → isFabric src = true → s.fetchedAt .hearth src imageBytes = none →
        Leads .restoreMemoryImage s fun t => t.reports h 1 0 ∧ t.mem = s.mem ∧ t.keys = s.keys ∧ t.mailbox.pending = some (.restoreMemoryImage src)) ∧
      (s.arg = .none → s.mailbox.pending = some (.restoreMemoryImage src) → isFabric src = true →
        (∀ bs, s.fetchedAt .hearth src imageBytes = some (.inr bs) → Leads .restoreMemoryImage s ends) ∧
        ∀ r, s.fetchedAt .hearth src imageBytes = some (.inl r) → Leads .restoreMemoryImage s fun t => t.mem = s.mem ∧ t.mailbox.st = 3 ∧ t.mailbox.rsn = 4))

/-- A tail word reaches its queue; an entry that passes R352 becomes a launch with the next sequence number, and any other stops the queue with its
reason; a waiting launch goes on when its dependences are met and is cancelled when one has failed; lease setup makes it live, or fails with 9 for
more than 64 extents; it triggers and completes when R356 says so, with its completion record written (points of the queue that are open: log entry
26; a number that no launch carries: log entry 73). (11 R350, 11 R352, 11 R355, 11 R356, 11 R357, 11 R358) -/
def Obligations.LaunchLifecycle : Prop :=
  (∀ (s : State) (q : Nat) (x : W32) (c : Queue), s.arg = .word q x → s.queue? q = some c →
    Leads .tailWordWrite s fun t => t.queue? q = some { c with tail := x } ∧ t.launches = s.launches) ∧
  (∀ (s : State) (q : Nat) (c : Queue), s.arg = .id q → s.queue? q = some c → c.stop = 0 → BitVec.ofNat 32 c.read ≠ c.tail →
    let pa := c.cfg.base + 128 * (c.read % c.cfg.count)
    s.schedKeyOk c.cfg.tenant pa = true → s.errorAt (.pa pa) 128 = none →
    (entryBad (s.numPa pa 128) (c.accepted + 1) = none → Leads .launchEntryAccept s fun t =>
      t.queue? q = some { c with accepted := c.accepted + 1, read := c.read + 1 } ∧ ∃ l ∈ t.launches, l.id = s.ctr.launch ∧ l.queue = q ∧ l.seq = c.accepted + 1) ∧
    ∀ why, entryBad (s.numPa pa 128) (c.accepted + 1) = some why →
      Leads .launchEntryAccept s fun t => t.queue? q = some { c with stop := BitVec.ofNat 8 why } ∧ t.launches = s.launches) ∧
  ∀ (s : State) (l : Launch), s.arg = .id l.id → s.launch? l.id = some l →
    (l.phase = .waiting → l.halting = false → (∀ q ∈ l.deps, s.depSt l q = .ready) →
      Leads .dependenceSatisfied s fun t => t.launch? l.id = some { l with phase := .pending } ∧ t.mem = s.mem) ∧
    (l.phase = .waiting → l.halting = false → (∃ q ∈ l.deps, s.depSt l q = .failed) →
      Leads .dependenceSatisfied s fun t => ∃ l', t.launch? l.id = some l' ∧ l'.halting = true ∧ l'.stat = 4 ∧ l'.reason = 0) ∧
    (∀ xs, l.phase = .pending → l.halting = false → s.agentBusy (.sched l.id) = false → l.setupPages.mapM (s.setupPage l) = .ok xs →
      ((joinExtents (xs.map (·.1))).length ≤ 64 →
        Leads .leaseSetupDone s fun t => t.launch? l.id = some { l with phase := .live, extents := joinExtents (xs.map (·.1)), waitSince := s.clock }) ∧
      (64 < (joinExtents (xs.map (·.1))).length →
        Leads .leaseSetupDone s fun t => ∃ l', t.launch? l.id = some l' ∧ l'.halting = true ∧ l'.stat = 5 ∧ l'.reason = 9)) ∧
    (s.canTrigger l = true → Leads .launchTrigger s fun t => t.launch? l.id = some { l with triggered := true } ∧ t.warps = s.warps) ∧
    (s.canComplete l = true → l.crec = 0 → Leads .launchComplete s fun t => t.launch? l.id = some { l with phase := .done, extents := [], records := [], senders := [], remains := [] } ∧
      ∀ b ∈ t.blocks, b.launch ≠ l.id) ∧
    (∀ gs, s.canComplete l = true → l.crec ≠ 0 → s.schedReach l .write l.crec 16 = .ok gs → (∀ g ∈ gs, g.remote = false ∧ g.regs = false) → s.agentPrep l.sched [] gs = none →
      Leads .launchComplete s fun t => t = ((s.useSegs gs).engineWrites 0 0 false gs (l.record s.clock)).completed l ∧
        ∃ l', t.launch? l.id = some l' ∧ l'.phase = .done)

/-- A block that fits, where no saved context and no launch considered before takes the room, is placed with its warps, identifiers, zeroed state (R13,
R30) and the first backing area of the pool that lies under its tenant's key (R325; log entry 65); a record takes the lowest free slot of its node and
its bytes land there, and one that came from a peer is acknowledged with its credit; a full or timed batch starts as a block of one warp with a record
to each lane, in ordinary room or in the reserve; a pool stall for which no room for a batch exists pre-empts its core for that batch; a group leaves
a reorder pool as a warp (which of two pairs first: log entry 68). A quarter's selection opens a turn: threads that a trial shows to wait before their
instruction leave the ready ones, the one or two paths are chosen among the rest, and when the turn ends and a path has issued the skip counts of the
threads that were ready as it began move. Which of several such moves comes first is free (log entry 1); how a path that is put off counts is the
model's choice (log entry 66). (11 R360, 11 R361, 11 R363, 11 R364, 11 R365, 05 R154, 05 R155, 05 R178, 01 R30, 10 R325, 11 R367) -/
def Obligations.PlacementAndBatches : Prop :=
  (∀ (s t : State) (l : Launch) (core : Nat), s.arg = .two l.id core → s.launch? l.id = some l → l.wantsBlock = true → s.coreOpen core = true →
    s.yieldsTo l core = false → (∀ m ∈ s.launches, m.before l = true → s.blockCores m = []) → s.tryBlock l core = some t →
    exec .blockPlace s = .next t ∧ t.launch? l.id = some { l with nextBlock := l.nextBlock + 1, codeFrom := some (s.codeFor l) } ∧ BlockWarps s t l core ∧
      ∃ b, AreaTaken s t l b ∧ t.blocks = s.blocks ++ [b] ∧ b.id = s.ctr.block ∧ b.launch = l.id ∧ b.core = core ∧
        b.blockx = BitVec.ofNat 64 l.nextBlock ∧ b.scratchBytes = l.hdr.scratch ∧ b.scratch = [] ∧ b.bars = List.replicate l.hdr.bars ⟨false, 0, 0, false⟩ ∧
        (b.stream.isSome = true ↔ l.hdr.mentry ≠ 0)) ∧
  (∀ (i : Instr) (s : State) (l : Launch) (node slot : Nat) (x : Sender), i = .recordPlacement ∨ i = .poolSlotFree → s.arg = .two l.id node →
    s.launch? l.id = some l → s.nextSender l node = some x → l.freeSlot node = some slot →
    Leads i s fun t =>
      (let gs := s.poolRuns l .write (l.slotVa node slot) x.rc.bytes.length
       t.mem = (((gs.foldl (fun u g => u.needLines g.loc g.n) s).useSegs gs).engineWrites 0 0 false gs x.rc.bytes).mem) ∧
      (∃ l', t.launch? l.id = some l' ∧ l'.records = l.records ++ [⟨node, slot, x.rc.depth, x.rc.bytes, s.clock⟩] ∧
        l'.senders = (l.senders.erase x).map fun y : Sender => if y.warp.isSome ∧ y.warp = x.warp then { y with since := s.clock } else y) ∧
      ∀ (ep src sslot : Nat) (e : Endpoint) (h : HeldRec), x.ep = some (ep, src, sslot) → (s.endpoints.find? fun e => e.ep == ep) = some e →
        (e.held.find? fun h => h.src == src && h.sslot == sslot) = some h → Told s t src (.recordAck ep h.rseq true) ∧ Told s t src (.credit ep)) ∧
  (∀ (s t : State) (l : Launch) (n : Node) (node core : Nat), s.launch? l.id = some l → l.nodes[node]? = some n →
    (∀ (i : Instr) (rs : List PoolRec), (i = .batchLaunch ∧ rs = l.fullBatch node) ∨ (i = .binTimerExpiry ∧ rs = s.timedBatch l node) →
      s.arg = .three l.id node core → l.phase = .live → l.halting = false → s.yieldsTo l core = false → s.ordinaryBatch l node core rs = some t →
      exec i s = .next t ∧ BatchStarts s t l n node core 0 rs) ∧
    ∀ rs, s.arg = .two l.id core → s.highestDue l = some (node, rs) → s.yieldsTo l core = false → s.reserveBatch l node core rs = some t →
      exec .consumerReserveFree s = .next t ∧ BatchStarts s t l n node core 1 rs) ∧
  (∀ (s : State) (b : Block) (l : Launch), s.arg = .id b.id → s.block? b.id = some b → s.launch? b.launch = some l → (s.core b.core).phase ≠ .swap →
    let g := poolGroup (s.poolDue b) l.hdr.lanes
    g ≠ [] → (∃ q < 4, (s.seatGroup b l g q).isSome = true) → Leads .reorderPoolDepart s fun t =>
      t.block? b.id = some { b with pool := (s.poolDue b).filter fun x => !g.contains x } ∧ t.mem = s.mem ∧ ∃ w, t.warps = s.warps ++ [w] ∧ w.block = b.id ∧
        w.core = b.core ∧ w.warpx = 0xFFFFFFFF ∧ ∀ i < l.hdr.lanes, (∀ x, g[i]? = some x → w.lane i = x.lane) ∧ (g[i]? = none → (w.lane i).populated = false)) ∧
  (∀ (s : State) (core q : Nat) (w : Warp), s.arg = .two core q → s.selectWarp core q = some w → s.warp? w.id = some w →
    exec .quarterIssueSelect s = .next { s.putWarp { w with yielded := none } with taking := some ⟨w.id, 0, 0, 0, none⟩ }) ∧
  (∀ (s : State) (w : Warp) (n : Nat) (a b : BitVec 64) (x : Option (Pc × Instr)) (trial : State → Issue → State), s.taking = some ⟨w.id, a, b, n, x⟩ → s.warp? w.id = some w →
    let v := w.paths.foldl (fun v p => v.tried s p (trial { s with agenda := [], turn := [], taking := none } (w.issueOf p))) w
    (v.turnPaths = [] → s.openTurn trial = { s.putWarp v with taking := none }) ∧
    (v.turnPaths ≠ [] → s.openTurn trial = { s.putWarp { v with deferred := none } with
      turn := s.turn ++ v.turnPaths.map (fun p => ⟨false, w.id, p.1, maskOf p.2, 1, (0, 0), 0⟩), taking := some ⟨w.id, maskOf v.readyLanes, 0, 0, none⟩ }) ∧
    (∀ l, { v.lane l with wait := .none } = { w.lane l with wait := .none }) ∧
    ∀ l, (v.lane l).wait ≠ (w.lane l).wait → l ∈ w.readyLanes ∧ (v.lane l).stands = true) ∧
  (∀ (s : State) (x : Turn) (w : Warp), s.warp? x.warp = some w → x.paths ≠ 0 →
    ∃ v, (s.closeTurn x).warp? w.id = some v ∧ v.readySince = none ∧ (s.closeTurn x).taking = none ∧ ∀ k < w.width, v.lane k = { w.lane k with
      skip := if k ∈ w.live ∧ x.on.getLsbD k = true then 0
        else if k ∈ w.live ∧ x.ready.getLsbD k = true ∧ (w.lane k).ready = true ∧ (w.lane k).plan = none then (w.lane k).skip + 1 else (w.lane k).skip }) ∧
  ∀ (s t : State) (l : Launch) (core node : Nat) (rs : List PoolRec), s.arg = .two l.id core → s.launch? l.id = some l → s.highestDue l = some (node, rs) →
    s.poolStalled core = true → s.noBatchRoom l node rs = true → (s.core core).phase = .run → core < Config.cores → (∃ b ∈ s.coreBlocks core, b.launch = l.id) →
    (s.loadNew core fun u => u.ordinaryBatch l node core rs) = some t →
    exec .poolStallRelief s = .next t ∧ t.launch? l.id = some { l with batches := l.batches + 1, codeFrom := some (s.codeFor l), records := l.records.filter fun r => !rs.contains r } ∧
      ∃ n, SwapBegins s t core (some n) .load

/-- A waiting block, a due batch or a saved context of a higher class, after 3,200 clk without room on any core, begins a swap of a core that runs only
lower ones, where no launch or context considered before it could take that core; a hot core migrates after its residence; each block of what goes out
takes a save area under its tenant's key (model: log entry 65); a shadow load of sound save areas leads to the swap, and one that meets an error or
another save sequence number ends its launches FAULTED with restore-integrity and the core runs on (after the host's translation of a dump page where
one is needed); the swap saves the core's blocks and warps and seats the incoming context; the spill, once no page of it holds a frame, writes the
save areas; a saved context returns whole; save areas go back to the pool (points that are open: log entry 33). (11 R370, 11 R371, 11 R372, 11 R373,
11 R374, 11 R375, 12 R400, 12 R401) -/
def Obligations.PreemptionAndRestore : Prop :=
  (∀ (s t : State) (l : Launch) (core : Nat), s.arg = .two l.id core → s.launch? l.id = some l → l.wantsBlock = true → l.waitSince + 3200 ≤ s.clock →
    s.noBlockRoom l = true → (s.core core).phase = .run → core < Config.cores → s.runsBelow core l.hdr.prio = true →
    (s.cleared core).yieldsTo l core = false → (s.loadNew core fun u => u.tryBlock l core) = some t →
    exec .priorityPreempt s = .next t ∧ t.launch? l.id = some { l with nextBlock := l.nextBlock + 1, codeFrom := some (s.codeFor l) } ∧
      ∃ n, SwapBegins s t core (some n) .load) ∧
  (∀ (s t : State) (l : Launch) (core node : Nat) (rs : List PoolRec), s.arg = .two l.id core → s.launch? l.id = some l → l.wantsBlock = false →
    s.highestDue l = some (node, rs) → l.dueSince node + 3200 ≤ s.clock → s.noBatchRoom l node rs = true → (s.core core).phase = .run → core < Config.cores →
    s.runsBelow core l.hdr.prio = true → (s.cleared core).yieldsTo l core = false → (s.loadNew core fun u => u.ordinaryBatch l node core rs) = some t →
    exec .priorityPreempt s = .next t ∧
      t.launch? l.id = some { l with batches := l.batches + 1, codeFrom := some (s.codeFor l), records := l.records.filter fun r => !rs.contains r } ∧
      ∃ n, SwapBegins s t core (some n) .load) ∧
  (∀ (s : State) (x : Context) (k core c : Nat), s.arg = .three k x.num core → s.context? x.num = some x → s.classOf x.blocks = some c →
    x.savedAt + 3200 ≤ s.clock → s.noContextRoom x = true → s.runsBelow core c = true → x.areas ≠ [] → (s.cleared core).contextFits x core = true →
    (∀ m ∈ s.launches, m.hdr.prio < c → (s.cleared core).roomFor m core = false) →
    (s.pickAreas (s.liveContext core) (s.coreBlocks core) s.pools.saves).isSome = true →
    ((s.core core).phase = .run → s.contextWaits x = true → Leads .priorityPreempt s fun t => SwapBegins s t core (some x.num) .load) ∧
    ((s.core core).phase = .spill → (s.core core).outgoing = some x.num → Leads .priorityPreempt s fun t =>
      ∃ u, SwapBegins s u core (some x.num) .swap ∧ t = u.quiesce core)) ∧
  (∀ (s : State) (core : Nat) (ts : List Nat), s.arg = .temps core ts →
    let u := s.withTemps ts
    (u.hot core = false → exec .thermalMigration s = .next u) ∧
    (u.hot core = true → (u.core core).phase = .run → u.coreBlocks core ≠ [] → (∀ b ∈ u.coreBlocks core, b.arrivedAt + 6400000 ≤ u.clock) →
      (u.pickAreas (u.liveContext core) (u.coreBlocks core) u.pools.saves).isSome = true → Leads .thermalMigration s fun t => SwapBegins u t core none .load ∧
        t.telemetry.migrations = s.telemetry.migrations + 1 ∧ ∃ x ∈ t.contexts, (t.core core).outgoing = some x.num ∧ x.migrated = true)) ∧
  (∀ (s : State) (core : Nat), s.arg = .id core → (s.core core).phase = .load → s.bankTested core = false →
    ((((s.core core).incoming.bind s.context?).bind s.restoreCheck) = none → (s.warps.map (·.id)).Nodup → Leads .shadowLoadDone s fun t =>
      (t.core core).phase = .swap ∧ t.blocks = s.blocks ∧ ((s.core core).pages = [] → t.mem = s.mem) ∧ ∀ w ∈ t.warps, w.core = core → w.spec.ckpt = none) ∧
    ∀ (x : Context) (r : Nat), (s.core core).incoming = some x.num → s.context? x.num = some x → s.restoreCheck x = some r →
      (∀ u, s.restoreFailed x r = .error u → exec .shadowLoadDone s = .next u) ∧ ∀ u, s.restoreFailed x r = .ok u →
      Leads .shadowLoadDone s fun t => RestoreFails s t x ∧ (t.core core).phase = .run ∧ (t.core core).incoming = none ∧ (t.core core).outgoing = none ∧
        ∀ w ∈ t.warps, w.core = core → ∀ k ∈ w.live, (w.lane k).wait ≠ .swap) ∧
  (∀ (s : State) (x : Context) (b : Block) (area : Nat), (∀ c ∈ s.cores, c.outgoing ≠ some x.num) → x.blocks = [b] → x.areas = [(b.id, area)] →
    let n := s.areaLen x b
    (∀ l r, s.errorAt (.pa area) n = some (l, r) → s.restoreCheck x = some (if r = 2 then 2 else 1)) ∧
    (s.errorAt (.pa area) n = none → s.restoreCheck x = if bits (s.numPa area 24) 191 128 = x.sseq % 2 ^ 64 then none else some 3)) ∧
  (∀ (s : State) (core n : Nat), s.arg = .id core → (s.core core).phase = .swap → (s.core core).outgoing = some n →
    (∀ w ∈ s.warps, w.core = core → s.warpSaves w = true) → (∀ b ∈ s.coreBlocks core, s.blockSaves b = true) →
    ((s.core core).incoming = none → Leads .shadowSwap s fun t => (t.core core).phase = .spill ∧ (∀ b ∈ t.blocks, b.core ≠ core) ∧
      (∀ w ∈ t.warps, w.core ≠ core) ∧ ∀ y ∈ t.contexts, y.num = n → y.blocks = (s.coreBlocks core).map Block.saved ∧
        y.warps = (s.warps.filter fun w => w.core == core).map Warp.saved) ∧
    ∀ (x : Context), (s.core core).incoming = some x.num → s.context? x.num = some x → (s.warps.map (·.id) ++ x.warps.map (·.id)).Nodup →
      ((s.swapped core n).bringIn x core).isSome = true → Leads .shadowSwap s fun t => (t.core core).phase = .spill ∧ (t.core core).incoming = none ∧
        (∀ b ∈ x.blocks, ∃ b' ∈ t.blocks, b'.id = b.id ∧ b'.core = core) ∧ ∀ w ∈ x.warps, ∃ w' ∈ t.warps, w'.id = w.id ∧ w'.core = core) ∧
  (∀ (s : State) (core : Nat) (x : Context), s.arg = .id core → (s.core core).phase = .spill → (s.core core).outgoing = some x.num → s.context? x.num = some x →
    (∀ b ∈ x.blocks, ∀ p ∈ b.pages, p.frame = none) →
    Leads .spillDone s fun t => (t.core core).phase = .run ∧ (t.core core).outgoing = none ∧ t.warps = s.warps ∧ t.blocks = s.blocks ∧
      t.mem = (x.blocks.foldl (fun (u : State) b => u.spillBlock x b) s).mem) ∧
  (∀ (s : State) (x : Context) (core : Nat), s.arg = .two x.num core → s.context? x.num = some x → s.contextWaits x = true → (s.core core).phase = .run →
    s.contextFits x core = true →
    (s.restoreCheck x = none → (s.warps.map (·.id) ++ x.warps.map (·.id)).Nodup → Leads .contextRestore s fun t => Seated t x core) ∧
    ∀ r, s.restoreCheck x = some r → (∀ u, s.restoreFailed x r = .error u → exec .contextRestore s = .next u) ∧
      ∀ u, s.restoreFailed x r = .ok u → exec .contextRestore s = .next u ∧ RestoreFails s u x) ∧
  (∀ (s : State) (x : Context) (b : Block) (l : Launch) (reason : Nat), s.launch? b.launch = some l → l.halting = false → l.hdr.dumpp = 0 →
    ∃ t, s.poisonBlock x reason b = .ok t ∧ ∃ l', t.launch? l.id = some l' ∧ l'.halting = true ∧ l'.stat = 3 ∧ l'.reason = 0x10 ∧ l'.dumped = true) ∧
  ∀ (s : State) (x : Context), s.arg = .id x.num → s.context? x.num = some x → x.blocks = [] → s.contextBusy x.num = false →
    exec .saveAreaReturn s = .next { s with
      contexts := s.contexts.filter fun c => c.num != x.num
      pools := { s.pools with saves := s.pools.saves ++ x.areas.map (·.2) } }

/-- A rollback interval ends (R312); a long instruction completes, or ends in its data error, fatal with a permit (model: log entry 85); a staged record
or command is released in order, a scatter once its list can be read; a yield and a ctab wait time out; a queued block is sent; other register space
reads zero and discards stores; a scratchpad page is pinned, filled and unpinned without a change of the bytes and full-empty bits that its block
finds (an error stays with its page, log entry 30; when it is unpinned, log entry 31; its backing, log entry 62). (09 R312, 03 R89, 01 R32, 05 R166,
06 R228, 10 R325, 10 R326, 10 R327, 10 R328, 10 R448) -/
def Obligations.CoreEvents : Prop :=
  (∀ (s : State) (c : Nat), s.arg = .id c → (s.core c).interval ≠ s.clock / 4096 → Leads .rollbackIntervalExpiry s fun t =>
    t.core c = { s.core c with rollbacks := 0, interval := s.clock / 4096 } ∧ t.warps = s.warps ∧ t.mem = s.mem) ∧
  (∀ (s : State) (w : Warp) (o : LongOp), s.arg = .two w.id o.id → s.warp? w.id = some w →
    (w.longs.find? fun x => x.id == o.id && x.parts == 0 && !x.done) = some o →
    (o.bad = none → Leads .longInstructionComplete s fun t => ∃ v, t = s.putWarp v ∧
      v.longs = w.longs.map (fun x => if x.id = o.id then { x with done := true } else x) ∧
      ∀ l, v.lane l = if l ∈ w.live ∧ (w.lane l).wait = .long then { w.lane l with wait := .none } else w.lane l) ∧
    ∀ lane va r, o.bad = some (lane, va, r) → w.settled = true → w.fatal = none → (∀ b ∈ w.backoff, b.pc = Pc.ofAddr o.addr → b.retryAt ≤ s.clock) →
      (w.permit = true ∨ s.permitFree w.core = true → exec .longInstructionComplete s = .next (s.putWarp { w with
        permit := true, backoff := w.backoff.filter (fun b => b.pc != Pc.ofAddr o.addr)
        fatal := some ⟨0xF, r, lane, true, o.addr, va, 0, false, s.clock, none⟩ })) ∧
      (w.permit = false → s.permitFree w.core = false → exec .longInstructionComplete s = .next (s.putWarp (w.backOff s.clock (.ofAddr o.addr))))) ∧
  (∀ (s : State) (w : Warp) (b : Block) (os : List Bool), s.arg = .id w.id → s.warp? w.id = some w → s.block? w.block = some b → w.maySend = true →
    (∀ r rs, w.spec.order = true :: os → w.spec.emits = r :: rs → ∀ l, s.launch? b.launch = some l → Leads .stagedRelease s fun t =>
      (∃ v, t.warp? w.id = some v ∧ v.spec.order = os ∧ v.spec.emits = rs ∧ v.spec.cmds = w.spec.cmds ∧ v.spec.sending = w.spec.sending + 1) ∧
      t.launch? l.id = some { l with senders := l.senders ++ [⟨some w.id, none, r, s.clock, none⟩] }) ∧
    ∀ c cs, w.spec.order = false :: os → w.spec.cmds = c :: cs →
      (∀ u, s.sendWait c = some u → exec .stagedRelease s = .next u) ∧ (s.sendWait c = none → Leads .stagedRelease s fun t =>
      (∃ v, t.warp? w.id = some v ∧ v.spec.order = os ∧ v.spec.cmds = cs ∧ v.spec.emits = w.spec.emits) ∧
      (∀ x, c = .engine x → ∃ y, t.engines = s.engines ++ [{ y with sentAt := s.clock }] ∧ { y with list := x.list } = x ∧ (x.op ≠ .scatter → y = x)) ∧
      (∀ rs, c = .ray rs → t.rays = s.rays ++ rs) ∧ ∀ r, c = .nnev r → t.quads.nnReqs = s.quads.nnReqs ++ [r])) ∧
  (∀ (s : State) (w : Warp), s.arg = .id w.id → s.warp? w.id = some w →
    (∀ till, w.yielded = some till → till ≤ s.cycles → exec .yieldTimeout s = .next (s.modWarp w.id fun v => { v with yielded := none })) ∧
    ∀ since, w.ctabSince = some since → since + 65536 ≤ s.clock → Leads .ctabWaitTimeout s fun t => ∃ v, t = s.putWarp v ∧ v.ctabSince = some since ∧
      ∀ l, v.lane l = if l ∈ w.live ∧ (w.lane l).wait = .stall then { w.lane l with wait := .none } else w.lane l) ∧
  (∀ (s : State) (port : Nat) (q : Nat × Nat × Nat), s.arg = .id port → (s.codec.queued.find? fun x => x.1 == port) = some q →
    exec .queuedBlockSent s = .next { s with codec := { s.codec with queued := s.codec.queued.erase q } }) ∧
  (∀ (s : State) (off : Nat) (x : IoAccess), s.arg = .io off x → ¬(Config.regBase ≤ off ∧ off < Config.regBase + 4) →
    ¬(Config.telemetryBase ≤ off ∧ off < Config.telemetryBase + 0x10000) →
    ((∃ bs, x = .store bs) → exec .registerSpaceOther s = .next s) ∧
    ((¬∃ bs, x = .store bs) → exec .registerSpaceOther s = .next { s with ioResult := 0 })) ∧
  (∀ (s : State) (b : Block) (page : Nat), s.arg = .two b.id page → s.block? b.id = some b →
    (∀ p ∈ b.pages, p.no = page → p.frame = none ∧ p.bad = none) →
    (∀ f, s.pickFree 2000 64 ((s.framed b.core).filterMap fun x => x.2.frame) = some f → Leads .scratchpadPin s fun t => ∃ u b', (t = u ∨ t = u.retryHandlers) ∧ u.block? b.id = some b' ∧
      (∃ p ∈ b'.pages, p.no = page ∧ p.frame = some f ∧ (p.filling = true ↔ ∃ q ∈ b.pages, q.no = page)) ∧ SameScratch s u b b') ∧
    ∀ u p, s.pickFree 2000 64 ((s.framed b.core).filterMap fun x => x.2.frame) = none →
      minBy (fun x : Block × Page => x.2.lastUse) ((s.framed b.core).filter fun x : Block × Page => !x.2.filling && !s.pageLocked x.1.id x.2.no) = some (u, p) →
      exec .scratchpadPin s = .next { s with agenda := s.agenda ++ [(.scratchpadUnpin, .two u.id p.no), (.scratchpadPin, .two b.id page)] }) ∧
  ∀ (s : State) (b : Block) (p : Page) (a : Nat), s.block? b.id = some b → b.page? p.no = some p → p.no < 256 → b.backing = some a →
    (s.arg = .badPage b.id p.no (s.fillError b p.no) → p.filling = true → Leads .scratchpadFillDone s fun t => ∃ (u : State) (b' : Block), t = u.retryHandlers ∧ u.block? b.id = some b' ∧
      (∀ r, s.fillError b p.no = some r → b'.page? p.no = some { p with filling := false, frame := none, bad := some r }) ∧
      (s.fillError b p.no = none → b'.page? p.no = some { p with filling := false } ∧ ((∀ g ∈ b.feEmpty, g / 256 ≠ p.no) → SameScratch s u b b'))) ∧
    (s.arg = .two b.id p.no → p.frame.isSome = true → p.filling = false → s.pageLocked b.id p.no = false → Leads .scratchpadUnpin s fun t =>
      ∃ b', t.block? b.id = some b' ∧ b'.page? p.no = some { p with frame := none } ∧ SameScratch s t b b')

/-- A fatal trap with a permit ends its launch FAULTED with the cause, dumps it, and gives the permit back; without one it backs off (of several traps
which is dumped, and the records beside it: log entry 28). A back-off that ends retries. An asynchronous trap enters the handler at an instruction
boundary of a path. Entries and their heads move the waiting faults; a served warp resumes, its permit going back once nothing of it waits, a failed
one has a fatal page-fault REASON 7; page requests, ATS translations and invalidations complete (permits of one warp: log entry 36; the host's side:
log entry 32). (12 R381, 12 R382, 12 R383, 12 R391, 12 R394, 12 R395, 05 R182) -/
def Obligations.FaultService : Prop :=
  (∀ (s : State) (w : Warp) (b : Block) (l : Launch) (f : FatalTrap), (s.warps.map (·.id)).Nodup → s.warp? w.id = some w → s.block? w.block = some b →
    s.launch? b.launch = some l → l.halting = false → w.fatal = some f → w.settled = true →
    (∀ r ∈ s.fatalRecs l, f.after r.trap = false) → l.hdr.dumpp = 0 ∨ ctxMode (s.pasidEntry l.hdr.pasid) ≠ 3 →
    ∀ i, (i = .fatalTrap ∧ s.arg = .agent (.warp w.id) ∧ s.fatalNew (.warp w.id) = true) ∨
        (i = .permitBackoffExpiry ∧ s.arg = .agent (.warp w.id) ∧ ∃ k ∈ w.backoff, k.retryAt ≠ 0 ∧ k.retryAt ≤ s.clock) →
      (w.permit = true ∨ s.permitFree w.core = true → Leads i s fun t =>
        (∃ l', t.launch? l.id = some l' ∧ l'.halting = true ∧ l'.stat = 3 ∧ l'.reason = BitVec.ofNat 8 f.cause ∧ l'.dumped = true) ∧
        ∃ v, t.warp? w.id = some v ∧ v.permit = false ∧ v.backoff = [] ∧ v.regs.trap.cause = f.word ∧ v.regs.trap.pc = f.pc ∧ v.regs.trap.info = f.info ∧
          v.regs.trap.aux = f.aux) ∧
      (w.permit = false → s.permitFree w.core = false → Leads i s fun t => t.launches = s.launches ∧ t.blocks = s.blocks ∧ t.mem = s.mem ∧
        let at_ (b : Backoff) : Bool := b.pc == Pc.ofAddr f.pc
        ∃ v, t.warp? w.id = some v ∧ v.fatal = some f ∧ v.permit = false ∧
          v.backoff.find? at_ = some (nextBackoff s.clock (.ofAddr f.pc) (w.backoff.find? at_)))) ∧
  (∀ (s : State) (w : Warp), s.arg = .agent (.warp w.id) → s.warp? w.id = some w → w.fatal = none → w.service = none → w.waitsServed = false →
    let ended (k : Backoff) : Prop := k.retryAt ≠ 0 ∧ k.retryAt ≤ s.clock
    (∃ k ∈ w.backoff, ended k) → Leads .permitBackoffExpiry s fun t => ∃ v, t = s.putWarp v ∧
      v.backoff = w.backoff.map (fun k => if k.retryAt ≠ 0 ∧ k.retryAt ≤ s.clock then { k with retryAt := 0 } else k) ∧
      ∀ n, (n ∈ w.live → (w.lane n).wait = .service none → (∃ k ∈ w.backoff, ended k ∧ k.pc = (w.lane n).pc) → v.lane n = { w.lane n with wait := .none }) ∧
        (¬(n ∈ w.live ∧ (w.lane n).wait = .service none ∧ ∃ k ∈ w.backoff, ended k ∧ k.pc = (w.lane n).pc) → v.lane n = w.lane n)) ∧
  (∀ (s : State) (w : Warp) (b : Block) (l : Launch) (a : AsyncTrap) (rest : List AsyncTrap) (l0 : Nat) (ls : List Nat), s.arg = .id w.id →
    s.warp? w.id = some w → s.block? w.block = some b → s.launch? b.launch = some l → w.asyncs = a :: rest → s.asyncPath w = l0 :: ls →
    w.regs.trap.masked = false → w.regs.trap.tba ≠ 0 → fatalCause a.cause = false → w.settled = true → w.longsDone = true → w.fatal = none → l.halting = false →
    w.owing (l0 :: ls) = false → (∀ n ∈ l0 :: ls, (w.lane n).plan = none) → Leads .asyncTrapDelivery s fun t => ∃ v, t.warp? w.id = some v ∧ v.asyncs = rest ∧ v.regs.trap.inHandler = true ∧ v.regs.trap.masked = true ∧
      v.regs.trap.cause = trapCause a.cause a.reason l0 true false false ∧ v.regs.trap.info = a.info ∧ v.regs.trap.aux = a.aux ∧
      v.regs.trap.pc = (w.lane l0).pc.addr ∧ (∀ n ∈ l0 :: ls, n ∈ w.live → (v.lane n).handler = true ∧ (v.lane n).pc = .ofAddr w.regs.trap.tba) ∧
      ∀ n ∈ w.live, n ∉ l0 :: ls → (v.lane n).held = true ∧ (v.lane n).pc = (w.lane n).pc) ∧
  (∀ (s : State) (q : FaultQ), (s.faultQs.find? fun x => x.no == q.no) = some q →
    (∀ x, s.arg = .word q.no x → Leads .faultQueueHeadMove s fun t => ∃ q' ∈ t.faultQs, q'.no = q.no ∧ q'.head = x) ∧
    (∀ x, s.arg = .word q.no x → s.numPa q.cfg.headPa 4 = x.toNat → exec .faultQueueHeadMove s =
      .next (({ s.homeLoad 0 (.pa q.cfg.headPa) 4 with faultQs := s.faultQs.map fun y : FaultQ => if y.no = q.no then { y with head := x } else y }).roomFaults q.no)) ∧
    ∀ n, s.arg = .two q.no n → s.entryStat q n ≠ 1 → (∃ f ∈ s.faultWaits, f.place = .entry q.no n) →
      exec .faultEntryComplete s = .next (((s.homeLoad 0 (.pa (q.entryAt n)) 32).markFaults (fun f => f.place == .entry q.no n) (s.entryStat q n == 2)).roomFaults q.no)) ∧
  (∀ (s : State) (w : Warp) (f : FaultWait), s.warp? w.id = some w →
    (w.service = none → w.regs.trap.inHandler = false → ∃ v, (s.servedWarp w.id f.id).warp? w.id = some v ∧ v.service = none ∧
      v.permit = (w.permit && v.waitsServed) ∧ v.regs.trap = w.regs.trap ∧
      ∀ n, v.lane n = if n ∈ w.live ∧ (w.lane n).wait = .service (some f.id) then { w.lane n with wait := .none } else w.lane n) ∧
    (w.service = some f.id → w.handlerDone = false → ∃ v, (s.servedWarp w.id f.id).warp? w.id = some v ∧ v = { w with service := none }) ∧
    (w.fatal = none → ∃ v x, (s.failedWarp w.id f).warp? w.id = some v ∧ v.service = (if w.service = some f.id then none else w.service) ∧ v.permit = w.permit ∧
      v.fatal = some x ∧ x.cause = 4 ∧ x.reason = 7 ∧ x.lane = f.lane ∧ x.info = f.va ∧ (w.service = some f.id → x.pc = w.regs.trap.pc) ∧
      (w.service ≠ some f.id → ∀ n, (w.live.find? fun k => (w.lane k).awaits f.id) = some n → x.pc = (w.lane n).pc.addr))) ∧
  ∀ (s : State) (f : FaultWait),
    (∀ ok, s.arg = .flag f.id ok → (s.faultWaits.find? fun x => x.id == f.id && x.place == .pri) = some f → exec .priResponse s =
      .next (s.markFaults (fun x => x.place == .pri && x.pasid == f.pasid && x.va.toNat / 4096 == f.va.toNat / 4096) ok).askHeld) ∧
    (∀ pa perm, s.arg = .translated f.id pa perm → (s.faultWaits.find? fun x => x.id == f.id && x.place == .ats) = some f →
      (∀ w ∈ s.warps, w.regs.trap.inHandler = false) → Leads .atsTranslationCompletion s fun t => ⟨f.pasid, f.va.toNat / 4096, pa / 4096, perm, false, none⟩ ∈ t.tlb ∧
        t.faultWaits = s.faultWaits.filter fun x => !(x.place == .ats && x.pasid == f.pasid && x.va.toNat / 4096 == f.va.toNat / 4096)) ∧
    ∀ (pasid : BitVec 20) (va : W64) (n : Nat), s.arg = .range pasid va n →
      let x : Named := ⟨some pasid, va.toNat / 4096, (va.toNat + max n 1 - 1) / 4096⟩
      (s.drained x = false → exec .atsInvalidationRequest s = .next s) ∧
      (s.drained x = true → Leads .atsInvalidationRequest s fun t => Out.invalidationDone pasid va ∈ t.out ∧
        ∀ e ∈ t.tlb, e.pasid = pasid → e.vpage < va.toNat / 4096 ∨ (va.toNat + max n 1 - 1) / 4096 < e.vpage)

/-- A host snoop answers the sector's bytes if the device holds it modified, or wrote it back without an acknowledgement, and gives it up or shares it,
with the other modified sector of the line written back; a host access to a page under a key other than 0 is refused, reads ones, and is counted, and
any other reads (poison where the line has an error) or writes its bytes alone, and one to a line under test waits; gating waits for the cores' dirty
host lines; clocks fall by 100 MHz over the cap and rise by 100 MHz after 10 ms below 95 per cent of it (power is an input, log entry 19; the step,
log entry 51); a self-test marks its line or row and is logged and counted at its end (log entries 52 and 75); a moved head lets the dropped count be
reported. (10 R338, 13 R413, 13 R414, 12 R399, 14 R440, 12 R411, 13 R418) -/
def Obligations.HostAndPower : Prop :=
  (∀ (s : State) (x : Nat), isHost x = true → isFabric x = false → s.ports.hostUp = true →
    let a := sectorOf x
    let other := if a = lineOf x then lineOf x + 64 else lineOf x
    let answer := Out.snoopAnswer a (if s.cache.sector a = some .modified ∨ s.cache.bridgeHolds a = true then s.readPa a 64 else [])
    (∀ bs, s.arg = .bytes x bs → Leads .hostSnoopOwnership s fun t =>
      t.out = s.out ++ [answer] ++ (if s.cache.sector other = some .modified then [Out.writeBack other] else []) ∧ t.cache.sector a = none ∧
      (s.cache.sector other = some .modified → t.cache.sector other = some .exclusive) ∧
      t.mem = s.mem.write a (bs.take 64) ∧ ∀ y ∈ t.cache.l1, y.2.1 ≠ lineOf x) ∧
    (s.arg = .id x → Leads .hostSnoopRead s fun t => t.out = s.out ++ [answer] ∧ t.mem = s.mem ∧
      (s.cache.sector a ≠ none → t.cache.sector a = some .shared) ∧ ∀ y ∈ t.cache.l1, y.2.1 = lineOf x → y.2.2 = .shared)) ∧
  (∀ (s : State) (a : Nat) (w : Option (List Byte)), s.arg = .access a w → isHbm (a / 64 * 64 + 63) = true → s.ports.hostUp = true →
    (s.underTest (.pa (sectorOf a)) 64 = true → exec .hostMemAccess s = .next { s with blocked := s.blocked ++ [(.hostMemAccess, s.arg)] }) ∧
    (s.underTest (.pa (sectorOf a)) 64 = false → (s.keyOf a ≠ 0 → Leads .hostMemAccess s fun t => t.mem = s.mem ∧ t.telemetry.refused = s.telemetry.refused + 1 ∧
      t.out = s.out ++ (if w = none then [Out.hostRead (sectorOf a) (List.replicate 64 0xFF)] else [])) ∧
    (s.keyOf a = 0 → Leads .hostMemAccess s fun t => lineOf a ∈ t.cache.hostHeld ∧
      (w = none → t.mem = s.mem ∧ t.out = s.out ++ [Out.hostRead (sectorOf a) (if s.errorAt (.pa (sectorOf a)) 64 = none then s.readPa (sectorOf a) 64 else [])]) ∧
      ∀ bs, w = some bs → s.mem.wf = true → t.out = s.out ∧ ∀ k, t.mem.get k =
        if a ≤ k ∧ k < a + bs.length ∧ k < sectorOf a + 64 then bs.getD (k - a) 0 else s.mem.get k))) ∧
  (∀ (s : State) (line : Nat), s.arg = .id line → line ∈ s.cache.backInv → Leads .backInvalidateAnswer s fun t =>
    line ∉ t.cache.backInv ∧ line ∉ t.cache.hostHeld ∧
      t = { s with cache := { s.cache with backInv := t.cache.backInv, hostHeld := t.cache.hostHeld }, agenda := s.blocked ++ s.agenda, blocked := [] }) ∧
  (∀ (s : State) (w : WbEntry), s.arg = .two w.core w.line → (s.cache.writeBacks.find? fun x => x.core == w.core && x.line == w.line) = some w →
    exec .writebackAck s = .next { s with cache := { s.cache with writeBacks := s.cache.writeBacks.erase w } }) ∧
  (∀ (s : State) (first : Nat) (n : W32), s.arg = .word first n → n.toNat ≤ 96 → s.gateable first n.toNat = true →
    let dirty := s.cache.l1.filter fun l => (coresFrom first n.toNat).contains l.1 && l.2.2 == .modified && isHost l.2.1
    (dirty ≠ [] → Leads .powerGating s fun t => t.cache.writeBacks = s.cache.writeBacks ++ dirty.map (fun l => ⟨l.1, l.2.1, false⟩) ∧
      (∀ l ∈ dirty, l ∉ t.cache.l1) ∧ t.cache.gated = s.cache.gated) ∧
    (dirty = [] → (∀ w ∈ s.cache.writeBacks, w.core ∉ coresFrom first n.toNat) → Leads .powerGating s fun t =>
      t.cache.gated = s.cache.gated ++ coresFrom first n.toNat ∧ ∀ l ∈ t.cache.l1, l.1 ∉ coresFrom first n.toNat)) ∧
  (∀ (s : State) (mw : Nat), s.arg = .id mw →
    (Leads .powerThrottle s fun t => t = { s with thermal := t.thermal } ∧ t.thermal.powerMw = mw ∧
      t.thermal.clockMhz = (if s.thermal.capW * 1000 < mw then max 800 (s.thermal.clockMhz - 100) else s.thermal.clockMhz) ∧
      (s.thermal.capW * 1000 * 95 < mw * 100 → t.thermal.belowSince = none)) ∧
    Leads .powerRecover s fun t => t = { s with thermal := t.thermal } ∧ t.thermal.powerMw = mw ∧
      (s.thermal.capW * 1000 * 95 < mw * 100 → t.thermal.clockMhz = s.thermal.clockMhz ∧ t.thermal.belowSince = none) ∧
      (mw * 100 ≤ s.thermal.capW * 1000 * 95 → s.thermal.belowSince = none → t.thermal.clockMhz = s.thermal.clockMhz ∧ t.thermal.belowSince = some s.clock) ∧
      ∀ c, mw * 100 ≤ s.thermal.capW * 1000 * 95 → s.thermal.belowSince = some c → t.thermal.clockMhz =
        if c + 16000000 ≤ s.clock then min 1600 (s.thermal.clockMhz + 100) else s.thermal.clockMhz) ∧
  (∀ (s : State) (u : TestUnit) (place : Nat) (ok : Bool), s.arg = .test u place ok → Leads .errorSelftest s fun t =>
    t.tests = s.tests ++ [⟨s.ctr.test, u, place, ok, if u = .registerFile then none else some (s.clock + 3200)⟩] ∧ t.mem = s.mem ∧
    (ok = true ∨ u = .scratchpad ∨ u = .accumulator ∨ u = .registerFile → t.badLines = s.badLines) ∧ (ok = true → t.telemetry.corrected u place = s.telemetry.corrected u place + 1) ∧
    (u = .hbm ∨ u = .l2 ∨ u = .l1 → ok = false → (∀ b ∈ s.badLines, b.1 ≠ place / 128) →
      ∃ r, (r = 1 ∨ (r = 2 ∧ u = .hbm)) ∧ t.badLines = s.badLines ++ [(place / 128, r)]) ∧
    (u = .registerFile → ok = false → ∀ w ∈ s.warps, w.core = place / 65536 → w.slot = place / 256 % 256 →
      ∃ w' ∈ t.warps, w'.id = w.id ∧ w'.regs = w.regs ∧ place % 256 ∈ w'.badRows)) ∧
  (∀ (s : State) (x : SelfTest) (lasting : Bool), s.arg = .flag x.id lasting → (s.tests.find? fun y => y.id == x.id) = some x →
    Leads .selfTestEnd s fun t => t.tests = s.tests.filter (fun y => y.id != x.id) ∧
      t.errorLog = s.errorLog ++ [(BitVec.ofNat 8 (lasting.toNat + testCode x.unit * 16), x.place)] ∧
      t.telemetry.tested = s.telemetry.tested ++ [(testCode x.unit, x.place, lasting)] ∧ t.blocked = []) ∧
  ∀ (s : State) (q : EventQ) (k : Nat) (x : W32), s.arg = .word k x → s.eventQ = some q →
    (q.dropped = 0 ∨ q.cfg.count ≤ (q.tail - x).toNat → Leads .eventQueueHeadMove s fun t => t.eventQ = some { q with head := x }) ∧
    (0 < q.dropped → (q.tail - x).toNat < q.cfg.count → Leads .eventQueueHeadMove s fun t =>
      t.eventQ = some { q with head := x, dropped := 0, tail := q.tail + 1, seq := q.seq + 1 })

/-- A packet leaves by the port of its next hop, ordered ones by HOP0, and is lost where that port is down; an access for this package waits in order of
its source and another packet makes its move, one for another package goes on with one hop more, or is discarded after four or with no route (log
entry 48); a remote load, fill, store, granule, atomic or red acts on its bytes alone and is answered, one on data with an error reads none; a write
whose application fails is acknowledged and not counted (that it fails is an input, log entry 24); writes are counted by flow and interval; atomic
lines are returned; a response, taken with the near part of the same access, or a timeout ends the requester's access; an error of a read is kept for
its lane until every answer has come. The package number comes with the link (model: log entry 86). The form of packets is the model's choice (log
entry 17). (13 R424, 13 R425, 13 R426, 13 R427, 13 R428, 13 R429, 09 R316, 09 R317) -/
def Obligations.FabricPackets : Prop :=
  (∀ (s : State) (p : Packet),
    (s.routed p.dst = true → s.ports.down.getLsbD (s.hopPort p) = false → s.sendPacket p = { s with out := s.out ++ [.packet (s.hopPort p) p] }) ∧
    (s.routed p.dst = false ∨ s.ports.down.getLsbD (s.hopPort p) = true → s.sendPacket p = s) ∧
    let e := (s.routes.getD p.dst 0).toNat
    (unordered p.req = false → s.hopPort p = bits e 3 0) ∧ (unordered p.req = true → ∃ i ≤ bits e 17 16, s.hopPort p = bits e (4 * i + 3) (4 * i))) ∧
  (∀ (s : State) (p : Packet), s.arg = .packet p →
    (p.dst = s.pkg → isAccess p.req = true → exec .fabricPacketArrival s = .next { s with arrived := s.arrived ++ [p] }) ∧
    (p.dst = s.pkg → isAccess p.req = false →
      (∀ i a, s.packetMove p = some (i, a) → exec .fabricPacketArrival s = .next (s.propose i a)) ∧ (s.packetMove p = none → exec .fabricPacketArrival s = .next s) ∧
      (p.req = .query → s.packetMove p = some (.countQuery, .packet p)) ∧ (∀ v, p.req = .notice v → s.packetMove p = some (.versionNotice, .word p.src v)) ∧
      (∀ h bs, p.req = .record h bs → s.packetMove p = some (.remoteRecordArrival, .message h bs)) ∧
      (∀ ep n, p.req = .grant ep n → s.packetMove p = some (.slotGrant, .three p.src ep n)) ∧
      ∀ bs r, p.req = .answer bs → (s.remotes.find? fun x => x.id == p.id && x.target == p.src && x.target != s.pkg) = some r → r.lane ≠ 65 →
        s.packetMove p = some (.remoteResponseArrival, .bytes p.id bs)) ∧
    (p.dst ≠ s.pkg → 4 ≤ p.hop ∨ s.routed p.dst = false →
      (s.eventQ = none → exec .fabricPacketArrival s = .next { s with ports := { s.ports with discarded := s.ports.discarded + 1 } }) ∧
      (s.eventQ ≠ none → Leads .fabricPacketArrival s fun t => t.ports.discarded = 0 ∧ t.arrived = s.arrived ∧ t.remotes = s.remotes)) ∧
    (p.dst ≠ s.pkg → p.hop < 4 → s.routed p.dst = true → exec .fabricPacketArrival s = .next (s.sendPacket { p with hop := p.hop + 1 }))) ∧
  (∀ (s : State), (∀ port sub far, s.arg = .link port sub far → port < 12 → sub.toNat ≤ 2 → Leads .fabricLinkChange s fun t =>
      ∀ k < 12, t.ports.down.getLsbD k = if k = port then sub == 0 else s.ports.down.getLsbD k) ∧
    ∀ n, s.arg = .id n → n < 128 → exec .fabricLinkChange s = .next { s with pkg := n }) ∧
  (∀ (s : State) (p : Packet), s.arg = .packet p →
    let queue := if p ∈ s.arrived then s.arrived else s.arrived ++ [p]
    let first := (queue.find? fun q => q.src == p.src) = some p
    let reply := fun ans => (s.sendPacket ⟨s.pkg, p.src, 0, p.prio, p.offset, p.width, none, p.flow, p.interval, p.id, .answer ans⟩).out
    (p.dst ≠ s.pkg ∨ ¬first → exec .remoteAccessIngress s = .next { s with arrived := queue }) ∧
    (p.dst = s.pkg → first → (∀ r ∈ packetRuns p, s.underTest (.pa r.1) r.2 = false) →
      (p.req = .load → Leads .remoteAccessIngress s fun t => t.mem = s.mem ∧ t.arrived = queue.erase p ∧ t.counts = s.counts ∧
        t.out = reply (s.ingressBytes (packetRuns p))) ∧
      (p.req = .fill → Leads .remoteAccessIngress s fun t => t.mem = s.mem ∧ t.arrived = queue.erase p ∧ p.src ∈ t.larder.filledBy ∧
        let bs := s.ingressRead (p.offset / 128 * 128) 128
        t.out = reply (if bs = [] then [] else bs ++ leBytes 4 s.larder.version.toNat)) ∧
      (∀ line, versionStore p = none → p.req ≠ .load → p.req ≠ .fill → (packetRuns p).findSome? (fun r => s.hostLine (.pa r.1) r.2) = some line →
        exec .remoteAccessIngress s = .next (State.backInvalidate { s with arrived := queue } line)) ∧
      (versionStore p = none → (∀ r ∈ packetRuns p, s.hostLine (.pa r.1) r.2 = none) → s.mem.wf = true →
        let done := fun t : State => t.arrived = queue.erase p
        (∀ xs, p.req = .store xs ∨ p.req = .granule xs → Leads .remoteAccessIngress s fun t => done t ∧ t.out = reply [] ∧
          t.counts = (s.countWrite p.src p.flow p.interval).counts ∧
          let runs := (p.offset, xs.take p.width) :: (match p.more with | some (a, n) => [(a, (xs.drop p.width).take n)] | none => [])
          ∀ k, t.mem.get k = match (runs.filter fun r => isHbm r.1).reverse.find? fun r => decide (r.1 ≤ k ∧ k < r.1 + r.2.length) with
            | some r => r.2.getD (k - r.1) 0
            | none => s.mem.get k) ∧
        (∀ op x c, p.req = .atomic op x c → isHbm p.offset = false → Leads .remoteAccessIngress s fun t => done t ∧
          t.out = reply (List.replicate p.width 0) ∧ t.mem = s.mem) ∧
        (∀ op x c, p.req = .atomic op x c → isHbm p.offset = true → s.errorAt (.pa p.offset) p.width ≠ none → Leads .remoteAccessIngress s fun t => done t ∧
          t.out = reply [] ∧ t.mem = s.mem) ∧
        (∀ op x c, p.req = .atomic op x c → isHbm p.offset = true → s.errorAt (.pa p.offset) p.width = none → p.width ≠ 0 →
          let old := s.readPa p.offset p.width
          Leads .remoteAccessIngress s fun t => done t ∧ t.out = reply old ∧ t.counts = s.counts ∧
            ∀ k, t.mem.get k = match atomicBytes op old x c with
              | some r => if p.offset ≤ k ∧ k < p.offset + r.length then r.getD (k - p.offset) 0 else s.mem.get k
              | none => s.mem.get k) ∧
        ∀ op x, p.req = .red op x → isHbm p.offset = true → p.width ≠ 0 → Leads .remoteAccessIngress s fun t => done t ∧ t.out = reply [] ∧
          t.counts = (s.countWrite p.src p.flow p.interval).counts ∧ (s.errorAt (.pa p.offset) p.width ≠ none → t.mem = s.mem) ∧
          (s.errorAt (.pa p.offset) p.width = none → ∀ k, t.mem.get k = match atomicBytes op (s.readPa p.offset p.width) x 0 with
            | some r => if p.offset ≤ k ∧ k < p.offset + r.length then r.getD (k - p.offset) 0 else s.mem.get k
            | none => s.mem.get k)) ∧
      ∀ xs, versionStore p = some xs →
        let k := versionPeer p
        let asked := s.larder.newVersion.any (fun x => x.1 == k) || s.larder.writes.any fun x => x.1 == k
        let t : State := { s with arrived := queue }
        (asked = true → exec .remoteAccessIngress s = .next t) ∧
        (asked = false → exec .remoteAccessIngress s = .next (t.proposeFirst .shardVersionWrite (.word k (versionAfter s.larder.latest p.offset xs)))))) ∧
  (∀ (s : State) (p : Packet), s.arg = .two p.src p.id → (s.arrived.find? fun q => q.src == p.src) = some p → reqCounted p.req = true →
    exec .remoteAccessIngress s = .next (({ s with arrived := s.arrived.erase p } : State).sendPacket
      ⟨s.pkg, p.src, 0, p.prio, p.offset, p.width, none, p.flow, p.interval, p.id, .answer []⟩)) ∧
  (∀ (s : State) (p : Packet), s.arg = .packet p → let found := s.counts.find? fun c => c.names p.src p.flow p.interval
    Leads .countQuery s fun t => (∀ c ∈ t.counts, c.names p.src p.flow p.interval = false) ∧
      t.out = (s.sendPacket ⟨s.pkg, p.src, 0, p.prio, 0, 0, none, p.flow, p.interval, p.id,
        .count (match found with | some c => if c.unknown = true then none else some c.count | none => some 0)⟩).out) ∧
  (∀ (s : State) (src flow interval : Nat), s.arg = .three src flow interval →
    Leads .countEntryAgeOut s fun t => ∀ c ∈ t.counts, c.names src flow interval = true → c.unknown = false → s.clock < c.touched + 16000000) ∧
  (∀ (s : State) (line : Nat), s.arg = .id line →
    ((∃ i ∈ s.ingress, i.line = line ∧ i.lastAtomic + 3200 ≤ s.clock) →
      exec .atomicCacheLeaseExpiry s = .next { s with ingress := s.ingress.filter fun i => i.line != line }) ∧
    exec .atomicCacheRecall s = .next { s with ingress := s.ingress.filter fun i => i.line != line }) ∧
  ∀ (s : State) (r : Remote) (w : Warp), r.target ≠ s.pkg → s.warp? r.warp = some w →
    let failed := fun (t : State) (p : W64 → Nat → Prop) => (∀ x ∈ t.remotes, x.id ≠ r.id) ∧ t.mem = s.mem ∧ ∃ v va n, t.warp? r.warp = some v ∧
      v.remoteOpen = w.remoteOpen - 1 ∧ p va n ∧ ∀ q, r.lane < w.width → (w.lane r.lane).plan = some q →
        (v.lane r.lane).plan = some { q with bad := some (q.bad.getD (va, n)) }
    (∀ bs, s.arg = .bytes r.id bs → (s.remotes.find? fun x => x.id == r.id && x.target != s.pkg) = some r → r.counted = true → r.reader = none →
      (∀ near, r.isRead = true → bs ≠ [] → s.nearBytes r = .ok near → Leads .remoteResponseArrival s fun t => (∀ x ∈ t.remotes, x.id ≠ r.id) ∧ t.mem = s.mem ∧
        ∃ v, t.warp? r.warp = some v ∧ v.remoteOpen = w.remoteOpen - 1 ∧ ∀ g, r.lane < w.width → (w.lane r.lane).got = some g →
          (v.lane r.lane).got = some (near.foldl (fun g x => overlay g x.1 x.2) (overlays g r.spots bs))) ∧
      (∀ va n, r.isRead = true → bs ≠ [] → s.nearBytes r = .error (va, n) → Leads .remoteResponseArrival s fun t => failed t fun a k => a = va ∧ k = n) ∧
      (r.isRead = true → bs = [] → Leads .remoteResponseArrival s fun t => failed t fun a k => a = r.va ∧ 1 ≤ k ∧ k ≤ 3) ∧
      (r.isRead = false → Leads .remoteResponseArrival s fun t => (∀ x ∈ t.remotes, x.id ≠ r.id) ∧
        ∃ v, t.warp? r.warp = some v ∧ v.remoteOpen = w.remoteOpen - 1)) ∧
    (∀ bs a, s.arg = .bytes r.id bs → (s.remotes.find? fun x => x.id == r.id && x.target != s.pkg) = some r → r.lane = 67 → r.reader = some a → bs ≠ [] →
      Leads .remoteResponseArrival s fun t => t.fetched = s.fetched ++ [(a, r.va.toNat, .inr bs)] ∧ t.warps = s.warps ∧ t.mem = s.mem) ∧
    (s.arg = .id r.id → (s.remotes.find? fun x => x.id == r.id && x.target != s.pkg && decide (x.issued + 320000 ≤ s.clock)) = some r → r.counted = true →
      r.reader = none → (r.isRead = true → Leads .remoteTimeout s fun t => failed t fun a k => a = r.va ∧ k = 6) ∧
      (r.isRead = false → Leads .remoteTimeout s fun t => ∃ v, t.warp? r.warp = some v ∧ v.remoteOpen = w.remoteOpen - 1))

/-- A remote record that came before, taken or refused, changes nothing; one for no bound endpoint, of a package that is no sender, or for a slot that is
taken is refused; any other is held in its slot and waits for its node's pool. An acknowledgement settles its lane's status; a grant, a return and a
revocation of slots move credits and wake who waits, or end it FAILED; a package that the transport has given up fails the records on their way to it
unless a route leads there. When a record is acknowledged is the model's reading (log entry 72); that a refused one takes its credit with it is its
choice (log entry 83); other points of records and peers: log entries 47 and 49. (08 R283, 08 R284, 13 R430, 13 R431, 13 R432) -/
def Obligations.FabricRecords : Prop :=
  (∀ (s : State) (tenant : BitVec 16) (slot n ep src : Nat) (rseq : W32) (bs : List Byte), slot < 65536 → 0 < n → n ≤ 16 → ep < 16 → src < 256 →
    s.arg = .message (recordHeader tenant slot (16 * n) ep src rseq) bs →
    let seen := (ep, src, rseq) ∈ s.seen
    let refused := fun t : State => ∃ u : State, t = u.tellPkg src 0 (.recordAck ep rseq false) ∧ u = { s with seen := u.seen } ∧ (ep, src, rseq) ∈ u.seen
    (seen → exec .remoteRecordArrival s = .next s) ∧
    (¬seen → s.takesRecord ep tenant (16 * n) = none → Leads .remoteRecordArrival s refused) ∧
    ∀ e, ¬seen → s.takesRecord ep tenant (16 * n) = some e →
      (src ∉ e.senders ∨ (∃ h ∈ e.held, h.src = src ∧ h.sslot = slot) → Leads .remoteRecordArrival s refused) ∧
      ∀ l, src ∈ e.senders → (∀ h ∈ e.held, h.src = src → h.sslot ≠ slot) → s.launch? e.launch = some l → Leads .remoteRecordArrival s fun t =>
        t.out = s.out ∧ t.mem = s.mem ∧ t.warps = s.warps ∧
        t.launch? l.id = some { l with senders := l.senders ++ [⟨none, some (ep, src, slot), ⟨e.node, 0, bs.take (16 * n)⟩, s.clock, none⟩] } ∧
        ∃ e' ∈ t.endpoints, e'.ep = ep ∧ ⟨src, slot, rseq, bs.take (16 * n)⟩ ∈ e'.held ∧ (ep, src, rseq) ∈ t.seen) ∧
  (∀ (s : State) (r : Remote) (ok : Bool) (w : Warp), s.arg = .flag r.id ok → (s.remotes.find? fun x => x.id == r.id && x.lane == 66) = some r →
    s.warp? r.warp = some w → r.off < w.width → Leads .recordAckArrival s fun t => t.remotes = (s.remotes.filter fun x => x.id != r.id) ∧ t.mem = s.mem ∧
      ∃ v, t.warp? r.warp = some v ∧ (v.lane r.off).got = some [if ok then 0 else 3]) ∧
  (∀ (s : State) (pkg ep n : Nat), s.arg = .three pkg ep n → Leads .slotGrant s fun t =>
    (∃ c ∈ t.credits, c.pkg = pkg ∧ c.ep = ep ∧ c.free = n ∧ c.granted = n ∧ c.rseq = 0) ∧ pkg ∉ t.ports.peers ∧ t.mem = s.mem ∧
      ∀ w ∈ t.warps, ∀ l ∈ w.live, ∀ k, (w.lane l).wait ≠ .credit pkg ep k) ∧
  (∀ (s : State) (pkg ep : Nat), s.arg = .two pkg ep → (∃ c ∈ s.credits, c.pkg = pkg ∧ c.ep = ep ∧ c.free < c.granted) → Leads .creditReturn s fun t =>
    (∀ c ∈ s.credits, c.pkg = pkg → c.ep = ep → { c with free := c.free + 1 } ∈ t.credits) ∧ t.mem = s.mem ∧
      ∀ w ∈ t.warps, ∀ l ∈ w.live, ∀ k, (w.lane l).wait ≠ .credit pkg ep k) ∧
  (∀ (s : State) (pkg ep : Nat), s.arg = .two pkg ep → Leads .slotRevoke s fun t =>
    (∀ c ∈ t.credits, c.pkg = pkg → c.ep = ep → c.free = 0 ∧ c.granted = 0) ∧ t.mem = s.mem ∧
      (∀ w ∈ t.warps, ∀ l ∈ w.live, ∀ k, (w.lane l).wait ≠ .credit pkg ep k) ∧
      ∀ w, s.warp? w.id = some w → ∀ l k, w.live.find? (fun i => match (w.lane i).wait with | .credit p e _ => p == pkg && e == ep | _ => false) = some l →
        (w.lane l).wait = .credit pkg ep k → k < w.width → ∃ v, t.warp? w.id = some v ∧ (v.lane k).got = some [3]) ∧
  ∀ (s : State) (port : Nat) (x : W32), s.arg = .word port x → Leads .peergone s fun t => x.toNat ∈ t.ports.peers ∧
    (s.routed x.toNat = true → t.remotes = s.remotes ∧ t.warps = s.warps) ∧
    (s.routed x.toNat = false → (∀ r ∈ t.remotes, r.lane = 66 → r.target ≠ x.toNat) ∧
      ∀ r ∈ s.remotes, ∀ w, r.lane = 66 → r.target = x.toNat → s.warp? r.warp = some w → r.off < w.width →
        ∃ v, t.warp? r.warp = some v ∧ (v.lane r.off).got = some [3])

/-- A new shard version waits while another store changes the version; in its turn every package that has filled since the last change gets a notice, and
where none has, or nothing changes, the version is written at once; the last acknowledgement writes it, and the store is answered. A notice removes
the owner's lines, raises the version seen and is acknowledged. A fill that was asked for enters the Larder unless its version is older than the one
seen. (10 R339, 10 R340) -/
def Obligations.ShardVersions : Prop :=
  (∀ (s : State) (v : W32) (k : Nat), s.arg = .word k v →
    (s.larder.newVersion ≠ none → exec .shardVersionWrite s = .next { s with larder := { s.larder with writes := s.larder.writes ++ [(k, v)] } }) ∧
    (s.larder.newVersion = none → s.larder.writes = [] → s.larder.filledBy = [] ∨ s.larder.version = v → Leads .shardVersionWrite s fun t =>
      t.larder.version = v ∧ t.larder.newVersion = none ∧ t.larder.filledBy = s.larder.filledBy ∧ t.mem = s.mem ∧
        (k % 2 = 0 → t.out = s.out ∧ ∀ r ∈ t.remotes, ¬(r.id = k / 2 ∧ r.target = s.pkg))) ∧
    (s.larder.newVersion = none → s.larder.writes = [] → s.larder.filledBy ≠ [] → s.larder.version ≠ v →
      exec .shardVersionWrite s = .next (s.larder.filledBy.foldl (fun t p => t.tellPkg p 0 (.notice v))
        { s with larder := { s.larder with newVersion := some (k, v), awaiting := s.larder.filledBy, filledBy := [] } }))) ∧
  (∀ (s : State) (p k : Nat) (v : W32), s.arg = .id p → s.larder.newVersion = some (k, v) →
    ((∀ q ∈ s.larder.awaiting, q = p) → s.larder.writes = [] → Leads .versionNoticeAcknowledgement s fun t =>
      t.larder.version = v ∧ t.larder.newVersion = none ∧ t.larder.awaiting = [] ∧ t.mem = s.mem ∧
        (k % 2 = 0 → t.out = s.out ∧ ∀ r ∈ t.remotes, ¬(r.id = k / 2 ∧ r.target = s.pkg))) ∧
    ((∃ q ∈ s.larder.awaiting, q ≠ p) → exec .versionNoticeAcknowledgement s =
      .next { s with larder := { s.larder with awaiting := s.larder.awaiting.filter fun x => x != p } })) ∧
  (∀ (s : State) (owner : Nat) (v : W32), s.arg = .word owner v → ∃ t : State, exec .versionNotice s = .next (t.tellPkg owner 0 .noticeAck) ∧
    t = { s with larder := t.larder } ∧ (∀ x ∈ t.larder.lines, x.owner ≠ owner) ∧ (∀ x ∈ s.larder.lines, x.owner ≠ owner → x ∈ t.larder.lines) ∧
    ∃ y ∈ t.larder.versions, y.1 = owner ∧ v.toNat ≤ y.2.toNat) ∧
  ∀ (s : State) (owner : Nat) (tenant : BitVec 16) (va : W64) (v : W32) (bs : List Byte) (r : Remote) (w : Warp) (b : Block) (l : Launch),
    s.arg = .fill owner tenant va v bs → s.larder.units ≠ 0 → r ∈ s.remotes → r.lane = 65 → r.target = owner → r.va = va → s.anyWarp? r.warp = some w →
    s.anyBlock? w.block = some b → s.launch? b.launch = some l → l.hdr.tenant = tenant →
    let old := ((s.larder.versions.find? fun x => x.1 == owner).map (·.2)).getD 0
    Leads .larderFillResponse s fun t => r ∉ t.remotes ∧ t.mem = s.mem ∧ t.warps = s.warps ∧ (v.toNat < old.toNat → t.larder = s.larder) ∧
      (old.toNat ≤ v.toNat → ⟨tenant, owner, va.toNat % 2 ^ 57 / 128, (bs ++ List.replicate 128 0).take 128⟩ ∈ t.larder.lines)

/-- Rows join tiles of their launch, handle and format; a flush or a timer sends them; a tile whose record lies in the window gives up the rows of other
blocks (log entry 45). A sent tile whose record is bad traps in every warp with a row in it, one whose registers do not reach (REASON 0x15) only in
the warps of those instructions, with TRAPINFO the handle, TRAPAUX the record, LANE the lowest lane; their rows leave all tiles, those of the others
stay. One whose record and data are good enters the quad's table; a passed tile returns to each row the outputs R259 gives for its inputs, and memory
stays. (07 R259, 07 R261, 07 R262, 07 R264, 07 R265, 07 R267) -/
def Obligations.NetworkTilesRun : Prop :=
  (∀ (s : State) (r : NnReq), s.arg = .id r.quad → (s.quads.nnReqs.find? fun x => x.quad == r.quad) = some r →
    (r.rows = [] → Leads .tongsRequest s fun t => t.quads.nnReqs = s.quads.nnReqs.erase r ∧
      t.quads.tiles = s.quads.tiles.map (fun x => if x.quad = r.quad ∧ x.launch = r.launch then { x with sent := true } else x) ∧
      ∀ w, s.warp? r.warp = some w → t.warp? r.warp = some (w.longPart r.long [])) ∧
    (r.rows ≠ [] → Leads .tongsRequest s fun t => t.quads.nnReqs = s.quads.nnReqs.erase r ∧ ∀ x ∈ r.rows, ∃ y ∈ t.quads.tiles, x ∈ y.rows ∧ y.quad = r.quad ∧
      y.launch = r.launch ∧ y.handle = x.handle ∧ y.fmt = x.fmt ∧ (r.flush = true → x.warp = r.warp → x.long = r.long → y.sent = true))) ∧
  (∀ (s : State) (id : Nat), s.arg = .id id → Leads .tongsTimerExpiry s fun t =>
    t.quads.tiles = s.quads.tiles.map (fun x => if x.id = id ∧ x.firstAt + x.timer ≤ s.clock then { x with sent := true } else x) ∧ t.warps = s.warps) ∧
  (∀ (s : State) (y : Tile) (l : Launch) (w0 : Warp) (g0 : List Seg), s.arg = .id y.id →
    (s.quads.tiles.find? fun x => x.id == y.id && x.sent && !x.checked) = some y → s.launch? y.launch = some l →
    s.warp? ((y.rows.map (·.warp)).headD 0) = some w0 → s.tableRoom y.quad = true →
    (inWindow y.handle = true → s.strangers y w0.block ≠ [] → Leads .tongsTileCheck s fun t =>
      (∃ z ∈ t.quads.tiles, z.id = y.id ∧ ∀ x, x ∈ z.rows ↔ x ∈ y.rows ∧ x ∉ s.strangers y w0.block) ∧
      (∃ z ∈ t.quads.tiles, z.id = s.ctr.tile ∧ z.sent = true ∧ z.checked = false ∧ z.rows = s.strangers y w0.block) ∧ t.warps = s.warps) ∧
    (s.strangers y w0.block = [] → s.reachRead ⟨l, w0.core, w0.block, .tongs w0.id⟩ y.handle 64 = .ok g0 →
    s.agentPrep ⟨l, w0.core, w0.block, .tongs w0.id⟩ g0 [] = none →
    let who : Who := ⟨l, w0.core, w0.block, .tongs w0.id⟩
    let r : NetRec := ⟨leNat (s.reachBytes who g0)⟩
    let bare := fun w o => ∃ x ∈ y.rows, x.warp = w ∧ x.long = o ∧ rowFits r x = false
    (∀ c, r.bad = some c → Leads .tongsTileCheck s fun t => TileTraps s t y (fun _ _ => True) c) ∧
    (r.bad = none → (∃ x ∈ y.rows, rowFits r x = false) → Leads .tongsTileCheck s fun t => TileTraps s t y bare 0x15) ∧
    (r.bad = none → (∀ x ∈ y.rows, rowFits r x = true) → r.misaligned = true → Leads .tongsTileCheck s fun t => TileTraps s t y (fun _ _ => True) 0x16) ∧
    ∀ gss, r.bad = none → (∀ x ∈ y.rows, rowFits r x = true) → r.misaligned = false →
      s.reachAll who (((List.range r.layers).map (· + 1)).flatMap fun k =>
        [(BitVec.ofNat 64 (r.field 63 0 + (r.weightsAt k).1), (r.weightsAt k).2), (BitVec.ofNat 64 (r.field 127 64 + (r.biasAt k).1), (r.biasAt k).2)]) = .ok gss →
      s.agentPrep who gss.flatten [] = none → Leads .tongsTileCheck s fun t =>
        (∃ z ∈ t.quads.tiles, z.id = y.id ∧ z.checked = true ∧ z.layers = r.layers ∧ z.rows = y.rows) ∧
        ∃ o ∈ t.quads.ops, o.quad = y.quad ∧ o.launch = l.id ∧ o.kind = .tongs y.id 1 ∧ o.granted = false)) ∧
  ∀ (s : State) (y : Tile), s.arg = .id y.id → (s.quads.tiles.find? fun x => x.id == y.id && x.passed) = some y →
    Leads .tongsTileResult s fun t => (∀ x ∈ t.quads.tiles, x.id ≠ y.id) ∧ t.mem = s.mem ∧ ∀ w, s.warp? w.id = some w → t.warp? w.id =
      some (y.rows.foldl (fun v x => if x.warp = w.id then
        v.longPart x.long (((NetRec.mk (leNat y.record)).eval x.fmt y.data x.inputs).zipIdx.map fun (o, k) => .v x.lane (x.dst + k) o) else v) w)

/-- The next operation of a quad is granted; a granted one does its work: zeros, a tile step of its shape, a read-out, a load; each row of a tile step is
read, gets the exact chunk sums of its products added, and is written in a later step; after its last row RUN and NEXT are 0. A read-out rounds the
elements of its window and writes them granule by granule under its destination mode (a shadow one only into one region, after the publishes sent
before it; granules marked); a load widens each element into its place of the slot. A layer of a Tongs tile makes room for the next, or the tile has
passed. A request to a ray engine that is void ends as a miss; the others start, go on, commit, end or show their query. A row is the unit of a pass
(log entry 13; its faults, log entry 43), and rays are followed in a free order (log entry 14; points that are open, log entry 46). (07 R238, 07 R247,
07 R252, 07 R261, 02 R68, 08 R275, 08 R277, 08 R279) -/
def Obligations.MatrixAndRayWorkRuns : Prop :=
  (∀ (s : State) (o : AnvilOp), s.arg = .id o.id → (s.quads.ops.find? fun p => p.id == o.id) = some o →
    (s.anvilChoice o.quad = some o → Leads .anvilPassGrant s fun t =>
      t.quads.ops = s.quads.ops.map (fun p => if p.id = o.id then { p with granted := true } else p) ∧ t.mem = s.mem ∧
      ∀ b x, s.block? o.block = some b → b.stream = some x → ∃ b', t.block? o.block = some b' ∧ b'.stream = some { x with
        run := x.run || (match o.kind with | .mmac _ _ => true | .mprol _ _ _ => true | _ => false) }) ∧
    (o.granted = true → s.agentBusy (.anvil o.id) = false →
      (∀ tile layer, o.kind = .tongs tile layer → exec .anvilPassDone s = .next (s.layerDone o tile layer)) ∧
      ∀ b l, s.anyBlock? o.block = some b → s.launch? o.launch = some l →
        (o.kind = .mzero → Leads .anvilPassDone s fun t => (∀ p ∈ t.quads.ops, p.id ≠ o.id) ∧ t.mem = s.mem ∧
          ∀ n, t.readLoc (.acc o.quad (o.slot * 65536)) n = List.replicate n 0) ∧
        (∀ a r, o.kind = .mmac a r → exec .anvilPassDone s = .next (s.tilePass o b l (.ofRec r) none)) ∧
        (∀ a r p, o.kind = .mprol a r p → exec .anvilPassDone s = .next (s.tilePass o b l (.ofRec r) (some (.ofRec p)))) ∧
        (∀ base stride word ty dm rnd sat, o.kind = .mread base stride word ty dm rnd sat →
          exec .anvilPassDone s = .next (s.readOut o b l base stride word ty dm rnd sat)) ∧
        ∀ base stride word ty, o.kind = .mwrite base stride word ty → exec .anvilPassDone s = .next (s.loadSlot o b l base stride word ty))) ∧
  (∀ (s : State) (o : AnvilOp) (b : Block) (l : Launch) (t : TileShape) (p : Option Prologue),
    (∀ rows gs i, let ra := (t.ranges p).a i
      s.reachRead (o.who b l) ra.1 ra.2 = .ok gs → s.agentPrep (o.who b l) gs [] = none → s.slotError o i (4 * t.n) = none →
      let u := s.tileRow o b l t p rows i
      let nb := t.bRows.1
      let ns := if p.isSome then t.n else 0
      let old := s.readLoc (.acc o.quad (slotOff o.slot i 0)) (4 * t.n)
      let a := (List.range t.k).map (rowElem t.aty (s.reachBytes (o.who b l) gs))
      u.quads.acc = s.quads.acc ∧ ∀ q ∈ u.quads.ops, q.id = o.id → q.unwritten = some
        (((List.range t.n).map (t.column p (rows.take nb) ((rows.drop nb).take ns) (rows.drop (nb + ns)))).zipIdx.flatMap fun (col, j) =>
          leBytes 4 (accumulate t.chunk (leNat ((old.drop (4 * j)).take 4)) (List.zipWith XReal.mul a col)))) ∧
    (∀ row x, o.unwritten = some row → s.anyBlock? b.id = some b → b.stream = some x → o.block = b.id → x.next + 1 < t.m →
      let u := s.tilePass o b l t p
      u.quads.acc = (s.writeLoc (.acc o.quad (slotOff o.slot x.next 0)) row).quads.acc ∧ (∀ q ∈ u.quads.ops, q.id = o.id → q.unwritten = none) ∧
        ∃ b', u.anyBlock? b.id = some b' ∧ b'.stream = some { x with next := x.next + 1 }) ∧
    (∀ row x, o.unwritten = some row → s.anyBlock? b.id = some b → b.stream = some x → x.exited = false → o.block = b.id → t.m ≤ x.next + 1 →
      (s.tilePass o b l t p).quads.acc = (s.writeLoc (.acc o.quad (slotOff o.slot x.next 0)) row).quads.acc ∧ StepEnds (s.tilePass o b l t p) o x) ∧
    (∀ x, o.unwritten = none → b.stream = some x → t.m ≤ x.next → (∀ q ∈ (s.tilePass o b l t p).quads.ops, q.id ≠ o.id) ∧
      (s.anyBlock? b.id = some b → x.exited = false → o.block = b.id → StepEnds (s.tilePass o b l t p) o x))) ∧
  (∀ (s : State) (o : AnvilOp) (b : Block) (l : Launch) (base stride word : W64) (ty : Nat), let w := SlotWindow.ofWord word
    let z := typeBytes ty
    let begun := s.modOp o.id fun q => { q with parts := some ((List.range w.nr).flatMap fun i =>
      (List.range (w.nc / (16 / z))).map fun j => ⟨w.frow + i, w.fcol + 16 / z * j, 16 / z, none⟩) }
    let place := fun (p : SlotPart) => base + BitVec.ofNat 64 (p.row - w.frow) * stride + BitVec.ofNat 64 ((p.col - w.fcol) * z)
    (∀ dm rnd sat, let u := (s.readOut o b l base stride word ty dm rnd sat);
      (o.parts = none → dm ≠ 1 → u = begun) ∧
      (∀ gs, o.parts = none → dm = 1 → s.reachDest (o.who b l) 1 (windowRows base stride word ty) = .ok gs →
        (oneRegion gs = none → (∀ q ∈ u.quads.ops, q.id ≠ o.id) ∧ u.mem = s.mem) ∧
        ∀ d, oneRegion gs = some d → u = if s.pubBefore d o.sentAt = true then s else begun) ∧
      (o.parts = some [] → s.unacked o.id = false → ∀ q ∈ u.quads.ops, q.id ≠ o.id) ∧
      ∀ ps gs, o.parts = some ps → ps ≠ [] → let now := (s.someOf ps).1
        s.reachDest (o.who b l) dm (now.map fun p => (place p, 16)) = .ok gs → (dm = 1 → ∀ g ∈ gs, g.buf ≠ none) → s.agentPrep (o.who b l) [] gs = none →
        (∀ p ∈ now, s.slotError o p.row 512 = none) → s.pageError gs = none →
        let xs := now.flatMap fun p => ((readOutRow w ((floatOf ty).getD .f32) rnd sat (s.slotRow o p.row)).drop ((p.col - w.fcol) * z)).take 16
        let t := (s.useSegs gs).engineWrites o.id 0 (dm == 2) gs xs
        u = (if dm = 1 then t.markWritten gs else t).modOp o.id fun q => { q with parts := some (s.someOf ps).2 }) ∧
    (∀ i < 128, s.slotRow o i = (List.range 128).map fun j => widen .f32 (leNat (s.readLoc (.acc o.quad (slotOff o.slot i j)) 4))) ∧
    (∀ f rnd sat row mode, RMode.ofCode rnd = some mode → mode ≠ .rs → readOutRow w f rnd sat row =
      (List.range w.nc).flatMap fun k => leBytes (f.width / 8) (roundTo f (row.getD (w.fcol + k) .nan) mode sat 0)) ∧
    (let u := (s.loadSlot o b l base stride word ty);
      (o.parts = none → u = begun) ∧ (o.parts = some [] → ∀ q ∈ u.quads.ops, q.id ≠ o.id) ∧
      ∀ ps gss, o.parts = some ps → ps ≠ [] → let now := (s.someOf ps).1
        let src := now.filter fun p => p.xs.isNone
        s.reachAll (o.who b l) (src.map fun p => (place p, 16)) = .ok gss → s.agentPrep (o.who b l) gss.flatten [] = none →
        u = (now.foldl (fun s p => match p.xs with | some xs => s.writeSite none none (.acc o.quad (slotOff o.slot p.row p.col)) xs | none => s)
          (s.useReads 0 gss.flatten)).modOp o.id fun q =>
            { q with parts := some ((s.someOf ps).2 ++ (src.zip gss).flatMap fun (p, gs) => slotGranules ty p (s.reachBytes (o.who b l) gs)) }) ∧
    ∀ (p : SlotPart) xs, ∀ k < p.n, ∃ q ∈ slotGranules ty p xs, ∃ ys, q.xs = some ys ∧ q.row = p.row ∧ q.col ≤ p.col + k ∧ p.col + k < q.col + q.n ∧
      (ys.drop (4 * (p.col + k - q.col))).take 4 = leBytes 4 (roundTo .f32 (rowElem ty xs k) .rn)) ∧
  (∀ (s : State) (o : AnvilOp) (tile layer : Nat) (y : Tile), (s.quads.tiles.find? fun t => t.id == tile) = some y →
    let u := s.layerDone o tile layer
    let rest := s.quads.ops.filter (fun p => p.id != o.id)
    u.mem = s.mem ∧ u.quads.acc = s.quads.acc ∧
    (layer < y.layers → u.quads.tiles = s.quads.tiles ∧
      u.quads.ops = rest ++ [{ o with id := s.ctr.cmd, kind := .tongs tile (layer + 1), granted := false, arrived := s.cycles }]) ∧
    (y.layers ≤ layer → u.quads.ops = rest ∧ u.quads.tiles = s.quads.tiles.map fun t => if t.id = tile then { t with passed := true } else t)) ∧
  ∀ (s : State) (r : RayReq) (w : Warp) (b : Block) (l : Launch), s.arg = .two w.id r.lane → r.warp = w.id →
    (s.rays.find? fun x => x.warp == w.id && x.lane == r.lane) = some r → s.warp? w.id = some w → s.anyBlock? w.block = some b → s.launch? b.launch = some l →
    s.agentBusy (.ray w.id r.lane) = false → (∀ x ∈ s.remotes, x.lane = 65 → x.warp ≠ w.id) →
    let q := (w.lane r.lane).query
    let ends := fun words q' => Leads .rayTraversalDone s fun t => RayEnds s t r w words q'
    let goes := fun q' => exec .rayTraversalDone s = .next (s.traverse r w ⟨l, w.core, w.block, .ray w.id r.lane⟩ 4096 q')
    (r.act = .trace → if rayVoid r.ray = true then ends (missWords r.ray) ((RayQuery.start r).ended (missWords r.ray)) else goes (RayQuery.start r)) ∧
    (r.act = .run → goes q) ∧ (r.act = .query → ends q.shown q) ∧
    (r.act = .next → if q.state = .cand then goes { q with cand := none, state := .none } else ends q.shown q) ∧
    (r.act = .hit → if q.state = .cand then goes (if bits q.ctl.toNat 11 11 = 1 then { q.commit with items := [] } else q.commit) else ends q.shown q) ∧
    (r.act = .hitEnd → if q.state = .cand then ends (q.commit.final false) (q.commit.ended (q.commit.final false)) else ends q.shown q) ∧
    (r.act = .finish → if q.state = .cand then ends (q.final false) (q.ended (q.final false)) else ends q.shown RayQuery.empty) ∧
    ∀ n q', q'.items = [] → RayEnds s (s.traverse r w ⟨l, w.core, w.block, .ray w.id r.lane⟩ (n + 1) q') r w (q'.final true) (q'.ended (q'.final true))

/-- A command begins once its operands can be reached (a shadow destination outside one region ends NOTBUF and writes nothing), reads an index list once,
and then moves granule by granule: in one move some of those left, in an order that is open (the model's choice, log entry 13), their sources read and
each written; a shadow write marks its granules. A coded block is read in one move, checked, expanded and written to the shadow copy; a third stale
copy fails (log entry 44). A publish waits for the shadow commands and publishes sent before it, ends with the status of a spoiled region, and else
carries to the shadow copy what no engine wrote, turns FRONT, counts PCOUNT, empties the region's marks and changes no other byte (that it waits for
earlier publishes too, and its errors: log entry 91). A checkpoint takes the image at one event, with the layout of R232, and writes it granule by
granule; a second one meanwhile ends BUSY. The command ends with its record written and its channel counting one less; a failure or a cancellation
ends it with its status sticky, its regions spoiled (log entry 42) and its trap held for its warp (log entry 28). Which commands are cancelled: log
entry 44. (06 R213, 06 R214, 06 R216, 06 R217, 06 R218, 06 R219, 06 R223, 06 R224, 06 R225, 06 R227, 06 R231, 06 R232) -/
def Obligations.EngineCommandsRun : Prop :=
  (∀ (s : State) (c : EngCmd) (l : Launch), CmdFree s c l → c.pub = none → c.phase = 0 →
    (∀ t, c.stat ≠ 6 → s.engData c l = .wait t → exec .engineCommandDone s = .next t) ∧
    (∀ u fin, c.stat ≠ 6 → s.engData c l = .ok u fin → u.unacked c.id = false →
      let c1 := { c with phase := 1, stat := 1, fva := 0, fin := fin }
      let u1 := (u.dropWait (.engine c.id)).modCmd c.id fun _ => c1
      (c.recAddr = none → Leads .engineCommandDone s fun t => CmdEnds u t c false ∧ t.mem = u.mem) ∧
      ∀ va ws, c.recAddr = some va → u1.reachDest (c.who l) 0 [(va, 16)] = .ok ws → u1.agentPrep (c.who l) [] ws = none →
        (∀ g ∈ ws, ∀ a, g.loc = .pa a → isFabric a = false) → Leads .engineCommandDone s fun t => CmdEnds u t c false ∧
          t.mem = ((u1.useSegs ws).engineWrites c.id c.warp false ws c1.record).mem) ∧
    (c.recAddr = none → s.unacked c.id = false →
      (∀ st fva trap, c.stat ≠ 6 → c.op ≠ .pub → s.engData c l = .fail st fva trap → st ≠ 1 → Leads .engineCommandDone s fun t =>
        CmdEnds s t c true ∧ t.mem = s.mem ∧ (∀ d ∈ s.cmdRegions c l, (t.region d).spoil = some ((s.region d).spoil.getD (BitVec.ofNat 8 st))) ∧
        ∀ x w, trap = some x → s.warp? c.warp = some w → w.live ≠ [] →
          ∃ v, t.warp? c.warp = some v ∧ v.asyncs = holdAsync ⟨x.1, x.2.1, x.2.2, c.addr⟩ w.asyncs) ∧
      (c.stat = 6 → Leads .engineCommandDone s fun t => CmdEnds s t c true ∧ t.mem = s.mem))) ∧
  (∀ (s : State) (c : EngCmd) (l : Launch), let n := c.c.toNat
    let keep := fun (es : List Granule) => EngRes.wait (s.modCmd c.id fun x => { x with left := some es })
    (c.left = none → (c.op = .copy ∨ c.op = .fill ∨ c.op = .mckpt) → n = 0 → s.engData c l = .ok s 0) ∧
    (c.left = none → n ≠ 0 → c.op = .copy → s.engData c l = s.engBegin c l [(c.a, n)] (if c.unz then [⟨0, c.b, c.a⟩] else rangeGranules c.b c.a n)) ∧
    (c.left = none → n ≠ 0 → c.op = .fill → s.engData c l = s.engBegin c l [(c.a, n)] (rangeGranules 0 c.a n)) ∧
    (∀ t es, c.left = none → (c.op = .gather ∨ c.op = .scatter) → c.list = none → s.readList (c.who l) c = .ok t es →
      s.engData c l = .wait (t.modCmd c.id fun x => { x with list := some es })) ∧
    (∀ es, c.left = none → c.list = some es →
      (c.op = .gather → s.engData c l = s.engBegin c l [(c.a, elemCount c.imm * elemBytes c.imm)] (elemGranules (elemBytes c.imm) es)) ∧
      (c.op = .scatter → s.scatterCheck (c.who l) c es = none → s.engData c l = keep (elemGranules (elemBytes c.imm) es)) ∧
      ∀ va, c.op = .scatter → s.scatterCheck (c.who l) c es = some (va, .bad) → s.engData c l = .fail (if c.dm = 1 then 5 else 2) va none) ∧
    (∀ ds gs, (c.dm ≠ 1 → s.engBegin c l ds gs = keep gs) ∧ ∀ ws, c.dm = 1 → s.reachDest (c.who l) 1 ds = .ok ws →
      s.engBegin c l ds gs = if oneRegion ws = none then .fail 5 0 none else keep gs) ∧
    (∀ gs, c.left = some gs → (c.op = .copy → c.unz = false → s.engData c l = s.engMove c l gs n) ∧ (c.op = .fill → s.engData c l = s.engMove c l gs n) ∧
      (c.op = .gather ∨ c.op = .scatter → s.engData c l = s.engMove c l gs (elemCount c.imm)) ∧ (c.op = .mckpt → s.engData c l = s.engMove c l gs imageBytes) ∧
      ∀ g, c.op = .copy → c.unz = true → gs.head? = some g → s.engData c l = s.unzip c l g.elem g.src) ∧
    (∀ gs fin, let now := (s.someOf gs).1
      let rest := (s.someOf gs).2
      ((now ++ rest).Perm gs ∧ (gs ≠ [] → now ≠ [])) ∧
      ∀ gss ws, (c.op.reads = true → s.reachAll (c.who l) (now.map fun g => (g.src, 16)) = .ok gss) → (c.op.reads = false → gss = []) →
        s.reachDest (c.who l) c.dm (now.map fun g => (g.dst, 16)) = .ok ws → s.pageError ws = none →
        ((c.dm = 1 ∧ ∃ g ∈ ws, g.buf = none) → s.engMove c l gs fin = .fail 5 0 none) ∧
        ((c.dm = 1 → ∀ g ∈ ws, g.buf ≠ none) → s.agentPrep (c.who l) gss.flatten ws = none →
          let xs := match c.op with
            | .fill => (List.range (16 * now.length)).map fun i => BitVec.ofNat 8 (c.b.toNat / 256 ^ (i % 8))
            | .mckpt => now.flatMap fun g => (c.image.drop g.elem).take 16
            | _ => s.reachBytes (c.who l) gss.flatten
          let t := ((s.useReads c.hint gss.flatten).useSegs ws).engineWrites c.id c.warp (c.dm == 2) ws xs
          let t := if c.dm = 1 then t.markWritten ws else t
          s.engMove c l gs fin = if rest = [] then .ok t fin else .wait (t.modCmd c.id fun x => { x with left := some rest }))) ∧
    (∀ gs, ∀ g ∈ gs, ∀ d, g.buf = some d → (∀ h ∈ gs, h.buf = some d) → ∀ i < ceilDiv g.n 16,
      (g.va.toNat - bits (s.numPa d 64) 127 64) / 16 + i ∈ ((s.markWritten gs).region d).written ∧ ((s.markWritten gs).region d).spoil = (s.region d).spoil) ∧
    (∀ at' va g1, s.reachRead (c.who l) va 16 = .ok g1 → s.agentPrep (c.who l) g1 [] = none →
      let h := leNat (s.reachBytes (c.who l) g1)
      let slot := s.codec.slot (c.imm.toNat % 16) (blockSlot h)
      (blockGen h ≠ slot.1 → (c.stale.1 = va.toNat → 2 ≤ c.stale.2 → s.unzip c l at' va = .fail 9 0 (some (0xB, 0, va))) ∧
        (c.stale.1 ≠ va.toNat ∨ c.stale.2 < 2 → ∃ t, s.unzip c l at' va = .wait t ∧ t.mem = s.mem)) ∧
      ∀ g2 ys ws, blockGen h = slot.1 → bits h 31 24 ≤ 12 → s.reachRead (c.who l) (va + 16) (blockPayload h) = .ok g2 → s.agentPrep (c.who l) g2 [] = none →
        expandBlock slot.2 h (s.reachBytes (c.who l) g2) = some ys → at' + ys.length ≤ n →
        s.reachDest (c.who l) 1 [(c.a + BitVec.ofNat 64 at', ys.length)] = .ok ws → (∀ g ∈ ws, g.buf ≠ none) → s.agentPrep (c.who l) [] ws = none →
        let t := (((s.useReads c.hint (g1 ++ g2)).useSegs ws).engineWrites c.id c.warp false ws ys).markWritten ws
        s.unzip c l at' va = if at' + ys.length < n then .wait (t.modCmd c.id fun x =>
          { x with left := some [⟨at' + ys.length, va + 16 + BitVec.ofNat 64 (blockPayload h), c.a⟩] }) else .ok t n) ∧
    (∀ g d, c.op = .pub → s.reachRead (c.who l) c.a 64 = .ok [g] → g.loc = .pa d → isHbm d = true → g.io = false →
      (s.shadowBefore d c.sentAt = true ∨ s.pubBefore d c.sentAt = true → s.engData c l = .wait s) ∧
      (s.shadowBefore d c.sentAt = false → s.pubBefore d c.sentAt = false → s.agentPrep (c.who l) [g] [] = none → s.engData c l =
        match (s.region d).spoil with | some st => .fail st.toNat 0 none | none => (s.useReads 0 [g]).publish (c.who l) d)) ∧
    (∀ ws, c.op = .mckpt → c.left = none → imageBytes ≤ n → (s.checkpointing ≠ none → s.engData c l = .fail 7 0 none) ∧
      (s.checkpointing = none → s.reachDest (c.who l) 0 [(c.a, imageBytes)] = .ok ws → (∀ g ∈ ws, ∃ a, g.loc = .pa a ∧ (isHost a = true ∨ isFabric a = true)) →
        s.errorAt (.pa 0) Config.hbmBytes = none → ∃ t, s.engData c l = .wait t ∧ t.mem = s.mem ∧ t.checkpointing = some c.id ∧
          ∀ x ∈ t.engines, x.id = c.id → x.image = s.image ∧ x.left = some (rangeGranules 0 c.a imageBytes)))) ∧
  (∀ (s : State) (w : Who) (d : Nat), s.mem.wf = true → let k := s.copies d
    let xs := s.carried d k.pages
    let rs := k.runs k.front xs
    let ws := k.runs k.shadow xs
    (∀ g ∈ rs ++ ws, s.copyOk w.launch g = true) → s.errorIn rs = none → s.agentPrep w rs (⟨0, 8, .pa d, false, none, none, none, []⟩ :: ws) = none →
    (d + 8 ≤ k.shadow ∨ k.shadow + k.pages * 4096 ≤ d) → ∃ t, s.publish w d = .ok t (k.pages * 32) ∧ t.region d = ⟨d, [], none⟩ ∧
      (∀ i < 8, t.mem.get (d + i) = BitVec.ofNat 8 ((((s.numPa d 8 / 2 + 1) % 2 ^ 63) * 2 + (1 - s.numPa d 8 % 2)) / 256 ^ i)) ∧
      (∀ x ∈ xs, ∀ i < x.2, t.mem.get (k.shadow + x.1 + i) = (s.readPa (k.front + x.1) x.2).getD i 0) ∧
      ∀ a, (∀ x ∈ xs, a < k.shadow + x.1 ∨ k.shadow + x.1 + x.2 ≤ a) → (a < d ∨ d + 8 ≤ a) → t.mem.get a = s.mem.get a) ∧
  ∀ (s : State) (p i : Nat), p < Config.hbmBytes / 4096 → i < 4096 →
    let key := s.keyOf (p * 4096)
    s.image.getD (4096 + 4160 * p + i) 0 = ((List.range 32).flatMap fun j => aesXts false (s.memKey key) (32 * p + j) (s.readPa (p * 4096 + 128 * j) 128)).getD i 0 ∧
    s.image.take 32 = leBytes 8 s.clock ++ leBytes 8 Config.hbmBytes ++ leBytes 8 (Config.hbmBytes / 4096) ++ leBytes 8 (s.ctr.images + 1)

/-- A legal descriptor starts a rank with its source data, under either destination mode; a bad one, a rank table that does not fit and a running tag end
GROUP, a shadow destination outside one region NOTBUF. A step sends its units and keeps them; a message that is new is acknowledged and held, and when
all of a step have come they are merged and the next step is entered; a duplicate is acknowledged and discarded; a request is answered by the kept
message; another configuration, an abort or three rounds of requests end it with their status, told to the other ranks where the rule says so. When
all steps are done the result is written at its destination, shadow granules marked. A command with a shadow destination then goes on with its own
publish, which waits for the shadow commands sent before (but for those that wait for it), swaps on DONE, and on another status or a spoiled region
clears the marks without a swap; then its record and the fall of its channel's count. A pass is one step of the model (log entry 13), messages are
values (log entry 17); the port, the endings and messages of a stale generation: log entries 54 and 76; DONE of a share: log entry 88. (08 R285, 08
R286, 08 R287, 08 R289, 08 R290, 08 R292, 08 R293, 08 R294, 08 R295, 16 R444, 06 R223, 06 R224) -/
def Obligations.CollectivesRun : Prop :=
  (∀ (s : State) (c : EngCmd) (l : Launch) (ds rs : List Seg), s.arg = .id c.id → s.engines.find? EngCmd.collective = some c → s.launch? c.launch = some l →
    s.agentBusy (.crucible c.id) = false → s.reachRead (c.collWho l) c.a 64 = .ok ds → s.agentPrep (c.collWho l) ds [] = none →
    let w := c.collWho l
    let d := leNat (s.reachBytes w ds)
    let region := if c.dm = 1 then s.regionAt l (BitVec.ofNat 64 (bits d 127 64)) else none
    (descBad c.op d = true → exec .collectiveStart s = .next (s.endColl c l region 0x12 0 0 none)) ∧
    (descBad c.op d = false → s.reachRead w (BitVec.ofNat 64 (bits d 191 128)) (bits d 271 264 + 1) = .ok rs → s.agentPrep w rs [] = none →
      let k := Collective.ofDesc c d ((s.reachBytes w rs).map BitVec.toNat)
      (s.ranksBad k = true ∨ (s.coll? k.tag).isSome = true → exec .collectiveStart s = .next (s.endColl c l region 0x12 0 0 none)) ∧
      (s.ranksBad k = false → s.coll? k.tag = none → c.op = .callred → c.dm = 0 → rangesMeet k.sbase k.dbase k.size = true →
        exec .collectiveStart s = .next (s.endColl c l none 0x13 0 0 none)) ∧
      ∀ ws, s.ranksBad k = false → s.coll? k.tag = none → ¬(c.op = .callred ∧ c.dm = 0 ∧ rangesMeet k.sbase k.dbase k.size = true) →
        (c.dm = 1 → s.reachDest w 1 [(k.dbase, k.size)] = .ok ws) →
        (c.dm = 1 → oneRegion ws = none → exec .collectiveStart s = .next (s.endColl c l region 5 0 0 none)) ∧
        ∀ ss, (c.dm = 1 → oneRegion ws ≠ none) → (∀ r, region = some r → s.pubBefore r c.sentAt = false) → s.crucible.colls.length < Config.collectives →
          s.reachRead w k.sbase k.size = .ok ss → s.agentPrep w ss [] = none →
          exec .collectiveStart s = .next (((s.dropWait (.crucible c.id)).useReads 0 (ds ++ rs ++ ss)).beginColl (k.load (s.reachBytes w ss))))) ∧
  (∀ (s : State) (k : Collective), s.beginColl k = (({ s with
      engines := s.engines.filter fun x => x.id != k.cmd.id
      crucible := ⟨s.crucible.colls ++ [k], s.crucible.kept.filter fun m => hdrTag m.hdr != k.tag, s.crucible.done.filter fun x => x.1 != k.tag⟩ } :
        State).enterStep k).advanceColl k.tag (k.steps.length + 1)) ∧
  (∀ (s : State) (k : Collective) (x : CStep), k.steps[k.step]? = some x →
    let pkg := k.ranks.getD x.dst 0
    let msgs := (k.parts x.send).map fun i =>
      (⟨k.image, pkg, k.header 0 0 k.stepNo (i + if k.image then bandsOf x.send i * 2 ^ 24 else 0), s.codeMessage k pkg x.send i⟩ : CMsg)
    let t := s.enterStep k
    t.out = (msgs.foldl (fun u m => u.tellPkg m.pkg 0 (.crucible m.hdr m.payload)) s).out ∧ t.crucible.kept = s.crucible.kept ++ msgs ∧ t.mem = s.mem ∧
    (k ∈ s.crucible.colls → { k with deadline := s.clock + k.timer, requests := 0 } ∈ t.crucible.colls)) ∧
  (∀ (s : State) (k : Collective) (x : CStep) (n : Nat), s.coll? k.tag = some k → k.steps[k.step]? = some x →
    (k.stat ≠ none ∨ (∃ i ∈ k.parts x.recv, k.arrived i = none) → s.advanceColl k.tag (n + 1) = s) ∧
    (k.stat = none → (∀ i ∈ k.parts x.recv, k.arrived i ≠ none) →
      let y := (k.parts x.recv).foldl (fun (y : Collective) i => match k.arrived i with | some m => y.take x i m.payload | none => y) k
      s.advanceColl k.tag (n + 1) = (s.enterStep { y with early := k.early.filter (fun m => hdrStep m.hdr != k.stepNo), step := k.step + 1 }).advanceColl k.tag n)) ∧
  (∀ (s : State) (k : Collective) (st : Nat), s.abortColl k st = ((List.range k.p).filter fun r => r != k.rank).foldl
    (fun u r => u.tellPkg (k.ranks.getD r 0) 0 (.crucible (k.header 2 st k.stepNo 0) [])) (s.putColl { k with stat := some st })) ∧
  (∀ (s : State) (h : BitVec 128) (bs : List Byte), s.arg = .message h bs →
    (hdrKind h = 0 → s.coll? (hdrTag h) = none →
      (s.tableOf (hdrTag h) = none → exec .crucibleData s = .next s) ∧
      ∀ ranks, s.tableOf (hdrTag h) = some ranks → exec .crucibleData s = .next (s.acknowledge h ranks (hdrCfg h))) ∧
    (∀ k, hdrKind h = 0 → s.coll? (hdrTag h) = some k →
      let acked := s.acknowledge h k.ranks k.cfg
      (k.stat ≠ none → exec .crucibleData s = .next acked) ∧
      (k.stat = none → hdrCfg h ≠ k.cfg → exec .crucibleData s = .next (acked.abortColl k 0x11)) ∧
      (k.stat = none → hdrCfg h = k.cfg → hdrStep h < k.stepNo ∨ (∃ m ∈ k.early, hdrStep m.hdr = hdrStep h ∧ hdrUnit k.image m.hdr = hdrUnit k.image h) →
        exec .crucibleData s = .next acked) ∧
      (k.stat = none → hdrCfg h = k.cfg → k.stepNo ≤ hdrStep h → (∀ m ∈ k.early, ¬(hdrStep m.hdr = hdrStep h ∧ hdrUnit k.image m.hdr = hdrUnit k.image h)) →
        (s.decodeMessage k (k.ranks.getD (hdrFrom h) 0) bs = .error .stale → exec .crucibleData s = .next s) ∧
        (s.decodeMessage k (k.ranks.getD (hdrFrom h) 0) bs = .error .mismatch → exec .crucibleData s = .next (acked.putColl { k with stat := some 8 })) ∧
        ∀ xs, s.decodeMessage k (k.ranks.getD (hdrFrom h) 0) bs = .ok xs → exec .crucibleData s =
          .next ((acked.putColl { k with early := k.early ++ [⟨k.image, k.ranks.getD (hdrFrom h) 0, h, xs⟩] }).advanceColl k.tag (k.steps.length + 1)))) ∧
    (∀ k, hdrKind h = 1 → s.otherCfg h = some k → exec .requestAgain s = .next (s.abortColl k 0x11)) ∧
    (∀ m, hdrKind h = 1 → s.otherCfg h = none → (s.crucible.kept.find? fun y => y.answers h) = some m →
      exec .requestAgain s = .next (s.tellPkg m.pkg 0 (.crucible m.hdr m.payload))) ∧
    (∀ k, hdrKind h = 2 → s.coll? (hdrTag h) = some k → k.stat = none →
      (hdrErr h = 0x11 → exec .crucibleAbort s = .next (s.putColl { k with stat := some 0x11 })) ∧
      (hdrErr h ≠ 0x11 → hdrCfg h ≠ k.cfg → exec .crucibleAbort s = .next (s.abortColl k 0x11)) ∧
      (hdrErr h ≠ 0x11 → hdrCfg h = k.cfg → exec .crucibleAbort s = .next (s.putColl { k with stat := some 0x14 }))) ∧
    (hdrKind h = 3 →
      let t : State := { s with crucible := { s.crucible with kept := s.crucible.kept.filter fun m => !m.answers h } }
      (s.otherCfg h = none → exec .crucibleAck s = .next t) ∧ ∀ k, s.otherCfg h = some k → exec .crucibleAck s = .next (t.abortColl k 0x11))) ∧
  (∀ (s : State) (k : Collective) (x : CStep), s.arg = .id k.cmd.id → (s.crucible.colls.find? fun y => y.cmd.id == k.cmd.id) = some k →
    k.steps[k.step]? = some x → k.stat = none → k.deadline ≤ s.clock →
    let missing := (k.parts x.recv).filter fun i => (k.arrived i).isNone
    missing ≠ [] →
    (k.requests < 3 → exec .crucibleRoundTimer s = .next (missing.foldl (fun u i => u.tellPkg (k.ranks.getD x.src 0) 0 (.crucible (k.header 1 0 k.stepNo i) []))
      (s.putColl { k with requests := k.requests + 1, deadline := s.clock + k.timer }))) ∧
    (3 ≤ k.requests → exec .crucibleRoundTimer s = .next (s.abortColl k 0x10))) ∧
  (∀ (s : State) (k : Collective) (l : Launch), s.arg = .id k.cmd.id → (s.crucible.colls.find? fun y => y.cmd.id == k.cmd.id) = some k →
    s.launch? k.cmd.launch = some l → s.agentBusy (.crucible k.cmd.id) = false →
    let region := if k.cmd.dm = 1 then s.regionAt l k.dbase else none
    (∀ st, k.stat = some st → st ≠ 8 → exec .collectiveComplete s = .next (s.endColl k.cmd l region st 0 0 none)) ∧
    (k.stat = some 8 → ∃ info, exec .collectiveComplete s = .next (s.endColl k.cmd l region 8 0 0 (some (0xA, 0, info)))) ∧
    ∀ ws, k.stat = none → k.steps.length ≤ k.step → s.reachDest (k.cmd.collWho l) k.cmd.dm (k.writes.map (·.1)) = .ok ws →
      s.pageError ws = none → s.agentPrep (k.cmd.collWho l) [] ws = none →
      let t := (s.useSegs ws).engineWrites k.cmd.id k.cmd.warp false ws (k.writes.flatMap (·.2))
      exec .collectiveComplete s = .next ((if k.cmd.dm = 1 then t.markWritten ws else t).endColl k.cmd l region 1 0 k.finished none)) ∧
  (∀ (s : State) (c : EngCmd) (l : Launch) (st fin : Nat) (fva : W64),
    (∀ d, let t := s.endColl c l (some d) st fva fin none
      { c with phase := 0, stat := st, fva := fva, fin := fin, pub := some (s.clock, d) } ∈ t.engines ∧ (∀ k ∈ t.crucible.colls, k.cmd.id ≠ c.id) ∧
        t.mem = s.mem ∧ t.warps = s.warps) ∧
    (c.recAddr = none → s.unacked c.id = false → let t := s.endColl c l none st fva fin none
      CmdEnds s t c (st != 1) ∧ (∀ k ∈ t.crucible.colls, k.cmd.id ≠ c.id) ∧ t.mem = s.mem)) ∧
  ∀ (s : State) (c : EngCmd) (l : Launch) (at' d : Nat), CmdFree s c l → c.pub = some (at', d) →
    (s.collWaits d at' = true → exec .engineCommandDone s = .next s) ∧
    (s.collWaits d at' = false → c.recAddr = none → s.unacked c.id = false →
      (c.stat ≠ 1 → Leads .engineCommandDone s fun t => CmdEnds s t c true ∧ t.region d = ⟨d, [], none⟩ ∧ t.mem = s.mem) ∧
      (∀ st, c.stat = 1 → (s.region d).spoil = some st → Leads .engineCommandDone s fun t =>
        CmdEnds s t c (st.toNat != 1) ∧ t.region d = ⟨d, [], none⟩ ∧ t.mem = s.mem) ∧
      ∀ u n, c.stat = 1 → (s.region d).spoil = none → s.publish (c.who l) d = .ok u n → u.unacked c.id = false →
        Leads .engineCommandDone s fun t => CmdEnds u t c false ∧ t.mem = u.mem ∧ t.region d = u.region d)
end

