-- ==== Sys2Proof/Laws/State.lean ====
section
/-! SUPPORT. What each update of the state leaves in each field: one lemma per field per update, so that no proof unfolds a record update. -/
namespace Sys2Proof.Machine

/-! ### `State.putWarp` -/

@[simp] theorem State.putWarp_clock (s : State) (w : Warp) : (s.putWarp w).clock = s.clock := rfl
@[simp] theorem State.putWarp_work (s : State) (w : Warp) : (s.putWarp w).work = s.work := rfl
@[simp] theorem State.putWarp_free (s : State) (w : Warp) : (s.putWarp w).free = s.free := rfl
@[simp] theorem State.putWarp_agenda (s : State) (w : Warp) : (s.putWarp w).agenda = s.agenda := rfl
@[simp] theorem State.putWarp_arg (s : State) (w : Warp) : (s.putWarp w).arg = s.arg := rfl
@[simp] theorem State.putWarp_turn (s : State) (w : Warp) : (s.putWarp w).turn = s.turn := rfl
@[simp] theorem State.putWarp_taking (s : State) (w : Warp) : (s.putWarp w).taking = s.taking := rfl
@[simp] theorem State.putWarp_cur (s : State) (w : Warp) : (s.putWarp w).cur = s.cur := rfl
@[simp] theorem State.putWarp_boot (s : State) (w : Warp) : (s.putWarp w).boot = s.boot := rfl
@[simp] theorem State.putWarp_mailbox (s : State) (w : Warp) : (s.putWarp w).mailbox = s.mailbox := rfl
@[simp] theorem State.putWarp_features (s : State) (w : Warp) : (s.putWarp w).features = s.features := rfl
@[simp] theorem State.putWarp_pkg (s : State) (w : Warp) : (s.putWarp w).pkg = s.pkg := rfl
@[simp] theorem State.putWarp_ports (s : State) (w : Warp) : (s.putWarp w).ports = s.ports := rfl
@[simp] theorem State.putWarp_mem (s : State) (w : Warp) : (s.putWarp w).mem = s.mem := rfl
@[simp] theorem State.putWarp_oldCode (s : State) (w : Warp) : (s.putWarp w).oldCode = s.oldCode := rfl
@[simp] theorem State.putWarp_keys (s : State) (w : Warp) : (s.putWarp w).keys = s.keys := rfl
@[simp] theorem State.putWarp_tenants (s : State) (w : Warp) : (s.putWarp w).tenants = s.tenants := rfl
@[simp] theorem State.putWarp_badLines (s : State) (w : Warp) : (s.putWarp w).badLines = s.badLines := rfl
@[simp] theorem State.putWarp_pasids (s : State) (w : Warp) : (s.putWarp w).pasids = s.pasids := rfl
@[simp] theorem State.putWarp_tlb (s : State) (w : Warp) : (s.putWarp w).tlb = s.tlb := rfl
@[simp] theorem State.putWarp_queues (s : State) (w : Warp) : (s.putWarp w).queues = s.queues := rfl
@[simp] theorem State.putWarp_faultQs (s : State) (w : Warp) : (s.putWarp w).faultQs = s.faultQs := rfl
@[simp] theorem State.putWarp_faultWaits (s : State) (w : Warp) : (s.putWarp w).faultWaits = s.faultWaits := rfl
@[simp] theorem State.putWarp_status (s : State) (w : Warp) : (s.putWarp w).status = s.status := rfl
@[simp] theorem State.putWarp_eventQ (s : State) (w : Warp) : (s.putWarp w).eventQ = s.eventQ := rfl
@[simp] theorem State.putWarp_launches (s : State) (w : Warp) : (s.putWarp w).launches = s.launches := rfl
@[simp] theorem State.putWarp_blocks (s : State) (w : Warp) : (s.putWarp w).blocks = s.blocks := rfl
@[simp] theorem State.putWarp_cores (s : State) (w : Warp) : (s.putWarp w).cores = s.cores := rfl
@[simp] theorem State.putWarp_contexts (s : State) (w : Warp) : (s.putWarp w).contexts = s.contexts := rfl
@[simp] theorem State.putWarp_pools (s : State) (w : Warp) : (s.putWarp w).pools = s.pools := rfl
@[simp] theorem State.putWarp_quads (s : State) (w : Warp) : (s.putWarp w).quads = s.quads := rfl
@[simp] theorem State.putWarp_engines (s : State) (w : Warp) : (s.putWarp w).engines = s.engines := rfl
@[simp] theorem State.putWarp_rays (s : State) (w : Warp) : (s.putWarp w).rays = s.rays := rfl
@[simp] theorem State.putWarp_regions (s : State) (w : Warp) : (s.putWarp w).regions = s.regions := rfl
@[simp] theorem State.putWarp_checkpointing (s : State) (w : Warp) : (s.putWarp w).checkpointing = s.checkpointing := rfl
@[simp] theorem State.putWarp_codec (s : State) (w : Warp) : (s.putWarp w).codec = s.codec := rfl
@[simp] theorem State.putWarp_crucible (s : State) (w : Warp) : (s.putWarp w).crucible = s.crucible := rfl
@[simp] theorem State.putWarp_larder (s : State) (w : Warp) : (s.putWarp w).larder = s.larder := rfl
@[simp] theorem State.putWarp_cache (s : State) (w : Warp) : (s.putWarp w).cache = s.cache := rfl
@[simp] theorem State.putWarp_routes (s : State) (w : Warp) : (s.putWarp w).routes = s.routes := rfl
@[simp] theorem State.putWarp_endpoints (s : State) (w : Warp) : (s.putWarp w).endpoints = s.endpoints := rfl
@[simp] theorem State.putWarp_credits (s : State) (w : Warp) : (s.putWarp w).credits = s.credits := rfl
@[simp] theorem State.putWarp_seen (s : State) (w : Warp) : (s.putWarp w).seen = s.seen := rfl
@[simp] theorem State.putWarp_ingress (s : State) (w : Warp) : (s.putWarp w).ingress = s.ingress := rfl
@[simp] theorem State.putWarp_arrived (s : State) (w : Warp) : (s.putWarp w).arrived = s.arrived := rfl
@[simp] theorem State.putWarp_counts (s : State) (w : Warp) : (s.putWarp w).counts = s.counts := rfl
@[simp] theorem State.putWarp_remotes (s : State) (w : Warp) : (s.putWarp w).remotes = s.remotes := rfl
@[simp] theorem State.putWarp_fetched (s : State) (w : Warp) : (s.putWarp w).fetched = s.fetched := rfl
@[simp] theorem State.putWarp_out (s : State) (w : Warp) : (s.putWarp w).out = s.out := rfl
@[simp] theorem State.putWarp_thermal (s : State) (w : Warp) : (s.putWarp w).thermal = s.thermal := rfl
@[simp] theorem State.putWarp_telemetry (s : State) (w : Warp) : (s.putWarp w).telemetry = s.telemetry := rfl
@[simp] theorem State.putWarp_tests (s : State) (w : Warp) : (s.putWarp w).tests = s.tests := rfl
@[simp] theorem State.putWarp_errorLog (s : State) (w : Warp) : (s.putWarp w).errorLog = s.errorLog := rfl
@[simp] theorem State.putWarp_digests (s : State) (w : Warp) : (s.putWarp w).digests = s.digests := rfl
@[simp] theorem State.putWarp_ioResult (s : State) (w : Warp) : (s.putWarp w).ioResult = s.ioResult := rfl
@[simp] theorem State.putWarp_hostWait (s : State) (w : Warp) : (s.putWarp w).hostWait = s.hostWait := rfl
@[simp] theorem State.putWarp_blocked (s : State) (w : Warp) : (s.putWarp w).blocked = s.blocked := rfl
@[simp] theorem State.putWarp_resetting (s : State) (w : Warp) : (s.putWarp w).resetting = s.resetting := rfl
@[simp] theorem State.putWarp_ctr (s : State) (w : Warp) : (s.putWarp w).ctr = s.ctr := rfl

/-! ### `State.modWarp` -/

@[simp] theorem State.modWarp_clock (s : State) (id : Nat) (f : Warp → Warp) : (s.modWarp id f).clock = s.clock := rfl
@[simp] theorem State.modWarp_work (s : State) (id : Nat) (f : Warp → Warp) : (s.modWarp id f).work = s.work := rfl
@[simp] theorem State.modWarp_free (s : State) (id : Nat) (f : Warp → Warp) : (s.modWarp id f).free = s.free := rfl
@[simp] theorem State.modWarp_agenda (s : State) (id : Nat) (f : Warp → Warp) : (s.modWarp id f).agenda = s.agenda := rfl
@[simp] theorem State.modWarp_arg (s : State) (id : Nat) (f : Warp → Warp) : (s.modWarp id f).arg = s.arg := rfl
@[simp] theorem State.modWarp_turn (s : State) (id : Nat) (f : Warp → Warp) : (s.modWarp id f).turn = s.turn := rfl
@[simp] theorem State.modWarp_taking (s : State) (id : Nat) (f : Warp → Warp) : (s.modWarp id f).taking = s.taking := rfl
@[simp] theorem State.modWarp_cur (s : State) (id : Nat) (f : Warp → Warp) : (s.modWarp id f).cur = s.cur := rfl
@[simp] theorem State.modWarp_boot (s : State) (id : Nat) (f : Warp → Warp) : (s.modWarp id f).boot = s.boot := rfl
@[simp] theorem State.modWarp_mailbox (s : State) (id : Nat) (f : Warp → Warp) : (s.modWarp id f).mailbox = s.mailbox := rfl
@[simp] theorem State.modWarp_features (s : State) (id : Nat) (f : Warp → Warp) : (s.modWarp id f).features = s.features := rfl
@[simp] theorem State.modWarp_pkg (s : State) (id : Nat) (f : Warp → Warp) : (s.modWarp id f).pkg = s.pkg := rfl
@[simp] theorem State.modWarp_ports (s : State) (id : Nat) (f : Warp → Warp) : (s.modWarp id f).ports = s.ports := rfl
@[simp] theorem State.modWarp_mem (s : State) (id : Nat) (f : Warp → Warp) : (s.modWarp id f).mem = s.mem := rfl
@[simp] theorem State.modWarp_oldCode (s : State) (id : Nat) (f : Warp → Warp) : (s.modWarp id f).oldCode = s.oldCode := rfl
@[simp] theorem State.modWarp_keys (s : State) (id : Nat) (f : Warp → Warp) : (s.modWarp id f).keys = s.keys := rfl
@[simp] theorem State.modWarp_tenants (s : State) (id : Nat) (f : Warp → Warp) : (s.modWarp id f).tenants = s.tenants := rfl
@[simp] theorem State.modWarp_badLines (s : State) (id : Nat) (f : Warp → Warp) : (s.modWarp id f).badLines = s.badLines := rfl
@[simp] theorem State.modWarp_pasids (s : State) (id : Nat) (f : Warp → Warp) : (s.modWarp id f).pasids = s.pasids := rfl
@[simp] theorem State.modWarp_tlb (s : State) (id : Nat) (f : Warp → Warp) : (s.modWarp id f).tlb = s.tlb := rfl
@[simp] theorem State.modWarp_queues (s : State) (id : Nat) (f : Warp → Warp) : (s.modWarp id f).queues = s.queues := rfl
@[simp] theorem State.modWarp_faultQs (s : State) (id : Nat) (f : Warp → Warp) : (s.modWarp id f).faultQs = s.faultQs := rfl
@[simp] theorem State.modWarp_faultWaits (s : State) (id : Nat) (f : Warp → Warp) : (s.modWarp id f).faultWaits = s.faultWaits := rfl
@[simp] theorem State.modWarp_status (s : State) (id : Nat) (f : Warp → Warp) : (s.modWarp id f).status = s.status := rfl
@[simp] theorem State.modWarp_eventQ (s : State) (id : Nat) (f : Warp → Warp) : (s.modWarp id f).eventQ = s.eventQ := rfl
@[simp] theorem State.modWarp_launches (s : State) (id : Nat) (f : Warp → Warp) : (s.modWarp id f).launches = s.launches := rfl
@[simp] theorem State.modWarp_blocks (s : State) (id : Nat) (f : Warp → Warp) : (s.modWarp id f).blocks = s.blocks := rfl
@[simp] theorem State.modWarp_cores (s : State) (id : Nat) (f : Warp → Warp) : (s.modWarp id f).cores = s.cores := rfl
@[simp] theorem State.modWarp_contexts (s : State) (id : Nat) (f : Warp → Warp) : (s.modWarp id f).contexts = s.contexts := rfl
@[simp] theorem State.modWarp_pools (s : State) (id : Nat) (f : Warp → Warp) : (s.modWarp id f).pools = s.pools := rfl
@[simp] theorem State.modWarp_quads (s : State) (id : Nat) (f : Warp → Warp) : (s.modWarp id f).quads = s.quads := rfl
@[simp] theorem State.modWarp_engines (s : State) (id : Nat) (f : Warp → Warp) : (s.modWarp id f).engines = s.engines := rfl
@[simp] theorem State.modWarp_rays (s : State) (id : Nat) (f : Warp → Warp) : (s.modWarp id f).rays = s.rays := rfl
@[simp] theorem State.modWarp_regions (s : State) (id : Nat) (f : Warp → Warp) : (s.modWarp id f).regions = s.regions := rfl
@[simp] theorem State.modWarp_checkpointing (s : State) (id : Nat) (f : Warp → Warp) : (s.modWarp id f).checkpointing = s.checkpointing := rfl
@[simp] theorem State.modWarp_codec (s : State) (id : Nat) (f : Warp → Warp) : (s.modWarp id f).codec = s.codec := rfl
@[simp] theorem State.modWarp_crucible (s : State) (id : Nat) (f : Warp → Warp) : (s.modWarp id f).crucible = s.crucible := rfl
@[simp] theorem State.modWarp_larder (s : State) (id : Nat) (f : Warp → Warp) : (s.modWarp id f).larder = s.larder := rfl
@[simp] theorem State.modWarp_cache (s : State) (id : Nat) (f : Warp → Warp) : (s.modWarp id f).cache = s.cache := rfl
@[simp] theorem State.modWarp_routes (s : State) (id : Nat) (f : Warp → Warp) : (s.modWarp id f).routes = s.routes := rfl
@[simp] theorem State.modWarp_endpoints (s : State) (id : Nat) (f : Warp → Warp) : (s.modWarp id f).endpoints = s.endpoints := rfl
@[simp] theorem State.modWarp_credits (s : State) (id : Nat) (f : Warp → Warp) : (s.modWarp id f).credits = s.credits := rfl
@[simp] theorem State.modWarp_seen (s : State) (id : Nat) (f : Warp → Warp) : (s.modWarp id f).seen = s.seen := rfl
@[simp] theorem State.modWarp_ingress (s : State) (id : Nat) (f : Warp → Warp) : (s.modWarp id f).ingress = s.ingress := rfl
@[simp] theorem State.modWarp_arrived (s : State) (id : Nat) (f : Warp → Warp) : (s.modWarp id f).arrived = s.arrived := rfl
@[simp] theorem State.modWarp_counts (s : State) (id : Nat) (f : Warp → Warp) : (s.modWarp id f).counts = s.counts := rfl
@[simp] theorem State.modWarp_remotes (s : State) (id : Nat) (f : Warp → Warp) : (s.modWarp id f).remotes = s.remotes := rfl
@[simp] theorem State.modWarp_fetched (s : State) (id : Nat) (f : Warp → Warp) : (s.modWarp id f).fetched = s.fetched := rfl
@[simp] theorem State.modWarp_out (s : State) (id : Nat) (f : Warp → Warp) : (s.modWarp id f).out = s.out := rfl
@[simp] theorem State.modWarp_thermal (s : State) (id : Nat) (f : Warp → Warp) : (s.modWarp id f).thermal = s.thermal := rfl
@[simp] theorem State.modWarp_telemetry (s : State) (id : Nat) (f : Warp → Warp) : (s.modWarp id f).telemetry = s.telemetry := rfl
@[simp] theorem State.modWarp_tests (s : State) (id : Nat) (f : Warp → Warp) : (s.modWarp id f).tests = s.tests := rfl
@[simp] theorem State.modWarp_errorLog (s : State) (id : Nat) (f : Warp → Warp) : (s.modWarp id f).errorLog = s.errorLog := rfl
@[simp] theorem State.modWarp_digests (s : State) (id : Nat) (f : Warp → Warp) : (s.modWarp id f).digests = s.digests := rfl
@[simp] theorem State.modWarp_ioResult (s : State) (id : Nat) (f : Warp → Warp) : (s.modWarp id f).ioResult = s.ioResult := rfl
@[simp] theorem State.modWarp_hostWait (s : State) (id : Nat) (f : Warp → Warp) : (s.modWarp id f).hostWait = s.hostWait := rfl
@[simp] theorem State.modWarp_blocked (s : State) (id : Nat) (f : Warp → Warp) : (s.modWarp id f).blocked = s.blocked := rfl
@[simp] theorem State.modWarp_resetting (s : State) (id : Nat) (f : Warp → Warp) : (s.modWarp id f).resetting = s.resetting := rfl
@[simp] theorem State.modWarp_ctr (s : State) (id : Nat) (f : Warp → Warp) : (s.modWarp id f).ctr = s.ctr := rfl

/-! ### `State.modBlock` -/

@[simp] theorem State.modBlock_clock (s : State) (id : Nat) (f : Block → Block) : (s.modBlock id f).clock = s.clock := rfl
@[simp] theorem State.modBlock_work (s : State) (id : Nat) (f : Block → Block) : (s.modBlock id f).work = s.work := rfl
@[simp] theorem State.modBlock_free (s : State) (id : Nat) (f : Block → Block) : (s.modBlock id f).free = s.free := rfl
@[simp] theorem State.modBlock_agenda (s : State) (id : Nat) (f : Block → Block) : (s.modBlock id f).agenda = s.agenda := rfl
@[simp] theorem State.modBlock_arg (s : State) (id : Nat) (f : Block → Block) : (s.modBlock id f).arg = s.arg := rfl
@[simp] theorem State.modBlock_turn (s : State) (id : Nat) (f : Block → Block) : (s.modBlock id f).turn = s.turn := rfl
@[simp] theorem State.modBlock_taking (s : State) (id : Nat) (f : Block → Block) : (s.modBlock id f).taking = s.taking := rfl
@[simp] theorem State.modBlock_cur (s : State) (id : Nat) (f : Block → Block) : (s.modBlock id f).cur = s.cur := rfl
@[simp] theorem State.modBlock_boot (s : State) (id : Nat) (f : Block → Block) : (s.modBlock id f).boot = s.boot := rfl
@[simp] theorem State.modBlock_mailbox (s : State) (id : Nat) (f : Block → Block) : (s.modBlock id f).mailbox = s.mailbox := rfl
@[simp] theorem State.modBlock_features (s : State) (id : Nat) (f : Block → Block) : (s.modBlock id f).features = s.features := rfl
@[simp] theorem State.modBlock_pkg (s : State) (id : Nat) (f : Block → Block) : (s.modBlock id f).pkg = s.pkg := rfl
@[simp] theorem State.modBlock_ports (s : State) (id : Nat) (f : Block → Block) : (s.modBlock id f).ports = s.ports := rfl
@[simp] theorem State.modBlock_mem (s : State) (id : Nat) (f : Block → Block) : (s.modBlock id f).mem = s.mem := rfl
@[simp] theorem State.modBlock_oldCode (s : State) (id : Nat) (f : Block → Block) : (s.modBlock id f).oldCode = s.oldCode := rfl
@[simp] theorem State.modBlock_keys (s : State) (id : Nat) (f : Block → Block) : (s.modBlock id f).keys = s.keys := rfl
@[simp] theorem State.modBlock_tenants (s : State) (id : Nat) (f : Block → Block) : (s.modBlock id f).tenants = s.tenants := rfl
@[simp] theorem State.modBlock_badLines (s : State) (id : Nat) (f : Block → Block) : (s.modBlock id f).badLines = s.badLines := rfl
@[simp] theorem State.modBlock_pasids (s : State) (id : Nat) (f : Block → Block) : (s.modBlock id f).pasids = s.pasids := rfl
@[simp] theorem State.modBlock_tlb (s : State) (id : Nat) (f : Block → Block) : (s.modBlock id f).tlb = s.tlb := rfl
@[simp] theorem State.modBlock_queues (s : State) (id : Nat) (f : Block → Block) : (s.modBlock id f).queues = s.queues := rfl
@[simp] theorem State.modBlock_faultQs (s : State) (id : Nat) (f : Block → Block) : (s.modBlock id f).faultQs = s.faultQs := rfl
@[simp] theorem State.modBlock_faultWaits (s : State) (id : Nat) (f : Block → Block) : (s.modBlock id f).faultWaits = s.faultWaits := rfl
@[simp] theorem State.modBlock_status (s : State) (id : Nat) (f : Block → Block) : (s.modBlock id f).status = s.status := rfl
@[simp] theorem State.modBlock_eventQ (s : State) (id : Nat) (f : Block → Block) : (s.modBlock id f).eventQ = s.eventQ := rfl
@[simp] theorem State.modBlock_launches (s : State) (id : Nat) (f : Block → Block) : (s.modBlock id f).launches = s.launches := rfl
@[simp] theorem State.modBlock_warps (s : State) (id : Nat) (f : Block → Block) : (s.modBlock id f).warps = s.warps := rfl
@[simp] theorem State.modBlock_cores (s : State) (id : Nat) (f : Block → Block) : (s.modBlock id f).cores = s.cores := rfl
@[simp] theorem State.modBlock_contexts (s : State) (id : Nat) (f : Block → Block) : (s.modBlock id f).contexts = s.contexts := rfl
@[simp] theorem State.modBlock_pools (s : State) (id : Nat) (f : Block → Block) : (s.modBlock id f).pools = s.pools := rfl
@[simp] theorem State.modBlock_quads (s : State) (id : Nat) (f : Block → Block) : (s.modBlock id f).quads = s.quads := rfl
@[simp] theorem State.modBlock_engines (s : State) (id : Nat) (f : Block → Block) : (s.modBlock id f).engines = s.engines := rfl
@[simp] theorem State.modBlock_rays (s : State) (id : Nat) (f : Block → Block) : (s.modBlock id f).rays = s.rays := rfl
@[simp] theorem State.modBlock_regions (s : State) (id : Nat) (f : Block → Block) : (s.modBlock id f).regions = s.regions := rfl
@[simp] theorem State.modBlock_checkpointing (s : State) (id : Nat) (f : Block → Block) : (s.modBlock id f).checkpointing = s.checkpointing := rfl
@[simp] theorem State.modBlock_codec (s : State) (id : Nat) (f : Block → Block) : (s.modBlock id f).codec = s.codec := rfl
@[simp] theorem State.modBlock_crucible (s : State) (id : Nat) (f : Block → Block) : (s.modBlock id f).crucible = s.crucible := rfl
@[simp] theorem State.modBlock_larder (s : State) (id : Nat) (f : Block → Block) : (s.modBlock id f).larder = s.larder := rfl
@[simp] theorem State.modBlock_cache (s : State) (id : Nat) (f : Block → Block) : (s.modBlock id f).cache = s.cache := rfl
@[simp] theorem State.modBlock_routes (s : State) (id : Nat) (f : Block → Block) : (s.modBlock id f).routes = s.routes := rfl
@[simp] theorem State.modBlock_endpoints (s : State) (id : Nat) (f : Block → Block) : (s.modBlock id f).endpoints = s.endpoints := rfl
@[simp] theorem State.modBlock_credits (s : State) (id : Nat) (f : Block → Block) : (s.modBlock id f).credits = s.credits := rfl
@[simp] theorem State.modBlock_seen (s : State) (id : Nat) (f : Block → Block) : (s.modBlock id f).seen = s.seen := rfl
@[simp] theorem State.modBlock_ingress (s : State) (id : Nat) (f : Block → Block) : (s.modBlock id f).ingress = s.ingress := rfl
@[simp] theorem State.modBlock_arrived (s : State) (id : Nat) (f : Block → Block) : (s.modBlock id f).arrived = s.arrived := rfl
@[simp] theorem State.modBlock_counts (s : State) (id : Nat) (f : Block → Block) : (s.modBlock id f).counts = s.counts := rfl
@[simp] theorem State.modBlock_remotes (s : State) (id : Nat) (f : Block → Block) : (s.modBlock id f).remotes = s.remotes := rfl
@[simp] theorem State.modBlock_fetched (s : State) (id : Nat) (f : Block → Block) : (s.modBlock id f).fetched = s.fetched := rfl
@[simp] theorem State.modBlock_out (s : State) (id : Nat) (f : Block → Block) : (s.modBlock id f).out = s.out := rfl
@[simp] theorem State.modBlock_thermal (s : State) (id : Nat) (f : Block → Block) : (s.modBlock id f).thermal = s.thermal := rfl
@[simp] theorem State.modBlock_telemetry (s : State) (id : Nat) (f : Block → Block) : (s.modBlock id f).telemetry = s.telemetry := rfl
@[simp] theorem State.modBlock_tests (s : State) (id : Nat) (f : Block → Block) : (s.modBlock id f).tests = s.tests := rfl
@[simp] theorem State.modBlock_errorLog (s : State) (id : Nat) (f : Block → Block) : (s.modBlock id f).errorLog = s.errorLog := rfl
@[simp] theorem State.modBlock_digests (s : State) (id : Nat) (f : Block → Block) : (s.modBlock id f).digests = s.digests := rfl
@[simp] theorem State.modBlock_ioResult (s : State) (id : Nat) (f : Block → Block) : (s.modBlock id f).ioResult = s.ioResult := rfl
@[simp] theorem State.modBlock_hostWait (s : State) (id : Nat) (f : Block → Block) : (s.modBlock id f).hostWait = s.hostWait := rfl
@[simp] theorem State.modBlock_blocked (s : State) (id : Nat) (f : Block → Block) : (s.modBlock id f).blocked = s.blocked := rfl
@[simp] theorem State.modBlock_resetting (s : State) (id : Nat) (f : Block → Block) : (s.modBlock id f).resetting = s.resetting := rfl
@[simp] theorem State.modBlock_ctr (s : State) (id : Nat) (f : Block → Block) : (s.modBlock id f).ctr = s.ctr := rfl

/-! ### `State.putStream` -/

@[simp] theorem State.putStream_clock (s : State) (b : Nat) (x : Stream) : (s.putStream b x).clock = s.clock := rfl
@[simp] theorem State.putStream_work (s : State) (b : Nat) (x : Stream) : (s.putStream b x).work = s.work := rfl
@[simp] theorem State.putStream_free (s : State) (b : Nat) (x : Stream) : (s.putStream b x).free = s.free := rfl
@[simp] theorem State.putStream_agenda (s : State) (b : Nat) (x : Stream) : (s.putStream b x).agenda = s.agenda := rfl
@[simp] theorem State.putStream_arg (s : State) (b : Nat) (x : Stream) : (s.putStream b x).arg = s.arg := rfl
@[simp] theorem State.putStream_turn (s : State) (b : Nat) (x : Stream) : (s.putStream b x).turn = s.turn := rfl
@[simp] theorem State.putStream_taking (s : State) (b : Nat) (x : Stream) : (s.putStream b x).taking = s.taking := rfl
@[simp] theorem State.putStream_cur (s : State) (b : Nat) (x : Stream) : (s.putStream b x).cur = s.cur := rfl
@[simp] theorem State.putStream_boot (s : State) (b : Nat) (x : Stream) : (s.putStream b x).boot = s.boot := rfl
@[simp] theorem State.putStream_mailbox (s : State) (b : Nat) (x : Stream) : (s.putStream b x).mailbox = s.mailbox := rfl
@[simp] theorem State.putStream_features (s : State) (b : Nat) (x : Stream) : (s.putStream b x).features = s.features := rfl
@[simp] theorem State.putStream_pkg (s : State) (b : Nat) (x : Stream) : (s.putStream b x).pkg = s.pkg := rfl
@[simp] theorem State.putStream_ports (s : State) (b : Nat) (x : Stream) : (s.putStream b x).ports = s.ports := rfl
@[simp] theorem State.putStream_mem (s : State) (b : Nat) (x : Stream) : (s.putStream b x).mem = s.mem := rfl
@[simp] theorem State.putStream_oldCode (s : State) (b : Nat) (x : Stream) : (s.putStream b x).oldCode = s.oldCode := rfl
@[simp] theorem State.putStream_keys (s : State) (b : Nat) (x : Stream) : (s.putStream b x).keys = s.keys := rfl
@[simp] theorem State.putStream_tenants (s : State) (b : Nat) (x : Stream) : (s.putStream b x).tenants = s.tenants := rfl
@[simp] theorem State.putStream_badLines (s : State) (b : Nat) (x : Stream) : (s.putStream b x).badLines = s.badLines := rfl
@[simp] theorem State.putStream_pasids (s : State) (b : Nat) (x : Stream) : (s.putStream b x).pasids = s.pasids := rfl
@[simp] theorem State.putStream_tlb (s : State) (b : Nat) (x : Stream) : (s.putStream b x).tlb = s.tlb := rfl
@[simp] theorem State.putStream_queues (s : State) (b : Nat) (x : Stream) : (s.putStream b x).queues = s.queues := rfl
@[simp] theorem State.putStream_faultQs (s : State) (b : Nat) (x : Stream) : (s.putStream b x).faultQs = s.faultQs := rfl
@[simp] theorem State.putStream_faultWaits (s : State) (b : Nat) (x : Stream) : (s.putStream b x).faultWaits = s.faultWaits := rfl
@[simp] theorem State.putStream_status (s : State) (b : Nat) (x : Stream) : (s.putStream b x).status = s.status := rfl
@[simp] theorem State.putStream_eventQ (s : State) (b : Nat) (x : Stream) : (s.putStream b x).eventQ = s.eventQ := rfl
@[simp] theorem State.putStream_launches (s : State) (b : Nat) (x : Stream) : (s.putStream b x).launches = s.launches := rfl
@[simp] theorem State.putStream_warps (s : State) (b : Nat) (x : Stream) : (s.putStream b x).warps = s.warps := rfl
@[simp] theorem State.putStream_cores (s : State) (b : Nat) (x : Stream) : (s.putStream b x).cores = s.cores := rfl
@[simp] theorem State.putStream_contexts (s : State) (b : Nat) (x : Stream) : (s.putStream b x).contexts = s.contexts := rfl
@[simp] theorem State.putStream_pools (s : State) (b : Nat) (x : Stream) : (s.putStream b x).pools = s.pools := rfl
@[simp] theorem State.putStream_quads (s : State) (b : Nat) (x : Stream) : (s.putStream b x).quads = s.quads := rfl
@[simp] theorem State.putStream_engines (s : State) (b : Nat) (x : Stream) : (s.putStream b x).engines = s.engines := rfl
@[simp] theorem State.putStream_rays (s : State) (b : Nat) (x : Stream) : (s.putStream b x).rays = s.rays := rfl
@[simp] theorem State.putStream_regions (s : State) (b : Nat) (x : Stream) : (s.putStream b x).regions = s.regions := rfl
@[simp] theorem State.putStream_checkpointing (s : State) (b : Nat) (x : Stream) : (s.putStream b x).checkpointing = s.checkpointing := rfl
@[simp] theorem State.putStream_codec (s : State) (b : Nat) (x : Stream) : (s.putStream b x).codec = s.codec := rfl
@[simp] theorem State.putStream_crucible (s : State) (b : Nat) (x : Stream) : (s.putStream b x).crucible = s.crucible := rfl
@[simp] theorem State.putStream_larder (s : State) (b : Nat) (x : Stream) : (s.putStream b x).larder = s.larder := rfl
@[simp] theorem State.putStream_cache (s : State) (b : Nat) (x : Stream) : (s.putStream b x).cache = s.cache := rfl
@[simp] theorem State.putStream_routes (s : State) (b : Nat) (x : Stream) : (s.putStream b x).routes = s.routes := rfl
@[simp] theorem State.putStream_endpoints (s : State) (b : Nat) (x : Stream) : (s.putStream b x).endpoints = s.endpoints := rfl
@[simp] theorem State.putStream_credits (s : State) (b : Nat) (x : Stream) : (s.putStream b x).credits = s.credits := rfl
@[simp] theorem State.putStream_seen (s : State) (b : Nat) (x : Stream) : (s.putStream b x).seen = s.seen := rfl
@[simp] theorem State.putStream_ingress (s : State) (b : Nat) (x : Stream) : (s.putStream b x).ingress = s.ingress := rfl
@[simp] theorem State.putStream_arrived (s : State) (b : Nat) (x : Stream) : (s.putStream b x).arrived = s.arrived := rfl
@[simp] theorem State.putStream_counts (s : State) (b : Nat) (x : Stream) : (s.putStream b x).counts = s.counts := rfl
@[simp] theorem State.putStream_remotes (s : State) (b : Nat) (x : Stream) : (s.putStream b x).remotes = s.remotes := rfl
@[simp] theorem State.putStream_fetched (s : State) (b : Nat) (x : Stream) : (s.putStream b x).fetched = s.fetched := rfl
@[simp] theorem State.putStream_out (s : State) (b : Nat) (x : Stream) : (s.putStream b x).out = s.out := rfl
@[simp] theorem State.putStream_thermal (s : State) (b : Nat) (x : Stream) : (s.putStream b x).thermal = s.thermal := rfl
@[simp] theorem State.putStream_telemetry (s : State) (b : Nat) (x : Stream) : (s.putStream b x).telemetry = s.telemetry := rfl
@[simp] theorem State.putStream_tests (s : State) (b : Nat) (x : Stream) : (s.putStream b x).tests = s.tests := rfl
@[simp] theorem State.putStream_errorLog (s : State) (b : Nat) (x : Stream) : (s.putStream b x).errorLog = s.errorLog := rfl
@[simp] theorem State.putStream_digests (s : State) (b : Nat) (x : Stream) : (s.putStream b x).digests = s.digests := rfl
@[simp] theorem State.putStream_ioResult (s : State) (b : Nat) (x : Stream) : (s.putStream b x).ioResult = s.ioResult := rfl
@[simp] theorem State.putStream_hostWait (s : State) (b : Nat) (x : Stream) : (s.putStream b x).hostWait = s.hostWait := rfl
@[simp] theorem State.putStream_blocked (s : State) (b : Nat) (x : Stream) : (s.putStream b x).blocked = s.blocked := rfl
@[simp] theorem State.putStream_resetting (s : State) (b : Nat) (x : Stream) : (s.putStream b x).resetting = s.resetting := rfl
@[simp] theorem State.putStream_ctr (s : State) (b : Nat) (x : Stream) : (s.putStream b x).ctr = s.ctr := rfl

/-! ### `State.modLaunch` -/

@[simp] theorem State.modLaunch_clock (s : State) (id : Nat) (f : Launch → Launch) : (s.modLaunch id f).clock = s.clock := rfl
@[simp] theorem State.modLaunch_work (s : State) (id : Nat) (f : Launch → Launch) : (s.modLaunch id f).work = s.work := rfl
@[simp] theorem State.modLaunch_free (s : State) (id : Nat) (f : Launch → Launch) : (s.modLaunch id f).free = s.free := rfl
@[simp] theorem State.modLaunch_agenda (s : State) (id : Nat) (f : Launch → Launch) : (s.modLaunch id f).agenda = s.agenda := rfl
@[simp] theorem State.modLaunch_arg (s : State) (id : Nat) (f : Launch → Launch) : (s.modLaunch id f).arg = s.arg := rfl
@[simp] theorem State.modLaunch_turn (s : State) (id : Nat) (f : Launch → Launch) : (s.modLaunch id f).turn = s.turn := rfl
@[simp] theorem State.modLaunch_taking (s : State) (id : Nat) (f : Launch → Launch) : (s.modLaunch id f).taking = s.taking := rfl
@[simp] theorem State.modLaunch_cur (s : State) (id : Nat) (f : Launch → Launch) : (s.modLaunch id f).cur = s.cur := rfl
@[simp] theorem State.modLaunch_boot (s : State) (id : Nat) (f : Launch → Launch) : (s.modLaunch id f).boot = s.boot := rfl
@[simp] theorem State.modLaunch_mailbox (s : State) (id : Nat) (f : Launch → Launch) : (s.modLaunch id f).mailbox = s.mailbox := rfl
@[simp] theorem State.modLaunch_features (s : State) (id : Nat) (f : Launch → Launch) : (s.modLaunch id f).features = s.features := rfl
@[simp] theorem State.modLaunch_pkg (s : State) (id : Nat) (f : Launch → Launch) : (s.modLaunch id f).pkg = s.pkg := rfl
@[simp] theorem State.modLaunch_ports (s : State) (id : Nat) (f : Launch → Launch) : (s.modLaunch id f).ports = s.ports := rfl
@[simp] theorem State.modLaunch_mem (s : State) (id : Nat) (f : Launch → Launch) : (s.modLaunch id f).mem = s.mem := rfl
@[simp] theorem State.modLaunch_oldCode (s : State) (id : Nat) (f : Launch → Launch) : (s.modLaunch id f).oldCode = s.oldCode := rfl
@[simp] theorem State.modLaunch_keys (s : State) (id : Nat) (f : Launch → Launch) : (s.modLaunch id f).keys = s.keys := rfl
@[simp] theorem State.modLaunch_tenants (s : State) (id : Nat) (f : Launch → Launch) : (s.modLaunch id f).tenants = s.tenants := rfl
@[simp] theorem State.modLaunch_badLines (s : State) (id : Nat) (f : Launch → Launch) : (s.modLaunch id f).badLines = s.badLines := rfl
@[simp] theorem State.modLaunch_pasids (s : State) (id : Nat) (f : Launch → Launch) : (s.modLaunch id f).pasids = s.pasids := rfl
@[simp] theorem State.modLaunch_tlb (s : State) (id : Nat) (f : Launch → Launch) : (s.modLaunch id f).tlb = s.tlb := rfl
@[simp] theorem State.modLaunch_queues (s : State) (id : Nat) (f : Launch → Launch) : (s.modLaunch id f).queues = s.queues := rfl
@[simp] theorem State.modLaunch_faultQs (s : State) (id : Nat) (f : Launch → Launch) : (s.modLaunch id f).faultQs = s.faultQs := rfl
@[simp] theorem State.modLaunch_faultWaits (s : State) (id : Nat) (f : Launch → Launch) : (s.modLaunch id f).faultWaits = s.faultWaits := rfl
@[simp] theorem State.modLaunch_status (s : State) (id : Nat) (f : Launch → Launch) : (s.modLaunch id f).status = s.status := rfl
@[simp] theorem State.modLaunch_eventQ (s : State) (id : Nat) (f : Launch → Launch) : (s.modLaunch id f).eventQ = s.eventQ := rfl
@[simp] theorem State.modLaunch_blocks (s : State) (id : Nat) (f : Launch → Launch) : (s.modLaunch id f).blocks = s.blocks := rfl
@[simp] theorem State.modLaunch_warps (s : State) (id : Nat) (f : Launch → Launch) : (s.modLaunch id f).warps = s.warps := rfl
@[simp] theorem State.modLaunch_cores (s : State) (id : Nat) (f : Launch → Launch) : (s.modLaunch id f).cores = s.cores := rfl
@[simp] theorem State.modLaunch_contexts (s : State) (id : Nat) (f : Launch → Launch) : (s.modLaunch id f).contexts = s.contexts := rfl
@[simp] theorem State.modLaunch_pools (s : State) (id : Nat) (f : Launch → Launch) : (s.modLaunch id f).pools = s.pools := rfl
@[simp] theorem State.modLaunch_quads (s : State) (id : Nat) (f : Launch → Launch) : (s.modLaunch id f).quads = s.quads := rfl
@[simp] theorem State.modLaunch_engines (s : State) (id : Nat) (f : Launch → Launch) : (s.modLaunch id f).engines = s.engines := rfl
@[simp] theorem State.modLaunch_rays (s : State) (id : Nat) (f : Launch → Launch) : (s.modLaunch id f).rays = s.rays := rfl
@[simp] theorem State.modLaunch_regions (s : State) (id : Nat) (f : Launch → Launch) : (s.modLaunch id f).regions = s.regions := rfl
@[simp] theorem State.modLaunch_checkpointing (s : State) (id : Nat) (f : Launch → Launch) : (s.modLaunch id f).checkpointing = s.checkpointing := rfl
@[simp] theorem State.modLaunch_codec (s : State) (id : Nat) (f : Launch → Launch) : (s.modLaunch id f).codec = s.codec := rfl
@[simp] theorem State.modLaunch_crucible (s : State) (id : Nat) (f : Launch → Launch) : (s.modLaunch id f).crucible = s.crucible := rfl
@[simp] theorem State.modLaunch_larder (s : State) (id : Nat) (f : Launch → Launch) : (s.modLaunch id f).larder = s.larder := rfl
@[simp] theorem State.modLaunch_cache (s : State) (id : Nat) (f : Launch → Launch) : (s.modLaunch id f).cache = s.cache := rfl
@[simp] theorem State.modLaunch_routes (s : State) (id : Nat) (f : Launch → Launch) : (s.modLaunch id f).routes = s.routes := rfl
@[simp] theorem State.modLaunch_endpoints (s : State) (id : Nat) (f : Launch → Launch) : (s.modLaunch id f).endpoints = s.endpoints := rfl
@[simp] theorem State.modLaunch_credits (s : State) (id : Nat) (f : Launch → Launch) : (s.modLaunch id f).credits = s.credits := rfl
@[simp] theorem State.modLaunch_seen (s : State) (id : Nat) (f : Launch → Launch) : (s.modLaunch id f).seen = s.seen := rfl
@[simp] theorem State.modLaunch_ingress (s : State) (id : Nat) (f : Launch → Launch) : (s.modLaunch id f).ingress = s.ingress := rfl
@[simp] theorem State.modLaunch_arrived (s : State) (id : Nat) (f : Launch → Launch) : (s.modLaunch id f).arrived = s.arrived := rfl
@[simp] theorem State.modLaunch_counts (s : State) (id : Nat) (f : Launch → Launch) : (s.modLaunch id f).counts = s.counts := rfl
@[simp] theorem State.modLaunch_remotes (s : State) (id : Nat) (f : Launch → Launch) : (s.modLaunch id f).remotes = s.remotes := rfl
@[simp] theorem State.modLaunch_fetched (s : State) (id : Nat) (f : Launch → Launch) : (s.modLaunch id f).fetched = s.fetched := rfl
@[simp] theorem State.modLaunch_out (s : State) (id : Nat) (f : Launch → Launch) : (s.modLaunch id f).out = s.out := rfl
@[simp] theorem State.modLaunch_thermal (s : State) (id : Nat) (f : Launch → Launch) : (s.modLaunch id f).thermal = s.thermal := rfl
@[simp] theorem State.modLaunch_telemetry (s : State) (id : Nat) (f : Launch → Launch) : (s.modLaunch id f).telemetry = s.telemetry := rfl
@[simp] theorem State.modLaunch_tests (s : State) (id : Nat) (f : Launch → Launch) : (s.modLaunch id f).tests = s.tests := rfl
@[simp] theorem State.modLaunch_errorLog (s : State) (id : Nat) (f : Launch → Launch) : (s.modLaunch id f).errorLog = s.errorLog := rfl
@[simp] theorem State.modLaunch_digests (s : State) (id : Nat) (f : Launch → Launch) : (s.modLaunch id f).digests = s.digests := rfl
@[simp] theorem State.modLaunch_ioResult (s : State) (id : Nat) (f : Launch → Launch) : (s.modLaunch id f).ioResult = s.ioResult := rfl
@[simp] theorem State.modLaunch_hostWait (s : State) (id : Nat) (f : Launch → Launch) : (s.modLaunch id f).hostWait = s.hostWait := rfl
@[simp] theorem State.modLaunch_blocked (s : State) (id : Nat) (f : Launch → Launch) : (s.modLaunch id f).blocked = s.blocked := rfl
@[simp] theorem State.modLaunch_resetting (s : State) (id : Nat) (f : Launch → Launch) : (s.modLaunch id f).resetting = s.resetting := rfl
@[simp] theorem State.modLaunch_ctr (s : State) (id : Nat) (f : Launch → Launch) : (s.modLaunch id f).ctr = s.ctr := rfl

/-! ### `State.propose` -/

@[simp] theorem State.propose_clock (s : State) (i : Instr) (a : Arg) : (s.propose i a).clock = s.clock := rfl
@[simp] theorem State.propose_work (s : State) (i : Instr) (a : Arg) : (s.propose i a).work = s.work := rfl
@[simp] theorem State.propose_free (s : State) (i : Instr) (a : Arg) : (s.propose i a).free = s.free := rfl
@[simp] theorem State.propose_arg (s : State) (i : Instr) (a : Arg) : (s.propose i a).arg = s.arg := rfl
@[simp] theorem State.propose_turn (s : State) (i : Instr) (a : Arg) : (s.propose i a).turn = s.turn := rfl
@[simp] theorem State.propose_taking (s : State) (i : Instr) (a : Arg) : (s.propose i a).taking = s.taking := rfl
@[simp] theorem State.propose_cur (s : State) (i : Instr) (a : Arg) : (s.propose i a).cur = s.cur := rfl
@[simp] theorem State.propose_boot (s : State) (i : Instr) (a : Arg) : (s.propose i a).boot = s.boot := rfl
@[simp] theorem State.propose_mailbox (s : State) (i : Instr) (a : Arg) : (s.propose i a).mailbox = s.mailbox := rfl
@[simp] theorem State.propose_features (s : State) (i : Instr) (a : Arg) : (s.propose i a).features = s.features := rfl
@[simp] theorem State.propose_pkg (s : State) (i : Instr) (a : Arg) : (s.propose i a).pkg = s.pkg := rfl
@[simp] theorem State.propose_ports (s : State) (i : Instr) (a : Arg) : (s.propose i a).ports = s.ports := rfl
@[simp] theorem State.propose_mem (s : State) (i : Instr) (a : Arg) : (s.propose i a).mem = s.mem := rfl
@[simp] theorem State.propose_oldCode (s : State) (i : Instr) (a : Arg) : (s.propose i a).oldCode = s.oldCode := rfl
@[simp] theorem State.propose_keys (s : State) (i : Instr) (a : Arg) : (s.propose i a).keys = s.keys := rfl
@[simp] theorem State.propose_tenants (s : State) (i : Instr) (a : Arg) : (s.propose i a).tenants = s.tenants := rfl
@[simp] theorem State.propose_badLines (s : State) (i : Instr) (a : Arg) : (s.propose i a).badLines = s.badLines := rfl
@[simp] theorem State.propose_pasids (s : State) (i : Instr) (a : Arg) : (s.propose i a).pasids = s.pasids := rfl
@[simp] theorem State.propose_tlb (s : State) (i : Instr) (a : Arg) : (s.propose i a).tlb = s.tlb := rfl
@[simp] theorem State.propose_queues (s : State) (i : Instr) (a : Arg) : (s.propose i a).queues = s.queues := rfl
@[simp] theorem State.propose_faultQs (s : State) (i : Instr) (a : Arg) : (s.propose i a).faultQs = s.faultQs := rfl
@[simp] theorem State.propose_faultWaits (s : State) (i : Instr) (a : Arg) : (s.propose i a).faultWaits = s.faultWaits := rfl
@[simp] theorem State.propose_status (s : State) (i : Instr) (a : Arg) : (s.propose i a).status = s.status := rfl
@[simp] theorem State.propose_eventQ (s : State) (i : Instr) (a : Arg) : (s.propose i a).eventQ = s.eventQ := rfl
@[simp] theorem State.propose_launches (s : State) (i : Instr) (a : Arg) : (s.propose i a).launches = s.launches := rfl
@[simp] theorem State.propose_blocks (s : State) (i : Instr) (a : Arg) : (s.propose i a).blocks = s.blocks := rfl
@[simp] theorem State.propose_warps (s : State) (i : Instr) (a : Arg) : (s.propose i a).warps = s.warps := rfl
@[simp] theorem State.propose_cores (s : State) (i : Instr) (a : Arg) : (s.propose i a).cores = s.cores := rfl
@[simp] theorem State.propose_contexts (s : State) (i : Instr) (a : Arg) : (s.propose i a).contexts = s.contexts := rfl
@[simp] theorem State.propose_pools (s : State) (i : Instr) (a : Arg) : (s.propose i a).pools = s.pools := rfl
@[simp] theorem State.propose_quads (s : State) (i : Instr) (a : Arg) : (s.propose i a).quads = s.quads := rfl
@[simp] theorem State.propose_engines (s : State) (i : Instr) (a : Arg) : (s.propose i a).engines = s.engines := rfl
@[simp] theorem State.propose_rays (s : State) (i : Instr) (a : Arg) : (s.propose i a).rays = s.rays := rfl
@[simp] theorem State.propose_regions (s : State) (i : Instr) (a : Arg) : (s.propose i a).regions = s.regions := rfl
@[simp] theorem State.propose_checkpointing (s : State) (i : Instr) (a : Arg) : (s.propose i a).checkpointing = s.checkpointing := rfl
@[simp] theorem State.propose_codec (s : State) (i : Instr) (a : Arg) : (s.propose i a).codec = s.codec := rfl
@[simp] theorem State.propose_crucible (s : State) (i : Instr) (a : Arg) : (s.propose i a).crucible = s.crucible := rfl
@[simp] theorem State.propose_larder (s : State) (i : Instr) (a : Arg) : (s.propose i a).larder = s.larder := rfl
@[simp] theorem State.propose_cache (s : State) (i : Instr) (a : Arg) : (s.propose i a).cache = s.cache := rfl
@[simp] theorem State.propose_routes (s : State) (i : Instr) (a : Arg) : (s.propose i a).routes = s.routes := rfl
@[simp] theorem State.propose_endpoints (s : State) (i : Instr) (a : Arg) : (s.propose i a).endpoints = s.endpoints := rfl
@[simp] theorem State.propose_credits (s : State) (i : Instr) (a : Arg) : (s.propose i a).credits = s.credits := rfl
@[simp] theorem State.propose_seen (s : State) (i : Instr) (a : Arg) : (s.propose i a).seen = s.seen := rfl
@[simp] theorem State.propose_ingress (s : State) (i : Instr) (a : Arg) : (s.propose i a).ingress = s.ingress := rfl
@[simp] theorem State.propose_arrived (s : State) (i : Instr) (a : Arg) : (s.propose i a).arrived = s.arrived := rfl
@[simp] theorem State.propose_counts (s : State) (i : Instr) (a : Arg) : (s.propose i a).counts = s.counts := rfl
@[simp] theorem State.propose_remotes (s : State) (i : Instr) (a : Arg) : (s.propose i a).remotes = s.remotes := rfl
@[simp] theorem State.propose_fetched (s : State) (i : Instr) (a : Arg) : (s.propose i a).fetched = s.fetched := rfl
@[simp] theorem State.propose_out (s : State) (i : Instr) (a : Arg) : (s.propose i a).out = s.out := rfl
@[simp] theorem State.propose_thermal (s : State) (i : Instr) (a : Arg) : (s.propose i a).thermal = s.thermal := rfl
@[simp] theorem State.propose_telemetry (s : State) (i : Instr) (a : Arg) : (s.propose i a).telemetry = s.telemetry := rfl
@[simp] theorem State.propose_tests (s : State) (i : Instr) (a : Arg) : (s.propose i a).tests = s.tests := rfl
@[simp] theorem State.propose_errorLog (s : State) (i : Instr) (a : Arg) : (s.propose i a).errorLog = s.errorLog := rfl
@[simp] theorem State.propose_digests (s : State) (i : Instr) (a : Arg) : (s.propose i a).digests = s.digests := rfl
@[simp] theorem State.propose_ioResult (s : State) (i : Instr) (a : Arg) : (s.propose i a).ioResult = s.ioResult := rfl
@[simp] theorem State.propose_hostWait (s : State) (i : Instr) (a : Arg) : (s.propose i a).hostWait = s.hostWait := rfl
@[simp] theorem State.propose_blocked (s : State) (i : Instr) (a : Arg) : (s.propose i a).blocked = s.blocked := rfl
@[simp] theorem State.propose_resetting (s : State) (i : Instr) (a : Arg) : (s.propose i a).resetting = s.resetting := rfl
@[simp] theorem State.propose_ctr (s : State) (i : Instr) (a : Arg) : (s.propose i a).ctr = s.ctr := rfl

/-! ### `State.writePa` -/

@[simp] theorem State.writePa_clock (s : State) (a : Nat) (bs : List Byte) : (s.writePa a bs).clock = s.clock := rfl
@[simp] theorem State.writePa_work (s : State) (a : Nat) (bs : List Byte) : (s.writePa a bs).work = s.work := rfl
@[simp] theorem State.writePa_free (s : State) (a : Nat) (bs : List Byte) : (s.writePa a bs).free = s.free := rfl
@[simp] theorem State.writePa_agenda (s : State) (a : Nat) (bs : List Byte) : (s.writePa a bs).agenda = s.agenda := rfl
@[simp] theorem State.writePa_arg (s : State) (a : Nat) (bs : List Byte) : (s.writePa a bs).arg = s.arg := rfl
@[simp] theorem State.writePa_turn (s : State) (a : Nat) (bs : List Byte) : (s.writePa a bs).turn = s.turn := rfl
@[simp] theorem State.writePa_taking (s : State) (a : Nat) (bs : List Byte) : (s.writePa a bs).taking = s.taking := rfl
@[simp] theorem State.writePa_cur (s : State) (a : Nat) (bs : List Byte) : (s.writePa a bs).cur = s.cur := rfl
@[simp] theorem State.writePa_boot (s : State) (a : Nat) (bs : List Byte) : (s.writePa a bs).boot = s.boot := rfl
@[simp] theorem State.writePa_mailbox (s : State) (a : Nat) (bs : List Byte) : (s.writePa a bs).mailbox = s.mailbox := rfl
@[simp] theorem State.writePa_features (s : State) (a : Nat) (bs : List Byte) : (s.writePa a bs).features = s.features := rfl
@[simp] theorem State.writePa_pkg (s : State) (a : Nat) (bs : List Byte) : (s.writePa a bs).pkg = s.pkg := rfl
@[simp] theorem State.writePa_ports (s : State) (a : Nat) (bs : List Byte) : (s.writePa a bs).ports = s.ports := rfl
@[simp] theorem State.writePa_oldCode (s : State) (a : Nat) (bs : List Byte) : (s.writePa a bs).oldCode = s.oldCode := rfl
@[simp] theorem State.writePa_keys (s : State) (a : Nat) (bs : List Byte) : (s.writePa a bs).keys = s.keys := rfl
@[simp] theorem State.writePa_tenants (s : State) (a : Nat) (bs : List Byte) : (s.writePa a bs).tenants = s.tenants := rfl
@[simp] theorem State.writePa_badLines (s : State) (a : Nat) (bs : List Byte) : (s.writePa a bs).badLines = s.badLines := rfl
@[simp] theorem State.writePa_pasids (s : State) (a : Nat) (bs : List Byte) : (s.writePa a bs).pasids = s.pasids := rfl
@[simp] theorem State.writePa_tlb (s : State) (a : Nat) (bs : List Byte) : (s.writePa a bs).tlb = s.tlb := rfl
@[simp] theorem State.writePa_queues (s : State) (a : Nat) (bs : List Byte) : (s.writePa a bs).queues = s.queues := rfl
@[simp] theorem State.writePa_faultQs (s : State) (a : Nat) (bs : List Byte) : (s.writePa a bs).faultQs = s.faultQs := rfl
@[simp] theorem State.writePa_faultWaits (s : State) (a : Nat) (bs : List Byte) : (s.writePa a bs).faultWaits = s.faultWaits := rfl
@[simp] theorem State.writePa_status (s : State) (a : Nat) (bs : List Byte) : (s.writePa a bs).status = s.status := rfl
@[simp] theorem State.writePa_eventQ (s : State) (a : Nat) (bs : List Byte) : (s.writePa a bs).eventQ = s.eventQ := rfl
@[simp] theorem State.writePa_launches (s : State) (a : Nat) (bs : List Byte) : (s.writePa a bs).launches = s.launches := rfl
@[simp] theorem State.writePa_blocks (s : State) (a : Nat) (bs : List Byte) : (s.writePa a bs).blocks = s.blocks := rfl
@[simp] theorem State.writePa_warps (s : State) (a : Nat) (bs : List Byte) : (s.writePa a bs).warps = s.warps := rfl
@[simp] theorem State.writePa_cores (s : State) (a : Nat) (bs : List Byte) : (s.writePa a bs).cores = s.cores := rfl
@[simp] theorem State.writePa_contexts (s : State) (a : Nat) (bs : List Byte) : (s.writePa a bs).contexts = s.contexts := rfl
@[simp] theorem State.writePa_pools (s : State) (a : Nat) (bs : List Byte) : (s.writePa a bs).pools = s.pools := rfl
@[simp] theorem State.writePa_quads (s : State) (a : Nat) (bs : List Byte) : (s.writePa a bs).quads = s.quads := rfl
@[simp] theorem State.writePa_engines (s : State) (a : Nat) (bs : List Byte) : (s.writePa a bs).engines = s.engines := rfl
@[simp] theorem State.writePa_rays (s : State) (a : Nat) (bs : List Byte) : (s.writePa a bs).rays = s.rays := rfl
@[simp] theorem State.writePa_regions (s : State) (a : Nat) (bs : List Byte) : (s.writePa a bs).regions = s.regions := rfl
@[simp] theorem State.writePa_checkpointing (s : State) (a : Nat) (bs : List Byte) : (s.writePa a bs).checkpointing = s.checkpointing := rfl
@[simp] theorem State.writePa_codec (s : State) (a : Nat) (bs : List Byte) : (s.writePa a bs).codec = s.codec := rfl
@[simp] theorem State.writePa_crucible (s : State) (a : Nat) (bs : List Byte) : (s.writePa a bs).crucible = s.crucible := rfl
@[simp] theorem State.writePa_larder (s : State) (a : Nat) (bs : List Byte) : (s.writePa a bs).larder = s.larder := rfl
@[simp] theorem State.writePa_cache (s : State) (a : Nat) (bs : List Byte) : (s.writePa a bs).cache = s.cache := rfl
@[simp] theorem State.writePa_routes (s : State) (a : Nat) (bs : List Byte) : (s.writePa a bs).routes = s.routes := rfl
@[simp] theorem State.writePa_endpoints (s : State) (a : Nat) (bs : List Byte) : (s.writePa a bs).endpoints = s.endpoints := rfl
@[simp] theorem State.writePa_credits (s : State) (a : Nat) (bs : List Byte) : (s.writePa a bs).credits = s.credits := rfl
@[simp] theorem State.writePa_seen (s : State) (a : Nat) (bs : List Byte) : (s.writePa a bs).seen = s.seen := rfl
@[simp] theorem State.writePa_ingress (s : State) (a : Nat) (bs : List Byte) : (s.writePa a bs).ingress = s.ingress := rfl
@[simp] theorem State.writePa_arrived (s : State) (a : Nat) (bs : List Byte) : (s.writePa a bs).arrived = s.arrived := rfl
@[simp] theorem State.writePa_counts (s : State) (a : Nat) (bs : List Byte) : (s.writePa a bs).counts = s.counts := rfl
@[simp] theorem State.writePa_remotes (s : State) (a : Nat) (bs : List Byte) : (s.writePa a bs).remotes = s.remotes := rfl
@[simp] theorem State.writePa_fetched (s : State) (a : Nat) (bs : List Byte) : (s.writePa a bs).fetched = s.fetched := rfl
@[simp] theorem State.writePa_out (s : State) (a : Nat) (bs : List Byte) : (s.writePa a bs).out = s.out := rfl
@[simp] theorem State.writePa_thermal (s : State) (a : Nat) (bs : List Byte) : (s.writePa a bs).thermal = s.thermal := rfl
@[simp] theorem State.writePa_telemetry (s : State) (a : Nat) (bs : List Byte) : (s.writePa a bs).telemetry = s.telemetry := rfl
@[simp] theorem State.writePa_tests (s : State) (a : Nat) (bs : List Byte) : (s.writePa a bs).tests = s.tests := rfl
@[simp] theorem State.writePa_errorLog (s : State) (a : Nat) (bs : List Byte) : (s.writePa a bs).errorLog = s.errorLog := rfl
@[simp] theorem State.writePa_digests (s : State) (a : Nat) (bs : List Byte) : (s.writePa a bs).digests = s.digests := rfl
@[simp] theorem State.writePa_ioResult (s : State) (a : Nat) (bs : List Byte) : (s.writePa a bs).ioResult = s.ioResult := rfl
@[simp] theorem State.writePa_hostWait (s : State) (a : Nat) (bs : List Byte) : (s.writePa a bs).hostWait = s.hostWait := rfl
@[simp] theorem State.writePa_blocked (s : State) (a : Nat) (bs : List Byte) : (s.writePa a bs).blocked = s.blocked := rfl
@[simp] theorem State.writePa_resetting (s : State) (a : Nat) (bs : List Byte) : (s.writePa a bs).resetting = s.resetting := rfl
@[simp] theorem State.writePa_ctr (s : State) (a : Nat) (bs : List Byte) : (s.writePa a bs).ctr = s.ctr := rfl

/-! ### `State.waitLanes` -/

@[simp] theorem State.waitLanes_clock (s : State) (w : Warp) (ls : List Nat) (why : Wait) : (s.waitLanes w ls why).clock = s.clock := rfl
@[simp] theorem State.waitLanes_work (s : State) (w : Warp) (ls : List Nat) (why : Wait) : (s.waitLanes w ls why).work = s.work := rfl
@[simp] theorem State.waitLanes_free (s : State) (w : Warp) (ls : List Nat) (why : Wait) : (s.waitLanes w ls why).free = s.free := rfl
@[simp] theorem State.waitLanes_agenda (s : State) (w : Warp) (ls : List Nat) (why : Wait) : (s.waitLanes w ls why).agenda = s.agenda := rfl
@[simp] theorem State.waitLanes_arg (s : State) (w : Warp) (ls : List Nat) (why : Wait) : (s.waitLanes w ls why).arg = s.arg := rfl
@[simp] theorem State.waitLanes_turn (s : State) (w : Warp) (ls : List Nat) (why : Wait) : (s.waitLanes w ls why).turn = s.turn := rfl
@[simp] theorem State.waitLanes_taking (s : State) (w : Warp) (ls : List Nat) (why : Wait) : (s.waitLanes w ls why).taking = s.taking := rfl
@[simp] theorem State.waitLanes_cur (s : State) (w : Warp) (ls : List Nat) (why : Wait) : (s.waitLanes w ls why).cur = s.cur := rfl
@[simp] theorem State.waitLanes_boot (s : State) (w : Warp) (ls : List Nat) (why : Wait) : (s.waitLanes w ls why).boot = s.boot := rfl
@[simp] theorem State.waitLanes_mailbox (s : State) (w : Warp) (ls : List Nat) (why : Wait) : (s.waitLanes w ls why).mailbox = s.mailbox := rfl
@[simp] theorem State.waitLanes_features (s : State) (w : Warp) (ls : List Nat) (why : Wait) : (s.waitLanes w ls why).features = s.features := rfl
@[simp] theorem State.waitLanes_pkg (s : State) (w : Warp) (ls : List Nat) (why : Wait) : (s.waitLanes w ls why).pkg = s.pkg := rfl
@[simp] theorem State.waitLanes_ports (s : State) (w : Warp) (ls : List Nat) (why : Wait) : (s.waitLanes w ls why).ports = s.ports := rfl
@[simp] theorem State.waitLanes_mem (s : State) (w : Warp) (ls : List Nat) (why : Wait) : (s.waitLanes w ls why).mem = s.mem := rfl
@[simp] theorem State.waitLanes_oldCode (s : State) (w : Warp) (ls : List Nat) (why : Wait) : (s.waitLanes w ls why).oldCode = s.oldCode := rfl
@[simp] theorem State.waitLanes_keys (s : State) (w : Warp) (ls : List Nat) (why : Wait) : (s.waitLanes w ls why).keys = s.keys := rfl
@[simp] theorem State.waitLanes_tenants (s : State) (w : Warp) (ls : List Nat) (why : Wait) : (s.waitLanes w ls why).tenants = s.tenants := rfl
@[simp] theorem State.waitLanes_badLines (s : State) (w : Warp) (ls : List Nat) (why : Wait) : (s.waitLanes w ls why).badLines = s.badLines := rfl
@[simp] theorem State.waitLanes_pasids (s : State) (w : Warp) (ls : List Nat) (why : Wait) : (s.waitLanes w ls why).pasids = s.pasids := rfl
@[simp] theorem State.waitLanes_tlb (s : State) (w : Warp) (ls : List Nat) (why : Wait) : (s.waitLanes w ls why).tlb = s.tlb := rfl
@[simp] theorem State.waitLanes_queues (s : State) (w : Warp) (ls : List Nat) (why : Wait) : (s.waitLanes w ls why).queues = s.queues := rfl
@[simp] theorem State.waitLanes_faultQs (s : State) (w : Warp) (ls : List Nat) (why : Wait) : (s.waitLanes w ls why).faultQs = s.faultQs := rfl
@[simp] theorem State.waitLanes_faultWaits (s : State) (w : Warp) (ls : List Nat) (why : Wait) : (s.waitLanes w ls why).faultWaits = s.faultWaits := rfl
@[simp] theorem State.waitLanes_status (s : State) (w : Warp) (ls : List Nat) (why : Wait) : (s.waitLanes w ls why).status = s.status := rfl
@[simp] theorem State.waitLanes_eventQ (s : State) (w : Warp) (ls : List Nat) (why : Wait) : (s.waitLanes w ls why).eventQ = s.eventQ := rfl
@[simp] theorem State.waitLanes_launches (s : State) (w : Warp) (ls : List Nat) (why : Wait) : (s.waitLanes w ls why).launches = s.launches := rfl
@[simp] theorem State.waitLanes_blocks (s : State) (w : Warp) (ls : List Nat) (why : Wait) : (s.waitLanes w ls why).blocks = s.blocks := rfl
@[simp] theorem State.waitLanes_cores (s : State) (w : Warp) (ls : List Nat) (why : Wait) : (s.waitLanes w ls why).cores = s.cores := rfl
@[simp] theorem State.waitLanes_contexts (s : State) (w : Warp) (ls : List Nat) (why : Wait) : (s.waitLanes w ls why).contexts = s.contexts := rfl
@[simp] theorem State.waitLanes_pools (s : State) (w : Warp) (ls : List Nat) (why : Wait) : (s.waitLanes w ls why).pools = s.pools := rfl
@[simp] theorem State.waitLanes_quads (s : State) (w : Warp) (ls : List Nat) (why : Wait) : (s.waitLanes w ls why).quads = s.quads := rfl
@[simp] theorem State.waitLanes_engines (s : State) (w : Warp) (ls : List Nat) (why : Wait) : (s.waitLanes w ls why).engines = s.engines := rfl
@[simp] theorem State.waitLanes_rays (s : State) (w : Warp) (ls : List Nat) (why : Wait) : (s.waitLanes w ls why).rays = s.rays := rfl
@[simp] theorem State.waitLanes_regions (s : State) (w : Warp) (ls : List Nat) (why : Wait) : (s.waitLanes w ls why).regions = s.regions := rfl
@[simp] theorem State.waitLanes_checkpointing (s : State) (w : Warp) (ls : List Nat) (why : Wait) : (s.waitLanes w ls why).checkpointing = s.checkpointing := rfl
@[simp] theorem State.waitLanes_codec (s : State) (w : Warp) (ls : List Nat) (why : Wait) : (s.waitLanes w ls why).codec = s.codec := rfl
@[simp] theorem State.waitLanes_crucible (s : State) (w : Warp) (ls : List Nat) (why : Wait) : (s.waitLanes w ls why).crucible = s.crucible := rfl
@[simp] theorem State.waitLanes_larder (s : State) (w : Warp) (ls : List Nat) (why : Wait) : (s.waitLanes w ls why).larder = s.larder := rfl
@[simp] theorem State.waitLanes_cache (s : State) (w : Warp) (ls : List Nat) (why : Wait) : (s.waitLanes w ls why).cache = s.cache := rfl
@[simp] theorem State.waitLanes_routes (s : State) (w : Warp) (ls : List Nat) (why : Wait) : (s.waitLanes w ls why).routes = s.routes := rfl
@[simp] theorem State.waitLanes_endpoints (s : State) (w : Warp) (ls : List Nat) (why : Wait) : (s.waitLanes w ls why).endpoints = s.endpoints := rfl
@[simp] theorem State.waitLanes_credits (s : State) (w : Warp) (ls : List Nat) (why : Wait) : (s.waitLanes w ls why).credits = s.credits := rfl
@[simp] theorem State.waitLanes_seen (s : State) (w : Warp) (ls : List Nat) (why : Wait) : (s.waitLanes w ls why).seen = s.seen := rfl
@[simp] theorem State.waitLanes_ingress (s : State) (w : Warp) (ls : List Nat) (why : Wait) : (s.waitLanes w ls why).ingress = s.ingress := rfl
@[simp] theorem State.waitLanes_arrived (s : State) (w : Warp) (ls : List Nat) (why : Wait) : (s.waitLanes w ls why).arrived = s.arrived := rfl
@[simp] theorem State.waitLanes_counts (s : State) (w : Warp) (ls : List Nat) (why : Wait) : (s.waitLanes w ls why).counts = s.counts := rfl
@[simp] theorem State.waitLanes_remotes (s : State) (w : Warp) (ls : List Nat) (why : Wait) : (s.waitLanes w ls why).remotes = s.remotes := rfl
@[simp] theorem State.waitLanes_fetched (s : State) (w : Warp) (ls : List Nat) (why : Wait) : (s.waitLanes w ls why).fetched = s.fetched := rfl
@[simp] theorem State.waitLanes_out (s : State) (w : Warp) (ls : List Nat) (why : Wait) : (s.waitLanes w ls why).out = s.out := rfl
@[simp] theorem State.waitLanes_thermal (s : State) (w : Warp) (ls : List Nat) (why : Wait) : (s.waitLanes w ls why).thermal = s.thermal := rfl
@[simp] theorem State.waitLanes_telemetry (s : State) (w : Warp) (ls : List Nat) (why : Wait) : (s.waitLanes w ls why).telemetry = s.telemetry := rfl
@[simp] theorem State.waitLanes_tests (s : State) (w : Warp) (ls : List Nat) (why : Wait) : (s.waitLanes w ls why).tests = s.tests := rfl
@[simp] theorem State.waitLanes_errorLog (s : State) (w : Warp) (ls : List Nat) (why : Wait) : (s.waitLanes w ls why).errorLog = s.errorLog := rfl
@[simp] theorem State.waitLanes_digests (s : State) (w : Warp) (ls : List Nat) (why : Wait) : (s.waitLanes w ls why).digests = s.digests := rfl
@[simp] theorem State.waitLanes_ioResult (s : State) (w : Warp) (ls : List Nat) (why : Wait) : (s.waitLanes w ls why).ioResult = s.ioResult := rfl
@[simp] theorem State.waitLanes_hostWait (s : State) (w : Warp) (ls : List Nat) (why : Wait) : (s.waitLanes w ls why).hostWait = s.hostWait := rfl
@[simp] theorem State.waitLanes_blocked (s : State) (w : Warp) (ls : List Nat) (why : Wait) : (s.waitLanes w ls why).blocked = s.blocked := rfl
@[simp] theorem State.waitLanes_resetting (s : State) (w : Warp) (ls : List Nat) (why : Wait) : (s.waitLanes w ls why).resetting = s.resetting := rfl
@[simp] theorem State.waitLanes_ctr (s : State) (w : Warp) (ls : List Nat) (why : Wait) : (s.waitLanes w ls why).ctr = s.ctr := rfl

/-! ### `State.stall` -/

@[simp] theorem State.stall_clock (s : State) (w : Warp) : (s.stall w).clock = s.clock := rfl
@[simp] theorem State.stall_work (s : State) (w : Warp) : (s.stall w).work = s.work := rfl
@[simp] theorem State.stall_free (s : State) (w : Warp) : (s.stall w).free = s.free := rfl
@[simp] theorem State.stall_agenda (s : State) (w : Warp) : (s.stall w).agenda = s.agenda := rfl
@[simp] theorem State.stall_arg (s : State) (w : Warp) : (s.stall w).arg = s.arg := rfl
@[simp] theorem State.stall_turn (s : State) (w : Warp) : (s.stall w).turn = s.turn := rfl
@[simp] theorem State.stall_taking (s : State) (w : Warp) : (s.stall w).taking = s.taking := rfl
@[simp] theorem State.stall_cur (s : State) (w : Warp) : (s.stall w).cur = s.cur := rfl
@[simp] theorem State.stall_boot (s : State) (w : Warp) : (s.stall w).boot = s.boot := rfl
@[simp] theorem State.stall_mailbox (s : State) (w : Warp) : (s.stall w).mailbox = s.mailbox := rfl
@[simp] theorem State.stall_features (s : State) (w : Warp) : (s.stall w).features = s.features := rfl
@[simp] theorem State.stall_pkg (s : State) (w : Warp) : (s.stall w).pkg = s.pkg := rfl
@[simp] theorem State.stall_ports (s : State) (w : Warp) : (s.stall w).ports = s.ports := rfl
@[simp] theorem State.stall_mem (s : State) (w : Warp) : (s.stall w).mem = s.mem := rfl
@[simp] theorem State.stall_oldCode (s : State) (w : Warp) : (s.stall w).oldCode = s.oldCode := rfl
@[simp] theorem State.stall_keys (s : State) (w : Warp) : (s.stall w).keys = s.keys := rfl
@[simp] theorem State.stall_tenants (s : State) (w : Warp) : (s.stall w).tenants = s.tenants := rfl
@[simp] theorem State.stall_badLines (s : State) (w : Warp) : (s.stall w).badLines = s.badLines := rfl
@[simp] theorem State.stall_pasids (s : State) (w : Warp) : (s.stall w).pasids = s.pasids := rfl
@[simp] theorem State.stall_tlb (s : State) (w : Warp) : (s.stall w).tlb = s.tlb := rfl
@[simp] theorem State.stall_queues (s : State) (w : Warp) : (s.stall w).queues = s.queues := rfl
@[simp] theorem State.stall_faultQs (s : State) (w : Warp) : (s.stall w).faultQs = s.faultQs := rfl
@[simp] theorem State.stall_faultWaits (s : State) (w : Warp) : (s.stall w).faultWaits = s.faultWaits := rfl
@[simp] theorem State.stall_status (s : State) (w : Warp) : (s.stall w).status = s.status := rfl
@[simp] theorem State.stall_eventQ (s : State) (w : Warp) : (s.stall w).eventQ = s.eventQ := rfl
@[simp] theorem State.stall_launches (s : State) (w : Warp) : (s.stall w).launches = s.launches := rfl
@[simp] theorem State.stall_blocks (s : State) (w : Warp) : (s.stall w).blocks = s.blocks := rfl
@[simp] theorem State.stall_cores (s : State) (w : Warp) : (s.stall w).cores = s.cores := rfl
@[simp] theorem State.stall_contexts (s : State) (w : Warp) : (s.stall w).contexts = s.contexts := rfl
@[simp] theorem State.stall_pools (s : State) (w : Warp) : (s.stall w).pools = s.pools := rfl
@[simp] theorem State.stall_quads (s : State) (w : Warp) : (s.stall w).quads = s.quads := rfl
@[simp] theorem State.stall_engines (s : State) (w : Warp) : (s.stall w).engines = s.engines := rfl
@[simp] theorem State.stall_rays (s : State) (w : Warp) : (s.stall w).rays = s.rays := rfl
@[simp] theorem State.stall_regions (s : State) (w : Warp) : (s.stall w).regions = s.regions := rfl
@[simp] theorem State.stall_checkpointing (s : State) (w : Warp) : (s.stall w).checkpointing = s.checkpointing := rfl
@[simp] theorem State.stall_codec (s : State) (w : Warp) : (s.stall w).codec = s.codec := rfl
@[simp] theorem State.stall_crucible (s : State) (w : Warp) : (s.stall w).crucible = s.crucible := rfl
@[simp] theorem State.stall_larder (s : State) (w : Warp) : (s.stall w).larder = s.larder := rfl
@[simp] theorem State.stall_cache (s : State) (w : Warp) : (s.stall w).cache = s.cache := rfl
@[simp] theorem State.stall_routes (s : State) (w : Warp) : (s.stall w).routes = s.routes := rfl
@[simp] theorem State.stall_endpoints (s : State) (w : Warp) : (s.stall w).endpoints = s.endpoints := rfl
@[simp] theorem State.stall_credits (s : State) (w : Warp) : (s.stall w).credits = s.credits := rfl
@[simp] theorem State.stall_seen (s : State) (w : Warp) : (s.stall w).seen = s.seen := rfl
@[simp] theorem State.stall_ingress (s : State) (w : Warp) : (s.stall w).ingress = s.ingress := rfl
@[simp] theorem State.stall_arrived (s : State) (w : Warp) : (s.stall w).arrived = s.arrived := rfl
@[simp] theorem State.stall_counts (s : State) (w : Warp) : (s.stall w).counts = s.counts := rfl
@[simp] theorem State.stall_remotes (s : State) (w : Warp) : (s.stall w).remotes = s.remotes := rfl
@[simp] theorem State.stall_fetched (s : State) (w : Warp) : (s.stall w).fetched = s.fetched := rfl
@[simp] theorem State.stall_out (s : State) (w : Warp) : (s.stall w).out = s.out := rfl
@[simp] theorem State.stall_thermal (s : State) (w : Warp) : (s.stall w).thermal = s.thermal := rfl
@[simp] theorem State.stall_telemetry (s : State) (w : Warp) : (s.stall w).telemetry = s.telemetry := rfl
@[simp] theorem State.stall_tests (s : State) (w : Warp) : (s.stall w).tests = s.tests := rfl
@[simp] theorem State.stall_errorLog (s : State) (w : Warp) : (s.stall w).errorLog = s.errorLog := rfl
@[simp] theorem State.stall_digests (s : State) (w : Warp) : (s.stall w).digests = s.digests := rfl
@[simp] theorem State.stall_ioResult (s : State) (w : Warp) : (s.stall w).ioResult = s.ioResult := rfl
@[simp] theorem State.stall_hostWait (s : State) (w : Warp) : (s.stall w).hostWait = s.hostWait := rfl
@[simp] theorem State.stall_blocked (s : State) (w : Warp) : (s.stall w).blocked = s.blocked := rfl
@[simp] theorem State.stall_resetting (s : State) (w : Warp) : (s.stall w).resetting = s.resetting := rfl
@[simp] theorem State.stall_ctr (s : State) (w : Warp) : (s.stall w).ctr = s.ctr := rfl

/-! ### `State.modCore` -/

@[simp] theorem State.modCore_clock (s : State) (n : Nat) (f : Core → Core) : (s.modCore n f).clock = s.clock := by
  unfold State.modCore; split <;> rfl
@[simp] theorem State.modCore_work (s : State) (n : Nat) (f : Core → Core) : (s.modCore n f).work = s.work := by
  unfold State.modCore; split <;> rfl
@[simp] theorem State.modCore_free (s : State) (n : Nat) (f : Core → Core) : (s.modCore n f).free = s.free := by
  unfold State.modCore; split <;> rfl
@[simp] theorem State.modCore_agenda (s : State) (n : Nat) (f : Core → Core) : (s.modCore n f).agenda = s.agenda := by
  unfold State.modCore; split <;> rfl
@[simp] theorem State.modCore_arg (s : State) (n : Nat) (f : Core → Core) : (s.modCore n f).arg = s.arg := by
  unfold State.modCore; split <;> rfl
@[simp] theorem State.modCore_turn (s : State) (n : Nat) (f : Core → Core) : (s.modCore n f).turn = s.turn := by
  unfold State.modCore; split <;> rfl
@[simp] theorem State.modCore_taking (s : State) (n : Nat) (f : Core → Core) : (s.modCore n f).taking = s.taking := by
  unfold State.modCore; split <;> rfl
@[simp] theorem State.modCore_cur (s : State) (n : Nat) (f : Core → Core) : (s.modCore n f).cur = s.cur := by
  unfold State.modCore; split <;> rfl
@[simp] theorem State.modCore_boot (s : State) (n : Nat) (f : Core → Core) : (s.modCore n f).boot = s.boot := by
  unfold State.modCore; split <;> rfl
@[simp] theorem State.modCore_mailbox (s : State) (n : Nat) (f : Core → Core) : (s.modCore n f).mailbox = s.mailbox := by
  unfold State.modCore; split <;> rfl
@[simp] theorem State.modCore_features (s : State) (n : Nat) (f : Core → Core) : (s.modCore n f).features = s.features := by
  unfold State.modCore; split <;> rfl
@[simp] theorem State.modCore_pkg (s : State) (n : Nat) (f : Core → Core) : (s.modCore n f).pkg = s.pkg := by
  unfold State.modCore; split <;> rfl
@[simp] theorem State.modCore_ports (s : State) (n : Nat) (f : Core → Core) : (s.modCore n f).ports = s.ports := by
  unfold State.modCore; split <;> rfl
@[simp] theorem State.modCore_mem (s : State) (n : Nat) (f : Core → Core) : (s.modCore n f).mem = s.mem := by
  unfold State.modCore; split <;> rfl
@[simp] theorem State.modCore_oldCode (s : State) (n : Nat) (f : Core → Core) : (s.modCore n f).oldCode = s.oldCode := by
  unfold State.modCore; split <;> rfl
@[simp] theorem State.modCore_keys (s : State) (n : Nat) (f : Core → Core) : (s.modCore n f).keys = s.keys := by
  unfold State.modCore; split <;> rfl
@[simp] theorem State.modCore_tenants (s : State) (n : Nat) (f : Core → Core) : (s.modCore n f).tenants = s.tenants := by
  unfold State.modCore; split <;> rfl
@[simp] theorem State.modCore_badLines (s : State) (n : Nat) (f : Core → Core) : (s.modCore n f).badLines = s.badLines := by
  unfold State.modCore; split <;> rfl
@[simp] theorem State.modCore_pasids (s : State) (n : Nat) (f : Core → Core) : (s.modCore n f).pasids = s.pasids := by
  unfold State.modCore; split <;> rfl
@[simp] theorem State.modCore_tlb (s : State) (n : Nat) (f : Core → Core) : (s.modCore n f).tlb = s.tlb := by
  unfold State.modCore; split <;> rfl
@[simp] theorem State.modCore_queues (s : State) (n : Nat) (f : Core → Core) : (s.modCore n f).queues = s.queues := by
  unfold State.modCore; split <;> rfl
@[simp] theorem State.modCore_faultQs (s : State) (n : Nat) (f : Core → Core) : (s.modCore n f).faultQs = s.faultQs := by
  unfold State.modCore; split <;> rfl
@[simp] theorem State.modCore_faultWaits (s : State) (n : Nat) (f : Core → Core) : (s.modCore n f).faultWaits = s.faultWaits := by
  unfold State.modCore; split <;> rfl
@[simp] theorem State.modCore_status (s : State) (n : Nat) (f : Core → Core) : (s.modCore n f).status = s.status := by
  unfold State.modCore; split <;> rfl
@[simp] theorem State.modCore_eventQ (s : State) (n : Nat) (f : Core → Core) : (s.modCore n f).eventQ = s.eventQ := by
  unfold State.modCore; split <;> rfl
@[simp] theorem State.modCore_launches (s : State) (n : Nat) (f : Core → Core) : (s.modCore n f).launches = s.launches := by
  unfold State.modCore; split <;> rfl
@[simp] theorem State.modCore_blocks (s : State) (n : Nat) (f : Core → Core) : (s.modCore n f).blocks = s.blocks := by
  unfold State.modCore; split <;> rfl
@[simp] theorem State.modCore_warps (s : State) (n : Nat) (f : Core → Core) : (s.modCore n f).warps = s.warps := by
  unfold State.modCore; split <;> rfl
@[simp] theorem State.modCore_contexts (s : State) (n : Nat) (f : Core → Core) : (s.modCore n f).contexts = s.contexts := by
  unfold State.modCore; split <;> rfl
@[simp] theorem State.modCore_pools (s : State) (n : Nat) (f : Core → Core) : (s.modCore n f).pools = s.pools := by
  unfold State.modCore; split <;> rfl
@[simp] theorem State.modCore_quads (s : State) (n : Nat) (f : Core → Core) : (s.modCore n f).quads = s.quads := by
  unfold State.modCore; split <;> rfl
@[simp] theorem State.modCore_engines (s : State) (n : Nat) (f : Core → Core) : (s.modCore n f).engines = s.engines := by
  unfold State.modCore; split <;> rfl
@[simp] theorem State.modCore_rays (s : State) (n : Nat) (f : Core → Core) : (s.modCore n f).rays = s.rays := by
  unfold State.modCore; split <;> rfl
@[simp] theorem State.modCore_regions (s : State) (n : Nat) (f : Core → Core) : (s.modCore n f).regions = s.regions := by
  unfold State.modCore; split <;> rfl
@[simp] theorem State.modCore_checkpointing (s : State) (n : Nat) (f : Core → Core) : (s.modCore n f).checkpointing = s.checkpointing := by
  unfold State.modCore; split <;> rfl
@[simp] theorem State.modCore_codec (s : State) (n : Nat) (f : Core → Core) : (s.modCore n f).codec = s.codec := by
  unfold State.modCore; split <;> rfl
@[simp] theorem State.modCore_crucible (s : State) (n : Nat) (f : Core → Core) : (s.modCore n f).crucible = s.crucible := by
  unfold State.modCore; split <;> rfl
@[simp] theorem State.modCore_larder (s : State) (n : Nat) (f : Core → Core) : (s.modCore n f).larder = s.larder := by
  unfold State.modCore; split <;> rfl
@[simp] theorem State.modCore_cache (s : State) (n : Nat) (f : Core → Core) : (s.modCore n f).cache = s.cache := by
  unfold State.modCore; split <;> rfl
@[simp] theorem State.modCore_routes (s : State) (n : Nat) (f : Core → Core) : (s.modCore n f).routes = s.routes := by
  unfold State.modCore; split <;> rfl
@[simp] theorem State.modCore_endpoints (s : State) (n : Nat) (f : Core → Core) : (s.modCore n f).endpoints = s.endpoints := by
  unfold State.modCore; split <;> rfl
@[simp] theorem State.modCore_credits (s : State) (n : Nat) (f : Core → Core) : (s.modCore n f).credits = s.credits := by
  unfold State.modCore; split <;> rfl
@[simp] theorem State.modCore_seen (s : State) (n : Nat) (f : Core → Core) : (s.modCore n f).seen = s.seen := by
  unfold State.modCore; split <;> rfl
@[simp] theorem State.modCore_ingress (s : State) (n : Nat) (f : Core → Core) : (s.modCore n f).ingress = s.ingress := by
  unfold State.modCore; split <;> rfl
@[simp] theorem State.modCore_arrived (s : State) (n : Nat) (f : Core → Core) : (s.modCore n f).arrived = s.arrived := by
  unfold State.modCore; split <;> rfl
@[simp] theorem State.modCore_counts (s : State) (n : Nat) (f : Core → Core) : (s.modCore n f).counts = s.counts := by
  unfold State.modCore; split <;> rfl
@[simp] theorem State.modCore_remotes (s : State) (n : Nat) (f : Core → Core) : (s.modCore n f).remotes = s.remotes := by
  unfold State.modCore; split <;> rfl
@[simp] theorem State.modCore_fetched (s : State) (n : Nat) (f : Core → Core) : (s.modCore n f).fetched = s.fetched := by
  unfold State.modCore; split <;> rfl
@[simp] theorem State.modCore_out (s : State) (n : Nat) (f : Core → Core) : (s.modCore n f).out = s.out := by
  unfold State.modCore; split <;> rfl
@[simp] theorem State.modCore_thermal (s : State) (n : Nat) (f : Core → Core) : (s.modCore n f).thermal = s.thermal := by
  unfold State.modCore; split <;> rfl
@[simp] theorem State.modCore_telemetry (s : State) (n : Nat) (f : Core → Core) : (s.modCore n f).telemetry = s.telemetry := by
  unfold State.modCore; split <;> rfl
@[simp] theorem State.modCore_tests (s : State) (n : Nat) (f : Core → Core) : (s.modCore n f).tests = s.tests := by
  unfold State.modCore; split <;> rfl
@[simp] theorem State.modCore_errorLog (s : State) (n : Nat) (f : Core → Core) : (s.modCore n f).errorLog = s.errorLog := by
  unfold State.modCore; split <;> rfl
@[simp] theorem State.modCore_digests (s : State) (n : Nat) (f : Core → Core) : (s.modCore n f).digests = s.digests := by
  unfold State.modCore; split <;> rfl
@[simp] theorem State.modCore_ioResult (s : State) (n : Nat) (f : Core → Core) : (s.modCore n f).ioResult = s.ioResult := by
  unfold State.modCore; split <;> rfl
@[simp] theorem State.modCore_hostWait (s : State) (n : Nat) (f : Core → Core) : (s.modCore n f).hostWait = s.hostWait := by
  unfold State.modCore; split <;> rfl
@[simp] theorem State.modCore_blocked (s : State) (n : Nat) (f : Core → Core) : (s.modCore n f).blocked = s.blocked := by
  unfold State.modCore; split <;> rfl
@[simp] theorem State.modCore_resetting (s : State) (n : Nat) (f : Core → Core) : (s.modCore n f).resetting = s.resetting := by
  unfold State.modCore; split <;> rfl
@[simp] theorem State.modCore_ctr (s : State) (n : Nat) (f : Core → Core) : (s.modCore n f).ctr = s.ctr := by
  unfold State.modCore; split <;> rfl

end Sys2Proof.Machine
end

