-- ==== Sys2Proof/Laws/Registers.lean ====
section
/-! SUPPORT. What a list of register writes and the commit of an instruction leave in each register of each lane. -/
namespace Sys2Proof.Machine

/-! ### Lists -/

theorem length_modifyNth {α : Type} (xs : List α) (n : Nat) (f : α → α) : (modifyNth xs n f).length = xs.length := by
  induction xs generalizing n with
  | nil => rfl
  | cons x xs ih => cases n <;> simp [modifyNth, ih]

theorem getElem?_modifyNth {α : Type} (xs : List α) (n m : Nat) (f : α → α) :
    (modifyNth xs n f)[m]? = if m = n then xs[m]?.map f else xs[m]? := by
  induction xs generalizing n m with
  | nil => simp [modifyNth]
  | cons x xs ih =>
    cases n <;> cases m <;> simp [modifyNth, ih]

/-- Element `m` after a change of element `n`. -/
theorem getD_modifyNth {α : Type} (xs : List α) (n m : Nat) (f : α → α) (z : α) :
    (modifyNth xs n f).getD m z = if m = n ∧ n < xs.length then f (xs.getD m z) else xs.getD m z := by
  simp only [List.getD_eq_getElem?_getD, getElem?_modifyNth]
  by_cases h : m = n
  · subst h
    by_cases hl : m < xs.length
    · simp [hl]
    · simp [hl]
  · simp [h]

theorem mem_dedup {α : Type} [DecidableEq α] (xs : List α) (a : α) : a ∈ dedup xs ↔ a ∈ xs := by
  have key : ∀ (xs acc : List α), a ∈ xs.foldl (fun acc x => if acc.contains x then acc else acc ++ [x]) acc ↔ a ∈ acc ∨ a ∈ xs := by
    intro xs
    induction xs with
    | nil => simp
    | cons x xs ih =>
      intro acc
      simp only [List.foldl_cons, List.mem_cons]
      rw [ih]
      by_cases hx : acc.contains x = true
      · rw [if_pos hx]
        have : x ∈ acc := by simpa using hx
        constructor
        · rintro (h | h) <;> simp [h]
        · rintro (h | rfl | h)
          · exact .inl h
          · exact .inl this
          · exact .inr h
      · rw [if_neg hx]
        simp only [List.mem_append, List.mem_singleton]
        tauto
  exact (key xs []).trans (by simp)

theorem nodup_dedup {α : Type} [DecidableEq α] (xs : List α) : (dedup xs).Nodup := by
  have key : ∀ (xs acc : List α), acc.Nodup → (xs.foldl (fun acc x => if acc.contains x then acc else acc ++ [x]) acc).Nodup := by
    intro xs
    induction xs with
    | nil => intro acc h; exact h
    | cons x xs ih =>
      intro acc h
      simp only [List.foldl_cons]
      apply ih
      by_cases hx : acc.contains x = true
      · rw [if_pos hx]; exact h
      · rw [if_neg hx]
        have : x ∉ acc := by simpa using hx
        exact List.nodup_append.2 ⟨h, by simp, by simp; exact fun a ha e => this (e ▸ ha)⟩
  exact key xs [] (by simp)

/-- A list without repeats is no longer than a list that holds all it holds. -/
theorem length_dedup_le {α : Type} [DecidableEq α] {xs ys : List α} (h : ∀ a ∈ xs, a ∈ ys) : (dedup xs).length ≤ ys.length :=
  List.Subperm.length_le ((nodup_dedup xs).subperm fun a ha => h a ((mem_dedup xs a).1 ha))

/-! ### Lanes -/

@[simp] theorem Warp.lane_eq (w : Warp) (l : Nat) : w.regs.lanes.getD l Lane.none = w.lane l := rfl

theorem lane_modLane (r : WarpRegs) (n l : Nat) (f : Lane → Lane) :
    (r.modLane n f).lanes.getD l Lane.none = if l = n ∧ n < r.lanes.length then f (r.lanes.getD l Lane.none) else r.lanes.getD l Lane.none :=
  getD_modifyNth _ _ _ _ _

@[simp] theorem length_modLane (r : WarpRegs) (n : Nat) (f : Lane → Lane) : (r.modLane n f).lanes.length = r.lanes.length :=
  length_modifyNth _ _ _

/-- The same change to some lanes: each lane of the list is changed once if the list has no repeats. -/
theorem lane_foldl_modLane (ls : List Nat) (hn : ls.Nodup) (r : WarpRegs) (l : Nat) (f : Lane → Lane) :
    (ls.foldl (fun r n => r.modLane n f) r).lanes.getD l Lane.none
      = if l ∈ ls ∧ l < r.lanes.length then f (r.lanes.getD l Lane.none) else r.lanes.getD l Lane.none := by
  induction ls generalizing r with
  | nil => simp
  | cons n ls ih =>
    obtain ⟨h1, h2⟩ := List.nodup_cons.1 hn
    rw [List.foldl_cons, ih h2, lane_modLane, length_modLane]
    by_cases hl : l = n
    · subst hl; simp [h1]
    · simp [hl]

theorem length_foldl_modLane (ls : List Nat) (r : WarpRegs) (f : Lane → Lane) :
    (ls.foldl (fun r n => r.modLane n f) r).lanes.length = r.lanes.length := by
  induction ls generalizing r with
  | nil => rfl
  | cons n ls ih => rw [List.foldl_cons, ih, length_modLane]

theorem foldl_modLane_other (ls : List Nat) (r : WarpRegs) (f : Lane → Lane) :
    ls.foldl (fun r n => r.modLane n f) r = { r with lanes := (ls.foldl (fun r n => r.modLane n f) r).lanes } := by
  induction ls generalizing r with
  | nil => rfl
  | cons n ls ih => rw [List.foldl_cons, ih]; rfl

/-- A lane after the same change to some lanes. -/
theorem Warp.lane_modLanes (w : Warp) (ls : List Nat) (hn : ls.Nodup) (l : Nat) (f : Lane → Lane) :
    (w.modLanes ls f).lane l = if l ∈ ls ∧ l < w.width then f (w.lane l) else w.lane l :=
  lane_foldl_modLane ls hn w.regs l f

theorem Warp.nodup_live (w : Warp) : w.live.Nodup := List.Nodup.filter _ List.nodup_range
theorem Warp.nodup_active (w : Warp) (m : BitVec 64) : (w.active m).Nodup := w.nodup_live.filter _
theorem State.nodup_act (s : State) (w : Warp) : (s.act w).Nodup := w.nodup_active _
theorem State.nodup_exec (s : State) (w : Warp) (a b : Guard) : (s.exec w a b).Nodup := (s.nodup_act w).filter _
theorem Warp.lt_of_mem_live {w : Warp} {l : Nat} (h : l ∈ w.live) : l < w.width := by
  simpa using (List.mem_filter.1 h).1
theorem State.lt_of_mem_act {s : State} {w : Warp} {l : Nat} (h : l ∈ s.act w) : l < w.width :=
  Warp.lt_of_mem_live (List.mem_filter.1 h).1
theorem State.act_of_exec {s : State} {w : Warp} {a b : Guard} {l : Nat} (h : l ∈ s.exec w a b) : l ∈ s.act w :=
  (List.mem_filter.1 h).1
theorem State.lt_of_mem_exec {s : State} {w : Warp} {a b : Guard} {l : Nat} (h : l ∈ s.exec w a b) : l < w.width :=
  State.lt_of_mem_act (State.act_of_exec h)
theorem Warp.lane_mem {w : Warp} {l : Nat} (h : l < w.width) : w.lane l ∈ w.regs.lanes := by
  unfold Warp.lane
  rw [List.getD_eq_getElem?_getD, List.getElem?_eq_getElem h]
  exact List.getElem_mem h

/-! ### Register writes -/

/-- What a register write does in lane `l`. -/
def Lane.put (l : Nat) (t : Lane) : RegWrite → Lane
  | .v l' k x => if l' = l then { t with v := t.v.set k x } else t
  | .p l' k x => if l' = l then { t with p := setPred t.p k x } else t
  | _ => t

/-- Does a register write name no lane but `l`, and no register of the warp? -/
def RegWrite.inLane (l : Nat) : RegWrite → Bool
  | .v l' _ _ => l' == l
  | .p l' _ _ => l' == l
  | _ => false

theorem length_write (r : WarpRegs) (x : RegWrite) : (r.write x).lanes.length = r.lanes.length := by
  cases x <;> simp [WarpRegs.write]

theorem length_writes (r : WarpRegs) (ws : List RegWrite) : (r.writes ws).lanes.length = r.lanes.length := by
  unfold WarpRegs.writes
  induction ws generalizing r with
  | nil => rfl
  | cons x ws ih => rw [List.foldl_cons, ih, length_write]

theorem lane_write (r : WarpRegs) (x : RegWrite) (l : Nat) (hl : l < r.lanes.length) :
    (r.write x).lanes.getD l Lane.none = (r.lanes.getD l Lane.none).put l x := by
  cases x with
  | v l' k x =>
    simp only [WarpRegs.write, lane_modLane, Lane.put]
    by_cases h : l = l'
    · subst h; simp [hl]
    · simp [h, Ne.symm h]
  | p l' k x =>
    simp only [WarpRegs.write, lane_modLane, Lane.put]
    by_cases h : l = l'
    · subst h; simp [hl]
    · simp [h, Ne.symm h]
  | _ => rfl

/-- Lane `l` after a list of writes. -/
theorem lane_writes (r : WarpRegs) (ws : List RegWrite) (l : Nat) (hl : l < r.lanes.length) :
    (r.writes ws).lanes.getD l Lane.none = ws.foldl (Lane.put l) (r.lanes.getD l Lane.none) := by
  unfold WarpRegs.writes
  induction ws generalizing r with
  | nil => rfl
  | cons x ws ih => rw [List.foldl_cons, ih _ (by rw [length_write]; exact hl), lane_write _ _ _ hl]; rfl

theorem put_other {l l' : Nat} (h : l' ≠ l) (t : Lane) (x : RegWrite) (hx : x.inLane l' = true) : t.put l x = t := by
  cases x <;> simp_all [RegWrite.inLane, Lane.put]

theorem puts_other {l l' : Nat} (h : l' ≠ l) (t : Lane) (ws : List RegWrite) (hw : ∀ x ∈ ws, x.inLane l' = true) :
    ws.foldl (Lane.put l) t = t := by
  induction ws generalizing t with
  | nil => rfl
  | cons x ws ih =>
    rw [List.foldl_cons, put_other h t x (hw x (by simp))]
    exact ih t fun y hy => hw y (by simp [hy])

/-- Where each lane of a list writes only its own registers, a lane sees its own writes. -/
theorem puts_flatMap (ls : List Nat) (hn : ls.Nodup) (g : Nat → List RegWrite) (hg : ∀ l', ∀ x ∈ g l', x.inLane l' = true) (l : Nat) (t : Lane) :
    (ls.flatMap g).foldl (Lane.put l) t = if l ∈ ls then (g l).foldl (Lane.put l) t else t := by
  induction ls generalizing t with
  | nil => rfl
  | cons n ls ih =>
    obtain ⟨h1, h2⟩ := List.nodup_cons.1 hn
    rw [List.flatMap_cons, List.foldl_append, ih h2]
    by_cases h : l = n
    · subst h; simp [h1]
    · rw [puts_other (fun e => h e.symm) t (g n) (hg n)]
      simp [h]

/-- Writes of lanes alone leave the registers of the warp. -/
theorem writes_lanes_only (r : WarpRegs) (ws : List RegWrite) (h : ∀ x ∈ ws, ∃ l, x.inLane l = true) :
    r.writes ws = { r with lanes := (r.writes ws).lanes } := by
  unfold WarpRegs.writes
  induction ws generalizing r with
  | nil => rfl
  | cons x ws ih =>
    rw [List.foldl_cons]
    have hx := h x (by simp)
    have ih' := ih (r.write x) fun y hy => h y (by simp [hy])
    rw [ih']
    obtain ⟨l, hl⟩ := hx
    cases x <;> first | rfl | cases hl

theorem puts_rest (l : Nat) (ws : List RegWrite) (t : Lane) : (ws.foldl (Lane.put l) t).rest = t.rest := by
  induction ws generalizing t with
  | nil => rfl
  | cons x ws ih =>
    rw [List.foldl_cons, ih]
    cases x <;> simp only [Lane.put] <;> (try split) <;> rfl
theorem puts_pc (l : Nat) (ws : List RegWrite) (t : Lane) : (ws.foldl (Lane.put l) t).pc = t.pc := by
  induction ws generalizing t with
  | nil => rfl
  | cons x ws ih =>
    rw [List.foldl_cons, ih]
    cases x <;> simp only [Lane.put] <;> (try split) <;> rfl

/-! ### The commit -/

/-- A lane after an instruction has committed its writes and moved on. -/
theorem lane_commit_advance (w : Warp) (i : Issue) (act : List Nat) (hn : act.Nodup) (ws : List RegWrite)
    (l : Nat) (hl : l < w.width) :
    ((w.commit ws).advance i act).lane l =
      let t := ws.foldl (Lane.put l) (w.lane l)
      if l ∈ act then { t with pc := t.pc + BitVec.ofNat 61 i.length, got := Option.none, plan := Option.none } else t := by
  unfold Warp.advance
  rw [Warp.lane_modLanes _ _ hn]
  have h1 : ∀ v : Warp, v.regs = w.regs.writes ws → v.width = w.width := by
    intro v h
    simp [Warp.width, h, length_writes]
  have h2 : ∀ v : Warp, v.regs = w.regs.writes ws → v.lane l = ws.foldl (Lane.put l) (w.lane l) := by
    intro v h
    unfold Warp.lane
    rw [h]
    exact lane_writes w.regs ws l hl
  rw [h1 _ rfl, h2 _ rfl]
  by_cases h : l ∈ act
  · simp [h, hl]
  · simp [h]

end Sys2Proof.Machine
end

