-- ==== Sys2Proof/Laws/Results.lean ====
section
/-! SUPPORT. The lane-by-lane drivers of Machine/Operands.lean give the results that Terms.lean speaks of. -/
namespace Sys2Proof.Machine

/-- The end of an instruction of a warp whose lanes each write their own registers. -/
theorem wrote_commit_advance (w : Warp) (i : Issue) (act ls : List Nat) (hact : act.Nodup) (hls : ls.Nodup) (hlt : ∀ l ∈ ls, l < w.width)
    (hact' : ∀ l ∈ act, l < w.width)
    (g : Nat → List RegWrite) (hg : ∀ l, ∀ x ∈ g l, x.inLane l = true) :
    Wrote w ((w.commit (ls.flatMap g)).advance i act) i act
      (fun l k => if l ∈ ls then ((g l).foldl (Lane.put l) (w.lane l)).v.getD k 0 else w.v l k)
      (fun l k => if l ∈ ls then (k == 15 || ((g l).foldl (Lane.put l) (w.lane l)).p.getLsbD k) else w.p l k)
      w.s w.bnr := by
  have hone : ∀ x ∈ ls.flatMap g, ∃ l, x.inLane l = true := by
    intro x hx
    obtain ⟨l, -, h⟩ := List.mem_flatMap.1 hx
    exact ⟨l, hg l x h⟩
  have hregs : ((w.commit (ls.flatMap g)).advance i act).regs
      = { w.regs with lanes := ((w.commit (ls.flatMap g)).advance i act).regs.lanes } := by
    have h := writes_lanes_only w.regs _ hone
    show (act.foldl _ (w.regs.writes _)) = _
    rw [foldl_modLane_other]
    have hs := congrArg WarpRegs.s h
    have hb := congrArg WarpRegs.bn h
    have ht := congrArg WarpRegs.trap h
    have hf := congrArg WarpRegs.fmtword h
    show WarpRegs.mk _ (w.regs.writes _).s (w.regs.writes _).bn (w.regs.writes _).trap (w.regs.writes _).fmtword = _
    rw [hs, hb, ht, hf]
    rfl
  have hw : ((w.commit (ls.flatMap g)).advance i act).width = w.width := by
    show (act.foldl _ (w.regs.writes _)).lanes.length = _
    rw [length_foldl_modLane, length_writes]; rfl
  have hlane : ∀ l, l < w.width → ((w.commit (ls.flatMap g)).advance i act).lane l =
      (let t := if l ∈ ls then (g l).foldl (Lane.put l) (w.lane l) else w.lane l
       if l ∈ act then { t with pc := t.pc + BitVec.ofNat 61 i.length, got := Option.none, plan := Option.none } else t) := by
    intro l hl
    rw [lane_commit_advance w i act hact _ l hl, puts_flatMap ls hls g hg]
  have hout : ∀ l, ¬ l < w.width → ((w.commit (ls.flatMap g)).advance i act).lane l = w.lane l := by
    intro l hl
    unfold Warp.lane
    rw [List.getD_eq_getElem?_getD, List.getD_eq_getElem?_getD, List.getElem?_eq_none, List.getElem?_eq_none]
    · exact Nat.le_of_not_lt hl
    · exact Nat.le_of_not_lt (fun h => hl (Nat.lt_of_lt_of_eq h hw))
  refine
    { v := ?_, p := ?_, u := ?_, bn := ?_, pc := ?_, thread := ?_, width := hw, trap := ?_, fmt := ?_, windows := rfl, spec := rfl, others := rfl }
  · intro l k
    by_cases hl : l < w.width
    · simp only [Warp.v, hlane l hl]
      by_cases h1 : l ∈ ls <;> by_cases h2 : l ∈ act <;> simp [h1, h2]
    · have h1 : l ∉ ls := fun h => hl (hlt l h)
      simp only [Warp.v, hout l hl, if_neg h1]
  · intro l k
    by_cases hl : l < w.width
    · simp only [Warp.p, hlane l hl]
      by_cases h1 : l ∈ ls <;> by_cases h2 : l ∈ act <;> simp [h1, h2]
    · have h1 : l ∉ ls := fun h => hl (hlt l h)
      simp only [Warp.p, hout l hl, if_neg h1]
  · intro k; simp only [Warp.s]; rw [hregs]
  · intro k; simp only [Warp.bnr]; rw [hregs]
  · intro l
    by_cases hl : l < w.width
    · rw [hlane l hl]
      by_cases h1 : l ∈ ls <;> by_cases h2 : l ∈ act <;> simp [h1, h2, puts_pc]
    · have h1 : l ∉ act := fun h => hl (hact' l h)
      simp only [hout l hl, if_neg h1]
  · intro l
    by_cases hl : l < w.width
    · rw [hlane l hl]
      by_cases h1 : l ∈ ls
      · by_cases h2 : l ∈ act
        · simp only [h1, h2, if_true]
          exact puts_rest l (g l) (w.lane l)
        · simp only [h1, h2, if_true, if_false]
          exact puts_rest l (g l) (w.lane l)
      · by_cases h2 : l ∈ act <;> simp [h1, h2, Lane.rest]
    · rw [hout l hl]
  · rw [hregs]
  · rw [hregs]

theorem logRoom_mono {w : Warp} {m n : Nat} (h : w.logRoom n = true) (hm : m ≤ n) : w.logRoom m = true := by
  simp only [Warp.logRoom, Bool.or_eq_true, decide_eq_true_eq] at *
  rcases h with h | h
  · exact .inl h
  · exact .inr (by omega)

/-- A value taken in the lanes of a list, where `a` agrees with `b`. -/
theorem Wrote.congr {w w' : Warp} {i : Issue} {act : List Nat} {v v' : Nat → Nat → W32} {p p' : Nat → Nat → Bool} {u : Nat → W64}
    {bn : Nat → BitVec 352} (h : Wrote w w' i act v p u bn) (hv : ∀ l k, v l k = v' l k) (hp : ∀ l k, p l k = p' l k) :
    Wrote w w' i act v' p' u bn :=
  { h with v := fun l k => (h.v l k).trans (hv l k), p := fun l k => (h.p l k).trans (hp l k) }

/-- The registers that lanes' writes name are among those that each lane's writes name. -/
theorem destsOf_flatMap_le {g : Nat → List RegWrite} {ds : List Dest} (h : ∀ l, ∀ d ∈ destsOf (g l), d ∈ ds) (ls : List Nat) :
    ∀ d ∈ destsOf (ls.flatMap g), d ∈ ds := by
  intro d hd
  obtain ⟨x, hx, hd⟩ := List.mem_filterMap.1 ((mem_dedup _ _).1 hd)
  obtain ⟨l, -, hl⟩ := List.mem_flatMap.1 hx
  exact h l d ((mem_dedup _ _).2 (List.mem_filterMap.2 ⟨x, hl, hd⟩))

/-- An instruction that commits what its lanes write gives its results. -/
theorem results_of_commit {i : Instr} {ga gb : Guard} {room fits : Nat} {v : Warp → Nat → Nat → Option W32} {p : Warp → Nat → Nat → Option Bool}
    (g : Warp → Nat → List RegWrite) (ok : State → Warp → Prop)
    (hexec : ∀ s e, s.env = some e → ok s e.w → e.w.logRoom room = true →
      exec i s = .next (s.putWarp ((e.w.commit ((s.exec e.w ga gb).flatMap (g e.w))).advance s.cur (s.act e.w))))
    (hg : ∀ w l, ∀ x ∈ g w l, x.inLane l = true)
    (hv : ∀ w l t k, fits ≤ t.v.length → ((g w l).foldl (Lane.put l) t).v.getD k 0 = (v w l k).getD (t.v.getD k 0))
    (hp : ∀ w l t k, (k == 15 || ((g w l).foldl (Lane.put l) t).p.getLsbD k) = (p w l k).getD (k == 15 || t.p.getLsbD k)) :
    Results i ga gb room fits v p ok := by
  intro s e he hr hf hok
  refine ⟨(e.w.commit ((s.exec e.w ga gb).flatMap (g e.w))).advance s.cur (s.act e.w), hexec s e he hok hr, ?_⟩
  refine (wrote_commit_advance e.w s.cur (s.act e.w) _ (s.nodup_act _) (s.nodup_exec _ _ _) (fun l h => State.lt_of_mem_exec h)
    (fun l h => State.lt_of_mem_act h) (g e.w) (hg e.w)).congr ?_ ?_
  · intro l k
    by_cases h : l ∈ s.exec e.w ga gb
    · simp only [h, if_true]
      exact hv e.w l (e.w.lane l) k (hf _ (Warp.lane_mem (State.lt_of_mem_exec h)))
    · simp only [h, if_false]
  · intro l k
    by_cases h : l ∈ s.exec e.w ga gb
    · simp only [h, if_true]
      exact hp e.w l (e.w.lane l) k
    · simp only [h, if_false]

/-- A lane-by-lane instruction gives its results. -/
theorem results_of_perLane {i : Instr} {f : Fields} {room fits : Nat} {v : Warp → Nat → Nat → Option W32} {p : Warp → Nat → Nat → Option Bool}
    (g : Warp → Nat → List RegWrite) (ok : State → Warp → Prop)
    (hexec : ∀ s e, s.env = some e → ok s e.w → exec i s = .next (s.perLane f g))
    (hg : ∀ w l, ∀ x ∈ g w l, x.inLane l = true)
    (ds : List Dest) (hds : ∀ w l, ∀ d ∈ destsOf (g w l), d ∈ ds) (hroom : ds.length ≤ room)
    (hv : ∀ w l t k, fits ≤ t.v.length → ((g w l).foldl (Lane.put l) t).v.getD k 0 = (v w l k).getD (t.v.getD k 0))
    (hp : ∀ w l t k, (k == 15 || ((g w l).foldl (Lane.put l) t).p.getLsbD k) = (p w l k).getD (k == 15 || t.p.getLsbD k)) :
    Results i f.ga f.gb room fits v p ok := by
  refine results_of_commit g ok (fun s e he hok hr => ?_) hg hv hp
  have hlen : (destsOf ((s.exec e.w f.ga f.gb).flatMap (g e.w))).length ≤ room :=
    Nat.le_trans (length_dedup_le fun d hd => destsOf_flatMap_le (hds e.w) _ d ((mem_dedup _ _).2 hd)) hroom
  rw [hexec s e he hok]
  simp only [State.perLane, State.onWarp, he, State.finish, logRoom_mono hr hlen, if_true]

/-- The destinations of a long instruction, counted once each. -/
theorem longDests_le {g : Nat → List RegWrite} {ds : List Dest} (h : ∀ l, ∀ d ∈ destsOf (g l), d ∈ ds) (ls : List Nat) :
    (dedup (ds ++ destsOf (ls.flatMap g))).length ≤ ds.length :=
  length_dedup_le fun d hd => (List.mem_append.1 hd).elim id (destsOf_flatMap_le h ls d)

/-- A long instruction with LA = 0 gives its results at once. -/
theorem results_of_finishLong {i : Instr} {f : Fields} {room fits : Nat} {v : Warp → Nat → Nat → Option W32} {p : Warp → Nat → Nat → Option Bool}
    (g : Warp → Nat → List RegWrite) (ok : State → Warp → Prop) (ds : List Dest)
    (hexec : ∀ s e, s.env = some e → ok s e.w → exec i s = .next (s.finishLong e f.la ds ((s.exec e.w f.ga f.gb).flatMap (g e.w))))
    (hg : ∀ w l, ∀ x ∈ g w l, x.inLane l = true)
    (hds : ∀ w l, ∀ d ∈ destsOf (g w l), d ∈ ds) (hroom : ds.length ≤ room)
    (hv : ∀ w l t k, fits ≤ t.v.length → ((g w l).foldl (Lane.put l) t).v.getD k 0 = (v w l k).getD (t.v.getD k 0))
    (hp : ∀ w l t k, (k == 15 || ((g w l).foldl (Lane.put l) t).p.getLsbD k) = (p w l k).getD (k == 15 || t.p.getLsbD k))
    (hla : f.la = 0) : Results i f.ga f.gb room fits v p ok := by
  refine results_of_commit g ok (fun s e he hok hr => ?_) hg hv hp
  rw [hexec s e he hok]
  simp [State.finishLong, logRoom_mono hr (Nat.le_trans (longDests_le (hds e.w) _) hroom), hla]

/-- A warp that moves on with nothing written. -/
theorem wrote_advance (w : Warp) (i : Issue) (act : List Nat) (hact : act.Nodup) (hact' : ∀ l ∈ act, l < w.width) (n : Nat) :
    Wrote w { w.advance i act with spec := { (w.advance i act).spec with ulog := n } } i act w.v w.p w.s w.bnr := by
  have h := (wrote_commit_advance w i act [] hact List.nodup_nil (by simp) hact' (fun _ => []) (by simp)).congr
    (v' := w.v) (p' := w.p) (by simp) (by simp)
  exact { v := h.v, p := h.p, u := h.u, bn := h.bn, pc := h.pc, thread := h.thread, width := h.width, trap := h.trap, fmt := h.fmt
          windows := h.windows, spec := rfl, others := rfl }

/-- A long instruction with a promise opens its window. -/
theorem opensWindow_of_finishLong {i : Instr} {f : Fields} {room : Nat} (g : Warp → Nat → List RegWrite) (ok : State → Warp → Prop) (ds : List Dest)
    (hexec : ∀ s e, s.env = some e → ok s e.w → exec i s = .next (s.finishLong e f.la ds ((s.exec e.w f.ga f.gb).flatMap (g e.w))))
    (hds : ∀ w l, ∀ d ∈ destsOf (g w l), d ∈ ds) (hroom : ds.length ≤ room) : OpensWindow i f room ds g ok := by
  intro hla s e he hr hok
  have hn := logRoom_mono hr (Nat.le_trans (longDests_le (hds e.w) (s.exec e.w f.ga f.gb)) hroom)
  have hx := hexec s e he hok
  simp only [State.finishLong, hn, Bool.not_true, Bool.false_eq_true, if_false, hla, false_and] at hx
  exact ⟨_, hx, wrote_advance e.w s.cur (s.act e.w) (s.nodup_act _) (fun l h => State.lt_of_mem_act h) _, rfl, rfl⟩

theorem getD_set {α : Type} (xs : List α) (n k : Nat) (x z : α) (h : n < xs.length) :
    (xs.set n x).getD k z = if k = n then x else xs.getD k z := by
  simp only [List.getD_eq_getElem?_getD, List.getElem?_set]
  by_cases hk : n = k
  · subst hk; simp [h]
  · simp [hk, Ne.symm hk]

theorem getLsbD_setPred (p : BitVec 15) (n k : Nat) (x : Bool) :
    (setPred p n x).getLsbD k = if k = n ∧ n < 15 then x else p.getLsbD k := by
  unfold setPred
  by_cases hn : n < 15
  · rw [if_pos hn]
    by_cases hk : k = n
    · subst hk
      cases x <;> simp [hn]
    · have hs : (1#15 <<< n).getLsbD k = false := by
        simp only [BitVec.getLsbD_shiftLeft, BitVec.getLsbD_one]
        by_cases h : k < 15 <;> by_cases h' : k < n <;> simp_all <;> omega
      cases x
      · simp [hk, hs]
        intro h; exact BitVec.lt_of_getLsbD h
      · simp [hk, hs]
  · rw [if_neg hn]; simp [hn]

/-- `vOp` gives one 32-bit result in D. -/
theorem result32_of_vOp {i : Instr} {f : Fields} {r : Warp → Nat → W32} (h : ∀ s, exec i s = .next (s.vOp f r)) : Result32 i f r := by
  refine results_of_perLane (fun w l => [.v l f.d (r w l)]) _ (fun s _ _ _ => h s) (by simp [RegWrite.inLane]) [.v f.d]
    (by simp [destsOf, dedup]) (by simp) ?_ ?_
  · intro w l t k hf
    simp only [List.foldl_cons, List.foldl_nil, Lane.put, if_true, getD_set _ _ _ _ _ (show f.d < t.v.length by omega), only1]
    split <;> rfl
  · intro w l t k
    simp [Lane.put, nothing]

/-- `vOp64` gives one 64-bit result in D:D+1. -/
theorem result64_of_vOp64 {i : Instr} {f : Fields} {r : Warp → Nat → W64} (h : ∀ s, exec i s = .next (s.vOp64 f r)) : Result64 i f r := by
  refine results_of_perLane (fun w l => writePair l f.d (r w l)) _ (fun s _ _ _ => h s) (by simp [RegWrite.inLane, writePair])
    [.v f.d, .v (f.d + 1)] ?_ (by simp) ?_ ?_
  · intro w l d hd
    have := (mem_dedup _ _).1 hd
    simpa [writePair] using this
  · intro w l t k hf
    simp only [writePair, List.foldl_cons, List.foldl_nil, Lane.put, if_true, only2]
    rw [getD_set _ _ _ _ _ (by rw [List.length_set]; omega), getD_set _ _ _ _ _ (show f.d < t.v.length by omega)]
    by_cases h1 : k = f.d + 1
    · subst h1; simp
    · by_cases h2 : k = f.d <;> simp [h1, h2]
  · intro w l t k
    simp [Lane.put, nothing, writePair]

/-- `pOp` gives one predicate in P(D). -/
theorem resultP_of_pOp {i : Instr} {f : Fields} {r : Warp → Nat → Bool} (h : ∀ s, exec i s = .next (s.pOp f r)) : ResultP i f r := by
  refine results_of_perLane (fun w l => [.p l f.d (r w l)]) _ (fun s _ _ _ => h s) (by simp [RegWrite.inLane]) [.p f.d] ?_ (by simp) ?_ ?_
  · intro w l d hd
    have := (mem_dedup _ _).1 hd
    simp only [List.filterMap_cons, List.filterMap_nil] at this
    split at this <;> simp_all
  · intro w l t k _
    simp [Lane.put, nothing]
  · intro w l t k
    simp only [List.foldl_cons, List.foldl_nil, Lane.put, if_true, getLsbD_setPred, onlyP]
    by_cases h1 : k = f.d ∧ f.d < 15
    · obtain ⟨rfl, h⟩ := h1
      have : (f.d == 15) = false := by simp; omega
      simp [h, this]
    · by_cases h2 : k = f.d ∧ k < 15
      · omega
      · simp [h1, h2]

/-- `vOpLong` gives one 32-bit result in D, at once or through its window. -/
theorem longResult32_of {i : Instr} {f : Fields} {r : Warp → Nat → W32} {ok : State → Warp → Prop}
    (h : ∀ s e, s.env = some e → ok s e.w → exec i s = .next (s.finishLong e f.la [.v f.d] ((s.exec e.w f.ga f.gb).flatMap fun l => [.v l f.d (r e.w l)]))) :
    LongResult32 i f r ok := by
  have hds : ∀ (w : Warp) (l : Nat), ∀ d ∈ destsOf [RegWrite.v l f.d (r w l)], d ∈ [Dest.v f.d] := by simp [destsOf, dedup]
  refine ⟨fun hla => ?_, ?_⟩
  · refine results_of_finishLong (fun w l => [.v l f.d (r w l)]) ok [.v f.d] h (by simp [RegWrite.inLane]) hds (by simp) ?_ ?_ hla
    · intro w l t k hf
      simp only [List.foldl_cons, List.foldl_nil, Lane.put, if_true, getD_set _ _ _ _ _ (show f.d < t.v.length by omega), only1]
      split <;> rfl
    · intro w l t k
      simp [Lane.put, nothing]
  · exact opensWindow_of_finishLong _ ok _ h hds (by simp)

/-- The end of an instruction that writes one uniform register or nothing. -/
theorem wrote_uniform (w : Warp) (i : Issue) (act : List Nat) (hact : act.Nodup) (hact' : ∀ l ∈ act, l < w.width) (c : Prop) [Decidable c]
    (d : Nat) (x : W64) (hd : d < w.regs.s.length) :
    Wrote w ((w.commit (if c then [] else [.u d x])).advance i act) i act w.v w.p (fun k => if k = d ∧ ¬c then x else w.s k) w.bnr := by
  by_cases hc : c
  · simp only [hc, if_true]
    have h := (wrote_commit_advance w i act [] hact List.nodup_nil (by simp) hact' (fun _ => []) (by simp)).congr
      (v' := w.v) (p' := w.p) (by simp) (by simp)
    exact { h with u := fun k => (h.u k).trans (by simp) }
  · simp only [hc, if_false]
    let w1 : Warp := { w with regs := { w.regs with s := w.regs.s.set d x } }
    have h := (wrote_commit_advance w1 i act [] hact List.nodup_nil (by simp) hact' (fun _ => []) (by simp)).congr
      (v' := w.v) (p' := w.p) (by intro l k; rfl) (by intro l k; rfl)
    have hlane (l : Nat) : ((w.commit [.u d x]).advance i act).lane l = ((w1.commit []).advance i act).lane l := rfl
    exact
      { v := fun l k => h.v l k, p := fun l k => h.p l k
        u := fun k => by
          refine (h.u k).trans ?_
          show (w.regs.s.set d x).getD k 0 = _
          rw [getD_set _ _ _ _ _ hd]
          by_cases hk : k = d <;> simp [hk, Warp.s]
        bn := fun k => h.bn k, pc := fun l => h.pc l, thread := fun l => h.thread l, width := h.width, trap := h.trap, fmt := h.fmt
        windows := rfl, spec := rfl, others := rfl }

/-- `uniform` gives one uniform result. -/
theorem resultU_of_uniform {i : Instr} {f : Fields} {r : (Nat → W64) → W64} (h : ∀ s, exec i s = .next (s.uniform f r)) : ResultU i f r := by
  constructor
  · intro s e hs he hr hd
    refine ⟨(e.w.commit (if (s.exec e.w f.ga f.gb) = [] then [] else [.u f.d (r e.w.s)])).advance s.cur (s.act e.w), ?_, ?_⟩
    · rw [h]
      have hlen : e.w.logRoom (destsOf (if (s.exec e.w f.ga f.gb) = [] then [] else [RegWrite.u f.d (r e.w.s)])).length = true := by
        refine logRoom_mono hr ?_
        split <;> simp [destsOf, dedup]
      have hemp : (s.exec e.w f.ga f.gb).isEmpty = decide (s.exec e.w f.ga f.gb = []) := by
        cases s.exec e.w f.ga f.gb <;> rfl
      simp only [State.uniform, hs, State.onWarp, he, State.finish, hemp, decide_eq_true_eq, Bool.false_eq_true, if_false]
      rw [if_pos hlen]
    · exact wrote_uniform e.w s.cur (s.act e.w) (s.nodup_act _) (fun l hl => State.lt_of_mem_act hl) _ f.d (r e.w.s) hd
  · intro s e hs he hd
    refine ⟨(e.x.setReg f.d (r e.x.reg)).advance s.cur, ?_, ?_, rfl, rfl⟩
    · rw [h]
      simp only [State.uniform, hs, State.onStream, he, if_true]
    · intro k
      exact getD_set _ _ _ _ _ hd

end Sys2Proof.Machine
end

