-- ==== Sys2Proof/Laws/Integer.lean ====
section
/-! SUPPORT. What the integer result functions of Machine/Integer.lean compute, as exact arithmetic on numbers. -/
namespace Sys2Proof.Machine

theorem unsignedTy_eq {ty : Nat} (h : intType ty) : unsignedTy ty = decide (ty = 0x0B) := by
  rcases h with rfl | rfl <;> rfl

theorem ext32_tyVal {ty : Nat} (h : intType ty) (x : W32) : ext32 (unsignedTy ty) x = tyVal ty x := by
  rcases h with rfl | rfl <;> rfl

theorem ofInt_tyVal (ty : Nat) (x : W32) : BitVec.ofInt 32 (tyVal ty x) = x := by
  unfold tyVal
  split <;> simp

theorem mulHigh_eq {ty : Nat} (h : intType ty) (a b : W32) :
    mulHigh (unsignedTy ty) a b = BitVec.ofInt 32 (tyVal ty a * tyVal ty b / 2 ^ 32) := by
  unfold mulHigh hi32
  rw [ext32_tyVal h, ext32_tyVal h]
  generalize tyVal ty a * tyVal ty b = z
  apply BitVec.eq_of_toNat_eq
  simp only [BitVec.extractLsb'_toNat, BitVec.toNat_ofInt, Nat.shiftRight_eq_div_pow]
  omega

theorem absInt_eq (a : W32) : absInt a = BitVec.ofInt 32 |a.toInt| := by
  unfold absInt
  have hm := BitVec.toInt_eq_msb_cond a
  have := a.isLt
  split
  · rename_i h
    rw [if_pos h] at hm
    rw [abs_of_neg (by omega), BitVec.ofInt_neg]; simp
  · rename_i h
    rw [if_neg h] at hm
    rw [abs_of_nonneg (by omega)]; simp

theorem minTy_eq {ty : Nat} (h : intType ty) (a b : W32) : minTy (unsignedTy ty) a b = BitVec.ofInt 32 (min (tyVal ty a) (tyVal ty b)) := by
  unfold minTy
  rw [ext32_tyVal h, ext32_tyVal h]
  split
  · rename_i hle; rw [min_eq_left hle, ofInt_tyVal]
  · rename_i hle; rw [min_eq_right (by omega), ofInt_tyVal]

theorem maxTy_eq {ty : Nat} (h : intType ty) (a b : W32) : maxTy (unsignedTy ty) a b = BitVec.ofInt 32 (max (tyVal ty a) (tyVal ty b)) := by
  unfold maxTy
  rw [ext32_tyVal h, ext32_tyVal h]
  split
  · rename_i hle; rw [max_eq_right hle, ofInt_tyVal]
  · rename_i hle; rw [max_eq_left (by omega), ofInt_tyVal]

theorem tyVal_maxTy {ty : Nat} (h : intType ty) (a b : W32) : tyVal ty (maxTy (unsignedTy ty) a b) = max (tyVal ty a) (tyVal ty b) := by
  unfold maxTy
  rw [ext32_tyVal h, ext32_tyVal h]
  split
  · rename_i hle; rw [max_eq_right hle]
  · rename_i hle; rw [max_eq_left (by omega)]

/-- A list filtered and counted. -/
theorem length_filter_countP {α : Type} (p : α → Bool) (xs : List α) : (xs.filter p).length = xs.countP p := List.countP_eq_length_filter.symm

theorem takeWhile_length_find (n : Nat) (p : Nat → Bool) :
    ((List.range n).takeWhile fun i => !p i).length = ((List.range n).find? p).getD n := by
  have key : ∀ m k, ((List.range' k m).takeWhile fun i => !p i).length + k = ((List.range' k m).find? p).getD (k + m) := by
    intro m
    induction m with
    | zero => intro k; simp
    | succ m ih =>
      intro k
      rw [List.range'_succ, List.takeWhile_cons, List.find?_cons]
      by_cases h : p k = true
      · simp [h]
      · have := ih (k + 1)
        simp only [Bool.not_eq_true] at h
        simp only [h, Bool.not_false, if_true, List.length_cons]
        rw [show k + (m + 1) = k + 1 + m by omega]
        omega
  have := key n 0
  rw [List.range_eq_range']
  simpa using this

/-- No bit above the highest one of a number. -/
theorem testBit_above_log2 {a i : Nat} (h : a.log2 < i) : a.testBit i = false :=
  Nat.testBit_lt_two_pow (Nat.lt_of_lt_of_le Nat.lt_log2_self (Nat.pow_le_pow_right (by omega) (by omega)))

theorem testBit_log2_self {a : Nat} (h : a ≠ 0) : a.testBit a.log2 = true := by
  have h1 := Nat.log2_self_le h
  have h2 := @Nat.lt_log2_self a
  rw [Nat.testBit_eq_decide_div_mod_eq]
  have : a / 2 ^ a.log2 = 1 := by
    apply Nat.div_eq_of_lt_le
    · simpa using h1
    · rw [Nat.pow_succ] at h2; omega
  simp [this]

theorem countLead_eq (a : W32) :
    countLead a = BitVec.ofNat 32 ((List.range 32).takeWhile fun i => !a.getLsbD (31 - i)).length := by
  unfold countLead
  congr 1
  rw [takeWhile_length_find 32 fun i => a.getLsbD (31 - i)]
  by_cases h : a = 0
  · subst h
    rw [if_pos rfl, List.find?_eq_none.2]
    · rfl
    · simp
  · rw [if_neg h]
    have hn : a.toNat ≠ 0 := fun e => h (BitVec.eq_of_toNat_eq (by simpa using e))
    have hlt : a.toNat.log2 < 32 := (Nat.log2_lt hn).2 a.isLt
    have : (List.range 32).find? (fun i => a.getLsbD (31 - i)) = some (31 - a.toNat.log2) := by
      rw [List.find?_range_eq_some]
      refine ⟨?_, ?_, ?_⟩
      · rw [show 31 - (31 - a.toNat.log2) = a.toNat.log2 by omega, BitVec.getLsbD]
        exact testBit_log2_self hn
      · simp only [List.mem_range]; omega
      · intro j hj
        rw [BitVec.getLsbD, testBit_above_log2 (by omega)]; rfl
    rw [this]; rfl

theorem countTrail_eq (a : W32) : countTrail a = BitVec.ofNat 32 ((List.range 32).takeWhile fun i => !a.getLsbD i).length := by
  unfold countTrail
  rw [takeWhile_length_find]

theorem shiftLeft_eq {n : Nat} (a : BitVec n) (c : Nat) : shiftLeft a c = a <<< c := by
  unfold shiftLeft; split
  · rfl
  · rw [BitVec.shiftLeft_eq_zero (by omega)]; rfl
theorem shiftRight_eq {n : Nat} (a : BitVec n) (c : Nat) : shiftRight a c = a >>> c := by
  unfold shiftRight; split
  · rfl
  · rw [BitVec.ushiftRight_eq_zero (by omega)]; rfl
theorem shiftArith_eq {n : Nat} (a : BitVec n) (c : Nat) : shiftArith a c = a.sshiftRight c := by
  unfold shiftArith; split
  · rfl
  · apply BitVec.eq_of_getLsbD_eq
    intro i hi
    rw [BitVec.getLsbD_sshiftRight]
    have h1 : ¬ c + i < n := by omega
    have h2 : ¬ n ≤ i := by omega
    by_cases h : a.msb = true <;> simp [h, h1, h2, hi]
theorem intClamp_eq {ty : Nat} (h : intType ty) (x : Int) : intClamp 32 (!unsignedTy ty) x = tyClamp ty x := by
  rcases h with rfl | rfl <;> simp [intClamp, tyClamp, clampTo, unsignedTy] <;> omega

/-- Taking a number modulo a power of two keeps the bits below. -/
theorem int_mod_bit (z : Int) {n j : Nat} (h : j < n) : z % 2 ^ n / 2 ^ j % 2 = z / 2 ^ j % 2 := by
  obtain ⟨d, rfl⟩ : ∃ d, n = j + (d + 1) := ⟨n - j - 1, by omega⟩
  have hp : (2 : Int) ^ j ≠ 0 := by positivity
  have h1 := Int.mul_ediv_add_emod z (2 ^ (j + (d + 1)))
  have h2 : z % 2 ^ (j + (d + 1)) = z + (-(2 ^ (d + 1) * (z / 2 ^ (j + (d + 1))))) * 2 ^ j := by
    rw [pow_add] at h1 ⊢; linarith
  rw [h2, Int.add_mul_ediv_right _ _ hp, pow_succ]
  generalize z / 2 ^ (j + (d + 1)) = q
  generalize z / 2 ^ j = y
  have : y + -((2 : Int) ^ d * 2 * q) = y + 2 * (-(2 ^ d * q)) := by ring
  rw [this, Int.add_mul_emod_self_left]

/-- Bit `j` of an exact number kept in `n` bits. -/
theorem getLsbD_ofInt (n : Nat) (z : Int) {j : Nat} (h : j < n) : (BitVec.ofInt n z).getLsbD j = decide (z / 2 ^ j % 2 = 1) := by
  rw [BitVec.getLsbD, BitVec.toNat_ofInt, Nat.testBit_eq_decide_div_mod_eq, ← int_mod_bit z h]
  congr 1
  apply propext
  have h1 : 0 ≤ z % 2 ^ n := Int.emod_nonneg _ (by positivity)
  have h2 : (((z % 2 ^ n).toNat / 2 ^ j % 2 : Nat) : Int) = z % 2 ^ n / 2 ^ j % 2 := by
    push_cast; rw [Int.toNat_of_nonneg h1]
  have h3 : ((2 ^ n : Nat) : Int) = 2 ^ n := by push_cast; rfl
  rw [h3]
  omega

/-- Bit `k` of a 32-bit value without end: from place 32 the sign, or zero. -/
def srcBit (ty : Nat) (a : W32) (k : Nat) : Bool := if k < 32 then a.getLsbD k else ty == 0x07 && a.getLsbD 31

theorem tyVal_bit {ty : Nat} (h : intType ty) (a : W32) (k : Nat) : decide (tyVal ty a / 2 ^ k % 2 = 1) = srcBit ty a k := by
  unfold srcBit
  by_cases hk : k < 32
  · rw [if_pos hk, ← getLsbD_ofInt 32 _ hk, ofInt_tyVal]
  · rw [if_neg hk]
    have hle : (2 : Int) ^ 32 ≤ 2 ^ k := pow_le_pow_right₀ (by norm_num) (by omega)
    have ha := a.isLt
    rcases h with rfl | rfl
    · have hm : a.getLsbD 31 = a.msb := (BitVec.msb_eq_getLsbD_last a).symm
      have ht := BitVec.toInt_eq_msb_cond a
      simp only [tyVal, hm]
      by_cases hb : a.msb = true
      · rw [if_pos hb] at ht
        have hlow := BitVec.msb_eq_true_iff_two_mul_ge.1 hb
        have : a.toInt / 2 ^ k = -1 := by
          rw [Int.ediv_eq_iff_of_pos (by positivity)]
          constructor <;> push_cast at * <;> omega
        simp [this, hb]
      · rw [if_neg hb] at ht
        have : a.toInt / 2 ^ k = 0 := by
          rw [Int.ediv_eq_iff_of_pos (by positivity)]
          constructor <;> push_cast at * <;> omega
        simp [this, hb]
    · have : (a.toNat : Int) / 2 ^ k = 0 := by
        rw [Int.ediv_eq_iff_of_pos (by positivity)]
        constructor <;> push_cast at * <;> omega
      simp [tyVal, this]

/-- The bits of a field of `w` bits, sign-extended or not. -/
theorem field_bit (sg : Bool) (z : Int) {w : Nat} (hw : 0 < w) (j : Nat) :
    decide ((if sg = true ∧ z % 2 ^ w ≥ 2 ^ (w - 1) then z % 2 ^ w - 2 ^ w else z % 2 ^ w) / 2 ^ j % 2 = 1)
      = if j < w then decide (z / 2 ^ j % 2 = 1) else sg && decide (z / 2 ^ (w - 1) % 2 = 1) := by
  have hpos : (0 : Int) < 2 ^ w := by positivity
  have h0 : 0 ≤ z % 2 ^ w := Int.emod_nonneg _ (by positivity)
  have h1 : z % 2 ^ w < 2 ^ w := Int.emod_lt_of_pos _ hpos
  by_cases hj : j < w
  · rw [if_pos hj, ← int_mod_bit z hj]
    split
    · have : (z % 2 ^ w - 2 ^ w) / 2 ^ j % 2 = (z % 2 ^ w - 2 ^ w) % 2 ^ w / 2 ^ j % 2 := (int_mod_bit _ hj).symm
      rw [this]
      simp
    · rfl
  · rw [if_neg hj]
    have hle : (2 : Int) ^ w ≤ 2 ^ j := pow_le_pow_right₀ (by norm_num) (by omega)
    have hhalf : (2 : Int) ^ w = 2 * 2 ^ (w - 1) := by
      obtain ⟨d, rfl⟩ : ∃ d, w = d + 1 := ⟨w - 1, by omega⟩
      simp [pow_succ]; ring
    have hb : (z / 2 ^ (w - 1) % 2 = 1) ↔ 2 ^ (w - 1) ≤ z % 2 ^ w := by
      rw [← int_mod_bit z (show w - 1 < w by omega)]
      have hp : (0 : Int) < 2 ^ (w - 1) := by positivity
      constructor
      · intro h
        by_contra hlt
        have : z % 2 ^ w / 2 ^ (w - 1) = 0 := Int.ediv_eq_zero_of_lt h0 (by omega)
        omega
      · intro h
        have : z % 2 ^ w / 2 ^ (w - 1) = 1 := by
          rw [Int.ediv_eq_iff_of_pos hp]
          constructor <;> omega
        omega
    by_cases hs : sg = true ∧ z % 2 ^ w ≥ 2 ^ (w - 1)
    · rw [if_pos hs]
      have : (z % 2 ^ w - 2 ^ w) / 2 ^ j = -1 := by
        rw [Int.ediv_eq_iff_of_pos (by positivity)]
        constructor <;> omega
      rw [this, hs.1, decide_eq_true (hb.2 hs.2)]; rfl
    · rw [if_neg hs]
      have : z % 2 ^ w / 2 ^ j = 0 := Int.ediv_eq_zero_of_lt h0 (by omega)
      rw [this]
      by_cases hsg : sg = true
      · have hn : ¬ z / 2 ^ (w - 1) % 2 = 1 := fun h => hs ⟨hsg, hb.1 h⟩
        simp [hn]
      · simp [hsg]

/-- Bit-field extract, bit by bit (04 R116). -/
theorem extractField_bit {ty : Nat} (h : intType ty) (a b : W32) {j : Nat} (hj : j < 32) :
    (extractField (unsignedTy ty) a b).getLsbD j =
      if min (b.toNat / 256 % 256) 32 = 0 then false
      else if j < min (b.toNat / 256 % 256) 32 then srcBit ty a (b.toNat % 256 + j)
      else ty == 0x07 && srcBit ty a (b.toNat % 256 + min (b.toNat / 256 % 256) 32 - 1) := by
  have hdiv (n m : Nat) : tyVal ty a / 2 ^ n / 2 ^ m = tyVal ty a / 2 ^ (n + m) := by
    rw [Int.ediv_ediv_of_nonneg (by positivity), ← pow_add]
  simp only [extractField, fieldOf]
  by_cases h0 : min (b.toNat / 256 % 256) 32 = 0
  · simp [h0]
  · simp only [h0, if_false]
    rw [getLsbD_ofInt 32 _ hj, ext32_tyVal h]
    have hs : (!unsignedTy ty) = (ty == 0x07) := by rcases h with rfl | rfl <;> rfl
    have := field_bit (ty == 0x07) (tyVal ty a / 2 ^ (b.toNat % 256)) (Nat.pos_of_ne_zero h0) j
    rw [hdiv, hdiv, tyVal_bit h, tyVal_bit h] at this
    simp only [hs]
    rw [this, Nat.add_sub_assoc (Nat.pos_of_ne_zero h0)]

/-- Bit-field insert, bit by bit (04 R116). -/
theorem insertField_bit (a b c : W32) {j : Nat} (hj : j < 32) :
    (insertField a b c).getLsbD j =
      if b.toNat % 256 ≤ j ∧ j < b.toNat % 256 + min (b.toNat / 256 % 256) 32 then a.getLsbD (j - b.toNat % 256) else c.getLsbD j := by
  simp only [insertField, fieldOf, shiftLeft_eq]
  generalize min (b.toNat / 256 % 256) 32 = w
  generalize b.toNat % 256 = pos
  have hmask (i : Nat) (hi : i < 32) : (BitVec.ofNat 32 (2 ^ w - 1)).getLsbD i = decide (i < w) := by
    rw [BitVec.getLsbD_ofNat, Nat.testBit_two_pow_sub_one]; simp [hi]
  simp only [BitVec.getLsbD_or, BitVec.getLsbD_and, BitVec.getLsbD_not, BitVec.getLsbD_shiftLeft]
  by_cases h1 : j < pos
  · rw [if_neg (by omega)]; simp [h1, hj]
  · rw [hmask (j - pos) (by omega)]
    by_cases h2 : j < pos + w
    · rw [if_pos (by omega)]
      have : j - pos < w := by omega
      simp [h1, hj, this]
    · rw [if_neg (by omega)]
      have : ¬ j - pos < w := by omega
      simp [h1, hj, this]

end Sys2Proof.Machine
end

