-- ==== Sys2Proof/Laws/Memory.lean ====
section
/-! SUPPORT. The laws of sparse memory: what a read gives after a write, and that every memory operation keeps the canonical form. -/
namespace Sys2Proof.Machine

/-- Every address listed is above a bound. -/
def Mem.above (a : Nat) (m : Mem) : Prop := ∀ c ∈ m, a < c.1

theorem Mem.wf_iff (m : Mem) : m.wf = true ↔ m.Pairwise (fun c d => c.1 < d.1) ∧ ∀ c ∈ m, c.2 ≠ 0 := by
  simp [Mem.wf]

@[simp] theorem Mem.wf_nil : Mem.wf [] = true := by decide

theorem Mem.wf_cons (c : Host.Cell) (m : Mem) : Mem.wf (c :: m) = true ↔ Mem.above c.1 m ∧ c.2 ≠ 0 ∧ Mem.wf m = true := by
  simp only [Mem.wf_iff, List.pairwise_cons, List.mem_cons, Mem.above]
  constructor
  · rintro ⟨⟨h1, h2⟩, h3⟩; exact ⟨h1, h3 c (.inl rfl), h2, fun d hd => h3 d (.inr hd)⟩
  · rintro ⟨h1, h2, h3, h4⟩; exact ⟨⟨h1, h3⟩, fun d hd => hd.elim (fun e => e ▸ h2) (h4 d)⟩

theorem Mem.above_set {a b : Nat} {m : Mem} (x : Byte) (hm : Mem.above a m) (hb : a < b) : Mem.above a (m.set b x) := by
  induction m with
  | nil => unfold Mem.set; split <;> simp_all [Mem.above]
  | cons c m ih =>
    obtain ⟨k, v⟩ := c
    have hk : a < k := hm (k, v) (by simp)
    have hm' : Mem.above a m := fun c hc => hm c (by simp [hc])
    simp only [Mem.set]
    split
    · split
      · exact hm
      · intro c hc; rcases List.mem_cons.1 hc with rfl | hc
        · exact hb
        · exact hm c hc
    · split
      · split
        · exact hm'
        · intro c hc; rcases List.mem_cons.1 hc with rfl | hc
          · exact hb
          · exact hm' c hc
      · intro c hc; rcases List.mem_cons.1 hc with rfl | hc
        · exact hk
        · exact ih hm' c hc

/-- One byte written keeps the canonical form. -/
theorem Mem.set_wf {m : Mem} (a : Nat) (x : Byte) (h : m.wf = true) : (m.set a x).wf = true := by
  induction m with
  | nil =>
    unfold Mem.set; split
    · rfl
    · rename_i hx; rw [Mem.wf_cons]; exact ⟨by simp [Mem.above], hx, rfl⟩
  | cons c m ih =>
    obtain ⟨k, v⟩ := c
    obtain ⟨h1, h2, h3⟩ := (Mem.wf_cons _ _).1 h
    simp only [Mem.set]
    split
    · rename_i hlt
      split
      · exact h
      · rename_i hx
        rw [Mem.wf_cons]
        refine ⟨?_, hx, h⟩
        intro c hc; rcases List.mem_cons.1 hc with rfl | hc
        · exact hlt
        · exact Nat.lt_trans hlt (h1 c hc)
    · split
      · rename_i heq
        split
        · exact h3
        · rename_i hx; rw [Mem.wf_cons]; exact ⟨by simpa [heq] using h1, hx, h3⟩
      · rename_i h4 h5
        rw [Mem.wf_cons]
        exact ⟨Mem.above_set x h1 (by simp only; omega), h2, ih h3⟩

/-- Bytes written keep the canonical form. -/
theorem Mem.write_wf {m : Mem} (a : Nat) (bs : List Byte) (h : m.wf = true) : (m.write a bs).wf = true := by
  induction bs generalizing m a with
  | nil => exact h
  | cons b bs ih => exact ih (a + 1) (Mem.set_wf a b h)

/-- Leaving out some cells keeps the canonical form. -/
theorem Mem.filter_wf {m : Mem} (p : Host.Cell → Bool) (h : m.wf = true) : Mem.wf (m.filter p) = true := by
  rw [Mem.wf_iff] at *
  exact ⟨h.1.filter p, fun c hc => h.2 c (List.mem_filter.1 hc).1⟩

/-- Zeros over a range keep the canonical form. -/
theorem Mem.clear_wf {m : Mem} (a n : Nat) (h : m.wf = true) : (m.clear a n).wf = true := Mem.filter_wf _ h

theorem Mem.get_of_above {m : Mem} {a : Nat} (h : Mem.above a m) : m.get a = 0 := by
  induction m with
  | nil => rfl
  | cons c m ih =>
    obtain ⟨k, v⟩ := c
    have hk : a < k := h (k, v) (by simp)
    simp only [Mem.get]
    rw [if_neg (by omega)]
    exact ih fun c hc => h c (by simp [hc])

/-- A byte written reads back, and every other address reads as before. -/
theorem Mem.get_set {m : Mem} (h : m.wf = true) (a b : Nat) (x : Byte) : (m.set a x).get b = if b = a then x else m.get b := by
  induction m with
  | nil => unfold Mem.set; split <;> simp_all [Mem.get]
  | cons c m ih =>
    obtain ⟨k, v⟩ := c
    obtain ⟨h1, h2, h3⟩ := (Mem.wf_cons _ _).1 h
    simp only [Mem.set]
    split
    · rename_i hlt
      have ha : Mem.get ((k, v) :: m) a = 0 := Mem.get_of_above (by
        intro c hc; rcases List.mem_cons.1 hc with rfl | hc
        · exact hlt
        · exact Nat.lt_trans hlt (h1 c hc))
      split
      · rename_i hx
        by_cases hb : b = a
        · subst hb; simp [ha, hx]
        · simp [hb]
      · by_cases hb : b = a
        · subst hb; simp [Mem.get]
        · simp [Mem.get, hb]
    · split
      · rename_i heq
        subst heq
        split
        · rename_i hx
          by_cases hb : b = a
          · subst hb; simp [hx, Mem.get_of_above h1]
          · simp [Mem.get, hb]
        · by_cases hb : b = a
          · subst hb; simp [Mem.get]
          · simp [Mem.get, hb]
      · rename_i h4 h5
        by_cases hb : b = k
        · subst hb
          have : ¬ b = a := fun e => h5 e.symm
          simp [Mem.get, this]
        · simp only [Mem.get, if_neg hb]; exact ih h3

/-- Bytes written read back in order, and every other address reads as before. -/
theorem Mem.get_write {m : Mem} (h : m.wf = true) (a b : Nat) (bs : List Byte) :
    (m.write a bs).get b = if a ≤ b ∧ b < a + bs.length then bs.getD (b - a) 0 else m.get b := by
  induction bs generalizing m a with
  | nil => simp [Mem.write]
  | cons x bs ih =>
    rw [Mem.write, ih (Mem.set_wf a x h) (a + 1)]
    by_cases h1 : a + 1 ≤ b ∧ b < a + 1 + bs.length
    · rw [if_pos h1, if_pos (by simp only [List.length_cons]; omega)]
      obtain ⟨k, rfl⟩ : ∃ k, b = a + 1 + k := ⟨b - (a + 1), by omega⟩
      rw [show a + 1 + k - (a + 1) = k by omega, show a + 1 + k - a = k + 1 by omega]
      simp
    · rw [if_neg h1, Mem.get_set h]
      by_cases hb : b = a
      · subst hb; simp
      · rw [if_neg hb, if_neg (by simp only [List.length_cons]; omega)]

/-- What a clear leaves. -/
theorem Mem.get_clear (m : Mem) (a n b : Nat) : (m.clear a n).get b = if a ≤ b ∧ b < a + n then 0 else m.get b := by
  induction m with
  | nil => simp [Mem.clear, Mem.get]
  | cons c m ih =>
    obtain ⟨k, v⟩ := c
    simp only [Mem.clear, List.filter_cons] at ih ⊢
    by_cases hk : k < a ∨ a + n ≤ k
    · rw [if_pos (by simpa using hk)]
      simp only [Mem.get]
      by_cases hb : b = k
      · subst hb; rw [if_pos rfl, if_neg (by omega), if_pos rfl]
      · rw [if_neg hb, if_neg hb]; exact ih
    · rw [if_neg (by simpa using hk), ih]
      simp only [Mem.get]
      by_cases hb : b = k
      · subst hb; rw [if_pos (by omega), if_pos (by omega)]
      · rw [if_neg hb]

end Sys2Proof.Machine
end

