-- ==== Sys2Proof/Safety.lean ====
section
/-! DEFINITION. What counts as a safe state and a safe run. -/
namespace Sys2Proof

open Sys2Proof.Machine

/-- No warp and no matrix stream has a fatal trap, and the boot has not halted. -/
def Safe (s : State) : Prop :=
  s.boot.halted = none ∧ (∀ w ∈ s.warps, w.fatal = none) ∧ ∀ b ∈ s.blocks, ∀ x, b.stream = some x → x.fatal = none

/-- `k` steps from a state stay safe, and none of them stops. -/
def SafeRun : Nat → State → Prop
  | 0, s => Safe s
  | k + 1, s => Safe s ∧ ∃ t, step s = .next t ∧ SafeRun k t

end Sys2Proof
end

