-- ==== Sys2Proof/Tests/Slice0.lean ====
section
/-! SUPPORT. Tests: words written out from the encodings of the spec, terms that are refused, single steps, and states that meet the hypotheses of the statements. -/

open Sys2Proof Sys2Proof.Machine

set_option maxRecDepth 100000

theorem test_words_integer_1 :
  decodeTableWord 64 0x402f780c02020007 = some (.iadd (plainStd 3 1 2 7)) ∧
  decodeTableWord 64 0x404f780c0202000b = some (.isub (plainStd 3 1 2 0xb)) ∧
  decodeTableWord 64 0x40af780c02020007 = some (.imul (plainStd 3 1 2 7)) ∧
  decodeTableWord 64 0x40cf780c0202000b = some (.imulh (plainStd 3 1 2 0xb)) ∧
  decodeTableWord 64 0x416f780c02020007 = some (.imin (plainStd 3 1 2 7)) ∧
  decodeTableWord 64 0x418f780c0202000b = some (.imax (plainStd 3 1 2 0xb)) ∧
  decodeTableWord 64 0x41cf780c02020002 = some (.iand (plainStd 3 1 2 2)) ∧
  decodeTableWord 64 0x41ef780c02020002 = some (.ior (plainStd 3 1 2 2)) ∧
  decodeTableWord 64 0x420f780c02020002 = some (.ixor (plainStd 3 1 2 2)) ∧
  decodeTableWord 64 0x424f780c02020002 = some (.iandn (plainStd 3 1 2 2)) := by decide
theorem test_words_integer_2 :
  decodeTableWord 64 0x426f780c02020002 = some (.ishl (plainStd 3 1 2 2)) ∧
  decodeTableWord 64 0x428f780c02020002 = some (.ishr (plainStd 3 1 2 2)) ∧
  decodeTableWord 64 0x42af780c02020007 = some (.isar (plainStd 3 1 2 7)) ∧
  decodeTableWord 64 0x42cf780c02020002 = some (.irot (plainStd 3 1 2 2)) ∧
  decodeTableWord 64 0x412f780c02000007 = some (.ineg (plainStd 3 1 0 7)) ∧
  decodeTableWord 64 0x414f780c02000007 = some (.iabs (plainStd 3 1 0 7)) ∧
  decodeTableWord 64 0x422f780c02000002 = some (.inot (plainStd 3 1 0 2)) ∧
  decodeTableWord 64 0x432f780c02000002 = some (.ipopc (plainStd 3 1 0 2)) ∧
  decodeTableWord 64 0x434f780c02000002 = some (.iclz (plainStd 3 1 0 2)) ∧
  decodeTableWord 64 0x436f780c02000002 = some (.ictz (plainStd 3 1 0 2)) := by decide
theorem test_words_integer_3 :
  decodeTableWord 64 0x438f780c02000002 = some (.ibrev (plainStd 3 1 0 2)) ∧
  decodeTableWord 64 0x406f780c02020004 = some (.iaddc (plainStd 3 1 2 4)) ∧
  decodeTableWord 64 0x408f780c02020005 = some (.isubb (plainStd 3 1 2 5)) ∧
  decodeTableWord 64 0x43af780c02020006 = some (.isel (plainStd 3 1 2 6)) ∧
  decodeTableWord 64 0x43cf780404030002 = some (.icmp (plainStd 1 2 3 2)) ∧
  decodeTableWord 64 0x446f781804040003 = some (.add64 (plainStd 6 2 4 3)) ∧
  decodeTableWord 64 0x448f781804040003 = some (.sub64 (plainStd 6 2 4 3)) ∧
  decodeTableWord 64 0x44af780404040008 = some (.cmp64 (plainStd 1 2 4 8)) ∧
  decodeTableWord 64 0x44cf781804040003 = some (.shl64 (plainStd 6 2 4 3)) ∧
  decodeTableWord 64 0x44ef781804040008 = some (.shr64 (plainStd 6 2 4 8)) := by decide
theorem test_words_integer_4 :
  decodeTableWord 64 0x450f780c02025007 = some (.idiv { plainStd 3 1 2 7 with la := 5 }) ∧
  decodeTableWord 64 0x452f780c0202f00b = some (.irem { plainStd 3 1 2 0xb with la := 0xf }) := by decide
theorem test_words_integer_extended_1 :
  decodeTableWord 128 0xc000040112345678802f780c02000007 = some (.iaddExt { plainExt 3 1 0 0 0 7 0x12345678 with bk := 1, modhi := 1 }) ∧
  decodeTableWord 128 0xc000040112345678804f780c0200000b = some (.isubExt { plainExt 3 1 0 0 0 0xb 0x12345678 with bk := 1, modhi := 1 }) ∧
  decodeTableWord 128 0xc00004001234567880af780c02000007 = some (.imulExt { plainExt 3 1 0 0 0 7 0x12345678 with bk := 1, modhi := 0 }) ∧
  decodeTableWord 128 0xc000040012345678816f780c02000007 = some (.iminExt { plainExt 3 1 0 0 0 7 0x12345678 with bk := 1, modhi := 0 }) ∧
  decodeTableWord 128 0xc000040012345678818f780c02000007 = some (.imaxExt { plainExt 3 1 0 0 0 7 0x12345678 with bk := 1, modhi := 0 }) ∧
  decodeTableWord 128 0xc00004001234567881cf780c02000002 = some (.iandExt { plainExt 3 1 0 0 0 2 0x12345678 with bk := 1, modhi := 0 }) ∧
  decodeTableWord 128 0xc00004001234567881ef780c02000002 = some (.iorExt { plainExt 3 1 0 0 0 2 0x12345678 with bk := 1, modhi := 0 }) ∧
  decodeTableWord 128 0xc000040012345678820f780c02000002 = some (.ixorExt { plainExt 3 1 0 0 0 2 0x12345678 with bk := 1, modhi := 0 }) ∧
  decodeTableWord 128 0xc000040012345678824f780c02000002 = some (.iandnExt { plainExt 3 1 0 0 0 2 0x12345678 with bk := 1, modhi := 0 }) ∧
  decodeTableWord 128 0xc06000000000000080ef781002020007 = some (.imad (plainExt 4 1 2 3 0 7 0)) := by decide
theorem test_words_integer_extended_2 :
  decodeTableWord 128 0xc080000000000000810f78180202000b = some (.imadw (plainExt 6 1 2 4 0 0xb 0)) ∧
  decodeTableWord 128 0xc06000000000000081af781002020007 = some (.iclamp (plainExt 4 1 2 3 0 7 0)) ∧
  decodeTableWord 128 0xc00004000000080582ef780c02000007 = some (.ibfe { plainExt 3 1 0 0 0 7 0x805 with bk := 1 }) ∧
  decodeTableWord 128 0xc060000000000000830f781002020002 = some (.ibfi (plainExt 4 1 2 3 0 2 0)) ∧
  decodeTableWord 128 0xc00004000000000983cf780404000005 = some (.icmpExt { plainExt 1 2 0 0 0 5 9 with bk := 1 }) ∧
  decodeTableWord 128 0xc06000000000000083ef781002020007 = some (.idot4 (plainExt 4 1 2 3 0 7 0)) ∧
  decodeTableWord 128 0xc060000000000000840f781002020003 = some (.isad (plainExt 4 1 2 3 0 3 0)) ∧
  decodeTableWord 128 0xc000020000000000842f781820090003 = some (.lea { plainExt 6 0x10 9 0 0 3 0 with ak := 1 }) ∧
  decodeTableWord 128 0xc060000000000000844f78180202000b = some (.leahi (plainExt 6 1 2 3 0 0xb 0)) ∧
  decodeTableWord 128 0xc000040000000005846f781804000003 = some (.add64Ext { plainExt 6 2 0 0 0 3 5 with bk := 1 }) := by decide
theorem test_words_integer_extended_3 :
  decodeTableWord 128 0xc000040000000005848f781804000003 = some (.sub64Ext { plainExt 6 2 0 0 0 3 5 with bk := 1 }) ∧
  decodeTableWord 128 0xc00004000000000584af780404000000 = some (.cmp64Ext { plainExt 1 2 0 0 0 0 5 with bk := 1 }) := by decide
theorem test_words_float_1 :
  decodeTableWord 64 0x480f78140c070002 = some (.fadd (plainStd 5 6 7 2)) ∧
  decodeTableWord 64 0x482f78140c070002 = some (.fsub (plainStd 5 6 7 2)) ∧
  decodeTableWord 64 0x484f78140c070002 = some (.fmul (plainStd 5 6 7 2)) ∧
  decodeTableWord 64 0x498f78140c070002 = some (.fdiv (plainStd 5 6 7 2)) ∧
  decodeTableWord 64 0x488f78140c070008 = some (.fmin (plainStd 5 6 7 8)) ∧
  decodeTableWord 64 0x48af78140c070008 = some (.fmax (plainStd 5 6 7 8)) ∧
  decodeTableWord 64 0x48cf78140c070004 = some (.fcmp (plainStd 5 6 7 4)) ∧
  decodeTableWord 64 0x48ef78140c000010 = some (.fclass (plainStd 5 6 0 0x10)) ∧
  decodeTableWord 64 0x490f78140c000003 = some (.frnd (plainStd 5 6 0 3)) ∧
  decodeTableWord 64 0x496f78140c000001 = some (.fsqrt (plainStd 5 6 0 1)) := by decide
theorem test_words_float_2 :
  decodeTableWord 64 0x492f78140c000000 = some (.frcp (plainStd 5 6 0 0)) ∧
  decodeTableWord 64 0x494f78140c000000 = some (.frsq (plainStd 5 6 0 0)) ∧
  decodeTableWord 64 0x49af78140c000000 = some (.fexp2 (plainStd 5 6 0 0)) ∧
  decodeTableWord 64 0x49cf78140c000000 = some (.flog2 (plainStd 5 6 0 0)) ∧
  decodeTableWord 64 0x49ef78140c000000 = some (.fsin (plainStd 5 6 0 0)) ∧
  decodeTableWord 64 0x4a0f78140c000000 = some (.fcos (plainStd 5 6 0 0)) ∧
  decodeTableWord 64 0x4a2f78140c000000 = some (.ftanh (plainStd 5 6 0 0)) ∧
  decodeTableWord 64 0x4a4f78140c000000 = some (.fsig (plainStd 5 6 0 0)) ∧
  decodeTableWord 64 0x4a6f78140c070008 = some (.hadd2 (plainStd 5 6 7 8)) ∧
  decodeTableWord 64 0x4a8f78140c070008 = some (.hmul2 (plainStd 5 6 7 8)) := by decide
theorem test_words_float_3 :
  decodeTableWord 64 0x4b0f78140c07000f = some (.cvt (plainStd 5 6 7 0xf)) := by decide
theorem test_words_float_extended_1 :
  decodeTableWord 128 0xc000000100000000880f78140c070001 = some (.faddExt { plainExt 5 6 7 0 0 1 0 with modhi := 1 }) ∧
  decodeTableWord 128 0xc000000100000000882f78140c070001 = some (.fsubExt { plainExt 5 6 7 0 0 1 0 with modhi := 1 }) ∧
  decodeTableWord 128 0xc000000100000000884f78140c070001 = some (.fmulExt { plainExt 5 6 7 0 0 1 0 with modhi := 1 }) ∧
  decodeTableWord 128 0xc160000000000000886f780c0e090001 = some (.ffma (plainExt 3 7 9 0xb 0 1 0)) ∧
  decodeTableWord 128 0xc00004003f80000088cf78140c000002 = some (.fcmpExt { plainExt 5 6 0 0 0 2 0x3f800000 with bk := 1 }) ∧
  decodeTableWord 128 0xc0000001000000008a6f78140c070010 = some (.hadd2Ext { plainExt 5 6 7 0 0 0x10 0 with modhi := 1 }) ∧
  decodeTableWord 128 0xc0000001000000008a8f78140c070010 = some (.hmul2Ext { plainExt 5 6 7 0 0 0x10 0 with modhi := 1 }) ∧
  decodeTableWord 128 0xc1000000000000008aaf78140c070008 = some (.hfma2 (plainExt 5 6 7 8 0 8 0)) ∧
  decodeTableWord 128 0xc1000000000000008acf78140c070010 = some (.bfma2 (plainExt 5 6 7 8 0 0x10 0)) ∧
  decodeTableWord 128 0xc1000000000000008aef78140c070008 = some (.fdot2 (plainExt 5 6 7 8 0 8 0)) := by decide
theorem test_words_float_extended_2 :
  decodeTableWord 128 0xc000000f000000008b2f784040000014 = some (.bxpack { plainExt 0x10 0x20 0 0 0 0x14 0 with modhi := 0xf }) ∧
  decodeTableWord 128 0xc0000013000000008b4f78404000000f = some (.bxunpack { plainExt 0x10 0x20 0 0 0 0xf 0 with modhi := 0x13 }) := by decide
theorem test_words_moves_1 :
  decodeTableWord 64 0x500f780800030000 = some (.pset (plainStd 2 0 3 0)) ∧
  decodeTableWord 64 0x502f780806040000 = some (.pand (plainStd 2 3 4 0)) ∧
  decodeTableWord 64 0x504f780806040001 = some (.por (plainStd 2 3 4 1)) ∧
  decodeTableWord 64 0x506f780806040002 = some (.pxor (plainStd 2 3 4 2)) ∧
  decodeTableWord 64 0x508f780806000000 = some (.pnot (plainStd 2 3 0 0)) ∧
  decodeTableWord 64 0x50af780800000001 = some (.pmov (plainStd 2 0 0 1)) ∧
  decodeTableWord 64 0x50cf780801ff0042 = some (.mov { plainStd 2 0 0x1ff 2 with bk := 1 }) ∧
  decodeTableWord 128 0xc0000400deadbeef90ef780800000002 = some (.movi { plainExt 2 0 0 0 0 2 0xdeadbeef with bk := 1 }) ∧
  decodeTableWord 64 0x510f78100a000020 = some (.movs { plainStd 4 5 0 0 with ak := 1 }) ∧
  decodeTableWord 64 0x512f7850221200a0 = some (.sadd { plainStd 0x14 0x11 0x12 0 with bk := 2, ak := 1 }) := by decide
theorem test_words_moves_2 :
  decodeTableWord 128 0xc000060000000007912f785022000000 = some (.saddExt { plainExt 0x14 0x11 0 0 0 0 7 with bk := 1, ak := 1 }) ∧
  decodeTableWord 64 0x514f7850221200a0 = some (.ssub { plainStd 0x14 0x11 0x12 0 with bk := 2, ak := 1 }) ∧
  decodeTableWord 128 0xc000060000000007914f785022000000 = some (.ssubExt { plainExt 0x14 0x11 0 0 0 0 7 with bk := 1, ak := 1 }) ∧
  decodeTableWord 64 0x516f7850221200a0 = some (.sand { plainStd 0x14 0x11 0x12 0 with bk := 2, ak := 1 }) ∧
  decodeTableWord 128 0xc000060000000007916f785022000000 = some (.sandExt { plainExt 0x14 0x11 0 0 0 0 7 with bk := 1, ak := 1 }) ∧
  decodeTableWord 64 0x518f7850221200a0 = some (.sor { plainStd 0x14 0x11 0x12 0 with bk := 2, ak := 1 }) ∧
  decodeTableWord 128 0xc000060000000007918f785022000000 = some (.sorExt { plainExt 0x14 0x11 0 0 0 0 7 with bk := 1, ak := 1 }) ∧
  decodeTableWord 64 0x51af785022030062 = some (.sshl { plainStd 0x14 0x11 3 2 with bk := 1, ak := 1 }) ∧
  decodeTableWord 64 0x51cf7850221200ad = some (.scmp { plainStd 0x14 0x11 0x12 0xd with bk := 2, ak := 1 }) ∧
  decodeTableWord 128 0xc00006000000000791cf785022000001 = some (.scmpExt { plainExt 0x14 0x11 0 0 0 1 7 with bk := 1, ak := 1 }) := by decide
theorem test_words_moves_3 :
  decodeTableWord 64 0x51ef781860000001 = some (.sprrd (plainStd 6 0x30 0 1)) ∧
  decodeTableWord 64 0x520f785000120081 = some (.sprwr { plainStd 0x14 0 0x12 1 with bk := 2 }) := by decide
theorem test_words_lanes_1 :
  decodeTableWord 64 0x540f780420080060 = some (.bnload { plainStd 1 0x10 8 0 with ak := 1, bk := 1 }) ∧
  decodeTableWord 128 0xc000020000000040940f780420000000 = some (.bnloadExt { plainExt 1 0x10 0 0 0 0 0x40 with ak := 1 }) ∧
  decodeTableWord 64 0x542f780404000003 = some (.bnperm (plainStd 1 2 0 3)) ∧
  decodeTableWord 64 0x544f780806010000 = some (.bnmov (plainStd 2 3 1 0)) ∧
  decodeTableWord 64 0x546f780806040003 = some (.shfl (plainStd 2 3 4 3)) ∧
  decodeTableWord 64 0x548f780806000001 = some (.vote (plainStd 2 3 0 1)) ∧
  decodeTableWord 64 0x54af780806000009 = some (.redux (plainStd 2 3 0 9)) ∧
  decodeTableWord 64 0x54cf780806000010 = some (.scan (plainStd 2 3 0 0x10)) ∧
  decodeTableWord 64 0x54ef780806000000 = some (.matchLanes (plainStd 2 3 0 0)) ∧
  decodeTableWord 64 0x550f78140c000001 = some (.popm (plainStd 5 6 0 1)) := by decide
theorem test_words_control_1 :
  decodeTableWord 64 0x580f780001ff0040 = some (.bra { plainStd 0 0 0x1ff 0 with bk := 1 }) ∧
  decodeTableWord 128 0xc0000000fffffff0980f780000000000 = some (.braExt (plainExt 0 0 0 0 0 0 0xfffffff0)) ∧
  decodeTableWord 64 0x582f780004000000 = some (.brx (plainStd 0 2 0 0)) ∧
  decodeTableWord 64 0x584f781000050040 = some (.call { plainStd 4 0 5 0 with bk := 1 }) ∧
  decodeTableWord 128 0xc000000000000005984f781000000000 = some (.callExt (plainExt 4 0 0 0 0 0 5)) ∧
  decodeTableWord 64 0x586f781004000000 = some (.callx (plainStd 4 2 0 0)) ∧
  decodeTableWord 64 0x588f780004000000 = some (.ret (plainStd 0 2 0 0)) ∧
  decodeTableWord 64 0x58af780000000000 = some (.exit (plainStd 0 0 0 0)) ∧
  decodeTableWord 64 0x58cf780000000000 = some (.yield (plainStd 0 0 0 0)) ∧
  decodeTableWord 64 0x58ef780000000000 = some (.nop (plainStd 0 0 0 0)) := by decide
theorem test_words_control_2 :
  decodeTableWord 64 0x598f780000000000 = some (.trig (plainStd 0 0 0 0)) ∧
  decodeTableWord 64 0x590f780002100040 = some (.barInit { plainStd 0 1 0x10 0 with bk := 1 }) ∧
  decodeTableWord 64 0x590f780802000001 = some (.barArrive (plainStd 2 1 0 1)) ∧
  decodeTableWord 64 0x590f780802000002 = some (.barWait (plainStd 2 1 0 2)) ∧
  decodeTableWord 64 0x590f780002000003 = some (.barSync (plainStd 0 1 0 3)) ∧
  decodeTableWord 128 0xc000240100000001992f782018000000 = some (.emit { plainExt 8 0xc 0 0 2 0 1 with bk := 1, modhi := 1 }) ∧
  decodeTableWord 128 0xc000200100000020994f782018050000 = some (.emitm { plainExt 8 0xc 5 0 2 0 0x20 with modhi := 1 }) ∧
  decodeTableWord 128 0xc00040000000000c996f780006000000 = some (.reorder (plainExt 0 3 0 0 4 0 0xc)) ∧
  decodeTableWord 64 0x59af780000070002 = some (.lwait (plainStd 0 0 7 2)) := by decide
theorem test_words_memory_1 :
  decodeTableWord 64 0x5c0f782028040062 = some (.ld { plainStd 8 0x14 4 2 with ak := 1, bk := 1 }) ∧
  decodeTableWord 128 0xc0000000000000409c0f782014040002 = some (.ldExt (plainExt 8 0xa 4 0 0 2 0x40)) ∧
  decodeTableWord 64 0x5c2f782028040062 = some (.st { plainStd 8 0x14 4 2 with ak := 1, bk := 1 }) ∧
  decodeTableWord 128 0xc0000000000000409c2f782014040002 = some (.stExt (plainExt 8 0xa 4 0 0 2 0x40)) ∧
  decodeTableWord 64 0x5c4f78202804006a = some (.ldfe { plainStd 8 0x14 4 0xa with ak := 1, bk := 1 }) ∧
  decodeTableWord 128 0xc0000000000000409c4f78201404000a = some (.ldfeExt (plainExt 8 0xa 4 0 0 0xa 0x40)) ∧
  decodeTableWord 64 0x5c6f782028040062 = some (.stfe { plainStd 8 0x14 4 2 with ak := 1, bk := 1 }) ∧
  decodeTableWord 128 0xc0000000000000409c6f782014040002 = some (.stfeExt (plainExt 8 0xa 4 0 0 2 0x40)) ∧
  decodeTableWord 64 0x5d0f780028040060 = some (.pfetch { plainStd 0 0x14 4 0 with ak := 1, bk := 1 }) ∧
  decodeTableWord 128 0xc0000000000000409d0f780014040000 = some (.pfetchExt (plainExt 0 0xa 4 0 0 0 0x40)) := by decide
theorem test_words_memory_2 :
  decodeTableWord 64 0x5c8f7800281200a1 = some (.fereset { plainStd 0 0x14 0x12 1 with ak := 1, bk := 2 }) ∧
  decodeTableWord 64 0x5caf782028040060 = some (.fequery { plainStd 8 0x14 4 0 with ak := 1, bk := 1 }) ∧
  decodeTableWord 128 0xc0000000000000009ccf782014040012 = some (.ldbx (plainExt 8 0xa 4 0 0 0x12 0)) ∧
  decodeTableWord 128 0xc0000000000000009cef782014040014 = some (.stbx (plainExt 8 0xa 4 0 0 0x14 0)) ∧
  decodeTableWord 64 0x5d2f782014090000 = some (.atom (plainStd 8 0xa 9 0)) ∧
  decodeTableWord 128 0xc1800000000000049d2f78201409000a = some (.atomExt (plainExt 8 0xa 9 0xc 0 0xa 4)) ∧
  decodeTableWord 64 0x5d4f78001409000f = some (.red (plainStd 0 0xa 9 0xf)) ∧
  decodeTableWord 128 0xc0000000000000049d4f780014080019 = some (.redExt (plainExt 0 0xa 8 0 0 0x19 4)) := by decide
theorem test_words_engines_1 :
  decodeTableWord 128 0xc2800b0000000000a40f780020120000 = some (.copy { plainExt 0 0x10 0x12 0x14 0 0 0 with ak := 1, bk := 2, ck := 1 }) ∧
  decodeTableWord 128 0xc2800b0000000005a42f780020120001 = some (.gather { plainExt 0 0x10 0x12 0x14 0 1 5 with ak := 1, bk := 2, ck := 1 }) ∧
  decodeTableWord 128 0xc2800b0000000006a44f780020120002 = some (.scatter { plainExt 0 0x10 0x12 0x14 0 2 6 with ak := 1, bk := 2, ck := 1 }) ∧
  decodeTableWord 128 0xc2816b0000000000a46f780020120008 = some (.fill { plainExt 0 0x10 0x12 0x14 0x16 8 0 with ak := 1, bk := 2, ck := 1 }) ∧
  decodeTableWord 64 0x648f7800200000e4 = some (.pub { plainStd 0 0x10 0 4 with ak := 1, bk := 3 }) ∧
  decodeTableWord 64 0x64af780c00010044 = some (.cwait { plainStd 3 0 1 4 with bk := 1 }) ∧
  decodeTableWord 64 0x64cf782000000003 = some (.cpoll (plainStd 8 0 0 3)) ∧
  decodeTableWord 128 0xc00002000000000ba4ef782020000003 = some (.ctab { plainExt 8 0x10 0 0 0 3 0xb with ak := 1 }) ∧
  decodeTableWord 64 0x650f782000000000 = some (.fabfence (plainStd 8 0 0 0)) ∧
  decodeTableWord 128 0xc2800f0000000000a52f780020000005 = some (.mckpt { plainExt 0 0x10 0 0x14 0 5 0 with ak := 1, bk := 3, ck := 1 }) := by decide
theorem test_words_engines_2 :
  decodeTableWord 128 0xc0000e0000000000accf780020000010 = some (.ccomp { plainExt 0 0x10 0 0 0 0x10 0 with ak := 1, bk := 3 }) ∧
  decodeTableWord 128 0xc0000e0000000000acef780020000000 = some (.callred { plainExt 0 0x10 0 0 0 0 0 with ak := 1, bk := 3 }) := by decide
theorem test_words_matrix_1 :
  decodeTableWord 64 0x680f781400060080 = some (.mres { plainStd 5 0 6 0 with bk := 2 }) ∧
  decodeTableWord 64 0x682f780000060080 = some (.mrel { plainStd 0 0 6 0 with bk := 2 }) ∧
  decodeTableWord 128 0xc000020000000040a84f781c06000000 = some (.mshape { plainExt 7 3 0 0 0 0 0x40 with ak := 1 }) ∧
  decodeTableWord 128 0xc080030000000040a86f781c06000000 = some (.mprol { plainExt 7 3 0 4 0 0 0x40 with ak := 1, ck := 1 }) ∧
  decodeTableWord 64 0x688f781c00000000 = some (.mzero (plainStd 7 0 0 0)) ∧
  decodeTableWord 128 0xc000020000000040a8af781c06000000 = some (.mmac { plainExt 7 3 0 0 0 0 0x40 with ak := 1 }) ∧
  decodeTableWord 128 0xc0a00b0800000000a8cf781c0604002f = some (.mread { plainExt 7 3 4 5 0 0x2f 0 with ak := 1, bk := 2, ck := 1, modhi := 8 }) ∧
  decodeTableWord 128 0xc0a00b0000000000a8ef781c0604000d = some (.mwrite { plainExt 7 3 4 5 0 0xd 0 with ak := 1, bk := 2, ck := 1 }) ∧
  decodeTableWord 64 0x690f780000020040 = some (.mwait { plainStd 0 0 2 0 with bk := 1 }) ∧
  decodeTableWord 64 0x580f780006040069 = some (.braCond (.std { plainStd 0 3 4 9 with ak := 1, bk := 1 })) := by decide
theorem test_words_matrix_2 :
  decodeTableWord 64 0x584f78180604006c = some (.callCond (.std { plainStd 6 3 4 0xc with ak := 1, bk := 1 })) := by decide
theorem test_words_tongs_rays_system_1 :
  decodeTableWord 128 0xc640000000000000a92f782020280000 = some (.nnev (plainExt 8 0x10 0x28 0x32 0 0 0)) ∧
  decodeTableWord 64 0x694f780000000000 = some (.nnflush (plainStd 0 0 0 0)) ∧
  decodeTableWord 128 0xc0000000000001ffac0f784030280000 = some (.rtrace (plainExt 0x10 0x18 0x28 0 0 0 0x1ff)) ∧
  decodeTableWord 64 0x6c2f782000000000 = some (.rnext (plainStd 8 0 0 0)) ∧
  decodeTableWord 64 0x6c4f782000000001 = some (.rhit (plainStd 8 0 0 1)) ∧
  decodeTableWord 64 0x6c6f782000000000 = some (.rend (plainStd 8 0 0 0)) ∧
  decodeTableWord 64 0x6c8f782000000000 = some (.rquery (plainStd 8 0 0 0)) ∧
  decodeTableWord 128 0xc140300100000000acaf782020090000 = some (.rfwd { plainExt 8 0x10 9 0xa 3 0 0 with modhi := 1 }) ∧
  decodeTableWord 64 0x700f780000120040 = some (.trap { plainStd 0 0 0x12 0 with bk := 1 }) ∧
  decodeTableWord 64 0x702f780000000001 = some (.rti (plainStd 0 0 0 1)) := by decide
theorem test_words_tongs_rays_system_2 :
  decodeTableWord 64 0x704f780000000000 = some (.tmask (plainStd 0 0 0 0)) ∧
  decodeTableWord 64 0x706f780000000000 = some (.tunmask (plainStd 0 0 0 0)) ∧
  decodeTableWord 64 0x708f7800201100a1 = some (.tlbinv { plainStd 0 0x10 0x11 1 with ak := 1, bk := 2 }) ∧
  decodeTableWord 128 0xc220070000000003b08f780020000001 = some (.tlbinvExt { plainExt 0 0x10 0 0x11 0 1 3 with ak := 1, ck := 1, bk := 1 }) ∧
  decodeTableWord 64 0x70af7800201100a1 = some (.cachectl { plainStd 0 0x10 0x11 1 with ak := 1, bk := 2 }) ∧
  decodeTableWord 64 0x70cf780000050000 = some (.tmark (plainStd 0 0 5 0)) ∧
  decodeTableWord 64 0x70ef780000000000 = some (.specoff (plainStd 0 0 0 0)) ∧
  decodeTableWord 64 0x710f780000000000 = some (.specon (plainStd 0 0 0 0)) ∧
  decodeTableWord 64 0x712f780000000000 = some (.halt (plainStd 0 0 0 0)) ∧
  decodeTableWord 64 0x714f780000000000 = some (.ctxsw (plainStd 0 0 0 0)) := by decide

namespace Sys2Proof.Tests
set_option Elab.async false

/-! ### Terms that no word stands for (03 R96, R97): each check refuses one, with the cause and reason of R97 -/

/-- A warp of 16 lanes with 32 registers, and a matrix stream. -/
def warpCtx : DecCtx := ⟨false, 32, 16, Config.offered⟩
def streamCtx : DecCtx := ⟨true, 32, 16, Config.offered⟩
/-- Not well-formed, for a cause and a reason of R97. -/
def refused (cx : DecCtx) (cause reason : Nat) (is : List Instr) : Bool :=
  is.all fun i => !WellFormed cx i && (i.enc.bind fun e => (encBad cx e).map fun x => (x.1, x.2.1)) == some (cause, reason)

/-- R80: a register at or above N, a pair at an odd number, a predicate above 15, s15 as a destination, an unused field that is not zero. -/
theorem test_refused_fields : refused warpCtx 2 3
  [.iadd (plainStd 32 1 2 7), .iadd (plainStd 3 32 2 7), .iadd (plainStd 3 1 32 7), .add64 (plainStd 5 2 4 3), .add64 (plainStd 6 3 4 3),
    .imad (plainExt 4 1 2 32 0 7 0), .pand (plainStd 16 3 4 0), .sadd { plainStd 0xF 0x11 0x12 0 with bk := 2, ak := 1 }, .ineg (plainStd 3 1 1 7),
    .emit { plainExt 8 0xc 0 0 16 0 1 with bk := 1, modhi := 1 }, .compactPair ⟨⟨1, 15, 4, 40, 0⟩, ⟨1, 15, 5, 9, 0⟩⟩] = true := by decide
/-- R91, R92, R87: KEEP naming no vector register, HINT and LA where they are not honoured. -/
theorem test_refused_keep_hint_la :
  refused warpCtx 2 4 [.iadd { plainStd 3 1 2 7 with keep := 2, bk := 1 }, .iadd { plainStd 3 1 2 7 with keep := 3 }] = true ∧
  refused warpCtx 2 5 [.iadd { plainStd 3 1 2 7 with hint := 1 }] = true ∧ refused warpCtx 2 6 [.iadd { plainStd 3 1 2 7 with la := 5 }] = true := by decide
/-- R81, R82, R100: a literal zero with B not zero or not allowed, IMM32 with B not zero, a uniform predicate, SKIND 11, a vector kind in a matrix stream. -/
theorem test_refused_kinds : refused warpCtx 2 7
    [.iadd { plainStd 3 1 2 7 with bk := 3 }, .imad { plainExt 4 1 2 3 0 7 9 with bk := 1 }, .add64 { plainStd 6 2 0 3 with bk := 3 },
      .compactPair ⟨⟨1, 15, 4, 8, 3⟩, ⟨1, 15, 5, 9, 0⟩⟩] = true ∧
  refused streamCtx 2 7 [.sadd { plainStd 0x14 0x11 0x12 0 with ak := 1 }] = true := by decide
/-- R84, R97: a reserved type or modifier, MODHI or IMM32 without use, a segment wider than the warp, a guard in a matrix stream. -/
theorem test_refused_modifiers : refused warpCtx 2 8
    [.iadd (plainStd 3 1 2 3), .imad (plainExt 4 1 2 3 0 0x17 0), .imad { plainExt 4 1 2 3 0 7 0 with modhi := 1 }, .imad (plainExt 4 1 2 3 0 7 1),
      .shfl (plainStd 2 3 4 20), .mov { plainStd 2 0 1 5 with bk := 1 }] = true ∧
  refused streamCtx 2 8 [.mzero { plainStd 7 0 0 0 with ga := ⟨false, 1⟩ }] = true := by decide
/-- R78, R21, R130: two destinations in one bank, a special register that does not exist or cannot be written, a rounding of an integer pair. -/
theorem test_refused_pairs_and_registers :
  refused warpCtx 2 9 [.compactPair ⟨⟨1, 15, 4, 8, 0⟩, ⟨1, 15, 8, 9, 0⟩⟩] = true ∧
  refused warpCtx 2 0xA [.sprrd (plainStd 6 0x1FF 0 1), .sprwr { plainStd 0x30 0 0x12 1 with bk := 2 }] = true ∧
  refused warpCtx 2 0xB [.cvt (plainStd 5 6 0x2B 7)] = true := by decide
/-- R96, R100, 13 R421: an opcode of the other stream, of a feature that was not accepted, a compact opcode 0 or above 0x3F, a pair in a matrix stream. -/
theorem test_refused_opcodes :
  refused streamCtx 1 4 [.iadd (plainStd 3 1 2 7), .compactPair ⟨⟨1, 15, 4, 8, 0⟩, ⟨1, 15, 5, 9, 0⟩⟩] = true ∧ refused warpCtx 1 4 [.mzero (plainStd 7 0 0 0)] = true ∧
  refused { warpCtx with features := 0 } 1 2 [.rtrace (plainExt 0x10 0x18 0x8 0 0 0 0x1ff)] = true ∧
  refused warpCtx 1 1 [.compactPair ⟨⟨0, 15, 4, 8, 0⟩, ⟨1, 15, 5, 9, 0⟩⟩] = true ∧
  refused warpCtx 1 2 [.compactPair ⟨⟨1, 15, 4, 8, 0⟩, ⟨0x40, 15, 5, 9, 0⟩⟩] = true := by decide
/-- A move has no word; a row that shares its opcode names its own form (05 R167, 07 R235). -/
theorem test_refused_rows : WellFormed warpCtx .powerOn = false ∧ WellFormed warpCtx (.bra { plainStd 0 0 1 8 with bk := 1 }) = false ∧
  WellFormed warpCtx (.barInit { plainStd 0 1 0x10 1 with bk := 1 }) = false := by decide
/-- R72, R97: a second word first, an extended word alone, opcode 0, a reserved opcode, an extended opcode in a standard word. -/
theorem test_refused_words :
  let trap := fun x : W64 => match decode warpCtx x 0 with | .error t => (t.cause, t.reason) | .ok _ => (0, 0)
  trap 0xC000000000000000 = (1, 3) ∧ trap 0x80ef781002020007 = (2, 2) ∧ trap 0x4000000000000000 = (1, 1) ∧ trap 0x7fef780000000000 = (1, 2) ∧
  trap 0x40ef781002020007 = (2, 1) := by decide
/-! ### A small state, and states in which the hypotheses of the statements hold -/

/-- A privileged launch that is running: one block with two barriers, one warp of 16 lanes and 32 registers, and a matrix stream; VA 0 up maps to PA 0. -/
def codeBase : W64 := BitVec.ofNat 64 programBase
def pc0 : Pc := Pc.ofAddr codeBase
def demoHdr : Header := { programHeader true with regs := 32, bars := 2, scratch := 4096, tba := codeBase }
def demoRegs : WarpRegs :=
  let r := WarpRegs.start ((List.range 16).map fun l => Lane.start pc0 32 (BitVec.ofNat 64 l)) demoHdr.consts codeBase
  { r with s := ((r.s.set 16 (codeBase + 0x1000)).set 17 16).set 18 Config.windowBase }
def demoWarp : Warp := Warp.start 0 0 0 0 0 demoRegs 0 0
def demoX : Stream := Stream.start codeBase 2
def demoBlock : Block := { Block.start 0 0 0 0 0 4096 2 (some demoX) 0 0 with
  bars := [⟨true, 32, 0, false⟩, ⟨false, 0, 0, false⟩], pages := [⟨0, some 0, false, 0, none⟩], backing := some 0x2000000 }
def demoLaunch : Launch := Launch.start 0 0 0 0 [] demoHdr .live
def demo : State := { State.reset with
  launches := [demoLaunch], blocks := [demoBlock], warps := [demoWarp], cur := ⟨false, 0, pc0, 0xFFFF, 1, (0, 0), 63⟩
  pasids := [(0, BitVec.ofNat 128 (1 + 0x100 * 2 ^ 64))], mem := programTables [], features := some Config.offered }
def demoEnv : Env := ⟨demoWarp, demoBlock, demoLaunch⟩
def demoStream : State := { demo with cur := ⟨true, 0, pc0, 0, 1, (0, 0), 63⟩ }
def demoSEnv : SEnv := ⟨demoBlock, demoX, demoLaunch⟩
def always : Guard := ⟨false, 15⟩
/-- The state with another warp, launch or move's argument. -/
def demoW (w : Warp) : State := { demo with warps := [w] }
def demoL (l : Launch) : State := { demo with launches := [l] }
def demoA (a : Arg) : State := { demo with arg := a }

/-- Of an instruction with two always-true guards every lane has Exec; a warp and a stream have the room and the registers that the results need. For
IntegerTable, IntegerShiftsAndFields, CarrySelectCompare, WideIntegers, FloatArithmetic, FloatFunctionsAndHalves, PredicatesAndMoves, UniformUnit,
SpecialRegisterReads, CrossLaneResults, Conversions, CompactPairs, BranchesAndCalls, NetworksAndRaysIssue, RecordsAndReorder. -/
theorem witness_results : demo.env = some demoEnv ∧ demo.exec demoWarp always always = List.range 16 ∧ demoWarp.logRoom 16 = true ∧
    (∀ t ∈ demoWarp.regs.lanes, 32 ≤ t.v.length) ∧ demoWarp.regs.s.length = 64 ∧ demoWarp.settled = true ∧ intType 7 ∧ intType 11 ∧
    demoStream.senv = some demoSEnv ∧ demoX.x.length = 32 ∧ demoStream.tileStepOpen 0 = false := by
  unfold intType
  exact ⟨rfl, by decide, by decide, by decide, by decide, by decide, .inl rfl, .inr rfl, rfl, by decide⟩
/-- The fields of the special registers in their widths; a batch, and a block without a stream. -/
theorem witness_SpecialRegisterReads : demoWarp.logRoom 2 = true ∧ (∀ k < 6, demoHdr.widths.getD k 0 < 128) ∧ demoHdr.blk < 8 ∧ demoBlock.winSlot < 64 ∧ demoWarp.slot < 64 ∧
    demoBlock.core < 192 ∧ demoWarp.spec.crfl < 1024 ∧ demoWarp.spec.ulog < 32 ∧ demo.outstanding demoWarp < 64 ∧ demoWarp.spec.emits.length < 16 ∧
    demoWarp.spec.cmds.length < 16 ∧ demoX.next < 256 ∧ demoBlock.batch = none := by decide +kernel
theorem witness_DecodeEncodeAgree : WellFormed warpCtx (.iadd (plainStd 3 1 2 7)) = true ∧
    decode warpCtx 0x402f780c02020007 0 = .ok (.iadd (plainStd 3 1 2 7)) := by decide
/-- The first move of a path of a warp from a state, up to its words: what holds of the state they leave and of its bindings. -/
def atWarp (s : State) (ok : State → Env → Bool) : Bool :=
  s.stuck.isNone && s.agenda.isEmpty && match s.turn with
  | p :: turns => !p.stream && match ({ s with turn := turns, cur := { p with words := 1 } } : State).env with
    | some e =>
      let lanes := e.w.pathLanes p
      let s1 : State := { s with turn := turns, cur := { p with words := 1, lanes := maskOf lanes, quota := s.pick (2 ^ 79) % 64 } }
      !lanes.isEmpty && e.w.fatal.isNone && !e.w.off && !s.rollBlocked e.w.id && e.w.spec.sending == 0 && e.l.phase == .live && !e.l.halting &&
        !s.swapHolds e.w lanes && !e.w.asyncDue && e.b.poolFault.isNone &&
        match s1.pathWords e lanes p.pc with
        | .ok (x, y, s2) => ok { s2 with cur := { s2.cur with words := wordsAt x, code := (x, y) } } e
        | .error _ => false
    | none => false
  | [] => false
/-- The words decode to an instruction with a property; to none. -/
def decodesTo (s : State) (stream : Bool) (l : Launch) (ok : Instr → Bool) : Bool :=
  match decode (s.decCtx stream l) s.cur.code.1 s.cur.code.2 with | .ok i => ok i | .error _ => false
/-- The lanes that act, with the windows that end here closed. -/
def opened' (s : State) (e : Env) (i : Instr) : Warp := ((s.act e.w).foldl (fun w l => w.closeLane l (instrEnds i)) e.w).dropLongs
/-- The first move of a stream. -/
def atStream (s : State) (ok : State → SEnv → Bool) : Bool :=
  s.stuck.isNone && s.agenda.isEmpty && match s.turn with
  | p :: turns => p.stream && match ({ s with turn := turns, cur := { p with words := 1 } } : State).senv with
    | some e => !e.x.exited && !e.x.failed && e.x.fatal.isNone && e.x.wait == .none && e.l.phase == .live && !e.l.halting && (s.core e.b.core).phase != .swap &&
      match ({ s with turn := turns, cur := { p with words := 1 } } : State).fetchInstr e.who e.x.pc with
      | .ok (x, y, s2) => ok { s2 with cur := { s2.cur with code := (x, y) } } e
      | .error _ => false
    | none => false
  | [] => false
def firstAdd : State := State.reset.withFetchWord 64 0x402f780c02020007
def firstBad : State := State.reset.withFetchWord 64 0x6fff780c00000000
def firstZero : State := State.reset.withFetchWord 64 0x688f781c00000000
theorem witness_StepRunsDecodedInstruction : (atWarp firstAdd fun s e => decodesTo s false e.l fun i => i == .iadd (plainStd 3 1 2 7) && s.taking.isNone &&
    !(s.act e.w).isEmpty && ((s.act e.w).all fun l => !(opened' s e i).longPending l (instrEnds i)) && (opened' s e i).badRows.isEmpty &&
    ((opened' s e i).violation (s.act e.w) (instrDests i)).isNone) = true := by decide +kernel
theorem witness_StepRunsDecodedInstruction_bad : (atWarp firstBad fun s e => !decodesTo s false e.l fun _ => true) = true ∧
    (atStream firstBad fun _ _ => true) = false := by decide +kernel
/-- The same instruction behind one that shares its turn and issues alone; at the end of a window that has not completed. -/
theorem witness_StepRunsDecodedInstruction_waits :
    (atWarp { firstAdd with taking := some ⟨0, 0, 0, 0, some (0, .nop (plainStd 0 0 0 0))⟩ } fun s e => decodesTo s false e.l fun i => s.taking.isSome &&
      (s.taking.bind (·.first)).any fun j => !turnConflict j.2 i) = true ∧
    (atWarp { firstAdd with taking := some ⟨0, 0, 0, 0, some (0, .halt (plainStd 0 0 0 0))⟩ } fun s e => decodesTo s false e.l fun i =>
      (s.taking.bind (·.first)).any fun j => turnConflict j.2 i) = true ∧
    (atWarp { firstAdd with warps := firstAdd.warps.map fun w => { w with longs := [⟨3, codeBase, (List.range 16).map fun l => (l, 0), 1, false, [], [], false, none⟩] } } fun s e =>
      decodesTo s false e.l fun i => !(s.act e.w).isEmpty && (s.act e.w).all fun l => (opened' s e i).longPending l (instrEnds i)) = true := by decide +kernel
theorem witness_StepRunsDecodedInstruction_stream : (atStream firstZero fun s e => decodesTo s true e.l fun i => i == .mzero (plainStd 7 0 0 0)) = true ∧
    (atStream { firstZero with mem := firstBad.mem } fun s e => !decodesTo s true e.l fun _ => true) = true := by decide +kernel
theorem witness_StepRunsDecodedInstruction_moves : State.reset.hostWait = [] ∧ State.reset.taking = none ∧
    ({ State.reset with hostWait := [5] } : State).hostWait ≠ [] ∧ ({ State.reset with boot := { State.reset.boot with halted := some ⟨2, 1⟩ } } : State).stuck ≠ none := by decide
theorem witness_MemoryFormKept : State.reset.mem.wf = true ∧ ∃ t, step State.reset = .next t := ⟨by decide, _, rfl⟩
theorem witness_ClockRises : (∀ i u, State.reset.move = .run i u → restarts i = false) ∧ ∃ t, step State.reset = .next t := by
  refine ⟨fun i u h => ?_, _, rfl⟩
  have e : (match State.reset.move with | .run _ _ => true | _ => false) = false := by decide +kernel
  rw [h] at e
  cases e
theorem witness_CommitWritesRegisters : [0, 1].Nodup ∧ (∀ l ∈ [0, 1], l < demoWarp.width) ∧ RegWrite.fits demoWarp (.v 1 31 5) ∧
    RegWrite.fits demoWarp (.p 0 15 true) ∧ RegWrite.fits demoWarp (.u 63 1) ∧ RegWrite.fits demoWarp (.bn 7 1) := by
  simp only [RegWrite.fits]; decide
/-- No lane divides by zero; the lowest lane does. -/
theorem witness_DotProductsAndDivision :
    (∀ l ∈ demo.exec demoWarp always always, demoWarp.opB (.ofStd { plainStd 3 1 1 7 with bk := 1 }) l ≠ 0) ∧
    (demo.exec demoWarp always always).find? (fun l => demoWarp.opB (.ofStd { plainStd 3 1 0 7 with bk := 1 }) l == 0) = some 0 := by decide
/-- A write of TBA outside a handler, of TRAPCAUSE in one. -/
def inHandler : Warp := { demoWarp with regs := { demoRegs with trap := { demoRegs.trap with mask := 3 } } }
theorem witness_SpecialRegisterWrites : demo.exec demoWarp always always = 0 :: (List.range 15).map (· + 1) ∧ demoWarp.regs.trap.inHandler = false ∧
    inHandler.regs.trap.inHandler = true := by decide
theorem witness_WarpInstructionsWithoutResults : demoLaunch.hdr.privileged = true ∧ demo.cur.stream = false ∧ demo.env = some demoEnv ∧ demoWarp.settled = true ∧
    demo.exec demoWarp always always ≠ [] ∧ demoBlock.batch = none ∧
    (demoWarp.opB (.ofStd { plainStd 0 0 0 0 with bk := 1 }) 0).toNat < (waitCount demoLaunch demoBlock 0 0).2 ∧
    ([0].find? fun l => decide ((waitCount demoLaunch demoBlock 0 (demoWarp.lane l).wid).2 ≤ 4294967295)) = some 0 := by
  exact ⟨by decide, by decide, rfl, by decide, by decide, by decide⟩
/-- The last instruction of a block: all lanes of its one warp have Exec, its stream has ended, no operation of it is left. A warp of which one lane goes on. -/
theorem witness_WarpInstructionsWithoutResults_last : (∀ l ∈ demoWarp.live, l ∈ demo.exec demoWarp always always) ∧ demoWarp.regs.trap.inHandler = false ∧
    demoWarp.fatal = none ∧ demo.blockWarps 0 = [demoWarp] ∧ demoBlock.pool = [] ∧ (∀ o ∈ demo.quads.ops, o.block ≠ 0) ∧
    (∃ l ∈ demoWarp.live, l ∉ ({ demo with cur := { demo.cur with lanes := 1 } } : State).exec demoWarp always always) ∧
    (let x : Stream := { demoX with exited := true }; x.exited = true ∧ x.fatal = none ∧ x.wait = .none) ∧ demoLaunch.halting = false := by decide +kernel
/-- A barrier that does not exist, one that is not initialised, one with room for the 16 lanes, one without. -/
theorem witness_Barriers : demo.env = some demoEnv ∧ demoWarp.settled = true ∧ demo.block? 0 = some demoBlock ∧ demoBlock.bars.length = 2 ∧
    demoBlock.bars[0]? = some ⟨true, 32, 0, false⟩ ∧ 0 + 16 ≤ 32 ∧ demoBlock.bars[1]? = some ⟨false, 0, 0, false⟩ ∧
    (Fields.ofStd { plainStd 0 1 0x10 0 with bk := 1 }).imm9 = 16 := ⟨rfl, by decide, rfl, by decide⟩
/-- A barrier that arrivals have begun, one of the sixteen's size; every thread and the stream of the block wait in bar. -/
def barred (a n : Nat) : Bar := ⟨true, n, a, false⟩
def inBar : Warp := { demoWarp with regs := { demoRegs with lanes := demoRegs.lanes.map fun t => { t with wait := .bar 0 false } } }
def barS (ws : List Warp) (x : Stream) : State := { demo with warps := ws, blocks := [{ demoBlock with stream := some x }] }
theorem witness_Barriers_misuse : 2 ≤ (2 : Nat) ∧ (barred 1 32).ready = true ∧ (barred 1 32).a ≠ 0 ∧ (barred 16 16).e < (barred 16 16).a + 16 ∧ (barred 0 16).a + 16 = (barred 0 16).e ∧
    (barred 0 32).a + 16 ≠ (barred 0 32).e ∧ (barred 0 16).a ≤ (barred 0 16).e ∧ demo.exec demoWarp always always ≠ [] := by decide
theorem witness_Barriers_deadlock : (∀ v ∈ (barS [inBar] { demoX with exited := true }).warps, v.block = 0 → ∀ i ∈ v.live, ∃ k t, (v.lane i).wait = .bar k t) ∧
    ((barS [inBar] { demoX with exited := true }).warps.filter fun x => x.block == 0) = [inBar] ∧ inBar.live = 0 :: (List.range 15).map (· + 1) ∧
    (inBar.lane 0).wait = .bar 0 false ∧ ((barS [] { demoX with wait := .bar 0 false }).warps.filter fun x => x.block == 0) = [] ∧
    ({ demoX with wait := .bar 0 false } : Stream).wait = .bar 0 false ∧ demoBlock.pool = [] ∧ ∃ v ∈ demo.warps, v.block = 0 ∧ ∃ i ∈ v.live, (v.lane i).wait = .none := by
  refine ⟨?_, by decide +kernel⟩
  intro v hv _ i hi
  rw [List.mem_singleton.1 (show v ∈ [inBar] from hv)] at hi ⊢
  have h : ∀ i ∈ inBar.live, (inBar.lane i).wait = .bar 0 false := by decide +kernel
  exact ⟨0, false, h i hi⟩
theorem witness_StreamControl : demoStream.cur.stream = true ∧ demoStream.senv = some demoSEnv ∧ demoBlock.bars[0]? = some ⟨true, 32, 0, false⟩ ∧
    demoX.tokens.getD 0 false = false := ⟨rfl, rfl, rfl, rfl⟩
/-- A division by zero: it enters the handler; without a handler a permit is free. -/
theorem witness_TrapEntry :
    let t : Trap := { cause := 0x11, reason := 1, lane := 15, info := 7 }
    demo.warp? 0 = some demoWarp ∧ demoWarp.settled = true ∧ demoWarp.longs = [] ∧ demoWarp.regs.trap.masked = false ∧ demoWarp.regs.trap.tba ≠ 0 ∧
    t.fatal = false ∧ t.served = none ∧ t.cause < 256 ∧ t.lane < 64 ∧ demo.permitFree 0 = true ∧ t.reason < 256 ∧ demoWarp.owing (demo.act demoWarp) = false :=
  ⟨rfl, by decide +kernel⟩
/-- Sixteen other warps hold every permit of the core. -/
theorem witness_TrapEntry_backoff :
    let s : State := { demo with warps := demoWarp :: (List.range 16).map fun i => { demoWarp with id := i + 1, permit := true } }
    s.permitFree 0 = false ∧ demoWarp.permit = false := by decide
theorem witness_TrapAndReturnInstructions : (Fields.ofStd { plainStd 0 0 0x12 0 with bk := 1 }).imm9 = 0x12 ∧ (Fields.ofStd { plainStd 0 0 0x13 0 with bk := 1 }).imm9 = 0x13 ∧
    demoWarp.regs.trap.mask.getLsbD 1 = false ∧ inHandler.regs.trap.mask.getLsbD 1 = true ∧ inHandler.settled = true := by decide
/-- Every lane of a handler waits at rti.next. -/
def leaving : Warp := { inHandler with decodedExt := some true, regs := { inHandler.regs with
  lanes := inHandler.regs.lanes.map fun t => { t with handler := true, wait := .rti true } } }
theorem witness_HandlerReturn : (demoW leaving).warp? 0 = some leaving ∧ leaving.regs.trap.mask.getLsbD 1 = true ∧ leaving.service = none ∧
    leaving.handlerLanes ≠ [] ∧ (∃ b ∈ demo.blocks, b.id = leaving.block) ∧ (∀ i ∈ leaving.handlerLanes, (leaving.lane i).wait = .rti true) ∧ leaving.decodedExt ≠ none := by
  exact ⟨rfl, by decide, rfl, by decide⟩
theorem witness_SystemInstructions :
    let f := Fields.ofStd { plainStd 0 16 17 3 with ak := 1, bk := 2 }
    let g := Fields.ofStd { plainStd 0 16 17 1 with ak := 1, bk := 2 }
    demo.rangeAsks demoLaunch (demoWarp.s f.a) (f.uniB demoWarp.s).toNat = none ∧ canonical (demoWarp.s g.a) = true ∧ demo.drained (tlbNamed g demoWarp.s) = true ∧
    demoWarp.logRoom 0 = true ∧ ({ demoHdr with privileged := false } : Header).privileged = false := by decide
/-! ### One step on the small state: the expected values are worked out by hand from the rules named -/

/-- Register v`k` of lane 2 after an instruction, every lane's v1 and v2 being these. -/
def after (i : Instr) (a b : W32) (k : Nat) : Option W32 :=
  let set (t : Lane) : Lane := { t with v := (t.v.set 1 a).set 2 b }
  match exec i (demoW { demoWarp with regs := { demoRegs with lanes := demoRegs.lanes.map set } }) with
  | .next t => (t.warp? 0).map fun w => w.v 2 k
  | _ => none
/-- 04 R113: a sum wraps. -/
theorem test_iadd_wraps : after (.iadd (plainStd 3 1 2 7)) 0xFFFFFFFF 2 3 = some 1 := by decide
/-- 04 R113: the high half of a signed product. -/
theorem test_imulh_signed : after (.imulh (plainStd 3 1 2 7)) 0xFFFFFFFF 2 3 = some 0xFFFFFFFF := by decide
/-- 04 R113: the same unsigned. -/
theorem test_imulh_unsigned : after (.imulh (plainStd 3 1 2 0xB)) 0xFFFFFFFF 2 3 = some 1 := by decide
/-- 04 R113: the magnitude of the least number wraps to itself. -/
theorem test_iabs_least : after (.iabs (plainStd 3 1 0 7)) 0x80000000 0 3 = some 0x80000000 := by decide
/-- 04 R113: no bit set. -/
theorem test_iclz_zero : after (.iclz (plainStd 3 1 0 7)) 0 0 3 = some 32 := by decide
/-- 04 R113: the source of one is the destination. -/
theorem test_isub_same : after (.isub (plainStd 1 1 2 7)) 5 9 1 = some 0xFFFFFFFC := by decide
/-- 04 R122, 02 R46: 1 + 2 = 3 in .f32. -/
theorem test_fadd : after (.fadd (plainStd 3 1 2 0)) 0x3F800000 0x40000000 3 = some 0x40400000 := by decide
/-- 04 R122: 3 times one half. -/
theorem test_fmul : after (.fmul (plainStd 3 1 2 0)) 0x40400000 0x3F000000 3 = some 0x3FC00000 := by decide
/-- The accesses of all lanes with the operands of a memory instruction. -/
def accs (u : Use) (h : Shape) (x : LaneArgs) : List LaneAcc :=
  match demo.checkLanes demoEnv.who u h x (List.range 16) with
  | .ok as => as
  | .error _ => []
/-- The checks of Reached, each decidable. -/
def reaches (u : Use) (h : Shape) (x : LaneArgs) : Bool :=
  (match demo.checkLanes demoEnv.who u h x (List.range 16) with | .ok as => as.length == 16 | .error _ => false) &&
  (allSegs (accs u h x)).all fun g => (demo.unpinned g.loc g.n).isNone && (demo.errorAt g.loc g.n).isNone && !g.far && !g.version && !demo.underTest g.loc g.n
theorem reached_of (u : Use) (h : Shape) (x : LaneArgs) (hx : ∀ l, x.pre l = none) (hr : reaches u h x = true)
    (hi : demo.ingressHeld (allSegs (accs u h x)) = none) : Reached demo demoEnv u h x (List.range 16) (accs u h x) := by
  simp only [reaches, Bool.and_eq_true, List.all_eq_true, Bool.not_eq_true', Option.isNone_iff_eq_none] at hr
  obtain ⟨ho, hs⟩ := hr
  have hp : demo.checkLanes demoEnv.who u h x (List.range 16) = .ok (accs u h x) := by
    revert ho; simp only [accs]; split <;> simp_all
  refine ⟨?_, fun g hg => (hs g hg).1.1.1.1, hi, fun g hg => (hs g hg).2, fun g hg => (hs g hg).1.1.1.2, fun g hg => ⟨(hs g hg).1.1.2, (hs g hg).1.2⟩⟩
  unfold Planned
  rw [if_neg (by decide +kernel)]
  exact ⟨fun l _ => hx l, hp⟩
def ldW : Std := { plainStd 8 16 0 2 with ak := 1, bk := 1 }
def ldArgs : LaneArgs := { addr := fun l => demoWarp.address (.ofStd ldW) l }
/-- A load and a store of 4 bytes at S16, of every lane. -/
theorem witness_LoadsComplete_StoresIssue :
    let h : Shape := ⟨4, 4, 1, .plain, false⟩
    Reached demo demoEnv .read h ldArgs (List.range 16) (accs .read h ldArgs) ∧ Reached demo demoEnv .write h ldArgs (List.range 16) (accs .write h ldArgs) ∧
    demoWarp.longRoom (opDests 0x0E0 (.ofStd ldW)) [.v 0 8 0] :=
  ⟨reached_of _ _ _ (fun _ => rfl) (by decide +kernel) (by decide +kernel), reached_of _ _ _ (fun _ => rfl) (by decide +kernel) (by decide +kernel),
    by unfold Warp.longRoom; decide +kernel⟩
theorem witness_LoadsComplete_StoresIssue_room : (∀ l ∈ List.range 16, (demoWarp.lane l).got = none) ∧ demoWarp.spec.window = [] ∧ demoWarp.remoteOpen = 0 ∧
    demo.resumed demoEnv = false ∧ demo.outstanding demoWarp < 32 ∧ demoWarp.careful = false := by decide +kernel
/-- With a quota of one lane the access of the first lane alone performs; with one of 64 all. -/
theorem witness_LoadsComplete_parts : ((accs .read ⟨4, 4, 1, .plain, false⟩ ldArgs).take (0 + 1)).length < (accs .read ⟨4, 4, 1, .plain, false⟩ ldArgs).length ∧
    ((accs .read ⟨4, 4, 1, .plain, false⟩ ldArgs).take (63 + 1)).length = (accs .read ⟨4, 4, 1, .plain, false⟩ ldArgs).length := by decide +kernel
/-- An atomic of every lane on 4 bytes at address 0; a place in physical memory. -/
def atomArgs : LaneArgs := { addr := fun l => demoWarp.opA64 (.ofStd (plainStd 8 10 9 0)) l + 0 }
theorem witness_AtomicsComplete : Reached demo demoEnv .atomic ⟨4, 4, 1, .atomic, false⟩ atomArgs (List.range 16) (accs .atomic ⟨4, 4, 1, .atomic, false⟩ atomArgs) ∧
    demo.mem.wf = true ∧ (∃ y, atomicBytes 0 (leBytes 4 5) 7 0 = some y ∧ y.length = 4) ∧ atomicBytes 10 (leBytes 4 5) 7 6 = none ∧
    ∀ g ∈ allSegs (accs .atomic ⟨4, 4, 1, .atomic, false⟩ atomArgs), demo.hostLine g.loc g.n = none :=
  ⟨reached_of _ _ _ (fun _ => rfl) (by decide +kernel) (by decide +kernel), by decide +kernel, ⟨_, rfl, by decide⟩, by decide, by decide +kernel⟩
/-- ldfe.b32 of every lane at the window's first granule, which is full, and after its last lane took it, empty; a range of two granules. -/
def feArgs : LaneArgs := { addr := demoWarp.address (.ofStd { plainStd 8 18 0 2 with ak := 1, bk := 1 }) }
def feAccs : List LaneAcc := accs .read ⟨4, 4, 1, .fullEmpty, false⟩ feArgs
theorem witness_FullEmpty : Reached demo demoEnv .read ⟨4, 4, 1, .fullEmpty, false⟩ feArgs (List.range 16) feAccs :=
  reached_of _ _ _ (fun _ => rfl) (by decide +kernel) (by decide +kernel)
theorem witness_FullEmpty_granules : ((demo.useSegs (allSegs feAccs)).takeFull false 0 feAccs).2.2 = true ∧
    ((({ demo with blocks := [{ demoBlock with feEmpty := [0] }] } : State).useSegs (allSegs feAccs)).takeFull false 0 feAccs).2.2 = false ∧
    demo.feRange demoEnv.who (demoWarp.s 18) 16 = .ok (.sp 0 0) ∧ demo.unpinned (.sp 0 0) 16 = none ∧ demo.errorAt (.sp 0 0) 16 = none ∧
    demo.anyBlock? 0 = some demoBlock :=
  ⟨by decide +kernel, by decide +kernel, by decide +kernel, by decide +kernel, by decide +kernel, rfl⟩
/-- A warp whose oldest access is a store of two lanes, and one whose only access is a load under a checkpoint. -/
def storing : Warp := { demoWarp with spec := { demoWarp.spec with
  window := [.store 0 0 [.bytes 0 (.pa 0x1000) none [1, 2], .bytes 1 (.pa 0x1010) none [3]]], nextSeq := 1 } }
def loading : Warp := { demoWarp with spec := { demoWarp.spec with
  window := [.load 0 codeBase [.pa 0x1000]], readSet := [.pa 0x1000], nextSeq := 1, ckpt := some ⟨demoRegs, 0, 0, 0, 0, [], none, 0⟩ } }
theorem witness_StoresPerform : (demoW storing).warp? 0 = some storing ∧ (demoW storing).rollBlocked 0 = false ∧
    (∀ x ∈ (firstLane [.bytes 0 (.pa 0x1000) none [1, 2], .bytes 1 (.pa 0x1010) none [3]]).1, (demoW storing).effHostLine x = none) ∧
    (demoW storing).underTest (.pa 0x1000) 2 = false ∧ (firstLane [.bytes 0 (.pa 0x1000) none [1, 2], .bytes 1 (.pa 0x1010) none [3]]).2 ≠ [] ∧
    (firstLane [.bytes 1 (.pa 0x1010) none [3]]).2 = [] ∧ demo.mem.wf = true ∧ demoBlock.areaAt 0 = none :=
  ⟨rfl, by decide +kernel, by decide +kernel, by decide +kernel, by decide, by decide, by decide +kernel, by decide⟩
theorem witness_LoadsPerformAndRollBack : (demoW loading).warp? 0 = some loading ∧ loading.openLoad (Loc.pa 0x1000).code = some (codeBase, .pa 0x1000) ∧
    loading.spec.ckpt.isSome = true ∧ ((demoW loading).warps.map (·.id)).Nodup ∧ (demoW loading).rollBlocked 0 = false ∧
    ∀ a ∈ loading.spec.window.tail, a.loadLines = [] := ⟨rfl, by decide +kernel, by decide, by decide, by decide +kernel, by decide⟩
/-- copy with source at 0x1000, destination at S16, 16 bytes, channel 0; sources and sizes that are refused. -/
theorem witness_EngineCommandsIssue_EngineCommandChecks :
    let u := demoWarp.s
    canonical (u 16) = true ∧ (u 16).toNat % 16 = 0 ∧ (u 17).toNat % 16 = 0 ∧ (u 17).toNat < 2 ^ 40 ∧ demo.destBad demoEnv.who (u 16) 16 0 = none ∧
    demo.destBad demoEnv.who (u 18) 16 2 = none ∧ (demoWarp.chans.getD 7 ⟨0, false⟩).count < 64 ∧ demoWarp.logRoom 0 = true ∧
    demo.exec demoWarp always always ≠ [] ∧ demoLaunch.hdr.privileged = true ∧ canonical (0x0100000000000000 : W64) = false ∧
    (0x0000000000000008 : W64).toNat % 16 ≠ 0 := by decide +kernel
/-- A table at address 0x40001000 for a free slot; a slot that has stayed busy for 65,536 clk; a channel with a command outstanding. -/
def ctabArgs : LaneArgs := { addr := fun _ => demoWarp.s 16 }
theorem witness_ChannelsAndFences : Reached demo demoEnv .read ⟨256, 256, 3, .plain, false⟩ ctabArgs (List.range 16) (accs .read ⟨256, 256, 3, .plain, false⟩ ctabArgs) ∧
    (∃ as, demo.checkLanes demoEnv.who .read ⟨256, 256, 3, .plain, false⟩ ctabArgs ((List.range 16).take 1) = .ok as) :=
  ⟨reached_of _ _ _ (fun _ => rfl) (by decide +kernel) (by decide +kernel), _, rfl⟩
theorem witness_ChannelsAndFences_channels : demo.codec.busy 11 3 = false ∧ ({ demo.codec with queued := [(11, 3, 0)] } : Codec).busy 11 3 = true ∧
    (demoWarp.chans.getD 0 ⟨0, false⟩).count ≤ 0 ∧ (0 : Nat) < (({ demoWarp with chans := [⟨1, false⟩] } : Warp).chans.getD 0 ⟨0, false⟩).count := by decide +kernel
/-- A warp that has sent four writes to package 1, which has counted four, three, or cannot tell; nothing is on its way. -/
def fenced (a : Option Nat) : Warp := { demoWarp with sent := [⟨0, 1, 0, 1, 4⟩], askedFor := [⟨0, 1, 0, 1, 4⟩], asked := [(1, a)] }
theorem witness_ChannelsAndFences_fences : (fenced none).flows.length ≤ (fenced none).asked.length ∧ askedTotal (fenced (some 4)) 1 = some (sentTotal (fenced (some 4)) 1) ∧
    askedTotal (fenced (some 3)) 1 = some 3 ∧ sentTotal (fenced (some 3)) 1 = 4 ∧ (askedTotal (fenced none) 1).isNone = true ∧
    (∀ r ∈ demo.remotes, r.warp = 0 → r.cmd = none ∧ ¬(r.lane = 64 ∧ r.isRead = true)) := by decide +kernel
/-- A stream that reserves slot 3, a request that is refused, one that waits; an operation outstanding, a store to the slot that has not performed. -/
def holding (owner : Nat) : State := { demoStream with quads := { demoStream.quads with acc := [(0, 3, ⟨some owner, [], []⟩)] } }
def anvilOp (k : AnvilKind) : AnvilOp := ⟨0, 0, 0, 0, 3, k, 0, 0, 0, false, none, none, none⟩
theorem witness_MatrixReservations : demoStream.maskFree 0 0 8 = true ∧ demoStream.behindWaiter 0 0 8 = false ∧ (holding 9).maskFree 0 0 8 = false ∧
    (holding 9).heldSlots 0 = [] ∧ (holding 0).heldSlots 0 ≠ [] ∧ (holding 0).slotOps 0 3 = [] ∧ (holding 0).slotStores 0 3 = false ∧
    ({ holding 0 with warps := [{ demoWarp with spec := { demoWarp.spec with window := [.store 0 0 [.bytes 0 (.acc 0 (3 * 65536)) none [1]]] } }] } : State).slotStores 0 3 = true ∧
    (demoStream.quads.ops.filter fun o => o.block == 0).length ≤ 0 ∧
    0 < (({ demoStream.quads with ops := [anvilOp .mzero] } : Quads).ops.filter fun o => o.block == 0).length ∧ (8 : W32).getLsbD 3 = true ∧
    3 ∉ demoStream.heldSlots 0 := by decide +kernel
/-- The record of a tile step of 8 rows, 8 columns and depth 8 in .f16, one of depth 32 with a .n4 B, and the prologue of the second. -/
def tileRec : Nat := 0x2000 + 0x3000 * 2 ^ 64 + 16 * 2 ^ 128 + 16 * 2 ^ 160 + 8 * 2 ^ 192 + 8 * 2 ^ 224 + 8 * 2 ^ 232 + 0xD * 2 ^ 240 + 0xD * 2 ^ 245 + 2 ^ 250
def prolRec : Nat := 0x2000 + 0x3000 * 2 ^ 64 + 64 * 2 ^ 128 + 16 * 2 ^ 160 + 32 * 2 ^ 192 + 8 * 2 ^ 224 + 8 * 2 ^ 232 + 0xE * 2 ^ 240 + 0x15 * 2 ^ 245 + 2 ^ 250
def proloRec : Nat := 0x5000 + 0x6000 * 2 ^ 64 + 2 * 2 ^ 128 + 2 ^ 160
theorem witness_MatrixOperationsIssue :
    let who := demoSEnv.who
    demoStream.tableRoom 0 = true ∧ (holding 0).holdsSlot 0 3 = true ∧ demoStream.holdsSlot 0 3 = false ∧ canonical (0x1000 : W64) = true ∧
    (match demoStream.reachRead who 0x1000 64 with | .ok gs => (demoStream.agentPrep who gs []).isNone | .error _ => false) = true ∧
    (match demoStream.reachRead who 0x1040 32 with | .ok gs => (demoStream.agentPrep who gs []).isNone | .error _ => false) = true ∧
    tileBad true 0x1000 tileRec none = none ∧ tileBad true 0x1000 prolRec (some (0x1040, proloRec)) = none ∧ windowBad 0x1000 16 0x00040001 0x0F = none ∧
    ∀ x ∈ windowRows 0x1000 16 0x00040001 0x0F, demoStream.destBad who x.1 x.2 0 = none := by decide +kernel
/-- A thread of a query; a candidate root outside the window, inside it, and past the block's bytes. -/
def winPtr (o : W64) : W64 := ((Config.windowBase + o).setWidth 57).setWidth 64 ||| 0x4000000000000000
theorem witness_NetworksAndRaysIssue : nnBad (fun _ => 0x1000) (fun _ => 0x111) (List.range 16) = none ∧ inWindow (ptrAddr 0x1000) = false ∧
    inWindow (ptrAddr (winPtr 0)) = true ∧ ptrKind (winPtr 0) ≠ 0 ∧
    (match demo.windowLoc demoEnv.who (ptrAddr (winPtr 0)) 128 with | .ok _ => true | .error _ => false) = true ∧
    (match demo.windowLoc demoEnv.who (ptrAddr (winPtr 0x1000)) 128 with | .ok _ => false | .error _ => true) = true ∧
    demo.exec demoWarp always always ≠ [] ∧ demoWarp.settled = true ∧ demoWarp.logRoom 8 = true := by decide +kernel
/-- Node 0 takes records of 16 bytes to depth 3. A slot of endpoint 5 on package 1 that a record may take. -/
def demoNode : Node := ⟨codeBase, 0x10000, 64, 160, 4, 16, 3, true⟩
def nodeLaunch : Launch := { demoLaunch with nodes := [demoNode], overflow := some 0 }
def routed1 : State := { demo with routes := (0 :: 0x100000 :: List.replicate 126 0), credits := [⟨1, 5, 2, 2, 0⟩] }
def etherBound : State := { demo with ports := { demo.ports with peerTable := [(1, [])] }, credits := [⟨1, 5, 2, 2, 0⟩] }
theorem witness_RecordsAndReorder :
    (∀ l ∈ demo.exec demoWarp always always, emitBad nodeLaunch demoWarp l 0 16 = none) ∧ demoWarp.settled = true ∧ depthOk nodeLaunch demoWarp 0 0 = true ∧
    (∀ l ∈ demo.exec demoWarp always always, (demoWarp.lane l).got = none) ∧ (demoL nodeLaunch).launch? 0 = some nodeLaunch ∧
    [(⟨0, 0, [1]⟩ : EmitRec)] ≠ [] ∧ demo.exec demoWarp always always ≠ [] ∧ demoWarp.regs.trap.mask.getLsbD 1 = false ∧ inHandler.regs.trap.mask.getLsbD 1 = true :=
  ⟨by decide +kernel, by decide, by decide, by decide +kernel, rfl, by decide, by decide +kernel, by decide, by decide⟩
/-- emitm reads 16 bytes at S16 for each lane. -/
def emitmArgs : LaneArgs := { addr := fun _ => demoWarp.s 16 }
theorem witness_RecordsAndReorder_emitm : Reached demo demoEnv .read ⟨16, 16, 3, .plain, false⟩ emitmArgs (List.range 16) (accs .read ⟨16, 16, 3, .plain, false⟩ emitmArgs) :=
  reached_of _ _ _ (fun _ => rfl) (by decide +kernel) (by decide +kernel)
/-- Every lane's record is answered with a status; one is still on its way; none has been sent. -/
def answered (st : Byte) : Warp := { demoWarp with regs := { demoRegs with lanes := demoRegs.lanes.map fun t => { t with got := some [st] } } }
theorem witness_ForwardAndOffer : nodeLaunch.overflowFor 16 = some 0 ∧ (demo.exec demoWarp always always).find? (fun l => (demoWarp.lane l).got.isNone) = some 0 ∧
    (∀ l ∈ demo.exec (answered 0) always always, ((answered 0).lane l).got ≠ none) ∧ ((answered (BitVec.ofNat 8 rfwdSent)).lane 0).got = some [BitVec.ofNat 8 rfwdSent] ∧
    (0 : Byte).toNat ≠ rfwdSent ∧ rfwdSent < 256 ∧ (answered 0).logRoom 1 = true := by decide +kernel
theorem witness_ForwardAndOffer_peers : routed1.hasPath 1 = true ∧ routed1.peerGone 1 = false ∧ 1 ≠ routed1.pkg ∧ routed1.routed 1 = true ∧
    routed1.credits.find? (fun c => c.pkg == 1 && c.ep == 5 && decide (0 < c.free)) = some ⟨1, 5, 2, 2, 0⟩ ∧ routed1.nextSslot 1 5 2 = some 0 ∧
    routed1.ports.down = 0 ∧ etherBound.hasPath 1 = true ∧ etherBound.routed 1 = false ∧ etherBound.nextSslot 1 5 2 = some 0 := by decide +kernel
/-- Where no page has a key, every area lies under any tenant's; a swap begins where the pool has an area for each block. -/
theorem areaKeyed_any (s : State) (hk : s.keys = []) (ht : s.tenants = []) (x : BitVec 16) (n a : Nat) : s.areaKeyed x n a = true := by
  simp [State.areaKeyed, State.keyOf, State.keyOfTenant, hk, ht]
theorem pickAreas_some (s : State) (x : Context) (hk : s.keys = []) (ht : s.tenants = []) (bs : List Block) (pool : List Nat) (h : bs.length ≤ pool.length) :
    (s.pickAreas x bs pool).isSome = true := by
  induction bs generalizing pool with
  | nil => rfl
  | cons b bs ih =>
    cases pool with
    | nil => simp at h
    | cons a pool =>
      simp only [List.length_cons, Nat.add_le_add_iff_right] at h
      unfold State.pickAreas
      split
      · rename_i e
        have f := List.find?_eq_none.mp e a List.mem_cons_self
        cases g : s.launch? b.launch <;> simp [g, areaKeyed_any s hk ht] at f
      · rename_i y e
        rw [Option.isSome_map]
        refine ih _ ?_
        rw [List.length_erase_of_mem (List.mem_of_find?_eq_some e)]
        exact h
theorem beginSwap_some (s : State) (core : Nat) (inc : Option Nat) (p : CorePhase) (hk : s.keys = []) (ht : s.tenants = [])
    (h : (s.coreBlocks core).length ≤ s.pools.saves.length) : (s.beginSwap core inc p).isSome = true := by
  rw [State.beginSwap, Option.isSome_map]
  exact pickAreas_some s _ hk ht _ _ h
/-- A saved context of one block of launch 1, a core that runs launch 0's block, and the same core while it spills that context. -/
def savedCtx : Context := ⟨9, [{ demoBlock with id := 7, core := 3 }], [{ demoWarp with id := 7, block := 7, core := 3 }], [], [], 1, [(7, 0x3000000)], false, 0⟩
def swapping : State := { demo with contexts := [savedCtx], pools := ⟨[0x5000000], [0x4000000, 0x4100000]⟩ }
def spilling : State := { swapping with cores := [{ (swapping.core 0) with phase := .spill, outgoing := some 9 }] }
theorem witness_ForwardAndOffer_offers : demo.offered 0 7 = none ∧ swapping.offered 0 7 = some savedCtx ∧ (swapping.core 0).phase = .run ∧
    swapping.contextWaits savedCtx = true ∧ spilling.swapsBack savedCtx 0 = true ∧ (demo.swapFor savedCtx 0 fun n => n.quiesce 0).isNone = true := by decide +kernel
theorem witness_ForwardAndOffer_swaps : (swapping.beginSwap 0 (some 9) .load).isSome = true ∧ (spilling.beginSwap 0 (some 9) .swap).isSome = true :=
  ⟨beginSwap_some _ _ _ _ rfl rfl (by decide +kernel), beginSwap_some _ _ _ _ rfl rfl (by decide +kernel)⟩
/-- The reset state under an idle mailbox rung with a command; a package with every feature accepted. -/
def head0 : MbHead := ⟨1, 64⟩
def accepted : State := { State.reset with features := some Config.offered, pasids := demo.pasids }
theorem rings0 (s : State) (c : MbArgs) (h : s.mailbox.st ≠ 1) : ({ s with arg := .mailbox head0 c } : State).rings head0 c :=
  ⟨rfl, h, by decide⟩
/-- With the link up and down, a modified sector, a boot that passes, one that fails. -/
def dirtyHost : State := { State.reset with cache := { State.reset.cache with sectors := [(2 ^ 51 - 64, .modified)] } }
theorem witness_BootResetAndLink : bootFails none = true ∧ bootFails (some ⟨2, 1⟩) = true ∧ passes (some ⟨2, 1⟩) 1 = true ∧ passes (some ⟨2, 1⟩) 2 = false ∧
    passes (some ⟨0, 1⟩) 0 = false ∧ State.reset.modifiedSectors = [] ∧ State.reset.cache.hostHeld = [] ∧
    dirtyHost.modifiedSectors ≠ [] ∧ dirtyHost.ports.hostUp = true ∧ isHost 0x4000000000000 = true ∧ isHost 0x1000 = false := by decide +kernel
theorem witness_BootResetAndLink_clear : (∀ a, State.reset.cache.bridgeHolds a = false) ∧ ({ State.reset with eventQ := none } : State).eventQ = none :=
  ⟨fun a => rfl, rfl⟩
theorem witness_MailboxProtocol : State.reset.mailbox.st ≠ 1 ∧ ({ State.reset.mailbox with st := 1 } : Mailbox).st = 1 ∧
    3840 < (⟨1, 4000⟩ : MbHead).alen.toNat ∧ ((0x13 : Byte) = 0 ∨ 0x12 < (0x13 : Byte).toNat) ∧ State.reset.mailbox.args.length ≤ 3840 ∧
    0x100 + ([1, 2] : List Byte).length ≤ 0x1000 ∧ accepted.features ≠ none ∧ (2 : BitVec 256).getLsbD 0 = false ∧
    inHost 0x4000000000000 imageBytes = true ∧ (isFabric 0x8000000000000 = true ∧ 0x8000000000000 < 2 ^ 52) ∧ 2 ^ 12 ≤ 4096 ∧ 3 < 2 ^ 12 ∧ 127 < 128 := by decide +kernel
/-- A fault queue, a tenant with key 3 whose page is at 0x9000, an endpoint's launch, a route to package 1 in the host's memory. -/
def ring0 : RingCfg := ⟨0x10000, 64, 0x20000, 0x20080⟩
def hostBase : Nat := 0x4000000000000
def serving : State := { accepted with
  faultQs := [⟨1, ring0, 0, 0⟩], tenants := [⟨5, 3, [], []⟩], keys := [(9, 3)], launches := [nodeLaunch], ports := { accepted.ports with roles := 3 }
  mem := accepted.mem.write (hostBase + 4) (leBytes 4 0x100010) }
theorem witness_MailboxCommands : ({ State.reset with arg := .mailbox head0 (.setPortRoles 3) } : State).rings head0 (.setPortRoles 3) := rings0 _ _ (by decide)
theorem witness_MailboxCommands_features : State.reset.features = none ∧ Config.offered &&& ~~~Config.offered = 0 ∧ Config.offered.getLsbD 0 = true ∧
    Config.offered.getLsbD 6 = true ∧ accepted.features ≠ none ∧ serving.feature 1 = true ∧ serving.feature 2 = true ∧ serving.feature 5 = true ∧
    serving.feature 8 = true := by decide +kernel
theorem witness_MailboxCommands_queues : powerWithin 64 16 65536 = true ∧ powerWithin 64 64 65536 = true ∧ hostOrHbm 0x10000 (128 * 64) = true ∧
    inHbm 0x10000 (32 * 64) = true ∧ ownWord 0x20000 = true ∧ ownWord 0x20080 = true ∧ ring0.tailPa / 128 ≠ ring0.headPa / 128 ∧
    serving.deviceKeyed ring0.base (32 * ring0.count) = true ∧ serving.keyOf 0x10000 = 0 ∧ serving.queues = [] := by decide +kernel
def pasid1 : BitVec 128 := BitVec.ofNat 128 (1 + 0x100 * 2 ^ 64 + 1 * 2 ^ 108)
theorem witness_MailboxCommands_tenants : bits pasid1.toNat 127 110 = 0 ∧ bits pasid1.toNat 63 2 = 0 ∧ ctxMode pasid1 = 1 ∧
    (∃ q ∈ serving.faultQs, q.no = ctxFq pasid1) ∧ inHbm (9 * 4096) 4096 = true ∧ serving.mem.wf = true ∧ inHost hostBase 4096 = true ∧ publicKeyBytes ≤ 4096 ∧
    serving.tenants.find? (fun y => y.no == 5) = some ⟨5, 3, [], []⟩ ∧ serving.keyOf 0x9000 = 3 := by decide +kernel
theorem witness_MailboxCommands_endpoints : serving.boundLaunch ⟨true, 5, 0, 0, 0, [1, 2], 4⟩ = some nodeLaunch ∧
    serving.slotsUsed 5 + 4 * [1, 2].length ≤ Config.receiveSlots ∧ dedup [1, 2] = [1, 2] ∧ (∀ e ∈ serving.endpoints, e.ep = 5 → e.held = []) ∧
    (∀ a ∈ [0x10000, 0x20000], inHbm a 1 = true ∧ a % 64 = 0) ∧ (∀ a ∈ List.replicate 16 0x10000, inHbm a 4096 = true ∧ a % 4096 = 0) ∧
    ∀ l ∈ accepted.launches, l.phase ≠ .live ∧ l.phase ≠ .ended := by decide +kernel
/-- The route table in the host's memory, with an ordered access to a peer open, and with none. -/
def farRead : Remote := { id := 4, warp := 0, target := 1, issued := 0, isRead := true, lane := 0, off := 0, va := 0x77, flow := 0, interval := 0, cmd := none
                          near := [], spots := [], seq := 0, reader := none }
theorem witness_MailboxCommands_routes : inHost hostBase 512 = true ∧
    (∀ x ∈ ((List.range 128).map fun i => BitVec.ofNat 32 (leNat (serving.readPa (hostBase + 4 * i) 4))).zipIdx, serving.routeOk x.2 x.1 = true) ∧
    BitVec.ofNat 32 (leNat (serving.readPa (hostBase + 4 * 1) 4)) = 0x100010 ∧
    ({ serving with remotes := [farRead] } : State).orderedOpen = true ∧ serving.orderedOpen = false := by decide +kernel
/-- An image in host memory, one in fabric memory that has not been fetched, that has been, and that cannot be read. -/
def fabricBase : Nat := 0x8000000000000
def fetching (x : Nat ⊕ List Byte) : State := { serving with fetched := [(.hearth, fabricBase, x)] }
theorem witness_MailboxCommands_images : inHost hostBase imageBytes = true ∧ isFabric hostBase = false ∧ isFabric fabricBase = true ∧ fabricBase < 2 ^ 52 ∧
    serving.fetchedAt .hearth fabricBase imageBytes = none ∧ (fetching (.inl 4)).fetchedAt .hearth fabricBase imageBytes = some (.inl 4) ∧
    (fetching (.inr (List.replicate imageBytes 0))).fetchedAt .hearth fabricBase imageBytes = some (.inr (List.replicate imageBytes 0)) := by
  refine ⟨by decide, by decide, by decide, by decide, rfl, rfl, ?_⟩
  rw [fetching, State.fetchedAt]
  simp
/-- Queue 2 with a first entry that is good, and with one of zeros. -/
def queue2 : Queue := ⟨2, ⟨0x7000, 16, 0x8000, 0, 0, true, 1⟩, 1, 0, 0, 1, 0, 0, 0⟩
def queued : State := { demo with queues := [queue2], mem := demo.mem.write 0x7000 (leBytes 16 (1 + 0x9000 * 2 ^ 64)) }
def waiting : Launch := { demoLaunch with phase := .waiting, deps := [7] }
theorem witness_LaunchLifecycle : queued.queue? 2 = some queue2 ∧ queue2.stop = 0 ∧ BitVec.ofNat 32 queue2.read ≠ queue2.tail ∧
    queued.schedKeyOk 0 0x7000 = true ∧ queued.errorAt (.pa 0x7000) 128 = none ∧ entryBad (queued.numPa 0x7000 128) 1 = none ∧ entryBad 0 1 = some 1 ∧
    (demoL waiting).launch? 0 = some waiting ∧ (∀ q ∈ waiting.deps, (demoL waiting).depSt waiting q = .ready) ∧
    (let m := { demoLaunch with id := 1, seq := 7, phase := .done }
     ∃ q ∈ waiting.deps, ({ demo with launches := [waiting, m] } : State).depSt waiting q = .failed) := by
  refine ⟨rfl, rfl, by decide, by decide, by decide, by decide +kernel, by decide, rfl,
    fun q hq => by cases List.mem_singleton.mp hq; rfl, 7, by decide, rfl⟩
/-- A pending launch with two pages of lease, and with 65 of them apart; one whose threads have all triggered; one that is halted with nothing left. -/
def leasing (n : Nat) : Launch := { demoLaunch with phase := .pending, leases := (List.range n).map fun i => ⟨1 + 2 * i, 1, 3⟩ }
def triggered : State := demoW { demoWarp with regs := { demoRegs with lanes := demoRegs.lanes.map fun t => { t with triggered := true } } }
def started : Launch := { demoLaunch with nextBlock := 1 }
def halted : Launch := { demoLaunch with halting := true, crec := 0x9000 }
theorem witness_LaunchLifecycle_ends :
    (∃ xs, (leasing 2).setupPages.mapM (demo.setupPage (leasing 2)) = .ok xs ∧ (joinExtents (xs.map (·.1))).length ≤ 64) ∧
    (∃ xs, (leasing 65).setupPages.mapM (demo.setupPage (leasing 65)) = .ok xs ∧ 64 < (joinExtents (xs.map (·.1))).length) ∧
    demo.agentBusy (.sched 0) = false ∧ (demoL started).launch? 0 = some started ∧ triggered.canTrigger started = true ∧
    ({ demo with launches := [halted], warps := [] } : State).canComplete halted = true ∧
    ({ demo with launches := [{ halted with crec := 0 }], warps := [] } : State).canComplete { halted with crec := 0 } = true ∧
    (match demo.schedReach halted .write halted.crec 16 with
      | .ok gs => (gs.all fun g => !g.remote && !g.regs) && (demo.agentPrep halted.sched [] gs).isNone | .error _ => false) = true := by
  refine ⟨⟨_, rfl, by decide +kernel⟩, ⟨_, rfl, by decide +kernel⟩, by decide, rfl, by decide, by decide, by decide, by decide⟩
/-- A free number exists where the range is not used up. -/
theorem pickFree_some (s : State) (salt n : Nat) (used : List Nat) (i : Nat) (hi : i < n) (hu : i ∉ used) : ∃ x < n, s.pickFree salt n used = some x := by
  have hm : i ∈ (List.range n).filter fun i => !used.contains i := by simp [hi, hu]
  have hl := Nat.mod_lt (s.pick (2 ^ 71 + 2 ^ 60 + salt)) (List.length_pos_of_mem hm)
  exact ⟨_, List.mem_range.mp (List.mem_filter.mp (List.getElem_mem hl)).1, List.getElem?_eq_getElem hl⟩
/-- The state in which a warp has taken a slot. -/
def withWarp (s : State) (mk : Nat → Nat → Warp) (slot : Nat) : State :=
  { s with warps := s.warps ++ [mk s.ctr.warp slot], ctr := { s.ctr with warp := s.ctr.warp + 1 } }
theorem addWarp_some (s : State) (core q : Nat) (mk : Nat → Nat → Warp) (i : Nat) (hi : i < 16) (hu : i ∉ (s.quarterWarps core q).map fun w => w.slot % 16) :
    ∃ x < 16, s.addWarp core q mk = some (withWarp s mk (16 * q + x)) := by
  obtain ⟨x, hx, h⟩ := pickFree_some s (1000 + s.ctr.warp) 16 _ i hi hu
  exact ⟨x, hx, by simp [State.addWarp, h, withWarp]⟩
/-- The first area of a pool is taken where no page has a key. -/
theorem backingFor_some (s : State) (x : BitVec 16) (area : Nat) (rest : List Nat) (hk : s.keys = []) (ht : s.tenants = [])
    (ha : s.pools.backing = area :: rest) : s.backingFor x = some area := by
  rw [State.backingFor, ha, List.find?_cons_of_pos (areaKeyed_any s hk ht x _ area)]
/-- The window slots that are taken in a core's quad. -/
def windowsUsed (s : State) (core : Nat) : List Nat :=
  ((s.blocks.filter fun b => quadOf b.core == quadOf core) ++ (s.incomingTo (quadOf core)).flatMap (·.blocks)).map (·.winSlot)
/-- The block that a launch puts on a core, and the warp that it brings. -/
def newBlock (s : State) (l : Launch) (core win area : Nat) : Block :=
  { Block.start s.ctr.block l.id (BitVec.ofNat 64 l.nextBlock) core win l.hdr.scratch l.hdr.bars
      (if l.hdr.mentry = 0 then none else some (Stream.start l.hdr.mentry l.hdr.bars)) s.clock (s.codeFor l) with backing := some area }
def newWarp (s : State) (l : Launch) (core w slot : Nat) : Warp :=
  Warp.start w s.ctr.block core slot l.hdr.prio (.start (blockLanes l.hdr l.nextBlock 0) l.hdr.consts l.hdr.tba) (BitVec.ofNat 32 0) s.clock
/-- A block of one warp is placed where a window slot and quarter 0 are free and the core's bounds hold. -/
theorem tryBlock_some (s : State) (l : Launch) (core area : Nat) (rest : List Nat) (hw : l.hdr.warps = 1) (hk : s.keys = []) (ht : s.tenants = [])
    (ha : s.pools.backing = area :: rest) (i j : Nat) (hi : i < 16) (hj : j < 64) (hu : j ∉ windowsUsed s core)
    (hq : i ∉ (s.quarterWarps core 0).map fun w => w.slot % 16)
    (hl : ∀ win slot, slot < 16 → ∀ t : State, t.launches = s.launches → t.blocks = s.blocks ++ [newBlock s l core win area] →
      t.warps = s.warps ++ [newWarp s l core s.ctr.warp (16 * 0 + slot)] → t.coreLegal core = true) :
    ∃ t, s.tryBlock l core = some t ∧ t.pools.saves = s.pools.saves ∧ t.keys = s.keys ∧ t.tenants = s.tenants := by
  obtain ⟨x, -, h⟩ := pickFree_some s core 64 _ j hj hu
  obtain ⟨y, hy, e⟩ := addWarp_some (((s.dropBacking area).addBlock (newBlock s l core x area)).ungate core) core 0 (newWarp s l core) i hi hq
  refine ⟨(withWarp (((s.dropBacking area).addBlock (newBlock s l core x area)).ungate core) (newWarp s l core) (16 * 0 + y)).modLaunch l.id fun m =>
    { m with nextBlock := m.nextBlock + 1, codeFrom := some (s.codeFor m) }, ?_,
    by simp only [State.modLaunch, withWarp, State.ungate, State.addBlock, State.dropBacking, and_self]⟩
  unfold State.tryBlock
  dsimp only
  rw [show s.freeWindow core = some x from h, backingFor_some s l.hdr.tenant area rest hk ht ha, hw]
  simp only [State.addBlockWarps, Option.bind_some, Nat.zero_mod]
  erw [e]
  rw [Option.bind_some]
  refine if_pos (hl x y hy (withWarp (((s.dropBacking area).addBlock (newBlock s l core x area)).ungate core) (newWarp s l core) (16 * 0 + y)) ?_ ?_ ?_) <;>
    simp only [withWarp, State.ungate, State.addBlock, State.dropBacking]
/-- A launch of one warp of 16 lanes and 32 registers, its block to be placed on the empty core 5. -/
def roomy : State := { demo with pools := ⟨[0x5000000], [0x4000000, 0x4100000]⟩ }
theorem tryBlock_roomy : ∃ t, roomy.tryBlock demoLaunch 5 = some t := by
  obtain ⟨t, h, -⟩ := tryBlock_some roomy demoLaunch 5 0x5000000 [] (by decide) rfl rfl rfl 0 0 (by decide) (by decide) (by decide +kernel) (by decide +kernel)
    (fun x y hy t h1 h2 h3 => by simp only [State.coreLegal, State.quarterWarps, h1, h2, h3]; interval_cases y <;> rfl)
  exact ⟨t, h⟩
/-- A batch starts where a window slot and the quarter are free and the core's bounds hold. -/
theorem startBatch_some (s : State) (l : Launch) (n : Node) (node core q area : Nat) (reserve : Bool) (rs : List PoolRec) (rest : List Nat)
    (hn : l.nodes[node]? = some n) (hk : s.keys = []) (ht : s.tenants = []) (ha : s.pools.backing = area :: rest)
    (i j : Nat) (hi : i < 16) (hj : j < 64) (hu : j ∉ windowsUsed s core) (hq : i ∉ (s.quarterWarps core q).map fun w => w.slot % 16)
    (hl : ∀ win slot, slot < 16 → ∀ t : State, t.launches = s.launches → t.blocks = s.blocks ++ [s.batchBlock l node core win area reserve rs] →
      t.warps = s.warps ++ [s.batchWarp l n core rs s.ctr.warp (16 * q + slot)] → t.coreLegal core = true) :
    ∃ t, s.startBatch l node core q reserve rs = some t ∧ t.pools.saves = s.pools.saves ∧ t.keys = s.keys ∧ t.tenants = s.tenants := by
  obtain ⟨x, -, h⟩ := pickFree_some s core 64 _ j hj hu
  obtain ⟨y, hy, e⟩ := addWarp_some (((s.dropBacking area).addBlock (s.batchBlock l node core x area reserve rs)).ungate core) core q
    (s.batchWarp l n core rs) i hi hq
  refine ⟨(withWarp (((s.dropBacking area).addBlock (s.batchBlock l node core x area reserve rs)).ungate core) (s.batchWarp l n core rs)
    (16 * q + y)).modLaunch l.id fun m => { m with batches := l.batches + 1, codeFrom := some (s.codeFor l), records := m.records.filter fun r => !rs.contains r },
    ?_, by simp only [State.modLaunch, withWarp, State.ungate, State.addBlock, State.dropBacking, and_self]⟩
  unfold State.startBatch
  rw [hn, show s.freeWindow core = some x from h, backingFor_some s l.hdr.tenant area rest hk ht ha]
  dsimp only
  rw [e]
  refine if_pos (hl x y hy _ ?_ ?_ ?_) <;> simp only [withWarp, State.ungate, State.addBlock, State.dropBacking]
/-- A batch of four records for the empty core 5, in ordinary room, or in the reserve of core 0, where the launch has a block. The pool has four slots. -/
def recs4 : List PoolRec := (List.range 4).map fun i => ⟨0, i, 0, leBytes 16 i, 0⟩
def binned : Launch := { nodeLaunch with
  records := recs4, nextBlock := 1, hdr := { demoHdr with cres := 4 }, nodes := [{ demoNode with poolN := 4 }], senders := [⟨some 0, none, ⟨0, 0, []⟩, 0, none⟩] }
def batching : State := { roomy with launches := [binned], clock := 100000 }
/-- The bounds of a core in a state after a batch of this launch has started there, for each slot of its warp. -/
theorem legalAfter (s : State) (l : Launch) (core q : Nat) (reserve : Bool)
    (h : ∀ y < 16, ∀ x, (({ s with blocks := s.blocks ++ [s.batchBlock l 0 core x 0x5000000 reserve recs4]
                                   warps := s.warps ++ [s.batchWarp l { demoNode with poolN := 4 } core recs4 s.ctr.warp (16 * q + y)] } : State).coreLegal core) = true)
    (x y : Nat) (hy : y < 16) (t : State) (h1 : t.launches = s.launches) (h2 : t.blocks = s.blocks ++ [s.batchBlock l 0 core x 0x5000000 reserve recs4])
    (h3 : t.warps = s.warps ++ [s.batchWarp l { demoNode with poolN := 4 } core recs4 s.ctr.warp (16 * q + y)]) : t.coreLegal core = true := by
  have e := h y hy x
  simp only [State.coreLegal, State.quarterWarps, State.reserveQuarters, State.usedBut, State.inReserve, State.block?, State.launch?, h1, h2, h3] at e ⊢
  exact e
theorem ordinaryBatch_some (s t : State) (l : Launch) (node core : Nat) (rs : List PoolRec) (ho : s.coreOpen core = true) (hr : rs ≠ [])
    (h : s.startBatch l node core 0 false rs = some t) : s.ordinaryBatch l node core rs = some t := by
  unfold State.ordinaryBatch
  rw [if_neg (by simp [ho, hr]), show List.range 4 = [0, 1, 2, 3] from rfl, List.findSome?_cons, h]
theorem witness_ordinaryBatch : ∃ t, batching.ordinaryBatch binned 0 5 recs4 = some t := by
  obtain ⟨t, h, -⟩ := startBatch_some batching binned _ 0 5 0 0x5000000 false recs4 [] rfl rfl rfl rfl 0 0 (by decide) (by decide)
    (by decide +kernel) (by decide +kernel) (legalAfter batching binned 5 0 false (fun y hy x => by interval_cases y <;> rfl))
  exact ⟨t, ordinaryBatch_some _ _ _ _ _ _ (by decide +kernel) (by decide) h⟩
theorem witness_reserveBatch : ∃ t, batching.reserveBatch binned 0 0 recs4 = some t := by
  obtain ⟨t, h, -⟩ := startBatch_some batching binned _ 0 0 0 0x5000000 true recs4 [] rfl rfl rfl rfl 1 1 (by decide) (by decide)
    (by decide +kernel) (by decide +kernel) (legalAfter batching binned 0 0 true (fun y hy x => by interval_cases y <;> rfl))
  refine ⟨t, ?_⟩
  unfold State.reserveBatch
  rw [if_neg (by decide +kernel), show batching.reserveQuarters 0 binned = [0, 1, 2, 3] by decide +kernel]
  simp only [List.findSome?_cons]
  rw [if_pos (by decide +kernel), h]
/-- A block whose only thread waits in the reorder pool, alone on core 0. -/
def pooled : Block := { demoBlock with pool := [⟨pc0, 5, Lane.start pc0 32 3, 0, 0, [], true⟩] }
def pooling : State := { demo with blocks := [pooled], warps := [] }
theorem seatGroup_some : ∃ t, pooling.seatGroup pooled demoLaunch (poolGroup (pooling.poolDue pooled) 16) 0 = some t := by
  unfold State.seatGroup
  obtain ⟨y, hy, e⟩ := addWarp_some ((pooling.modBlock pooled.id fun x => { x with pool := pooling.poolDue pooled }).modBlock pooled.id fun x =>
    { x with pool := (pooling.poolDue pooled).filter fun y => !(poolGroup (pooling.poolDue pooled) 16).contains y }) pooled.core 0
    (groupWarp demoLaunch.hdr pooled (poolGroup (pooling.poolDue pooled) 16)) 0 (by decide) (by decide +kernel)
  dsimp only
  rw [e]
  refine ⟨_, if_pos ?_⟩
  interval_cases y <;> rfl
/-- A block to place, records to place and to start as a batch, by count, by time and in the reserve, a group that leaves a pool, a warp to select, a turn
that opens and one that ends. For PlacementAndBatches with the theorems above. -/
def sending : Launch := { nodeLaunch with senders := [⟨some 0, none, ⟨0, 0, [1]⟩, 0, none⟩] }
theorem witness_PlacementAndBatches : demoLaunch.wantsBlock = true ∧ roomy.coreOpen 5 = true ∧ roomy.yieldsTo demoLaunch 5 = false ∧
    (∀ m ∈ roomy.launches, m.before demoLaunch = true → roomy.blockCores m = []) ∧ (demoL sending).nextSender sending 0 = some ⟨some 0, none, ⟨0, 0, [1]⟩, 0, none⟩ ∧
    sending.freeSlot 0 = some 0 ∧ recs4 = binned.fullBatch 0 ∧ recs4 = batching.timedBatch binned 0 ∧ binned.phase = .live ∧ binned.halting = false ∧
    batching.yieldsTo binned 5 = false ∧ batching.highestDue binned = some (0, recs4) ∧
    (pooling.core 0).phase ≠ .swap ∧ poolGroup (pooling.poolDue pooled) 16 ≠ [] := by decide +kernel
theorem witness_PlacementAndBatches_turns : demo.selectWarp 0 0 = some demoWarp ∧ demo.warp? 0 = some demoWarp ∧ batching.launch? 0 = some binned ∧
    pooling.block? 0 = some pooled ∧ ({ demo with taking := some ⟨0, 0xFFFF, 0xFFFF, 1, none⟩ } : State).taking = some ⟨0, 0xFFFF, 0xFFFF, 1, none⟩ ∧
    demoWarp.turnPaths ≠ [] ∧ ({ demoWarp with regs := { demoRegs with lanes := [] } } : Warp).turnPaths = [] := by
  refine ⟨by decide +kernel, rfl, rfl, rfl, rfl, by decide +kernel, by decide +kernel⟩
/-- New work for a core whose blocks have save areas: its swap begins. -/
theorem loadNew_some (s t : State) (core : Nat) (build : State → Option State) (h : build (s.cleared core) = some t) (hk : s.keys = []) (ht : s.tenants = [])
    (hs : (s.coreBlocks core).length ≤ t.pools.saves.length) : ∃ u, s.loadNew core build = some u := by
  unfold State.loadNew
  rw [h]
  exact Option.isSome_iff_exists.mp (beginSwap_some _ _ _ _ hk ht hs)
/-- Core 0 has waited for full pools, every other core exchanges its banks, and quad 0 has no window slot but that of core 0's block; cleared of it the
core takes the batch, and the block has a save area. -/
def crowdedBlocks : List Block := demoBlock :: (List.range 63).map fun i => { demoBlock with id := 100 + i, core := 1, winSlot := i + 1 }
def swappingCores : List Core := (List.range 191).map fun i => { (demo.core (i + 1)) with phase := .swap }
def stalled : State := { batching with blocks := crowdedBlocks, cores := swappingCores }
theorem witness_PlacementAndBatches_stall : stalled.launch? 0 = some binned ∧ stalled.highestDue binned = some (0, recs4) ∧ stalled.poolStalled 0 = true ∧
    (stalled.core 0).phase = .run ∧ stalled.noBatchRoom binned 0 recs4 = true ∧ (∃ b ∈ stalled.coreBlocks 0, b.launch = 0) :=
  ⟨rfl, by decide +kernel, by decide +kernel, by decide +kernel, by decide +kernel, by decide +kernel⟩
theorem witness_poolStallRelief : ∃ t, (stalled.loadNew 0 fun u => u.ordinaryBatch binned 0 0 recs4) = some t := by
  obtain ⟨t, h, hs, -, -⟩ := startBatch_some (stalled.cleared 0) binned _ 0 0 0 0x5000000 false recs4 [] rfl rfl rfl rfl 0 0 (by decide) (by decide)
    (by decide +kernel) (by decide +kernel) (legalAfter (stalled.cleared 0) binned 0 0 false (fun y hy x => by interval_cases y <;> rfl))
  exact loadNew_some stalled t 0 _ (ordinaryBatch_some _ _ _ _ _ _ (by decide +kernel) (by decide) h) rfl rfl (by rw [hs]; decide +kernel)
/-- Core 0 runs a block of a low class, every other core exchanges its banks, and quad 0 has no window slot but that block's; a launch of a high class has
waited with its block or with a batch, or a saved context of it. -/
def lowL : Launch := { demoLaunch with hdr := { demoHdr with prio := 5 }, nextBlock := 1 }
def highL : Launch := { demoLaunch with id := 1 }
def binnedH : Launch := { binned with id := 1 }
def waitingCtx : Context := { savedCtx with blocks := savedCtx.blocks.map fun b => { b with launch := 1, pages := [] } }
def crowded (l : Launch) (xs : List Context) : State := { swapping with
  launches := [lowL, l], contexts := xs, clock := 10000000, blocks := crowdedBlocks, cores := swappingCores }
theorem witness_PreemptionAndRestore_launch : highL.wantsBlock = true ∧ highL.waitSince + 3200 ≤ (crowded highL []).clock ∧ (crowded highL []).noBlockRoom highL = true ∧
    ((crowded highL []).core 0).phase = .run ∧ (crowded highL []).runsBelow 0 highL.hdr.prio = true ∧ ((crowded highL []).cleared 0).yieldsTo highL 0 = false :=
  ⟨by decide +kernel, by decide +kernel, by decide +kernel, by decide +kernel, by decide +kernel, by decide +kernel⟩
theorem witness_PreemptionAndRestore_newBlock : ∃ t, ((crowded highL []).loadNew 0 fun u => u.tryBlock highL 0) = some t := by
  obtain ⟨t, h, hs, -⟩ := tryBlock_some ((crowded highL []).cleared 0) highL 0 0x5000000 [] (by decide) rfl rfl rfl 0 0 (by decide) (by decide)
    (by decide +kernel) (by decide +kernel) (fun x y hy t h1 h2 h3 => by
      simp only [State.coreLegal, State.quarterWarps, h1, h2, h3]; interval_cases y <;> rfl)
  exact loadNew_some (crowded highL []) t 0 _ h rfl rfl (by rw [hs]; decide +kernel)
theorem witness_PreemptionAndRestore_batch : binnedH.wantsBlock = false ∧ (crowded binnedH []).highestDue binnedH = some (0, recs4) ∧
    binnedH.dueSince 0 + 3200 ≤ (crowded binnedH []).clock ∧ (crowded binnedH []).noBatchRoom binnedH 0 recs4 = true ∧
    (crowded binnedH []).runsBelow 0 binnedH.hdr.prio = true ∧ ((crowded binnedH []).cleared 0).yieldsTo binnedH 0 = false :=
  ⟨by decide +kernel, by decide +kernel, by decide +kernel, by decide +kernel, by decide +kernel, by decide +kernel⟩
theorem witness_PreemptionAndRestore_newBatch : ∃ t, ((crowded binnedH []).loadNew 0 fun u => u.ordinaryBatch binnedH 0 0 recs4) = some t := by
  obtain ⟨t, h, hs, -⟩ := startBatch_some ((crowded binnedH []).cleared 0) binnedH _ 0 0 0 0x5000000 false recs4 [] rfl rfl rfl rfl 0 0 (by decide) (by decide)
    (by decide +kernel) (by decide +kernel) (legalAfter ((crowded binnedH []).cleared 0) binnedH 0 0 false (fun y hy x => by interval_cases y <;> rfl))
  exact loadNew_some (crowded binnedH []) t 0 _ (ordinaryBatch_some _ _ _ _ _ _ (by decide +kernel) (by decide) h) rfl rfl (by rw [hs]; decide +kernel)
def waited : State := crowded { highL with nextBlock := 1 } [waitingCtx]
theorem witness_PreemptionAndRestore_context : waited.context? 9 = some waitingCtx ∧ waited.classOf waitingCtx.blocks = some 0 ∧ waitingCtx.savedAt + 3200 ≤ waited.clock ∧
    waited.noContextRoom waitingCtx = true ∧ waited.runsBelow 0 0 = true ∧ waitingCtx.areas ≠ [] ∧ (waited.cleared 0).contextFits waitingCtx 0 = true ∧
    waited.contextWaits waitingCtx = true ∧ (∀ m ∈ waited.launches, ¬m.hdr.prio < 0) ∧
    (({ waited with cores := { (demo.core 0) with phase := .spill, outgoing := some 9 } :: waited.cores } : State).core 0).outgoing = some 9 :=
  ⟨rfl, by decide +kernel, by decide +kernel, by decide +kernel, by decide +kernel, by decide, by decide +kernel, by decide +kernel, by decide +kernel, by decide +kernel⟩
theorem witness_PreemptionAndRestore_areas : (waited.pickAreas (waited.liveContext 0) (waited.coreBlocks 0) waited.pools.saves).isSome = true :=
  pickAreas_some _ _ rfl rfl _ _ (by decide +kernel)
/-- A hot core whose block has been there for 4 ms; cores at rest, in LOAD, in SWAP and in SPILL. -/
def aged : State := { waited with cores := [] }
def phased (p : CorePhase) (inc out : Option Nat) : State := { demo with
  cores := [{ (demo.core 0) with phase := p, incoming := inc, outgoing := out }], contexts := [waitingCtx, { waitingCtx with num := 10, areas := [(0, 0x4000000)], blocks := [], warps := [] }]
  mem := demo.mem.write 0x3000000 (leBytes 24 (2 ^ 128)), blocks := [{ demoBlock with winSlot := 3 }], warps := [] }
theorem witness_PreemptionAndRestore_hot : (aged.withTemps [90000]).hot 0 = false ∧ (aged.withTemps [96000]).hot 0 = true ∧
    ((aged.withTemps [96000]).core 0).phase = .run ∧ (aged.withTemps [96000]).coreBlocks 0 ≠ [] ∧
    ∀ b ∈ (aged.withTemps [96000]).coreBlocks 0, b.arrivedAt + 6400000 ≤ (aged.withTemps [96000]).clock := by decide +kernel
theorem witness_PreemptionAndRestore_hotAreas : ((aged.withTemps [96000]).pickAreas ((aged.withTemps [96000]).liveContext 0) ((aged.withTemps [96000]).coreBlocks 0)
    (aged.withTemps [96000]).pools.saves).isSome = true := pickAreas_some _ _ rfl rfl _ _ (by decide +kernel)
/-- A context whose save area carries another number, and one that a bad line spoils. -/
def loadS : State := phased .load (some 9) (some 10)
def mismatched : State := { loadS with mem := demo.mem }
def poisoned : State := { loadS with badLines := [(0x3000000 / 128, 1)] }
theorem witness_PreemptionAndRestore_load : (loadS.core 0).phase = .load ∧ loadS.bankTested 0 = false ∧
    (((loadS.core 0).incoming.bind loadS.context?).bind loadS.restoreCheck) = none ∧ (loadS.warps.map (·.id)).Nodup ∧ mismatched.context? 9 = some waitingCtx ∧
    mismatched.restoreCheck waitingCtx = some 3 ∧ (mismatched.core 0).incoming = some waitingCtx.num ∧ (∀ c ∈ poisoned.cores, c.outgoing ≠ some waitingCtx.num) ∧
    waitingCtx.blocks.length = 1 ∧ waitingCtx.areas = [(7, 0x3000000)] := by
  refine ⟨by decide +kernel, by decide +kernel, rfl, by decide, rfl, rfl, by decide +kernel, by decide, by decide, by decide⟩
theorem witness_PreemptionAndRestore_badLine (b : Block) : ∃ x, poisoned.errorAt (.pa 0x3000000) (poisoned.areaLen waitingCtx b) = some x := by
  have h : 0 < poisoned.areaLen waitingCtx b := by simp [State.areaLen, State.saveParts, leBytes]
  generalize poisoned.areaLen waitingCtx b = n at h
  have g : 393216 ≤ (50331647 + n) / 128 := by omega
  simp [State.errorAt, poisoned, h, g, minBy]
/-- What a poisoned context leaves: without a dump area a state, not a wait for the host. -/
theorem witness_PreemptionAndRestore_poison : mismatched.launch? 0 = some demoLaunch ∧ demoLaunch.halting = false ∧ demoLaunch.hdr.dumpp = 0 ∧
    (∃ u, mismatched.restoreFailed waitingCtx 3 = .ok u) := ⟨rfl, rfl, rfl, _, rfl⟩
theorem witness_PreemptionAndRestore_swap : ((phased .swap (some 9) (some 10)).core 0).phase = .swap ∧ ((phased .swap (some 9) (some 10)).core 0).outgoing = some 10 ∧
    (∀ w ∈ (phased .swap (some 9) (some 10)).warps, w.core = 0 → (phased .swap (some 9) (some 10)).warpSaves w = true) ∧
    (∀ b ∈ (phased .swap (some 9) (some 10)).coreBlocks 0, (phased .swap (some 9) (some 10)).blockSaves b = true) ∧
    ((phased .swap none (some 10)).core 0).incoming = none ∧ (phased .swap (some 9) (some 10)).context? 9 = some waitingCtx ∧
    ((phased .swap (some 9) (some 10)).warps.map (·.id) ++ waitingCtx.warps.map (·.id)).Nodup ∧
    (((phased .swap (some 9) (some 10)).swapped 0 10).bringIn waitingCtx 0).isSome = true :=
  ⟨by decide +kernel, by decide +kernel, by decide +kernel, by decide +kernel, by decide +kernel, rfl, by decide +kernel, by decide +kernel⟩
theorem witness_PreemptionAndRestore_spill : (phased .spill none (some 9)).context? 9 = some waitingCtx ∧ ((phased .spill none (some 9)).core 0).outgoing = some 9 ∧
    (∀ b ∈ waitingCtx.blocks, ∀ p ∈ b.pages, p.frame = none) ∧ (phased .run none none).contextWaits waitingCtx = true ∧
    (phased .run none none).contextFits waitingCtx 0 = true ∧ (phased .run none none).restoreCheck waitingCtx = none ∧
    (∃ x ∈ (phased .run none none).contexts, x.num = 10 ∧ x.blocks = []) ∧ (phased .run none none).contextBusy 10 = false :=
  ⟨rfl, by decide +kernel, by decide +kernel, by decide +kernel, by decide +kernel, rfl, by decide +kernel, by decide +kernel⟩
/-- A long instruction with every part back, sound and in error; a warp with a staged record, with a staged command; one that yields, one that waits for a table slot. -/
def longOp (bad : Option (Nat × W64 × Nat)) : LongOp := ⟨3, codeBase, [], 0, false, [], [], true, bad⟩
def longW (bad : Option (Nat × W64 × Nat)) : Warp := { demoWarp with longs := [longOp bad] }
def staged (emits : List EmitRec) (cmds : List Cmd) (order : List Bool) : Warp := { demoWarp with spec := { demoWarp.spec with emits := emits, cmds := cmds, order := order } }
def rayReq0 (act : RayAct) : RayReq := ⟨0, 0, 0, 8, act, codeBase, 0, [0, 0, 0, 0x3F800000, 0x3F800000, 0, 0, 0x42C80000], 0⟩
def permits (w : Warp) : State := { demo with warps := w :: (List.range 4).map fun i => { demoWarp with id := i + 1, permit := true } }
theorem witness_CoreEvents : (demo.core 0).interval ≠ ({ demo with clock := 5000 } : State).clock / 4096 ∧ (demoW (longW none)).warp? 0 = some (longW none) ∧
    (longW none).longs.find? (fun x => x.id == 3 && x.parts == 0 && !x.done) = some (longOp none) ∧ (longOp (some (2, 0x1000, 1))).bad = some (2, 0x1000, 1) ∧
    (longW (some (2, 0x1000, 1))).settled = true ∧ (longW (some (2, 0x1000, 1))).fatal = none ∧ (longW (some (2, 0x1000, 1))).backoff = [] ∧
    (demoW (longW (some (2, 0x1000, 1)))).permitFree 0 = true ∧ (permits (longW (some (2, 0x1000, 1)))).permitFree 0 = false :=
  ⟨by decide +kernel, rfl, by decide +kernel, rfl, by decide +kernel, rfl, rfl, by decide +kernel, by decide +kernel⟩
theorem witness_CoreEvents_staged : (staged [⟨0, 0, [1]⟩] [] [true]).maySend = true ∧ (staged [] [.ray [rayReq0 .trace]] [false]).maySend = true ∧
    (demoW (staged [] [.ray [rayReq0 .trace]] [false])).sendWait (.ray [rayReq0 .trace]) = none ∧
    ({ demoWarp with yielded := some 0 } : Warp).yielded = some 0 ∧ 0 ≤ demo.cycles ∧ 0 + 65536 ≤ ({ demo with clock := 70000 } : State).clock ∧
    [(11, 3, 0)].find? (fun x : Nat × Nat × Nat => x.1 == 11) = some (11, 3, 0) ∧
    ¬(Config.regBase ≤ 0x100 ∧ 0x100 < Config.regBase + 4) ∧ ¬(Config.telemetryBase ≤ 0x100 ∧ 0x100 < Config.telemetryBase + 0x10000) :=
  ⟨by decide +kernel, by decide +kernel, rfl, rfl, by decide +kernel, by decide +kernel, by decide, by decide +kernel, by decide +kernel⟩
/-- A block with a free frame, one that holds all 64, one with a page that is being filled, soundly and with an error in its backing area. -/
def pagesB (n : Nat) : Block := { demoBlock with scratchBytes := 2 ^ 20, pages := (List.range n).map fun i => ⟨i, some i, false, i, none⟩ }
def fillingB : Block := { demoBlock with pages := [⟨0, some 0, true, 0, none⟩] }
def pagesS (b : Block) : State := { demo with blocks := [b] }
def framesOf (s : State) : List Nat := (s.framed 0).filterMap fun x => x.2.frame
theorem witness_CoreEvents_pages : (∀ p ∈ (pagesB 3).pages, p.no = 9 → p.frame = none ∧ p.bad = none) ∧ (pagesS (pagesB 64)).pickFree 2000 64 (framesOf (pagesS (pagesB 64))) = none ∧
    fillingB.page? 0 = some ⟨0, some 0, true, 0, none⟩ ∧ fillingB.backing = some 0x2000000 ∧ (pagesS fillingB).fillError fillingB 0 = none ∧
    ({ (pagesS fillingB) with badLines := [(0x2000000 / 128, 1)] } : State).fillError fillingB 0 = some 1 ∧ (∀ g ∈ fillingB.feEmpty, g / 256 ≠ 0) ∧
    (pagesS (pagesB 3)).pageLocked 0 1 = false ∧ demo.mem.wf = true ∧ demoBlock.scratch.wf = true :=
  ⟨by decide +kernel, by decide +kernel, rfl, rfl, by decide +kernel, by decide +kernel, by decide +kernel, by decide +kernel, by decide +kernel, by decide⟩
theorem witness_CoreEvents_frames : (∃ f, (pagesS (pagesB 3)).pickFree 2000 64 (framesOf (pagesS (pagesB 3))) = some f) ∧
    (∃ u p, minBy (fun x : Block × Page => x.2.lastUse) (((pagesS (pagesB 64)).framed 0).filter fun x : Block × Page =>
      !x.2.filling && !(pagesS (pagesB 64)).pageLocked x.1.id x.2.no) = some (u, p)) := by
  obtain ⟨x, -, h⟩ := pickFree_some (pagesS (pagesB 3)) 2000 64 (framesOf (pagesS (pagesB 3))) 5 (by decide) (by decide +kernel)
  exact ⟨⟨x, h⟩, pagesB 64, ⟨0, some 0, false, 0, none⟩, by decide +kernel⟩
/-- Warps with a fatal trap: with a permit free, without one, with a back-off that has ended. -/
def fatal0 : FatalTrap := ⟨0x11, 1, 0, true, codeBase, 0, 0, false, 0, none⟩
def fatalW : Warp := { demoWarp with fatal := some fatal0 }
def backed : Warp := { demoWarp with backoff := [⟨64, 64, pc0⟩], regs := { demoRegs with lanes := demoRegs.lanes.map fun t => { t with wait := .service none } } }
theorem witness_FaultService_fatal : ((demoW fatalW).warps.map (·.id)).Nodup ∧ (demoW fatalW).warp? 0 = some fatalW ∧ fatalW.settled = true ∧ demoLaunch.halting = false ∧
    (∀ r ∈ (demoW fatalW).fatalRecs demoLaunch, fatal0.after r.trap = false) ∧ demoLaunch.hdr.dumpp = 0 ∧
    (demoW fatalW).fatalNew (.warp 0) = true ∧ (demoW fatalW).permitFree 0 = true ∧ (permits fatalW).fatalNew (.warp 0) = true ∧ (permits fatalW).permitFree 0 = false ∧
    (permits fatalW).warp? 0 = some fatalW ∧ fatalW.permit = false :=
  ⟨by decide, rfl, by decide +kernel, rfl, by decide +kernel, by decide, by decide +kernel, by decide +kernel, by decide +kernel, by decide +kernel, rfl, rfl⟩
theorem witness_FaultService_backoff : (∃ k ∈ backed.backoff, k.retryAt ≠ 0 ∧ k.retryAt ≤ ({ demoW backed with clock := 100 } : State).clock ∧ k.pc = (backed.lane 0).pc) ∧
    backed.fatal = none ∧ backed.service = none ∧ backed.waitsServed = false ∧ 0 ∈ backed.live ∧ (backed.lane 0).wait = .service none ∧ (backed.lane 0).skip = 0 :=
  ⟨by decide +kernel, rfl, rfl, by decide +kernel, by decide +kernel, by decide +kernel, by decide +kernel⟩
/-- A warp with a pending asynchronous trap; a fault queue with an entry answered, and its head word; warps that wait for a fault in and out of a handler. -/
def asyncW : Warp := { demoWarp with asyncs := [⟨0xA, 0, 0x1000, 0⟩] }
def fault0 (p : FaultPlace) : FaultWait := ⟨5, .warp 0, p, 0, 0x1000, 2, 1, 0, 0, 0, 0⟩
def faulty (p : FaultPlace) : State := { demo with faultQs := [⟨1, ring0, 1, 0⟩], faultWaits := [fault0 p], mem := demo.mem.write 0x10000 [2] }
def servedW : Warp := { demoWarp with permit := true, regs := { demoRegs with lanes := demoRegs.lanes.map fun t => { t with wait := .service (some 5) } } }
theorem witness_FaultService_async : (demoW asyncW).warp? 0 = some asyncW ∧ (demoW asyncW).asyncPath asyncW = 0 :: (List.range 15).map (· + 1) ∧
    (∀ n ∈ List.range 16, (asyncW.lane n).plan = none) ∧ asyncW.owing (List.range 16) = false ∧
    asyncW.regs.trap.masked = false ∧ asyncW.regs.trap.tba ≠ 0 ∧ fatalCause 0xA = false ∧ asyncW.settled = true ∧ asyncW.longsDone = true ∧ asyncW.fatal = none :=
  ⟨rfl, by decide +kernel, by decide +kernel, by decide +kernel, by decide +kernel, by decide +kernel, by decide, by decide +kernel, by decide +kernel, rfl⟩
theorem witness_FaultService_queues : (faulty (.entry 1 0)).faultQs.find? (fun x => x.no == 1) = some ⟨1, ring0, 1, 0⟩ ∧
    (faulty (.entry 1 0)).numPa ring0.headPa 4 = (0 : W32).toNat ∧ (faulty (.entry 1 0)).entryStat ⟨1, ring0, 1, 0⟩ 0 ≠ 1 ∧
    (∃ f ∈ (faulty (.entry 1 0)).faultWaits, f.place = .entry 1 0) ∧ (faulty .pri).faultWaits.find? (fun x => x.id == 5 && x.place == .pri) = some (fault0 .pri) ∧
    (faulty .ats).faultWaits.find? (fun x => x.id == 5 && x.place == .ats) = some (fault0 .ats) ∧ (∀ w ∈ demo.warps, w.regs.trap.inHandler = false) ∧
    demo.drained ⟨some 0, 1, 1⟩ = true ∧ (demoW storing).drained ⟨some 0, 1, 1⟩ = false := by decide +kernel
theorem witness_FaultService : (demoW servedW).warp? 0 = some servedW ∧ servedW.service = none ∧ servedW.regs.trap.inHandler = false ∧ 0 ∈ servedW.live ∧
    (servedW.lane 0).wait = .service (some 5) ∧ servedW.fatal = none ∧ ({ inHandler with service := some 5 } : Warp).service = some 5 ∧
    ({ leaving with regs := { leaving.regs with lanes := leaving.regs.lanes.map fun t => { t with wait := .none } } } : Warp).handlerDone = false ∧
    servedW.live.find? (fun k => (servedW.lane k).awaits 5) = some 0 :=
  ⟨rfl, rfl, by decide +kernel, by decide +kernel, by decide +kernel, rfl, rfl, by decide +kernel, by decide +kernel⟩
/-- Sectors held in each state, a page under a key, a line asked back, a core with a dirty line, and one in a write-back; power above, in and below the cap's band; a test that runs, an
event queue that has dropped events. -/
def warmHost : State := { dirtyHost with
  cache := { dirtyHost.cache with backInv := [0x80], hostHeld := [0x80], writeBacks := [⟨3, 0x100, false⟩], l1 := [(4, 2 ^ 51 - 128, .modified)] }
  keys := [(5, 3)], tests := [⟨4, .hbm, 0x1000, false, some 20003200⟩], clock := 20000000, thermal := { dirtyHost.thermal with belowSince := some 0 }
  eventQ := some ⟨ring0, 64, 0, 64, 2⟩ }
theorem witness_HostAndPower : isHost (2 ^ 51 - 64) = true ∧ isFabric (2 ^ 51 - 64) = false ∧ warmHost.ports.hostUp = true ∧
    warmHost.cache.sector (sectorOf (2 ^ 51 - 64)) = some .modified ∧ warmHost.cache.sector (sectorOf (2 ^ 51 - 128)) = none ∧
    isHbm (0x5000 / 64 * 64 + 63) = true ∧ warmHost.keyOf 0x5000 ≠ 0 ∧ warmHost.keyOf 0x9000 = 0 ∧ warmHost.underTest (.pa (sectorOf 0x1000)) 64 = true ∧
    warmHost.underTest (.pa (sectorOf 0x9000)) 64 = false ∧ warmHost.errorAt (.pa (sectorOf 0x9000)) 64 = none ∧ 0x80 ∈ warmHost.cache.backInv ∧ warmHost.mem.wf = true ∧
    warmHost.cache.writeBacks.find? (fun x => x.core == 3 && x.line == 0x100) = some ⟨3, 0x100, false⟩ := by decide +kernel
theorem witness_HostAndPower_gating : (4 : W32).toNat ≤ 96 ∧
    warmHost.gateable 4 4 = true ∧ (warmHost.cache.l1.filter fun l => (coresFrom 4 4).contains l.1 && l.2.2 == .modified && isHost l.2.1) ≠ [] ∧
    warmHost.gateable 8 4 = true ∧ (warmHost.cache.l1.filter fun l => (coresFrom 8 4).contains l.1 && l.2.2 == .modified && isHost l.2.1) = [] ∧
    (∀ w ∈ warmHost.cache.writeBacks, w.core ∉ coresFrom 8 4) := by decide +kernel
theorem witness_HostAndPower_power : 1000000 * 100 ≤ warmHost.thermal.capW * 1000 * 95 ∧ 0 + 16000000 ≤ warmHost.clock ∧
    warmHost.thermal.capW * 1000 * 95 < 2600000 * 100 ∧ State.reset.thermal.belowSince = none ∧ (∀ b ∈ warmHost.badLines, b.1 ≠ 0x1000 / 128) ∧
    demoWarp.core = 0x05 / 65536 ∧ demoWarp.slot = 0x05 / 256 % 256 ∧ warmHost.tests.find? (fun y => y.id == 4) = some ⟨4, .hbm, 0x1000, false, some 20003200⟩ ∧
    ring0.count ≤ ((64 : W32) - 0).toNat ∧ ((64 : W32) - 8).toNat < ring0.count := by decide +kernel
/-- Packets for this package and for another, of each request; links to package 1 up and down. -/
def pkt (dst hop : Nat) (req : FabReq) : Packet := ⟨2, dst, hop, 0, 0x2000, 4, none, 0, 0, 9, req⟩
def meshed : State := { routed1 with ports := { routed1.ports with roles := 3 }, eventQ := some ⟨ring0, 0, 0, 0, 0⟩ }
def linkDown : State := { meshed with ports := { meshed.ports with down := 1 } }
theorem witness_FabricPackets : (pkt 0 0 .load).dst = demo.pkg ∧ isAccess (pkt 0 0 .load).req = true ∧ isAccess (pkt 0 0 .query).req = false ∧ (pkt 1 0 .load).dst ≠ meshed.pkg ∧
    4 ≤ (pkt 1 4 .load).hop ∧ meshed.routed 5 = false ∧ meshed.routed 1 = true ∧ meshed.ports.down.getLsbD (meshed.hopPort (pkt 1 0 .load)) = false ∧
    linkDown.ports.down.getLsbD (linkDown.hopPort (pkt 1 0 (.store [1]))) = true ∧ demo.eventQ = none ∧ meshed.eventQ ≠ none ∧ (1 : Byte).toNat ≤ 2 ∧
    ([] ++ [pkt 0 0 .load]).find? (fun q => q.src == 2) = some (pkt 0 0 .load) ∧ [pkt 0 1 .load, pkt 0 0 .load].find? (fun q => q.src == 2) ≠ some (pkt 0 0 .load) ∧
    reqCounted (.store [1]) = true ∧ reqCounted (.red 0 1) = true := by decide +kernel
theorem witness_FabricPackets_accesses : versionStore (pkt 0 0 (.store [1])) = none ∧ demo.hostLine (.pa 0x2000) 4 = none ∧ isHbm (pkt 0 0 .load).offset = true ∧
    (∀ r ∈ packetRuns (pkt 0 0 (.store [1])), demo.hostLine (.pa r.1) r.2 = none ∧ demo.underTest (.pa r.1) r.2 = false) ∧ demo.mem.wf = true ∧
    demo.errorAt (.pa 0x2000) 4 = none ∧ ({ demo with badLines := [(0x2000 / 128, 1)] } : State).errorAt (.pa 0x2000) 4 ≠ none ∧
    ({ demo with cache := { demo.cache with hostHeld := [0x2000] } } : State).hostLine (.pa 0x2000) 4 = some 0x2000 ∧ (pkt 0 0 .load).width ≠ 0 := by decide +kernel
/-- A store of the shard version, first and while a change waits; a line held for remote atomics; a count; a read and a store of lane 3 open at package 1, near bytes sound or not. -/
def verPkt : Packet := { pkt 0 0 (.store [7, 0, 0, 0]) with offset := Config.regBase }
def remote0 (isRead : Bool) (near : List NearRun) : Remote :=
  { id := 4, warp := 0, target := 1, issued := 0, isRead := isRead, lane := 3, off := 0, va := 0x77, flow := 0, interval := 0, cmd := none, near := near
    spots := [(0, 4)], seq := 0, reader := none }
def opened (r : Remote) (bad : List (Nat × Byte)) : State := { demoW { demoWarp with remoteOpen := 1, regs := { demoRegs with
  lanes := demoRegs.lanes.map fun t => { t with got := some [0, 0, 0, 0, 0, 0, 0, 0], plan := some ⟨0, 0x77, 0, 0, [], (0, 0), none⟩ } } } with remotes := [r], badLines := bad, clock := 400000 }
def nearRun : NearRun := ⟨4, .pa 0x2000, 4, none, []⟩
theorem witness_FabricPackets_versions : (versionStore verPkt).isSome = true ∧ (demo.larder.newVersion.any (fun x => x.1 == versionPeer verPkt)) = false ∧
    (∃ i ∈ [(⟨5, true, 0, 0⟩ : IngressLine)], i.line = 5 ∧ i.lastAtomic + 3200 ≤ 400000) := by decide +kernel
theorem witness_FabricPackets_more : (1 : Nat) ≠ demo.pkg ∧ ((opened (remote0 true []) []).warp? 0).isSome = true ∧
    (opened (remote0 true []) []).remotes.find? (fun x => x.id == 4 && x.target != 0) = some (remote0 true []) ∧ (remote0 true []).counted = true ∧
    (∃ near, (opened (remote0 true [nearRun]) []).nearBytes (remote0 true [nearRun]) = .ok near) ∧
    (∃ va n, (opened (remote0 true [nearRun]) [(0x2000 / 128, 1)]).nearBytes (remote0 true [nearRun]) = .error (va, n)) ∧
    (opened (remote0 false []) []).remotes.find? (fun x => x.id == 4 && x.target != 0 && decide (x.issued + 320000 ≤ 400000)) = some (remote0 false []) ∧
    (let r := { remote0 true [] with lane := 67, reader := some .hearth }; (opened r []).remotes.find? (fun x => x.id == 4 && x.target != 0) = some r ∧ r.reader = some .hearth) :=
  ⟨by decide, by decide +kernel, by decide +kernel, by decide, ⟨_, rfl⟩, ⟨_, _, rfl⟩, by decide +kernel, by decide +kernel⟩
/-- Endpoint 5 of launch 0, which packages 1 and 2 may use; a record of lane 3 on its way, one that its transport gave up; credits. -/
def ep5 : Endpoint := ⟨5, 0, 0, 0, [1, 2], 4, [⟨2, 1, 8, []⟩]⟩
def boundS : State := { demoL nodeLaunch with endpoints := [ep5], seen := [(5, 2, 8)], credits := [⟨1, 5, 0, 2, 3⟩] }
def recRemote : Remote := { remote0 false [] with lane := 66, off := 3, flow := 5 }
theorem witness_FabricRecords : ((5, 2, 8) ∈ boundS.seen ∧ (5, 2, 9) ∉ boundS.seen ∧ boundS.takesRecord 4 0 16 = none ∧ boundS.takesRecord 5 0 16 = some ep5 ∧
      7 ∉ ep5.senders ∧ (∃ h ∈ ep5.held, h.src = 2 ∧ h.sslot = 1)) ∧
    (2 ∈ ep5.senders ∧ (∀ h ∈ ep5.held, h.src = 2 → h.sslot ≠ 0) ∧ boundS.launch? ep5.launch = some nodeLaunch) ∧
    (((opened recRemote []).remotes.find? fun x => x.id == recRemote.id && x.lane == 66) = some recRemote ∧
      ∃ w, (opened recRemote []).warp? recRemote.warp = some w ∧ recRemote.off < w.width) ∧
    (∃ c ∈ boundS.credits, c.pkg = 1 ∧ c.ep = 5 ∧ c.free < c.granted) ∧ boundS.routed 1 = false ∧ routed1.routed 1 = true ∧ recRemote.target = 1 := by
  refine ⟨by decide +kernel, ⟨by decide, by decide, rfl⟩, ⟨rfl, _, rfl, by decide +kernel⟩, by decide +kernel⟩
def creditW : Warp := { demoWarp with regs := { demoRegs with lanes := demoRegs.lanes.map fun t : Lane => { t with wait := .credit 1 5 3 } } }
theorem witness_FabricRecords_revoked : (demoW creditW).warp? creditW.id = some creditW ∧
    creditW.live.find? (fun i => match (creditW.lane i).wait with | .credit p e _ => p == 1 && e == 5 | _ => false) = some 0 ∧
    (creditW.lane 0).wait = .credit 1 5 3 ∧ 3 < creditW.width := ⟨rfl, by decide +kernel⟩
/-- A Larder that two packages have filled from; one that waits for a notice's acknowledgement; a fill that was asked for. -/
def shared : State := { demo with larder := { demo.larder with units := 1, filledBy := [1, 2] } }
def noticing : State := { demo with larder := { demo.larder with awaiting := [1], newVersion := some (0, 4) } }
def fillRemote : Remote := { remote0 true [] with lane := 65 }
theorem witness_ShardVersions : noticing.larder.newVersion ≠ none ∧
    (demo.larder.newVersion = none ∧ demo.larder.writes = [] ∧ demo.larder.filledBy = []) ∧
    (shared.larder.newVersion = none ∧ shared.larder.writes = [] ∧ shared.larder.filledBy ≠ [] ∧ shared.larder.version ≠ 4) ∧
    (noticing.larder.newVersion = some (0, 4) ∧ (∀ q ∈ noticing.larder.awaiting, q = 1) ∧ noticing.larder.writes = [] ∧ ∃ q ∈ noticing.larder.awaiting, q ≠ 2) := by
  decide +kernel
theorem witness_ShardVersions_fill : shared.larder.units ≠ 0 ∧ fillRemote.lane = 65 ∧ fillRemote.target = 1 ∧ fillRemote.va = 0x77 ∧
    shared.anyWarp? fillRemote.warp = some demoWarp ∧ shared.anyBlock? demoWarp.block = some demoBlock ∧ shared.launch? demoBlock.launch = some demoLaunch ∧
    demoLaunch.hdr.tenant = 0 ∧ (3 : W32).toNat < ((([(1, (4 : W32))] : List (Nat × W32)).find? fun x => x.1 == 1).map (·.2)).getD 0 :=
  ⟨by decide, rfl, rfl, rfl, rfl, rfl, rfl, rfl, by decide⟩
/-- A request with a row, one that flushes; a tile with its row: whose record is zeros, of one layer with four inputs and outputs, of one whose inputs no
register reaches, of weights that lie off their line, one that has passed; a tile of two blocks. -/
def nnRow : NnRow := ⟨0, 3, 0, 8, 12, 32, 0x2000, 0x111, List.replicate 16 0⟩
def nnReq (rows : List NnRow) : NnReq := ⟨0, 0, 0, 3, true, rows⟩
def tile0 (sent checked passed : Bool) : Tile := ⟨6, 0, 0, 0x2000, 0x111, [nnRow], 0, 256, sent, checked, 0, passed, [], []⟩
def netRec : Nat := 0x3000 + 0x4000 * 2 ^ 64 + 2 ^ 128 + 4 * 2 ^ 136 + 4 * 2 ^ 144
def tiled (r : Nat) (t : Tile) : State := { demo with mem := demo.mem.write 0x2000 (leBytes 64 r), quads := { demo.quads with tiles := [t], nnReqs := [nnReq [nnRow]] } }
def tongsWho : Who := ⟨demoLaunch, 0, 0, .tongs 0⟩
/-- What a network's record of these bits answers: bad, its registers reach, off its lines. -/
def judged (x : Nat) : Option Nat × Bool × Bool := ((NetRec.mk x).bad, rowFits ⟨x⟩ nnRow, (NetRec.mk x).misaligned)
/-- The record of a tile is read, and holds these bits. -/
def reads (x : Nat) : Prop := (tiled x (tile0 true false false)).strangers (tile0 true false false) 0 = [] ∧
  ∃ g0, (tiled x (tile0 true false false)).reachRead tongsWho 0x2000 64 = .ok g0 ∧ (tiled x (tile0 true false false)).agentPrep tongsWho g0 [] = none ∧
    leNat ((tiled x (tile0 true false false)).reachBytes tongsWho g0) = x
theorem witness_NetworkTilesRun : ((tiled 0 (tile0 true false false)).quads.nnReqs.find? fun x => x.quad == 0) = some (nnReq [nnRow]) ∧ (nnReq []).rows = [] ∧ (nnReq [nnRow]).rows ≠ [] ∧
    ((tiled 0 (tile0 true false false)).quads.tiles.find? fun x => x.id == 6 && x.sent && !x.checked) = some (tile0 true false false) ∧
    ((tiled 0 (tile0 true true true)).quads.tiles.find? fun x => x.id == 6 && x.passed) = some (tile0 true true true) ∧
    (tiled 0 (tile0 true false false)).tableRoom 0 = true := by decide +kernel
theorem witness_NetworkTilesRun_check : (tiled 0 (tile0 true false false)).launch? 0 = some demoLaunch ∧ (tiled 0 (tile0 true false false)).warp? 0 = some demoWarp :=
  ⟨rfl, rfl⟩
theorem witness_NetworkTilesRun_bad : reads 0 ∧ judged 0 = (some 0x10, true, false) := ⟨⟨by decide, _, rfl, by decide +kernel, by decide +kernel⟩, by decide +kernel⟩
def wideRec : Nat := netRec + 60 * 2 ^ 136
theorem witness_NetworkTilesRun_reach : reads wideRec ∧ judged wideRec = (none, false, false) := ⟨⟨by decide, _, rfl, by decide +kernel, by decide +kernel⟩, by decide +kernel⟩
theorem witness_NetworkTilesRun_misaligned : reads (netRec + 8) ∧ judged (netRec + 8) = (none, true, true) :=
  ⟨⟨by decide, _, rfl, by decide +kernel, by decide +kernel⟩, by decide +kernel⟩
theorem witness_NetworkTilesRun_good : reads netRec ∧ judged netRec = (none, true, false) ∧
    ∃ gss, (tiled netRec (tile0 true false false)).reachAll tongsWho (((List.range (NetRec.mk netRec).layers).map (· + 1)).flatMap fun k =>
        [(BitVec.ofNat 64 ((NetRec.mk netRec).field 63 0 + ((NetRec.mk netRec).weightsAt k).1), ((NetRec.mk netRec).weightsAt k).2),
          (BitVec.ofNat 64 ((NetRec.mk netRec).field 127 64 + ((NetRec.mk netRec).biasAt k).1), ((NetRec.mk netRec).biasAt k).2)]) = .ok gss ∧
      (tiled netRec (tile0 true false false)).agentPrep tongsWho gss.flatten [] = none :=
  ⟨⟨by decide, _, rfl, by decide +kernel, by decide +kernel⟩, by decide +kernel, _, rfl, by decide +kernel⟩
def twoBlocks : State := { demo with warps := [demoWarp, { demoWarp with id := 1, block := 1 }] }
theorem witness_NetworkTilesRun_strangers : inWindow (Config.windowBase + 0x100) = true ∧
    twoBlocks.strangers { tile0 true false false with rows := [nnRow, { nnRow with warp := 1 }] } 0 ≠ [] := by decide +kernel
/-- A warp whose `nnev` waits for its tile. -/
def tongsW : Warp := { demoWarp with longs := [{ longOp none with left := (List.range 4).map fun i => (i, 0) }] }
theorem witness_NetworkTilesRun_traps : (0, 3, 0) ∈ (tile0 true false false).owners ∧ (∀ z ∈ (tile0 true false false).owners, z.1 = 0 → z = (0, 3, 0)) ∧
    (demoW tongsW).warp? 0 = some tongsW ∧ tongsW.settled = true ∧ tongsW.owing [0, 1, 2, 3] = false ∧ tongsW.regs.trap.masked = false ∧
    tongsW.regs.trap.tba ≠ 0 ∧ ((List.range 4).map fun i => ((tongsW.lane i).populated, (tongsW.lane i).exited)) = List.replicate 4 (true, false) :=
  ⟨by decide, by decide, rfl, by decide +kernel⟩
/-- A tile step that is to be granted, one granted with its stream running, between a row read and its write, and at its end; a slot that is sound; a
buffered region of one page at 512 GiB, whose descriptor lies at 64. -/
def opState (o : AnvilOp) (next : Nat) : State := { holding 0 with
  quads := { (holding 0).quads with ops := [o] }, blocks := [{ demoBlock with stream := some { demoX with run := true, next := next } }] }
def granted0 (k : AnvilKind) : AnvilOp := { anvilOp k with granted := true }
def shape0 : TileShape := .ofRec tileRec
def regionVa : W64 := 0x8000000000
def regionDesc : Nat := 0x8000000000 * 2 ^ 64 + 2 ^ 128 + 0x6000000 * 2 ^ 192 + 0x6001000 * 2 ^ 256
def buffered (s : State) : State := { s with mem := (s.mem.write 0x101008 (leBytes 8 (0xDF + 2 ^ 8 + 2 ^ 54))).write 64 (leBytes 64 regionDesc) }
/-- A read or a reach that succeeds with a property. -/
def okWith {ε α : Type} (x : Except ε α) (p : α → Bool) : Bool := match x with | .ok v => p v | .error _ => false
theorem okWith_some {ε α : Type} {x : Except ε α} {p : α → Bool} (h : okWith x p = true) : ∃ v, x = .ok v ∧ p v = true := by
  cases x with
  | ok v => exact ⟨v, rfl, h⟩
  | error _ => cases h
theorem someOf_one {α : Type} (s : State) (x : α) : s.someOf [x] = ([x], []) := by simp [State.someOf, Nat.mod_one]
theorem witness_MatrixAndRayWorkRuns : ((opState (anvilOp .mzero) 0).quads.ops.find? fun p => p.id == 0) = some (anvilOp .mzero) ∧
    (opState (anvilOp .mzero) 0).anvilChoice 0 = some (anvilOp .mzero) ∧ (granted0 .mzero).granted = true ∧
    (opState (granted0 .mzero) 0).agentBusy (.anvil 0) = false := by decide +kernel
theorem witness_MatrixAndRayWorkRuns_places : (opState (anvilOp .mzero) 0).block? 0 = some { demoBlock with stream := some { demoX with run := true, next := 0 } } ∧
    (opState (granted0 .mzero) 0).launch? 0 = some demoLaunch ∧ ∃ b, (opState (granted0 .mzero) 0).anyBlock? 0 = some b ∧ b.id = 0 := ⟨rfl, rfl, _, rfl, rfl⟩
theorem witness_MatrixAndRayWorkRuns_row : let o := granted0 (.mmac 0x1000 tileRec)
    let s := opState o 0
    (∃ gs, s.reachRead (o.who demoBlock demoLaunch) ((shape0.ranges none).a 0).1 ((shape0.ranges none).a 0).2 = .ok gs ∧
      s.agentPrep (o.who demoBlock demoLaunch) gs [] = none) ∧ s.slotError o 0 (4 * shape0.n) = none := ⟨⟨_, rfl, by decide +kernel⟩, by decide +kernel⟩
theorem witness_MatrixAndRayWorkRuns_write : let o := { granted0 (.mmac 0x1000 tileRec) with unwritten := some [1] }
    (∀ n, ∃ b x, (opState o n).anyBlock? 0 = some b ∧ b.stream = some x ∧ x.next = n ∧ x.exited = false) ∧ o.block = 0 ∧
    0 + 1 < shape0.m ∧ shape0.m ≤ 7 + 1 ∧ shape0.m ≤ 8 ∧ (granted0 (.mmac 0x1000 tileRec)).unwritten = none :=
  ⟨fun _ => ⟨_, _, rfl, rfl, rfl, rfl⟩, by decide +kernel⟩
/-- A window of one granule: the numbers of row 0 and columns 0 to 3 in .f32. -/
def oneGranule : W64 := BitVec.ofNat 64 (4 * 2 ^ 16 + 1)
def readOp (dm : Nat) (ps : Option (List SlotPart)) : AnvilOp := { granted0 (.mread 0x3000 0 oneGranule 0xF dm 0 false) with parts := ps }
def part0 (xs : Option (List Byte)) : SlotPart := ⟨0, 0, 4, xs⟩
theorem witness_MatrixAndRayWorkRuns_readout : let s := buffered (opState (readOp 1 none) 0)
    let who := (readOp 1 none).who demoBlock demoLaunch
    (∃ gs, s.reachDest who 1 (windowRows 0x3000 0 oneGranule 0xF) = .ok gs ∧ (oneRegion gs == none) = true) ∧
    (∃ gs, s.reachDest who 1 (windowRows regionVa 0 oneGranule 0xF) = .ok gs ∧ (oneRegion gs == some 64) = true) ∧ s.unacked 0 = false :=
  ⟨okWith_some (by decide +kernel), okWith_some (by decide +kernel), by decide +kernel⟩
theorem witness_MatrixAndRayWorkRuns_part : let s := buffered (opState (readOp 1 (some [part0 none])) 0)
    let who := (readOp 1 none).who demoBlock demoLaunch
    (∃ gs, s.reachDest who 1 ((s.someOf [part0 none]).1.map fun _ => (regionVa, 16)) = .ok gs ∧
      (gs.all (fun g => g.buf.isSome) && (s.agentPrep who [] gs).isNone && (s.pageError gs).isNone) = true) ∧
      ∀ p ∈ (s.someOf [part0 none]).1, s.slotError (readOp 1 none) p.row 512 = none := by
  simp only [someOf_one]
  exact ⟨okWith_some (by decide +kernel), by decide +kernel⟩
theorem witness_MatrixAndRayWorkRuns_load : let s := opState (readOp 0 none) 0
    let who := (readOp 0 none).who demoBlock demoLaunch
    ∃ gss, s.reachAll who (((s.someOf [part0 none]).1.filter fun p => p.xs.isNone).map fun _ => (0x3000, 16)) = .ok gss ∧
      (s.agentPrep who gss.flatten []).isNone = true := by
  simp only [someOf_one]
  exact okWith_some (p := fun gss : List (List Seg) => (State.agentPrep _ _ gss.flatten []).isNone) (by decide +kernel)
theorem witness_MatrixAndRayWorkRuns_layers : ((tiled 0 { tile0 true true false with layers := 2 }).quads.tiles.find? fun t => t.id == 6) =
    some { tile0 true true false with layers := 2 } ∧ (1 : Nat) < 2 ∧ (2 : Nat) ≤ 2 ∧ (RMode.ofCode 0).isSome ∧ RMode.ofCode 0 ≠ some .rs := by decide +kernel
/-- Requests of each kind, void and not, with a candidate and without. -/
def candQ : RayQuery := { RayQuery.empty with state := .cand }
theorem witness_MatrixAndRayWorkRuns_rays : ({ demo with rays := [rayReq0 .trace] } : State).rays.find? (fun x => x.warp == 0 && x.lane == 0) = some (rayReq0 .trace) ∧
    demo.agentBusy (.ray 0 0) = false ∧ (∀ x ∈ demo.remotes, x.lane = 65 → x.warp ≠ 0) ∧ rayVoid (rayReq0 .trace).ray = false ∧
    rayVoid (List.replicate 8 0) = true ∧ candQ.state = .cand ∧ (demoWarp.lane 0).query.state ≠ .cand ∧ bits candQ.ctl.toNat 11 11 ≠ 1 ∧
    bits ({ candQ with ctl := 0x800 } : RayQuery).ctl.toNat 11 11 = 1 ∧ RayQuery.empty.items = [] := by decide +kernel
/-- Commands of 16 bytes from 0x2000 to 0x3000, with a record at 0x4000 and without, cancelled, with an index list; one with a block that is stale a third
time. -/
def cmd0 (op : EngOp) (n : Nat) : EngCmd :=
  ⟨7, op, 0, 0, 0, 0, 0, codeBase, 0x3000, 0x2000, BitVec.ofNat 64 n, none, 1, 0, false, 0, 0, none, none, [], (0, 0), 0, 0, 0, 0, 0, none⟩
def engS (c : EngCmd) : State := { demo with engines := [c] }
theorem cmd_free (c : EngCmd) (h1 : (engS c).engines.find? (fun x => x.id == c.id) = some c) (h2 : (engS c).launch? c.launch = some demoLaunch)
    (h3 : ({ engS c with arg := .id c.id } : State).cmdHeld c demoLaunch = false) : CmdFree { engS c with arg := .id c.id } c demoLaunch :=
  ⟨rfl, h1, h2, rfl, h3⟩
def stale : State := { demo with mem := demo.mem.write 0x2000 (leBytes 16 (5 * 2 ^ 8 + 2 ^ 24)) }
def staleCmd : EngCmd := { cmd0 .copy 128 with unz := true, left := some [⟨0, 0x2000, 0x3000⟩], stale := (0x2000, 2) }
theorem witness_EngineCommandsRun : CmdFree { engS (cmd0 .fill 0) with arg := .id 7 } (cmd0 .fill 0) demoLaunch ∧ (cmd0 .fill 0).stat ≠ 6 ∧ (cmd0 .fill 0).recAddr = none ∧
    (cmd0 .fill 0).pub = none ∧ (cmd0 .fill 0).phase = 0 ∧
    (∃ t, ({ engS (cmd0 .fill 16) with arg := .id 7 } : State).engData (cmd0 .fill 16) demoLaunch = .wait t) ∧
    (∃ u fin, ({ engS (cmd0 .fill 0) with arg := .id 7 } : State).engData (cmd0 .fill 0) demoLaunch = .ok u fin ∧ u.unacked 7 = false) ∧
    CmdFree { engS { cmd0 .fill 0 with stat := 6 } with arg := .id 7 } { cmd0 .fill 0 with stat := 6 } demoLaunch ∧ (engS (cmd0 .fill 0)).unacked 7 = false :=
  ⟨cmd_free _ (by decide) rfl (by decide), by decide, rfl, rfl, rfl, ⟨_, rfl⟩, ⟨_, _, rfl, rfl⟩, cmd_free _ (by decide) rfl (by decide), by decide⟩
theorem witness_EngineCommandsRun_record : ∃ ws, (engS (cmd0 .fill 0)).reachDest ((cmd0 .fill 0).who demoLaunch) 0 [(0x4000, 16)] = .ok ws ∧
    (((engS (cmd0 .fill 0)).agentPrep ((cmd0 .fill 0).who demoLaunch) [] ws).isNone && ws.all fun g => match g.loc with | .pa a => !isFabric a | _ => true) = true :=
  okWith_some (by decide +kernel)
theorem witness_EngineCommandsRun_fails : stale.engData staleCmd demoLaunch = .fail 9 0 (some (0xB, 0, 0x2000)) ∧ staleCmd.op ≠ .pub ∧
    stale.warp? 0 = some demoWarp ∧ demoWarp.live ≠ [] ∧ (0x2000 : W64).toNat = staleCmd.stale.1 ∧ (0 : Nat) ≠ (0x2000 : W64).toNat := by
  refine ⟨?_, by decide, rfl, by decide, by decide, by decide⟩
  rfl
/-- A scatter whose element has no home; sources that are plain; an index list in memory; a shadow destination in a region and outside. -/
def scat (a : W64) : EngCmd := { cmd0 .scatter 1 with list := some [(0x2000, a)] }
theorem witness_EngineCommandsRun_begin : (cmd0 .copy 16).left = none ∧ (cmd0 .copy 16).c.toNat ≠ 0 ∧
    demo.scatterCheck ((scat 0x3000).who demoLaunch) (scat 0x3000) [(0x2000, 0x3000)] = none ∧
    demo.scatterCheck ((scat 0).who demoLaunch) (scat 0x0100000000000000) [(0x2000, 0x0100000000000000)] = some (0x0100000000000000, .bad) ∧
    (∃ t es, demo.readList ((cmd0 .gather 1).who demoLaunch) { cmd0 .gather 1 with c := 0x2000, imm := 1 } = .ok t es) ∧
    (∃ ws, (buffered demo).reachDest ((cmd0 .copy 16).who demoLaunch) 1 [(regionVa, 16)] = .ok ws ∧ (oneRegion ws).isSome = true) ∧
    (∃ ws, (buffered demo).reachDest ((cmd0 .copy 16).who demoLaunch) 1 [(0x3000, 16)] = .ok ws ∧ (oneRegion ws).isNone = true) :=
  ⟨rfl, by decide, by decide +kernel, rfl, ⟨_, _, rfl⟩, okWith_some (by decide +kernel), okWith_some (by decide +kernel)⟩
theorem witness_EngineCommandsRun_move : let gs : List Granule := [⟨0, 0x2000, 0x3000⟩]
    let who := (cmd0 .copy 16).who demoLaunch
    (∃ gss, demo.reachAll who ((demo.someOf gs).1.map fun g => (g.src, 16)) = .ok gss ∧ (demo.agentPrep who gss.flatten []).isNone = true) ∧
    (∃ ws, demo.reachDest who 0 ((demo.someOf gs).1.map fun g => (g.dst, 16)) = .ok ws ∧ ((demo.pageError ws).isNone && (demo.agentPrep who [] ws).isNone) = true) := by
  simp only [someOf_one]
  exact ⟨okWith_some (p := fun gss : List (List Seg) => (State.agentPrep _ _ gss.flatten []).isNone) (by decide +kernel), okWith_some (by decide +kernel)⟩
theorem witness_EngineCommandsRun_shadow (a : W64) (ha : a = regionVa ∨ a = 0x3000) : let gs : List Granule := [⟨0, 0, a⟩]
    ∃ ws, (buffered demo).reachDest ((cmd0 .fill 16).who demoLaunch) 1 (((buffered demo).someOf gs).1.map fun g => (g.dst, 16)) = .ok ws ∧
      (ws.all (fun g => g.buf.isSome == (a == regionVa)) && ((buffered demo).pageError ws).isNone &&
        ((buffered demo).agentPrep ((cmd0 .fill 16).who demoLaunch) [] ws).isNone) = true := by
  simp only [someOf_one]
  rcases ha with h | h <;> subst h <;> exact okWith_some (by decide +kernel)
/-- A publish of the region whose descriptor lies at 64: alone, behind a shadow command, behind a publish, of a spoiled region. -/
def pubCmd : EngCmd := { cmd0 .pub 0 with a := 64, sentAt := 5 }
def pubS (cs : List EngCmd) : State := { buffered demo with engines := pubCmd :: cs }
theorem witness_EngineCommandsRun_publish : (∃ gs, (pubS []).reachRead (pubCmd.who demoLaunch) 64 64 = .ok gs ∧
      (match gs with | [g] => g.loc == .pa 64 && !g.io && ((pubS []).agentPrep (pubCmd.who demoLaunch) [g] []).isNone | _ => false) = true) ∧
    isHbm 64 = true ∧ (pubS []).shadowBefore 64 5 = false ∧ (pubS []).pubBefore 64 5 = false ∧
    (pubS [{ cmd0 .fill 16 with id := 8, a := regionVa, dm := 1 }]).shadowBefore 64 5 = true ∧ (pubS [{ pubCmd with id := 8, sentAt := 4 }]).pubBefore 64 5 = true ∧
    ((pubS []).region 64).spoil = none ∧ (({ pubS [] with regions := [⟨64, [], some 2⟩] } : State).region 64).spoil = some 2 :=
  ⟨okWith_some (by decide +kernel), by decide +kernel⟩
theorem witness_EngineCommandsRun_swap : let s := pubS []
    let k := s.copies 64
    let xs := s.carried 64 k.pages
    (k.runs k.front xs ++ k.runs k.shadow xs).all (s.copyOk demoLaunch) = true ∧ s.errorIn (k.runs k.front xs) = none ∧
    s.agentPrep (pubCmd.who demoLaunch) (k.runs k.front xs) (⟨0, 8, .pa 64, false, none, none, none, []⟩ :: k.runs k.shadow xs) = none ∧
    64 + 8 ≤ k.shadow ∧ s.mem.wf = true := by decide +kernel
/-- A checkpoint's target: 1 TiB of host memory, mapped from 512 GiB on. -/
def ckptS : State := { demo with mem := (demo.mem.write 0x101008 (leBytes 8 (0xDF + 2 ^ 48))).write 0x101010 (leBytes 8 (0xDF + 2 ^ 48 + 2 ^ 37)) }
def ckptCmd : EngCmd := { cmd0 .mckpt imageBytes with a := regionVa }
theorem mapM_ok {ε α β : Type} (f : α → Except ε β) (q : β → Prop) : ∀ xs : List α, (∀ x ∈ xs, ∃ y, f x = .ok y ∧ q y) → ∃ ys, xs.mapM f = .ok ys ∧ ∀ y ∈ ys, q y
  | [], _ => ⟨[], rfl, by simp⟩
  | x :: xs, h => by
    obtain ⟨y, hy, qy⟩ := h x (by simp)
    obtain ⟨ys, hys, qs⟩ := mapM_ok f q xs fun z hz => h z (by simp [hz])
    exact ⟨y :: ys, by simp [List.mapM_cons, hy, hys]; rfl, by simpa using ⟨qy, qs⟩⟩
theorem runsOf_inside : ∀ (fuel : Nat) (va : W64) (n : Nat), va.toNat + n ≤ 2 ^ 64 → ∀ r ∈ runsOf fuel va n, va.toNat ≤ r.1.toNat ∧ r.1.toNat < va.toNat + n
  | 0, _, _, _, r, h => by simp [runsOf] at h
  | fuel + 1, va, n, hn, r, h => by
    simp only [runsOf] at h
    split at h
    · simp at h
    · rename_i h0
      rcases List.mem_cons.1 h with rfl | h
      · exact ⟨Nat.le_refl _, by simp; omega⟩
      · have hk : min n (4096 - va.toNat % 4096) ≤ n := Nat.min_le_left _ _
        generalize min n (4096 - va.toNat % 4096) = k at h hk
        have hv := va.isLt
        by_cases hkn : k = n
        · subst hkn
          cases fuel with
          | zero => simp [runsOf] at h
          | succ f => simp [runsOf] at h
        have ha : (va + BitVec.ofNat 64 k).toNat = va.toNat + k := by
          rw [BitVec.toNat_add, BitVec.toNat_ofNat, Nat.mod_eq_of_lt (a := k) (by omega), Nat.mod_eq_of_lt (by omega)]
        have := runsOf_inside fuel _ (n - k) (by omega) r h
        omega
theorem ckpt_walk (va : W64) (k : Nat) (hk : k = 1 ∨ k = 2) (h : va.toNat / 2 ^ 39 = k) :
    ckptS.walk 0 va = .ok ⟨2 ^ 38 + (k - 1) * 2 ^ 27 + va.toNat / 4096 % 2 ^ 27, 0xDF, false, none, some (0x101000 + k * 8), [0x100000, 0x101000 + k * 8]⟩ := by
  have e1 : va.toNat / 2 ^ (12 + 9 * 4) % 512 = 0 := by omega
  have e2 : va.toNat / 2 ^ (12 + 9 * 3) % 512 = k := by rcases hk with rfl | rfl <;> omega
  have c : ctxMode (ckptS.pasidEntry 0) = 1 ∧ ctxRoot (ckptS.pasidEntry 0) * 4096 = 0x100000 := by decide +kernel
  have n1 : ckptS.numPa 0x100000 8 = 0x101 * 1024 + 1 ∧ ckptS.numPa 0x101008 8 = 0xDF + 2 ^ 48 ∧ ckptS.numPa 0x101010 8 = 0xDF + 2 ^ 48 + 2 ^ 37 := by decide +kernel
  have b : ∀ a, ckptS.errorAt (.pa a) 8 = none := fun a => rfl
  unfold State.walk
  simp only [c, true_or, if_true, beq_self_eq_true]
  rw [State.walkFrom]
  simp only [e1, b, n1, Nat.zero_mul, Nat.add_zero]
  rw [show (0x101 * 1024 + 1) % 2 = 1 from rfl]
  have m1 : bits (0x101 * 1024 + 1) 3 1 = 0 ∧ bits (0x101 * 1024 + 1) 53 10 = 0x101 := by decide
  simp only [m1]
  rw [if_neg (by decide)]
  simp only [bne_self_eq_false, Bool.false_eq_true, if_false]
  rw [if_neg (by decide), State.walkFrom]
  simp only [e2, b]
  rcases hk with rfl | rfl
  · rw [show (0x101 * 4096 + 1 * 8) = 0x101008 from rfl]
    simp only [n1]
    rw [if_neg (by decide)]
    simp only [show (bits (0xDF + 2 ^ 48) 3 1 != 0) = true from by decide, if_true]
    rw [if_neg (by decide), show bits (0xDF + 2 ^ 48) 53 10 = 2 ^ 38 from by decide, show bits (0xDF + 2 ^ 48) 62 61 = 0 from by decide,
      show bits (0xDF + 2 ^ 48) 8 8 = 0 from by decide]
    rfl
  · rw [show (0x101 * 4096 + 2 * 8) = 0x101010 from rfl]
    simp only [n1]
    rw [if_neg (by decide)]
    simp only [show (bits (0xDF + 2 ^ 48 + 2 ^ 37) 3 1 != 0) = true from by decide, if_true]
    rw [if_neg (by decide), show bits (0xDF + 2 ^ 48 + 2 ^ 37) 53 10 = 2 ^ 38 + 2 ^ 27 from by decide, show bits (0xDF + 2 ^ 48 + 2 ^ 37) 62 61 = 0 from by decide,
      show bits (0xDF + 2 ^ 48 + 2 ^ 37) 8 8 = 0 from by decide]
    rfl
theorem host_pa (p o : Nat) (h : 2 ^ 38 ≤ p) (h2 : p < 2 ^ 39) (ho : o < 4096) :
    isHost (p * 4096 + o) = true ∧ isFabric (p * 4096 + o) = false ∧ isHbm (p * 4096 + o) = false := by
  have e1 : (p * 4096 + o) / 2 ^ 50 = 1 := by omega
  have e2 : (p * 4096 + o) / 2 ^ 51 = 0 := by omega
  refine ⟨by simp only [isHost, bits, e1]; decide, by simp only [isFabric, bits, e2]; decide, decide_eq_false ?_⟩
  have : Config.hbmBytes = 2 ^ 39 := rfl
  omega
theorem host_place (va : W64) (f : Leaf) (h : 2 ^ 38 ≤ f.ppage) (h2 : f.ppage < 2 ^ 39) (hb : f.buf = none) :
    ∃ m, ckptS.place .write va false 0 f = .ok m ∧ isHost m.pa = true ∧ isHbm m.pa = false ∧ m.buf = none := by
  obtain ⟨p1, p2, p3⟩ := host_pa f.ppage (va.toNat % 4096) h h2 (by omega)
  simp [State.place, State.populated, hb, p1, p2, p3]
theorem host_xlate (va : W64) (f : Leaf) (hw : ckptS.walk 0 va = .ok f) (h : 2 ^ 38 ≤ f.ppage) (h2 : f.ppage < 2 ^ 39) (hb : f.buf = none)
    (hpf : f.perm = 0xDF) : ∃ m, ckptS.xlate demoLaunch .write true false va = .ok m ∧ isHost m.pa = true := by
  obtain ⟨m, h1, h2, h3, h4⟩ := host_place va f h h2 hb
  have hm : ctxMode (ckptS.pasidEntry 0) = 1 := by decide +kernel
  have hl : demoLaunch.leaseAcc (va.toNat / 4096) = none := rfl
  have hp : permitted demoLaunch.hdr.privileged .write 0xDF = true := by decide
  have hh : ckptS.held 0 va = none := rfl
  have hleaf : ckptS.leaf 0 demoLaunch.hdr.privileged .write va = .ok f := by
    unfold State.leaf
    simp only [hm, hw, hh, hpf, hp, if_true]
    rw [if_neg (by decide)]
  refine ⟨m, ?_, h2⟩
  unfold State.xlate
  simp only [hl, show demoLaunch.hdr.pasid = 0 from rfl, show demoLaunch.hdr.strict = false from rfl, hleaf, h1, State.keyed, State.keyOk, h3, h4]
  simp
theorem ckpt_xlate (va : W64) (h : 2 ^ 39 ≤ va.toNat) (h2 : va.toNat < 3 * 2 ^ 39) :
    ∃ m, ckptS.xlate demoLaunch .write true false va = .ok m ∧ isHost m.pa = true := by
  have hw := ckpt_walk va (va.toNat / 2 ^ 39) (by omega) rfl
  exact host_xlate va _ hw (by simp; omega) (by simp; omega) rfl rfl
theorem reachDest_one (s : State) (w : Who) (dm n : Nat) (va : W64) (gs : List Seg) (h : s.reach w .write (dm == 1) va n = .ok gs)
    (hg : ∀ g ∈ gs, ∃ a, g.loc = .pa a) : s.reachDest w dm [(va, n)] = .ok gs := by
  have e : ([(va, n)].mapM fun r : W64 × Nat => s.reach w .write (dm == 1) r.1 r.2) = .ok [gs] := by
    simp [List.mapM_cons, h]
  unfold State.reachDest
  rw [e]
  simp only [List.flatten_cons, List.flatten_nil, List.append_nil]
  split
  · rename_i x hx
    obtain ⟨a, ha⟩ := hg x (List.mem_of_find?_eq_some hx)
    have hp := List.find?_some hx
    simp [ha] at hp
  · rfl
theorem ckpt_reach : ∃ ws, ckptS.reachDest (ckptCmd.who demoLaunch) 0 [(ckptCmd.a, imageBytes)] = .ok ws ∧ ∀ g ∈ ws, ∃ a, g.loc = .pa a ∧ isHost a = true := by
  have hr : ∃ gs, ckptS.reach (ckptCmd.who demoLaunch) .write false ckptCmd.a imageBytes = .ok gs ∧ ∀ g ∈ gs, ∃ a, g.loc = .pa a ∧ isHost a = true := by
    refine mapM_ok _ _ _ fun r hin => ?_
    have hb := runsOf_inside _ _ _ (by decide) r hin
    have hv : 2 ^ 39 ≤ r.1.toNat ∧ r.1.toNat < 3 * 2 ^ 39 := by
      have : ckptCmd.a.toNat = 2 ^ 39 := by decide
      have : imageBytes ≤ 2 ^ 40 := by decide
      omega
    obtain ⟨m, hx, hh⟩ := ckpt_xlate r.1 hv.1 hv.2
    have hc : canonical r.1 = true := by
      simp only [canonical, beq_iff_eq]
      apply BitVec.eq_of_toNat_eq
      rw [BitVec.toNat_signExtend, BitVec.msb_eq_decide, BitVec.toNat_setWidth, BitVec.toNat_setWidth, decide_eq_false (by omega)]
      simp
      omega
    have hw : inWindow r.1 = false := by
      simp only [inWindow, beq_eq_false_iff_ne, ne_eq]
      intro he
      have := congrArg BitVec.toNat he
      simp [BitVec.extractLsb'_toNat, Nat.shiftRight_eq_div_pow] at this
      omega
    refine ⟨m.seg r.1 r.2, ?_, m.pa, rfl, hh⟩
    simp only [State.stepWindow, State.stepXlate, hc, hw, Bool.not_true, Bool.false_eq_true, if_false, reduceCtorEq]
    rw [show (ckptCmd.who demoLaunch).launch = demoLaunch from rfl, hx]
  obtain ⟨gs, h, hg⟩ := hr
  exact ⟨gs, reachDest_one _ _ _ _ _ _ h fun g hin => (hg g hin).imp fun _ => And.left, hg⟩
theorem witness_EngineCommandsRun_checkpoint : ckptCmd.op = .mckpt ∧ ckptCmd.left = none ∧ imageBytes ≤ ckptCmd.c.toNat ∧ ckptS.checkpointing = none ∧
    ({ ckptS with checkpointing := some 3 } : State).checkpointing ≠ none ∧ ckptS.errorAt (.pa 0) Config.hbmBytes = none ∧
    ∃ ws, ckptS.reachDest (ckptCmd.who demoLaunch) 0 [(ckptCmd.a, imageBytes)] = .ok ws ∧ ∀ g ∈ ws, ∃ a, g.loc = .pa a ∧ isHost a = true :=
  ⟨rfl, rfl, by decide, rfl, by decide, rfl, ckpt_reach⟩
/-- A sum over packages 0 and 1 of 32 numbers: its descriptor, its ranks, its state at rank 0; messages of every kind for it. -/
def collDesc (dbase : Nat) : Nat := 0xA000 + dbase * 2 ^ 64 + 0x8100 * 2 ^ 128 + 5 * 2 ^ 192 + 32 * 2 ^ 224 + 1 * 2 ^ 264 + 2 ^ 288
def collCmd : EngCmd := { cmd0 .callred 0 with a := 0x8000 }
def collS (d : Nat) : State := { routed1 with engines := [collCmd], mem := (routed1.mem.write 0x8000 (leBytes 64 d)).write 0x8100 [0, 1] }
def coll0 : Collective := (Collective.ofDesc collCmd (collDesc 0xB000) [0, 1]).load (List.replicate 128 0)
theorem witness_CollectivesRun : (collS 0).engines.find? EngCmd.collective = some collCmd ∧ (collS 0).agentBusy (.crucible 7) = false ∧
    descBad .callred 0 = true ∧ descBad .callred (collDesc 0xB000) = false ∧
    (collS 0).ranksBad coll0 = false ∧ (collS 0).ranksBad (Collective.ofDesc collCmd (collDesc 0xB000) [0, 0]) = true ∧ (collS 0).coll? coll0.tag = none ∧
    rangesMeet coll0.sbase coll0.dbase coll0.size = false ∧ rangesMeet coll0.sbase 0xA010 coll0.size = true ∧ (collS 0).crucible.colls.length < Config.collectives := by
  decide +kernel
theorem witness_CollectivesRun_reads : (collS 0).launch? 0 = some demoLaunch ∧
    (∃ ds, (collS 0).reachRead (collCmd.collWho demoLaunch) 0x8000 64 = .ok ds ∧ ((collS 0).agentPrep (collCmd.collWho demoLaunch) ds []).isNone = true) ∧
    (∃ rs, (collS 0).reachRead (collCmd.collWho demoLaunch) 0x8100 2 = .ok rs ∧ ((collS 0).agentPrep (collCmd.collWho demoLaunch) rs []).isNone = true) ∧
    (∃ ss, (collS 0).reachRead (collCmd.collWho demoLaunch) coll0.sbase coll0.size = .ok ss ∧ ((collS 0).agentPrep (collCmd.collWho demoLaunch) ss []).isNone = true) ∧
    ∃ x, coll0.steps[coll0.step]? = some x ∧ (decide (coll0.parts x.send ≠ []) && (coll0.parts x.recv).any fun i => (coll0.arrived i).isNone) = true :=
  ⟨rfl, okWith_some (p := fun ds => (State.agentPrep _ _ ds []).isNone) (by decide +kernel), okWith_some (p := fun ds => (State.agentPrep _ _ ds []).isNone) (by decide +kernel),
    okWith_some (p := fun ds => (State.agentPrep _ _ ds []).isNone) (by decide +kernel), _, rfl, by decide +kernel⟩
/-- The same with its destination in the shadow copy of a region; its own publish, one that waits, one that does not. -/
def collR : State := buffered (collS (collDesc 0x8000000000))
theorem witness_CollectivesRun_shadow : (∃ ws, collR.reachDest (collCmd.collWho demoLaunch) 1 [(regionVa, 128)] = .ok ws ∧ (oneRegion ws).isSome = true) ∧
    (∃ ws, collR.reachDest (collCmd.collWho demoLaunch) 1 [(0xB000, 128)] = .ok ws ∧ (oneRegion ws).isNone = true) ∧
    collR.regionAt demoLaunch regionVa = some 64 ∧ collR.pubBefore 64 0 = false ∧ rangesMeet coll0.sbase regionVa 128 = false :=
  ⟨okWith_some (by decide +kernel), okWith_some (by decide +kernel), by decide +kernel⟩
def swapCmd (st : Nat) : EngCmd := { collCmd with stat := st, pub := some (3, 64) }
def swapS (st : Nat) (cs : List EngCmd) : State := { collR with engines := swapCmd st :: cs, arg := .id 7 }
def endsOk (x : EngRes) (p : State → Bool) : Bool := match x with | .ok t _ => p t | _ => false
theorem endsOk_some {x : EngRes} {p : State → Bool} (h : endsOk x p = true) : ∃ u n, x = .ok u n ∧ p u = true := by
  cases x with
  | ok u n => exact ⟨u, n, rfl, h⟩
  | wait _ => cases h
  | fail _ _ _ => cases h
theorem witness_CollectivesRun_swap : CmdFree (swapS 1 []) (swapCmd 1) demoLaunch ∧ CmdFree (swapS 8 []) (swapCmd 8) demoLaunch ∧ (swapS 1 []).collWaits 64 3 = false ∧
    (swapS 1 [{ cmd0 .fill 16 with id := 8, a := regionVa, dm := 1 }]).collWaits 64 3 = true ∧ ((swapS 1 []).region 64).spoil = none ∧
    (({ swapS 1 [] with regions := [⟨64, [], some 2⟩] } : State).region 64).spoil = some 2 ∧ (swapCmd 1).recAddr = none ∧ (swapS 1 []).unacked 7 = false ∧
    ∃ u n, (swapS 1 []).publish ((swapCmd 1).who demoLaunch) 64 = .ok u n ∧ (!u.unacked 7) = true :=
  ⟨⟨rfl, by decide +kernel, rfl, by decide +kernel, by decide +kernel⟩, ⟨rfl, by decide +kernel, rfl, by decide +kernel, by decide +kernel⟩, by decide +kernel, by decide +kernel,
    by decide +kernel, by decide +kernel, rfl, by decide +kernel, endsOk_some (by decide +kernel)⟩
def inColl (k : Collective) : State := { collS 0 with crucible := ⟨[k], [⟨false, 1, k.header 0 0 0 0, [1]⟩], []⟩ }
def hdr0 (kind err : Nat) : BitVec 128 := coll0.header kind err 0 0
theorem witness_CollectivesRun_messages : hdrKind (hdr0 0 0) = 0 ∧ (collS 0).coll? (hdrTag (hdr0 0 0)) = none ∧ (collS 0).tableOf (hdrTag (hdr0 0 0)) = none ∧
    (({ collS 0 with crucible := ⟨[], [], [(hdrTag (hdr0 0 0), [0, 1])]⟩ } : State).tableOf (hdrTag (hdr0 0 0))).isSome = true ∧
    (inColl coll0).coll? (hdrTag (hdr0 0 0)) = some coll0 ∧ coll0.stat = none ∧ hdrCfg (hdr0 0 0) = coll0.cfg ∧ hdrCfg 0 ≠ coll0.cfg ∧ hdrErr (hdr0 0 0) ≠ 0x11 ∧
    coll0.stepNo ≤ hdrStep (hdr0 0 0) ∧ hdrStep (hdr0 0 0) < ({ coll0 with step := 1 } : Collective).stepNo ∧ coll0.early = [] ∧ hdrKind (hdr0 1 0) = 1 ∧
    (inColl coll0).otherCfg (hdr0 1 0) = none ∧ (inColl { coll0 with tag := coll0.tag, opm := coll0.opm + 1 }).otherCfg (hdr0 1 0) ≠ none ∧
    ((inColl coll0).crucible.kept.find? (fun y => y.answers (hdr0 1 0))).isSome = true ∧ hdrKind (hdr0 2 0x11) = 2 ∧
    hdrErr (hdr0 2 0x11) = 0x11 ∧ hdrKind (hdr0 3 0) = 3 := by decide +kernel
theorem witness_CollectivesRun_decoded : (inColl coll0).decodeMessage coll0 1 (leBytes 16 (5 * 2 ^ 8 + 2 ^ 24)) = .error .stale ∧
    (inColl coll0).decodeMessage coll0 1 (leBytes 16 0) = .error .mismatch ∧
    ∃ xs, (inColl coll0).decodeMessage coll0 1 ((inColl coll0).codeMessage coll0 1 (0, 32) 0) = .ok xs := ⟨rfl, rfl, _, rfl⟩
/-- All messages of a step there, none there with its rounds used up, and the end of the steps. -/
def collParts : List Nat := (coll0.steps.head?.map fun x => coll0.parts x.recv).getD []
theorem witness_CollectivesRun_ends : (let k := { coll0 with early := collParts.map fun i => ⟨coll0.image, 1, coll0.header 0 0 coll0.stepNo i, []⟩ }
      collParts.all fun i => (k.arrived i).isSome) = true ∧
    coll0.deadline ≤ (inColl coll0).clock ∧ coll0.requests < 3 ∧ coll0.cmd.id = 7 ∧ (inColl coll0).agentBusy (.crucible 7) = false ∧
    coll0.steps.length ≤ ({ coll0 with step := 9 } : Collective).step ∧ ((inColl coll0).crucible.colls.find? fun y => y.cmd.id == 7) = some coll0 := by decide +kernel
theorem witness_CollectivesRun_writes : ∃ ws, (inColl coll0).reachDest (collCmd.collWho demoLaunch) 0 (coll0.writes.map (·.1)) = .ok ws ∧
    (((inColl coll0).pageError ws).isNone && ((inColl coll0).agentPrep (collCmd.collWho demoLaunch) [] ws).isNone) = true := okWith_some (by decide +kernel)
/-- A coded block of 128 bytes as a source, for a region. -/
def codedS : State := { buffered demo with mem := (buffered demo).mem.write 0x2000 ((inColl coll0).codeMessage coll0 1 (0, 32) 0) }
theorem witness_EngineCommandsRun_coded : let who := (cmd0 .copy 128).who demoLaunch
    (∃ g1, codedS.reachRead who 0x2000 16 = .ok g1 ∧
      (let h := leNat (codedS.reachBytes who g1)
       (codedS.agentPrep who g1 []).isNone && blockGen h == (codedS.codec.slot 0 (blockSlot h)).1 && decide (bits h 31 24 ≤ 12) &&
        okWith (codedS.reachRead who 0x2010 (blockPayload h)) fun g2 => (codedS.agentPrep who g2 []).isNone &&
          (expandBlock (codedS.codec.slot 0 (blockSlot h)).2 h (codedS.reachBytes who g2)).any fun ys => ys.length == 128) = true) ∧
    ∃ ws, codedS.reachDest who 1 [(regionVa, 128)] = .ok ws ∧ (ws.all (fun g => g.buf.isSome) && (codedS.agentPrep who [] ws).isNone) = true :=
  ⟨okWith_some (by decide +kernel), okWith_some (by decide +kernel)⟩

end Sys2Proof.Tests
end

/-! PROOFS. The reset state, the passing of CLOCK, and the commit of register writes (family 01_machine_state.md). -/
namespace Sys2Proof.Machine

/-! ### The reset state -/

/-- Settles O4: each value stands in the reset state's definition, and memory with nothing listed reads 0 everywhere. -/
theorem resetState : Obligations.ResetState :=
  ⟨rfl, rfl, fun _ => rfl, rfl, rfl, rfl, rfl, rfl, rfl, rfl, rfl, rfl, rfl⟩

/-! ### The end of a step -/

@[simp] theorem State.tick_clock (s : State) (clock free : Nat) (event : Bool) :
    (s.tick clock free event).clock = clock + (1 + Config.freeNat (free * 2 ^ 80)) := rfl
@[simp] theorem State.tick_free (s : State) (clock free : Nat) (event : Bool) : (s.tick clock free event).free = free + 1 := rfl

/-- A step that answers a next state ends with a tick, and its CLOCK starts again from 0 only after a restart. -/
theorem endStep_next {clock free : Nat} {i : Option Instr} {o : Host.Outcome State Fault Refusal} {t : State}
    (h : endStep clock free i o = .next t) :
    ∃ s, o = .next s ∧ t = s.tick (if i.any restarts ∧ s.clock = 0 then 0 else clock) free (i.any wakes) := by
  cases o with
  | next s =>
    simp only [endStep, Host.Outcome.next.injEq] at h
    exact ⟨s, rfl, h.symm⟩
  | fault r => simp [endStep] at h
  | refused r => simp [endStep] at h

/-- What a step that answers a next state has done: it has made its move, or there was none to make, and then time has passed. -/
theorem step_next {s t : State} (h : step s = .next t) :
    (∃ i u, s.move = .run i u ∧ endStep s.clock s.free (some i) (afterMove s (some i) (exec i u)) = .next t) ∨
    ∃ u, s.move = .quiet u ∧ endStep s.clock s.free none (afterMove s none (.next u)) = .next t := by
  unfold step at h
  split at h
  · cases h
  · split at h
    next i u hm => exact .inl ⟨i, u, hm, h⟩
    next u hm => exact .inr ⟨u, hm, h⟩

/-- Without a restart, the end of a step adds at least one clk to the CLOCK before it and moves the free choices on by one. -/
theorem endStep_clock_free {clock free : Nat} {i : Option Instr} {o : Host.Outcome State Fault Refusal} {t : State}
    (hi : i.any restarts = false) (h : endStep clock free i o = .next t) : clock < t.clock ∧ t.free = free + 1 := by
  obtain ⟨s, -, rfl⟩ := endStep_next h
  simp only [hi, Bool.false_eq_true, false_and, if_false, State.tick_clock, State.tick_free, and_true]
  omega

/-- Settles O7: every step ends with a tick, which starts from the old CLOCK unless the move is a restart. -/
theorem clockRises : Obligations.ClockRises := by
  intro s t hmove hstep
  rcases step_next hstep with ⟨i, u, hm, h⟩ | ⟨u, -, h⟩
  · exact endStep_clock_free (i := some i) (hmove i u hm) h
  · exact endStep_clock_free rfl h

/-! ### The last of a list of writes -/

theorem lastV_cons (l k : Nat) (x : RegWrite) (xs : List RegWrite) : lastV l k (x :: xs) = (lastV l k xs).or (lastV l k [x]) := by
  cases h : lastV l k xs <;> cases x <;> simp [lastV, h]
theorem lastP_cons (l k : Nat) (x : RegWrite) (xs : List RegWrite) : lastP l k (x :: xs) = (lastP l k xs).or (lastP l k [x]) := by
  cases h : lastP l k xs <;> cases x <;> simp [lastP, h]
theorem lastU_cons (k : Nat) (x : RegWrite) (xs : List RegWrite) : lastU k (x :: xs) = (lastU k xs).or (lastU k [x]) := by
  cases h : lastU k xs <;> cases x <;> simp [lastU, h]
theorem lastBn_cons (k : Nat) (x : RegWrite) (xs : List RegWrite) : lastBn k (x :: xs) = (lastBn k xs).or (lastBn k [x]) := by
  cases h : lastBn k xs <;> cases x <;> simp [lastBn, h]

/-- The last-write rule: where each single write gives a register the value that it names for it and keeps the invariant `P`, a list of writes gives the
register the last value named for it. -/
theorem read_foldl_eq_last {σ β : Type} (f : σ → RegWrite → σ) (read : σ → β) (last : List RegWrite → Option β) (P : σ → Prop)
    (hnil : last [] = none) (hcons : ∀ x xs, last (x :: xs) = (last xs).or (last [x])) (ws : List RegWrite)
    (hstep : ∀ t, P t → ∀ x ∈ ws, read (f t x) = (last [x]).getD (read t) ∧ P (f t x)) (t : σ) (ht : P t) :
    read (ws.foldl f t) = (last ws).getD (read t) := by
  induction ws generalizing t with
  | nil => rw [hnil]; rfl
  | cons x ws ih =>
    obtain ⟨hread, hP⟩ := hstep t ht x (by simp)
    rw [List.foldl_cons, ih (fun t ht y hy => hstep t ht y (by simp [hy])) _ hP, hread, hcons x ws, Option.getD_or]

theorem v_put_length (l : Nat) (t : Lane) (x : RegWrite) : (t.put l x).v.length = t.v.length := by
  cases x <;> simp only [Lane.put] <;> split <;> simp

/-- V(k) of lane `l` after a list of writes. -/
theorem v_puts {w : Warp} {ws : List RegWrite} (hws : ∀ x ∈ ws, x.fits w) (l k : Nat) :
    (ws.foldl (Lane.put l) (w.lane l)).v.getD k 0 = (lastV l k ws).getD (w.v l k) := by
  refine read_foldl_eq_last (Lane.put l) (fun t => t.v.getD k 0) (lastV l k) (fun t => t.v.length = (w.lane l).v.length) rfl (lastV_cons l k) ws
    (fun t ht x hx => ⟨?_, (v_put_length l t x).trans ht⟩) _ rfl
  have hfit := hws x hx
  cases x with
  | v l' n y =>
    by_cases hl : l' = l
    · subst hl
      have hn : n < t.v.length := ht ▸ hfit.2
      simp only [Lane.put, if_true, getD_set _ _ _ _ _ hn, lastV, true_and, eq_comm (a := n)]
      split <;> rfl
    · simp [Lane.put, lastV, hl]
  | p l' n y => by_cases hl : l' = l <;> simp [Lane.put, lastV, hl]
  | u | bn | fmt => rfl

/-- P(k) of lane `l` after a list of writes; p15 reads true (01 R17). -/
theorem p_puts (w : Warp) (ws : List RegWrite) (l k : Nat) :
    (k == 15 || (ws.foldl (Lane.put l) (w.lane l)).p.getLsbD k) = (lastP l k ws).getD (w.p l k) := by
  refine read_foldl_eq_last (Lane.put l) (fun t => k == 15 || t.p.getLsbD k) (lastP l k) (fun _ => True) rfl (lastP_cons l k) ws
    (fun t _ x _ => ⟨?_, trivial⟩) _ trivial
  cases x with
  | v l' n y => by_cases hl : l' = l <;> simp [Lane.put, lastP, hl]
  | p l' n y =>
    by_cases hl : l' = l
    · by_cases hk : n = k ∧ k < 15
      · obtain ⟨rfl, hn⟩ := hk
        have h15 : (n == 15) = false := beq_false_of_ne (Nat.ne_of_lt hn)
        simp only [Lane.put, lastP, hl, getLsbD_setPred, hn, h15, and_self, if_true, Bool.false_or, Option.getD_some]
      · have hk' : ¬(k = n ∧ n < 15) := by omega
        simp only [Lane.put, lastP, hl, getLsbD_setPred, hk, hk', true_and, if_true, if_false, Option.getD_none]
    · simp [Lane.put, lastP, hl]
  | u | bn | fmt => rfl

/-- S(k) after a list of writes. -/
theorem s_writes {w : Warp} {ws : List RegWrite} (hws : ∀ x ∈ ws, x.fits w) (k : Nat) :
    (w.regs.writes ws).s.getD k 0 = (lastU k ws).getD (w.s k) := by
  refine read_foldl_eq_last WarpRegs.write (fun r => r.s.getD k 0) (lastU k) (fun r => r.s.length = w.regs.s.length) rfl (lastU_cons k) ws
    (fun r hr x hx => ?_) _ rfl
  have hfit := hws x hx
  cases x with
  | u n y =>
    have hn : n < r.s.length := hr ▸ hfit
    refine ⟨?_, by simpa [WarpRegs.write] using hr⟩
    simp only [WarpRegs.write, getD_set _ _ _ _ _ hn, lastU, eq_comm (a := n)]
    split <;> rfl
  | v | p | bn | fmt => exact ⟨rfl, hr⟩

/-- bn(k) after a list of writes. -/
theorem bn_writes {w : Warp} {ws : List RegWrite} (hws : ∀ x ∈ ws, x.fits w) (k : Nat) :
    (w.regs.writes ws).bn.getD k 0 = (lastBn k ws).getD (w.bnr k) := by
  refine read_foldl_eq_last WarpRegs.write (fun r => r.bn.getD k 0) (lastBn k) (fun r => r.bn.length = w.regs.bn.length) rfl (lastBn_cons k) ws
    (fun r hr x hx => ?_) _ rfl
  have hfit := hws x hx
  cases x with
  | bn n y =>
    have hn : n < r.bn.length := hr ▸ hfit
    refine ⟨?_, by simpa [WarpRegs.write] using hr⟩
    simp only [WarpRegs.write, getD_set _ _ _ _ _ hn, lastBn, eq_comm (a := n)]
    split <;> rfl
  | v | p | u | fmt => exact ⟨rfl, hr⟩

/-! ### What a list of writes and the end of an instruction leave -/

theorem writes_trap (r : WarpRegs) (ws : List RegWrite) : (r.writes ws).trap = r.trap := by
  unfold WarpRegs.writes
  induction ws generalizing r with
  | nil => rfl
  | cons x ws ih => rw [List.foldl_cons, ih]; cases x <;> rfl

/-- Writes that fit a warp name no FMTWORD. -/
theorem writes_fmtword {w : Warp} (r : WarpRegs) {ws : List RegWrite} (hws : ∀ x ∈ ws, x.fits w) : (r.writes ws).fmtword = r.fmtword := by
  unfold WarpRegs.writes
  induction ws generalizing r with
  | nil => rfl
  | cons x ws ih =>
    rw [List.foldl_cons, ih _ fun y hy => hws y (by simp [hy])]
    have hfit := hws x (by simp)
    cases x with
    | fmt y => exact hfit.elim
    | v | p | u | bn => rfl

/-- The end of an instruction changes registers of lanes alone. -/
theorem regs_commit_advance (w : Warp) (i : Issue) (act : List Nat) (ws : List RegWrite) :
    ((w.commit ws).advance i act).regs = { w.regs.writes ws with lanes := ((w.commit ws).advance i act).regs.lanes } :=
  foldl_modLane_other act (w.regs.writes ws) _

theorem width_commit_advance (w : Warp) (i : Issue) (act : List Nat) (ws : List RegWrite) : ((w.commit ws).advance i act).width = w.width :=
  (length_foldl_modLane act (w.regs.writes ws) _).trans (length_writes w.regs ws)

theorem Warp.lane_of_width_le {w : Warp} {l : Nat} (h : w.width ≤ l) : w.lane l = Lane.none :=
  List.getD_eq_default _ _ h

/-- Writes that fit a warp name no lane past its width. -/
theorem puts_of_width_le {w : Warp} {ws : List RegWrite} (hws : ∀ x ∈ ws, x.fits w) {l : Nat} (hl : w.width ≤ l) (t : Lane) :
    ws.foldl (Lane.put l) t = t := by
  induction ws generalizing t with
  | nil => rfl
  | cons x ws ih =>
    have hfit := hws x (by simp)
    have hput : t.put l x = t := by
      cases x with
      | v l' n y => exact if_neg (by have := hfit.1; omega)
      | p l' n y => exact if_neg (by have : l' < w.width := hfit; omega)
      | u | bn | fmt => rfl
    rw [List.foldl_cons, hput, ih fun y hy => hws y (by simp [hy])]

/-- A thread that has moved past an instruction. -/
def Lane.past (i : Issue) (t : Lane) : Lane := { t with pc := t.pc + BitVec.ofNat 61 i.length, got := Option.none, plan := Option.none }

@[simp] theorem Lane.past_pc (i : Issue) (t : Lane) : (t.past i).pc = t.pc + BitVec.ofNat 61 i.length := rfl
@[simp] theorem Lane.past_rest (i : Issue) (t : Lane) : (t.past i).rest = t.rest := rfl

/-- Every lane, of the warp or past its width, after an instruction has committed writes that fit and moved on. -/
theorem lane_commit_advance_of_fits {w : Warp} (i : Issue) {act : List Nat} (hn : act.Nodup) (hact : ∀ l ∈ act, l < w.width)
    {ws : List RegWrite} (hws : ∀ x ∈ ws, x.fits w) (l : Nat) :
    ((w.commit ws).advance i act).lane l =
      if l ∈ act then (ws.foldl (Lane.put l) (w.lane l)).past i else ws.foldl (Lane.put l) (w.lane l) := by
  by_cases hl : l < w.width
  · exact lane_commit_advance w i act hn ws l hl
  · have hle := Nat.le_of_not_lt hl
    rw [if_neg fun h => hl (hact l h), puts_of_width_le hws hle, Warp.lane_of_width_le hle,
      Warp.lane_of_width_le (by rw [width_commit_advance]; exact hle)]

/-- The end of an instruction that commits any list of writes that fit its warp. -/
theorem wrote_commit_advance_last (w : Warp) (i : Issue) {act : List Nat} (hn : act.Nodup) (hact : ∀ l ∈ act, l < w.width)
    {ws : List RegWrite} (hws : ∀ x ∈ ws, x.fits w) :
    Wrote w ((w.commit ws).advance i act) i act
      (fun l k => (lastV l k ws).getD (w.v l k)) (fun l k => (lastP l k ws).getD (w.p l k))
      (fun k => (lastU k ws).getD (w.s k)) (fun k => (lastBn k ws).getD (w.bnr k)) := by
  have hlane := lane_commit_advance_of_fits i hn hact hws
  have hregs := regs_commit_advance w i act ws
  refine { v := fun l k => ?_, p := fun l k => ?_, u := fun k => ?_, bn := fun k => ?_, pc := fun l => ?_, thread := fun l => ?_,
           width := width_commit_advance w i act ws, trap := ?_, fmt := ?_, windows := rfl, spec := rfl, others := rfl }
  · rw [← v_puts hws, Warp.v, hlane]; split <;> rfl
  · rw [← p_puts, Warp.p, hlane]; split <;> rfl
  · rw [← s_writes hws, Warp.s, hregs]
  · rw [← bn_writes hws, Warp.bnr, hregs]
  · rw [hlane]; split <;> simp [puts_pc]
  · rw [hlane]; split <;> simp [puts_rest]
  · rw [hregs]; exact writes_trap w.regs ws
  · rw [hregs]; exact writes_fmtword w.regs hws

/-! ### Predicate p15 -/

theorem modifyNth_id {α : Type} (xs : List α) (n : Nat) : modifyNth xs n id = xs := by
  induction xs generalizing n with
  | nil => rfl
  | cons x xs ih => cases n <;> simp [modifyNth, ih]

/-- A write to p15 is discarded (01 R17). -/
theorem write_p15 (r : WarpRegs) (l : Nat) (x : Bool) : r.write (.p l 15 x) = r :=
  congrArg (fun lanes => { r with lanes := lanes }) (modifyNth_id r.lanes l)

/-- Settles O8: the last-write rule, register by register, and the frame of a commit; p15 is no stored bit. -/
theorem commitWritesRegisters : Obligations.CommitWritesRegisters := by
  refine ⟨fun w i act ws hn hact hws => wrote_commit_advance_last w i hn hact hws, fun _ _ => rfl, fun w l x => write_p15 w.regs l x, ?_⟩
  intro p k j x hk _
  rw [getLsbD_setPred]
  simp [hk]

end Sys2Proof.Machine

/-! PROOFS. The words of an instruction and its decoding (family 03_encoding_and_assembly.md). -/
namespace Sys2Proof

open Sys2Proof.Machine

/-! ### Fields of a word (03 R74 to R76)

A word is stated as `++` at its full width of 64; `HAppend.hAppend` unfolded and `BitVec.append_eq` give each `++` the width of its parts again, in which
the library states its lemmas on `extractLsb'`. -/

@[simp] theorem Guard.unpack_pack (g : Guard) : Guard.unpack g.pack = g := by
  dsimp only [Guard.pack, Guard.unpack, HAppend.hAppend]
  simp (disch := decide) only [BitVec.append_eq, BitVec.getLsbD_append, BitVec.extractLsb'_append_eq_of_add_le]
  simp [BitVec.extractLsb'_eq_self]

@[simp] theorem Guard.pack_unpack (x : BitVec 5) : (Guard.unpack x).pack = x := by
  decide +revert

@[simp] theorem Slot.unpack_pack (s : Slot) : Slot.unpack s.pack = s := by
  dsimp only [Slot.unpack, Slot.pack, HAppend.hAppend]
  simp (disch := decide) only [BitVec.append_eq, BitVec.extractLsb'_append_eq_of_add_le, BitVec.extractLsb'_append_eq_of_le]
  simp [BitVec.extractLsb'_eq_self]

@[simp] theorem Slot.pack_unpack (x : BitVec 31) : (Slot.unpack x).pack = x := by
  simp (disch := decide) only [Slot.unpack, Slot.pack, BitVec.extractLsb'_append_extractLsb'_eq_extractLsb']
  exact BitVec.extractLsb'_eq_self

theorem fields_packPair (p : Pair) : formatOf (packPair p) = 0 ∧ unpackPair (packPair p) = p := by
  dsimp only [formatOf, unpackPair, packPair, HAppend.hAppend]
  simp (disch := decide) only [BitVec.append_eq, BitVec.extractLsb'_append_eq_of_add_le, BitVec.extractLsb'_append_eq_of_le]
  simp [BitVec.extractLsb'_eq_self]

theorem fields_packStd (op : Nat) (w : Std) :
    formatOf (packStd op w) = 1 ∧ opcodeOf (packStd op w) = op % 512 ∧ unpackStd (packStd op w) = w := by
  dsimp only [formatOf, opcodeOf, unpackStd, packStd, HAppend.hAppend]
  simp (disch := decide) only [BitVec.append_eq, BitVec.extractLsb'_append_eq_of_add_le, BitVec.extractLsb'_append_eq_of_le]
  simp [BitVec.extractLsb'_eq_self]

theorem fields_packExt (op : Nat) (w : Ext) : formatOf (packExt op w).1 = 2 ∧ formatOf (packExt op w).2 = 3 ∧
    opcodeOf (packExt op w).1 = op % 512 ∧ unpackExt (packExt op w).1 (packExt op w).2 = w := by
  dsimp only [formatOf, opcodeOf, unpackExt, packExt, HAppend.hAppend]
  simp (disch := decide) only [BitVec.append_eq, BitVec.extractLsb'_append_eq_of_add_le, BitVec.extractLsb'_append_eq_of_le]
  simp [BitVec.extractLsb'_eq_self]

theorem packPair_unpackPair {x : W64} (h : formatOf x = 0) : packPair (unpackPair x) = x := by
  have hf : 0#2 = x.extractLsb' 62 2 := BitVec.eq_of_toNat_eq h.symm
  simp (disch := decide) only [packPair, unpackPair, hf, Slot.pack_unpack, BitVec.extractLsb'_append_extractLsb'_eq_extractLsb']
  exact BitVec.extractLsb'_eq_self

theorem packStd_unpackStd {x : W64} (h : formatOf x = 1) : packStd (opcodeOf x) (unpackStd x) = x := by
  have hf : 1#2 = x.extractLsb' 62 2 := BitVec.eq_of_toNat_eq h.symm
  simp (disch := decide) only [packStd, unpackStd, opcodeOf, hf, Guard.pack_unpack, BitVec.ofNat_toNat, BitVec.setWidth_eq,
    BitVec.extractLsb'_append_extractLsb'_eq_extractLsb']
  exact BitVec.extractLsb'_eq_self

theorem packExt_unpackExt {x y : W64} (hx : formatOf x = 2) (hy : formatOf y = 3) :
    packExt (opcodeOf x) (unpackExt x y) = (x, y) := by
  have hfx : 2#2 = x.extractLsb' 62 2 := BitVec.eq_of_toNat_eq hx.symm
  have hfy : 3#2 = y.extractLsb' 62 2 := BitVec.eq_of_toNat_eq hy.symm
  simp (disch := decide) only [packExt, unpackExt, opcodeOf, hfx, hfy, Guard.pack_unpack, BitVec.ofNat_toNat, BitVec.setWidth_eq,
    BitVec.extractLsb'_append_extractLsb'_eq_extractLsb']
  exact Prod.ext BitVec.extractLsb'_eq_self BitVec.extractLsb'_eq_self

/-! ### The structure of the words (03 R72, R73) -/

theorem readEnc_packPair (p : Pair) (y : W64) : readEnc (packPair p) y = .ok (.pair p) := by
  obtain ⟨hf, hp⟩ := fields_packPair p
  simp only [readEnc, hf, hp]

theorem readEnc_packStd {op : Nat} (h : op < 512) (w : Std) (y : W64) : readEnc (packStd op w) y = .ok (.std op w) := by
  obtain ⟨hf, hop, hw⟩ := fields_packStd op w
  simp only [readEnc, hf, hop, hw, Nat.mod_eq_of_lt h]

theorem readEnc_packExt {op : Nat} (h : op < 512) (w : Ext) : readEnc (packExt op w).1 (packExt op w).2 = .ok (.ext op w) := by
  obtain ⟨hx, hy, hop, hw⟩ := fields_packExt op w
  simp only [readEnc, hx, hy, if_true, hop, hw, Nat.mod_eq_of_lt h]

/-- An encoding that has been read has the words it was read from. -/
theorem words_of_readEnc {x y : W64} {e : Enc} (h : readEnc x y = .ok e) : e.words = if formatOf x = 2 then [x, y] else [x] := by
  unfold readEnc at h
  split at h
  next hx =>
    obtain rfl := Except.ok.inj h
    simp [Enc.words, packPair_unpackPair hx, hx]
  next hx =>
    obtain rfl := Except.ok.inj h
    simp [Enc.words, packStd_unpackStd hx, hx]
  next hx =>
    split at h
    next hy =>
      obtain rfl := Except.ok.inj h
      simp [Enc.words, packExt_unpackExt hx hy, hx]
    next => cases h
  next => cases h

/-! ### The opcode map, both ways (03 R99) -/

/-- The encoding of an instruction that names the form it carries stands for that instruction. -/
theorem instr_of_enc {i : Instr} {e : Enc} (hform : i.ownForm = true) (henc : i.enc = some e) : e.instr = some i := by
  cases i
  case braCond w | callCond w => cases w <;> cases henc <;> exact congrArg some (if_pos hform)
  case bra w | braExt w | call w | callExt w => cases henc; exact congrArg some (if_neg (by simpa [Instr.ownForm] using hform))
  case barInit w | barArrive w | barWait w | barSync w => cases henc; simp_all [Instr.ownForm, Enc.instr, stdInstr]
  all_goals (cases henc <;> rfl)

/-- The instruction of a standard word has that encoding; where rows share an opcode (`bra`, `call`, `bar`), the modifier has chosen the row. -/
theorem enc_of_stdInstr {op : Nat} {w : Std} {i : Instr} (h : stdInstr op w = some i) :
    i.enc = some (.std op w) ∧ i.ownForm = true := by
  unfold stdInstr at h
  split at h
  all_goals cases h
  any_goals exact ⟨rfl, rfl⟩
  · -- `bra`
    split <;> simp_all [Instr.enc, Instr.ownForm]
  · -- `call`
    split <;> simp_all [Instr.enc, Instr.ownForm]
  · -- `bar`
    have := Nat.mod_lt w.mod.toNat (show 0 < 4 by decide)
    split
    all_goals simp_all [Instr.enc, Instr.ownForm]
    omega

/-- The same of an extended instruction. -/
theorem enc_of_extInstr {op : Nat} {w : Ext} {i : Instr} (h : extInstr op w = some i) :
    i.enc = some (.ext op w) ∧ i.ownForm = true := by
  unfold extInstr at h
  split at h
  all_goals cases h
  any_goals exact ⟨rfl, rfl⟩
  · -- `bra`
    split <;> simp_all [Instr.enc, Instr.ownForm]
  · -- `call`
    split <;> simp_all [Instr.enc, Instr.ownForm]

theorem enc_of_instr {e : Enc} {i : Instr} (h : e.instr = some i) : i.enc = some e ∧ i.ownForm = true := by
  cases e with
  | pair p => cases h; exact ⟨rfl, rfl⟩
  | std op w => exact enc_of_stdInstr h
  | ext op w => exact enc_of_extInstr h

/-! ### The checks (03 R96) -/

theorem lt_of_assigned {op : Nat} (h : assigned op = true) : op < 512 := by
  simp [assigned, hasStd, hasExt] at h
  omega

theorem assigned_of_opBad {cx : DecCtx} {ext : Bool} {op : Nat} (h : opBad cx ext op = none) : assigned op = true := by
  by_contra ha
  rw [Bool.not_eq_true] at ha
  rw [opBad, ha] at h
  by_cases h0 : op = 0 <;> simp [h0] at h

theorem opBad_of_encBad_std {cx : DecCtx} {op : Nat} {w : Std} (h : encBad cx (.std op w) = none) : opBad cx false op = none := by
  cases ho : opBad cx false op with
  | none => rfl
  | some b => simp [encBad, ho] at h

theorem opBad_of_encBad_ext {cx : DecCtx} {op : Nat} {w : Ext} (h : encBad cx (.ext op w) = none) : opBad cx true op = none := by
  cases ho : opBad cx true op with
  | none => rfl
  | some b => simp [encBad, ho] at h

/-! ### Decoding -/

theorem decode_eq_ok_iff {cx : DecCtx} {x y : W64} {i : Instr} :
    decode cx x y = .ok i ↔ ∃ e, readEnc x y = .ok e ∧ encBad cx e = none ∧ e.instr = some i := by
  unfold decode
  cases readEnc x y with
  | error t => simp
  | ok e =>
    cases hb : encBad cx e with
    | some b => simp [hb]
    | none => cases hi : e.instr <;> simp [hb, hi]

theorem wellFormed_iff {cx : DecCtx} {i : Instr} : WellFormed cx i = true ↔ i.ownForm = true ∧ ∃ e, i.enc = some e ∧ encBad cx e = none := by
  unfold WellFormed
  cases he : i.enc <;> simp

theorem decodeWords_cons {cx : DecCtx} {x : W64} {i : Instr} (hx : formatOf x ≠ 2) (h : ∀ y, decode cx x y = .ok i) (rest : List W64) :
    decodeWords cx (x :: rest) = .ok (i, rest) := by
  cases rest <;> simp [decodeWords, hx, h]

theorem decodeWords_cons_cons {cx : DecCtx} {x y : W64} {i : Instr} (hx : formatOf x = 2) (h : decode cx x y = .ok i) (rest : List W64) :
    decodeWords cx (x :: y :: rest) = .ok (i, rest) := by
  simp [decodeWords, hx, h]

/-- The words of an encoding that passes the checks decode to its instruction, whatever follows them. -/
theorem decodeWords_words {cx : DecCtx} {e : Enc} {i : Instr} (hbad : encBad cx e = none) (hi : e.instr = some i) (rest : List W64) :
    decodeWords cx (e.words ++ rest) = .ok (i, rest) := by
  cases e with
  | pair p =>
    exact decodeWords_cons (by simp [fields_packPair]) (fun y => decode_eq_ok_iff.2 ⟨_, readEnc_packPair p y, hbad, hi⟩) rest
  | std op w =>
    have hop := lt_of_assigned (assigned_of_opBad (opBad_of_encBad_std hbad))
    exact decodeWords_cons (by simp [fields_packStd]) (fun y => decode_eq_ok_iff.2 ⟨_, readEnc_packStd hop w y, hbad, hi⟩) rest
  | ext op w =>
    have hop := lt_of_assigned (assigned_of_opBad (opBad_of_encBad_ext hbad))
    exact decodeWords_cons_cons (fields_packExt op w).1 (decode_eq_ok_iff.2 ⟨_, readEnc_packExt hop w, hbad, hi⟩) rest

/-- Settles O1: packing and unpacking the fields are inverse, and so are the two directions of the opcode map on rows that name the form they carry. -/
theorem decodeEncodeAgree : Obligations.DecodeEncodeAgree := by
  refine ⟨fun cx i hwf => ?_, fun cx x y i hdec => ?_⟩
  · obtain ⟨hform, e, henc, hbad⟩ := wellFormed_iff.1 hwf
    exact ⟨e.words, congrArg (Option.map Enc.words) henc, decodeWords_words hbad (instr_of_enc hform henc)⟩
  · obtain ⟨e, hread, hbad, hinstr⟩ := decode_eq_ok_iff.1 hdec
    obtain ⟨henc, hform⟩ := enc_of_instr hinstr
    exact ⟨wellFormed_iff.2 ⟨hform, e, henc, hbad⟩, by rw [encode, henc, Option.map_some, words_of_readEnc hread]⟩

/-- Settles O2: the decoder evaluated on the ten words. -/
theorem specWordsDecode : Obligations.SpecWordsDecode :=
  ⟨rfl, rfl, rfl, rfl, rfl, rfl, rfl, rfl, rfl, rfl⟩

end Sys2Proof

/-! PROOFS. Compact pairs (family 03_encoding_and_assembly.md). -/
namespace Sys2Proof.Machine

/-! ### The registers that a pair names -/

theorem mem_destsOf_append {xs ys : List RegWrite} {d : Dest} : d ∈ destsOf (xs ++ ys) ↔ d ∈ destsOf xs ∨ d ∈ destsOf ys := by
  simp [destsOf, mem_dedup, List.filterMap_append]

/-- The registers that a slot writes are among D and the one after it, whichever width its opcode has. -/
def slotPair (x : Slot) : List Dest := [.v x.d.toNat, .v (x.d.toNat + 1)]

theorem mem_slotPair_of_mem_destsOf (w : Warp) (x : Slot) (l : Nat) : ∀ d ∈ destsOf (w.slotWrites x l), d ∈ slotPair x := by
  intro d hd
  replace hd := (mem_dedup _ _).1 hd
  unfold Warp.slotWrites at hd
  split at hd
  next => exact List.mem_cons.2 (.inl (by simpa using hd))
  next => simpa [slotPair, writePair] using hd

/-- The writes of two slots name at most four registers, in whatever lanes they act. -/
theorem length_destsOf_slots_le (w : Warp) (p : Pair) (xs ys : List Nat) :
    (destsOf (xs.flatMap (w.slotWrites p.s0) ++ ys.flatMap (w.slotWrites p.s1))).length ≤ 4 := by
  refine length_dedup_le (ys := slotPair p.s0 ++ slotPair p.s1) fun d hd => ?_
  rcases mem_destsOf_append.1 ((mem_dedup _ _).2 hd) with h | h
  · exact List.mem_append_left _ (destsOf_flatMap_le (mem_slotPair_of_mem_destsOf w p.s0) xs d h)
  · exact List.mem_append_right _ (destsOf_flatMap_le (mem_slotPair_of_mem_destsOf w p.s1) ys d h)

/-! ### What a pair commits -/

/-- An instruction whose writes find room in the undo log commits them and moves on. -/
theorem State.finish_of_logRoom {s : State} {e : Env} {ws : List RegWrite} {n : Nat} (hroom : e.w.logRoom n = true) (hn : (destsOf ws).length ≤ n) :
    s.finish e ws = s.putWarp ((e.w.commit ws).advance s.cur (s.act e.w)) :=
  if_pos (logRoom_mono hroom hn)

theorem commits_compactPair (p : Pair) {s : State} {e : Env} (he : s.env = some e) (hroom : e.w.logRoom 4 = true) :
    Commits (.compactPair p) s e
      ((s.slotLanes e.w p.s0).flatMap (e.w.slotWrites p.s0) ++ (s.slotLanes e.w p.s1).flatMap (e.w.slotWrites p.s1)) := by
  show execCompactPair p s = _
  simp only [execCompactPair, State.onWarp, he, State.finish_of_logRoom hroom (length_destsOf_slots_le e.w p _ _)]

theorem slotWrites_of_inl {w : Warp} {x : Slot} {l : Nat} {r : W32} (h : w.slotResult x l = .inl r) : w.slotWrites x l = [.v l x.d.toNat r] := by
  simp only [Warp.slotWrites, h]

/-- Settles O22: the writes of a pair find room, and the result of each slot is read off its opcode; a shift count past the width leaves 0 either way. -/
theorem compactPairs : Obligations.CompactPairs := by
  refine fun p s e he hroom => ⟨commits_compactPair p he hroom, ?_⟩
  rintro ⟨op, grd, d, src, kind⟩ l
  refine ⟨?iadd, ?isub, ?imul, ?iand, ?ior, ?ixor, ?ishl, ?ineg, ?mov, ?fadd, ?add64⟩ <;> rintro rfl
  case ishl => exact slotWrites_of_inl (congrArg Sum.inl (shiftLeft_eq _ _))
  case ineg => exact slotWrites_of_inl (congrArg Sum.inl (BitVec.zero_sub _))
  all_goals rfl

end Sys2Proof.Machine

/-! PROOFS. The move that a step makes, from the words of a path or a stream to the instruction (family 03_encoding_and_assembly.md). -/
namespace Sys2Proof.Machine

/-! ### The move of a step -/

theorem step_of_run {s t : State} {i : Instr} (hs : s.stuck = none) (hm : s.move = .run i t) :
    step s = endStep s.clock s.free (some i) (afterMove s (some i) (exec i t)) := by
  simp only [step, hs, hm]

theorem step_of_quiet {s t : State} (hs : s.stuck = none) (hm : s.move = .quiet t) :
    step s = endStep s.clock s.free none (afterMove s none (.next t)) := by
  simp only [step, hs, hm]

theorem move_of_agenda {s : State} {i : Instr} {a : Arg} {rest : List (Instr × Arg)} (ha : s.agenda = (i, a) :: rest) :
    s.move = .run i { s with agenda := rest, arg := a } := by
  simp only [State.move, State.nextMove, ha]

theorem move_of_turn {s : State} {p : Issue} {turns : List Issue} (ha : s.agenda = []) (ht : s.turn = p :: turns) :
    s.move = ({ s with turn := turns } : State).issue p := by
  simp only [State.move, State.nextMove, ha, ht]

theorem issue_of_warp {p : Issue} (s : State) (hp : p.stream = false) : s.issue p = s.issueWarp p := if_neg (by simp [hp])
theorem issue_of_stream {p : Issue} (s : State) (hp : p.stream = true) : s.issue p = s.issueStream p := if_pos hp

/-! ### A path of a warp (05 R154) -/

/-- Nothing holds back a path of a warp with these lanes before its words are fetched (05 R154). -/
structure Unheld (s : State) (e : Env) (lanes : List Nat) : Prop where
  some_lane : lanes ≠ []
  fatal : e.w.fatal = none
  on : e.w.off = false
  roll : s.rollBlocked e.w.id = false
  sending : e.w.spec.sending = 0
  live : e.l.phase = .live
  halting : e.l.halting = false
  swap : s.swapHolds e.w lanes = false
  async : e.w.asyncDue = false ∨ ∃ l ∈ lanes, (e.w.lane l).plan ≠ none
  pool : e.b.poolFault = none

/-- The state in which a path takes its turn. -/
def State.turnState (s : State) (p : Issue) : State := { s with cur := { p with words := 1 } }
/-- The state in which a path fetches its words. -/
def State.pathState (s : State) (p : Issue) (lanes : List Nat) : State :=
  { s with cur := { p with words := 1, lanes := maskOf lanes, quota := s.pick (2 ^ 79) % 64 } }
/-- The state in which the fetched words are decoded. -/
def State.codeState (s : State) (x y : W64) : State := { s with cur := { s.cur with words := wordsAt x, code := (x, y) } }
/-- What a path does with its words, once they are fetched: `lane` its lowest lane, `pc` its program counter. -/
def State.issueWords (s : State) (e : Env) (lane : Nat) (pc : Pc) (x y : W64) : Prep :=
  match decode (s.decCtx false e.l) x y with
  | .error t => .quiet (s.raise e (decodeTrap t lane))
  | .ok i =>
    if (s.taking.bind (·.first)).any fun j => turnConflict j.2 i then .quiet (s.putWarp { e.w with deferred := some pc })
    else s.issueChecked e i

section
variable {s s2 : State} {p : Issue} {e : Env} {lanes : List Nat} {x y : W64}

theorem Unheld.not_held (h : Unheld s e lanes) : (lanes.isEmpty || e.w.fatal.isSome || e.w.off || e.w.spec.sending != 0 || s.rollBlocked e.w.id ||
      e.l.phase != .live || e.l.halting || s.swapHolds e.w lanes) = false := by
  simp [h.some_lane, h.fatal, h.on, h.roll, h.sending, h.live, h.halting, h.swap]

theorem Unheld.not_async (h : Unheld s e lanes) : (e.w.asyncDue && lanes.all fun l => (e.w.lane l).plan.isNone) = false := by
  rcases h.async with h | ⟨l, hl, hp⟩
  · simp [h]
  · simp only [Bool.and_eq_false_iff, List.all_eq_false]
    exact .inr ⟨l, hl, by simpa using hp⟩

/-- A path that nothing holds back goes on with the words it fetches. -/
theorem issueWarp_of_unheld (henv : (s.turnState p).env = some e) (h : Unheld s e (e.w.pathLanes p))
    (hwords : (s.pathState p (e.w.pathLanes p)).pathWords e (e.w.pathLanes p) p.pc = .ok (x, y, s2)) :
    s.issueWarp p = (s2.codeState x y).issueWords e ((e.w.pathLanes p).headD 0) p.pc x y := by
  unfold State.issueWarp
  change (match (s.turnState p).env with | none => _ | some e => _) = _
  rw [henv]
  refine (if_neg (Bool.eq_false_iff.1 h.not_held)).trans ((if_neg (Bool.eq_false_iff.1 h.not_async)).trans ?_)
  rw [h.pool]
  change (match (s.pathState p (e.w.pathLanes p)).pathWords e (e.w.pathLanes p) p.pc with | .error f => _ | .ok (x, y, s) => _) = _
  rw [hwords]
  rfl

/-- Words that do not decode raise their decode trap. -/
theorem issueWords_of_error {lane : Nat} {pc : Pc} {t : DTrap} (h : decode (s.decCtx false e.l) x y = .error t) :
    s.issueWords e lane pc x y = .quiet (s.raise e (decodeTrap t lane)) := by
  simp only [State.issueWords, h]

/-- An instruction that may not share its turn is put off. -/
theorem issueWords_of_conflict {lane : Nat} {pc : Pc} {i : Instr} (h : decode (s.decCtx false e.l) x y = .ok i)
    (hc : ∃ j, s.taking.bind (·.first) = some j ∧ turnConflict j.2 i = true) :
    s.issueWords e lane pc x y = .quiet (s.putWarp { e.w with deferred := some pc }) := by
  obtain ⟨j, hj, hc⟩ := hc
  simp only [State.issueWords, h, hj, Option.any_some, hc, if_true]

theorem issueWords_of_ok {lane : Nat} {pc : Pc} {i : Instr} (h : decode (s.decCtx false e.l) x y = .ok i)
    (hc : ∀ j, s.taking.bind (·.first) = some j → turnConflict j.2 i = false) :
    s.issueWords e lane pc x y = s.issueChecked e i := by
  simp only [State.issueWords, h]
  refine if_neg ?_
  cases hj : s.taking.bind (·.first) with
  | none => simp
  | some j => simp [hc j hj]
end

/-! ### Beginning an instruction (03 R86, R88) -/

/-- A warp as an instruction begins in some lanes: the windows that end before it are closed (03 R86). -/
def Warp.beginsAt (w : Warp) (act : List Nat) (i : Instr) : Warp := (act.foldl (fun w l => w.closeLane l (instrEnds i)) w).dropLongs
theorem Warp.beginsAt_eq (w : Warp) (act : List Nat) (i : Instr) :
    (act.foldl (fun w l => w.closeLane l (instrEnds i)) w).dropLongs = w.beginsAt act i := rfl

/-- The state in which an instruction begins in some lanes. -/
def State.beginState (s : State) (i : Instr) (on : List Nat) : State := { s with cur := { s.cur with lanes := maskOf on, words := instrMark i } }

section
variable {s : State} {e : Env} {i : Instr}

/-- If every lane stands at the end of a window that has not completed, the lanes wait. -/
theorem issueChecked_of_all_wait (h : ∀ l ∈ s.act e.w, (e.w.beginsAt (s.act e.w) i).longPending l (instrEnds i) = true) :
    s.issueChecked e i = .quiet ((s.beginState i []).putWarp ((e.w.beginsAt (s.act e.w) i).modLanes (s.act e.w) fun t => { t with wait := .long })) := by
  have hwait : (s.act e.w).filter (fun l => (e.w.beginsAt (s.act e.w) i).longPending l (instrEnds i)) = s.act e.w := List.filter_eq_self.2 h
  have hrest : (s.act e.w).filter (fun l => !(s.act e.w).contains l) = [] := by simp
  unfold State.issueChecked
  dsimp only
  rw [Warp.beginsAt_eq, hwait, hrest]
  rfl

/-- If no lane waits, no register read has an error and no promise is broken, the instruction runs in its lanes. -/
theorem issueChecked_of_none_waits (hact : s.act e.w ≠ [])
    (h : ∀ l ∈ s.act e.w, (e.w.beginsAt (s.act e.w) i).longPending l (instrEnds i) = false)
    (hrows : ∀ k, .v k ∈ instrReads i → k ∉ (e.w.beginsAt (s.act e.w) i).badRows)
    (hviol : (e.w.beginsAt (s.act e.w) i).violation (s.act e.w) (instrDests i) = none) :
    s.issueChecked e i = .run i (((s.beginState i (s.act e.w)).putWarp (e.w.beginsAt (s.act e.w) i)).modLaunch e.l.id fun l => { l with issued := true }) := by
  have hwait : (s.act e.w).filter (fun l => (e.w.beginsAt (s.act e.w) i).longPending l (instrEnds i)) = [] := by simpa using h
  have hrest : (s.act e.w).filter (fun l => !([] : List Nat).contains l) = s.act e.w := by simp
  have hbad : ((instrReads i).any fun d => match d with | .v k => (e.w.beginsAt (s.act e.w) i).badRows.contains k | _ => false) = false := by
    rw [List.any_eq_false]
    intro d hd
    cases d with
    | v k => simpa using hrows k hd
    | p | u | bn => simp
  unfold State.issueChecked
  dsimp only
  rw [Warp.beginsAt_eq, hwait, hrest]
  refine (if_neg (by simpa using hact)).trans ((if_neg (Bool.eq_false_iff.1 hbad)).trans ?_)
  change (match (e.w.beginsAt (s.act e.w) i).violation (s.act e.w) (instrDests i) with | none => _ | some (o, d, l) => _) = _
  rw [hviol]
  rfl
end

/-! ### A matrix stream (07 R233) -/

/-- Nothing holds back a matrix stream before its words are fetched (07 R233). -/
structure StreamUnheld (s : State) (e : SEnv) : Prop where
  exited : e.x.exited = false
  failed : e.x.failed = false
  fatal : e.x.fatal = none
  wait : e.x.wait = .none
  live : e.l.phase = .live
  halting : e.l.halting = false
  swap : (s.core e.b.core).phase ≠ .swap

section
variable {s s2 : State} {p : Issue} {e : SEnv} {x y : W64}

theorem StreamUnheld.not_held (h : StreamUnheld s e) : (e.x.exited || e.x.failed || e.x.fatal.isSome || e.x.wait != .none || e.l.phase != .live ||
    e.l.halting || (s.core e.b.core).phase == .swap) = false := by
  simp [h.exited, h.failed, h.fatal, h.wait, h.live, h.halting, h.swap]

/-- What a stream does with its words, once they are fetched. -/
def State.issueStreamWords (s : State) (e : SEnv) (x y : W64) : Prep :=
  match decode (s.decCtx true e.l) x y with
  | .error t => .quiet (s.raiseStream e (decodeTrap t 0))
  | .ok i => .run i (({ s with cur := { s.cur with words := instrMark i } } : State).modLaunch e.l.id fun l => { l with issued := true })

/-- A stream that nothing holds back goes on with the words it fetches. -/
theorem issueStream_of_unheld (henv : (s.turnState p).senv = some e) (h : StreamUnheld s e)
    (hwords : (s.turnState p).fetchInstr e.who e.x.pc = .ok (x, y, s2)) : s.issueStream p = s2.issueStreamWords e x y := by
  unfold State.issueStream
  change (match (s.turnState p).senv with | none => _ | some e => _) = _
  rw [henv]
  refine (if_neg (Bool.eq_false_iff.1 h.not_held)).trans ?_
  change (match (s.turnState p).fetchInstr e.who e.x.pc with | .error f => _ | .ok (x, y, s) => _) = _
  rw [hwords]
  rfl
end

/-! ### The end of a move -/

theorem blocked_backInvalidate (s : State) (line : Nat) : (s.backInvalidate line).blocked = s.blocked := by
  unfold State.backInvalidate
  split <;> rfl

theorem blocked_backInvalidates (s : State) (lines : List Nat) : (lines.foldl State.backInvalidate s).blocked = s.blocked := by
  induction lines generalizing s with
  | nil => rfl
  | cons l lines ih => rw [List.foldl_cons, ih, blocked_backInvalidate]

theorem path?_of_agenda {s : State} {m : Instr × Arg} {rest : List (Instr × Arg)} (ha : s.agenda = m :: rest) : s.path? = none := by
  simp [State.path?, ha]

theorem pathDone_of_not_taking {s : State} (before : State) (p : Issue) (ran : Option Instr) (h : s.taking = none) : s.pathDone before p ran = s := by
  simp only [State.pathDone, h]

theorem opened_of_ne {ran : Option Instr} (s : State) (h : ran ≠ some .quarterIssueSelect) : s.opened ran = s := if_neg h

theorem withhold_of_agenda {s : State} {m : Instr × Arg} {rest : List (Instr × Arg)} (ha : s.agenda = m :: rest) (lines : List Nat) :
    s.withhold lines = { lines.foldl State.backInvalidate s with agenda := rest, blocked := s.blocked ++ [m] } := by
  simp only [State.withhold, ha, blocked_backInvalidates]

/-- A move that needs no line of the host and begins no turn, made outside a turn, ends as it is. -/
theorem afterMove_of_not_taking (s : State) {t : State} {ran : Option Instr} (hw : t.hostWait = []) (ht : t.taking = none)
    (hr : ran ≠ some .quarterIssueSelect) : afterMove s ran (.next t) = .next t := by
  simp only [afterMove, hw, if_true, opened_of_ne t hr]
  cases s.path? with
  | none => rfl
  | some p => exact congrArg _ (pathDone_of_not_taking _ p _ ht)

/-- A proposed move that needs lines of the host is withheld: they are asked for, and it waits for them. -/
theorem afterMove_of_hostWait {s t : State} (ran : Option Instr) {m : Instr × Arg} {rest : List (Instr × Arg)} (hw : t.hostWait ≠ [])
    (ha : s.agenda = m :: rest) :
    afterMove s ran (.next t) = .next { t.hostWait.foldl State.backInvalidate s with agenda := rest, blocked := s.blocked ++ [m] } := by
  simp only [afterMove, if_neg hw, path?_of_agenda ha, withhold_of_agenda ha]

/-! ### The step -/

/-- Settles O3: the move of a step is that of the words its path has fetched, and each answer of those words is one case. -/
theorem stepRunsDecodedInstruction : Obligations.StepRunsDecodedInstruction := by
  refine ⟨?warp, ?stream, fun s _ _ => afterMove_of_not_taking s, fun _ _ ran _ _ _ => afterMove_of_hostWait ran,
    fun _ _ _ _ hs ha => step_of_run hs (move_of_agenda ha), fun s f hs => by simp only [step, hs]⟩
  case warp =>
    intro s p turns e x y s2 hs ha ht hp henv lanes s1 hl hfatal hoff hroll hsending hlive hhalting hswap hasync hpool hwords s3 ends
    have hmove : s.move = s3.issueWords e (lanes.headD 0) p.pc x y := by
      rw [move_of_turn ha ht, issue_of_warp _ hp]
      exact issueWarp_of_unheld henv ⟨hl, hfatal, hoff, hroll, hsending, hlive, hhalting, hswap, hasync, hpool⟩ hwords
    refine ⟨fun t hdec => ?_, fun i hdec => ⟨fun hc => ?_, fun hc => ⟨fun hw => ?_, fun hact hw hrows hviol => ?_⟩⟩⟩
    · exact step_of_quiet hs (hmove.trans (issueWords_of_error hdec))
    · exact step_of_quiet hs (hmove.trans (issueWords_of_conflict hdec hc))
    · exact step_of_quiet hs (hmove.trans ((issueWords_of_ok hdec hc).trans (issueChecked_of_all_wait hw)))
    · exact step_of_run hs (hmove.trans ((issueWords_of_ok hdec hc).trans (issueChecked_of_none_waits hact hw hrows hviol)))
  case stream =>
    intro s p turns e x y s2 hs ha ht hp s1 ends henv hexited hfailed hfatal hwait hlive hhalting hswap hwords
    have hmove : s.move = s2.issueStreamWords e x y := by
      rw [move_of_turn ha ht, issue_of_stream _ hp]
      exact issueStream_of_unheld henv ⟨hexited, hfailed, hfatal, hwait, hlive, hhalting, hswap⟩ hwords
    refine ⟨fun t hdec => step_of_quiet hs (hmove.trans ?_), fun i hdec => step_of_run hs (hmove.trans ?_)⟩
    · simp only [State.issueStreamWords, hdec]
    · simp only [State.issueStreamWords, hdec]

end Sys2Proof.Machine

/-! PROOFS. The integer instructions (family 04_arithmetic_and_lane_instructions.md; R112 to R121). -/
namespace Sys2Proof.Machine

/-! ### The same result under another name -/

theorem Results.congr {i : Instr} {ga gb : Guard} {room fits : Nat} {v v' : Warp → Nat → Nat → Option W32} {p p' : Warp → Nat → Nat → Option Bool}
    {ok : State → Warp → Prop} (h : Results i ga gb room fits v p ok) (hv : ∀ u l k, v u l k = v' u l k) (hp : ∀ u l k, p u l k = p' u l k) :
    Results i ga gb room fits v' p' ok :=
  (funext₃ hv : v = v') ▸ (funext₃ hp : p = p') ▸ h
theorem Result32.congr {i : Instr} {f : Fields} {r r' : Warp → Nat → W32} (h : Result32 i f r) (hr : ∀ u l, r u l = r' u l) : Result32 i f r' :=
  (funext₂ hr : r = r') ▸ h
theorem Result64.congr {i : Instr} {f : Fields} {r r' : Warp → Nat → W64} (h : Result64 i f r) (hr : ∀ u l, r u l = r' u l) : Result64 i f r' :=
  (funext₂ hr : r = r') ▸ h
theorem ResultP.congr {i : Instr} {f : Fields} {r r' : Warp → Nat → Bool} (h : ResultP i f r) (hr : ∀ u l, r u l = r' u l) : ResultP i f r' :=
  (funext₂ hr : r = r') ▸ h
theorem LongResult32.congr {i : Instr} {f : Fields} {r r' : Warp → Nat → W32} {ok : State → Warp → Prop} (h : LongResult32 i f r ok)
    (hr : ∀ u l, r u l = r' u l) : LongResult32 i f r' ok :=
  (funext₂ hr : r = r') ▸ h

/-! ### Sums, differences and saturation (R113, R114) -/

/-- A value under any type, kept in 32 bits, is the value. -/
@[simp] theorem ofInt_ext32 (un : Bool) (a : W32) : BitVec.ofInt 32 (ext32 un a) = a := by
  cases un <;> simp [ext32]

theorem narrow32_wrapped_add (un : Bool) (a b : W32) : narrow32 un false (ext32 un a + ext32 un b) = a + b := by
  simp [narrow32, BitVec.ofInt_add]
theorem narrow32_wrapped_sub (un : Bool) (a b : W32) : narrow32 un false (ext32 un a - ext32 un b) = a - b := by
  simp [narrow32, Int.sub_eq_add_neg, BitVec.ofInt_add, BitVec.ofInt_neg, BitVec.sub_eq_add_neg]
theorem narrow32_saturated {ty : Nat} (h : intType ty) (x : Int) : narrow32 (unsignedTy ty) true x = BitVec.ofInt 32 (tyClamp ty x) := by
  simp only [narrow32, if_true, intClamp_eq h]

/-- The `.sat` bit of an extended instruction, MODHI[0]. -/
theorem sat_ext (w : Ext) : w.modhi.getLsbD 0 = decide ((Fields.ofExt w).mhi % 2 = 1) := by
  rw [BitVec.getLsbD, Nat.testBit_zero]; rfl

theorem ofInt_neg_toInt (a : W32) : 0 - a = BitVec.ofInt 32 (-a.toInt) := by
  simp [BitVec.ofInt_neg]

theorem popCount_eq (a : W32) : popCount a = BitVec.ofNat 32 ((List.range 32).countP fun i => a.getLsbD i) := by
  rw [popCount, countOnes, length_filter_countP]

theorem minTy_maxTy_eq {ty : Nat} (h : intType ty) (a b c : W32) :
    minTy (unsignedTy ty) (maxTy (unsignedTy ty) a b) c = BitVec.ofInt 32 (min (max (tyVal ty a) (tyVal ty b)) (tyVal ty c)) := by
  rw [minTy_eq h, tyVal_maxTy h]

/-- Settles O9: each row runs `vOp`, and the laws of the result functions give the table's numbers. -/
theorem integerTable : Obligations.IntegerTable := by
  refine ⟨fun w => ⟨?iadd, ?isub, ?imul, ?imulh, ?ineg, ?iabs, ?imin, ?imax, ?iand, ?ior, ?ixor, ?inot, ?iandn, ?ipopc, ?iclz, ?ictz, ?ibrev⟩,
    fun w => ⟨?iaddExt, ?isubExt, ?imulExt, ?imad, ?iminExt, ?imaxExt, ?iclamp, ?iandExt, ?iorExt, ?ixorExt, ?iandnExt⟩⟩
  case imulh => exact fun h => .congr (result32_of_vOp fun _ => rfl) fun _ _ => mulHigh_eq h _ _
  case ineg => exact .congr (result32_of_vOp fun _ => rfl) fun _ _ => ofInt_neg_toInt _
  case iabs => exact .congr (result32_of_vOp fun _ => rfl) fun _ _ => absInt_eq _
  case imin | iminExt => exact fun h => .congr (result32_of_vOp fun _ => rfl) fun _ _ => minTy_eq h _ _
  case imax | imaxExt => exact fun h => .congr (result32_of_vOp fun _ => rfl) fun _ _ => maxTy_eq h _ _
  case iclamp => exact fun h => .congr (result32_of_vOp fun _ => rfl) fun _ _ => minTy_maxTy_eq h _ _ _
  case ipopc => exact .congr (result32_of_vOp fun _ => rfl) fun _ _ => popCount_eq _
  case iclz => exact .congr (result32_of_vOp fun _ => rfl) fun _ _ => countLead_eq _
  case ictz => exact .congr (result32_of_vOp fun _ => rfl) fun _ _ => countTrail_eq _
  case iaddExt =>
    intro h
    refine .congr (result32_of_vOp fun _ => rfl) fun _ _ => ?_
    rw [sat_ext, h]
    exact narrow32_wrapped_add _ _ _
  case isubExt =>
    intro h
    refine .congr (result32_of_vOp fun _ => rfl) fun _ _ => ?_
    rw [sat_ext, h]
    exact narrow32_wrapped_sub _ _ _
  all_goals exact result32_of_vOp fun _ => rfl

/-- Settles O10: the opcodes are the encoder's, and the laws of shifts and bit fields give each result. -/
theorem integerShiftsAndFields : Obligations.IntegerShiftsAndFields := by
  refine ⟨fun w => ⟨rfl, rfl, rfl, rfl⟩, fun w => ⟨rfl, rfl⟩, fun w => ⟨?ishl, ?ishr, ?isar, ?irot⟩, fun w => ⟨?iaddExt, ?isubExt, ?ibfe, ?ibfi⟩⟩
  case ishl => exact .congr (result32_of_vOp fun _ => rfl) fun _ _ => shiftLeft_eq _ _
  case ishr => exact .congr (result32_of_vOp fun _ => rfl) fun _ _ => shiftRight_eq _ _
  case isar => exact .congr (result32_of_vOp fun _ => rfl) fun _ _ => shiftArith_eq _ _
  case irot => exact result32_of_vOp fun _ => rfl
  case iaddExt | isubExt =>
    intro hty hsat
    refine .congr (result32_of_vOp fun _ => rfl) fun _ _ => ?_
    rw [sat_ext, hsat, ← ext32_tyVal hty, ← ext32_tyVal hty]
    exact narrow32_saturated hty _
  case ibfe => exact fun hty => ⟨_, result32_of_vOp fun _ => rfl, fun _ _ _ hj => extractField_bit hty _ _ hj⟩
  case ibfi => exact ⟨_, result32_of_vOp fun _ => rfl, fun _ _ _ hj => insertField_bit _ _ _ hj⟩

/-! ### Carry, select and compare (R117, R118) -/

/-- The writes of `carryOp` give one 32-bit result in D and the carry or borrow out in the predicate of MOD[3:0]. -/
theorem results_of_carryOp {i : Instr} {f : Fields} {r : W32 → W32 → Bool → W32 × Bool} (h : ∀ s, exec i s = .next (s.carryOp f r)) :
    let out := fun (u : Warp) l => r (u.opA f l) (u.opB f l) (f.mod % 16 != 15 && u.p l (f.mod % 16))
    Results i f.ga f.gb 2 (f.d + 1) (fun u l => only1 f.d (out u l).1) (fun u l => onlyP (f.mod % 16) (out u l).2) := by
  intro out
  refine results_of_perLane (fun u l => [.v l f.d (out u l).1, .p l (f.mod % 16) (out u l).2]) _ (fun s _ _ _ => h s) (by simp [RegWrite.inLane])
    [.v f.d, .p (f.mod % 16)] ?_ (by simp) ?_ ?_
  · intro u l d hd
    obtain ⟨x, hx, hd⟩ := List.mem_filterMap.1 ((mem_dedup _ _).1 hd)
    rcases List.mem_pair.1 hx with rfl | rfl
    · simp_all
    · by_cases hc : f.mod % 16 < 15 <;> simp_all
  · intro u l t k hf
    simp only [List.foldl_cons, List.foldl_nil, Lane.put, if_true, getD_set _ _ _ _ _ (show f.d < t.v.length by omega), only1]
    split <;> rfl
  · intro u l t k
    simp only [List.foldl_cons, List.foldl_nil, Lane.put, if_true, getLsbD_setPred, onlyP]
    by_cases hk : k = f.mod % 16 ∧ k < 15
    · have h15 : (k == 15) = false := beq_false_of_ne (by omega)
      rw [if_pos hk, if_pos (by omega), h15]
      rfl
    · rw [if_neg hk, if_neg (by omega)]
      rfl

theorem subBorrow_fst (a b : W32) (c : Bool) : (subBorrow a b c).1 = BitVec.ofInt 32 ((a.toNat : Int) - b.toNat - c.toNat) := by
  simp [subBorrow, Int.sub_eq_add_neg, BitVec.ofInt_add, BitVec.ofInt_neg, BitVec.sub_eq_add_neg]
theorem subBorrow_snd (a b : W32) (c : Bool) : (subBorrow a b c).2 = decide ((a.toNat : Int) - b.toNat - c.toNat < 0) := by
  simp only [subBorrow, decide_eq_decide]
  omega

/-- A condition code that R118 lists compares as the statement's words say. -/
theorem condInt_eq {code : Nat} (h : code ≤ 5) (a b : Int) : condInt code a b = compares code a b := by
  have heq : (a == b) = decide (a = b) := beq_eq_decide a b
  have hne : (a != b) = decide (a ≠ b) := by rw [bne, heq, decide_not]
  interval_cases code
  · exact heq
  · exact hne
  all_goals rfl

theorem intCompare_eq {mod : Nat} (hmod : mod < 16) (hcode : mod % 8 ≤ 5) {n : Nat} (a b : BitVec n) :
    intCompare mod a b =
      let val (x : BitVec n) : Int := if mod / 8 = 1 then x.toNat else x.toInt
      compares (mod % 8) (val a) (val b) := by
  have hun : mod / 8 % 2 = 1 ↔ mod / 8 = 1 := by omega
  simp only [intCompare, hun, condInt_eq hcode]
  split <;> rfl

/-- Settles O11: the carry goes through `carryOp`, and each condition code compares integers. -/
theorem carrySelectCompare : Obligations.CarrySelectCompare := by
  refine ⟨fun w => ⟨?iaddc, ?isubb, result32_of_vOp fun _ => rfl, fun hmod hcode => ⟨?icmp, ?cmp64⟩⟩, fun w hmod hcode => ⟨?icmpExt, ?cmp64Ext⟩⟩
  case iaddc => exact results_of_carryOp (r := addCarry) fun _ => rfl
  case isubb =>
    exact .congr (results_of_carryOp (r := subBorrow) fun _ => rfl) (fun _ _ k => congrArg (only1 _ · k) (subBorrow_fst _ _ _))
      fun _ _ k => congrArg (onlyP _ · k) (subBorrow_snd _ _ _)
  all_goals exact .congr (resultP_of_pOp fun _ => rfl) fun _ _ => intCompare_eq hmod hcode _ _

/-! ### The 64-bit integers (R119) -/

theorem ofInt_wide_mul_add {ty : Nat} (h : intType ty) (a b : W32) (c : W64) :
    BitVec.ofInt 64 (ext32 (unsignedTy ty) a * ext32 (unsignedTy ty) b) + c = BitVec.ofInt 64 (tyVal ty a * tyVal ty b + c.toNat) := by
  rw [ext32_tyVal h, ext32_tyVal h, BitVec.ofInt_add]
  simp

/-- The index of `lea` and `leahi` as a number: `b` under the extension of MODLO[3], times two to the shift of MODLO[2:0]. -/
theorem leaIndex_eq (mod : Nat) (b : W32) :
    leaIndex mod b = BitVec.ofInt 64 ((if mod / 8 % 2 = 1 then b.toInt else (b.toNat : Int)) * 2 ^ (mod % 8)) := by
  have hpow : BitVec.twoPow 64 (mod % 8) = BitVec.ofInt 64 (2 ^ (mod % 8)) := by
    have hlt : mod % 8 < 8 := Nat.mod_lt _ (by decide)
    generalize mod % 8 = n at hlt
    decide +revert
  have hbit : mod.testBit 3 = decide (mod / 8 % 2 = 1) := Nat.testBit_eq_decide_div_mod_eq
  rw [leaIndex, BitVec.shiftLeft_eq_mul_twoPow, hpow, BitVec.ofInt_mul, hbit]
  by_cases h : mod / 8 % 2 = 1 <;> simp [h, BitVec.signExtend]

/-- Bits [63:32] of a sum of 64 bits: the exact sum without its low half. -/
theorem hi32_ofInt (z : Int) : hi32 (BitVec.ofInt 64 z) = BitVec.ofInt 32 (z / 2 ^ 32) := by
  apply BitVec.eq_of_toNat_eq
  simp only [hi32, BitVec.extractLsb'_toNat, BitVec.toNat_ofInt, Nat.shiftRight_eq_div_pow]
  omega

theorem toNat_pair64 (lo hi : W32) : (pair64 lo hi).toNat = hi.toNat * 2 ^ 32 + lo.toNat := by
  show (hi ++ lo : BitVec (32 + 32)).toNat = _
  rw [BitVec.toNat_append, ← Nat.shiftLeft_add_eq_or_of_lt lo.isLt, Nat.shiftLeft_eq]

theorem hi32_pair64_add (a c : W32) (z : Int) :
    hi32 (pair64 a c + BitVec.ofInt 64 z) = BitVec.ofInt 32 (((c.toNat : Int) * 2 ^ 32 + a.toNat + z) / 2 ^ 32) := by
  have hpair : pair64 a c = BitVec.ofInt 64 ((c.toNat : Int) * 2 ^ 32 + a.toNat) := by
    rw [← BitVec.setWidth_eq (pair64 a c), ← BitVec.ofNat_toNat, toNat_pair64, ← BitVec.ofInt_natCast]
    simp
  rw [hpair, ← BitVec.ofInt_add, hi32_ofInt]

theorem add_ofInt (a : W64) (z : Int) : a + BitVec.ofInt 64 z = BitVec.ofInt 64 (a.toNat + z) := by
  simp [BitVec.ofInt_add]

/-- The type that `shr64` tests, as the number in MOD. -/
theorem mod_eq_i64_iff (w : Std) : w.mod = 8#5 ↔ (Fields.ofStd w).mod = 0x08 := BitVec.toNat_inj.symm

/-- Settles O12: the sums and shifts are those of 64-bit words, and an address is exact before it is cut to its width. -/
theorem wideIntegers : Obligations.WideIntegers := by
  refine ⟨fun w => ⟨result64_of_vOp64 fun _ => rfl, result64_of_vOp64 fun _ => rfl, ?shl64, ?shr64, ?sar64⟩,
    fun w => ⟨result64_of_vOp64 fun _ => rfl, result64_of_vOp64 fun _ => rfl, ?imadw, ?lea, ?leahi⟩⟩
  case shl64 => exact .congr (result64_of_vOp64 fun _ => rfl) fun _ _ => shiftLeft_eq _ _
  case shr64 =>
    intro h
    refine .congr (result64_of_vOp64 fun _ => rfl) fun _ _ => ?_
    rw [if_neg (by rw [mod_eq_i64_iff, h]; decide)]
    exact shiftRight_eq _ _
  case sar64 =>
    intro h
    refine .congr (result64_of_vOp64 fun _ => rfl) fun _ _ => ?_
    rw [if_pos ((mod_eq_i64_iff w).2 h)]
    exact shiftArith_eq _ _
  case imadw => exact fun h => .congr (result64_of_vOp64 fun _ => rfl) fun _ _ => ofInt_wide_mul_add h _ _ _
  case lea => exact .congr (result64_of_vOp64 fun _ => rfl) fun _ _ => (congrArg _ (leaIndex_eq _ _)).trans (add_ofInt _ _)
  case leahi => exact .congr (result32_of_vOp fun _ => rfl) fun _ _ => (congrArg (fun x => hi32 (_ + x)) (leaIndex_eq _ _)).trans (hi32_pair64_add _ _ _)

/-! ### Byte dot products (R120) -/

theorem foldl_add_eq_add_sum (g : Nat → Int) (xs : List Nat) (c : Int) : xs.foldl (fun t i => t + g i) c = c + (xs.map g).sum := by
  induction xs generalizing c with
  | nil => simp
  | cons x xs ih => simp [ih, add_assoc]

/-- An exact signed sum, wrapped or clamped to .i32. -/
theorem narrow32_signed (sat : Bool) (x : Int) : narrow32 false sat x = BitVec.ofInt 32 (if sat then clampTo (-2 ^ 31) (2 ^ 31 - 1) x else x) := by
  cases sat
  · rfl
  · exact narrow32_saturated (ty := 0x07) (.inl rfl) x

theorem dotBytes_eq (mod : Nat) (a b c : W32) :
    dotBytes mod a b c = narrow32 false (mod.testBit 2)
      (c.toInt + ((List.range 4).map fun i => byteVal (mod.testBit 0) a i * byteVal (mod.testBit 1) b i).sum) :=
  congrArg (narrow32 false _) (foldl_add_eq_add_sum (fun i => byteOf (mod.testBit 0) a i * byteOf (mod.testBit 1) b i) _ _)

theorem sadBytes_eq {mod : Nat} (h : mod.testBit 0 = mod.testBit 1) (a b c : W32) :
    sadBytes mod a b c = narrow32 false (mod.testBit 2)
      (c.toInt + ((List.range 4).map fun i => |byteVal (mod.testBit 0) a i - byteVal (mod.testBit 0) b i|).sum) := by
  refine congrArg (narrow32 false _) ?_
  rw [foldl_add_eq_add_sum fun i => ((byteOf (mod.testBit 0) a i - byteOf (mod.testBit 1) b i).natAbs : Int)]
  simp only [Int.natCast_natAbs, ← h]
  rfl

/-! ### Division (R121) -/

/-- Division with no zero divisor is a long-latency instruction with one result. -/
theorem longResult32_of_divide {i : Instr} {op reason : Nat} {f : Fields} {r : Bool → W32 → W32 → W32}
    (h : ∀ s, exec i s = .next (s.divide op reason f r)) (hdests : opDests op f = [.v f.d]) :
    LongResult32 i f (fun u l => r (unsignedTy f.mod) (u.opA f l) (u.opB f l)) fun s u => ∀ l ∈ s.exec u f.ga f.gb, u.opB f l ≠ 0 := by
  refine longResult32_of fun s e he hnz => ?_
  have hfind : (s.exec e.w f.ga f.gb).find? (fun l => e.w.opB f l == 0) = none := by simpa using hnz
  simp only [h, State.divide, State.onWarp, he, hfind, State.vOpLong, State.perLaneLong, hdests]

/-- Division by zero raises its trap in the lowest lane that meets it, and does nothing else. -/
theorem divide_by_zero {op reason : Nat} {f : Fields} {r : Bool → W32 → W32 → W32} {s : State} {e : Env} {l : Nat} (he : s.env = some e)
    (hl : (s.exec e.w f.ga f.gb).find? (fun l => e.w.opB f l == 0) = some l) :
    s.divide op reason f r = s.raise e { cause := 0x11, reason := reason, lane := l, info := (e.w.opA f l).setWidth 64 } := by
  simp only [State.divide, State.onWarp, he, hl]

theorem divTy_eq {ty : Nat} (h : intType ty) (a b : W32) : divTy (unsignedTy ty) a b = BitVec.ofInt 32 ((tyVal ty a).tdiv (tyVal ty b)) := by
  rw [divTy, ext32_tyVal h, ext32_tyVal h]
theorem remTy_eq {ty : Nat} (h : intType ty) (a b : W32) : remTy (unsignedTy ty) a b = BitVec.ofInt 32 ((tyVal ty a).tmod (tyVal ty b)) := by
  rw [remTy, ext32_tyVal h, ext32_tyVal h]

/-- Settles O13: the sums are taken exactly before they are narrowed, and `divide` looks for a zero divisor before it divides. -/
theorem dotProductsAndDivision : Obligations.DotProductsAndDivision := by
  refine ⟨fun w => ⟨rfl, rfl⟩, fun w => ⟨?idot4, ?isad⟩, fun w hty => ⟨?idiv, ?irem, fun s e l he hl => ⟨?idivZero, ?iremZero⟩⟩⟩
  case idot4 => exact .congr (result32_of_vOp fun _ => rfl) fun _ _ => (dotBytes_eq _ _ _ _).trans (narrow32_signed _ _)
  case isad => exact fun h => .congr (result32_of_vOp fun _ => rfl) fun _ _ => (sadBytes_eq h _ _ _).trans (narrow32_signed _ _)
  case idiv => exact .congr (longResult32_of_divide (fun _ => rfl) rfl) fun _ _ => divTy_eq hty _ _
  case irem => exact .congr (longResult32_of_divide (fun _ => rfl) rfl) fun _ _ => remTy_eq hty _ _
  case idivZero | iremZero => exact congrArg _ (divide_by_zero he hl)

end Sys2Proof.Machine

/-! PROOFS. The floating-point instructions (family 04_arithmetic_and_lane_instructions.md; R122 to R129). -/
namespace Sys2Proof.Machine

/-! ### The drivers of the family -/

/-- The `.sat` bit that a standard word has not. -/
theorem sat_std (w : Std) : (Fields.ofStd w).mhi.testBit 0 = false := Nat.zero_testBit 0

section
variable {i : Instr} {f : Fields} {sat : Bool}

/-- `flt2` rounds the exact result once. -/
theorem result32_of_flt2 {r : RMode → XReal → XReal → XReal} (h : ∀ s, exec i s = .next (s.flt2 f r)) (hsat : f.mhi.testBit 0 = sat) :
    Result32 i f fun u l => fres (ftOf f.mod) (rndOf f.mod) sat
      (r (rndOf f.mod) (fval (ftOf f.mod) (u.opA f l)) (fval (ftOf f.mod) (u.opBf f (ftOf f.mod) l))) :=
  hsat ▸ result32_of_vOp h

/-- `halves2` rounds the exact result of each half once. -/
theorem result32_of_halves2 {r : RMode → XReal → XReal → XReal} (h : ∀ s, exec i s = .next (s.halves2 f r)) (hsat : f.mhi.testBit 0 = sat) :
    let half := fun a b => fres (ftOf f.mod) (rndOf f.mod) sat (r (rndOf f.mod) (fval (ftOf f.mod) a) (fval (ftOf f.mod) b))
    Result32 i f fun u l => packHalves (half (loHalf (u.opA f l)) (loHalf (u.opBp f (ftOf f.mod) l)))
      (half (hiHalf (u.opA f l)) (hiHalf (u.opBp f (ftOf f.mod) l))) :=
  hsat ▸ result32_of_vOp h

/-- `vOpLong` whose opcode names D alone as destination gives one 32-bit result, at once or through its window. -/
theorem longResult32_of_vOpLong {op : Nat} {r : Warp → Nat → W32} (h : ∀ s, exec i s = .next (s.vOpLong op f r))
    (hdests : opDests op f = [.v f.d]) : LongResult32 i f r :=
  longResult32_of fun s e he _ => by simp only [h, State.vOpLong, State.perLaneLong, State.onWarp, he, hdests]

/-- `flt1Long` rounds a function of A once. -/
theorem longResult32_of_flt1Long {op : Nat} {r : XReal → XReal} (h : ∀ s, exec i s = .next (s.flt1Long op f r))
    (hdests : opDests op f = [.v f.d]) : LongResult32 i f fun u l => fres (ftOf f.mod) (rndOf f.mod) false (r (fval (ftOf f.mod) (u.opA f l))) :=
  longResult32_of_vOpLong h hdests
end

/-- Settles O14: each instruction runs `vOp`, `pOp` or `vOpLong` with one rounding of the exact result; a standard word has no `.sat` bit. -/
theorem floatArithmetic : Obligations.FloatArithmetic := by
  refine ⟨fun w => ⟨?fadd, ?fsub, ?fmul, ?fdiv, ?fsqrt, ?fmin, ?fmax, ?frnd, ?fclass, ?fcmp⟩, fun w => ⟨?faddExt, ?fsubExt, ?fmulExt, ?ffma, ?fcmpExt⟩⟩
  case fadd => exact result32_of_flt2 (r := XReal.add) (fun _ => rfl) (sat_std w)
  case fsub => exact result32_of_flt2 (r := XReal.sub) (fun _ => rfl) (sat_std w)
  case fmul => exact result32_of_flt2 (r := fun _ => XReal.mul) (fun _ => rfl) (sat_std w)
  case faddExt => exact result32_of_flt2 (r := XReal.add) (fun _ => rfl) rfl
  case fsubExt => exact result32_of_flt2 (r := XReal.sub) (fun _ => rfl) rfl
  case fmulExt => exact result32_of_flt2 (r := fun _ => XReal.mul) (fun _ => rfl) rfl
  case fdiv => exact longResult32_of_vOpLong (op := 0x04C) (fun _ => rfl) rfl
  case fsqrt => exact longResult32_of_flt1Long (op := 0x04B) (r := XReal.sqrt) (fun _ => rfl) rfl
  case fmin | fmax | frnd | fclass | ffma => exact result32_of_vOp fun _ => rfl
  case fcmp | fcmpExt => exact resultP_of_pOp fun _ => rfl

/-- Settles O15: each function runs `flt1Long` and each packed form `vOp`, half by half. -/
theorem floatFunctionsAndHalves : Obligations.FloatFunctionsAndHalves := by
  refine ⟨fun w => ⟨?frcp, ?frsq, ?fexp2, ?flog2, ?fsin, ?fcos, ?ftanh, ?fsig, ?hadd2, ?hmul2⟩, fun w => ⟨?hadd2Ext, ?hmul2Ext, ?hfma2, ?bfma2, ?fdot2⟩⟩
  case frcp => exact longResult32_of_flt1Long (r := fnRcp) (fun _ => rfl) rfl
  case frsq => exact longResult32_of_flt1Long (r := fnRsq) (fun _ => rfl) rfl
  case fexp2 => exact longResult32_of_flt1Long (r := fnExp2) (fun _ => rfl) rfl
  case flog2 => exact longResult32_of_flt1Long (r := fnLog2) (fun _ => rfl) rfl
  case fsin => exact longResult32_of_flt1Long (r := fnSin) (fun _ => rfl) rfl
  case fcos => exact longResult32_of_flt1Long (r := fnCos) (fun _ => rfl) rfl
  case ftanh => exact longResult32_of_flt1Long (r := fnTanh) (fun _ => rfl) rfl
  case fsig => exact longResult32_of_flt1Long (r := fnSig) (fun _ => rfl) rfl
  case hadd2 => exact result32_of_halves2 (r := XReal.add) (fun _ => rfl) (sat_std w)
  case hmul2 => exact result32_of_halves2 (r := fun _ => XReal.mul) (fun _ => rfl) (sat_std w)
  case hadd2Ext => exact result32_of_halves2 (r := XReal.add) (fun _ => rfl) rfl
  case hmul2Ext => exact result32_of_halves2 (r := fun _ => XReal.mul) (fun _ => rfl) rfl
  case hfma2 | bfma2 | fdot2 => exact result32_of_vOp fun _ => rfl

end Sys2Proof.Machine

/-! PROOFS. Predicates, moves, the uniform unit and special registers (family 04_arithmetic_and_lane_instructions.md; R135 to R141). -/
namespace Sys2Proof.Machine

/-! ### Predicates and moves (R135 to R138) -/

/-- `pred2` combines P(A) and P(B), negated by MOD[0] and MOD[1]. -/
theorem resultP_of_pred2 {i : Instr} {f : Fields} {r : Bool → Bool → Bool} (h : ∀ s, exec i s = .next (s.pred2 f r)) :
    ResultP i f fun u l => r (u.p l f.a != f.mod.testBit 0) (u.p l f.b != f.mod.testBit 1) :=
  resultP_of_pOp h

/-- The predicates of a lane as a register reads them, p15 as 1 (R136). -/
theorem getLsbD_predWord (u : Warp) (l : Nat) {k : Nat} (hk : k < 32) :
    (((1#1 ++ (u.lane l).p).setWidth 32 : W32)).getLsbD k = (decide (k < 16) && u.p l k) := by
  rw [BitVec.getLsbD_setWidth, decide_eq_true hk, Bool.true_and, BitVec.getLsbD_append, Warp.p]
  by_cases h15 : k < 15
  · have hne : (k == 15) = false := beq_false_of_ne (by omega)
    simp [h15, hne, show k < 16 by omega]
  · obtain rfl | h := Nat.eq_or_lt_of_le (Nat.le_of_not_lt h15)
    · simp
    · have hlt : ¬k < 16 := by omega
      simp [h15, hlt, show k - 15 ≠ 0 by omega]

/-- A list of writes to the predicates below `n` of a lane, and to nothing else. -/
theorem puts_predRange (l : Nat) (x : Nat → Bool) (t : Lane) (n : Nat) :
    let t' := ((List.range n).map fun k => RegWrite.p l k (x k)).foldl (Lane.put l) t
    t'.v = t.v ∧ ∀ k, t'.p.getLsbD k = if k < n ∧ k < 15 then x k else t.p.getLsbD k := by
  induction n with
  | zero => simp
  | succ n ih =>
    obtain ⟨hv, hp⟩ := ih
    simp only [List.range_succ, List.map_append, List.foldl_append, List.map_cons, List.map_nil, List.foldl_cons, List.foldl_nil, Lane.put, if_true]
    refine ⟨hv, fun k => ?_⟩
    rw [getLsbD_setPred, hp]
    by_cases hk : k = n
    · subst hk
      simp
    · have hlt : k < n + 1 ↔ k < n := by omega
      simp [hk, hlt]

/-- `pmov` to predicates: each predicate below 15 takes its bit of A (R136). -/
theorem results_pmov_in {w : Std} (hmod : (Fields.ofStd w).mod = 2) :
    Results (.pmov w) (Fields.ofStd w).ga (Fields.ofStd w).gb 15 0 nothing
      fun u l k => if k < 15 then some ((u.v l (Fields.ofStd w).a).getLsbD k) else none := by
  refine results_of_perLane (fun u l => (List.range 15).map fun k => .p l k ((u.v l (Fields.ofStd w).a).getLsbD k)) _
    (fun s _ _ _ => ?_) (fun u l x hx => ?_) ((List.range 15).map .p) (fun u l d hd => ?_) (by simp) (fun u l t k _ => ?_) fun u l t k => ?_
  · show execPmov w s = _
    simp only [execPmov, hmod]
  · obtain ⟨k, -, rfl⟩ := List.mem_map.1 hx
    simp [RegWrite.inLane]
  · obtain ⟨x, hx, hd⟩ := List.mem_filterMap.1 ((mem_dedup _ _).1 hd)
    obtain ⟨k, hk, rfl⟩ := List.mem_map.1 hx
    have hk15 : k < 15 := List.mem_range.1 hk
    simp only [hk15, if_true, Option.some.injEq] at hd
    exact List.mem_map.2 ⟨k, hk, hd⟩
  · rw [(puts_predRange l _ t 15).1]
    rfl
  · rw [(puts_predRange l _ t 15).2]
    by_cases hk : k < 15
    · simp [hk, show k ≠ 15 by omega]
    · simp [hk]

/-- Once for a warp: `uniform` commits its result if some lane has Exec, and nothing else (R111). -/
theorem uniform_of_warp {s : State} {e : Env} {f : Fields} {r : (Nat → W64) → W64} (hs : s.cur.stream = false) (he : s.env = some e)
    (hroom : e.w.logRoom 1 = true) :
    s.uniform f r = s.putWarp ((e.w.commit (if s.exec e.w f.ga f.gb = [] then [] else [.u f.d (r e.w.s)])).advance s.cur (s.act e.w)) := by
  have hn : (destsOf (if s.exec e.w f.ga f.gb = [] then [] else [RegWrite.u f.d (r e.w.s)])).length ≤ 1 := by
    split <;> simp [destsOf, dedup]
  simp only [State.uniform, hs, State.onWarp, he, List.isEmpty_iff, Bool.false_eq_true, if_false, State.finish_of_logRoom hroom hn]

theorem testBit_one_of_odd {mod : Nat} (h : mod = 1 ∨ mod = 3) : mod.testBit 1 = decide (mod = 3) := by
  rcases h with rfl | rfl <;> rfl

/-- `movs` to a uniform register: from the lane that B names modulo the width, or 0 where that lane is not in ACTIVE (R138). -/
theorem exec_movs_uniform {w : Std} {s : State} {e : Env} (hmod : (Fields.ofStd w).mod = 1 ∨ (Fields.ofStd w).mod = 3) (he : s.env = some e) :
    exec (.movs w) s = .next (s.uniform (.ofStd w) fun _ =>
      let l := ((Fields.ofStd w).uniB e.w.s).toNat % e.w.width
      if l ∈ s.act e.w then (if (Fields.ofStd w).mod = 3 then e.w.v2 l (Fields.ofStd w).a else (e.w.v l (Fields.ofStd w).a).setWidth 64) else 0) := by
  have hodd : ¬(Fields.ofStd w).mod % 2 = 0 := by omega
  show execMovs w s = _
  simp only [execMovs, hodd, if_false, State.onWarp, he, testBit_one_of_odd hmod, decide_eq_true_eq, List.contains_iff_mem]

/-- Settles O16: each form of a move is one branch of its meaning, and a move to a uniform register is one uniform write. -/
theorem predicatesAndMoves : Obligations.PredicatesAndMoves := by
  refine ⟨fun w => ⟨?pset, ?pand, ?por, ?pxor, ?pnot, fun h => ?pmov, fun h => ?pmovOut, results_pmov_in, fun h => ?mov, fun h => ?mov64,
    fun h => ?movs, fun h => ?movs64, fun h s e hs he hroom hd => ?movsU⟩, fun w => ⟨fun h => ?movi, fun h => ?movi64, fun h => ?moviU⟩⟩
  case pset => exact .congr (resultP_of_pOp fun _ => rfl) fun _ _ => by simp only [bne, beq_eq_decide, decide_not, ne_eq]
  case pand => exact resultP_of_pred2 (r := and) fun _ => rfl
  case por => exact resultP_of_pred2 (r := or) fun _ => rfl
  case pxor => exact .congr (resultP_of_pred2 (r := xor) fun _ => rfl) fun _ _ => (congrFun₂ Bool.bne_eq_xor _ _).symm
  case pnot => exact resultP_of_pOp fun _ => rfl
  case pmov => exact resultP_of_pOp fun s => show execPmov w s = _ by simp only [execPmov, h]
  case pmovOut => exact ⟨_, result32_of_vOp fun s => show execPmov w s = _ by simp only [execPmov, h], fun u l k hk => getLsbD_predWord u l hk⟩
  case mov => exact result32_of_vOp fun s => show execMov w s = _ by simp only [execMov, h]; rfl
  case mov64 => exact result64_of_vOp64 fun s => show execMov w s = _ by simp only [execMov, h]; rfl
  case movs => exact result32_of_vOp fun s => show execMovs w s = _ by simp only [execMovs, h]; rfl
  case movs64 => exact result64_of_vOp64 fun s => show execMovs w s = _ by simp only [execMovs, h]; rfl
  case movi => exact result32_of_vOp fun s => show execMovi w s = _ by simp only [execMovi, h]
  case movi64 => exact result64_of_vOp64 fun s => show execMovi w s = _ by simp only [execMovi, h]
  case moviU => exact resultU_of_uniform fun s => show execMovi w s = _ by simp only [execMovi, h]
  case movsU =>
    exact ⟨_, (exec_movs_uniform h he).trans (congrArg _ (uniform_of_warp hs he hroom)),
      wrote_uniform e.w s.cur _ (s.nodup_act _) (fun _ => State.lt_of_mem_act) _ _ _ hd⟩

/-! ### The uniform unit (R139) -/

theorem ResultU.congr {i : Instr} {f : Fields} {r r' : (Nat → W64) → W64} (h : ResultU i f r) (hr : ∀ u, r u = r' u) : ResultU i f r' :=
  (funext hr : r = r') ▸ h

/-- Settles O17: each instruction runs `uniform`; a count past the width shifts everything out. -/
theorem uniformUnit : Obligations.UniformUnit := by
  refine ⟨fun w => ⟨?sadd, ?ssub, ?sand, ?sor, fun h => ?sshl, fun h => ?sshr, fun h => ?ssar, fun hmod hcode => ?scmp⟩,
    fun w => ⟨?saddExt, ?ssubExt, ?sandExt, ?sorExt, fun hmod hcode => ?scmpExt⟩⟩
  case sshl => exact .congr (resultU_of_uniform fun _ => rfl) fun _ => by rw [h]; exact shiftLeft_eq _ _
  case sshr => exact .congr (resultU_of_uniform fun _ => rfl) fun _ => by rw [h]; exact shiftRight_eq _ _
  case ssar => exact .congr (resultU_of_uniform fun _ => rfl) fun _ => by rw [h]; exact shiftArith_eq _ _
  case scmp | scmpExt =>
    refine .congr (resultU_of_uniform fun _ => rfl) fun _ => ?_
    rw [uniCompare, intCompare_eq hmod hcode]
  all_goals exact resultU_of_uniform fun _ => rfl
end Sys2Proof.Machine

/-! PROOFS. Special registers, read and written (family 04_arithmetic_and_lane_instructions.md; R140, R141). -/
namespace Sys2Proof.Machine

/-! ### What an instruction of a warp commits -/

theorem mem_destsOf_v {l k : Nat} {x : W32} : ∀ d ∈ destsOf [.v l k x], d ∈ [Dest.v k] := by simp [destsOf, dedup]
theorem mem_destsOf_p {l k : Nat} {x : Bool} : ∀ d ∈ destsOf [.p l k x], d ∈ [Dest.p k] := by
  intro d hd
  by_cases hk : k < 15 <;> simp_all [destsOf, dedup]
theorem mem_destsOf_writePair {l k : Nat} {x : W64} : ∀ d ∈ destsOf (writePair l k x), d ∈ [Dest.v k, .v (k + 1)] := by
  intro d hd
  simpa [writePair] using (mem_dedup _ _).1 hd

section
variable {i : Instr} {f : Fields} {s : State} {e : Env} {n : Nat}

theorem Commits.congr {ws ws' : List RegWrite} (h : Commits i s e ws) (hws : ws = ws') : Commits i s e ws' := hws ▸ h

/-- A lane-by-lane instruction commits what its lanes write, if that finds room in the undo log. -/
theorem commits_of_perLane {g : Warp → Nat → List RegWrite} {ds : List Dest} (h : exec i s = .next (s.perLane f g)) (he : s.env = some e)
    (hroom : e.w.logRoom n = true) (hds : ∀ l, ∀ d ∈ destsOf (g e.w l), d ∈ ds) (hn : ds.length ≤ n) :
    Commits i s e ((s.exec e.w f.ga f.gb).flatMap (g e.w)) := by
  have hlen : (destsOf ((s.exec e.w f.ga f.gb).flatMap (g e.w))).length ≤ n :=
    Nat.le_trans (length_dedup_le fun d hd => destsOf_flatMap_le hds _ d ((mem_dedup _ _).2 hd)) hn
  rw [Commits, h]
  simp only [State.perLane, State.onWarp, he, State.finish_of_logRoom hroom hlen]

theorem commits_of_vOp {r : Warp → Nat → W32} (h : exec i s = .next (s.vOp f r)) (he : s.env = some e) (hroom : e.w.logRoom 1 = true) :
    Commits i s e ((s.exec e.w f.ga f.gb).map fun l => .v l f.d (r e.w l)) := by
  rw [List.map_eq_flatMap]
  exact commits_of_perLane (g := fun w l => [.v l f.d (r w l)]) h he hroom (fun _ => mem_destsOf_v) (Nat.le_refl 1)
theorem commits_of_vOp64 {r : Warp → Nat → W64} (h : exec i s = .next (s.vOp64 f r)) (he : s.env = some e) (hroom : e.w.logRoom 2 = true) :
    Commits i s e ((s.exec e.w f.ga f.gb).flatMap fun l => writePair l f.d (r e.w l)) :=
  commits_of_perLane (g := fun w l => writePair l f.d (r w l)) h he hroom (fun _ => mem_destsOf_writePair) (Nat.le_refl 2)
theorem commits_of_pOp {r : Warp → Nat → Bool} (h : exec i s = .next (s.pOp f r)) (he : s.env = some e) (hroom : e.w.logRoom 1 = true) :
    Commits i s e ((s.exec e.w f.ga f.gb).map fun l => .p l f.d (r e.w l)) := by
  rw [List.map_eq_flatMap]
  exact commits_of_perLane (g := fun w l => [.p l f.d (r w l)]) h he hroom (fun _ => mem_destsOf_p) (Nat.le_refl 1)
end

/-! ### The layout of special registers (01 R23, R24, R28; 07 R248) -/

theorem sprLane_lvlShape (s : State) (e : Env) (l : Nat) : s.sprLane e l 0x003 = lvlShape e.l.hdr e.b.batch.isSome := rfl
theorem sprLane_coreLoc (s : State) (e : Env) (l : Nat) : s.sprLane e l 0x005 = (coreLoc e.b.core (quarterOf e.w.slot) e.b.winSlot).setWidth 64 := rfl
theorem sprLane_specctl (s : State) (e : Env) (l : Nat) : s.sprLane e l 0x018 = (e.w.spec.word (s.outstanding e.w)).setWidth 64 := rfl
theorem sprLane_rowprog (s : State) (e : Env) (l : Nat) : s.sprLane e l 0x020 = e.b.rowprog := rfl

theorem foldl_add_range_six (g : Nat → Nat) (c : Nat) :
    (List.range 6).foldl (fun acc k => acc + g k) c = c + g 0 + g 1 + g 2 + g 3 + g 4 + g 5 := rfl

/-- LVLSHAPE of a launch: six widths of seven bits, and the block level above them. -/
theorem lvlShape_launch (h : Header) :
    lvlShape h false = BitVec.ofNat 64 (h.blk * 2 ^ 42 + h.widths.getD 0 0 * 2 ^ (7 * 0) + h.widths.getD 1 0 * 2 ^ (7 * 1) +
      h.widths.getD 2 0 * 2 ^ (7 * 2) + h.widths.getD 3 0 * 2 ^ (7 * 3) + h.widths.getD 4 0 * 2 ^ (7 * 4) + h.widths.getD 5 0 * 2 ^ (7 * 5)) :=
  congrArg (BitVec.ofNat 64) (foldl_add_range_six (fun k => h.widths.getD k 0 * 2 ^ (7 * k)) _)

theorem bits_lvlShape {h : Header} (hw : ∀ k < 6, h.widths.getD k 0 < 128) (hb : h.blk < 8) :
    let x := (lvlShape h false).toNat
    (∀ k < 6, bits x (7 * k + 6) (7 * k) = h.widths.getD k 0) ∧ bits x 44 42 = h.blk ∧ bits x 63 45 = 0 := by
  have h0 := hw 0 (by decide); have h1 := hw 1 (by decide); have h2 := hw 2 (by decide)
  have h3 := hw 3 (by decide); have h4 := hw 4 (by decide); have h5 := hw 5 (by decide)
  rw [lvlShape_launch, BitVec.toNat_ofNat]
  unfold bits
  refine ⟨fun k hk => ?_, by omega, by omega⟩
  interval_cases k <;> omega

theorem bits_coreLoc {core slot winSlot : Nat} (hs : winSlot < 64) (hq : slot < 64) (hc : core < 192) :
    let x := ((coreLoc core (quarterOf slot) winSlot).setWidth 64).toNat
    bits x 5 0 = winSlot ∧ bits x 7 6 = slot / 16 ∧ bits x 15 8 = core ∧ bits x 63 16 = if 96 ≤ core then 1 else 0 := by
  simp only [coreLoc, quarterOf, bits, BitVec.toNat_setWidth, BitVec.toNat_ofNat]
  split <;> omega

theorem bits_specWord {x : Spec} {n : Nat} (hc : x.crfl < 1024) (hu : x.ulog < 32) (hn : n < 64) (he : x.emits.length < 16) (hm : x.cmds.length < 16) :
    let y := ((x.word n).setWidth 64).toNat
    bits y 0 0 = x.soff.toNat ∧ bits y 10 1 = x.crfl ∧ bits y 15 11 = x.ulog ∧ bits y 21 16 = n ∧
      bits y 25 22 = x.emits.length ∧ bits y 29 26 = x.cmds.length ∧ bits y 63 30 = 0 := by
  have hb := x.soff.toNat_lt
  simp only [Spec.word, bits, BitVec.toNat_setWidth, BitVec.toNat_ofNat]
  and_intros <;> omega

theorem bits_rowprog {b : Block} {x : Stream} (hx : b.stream = some x) (hn : x.next < 256) :
    bits b.rowprog.toNat 7 0 = x.next ∧ bits b.rowprog.toNat 63 8 = x.run.toNat := by
  have hb := x.run.toNat_lt
  simp only [Block.rowprog, hx, bits, BitVec.toNat_ofNat]
  omega

/-! ### `sprrd` (R140) -/

section
variable {w : Std} {s : State} {e : Env} (he : s.env = some e) (hs : s.cur.stream = false)
include he hs

theorem exec_sprrd_v (hmod : (Fields.ofStd w).mod = 0) :
    exec (.sprrd w) s = .next (s.vOp (.ofStd w) fun _ l => lo32 (s.sprLane e l (Fields.ofStd w).a)) := by
  show execSprrd w s = _
  simp only [execSprrd, hs, State.onWarp, he, hmod, Bool.false_eq_true, if_false]
theorem exec_sprrd_pair (hmod : (Fields.ofStd w).mod = 1) :
    exec (.sprrd w) s = .next (s.vOp64 (.ofStd w) fun _ l => s.sprLane e l (Fields.ofStd w).a) := by
  show execSprrd w s = _
  simp only [execSprrd, hs, State.onWarp, he, hmod, Bool.false_eq_true, if_false]
theorem exec_sprrd_u (hmod : (Fields.ofStd w).mod = 2) :
    exec (.sprrd w) s = .next (s.uniform (.ofStd w) fun _ => s.sprLane e 0 (Fields.ofStd w).a) := by
  show execSprrd w s = _
  simp only [execSprrd, hs, State.onWarp, he, hmod, Bool.false_eq_true, if_false]
end

theorem exec_sprrd_stream {w : Std} {s : State} {e : SEnv} (he : s.senv = some e) (hs : s.cur.stream = true) :
    exec (.sprrd w) s = .next (s.putStream e.b.id ((e.x.setReg (Fields.ofStd w).d (s.sprCommon e.b e.l 0 (Fields.ofStd w).a)).advance s.cur)) := by
  show execSprrd w s = _
  simp only [execSprrd, hs, State.onStream, he, if_true, State.uniform]

/-- Settles O18: the forms of `sprrd` are its branches, and each register's bits are those its word is put together from. -/
theorem specialRegisterReads : Obligations.SpecialRegisterReads := by
  refine ⟨fun w s e he hs => ⟨fun h hroom => ?v, fun h hroom => ?pair, fun h hroom => ?uni⟩, fun w s e he hs => exec_sprrd_stream he hs, fun s e l =>
    ⟨rfl, rfl, rfl, rfl, rfl, rfl, rfl, rfl, rfl, rfl, rfl, rfl, rfl, rfl, rfl, ⟨fun hbatch => ?batch, fun hbatch hw hb => ?launch⟩, ?coreLoc, ?specCtl,
      fun hx => ?noStream, fun x hx hn => ?rowProg⟩⟩
  case v => exact (commits_of_vOp (exec_sprrd_v he hs h) he hroom).congr rfl
  case pair => exact (commits_of_vOp64 (exec_sprrd_pair he hs h) he hroom).congr rfl
  case uni => exact (exec_sprrd_u he hs h).trans (congrArg _ (uniform_of_warp hs he hroom))
  case batch =>
    rw [sprLane_lvlShape, hbatch]
    rfl
  case launch =>
    rw [sprLane_lvlShape, hbatch]
    exact bits_lvlShape hw hb
  case coreLoc =>
    rw [sprLane_coreLoc]
    exact bits_coreLoc
  case specCtl =>
    rw [sprLane_specctl]
    exact bits_specWord
  case rowProg =>
    rw [sprLane_rowprog]
    exact bits_rowprog hx hn
  case noStream => rw [sprLane_rowprog, Block.rowprog, hx]

/-! ### `sprwr` (R141) -/

/-- A warp after `sprwr` has written a trap register: it moves on, and apart from the trap registers and the format decoded at TRAPPC nothing else
has changed. -/
theorem wrote_trapRegs (w : Warp) (i : Issue) {act : List Nat} (hn : act.Nodup) (hact : ∀ l ∈ act, l < w.width) (t : TrapRegs) (x : Option Bool) :
    let v := (({ w with regs := { w.regs with trap := t }, decodedExt := x } : Warp).commit []).advance i act
    Wrote w { v with regs := { v.regs with trap := w.regs.trap }, decodedExt := w.decodedExt } i act w.v w.p w.s w.bnr ∧ v.regs.trap = t := by
  intro v
  have h := wrote_commit_advance_last { w with regs := { w.regs with trap := t }, decodedExt := x } i hn hact (ws := []) (by simp)
  exact ⟨{ v := h.v, p := h.p, u := h.u, bn := h.bn, pc := h.pc, thread := h.thread, width := h.width, trap := rfl, fmt := h.fmt
           windows := h.windows, spec := rfl, others := rfl }, h.trap⟩

theorem trapRegs_write (t : TrapRegs) {k : Nat} (hk : k ∈ [0x010, 0x011, 0x012, 0x013, 0x014]) (x : W64) :
    t.write k x = { t with
      cause := if k = 0x010 then lo32 x &&& 0x01FFFFFF else t.cause
      pc := if k = 0x011 then x &&& ~~~7 else t.pc
      info := if k = 0x012 then x else t.info
      aux := if k = 0x013 then x else t.aux
      tba := if k = 0x014 then x &&& ~~~7 else t.tba } := by
  simp only [List.mem_cons, List.not_mem_nil, or_false] at hk
  rcases hk with rfl | rfl | rfl | rfl | rfl <;> rfl

section
variable {w : Std} {s : State} {e : Env} {l : Nat} {ls : List Nat} (he : s.env = some e) (hs : s.cur.stream = false)
  (hex : s.exec e.w (Fields.ofStd w).ga (Fields.ofStd w).gb = l :: ls)
include he hs hex

/-- A write that is allowed: TBA at any time, the others in a handler. -/
theorem exec_sprwr (h : (Fields.ofStd w).d = 0x014 ∨ e.w.regs.trap.inHandler = true) :
    let f := Fields.ofStd w
    let x : W64 := if f.mod.testBit 0 ∨ f.bk ≠ 0 then e.w.opB64 f l else (e.w.opB f l).setWidth 64
    exec (.sprwr w) s = .next (s.putWarp ((({ e.w with
      regs := { e.w.regs with trap := e.w.regs.trap.write f.d x }
      decodedExt := if f.d = 0x011 then none else e.w.decodedExt } : Warp).commit []).advance s.cur (s.act e.w))) := by
  have hguard : ((Fields.ofStd w).d != 0x014 && !e.w.regs.trap.inHandler) = false := by
    rcases h with h | h <;> simp [h]
  show execSprwr w s = _
  simp only [execSprwr, hs, State.onWarp, he, hex, hguard, Bool.false_eq_true, if_false, Bool.or_eq_true, bne_iff_ne]

/-- Outside a handler a write of any other special register is a privilege trap. -/
theorem exec_sprwr_privilege (hd : (Fields.ofStd w).d ≠ 0x014) (hh : e.w.regs.trap.inHandler = false) :
    exec (.sprwr w) s = .next (s.raise e { cause := 7, reason := 3, lane := l, info := 0 }) := by
  have hguard : ((Fields.ofStd w).d != 0x014 && !e.w.regs.trap.inHandler) = true := by simp [hd, hh]
  show execSprwr w s = _
  simp only [execSprwr, hs, State.onWarp, he, hex, hguard, Bool.false_eq_true, if_false, if_true]
end

theorem exec_sprwr_stream {w : Std} {s : State} {e : SEnv} (he : s.senv = some e) (hs : s.cur.stream = true) (hopen : s.tileStepOpen e.b.id = false) :
    exec (.sprwr w) s = .next (s.putStream e.b.id ({ e.x with next := ((Fields.ofStd w).uniB e.x.reg).toNat % 256 }.advance s.cur)) := by
  show execSprwr w s = _
  simp only [execSprwr, hs, State.onStream, he, hopen, Bool.false_eq_true, if_false, if_true]
  rfl

/-- Settles O19: the guard of `sprwr` decides between the trap and one write of the trap registers. -/
theorem specialRegisterWrites : Obligations.SpecialRegisterWrites := by
  refine ⟨fun w s e l ls he hs hex => ⟨fun h hd => ?_, fun hd hh => exec_sprwr_privilege he hs hex hd hh⟩, fun w s e he hs => exec_sprwr_stream he hs⟩
  obtain ⟨hwrote, htrap⟩ := wrote_trapRegs e.w s.cur (s.nodup_act e.w) (fun _ => State.lt_of_mem_act) _ _
  exact ⟨_, exec_sprwr he hs hex h, hwrote, htrap.trans (trapRegs_write _ hd _)⟩

end Sys2Proof.Machine

/-! PROOFS. The cross-lane instructions (family 04_arithmetic_and_lane_instructions.md; R143 to R153). -/
namespace Sys2Proof.Machine

/-! ### What a long-latency instruction of a warp commits -/

section
variable {i : Instr} {f : Fields} {s : State} {e : Env} {n : Nat} {ds : List Dest}

theorem commitsLong_of_finishLong {ws : List RegWrite} (h : exec i s = .next (s.finishLong e f.la ds ws)) (hroom : e.w.logRoom n = true)
    (hws : ∀ d ∈ destsOf ws, d ∈ ds) (hn : ds.length ≤ n) : CommitsLong i f s e ds ws := by
  have hlog : e.w.logRoom (dedup (ds ++ destsOf ws)).length = true :=
    logRoom_mono hroom (Nat.le_trans (length_dedup_le fun d hd => (List.mem_append.1 hd).elim id (hws d)) hn)
  refine ⟨fun hla => ?_, fun hla => ?_⟩
  · rw [Commits, h]
    simp only [State.finishLong, hlog, hla, Bool.not_true, Bool.false_eq_true, if_false, and_self, if_true]
  · simp only [State.finishLong, hlog, hla, Bool.not_true, Bool.false_eq_true, if_false, false_and] at h
    exact ⟨_, h, wrote_advance e.w s.cur (s.act e.w) (s.nodup_act _) (fun l h => State.lt_of_mem_act h) _, rfl, rfl⟩

theorem commitsLong_of_perLaneLong {op : Nat} {g : Warp → Nat → List RegWrite} (h : exec i s = .next (s.perLaneLong op f g)) (he : s.env = some e)
    (hroom : e.w.logRoom n = true) (hdests : opDests op f = ds) (hg : ∀ l, ∀ d ∈ destsOf (g e.w l), d ∈ ds) (hn : ds.length ≤ n) :
    CommitsLong i f s e ds ((s.exec e.w f.ga f.gb).flatMap (g e.w)) := by
  refine commitsLong_of_finishLong ?_ hroom (destsOf_flatMap_le hg _) hn
  rw [h, ← hdests]
  simp only [State.perLaneLong, State.onWarp, he]

theorem commitsLong_of_vOpLong {op : Nat} {r : Warp → Nat → W32} (h : exec i s = .next (s.vOpLong op f r)) (he : s.env = some e)
    (hroom : e.w.logRoom 1 = true) (hdests : opDests op f = [.v f.d]) :
    CommitsLong i f s e [.v f.d] ((s.exec e.w f.ga f.gb).map fun l => .v l f.d (r e.w l)) := by
  rw [List.map_eq_flatMap]
  exact commitsLong_of_perLaneLong (g := fun w l => [.v l f.d (r w l)]) h he hroom hdests (fun _ => mem_destsOf_v) (Nat.le_refl 1)

theorem CommitsLong.congr {ws ws' : List RegWrite} (h : CommitsLong i f s e ds ws) (hws : ws = ws') : CommitsLong i f s e ds ws' := hws ▸ h
end

/-! ### Votes and populations (R149, R153) -/

section
variable {α : Type} (xs : List α) (p : α → Bool)

theorem length_filter_beq_length : ((xs.filter p).length == xs.length) = xs.all p := by
  rw [Bool.eq_iff_iff, beq_iff_eq, List.length_filter_eq_length_iff, List.all_eq_true]
theorem isEmpty_filter : (xs.filter p).isEmpty = xs.all fun x => !p x := by
  rw [Bool.eq_iff_iff]
  simp
theorem not_isEmpty_filter : (!(xs.filter p).isEmpty) = xs.any p := by
  rw [isEmpty_filter, List.not_all_eq_any_not]
  simp
end

/-- Counting below a bound `m` what is found only below `n`. -/
theorem countP_range_and_lt {n m : Nat} {p : Nat → Bool} (hp : ∀ j, n ≤ j → p j = false) :
    ((List.range n).countP fun j => p j && decide (j < m)) = (List.range m).countP p := by
  obtain ⟨d, rfl⟩ | ⟨d, rfl⟩ := (Nat.le_total n m).imp Nat.exists_eq_add_of_le Nat.exists_eq_add_of_le
  · rw [List.range_add, List.countP_append, List.countP_map]
    have htail : (List.range d).countP (p ∘ (n + ·)) = 0 := List.countP_eq_zero.2 fun j _ => by simp [hp (n + j)]
    rw [htail, Nat.add_zero]
    refine List.countP_congr fun j hj => ?_
    have hlt : j < n + d := Nat.lt_add_right d (List.mem_range.1 hj)
    simp [hlt]
  · rw [List.range_add, List.countP_append, List.countP_map]
    have htail : (List.range d).countP ((fun j => p j && decide (j < m)) ∘ (m + ·)) = 0 := List.countP_eq_zero.2 fun j _ => by simp
    rw [htail, Nat.add_zero]
    refine List.countP_congr fun j hj => ?_
    simp [List.mem_range.1 hj]

theorem getLsbD_lowMask (k : Nat) {j : Nat} (hj : j < 64) : (BitVec.ofNat 64 (2 ^ k - 1)).getLsbD j = decide (j < k) := by
  rw [BitVec.getLsbD_ofNat, Nat.testBit_two_pow_sub_one, decide_eq_true hj, Bool.true_and]

/-- The population of a word whose bits are those of a test, below a width. -/
theorem countOnes_eq_countP {a : W64} {width : Nat} {p : Nat → Bool} (hp : ∀ j, 64 ≤ j → p j = false)
    (ha : ∀ j < 64, a.getLsbD j = (p j && decide (j < width))) : countOnes a = (List.range width).countP p := by
  rw [← countP_range_and_lt hp, countOnes, length_filter_countP]
  exact List.countP_congr fun j hj => by rw [ha j (List.mem_range.1 hj)]

/-- What `popm` counts: the mask's bits below the warp's width, under MOD[0] those of lower lanes (R153; log entry 22). -/
theorem popm_eq (m : W64) (width l : Nat) (below : Bool) :
    (if below then countOnes (m &&& BitVec.ofNat 64 (2 ^ width - 1) &&& BitVec.ofNat 64 (2 ^ l - 1)) else countOnes (m &&& BitVec.ofNat 64 (2 ^ width - 1)))
      = (List.range width).countP fun j => m.getLsbD j && (!below || decide (j < l)) := by
  have hm (j : Nat) (hj : 64 ≤ j) : m.getLsbD j = false := BitVec.getLsbD_of_ge m j hj
  cases below
  · refine countOnes_eq_countP (fun j hj => by simp [hm j hj]) fun j hj => ?_
    rw [BitVec.getLsbD_and, getLsbD_lowMask width hj]
    simp
  · refine countOnes_eq_countP (fun j hj => by simp [hm j hj]) fun j hj => ?_
    rw [BitVec.getLsbD_and, BitVec.getLsbD_and, getLsbD_lowMask width hj, getLsbD_lowMask l hj]
    simp [Bool.and_right_comm]

/-! ### The meanings, in a warp that issues them -/

/-- A lane's part of a scan: the lanes up to its own, without it under MOD[4]. -/
theorem scan_test_eq (below : Bool) (j l : Nat) :
    (decide (j < l) || (j == l && !below)) = if below then decide (j < l) else decide (j ≤ l) := by
  cases below
  · rw [Bool.eq_iff_iff]
    simp [Nat.le_iff_lt_or_eq]
  · simp

section
variable {w : Std} {s : State} {e : Env} (he : s.env = some e)
include he

theorem exec_shfl :
    let f := Fields.ofStd w
    exec (.shfl w) s = .next (s.vOpLong 0x0A3 f fun u l =>
      let src := shflSource u.width f.mod l (u.opB f l).toNat
      if src ∈ s.exec e.w f.ga f.gb then u.v src f.a else 0) := by
  show execShfl w s = _
  simp only [execShfl, State.onWarp, he, List.contains_iff_mem]

theorem exec_redux :
    let f := Fields.ofStd w
    exec (.redux w) s = .next (s.vOpLong 0x0A5 f fun _ _ => reduce f.mod ((s.exec e.w f.ga f.gb).map fun j => e.w.v j f.a)) := by
  show execRedux w s = _
  simp only [execRedux, State.onWarp, he]

theorem exec_scan :
    let f := Fields.ofStd w
    exec (.scan w) s = .next (s.vOpLong 0x0A6 f fun u l => reduce f.mod
      (((s.exec e.w f.ga f.gb).filter fun j => if f.mod.testBit 4 then decide (j < l) else decide (j ≤ l)).map fun j => u.v j f.a)) := by
  show execScan w s = _
  simp only [execScan, State.onWarp, he, scan_test_eq]

theorem exec_matchLanes :
    let f := Fields.ofStd w
    exec (.matchLanes w) s = .next (s.perLaneLong 0x0A7 f fun u l => writePair l f.d (maskOf ((s.exec e.w f.ga f.gb).filter fun j =>
      if f.mod.testBit 0 then u.v2 j f.a == u.v2 l f.a else u.v j f.a == u.v l f.a))) := by
  show execMatchLanes w s = _
  simp only [execMatchLanes, State.onWarp, he]

theorem exec_bnmov :
    let f := Fields.ofStd w
    let on := s.exec e.w f.ga f.gb
    exec (.bnmov w) s = .next (s.finishLong e f.la (opDests 0x0A2 f) (on.map fun l => .v l f.d
      ((netApply (netSize e.w.width) (e.w.bnr f.b) ((List.range e.w.width).map fun q => if q ∈ on then e.w.v q f.a else 0) 0).getD l 0))) := by
  show execBnmov w s = _
  simp only [execBnmov, State.onWarp, he, List.contains_iff_mem]

theorem exec_bnperm (hon : s.exec e.w (Fields.ofStd w).ga (Fields.ofStd w).gb ≠ []) :
    let f := Fields.ofStd w
    let on := s.exec e.w f.ga f.gb
    let ok := netOk e.w.width fun l => if l ∈ on then some (e.w.v l f.a).toNat else none
    exec (.bnperm w) s = .next (s.finishLong e f.la (opDests 0x0A1 f)
      (.bn f.d (netWord (route (netSize e.w.width) (netSize e.w.width) 0 (netPerm e.w.width ok)))
        :: if f.mod % 16 = 15 then [] else on.map fun l => .p l (f.mod % 16) (ok.any fun p => p.1 == l))) := by
  have hemp : (s.exec e.w (Fields.ofStd w).ga (Fields.ofStd w).gb).isEmpty = false := by simpa using hon
  show execBnperm w s = _
  simp only [execBnperm, State.onWarp, he, hemp, List.contains_iff_mem, Bool.false_eq_true, if_false]

theorem exec_vote_all (hmod : (Fields.ofStd w).mod % 4 = 0) :
    let f := Fields.ofStd w
    exec (.vote w) s = .next (s.pOp f fun _ _ => (s.exec e.w f.ga f.gb).all fun j => e.w.p j f.a != f.mod.testBit 2) := by
  show execVote w s = _
  simp only [execVote, State.onWarp, he, hmod, length_filter_beq_length]

theorem exec_vote_any (hmod : (Fields.ofStd w).mod % 4 = 1) :
    let f := Fields.ofStd w
    exec (.vote w) s = .next (s.pOp f fun _ _ => (s.exec e.w f.ga f.gb).any fun j => e.w.p j f.a != f.mod.testBit 2) := by
  show execVote w s = _
  simp only [execVote, State.onWarp, he, hmod, not_isEmpty_filter]

theorem exec_vote_uniform (hmod : (Fields.ofStd w).mod % 4 = 2) :
    let f := Fields.ofStd w
    exec (.vote w) s = .next (s.pOp f fun _ _ =>
      ((s.exec e.w f.ga f.gb).all fun j => e.w.p j f.a != f.mod.testBit 2) || (s.exec e.w f.ga f.gb).all fun j => e.w.p j f.a == f.mod.testBit 2) := by
  show execVote w s = _
  simp only [execVote, State.onWarp, he, hmod, isEmpty_filter, length_filter_beq_length, bne, Bool.not_not, Bool.or_comm]

theorem exec_vote_mask (hmod : (Fields.ofStd w).mod % 4 = 3) :
    let f := Fields.ofStd w
    exec (.vote w) s = .next (s.vOp64 f fun _ _ => maskOf ((s.exec e.w f.ga f.gb).filter fun j => e.w.p j f.a != f.mod.testBit 2)) := by
  show execVote w s = _
  simp only [execVote, State.onWarp, he, hmod]
end

theorem exec_popm (w : Std) (s : State) :
    let f := Fields.ofStd w
    exec (.popm w) s = .next (s.vOp f fun u l =>
      BitVec.ofNat 32 ((List.range u.width).countP fun j => (u.opA64 f l).getLsbD j && (!f.mod.testBit 0 || decide (j < l)))) := by
  show execPopm w s = _
  simp only [execPopm, popm_eq]

/-- The destinations of `bnperm`: its network and, unless MOD[3:0] is 15, the predicate that tells which requests were honoured. -/
theorem opDests_bnperm (f : Fields) : opDests 0x0A1 f = [.bn f.d] ++ if f.mod % 16 = 15 then [] else [.p (f.mod % 16)] := by
  by_cases h : f.mod % 16 = 15 <;> simp [opDests, opSpec, laneSpec, clsDests, h]

/-- The results of `bnperm` name its destinations only. -/
theorem mem_destsOf_bnperm {f : Fields} {x : BitVec 352} {on : List Nat} {g : Nat → Bool} :
    ∀ d ∈ destsOf (.bn f.d x :: if f.mod % 16 = 15 then [] else on.map fun l => .p l (f.mod % 16) (g l)),
      d ∈ [Dest.bn f.d] ++ if f.mod % 16 = 15 then [] else [.p (f.mod % 16)] := by
  intro d hd
  have hd := (mem_dedup _ _).1 hd
  by_cases h : f.mod % 16 = 15
  · simpa [h] using hd
  · have hlt : f.mod % 16 < 15 := by omega
    simp only [h, if_false, List.filterMap_cons, List.filterMap_map, List.mem_cons, List.mem_filterMap, Function.comp_apply, hlt, if_true,
      Option.some.injEq] at hd
    rcases hd with rfl | ⟨l, -, rfl⟩ <;> simp [h]

/-- Settles O20: each meaning is one driver over the lanes with Exec; the votes and populations count as the list's own tests do. -/
theorem crossLaneResults : Obligations.CrossLaneResults := by
  intro w s e he
  refine ⟨fun hroom => ⟨?shfl, ?redux, ?scan, ?bnmov, fun h => ?all, fun h => ?any, fun h => ?uniform, ?popm⟩,
    fun hroom => ⟨fun h => ?mask, ?matchLanes, fun hon => ?bnperm⟩⟩
  case shfl => exact (commitsLong_of_vOpLong (exec_shfl he) he hroom rfl).congr rfl
  case redux => exact (commitsLong_of_vOpLong (exec_redux he) he hroom rfl).congr rfl
  case scan => exact (commitsLong_of_vOpLong (exec_scan he) he hroom rfl).congr rfl
  case bnmov =>
    refine commitsLong_of_finishLong (exec_bnmov he) hroom (fun d hd => ?_) (Nat.le_refl 1)
    rw [List.map_eq_flatMap] at hd
    exact destsOf_flatMap_le (fun _ => mem_destsOf_v) _ d hd
  case all => exact (commits_of_pOp (exec_vote_all he h) he hroom).congr rfl
  case any => exact (commits_of_pOp (exec_vote_any he h) he hroom).congr rfl
  case uniform => exact (commits_of_pOp (exec_vote_uniform he h) he hroom).congr rfl
  case popm => exact (commits_of_vOp (exec_popm w s) he hroom).congr rfl
  case mask => exact (commits_of_vOp64 (exec_vote_mask he h) he hroom).congr rfl
  case matchLanes => exact (commitsLong_of_perLaneLong (exec_matchLanes he) he hroom rfl (fun _ => mem_destsOf_writePair) (Nat.le_refl 2)).congr rfl
  case bnperm =>
    refine commitsLong_of_finishLong ((exec_bnperm he hon).trans ?_) hroom mem_destsOf_bnperm ?_
    · rw [opDests_bnperm]
    · split <;> simp

end Sys2Proof.Machine

/-! PROOFS. Conversion and block packing (family 04_arithmetic_and_lane_instructions.md; R130 to R134). -/
namespace Sys2Proof.Machine

theorem wideTy_iff (ty : Nat) : wideTy ty = true ↔ ty = 0x08 ∨ ty = 0x0C := by
  simp [wideTy]

/-- A conversion writes one register or, for a 64-bit type, a pair. -/
theorem mem_destsOf_convertWrites {ty l k : Nat} {x : W64} : ∀ d ∈ destsOf (convertWrites ty l k x), d ∈ [Dest.v k, .v (k + 1)] := by
  unfold convertWrites
  split
  · exact mem_destsOf_writePair
  · exact fun d hd => List.mem_cons.2 (.inl (List.mem_singleton.1 (mem_destsOf_v d hd)))

/-- Registers that hold `n` values from register `k` on. -/
theorem mem_destsOf_vRange {l k n : Nat} {x : Nat → W32} :
    ∀ d ∈ destsOf ((List.range n).map fun i => .v l (k + i) (x i)), d ∈ (List.range n).map fun i => Dest.v (k + i) := by
  intro d hd
  simpa [List.filterMap_map, List.mem_filterMap] using (mem_dedup _ _).1 hd

section
variable {w : Std} {s : State} {e : Env} (he : s.env = some e)
include he

/-- Under .rs a lane's random value comes of the discarded bits of its neighbours with Exec (R132). -/
theorem exec_cvt :
    let f := Fields.ofStd w
    let st := f.b % 32
    let disc := fun l => if l ∈ s.exec e.w f.ga f.gb then convertDiscard f.mod st (e.w.opSt f st l) else 0
    let n := e.w.width
    let g := fun l => if f.b / 32 % 8 = 4 then stochastic (disc ((l + n - 1) % n)) (disc ((l + 1) % n)) else 0
    exec (.cvt w) s = .next (s.perLane f fun u l =>
      convertWrites f.mod l f.d (convert f.mod st (f.b / 32 % 8) (f.b / 256 == 1) (u.opSt f st l) (g l))) := by
  show execCvt w s = _
  simp only [execCvt, State.onWarp, he, List.contains_iff_mem]
end

section
variable {i : Instr} {f : Fields} {s : State} {e : Env} {n : Nat}

/-- A lane-by-lane instruction that writes `n` registers from D on. -/
theorem commits_of_vRange {x : Warp → Nat → Nat → W32} (h : exec i s = .next (s.perLane f fun u l => (List.range n).map fun k => .v l (f.d + k) (x u l k)))
    (he : s.env = some e) (hroom : e.w.logRoom n = true) :
    Commits i s e ((s.exec e.w f.ga f.gb).flatMap fun l => (List.range n).map fun k => .v l (f.d + k) (x e.w l k)) :=
  commits_of_perLane (g := fun u l => (List.range n).map fun k => .v l (f.d + k) (x u l k)) h he hroom (fun _ => mem_destsOf_vRange) (by simp)
end

theorem exec_bxpack (w : Ext) (s : State) :
    let f := Fields.ofExt w
    let block := fun (u : Warp) l =>
      bxPack (bxMant f.mod) ((List.range 16).map (u.unpacked (f.mhi % 32) f.a l)) ((RMode.ofCode (f.mhi / 32)).getD .rn)
    exec (.bxpack w) s = .next (s.perLane f fun u l => (List.range (blockRegs f.mod)).map fun i => .v l (f.d + i)
      (BitVec.ofNat 32 (block u l / 2 ^ (32 * i)))) := rfl

theorem exec_bxunpack_f32 {w : Ext} (s : State) (hmod : (Fields.ofExt w).mod = 0x0F) :
    let f := Fields.ofExt w
    exec (.bxunpack w) s = .next (s.perLane f fun u l => (List.range 16).map fun i => .v l (f.d + i)
      (BitVec.ofNat 32 (roundTo .f32 (bxElem (bxMant (f.mhi % 32)) (u.blockBits (f.mhi % 32) f.a l) i) ((RMode.ofCode (f.mhi / 32)).getD .rn)))) := by
  show execBxunpack w s = _
  simp only [execBxunpack, hmod, floatOf, if_true]

theorem exec_bxunpack_packed {w : Ext} (s : State) {t : FFmt} (ht : floatOf (Fields.ofExt w).mod = some t) (hmod : (Fields.ofExt w).mod ≠ 0x0F) :
    let f := Fields.ofExt w
    let x := fun (u : Warp) l i => roundTo t (bxElem (bxMant (f.mhi % 32)) (u.blockBits (f.mhi % 32) f.a l) i) ((RMode.ofCode (f.mhi / 32)).getD .rn)
    exec (.bxunpack w) s = .next (s.perLane f fun u l => (List.range 8).map fun i => .v l (f.d + i)
      (BitVec.ofNat 32 (x u l (2 * i) + x u l (2 * i + 1) * 65536))) := by
  show execBxunpack w s = _
  simp only [execBxunpack, ht, hmod, if_false]

/-- Settles O21: each meaning is a lane-by-lane driver, and the type of the result tells how many registers a lane writes. -/
theorem conversions : Obligations.Conversions := by
  refine ⟨fun w s e he hroom => ?cvt, fun w s e he => ⟨fun hroom => ?bxpack, fun hroom hmod => ?unpackF32, fun hroom t ht => ?unpackHalves⟩⟩
  case cvt =>
    refine (commits_of_perLane (exec_cvt he) he hroom (fun _ => mem_destsOf_convertWrites) (Nat.le_refl 2)).congr ?_
    simp only [convertWrites, Warp.opSt, wideTy_iff]
  case bxpack => exact (commits_of_vRange (exec_bxpack w s) he hroom).congr rfl
  case unpackF32 => exact (commits_of_vRange (exec_bxunpack_f32 s hmod) he hroom).congr rfl
  case unpackHalves =>
    obtain ⟨hfloat, hne⟩ : floatOf (Fields.ofExt w).mod = some t ∧ (Fields.ofExt w).mod ≠ 0x0F := by
      rcases ht with ⟨hmod, rfl⟩ | ⟨hmod, rfl⟩ <;> rw [hmod] <;> decide
    exact (commits_of_vRange (exec_bxunpack_packed s hfloat hne) he hroom).congr rfl

end Sys2Proof.Machine

/-! PROOFS. The lanes of a warp that are sent elsewhere, wait or move on (family 05_control_sync_work_system.md). -/
namespace Sys2Proof.Machine

/-! ### A change of some lanes -/

/-- The warp with each lane of a list changed by its own function. -/
def Warp.mapAt (w : Warp) (ls : List Nat) (f : Nat → Lane → Lane) : Warp :=
  { w with regs := { w.regs with lanes := w.regs.lanes.zipIdx.map fun (t, l) => if l ∈ ls then f l t else t } }

theorem Warp.redirect_eq_mapAt (w : Warp) (ls : List Nat) (tgt : Nat → Pc) : w.redirect ls tgt = w.mapAt ls fun l t => { t with pc := tgt l } := rfl
theorem Warp.waiting_eq_mapAt (w : Warp) (ls : List Nat) (why : Nat → Wait) : w.waiting ls why = w.mapAt ls fun l t => { t with wait := why l } := rfl

section
variable (w : Warp) (ls : List Nat) (f : Nat → Lane → Lane)

theorem getElem?_lanes_mapAt (l : Nat) :
    (w.mapAt ls f).regs.lanes[l]? = w.regs.lanes[l]?.map fun t => if l ∈ ls then f l t else t := by
  simp only [Warp.mapAt, List.getElem?_map, List.getElem?_zipIdx, Option.map_map]
  cases w.regs.lanes[l]? <;> simp

theorem width_mapAt : (w.mapAt ls f).width = w.width := by simp [Warp.width, Warp.mapAt]

theorem lane_mapAt (l : Nat) : (w.mapAt ls f).lane l = if l ∈ ls ∧ l < w.width then f l (w.lane l) else w.lane l := by
  simp only [Warp.lane, List.getD_eq_getElem?_getD, getElem?_lanes_mapAt]
  by_cases hl : l < w.width
  · have hsome : w.regs.lanes[l]? = some w.regs.lanes[l] := List.getElem?_eq_getElem hl
    by_cases h : l ∈ ls <;> simp [hsome, h, hl]
  · have hnone : w.regs.lanes[l]? = none := List.getElem?_eq_none (Nat.le_of_not_lt hl)
    simp [hnone, hl]

/-- Two changed warps are equal if the rest of them is and their lists of threads agree place by place. -/
theorem Warp.eq_of_lanes {v w : Warp} (hrest : v = { w with regs := { w.regs with lanes := v.regs.lanes } })
    (h : ∀ l : Nat, v.regs.lanes[l]? = w.regs.lanes[l]?) : v = w := by
  rw [hrest, List.ext_getElem? h]

/-- Changing the lanes of a list one after the other, no lane twice. -/
theorem foldl_modLanes_eq_mapAt (hn : ls.Nodup) : ls.foldl (fun v l => v.modLanes [l] (f l)) w = w.mapAt ls f := by
  induction ls generalizing w with
  | nil => simp [Warp.mapAt]
  | cons n ls ih =>
    obtain ⟨hout, hn⟩ := List.nodup_cons.1 hn
    rw [List.foldl_cons, ih _ hn]
    refine Warp.eq_of_lanes rfl fun l => ?_
    rw [getElem?_lanes_mapAt, getElem?_lanes_mapAt]
    show Option.map _ (modifyNth w.regs.lanes n (f n))[l]? = _
    rw [getElem?_modifyNth]
    by_cases hl : l = n
    · subst hl
      simp [hout, Function.comp_def]
    · simp [hl]

theorem modLanes_eq_foldl (g : Lane → Lane) : w.modLanes ls g = ls.foldl (fun v l => v.modLanes [l] g) w := by
  induction ls generalizing w with
  | nil => rfl
  | cons n ls ih =>
    rw [List.foldl_cons, ← ih]
    rfl

theorem modLanes_eq_mapAt (hn : ls.Nodup) (g : Lane → Lane) : w.modLanes ls g = w.mapAt ls fun _ => g :=
  (modLanes_eq_foldl w ls g).trans (foldl_modLanes_eq_mapAt w ls _ hn)
end

/-! ### Moving on with no register written -/

theorem moved_advance (w : Warp) (i : Issue) {act : List Nat} (hn : act.Nodup) (hact : ∀ l ∈ act, l < w.width) : Moved w (w.advance i act) i act :=
  wrote_advance w i act hn hact w.spec.ulog

theorem State.moved_act (s : State) (w : Warp) : Moved w (w.advance s.cur (s.act w)) s.cur (s.act w) :=
  moved_advance w s.cur (s.nodup_act w) fun _ => State.lt_of_mem_act

/-- The lanes of ACTIVE outside a list move on; the instruction keeps the others. -/
theorem State.moved_outside (s : State) (w : Warp) (ls : List Nat) :
    Moved w (w.advance s.cur ((s.act w).filter fun l => l ∉ ls)) s.cur ((s.act w).filter fun l => l ∉ ls) :=
  moved_advance w s.cur ((s.nodup_act w).filter _) fun _ h => State.lt_of_mem_act (List.mem_filter.1 h).1

theorem filter_not_contains (xs ls : List Nat) : (xs.filter fun l => !ls.contains l) = xs.filter fun l => l ∉ ls :=
  List.filter_congr fun l _ => by simp

/-! ### Acting on the issuing warp -/

section
variable {s : State} {e : Env}

theorem State.onWarp_of_env (he : s.env = some e) (k : Env → State) : s.onWarp k = k e := by
  simp only [State.onWarp, he]
theorem State.whenSettled_of_env (he : s.env = some e) (hset : e.w.settled = true) (k : Env → State) : s.whenSettled k = k e := by
  simp only [State.whenSettled, State.onWarp, he, hset, if_true]
theorem State.onStream_of_senv {x : SEnv} (hx : s.senv = some x) (k : SEnv → State) : s.onStream k = k x := by
  simp only [State.onStream, hx]

/-- A warp without an open checkpoint has room for every write. -/
theorem logRoom_of_settled {w : Warp} (h : w.settled = true) (n : Nat) : w.logRoom n = true := by
  simp only [Warp.settled, Bool.and_eq_true] at h
  simp [Warp.logRoom, h]
end

/-! ### Branches and calls (05 R163; 07 R235) -/

section
variable {s : State} {e : Env}

/-- The writes of a call: the address after itself to each lane's pair. -/
theorem length_destsOf_links_le (ls : List Nat) (d : Nat) (after : Nat → W64) :
    (destsOf (ls.flatMap fun l => writePair l d (after l))).length ≤ 2 :=
  length_dedup_le (ys := [.v d, .v (d + 1)]) fun x hx => destsOf_flatMap_le (fun _ => mem_destsOf_writePair) ls x ((mem_dedup _ _).2 hx)

/-- A jump of a warp with room for its link. -/
theorem jump_of_logRoom (f : Fields) (kind : Nat) (low link : Bool) (tgt : Warp → Nat → Pc) (he : s.env = some e)
    (hroom : e.w.logRoom (if link then 2 else 0) = true) :
    let ex := s.exec e.w f.ga f.gb
    let after := fun l => ((e.w.lane l).pc + BitVec.ofNat 61 s.cur.length).addr
    s.jump f kind low link tgt =
      (s.putWarp (((e.w.commit (ex.flatMap fun l => if link then writePair l f.d (after l) else [])).advance s.cur (s.act e.w)).redirect ex
        (tgt e.w))).tracedAt e ex 0 kind (fun l => if low then l else 0) fun l => (tgt e.w l).setWidth 54 := by
  intro ex after
  have hws : (if link then ex.flatMap fun l => writePair l f.d (after l) else []) = ex.flatMap fun l => if link then writePair l f.d (after l) else [] := by
    cases link <;> simp
  have hlen : (destsOf (ex.flatMap fun l => if link then writePair l f.d (after l) else [])).length ≤ if link then 2 else 0 := by
    cases link
    · exact hws ▸ Nat.le_refl 0
    · exact length_destsOf_links_le ex f.d after
  have hfold := fun w => foldl_modLanes_eq_mapAt w ex (fun l t => { t with pc := tgt e.w l }) (s.nodup_exec e.w f.ga f.gb)
  unfold State.jump
  rw [State.onWarp_of_env he]
  refine (if_neg ?_).trans ?_
  · rw [hws, logRoom_mono hroom hlen]
    simp
  · dsimp only
    rw [hws, hfold, Warp.redirect_eq_mapAt]
    rfl

/-- What a jump writes before its lanes are redirected. -/
theorem wrote_links (f : Fields) (link : Bool) (hfits : ∀ t ∈ e.w.regs.lanes, f.d + 2 ≤ t.v.length) :
    let ex := s.exec e.w f.ga f.gb
    let after := fun l => ((e.w.lane l).pc + BitVec.ofNat 61 s.cur.length).addr
    Wrote e.w ((e.w.commit (ex.flatMap fun l => if link then writePair l f.d (after l) else [])).advance s.cur (s.act e.w)) s.cur (s.act e.w)
      (fun l k => if link = true ∧ l ∈ ex then (only2 f.d (after l) k).getD (e.w.v l k) else e.w.v l k) e.w.p e.w.s e.w.bnr := by
  intro ex after
  refine (wrote_commit_advance e.w s.cur (s.act e.w) ex (s.nodup_act _) (s.nodup_exec _ _ _) (fun l => State.lt_of_mem_exec)
    (fun l => State.lt_of_mem_act) _ fun l x hx => ?inLane).congr (fun l k => ?v) fun l k => ?p
  case inLane =>
    cases link
    · simp at hx
    · obtain rfl | rfl := List.mem_pair.1 hx <;> simp [RegWrite.inLane]
  case v =>
    by_cases h : l ∈ ex
    · cases link
      · simp [Warp.v]
      · have hlen := hfits _ (Warp.lane_mem (State.lt_of_mem_exec h))
        simp only [h, if_true, and_self, writePair, List.foldl_cons, List.foldl_nil, Lane.put, only2]
        rw [getD_set _ _ _ _ _ (by rw [List.length_set]; omega), getD_set _ _ _ _ _ (by omega)]
        by_cases h1 : k = f.d + 1
        · simp [h1]
        · by_cases h2 : k = f.d <;> simp [h1, h2, Warp.v]
    · simp [h]
  case p => by_cases h : l ∈ ex <;> cases link <;> simp [h, Warp.p, writePair, Lane.put]

theorem branches_of_jump {i : Instr} {f : Fields} {kind : Nat} {low link : Bool} {tgt : Warp → Nat → Pc}
    (h : ∀ s, s.cur.stream = false → exec i s = .next (s.jump f kind low link tgt)) : Branches i f kind low link tgt := by
  intro s e hs he hroom hfits
  exact ⟨_, wrote_links f link hfits, (h s hs).trans (congrArg _ (jump_of_logRoom f kind low link tgt he hroom))⟩

theorem streamBranches_of_jumpStream {i : Instr} {kind : Nat} {link : Option Nat} {taken : Stream → Bool} {tgt : Stream → Pc}
    (h : ∀ s, s.cur.stream = true → exec i s = .next (s.jumpStream kind link (fun e => taken e.x) fun e => tgt e.x)) :
    StreamBranches i kind link taken tgt := by
  intro s e hs he hfits next
  refine ⟨fun hno => ?_, fun hyes => ?_⟩
  · rw [h s hs, State.jumpStream, State.onStream_of_senv he]
    simp only [hno, Bool.not_false, if_true]
    rfl
  · rw [h s hs, State.jumpStream, State.onStream_of_senv he]
    simp only [hyes, Bool.not_true, Bool.false_eq_true, if_false]
    cases link with
    | none => exact ⟨_, rfl, fun k => rfl⟩
    | some d =>
      refine ⟨_, rfl, fun k => ?_⟩
      refine (getD_set e.x.x d k _ 0 (hfits d rfl)).trans ?_
      by_cases hk : k = d
      · subst hk; simp; rfl
      · rw [if_neg hk, if_neg fun h => hk (Option.some.inj h).symm]
        rfl
end

theorem direct_of_warp {s : State} (hs : s.cur.stream = false) (f : Fields) (kind : Nat) (link : Bool) :
    s.direct f kind link = s.jump f kind false link fun w l => f.target (w.lane l).pc := if_neg (by simp [hs])
theorem direct_of_stream {s : State} (hs : s.cur.stream = true) (f : Fields) (kind : Nat) (link : Bool) :
    s.direct f kind link = s.jumpStream kind (if link then some f.d else none) (fun _ => true) fun e => f.target e.x.pc := if_pos hs
theorem indirect_of_warp {s : State} (hs : s.cur.stream = false) (f : Fields) (kind : Nat) (link : Bool) :
    s.indirect f kind link = s.jump f kind true link fun w l => Pc.ofAddr (w.opA64 f l) := if_neg (by simp [hs])
theorem indirect_of_stream {s : State} (hs : s.cur.stream = true) (f : Fields) (kind : Nat) (link : Bool) :
    s.indirect f kind link = s.jumpStream kind none (fun _ => true) fun e => Pc.ofAddr (e.x.reg f.a) := if_pos hs

/-- A conditional form whose condition is one that R118 lists. -/
theorem streamBranches_of_conditional {i : Instr} {f : Fields} {kind : Nat} {link : Bool} (hcode : f.mod % 8 ≤ 5)
    (h : ∀ s, exec i s = .next (s.conditional f kind link)) :
    StreamBranches i kind (if link then some f.d else none) (fun x => compares (f.mod % 8) (x.reg f.a).toInt 0) fun x => f.target x.pc := by
  refine streamBranches_of_jumpStream fun s _ => (h s).trans ?_
  rw [State.conditional, show f.condHolds = fun e => compares (f.mod % 8) (e.x.reg f.a).toInt 0 from funext fun e => condInt_eq hcode _ _]

/-- Settles O23: a warp jumps, a stream jumps, and the two forms of an instruction differ in the target alone. -/
theorem branchesAndCalls : Obligations.BranchesAndCalls := by
  refine ⟨fun w => ⟨?bra, ?braS, ?brx, ?brxS, ?call, ?callS, ?callx, ?ret, ?retS⟩, fun w => ⟨?braExt, ?braExtS, ?callExt, ?callExtS⟩,
    fun w => fun hcode => ⟨streamBranches_of_conditional (link := false) hcode fun _ => rfl, streamBranches_of_conditional (link := true) hcode fun _ => rfl⟩⟩
  case bra | call | braExt | callExt => exact branches_of_jump fun s hs => congrArg _ (direct_of_warp hs _ _ _)
  case braS | callS | braExtS | callExtS => exact streamBranches_of_jumpStream fun s hs => congrArg _ (direct_of_stream hs _ _ _)
  case brx | callx | ret => exact branches_of_jump fun s hs => congrArg _ (indirect_of_warp hs _ _ _)
  case brxS | retS => exact streamBranches_of_jumpStream fun s hs => congrArg _ (indirect_of_stream hs _ _ _)

end Sys2Proof.Machine

/-! PROOFS. The trap instruction and the return from a handler (family 05_control_sync_work_system.md; R183, R184). -/
namespace Sys2Proof.Machine

/-! ### `trap` and `rti` -/

theorem fatalCause_toNat {x : Int} (h : 1 ≤ x) : fatalCause x.toNat = (x == 0x05 || x == 0x0F || x == 0x10) := by
  rw [Bool.eq_iff_iff]
  simp only [fatalCause, Bool.or_eq_true, beq_iff_eq]
  omega

section
variable {w : Std} {s : State} {e : Env} (he : s.env = some e) (hset : e.w.settled = true)
include he hset

theorem exec_trap_nil (hex : s.exec e.w (Fields.ofStd w).ga (Fields.ofStd w).gb = []) : exec (.trap w) s = .next (s.skipWarp e) := by
  show execTrap w s = _
  simp only [execTrap, State.whenSettled_of_env he hset, hex]

theorem exec_trap_cons {l : Nat} {ls : List Nat} (hex : s.exec e.w (Fields.ofStd w).ga (Fields.ofStd w).gb = l :: ls) :
    let f := Fields.ofStd w
    exec (.trap w) s = .next (
      if 1 ≤ f.imm9 ∧ f.imm9 ≤ 0x12 then
        s.raise e { cause := f.imm9.toNat, reason := 0, lane := l
                    info := (if f.mod % 2 = 1 then (if f.ak = 1 then e.w.s f.a else (e.w.v l f.a).setWidth 64) else 0), fatal := fatalCause f.imm9.toNat }
      else s.raise e { cause := 1, reason := 5, lane := l, info := packStd 0x180 w }) := by
  show execTrap w s = _
  simp only [execTrap, State.whenSettled_of_env he hset, hex]

theorem exec_rti :
    exec (.rti w) s = .next (
      if !e.w.regs.trap.inHandler then s.raise e { cause := 7, reason := 1, lane := (s.act e.w).headD 0, info := 0 }
      else (s.waitLanes (e.w.counted s.cur) (s.act e.w) (.rti ((Fields.ofStd w).mod % 2 = 1))).tryLeave e.w.id) := by
  show execRti w s = _
  simp only [execRti, State.whenSettled_of_env he hset]
end

/-- Settles O28: each case is one branch of the two meanings. -/
theorem trapAndReturnInstructions : Obligations.TrapAndReturnInstructions := by
  intro w s e he hset f ex
  refine ⟨fun l ls hex => ⟨fun hlo hhi => ?named, fun hout => ⟨packStd 0x180 w, ?other⟩⟩, fun hex => ⟨_, s.moved_act e.w, exec_trap_nil he hset hex⟩,
    fun hh => ?outside, fun hh => ?inside⟩
  case named => rw [exec_trap_cons he hset hex, if_pos ⟨hlo, hhi⟩, fatalCause_toNat hlo]
  case other => rw [exec_trap_cons he hset hex, if_neg fun h => hout.elim (fun hlo => Int.not_le.2 hlo h.1) fun hhi => Int.not_le.2 hhi h.2]
  case outside => rw [exec_rti he hset, if_pos (by rw [TrapRegs.inHandler, hh]; rfl)]
  case inside =>
    rw [exec_rti he hset, if_neg (by rw [TrapRegs.inHandler, hh]; exact Bool.false_ne_true)]
    rfl

/-! ### Leaving the handler (05 R184; 12 R382) -/

/-- A handler thread that leaves for its resume address. -/
def Lane.resume (at_ : Pc) (len : Nat) (t : Lane) : Lane :=
  { t with handler := false, wait := .none, pc := if t.wait = .rti true then at_ + BitVec.ofNat 61 len else at_ }
/-- A held thread that becomes ready, from an `rti` of an outer handler too. -/
def Lane.unheld (t : Lane) : Lane := { t with held := false, wait := match t.wait with | .rti _ => .none | y => y }

theorem Warp.nodup_handlerLanes (w : Warp) : w.handlerLanes.Nodup := w.nodup_live.filter _
theorem Warp.live_of_handler {w : Warp} {l : Nat} (h : l ∈ w.handlerLanes) : l ∈ w.live := (List.mem_filter.1 h).1

section
variable (w : Warp) (len : Nat)

theorem leaveHandler_eq :
    w.leaveHandler len =
      (({ w with regs := { w.regs with trap := { w.regs.trap with mask := 0 } }, decodedExt := none, permit := w.waitsServed } : Warp).mapAt w.handlerLanes
        fun _ => Lane.resume (Pc.ofAddr w.regs.trap.pc) len).mapAt w.live fun _ => Lane.unheld := by
  rw [← modLanes_eq_mapAt _ _ w.nodup_handlerLanes, ← modLanes_eq_mapAt _ _ w.nodup_live]
  rfl

theorem lane_leaveHandler {l : Nat} (hl : l ∈ w.live) :
    (w.leaveHandler len).lane l =
      if l ∈ w.handlerLanes then ((w.lane l).resume (Pc.ofAddr w.regs.trap.pc) len).unheld else (w.lane l).unheld := by
  have hlt := Warp.lt_of_mem_live hl
  rw [leaveHandler_eq, lane_mapAt, lane_mapAt, width_mapAt]
  show (if l ∈ w.live ∧ l < w.width then (if l ∈ w.handlerLanes ∧ l < w.width then (w.lane l).resume _ _ else w.lane l).unheld else _) = _
  by_cases h : l ∈ w.handlerLanes <;> simp [h, hl, hlt]
end

section
variable {s : State} {w : Warp} {b : Block} {l : Launch}

/-- The length that the word at TRAPPC has for the threads that resume after it. -/
def Warp.resumeLength (w : Warp) : Nat := if w.decodedExt = some true then 2 else 1

theorem handlerDone_of_rti (h : ∀ i ∈ w.handlerLanes, (w.lane i).wait = .rti false ∨ (w.lane i).wait = .rti true) : w.handlerDone = true := by
  refine List.all_eq_true.2 fun i hi => ?_
  rcases h i hi with h | h <;> simp only [h]

theorem tryLeave_of_done (hw : s.warp? w.id = some w) (hin : w.regs.trap.mask.getLsbD 1 = true) (hdone : w.handlerDone = true) (hserv : w.service = none)
    (hne : w.handlerLanes ≠ []) : s.tryLeave w.id = s.endHandler w := by
  have hempty : w.handlerLanes.isEmpty = false := by simpa using hne
  simp [State.tryLeave, hw, TrapRegs.inHandler, hin, hdone, hserv, hempty]

/-- The handler ends where the length of the word at TRAPPC is known or no thread needs it. -/
theorem endHandler_of_known (hb : s.block? w.block = some b) (hl : s.launch? b.launch = some l) (hext : w.nextLanes ≠ [] → w.decodedExt ≠ none) :
    ∃ n, (w.nextLanes ≠ [] → n = w.resumeLength) ∧
      s.endHandler w = (s.putWarp (w.leaveHandler n)).traceWarp w.id none 9 0 (((w.leaveHandler n).lane (w.handlerLanes.headD 0)).pc.setWidth 54)
        (w.lane (w.handlerLanes.headD 0)).pc := by
  unfold State.endHandler
  rw [hb, Option.bind_some, hl, Option.map_some]
  by_cases hnext : w.nextLanes = []
  · exact ⟨1, fun h => absurd hnext h, if_pos (by rw [hnext]; rfl)⟩
  · obtain ⟨x, hx⟩ := Option.ne_none_iff_exists'.1 (hext hnext)
    refine ⟨if x then 2 else 1, fun _ => by simp [Warp.resumeLength, hx], (if_neg (by simpa using hnext)).trans ?_⟩
    rw [hx]
end

/-- Settles O29: the handler ends with `leaveHandler`, whose effect on each thread is that of its two changes in turn. -/
theorem handlerReturn : Obligations.HandlerReturn := by
  intro s w b l hw hb hl hin hserv hne hrti hext
  have hnext (i : Nat) (hi : i ∈ w.handlerLanes) (hwait : (w.lane i).wait = .rti true) : i ∈ w.nextLanes := by simp [Warp.nextLanes, hi, hwait]
  have hknown : w.nextLanes ≠ [] → w.decodedExt ≠ none := fun h => by
    obtain ⟨i, hi⟩ := List.exists_mem_of_ne_nil _ h
    obtain ⟨hi, hwait⟩ := List.mem_filter.1 hi
    exact hext ⟨i, hi, by simpa using hwait⟩
  obtain ⟨n, hn, hend⟩ := endHandler_of_known hb hl hknown
  refine ⟨w.leaveHandler n, (tryLeave_of_done hw hin (handlerDone_of_rti hrti) hserv hne).trans hend, ?trap, ?permit, fun i hi => ?handler,
    fun i hi hout => ?held, ?s, ?bn, ?others⟩
  case handler =>
    rw [lane_leaveHandler _ _ (Warp.live_of_handler hi), if_pos hi]
    by_cases hwait : (w.lane i).wait = .rti true
    · obtain rfl := hn (List.ne_nil_of_mem (hnext i hi hwait))
      simp only [Lane.resume, Lane.unheld, hwait, if_true, Warp.resumeLength]
      split <;> rfl
    · simp only [Lane.resume, Lane.unheld, hwait, if_false]
      exact congrArg (fun pc => { w.lane i with handler := false, held := false, wait := .none, pc := pc }) (BitVec.add_zero _).symm
  case held =>
    rw [lane_leaveHandler _ _ hi, if_neg hout]
    rfl
  all_goals rw [leaveHandler_eq]; rfl

end Sys2Proof.Machine

/-! PROOFS. Named barriers (family 05_control_sync_work_system.md; R167 to R170). -/
namespace Sys2Proof.Machine

/-! ### Finding things after a change -/

section
variable {α : Type} (key : α → Nat) (f : α → α) (xs : List α)

/-- What is found under a number after a change that keeps numbers. -/
theorem find?_map_of_keeps (hf : ∀ x, key (f x) = key x) (n : Nat) : (xs.map f).find? (fun x => key x == n) = (xs.find? fun x => key x == n).map f := by
  rw [List.find?_map]
  exact congrArg (fun p => (xs.find? p).map f) (funext fun x => congrArg (· == n) (hf x))

theorem key_of_find? {n : Nat} {x : α} {xs : List α} (h : (xs.find? fun x => key x == n) = some x) : key x = n :=
  beq_iff_eq.1 (List.find?_some (p := fun x => key x == n) h)

/-- What is found under a number after the things of that number have changed. -/
theorem find?_map_at (hf : ∀ x, key (f x) = key x) (n : Nat) :
    (xs.map fun x => if key x = n then f x else x).find? (fun x => key x == n) = (xs.find? fun x => key x == n).map f := by
  rw [find?_map_of_keeps key _ xs fun x => by split <;> simp only [hf]]
  cases h : xs.find? fun x => key x == n with
  | none => rfl
  | some x => exact congrArg some (if_pos (key_of_find? key h))
end

theorem State.id_of_block? {s : State} {id : Nat} {b : Block} (h : s.block? id = some b) : b.id = id := key_of_find? Block.id h
theorem State.id_of_warp? {s : State} {id : Nat} {w : Warp} (h : s.warp? id = some w) : w.id = id := key_of_find? Warp.id h
theorem State.id_of_launch? {s : State} {id : Nat} {l : Launch} (h : s.launch? id = some l) : l.id = id := key_of_find? Launch.id h

section
variable (s : State) (id : Nat)

theorem block?_modBlock {f : Block → Block} (hf : ∀ b, (f b).id = b.id) : (s.modBlock id f).block? id = (s.block? id).map f :=
  find?_map_at Block.id f s.blocks hf id
theorem launch?_modLaunch {f : Launch → Launch} (hf : ∀ l, (f l).id = l.id) : (s.modLaunch id f).launch? id = (s.launch? id).map f :=
  find?_map_at Launch.id f s.launches hf id
theorem warp?_modWarp {f : Warp → Warp} (hf : ∀ w, (f w).id = w.id) : (s.modWarp id f).warp? id = (s.warp? id).map f :=
  find?_map_at Warp.id f s.warps hf id
end

/-! ### The checks of a bar (05 R168, R169) -/

section
variable {bars : List Bar} {k : Nat}

theorem barInit_of_no_bar (h : bars.length ≤ k) (n : Int) : barInit bars k n = .error 1 := by
  simp only [barInit, List.getElem?_eq_none h]
theorem barBad_of_no_bar (h : bars.length ≤ k) (n : Nat) : barBad bars k n = some 1 := by
  simp only [barBad, List.getElem?_eq_none h]

variable {b : Bar} (hb : bars[k]? = some b)
include hb

theorem barInit_of_in_use (hr : b.ready = true) (ha : b.a ≠ 0) (n : Int) : barInit bars k n = .error 4 := by
  simp [barInit, hb, hr, ha]
theorem barInit_of_bad_count (h : b.ready = false ∨ b.a = 0) {n : Int} (hn : n ≤ 0 ∨ 65535 < n) : barInit bars k n = .error 5 := by
  have hfree : (b.ready && b.a != 0) = false := by rcases h with h | h <;> simp [h]
  simp only [barInit, hb, hfree, Bool.false_eq_true, if_false]
  exact if_pos hn
theorem barInit_of_free (h : b.ready = false ∨ b.a = 0) {n : Int} (h0 : 0 < n) (hn : n ≤ 65535) :
    barInit bars k n = .ok (bars.set k ⟨true, n.toNat, 0, b.phase⟩) := by
  have hfree : (b.ready && b.a != 0) = false := by rcases h with h | h <;> simp [h]
  simp only [barInit, hb, hfree, Bool.false_eq_true, if_false]
  exact if_neg (by omega)

theorem barBad_of_not_ready (h : b.ready = false) (n : Nat) : barBad bars k n = some 2 := by
  simp [barBad, hb, h]
theorem barBad_of_over (hr : b.ready = true) {n : Nat} (hn : b.e < b.a + n) : barBad bars k n = some 3 := by
  simp [barBad, hb, hr, hn]
theorem barBad_of_room (hr : b.ready = true) {n : Nat} (hn : b.a + n ≤ b.e) : barBad bars k n = none := by
  simp [barBad, hb, hr, Nat.not_lt.2 hn]
theorem barPhase_eq : barPhase bars k = b.phase := by simp [barPhase, hb]
end

theorem barCount_eq (f : Fields) (reg : Nat → W64) : barCount f reg = if f.bk = 1 then f.imm9 else ((reg f.b).toNat % 2 ^ 32 : Nat) := by
  simp only [barCount, lo32]
  split <;> simp

/-! ### The four forms in a warp, with a lane with Exec -/

section
variable {w : Std} {s : State} {e : Env} {l : Nat} {ls : List Nat} (hs : s.cur.stream = false) (he : s.env = some e) (hset : e.w.settled = true)
  (hex : s.exec e.w (Fields.ofStd w).ga (Fields.ofStd w).gb = l :: ls)
include hs he hset hex

theorem exec_barInit_error {r : Nat} (h : barInit e.b.bars (Fields.ofStd w).a (barCount (.ofStd w) e.w.s) = .error r) :
    exec (.barInit w) s = .next (s.raise e (misuse r l (Fields.ofStd w).a)) := by
  show execBarInit w s = _
  simp only [execBarInit, hs, Bool.false_eq_true, if_false, State.whenSettled_of_env he hset, hex, h]
theorem exec_barInit_ok {bars : List Bar} (h : barInit e.b.bars (Fields.ofStd w).a (barCount (.ofStd w) e.w.s) = .ok bars) :
    exec (.barInit w) s = .next ((s.skipWarp e).modBlock e.b.id fun b => { b with bars := bars }) := by
  show execBarInit w s = _
  simp only [execBarInit, hs, Bool.false_eq_true, if_false, State.whenSettled_of_env he hset, hex, h]

theorem exec_barArrive_bad {r : Nat} (h : barBad e.b.bars (Fields.ofStd w).a (ls.length + 1) = some r) :
    exec (.barArrive w) s = .next (s.raise e (misuse r l (Fields.ofStd w).a)) := by
  show execBarArrive w s = _
  simp only [execBarArrive, hs, Bool.false_eq_true, if_false, State.whenSettled_of_env he hset, hex, h]
theorem exec_barArrive_ok (h : barBad e.b.bars (Fields.ofStd w).a (ls.length + 1) = none) :
    let f := Fields.ofStd w
    exec (.barArrive w) s = .next ((s.putWarp ((e.w.commit ((l :: ls).map fun i => .p i f.d (barPhase e.b.bars f.a))).advance s.cur
      (s.act e.w))).arrive e.b.id f.a (ls.length + 1)) := by
  show execBarArrive w s = _
  simp only [execBarArrive, hs, Bool.false_eq_true, if_false, State.whenSettled_of_env he hset, hex, h]

theorem exec_barWait_bad {r : Nat} (h : barBad e.b.bars (Fields.ofStd w).a 0 = some r) :
    exec (.barWait w) s = .next (s.raise e (misuse r l (Fields.ofStd w).a)) := by
  show execBarWait w s = _
  simp only [execBarWait, hs, Bool.false_eq_true, if_false, State.whenSettled_of_env he hset, hex, h]
theorem exec_barWait_ok (h : barBad e.b.bars (Fields.ofStd w).a 0 = none) :
    let f := Fields.ofStd w
    let phase := barPhase e.b.bars f.a
    exec (.barWait w) s = .next ((s.waitBar e ((l :: ls).filter fun i => e.w.p i f.d == phase) f.a fun _ => phase).checkDeadlock e.b.id) := by
  show execBarWait w s = _
  simp only [execBarWait, hs, Bool.false_eq_true, if_false, State.whenSettled_of_env he hset, hex, h]

theorem exec_barSync_bad {r : Nat} (h : barBad e.b.bars (Fields.ofStd w).a (ls.length + 1) = some r) :
    exec (.barSync w) s = .next (s.raise e (misuse r l (Fields.ofStd w).a)) := by
  show execBarSync w s = _
  simp only [execBarSync, hs, Bool.false_eq_true, if_false, State.whenSettled_of_env he hset, hex, h]
theorem exec_barSync_ok (h : barBad e.b.bars (Fields.ofStd w).a (ls.length + 1) = none) :
    let f := Fields.ofStd w
    let phase := barPhase e.b.bars f.a
    exec (.barSync w) s = .next (((s.waitBar e (l :: ls) f.a fun _ => phase).arrive e.b.id f.a (ls.length + 1)).checkDeadlock e.b.id) := by
  show execBarSync w s = _
  simp only [execBarSync, hs, Bool.false_eq_true, if_false, State.whenSettled_of_env he hset, hex, h]
end

/-- Lanes that wait on a barrier: the others of the path move on, these wait. -/
theorem waitBar_eq (s : State) (e : Env) {ls : List Nat} (hn : ls.Nodup) (k : Nat) (tok : Nat → Bool) :
    s.waitBar e ls k tok = s.putWarp ((e.w.advance s.cur ((s.act e.w).filter fun l => l ∉ ls)).waiting ls fun l => .bar k (tok l)) := by
  rw [State.waitBar, filter_not_contains, foldl_modLanes_eq_mapAt _ _ _ hn]
  rfl

/-- The end of an instruction that writes one predicate in some lanes. -/
theorem wrote_predicate (w : Warp) (i : Issue) {act ls : List Nat} (hact : act.Nodup) (hls : ls.Nodup) (hlt : ∀ l ∈ ls, l < w.width)
    (hact' : ∀ l ∈ act, l < w.width) (d : Nat) (x : Bool) :
    Wrote w ((w.commit (ls.map fun l => .p l d x)).advance i act) i act w.v (fun l k => if l ∈ ls ∧ k = d ∧ k < 15 then x else w.p l k) w.s w.bnr := by
  rw [List.map_eq_flatMap]
  refine (wrote_commit_advance w i act ls hact hls hlt hact' _ fun l y hy => ?_).congr (fun l k => ?_) fun l k => ?_
  · rw [List.mem_singleton.1 hy]
    simp [RegWrite.inLane]
  · simp [Lane.put, Warp.v]
  · by_cases h : l ∈ ls
    · simp only [h, if_true, List.foldl_cons, List.foldl_nil, Lane.put, getLsbD_setPred, true_and]
      by_cases hk : k = d ∧ k < 15
      · have h15 : (k == 15) = false := beq_false_of_ne (by omega)
        rw [if_pos hk, if_pos (by omega), h15, Bool.false_or]
      · rw [if_neg hk, if_neg (by omega), Warp.p]
    · simp [h]

/-! ### An arrival (05 R168) -/

theorem lane_onLanes {w : Warp} {l : Nat} (hl : l ∈ w.live) (p : Lane → Bool) (f : Lane → Lane) :
    (w.onLanes p f).lane l = if p (w.lane l) = true then f (w.lane l) else w.lane l := by
  obtain ⟨hlt, hlive⟩ := List.mem_filter.1 hl
  have hlt : l < w.regs.lanes.length := List.mem_range.1 hlt
  have hlane : w.lane l = w.regs.lanes[l] := by
    rw [Warp.lane, List.getD_eq_getElem?_getD, List.getElem?_eq_getElem hlt, Option.getD_some]
  rw [hlane] at hlive ⊢
  show (w.regs.lanes.map _).getD l Lane.none = _
  rw [List.getD_eq_getElem?_getD, List.getElem?_map, List.getElem?_eq_getElem hlt, Option.map_some, Option.getD_some, hlive, Bool.true_and]

section
variable {s : State} {blk : Block} {k : Nat} {b : Bar} (hblk : s.block? blk.id = some blk) (hb : blk.bars[k]? = some b)
include hblk hb

theorem arrive_of_ne {n : Nat} (h : b.a + n ≠ b.e) :
    s.arrive blk.id k n = s.modBlock blk.id fun x => { x with bars := x.bars.set k { b with a := b.a + n } } := by
  have hfull : (b.a + n == b.e) = false := beq_false_of_ne h
  simp only [State.arrive, hblk, Option.bind_some, hb, hfull, Bool.false_eq_true, if_false]

theorem arrive_of_eq {n : Nat} (h : b.a + n = b.e) :
    s.arrive blk.id k n =
      (s.modBlock blk.id fun x => { x with bars := x.bars.set k { b with a := 0, phase := !b.phase } }).releaseBar blk.id k b.phase := by
  have hfull : (b.a + n == b.e) = true := beq_iff_eq.2 h
  simp only [State.arrive, hblk, Option.bind_some, hb, hfull, if_true]
end

/-- Releasing the waiters of a phase: the lanes of a warp. -/
theorem lane_of_releaseBar (s : State) (id k : Nat) (old : Bool) {v : Warp} (hv : v ∈ s.warps) :
    ∃ v' ∈ (s.releaseBar id k old).warps, v'.id = v.id ∧ ∀ l ∈ v.live, v'.lane l =
      if v.block = id ∧ (v.lane l).wait = .bar k old then { v.lane l with wait := .none, pc := (v.lane l).pc + 1, got := none, plan := none } else v.lane l := by
  refine ⟨_, List.mem_map_of_mem hv, ?_, fun l hl => ?_⟩
  · split <;> rfl
  · by_cases hblock : v.block = id
    · rw [if_pos hblock]
      refine (lane_onLanes hl _ _).trans ?_
      simp only [hblock, true_and, beq_iff_eq]
      rfl
    · rw [if_neg hblock, if_neg fun h => hblock h.1]

/-- The block whose stream goes on if it waits on a phase. -/
def Block.barReleased (k : Nat) (old : Bool) (b : Block) : Block :=
  { b with stream := b.stream.map fun x : Stream => if x.wait = .bar k old then { x with wait := .none, pc := x.pc + 1 } else x }

/-- Releasing the waiters of a phase: the block and its stream. -/
theorem block?_releaseBar (s : State) (id k : Nat) (old : Bool) :
    (s.releaseBar id k old).block? id = (s.block? id).map (Block.barReleased k old) :=
  block?_modBlock (s.modBlockWarps id _) id fun _ => rfl

/-! ### Deadlock (05 R169) -/

theorem Lane.isSome_inBar (t : Lane) : t.inBar.isSome = true ↔ ∃ k p, t.wait = .bar k p := by
  unfold Lane.inBar
  cases t.wait <;> simp [-Bool.exists_bool]
theorem Stream.isSome_inBar (x : Stream) : x.inBar.isSome = true ↔ ∃ k p, x.wait = .bar k p := by
  unfold Stream.inBar
  cases x.wait <;> simp
theorem Lane.inBar_of_wait {t : Lane} {k : Nat} {p : Bool} (h : t.wait = .bar k p) : t.inBar = some k := by simp only [Lane.inBar, h]
theorem Stream.inBar_of_wait {x : Stream} {k : Nat} {p : Bool} (h : x.wait = .bar k p) : x.inBar = some k := by simp only [Stream.inBar, h]

/-- Every thread of a block and its stream wait in `bar`, and there is one that does. -/
def State.StuckInBar (s : State) (blk : Block) : Prop :=
  blk.pool = [] ∧ (∀ v ∈ s.warps, v.block = blk.id → ∀ i ∈ v.live, ∃ k t, (v.lane i).wait = .bar k t) ∧
    (∀ x, blk.stream = some x → x.exited = true ∨ ∃ k t, x.wait = .bar k t) ∧
    ((∃ v ∈ s.warps, v.block = blk.id ∧ v.live ≠ []) ∨ ∃ x k t, blk.stream = some x ∧ x.wait = .bar k t)

theorem deadlocked_iff (s : State) (blk : Block) : s.deadlocked blk = true ↔ s.StuckInBar blk := by
  have hthreads : ((s.blockWarps blk.id).flatMap fun w => w.live.map w.lane).all (fun t => t.inBar.isSome) = true ↔
      ∀ v ∈ s.warps, v.block = blk.id → ∀ i ∈ v.live, ∃ k t, (v.lane i).wait = .bar k t := by
    rw [List.all_eq_true]
    refine ⟨fun h v hv hblk i hi => ?_, fun h t ht => ?_⟩
    · have hmem : v ∈ s.blockWarps blk.id := List.mem_filter.2 ⟨hv, beq_iff_eq.2 hblk⟩
      exact (Lane.isSome_inBar _).1 (h _ (List.mem_flatMap.2 ⟨v, hmem, List.mem_map_of_mem hi⟩))
    · obtain ⟨v, hv, ht⟩ := List.mem_flatMap.1 ht
      obtain ⟨i, hi, rfl⟩ := List.mem_map.1 ht
      obtain ⟨hv, hblk⟩ := List.mem_filter.1 hv
      exact (Lane.isSome_inBar _).2 (h v hv (beq_iff_eq.1 hblk) i hi)
  have hsome : (!((s.blockWarps blk.id).flatMap fun w => w.live.map w.lane).isEmpty) = true ↔ ∃ v ∈ s.warps, v.block = blk.id ∧ v.live ≠ [] := by
    simp [State.blockWarps, List.flatMap_eq_nil_iff]
  unfold State.deadlocked State.StuckInBar
  simp only [Bool.and_eq_true, Bool.or_eq_true, hthreads, hsome, List.isEmpty_iff]
  cases blk.stream with
  | none => simp [and_assoc]
  | some x => simp [Stream.isSome_inBar, and_assoc]

section
variable {s : State} {blk : Block} {l : Launch} (hblk : s.block? blk.id = some blk) (hl : s.launch? blk.launch = some l)
include hblk hl

theorem checkDeadlock_of_not_stuck (h : ¬ s.StuckInBar blk) : s.checkDeadlock blk.id = s := by
  have hdead : s.deadlocked blk = false := Bool.eq_false_iff.2 fun hd => h ((deadlocked_iff s blk).1 hd)
  simp only [State.checkDeadlock, hblk, hl, hdead, Bool.not_false, if_true]

theorem checkDeadlock_of_one_warp (h : s.StuckInBar blk) {v : Warp} (hv : s.blockWarps blk.id = [v]) : s.checkDeadlock blk.id = s.deadlockWarp v l := by
  have hdead := (deadlocked_iff s blk).2 h
  simp only [State.checkDeadlock, hblk, hl, hdead, Bool.not_true, Bool.false_eq_true, if_false, hv, List.foldl_cons, List.foldl_nil]

theorem checkDeadlock_of_stream (h : s.StuckInBar blk) (hv : s.blockWarps blk.id = []) {x : Stream} (hx : blk.stream = some x) :
    s.checkDeadlock blk.id =
      s.putStream blk.id { x with fatal := some ⟨0xD, 6, 0, false, x.pc.addr, BitVec.ofNat 64 (x.inBar.getD 0), 0, false, s.clock, none⟩ } := by
  have hdead := (deadlocked_iff s blk).2 h
  simp only [State.checkDeadlock, hblk, hl, hdead, Bool.not_true, Bool.false_eq_true, if_false, hv, hx]
end

/-- Settles O25: the checks and effects of the four forms, an arrival, and the deadlock test are each one lemma per case. -/
theorem barriers : Obligations.Barriers := by
  refine ⟨?forms, ?arrival, ?deadlock⟩
  case forms =>
    intro w s e hs he hset f k ex n count misused hne
    obtain ⟨l, ls, hex⟩ := List.exists_cons_of_ne_nil hne
    have hn : n = ls.length + 1 := congrArg List.length hex
    have hhead (r : Nat) : misuse r l k = { cause := 0x0D, reason := r, lane := ex.headD 0, info := BitVec.ofNat 64 k } := by
      rw [show ex = l :: ls from hex]
      rfl
    have hcount : barCount f e.w.s = count := barCount_eq f e.w.s
    have initBad {r : Nat} (h : barInit e.b.bars k count = .error r) : misused (.barInit w) r :=
      (exec_barInit_error hs he hset hex (hcount ▸ h)).trans (by rw [hhead])
    have arriveBad {r : Nat} (h : barBad e.b.bars k n = some r) : misused (.barArrive w) r :=
      (exec_barArrive_bad hs he hset hex (hn ▸ h)).trans (by rw [hhead])
    have waitBad {r : Nat} (h : barBad e.b.bars k 0 = some r) : misused (.barWait w) r :=
      (exec_barWait_bad hs he hset hex h).trans (by rw [hhead])
    have syncBad {r : Nat} (h : barBad e.b.bars k n = some r) : misused (.barSync w) r :=
      (exec_barSync_bad hs he hset hex (hn ▸ h)).trans (by rw [hhead])
    refine ⟨fun hk => ⟨initBad (barInit_of_no_bar hk _), arriveBad (barBad_of_no_bar hk _), waitBad (barBad_of_no_bar hk _), syncBad (barBad_of_no_bar hk _)⟩,
      fun b hb => ⟨fun hr ha => initBad (barInit_of_in_use hb hr ha _), fun hfree hc => initBad (barInit_of_bad_count hb hfree hc), fun hfree h0 hc => ?init,
        fun hr => ⟨arriveBad (barBad_of_not_ready hb hr _), waitBad (barBad_of_not_ready hb hr _), syncBad (barBad_of_not_ready hb hr _)⟩,
        fun hr ho => ⟨arriveBad (barBad_of_over hb hr ho), syncBad (barBad_of_over hb hr ho)⟩, fun hr ho => ?arrive, fun hr ho => ?wait, fun hr ho => ?sync⟩⟩
    case init => exact ⟨_, s.moved_act e.w, exec_barInit_ok hs he hset hex (hcount ▸ barInit_of_free hb hfree h0 hc)⟩
    case arrive =>
      refine ⟨_, ?_, (exec_barArrive_ok hs he hset hex (hn ▸ barBad_of_room hb hr ho)).trans (by rw [barPhase_eq hb, ← hex, ← hn])⟩
      exact wrote_predicate e.w s.cur (s.nodup_act _) (s.nodup_exec _ _ _) (fun _ => State.lt_of_mem_exec) (fun _ => State.lt_of_mem_act) _ _
    case wait =>
      refine ⟨_, s.moved_outside e.w _, (exec_barWait_ok hs he hset hex (barBad_of_room hb hr (Nat.add_zero _ ▸ ho))).trans ?_⟩
      rw [barPhase_eq hb, ← hex, waitBar_eq s e ((s.nodup_exec _ _ _).filter _)]
    case sync =>
      refine ⟨_, s.moved_outside e.w _, (exec_barSync_ok hs he hset hex (hn ▸ barBad_of_room hb hr ho)).trans ?_⟩
      rw [barPhase_eq hb, ← hex, waitBar_eq s e (s.nodup_exec _ _ _), ← hn]
  case arrival =>
    intro s blk k n b hblk hb
    refine ⟨arrive_of_ne hblk hb, fun h v hv => ?warps, fun h => ?block⟩
    case warps =>
      rw [arrive_of_eq hblk hb h]
      exact lane_of_releaseBar _ _ _ _ hv
    case block =>
      rw [arrive_of_eq hblk hb h, block?_releaseBar, block?_modBlock, hblk]
      · exact ⟨_, rfl, rfl, rfl⟩
      · exact fun _ => rfl
  case deadlock =>
    intro s blk l hblk hl stuck
    refine ⟨checkDeadlock_of_not_stuck hblk hl, fun h v g rest k t hv hlive hwait => ?warp, fun h x k t hv hx hwait => ?stream⟩
    case warp =>
      rw [checkDeadlock_of_one_warp hblk hl h hv, State.deadlockWarp, hlive]
      simp only [Lane.inBar_of_wait hwait, Option.getD_some]
    case stream => rw [checkDeadlock_of_stream hblk hl h hv hx, Stream.inBar_of_wait hwait, Option.getD_some]

end Sys2Proof.Machine

/-! PROOFS. What the caches, the package's own stores, the trace rings and the translations leave of the state (family 05_control_sync_work_system.md). -/
namespace Sys2Proof.Machine

/-! ### The state without what a kind of operation changes

An operation that changes nothing but some fields leaves the state without those fields as it was; each field that it keeps is then read off by `congrArg`. -/

/-- The state without its caches, its moves to come and its messages. -/
def State.sansCache (s : State) : State := { s with cache := State.reset.cache, agenda := [], out := [], ingress := [] }
/-- The state without what a store of the package itself or a trace record changes too. -/
def State.sansTrace (s : State) : State :=
  { s.sansCache with mem := [], oldCode := [], badLines := [], hostWait := [], keys := [], cores := [] }
/-- The state without what the use or the service of a translation changes too. -/
def State.sansService (s : State) : State :=
  { s.sansTrace with tlb := [], blocks := [], contexts := [], ctr := State.reset.ctr, faultWaits := [], faultQs := [] }

theorem foldl_keeps {α β : Type} {g : State → β} {f : State → α → State} (h : ∀ s x, g (f s x) = g s) (s : State) (xs : List α) : g (xs.foldl f s) = g s := by
  induction xs generalizing s with
  | nil => rfl
  | cons x xs ih => rw [List.foldl_cons, ih, h]

section
variable {s t : State}

theorem sansTrace_of_sansCache (h : t.sansCache = s.sansCache) : t.sansTrace = s.sansTrace := by
  have hmask (u : State) : u.sansTrace = u.sansCache.sansTrace := rfl
  rw [hmask t, hmask s, h]
theorem sansService_of_sansTrace (h : t.sansTrace = s.sansTrace) : t.sansService = s.sansService := by
  have hmask (u : State) : u.sansService = u.sansTrace.sansService := rfl
  rw [hmask t, hmask s, h]
theorem sansService_of_sansCache (h : t.sansCache = s.sansCache) : t.sansService = s.sansService :=
  sansService_of_sansTrace (sansTrace_of_sansCache h)
end

/-! ### The caches -/

section
variable (s : State)

theorem sansCache_withCache (c : Caches) : ({ s with cache := c } : State).sansCache = s.sansCache := rfl
theorem sansCache_evictL2 (x : Nat) : (s.evictL2 x).sansCache = s.sansCache := rfl
theorem sansCache_recallLine (x : Nat) : (s.recallLine x).sansCache = s.sansCache := rfl
theorem sansCache_cleanLine (x : Nat) : (s.cleanLine x).sansCache = s.sansCache := rfl

theorem sansCache_dropFromL1 (core x : Nat) : (s.dropFromL1 core x).sansCache = s.sansCache := by
  unfold State.dropFromL1
  dsimp only
  split <;> rfl
theorem sansCache_makeRoomL2 (x : Nat) : (s.makeRoomL2 x).sansCache = s.sansCache := by
  unfold State.makeRoomL2
  dsimp only
  split
  · rfl
  · split
    · rfl
    · split <;> rfl
theorem sansCache_fillL2 (hint x : Nat) : (s.fillL2 hint x).sansCache = s.sansCache := by
  unfold State.fillL2
  split
  · rfl
  · extract_lets u
    exact (sansCache_withCache u _).trans (sansCache_makeRoomL2 s x)
theorem sansCache_makeRoom (core x : Nat) : (s.makeRoom core x).sansCache = s.sansCache := by
  unfold State.makeRoom
  dsimp only
  split
  · rfl
  · split
    · rfl
    · split <;> rfl
theorem sansCache_prefetchL2 (hint x : Nat) : (s.prefetchL2 hint x).sansCache = s.sansCache :=
  (sansCache_fillL2 _ hint x).trans (sansCache_withCache s _)
theorem sansCache_homeLoadAt (hint x : Nat) : (s.homeLoadAt hint x).sansCache = s.sansCache := by
  rw [State.homeLoadAt, sansCache_withCache, sansCache_prefetchL2, sansCache_recallLine]
theorem sansCache_homeLoad (hint : Nat) (l : Loc) (n : Nat) : (s.homeLoad hint l n).sansCache = s.sansCache :=
  foldl_keeps (f := fun s x => s.homeLoadAt hint x) (fun s => sansCache_homeLoadAt s hint) s _
theorem sansCache_recallLines (l : Loc) (n : Nat) : (s.recallLines l n).sansCache = s.sansCache :=
  foldl_keeps sansCache_recallLine s _
theorem sansCache_cacheLoadLine (core hint x : Nat) : (s.cacheLoadLine core hint x).sansCache = s.sansCache := by
  unfold State.cacheLoadLine
  extract_lets s1 s2 s3 alone
  have h1 : s1.sansCache = s.sansCache := (sansCache_fillL2 _ hint x).trans (sansCache_withCache s _)
  have h2 : s2.sansCache = s.sansCache := (sansCache_withCache s1 _).trans h1
  split
  · exact h1
  · split
    · exact h2
    · exact (sansCache_withCache s3 _).trans ((sansCache_makeRoom s2 core x).trans h2)
theorem sansCache_uccLoadLine (core : Nat) (tenant : BitVec 16) (hint : Nat) (va : W64) (x : Nat) (t : TlbEntry) :
    (s.uccLoadLine core tenant hint va x t).sansCache = s.sansCache := by
  unfold State.uccLoadLine
  split
  · rfl
  · extract_lets u
    exact (sansCache_withCache u _).trans (sansCache_homeLoadAt s hint x)
theorem sansCache_cacheLoad (core hint : Nat) (gs : List Seg) (ucc : Option (BitVec 20 × BitVec 16)) :
    (s.cacheLoad core hint gs ucc).sansCache = s.sansCache := by
  refine foldl_keeps (fun s g => ?_) s _
  split
  · split
    · exact sansCache_cacheLoadLine s core hint _
    · exact sansCache_uccLoadLine s core _ hint _ _ _
  · exact foldl_keeps (fun s x => sansCache_cacheLoadLine s core hint x) s _
theorem sansCache_cacheStoreAt (core hint a n : Nat) : (s.cacheStoreAt core hint a n).sansCache = s.sansCache := by
  rw [State.cacheStoreAt, sansCache_withCache, sansCache_fillL2, sansCache_withCache]
theorem sansCache_homeStoreAt (a n : Nat) : (s.homeStoreAt a n).sansCache = s.sansCache := by
  rw [State.homeStoreAt, sansCache_withCache, sansCache_fillL2, sansCache_withCache]
theorem sansCache_cacheStore (core : Option Nat) (hint : Nat) (l : Loc) (n : Nat) : (s.cacheStore core hint l n).sansCache = s.sansCache := by
  unfold State.cacheStore
  split
  · split
    · rfl
    · refine foldl_keeps (fun s x => ?_) s _
      split
      · exact sansCache_cacheStoreAt s _ hint _ _
      · exact sansCache_homeStoreAt s _ _
  · rfl
end

/-! ### The package's own stores, and trace records (12 R408 to R410) -/

section
variable (s : State)

theorem sansTrace_mergeErrors (a n : Nat) : (s.mergeErrors (.pa a) n).sansTrace = s.sansTrace := by
  unfold State.mergeErrors
  dsimp only
  split <;> rfl
theorem sansTrace_needLines (l : Loc) (n : Nat) : (s.needLines l n).sansTrace = s.sansTrace := rfl
theorem sansTrace_keepOld (l : Loc) (n : Nat) : (s.keepOld l n).sansTrace = s.sansTrace := rfl
theorem sansTrace_writePa (a : Nat) (bs : List Byte) : (s.writePa a bs).sansTrace = s.sansTrace := rfl
theorem sansTrace_disturb (ls : List Loc) (by_ : Option Nat) : (s.disturb ls by_).sansTrace = s.sansTrace := rfl
theorem sansTrace_cacheStore (core : Option Nat) (hint : Nat) (l : Loc) (n : Nat) : (s.cacheStore core hint l n).sansTrace = s.sansTrace :=
  sansTrace_of_sansCache (sansCache_cacheStore s core hint l n)
theorem sansTrace_recallLines (l : Loc) (n : Nat) : (s.recallLines l n).sansTrace = s.sansTrace :=
  sansTrace_of_sansCache (sansCache_recallLines s l n)
theorem sansTrace_ownStore (a : Nat) (bs : List Byte) : (s.ownStore a bs).sansTrace = s.sansTrace := by
  rw [State.ownStore, State.writeSite, sansTrace_disturb, State.writeLoc, sansTrace_writePa, sansTrace_keepOld, sansTrace_cacheStore,
    sansTrace_mergeErrors, sansTrace_recallLines, sansTrace_needLines]
theorem sansTrace_reKey (a key : Nat) : (s.reKey a key).sansTrace = s.sansTrace := by
  have hkeys (u : State) (ks : List (Nat × Nat)) : ({ u with keys := ks } : State).sansTrace = u.sansTrace := rfl
  unfold State.reKey
  extract_lets u
  exact (hkeys u _).trans (sansTrace_ownStore s _ _)
theorem sansTrace_modCore (n : Nat) (f : Core → Core) : (s.modCore n f).sansTrace = s.sansTrace := by
  unfold State.modCore
  split <;> rfl
theorem sansTrace_traceOne (core : Nat) (tenant : BitVec 16) (r : TraceRec) : (s.traceOne core tenant r).sansTrace = s.sansTrace := by
  unfold State.traceOne
  dsimp only
  split
  · exact (sansTrace_modCore _ _ _).trans (sansTrace_ownStore s _ _)
  · split
    · exact (sansTrace_modCore _ _ _).trans ((sansTrace_ownStore _ _ _).trans (sansTrace_reKey s _ _))
    · exact sansTrace_modCore s _ _
theorem sansTrace_trace (core : Nat) (tenant : BitVec 16) (r : TraceRec) : (s.trace core tenant r).sansTrace = s.sansTrace := by
  unfold State.trace
  dsimp only
  split
  · exact (sansTrace_traceOne _ _ _ _).trans ((sansTrace_modCore _ _ _).trans (sansTrace_traceOne s _ _ _))
  · exact sansTrace_traceOne s _ _ _
end

/-! ### Translations in use and in service (12 R388 to R394) -/

section
variable (s : State)

theorem sansService_touchPages (l : Loc) (n : Nat) : (s.touchPages l n).sansService = s.sansService := by
  unfold State.touchPages
  split <;> rfl
theorem sansService_homeLoad (hint : Nat) (l : Loc) (n : Nat) : (s.homeLoad hint l n).sansService = s.sansService :=
  sansService_of_sansCache (sansCache_homeLoad s hint l n)
theorem sansService_ownStore (a : Nat) (bs : List Byte) : (s.ownStore a bs).sansService = s.sansService :=
  sansService_of_sansTrace (sansTrace_ownStore s a bs)

/-- The first step of `useSeg`: the page is marked as used, and the descriptor of its region is read. -/
def State.usePage (g : Seg) : State :=
  match g.buf with | some d => (s.touchPages g.loc g.n).homeLoad 0 (.pa d) 64 | none => s.touchPages g.loc g.n
/-- The second: the walk has read its entries. -/
def State.useSites (g : Seg) : State := g.sites.foldl (fun s a => s.homeLoad 0 (.pa a) 8) s
/-- The third: the leaf's A and D bits are set. -/
def State.useMark (g : Seg) : State := match g.mark with | some (a, b) => s.ownStore a [b] | none => s
/-- The last: the translation is held. -/
def State.useFill (g : Seg) : State :=
  match g.fill with
  | some t => { s with tlb := (s.tlb.filter fun x => !(x.pasid == t.pasid && x.vpage == t.vpage)) ++ [t] }
  | none => s
theorem useSeg_eq (g : Seg) : s.useSeg g = (((s.usePage g).useSites g).useMark g).useFill g := rfl

theorem sansService_usePage (g : Seg) : (s.usePage g).sansService = s.sansService := by
  unfold State.usePage
  split
  · exact (sansService_homeLoad _ _ _ _).trans (sansService_touchPages s _ _)
  · exact sansService_touchPages s _ _
theorem sansService_useSites (g : Seg) : (s.useSites g).sansService = s.sansService :=
  foldl_keeps (f := fun s a => s.homeLoad 0 (.pa a) 8) (fun s a => sansService_homeLoad s 0 (.pa a) 8) s g.sites
theorem sansService_useMark (g : Seg) : (s.useMark g).sansService = s.sansService := by
  unfold State.useMark
  split
  · exact sansService_ownStore s _ _
  · rfl
theorem sansService_useFill (g : Seg) : (s.useFill g).sansService = s.sansService := by
  unfold State.useFill
  split <;> rfl
theorem sansService_useSeg (g : Seg) : (s.useSeg g).sansService = s.sansService := by
  rw [useSeg_eq, sansService_useFill, sansService_useMark, sansService_useSites, sansService_usePage]
theorem sansService_useSegs (gs : List Seg) : (s.useSegs gs).sansService = s.sansService := foldl_keeps sansService_useSeg s gs

theorem sansService_askHost (agent : FaultAgent) (l : Launch) (u : Use) (va : W64) (core slot : Nat) :
    (s.askHost agent l u va core slot).sansService = s.sansService := by
  unfold State.askHost
  dsimp only
  split <;> rfl
theorem sansService_askPage (f : FaultWait) : (s.askPage f).1.sansService = s.sansService := by
  unfold State.askPage
  split
  · rfl
  · split <;> rfl
theorem sansService_placeFault (f : FaultWait) : (s.placeFault f).1.sansService = s.sansService := by
  have hqs (u : State) (qs : List FaultQ) : ({ u with faultQs := qs } : State).sansService = u.sansService := rfl
  unfold State.placeFault
  extract_lets fq
  split
  · rfl
  · rename_i q _
    extract_lets u
    have hu : u.sansService = s.sansService :=
      foldl_keeps (f := fun (s : State) (t : Nat) => s.homeLoad 0 (.pa (q.entryAt t)) 32) (fun s t => sansService_homeLoad s 0 _ 32) s _
    split
    · exact (sansService_ownStore u _ _).trans hu
    · split
      · exact (sansService_ownStore _ _ _).trans ((hqs _ _).trans ((sansService_ownStore u _ _).trans hu))
      · exact hu
theorem sansService_serve (agent : FaultAgent) (pasid : BitVec 20) (q : ServedFault) (launch core slot lane : Nat) :
    (s.serve agent pasid q launch core slot lane).1.sansService = s.sansService := by
  unfold State.serve
  dsimp only
  split
  · rfl
  · exact sansService_placeFault _ _
  · exact sansService_askPage _ _
end

end Sys2Proof.Machine

/-! PROOFS. What traps, the end of a handler, a deadlock and a level release leave of the threads (family 05_control_sync_work_system.md). -/
namespace Sys2Proof.Machine

/-- The state without its warps and what the service of a translation or a trace record changes. -/
def State.sansThreads (s : State) : State := { s.sansService with warps := [] }

theorem warps_of_sansTrace {s t : State} (h : t.sansTrace = s.sansTrace) : t.warps = s.warps := by
  have := congrArg State.warps h
  exact this
theorem warps_of_sansService {s t : State} (h : t.sansService = s.sansService) : t.warps = s.warps := by
  have := congrArg State.warps h
  exact this
theorem sansThreads_of_sansService {s t : State} (h : t.sansService = s.sansService) : t.sansThreads = s.sansThreads := by
  rw [State.sansThreads, h, State.sansThreads]

/-! ### Which lanes hold a thread, and which have exited -/

/-- Of each lane, whether it holds a thread and whether that has exited. -/
def Warp.census (w : Warp) : List (Bool × Bool) := w.regs.lanes.map fun t => (t.populated, t.exited)

theorem getD_census (w : Warp) (l : Nat) : w.census.getD l (false, false) = ((w.lane l).populated, (w.lane l).exited) := by
  simp only [Warp.census, Warp.lane, List.getD_eq_getElem?_getD, List.getElem?_map]
  cases w.regs.lanes[l]? <;> rfl

section
variable {v w : Warp} (h : v.census = w.census)
include h

theorem width_of_census : v.width = w.width := by
  have := congrArg List.length h
  rwa [Warp.census, Warp.census, List.length_map, List.length_map] at this
theorem pair_of_census (l : Nat) : ((v.lane l).populated, (v.lane l).exited) = ((w.lane l).populated, (w.lane l).exited) := by
  rw [← getD_census, ← getD_census, h]
theorem populated_of_census (l : Nat) : (v.lane l).populated = (w.lane l).populated := congrArg Prod.fst (pair_of_census h l)
theorem exited_of_census (l : Nat) : (v.lane l).exited = (w.lane l).exited := congrArg Prod.snd (pair_of_census h l)
theorem live_of_census : v.live = w.live := by
  simp only [Warp.live, width_of_census h, populated_of_census h, exited_of_census h]
end

theorem map_modifyNth_of_keeps {α β : Type} (g : α → β) {f : α → α} (h : ∀ x, g (f x) = g x) (xs : List α) (n : Nat) : (modifyNth xs n f).map g = xs.map g := by
  induction xs generalizing n with
  | nil => rfl
  | cons x xs ih => cases n <;> simp [modifyNth, h, ih]

theorem census_modLane {f : Lane → Lane} (h : ∀ t, ((f t).populated, (f t).exited) = (t.populated, t.exited)) (r : WarpRegs) (l : Nat) :
    (r.modLane l f).lanes.map (fun t => (t.populated, t.exited)) = r.lanes.map fun t => (t.populated, t.exited) :=
  map_modifyNth_of_keeps _ h r.lanes l

theorem census_modLanes (w : Warp) (ls : List Nat) {f : Lane → Lane} (h : ∀ t, ((f t).populated, (f t).exited) = (t.populated, t.exited)) :
    (w.modLanes ls f).census = w.census := by
  unfold Warp.modLanes Warp.census
  dsimp only
  generalize w.regs = r
  induction ls generalizing r with
  | nil => rfl
  | cons l ls ih => rw [List.foldl_cons, ih, census_modLane h]

theorem census_write (r : WarpRegs) (x : RegWrite) :
    (r.write x).lanes.map (fun t => (t.populated, t.exited)) = r.lanes.map fun t => (t.populated, t.exited) := by
  cases x with
  | v l k y => exact census_modLane (f := fun t => { t with v := t.v.set k y }) (fun _ => rfl) r l
  | p l k y => exact census_modLane (f := fun t => { t with p := setPred t.p k y }) (fun _ => rfl) r l
  | u | bn | fmt => rfl

theorem census_writes (r : WarpRegs) (ws : List RegWrite) :
    (r.writes ws).lanes.map (fun t => (t.populated, t.exited)) = r.lanes.map fun t => (t.populated, t.exited) := by
  unfold WarpRegs.writes
  induction ws generalizing r with
  | nil => rfl
  | cons x ws ih => rw [List.foldl_cons, ih, census_write]

/-- Two warps under one number, in one block, whose lanes hold the same threads, exited or not. -/
structure SameThreads (v w : Warp) : Prop where
  id : v.id = w.id
  block : v.block = w.block
  census : v.census = w.census

theorem SameThreads.refl (w : Warp) : SameThreads w w := ⟨rfl, rfl, rfl⟩
theorem SameThreads.trans {u v w : Warp} (h : SameThreads u v) (h' : SameThreads v w) : SameThreads u w :=
  ⟨h.id.trans h'.id, h.block.trans h'.block, h.census.trans h'.census⟩
theorem SameThreads.with_lanes {v w x : Warp} (h : SameThreads v w) (hid : x.id = v.id) (hblock : x.block = v.block)
    (hlanes : x.regs.lanes = v.regs.lanes) : SameThreads x w :=
  ⟨hid.trans h.id, hblock.trans h.block, by rw [Warp.census, hlanes, ← Warp.census, h.census]⟩
theorem SameThreads.of_lanes {v w : Warp} (hid : v.id = w.id) (hblock : v.block = w.block) (hlanes : v.regs.lanes = w.regs.lanes) : SameThreads v w :=
  ⟨hid, hblock, by rw [Warp.census, hlanes, Warp.census]⟩

section
variable (w : Warp)

theorem sameThreads_modLanes (ls : List Nat) {f : Lane → Lane} (h : ∀ t, ((f t).populated, (f t).exited) = (t.populated, t.exited)) :
    SameThreads (w.modLanes ls f) w := ⟨rfl, rfl, census_modLanes w ls h⟩
theorem sameThreads_advance (i : Issue) (act : List Nat) : SameThreads (w.advance i act) w :=
  ⟨rfl, rfl, census_modLanes _ act fun _ => rfl⟩
theorem sameThreads_closeLong (o : LongOp) (l : Nat) : SameThreads (w.closeLong o l) w := ⟨rfl, rfl, census_writes w.regs _⟩
theorem sameThreads_closeLane (l : Nat) (all : Bool) : SameThreads (w.closeLane l all) w := by
  unfold Warp.closeLane
  generalize (w.longs.filter _) = os
  induction os generalizing w with
  | nil => exact .refl w
  | cons o os ih => exact (ih _).trans (sameThreads_closeLong w o l)
theorem sameThreads_dropLongs : SameThreads w.dropLongs w := by
  unfold Warp.dropLongs
  split <;> exact .of_lanes rfl rfl rfl
theorem sameThreads_settleLongs : SameThreads w.settleLongs w := by
  have hclose (ls : List Nat) (v : Warp) : SameThreads (ls.foldl (fun v l => v.closeLane l true) v) v := by
    induction ls generalizing v with
    | nil => exact .refl v
    | cons l ls ih => exact (ih _).trans (sameThreads_closeLane v l true)
  exact (sameThreads_dropLongs _).trans (hclose _ w)
theorem sameThreads_dropBackoff (pc : Pc) : SameThreads (w.dropBackoff pc) w := .of_lanes rfl rfl rfl
theorem SameThreads.modLanes_twice {v w : Warp} (hv : SameThreads v w) (ls ls' : List Nat) {f g : Lane → Lane}
    (hf : ∀ t, ((f t).populated, (f t).exited) = (t.populated, t.exited)) (hg : ∀ t, ((g t).populated, (g t).exited) = (t.populated, t.exited)) :
    SameThreads ((v.modLanes ls f).modLanes ls' g) w := (sameThreads_modLanes _ _ hg).trans ((sameThreads_modLanes _ _ hf).trans hv)
theorem sameThreads_setTrap (tr : TrapRegs) (ext : Option Bool) (permit : Bool) :
    SameThreads { w with regs := { w.regs with trap := tr }, decodedExt := ext, permit := permit } w := .of_lanes rfl rfl rfl
theorem sameThreads_enterHandler (path : List Nat) (t : Trap) (beyond : Bool) (pc : W64) (ext : Option Bool) :
    SameThreads (w.enterHandler path t beyond pc ext) w := by
  unfold Warp.enterHandler
  refine SameThreads.modLanes_twice ?_ _ _ ?_ ?_
  · exact sameThreads_setTrap w _ _ _
  · exact fun _ => rfl
  · exact fun _ => rfl
theorem sameThreads_leaveHandler (n : Nat) : SameThreads (w.leaveHandler n) w := by
  unfold Warp.leaveHandler
  refine SameThreads.modLanes_twice ?_ _ _ ?_ ?_
  · exact sameThreads_setTrap w _ _ _
  · exact fun _ => rfl
  · exact fun _ => rfl
theorem sameThreads_again (path : List Nat) (x : Wait) : SameThreads (w.modLanes path fun l => { l.again with wait := x }) w := by
  refine sameThreads_modLanes w path fun t => ?_
  unfold Lane.again
  split <;> rfl
theorem sameThreads_releaseLanes (p : Lane → Bool) : SameThreads (w.releaseLanes p) w := by
  refine ⟨rfl, rfl, ?_⟩
  show ((w.regs.lanes.map _).map _) = _
  rw [List.map_map]
  refine List.map_congr_left fun t _ => ?_
  simp only [Function.comp_apply]
  split <;> rfl
end

/-! ### What a warp does when it is trapped or leaves its handler -/

/-- A warp reacts: beside what the service of translations changes, the warp alone has changed, its threads are the same, and there may be a trace record. -/
inductive Reacts (s : State) (w : Warp) : State → Prop where
  | quiet {t : State} (h : t.sansService = s.sansService) : Reacts s w t
  | put {t : State} {v : Warp} (h : t.sansService = s.sansService) (hv : SameThreads v w) : Reacts s w (t.putWarp v)
  | traced {t : State} {v : Warp} (h : t.sansService = s.sansService) (hv : SameThreads v w) (id kind info : Nat) (a1 : BitVec 54) (pc : Pc) :
      Reacts s w ((t.putWarp v).traceWarp id none kind info a1 pc)

/-- A trace record of a warp leaves all as it was but for the trace rings, or is held in the warp. -/
theorem traceWarp_cases (s : State) (id : Nat) (flag : Option Nat) (kind info : Nat) (a1 : BitVec 54) (pc : Pc) :
    (s.traceWarp id flag kind info a1 pc).sansTrace = s.sansTrace ∨
    ∃ w r, s.warp? id = some w ∧ w.settled = false ∧ s.traceWarp id flag kind info a1 pc = s.putWarp { w with heldTrace := r } := by
  unfold State.traceWarp
  split
  · exact .inl rfl
  · rename_i w hw
    split
    · exact .inl rfl
    · rename_i l hl
      extract_lets r
      by_cases hset : w.settled = true
      · have hspec : w.speculative = false := by rw [Warp.speculative, hset]; rfl
        rw [hspec]
        exact .inl (iteInduction (motive := fun t : State => t.sansTrace = s.sansTrace) (fun _ => sansTrace_trace s _ _ _) fun _ => rfl)
      · rw [Bool.not_eq_true] at hset
        have hspec : w.speculative = true := by rw [Warp.speculative, hset]; rfl
        rw [hspec]
        exact iteInduction (motive := fun t : State => t.sansTrace = s.sansTrace ∨ ∃ u r, s.warp? id = some u ∧ u.settled = false ∧ t = s.putWarp { u with heldTrace := r })
          (fun _ => .inr ⟨w, _, hw, hset, rfl⟩) fun _ => .inl rfl

theorem sansThreads_putWarp (s : State) (w : Warp) : (s.putWarp w).sansThreads = s.sansThreads := rfl
theorem sansThreads_traceWarp (s : State) (id : Nat) (flag : Option Nat) (kind info : Nat) (a1 : BitVec 54) (pc : Pc) :
    (s.traceWarp id flag kind info a1 pc).sansThreads = s.sansThreads := by
  rcases traceWarp_cases s id flag kind info a1 pc with h | ⟨w, r, -, -, h⟩
  · exact sansThreads_of_sansService (sansService_of_sansTrace h)
  · rw [h, sansThreads_putWarp]

theorem Reacts.sansThreads {s t : State} {w : Warp} (h : Reacts s w t) : t.sansThreads = s.sansThreads := by
  cases h with
  | quiet h => exact sansThreads_of_sansService h
  | put h hv => exact (sansThreads_putWarp _ _).trans (sansThreads_of_sansService h)
  | traced h hv => exact (sansThreads_traceWarp _ _ _ _ _ _ _).trans ((sansThreads_putWarp _ _).trans (sansThreads_of_sansService h))

/-- The numbers of the warps. -/
def State.warpIds (s : State) : List Nat := s.warps.map (·.id)
/-- Every warp under a number has the census `c`. -/
def State.Counts (s : State) (id : Nat) (c : List (Bool × Bool)) : Prop := ∀ v ∈ s.warps, v.id = id → v.census = c

section
variable {s t : State} {id : Nat} {c : List (Bool × Bool)}

theorem warpIds_putWarp (s : State) (w : Warp) : (s.putWarp w).warpIds = s.warpIds := by
  simp only [State.warpIds, State.putWarp, List.map_map]
  refine List.map_congr_left fun v _ => ?_
  simp only [Function.comp_apply]
  split
  · exact Eq.symm ‹_›
  · rfl
theorem State.Counts.putWarp (h : s.Counts id c) {w : Warp} (hw : w.id = id → w.census = c) : (s.putWarp w).Counts id c := by
  intro v hv hid
  obtain ⟨u, hu, rfl⟩ := List.mem_map.1 hv
  by_cases huw : u.id = w.id
  · rw [if_pos huw] at hid ⊢
    exact hw hid
  · rw [if_neg huw] at hid ⊢
    exact h u hu hid
theorem warpIds_traceWarp (s : State) (id : Nat) (flag : Option Nat) (kind info : Nat) (a1 : BitVec 54) (pc : Pc) :
    (s.traceWarp id flag kind info a1 pc).warpIds = s.warpIds := by
  rcases traceWarp_cases s id flag kind info a1 pc with h | ⟨w, r, -, -, h⟩
  · exact congrArg (List.map (·.id)) (warps_of_sansTrace h)
  · rw [h, warpIds_putWarp]
theorem State.Counts.traceWarp (h : s.Counts id c) (n : Nat) (flag : Option Nat) (kind info : Nat) (a1 : BitVec 54) (pc : Pc) :
    (s.traceWarp n flag kind info a1 pc).Counts id c := by
  rcases traceWarp_cases s n flag kind info a1 pc with ht | ⟨w, r, hw, -, ht⟩
  · exact fun v hv => h v (warps_of_sansTrace ht ▸ hv)
  · rw [ht]
    exact h.putWarp fun hid => h w (List.mem_of_find?_eq_some hw) hid

theorem warpIds_of_sansService (h : t.sansService = s.sansService) : t.warpIds = s.warpIds :=
  congrArg (List.map (fun w : Warp => w.id)) (warps_of_sansService h)
theorem Reacts.warpIds {w : Warp} (h : Reacts s w t) : t.warpIds = s.warpIds := by
  cases h with
  | quiet h => exact warpIds_of_sansService h
  | put h hv => exact (warpIds_putWarp _ _).trans (warpIds_of_sansService h)
  | traced h hv => exact (warpIds_traceWarp _ _ _ _ _ _ _).trans ((warpIds_putWarp _ _).trans (warpIds_of_sansService h))
theorem Reacts.counts {w : Warp} (h : Reacts s w t) (hs : s.Counts id c) (hw : w.id = id → w.census = c) : t.Counts id c := by
  have hkeep {u : State} (hu : u.sansService = s.sansService) : u.Counts id c := fun v hv => hs v (warps_of_sansService hu ▸ hv)
  cases h with
  | quiet h => exact hkeep h
  | put h hv => exact (hkeep h).putWarp fun hid => hv.census.trans (hw (hv.id ▸ hid))
  | traced h hv => exact ((hkeep h).putWarp fun hid => hv.census.trans (hw (hv.id ▸ hid))).traceWarp _ _ _ _ _ _
end

section
variable (s : State) (w : Warp)

/-- Asking for a permit: the continuation goes on with the same threads, or the warp backs off. -/
theorem reacts_withPermit {u : State} (path : List Nat) (pc : Pc) {v : Warp} {k : Warp → State} (hu : u.sansService = s.sansService) (hv : SameThreads v w)
    (hk : ∀ x, SameThreads x w → Reacts s w (k x)) : Reacts s w (u.withPermit v path pc k) := by
  unfold State.withPermit
  split
  · exact hk _ (hv.with_lanes rfl rfl rfl)
  · exact .put hu ((sameThreads_again _ path _).trans (hv.with_lanes rfl rfl rfl))

theorem reacts_raiseOn (l : Launch) (path : List Nat) (ext : Option Bool) (t : Trap) (again : Bool) : Reacts s w (s.raiseOn w l path ext t again) := by
  unfold State.raiseOn
  split
  · exact .put rfl (sameThreads_modLanes w path fun _ => rfl)
  · extract_lets v pc record stop fatal
    have hv : SameThreads v w := sameThreads_settleLongs w
    have hrecord (u : State) (b : Bool) : record u b = u.traceWarp v.id none 8 (t.cause + b.toNat * 256) (addr54 t.info) pc := rfl
    have hstop (t : Trap) (beyond : Bool) : Reacts s w (stop t beyond) := by
      show Reacts s w (if again = true then _ else _)
      split
      · exact reacts_withPermit s w path pc rfl hv fun x hx => .put rfl (hx.with_lanes rfl rfl rfl)
      · exact .put rfl (hv.with_lanes rfl rfl rfl)
    split
    · split
      · exact hstop t _
      · exact .traced rfl ((sameThreads_enterHandler _ _ _ _ _ _).trans ((sameThreads_dropBackoff _ _).trans hv)) _ _ _ _ _
    · split
      · exact hstop t true
      · split
        · exact hstop _ true
        · refine reacts_withPermit s w path pc rfl hv fun x hx => ?_
          have hserve := sansService_serve s (if t.reason = 6 then .tongs x.id else .warp x.id) l.hdr.pasid (by assumption) l.id x.core x.slot t.lane
          revert hserve
          generalize s.serve _ _ _ _ _ _ _ = p
          obtain ⟨u, id⟩ := p
          intro hserve
          show Reacts s w (if _ then _ else _)
          split
          · exact .put hserve ((sameThreads_modLanes x path (f := fun l => { l with wait := .service (some id) }) fun _ => rfl).trans hx)
          · have hserved : SameThreads { x with service := some id } w := hx.with_lanes rfl rfl rfl
            rw [hrecord]
            exact .traced hserve ((sameThreads_enterHandler _ _ _ _ _ _).trans hserved) _ _ _ _ _
end

end Sys2Proof.Machine

/-! PROOFS. The end of a handler, a deadlock, a level release and a rollback leave the crew of threads (family 05_control_sync_work_system.md). -/
namespace Sys2Proof.Machine

theorem sansService_of_fetchWord {s t : State} {w : Who} {va x : W64} (h : s.fetchWord w va = .ok (x, t)) : t.sansService = s.sansService := by
  unfold State.fetchWord at h
  extract_lets keep at h
  have hkeep {u : State} {l : Loc} {y : W64} (hk : keep l y u = .ok (x, t)) (hu : u.sansService = s.sansService) : t.sansService = s.sansService := by
    injection hk with hk
    injection hk with _ hk
    rwa [← hk]
  clear_value keep
  split at h
  · cases h
  split at h
  · split at h
    · cases h
    split at h
    · cases h
    split at h
    · cases h
    split at h
    · cases h
    exact hkeep h (sansService_touchPages _ _ _)
  · split at h
    · cases h
    split at h
    · cases h
    split at h
    · cases h
    exact hkeep h ((sansService_homeLoad _ _ _ _).trans (sansService_useSeg _ _))

theorem reacts_endHandler (s : State) (w : Warp) : Reacts s w (s.endHandler w) := by
  unfold State.endHandler
  split
  · exact .quiet rfl
  · extract_lets low len
    have hlen {u : State} (hu : u.sansService = s.sansService) (n : Nat) : Reacts s w (len u n) := .traced hu (sameThreads_leaveHandler w n) _ _ _ _ _
    clear_value len
    split
    · exact hlen rfl 1
    · split
      · exact hlen rfl _
      · generalize hf : s.fetchWord _ _ = r
        match r with
        | .ok (x, u) => exact hlen (sansService_of_fetchWord hf) _
        | .error (.unpinned _ _) => exact .quiet rfl
        | .error .tested => exact .quiet rfl
        | .error (.error _ _) => exact reacts_raiseOn s w _ _ _ _ _
        | .error (.fault f) => cases f with
          | ats va => exact .quiet (sansService_askHost _ _ _ _ _ _ _)
          | _ => exact reacts_raiseOn s w _ _ _ _ _

theorem reacts_tryLeave {s : State} {id : Nat} {w : Warp} (h : s.warp? id = some w) : Reacts s w (s.tryLeave id) := by
  have hopen : s.tryLeave id = if !w.regs.trap.inHandler || !w.handlerDone || w.service.isSome then s
      else if w.handlerLanes.isEmpty then s.putWarp (w.leaveHandler 1) else s.endHandler w := by rw [State.tryLeave, h]
  rw [hopen]
  split
  · exact .quiet rfl
  · split
    · exact .put rfl (sameThreads_leaveHandler w 1)
    · exact reacts_endHandler s w

/-! ### The crew of a state: the numbers of its warps and the threads they hold -/

/-- The second state has the warps of the first, with the same threads, and what neither the service of translations nor a warp changes. -/
structure SameCrew (s t : State) : Prop where
  rest : t.sansThreads = s.sansThreads
  ids : t.warpIds = s.warpIds
  counts : ∀ id c, s.Counts id c → t.Counts id c

/-- A warp holds the threads of the warps under its number. -/
def State.Knows (s : State) (w : Warp) : Prop := ∀ id c, s.Counts id c → w.id = id → w.census = c

theorem State.knows_of_mem {s : State} {w : Warp} (h : w ∈ s.warps) : s.Knows w := fun _ _ hc hid => hc w h hid

section
variable {s t u : State} {w : Warp}

theorem launch?_of_sansThreads (h : t.sansThreads = s.sansThreads) (id : Nat) : t.launch? id = s.launch? id := by
  have hlaunches := congrArg State.launches h
  exact congrArg (List.find? fun l : Launch => l.id == id) hlaunches
theorem SameCrew.refl (s : State) : SameCrew s s := ⟨rfl, rfl, fun _ _ h => h⟩
theorem SameCrew.trans (h : SameCrew s t) (h' : SameCrew t u) : SameCrew s u :=
  ⟨h'.rest.trans h.rest, h'.ids.trans h.ids, fun id c hc => h'.counts id c (h.counts id c hc)⟩
theorem SameCrew.react (h : SameCrew s t) (hr : Reacts t w u) (hw : s.Knows w) : SameCrew s u :=
  ⟨hr.sansThreads.trans h.rest, hr.warpIds.trans h.ids, fun id c hc => hr.counts (h.counts id c hc) (hw id c hc)⟩
theorem sameCrew_of_warps (hrest : t.sansThreads = s.sansThreads) (hwarps : t.warps = s.warps) : SameCrew s t :=
  ⟨hrest, congrArg (List.map fun w : Warp => w.id) hwarps, fun _ _ h v hv => h v (hwarps ▸ hv)⟩

theorem sameCrew_mapWarps {f : Warp → Warp} (hf : ∀ w, SameThreads (f w) w) : SameCrew s (s.mapWarps f) where
  rest := rfl
  ids := by
    simp only [State.warpIds, State.mapWarps, List.map_map]
    exact List.map_congr_left fun w _ => (hf w).id
  counts := by
    intro id c h v hv hid
    obtain ⟨w, hw, rfl⟩ := List.mem_map.1 hv
    exact (hf w).census.trans (h w hw ((hf w).id ▸ hid))
end

section
variable (s : State)

theorem sameCrew_tryLeave (id : Nat) : SameCrew s (s.tryLeave id) := by
  match hw : s.warp? id with
  | none =>
    have hkeep : s.tryLeave id = s := by rw [State.tryLeave, hw]
    rw [hkeep]
    exact .refl s
  | some w => exact (SameCrew.refl s).react (reacts_tryLeave hw) (s.knows_of_mem (List.mem_of_find?_eq_some hw))

theorem reacts_deadlockWarp (w : Warp) (l : Launch) : Reacts s w (s.deadlockWarp w l) := by
  unfold State.deadlockWarp
  split
  · exact .quiet rfl
  · exact reacts_raiseOn s w l _ _ _ _

theorem sameCrew_checkDeadlock (block : Nat) : SameCrew s (s.checkDeadlock block) := by
  have hfold (l : Launch) (ws : List Warp) : ∀ t, SameCrew s t → (∀ w ∈ ws, s.Knows w) → SameCrew s (ws.foldl (fun s w => s.deadlockWarp w l) t) := by
    induction ws with
    | nil => exact fun t ht _ => ht
    | cons w ws ih => exact fun t ht hws => ih _ (ht.react (reacts_deadlockWarp t w l) (hws w List.mem_cons_self)) fun v hv => hws v (List.mem_cons_of_mem w hv)
  unfold State.checkDeadlock
  split
  · exact .refl s
  split
  · exact .refl s
  split
  · exact .refl s
  split
  · exact sameCrew_of_warps rfl rfl
  · exact hfold _ _ s (.refl s) fun w hw => s.knows_of_mem (List.mem_filter.1 hw).1

theorem sameCrew_releaseLevels (launch : Nat) : SameCrew s (s.releaseLevels launch) := by
  unfold State.releaseLevels
  split
  · exact .refl s
  · refine sameCrew_mapWarps fun w => ?_
    split
    · split
      · exact sameThreads_releaseLanes w _
      · exact .refl w
    · exact .refl w
end

/-! ### What a warp or a block that ends leaves -/

/-- The launches are the same but for what blocks leave for a dump. -/
def State.SameLaunches (s t : State) : Prop := ∃ f : Launch → List Block, t.launches = s.launches.map fun l => { l with remains := f l }

section
variable {s t : State}

theorem sameLaunches_of_eq (h : t.launches = s.launches) : s.SameLaunches t := ⟨Launch.remains, by rw [h]; exact (List.map_id' _).symm⟩
theorem sameLaunches_of_remains {n : Nat} {g : Launch → List Block} (h : t.launches = s.launches.map fun l => if l.id = n then { l with remains := g l } else l) :
    s.SameLaunches t := by
  refine ⟨fun l => if l.id = n then g l else l.remains, h.trans (List.map_congr_left fun l _ => ?_)⟩
  dsimp only
  split <;> rfl
theorem State.SameLaunches.launch? (h : s.SameLaunches t) {n : Nat} {l : Launch} (hl : s.launch? n = some l) : ∃ x, t.launch? n = some { l with remains := x } := by
  obtain ⟨f, hf⟩ := h
  refine ⟨f l, ?_⟩
  rw [State.launch?, hf]
  exact (find?_map_of_keeps Launch.id (fun l : Launch => { l with remains := f l }) s.launches (fun _ => rfl) n).trans (congrArg (Option.map _) hl)
end

section
variable (s : State) (id : Nat)

theorem sameLaunches_settleBlock : s.SameLaunches (s.settleBlock id) := by
  unfold State.settleBlock
  split
  · split
    · unfold State.retireBlock
      dsimp only
      split
      · exact sameLaunches_of_remains rfl
      · exact sameLaunches_of_eq rfl
    · exact sameLaunches_of_eq rfl
  · exact sameLaunches_of_eq rfl
theorem warps_settleBlock : (s.settleBlock id).warps = s.warps := by
  unfold State.settleBlock
  split
  · split
    · unfold State.retireBlock
      dsimp only
      split <;> rfl
    · rfl
  · rfl

end

/-! ### Rollbacks -/

/-- The state without its warps and what a store of the package itself or a trace record changes. -/
def State.sansCrew (s : State) : State := { s.sansTrace with warps := [] }

theorem sansCrew_of_sansTrace {s t : State} (h : t.sansTrace = s.sansTrace) : t.sansCrew = s.sansCrew := by
  rw [State.sansCrew, h, State.sansCrew]

section
variable (s : State)

theorem sansCrew_withWarps (ws : List Warp) : ({ s with warps := ws } : State).sansCrew = s.sansCrew := rfl
theorem sansCrew_countCore (core : Nat) : (s.countCore core).sansCrew = s.sansCrew := by
  unfold State.countCore
  dsimp only
  split
  · rw [sansCrew_of_sansTrace (sansTrace_modCore _ _ _), sansCrew_withWarps, sansCrew_of_sansTrace (sansTrace_modCore _ _ _)]
  · exact sansCrew_of_sansTrace (sansTrace_modCore _ _ _)
theorem sansCrew_rollWarp (w : Warp) (cause : Option (W64 × Loc)) : (s.rollWarp w cause).sansCrew = s.sansCrew := by
  have hput (v : Warp) : ((s.putWarp v).countCore w.core).sansCrew = s.sansCrew := (sansCrew_countCore _ _).trans (sansCrew_withWarps s _)
  unfold State.rollWarp
  split
  · rfl
  · extract_lets v n v' at_ t
    have ht : t.sansCrew = s.sansCrew := hput v'
    clear_value t
    split
    · exact (sansCrew_of_sansTrace (sansTrace_trace _ _ _ _)).trans ht
    · exact ht
theorem sansCrew_rollAll (ws : List Warp) : (s.rollAll ws).sansCrew = s.sansCrew := by
  refine foldl_keeps (fun s w => ?_) s ws
  split
  · exact sansCrew_rollWarp _ _ _
  · rfl
end

end Sys2Proof.Machine

/-! PROOFS. nop, yield, tmark, trig, tmask, tunmask, specoff, specon, exit, halt and lwait in a warp (family 05_control_sync_work_system.md). -/
namespace Sys2Proof.Machine

/-! ### Early triggers -/

/-- A thread of a group that has triggered. -/
def Lane.trig (t : Lane) : Lane := { t with triggered := true }

/-- Marking threads and moving on commute: neither reads what the other changes. -/
theorem advance_modLanes_trig (w : Warp) (i : Issue) {act ex : List Nat} (hact : act.Nodup) (hex : ex.Nodup) :
    (w.modLanes ex Lane.trig).advance i act = (w.advance i act).mapAt ex fun _ => Lane.trig := by
  have hpc (l : Nat) : ((w.modLanes ex Lane.trig).lane l).pc = (w.lane l).pc := by
    rw [modLanes_eq_mapAt w ex hex, lane_mapAt]
    split <;> rfl
  unfold Warp.advance
  simp only [hpc]
  rw [modLanes_eq_mapAt _ act hact, modLanes_eq_mapAt _ act hact, modLanes_eq_mapAt w ex hex]
  refine Warp.eq_of_lanes rfl fun l => ?_
  rw [getElem?_lanes_mapAt, getElem?_lanes_mapAt, getElem?_lanes_mapAt]
  show Option.map _ ((w.mapAt ex fun _ => Lane.trig).regs.lanes[l]?) = Option.map _ (Option.map _ w.regs.lanes[l]?)
  rw [getElem?_lanes_mapAt, Option.map_map, Option.map_map]
  refine congrArg (Option.map · w.regs.lanes[l]?) (funext fun t => ?_)
  simp only [Function.comp_apply]
  split <;> split <;> rfl

/-! ### The instructions that only mark the warp -/

section
variable {w : Std} {s : State} {e : Env} (he : s.env = some e)
include he

theorem exec_nop (hs : s.cur.stream = false) (hroom : e.w.logRoom 0 = true) :
    exec (.nop w) s = .next (s.putWarp ((e.w.commit []).advance s.cur (s.act e.w))) := by
  show execNop w s = _
  rw [execNop, hs, if_neg Bool.false_ne_true, State.onWarp_of_env he, State.finish]
  exact congrArg Host.Outcome.next (if_pos hroom)

theorem exec_yield : exec (.yield w) s = .next (s.putWarp (if s.exec e.w (Fields.ofStd w).ga (Fields.ofStd w).gb = [] then e.w.advance s.cur (s.act e.w)
    else { e.w.advance s.cur (s.act e.w) with yielded := some (s.cycles + 16) })) := by
  show execYield w s = _
  rw [execYield, State.onWarp_of_env he]
  simp only [List.isEmpty_iff]

theorem exec_tmark : exec (.tmark w) s = .next ((s.putWarp (e.w.advance s.cur (s.act e.w))).tracedAt e (s.exec e.w (Fields.ofStd w).ga (Fields.ofStd w).gb) 3 10
    (fun _ => 0) fun l => (e.w.opB (.ofStd w) l).setWidth 54) := by
  show execTmark w s = _
  rw [execTmark, State.onWarp_of_env he]
  cases s.exec e.w (Fields.ofStd w).ga (Fields.ofStd w).gb <;> rfl

section
variable (hset : e.w.settled = true)
include hset

theorem exec_trig : exec (.trig w) s = .next (s.putWarp ((e.w.advance s.cur (s.act e.w)).mapAt (s.exec e.w (Fields.ofStd w).ga (Fields.ofStd w).gb) fun _ => Lane.trig)) := by
  show execTrig w s = _
  rw [execTrig, State.whenSettled_of_env he hset, ← advance_modLanes_trig e.w s.cur (s.nodup_act e.w) (s.nodup_exec e.w _ _)]
  rfl

theorem setMask_eq (f : Fields) (m : Bool) : s.setMask f m = s.putWarp (if s.exec e.w f.ga f.gb = [] then e.w.advance s.cur (s.act e.w)
    else { e.w.advance s.cur (s.act e.w) with regs := { (e.w.advance s.cur (s.act e.w)).regs with trap := { (e.w.advance s.cur (s.act e.w)).regs.trap with
      mask := if m then (e.w.advance s.cur (s.act e.w)).regs.trap.mask ||| 1 else (e.w.advance s.cur (s.act e.w)).regs.trap.mask &&& ~~~1 } } }) := by
  rw [State.setMask, State.whenSettled_of_env he hset]
  simp only [List.isEmpty_iff]
  exact (apply_ite s.putWarp _ _ _).symm

theorem setSoff_eq (f : Fields) (x : Bool) : s.setSoff f x = s.putWarp (if s.exec e.w f.ga f.gb = [] then e.w.advance s.cur (s.act e.w)
    else { e.w.advance s.cur (s.act e.w) with spec := { (e.w.advance s.cur (s.act e.w)).spec with soff := x } }) := by
  rw [State.setSoff, State.whenSettled_of_env he hset]
  simp only [List.isEmpty_iff]
end
end

/-! ### lwait (05 R180) -/

section
variable {w : Std} {s : State} {e : Env} (he : s.env = some e) (hset : e.w.settled = true)
include he hset

theorem exec_lwait_misuse {l0 : Nat} (h : ((s.exec e.w (Fields.ofStd w).ga (Fields.ofStd w).gb).find? fun l =>
    decide ((waitCount e.l e.b ((Fields.ofStd w).mod % 8) (e.w.lane l).wid).2 ≤ (e.w.opB (.ofStd w) l).toNat)) = some l0) :
    exec (.lwait w) s = .next (s.raise e { cause := 0x0D, reason := 8, lane := l0, info := 0 }) := by
  show execLwait w s = _
  rw [execLwait, State.whenSettled_of_env he hset]
  dsimp only
  rw [h]
  rfl

theorem exec_lwait_within (h : ∀ l ∈ s.exec e.w (Fields.ofStd w).ga (Fields.ofStd w).gb,
    (e.w.opB (.ofStd w) l).toNat < (waitCount e.l e.b ((Fields.ofStd w).mod % 8) (e.w.lane l).wid).2) :
    let late := (s.exec e.w (Fields.ofStd w).ga (Fields.ofStd w).gb).filter fun l =>
      decide ((waitCount e.l e.b ((Fields.ofStd w).mod % 8) (e.w.lane l).wid).1 < (e.w.opB (.ofStd w) l).toNat)
    exec (.lwait w) s = .next ((s.putWarp ((e.w.advance s.cur ((s.act e.w).filter fun l => l ∉ late)).waiting late fun l =>
      .lwait ((Fields.ofStd w).mod % 8) (e.w.opB (.ofStd w) l).toNat)).checkDeadlock e.b.id) := by
  intro late
  have hlate : late.Nodup := (s.nodup_exec e.w _ _).filter _
  show execLwait w s = _
  rw [execLwait, State.whenSettled_of_env he hset, Warp.waiting_eq_mapAt, ← foldl_modLanes_eq_mapAt _ _ _ hlate, ← filter_not_contains]
  dsimp only
  rw [List.find?_eq_none.2 fun l hl => by simpa using h l hl]
end

/-! ### halt (05 R191) -/

section
variable {w : Std} {s : State} {e : Env}

theorem exec_halt_of_privileged (he : s.env = some e) (hset : e.w.settled = true) (hex : s.exec e.w (Fields.ofStd w).ga (Fields.ofStd w).gb ≠ [])
    (hpriv : e.l.hdr.privileged = true) : exec (.halt w) s = .next ((s.skipWarp e).stopLaunch e.l.id 2 0) := by
  obtain ⟨l, ls, hls⟩ := List.exists_cons_of_ne_nil hex
  show execHalt w s = _
  rw [execHalt, State.whenSettled_of_env he hset, hls, hpriv]
  rfl

/-- A launch that stops: it halts, with the status given unless it was halting. -/
theorem launch?_stopLaunch {n : Nat} {l : Launch} (hl : s.launch? n = some l) (stat reason : Byte) :
    ∃ l', (s.stopLaunch n stat reason).launch? n = some l' ∧ l'.halting = true ∧ (l.halting = false → l'.stat = stat ∧ l'.reason = reason) := by
  unfold State.stopLaunch
  extract_lets s1 mine s2
  have h1 : s1.launch? n = some (if l.halting then l else { l with halting := true, stat := stat, reason := reason }) := by
    rw [launch?_modLaunch s n fun l => by split <;> rfl, hl]
    rfl
  have h2 : s2.launches = s1.launches := by
    have := congrArg State.launches (sansCrew_rollAll s1 (s1.warps.filter fun w => mine w.block))
    exact this
  have h3 : s1.SameLaunches ((s2.discardSaved n).cancelCmds n) := by
    refine sameLaunches_of_remains (n := n) (g := fun l => l.remains ++ ?_) ?_
    rotate_left
    · rw [← h2]
      rfl
  obtain ⟨x, hx⟩ := h3.launch? h1
  refine ⟨_, hx, ?_, fun hhalt => ?_⟩
  · show (if l.halting then l else _).halting = true
    split
    · assumption
    · rfl
  · rw [hhalt]
    exact ⟨rfl, rfl⟩

theorem contexts_discardSaved (s : State) (n : Nat) : ∀ x ∈ ((s.discardSaved n).cancelCmds n).contexts, ∀ b ∈ x.blocks, b.launch ≠ n := by
  intro x hx b hb hn
  obtain ⟨c, hc, rfl⟩ := List.mem_map.1 hx
  obtain ⟨hbc, hkeep⟩ := List.mem_filter.1 hb
  have hgone : b ∈ (s.contexts.flatMap (·.blocks)).filter fun b => b.launch == n :=
    List.mem_filter.2 ⟨List.mem_flatMap.2 ⟨c, hc, hbc⟩, by simpa using hn⟩
  have hmine : (((s.contexts.flatMap (·.blocks)).filter fun b => b.launch == n).any fun x => x.id == b.id) = true :=
    List.any_eq_true.2 ⟨b, hgone, beq_self_eq_true _⟩
  exact absurd hmine (by simp only [Bool.not_eq_true'] at hkeep; exact Bool.eq_false_iff.1 hkeep)

theorem warpReady_of_halting {b : Block} {l : Launch} {v : Warp} (hb : s.block? v.block = some b) (hl : s.launch? b.launch = some l) (hhalt : l.halting = true) :
    s.warpReady v = false := by
  simp [State.warpReady, hb, hl, hhalt]
theorem streamReady_of_halting {b : Block} {l : Launch} (hl : s.launch? b.launch = some l) (hhalt : l.halting = true) : s.streamReady b = false := by
  unfold State.streamReady
  rw [hl]
  split
  · rename_i heq
    cases heq
    simp [hhalt]
  · rfl
end

/-! ### exit (05 R165) -/

/-- The warp, the block and the launch of an environment stand in the state under their numbers. -/
theorem State.found_of_env {s : State} {e : Env} (he : s.env = some e) :
    s.warp? e.w.id = some e.w ∧ s.block? e.b.id = some e.b ∧ s.launch? e.l.id = some e.l ∧ e.w.block = e.b.id ∧ e.b.launch = e.l.id := by
  unfold State.env at he
  split at he
  · cases he
  · rename_i w hw
    split at he
    · cases he
    · rename_i b hb
      obtain ⟨l, hl, rfl⟩ := Option.map_eq_some_iff.1 he
      have hid := State.id_of_warp? hw
      have hbid := State.id_of_block? hb
      have hlid := State.id_of_launch? hl
      dsimp only
      rw [hid, hbid, hlid]
      exact ⟨hw, hb, hl, rfl, rfl⟩

/-- A thread that has exited. -/
def Lane.gone (t : Lane) : Lane := { t with exited := true, wait := .none, query := RayQuery.empty }

section
variable {w : Warp} {ex : List Nat} (hex : ex.Nodup)
include hex

theorem lane_gone {l : Nat} (hl : l ∈ ex) (hlt : l < w.width) : (w.modLanes ex Lane.gone).lane l = (w.lane l).gone := by
  rw [modLanes_eq_mapAt w ex hex, lane_mapAt, if_pos ⟨hl, hlt⟩]
theorem lane_not_gone {l : Nat} (hl : l ∉ ex) : (w.modLanes ex Lane.gone).lane l = w.lane l := by
  rw [modLanes_eq_mapAt w ex hex, lane_mapAt, if_neg fun h => hl h.1]
theorem mem_live_gone (l : Nat) : l ∈ (w.modLanes ex Lane.gone).live ↔ l ∈ w.live ∧ l ∉ ex := by
  have hwidth : (w.modLanes ex Lane.gone).width = w.width := by rw [modLanes_eq_mapAt w ex hex, width_mapAt]
  simp only [Warp.live, hwidth, List.mem_filter, List.mem_range]
  by_cases hl : l ∈ ex
  · simp only [hl, not_true, and_false, iff_false, not_and]
    intro hlt
    simp [lane_gone hex hl hlt, Lane.gone]
  · simp [lane_not_gone hex hl, hl]
theorem census_gone {v : Warp} (h : v.census = w.census) : (v.modLanes ex Lane.gone).census = (w.modLanes ex Lane.gone).census := by
  have hpair (u : Warp) (l : Nat) : (u.modLanes ex Lane.gone).census[l]? = u.census[l]?.map fun p => if l ∈ ex then (p.1, true) else p := by
    rw [modLanes_eq_mapAt u ex hex, Warp.census, Warp.census, List.getElem?_map, List.getElem?_map, getElem?_lanes_mapAt, Option.map_map, Option.map_map]
    refine congrArg (Option.map · _) (funext fun t => ?_)
    simp only [Function.comp_apply]
    split <;> rfl
  exact List.ext_getElem? fun l => by rw [hpair, hpair, h]
end

theorem exec_exit {w : Std} {s : State} {e : Env} (hs : s.cur.stream = false) (he : s.env = some e) (hset : e.w.settled = true) {l : Nat} {ls : List Nat}
    (hex : s.exec e.w (Fields.ofStd w).ga (Fields.ofStd w).gb = l :: ls) :
    exec (.exit w) s = .next (((s.putWarp (e.w.advance s.cur (s.act e.w))).traceWarp e.w.id (some 4) 14 l 0 (e.w.lane l).pc).exitLanes e (l :: ls)) := by
  show execExit w s = _
  rw [execExit, hs, if_neg Bool.false_ne_true, State.whenSettled_of_env he hset]
  dsimp only
  rw [hex]

/-- The count of the threads that exit, in their batch or in their launch. -/
def State.countExits (s : State) (e : Env) (ls : List Nat) : State :=
  if e.b.batch.isSome then s.modBlock e.b.id fun b => { b with batchExits := b.batchExits + ls.length }
  else s.modLaunch e.l.id fun l => { l with exits := l.exits ++ ls.map fun l => (e.w.lane l).wid }

section
variable {s : State} (e : Env) (ls : List Nat)

theorem warps_countExits : (s.countExits e ls).warps = s.warps := by
  unfold State.countExits
  split <;> rfl
theorem quads_countExits : (s.countExits e ls).quads = s.quads := by
  unfold State.countExits
  split <;> rfl
theorem block?_countExits {b : Block} (hb : s.block? e.b.id = some b) : ∃ n, (s.countExits e ls).block? e.b.id = some { b with batchExits := n } := by
  unfold State.countExits
  split
  · exact ⟨_, (block?_modBlock s e.b.id (f := fun b => { b with batchExits := b.batchExits + ls.length }) fun _ => rfl).trans (congrArg (Option.map _) hb)⟩
  · exact ⟨_, hb⟩
theorem launch?_countExits {l : Launch} (hl : s.launch? e.l.id = some l) : ∃ x, (s.countExits e ls).launch? e.l.id = some { l with exits := x } ∧
    (e.b.batch = none → x = l.exits ++ ls.map fun l => (e.w.lane l).wid) := by
  unfold State.countExits
  split
  · rename_i h
    refine ⟨_, hl, fun hnone => ?_⟩
    rw [hnone] at h
    cases h
  · exact ⟨_, (launch?_modLaunch s e.l.id (f := fun l => { l with exits := l.exits ++ ls.map fun l => (e.w.lane l).wid }) fun _ => rfl).trans (congrArg (Option.map _) hl),
      fun _ => rfl⟩
end

/-- A trace record of a settled warp. -/
theorem sansTrace_traceWarp_of_settled {s : State} {id : Nat} (h : ∀ w, s.warp? id = some w → w.settled = true) (flag : Option Nat) (kind info : Nat)
    (a1 : BitVec 54) (pc : Pc) : (s.traceWarp id flag kind info a1 pc).sansTrace = s.sansTrace := by
  rcases traceWarp_cases s id flag kind info a1 pc with ht | ⟨w, r, hw, hset, -⟩
  · exact ht
  · rw [h w hw] at hset
    cases hset

/-- The issuing warp once its threads `ex` have exited. -/
def State.leaver (s : State) (e : Env) (ex : List Nat) : Warp := (e.w.advance s.cur (s.act e.w)).modLanes ex Lane.gone
/-- The state once the threads `ex` have exited and count, before what that ends. -/
def State.leaving (s : State) (e : Env) (l : Nat) (ex : List Nat) : State :=
  (((s.putWarp (e.w.advance s.cur (s.act e.w))).traceWarp e.w.id (some 4) 14 l 0 (e.w.lane l).pc).countExits e ex).modWarp e.w.id fun w => w.modLanes ex Lane.gone

theorem warp?_putWarp {s : State} {id : Nat} {w v : Warp} (hid : v.id = id) (h : s.warp? id = some w) : (s.putWarp v).warp? id = some v := by
  have hput : s.putWarp v = s.modWarp id fun x => if x.id = id then v else x := by
    simp only [State.putWarp, State.modWarp, hid]
    congr 1
    refine List.map_congr_left fun x _ => ?_
    split <;> rfl
  rw [hput, warp?_modWarp s id fun x => by split; exacts [hid.trans (Eq.symm ‹_›), rfl], h]
  exact congrArg some (if_pos (State.id_of_warp? h))

section
variable {s : State} {e : Env} (he : s.env = some e) (hset : e.w.settled = true) (l : Nat) (ex : List Nat)
include he hset

theorem sansTrace_exitTrace : ((s.putWarp (e.w.advance s.cur (s.act e.w))).traceWarp e.w.id (some 4) 14 l 0 (e.w.lane l).pc).sansTrace =
    (s.putWarp (e.w.advance s.cur (s.act e.w))).sansTrace := by
  obtain ⟨hw, -⟩ := State.found_of_env he
  refine sansTrace_traceWarp_of_settled (fun w h => ?_) _ _ _ _ _
  rw [warp?_putWarp (id := e.w.id) (v := e.w.advance s.cur (s.act e.w)) rfl hw] at h
  injection h with h
  rw [← h]
  exact hset

theorem warps_leaving : (s.leaving e l ex).warps = s.warps.map fun u => if u.id = e.w.id then s.leaver e ex else u := by
  have htrace := warps_of_sansTrace (sansTrace_exitTrace he hset l)
  rw [State.leaving]
  show List.map _ (State.countExits _ e ex).warps = _
  rw [warps_countExits, htrace]
  simp only [State.putWarp, List.map_map]
  refine List.map_congr_left fun u _ => ?_
  simp only [Function.comp_apply]
  by_cases hu : u.id = e.w.id
  · rw [if_pos hu, if_pos (show u.id = (e.w.advance s.cur (s.act e.w)).id from hu)]
    exact if_pos rfl
  · rw [if_neg hu, if_neg (show u.id ≠ (e.w.advance s.cur (s.act e.w)).id from hu)]
    exact if_neg hu

theorem warp?_leaving : (s.leaving e l ex).warp? e.w.id = some (s.leaver e ex) := by
  obtain ⟨hw, -⟩ := State.found_of_env he
  have hput : (s.leaving e l ex).warps = (s.putWarp (s.leaver e ex)).warps := warps_leaving he hset l ex
  rw [State.warp?, hput]
  exact warp?_putWarp rfl hw

theorem counts_leaving : (s.leaving e l ex).Counts e.w.id (s.leaver e ex).census := by
  intro v hv hid
  rw [warps_leaving he hset] at hv
  obtain ⟨u, -, rfl⟩ := List.mem_map.1 hv
  by_cases hu : u.id = e.w.id
  · rw [if_pos hu]
  · rw [if_neg hu] at hid
    exact absurd hid hu

theorem block?_leaving : ∃ n, (s.leaving e l ex).block? e.b.id = some { e.b with batchExits := n } := by
  obtain ⟨-, hb, -⟩ := State.found_of_env he
  have hblocks := congrArg State.blocks (sansTrace_exitTrace he hset l)
  exact block?_countExits e ex ((congrArg (List.find? fun b : Block => b.id == e.b.id) hblocks).trans hb)
theorem launch?_leaving : ∃ x, (s.leaving e l ex).launch? e.l.id = some { e.l with exits := x } ∧
    (e.b.batch = none → x = e.l.exits ++ ex.map fun l => (e.w.lane l).wid) := by
  obtain ⟨-, -, hl, -⟩ := State.found_of_env he
  have hlaunches := congrArg State.launches (sansTrace_exitTrace he hset l)
  exact launch?_countExits e ex ((congrArg (List.find? fun l : Launch => l.id == e.l.id) hlaunches).trans hl)
theorem quads_leaving : (s.leaving e l ex).quads = s.quads := by
  have hquads := congrArg State.quads (sansTrace_exitTrace he hset l)
  exact (quads_countExits e ex).trans hquads
end

section
variable {s : State} {id : Nat}

theorem settleWarp_of_live {w : Warp} (hw : s.warp? id = some w) (h : w.live ≠ []) : s.settleWarp id = s := by
  rw [State.settleWarp, hw]
  exact if_neg fun hdone => h (List.isEmpty_iff.1 (Bool.and_eq_true_iff.1 hdone).1)
theorem settleWarp_of_done {w : Warp} (hw : s.warp? id = some w) (h : w.live = []) (hfatal : w.fatal = none) :
    s.settleWarp id = { s with warps := s.warps.filter fun v => v.id != id } := by
  rw [State.settleWarp, hw]
  exact if_pos (by rw [h, hfatal]; rfl)
theorem settleWarp_cases (s : State) (id : Nat) : s.settleWarp id = s ∨ s.settleWarp id = { s with warps := s.warps.filter fun v => v.id != id } := by
  unfold State.settleWarp
  split
  · split
    · exact .inr rfl
    · exact .inl rfl
  · exact .inl rfl
theorem sansThreads_settleWarp (s : State) (id : Nat) : (s.settleWarp id).sansThreads = s.sansThreads := by
  rcases settleWarp_cases s id with h | h <;> rw [h]
  rfl
theorem State.Counts.settleWarp {n : Nat} {c : List (Bool × Bool)} (h : s.Counts n c) (id : Nat) : (s.settleWarp id).Counts n c := by
  rcases settleWarp_cases s id with ht | ht
  · rwa [ht]
  · rw [ht]
    exact fun v hv => h v (List.mem_filter.1 hv).1

theorem isSome_warp? (s : State) (id : Nat) : (s.warp? id).isSome = true ↔ id ∈ s.warpIds := by
  simp [State.warp?, State.warpIds]
end

/-- What is left of a launch and its warps once the ends that an exit brings are settled. -/
def State.settledAfter (s : State) (e : Env) : State :=
  ((((s.tryLeave e.w.id).settleWarp e.w.id).releaseLevels e.l.id).checkDeadlock e.b.id).settleBlock e.b.id

section
variable {s : State} {e : Env}

theorem exitLanes_eq_settledAfter (s : State) (e : Env) (l : Nat) (ex : List Nat) :
    ((s.putWarp (e.w.advance s.cur (s.act e.w))).traceWarp e.w.id (some 4) 14 l 0 (e.w.lane l).pc).exitLanes e ex = (s.leaving e l ex).settledAfter e := rfl
theorem warps_settledAfter (s : State) (e : Env) : (s.settledAfter e).warps = ((((s.tryLeave e.w.id).settleWarp e.w.id).releaseLevels e.l.id).checkDeadlock e.b.id).warps :=
  warps_settleBlock _ _
theorem sameCrew_endings (s : State) (e : Env) : SameCrew s ((s.releaseLevels e.l.id).checkDeadlock e.b.id) :=
  (sameCrew_releaseLevels s e.l.id).trans (sameCrew_checkDeadlock _ e.b.id)

theorem State.Counts.settledAfter {c : List (Bool × Bool)} (h : s.Counts e.w.id c) : (s.settledAfter e).Counts e.w.id c := by
  have hend := (sameCrew_endings _ e).counts _ _ (((sameCrew_tryLeave s e.w.id).counts _ _ h).settleWarp e.w.id)
  exact fun v hv => hend v (warps_settledAfter s e ▸ hv)

theorem launch?_settledAfter {l : Launch} (hl : s.launch? e.l.id = some l) : ∃ x, (s.settledAfter e).launch? e.l.id = some { l with remains := x } := by
  refine (sameLaunches_settleBlock _ _).launch? ?_
  have hrest := (sameCrew_endings ((s.tryLeave e.w.id).settleWarp e.w.id) e).rest.trans ((sansThreads_settleWarp _ _).trans (sameCrew_tryLeave s e.w.id).rest)
  exact (launch?_of_sansThreads hrest _).trans hl

/-- A warp with a live thread left stays. -/
theorem isSome_warp?_settledAfter {w : Warp} (hid : e.w.id ∈ s.warpIds) (hc : s.Counts e.w.id w.census) (hlive : w.live ≠ []) :
    ((s.settledAfter e).warp? e.w.id).isSome = true := by
  have hleft := sameCrew_tryLeave s e.w.id
  have hid' : e.w.id ∈ (s.tryLeave e.w.id).warpIds := hleft.ids ▸ hid
  obtain ⟨v, hv⟩ := Option.isSome_iff_exists.1 ((isSome_warp? _ _).2 hid')
  have hcensus : v.census = w.census := hleft.counts _ _ hc v (List.mem_of_find?_eq_some hv) (State.id_of_warp? hv)
  rw [isSome_warp?, State.warpIds, warps_settledAfter, ← State.warpIds, (sameCrew_endings _ e).ids, settleWarp_of_live hv (live_of_census hcensus ▸ hlive)]
  exact hid'

/-- A warp outside its handler with no live thread left retires. -/
theorem ends_of_done {w : Warp} (hw : s.warp? e.w.id = some w) (hout : w.regs.trap.inHandler = false) (hfatal : w.fatal = none) (hlive : w.live = []) :
    (s.tryLeave e.w.id).settleWarp e.w.id = { s with warps := s.warps.filter fun v => v.id != e.w.id } := by
  have hstay : s.tryLeave e.w.id = s := by rw [State.tryLeave, hw]; exact if_pos (by rw [hout]; rfl)
  rw [hstay, settleWarp_of_done hw hlive hfatal]

theorem warp?_settledAfter_of_done {w : Warp} (hw : s.warp? e.w.id = some w) (hout : w.regs.trap.inHandler = false) (hfatal : w.fatal = none) (hlive : w.live = []) :
    (s.settledAfter e).warp? e.w.id = none := by
  rw [← Option.not_isSome_iff_eq_none, isSome_warp?, State.warpIds, warps_settledAfter, ← State.warpIds, (sameCrew_endings _ e).ids, ends_of_done hw hout hfatal hlive]
  simp [State.warpIds]

/-- A block without a warp, with an empty pool and no operation of the Anvil, whose stream has ended. -/
def State.BlockDone (s : State) (b : Block) : Prop :=
  (∀ v ∈ s.warps, v.block ≠ b.id) ∧ b.pool = [] ∧ (∀ x, b.stream = some x → x.exited = true ∧ x.fatal = none ∧ x.wait = .none) ∧ ∀ o ∈ s.quads.ops, o.block ≠ b.id

theorem block?_settleBlock_of_done {b : Block} (h : s.BlockDone b) (hb : s.block? b.id = some b) : (s.settleBlock b.id).block? b.id = none := by
  obtain ⟨hwarps, hpool, hstream, hops⟩ := h
  have hended : s.blockEnded b = true := by
    have hnone : s.blockWarps b.id = [] := List.filter_eq_nil_iff.2 fun v hv hblk => hwarps v hv (beq_iff_eq.1 hblk)
    have hno : (s.quads.ops.any fun o => o.block == b.id) = false := List.any_eq_false.2 fun o ho hblk => hops o ho (beq_iff_eq.1 hblk)
    rw [State.blockEnded, hnone, hpool, hno]
    cases hx : b.stream with
    | none => rfl
    | some x =>
      obtain ⟨hexit, hfatal, -⟩ := hstream x hx
      simp [hexit, hfatal]
  rw [State.settleBlock, hb]
  dsimp only
  rw [if_pos hended]
  exact List.find?_eq_none.2 fun x hx hid => by simpa [beq_iff_eq.1 hid] using (List.mem_filter.1 hx).2

theorem checkDeadlock_of_done {b : Block} {l : Launch} (h : s.BlockDone b) (hb : s.block? b.id = some b) (hl : s.launch? b.launch = some l) :
    s.checkDeadlock b.id = s := by
  refine checkDeadlock_of_not_stuck hb hl fun hstuck => ?_
  obtain ⟨hwarps, -, hstream, -⟩ := h
  obtain ⟨-, -, -, ⟨v, hv, hblk, -⟩ | ⟨x, k, t, hx, hwait⟩⟩ := hstuck
  · exact hwarps v hv hblk
  · obtain ⟨-, -, hnone⟩ := hstream x hx
    rw [hnone] at hwait
    cases hwait

theorem State.BlockDone.releaseLevels {b : Block} (h : s.BlockDone b) (n : Nat) : (s.releaseLevels n).BlockDone b := by
  unfold State.releaseLevels
  split
  · exact h
  · obtain ⟨hwarps, hpool, hstream, hops⟩ := h
    refine ⟨fun v hv => ?_, hpool, hstream, hops⟩
    obtain ⟨w, hw, rfl⟩ := List.mem_map.1 hv
    have hblk := hwarps w hw
    split
    · split
      · exact hblk
      · exact hblk
    · exact hblk
theorem block?_releaseLevels (n id : Nat) : (s.releaseLevels n).block? id = s.block? id := by
  unfold State.releaseLevels
  split <;> rfl

theorem block?_settledAfter_of_done {w : Warp} {b : Block} {l : Launch} (hw : s.warp? e.w.id = some w) (hout : w.regs.trap.inHandler = false) (hfatal : w.fatal = none)
    (hlive : w.live = []) (hbid : b.id = e.b.id) (hb : s.block? e.b.id = some b) (hl : s.launch? b.launch = some l)
    (hdone : ({ s with warps := s.warps.filter fun v => v.id != e.w.id } : State).BlockDone b) : (s.settledAfter e).block? e.b.id = none := by
  rw [State.settledAfter, ends_of_done hw hout hfatal hlive, ← hbid]
  have hdone' := hdone.releaseLevels e.l.id
  have hb' := (block?_releaseLevels (s := { s with warps := s.warps.filter fun v => v.id != e.w.id }) e.l.id b.id).trans (hbid ▸ hb)
  have hl' : (({ s with warps := s.warps.filter fun v => v.id != e.w.id } : State).releaseLevels e.l.id).launch? b.launch = some l :=
    (launch?_of_sansThreads (sameCrew_releaseLevels _ _).rest _).trans hl
  rw [checkDeadlock_of_done hdone' hb' hl']
  exact block?_settleBlock_of_done hdone' hb'
end

/-! ### Settling O24 -/

section
variable {s : State} {e : Env} (he : s.env = some e) (hset : e.w.settled = true) (w : Std)
include he hset

/-- What an exit of threads leaves. -/
theorem leads_exit (hs : s.cur.stream = false) {l : Nat} {ls : List Nat} (hex : s.exec e.w (Fields.ofStd w).ga (Fields.ofStd w).gb = l :: ls) :
    Leads (.exit w) s fun t =>
      (∀ v, t.warp? e.w.id = some v → ∀ i ∈ l :: ls, (v.lane i).exited = true) ∧
      (e.b.batch = none → ∃ l', t.launch? e.l.id = some l' ∧ l'.exits = e.l.exits ++ (l :: ls).map fun l => (e.w.lane l).wid) ∧
      ((∃ i ∈ e.w.live, i ∉ l :: ls) → (t.warp? e.w.id).isSome = true) ∧
      (e.w.regs.trap.inHandler = false → e.w.fatal = none → (∀ i ∈ e.w.live, i ∈ l :: ls) → t.warp? e.w.id = none ∧
        (s.blockWarps e.b.id = [e.w] → e.b.pool = [] → (∀ x, e.b.stream = some x → x.exited = true ∧ x.fatal = none ∧ x.wait = .none) →
          (∀ o ∈ s.quads.ops, o.block ≠ e.b.id) → t.block? e.b.id = none)) := by
  obtain ⟨hw, -, -, hblk, hlaunch⟩ := State.found_of_env he
  have hnodup : (l :: ls).Nodup := hex ▸ s.nodup_exec _ _ _
  have hlt (i : Nat) (hi : i ∈ l :: ls) : i < e.w.width := State.lt_of_mem_exec (hex ▸ hi)
  have hcensus : (s.leaver e (l :: ls)).census = (e.w.modLanes (l :: ls) Lane.gone).census := census_gone hnodup (sameThreads_advance e.w _ _).census
  have hlive (i : Nat) : i ∈ (s.leaver e (l :: ls)).live ↔ i ∈ e.w.live ∧ i ∉ l :: ls := by rw [live_of_census hcensus, mem_live_gone hnodup]
  have hwarp := warp?_leaving he hset l (l :: ls)
  have hcounts := counts_leaving he hset l (l :: ls)
  have htrap : (s.leaver e (l :: ls)).regs.trap = e.w.regs.trap := by
    rw [State.leaver, modLanes_eq_mapAt _ _ hnodup]
    exact (s.moved_act e.w).trap
  refine ⟨_, (exec_exit hs he hset hex).trans (congrArg Host.Outcome.next (exitLanes_eq_settledAfter s e l (l :: ls))),
    fun v hv i hi => ?_, fun hb => ?_, fun ⟨i, hi, hout⟩ => ?_, fun hout hfatal hall => ?_⟩
  · have hv := (hcounts.settledAfter v (List.mem_of_find?_eq_some hv) (State.id_of_warp? hv)).trans hcensus
    rw [exited_of_census hv, lane_gone hnodup hi (hlt i hi)]
    rfl
  · obtain ⟨x, hx, hexits⟩ := launch?_leaving he hset l (l :: ls)
    obtain ⟨y, hy⟩ := launch?_settledAfter hx
    exact ⟨_, hy, hexits hb⟩
  · exact isSome_warp?_settledAfter ((isSome_warp? _ _).1 (hwarp ▸ rfl)) hcounts (List.ne_nil_of_mem ((hlive i).2 ⟨hi, hout⟩))
  · have hnone : (s.leaver e (l :: ls)).live = [] := List.eq_nil_iff_forall_not_mem.2 fun i hi => ((hlive i).1 hi).2 (hall i ((hlive i).1 hi).1)
    refine ⟨warp?_settledAfter_of_done hwarp (htrap ▸ hout) hfatal hnone, fun honly hpool hstream hops => ?_⟩
    obtain ⟨n, hb⟩ := block?_leaving he hset l (l :: ls)
    obtain ⟨x, hx, -⟩ := launch?_leaving he hset l (l :: ls)
    refine block?_settledAfter_of_done (b := { e.b with batchExits := n }) hwarp (htrap ▸ hout) hfatal hnone rfl hb (hlaunch ▸ hx)
      ⟨fun v hv hvb => ?_, hpool, hstream, quads_leaving he hset l (l :: ls) ▸ hops⟩
    obtain ⟨hv, hid⟩ := List.mem_filter.1 hv
    rw [warps_leaving he hset] at hv
    obtain ⟨u, hu, rfl⟩ := List.mem_map.1 hv
    by_cases huid : u.id = e.w.id
    · rw [if_pos huid] at hid
      simp [State.leaver, Warp.advance, Warp.modLanes, Warp.counted] at hid
    · rw [if_neg huid] at hvb
      have hmem : u ∈ s.blockWarps e.b.id := List.mem_filter.2 ⟨hu, beq_iff_eq.2 hvb⟩
      rw [honly, List.mem_singleton] at hmem
      exact huid (congrArg Warp.id hmem)

/-- What a halt of a launch leaves. -/
theorem leads_halt (hex : s.exec e.w (Fields.ofStd w).ga (Fields.ofStd w).gb ≠ []) (hpriv : e.l.hdr.privileged = true) :
    Leads (.halt w) s fun t =>
      (∃ l', t.launch? e.l.id = some l' ∧ l'.halting = true ∧ (e.l.halting = false → l'.stat = 2 ∧ l'.reason = 0)) ∧
      (∀ v ∈ t.warps, ∀ b, t.block? v.block = some b → b.launch = e.l.id → t.warpReady v = false) ∧
      (∀ b ∈ t.blocks, b.launch = e.l.id → t.streamReady b = false) ∧ ∀ x ∈ t.contexts, ∀ b ∈ x.blocks, b.launch ≠ e.l.id := by
  obtain ⟨-, -, hl, -⟩ := State.found_of_env he
  obtain ⟨l', hl', hhalt, hstat⟩ := launch?_stopLaunch (s := s.skipWarp e) hl 2 0
  refine ⟨_, exec_halt_of_privileged he hset hex hpriv, ⟨l', hl', hhalt, hstat⟩, fun v _ b hb hbl => ?_, fun b _ hbl => ?_, contexts_discardSaved _ _⟩
  · exact warpReady_of_halting hb (hbl ▸ hl') hhalt
  · exact streamReady_of_halting (hbl ▸ hl') hhalt
end

/-- Settles O24: each instruction by the equation of its execution; an exit and a halt by what the ends they bring leave of the crew and of the launch. -/
theorem warpInstructionsWithoutResults : Obligations.WarpInstructionsWithoutResults := by
  intro w s e hs he f ex moved
  refine ⟨exec_nop he hs, ⟨_, s.moved_act e.w, exec_yield he⟩, ⟨_, s.moved_act e.w, exec_tmark he⟩, fun hset => ?_⟩
  refine ⟨⟨_, s.moved_act e.w, exec_trig he hset⟩, ⟨_, s.moved_act e.w, ?tmask⟩, ⟨_, s.moved_act e.w, ?tunmask⟩,
    ⟨_, s.moved_act e.w, ?specoff⟩, ⟨_, s.moved_act e.w, ?specon⟩,
    fun hne => ?exit, leads_halt he hset w, fun l0 h => exec_lwait_misuse he hset h, fun h => ⟨_, s.moved_outside e.w _, exec_lwait_within he hset h⟩⟩
  case tmask => exact congrArg Host.Outcome.next (setMask_eq he hset (.ofStd w) true)
  case tunmask => exact congrArg Host.Outcome.next (setMask_eq he hset (.ofStd w) false)
  case specoff => exact congrArg Host.Outcome.next (setSoff_eq he hset (.ofStd w) true)
  case specon => exact congrArg Host.Outcome.next (setSoff_eq he hset (.ofStd w) false)
  case exit =>
    obtain ⟨l, ls, hex⟩ := List.exists_cons_of_ne_nil hne
    have hleads := leads_exit he hset w hs hex
    rwa [← hex] at hleads

end Sys2Proof.Machine

/-! PROOFS. tlbinv, cachectl and halt: their privilege, and what they remove (family 05_control_sync_work_system.md). -/
namespace Sys2Proof.Machine

/-- An instruction that may be of long latency, with room in the undo log, ends as one. -/
theorem longEnd_finishLong {s : State} {e : Env} (f : Fields) {ds : List Dest} {ws : List RegWrite} (hroom : e.w.longRoom ds ws) :
    LongEnd s s e f ds ws (s.finishLong e f.la ds ws) := by
  unfold Warp.longRoom at hroom
  constructor
  · intro hla
    simp only [State.finishLong, hroom, hla, Bool.not_true, Bool.false_eq_true, if_false, and_self, if_true]
  · intro hla
    simp only [State.finishLong, hroom, hla, Bool.not_true, Bool.false_eq_true, if_false, false_and]
    exact ⟨_, rfl, wrote_advance e.w s.cur (s.act e.w) (s.nodup_act _) (fun _ => State.lt_of_mem_act) _, rfl, rfl⟩

/-! ### Lines that leave every cache -/

/-- No L1 and not the L2 holds a line. -/
def Caches.Lacks (c : Caches) (x : Nat) : Prop := (∀ k ∈ c.l1, k.2.1 ≠ x) ∧ x ∉ c.l2

theorem Caches.Lacks.l1At {c : Caches} {x : Nat} (h : c.Lacks x) (core : Nat) : c.l1At core x = none := by
  rw [Caches.l1At, List.find?_eq_none.2 fun k hk => by simp [h.1 k hk]]
  rfl

section
variable (s : State)

theorem lacks_evictL2 (x : Nat) : (s.evictL2 x).cache.Lacks x := by
  refine ⟨fun k hk => ?_, fun hx => ?_⟩
  · have hk : k ∈ s.cache.l1.filter fun k => k.2.1 != x || !true := hk
    simpa using (List.mem_filter.1 hk).2
  · have hx : x ∈ s.cache.l2.filter fun y => y != x := hx
    simpa using (List.mem_filter.1 hx).2

theorem lacks_evictL2_of_lacks {x : Nat} (h : s.cache.Lacks x) (y : Nat) : (s.evictL2 y).cache.Lacks x :=
  ⟨fun k hk => h.1 k (List.mem_filter.1 hk).1, fun hx => h.2 (List.mem_filter.1 hx).1⟩

theorem lacks_cleanLine {x : Nat} (h : s.cache.Lacks x) (y : Nat) : (s.cleanLine y).cache.Lacks x := by
  refine ⟨fun k hk => ?_, h.2⟩
  obtain ⟨k', hk', rfl⟩ := List.mem_map.1 hk
  exact h.1 k' hk'

theorem lacks_of_evictions (lines : List Nat) : ∀ x ∈ lines, (lines.foldl (fun s x => (s.cleanLine x).evictL2 x) s).cache.Lacks x := by
  have hkeep (lines : List Nat) (x : Nat) : ∀ s : State, s.cache.Lacks x → (lines.foldl (fun s x => (s.cleanLine x).evictL2 x) s).cache.Lacks x := by
    induction lines with
    | nil => exact fun _ h => h
    | cons y ys ih => exact fun s h => ih _ (lacks_evictL2_of_lacks _ (lacks_cleanLine s h y) y)
  induction lines generalizing s with
  | nil => exact fun x hx => absurd hx List.not_mem_nil
  | cons y ys ih =>
    intro x hx
    rcases List.mem_cons.1 hx with rfl | hx
    · exact hkeep ys x _ (lacks_evictL2 _ x)
    · exact ih _ x hx

theorem sansCache_cacheOp (core op : Nat) (lines : List Nat) : (s.cacheOp core op lines).sansCache = s.sansCache := by
  unfold State.cacheOp
  split
  · exact foldl_keeps sansCache_cleanLine s lines
  · exact foldl_keeps (fun s x => sansCache_dropFromL1 s core x) s lines
  · exact foldl_keeps (fun s x => (sansCache_evictL2 _ x).trans (sansCache_cleanLine s x)) s lines
end

theorem kept_of_sansCache {s t : State} (h : t.sansCache = s.sansCache) :
    t.mem = s.mem ∧ t.warps = s.warps ∧ t.launches = s.launches ∧ t.blocks = s.blocks := by
  have hmem := congrArg State.mem h
  have hwarps := congrArg State.warps h
  have hlaunches := congrArg State.launches h
  have hblocks := congrArg State.blocks h
  exact ⟨hmem, hwarps, hlaunches, hblocks⟩

/-! ### Translations that go -/

section
variable (s : State)

theorem tlb_failLaunch (l : Launch) (cause reason : Nat) (info : W64) : (s.failLaunch l cause reason info).tlb = s.tlb := by
  have htlb (ws : List Warp) : (s.rollAll ws).tlb = s.tlb := by
    have := congrArg State.tlb (sansCrew_rollAll s ws)
    exact this
  exact htlb _

theorem tlb_endLeases (n : Named) : (s.endLeases n).tlb = s.tlb := by
  refine foldl_keeps (fun s l => ?_) s s.launches
  split
  · rfl
  · split
    · rfl
    · rename_i p _
      split
      · rfl
      · split
        · exact tlb_failLaunch s l 5 3 (BitVec.ofNat 64 (p * 4096))
        · rfl

theorem not_has_of_mem_tlb_invalidate (n : Named) : ∀ x ∈ (s.invalidate n).tlb, n.has x.pasid x.vpage = false := by
  intro x hx
  rw [State.invalidate, tlb_endLeases] at hx
  simpa using (List.mem_filter.1 hx).2
end

theorem tlbInvalidate_of_drained {s : State} {e : Env} {f : Fields} (he : s.env = some e) (hset : e.w.settled = true) (hex : s.exec e.w f.ga f.gb ≠ [])
    (hpriv : e.l.hdr.privileged = true) (hcanon : f.mod / 4 % 4 = 0 → canonical (e.w.s f.a) = true) (hdrained : s.drained (tlbNamed f e.w.s) = true) :
    s.tlbInvalidate f = (s.finishLong e f.la [] []).invalidate (tlbNamed f e.w.s) := by
  obtain ⟨l, ls, hls⟩ := List.exists_cons_of_ne_nil hex
  rw [State.tlbInvalidate, State.whenSettled_of_env he hset, hls]
  dsimp only
  rw [hpriv, if_neg (by decide), if_neg fun h => by simp [hcanon h.1] at h, hdrained, if_pos rfl]

/-! ### The three instructions -/

section
variable {w : Std} {s : State} {e : Env} (he : s.env = some e) (hset : e.w.settled = true) {l : Nat} {ls : List Nat}
  (hex : s.exec e.w (Fields.ofStd w).ga (Fields.ofStd w).gb = l :: ls)
include he hset hex

theorem exec_tlbinv_user (hpriv : e.l.hdr.privileged = false) : exec (.tlbinv w) s = .next (s.raise e (unprivileged l)) := by
  show execTlbinv w s = _
  rw [execTlbinv, State.tlbInvalidate, State.whenSettled_of_env he hset, hex]
  dsimp only
  rw [hpriv]
  rfl
theorem exec_halt_user (hpriv : e.l.hdr.privileged = false) : exec (.halt w) s = .next (s.raise e (unprivileged l)) := by
  show execHalt w s = _
  rw [execHalt, State.whenSettled_of_env he hset, hex, hpriv]
  rfl
theorem exec_cachectl_user (hpriv : e.l.hdr.privileged = false) (hmod : 3 ≤ (Fields.ofStd w).mod) :
    exec (.cachectl w) s = .next (s.raise e (unprivileged l)) := by
  show execCachectl w s = _
  rw [execCachectl, State.whenSettled_of_env he hset, hex]
  dsimp only
  rw [if_pos ⟨hmod, by rw [hpriv]; rfl⟩]

section
variable (hmay : (Fields.ofStd w).mod < 3 ∨ e.l.hdr.privileged = true)
include hmay

/-- What cachectl does to the state in which it has completed. -/
theorem exec_cachectl_of_allowed : let f := Fields.ofStd w
    let t := s.finishLong e f.la [] []
    ∃ u, exec (.cachectl w) s = .next u ∧
      (f.mod = 0 → u = t.modBlock e.b.id fun b => { b with codeFrom := t.oldCode.length }) ∧
      (f.mod = 4 → ∃ x, u = { t with larder := x }) ∧
      (f.mod ≠ 0 → f.mod ≠ 4 → s.rangeAsks e.l (e.w.s f.a) (f.uniB e.w.s).toNat = none →
        u = t.cacheOp e.w.core f.mod (s.rangeLines e.l (e.w.s f.a) (f.uniB e.w.s).toNat)) := by
  intro f t
  have hallow : ¬ (3 ≤ f.mod ∧ (!e.l.hdr.privileged) = true) := fun h => by
    rcases hmay with hlt | hpriv
    · exact Nat.not_le.2 hlt h.1
    · simp [hpriv] at h
  have hrun : exec (.cachectl w) s = execCachectl w s := rfl
  rw [hrun, execCachectl, State.whenSettled_of_env he hset, hex]
  dsimp only
  rw [if_neg hallow]
  refine ⟨_, rfl, fun h => ?_, fun h => ?_, fun h0 h4 hasks => ?_⟩
  · split
    · rfl
    · rename_i h4
      exact absurd (h.symm.trans h4) (by decide)
    · rename_i h0 _
      exact absurd h h0
  · split
    · rename_i h0
      exact absurd (h.symm.trans h0) (by decide)
    · exact ⟨_, rfl⟩
    · rename_i h4
      exact absurd h h4
  · split
    · rename_i h
      exact absurd h h0
    · rename_i h
      exact absurd h h4
    · rw [hasks]
end

end

/-- Settles O30: each instruction by the equation of its execution; cachectl's operations keep all but the caches, and an invalidation filters the translations. -/
theorem systemInstructions : Obligations.SystemInstructions := by
  refine ⟨?warp, fun i f hi s e he hset hne hpriv hcanon hroom hdrained => ?tlbinv⟩
  case warp =>
    intro w s e he hset f ex user
    refine ⟨fun hne hpriv => ?user, fun hne hroom hmay hasks => ?cachectl⟩
    case user =>
      obtain ⟨l, ls, hex⟩ := List.exists_cons_of_ne_nil hne
      have hhead : unprivileged l = { cause := 0x07, reason := 0x02, lane := ex.headD 0, info := 0 } := by
        rw [show ex = l :: ls from hex]
        rfl
      have huser {i : Instr} (h : exec i s = .next (s.raise e (unprivileged l))) : user i :=
        h.trans (congrArg (fun t => Host.Outcome.next (s.raise e t)) hhead)
      exact ⟨huser (exec_tlbinv_user he hset hex hpriv), huser (exec_halt_user he hset hex hpriv), fun hmod => huser (exec_cachectl_user he hset hex hpriv hmod)⟩
    case cachectl =>
      obtain ⟨l, ls, hex⟩ := List.exists_cons_of_ne_nil hne
      obtain ⟨u, hu, hdrop, hlarder, hlines⟩ := exec_cachectl_of_allowed he hset hex hmay
      refine ⟨s.finishLong e f.la [] [], u, longEnd_finishLong f hroom, hu, ?_⟩
      by_cases h0 : f.mod = 0
      · rw [hdrop h0]
        refine ⟨rfl, rfl, rfl, fun b hb => ?_, fun _ b hb => ?_, fun h3 => absurd (h0.symm.trans h3) (by decide)⟩
        · obtain ⟨b', hb', rfl⟩ := List.mem_map.1 hb
          refine ⟨b', hb', ?_⟩
          split <;> rfl
        · rw [block?_modBlock] at hb
          · obtain ⟨b', -, rfl⟩ := Option.map_eq_some_iff.1 hb
            exact List.drop_length
          · exact fun _ => rfl
      by_cases h4 : f.mod = 4
      · obtain ⟨x, hx⟩ := hlarder h4
        rw [hx]
        exact ⟨rfl, rfl, rfl, fun b hb => ⟨b, hb, rfl⟩, fun h => absurd h h0, fun h3 => absurd (h4.symm.trans h3) (by decide)⟩
      · have hnone := (hasks.resolve_left h0).resolve_left h4
        have hu := hlines h0 h4 hnone
        have hcache := sansCache_cacheOp (s.finishLong e f.la [] []) e.w.core f.mod (s.rangeLines e.l (e.w.s f.a) (f.uniB e.w.s).toNat)
        rw [← hu] at hcache
        obtain ⟨hmem, hwarps, hlaunches, hblocks⟩ := kept_of_sansCache hcache
        refine ⟨hmem, hwarps, hlaunches, fun b hb => ⟨b, hblocks ▸ hb, rfl⟩, fun h => absurd h h0, fun h3 => ?_⟩
        rw [hu, h3]
        intro x hx
        have hlacks := lacks_of_evictions (s.finishLong e f.la [] []) _ x hx
        exact ⟨hlacks.l1At, hlacks.2⟩
  case tlbinv =>
    have hrun : exec i s = .next (s.tlbInvalidate f) := by
      obtain ⟨w, rfl, rfl⟩ | ⟨w, rfl, rfl⟩ := hi <;> rfl
    rw [hrun, tlbInvalidate_of_drained he hset hne hpriv hcanon hdrained]
    exact ⟨_, longEnd_finishLong f hroom, rfl, not_has_of_mem_tlb_invalidate _ _⟩

end Sys2Proof.Machine

/-! PROOFS. The errors that an access meets stay as the accesses before it leave them (family 05_control_sync_work_system.md). -/
namespace Sys2Proof.Machine

theorem minBy_map {α : Type} (key : α → Nat) {g : α → α} (h : ∀ x, key (g x) = key x) (xs : List α) : minBy key (xs.map g) = (minBy key xs).map g := by
  induction xs with
  | nil => rfl
  | cons x xs ih =>
    rw [List.map_cons, minBy, ih, minBy]
    cases minBy key xs with
    | none => rfl
    | some y =>
      simp only [Option.map_some, h]
      split <;> rfl

theorem minBy_eq_none_iff {α : Type} (key : α → Nat) (xs : List α) : minBy key xs = none ↔ xs = [] := by
  cases xs with
  | nil => simp [minBy]
  | cons x xs =>
    simp only [minBy, reduceCtorEq, iff_false]
    split <;> simp

/-! ### Errors of lines, of pages, of rows (10 R329, R342) -/

/-- A page of a scratchpad once an access to a run of it has used it. -/
def Page.touched (clock o n : Nat) (p : Page) : Page := if o / 4096 ≤ p.no ∧ p.no ≤ (o + n - 1) / 4096 then { p with lastUse := clock } else p
/-- The first error in the pages of a run of a scratchpad. -/
def pageError (ps : List Page) (o n : Nat) : Option (Nat × Nat) :=
  (minBy (·.no) (ps.filter fun p => p.bad.isSome && decide (o / 4096 ≤ p.no ∧ p.no ≤ (o + n - 1) / 4096 ∧ 0 < n))).bind
    fun p => p.bad.map fun r => (p.no * 4096 - o, r.toNat)

theorem no_touched (clock o n : Nat) (p : Page) : (p.touched clock o n).no = p.no := by
  unfold Page.touched
  split <;> rfl
theorem bad_touched (clock o n : Nat) (p : Page) : (p.touched clock o n).bad = p.bad := by
  unfold Page.touched
  split <;> rfl
theorem pageError_touched (ps : List Page) (clock o k p n : Nat) : pageError (ps.map (Page.touched clock o k)) p n = pageError ps p n := by
  simp only [pageError, List.filter_map, Function.comp_def, bad_touched, no_touched]
  rw [minBy_map _ (no_touched clock o k)]
  cases minBy _ _ with
  | none => rfl
  | some x => simp only [Option.map_some, Option.bind_some, bad_touched, no_touched]
theorem errorAt_sp (s : State) (b o n : Nat) : s.errorAt (.sp b o) n = (s.anyBlock? b).bind fun x => pageError x.pages o n := rfl

section
variable (s : State)

/-- A run of memory meets no error if no bad line is one of its lines. -/
theorem errorAt_pa_eq_none_iff (a n : Nat) : s.errorAt (.pa a) n = none ↔ ∀ b ∈ s.badLines, ¬ (a / 128 ≤ b.1 ∧ b.1 ≤ (a + n - 1) / 128 ∧ 0 < n) := by
  simp [State.errorAt, minBy_eq_none_iff, List.filter_eq_nil_iff, and_assoc]

theorem errorAt_of_sansCache {s t : State} (h : t.sansCache = s.sansCache) (l : Loc) (n : Nat) : t.errorAt l n = s.errorAt l n := by
  have hmask (u : State) : u.errorAt l n = u.sansCache.errorAt l n := by cases l <;> rfl
  rw [hmask t, hmask s, h]

theorem anyBlock?_modAnyBlock {f : Block → Block} (hf : ∀ b, (f b).id = b.id) (id k : Nat) :
    (s.modAnyBlock id f).anyBlock? k = (s.anyBlock? k).map fun b => if b.id = id then f b else b := by
  have hg (b : Block) : (if b.id = id then f b else b).id = b.id := by split <;> simp only [hf]
  have hsaved : (s.modAnyBlock id f).contexts.flatMap (·.blocks) = (s.contexts.flatMap (·.blocks)).map fun b => if b.id = id then f b else b := by
    simp only [State.modAnyBlock, List.flatMap_map, List.map_flatMap]
  have hhere : (s.modAnyBlock id f).block? k = (s.block? k).map fun b => if b.id = id then f b else b :=
    find?_map_of_keeps Block.id (fun b => if b.id = id then f b else b) s.blocks hg k
  rw [State.anyBlock?, State.anyBlock?, hhere, hsaved]
  cases s.block? k with
  | some b => rfl
  | none => exact find?_map_of_keeps Block.id (fun b => if b.id = id then f b else b) _ hg k

theorem errorAt_touchPages (m : Loc) (k : Nat) (l : Loc) (n : Nat) : (s.touchPages m k).errorAt l n = s.errorAt l n := by
  cases m with
  | pa | acc => rfl
  | sp b o =>
    cases l with
    | pa | acc => rfl
    | sp c p =>
      have htouch : s.touchPages (.sp b o) k = s.modAnyBlock b fun x => { x with pages := x.pages.map (Page.touched s.clock o k) } := rfl
      rw [htouch, errorAt_sp, errorAt_sp, anyBlock?_modAnyBlock]
      · cases s.anyBlock? c with
        | none => rfl
        | some x =>
          simp only [Option.map_some, Option.bind_some]
          split
          · exact pageError_touched _ _ _ _ _ _
          · rfl
      · exact fun _ => rfl

theorem errorAt_mergeErrors_eq_none {l : Loc} {n : Nat} (h : s.errorAt l n = none) (a k : Nat) : (s.mergeErrors (.pa a) k).errorAt l n = none := by
  unfold State.mergeErrors
  dsimp only
  split
  · exact h
  · cases l with
    | acc | sp => exact h
    | pa x =>
      rw [errorAt_pa_eq_none_iff] at h ⊢
      intro b hb
      obtain ⟨b', hb', hline⟩ := List.mem_filterMap.1 hb
      have hsame : b.1 = b'.1 := by
        split at hline
        · split at hline
          · cases hline
          · injection hline with hline
            rw [← hline]
        · injection hline with hline
          rw [hline]
      rw [hsame]
      exact h b' hb'

theorem errorAt_ownStore_eq_none {l : Loc} {n : Nat} (h : s.errorAt l n = none) (a : Nat) (bs : List Byte) : (s.ownStore a bs).errorAt l n = none := by
  have hneed : (s.needLines (.pa a) bs.length).errorAt l n = none := by cases l <;> exact h
  have hrecall := (errorAt_of_sansCache (sansCache_recallLines (s.needLines (.pa a) bs.length) (.pa a) bs.length) l n).trans hneed
  have hmerge := errorAt_mergeErrors_eq_none _ hrecall a bs.length
  have hstore := (errorAt_of_sansCache (sansCache_cacheStore _ none 0 (.pa a) bs.length) l n).trans hmerge
  have hwrite (t : State) : (((t.keepOld (.pa a) bs.length).writePa a bs).disturb (linesOf (.pa a) bs.length) none).errorAt l n = t.errorAt l n := by
    cases l <;> rfl
  exact (hwrite _).trans hstore

theorem errorAt_useSegs_eq_none {l : Loc} {n : Nat} (h : s.errorAt l n = none) (gs : List Seg) : (s.useSegs gs).errorAt l n = none := by
  induction gs generalizing s with
  | nil => exact h
  | cons g gs ih =>
    refine ih (s.useSeg g) ?_
    have hpage : (s.usePage g).errorAt l n = none := by
      unfold State.usePage
      split
      · rw [errorAt_of_sansCache (sansCache_homeLoad _ _ _ _), errorAt_touchPages, h]
      · rw [errorAt_touchPages, h]
    have hsites : ((s.usePage g).useSites g).errorAt l n = none :=
      (foldl_keeps (g := fun s => s.errorAt l n) (f := fun s a => s.homeLoad 0 (.pa a) 8)
        (fun s a => errorAt_of_sansCache (sansCache_homeLoad s 0 (.pa a) 8) l n) (s.usePage g) g.sites).trans hpage
    have hmark : (((s.usePage g).useSites g).useMark g).errorAt l n = none := by
      unfold State.useMark
      split
      · exact errorAt_ownStore_eq_none _ hsites _ _
      · exact hsites
    rw [useSeg_eq, State.useFill]
    split
    · cases l <;> exact hmark
    · exact hmark
end

end Sys2Proof.Machine

/-! PROOFS. emit and emitm stage their records; reorder moves its threads to the pool (family 05_control_sync_work_system.md). -/
namespace Sys2Proof.Machine

/-! ### Records that are staged (05 R174) -/

theorem stageRecords_direct {s : State} {w launch : Nat} {rs : List EmitRec} (h : rs ≠ []) :
    s.stageRecords true w launch rs =
      (s.modLaunch launch fun l => { l with senders := l.senders ++ rs.map fun r => ⟨some w, none, r, s.clock, none⟩ }).modWarp w fun w =>
        { w with spec := { w.spec with sending := w.spec.sending + rs.length } } := by
  rw [State.stageRecords, if_neg (by simpa using h)]
  rfl

/-- The end of an emit of a settled warp: status words and predicates are written and the records sent. -/
theorem finishEmit_of_settled (s : State) {e : Env} (hset : e.w.settled = true) (f : Fields) (ex : List Nat) (nd : Nat → Nat) (bytes : Nat → List Byte) :
    s.finishEmit e f true ex nd bytes =
      (s.putWarp ((e.w.commit (ex.flatMap fun l => emitStatus f e.l e.w l (nd l))).advance s.cur (s.act e.w))).stageRecords true e.w.id e.l.id
        ((ex.filter fun l => depthOk e.l e.w l (nd l)).map fun l => ⟨nd l, recDepth e.w l (nd l), bytes l⟩) := by
  rw [State.finishEmit, State.finish, if_pos (logRoom_of_settled hset _)]

theorem exec_emit {w : Ext} {s : State} {e : Env} (he : s.env = some e) (hset : e.w.settled = true)
    (hgood : ∀ l ∈ s.exec e.w (Fields.ofExt w).ga (Fields.ofExt w).gb, emitBad e.l e.w l (e.w.opBi (.ofExt w) l (Fields.ofExt w).imm).toNat (Fields.ofExt w).recBytes = none) :
    exec (.emit w) s = .next (s.finishEmit e (.ofExt w) true (s.exec e.w (Fields.ofExt w).ga (Fields.ofExt w).gb) (fun l => (e.w.opBi (.ofExt w) l (Fields.ofExt w).imm).toNat)
      fun l => e.w.regBytes l (Fields.ofExt w).a (Fields.ofExt w).recBytes) := by
  show execEmit w s = _
  rw [execEmit, State.onWarp_of_env he]
  dsimp only
  rw [State.emitReady, List.findSome?_eq_none_iff.2 hgood, hset]
  dsimp only
  rw [State.emitRoom, hset]
  rfl

/-! ### Loads in parts -/

/-- Of a list of lanes and bytes, no lane twice, what a lane has obtained is found under it. -/
theorem keepGot_eq_mapAt (w : Warp) {now : List (Nat × List Byte)} (hn : (now.map Prod.fst).Nodup) :
    w.keepGot now = w.mapAt (now.map Prod.fst) fun l t => { t with got := (now.find? fun x => x.1 == l).map Prod.snd } := by
  rw [← foldl_modLanes_eq_mapAt w _ _ hn, List.foldl_map, Warp.keepGot]
  refine List.foldl_ext _ _ w fun v x hx => ?_
  have hfind : (now.find? fun y => y.1 == x.1) = some x := by
    clear w v
    induction now with
    | nil => exact absurd hx List.not_mem_nil
    | cons y ys ih =>
      obtain ⟨hout, hn⟩ := List.nodup_cons.1 hn
      by_cases hy : y.1 = x.1
      · rcases List.mem_cons.1 hx with rfl | hx
        · simp
        · exact absurd (List.mem_map.2 ⟨x, hx, hy.symm⟩) hout
      · rcases List.mem_cons.1 hx with rfl | hx
        · exact absurd rfl hy
        · rw [List.find?_cons_of_neg (by simpa using hy)]
          exact ih hn hx
  rw [hfind]
  rfl

/-- What a lane of the path keeps of its instruction. -/
theorem keepPlans_eq_mapAt (s : State) (e : Env) (as : List LaneAcc) :
    ∃ plan : Nat → Plan, s.keepPlans e as = e.w.mapAt (s.act e.w) fun l t => { t with plan := some (t.plan.getD (plan l)) } :=
  ⟨_, foldl_modLanes_eq_mapAt e.w _ (fun _ t => { t with plan := some (t.plan.getD _) }) (s.nodup_act e.w)⟩

/-- A warp that goes on with the lanes it has still to serve has performed in part. -/
theorem partDone_keepGoing (s : State) (e : Env) (as : List LaneAcc) {now : List (Nat × List Byte)} (hn : (now.map Prod.fst).Nodup) :
    PartDone e.w ((s.keepPlans e as).keepGot now) (s.act e.w) now := by
  obtain ⟨plan, hplan⟩ := keepPlans_eq_mapAt s e as
  rw [hplan, keepGot_eq_mapAt _ hn]
  have hlane (l : Nat) : ((e.w.mapAt (s.act e.w) fun l t => { t with plan := some (t.plan.getD (plan l)) }).mapAt (now.map Prod.fst)
      fun l t => { t with got := (now.find? fun x => x.1 == l).map Prod.snd }).lane l =
      { e.w.lane l with
        got := if l ∈ now.map Prod.fst ∧ l < e.w.width then (now.find? fun x => x.1 == l).map Prod.snd else (e.w.lane l).got
        plan := if l ∈ s.act e.w ∧ l < e.w.width then some ((e.w.lane l).plan.getD (plan l)) else (e.w.lane l).plan } := by
    rw [lane_mapAt, lane_mapAt, width_mapAt]
    split <;> split <;> rfl
  refine ⟨fun l hl => ?_, fun l hl => ?_, fun l => ?_, rfl⟩
  · rw [hlane]
    cases hfind : now.find? fun x => x.1 == l with
    | some x =>
      have hkey : l ∈ now.map Prod.fst := List.mem_map.2 ⟨x, List.mem_of_find?_eq_some hfind, key_of_find? Prod.fst hfind⟩
      exact if_pos ⟨hkey, hl⟩
    | none =>
      have hkey : l ∉ now.map Prod.fst := fun h => by
        obtain ⟨x, hx, hxl⟩ := List.mem_map.1 h
        exact List.find?_eq_none.1 hfind x hx (beq_iff_eq.2 hxl)
      exact if_neg fun h => hkey h.1
  · rw [hlane]
    show (if _ then _ else _ : Option Plan).isSome = true ↔ _
    by_cases hact : l ∈ s.act e.w
    · simp [hact, hl]
    · simp [hact]
  · rw [hlane]

/-! ### The accesses of an emitm -/

theorem map_of_mapM_ok {ε α β : Type} {f : α → Except ε β} {g : β → α} (hf : ∀ x y, f x = .ok y → g y = x) {xs : List α} {ys : List β}
    (h : xs.mapM f = .ok ys) : ys.map g = xs := by
  induction xs generalizing ys with
  | nil =>
    injection h with h
    rw [← h]
    rfl
  | cons x xs ih =>
    rw [List.mapM_cons] at h
    cases hx : f x with
    | error => rw [hx] at h; cases h
    | ok y =>
      cases hxs : xs.mapM f with
      | error => rw [hx, hxs] at h; cases h
      | ok zs =>
        rw [hx, hxs] at h
        injection h with h
        rw [← h, List.map_cons, hf x y hx, ih hxs]

/-- The lanes of accesses that are planned are lanes of the list they are planned for, in its order. -/
theorem sublist_lanes_of_planned {s : State} {e : Env} {u : Use} {h : Shape} {x : LaneArgs} {ls : List Nat} {as : List LaneAcc} (hp : Planned s e u h x ls as) :
    (as.map LaneAcc.lane).Sublist ls := by
  unfold Planned at hp
  split at hp
  · obtain ⟨-, rfl, -⟩ := hp
    clear * -
    induction ls with
    | nil => exact .slnil
    | cons l ls ih =>
      rw [List.filterMap_cons]
      cases (e.w.lane l).plan with
      | none => exact ih.cons l
      | some p => exact ih.cons_cons l
  · obtain ⟨-, hp⟩ := hp
    rw [map_of_mapM_ok (g := LaneAcc.lane) (fun l y hy => ?_) hp]
    split at hy
    · injection hy with hy
      rw [← hy]
    · cases hy

section
variable {s : State} {e : Env} {u : Use} {h : Shape} {x : LaneArgs} {ls : List Nat} {as : List LaneAcc}

theorem mem_allSegs {g : Seg} : g ∈ allSegs as ↔ ∃ a ∈ as, g ∈ a.segs := List.mem_flatMap

theorem errorIn_eq_none {gs : List Seg} (h : ∀ g ∈ gs, s.errorAt g.loc g.n = none) : s.errorIn gs = none :=
  List.findSome?_eq_none_iff.2 fun g hg => by rw [h g hg]; rfl

/-- Accesses that can be made at once are prepared at once. -/
theorem prepared_of_reached (hr : Reached s e u h x ls as) (k : State → State) : s.prepared e as k = k (s.useSegs (allSegs as)) := by
  have hwhole : ((allSegs as).any fun g => s.underTest g.loc g.n) = false := List.any_eq_false.2 fun g hg => by rw [hr.whole g hg]; exact Bool.false_ne_true
  have hsound : (as.findSome? fun a => (s.errorIn (a.segs.filter fun g => match g.loc with | .sp _ _ => true | _ => false)).map fun x => (a.lane, x)) = none :=
    List.findSome?_eq_none_iff.2 fun a ha => by
      rw [errorIn_eq_none fun g hg => hr.sound g (mem_allSegs.2 ⟨a, ha, (List.mem_filter.1 hg).1⟩)]
      rfl
  rw [State.prepared, List.findSome?_eq_none_iff.2 hr.pinned]
  dsimp only
  rw [hr.ours]
  dsimp only
  rw [hwhole, if_neg Bool.false_ne_true]
  split
  · rename_i hbad
    cases hsound.symm.trans hbad
  · rfl

theorem planned_of_reached (hr : Reached s e u h x ls as) (k : State → List LaneAcc → State) : s.planned e u h x ls k = k (s.useSegs (allSegs as)) as := by
  have hp := hr.planned
  unfold Planned at hp
  unfold State.planned
  split at hp
  · rename_i hres
    obtain ⟨hbad, has, hstands⟩ := hp
    have hnobad : ((s.act e.w).findSome? fun l => ((e.w.lane l).plan.bind (·.bad)).map fun y => (l, y)) = none :=
      List.findSome?_eq_none_iff.2 fun l hl => by
        cases hplan : (e.w.lane l).plan with
        | none => rfl
        | some p => simp [hbad l hl p hplan]
    have hstand : (as.findSome? fun a => (a.segs.find? fun g => !s.standsAt e.b.id g.loc).map fun g => (a.lane, g.va)) = none :=
      List.findSome?_eq_none_iff.2 fun a ha => by
        rw [List.find?_eq_none.2 fun g hg => by simp [hstands g (mem_allSegs.2 ⟨a, ha, hg⟩)]]
        rfl
    rw [if_pos hres, hnobad]
    dsimp only
    rw [← has, hstand]
    exact prepared_of_reached hr _
  · rename_i hres
    obtain ⟨hpre, hcheck⟩ := hp
    have hall : ls.takeWhile (fun l => (x.pre l).isNone) = ls := List.takeWhile_eq_self_iff.2 fun l hl => by rw [hpre l hl]; rfl
    rw [if_neg hres]
    dsimp only
    rw [hall, List.drop_length, hcheck]
    exact prepared_of_reached hr _

theorem laneError_useSegs (hr : Reached s e u h x ls as) (gs : List Seg) : (s.useSegs gs).laneError as = none :=
  List.findSome?_eq_none_iff.2 fun a ha => by
    rw [errorIn_eq_none fun g hg => errorAt_useSegs_eq_none s (hr.sound g (mem_allSegs.2 ⟨a, ha, (List.mem_filter.1 hg).1⟩)) gs]
    rfl

theorem remote_of_not_far {g : Seg} (h : g.far = false) : g.remote = false := (Bool.or_eq_false_iff.1 h).2

/-- Of accesses on this package, none to the shard version, as many come next as this move allows. -/
theorem nextBatch_of_near (hnear : ∀ g ∈ allSegs as, g.far = false ∧ g.version = false) : s.nextBatch as = as.take (s.cur.quota + 1) := by
  have hremote (a : LaneAcc) (ha : a ∈ as) : a.segs.any Seg.remote = false :=
    List.any_eq_false.2 fun g hg => by rw [remote_of_not_far (hnear g (mem_allSegs.2 ⟨a, ha, hg⟩)).1]; exact Bool.false_ne_true
  have hversion (a : LaneAcc) (ha : a ∈ as) : a.segs.any Seg.version = false :=
    List.any_eq_false.2 fun g hg => by rw [(hnear g (mem_allSegs.2 ⟨a, ha, hg⟩)).2]; exact Bool.false_ne_true
  cases as with
  | nil => rfl
  | cons a as =>
    have hall : (a :: as).takeWhile (fun b => !b.segs.any Seg.remote && !b.segs.any Seg.version) = a :: as :=
      List.takeWhile_eq_self_iff.2 fun b hb => by rw [hremote b hb, hversion b hb]; rfl
    rw [State.nextBatch, hremote a List.mem_cons_self, hversion a List.mem_cons_self, if_neg Bool.false_ne_true, if_neg Bool.false_ne_true]
    dsimp only
    rw [hall, State.lanesNow, Nat.min_comm, ← List.take_eq_take_min]
end

theorem cur_of_sansService {s t : State} (h : t.sansService = s.sansService) : t.cur = s.cur := by
  have := congrArg State.cur h
  exact this
theorem cur_useSegs (s : State) (gs : List Seg) : (s.useSegs gs).cur = s.cur := cur_of_sansService (sansService_useSegs s gs)
theorem cur_cacheLoad (s : State) (core hint : Nat) (gs : List Seg) : (s.cacheLoad core hint gs).cur = s.cur :=
  cur_of_sansService (sansService_of_sansCache (sansCache_cacheLoad s core hint gs none))

theorem idle_of_settled {w : Warp} (h : w.settled = true) : (w.spec.window.isEmpty && w.remoteOpen == 0) = true := by
  simp only [Warp.settled, Bool.and_eq_true] at h ⊢
  obtain ⟨⟨⟨⟨⟨hwindow, -⟩, -⟩, -⟩, -⟩, hopen⟩ := h
  exact ⟨hwindow, hopen⟩

/-- A load of a settled warp whose lanes reach what they access performs as many of them as this move allows. -/
theorem memLoad_of_reached {s : State} {e : Env} {o : LoadOp} {as : List LaneAcc} (he : s.env = some e) (hset : e.w.settled = true) (huni : o.uni = false)
    (hr : Reached s e .read o.h (o.args e) ((o.lanes (s.exec e.w o.f.ga o.f.gb)).filter fun l => (e.w.lane l).got.isNone) as) :
    s.memLoad o = ((s.useSegs (allSegs as)).cacheLoad e.w.core o.f.hint (allSegs (as.take (s.cur.quota + 1)))).loadNow e o (o.lanes (s.exec e.w o.f.ga o.f.gb)) as
      (as.take (s.cur.quota + 1)) := by
  have hfar : (allSegs as).any Seg.far = false := List.any_eq_false.2 fun g hg => by rw [(hr.near g hg).1]; exact Bool.false_ne_true
  have hremote : (allSegs (as.take (s.cur.quota + 1))).any Seg.remote = false := List.any_eq_false.2 fun g hg => by
    obtain ⟨a, ha, hg⟩ := mem_allSegs.1 hg
    rw [remote_of_not_far (hr.near g (mem_allSegs.2 ⟨a, List.mem_of_mem_take ha, hg⟩)).1]
    exact Bool.false_ne_true
  rw [State.memLoad, State.onWarp_of_env he]
  dsimp only
  rw [huni, Bool.false_and, if_neg Bool.false_ne_true, planned_of_reached hr, laneError_useSegs hr]
  dsimp only
  rw [State.loadGo]
  dsimp only
  rw [hfar, idle_of_settled hset, nextBatch_of_near hr.near, cur_useSegs, hremote, huni, Bool.or_true]
  rfl

/-- The load of an `emitm`. -/
def emitLoad (f : Fields) (e : Env) : LoadOp where
  f := f
  dests := [.v f.d] ++ if f.e < 15 then [.p f.e] else []
  h := ⟨f.recBytes, 16, 3, .plain, false⟩
  args := fun e => { addr := fun l => e.w.opA64 f l + f.imm.signExtend 64, b := fun l => BitVec.ofNat 64 (e.w.plannedNode f l)
                     pre := fun l => emitBad e.l e.w l (e.w.plannedNode f l) f.recBytes }
  finish := fun s e' ex got => s.finishEmit e' f true ex (e.w.plannedNode f) got

theorem exec_emitm {w : Ext} {s : State} {e : Env} (he : s.env = some e) (hset : e.w.settled = true) :
    exec (.emitm w) s = .next (s.memLoad (emitLoad (.ofExt w) e)) := by
  show execEmitm w s = _
  rw [execEmitm, State.onWarp_of_env he]
  dsimp only
  rw [State.emitRoom, hset]
  rfl

section
variable (w : Warp) (pc : W64)

theorem lane_loadDone (l : Nat) : (w.loadDone pc).lane l = w.lane l := by
  unfold Warp.loadDone
  split <;> rfl
theorem settled_loadDone : (w.loadDone pc).settled = w.settled := by
  unfold Warp.loadDone
  split <;> rfl
theorem id_loadDone : (w.loadDone pc).id = w.id := by
  unfold Warp.loadDone
  split <;> rfl
theorem act_loadDone (s : State) : s.act (w.loadDone pc) = s.act w := by
  unfold Warp.loadDone
  split <;> rfl
theorem recDepth_loadDone (l nd : Nat) : recDepth (w.loadDone pc) l nd = recDepth w l nd := by simp only [recDepth, lane_loadDone]
theorem depthOk_loadDone (x : Launch) (l nd : Nat) : depthOk x (w.loadDone pc) l nd = depthOk x w l nd := by simp only [depthOk, recDepth_loadDone]
theorem emitStatus_loadDone (f : Fields) (x : Launch) (l nd : Nat) : emitStatus f x (w.loadDone pc) l nd = emitStatus f x w l nd := by
  simp only [emitStatus, depthOk_loadDone, recDepth_loadDone, lane_loadDone]
end

theorem act_of_cur {s t : State} (h : t.cur = s.cur) (w : Warp) : t.act w = s.act w := by rw [State.act, h, State.act]

/-- The end of an `emitm` whose last lanes have performed. -/
theorem finish_emitLoad {s t : State} {e : Env} (hset : e.w.settled = true) (hcur : t.cur = s.cur) (f : Fields) (pc : W64) (ex : List Nat) (got : Nat → List Byte) :
    (emitLoad f e).finish t { e with w := e.w.loadDone pc } ex got =
      (t.putWarp (((e.w.loadDone pc).commit (ex.flatMap fun l => emitStatus f e.l e.w l (e.w.plannedNode f l))).advance s.cur (s.act e.w))).stageRecords true e.w.id e.l.id
        ((ex.filter fun l => depthOk e.l e.w l (e.w.plannedNode f l)).map fun l => ⟨e.w.plannedNode f l, recDepth e.w l (e.w.plannedNode f l), got l⟩) := by
  refine (finishEmit_of_settled t (e := { e with w := e.w.loadDone pc }) ((settled_loadDone _ _).trans hset) f ex _ got).trans ?_
  dsimp only
  simp only [emitStatus_loadDone, depthOk_loadDone, recDepth_loadDone, id_loadDone, act_loadDone, act_of_cur hcur, hcur]

/-! ### Reorder points (05 R176 to R179) -/

/-- A lane whose thread has left for the pool. -/
def Lane.left (t : Lane) : Lane := { t with populated := false, wait := .none, got := Option.none, plan := Option.none }

theorem exec_reorder_in_handler {w : Ext} {s : State} {e : Env} (he : s.env = some e) (hset : e.w.settled = true) {l : Nat} {ls : List Nat}
    (hex : s.exec e.w (Fields.ofExt w).ga (Fields.ofExt w).gb = l :: ls) (hin : e.w.regs.trap.mask.getLsbD 1 = true) :
    exec (.reorder w) s = .next (s.raise e (misuse 7 l 0)) := by
  show execReorder w s = _
  rw [execReorder, State.whenSettled_of_env he hset]
  dsimp only
  rw [hex]
  exact congrArg Host.Outcome.next (if_pos hin)

theorem registers_advance (w : Warp) (i : Issue) {act : List Nat} (hn : act.Nodup) (l : Nat) : ((w.advance i act).lane l).v = (w.lane l).v := by
  rw [Warp.advance, Warp.lane_modLanes _ _ hn]
  split <;> rfl
theorem populated_advance (w : Warp) (i : Issue) {act : List Nat} (hn : act.Nodup) (l : Nat) : ((w.advance i act).lane l).populated = (w.lane l).populated := by
  rw [Warp.advance, Warp.lane_modLanes _ _ hn]
  split <;> rfl

/-- A warp whose threads `ex` have left for the pool. -/
def State.regrouped (s : State) (e : Env) (ex : List Nat) : Warp :=
  { (e.w.advance s.cur (s.act e.w)).modLanes ex Lane.left with sent := e.w.sent.filter fun x => !ex.contains x.lane }

section
variable {s : State} {e : Env} {ex : List Nat} (hn : ex.Nodup) (hlt : ∀ l ∈ ex, l < e.w.width)
include hn

theorem lane_regrouped (l : Nat) : (s.regrouped e ex).lane l = (((e.w.advance s.cur (s.act e.w)).mapAt ex fun _ => Lane.left).lane l) := by
  rw [State.regrouped, modLanes_eq_mapAt _ _ hn]
  rfl
include hlt
theorem populated_regrouped {l : Nat} (hl : l ∈ ex) : ((s.regrouped e ex).lane l).populated = false := by
  have hwidth : (e.w.advance s.cur (s.act e.w)).width = e.w.width := (s.moved_act e.w).width
  rw [lane_regrouped hn, lane_mapAt, if_pos ⟨hl, hwidth ▸ hlt l hl⟩]
  rfl
omit hlt
theorem lane_regrouped_outside {l : Nat} (hl : l ∉ ex) : (s.regrouped e ex).lane l = (e.w.advance s.cur (s.act e.w)).lane l := by
  rw [lane_regrouped hn, lane_mapAt, if_neg fun h => hl h.1]
end

theorem exec_reorder {w : Ext} {s : State} {e : Env} (he : s.env = some e) (hset : e.w.settled = true) {l : Nat} {ls : List Nat}
    (hex : s.exec e.w (Fields.ofExt w).ga (Fields.ofExt w).gb = l :: ls) (hout : e.w.regs.trap.mask.getLsbD 1 = false) :
    let f := Fields.ofExt w
    let pc := f.target (e.w.lane l).pc
    exec (.reorder w) s = .next ((((((s.putWarp (s.regrouped e (l :: ls))).modBlock e.b.id fun b => { b with pool := b.pool ++ (l :: ls).map fun i =>
      { pc := pc, key := e.w.opA f i, lane := (e.w.lane i).crossing pc (if f.mod % 2 = 1 then (e.w.lane l).v.length else f.e), flow := e.w.flow, interval := e.w.interval
        sent := e.w.sent.filter fun x => x.lane == i || (i == l && (s.regrouped e (l :: ls)).live.isEmpty && x.lane == 64), due := false } }).traceWarp e.w.id (some 4) 12 0
          (pc.setWidth 54) (e.w.lane l).pc).settleWarp e.w.id).checkDeadlock e.b.id)) := by
  intro f pc
  show execReorder w s = _
  rw [execReorder, State.whenSettled_of_env he hset]
  dsimp only
  rw [hex]
  exact congrArg Host.Outcome.next (if_neg (Bool.eq_false_iff.1 hout))

/-- Settles O43: the accesses of an emit are prepared and performed lane by lane; a reorder is the equation of its execution. -/
theorem recordsAndReorder : Obligations.RecordsAndReorder := by
  refine ⟨?emit, ?emitm, ?stage, ?reorder⟩
  case emit =>
    intro w s e he f ex nd n within hgood hset
    refine ⟨_, (exec_emit he hset hgood).trans (congrArg Host.Outcome.next (finishEmit_of_settled s hset f ex nd _)), ?_⟩
    rfl
  case emitm =>
    intro w s e as he f ex nd n within hset hr batch used now
    have hload : exec (.emitm w) s = .next (used.loadNow e (emitLoad f e) ex as batch) :=
      (exec_emitm he hset).trans (congrArg Host.Outcome.next (memLoad_of_reached (o := emitLoad f e) he hset rfl hr))
    have hcur : used.cur = s.cur := (cur_cacheLoad _ _ _ _).trans (cur_useSegs _ _)
    refine ⟨fun hpart => ⟨_, hload.trans (congrArg Host.Outcome.next (if_pos hpart)), ?_⟩, fun hwhole => ⟨_, hload.trans (congrArg Host.Outcome.next ?_), rfl⟩⟩
    · have hnow : now.map Prod.fst = batch.map LaneAcc.lane := by rw [List.map_map]; rfl
      have hnodup : (now.map Prod.fst).Nodup := by
        rw [hnow]
        exact (((List.take_sublist _ as).map LaneAcc.lane).trans (sublist_lanes_of_planned hr.planned)).nodup ((s.nodup_exec _ _ _).filter _)
      have hdone := partDone_keepGoing used e as hnodup
      rwa [act_of_cur hcur] at hdone
    · rw [State.loadNow, if_neg (by omega)]
      exact finish_emitLoad hset hcur f _ ex _
  case stage =>
    intro s w launch rs l hl hne
    rw [stageRecords_direct hne]
    refine ⟨⟨{ l with senders := l.senders ++ rs.map fun r => ⟨some w, none, r, s.clock, none⟩ }, ?_, rfl⟩,
      fun v hv => ⟨{ v with spec := { v.spec with sending := v.spec.sending + rs.length } }, ?_, rfl, rfl⟩⟩
    · exact (launch?_modLaunch s launch (f := fun l => { l with senders := l.senders ++ rs.map fun r => ⟨some w, none, r, s.clock, none⟩ }) fun _ => rfl).trans
        (congrArg (Option.map _) hl)
    · exact (warp?_modWarp (s.modLaunch launch _) w (f := fun v => { v with spec := { v.spec with sending := v.spec.sending + rs.length } }) fun _ => rfl).trans
        (congrArg (Option.map _) hv)
  case reorder =>
    intro w s e he hset f ex
    refine ⟨fun hne hin => ?handler, fun hne hout => ?pool⟩
    case handler =>
      obtain ⟨l, ls, hex⟩ := List.exists_cons_of_ne_nil hne
      rw [show ex = l :: ls from hex]
      exact exec_reorder_in_handler he hset hex hin
    case pool =>
      have hn : ex.Nodup := s.nodup_exec _ _ _
      have hlt (l : Nat) (hl : l ∈ ex) : l < e.w.width := State.lt_of_mem_exec hl
      refine ⟨_, s.regrouped e ex, ?_, rfl, fun l hl => populated_regrouped hn hlt hl, rfl, fun l hl => ?_⟩
      · obtain ⟨l, ls, hex⟩ := List.exists_cons_of_ne_nil hne
        rw [show ex = l :: ls from hex]
        exact exec_reorder he hset hex hout
      · rw [lane_regrouped_outside hn hl]
        exact ⟨registers_advance _ _ (s.nodup_act _) l, populated_advance _ _ (s.nodup_act _) l⟩

end Sys2Proof.Machine

/-! PROOFS. A granule whose frame is under test holds a `fereset` back (family 06_memory_and_engine_instructions.md). -/
namespace Sys2Proof.Machine

/-- A `fereset.full` of 16 bytes from the address in u16. -/
def feresetWord : Std := { plainStd 0 16 16 1 with ak := 1, bk := 1 }
/-- A warp of one lane whose u16 is the first address of the window. -/
def resettingWarp : Warp :=
  .start 0 0 0 0 0 ((WarpRegs.start [.start 0 32 0] (List.replicate 16 0) 0).write (.u 16 Config.windowBase)) 0 0
/-- A block whose first scratchpad page stands in frame 0 of core 0. -/
def testedBlock : Block := { Block.start 0 0 0 0 0 4096 0 none 0 0 with pages := [⟨0, some 0, false, 0, none⟩] }
/-- The launch of that block. -/
def resettingLaunch : Launch := .start 0 0 0 0 [] (programHeader false) .live
/-- The warp issues while frame 0 of core 0 is under test until CLOCK 1 (12 R411). -/
def testedState : State := { State.reset with
  launches := [resettingLaunch], blocks := [testedBlock], warps := [resettingWarp], cur := ⟨false, 0, 0, 1, 1, (0, 0), 0⟩
  tests := [⟨0, .scratchpad, 0, false, some 1⟩] }
/-- The path that issues there. -/
def testedEnv : Env := ⟨resettingWarp, testedBlock, resettingLaunch⟩

/-- The number of accesses in the window of each warp after a move. -/
def windowLengths : Answer → List Nat
  | .next s => s.warps.map fun w => w.spec.window.length
  | _ => []

/-- Refutes O36: nothing of the third statement's premises says that no line of the range is under test (12 R411). Where one is, `fereset` stalls and no
store enters the window. -/
theorem not_fullEmpty : ¬ Obligations.FullEmpty := by
  rintro ⟨-, hreset, -⟩
  have hlen : ((Fields.ofStd feresetWord).uniB resettingWarp.s).toNat = 16 := by decide
  have hstalls : windowLengths (exec (.fereset feresetWord) testedState) = [0] := by decide
  obtain ⟨t, ⟨hend, -⟩, hexec⟩ := hreset feresetWord testedState testedEnv 0 0 rfl (by decide) (by decide) (hlen ▸ by decide) (hlen ▸ by decide)
    (hlen ▸ by decide) rfl (by decide) (by decide) (by unfold Warp.longRoom; decide)
  rw [hexec, hend (by decide)] at hstalls
  exact absurd hstalls (by decide)

end Sys2Proof.Machine

/-! PROOFS. The checks of an engine command at issue, and the traps they raise (family 06_memory_and_engine_instructions.md). -/
namespace Sys2Proof.Machine

/-! ### The checks of operands (06 R212 steps 2 and 3) -/

section
variable {xs : List EngArg} {len : Option W64}

theorem argsBad_of_noncanonical {v : W64} {al : Nat} (h : canonical v = false) : argsBad (⟨v, true, al⟩ :: xs) len = some (.page 1 v) := by
  unfold argsBad
  rw [List.find?_cons_of_pos (by simp [h])]

/-- The operands that are addresses are canonical. -/
def CanonicalArgs (xs : List EngArg) : Prop := ∀ x ∈ xs, x.addr = true → canonical x.v = true

section
variable (hc : CanonicalArgs xs)
include hc

theorem find?_noncanonical : (xs.find? fun x => x.addr && !canonical x.v) = none :=
  List.find?_eq_none.2 fun x hx hbad => by
    obtain ⟨haddr, hbad⟩ := Bool.and_eq_true_iff.1 hbad
    rw [hc x hx haddr] at hbad
    cases hbad

theorem argsBad_of_misaligned {x : EngArg} (h : (xs.find? fun x => x.v.toNat % x.al != 0) = some x) : argsBad xs len = some (.misaligned 3 x.v) := by
  unfold argsBad
  rw [find?_noncanonical hc, h]

variable (ha : ∀ x ∈ xs, x.v.toNat % x.al = 0)
include ha

theorem argsBad_of_aligned : argsBad xs len = len.bind fun n => if n.toNat ≥ 2 ^ 40 then some (.misaligned 4 n) else none := by
  unfold argsBad
  rw [find?_noncanonical hc, List.find?_eq_none.2 fun x hx => by simp [ha x hx]]
  cases len <;> rfl

theorem argsBad_of_long {n : W64} (h : 2 ^ 40 ≤ n.toNat) : argsBad xs (some n) = some (.misaligned 4 n) :=
  (argsBad_of_aligned hc ha).trans (if_pos h)

theorem argsBad_eq_none (hlen : ∀ n, len = some n → n.toNat < 2 ^ 40) : argsBad xs len = none := by
  rw [argsBad_of_aligned hc ha]
  cases len with
  | none => rfl
  | some n => exact if_neg (Nat.not_le.2 (hlen n rfl))
end
end

/-! ### An engine instruction (06 R209, R212) -/

section
variable {s : State} {e : Env} (he : s.env = some e) {f : Fields} {op : EngOp} {priv : Bool} {args : Warp → List EngArg} {len : Warp → Option W64}
  {dest : Env → Option AccFault} {cmd : Warp → W64 × W64 × W64} {ra : Warp → Option W64} {dm : Nat} {l : Nat} {ls : List Nat}
  (hex : s.exec e.w f.ga f.gb = l :: ls)
include he hex

theorem engineOp_of_user (hpriv : e.l.hdr.privileged = false) : s.engineOp f op true args len dest cmd ra dm = s.raise e (unprivileged l) := by
  rw [State.engineOp, State.onWarp_of_env he]
  dsimp only
  rw [hex]
  exact if_pos (by rw [hpriv]; rfl)

theorem engineOp_of_badArgs {x : AccFault} (h : argsBad (args e.w) (len e.w) = some x) :
    s.engineOp f op false args len dest cmd ra dm = s.raise e (x.trap l none) := by
  rw [State.engineOp, State.onWarp_of_env he]
  dsimp only
  rw [hex, h]
  exact if_neg Bool.false_ne_true

theorem engineOp_of_passed (hpriv : priv = true → e.l.hdr.privileged = true) (hargs : argsBad (args e.w) (len e.w) = none) (hdest : dest e = none) :
    s.engineOp f op priv args len dest cmd ra dm =
      s.issueCmd e f (e.command s f op (cmd e.w).1 (cmd e.w).2.1 (cmd e.w).2.2 (ra e.w) f.chan dm) := by
  have hmay : ¬ ((priv && !e.l.hdr.privileged) = true) := fun h => by
    obtain ⟨hp, hu⟩ := Bool.and_eq_true_iff.1 h
    rw [hpriv hp] at hu
    cases hu
  rw [State.engineOp, State.onWarp_of_env he]
  dsimp only
  rw [hex, hargs, hdest]
  exact if_neg hmay
end

/-- Settles O38: each trap is that of the first check that fails. -/
theorem engineCommandChecks : Obligations.EngineCommandChecks := by
  intro w s e he f u l page odd hne
  obtain ⟨i, is, hex⟩ := List.exists_cons_of_ne_nil hne
  have hl : l = i := by
    show (s.exec e.w f.ga f.gb).headD 0 = i
    rw [hex]
    rfl
  refine ⟨fun hpriv => ?user, fun ha => ?page, fun ha hrec => ?odd⟩
  case user =>
    rw [hl]
    exact congrArg Host.Outcome.next (engineOp_of_user he hex hpriv)
  case page =>
    have hpage {i : Instr} {x : State} (hi : exec i s = .next x) (hx : x = s.raise e ((AccFault.page 1 (u f.a)).trap l none)) : page i (u f.a) :=
      hi.trans (congrArg Host.Outcome.next hx)
    rw [hl] at hpage
    refine ⟨hpage rfl ?_, hpage rfl ?_, hpage rfl ?_, hpage rfl ?_⟩ <;> exact engineOp_of_badArgs he hex (argsBad_of_noncanonical ha)
  case odd =>
    have hargs : [EngArg.base (u f.a), ⟨u f.c, false, 16⟩] ++ recArg f e.w = [⟨u f.a, true, 16⟩, ⟨u f.c, false, 16⟩] := by
      rw [recArg, Fields.recAddr, if_neg (by omega)]
      rfl
    have hcanon : CanonicalArgs [⟨u f.a, true, 16⟩, ⟨u f.c, false, 16⟩] := fun x hx haddr => by
      rcases List.mem_pair.1 hx with rfl | rfl
      · exact ha
      · cases haddr
    have hodd {r : Nat} {v : W64} (h : argsBad ([EngArg.base (u f.a), ⟨u f.c, false, 16⟩] ++ recArg f e.w) (some (u f.c)) = some (.misaligned r v)) :
        odd (.fill w) r v := by
      have hraise : s.lengthOp f .fill false false = s.raise e ((AccFault.misaligned r v).trap i none) := engineOp_of_badArgs he hex h
      rw [← hl] at hraise
      exact congrArg Host.Outcome.next hraise
    rw [hargs] at hodd
    refine ⟨fun hbad => hodd ?_, fun hgood hbad => hodd ?_, fun hgood hc hlong => hodd ?_⟩
    · exact argsBad_of_misaligned hcanon (List.find?_cons_of_pos (by simpa using hbad))
    · refine argsBad_of_misaligned hcanon ((List.find?_cons_of_neg (by simpa using hgood)).trans (List.find?_cons_of_pos (by simpa using hbad)))
    · refine argsBad_of_long hcanon (fun x hx => ?_) hlong
      rcases List.mem_pair.1 hx with rfl | rfl
      · exact hgood
      · exact hc

end Sys2Proof.Machine

/-! PROOFS. Completion channels, fences and codec tables (family 06_memory_and_engine_instructions.md). -/
namespace Sys2Proof.Machine

/-! ### The end of a long instruction over a state with its other effects (03 R86, R87) -/

theorem longEnd_finishLong_over {S s : State} {e : Env} (f : Fields) {ds : List Dest} {ws : List RegWrite} (hcur : S.cur = s.cur) (hroom : e.w.longRoom ds ws) :
    LongEnd S s e f ds ws (S.finishLong e f.la ds ws) := by
  have h := longEnd_finishLong (s := S) f hroom
  unfold LongEnd at h ⊢
  rwa [hcur, act_of_cur hcur] at h

/-- Room in the undo log stands in two fields of a warp. -/
theorem Warp.longRoom.of_eq {v w : Warp} {ds : List Dest} {ws : List RegWrite} (h : w.longRoom ds ws) (hckpt : v.spec.ckpt = w.spec.ckpt)
    (hulog : v.spec.ulog = w.spec.ulog) : v.longRoom ds ws := by
  unfold Warp.longRoom Warp.logRoom at h ⊢
  rwa [hckpt, hulog]

theorem Warp.longRoom.loadDone {w : Warp} {ds : List Dest} {ws : List RegWrite} (h : w.longRoom ds ws) (pc : W64) : (w.loadDone pc).longRoom ds ws := by
  refine h.of_eq ?_ ?_ <;> · unfold Warp.loadDone; split <;> rfl

/-! ### Channels (06 R225, R226) -/

section
variable {w : Std} {s : State} {e : Env} (he : s.env = some e)
include he

theorem exec_cpoll : let f := Fields.ofStd w
    let c := e.w.chans.getD (f.mod % 8) ⟨0, false⟩
    exec (.cpoll w) s = .next (s.finishLong e f.la (opDests 0x126 f)
      ((s.exec e.w f.ga f.gb).map fun l => .v l f.d (BitVec.ofNat 32 (c.count + c.sticky.toNat * 256)))) := by
  show execCpoll w s = _
  rw [execCpoll, State.onWarp_of_env he, State.vOpLong, State.perLaneLong, State.onWarp_of_env he, List.map_eq_flatMap]
  rfl

section
variable (hset : e.w.settled = true) {l : Nat} {ls : List Nat} (hex : s.exec e.w (Fields.ofStd w).ga (Fields.ofStd w).gb = l :: ls)
include hset hex

theorem exec_cwait_of_count_le (h : (e.w.chans.getD ((Fields.ofStd w).mod % 8) ⟨0, false⟩).count ≤ ((Fields.ofStd w).uniB e.w.s).toNat) :
    let f := Fields.ofStd w
    let c := e.w.chans.getD (f.mod % 8) ⟨0, false⟩
    exec (.cwait w) s = .next (s.finishLong { e with w := { e.w with chans := modifyNth e.w.chans (f.mod % 8) fun x => { x with sticky := false } } } f.la
      (opDests 0x125 f) ((l :: ls).map fun l => .p l f.d !c.sticky)) := by
  show execCwait w s = _
  rw [execCwait, State.whenSettled_of_env he hset, hex]
  refine congrArg Host.Outcome.next (if_neg fun hlt => ?_)
  obtain ⟨-, hlt⟩ := Bool.and_eq_true_iff.1 hlt
  exact Nat.not_lt.2 h (of_decide_eq_true hlt)

theorem exec_cwait_of_lt_count (h : ((Fields.ofStd w).uniB e.w.s).toNat < (e.w.chans.getD ((Fields.ofStd w).mod % 8) ⟨0, false⟩).count) :
    exec (.cwait w) s = .next (s.stall e.w) := by
  show execCwait w s = _
  rw [execCwait, State.whenSettled_of_env he hset, hex]
  exact congrArg Host.Outcome.next (if_pos (decide_eq_true h))

/-! ### Fences (06 R230) -/

/-- A warp whose interval has closed. -/
def Warp.nextInterval (w : Warp) : Warp := { w with interval := w.interval + 1, sent := [], asked := [], askedFor := [] }
/-- The first target that did not count what was sent to it. -/
def Warp.miscounted (w : Warp) : Option Nat := (sortNat (dedup (w.sent.map (·.target)))).find? fun p => askedTotal w p != some (sentTotal w p)

section
variable (hended : ∀ r ∈ s.remotes, r.warp = e.w.id → r.cmd = none ∧ ¬(r.lane = 64 ∧ r.isRead = true)) (hasked : e.w.flows.length ≤ e.w.asked.length)
  (hfor : e.w.askedFor = e.w.sent)
include hended hasked hfor

theorem exec_fabfence_of_answered : exec (.fabfence w) s = .next (e.w.miscounted.elim
    (s.finishLong { e with w := e.w.nextInterval } (Fields.ofStd w).la (opDests 0x128 (.ofStd w))
      ((l :: ls).map fun l => .v l (Fields.ofStd w).d (BitVec.ofNat 32 e.w.interval)))
    fun p => (s.putWarp e.w.nextInterval).raise { e with w := e.w.nextInterval }
      { cause := 0xC, reason := if (askedTotal e.w p).isNone then 2 else 1, lane := l, info := BitVec.ofNat 64 e.w.interval, aux := some (BitVec.ofNat 64 p) }) := by
  have hnone : ¬ ((s.remotes.any (fun r => r.warp == e.w.id && r.cmd.isSome) || s.asking e.w.id) = true) := fun h => by
    rcases Bool.or_eq_true_iff.1 h with h | h <;> obtain ⟨r, hr, h⟩ := List.any_eq_true.1 h
    · obtain ⟨hid, hcmd⟩ := Bool.and_eq_true_iff.1 h
      rw [(hended r hr (beq_iff_eq.1 hid)).1] at hcmd
      cases hcmd
    · simp only [Bool.and_eq_true, beq_iff_eq] at h
      exact (hended r hr h.1.1).2 ⟨h.1.2, h.2⟩
  show execFabfence w s = _
  rw [execFabfence, State.whenSettled_of_env he hset, hex]
  dsimp only
  rw [if_neg hnone, if_neg fun h => h.elim (Nat.not_lt.2 hasked) fun h => h hfor, Warp.miscounted]
  cases List.find? _ _ <;> rfl
end
end
end

theorem mem_insertNat {x y : Nat} {xs : List Nat} (h : x ∈ insertNat y xs) : x = y ∨ x ∈ xs := by
  induction xs with
  | nil => exact .inl (List.mem_singleton.1 h)
  | cons z zs ih =>
    unfold insertNat at h
    split at h
    · exact List.mem_cons.1 h
    · rcases List.mem_cons.1 h with h | h
      · exact .inr (List.mem_cons.2 (.inl h))
      · exact (ih h).imp id (List.mem_cons_of_mem z)
theorem mem_of_mem_sortNat {x : Nat} {xs : List Nat} (h : x ∈ sortNat xs) : x ∈ xs := by
  induction xs with
  | nil => cases h
  | cons y ys ih => exact List.mem_cons.2 ((mem_insertNat h).imp id ih)

theorem miscounted_eq_none {w : Warp} (h : ∀ x ∈ w.sent, askedTotal w x.target = some (sentTotal w x.target)) : w.miscounted = none := by
  refine List.find?_eq_none.2 fun p hp => ?_
  obtain ⟨x, hx, rfl⟩ := List.mem_map.1 ((mem_dedup _ _).1 (mem_of_mem_sortNat hp))
  simp [h x hx]

/-! ### Table slots (06 R228) -/

/-- The read of a table image by `ctab`, for the lanes `lanes` with Exec, over the generation `gen` of its slot. -/
def ctabLoad (f : Fields) (lanes : List Nat) (gen : Nat) : LoadOp where
  f := f
  dests := opDests 0x127 f
  h := ⟨256, 256, 3, .plain, false⟩
  lanes := fun ex => ex.take 1
  args := fun e => { addr := fun _ => e.w.s f.a }
  finish := fun s e one got =>
    let t := s.finishLong { e with w := { e.w with ctabSince := none } } f.la (opDests 0x127 f)
      (lanes.map fun l => .v l f.d (BitVec.ofNat 32 (1 + (gen + 1) % 256 * 256)))
    { t with codec := t.codec.load (f.imm.toNat % 16) f.chan (got (one.headD 0)) }

section
variable {w : Ext} {s : State} {e : Env} (he : s.env = some e) (hset : e.w.settled = true) {l : Nat} {ls : List Nat}
  (hex : s.exec e.w (Fields.ofExt w).ga (Fields.ofExt w).gb = l :: ls) (hpriv : e.l.hdr.privileged = true)
  (hcanon : canonical (e.w.s (Fields.ofExt w).a) = true) (halign : (e.w.s (Fields.ofExt w).a).toNat % 256 = 0)
include he hset hex hpriv hcanon halign

/-- A `ctab` that passes its checks waits, gives up or reads, as its slot stands. -/
theorem exec_ctab_of_passed : let f := Fields.ofExt w
    let gen := (s.codec.slot (f.imm.toNat % 16) (f.mod % 8)).1
    let busy := (!s.resumed e && s.codec.busy (f.imm.toNat % 16) (f.mod % 8)) = true
    exec (.ctab w) s = .next (
      if busy ∧ (∀ t, e.w.ctabSince = some t → s.clock < t + 65536) then s.stall { e.w with ctabSince := some (e.w.ctabSince.getD s.clock) }
      else if busy then s.finishLong { e with w := { e.w with ctabSince := none } } f.la (opDests 0x127 f)
        ((l :: ls).map fun l => .v l f.d (BitVec.ofNat 32 (7 + gen * 256)))
      else s.memLoad (ctabLoad f (l :: ls) gen)) := by
  intro f gen busy
  have hargs : argsBad [⟨e.w.s f.a, true, 256⟩] none = none :=
    argsBad_eq_none (fun x hx _ => List.mem_singleton.1 hx ▸ hcanon) (fun x hx => List.mem_singleton.1 hx ▸ halign) fun _ h => by cases h
  have hwait : (!s.resumed e && s.codec.busy (f.imm.toNat % 16) f.chan && (match e.w.ctabSince with | some t => decide (s.clock < t + 65536) | none => true)) = true ↔
      busy ∧ ∀ t, e.w.ctabSince = some t → s.clock < t + 65536 := by
    rw [Bool.and_eq_true]
    refine and_congr_right fun _ => ?_
    cases e.w.ctabSince <;> simp
  show execCtab w s = _
  rw [execCtab, State.whenSettled_of_env he hset, hex]
  dsimp only
  rw [hpriv, hargs]
  refine congrArg Host.Outcome.next ?_
  by_cases hstall : busy ∧ ∀ t, e.w.ctabSince = some t → s.clock < t + 65536
  · rw [if_pos hstall]
    exact if_pos (hwait.2 hstall)
  · rw [if_neg hstall]
    refine (if_neg fun h => hstall (hwait.1 h)).trans ?_
    rfl
end

/-- The read of one lane's table in one move: what the lane obtains is what its access reads, or nothing where it makes none. -/
theorem obtained_of_one {w : Warp} {l : Nat} {as : List LaneAcc} (h : (as.map LaneAcc.lane).Sublist [l]) (hgot : (w.lane l).got = none) (s : State) :
    obtained w (as.map fun a => (a.lane, s.laneBytes .data a)) l = s.laneBytes .data (as.headD ⟨0, 0, 0, 0, 0, []⟩) := by
  match as, h with
  | [], _ =>
    rw [obtained, List.map_nil, List.find?_nil, hgot]
    rfl
  | [a], h =>
    have ha : a.lane = l := by
      have := h.subset (List.mem_singleton.2 rfl)
      exact List.mem_singleton.1 this
    rw [obtained, List.map_cons, List.find?_cons_of_pos (by simpa using ha)]
    rfl
  | a :: b :: _, h => exact absurd h.length_le (by simp)

theorem codec_of_sansService {s t : State} (h : t.sansService = s.sansService) : t.codec = s.codec := by
  have := congrArg State.codec h
  exact this
theorem codec_finishLong (s : State) (e : Env) (la : Nat) (ds : List Dest) (ws : List RegWrite) : (s.finishLong e la ds ws).codec = s.codec := by
  unfold State.finishLong
  dsimp only
  split
  · rfl
  · split <;> rfl

/-- The one access of a `ctab` performs in one move, and the slot takes the bytes. -/
theorem memLoad_ctabLoad {s : State} {e : Env} {f : Fields} {l : Nat} {ls : List Nat} {as : List LaneAcc} (he : s.env = some e) (hset : e.w.settled = true)
    (hex : s.exec e.w f.ga f.gb = l :: ls) (hgot : (e.w.lane l).got = none) (gen : Nat)
    (hr : Reached s e .read ⟨256, 256, 3, .plain, false⟩ { addr := fun _ => e.w.s f.a } [l] as) :
    let used := (s.useSegs (allSegs as)).cacheLoad e.w.core f.hint (allSegs as)
    s.memLoad (ctabLoad f (l :: ls) gen) =
      { used.finishLong { e with w := { e.w.loadDone (e.w.lane l).pc.addr with ctabSince := none } } f.la (opDests 0x127 f)
          ((l :: ls).map fun l => .v l f.d (BitVec.ofNat 32 (1 + (gen + 1) % 256 * 256))) with
        codec := s.codec.load (f.imm.toNat % 16) (f.mod % 8) (used.laneBytes .data (as.headD ⟨0, 0, 0, 0, 0, []⟩)) } := by
  intro used
  have hlanes : (ctabLoad f (l :: ls) gen).lanes (s.exec e.w f.ga f.gb) = [l] := by
    rw [hex]
    rfl
  have htodo : [l].filter (fun l => (e.w.lane l).got.isNone) = [l] := List.filter_cons_of_pos (by rw [hgot]; rfl)
  have hsub := sublist_lanes_of_planned hr.planned
  have htake : as.take (s.cur.quota + 1) = as := by
    have hlen := hsub.length_le
    rw [List.length_map, List.length_singleton] at hlen
    exact List.take_of_length_le (hlen.trans (Nat.le_add_left _ _))
  have hload := memLoad_of_reached (o := ctabLoad f (l :: ls) gen) (as := as) he hset rfl (by
    show Reached s e .read _ _ (((ctabLoad f (l :: ls) gen).lanes (s.exec e.w f.ga f.gb)).filter _) as
    rw [hlanes, htodo]
    exact hr)
  rw [htake, State.loadNow, if_neg (Nat.lt_irrefl _)] at hload
  refine hload.trans ?_
  show (ctabLoad f (l :: ls) gen).finish used { e with w := e.w.loadDone (e.w.lane (((ctabLoad f (l :: ls) gen).lanes (s.exec e.w f.ga f.gb)).headD 0)).pc.addr }
    ((ctabLoad f (l :: ls) gen).lanes (s.exec e.w f.ga f.gb)) (obtained e.w (as.map fun a => (a.lane, used.laneBytes .data a))) = _
  have hcodec : used.codec = s.codec :=
    codec_of_sansService ((sansService_of_sansCache (sansCache_cacheLoad _ _ _ _ none)).trans (sansService_useSegs s _))
  rw [hlanes, ← obtained_of_one hsub hgot used, ← hcodec, ctabLoad]
  dsimp only [List.headD_cons]
  rw [codec_finishLong]
  rfl

/-- Settles O39: each instruction by the equation of its execution. -/
theorem channelsAndFences : Obligations.ChannelsAndFences := by
  refine ⟨fun w s e he => ?warp, fun w s e he hset => ?ctab⟩
  case warp =>
    intro f ex c
    refine ⟨fun hroom => ⟨_, longEnd_finishLong f hroom, exec_cpoll he⟩, fun hset hne => ?_⟩
    obtain ⟨l, ls, hex⟩ := List.exists_cons_of_ne_nil hne
    refine ⟨fun hle hroom => ⟨_, longEnd_finishLong f (hroom.of_eq rfl rfl), ?_⟩, exec_cwait_of_lt_count he hset hex, fun hended hasked hfor => ?fence⟩
    · have hrun := exec_cwait_of_count_le he hset hex hle
      rwa [← hex] at hrun
    case fence =>
      intro v
      have hrun := exec_fabfence_of_answered he hset hex hended hasked hfor
      rw [← hex] at hrun
      refine ⟨fun p hp => hrun.trans ?_, fun hall hroom => ⟨_, longEnd_finishLong f (e := { e with w := v }) (hroom.of_eq rfl rfl), hrun.trans ?_⟩⟩
      · rw [show e.w.miscounted = some p from hp, show ex = l :: ls from hex]
        rfl
      · rw [miscounted_eq_none hall]
        rfl
  case ctab =>
    intro f ex port gen hne hpriv hcanon halign as done late
    obtain ⟨l, ls, hex⟩ := List.exists_cons_of_ne_nil hne
    have hrun := exec_ctab_of_passed he hset hex hpriv hcanon halign
    have hlanes : s.exec e.w f.ga f.gb = l :: ls := hex
    clear_value ex
    subst hex
    refine ⟨fun hfree hr hgot hroom => ?reads, fun hnew hbusy hsoon => hrun.trans ?waits, fun t0 hnew hbusy hsince hlate hroom =>
      ⟨_, longEnd_finishLong f (e := { e with w := { e.w with ctabSince := none } }) (hroom.of_eq rfl rfl), hrun.trans ?late⟩⟩
    case reads =>
      have hidle : ¬ ((!s.resumed e && s.codec.busy port (f.mod % 8)) = true) := by rw [hfree, Bool.and_false]; exact Bool.false_ne_true
      refine ⟨_, longEnd_finishLong_over f ((cur_cacheLoad _ _ _ _).trans (cur_useSegs _ _))
        (e := { e with w := { e.w.loadDone _ with ctabSince := none } }) ((hroom.loadDone _).of_eq rfl rfl), hrun.trans ?_⟩
      rw [if_neg fun h => hidle h.1, if_neg hidle, memLoad_ctabLoad he hset hlanes (hgot l List.mem_cons_self) _ hr]
      rfl
    case waits => rw [if_pos ⟨by rw [hnew, hbusy]; rfl, hsoon⟩]
    case late => rw [if_neg fun h => absurd (h.2 t0 hsince) (Nat.not_lt.2 hlate), if_pos (by rw [hnew, hbusy]; rfl)]

end Sys2Proof.Machine

/-! PROOFS. Loads into registers, prefetches, and the bytes that they leave (family 06_memory_and_engine_instructions.md). -/
namespace Sys2Proof.Machine

/-! ### Loads with nothing older unfinished (06 R196, R198) -/

/-- The state from which a load checks its lanes: with `uni` the uniform-constant cache may have given its translation (10 R333). -/
def State.loadFrom (s : State) (e : Env) (o : LoadOp) : State :=
  if o.uni && !s.resumed e then s.uccHeld e.w.core e.l.hdr.pasid e.l.hdr.tenant ((o.args e).addr ((o.lanes (s.exec e.w o.f.ga o.f.gb)).headD 0)) else s

theorem sansService_uccHeld (s : State) (core : Nat) (pasid : BitVec 20) (tenant : BitVec 16) (va : W64) :
    (s.uccHeld core pasid tenant va).sansService = s.sansService := by
  unfold State.uccHeld
  split
  · split <;> rfl
  · rfl
theorem sansService_loadFrom (s : State) (e : Env) (o : LoadOp) : (s.loadFrom e o).sansService = s.sansService := by
  unfold State.loadFrom
  split
  · exact sansService_uccHeld s _ _ _ _
  · rfl

/-- What the lanes of a batch leave of the translations and the caches. -/
def State.loadUsed (s : State) (e : Env) (o : LoadOp) (as batch : List LaneAcc) : State :=
  ((s.loadFrom e o).useSegs (allSegs as)).cacheLoad e.w.core o.f.hint (allSegs batch) (if o.uni then some (e.l.hdr.pasid, e.l.hdr.tenant) else none)

theorem cur_loadUsed (s : State) (e : Env) (o : LoadOp) (as batch : List LaneAcc) : (s.loadUsed e o as batch).cur = s.cur :=
  cur_of_sansService ((sansService_of_sansCache (sansCache_cacheLoad _ _ _ _ _)).trans ((sansService_useSegs _ _).trans (sansService_loadFrom s e o)))

/-- A load whose lanes reach what they access, with nothing older unfinished, performs as many of them as this move allows. -/
theorem memLoad_of_idle {s : State} {e : Env} {o : LoadOp} {as : List LaneAcc} (he : s.env = some e)
    (hr : Reached (s.loadFrom e o) e .read o.h (o.args e) ((o.lanes (s.exec e.w o.f.ga o.f.gb)).filter fun l => (e.w.lane l).got.isNone) as)
    (hidle : as = [] ∨ (e.w.spec.window = [] ∧ e.w.remoteOpen = 0)) :
    s.memLoad o = (s.loadUsed e o as (as.take (s.cur.quota + 1))).loadNow e o (o.lanes (s.exec e.w o.f.ga o.f.gb)) as (as.take (s.cur.quota + 1)) := by
  have hcur : ((s.loadFrom e o).useSegs (allSegs as)).cur = s.cur := (cur_useSegs _ _).trans (cur_of_sansService (sansService_loadFrom s e o))
  have hfar : (allSegs as).any Seg.far = false := List.any_eq_false.2 fun g hg => by rw [(hr.near g hg).1]; exact Bool.false_ne_true
  have hremote : (allSegs (as.take (s.cur.quota + 1))).any Seg.remote = false := List.any_eq_false.2 fun g hg => by
    obtain ⟨a, ha, hg⟩ := mem_allSegs.1 hg
    rw [remote_of_not_far (hr.near g (mem_allSegs.2 ⟨a, List.mem_of_mem_take ha, hg⟩)).1]
    exact Bool.false_ne_true
  have hgo : (as.isEmpty || (e.w.spec.window.isEmpty && e.w.remoteOpen == 0)) = true := by
    rcases hidle with rfl | ⟨hwindow, hopen⟩
    · rfl
    · rw [hwindow, hopen]
      exact Bool.or_true _
  rw [State.memLoad, State.onWarp_of_env he]
  dsimp only
  refine (planned_of_reached hr _).trans ?_
  rw [laneError_useSegs hr]
  dsimp only
  rw [State.loadGo]
  dsimp only
  rw [hfar, hgo, nextBatch_of_near hr.near, hcur, hremote]
  rfl

/-- A load of registers: how its lanes, its addresses and its writes are found. -/
def regsLoad (f : Fields) (h : Shape) (look : Look) (uni : Bool) (dests : List Dest) (lanes : List Nat → List Nat) (addr : Warp → Nat → W64)
    (writes : Nat → List Byte → List RegWrite) : LoadOp where
  f := f
  dests := dests
  h := h
  look := look
  uni := uni
  lanes := lanes
  args := fun e => { addr := addr e.w }
  finish := fun s e ex got => s.finishRegs e f dests addr 5 writes ex got

/-- The trace record of a load, which names what the load's issue evaluated. -/
theorem finishRegs_eq_tracedAt (s : State) (e : Env) (f : Fields) (dests : List Dest) (addr : Warp → Nat → W64) (writes : Nat → List Byte → List RegWrite)
    (ex : List Nat) (got : Nat → List Byte) :
    s.finishRegs e f dests addr 5 writes ex got = (s.finishLong e f.la dests (ex.flatMap fun l => writes l (got l))).tracedAt e ex 1 5 id
      fun l => addr54 (e.w.plannedVa l (addr e.w l)) := by
  cases ex <;> rfl

theorem plannedVa_loadDone (w : Warp) (pc : W64) (l : Nat) (va : W64) : (w.loadDone pc).plannedVa l va = w.plannedVa l va := by
  unfold Warp.plannedVa
  rw [lane_loadDone]

/-- A trace record names of the warp its number and the program counter of the lowest lane. -/
theorem tracedAt_congr {t : State} {e : Env} {v : Warp} {ex : List Nat} {flag kind : Nat} {info : Nat → Nat} {a1 a1' : Nat → BitVec 54}
    (hid : v.id = e.w.id) (hlane : ∀ l, v.lane l = e.w.lane l) (ha : ∀ l ∈ ex, a1 l = a1' l) :
    t.tracedAt { e with w := v } ex flag kind info a1 = t.tracedAt e ex flag kind info a1' := by
  cases ex with
  | nil => rfl
  | cons l ls =>
    show t.traceWarp v.id (some flag) kind (info l) (a1 l) (v.lane l).pc = _
    rw [hid, hlane, ha l List.mem_cons_self]
    rfl

/-- An instruction that makes a load of registers completes as such a load does. -/
theorem loads_of_memLoad {i : Instr} {f : Fields} {h : Warp → Shape} {look : Look} {uni : Bool} {dests : List Dest} {lanes : List Nat → List Nat}
    {addr : Warp → Nat → W64} {writes : Nat → List Byte → List RegWrite}
    (hexec : ∀ s e, s.env = some e → exec i s = .next (s.memLoad (regsLoad f (h e.w) look uni dests lanes addr writes)))
    (hlanes : ∀ xs, (lanes xs).Sublist xs) (haddr : ∀ w pc, addr (w.loadDone pc) = addr w) : Loads i f h look uni dests lanes addr 1 5 writes := by
  intro s e as he ex held hr hidle batch used now
  have hheld : held = s.loadFrom e (regsLoad f (h e.w) look uni dests lanes addr writes) := by
    refine if_congr ?_ rfl rfl
    show _ ↔ (uni && !s.resumed e) = true
    simp
  clear_value held
  subst hheld
  have hcur : used.cur = s.cur := cur_loadUsed s e (regsLoad f (h e.w) look uni dests lanes addr writes) as batch
  have hload : exec i s = .next (used.loadNow e (regsLoad f (h e.w) look uni dests lanes addr writes) ex as batch) :=
    (hexec s e he).trans (congrArg Host.Outcome.next (memLoad_of_idle he hr hidle))
  refine ⟨fun hpart => ⟨_, hload.trans (congrArg Host.Outcome.next (if_pos hpart)), ?part⟩, fun hwhole hroom =>
    ⟨_, longEnd_finishLong_over f hcur (hroom.loadDone _), hload.trans (congrArg Host.Outcome.next ?whole)⟩⟩
  case part =>
    have hnow : now.map Prod.fst = batch.map LaneAcc.lane := by rw [List.map_map]; rfl
    have hnodup : (now.map Prod.fst).Nodup := by
      rw [hnow]
      exact (((List.take_sublist _ as).map LaneAcc.lane).trans (sublist_lanes_of_planned hr.planned)).nodup (((s.nodup_exec _ _ _).sublist (hlanes _)).filter _)
    have hdone := partDone_keepGoing used e as hnodup
    rwa [act_of_cur hcur] at hdone
  case whole =>
    rw [State.loadNow, if_neg (by omega)]
    refine (finishRegs_eq_tracedAt used _ f dests addr writes ex _).trans ?_
    refine tracedAt_congr (id_loadDone _ _) (lane_loadDone _ _) fun l _ => ?_
    dsimp only
    rw [plannedVa_loadDone, haddr]

/-! ### What addresses read of a warp -/

theorem regs_loadDone (w : Warp) (pc : W64) : (w.loadDone pc).regs = w.regs := by
  unfold Warp.loadDone
  split <;> rfl

section
variable {v w : Warp} (h : v.regs = w.regs)
include h

theorem address_of_regs (f : Fields) : v.address f = w.address f := by
  have hregs (x : Warp) : x.address f = ({ w with regs := x.regs } : Warp).address f := rfl
  rw [hregs, h]
theorem s_of_regs : v.s = w.s := by
  have hregs (x : Warp) : x.s = ({ w with regs := x.regs } : Warp).s := rfl
  rw [hregs, h]
end

/-! ### Bytes that stay: caches hold none, and the use of a translation writes the A and D bits alone (10 R332; 12 R388) -/

theorem sameBytes_of_sansCache {s t : State} (h : t.sansCache = s.sansCache) : s.sameBytes t := fun l n => by
  have hmask (u : State) : u.readLoc l n = u.sansCache.readLoc l n := by cases l <;> rfl
  rw [hmask t, hmask s, h]

theorem mem_of_sansCache {s t : State} (h : t.sansCache = s.sansCache) : t.mem = s.mem := (kept_of_sansCache h).1

/-- A byte written leaves every other, in canonical form or not. -/
theorem Mem.get_set_of_ne {a b : Nat} (h : b ≠ a) (m : Mem) (x : Byte) : (m.set a x).get b = m.get b := by
  induction m with
  | nil =>
    unfold Mem.set
    split <;> simp [Mem.get, h]
  | cons c m ih =>
    obtain ⟨k, v⟩ := c
    unfold Mem.set
    split
    · split <;> simp [Mem.get, h]
    · split
      · rename_i hk
        subst hk
        split <;> simp [Mem.get, h]
      · simp only [Mem.get, ih]

section
variable (s : State)

/-- A write of physical memory at a site writes its bytes. -/
theorem mem_writeSite_pa (core by_ : Option Nat) (a : Nat) (xs : List Byte) (hint : Nat) : (s.writeSite core by_ (.pa a) xs hint).mem = s.mem.write a xs := by
  have hmerge (t : State) : (t.mergeErrors (.pa a) xs.length).mem = t.mem := by
    unfold State.mergeErrors
    dsimp only
    split <;> rfl
  show (((((s.recallLines (.pa a) xs.length).mergeErrors (.pa a) xs.length).cacheStore core hint (.pa a) xs.length).keepOld (.pa a) xs.length).mem).write a xs = _
  refine congrArg (Mem.write · a xs) ?_
  exact (mem_of_sansCache (sansCache_cacheStore _ core hint _ _)).trans ((hmerge _).trans (mem_of_sansCache (sansCache_recallLines s _ _)))

theorem mem_touchPages (l : Loc) (n : Nat) : (s.touchPages l n).mem = s.mem := by
  unfold State.touchPages
  split <;> rfl
theorem mem_usePage (g : Seg) : (s.usePage g).mem = s.mem := by
  unfold State.usePage
  split
  · exact (mem_of_sansCache (sansCache_homeLoad _ _ _ _)).trans (mem_touchPages s _ _)
  · exact mem_touchPages s _ _
theorem mem_useSites (g : Seg) : (s.useSites g).mem = s.mem :=
  foldl_keeps (g := State.mem) (f := fun s a => s.homeLoad 0 (.pa a) 8) (fun s a => mem_of_sansCache (sansCache_homeLoad s 0 (.pa a) 8)) s g.sites
theorem get_mem_useMark {g : Seg} {a : Nat} (h : ∀ m, g.mark = some m → m.1 ≠ a) : (s.useMark g).mem.get a = s.mem.get a := by
  unfold State.useMark
  split
  · rename_i b x hmark
    rw [State.ownStore, mem_writeSite_pa]
    exact Mem.get_set_of_ne (h (b, x) hmark).symm s.mem x
  · rfl
theorem mem_useFill (g : Seg) : (s.useFill g).mem = s.mem := by
  unfold State.useFill
  split <;> rfl
theorem get_mem_useSeg {g : Seg} {a : Nat} (h : ∀ m, g.mark = some m → m.1 ≠ a) : (s.useSeg g).mem.get a = s.mem.get a := by
  rw [useSeg_eq, mem_useFill, get_mem_useMark _ h, mem_useSites, mem_usePage]
theorem get_mem_useSegs {gs : List Seg} {a : Nat} (h : ∀ g ∈ gs, ∀ m, g.mark = some m → m.1 ≠ a) : (s.useSegs gs).mem.get a = s.mem.get a := by
  induction gs generalizing s with
  | nil => rfl
  | cons g gs ih => exact (ih (s.useSeg g) fun g' hg => h g' (List.mem_cons_of_mem g hg)).trans (get_mem_useSeg s (h g List.mem_cons_self))
end

/-! ### Prefetches (06 R205) -/

/-- The state without what a prefetch may change: caches, A bits, translations. -/
def State.sansTlb (s : State) : State := { s.sansTrace with tlb := [] }

theorem sansTlb_of_sansTrace {s t : State} (h : t.sansTrace = s.sansTrace) : t.sansTlb = s.sansTlb := by
  rw [State.sansTlb, h, State.sansTlb]
theorem sansTlb_of_sansCache {s t : State} (h : t.sansCache = s.sansCache) : t.sansTlb = s.sansTlb := sansTlb_of_sansTrace (sansTrace_of_sansCache h)

section
variable (s : State)

/-- The use of a run of physical memory leaves every scratchpad page as it was. -/
theorem sansTlb_useSeg_pa {g : Seg} {a : Nat} (h : g.loc = .pa a) : (s.useSeg g).sansTlb = s.sansTlb := by
  have hfill (t : State) : (t.useFill g).sansTlb = t.sansTlb := by
    unfold State.useFill
    split <;> rfl
  have hmark (t : State) : (t.useMark g).sansTlb = t.sansTlb := by
    unfold State.useMark
    split
    · exact sansTlb_of_sansTrace (sansTrace_ownStore t _ _)
    · rfl
  have hsites (t : State) : (t.useSites g).sansTlb = t.sansTlb :=
    foldl_keeps (f := fun s a => s.homeLoad 0 (.pa a) 8) (fun s a => sansTlb_of_sansCache (sansCache_homeLoad s 0 (.pa a) 8)) t g.sites
  have hpage : (s.usePage g).sansTlb = s.sansTlb := by
    have htouch : s.touchPages g.loc g.n = s := by rw [h]; rfl
    unfold State.usePage
    rw [htouch]
    split
    · exact sansTlb_of_sansCache (sansCache_homeLoad s _ _ _)
    · rfl
  rw [useSeg_eq, hfill, hmark, hsites, hpage]

/-- The prefetch of one lane. -/
def State.prefetchLane (e : Env) (f : Fields) (l : Nat) : State :=
  let va := e.w.address f l
  if !canonical va || inWindow va then s
  else match s.xlate e.l .read true false va with
    | .error _ => s
    | .ok m =>
      if m.io || isFabric m.pa then s
      else if f.mod % 32 = 0 then (s.useSeg (m.seg va 1)).cacheLoadLine e.w.core f.hint (lineOf m.pa)
      else (s.useSeg (m.seg va 1)).prefetchL2 f.hint (lineOf m.pa)

theorem sansTlb_prefetchLane (e : Env) (f : Fields) (l : Nat) : (s.prefetchLane e f l).sansTlb = s.sansTlb := by
  unfold State.prefetchLane
  dsimp only
  split
  · rfl
  split
  · rfl
  split
  · rfl
  split
  · exact (sansTlb_of_sansCache (sansCache_cacheLoadLine _ _ _ _)).trans (sansTlb_useSeg_pa s rfl)
  · exact (sansTlb_of_sansCache (sansCache_prefetchL2 _ _ _)).trans (sansTlb_useSeg_pa s rfl)

theorem prefetch_of_env {e : Env} (he : s.env = some e) (f : Fields) :
    s.prefetch f = ((s.exec e.w f.ga f.gb).foldl (fun s l => s.prefetchLane e f l) s).finishLong e f.la [] [] := by
  rw [State.prefetch, State.onWarp_of_env he]
  rfl
end

theorem kept_of_sansTlb {s t : State} (h : t.sansTlb = s.sansTlb) :
    t.warps = s.warps ∧ t.launches = s.launches ∧ t.blocks = s.blocks ∧ t.cur = s.cur ∧ t.quads = s.quads := by
  have hwarps := congrArg State.warps h
  have hlaunches := congrArg State.launches h
  have hblocks := congrArg State.blocks h
  have hcur := congrArg State.cur h
  have hquads := congrArg State.quads h
  exact ⟨hwarps, hlaunches, hblocks, hcur, hquads⟩

/-- A 64-bit number in two registers. -/
theorem writePair_ofNat (l k n : Nat) : writePair l k (BitVec.ofNat 64 n) = [.v l k (BitVec.ofNat 32 n), .v l (k + 1) (BitVec.ofNat 32 (n / 2 ^ 32))] := by
  have hlow : lo32 (BitVec.ofNat 64 n) = BitVec.ofNat 32 n := by
    apply BitVec.eq_of_toNat_eq
    simp [lo32]
  have hhigh : hi32 (BitVec.ofNat 64 n) = BitVec.ofNat 32 (n / 2 ^ 32) := by
    apply BitVec.eq_of_toNat_eq
    simp [hi32, Nat.shiftRight_eq_div_pow]
    omega
  rw [writePair, hlow, hhigh]

/-- Settles O31: each instruction makes a load of registers; what the caches and the use of translations leave is read off operation by operation. -/
theorem loadsComplete : Obligations.LoadsComplete := by
  refine ⟨fun i f hi => ?ld, fun w => ?ldbx, fun w => ?fequery, fun i f hi => ?bnload, fun s gs core hint ucc => ?frame, fun i f hi s e he hroom => ?pfetch⟩
  case ld =>
    refine loads_of_memLoad (fun s e he => ?_) (fun xs => List.Sublist.refl xs) fun w pc => address_of_regs (regs_loadDone w pc) f
    obtain ⟨w, rfl, rfl⟩ | ⟨w, rfl, rfl⟩ := hi <;> rfl
  case ldbx => exact loads_of_memLoad (fun s e he => rfl) (fun xs => List.Sublist.refl xs) fun w pc => address_of_regs (regs_loadDone w pc) _
  case fequery =>
    have hwrites (l : Nat) (bs : List Byte) : [RegWrite.v l (Fields.ofStd w).d (BitVec.ofNat 32 (leNat bs)), .v l ((Fields.ofStd w).d + 1)
        (BitVec.ofNat 32 (leNat bs / 2 ^ 32))] = writePair l (Fields.ofStd w).d (BitVec.ofNat 64 (leNat bs)) := (writePair_ofNat l _ _).symm
    refine loads_of_memLoad (fun s e he => ?_) (fun xs => List.Sublist.refl xs) fun w pc => address_of_regs (regs_loadDone w pc) _
    simp only [hwrites]
    exact rfl
  case bnload =>
    refine loads_of_memLoad (fun s e he => ?_) (fun xs => List.take_sublist 1 xs) fun w pc => ?_
    · have hnet : exec i s = .next (s.loadNet f) := by obtain ⟨w, rfl, rfl⟩ | ⟨w, rfl, rfl⟩ := hi <;> rfl
      rw [hnet, State.loadNet, State.onWarp_of_env he]
      rfl
    · rw [s_of_regs (regs_loadDone w pc)]
  case frame => exact ⟨sameBytes_of_sansCache (sansCache_cacheLoad s core hint gs ucc), fun a h => get_mem_useSegs s h⟩
  case pfetch =>
    have hrun : exec i s = .next (s.prefetch f) := by obtain ⟨w, rfl, rfl⟩ | ⟨w, rfl, rfl⟩ := hi <;> rfl
    obtain ⟨hwarps, hlaunches, hblocks, hcur, hquads⟩ := kept_of_sansTlb (foldl_keeps (f := fun s l => s.prefetchLane e f l)
      (fun s l => sansTlb_prefetchLane s e f l) s (s.exec e.w f.ga f.gb))
    exact ⟨_, _, longEnd_finishLong_over f hcur hroom, hrun.trans (congrArg Host.Outcome.next (prefetch_of_env s he f)), hwarps, hlaunches, hblocks, hcur, hquads⟩

end Sys2Proof.Machine

/-! PROOFS. Stores enter the store buffer (family 06_memory_and_engine_instructions.md). -/
namespace Sys2Proof.Machine

theorem remotes_of_sansService {s t : State} (h : t.sansService = s.sansService) : t.remotes = s.remotes := by
  have := congrArg State.remotes h
  exact this
theorem outstanding_useSegs (s : State) (gs : List Seg) (w : Warp) : (s.useSegs gs).outstanding w = s.outstanding w := by
  rw [State.outstanding, remotes_of_sansService (sansService_useSegs s gs), State.outstanding]
theorem resumed_of_cur {s t : State} (h : t.cur = s.cur) (e : Env) : t.resumed e = s.resumed e := by
  rw [State.resumed, act_of_cur h, State.resumed]

/-- An instruction of which nothing has been done has no address from before. -/
theorem plannedVa_of_not_resumed {s : State} {e : Env} (h : s.resumed e = false) {l : Nat} (hl : l ∈ s.act e.w) (va : W64) : e.w.plannedVa l va = va := by
  have hplan : (e.w.lane l).plan = none := by simpa using List.any_eq_false.1 h l hl
  rw [Warp.plannedVa, hplan]

/-- The warp after the stores `as` have entered its window. -/
def Warp.bufferStores (w : Warp) (o : StoreOp) (as : List LaneAcc) : Warp :=
  if as = [] then w else w.enqueue fun q => .store q o.f.hint (as.flatMap o.effs)

theorem lane_bufferStores (w : Warp) (o : StoreOp) (as : List LaneAcc) (l : Nat) : (w.bufferStores o as).lane l = w.lane l := by
  unfold Warp.bufferStores
  split <;> rfl
theorem id_bufferStores (w : Warp) (o : StoreOp) (as : List LaneAcc) : (w.bufferStores o as).id = w.id := by
  unfold Warp.bufferStores
  split <;> rfl
theorem regs_bufferStores (w : Warp) (o : StoreOp) (as : List LaneAcc) : (w.bufferStores o as).regs = w.regs := by
  unfold Warp.bufferStores
  split <;> rfl
theorem Warp.longRoom.bufferStores {w : Warp} {ds : List Dest} {ws : List RegWrite} (h : w.longRoom ds ws) (o : StoreOp) (as : List LaneAcc) :
    (w.bufferStores o as).longRoom ds ws := by
  refine h.of_eq ?_ ?_ <;> · unfold Warp.bufferStores; split <;> rfl

section
variable {s : State} {e : Env} {o : StoreOp} {as : List LaneAcc}

/-- A store whose lanes reach their places enters the window, if that has room. -/
theorem memStore_of_reached (hr : Reached s e o.use o.h (o.args e) (s.exec e.w o.f.ga o.f.gb) as) (hgot : ∀ l ∈ s.exec e.w o.f.ga o.f.gb, (e.w.lane l).got = none)
    (hopen : e.w.remoteOpen = 0) (hroom : s.outstanding e.w < 32) (hcareful : e.w.careful = true → e.w.spec.window = []) (he : s.env = some e)
    (hnew : s.resumed e = false) :
    s.memStore o = (s.useSegs (allSegs as)).finishStore { e with w := e.w.bufferStores o as } o (s.exec e.w o.f.ga o.f.gb) := by
  have hall : (s.exec e.w o.f.ga o.f.gb).filter (fun l => (e.w.lane l).got.isNone) = s.exec e.w o.f.ga o.f.gb :=
    List.filter_eq_self.2 fun l hl => by rw [hgot l hl]; rfl
  have hfar : (allSegs as).any Seg.far = false := List.any_eq_false.2 fun g hg => by rw [(hr.near g hg).1]; exact Bool.false_ne_true
  have hnew' : (s.useSegs (allSegs as)).resumed e = false := (resumed_of_cur (cur_useSegs s _) e).trans hnew
  have hmay : (e.w.careful && !e.w.spec.window.isEmpty) = false := by
    cases hc : e.w.careful with
    | false => rfl
    | true => rw [hcareful hc]; rfl
  rw [State.memStore, State.onWarp_of_env he]
  dsimp only
  rw [hall, planned_of_reached hr, State.storeGo, hfar, hnew', hmay, hopen, outstanding_useSegs, Warp.bufferStores]
  cases as with
  | nil => rfl
  | cons a as =>
    rw [if_neg (List.cons_ne_nil a as)]
    exact (if_neg Bool.false_ne_true).trans ((if_neg Bool.false_ne_true).trans ((if_neg Bool.false_ne_true).trans (if_neg (by simpa using hroom))))
end

/-- The trace record of a store, which names what its issue evaluated. -/
theorem finishStore_eq_tracedAt (s : State) (e : Env) (o : StoreOp) (ex : List Nat) :
    s.finishStore e o ex = (s.finishLong e o.f.la [] []).tracedAt e ex 2 6 id fun l => addr54 (e.w.plannedVa l ((o.args e).addr l)) := by
  cases ex <;> rfl

/-- An instruction that makes a store issues as such a store does. -/
theorem stores_of_memStore {i : Instr} {f : Fields} {h : Warp → Shape} {args : Warp → LaneArgs} {effs : Warp → LaneAcc → List StoreEff} (o : Warp → StoreOp)
    (hexec : ∀ s e, s.env = some e → exec i s = .next (s.memStore (o e.w)))
    (ho : ∀ w, (o w).f = f ∧ (o w).h = h w ∧ (o w).use = .write ∧ (o w).effs = effs w ∧ ∀ e, (o w).args e = args e.w)
    (haddr : ∀ v w : Warp, v.regs = w.regs → (args v).addr = (args w).addr) : Stores i f h args effs := by
  intro s e as he ex hnew hr hgot hopen hroom hcareful hlong used w
  obtain ⟨hf, hh, huse, heffs, hargs⟩ := ho e.w
  have hw : w = e.w.bufferStores (o e.w) as := by
    show _ = if _ then _ else _
    rw [hf, heffs]
  have hstore := memStore_of_reached (o := o e.w) (as := as) (by rw [huse, hh, hargs, hf]; exact hr) (by rw [hf]; exact hgot) hopen hroom hcareful he hnew
  rw [finishStore_eq_tracedAt, ← hw, hf, hargs] at hstore
  refine ⟨_, longEnd_finishLong_over f (cur_useSegs s _) (e := { e with w := w }) (hw ▸ hlong.bufferStores _ _),
    (hexec s e he).trans (congrArg Host.Outcome.next (hstore.trans ?_))⟩
  refine tracedAt_congr (hw ▸ id_bufferStores _ _ _) (fun l => hw ▸ lane_bufferStores _ _ _ l) fun l hl => ?_
  rw [Warp.plannedVa, show w.lane l = e.w.lane l from hw ▸ lane_bufferStores _ _ _ l, ← Warp.plannedVa,
    plannedVa_of_not_resumed hnew (State.act_of_exec hl), haddr w e.w (hw ▸ regs_bufferStores _ _ _)]

/-- A store of the low bytes of the registers from D on. -/
def dataStore (f : Fields) (h : Shape) (w : Warp) : StoreOp where
  f := f
  h := h
  effs := fun a => splitEffs a.lane (w.regBytes a.lane f.d a.n) 0 a.segs
  bytes := fun a => w.regBytes a.lane f.d a.n
  req := fun a runs => .store (runs.flatMap fun (off, g) => ((w.regBytes a.lane f.d a.n).drop off).take g.n)
/-- A store that sets its granule full. -/
def fillStore (f : Fields) (w : Warp) : StoreOp where
  f := f
  h := feShape f
  effs := fun a => a.segs.map fun g => .fill a.lane g.loc (w.regBytes a.lane f.d a.n)
  req := fun _ _ => .load
/-- A reduction. -/
def redStore (f : Fields) : StoreOp where
  f := f
  h := atomShape f
  args := fun e => { addr := e.w.atomicAddress f, b := e.w.atomicB f }
  effs := fun a => a.segs.map fun g => .red a.lane g.loc (g.buf.map fun d => (d, g.va)) (f.mod % 16) (decide (f.mod / 16 % 2 = 1)) a.b
  req := fun a _ => .red (f.mod % 16) a.b

theorem storeData_of_env {s : State} {e : Env} (he : s.env = some e) (f : Fields) (h : Shape) : s.storeData f h = s.memStore (dataStore f h e.w) := by
  rw [State.storeData, State.onWarp_of_env he]
  rfl
theorem storeFe_of_env {s : State} {e : Env} (he : s.env = some e) (f : Fields) : s.storeFe f = s.memStore (fillStore f e.w) := by
  rw [State.storeFe, State.onWarp_of_env he]
  rfl
theorem atomicAddress_of_regs {v w : Warp} (h : v.regs = w.regs) (f : Fields) : v.atomicAddress f = w.atomicAddress f := by
  have hregs (x : Warp) : x.atomicAddress f = ({ w with regs := x.regs } : Warp).atomicAddress f := rfl
  rw [hregs, h]

/-- Settles O32: each instruction makes a store. -/
theorem storesIssue : Obligations.StoresIssue := by
  refine ⟨fun i f hi => ?st, fun w => ?stbx, fun i f hi => ?stfe, fun i f hi => ?red⟩
  case st =>
    refine stores_of_memStore (dataStore f _) (fun s e he => ?_) (fun w => ⟨rfl, rfl, rfl, rfl, fun _ => rfl⟩) fun v w h => address_of_regs h f
    have hrun : exec i s = .next (s.store f) := by obtain ⟨w, rfl, rfl⟩ | ⟨w, rfl, rfl⟩ := hi <;> rfl
    exact hrun.trans (congrArg Host.Outcome.next (storeData_of_env he f _))
  case stbx =>
    exact stores_of_memStore (dataStore (.ofExt w) _) (fun s e he => congrArg Host.Outcome.next (storeData_of_env he _ (bxShape (.ofExt w))))
      (fun w => ⟨rfl, rfl, rfl, rfl, fun _ => rfl⟩) fun u v h => address_of_regs h (.ofExt w)
  case stfe =>
    refine stores_of_memStore (fillStore f) (fun s e he => ?_) (fun w => ⟨rfl, rfl, rfl, rfl, fun _ => rfl⟩) fun v w h => address_of_regs h f
    have hrun : exec i s = .next (s.storeFe f) := by obtain ⟨w, rfl, rfl⟩ | ⟨w, rfl, rfl⟩ := hi <;> rfl
    exact hrun.trans (congrArg Host.Outcome.next (storeFe_of_env he f))
  case red =>
    refine stores_of_memStore (fun _ => redStore f) (fun s e he => ?_) (fun w => ⟨rfl, rfl, rfl, rfl, fun _ => rfl⟩) fun v w h => atomicAddress_of_regs h f
    obtain ⟨w, rfl, rfl⟩ | ⟨w, rfl, rfl⟩ := hi <;> rfl

end Sys2Proof.Machine

/-! PROOFS. Atomics: the lanes of one, its write, and the table of operations (family 06_memory_and_engine_instructions.md). -/
namespace Sys2Proof.Machine

/-! ### Bytes of a number -/

@[simp] theorem length_leBytes (n x : Nat) : (leBytes n x).length = n := by
  induction n generalizing x with
  | zero => rfl
  | succ n ih => rw [leBytes, List.length_cons, ih]
theorem leNat_leBytes (n x : Nat) : leNat (leBytes n x) = x % 256 ^ n := by
  induction n generalizing x with
  | zero => simp [leBytes, leNat, Nat.mod_one]
  | succ n ih =>
    rw [leBytes, leNat, ih, BitVec.toNat_ofNat, Nat.pow_succ' (m := 256) (n := n), Nat.mod_mul]

/-! ### What a write at a site leaves (09 R300, R306) -/

/-- The state without what a store and the use of a translation change. -/
def State.sansStore (s : State) : State := { s.sansService with quads := State.reset.quads }

section
variable {s t : State}
theorem sansStore_of_sansService (h : t.sansService = s.sansService) : t.sansStore = s.sansStore := by
  rw [State.sansStore, h, State.sansStore]
theorem cur_of_sansStore (h : t.sansStore = s.sansStore) : t.cur = s.cur := by
  have := congrArg State.cur h
  exact this
end

section
variable (s : State)

theorem sansStore_spWrite (id o : Nat) (xs : List Byte) : (s.spWrite id o xs).sansStore = s.sansStore := by
  induction xs generalizing s o with
  | nil => rfl
  | cons x xs ih =>
    refine (ih (s.spPut id o x) (o + 1)).trans ?_
    unfold State.spPut
    split <;> rfl
theorem sansStore_writeLoc (l : Loc) (xs : List Byte) : (s.writeLoc l xs).sansStore = s.sansStore := by
  cases l with
  | sp b o => exact sansStore_spWrite s b o xs
  | pa | acc => rfl
theorem sansStore_mergeErrors (l : Loc) (n : Nat) : (s.mergeErrors l n).sansStore = s.sansStore := by
  cases l with
  | pa a => exact sansStore_of_sansService (sansService_of_sansTrace (sansTrace_mergeErrors s a n))
  | sp | acc => rfl
theorem sansStore_writeSite (core by_ : Option Nat) (l : Loc) (xs : List Byte) (hint : Nat) : (s.writeSite core by_ l xs hint).sansStore = s.sansStore := by
  have hcache {t u : State} (h : t.sansCache = u.sansCache) : t.sansStore = u.sansStore := sansStore_of_sansService (sansService_of_sansCache h)
  have hold (t : State) : (t.keepOld l xs.length).sansStore = t.sansStore := rfl
  show (State.writeLoc _ l xs).sansStore = _
  rw [sansStore_writeLoc, hold, hcache (sansCache_cacheStore _ _ _ _ _), sansStore_mergeErrors, hcache (sansCache_recallLines s l _)]

theorem sansStore_atomLane (core id op hint : Nat) (a : LaneAcc) (x c : W64) : (s.atomLane core id op hint a x c).1.sansStore = s.sansStore := by
  unfold State.atomLane
  split
  · rfl
  · dsimp only
    split
    · rfl
    · split
      · exact sansStore_writeSite s _ _ _ _ _
      · rfl
theorem sansStore_atomLanes (e : Env) (f : Fields) (as : List LaneAcc) : (s.atomLanes e f as).1.sansStore = s.sansStore := by
  induction as generalizing s with
  | nil => rfl
  | cons a as ih => exact (ih _).trans (sansStore_atomLane s _ _ _ _ _ _ _)
/-- Every lane keeps its old value. -/
theorem lanes_atomLanes (e : Env) (f : Fields) (as : List LaneAcc) : (s.atomLanes e f as).2.map Prod.fst = as.map LaneAcc.lane := by
  induction as generalizing s with
  | nil => rfl
  | cons a as ih => exact congrArg (a.lane :: ·) (ih _)
end

/-! ### The lanes of an atomic (06 R196, R206) -/

/-- What `atom` evaluates for each lane. -/
def atomArgs (e : Env) (f : Fields) : LaneArgs := { addr := e.w.atomicAddress f, b := e.w.atomicB f, c := e.w.atomicC f }

section
variable {s : State} {e : Env} {f : Fields} {as : List LaneAcc} (he : s.env = some e)
  (hr : Reached s e .atomic (atomShape f) (atomArgs e f) ((s.exec e.w f.ga f.gb).filter fun l => (e.w.lane l).got.isNone) as)
  (hwindow : e.w.spec.window = []) (hopen : e.w.remoteOpen = 0) (hhost : ∀ g ∈ allSegs as, (s.useSegs (allSegs as)).hostLine g.loc g.n = none)
include he hr hwindow hopen hhost

/-- An atomic whose lanes reach what they access, with nothing unfinished, performs as many of them as this move allows. -/
theorem atomic_of_reached : let r := (s.useSegs (allSegs as)).atomLanes e f (as.take (s.cur.quota + 1))
    let ex := s.exec e.w f.ga f.gb
    s.atomic f = if (as.take (s.cur.quota + 1)).length < as.length then r.1.keepGoing e as r.2
      else (r.1.finishLong e f.la (opDests 0x0E9 f) (ex.flatMap fun l => vWrites l f.d (loadWords false (obtained e.w r.2 l)))).tracedAt e ex 2 7 id
        fun l => addr54 (e.w.plannedVa l (e.w.atomicAddress f l)) := by
  intro r ex
  have hfar : (allSegs as).any Seg.far = false := List.any_eq_false.2 fun g hg => by rw [(hr.near g hg).1]; exact Bool.false_ne_true
  have hremote : (allSegs (as.take (s.cur.quota + 1))).any Seg.remote = false := List.any_eq_false.2 fun g hg => by
    obtain ⟨a, ha, hg⟩ := mem_allSegs.1 hg
    rw [remote_of_not_far (hr.near g (mem_allSegs.2 ⟨a, List.mem_of_mem_take ha, hg⟩)).1]
    exact Bool.false_ne_true
  have hidle : (!e.w.spec.window.isEmpty || e.w.remoteOpen != 0 || ((allSegs as).any Seg.far && !e.w.settled)) = false := by
    rw [hwindow, hopen, hfar]
    rfl
  rw [State.atomic, State.onWarp_of_env he]
  dsimp only
  refine (planned_of_reached hr _).trans ?_
  rw [State.ownLines, List.findSome?_eq_none_iff.2 hhost]
  dsimp only
  rw [laneError_useSegs hr]
  dsimp only
  cases as with
  | nil =>
    refine (if_pos rfl).trans ?_
    rw [List.take_nil, if_neg (Nat.lt_irrefl _)]
    unfold State.tracedAt
    cases hex : s.exec e.w f.ga f.gb <;> simp only [ex, hex] <;> rfl
  | cons a as =>
    rw [hidle, nextBatch_of_near hr.near, cur_useSegs, hremote]
    refine (if_neg Bool.false_ne_true).trans ((if_neg Bool.false_ne_true).trans ((if_neg Bool.false_ne_true).trans ?_))
    refine if_congr Iff.rfl rfl ?_
    unfold State.tracedAt
    cases hex : s.exec e.w f.ga f.gb <;> simp only [ex, hex] <;> rfl
end

/-! ### One atomic, and its table (06 R207) -/

section
variable {s : State} {core id op hint lane n a : Nat} {va x c : W64} {g : Seg} (hloc : g.loc = .pa a) (hregs : g.regs = false)
include hregs

theorem atomLane_of_mem : s.atomLane core id op hint ⟨lane, va, n, x, c, [g]⟩ x c =
    ((atomicBytes op (s.readLoc g.loc g.n) x c).elim s fun y => s.writeSite (some core) (some id) g.loc y hint, s.readLoc g.loc g.n) := by
  have hold : s.segBytes g = s.readLoc g.loc g.n := if_neg (by rw [hregs]; exact Bool.false_ne_true)
  unfold State.atomLane
  dsimp only
  rw [hold, hregs]
  cases atomicBytes op (s.readLoc g.loc g.n) x c <;> rfl

include hloc
/-- The new value goes to the place that the atomic names, and to no other byte. -/
theorem get_mem_atomLane (hwf : s.mem.wf = true) {y : List Byte} (hy : atomicBytes op (s.readLoc g.loc g.n) x c = some y) (hlen : y.length = g.n) (k : Nat) :
    (s.atomLane core id op hint ⟨lane, va, n, x, c, [g]⟩ x c).1.mem.get k = if a ≤ k ∧ k < a + g.n then y.getD (k - a) 0 else s.mem.get k := by
  rw [atomLane_of_mem hregs, hy, hloc]
  dsimp only [Option.elim]
  rw [mem_writeSite_pa, Mem.get_write hwf, hlen]
end

theorem atomicBytes_leBytes_four (op : Nat) (old x c : W32) :
    atomicBytes op (leBytes 4 old.toNat) (x.setWidth 64) (c.setWidth 64) = (atomic32 op old x c).map fun r => leBytes 4 r.toNat := by
  have hold : BitVec.ofNat 32 (leNat (leBytes 4 old.toNat)) = old := by
    rw [leNat_leBytes, Nat.mod_eq_of_lt (show old.toNat < 256 ^ 4 from old.isLt), BitVec.ofNat_toNat, BitVec.setWidth_eq]
  have hlow (v : W32) : lo32 (v.setWidth 64) = v := by simp [lo32]
  rw [atomicBytes, if_neg (by simp), hold, hlow, hlow]

section
variable (old x : W32)

theorem ofInt_min_toInt : BitVec.ofInt 32 (min old.toInt x.toInt) = if x.slt old then x else old := by
  by_cases h : x.toInt < old.toInt
  · rw [if_pos (BitVec.slt_iff_toInt_lt.2 h), Int.min_eq_right (by omega), BitVec.ofInt_toInt]
  · rw [if_neg (mt BitVec.slt_iff_toInt_lt.1 h), Int.min_eq_left (by omega), BitVec.ofInt_toInt]
theorem ofInt_max_toInt : BitVec.ofInt 32 (max old.toInt x.toInt) = if old.slt x then x else old := by
  by_cases h : old.toInt < x.toInt
  · rw [if_pos (BitVec.slt_iff_toInt_lt.2 h), Int.max_eq_right (by omega), BitVec.ofInt_toInt]
  · rw [if_neg (mt BitVec.slt_iff_toInt_lt.1 h), Int.max_eq_left (by omega), BitVec.ofInt_toInt]
theorem ofNat_min_toNat : BitVec.ofNat 32 (min old.toNat x.toNat) = if x.ult old then x else old := by
  by_cases h : x.toNat < old.toNat
  · rw [if_pos (BitVec.ult_iff_lt.2 h), Nat.min_eq_right h.le, BitVec.ofNat_toNat, BitVec.setWidth_eq]
  · rw [if_neg (mt BitVec.ult_iff_lt.1 h), Nat.min_eq_left (by omega), BitVec.ofNat_toNat, BitVec.setWidth_eq]
theorem ofNat_max_toNat : BitVec.ofNat 32 (max old.toNat x.toNat) = if old.ult x then x else old := by
  by_cases h : old.toNat < x.toNat
  · rw [if_pos (BitVec.ult_iff_lt.2 h), Nat.max_eq_right h.le, BitVec.ofNat_toNat, BitVec.setWidth_eq]
  · rw [if_neg (mt BitVec.ult_iff_lt.1 h), Nat.max_eq_left (by omega), BitVec.ofNat_toNat, BitVec.setWidth_eq]
end

/-- Settles O35: the lanes by the lane operations that `atom` makes, the write by what a write at a site leaves, the table operation by operation. -/
theorem atomicsComplete : Obligations.AtomicsComplete := by
  refine ⟨?lanes, fun s e f a as => rfl,
    fun s core id op hint lane n va x c g a hwf hloc hregs => ?one, fun old x c => ?table⟩
  case lanes =>
    intro i f hi s e as he ex wide addr args n hr hwindow hopen used hhost batch r
    have hcur : r.1.cur = s.cur := (cur_of_sansStore (sansStore_atomLanes used e f batch)).trans (cur_useSegs s _)
    have hrun : exec i s = .next (s.atomic f) := by obtain ⟨w, rfl, rfl⟩ | ⟨w, rfl, rfl⟩ := hi <;> rfl
    have hatom := hrun.trans (congrArg Host.Outcome.next (atomic_of_reached he hr hwindow hopen hhost))
    refine ⟨fun hpart => ⟨_, hatom.trans (congrArg Host.Outcome.next (if_pos hpart)), ?part⟩, fun hwhole => fun hroom =>
      ⟨_, longEnd_finishLong_over f hcur hroom, hatom.trans (congrArg Host.Outcome.next (if_neg (not_lt.2 hwhole.ge)))⟩⟩
    have hnodup : (r.2.map Prod.fst).Nodup := by
      rw [lanes_atomLanes]
      exact (((List.take_sublist _ as).map LaneAcc.lane).trans (sublist_lanes_of_planned hr.planned)).nodup ((s.nodup_exec _ _ _).filter _)
    have hdone := partDone_keepGoing r.1 e as hnodup
    rwa [act_of_cur hcur] at hdone
  case one =>
    refine ⟨congrArg Prod.snd (atomLane_of_mem hregs), fun y hy hlen => get_mem_atomLane hloc hregs hwf hy hlen, fun hnone => ?_⟩
    rw [atomLane_of_mem hregs, hnone]
    rfl
  case table =>
    simp only [atomicBytes_leBytes_four, ofInt_min_toInt, ofInt_max_toInt, ofNat_min_toNat, ofNat_max_toNat]
    refine ⟨rfl, rfl, rfl, rfl, rfl, rfl, rfl, rfl, rfl, rfl, ?cas, ?inc, ?dec⟩
    case cas => exact apply_ite (Option.map _) (old = c) (some x) none
    case inc => simp only [atomic32, atomicInt, BitVec.ult_eq_decide, decide_eq_true_eq, Option.map_some]
    case dec => simp only [atomic32, atomicInt, BitVec.ult_eq_decide, decide_eq_true_eq, Option.map_some]

end Sys2Proof.Machine

/-! PROOFS. Engine commands at issue (family 06_memory_and_engine_instructions.md). -/
namespace Sys2Proof.Machine

/-! ### What the send of a command leaves (06 R214, R215) -/

section
variable (s : State)

theorem clock_setGranules (block first count : Nat) (full : Bool) : (s.setGranules block first count full).clock = s.clock := by
  have hput (t : State) (g : Nat) : (t.putGranule block g full).clock = t.clock := by
    unfold State.putGranule
    split
    · rfl
    · split <;> rfl
  have hfold := foldl_keeps (g := State.clock) hput s ((List.range count).map (· + first))
  have hwake (t : State) : (if full then t.wakeGranules else t).clock = t.clock := by split <;> rfl
  have hboth {away : Bool} {t u : State} (ht : t.clock = s.clock) (hu : u.clock = s.clock) : (if away then t else u).clock = s.clock := by
    cases away
    · exact hu
    · exact ht
  unfold State.setGranules
  dsimp only
  rw [hwake]
  exact hboth hfold rfl
theorem clock_emptyRun (w : Who) (r : W64 × Nat) : (s.emptyRun w r).clock = s.clock := by
  unfold State.emptyRun
  split
  · rfl
  · split
    · exact clock_setGranules s _ _ _ _
    · rfl
theorem clock_emptyElems (w : Who) (c : EngCmd) (es : List (W64 × W64)) : (s.emptyElems w c es).clock = s.clock := by
  unfold State.emptyElems
  split
  · exact foldl_keeps (g := State.clock) (fun s e => clock_emptyRun s w _) s es
  · rfl
theorem sansService_useReads (hint : Nat) (gs : List Seg) : (s.useReads hint gs).sansService = s.sansService := by
  have hload (t : State) (g : Seg) : (t.homeLoad hint g.loc g.n).sansService = t.sansService := sansService_homeLoad t hint g.loc g.n
  exact (foldl_keeps (g := State.sansService) hload (s.useSegs gs) gs).trans (sansService_useSegs s gs)
theorem clock_of_sansService {s t : State} (h : t.sansService = s.sansService) : t.clock = s.clock := by
  have := congrArg State.clock h
  exact this
theorem clock_readList {w : Who} {c : EngCmd} {t : State} {es : List (W64 × W64)} (h : s.readList w c = .ok t es) : t.clock = s.clock := by
  unfold State.readList at h
  split at h
  · cases h
  · split at h
    · cases h
    · cases h
      exact clock_of_sansService (sansService_useReads s _ _)
theorem clock_finishLong (e : Env) (la : Nat) (ds : List Dest) (ws : List RegWrite) : (s.finishLong e la ds ws).clock = s.clock := by
  unfold State.finishLong
  dsimp only
  split
  · rfl
  · split <;> rfl

/-! ### A command is sent, or staged till it can be (06 R209, R214) -/

/-- A command in the engines' list. -/
def State.putCmd (s : State) (c : EngCmd) : State := { s with engines := s.engines ++ [{ c with sentAt := s.clock }] }

theorem mem_engines_putCmd {t : State} (h : t.clock = s.clock) (c : EngCmd) : { c with sentAt := s.clock } ∈ (t.putCmd c).engines := by
  rw [← h]
  exact List.mem_append_right _ List.mem_cons_self

/-- A sent command stands in the engines' list; a scatter's with its elements. -/
theorem mem_engines_sendCmd {c : EngCmd} (hlist : c.list = none) :
    ∃ es, { c with sentAt := s.clock, list := es } ∈ (s.sendCmd (.engine c)).engines ∧ (c.op ≠ .scatter → es = none) := by
  have hplain {t u : State} (ht : t.clock = s.clock) (hu : u = t.putCmd c) :
      ∃ es, { c with sentAt := s.clock, list := es } ∈ u.engines ∧ (c.op ≠ .scatter → es = none) :=
    ⟨none, by rw [hu, ← hlist]; exact mem_engines_putCmd s ht c, fun _ => rfl⟩
  unfold State.sendCmd
  dsimp only
  split
  · exact hplain rfl rfl
  · split
    · rename_i l _ _ hop
      split
      · rename_i t es hread
        exact ⟨some es, mem_engines_putCmd s ((clock_emptyElems t (c.who l) c es).trans (clock_readList s hread)) { c with list := some es }, fun h => absurd hop h⟩
      · exact hplain rfl rfl
    · split
      · exact hplain (clock_emptyRun s _ _) rfl
      · exact hplain rfl rfl
    · split
      · exact hplain (clock_emptyRun s _ _) rfl
      · exact hplain rfl rfl

theorem sendCmd_of_kept {c : EngCmd} (hdm : c.dm ≠ 2) (hop : c.op ≠ .scatter) : s.sendCmd (.engine c) = s.putCmd c := by
  unfold State.sendCmd
  dsimp only
  split
  · rfl
  · split
    · rename_i h
      exact absurd h hop
    · rw [if_neg hdm]
      rfl
    · rw [if_neg hdm]
      rfl
theorem sendWait_of_not_scatter {c : EngCmd} (hop : c.op ≠ .scatter) : s.sendWait (.engine c) = none := by
  unfold State.sendWait
  dsimp only
  split
  · rename_i h _
    exact absurd h hop
  · rfl
end

/-! ### A command issues (06 R209) -/

section
variable {s : State} {e : Env} {f : Fields} {c : EngCmd}

/-- What a command leaves of its instruction before it is sent: the warp has gone on and its channel counts one more. -/
def State.counted (s : State) (e : Env) (f : Fields) (ch : Nat) : State :=
  ({ s with ctr := { s.ctr with cmd := s.ctr.cmd + 1 } } : State).finishLong { e with w := e.w.countChan ch } f.la [] []

theorem longEnd_counted (h : e.w.longRoom [] []) (ch : Nat) :
    LongEnd { s with ctr := { s.ctr with cmd := s.ctr.cmd + 1 } } s { e with w := e.w.countChan ch } f [] [] (s.counted e f ch) :=
  longEnd_finishLong_over (S := { s with ctr := { s.ctr with cmd := s.ctr.cmd + 1 } }) (e := { e with w := e.w.countChan ch }) f rfl (h.of_eq rfl rfl)
theorem clock_counted (ch : Nat) : (s.counted e f ch).clock = s.clock := clock_finishLong _ _ _ _ _

variable (hset : e.w.settled = true) (hcount : (e.w.chans.getD c.ch ⟨0, false⟩).count < 64)
include hset hcount

theorem issueCmd_of_settled : s.issueCmd e f c = (s.counted e f c.ch).stageCmd true e.w.id (.engine c) := by
  have hroom : ¬ ((!e.w.cmdRoom || decide ((e.w.chans.getD c.ch ⟨0, false⟩).count ≥ 64)) = true) := by
    rw [Warp.cmdRoom, hset]
    simpa using hcount
  rw [State.issueCmd, if_neg hroom, hset]
  rfl
theorem issueCmd_of_sent (h : (s.counted e f c.ch).sendWait (.engine c) = none) : s.issueCmd e f c = (s.counted e f c.ch).sendCmd (.engine c) := by
  rw [issueCmd_of_settled hset hcount, State.stageCmd, h]
  rfl
theorem issueCmd_of_staged (h : (s.counted e f c.ch).sendWait (.engine c) ≠ none) : s.issueCmd e f c = (s.counted e f c.ch).modWarp e.w.id fun w =>
    { w with spec := { w.spec with cmds := w.spec.cmds ++ [.engine c], order := w.spec.order ++ [false] } } := by
  obtain ⟨t, ht⟩ := Option.ne_none_iff_exists'.1 h
  rw [issueCmd_of_settled hset hcount, State.stageCmd, ht]
  rfl
end

/-! ### The operands pass their checks (06 R212) -/

section
variable {f : Fields} {w : Warp} {a : W64} {bases : List W64} {al : Nat} {xs : List EngArg} {len : Option W64}

/-- The operands are the address, the bases and the length. -/
theorem argsBad_of_bases (ha : canonical a = true) (hal : a.toNat % al = 0) (hb : ∀ v ∈ bases, canonical v = true) (hb16 : ∀ v ∈ bases, v.toNat % 16 = 0)
    (hlen : ∀ n, len = some n → n.toNat % 16 = 0 ∧ n.toNat < 2 ^ 40)
    (hxs : xs ⊆ ⟨a, true, al⟩ :: bases.map EngArg.base ++ (len.map fun n => ⟨n, false, 16⟩).toList) : argsBad xs len = none := by
  have hcases {x : EngArg} (hx : x ∈ xs) : x = ⟨a, true, al⟩ ∨ (∃ v ∈ bases, x = EngArg.base v) ∨ ∃ n, len = some n ∧ x = ⟨n, false, 16⟩ := by
    simpa [or_assoc, eq_comm] using hxs hx
  refine argsBad_eq_none (fun x hx haddr => ?_) (fun x hx => ?_) fun n hn => (hlen n hn).2
  · obtain rfl | ⟨v, hv, rfl⟩ | ⟨n, _, rfl⟩ := hcases hx
    · exact ha
    · exact hb v hv
    · cases haddr
  · obtain rfl | ⟨v, hv, rfl⟩ | ⟨n, hn, rfl⟩ := hcases hx
    · exact hal
    · exact hb16 v hv
    · exact (hlen n hn).1

/-- The record address that a command of the extended form names. -/
def extRecords (f : Fields) (w : Warp) : List W64 := if f.mod / 8 % 2 = 1 then [w.s f.e] else []
theorem recArg_eq_map : recArg f w = (extRecords f w).map EngArg.base := by
  rw [recArg, Fields.recAddr, extRecords]
  split <;> rfl
theorem lengthArgs_subset (src : Bool) : [EngArg.base (w.s f.a)] ++ (if src then [EngArg.base (w.s f.b)] else []) ++ [(⟨w.s f.c, false, 16⟩ : EngArg)] ++ recArg f w ⊆
    (⟨w.s f.a, true, 16⟩ : EngArg) :: ((if src then [w.s f.b] else []) ++ extRecords f w).map EngArg.base ++ ((some (w.s f.c)).map fun n => (⟨n, false, 16⟩ : EngArg)).toList := by
  rw [recArg_eq_map]
  have hlast : (⟨w.s f.c, false, 16⟩ : EngArg) :: (extRecords f w).map EngArg.base ⊆ (extRecords f w).map EngArg.base ++ [⟨w.s f.c, false, 16⟩] :=
    (List.perm_append_comm (l₁ := [_])).subset
  cases src
  · exact List.cons_subset_cons _ hlast
  · exact List.cons_subset_cons _ (List.cons_subset_cons _ hlast)
theorem indexArgs_subset : [EngArg.base (w.s f.a), EngArg.base (w.s f.b), EngArg.base (w.s f.c)] ++ recArg f w ⊆
    ⟨w.s f.a, true, 16⟩ :: ([w.s f.b, w.s f.c] ++ extRecords f w).map EngArg.base ++ [] := by
  rw [recArg_eq_map, List.append_nil, List.map_append]
  exact List.Subset.refl _
theorem collectiveArgs_subset : ⟨w.s f.a, true, 64⟩ :: recArg f w ⊆ ⟨w.s f.a, true, 64⟩ :: (extRecords f w).map EngArg.base ++ [] := by
  rw [recArg_eq_map, List.append_nil]
  exact List.Subset.refl _
theorem recAddr_eq_head? : f.recAddr w = (extRecords f w).head? := by
  rw [Fields.recAddr, extRecords]
  split <;> rfl
end

/-! ### What an engine command leaves at issue -/

/-- A command instruction completes with its command sent or staged. -/
def IssuesCommand (i : Instr) (f : Fields) (op : EngOp) (s : State) (e : Env) (rec16 : List W64) (dm : Nat) : Prop :=
  let u := e.w.s
  let ch := f.mod % 8
  ∃ (c : EngCmd) (t : State),
    c.op = op ∧ c.warp = e.w.id ∧ c.launch = e.l.id ∧ c.block = e.b.id ∧ c.id = s.ctr.cmd ∧ c.ch = ch ∧ c.dm = dm ∧ c.phase = 0 ∧ c.a = u f.a ∧
    (op = .copy ∨ op = .gather ∨ op = .scatter ∨ op = .fill → c.b = u f.b ∧ c.c = u f.c) ∧ c.recAddr = rec16.head? ∧ c.imm = f.imm ∧
    LongEnd { s with ctr := { s.ctr with cmd := s.ctr.cmd + 1 } } s
      { e with w := { e.w with chans := modifyNth e.w.chans ch fun x => { x with count := x.count + 1 } } } f [] [] t ∧
    (op ≠ .scatter → t.sendWait (.engine c) = none) ∧
    (t.sendWait (.engine c) = none → exec i s = .next (t.sendCmd (.engine c)) ∧
      (∃ es, { c with sentAt := s.clock, list := es } ∈ (t.sendCmd (.engine c)).engines ∧ (op ≠ .scatter → es = none)) ∧
      (dm ≠ 2 → op ≠ .scatter → t.sendCmd (.engine c) = { t with engines := t.engines ++ [{ c with sentAt := s.clock }] })) ∧
    (t.sendWait (.engine c) ≠ none → exec i s = .next (t.modWarp e.w.id fun w =>
      { w with spec := { w.spec with cmds := w.spec.cmds ++ [.engine c], order := w.spec.order ++ [false] } }))

section
variable {i : Instr} {f : Fields} {op : EngOp} {s : State} {e : Env} {rec16 : List W64} {dm : Nat} {b c : W64}
  (hset : e.w.settled = true) (hcount : (e.w.chans.getD (f.mod % 8) ⟨0, false⟩).count < 64) (hroom : e.w.longRoom [] [])
  (hbc : op = .copy ∨ op = .gather ∨ op = .scatter ∨ op = .fill → b = e.w.s f.b ∧ c = e.w.s f.c)
  (hrun : exec i s = .next (s.issueCmd e f (e.command s f op (e.w.s f.a) b c rec16.head? f.chan dm)))
include hset hcount hroom hbc hrun

theorem issuesCommand_of_issueCmd : IssuesCommand i f op s e rec16 dm := by
  have hclock : (s.counted e f f.chan).clock = s.clock := clock_counted _
  refine ⟨e.command s f op (e.w.s f.a) b c rec16.head? f.chan dm, s.counted e f f.chan, rfl, rfl, rfl, rfl, rfl, rfl, rfl, rfl, rfl, hbc, rfl, rfl,
    longEnd_counted hroom f.chan, fun hop => sendWait_of_not_scatter _ hop, fun hsend => ⟨?_, ?_, fun hdm hop => ?_⟩, fun hstage => ?_⟩
  · exact hrun.trans (congrArg Host.Outcome.next (issueCmd_of_sent hset hcount hsend))
  · rw [← hclock]
    exact mem_engines_sendCmd _ rfl
  · rw [sendCmd_of_kept _ hdm hop, State.putCmd, hclock]
  · exact hrun.trans (congrArg Host.Outcome.next (issueCmd_of_staged hset hcount hstage))
end

/-! ### The drivers of the command instructions, their checks passed (06 R212) -/

section
variable {s : State} {e : Env} (he : s.env = some e) {f : Fields} {op : EngOp} (hne : s.exec e.w f.ga f.gb ≠ [])
include he hne

theorem lengthOp_of_passed {priv src : Bool} (hpriv : priv = true → e.l.hdr.privileged = true)
    (hargs : argsBad ([EngArg.base (e.w.s f.a)] ++ (if src then [EngArg.base (e.w.s f.b)] else []) ++ [⟨e.w.s f.c, false, 16⟩] ++ recArg f e.w) (some (e.w.s f.c)) = none)
    (hdest : s.destBad e.who (e.w.s f.a) (e.w.s f.c).toNat f.dm = none) (hdm : op = .mckpt → f.dm ≠ 2) : s.lengthOp f op priv src =
      s.issueCmd e f (e.command s f op (e.w.s f.a) (if op = .mckpt then 0 else e.w.s f.b) (e.w.s f.c) (extRecords f e.w).head? f.chan f.dm) := by
  obtain ⟨l, ls, hex⟩ := List.exists_cons_of_ne_nil hne
  rw [← recAddr_eq_head?]
  exact engineOp_of_passed he hex hpriv hargs ((if_neg fun h => hdm h.1 h.2).trans hdest)
theorem indexOp_of_passed {n : Nat}
    (hargs : argsBad ([EngArg.base (e.w.s f.a), EngArg.base (e.w.s f.b), EngArg.base (e.w.s f.c)] ++ recArg f e.w) none = none)
    (hdest : s.destBad e.who (e.w.s f.a) n f.dm = none) : s.indexOp f op n =
      s.issueCmd e f (e.command s f op (e.w.s f.a) (e.w.s f.b) (e.w.s f.c) (extRecords f e.w).head? f.chan f.dm) := by
  obtain ⟨l, ls, hex⟩ := List.exists_cons_of_ne_nil hne
  rw [← recAddr_eq_head?]
  exact engineOp_of_passed he hex (fun h => absurd h Bool.false_ne_true) hargs hdest
theorem collectiveOp_of_passed (hargs : argsBad (⟨e.w.s f.a, true, 64⟩ :: recArg f e.w) none = none) : s.collectiveOp f op =
    s.issueCmd e f (e.command s f op (e.w.s f.a) 0 0 (extRecords f e.w).head? f.chan f.dm) := by
  obtain ⟨l, ls, hex⟩ := List.exists_cons_of_ne_nil hne
  rw [← recAddr_eq_head?]
  exact engineOp_of_passed he hex (fun h => absurd h Bool.false_ne_true) hargs rfl
end

/-- The record address that `pub` names. -/
def pubRecords (f : Fields) (w : Warp) : List W64 := if f.bk = 2 then [w.s f.b] else []

theorem pub_of_passed {s : State} {e : Env} (he : s.env = some e) {w : Std} (hne : s.exec e.w (Fields.ofStd w).ga (Fields.ofStd w).gb ≠ [])
    (hargs : argsBad (⟨e.w.s (Fields.ofStd w).a, true, 64⟩ :: (pubRecords (.ofStd w) e.w).map EngArg.base) none = none) :
    exec (.pub w) s = .next (s.issueCmd e (.ofStd w)
      (e.command s (.ofStd w) .pub (e.w.s (Fields.ofStd w).a) 0 0 (pubRecords (.ofStd w) e.w).head? (Fields.ofStd w).chan 0)) := by
  obtain ⟨l, ls, hex⟩ := List.exists_cons_of_ne_nil hne
  have hhead : (pubRecords (.ofStd w) e.w).head? = if (Fields.ofStd w).bk = 2 then some (e.w.s (Fields.ofStd w).b) else none := by
    unfold pubRecords
    split <;> rfl
  have hmap : (pubRecords (.ofStd w) e.w).map EngArg.base = ((if (Fields.ofStd w).bk = 2 then some (e.w.s (Fields.ofStd w).b) else none).map EngArg.base).toList := by
    unfold pubRecords
    split <;> rfl
  rw [hmap] at hargs
  rw [hhead]
  exact congrArg Host.Outcome.next (engineOp_of_passed he hex (fun h => absurd h Bool.false_ne_true) hargs rfl)

/-- Settles O37: operands that stand their checks give a command, and each instruction sends or stages its command in the same way. -/
theorem engineCommandsIssue : Obligations.EngineCommandsIssue := by
  intro i f op hi s e he u rec16 bases size writes sized dm ch hne hpriv ha hb hal hb16 hlen hdest hmckpt hset hcount hroom
  have hissue {b c : W64} (hbc : op = .copy ∨ op = .gather ∨ op = .scatter ∨ op = .fill → b = e.w.s f.b ∧ c = e.w.s f.c)
      (hrun : exec i s = .next (s.issueCmd e f (e.command s f op (e.w.s f.a) b c rec16.head? f.chan dm))) : IssuesCommand i f op s e rec16 dm :=
    issuesCommand_of_issueCmd hset hcount hroom hbc hrun
  have hargs {al : Nat} {xs : List EngArg} {len : Option W64} (hal : (u f.a).toNat % al = 0)
      (hlen : ∀ n, len = some n → n.toNat % 16 = 0 ∧ n.toNat < 2 ^ 40)
      (hxs : xs ⊆ ⟨u f.a, true, al⟩ :: bases.map EngArg.base ++ (len.map fun n => ⟨n, false, 16⟩).toList) : argsBad xs len = none :=
    argsBad_of_bases ha hal hb hb16 hlen hxs
  have hlength (h : sized) : ∀ n, some (u f.c) = some n → n.toNat % 16 = 0 ∧ n.toNat < 2 ^ 40 := fun n hn => Option.some.inj hn ▸ hlen h
  have hnone : ∀ n : W64, none = some n → n.toNat % 16 = 0 ∧ n.toNat < 2 ^ 40 := fun n hn => nomatch hn
  have hplain : false = true → e.l.hdr.privileged = true := fun h => absurd h Bool.false_ne_true
  obtain ⟨w, rfl, ⟨rfl, rfl⟩ | ⟨rfl, rfl⟩ | ⟨rfl, rfl⟩ | ⟨rfl, rfl⟩ | ⟨rfl, rfl⟩ | ⟨rfl, rfl⟩ | ⟨rfl, rfl⟩⟩ | ⟨w, rfl, rfl, rfl⟩ := hi
  case inl.inl =>
    exact hissue (fun _ => ⟨rfl, rfl⟩) (congrArg Host.Outcome.next (lengthOp_of_passed he hne hplain
      (hargs hal (hlength (.inl rfl)) (lengthArgs_subset true)) (hdest (.inl (.inl rfl))) fun h => nomatch h))
  case inl.inr.inl =>
    exact hissue (fun _ => ⟨rfl, rfl⟩) (congrArg Host.Outcome.next (lengthOp_of_passed he hne hplain
      (hargs hal (hlength (.inr (.inl rfl))) (lengthArgs_subset false)) (hdest (.inl (.inr (.inl rfl)))) fun h => nomatch h))
  case inl.inr.inr.inl =>
    exact hissue (fun _ => ⟨rfl, rfl⟩) (congrArg Host.Outcome.next (indexOp_of_passed he hne
      (hargs hal hnone indexArgs_subset) (hdest (.inl (.inr (.inr (.inl rfl)))))))
  case inl.inr.inr.inr.inl =>
    exact hissue (fun _ => ⟨rfl, rfl⟩) (congrArg Host.Outcome.next (indexOp_of_passed he hne
      (hargs hal hnone indexArgs_subset) (hdest (.inl (.inr (.inr (.inr rfl)))))))
  case inl.inr.inr.inr.inr.inl =>
    exact hissue (fun h => absurd h (by decide)) (congrArg Host.Outcome.next (lengthOp_of_passed he hne (fun _ => hpriv rfl)
      (hargs hal (hlength (.inr (.inr rfl))) (lengthArgs_subset false)) (hdest (.inr rfl)) hmckpt))
  case inl.inr.inr.inr.inr.inr.inl =>
    exact hissue (fun h => absurd h (by decide)) (congrArg Host.Outcome.next (collectiveOp_of_passed he hne (hargs hal hnone collectiveArgs_subset)))
  case inl.inr.inr.inr.inr.inr.inr =>
    exact hissue (fun h => absurd h (by decide)) (congrArg Host.Outcome.next (collectiveOp_of_passed he hne (hargs hal hnone collectiveArgs_subset)))
  case inr => exact hissue (fun h => absurd h (by decide)) (pub_of_passed he hne (hargs hal hnone (List.subset_append_left _ _)))

end Sys2Proof.Machine

/-! PROOFS. The granules of a checkpoint start at its command's own target (family 06_memory_and_engine_instructions.md). -/
namespace Sys2Proof.Machine

/-! ### Runs of a range, each translated (01 R36; 06 R216) -/

section
variable {ε α β : Type} {f : α → Except ε β} {p : β → Prop}

theorem exists_mapM_ok {xs : List α} (h : ∀ x ∈ xs, ∃ y, f x = .ok y ∧ p y) : ∃ ys, xs.mapM f = .ok ys ∧ ∀ y ∈ ys, p y := by
  induction xs with
  | nil => exact ⟨[], rfl, fun y hy => absurd hy List.not_mem_nil⟩
  | cons x xs ih =>
    obtain ⟨y, hy, hp⟩ := h x List.mem_cons_self
    obtain ⟨ys, hys, hps⟩ := ih fun z hz => h z (List.mem_cons_of_mem x hz)
    refine ⟨y :: ys, ?_, fun z hz => (List.mem_cons.1 hz).elim (fun hz => hz ▸ hp) (hps z)⟩
    rw [List.mapM_cons, hy, hys]
    rfl
end

/-- The runs of a range that does not wrap begin inside it. -/
theorem toNat_lt_of_mem_runsOf {fuel : Nat} {va : W64} {n : Nat} (hn : va.toNat + n < 2 ^ 64) {r : W64 × Nat} (hr : r ∈ runsOf fuel va n) :
    r.1.toNat < va.toNat + n := by
  induction fuel generalizing va n with
  | zero => cases hr
  | succ fuel ih =>
    rw [runsOf] at hr
    split at hr
    · cases hr
    · rcases List.mem_cons.1 hr with rfl | hr
      · dsimp only
        omega
      · have hk : min n (4096 - va.toNat % 4096) ≤ n := Nat.min_le_left _ _
        generalize min n (4096 - va.toNat % 4096) = k at hr hk
        have hva : (va + BitVec.ofNat 64 k).toNat = va.toNat + k := by
          rw [BitVec.toNat_add, BitVec.toNat_ofNat]
          omega
        have := ih (by omega) hr
        omega

/-- An address of the lower half's first TiB is canonical and outside the window. -/
theorem canonical_of_low {va : W64} (h : va.toNat < 2 ^ 40) : canonical va = true ∧ inWindow va = false := by
  constructor
  · have hlow : va = (va.setWidth 57).signExtend 64 := by
      apply BitVec.eq_of_toNat_eq
      rw [BitVec.toNat_signExtend, BitVec.msb_eq_decide]
      simp only [BitVec.toNat_setWidth]
      rw [decide_eq_false (by omega)]
      simp
      omega
    exact beq_iff_eq.2 hlow
  · refine beq_eq_false_iff_ne.2 fun hwin => ?_
    have hhigh := congrArg BitVec.toNat hwin
    rw [BitVec.extractLsb'_toNat, Nat.shiftRight_eq_div_pow] at hhigh
    simp at hhigh
    omega

/-! ### A launch whose first TiB lies in host memory -/

/-- One lease covers the first TiB of the launch, and one extent maps it to host memory (11 R357). -/
def hostLaunch : Launch := { Launch.start 0 0 0 0 [] (programHeader false) .live with
  leases := [⟨0, 2 ^ 28, 3⟩], extents := [⟨0, 2 ^ 38, 2 ^ 28, 3, false, none⟩] }
/-- A checkpoint to an address. -/
def checkpointTo (a : W64) : EngCmd :=
  { id := 0, op := .mckpt, warp := 0, block := 0, launch := 0, core := 0, slot := 0, addr := 0, a := a, b := 0, c := 2 ^ 40, recAddr := none, ch := 0, dm := 0
    unz := false, imm := 0, hint := 0, list := none, left := none, image := [], stale := (0, 0), phase := 0, stat := 0, fva := 0, fin := 0, sentAt := 0, pub := none }
/-- After reset, with a checkpoint to address 16 outstanding. -/
def checkpointState : State := { State.reset with engines := [checkpointTo 16] }

/-- Every page of the first TiB is a page of host memory. -/
theorem isHost_page {n o : Nat} (hn : n < 2 ^ 28) (ho : o < 4096) :
    isHost ((2 ^ 38 + n) * 4096 + o) = true ∧ isFabric ((2 ^ 38 + n) * 4096 + o) = false ∧ isHbm ((2 ^ 38 + n) * 4096 + o) = false := by
  have hquot : ((2 ^ 38 + n) * 4096 + o) / 2 ^ 50 = 1 := by omega
  have hbit : ((2 ^ 38 + n) * 4096 + o) / 2 ^ 51 = 0 := by omega
  refine ⟨?_, ?_, decide_eq_false (Nat.not_lt.2 ?_)⟩
  · rw [isHost, bits, hquot]
    rfl
  · rw [isFabric, bits, hbit]
    rfl
  · show 2 ^ 39 ≤ _
    omega

theorem xlate_hostLaunch {va : W64} (h : va.toNat < 2 ^ 40) :
    ∃ m, checkpointState.xlate hostLaunch .write true false va = .ok m ∧ isHost m.pa = true := by
  have hpage : va.toNat / 4096 < 2 ^ 28 := by omega
  obtain ⟨hhost, hfabric, hhbm⟩ := isHost_page hpage (Nat.mod_lt va.toNat (by decide : 0 < 4096))
  have hacc : hostLaunch.leaseAcc (va.toNat / 4096) = some 3 := by
    have hfilter : ([⟨0, 2 ^ 28, 3⟩] : List Lease).filter (fun r => decide (r.first ≤ va.toNat / 4096 ∧ va.toNat / 4096 < r.first + r.count)) = [⟨0, 2 ^ 28, 3⟩] :=
      List.filter_cons_of_pos (decide_eq_true (by dsimp only; omega))
    exact (congrArg (List.foldl (fun acc (r : Lease) => some (acc.getD 0 ||| r.acc)) none) hfilter).trans rfl
  have hextent : hostLaunch.extent (va.toNat / 4096) = some ⟨0, 2 ^ 38, 2 ^ 28, 3, false, none⟩ :=
    List.find?_cons_of_pos (decide_eq_true (by dsimp only; omega))
  have hwalk : checkpointState.walk hostLaunch.hdr.pasid va = .error (.page 2) := rfl
  let m : Mapped := ⟨(2 ^ 38 + va.toNat / 4096) * 4096 + va.toNat % 4096, false, none, none, none, []⟩
  have hpopulated : checkpointState.populated ((2 ^ 38 + (va.toNat / 4096 - 0)) * 4096 + va.toNat % 4096) false = true := by
    unfold State.populated
    dsimp only
    rw [Nat.sub_zero, hfabric, hhost]
    rfl
  have hplace : checkpointState.extentPage hostLaunch .write false ⟨0, 2 ^ 38, 2 ^ 28, 3, false, none⟩ va = .ok m := by
    unfold State.extentPage State.place
    rw [hwalk]
    dsimp only [Option.isSome, Option.bind]
    rw [if_neg Bool.false_ne_true, hpopulated]
    rfl
  have hkey : checkpointState.keyed hostLaunch va m = .ok m := by
    unfold State.keyed State.keyOk
    rw [hhbm]
    rfl
  refine ⟨m, ?_, hhost⟩
  unfold State.xlate
  dsimp only
  rw [hacc, hextent]
  dsimp only
  rw [hplace]
  exact hkey

/-- The launch reaches the image of a checkpoint at its first address, in host memory. -/
theorem reach_hostLaunch (w : Who) (hw : w.launch = hostLaunch) :
    ∃ ws, checkpointState.reach w .write false 0 imageBytes = .ok ws ∧ ∀ g ∈ ws, ∃ a, g.loc = .pa a ∧ isHost a = true := by
  have hlen : imageBytes < 2 ^ 40 := by decide
  refine exists_mapM_ok fun r hr => ?_
  have hva : r.1.toNat < 2 ^ 40 := (toNat_lt_of_mem_runsOf (va := 0) (by simpa using hlen.trans (by decide)) hr).trans (by simpa using hlen)
  obtain ⟨hcanonical, hwindow⟩ := canonical_of_low hva
  obtain ⟨m, hm, hhost⟩ := xlate_hostLaunch hva
  refine ⟨m.seg r.1 r.2, ?_, m.pa, rfl, hhost⟩
  have hstep : checkpointState.stepWindow w .plain r = .ok none := by
    rw [State.stepWindow, hcanonical, hwindow]
    rfl
  rw [hstep]
  dsimp only
  unfold State.stepXlate
  dsimp only
  rw [hw, hm]

theorem reachDest_of_reach {s : State} {w : Who} {va : W64} {n : Nat} {ws : List Seg} (h : s.reach w .write false va n = .ok ws)
    (hpa : ∀ g ∈ ws, ∃ a, g.loc = .pa a) : s.reachDest w 0 [(va, n)] = .ok ws := by
  have hranges : ([(va, n)].mapM fun r : W64 × Nat => s.reach w .write (0 == 1) r.1 r.2) = .ok [ws] := by
    rw [List.mapM_cons, List.mapM_nil]
    show (s.reach w .write false va n >>= _) = _
    rw [h]
    rfl
  unfold State.reachDest
  rw [hranges]
  dsimp only
  rw [List.flatten_singleton, List.find?_eq_none.2 fun g hg => ?_]
  obtain ⟨a, ha⟩ := hpa g hg
  rw [ha]
  exact Bool.false_ne_true

/-! ### The event of a checkpoint (06 R231) -/

/-- The image is taken in one event, and the granules of the command are then left to write: its own, from the engines' list. -/
theorem engData_mckpt_takes {s : State} {c : EngCmd} {l : Launch} (hop : c.op = .mckpt) (hleft : c.left = none) (hlen : imageBytes ≤ c.c.toNat) {ws : List Seg}
    (hidle : s.checkpointing = none) (hdest : s.reachDest (c.who l) 0 [(c.a, imageBytes)] = .ok ws)
    (hfar : ∀ g ∈ ws, ∃ a, g.loc = .pa a ∧ (isHost a = true ∨ isFabric a = true)) (herr : s.errorAt (.pa 0) Config.hbmBytes = none) :
    s.engData c l = .wait ({ s.readWhole with checkpointing := some c.id, ctr := { s.ctr with images := s.ctr.images + 1 } }.modCmd c.id fun x =>
      { x with image := s.image, left := some (rangeGranules 0 x.a imageBytes) }) := by
  have hne : c.c.toNat ≠ 0 := by
    unfold imageBytes at hlen
    omega
  unfold State.engData
  rw [hop, hleft]
  dsimp only
  rw [if_neg hne, hidle, if_neg (Nat.not_lt.2 hlen)]
  refine (if_neg Bool.false_ne_true).trans ?_
  unfold State.takeImage
  rw [hdest]
  dsimp only
  rw [List.find?_eq_none.2 fun g hg => ?_]
  · dsimp only
    rw [herr]
  · obtain ⟨a, hloc, hplace⟩ := hfar g hg
    rw [hloc]
    rcases hplace with h | h <;> simp [h]

/-- Granules of a range begin at its address. -/
theorem dst_of_rangeGranules_eq {a b : W64} {n : Nat} (hn : 16 ≤ n) (h : rangeGranules 0 a n = rangeGranules 0 b n) : a = b := by
  have hfirst (x : W64) : ((rangeGranules 0 x n).head?.map Granule.dst) = some x := by
    rw [rangeGranules, List.head?_map, List.head?_range, if_neg (by omega)]
    simp
  exact Option.some.inj ((hfirst a).symm.trans ((congrArg (fun gs => gs.head?.map Granule.dst) h).trans (hfirst b)))

/-- Refutes O59: its second statement speaks of any command `c`, also of one that is not the command of its number in the engines' list. The checkpoint to
address 0 takes the image, and what is then left for the command of its number, a checkpoint to address 16, is that command's own granules, not those from 0. -/
theorem not_engineCommandsRun : ¬ Obligations.EngineCommandsRun := by
  rintro ⟨-, hdata, -⟩
  obtain ⟨-, -, -, -, -, -, -, -, -, -, -, hckpt⟩ := hdata checkpointState (checkpointTo 0) hostLaunch
  have hlen : imageBytes ≤ (checkpointTo 0).c.toNat := by decide
  obtain ⟨ws, hreach, hhost⟩ := reach_hostLaunch ((checkpointTo 0).who hostLaunch) rfl
  have hdest := reachDest_of_reach hreach fun g hg => (hhost g hg).imp fun _ => And.left
  have hfar : ∀ g ∈ ws, ∃ a, g.loc = .pa a ∧ (isHost a = true ∨ isFabric a = true) := fun g hg => (hhost g hg).imp fun _ h => ⟨h.1, .inl h.2⟩
  obtain ⟨t, hwait, -, -, hleft⟩ := (hckpt ws rfl rfl hlen).2 rfl hdest hfar rfl
  have htakes := engData_mckpt_takes (s := checkpointState) (c := checkpointTo 0) rfl rfl hlen rfl hdest hfar rfl
  cases hwait.symm.trans htakes
  obtain ⟨-, hgranules⟩ := hleft _ List.mem_cons_self rfl
  have haddr : (16 : W64) = 0 := dst_of_rangeGranules_eq (by decide) (Option.some.inj hgranules)
  exact absurd haddr (by decide)

end Sys2Proof.Machine

/-! PROOFS. The control instructions of a matrix stream (family 07_matrix_and_neural_instructions.md; R233). -/
namespace Sys2Proof.Machine

section
variable {w : Std} {s : State} {e : SEnv} (hs : s.cur.stream = true) (he : s.senv = some e)
include hs he

theorem exec_nop_stream : exec (.nop w) s = .next (s.putStream e.b.id (e.x.advance s.cur)) := by
  show execNop w s = _
  rw [execNop, if_pos hs, State.onStream_of_senv he]
theorem exec_exit_stream :
    exec (.exit w) s = .next (((s.putStream e.b.id { e.x.advance s.cur with exited := true }).checkDeadlock e.b.id).settleBlock e.b.id) := by
  show execExit w s = _
  rw [execExit, if_pos hs, State.onStream_of_senv he]

variable {b : Bar} (hb : e.b.bars[(Fields.ofStd w).a]? = some b)
include hb

theorem exec_barInit_stream (hfree : b.ready = false ∨ b.a = 0) (h0 : 0 < barCount (.ofStd w) e.x.reg) (hmax : barCount (.ofStd w) e.x.reg ≤ 65535) :
    exec (.barInit w) s = .next ((s.putStream e.b.id (e.x.advance s.cur)).modBlock e.b.id fun x =>
      { x with bars := e.b.bars.set (Fields.ofStd w).a ⟨true, (barCount (.ofStd w) e.x.reg).toNat, 0, b.phase⟩ }) := by
  show execBarInit w s = _
  simp only [execBarInit, hs, if_true, State.onStream_of_senv he, barInit_of_free hb hfree h0 hmax]
theorem exec_barArrive_stream (hr : b.ready = true) (hlt : b.a < b.e) : exec (.barArrive w) s = .next ((s.putStream e.b.id
      { e.x.advance s.cur with tokens := e.x.tokens.set (Fields.ofStd w).a b.phase }).arrive e.b.id (Fields.ofStd w).a 1) := by
  show execBarArrive w s = _
  simp only [execBarArrive, hs, if_true, State.onStream_of_senv he, barBad_of_room (n := 1) hb hr hlt, barPhase_eq hb]
theorem exec_barWait_stream (hr : b.ready = true) (hle : b.a ≤ b.e) :
    exec (.barWait w) s = .next (if b.phase = e.x.tokens.getD (Fields.ofStd w).a false then
        (s.putStream e.b.id { e.x with wait := .bar (Fields.ofStd w).a (e.x.tokens.getD (Fields.ofStd w).a false) }).checkDeadlock e.b.id
      else s.putStream e.b.id (e.x.advance s.cur)) := by
  show execBarWait w s = _
  simp only [execBarWait, hs, if_true, State.onStream_of_senv he, barBad_of_room (n := 0) hb hr hle, barPhase_eq hb]
theorem exec_barSync_stream (hr : b.ready = true) (hlt : b.a < b.e) : exec (.barSync w) s = .next (((s.putStream e.b.id
      { e.x with wait := .bar (Fields.ofStd w).a b.phase }).arrive e.b.id (Fields.ofStd w).a 1).checkDeadlock e.b.id) := by
  show execBarSync w s = _
  simp only [execBarSync, hs, if_true, State.onStream_of_senv he, barBad_of_room (n := 1) hb hr hlt, barPhase_eq hb]
end

/-- Settles O26: each instruction by the equation of its execution in a stream. -/
theorem streamControl : Obligations.StreamControl := by
  intro w s e hs he f k past count
  have hcount : barCount f e.x.reg = count := barCount_eq f e.x.reg
  refine ⟨exec_nop_stream hs he, exec_exit_stream hs he, fun b hb => ⟨fun hfree h0 hmax => ?init, fun hr hlt =>
    ⟨exec_barArrive_stream hs he hb hr hlt, exec_barSync_stream hs he hb hr hlt⟩, fun hr hle => ⟨fun hne => ?passes, fun heq => ?waits⟩⟩⟩
  case init =>
    rw [← hcount] at h0 hmax ⊢
    exact exec_barInit_stream hs he hb hfree h0 hmax
  case passes => exact (exec_barWait_stream hs he hb hr hle).trans (congrArg _ (if_neg hne))
  case waits =>
    rw [exec_barWait_stream hs he hb hr hle, heq]
    exact congrArg _ (if_pos rfl)

end Sys2Proof.Machine

/-! PROOFS. Reservations of accumulator slots, and the wait for outstanding operations (family 07_matrix_and_neural_instructions.md; R239, R240, R253). -/
namespace Sys2Proof.Machine

/-! ### Slots -/

theorem mem_slotsOf {mask : W32} {i : Nat} : i ∈ slotsOf mask ↔ i < 32 ∧ mask.getLsbD i = true := by
  simp [slotsOf]

theorem mem_heldSlots {s : State} {block i : Nat} : i ∈ s.heldSlots block ↔ ∃ q a, (q, i, a) ∈ s.quads.acc ∧ a.owner = some block := by
  simp [State.heldSlots]

/-- The slots of a block after some have been released. -/
theorem mem_heldSlots_releaseSlots {s : State} {block i : Nat} {slots : List Nat} :
    i ∈ (s.releaseSlots block slots).heldSlots block ↔ i ∈ s.heldSlots block ∧ i ∉ slots := by
  have hacc : (s.releaseSlots block slots).quads.acc = s.quads.acc.filter fun a => !(a.2.2.owner == some block && slots.contains a.2.1) := rfl
  rw [mem_heldSlots, hacc, mem_heldSlots]
  constructor
  · rintro ⟨q, a, hmem, hown⟩
    obtain ⟨hmem, hkeep⟩ := List.mem_filter.1 hmem
    exact ⟨⟨q, a, hmem, hown⟩, by simpa [hown] using hkeep⟩
  · rintro ⟨⟨q, a, hmem, hown⟩, hout⟩
    exact ⟨q, a, List.mem_filter.2 ⟨hmem, by simp [hout]⟩, hown⟩

section
variable (s : State) (quad block : Nat) (mask : W32)

/-- The slots of a mask that a block does not hold yet. -/
def State.newSlots : List Nat := (slotsOf mask).filter fun i => !(s.heldSlots block).contains i

theorem acc_takeSlots : (s.takeSlots quad block mask).quads.acc =
    (s.quads.acc.filter fun a => !(a.1 == quad && (s.newSlots block mask).contains a.2.1)) ++
      (s.newSlots block mask).map fun i => (quad, i, (⟨some block, [], []⟩ : AccSlot)) := rfl

variable {s block mask} {i : Nat}
theorem mem_newSlots (hi : i < 32) (hmask : mask.getLsbD i = true) (h : i ∉ s.heldSlots block) : i ∈ s.newSlots block mask :=
  List.mem_filter.2 ⟨mem_slotsOf.2 ⟨hi, hmask⟩, by simpa using h⟩
theorem not_mem_newSlots (h : i ∈ s.heldSlots block) : i ∉ s.newSlots block mask := fun hnew => by
  simpa [h] using (List.mem_filter.1 hnew).2

theorem mem_heldSlots_takeSlots (hi : i < 32) (hmask : mask.getLsbD i = true) : i ∈ (s.takeSlots quad block mask).heldSlots block := by
  rw [mem_heldSlots, acc_takeSlots]
  by_cases h : i ∈ s.heldSlots block
  · obtain ⟨q, a, hmem, hown⟩ := mem_heldSlots.1 h
    exact ⟨q, a, List.mem_append_left _ (List.mem_filter.2 ⟨hmem, by simp [not_mem_newSlots h]⟩), hown⟩
  · exact ⟨quad, _, List.mem_append_right _ (List.mem_map_of_mem (mem_newSlots hi hmask h)), rfl⟩

/-- The slot found under a number that is taken anew. -/
theorem find_takeSlots (hnew : i ∈ s.newSlots block mask) :
    ((s.takeSlots quad block mask).quads.acc.find? fun a => a.1 == quad && a.2.1 == i) = some (quad, i, ⟨some block, [], []⟩) := by
  rw [acc_takeSlots, List.find?_append, List.find?_eq_none.2 ?gone, Option.none_or, List.find?_map]
  case gone =>
    intro a ha hkey
    simp only [Bool.and_eq_true, beq_iff_eq] at hkey
    have hkeep := (List.mem_filter.1 ha).2
    simp [hkey, hnew] at hkeep
  cases hfind : (s.newSlots block mask).find? _ with
  | none => simpa using List.find?_eq_none.1 hfind i hnew
  | some j =>
    have hj := List.find?_some hfind
    simp only [Function.comp_apply, beq_self_eq_true, Bool.true_and, beq_iff_eq] at hj
    rw [hj]
    rfl
end

theorem Mem.read_nil (a n : Nat) : Mem.read [] a n = List.replicate n 0 := by
  simp [Mem.read, Mem.get, List.map_const']

/-! ### mrel: what it releases (R240) -/

/-- The slots of a mask that a block holds. -/
def State.heldOf (s : State) (block : Nat) (mask : W32) : List Nat := (slotsOf mask).filter (s.heldSlots block).contains
/-- Those of them that nothing uses. -/
def State.unused (s : State) (quad block : Nat) (mask : W32) : List Nat :=
  (s.heldOf block mask).filter fun i => (s.slotOps block i).isEmpty && !s.slotStores quad i
/-- They are released. -/
def State.releaseUnused (s : State) (quad block : Nat) (mask : W32) : State :=
  if (s.unused quad block mask).isEmpty then s else s.releaseSlots block (s.unused quad block mask)

section
variable {s : State} {quad block : Nat} {mask : W32}

theorem mem_unused {i : Nat} : i ∈ s.unused quad block mask ↔
    i ∈ s.heldOf block mask ∧ ¬(s.slotOps block i ≠ [] ∨ s.slotStores quad i = true) := by
  simp [State.unused, List.mem_filter, not_or]

theorem mem_heldSlots_releaseUnused {i : Nat} : i ∈ (s.releaseUnused quad block mask).heldSlots block ↔
    i ∈ s.heldSlots block ∧ i ∉ s.unused quad block mask := by
  unfold State.releaseUnused
  split
  · rename_i h
    simp [List.isEmpty_iff.1 h]
  · exact mem_heldSlots_releaseSlots
end

section
variable {w : Std} {s : State} {e : SEnv} (he : s.senv = some e)
include he

theorem exec_mrel : let f := Fields.ofStd w
    let quad := quadOf e.b.core
    let mask := lo32 (e.x.reg f.b)
    exec (.mrel w) s = .next (let t := s.releaseUnused quad e.b.id mask
      if (s.unused quad e.b.id mask).length = (s.heldOf e.b.id mask).length then t.putStream e.b.id (e.x.advance t.cur) else t.stallStream e) := by
  show execMrel w s = _
  rw [execMrel, State.onStream_of_senv he]
  rfl
theorem exec_mwait : exec (.mwait w) s = .next (if countIf (fun o => o.block == e.b.id) s.quads.ops ≤ ((Fields.ofStd w).uniB e.x.reg).toNat then
    s.putStream e.b.id (e.x.advance s.cur) else s.stallStream e) := by
  show execMwait w s = _
  rw [execMwait, State.onStream_of_senv he]
theorem exec_mres : let f := Fields.ofStd w
    let quad := quadOf e.b.core
    let mask := lo32 (e.x.reg f.b)
    exec (.mres w) s = .next (
      if s.maskFree quad e.b.id mask && !s.behindWaiter quad e.b.id mask then
        (s.takeSlots quad e.b.id mask).putStream e.b.id ((e.x.setReg f.d (mask.setWidth 64)).advance s.cur)
      else if f.mod % 2 = 1 ∨ s.heldSlots e.b.id ≠ [] then s.putStream e.b.id ((e.x.setReg f.d 0).advance s.cur)
      else (if s.quads.waiters.any fun w => w.2.1 == e.b.id then s
        else { s with quads := { s.quads with waiters := s.quads.waiters ++ [(quad, e.b.id, mask)] } }).putStream e.b.id { e.x with wait := .mres mask }) := by
  show execMres w s = _
  rw [execMres, State.onStream_of_senv he]
  rfl
end

theorem cur_releaseUnused (s : State) (quad block : Nat) (mask : W32) : (s.releaseUnused quad block mask).cur = s.cur := by
  unfold State.releaseUnused
  split <;> rfl

/-- Settles O40: each instruction by the equation of its execution; what is held after a release or a reservation is read off the list of slots. -/
theorem matrixReservations : Obligations.MatrixReservations := by
  refine ⟨fun w s e he => ⟨fun hfree hfirst => ?takes, fun hbusy hno => ?answers0, fun hbusy htry hnone => ?waits, ?mrel,
    fun hle => (exec_mwait he).trans (congrArg _ (if_pos hle)), fun hlt => (exec_mwait he).trans (congrArg _ (if_neg (Nat.not_le.2 hlt)))⟩,
    fun s quad block mask i hi hmask => ⟨mem_heldSlots_takeSlots quad hi hmask, fun hnot n => ?zeros⟩⟩
  case takes =>
    refine (exec_mres he).trans (congrArg _ (if_pos ?_))
    rw [hfree, hfirst]
    rfl
  case answers0 =>
    refine (exec_mres he).trans (congrArg _ ((if_neg ?_).trans (if_pos hno)))
    rw [hbusy]
    exact Bool.false_ne_true
  case waits =>
    refine ⟨_, (exec_mres he).trans (congrArg _ ((if_neg ?_).trans (if_neg ?_))), ?_⟩
    · rw [hbusy]
      exact Bool.false_ne_true
    · rintro (h | h)
      · omega
      · exact h hnone
    · split <;> rfl
  case mrel =>
    intro busy waits
    let quad := quadOf e.b.core
    let mask := lo32 (e.x.reg (Fields.ofStd w).b)
    have hheldOf {i : Nat} : i ∈ s.heldOf e.b.id mask ↔ (i < 32 ∧ mask.getLsbD i = true) ∧ i ∈ s.heldSlots e.b.id := by
      rw [State.heldOf, List.mem_filter, mem_slotsOf, List.contains_iff_mem]
    have hlt {i : Nat} (h : mask.getLsbD i = true) : i < 32 := BitVec.lt_of_getLsbD h
    have hall : (s.unused quad e.b.id mask).length = (s.heldOf e.b.id mask).length ↔ ¬waits := by
      rw [State.unused, List.length_filter_eq_length_iff]
      constructor
      · rintro h ⟨i, hheld, hmask, hbusy⟩
        exact (mem_unused.1 (List.mem_filter.2 ⟨hheldOf.2 ⟨⟨hlt hmask, hmask⟩, hheld⟩, h i (hheldOf.2 ⟨⟨hlt hmask, hmask⟩, hheld⟩)⟩)).2 hbusy
      · intro h i hi
        obtain ⟨⟨-, hmask⟩, hheld⟩ := hheldOf.1 hi
        exact (List.mem_filter.1 (mem_unused.2 ⟨hi, fun hbusy => h ⟨i, hheld, hmask, hbusy⟩⟩)).2
    refine ⟨s.releaseUnused quad e.b.id mask, fun i => ?_, fun h => ?_, fun h => ?_⟩
    · rw [mem_heldSlots_releaseUnused, mem_unused, hheldOf]
      refine and_congr_right fun hheld => ?_
      cases hmask : mask.getLsbD i with
      | false => simp
      | true => simp [hheld, hlt hmask, busy]; tauto
    · exact (exec_mrel he).trans (congrArg _ (if_neg fun hlen => hall.1 hlen h))
    · refine (exec_mrel he).trans (congrArg _ ((if_pos (hall.2 h)).trans ?_))
      rw [cur_releaseUnused]
      rfl
  case zeros =>
    have hfind := find_takeSlots quad (mem_newSlots hi hmask hnot)
    simp only [State.readLoc, Nat.mul_div_cancel i (by decide : 0 < 65536), hfind]
    exact Mem.read_nil _ n

end Sys2Proof.Machine

/-! PROOFS. The operations of a matrix stream enter the reservation table (family 07_matrix_and_neural_instructions.md; R238, R243 to R247, R252). -/
namespace Sys2Proof.Machine

/-! ### Records that are read and checked (07 R243) -/

section
variable {s : State} {e : SEnv} {slot : Nat} {va : W64} {ga : List Seg}

theorem withRoom_of_room (he : s.senv = some e) (hroom : s.tableRoom (quadOf e.b.core) = true) (k : SEnv → State) : s.withRoom k = k e := by
  rw [State.withRoom, State.onStream_of_senv he, if_pos hroom]

theorem streamRecord_of_reached {n : Nat} (hreach : s.reachRead e.who va n = .ok ga) (hprep : s.agentPrep e.who ga [] = none) (k : Nat → State → State) :
    s.streamRecord e va n k = k (leNat (s.reachBytes e.who ga)) (s.useReads 0 ga) := by
  simp only [State.streamRecord, hreach, hprep]

variable (hva : canonical va = true) (hreach : s.reachRead e.who va 64 = .ok ga) (hprep : s.agentPrep e.who ga [] = none)
include hva hreach hprep

theorem tileRecords_of_shape (hgood : tileBad ((s.useReads 0 ga).holdsSlot e.b.id slot) va (leNat (s.reachBytes e.who ga)) none = none)
    (k : Nat → Nat → State → State) : s.tileRecords e slot va none k = k (leNat (s.reachBytes e.who ga)) 0 (s.useReads 0 ga) := by
  simp only [State.tileRecords, Option.toList_none, List.find?_cons, List.find?_nil, hva, Bool.not_true, streamRecord_of_reached hreach hprep,
    Option.map_none, hgood]

theorem tileRecords_of_prologue {pa : W64} {gp : List Seg} (hpa : canonical pa = true) (hreach' : (s.useReads 0 ga).reachRead e.who pa 32 = .ok gp)
    (hprep' : (s.useReads 0 ga).agentPrep e.who gp [] = none)
    (hgood : tileBad (((s.useReads 0 ga).useReads 0 gp).holdsSlot e.b.id slot) va (leNat (s.reachBytes e.who ga))
      (some (pa, leNat ((s.useReads 0 ga).reachBytes e.who gp))) = none) (k : Nat → Nat → State → State) :
    s.tileRecords e slot va (some pa) k =
      k (leNat (s.reachBytes e.who ga)) (leNat ((s.useReads 0 ga).reachBytes e.who gp)) ((s.useReads 0 ga).useReads 0 gp) := by
  simp only [State.tileRecords, Option.toList_some, List.find?_cons, List.find?_nil, hva, hpa, Bool.not_true, streamRecord_of_reached hreach hprep,
    streamRecord_of_reached hreach' hprep', Option.map_some, hgood]
end

/-! ### The operations (07 R245, R247, R252) -/

section
variable {s : State} {e : SEnv} (he : s.senv = some e) (hroom : s.tableRoom (quadOf e.b.core) = true)
include he hroom

theorem exec_mzero {w : Std} : let slot := (Fields.ofStd w).d % 32
    exec (.mzero w) s = .next (if s.holdsSlot e.b.id slot then s.enterOp e slot .mzero else s.raiseStream e (shapeTrap 9 slot 0)) := by
  show execMzero w s = _
  rw [execMzero, withRoom_of_room he hroom]

variable {w : Ext} (hheld : s.holdsSlot e.b.id ((Fields.ofExt w).d % 32) = true)
  (hwindow : windowBad (e.x.reg (Fields.ofExt w).a) (e.x.reg (Fields.ofExt w).b) (e.x.reg (Fields.ofExt w).c) ((Fields.ofExt w).mod % 32) = none)
include hheld hwindow

theorem exec_mwrite : let f := Fields.ofExt w
    exec (.mwrite w) s = .next (s.enterOp e (f.d % 32) (.mwrite (e.x.reg f.a) (e.x.reg f.b) (e.x.reg f.c) (f.mod % 32))) := by
  show execMwrite w s = _
  simp only [execMwrite, withRoom_of_room he hroom, hheld, Bool.not_true, Bool.false_eq_true, if_false, hwindow]

theorem exec_mread (hdest : ∀ x ∈ windowRows (e.x.reg (Fields.ofExt w).a) (e.x.reg (Fields.ofExt w).b) (e.x.reg (Fields.ofExt w).c) ((Fields.ofExt w).mod % 32),
    s.destBad e.who x.1 x.2 ((Fields.ofExt w).mod / 32) = none) : let f := Fields.ofExt w
    let (a, b, c, ty, dm) := (e.x.reg f.a, e.x.reg f.b, e.x.reg f.c, f.mod % 32, f.mod / 32)
    let t := s.enterOp e (f.d % 32) (.mread a b c ty dm (f.mhi % 8) (f.mhi / 8 % 2 = 1))
    exec (.mread w) s = .next (if dm = 2 then (windowRows a b c ty).foldl (fun t x => t.emptyRun e.who x) t else t) := by
  show execMread w s = _
  simp only [execMread, withRoom_of_room he hroom, hheld, Bool.not_true, Bool.false_eq_true, if_false, hwindow, List.findSome?_eq_none_iff.2 hdest]
end

section
variable {s : State} {e : SEnv} (he : s.senv = some e) (w : Ext)
include he

theorem exec_mshape : let f := Fields.ofExt w
    exec (.mshape w) s = .next (s.tileRecords e (f.d % 32) (recordAt f e.x) (if f.mod % 2 = 1 then some (e.x.reg f.c) else none)
      fun _ _ s => s.passStream e) := by
  show execMshape w s = _
  rw [execMshape, State.onStream_of_senv he]

variable (hroom : s.tableRoom (quadOf e.b.core) = true)
include hroom
theorem exec_mmac : let f := Fields.ofExt w
    exec (.mmac w) s = .next (s.tileRecords e (f.d % 32) (recordAt f e.x) none fun r _ s => s.enterOp e (f.d % 32) (.mmac (recordAt f e.x) r)) := by
  show execMmac w s = _
  rw [execMmac, withRoom_of_room he hroom]
theorem exec_mprol : let f := Fields.ofExt w
    exec (.mprol w) s = .next (s.tileRecords e (f.d % 32) (recordAt f e.x) (some (e.x.reg f.c))
      fun r p s => s.enterOp e (f.d % 32) (.mprol (recordAt f e.x) r p)) := by
  show execMprol w s = _
  rw [execMprol, withRoom_of_room he hroom]
end

/-- The stream of a block goes on as an operation of it enters the table. -/
theorem block?_enterOp {s : State} {e : SEnv} (hb : s.block? e.b.id = some e.b) (slot : Nat) (k : AnvilKind) :
    (s.enterOp e slot k).block? e.b.id = some { e.b with stream := some (e.x.advance s.cur) } :=
  (block?_modBlock s e.b.id (f := fun b => { b with stream := some (e.x.advance s.cur) }) fun _ => rfl).trans (congrArg _ hb)

/-- Settles O41: each instruction by the equation of its execution, its checks passed; what enters the table is read off `enterOp`. -/
theorem matrixOperationsIssue : Obligations.MatrixOperationsIssue := by
  refine ⟨fun w s e he hroom => ⟨fun hheld => (exec_mzero he hroom).trans (congrArg _ (if_pos hheld)),
      fun hfree => (exec_mzero he hroom).trans (congrArg _ (if_neg (hfree ▸ Bool.false_ne_true)))⟩,
    fun w s e ga gp he hva hreach hprep => ⟨fun hgood => ⟨fun hroom => ?mmac, fun hmod => ?mshape⟩,
      fun hpa hreach' hprep' hgood => ⟨fun hroom => ?mprol, fun hmod => ?mshapeProl⟩⟩,
    fun w s e he hroom hheld hwindow => ⟨exec_mwrite he hroom hheld hwindow, exec_mread he hroom hheld hwindow⟩,
    fun s e slot k hb => ⟨rfl, rfl, rfl, rfl, block?_enterOp hb slot k⟩⟩
  case mmac => exact (exec_mmac he w hroom).trans (congrArg _ (tileRecords_of_shape hva hreach hprep hgood _))
  case mprol => exact (exec_mprol he w hroom).trans (congrArg _ (tileRecords_of_prologue hva hreach hprep hpa hreach' hprep' hgood _))
  case mshape =>
    refine (exec_mshape he w).trans (congrArg _ ?_)
    rw [if_neg (by omega)]
    exact tileRecords_of_shape hva hreach hprep hgood _
  case mshapeProl =>
    refine (exec_mshape he w).trans (congrArg _ ?_)
    rw [if_pos hmod]
    exact tileRecords_of_prologue hva hreach hprep hpa hreach' hprep' hgood _

end Sys2Proof.Machine

/-! PROOFS. Networks and ray queries issue their requests (family 07_matrix_and_neural_instructions.md; R258, R263, R267; 08 R273, R279, R280). -/
namespace Sys2Proof.Machine

/-! ### What a settled warp leaves as it sends a request -/

theorem cmdRoom_of_settled {w : Warp} (h : w.settled = true) : w.cmdRoom = true := by
  rw [Warp.cmdRoom, h]
  rfl

/-- A long instruction that waits for parts of its work elsewhere: it is outstanding with them, and no register has changed. -/
theorem finishLong_of_parts {s : State} {e : Env} {ds : List Dest} {n : Nat} (hroom : e.w.logRoom ds.length = true) (hn : n ≠ 0) (la : Nat) :
    ∃ v, s.finishLong e la ds [] n = s.putWarp v ∧ v.nextLong = e.w.nextLong + 1 ∧
      (∀ l, (v.lane l).v = (e.w.lane l).v ∧ (v.lane l).p = (e.w.lane l).p ∧ (v.lane l).query = (e.w.lane l).query) ∧
      ∃ o ∈ v.longs, o.id = e.w.nextLong ∧ o.parts = n ∧ o.done = false ∧ o.dests = ds := by
  have hlog : e.w.logRoom (dedup (ds ++ destsOf [])).length = true := logRoom_mono hroom (length_dedup_le fun d hd => by simpa [destsOf, dedup] using hd)
  have hlane (l : Nat) := (e.w.advance s.cur (s.act e.w)).lane l
  unfold State.finishLong
  simp only [hlog, Bool.not_true, Bool.false_eq_true, if_false, hn, and_false]
  refine ⟨_, rfl, rfl, fun l => ?_, _, List.mem_append_right _ (List.mem_singleton_self _), rfl, rfl, rfl, rfl⟩
  show ((e.w.advance s.cur (s.act e.w)).lane l).v = _ ∧ ((e.w.advance s.cur (s.act e.w)).lane l).p = _ ∧ ((e.w.advance s.cur (s.act e.w)).lane l).query = _
  rw [Warp.advance, Warp.lane_modLanes _ _ (s.nodup_act _)]
  split <;> exact ⟨rfl, rfl, rfl⟩

/-! ### The networks (07 R258, R267) -/

section
variable {s : State} {e : Env} (he : s.env = some e) (hset : e.w.settled = true)
include he hset

theorem exec_nnflush {w : Std} (hne : s.exec e.w (Fields.ofStd w).ga (Fields.ofStd w).gb ≠ []) (hroom : e.w.logRoom 0 = true) :
    exec (.nnflush w) s = .next ((s.finishLong e (Fields.ofStd w).la [] [] 1).sendCmd (.nnev ⟨quadOf e.w.core, e.l.id, e.w.id, e.w.nextLong, true, []⟩)) := by
  show execNnflush w s = _
  simp only [execNnflush, State.onWarp_of_env he, List.isEmpty_eq_false_iff.2 hne, cmdRoom_of_settled hset, hroom, hset, Bool.not_true, Bool.or_false,
    Bool.false_eq_true, if_false]
  rfl

/-- `nnev` with its checks passed: the warp is disabled with its long instruction outstanding, and each lane's row is sent. -/
theorem exec_nnev {w : Ext} {l0 : Nat} {ls : List Nat} (hex : s.exec e.w (Fields.ofExt w).ga (Fields.ofExt w).gb = l0 :: ls)
    (hgood : nnBad (nnHandle (.ofExt w) e.w) (nnWord (.ofExt w) e.w) (l0 :: ls) = none) (hroom : e.w.logRoom (opDests 0x149 (.ofExt w)).length = true) :
    let f := Fields.ofExt w
    let row (l : Nat) : NnRow :=
      ⟨e.w.id, e.w.nextLong, l, f.a, f.d, e.l.hdr.regs, nnHandle f e.w l, nnWord f e.w l, ((e.w.lane l).v.drop f.a).take 64⟩
    exec (.nnev w) s = .next ((s.putWarp { e.w with
        longs := e.w.longs ++ [⟨e.w.nextLong, (e.w.lane ((s.act e.w).headD 0)).pc.addr, (s.act e.w).map fun l => (l, f.la), ls.length + 1, false,
          opDests 0x149 f, [.fmt (nnWord f e.w l0)], true, none⟩]
        nextLong := e.w.nextLong + 1
        disabled := true
        spec := { e.w.spec with ulog := if e.w.spec.ckpt.isNone then 0 else e.w.spec.ulog + (opDests 0x149 f).length } }).sendCmd
      (.nnev ⟨quadOf e.w.core, e.l.id, e.w.id, e.w.nextLong, f.mod % 2 == 1, (l0 :: ls).map row⟩)) := by
  show execNnev w s = _
  simp only [execNnev, State.onWarp_of_env he, hex, hgood, cmdRoom_of_settled hset, hroom, hset, Bool.not_true, Bool.or_false, Bool.false_eq_true, if_false]
  rfl
end

/-! ### The rays (08 R273, R280) -/

/-- The fault of a root pointer into the window that a `rtrace` meets. -/
def State.rootBad (s : State) (e : Env) (act : RayAct) (root : Warp → Nat → W64) (l : Nat) : Option (Nat × AccFault) :=
  let p := root e.w l
  if act = .trace ∧ inWindow (ptrAddr p) ∧ ptrKind p ≠ 0 then
    match s.windowLoc e.who (ptrAddr p) (if ptrKind p = 2 then 48 else 128) with
    | .error x => some (l, x)
    | .ok _ => none
  else none

section
variable {s : State} {e : Env} {act : RayAct} {root : Warp → Nat → W64} {l : Nat}

theorem rootBad_of_error {x : AccFault} (hact : act = .trace) (hin : inWindow (ptrAddr (root e.w l)) = true) (hkind : ptrKind (root e.w l) ≠ 0)
    (hloc : s.windowLoc e.who (ptrAddr (root e.w l)) (if ptrKind (root e.w l) = 2 then 48 else 128) = .error x) : s.rootBad e act root l = some (l, x) := by
  unfold State.rootBad
  extract_lets p
  rw [if_pos ⟨hact, hin, hkind⟩, hloc]

theorem rootBad_of_reached (h : act = .trace → let p := root e.w l
    inWindow (ptrAddr p) = true → ptrKind p ≠ 0 → ∃ x, s.windowLoc e.who (ptrAddr p) (if ptrKind p = 2 then 48 else 128) = .ok x) :
    s.rootBad e act root l = none := by
  unfold State.rootBad
  extract_lets p
  split
  · rename_i hc
    obtain ⟨hact, hin, hkind⟩ := hc
    obtain ⟨x, hx⟩ := h hact hin hkind
    rw [hx]
  · rfl
end

section
variable {s : State} {e : Env} (he : s.env = some e) (op : Nat) (f : Fields) (act : RayAct) (root : Warp → Nat → W64)
include he

/-- The request of a lane. -/
def Env.rayReq (e : Env) (f : Fields) (act : RayAct) (root : Warp → Nat → W64) (l : Nat) : RayReq :=
  ⟨e.w.id, l, e.w.nextLong, f.d, act, (e.w.lane l).pc.addr, root e.w l, ((e.w.lane l).v.drop f.a).take 8, f.imm⟩

theorem rayOp_of_bad {l0 : Nat} {rest : List Nat} {x : AccFault} (hex : s.exec e.w f.ga f.gb = l0 :: rest) (hbad : s.rootBad e act root l0 = some (l0, x)) :
    s.rayOp op f act root = s.raise e (x.trap l0 none) := by
  have hfind : (l0 :: rest).findSome? (s.rootBad e act root) = some (l0, x) := by rw [List.findSome?_cons, hbad]
  unfold State.rayOp
  simp only [State.onWarp_of_env he, hex]
  split
  · rename_i l y h
    cases hfind.symm.trans h
    rfl
  · rename_i h
    cases hfind.symm.trans h

theorem rayOp_of_reached (hne : s.exec e.w f.ga f.gb ≠ []) (hgood : ∀ l ∈ s.exec e.w f.ga f.gb, s.rootBad e act root l = none) (hset : e.w.settled = true)
    (hroom : e.w.logRoom (opDests op f).length = true) : s.rayOp op f act root =
      (s.finishLong e f.la (opDests op f) [] (s.exec e.w f.ga f.gb).length).sendCmd (.ray ((s.exec e.w f.ga f.gb).map (e.rayReq f act root))) := by
  obtain ⟨l0, ls, hex⟩ := List.exists_cons_of_ne_nil hne
  rw [hex] at hgood ⊢
  have hfind : (l0 :: ls).findSome? (s.rootBad e act root) = none := List.findSome?_eq_none_iff.2 hgood
  unfold State.rayOp
  simp only [State.onWarp_of_env he, hex, cmdRoom_of_settled hset, hroom, hset, Bool.not_true, Bool.or_false, Bool.false_eq_true, if_false]
  split
  · rename_i l y h
    cases hfind.symm.trans h
  · rfl
end

/-- Settles O42: each instruction by the equation of its execution; the ray instructions are one operation. -/
theorem networksAndRaysIssue : Obligations.NetworksAndRaysIssue := by
  refine ⟨?nnev, ?nnflush, ?rays⟩
  case nnev =>
    intro w s e he f ex hne hgood hset hroom row
    obtain ⟨l0, ls, hex⟩ := List.exists_cons_of_ne_nil hne
    have hgood' : nnBad (nnHandle f e.w) (nnWord f e.w) (l0 :: ls) = none := hex ▸ hgood
    have hexec := exec_nnev he hset hex hgood' hroom
    rw [show ex = l0 :: ls from hex]
    exact ⟨_, hexec, rfl, rfl, rfl, rfl⟩
  case nnflush =>
    intro w s e he f hne hset hroom
    obtain ⟨v, hv, hnext, hlanes, -⟩ := finishLong_of_parts (s := s) (ds := []) hroom one_ne_zero f.la
    refine ⟨v, ?_, hnext, fun l => ⟨(hlanes l).1, (hlanes l).2.1⟩⟩
    rw [← hv]
    exact exec_nnflush he hset hne hroom
  case rays =>
    intro i f act root op hi s e he ex
    have hexec : exec i s = .next (s.rayOp op f act root) := by
      rcases hi with ⟨w, rfl, rfl, rfl, rfl, rfl⟩ | ⟨w, rfl, rfl, ⟨rfl, rfl, rfl⟩ | ⟨rfl, rfl, rfl⟩ | ⟨rfl, rfl, rfl⟩ | ⟨rfl, rfl, rfl⟩⟩ <;> rfl
    refine ⟨fun l0 rest x hact hex hin hkind hloc => ?trap, fun hne hgood hset hroom => ?sent⟩
    case trap => rw [hexec, rayOp_of_bad he op f act root hex (rootBad_of_error hact hin hkind hloc)]
    case sent =>
      obtain ⟨v, hv, hnext, hlanes, hlong⟩ := finishLong_of_parts (s := s) hroom (mt List.length_eq_zero_iff.1 hne) f.la
      refine ⟨v, ?_, hnext, hlanes, hlong⟩
      rw [hexec, rayOp_of_reached he op f act root hne (fun l hl => rootBad_of_reached fun hact => hgood hact l hl) hset hroom, hv]
      rfl

end Sys2Proof.Machine

/-! PROOFS. The Anvil at work: grants, tile steps, and the end of an operation (family 07_matrix_and_neural_instructions.md; R238, R247 to R250). -/
namespace Sys2Proof.Machine

/-! ### What the end of an operation leaves (05 R165) -/

theorem quads_of_sansService {s t : State} (h : t.sansService = s.sansService) : t.quads = s.quads := by
  have := congrArg State.quads h
  exact this

section
variable (s : State) (id : Nat)

theorem mem_settleBlock : (s.settleBlock id).mem = s.mem := by
  unfold State.settleBlock
  split
  · split
    · unfold State.retireBlock
      dsimp only
      split <;> rfl
    · rfl
  · rfl
theorem ops_settleBlock : (s.settleBlock id).quads.ops = s.quads.ops := by
  unfold State.settleBlock
  split
  · split
    · unfold State.retireBlock
      dsimp only
      split <;> rfl
    · rfl
  · rfl
theorem mem_acc_of_settleBlock {a : Nat × Nat × AccSlot} (ha : a ∈ (s.settleBlock id).quads.acc) : a ∈ s.quads.acc := by
  unfold State.settleBlock at ha
  split at ha
  · split at ha
    · unfold State.retireBlock at ha
      dsimp only at ha
      split at ha <;> exact (List.mem_filter.1 ha).1
    · exact ha
  · exact ha

variable {s id}
/-- A block whose stream has not exited stays. -/
theorem settleBlock_of_stream {b : Block} {x : Stream} (hb : s.anyBlock? id = some b) (hx : b.stream = some x) (hrun : x.exited = false) :
    s.settleBlock id = s := by
  unfold State.settleBlock
  cases h : s.block? id with
  | none => rfl
  | some b' =>
    have hb' : b' = b := by
      rw [State.anyBlock?, h] at hb
      exact Option.some.inj hb
    have hended : s.blockEnded b' = false := by simp [State.blockEnded, hb', hx, hrun]
    simp only [hended, Bool.false_eq_true, if_false]
end

section
variable (s : State) (o : AnvilOp)

theorem mem_opDone : (s.opDone o).mem = s.mem := mem_settleBlock _ _
theorem ops_opDone : (s.opDone o).quads.ops = s.quads.ops.filter fun p => p.id != o.id := ops_settleBlock _ _
theorem id_ne_of_mem_opDone : ∀ q ∈ (s.opDone o).quads.ops, q.id ≠ o.id := fun q hq => by
  rw [ops_opDone] at hq
  simpa using (List.mem_filter.1 hq).2
theorem mem_acc_of_opDone {a : Nat × Nat × AccSlot} (ha : a ∈ (s.opDone o).quads.acc) : a ∈ s.quads.acc :=
  mem_acc_of_settleBlock { s.dropWait (.anvil o.id) with quads := { s.quads with ops := s.quads.ops.filter fun p => p.id != o.id } } o.block ha

variable {s o}
theorem opDone_of_stream {b : Block} {x : Stream} (hb : s.anyBlock? o.block = some b) (hx : b.stream = some x) (hrun : x.exited = false) :
    s.opDone o = { s.dropWait (.anvil o.id) with quads := { s.quads with ops := s.quads.ops.filter fun p => p.id != o.id } } :=
  settleBlock_of_stream (s := { s.dropWait (.anvil o.id) with quads := { s.quads with ops := s.quads.ops.filter fun p => p.id != o.id } }) hb hx hrun
end

/-! ### The stream of an operation's block, and its entry in the table -/

section
variable {s : State} {id : Nat} {b : Block} {x : Stream}

theorem anyBlock?_modStream (hb : s.anyBlock? id = some b) (f : Stream → Stream) :
    (s.modStream id f).anyBlock? id = some { b with stream := b.stream.map f } := by
  have hid : b.id = id := by
    unfold State.anyBlock? at hb
    split at hb
    · cases hb
      exact State.id_of_block? ‹_›
    · exact key_of_find? Block.id hb
  rw [State.modStream, anyBlock?_modAnyBlock s (f := fun b => { b with stream := b.stream.map f }) fun _ => rfl, hb]
  exact congrArg some (if_pos hid)

theorem block?_modStream (hb : s.block? id = some b) (f : Stream → Stream) :
    (s.modStream id f).block? id = some { b with stream := b.stream.map f } :=
  (find?_map_at Block.id (fun b : Block => { b with stream := b.stream.map f }) s.blocks (fun _ => rfl) id).trans (congrArg _ hb)

/-- The entry that a change of an operation leaves under its number. -/
theorem exists_of_mem_modOp {f : AnvilOp → AnvilOp} {q : AnvilOp} (hq : q ∈ (s.modOp id f).quads.ops) (hid : q.id = id) :
    ∃ p, q = f p := by
  obtain ⟨p, -, rfl⟩ := List.mem_map.1 hq
  by_cases hp : p.id = id
  · exact ⟨p, if_pos hp⟩
  · rw [if_neg hp] at hid
    exact absurd hid hp

/-- A tile step ends in a stream that has not exited: it has left the table, and ROWPROG is zero. -/
theorem stepEnds_stepDone {o : AnvilOp} (hb : s.anyBlock? o.block = some b) (hx : b.stream = some x) (hrun : x.exited = false) : StepEnds (s.stepDone o) o x := by
  have hmod := anyBlock?_modStream hb fun x => { x with run := false, next := 0 }
  refine ⟨id_ne_of_mem_opDone _ o, { b with stream := b.stream.map fun x => { x with run := false, next := 0 } }, ?_, congrArg (Option.map _) hx⟩
  rw [State.stepDone, opDone_of_stream hmod (congrArg (Option.map _) hx) hrun]
  exact hmod
theorem acc_stepDone {o : AnvilOp} (hb : s.anyBlock? o.block = some b) (hx : b.stream = some x) (hrun : x.exited = false) :
    (s.stepDone o).quads.acc = s.quads.acc := by
  rw [State.stepDone, opDone_of_stream (anyBlock?_modStream hb fun x => { x with run := false, next := 0 }) (congrArg (Option.map _) hx) hrun]
  rfl
end

/-! ### Grants (07 R238, R248) -/

/-- The stream of an operation's block as its pass begins: RUN is set for a tile step. -/
def AnvilKind.begins (k : AnvilKind) (x : Stream) : Stream :=
  { x with run := x.run || (match k with | .mmac _ _ => true | .mprol _ _ _ => true | _ => false) }

section
variable {s : State} {o : AnvilOp} (harg : s.arg = .id o.id) (hfind : (s.quads.ops.find? fun p => p.id == o.id) = some o)
include harg hfind

theorem leads_grant (hchoice : s.anvilChoice o.quad = some o) : Leads .anvilPassGrant s fun t =>
    t.quads.ops = s.quads.ops.map (fun p => if p.id = o.id then { p with granted := true } else p) ∧ t.mem = s.mem ∧
    ∀ b x, s.block? o.block = some b → b.stream = some x → ∃ b', t.block? o.block = some b' ∧ b'.stream = some (o.kind.begins x) := by
  let granted := s.modOp o.id fun p => { p with granted := true }
  have hexec : exec .anvilPassGrant s = .next (match o.kind with
      | .mmac _ _ | .mprol _ _ _ => granted.modStream o.block fun x => { x with run := true }
      | _ => granted) := by
    show execAnvilPassGrant s = _
    simp only [execAnvilPassGrant, harg, hfind, hchoice, bne_self_eq_false, Bool.false_eq_true, if_false]
    rfl
  refine ⟨_, hexec, ?_⟩
  cases hkind : o.kind with
  | mmac | mprol =>
    refine ⟨rfl, rfl, fun b x hb hx => ⟨_, block?_modStream (s := granted) hb _, ?_⟩⟩
    simp [hx, AnvilKind.begins]
  | mzero | mread | mwrite | tongs => exact ⟨rfl, rfl, fun b x hb hx => ⟨b, hb, by simp [hx, AnvilKind.begins]⟩⟩

/-! ### The work of a granted operation -/

/-- What a granted operation of a block does next. -/
def State.passWork (s : State) (o : AnvilOp) (b : Block) (l : Launch) : AnvilKind → State
  | .mzero => s.zeroSlot o
  | .mmac _ r => s.tilePass o b l (.ofRec r) none
  | .mprol _ r p => s.tilePass o b l (.ofRec r) (some (.ofRec p))
  | .mread base stride word ty dm rnd sat => s.readOut o b l base stride word ty dm rnd sat
  | .mwrite base stride word ty => s.loadSlot o b l base stride word ty
  | .tongs tile layer => s.layerDone o tile layer

variable (hgranted : o.granted = true) (hidle : s.agentBusy (.anvil o.id) = false)
include hgranted hidle

theorem exec_anvilPassDone_tongs {tile layer : Nat} (hkind : o.kind = .tongs tile layer) : exec .anvilPassDone s = .next (s.layerDone o tile layer) := by
  show execAnvilPassDone s = _
  simp only [execAnvilPassDone, harg, hfind, hgranted, hidle, hkind, Bool.not_true, Bool.or_self, Bool.false_eq_true, if_false]

theorem exec_anvilPassDone {b : Block} {l : Launch} (hb : s.anyBlock? o.block = some b) (hl : s.launch? o.launch = some l) :
    exec .anvilPassDone s = .next (s.passWork o b l o.kind) := by
  show execAnvilPassDone s = _
  simp only [execAnvilPassDone, harg, hfind, hgranted, hidle, hb, hl, Bool.not_true, Bool.or_self, Bool.false_eq_true, if_false]
  cases o.kind <;> rfl
end

/-- Every element of a slot whose bytes are gone reads 0. -/
theorem readLoc_acc_of_blank {s : State} {q o : Nat} (h : ∀ a ∈ s.quads.acc, a.1 = q → a.2.1 = o / 65536 → a.2.2.bytes = []) (n : Nat) :
    s.readLoc (.acc q o) n = List.replicate n 0 := by
  unfold State.readLoc
  dsimp only
  split
  · rename_i a ha
    have hkey := List.find?_some ha
    simp only [Bool.and_eq_true, beq_iff_eq] at hkey
    rw [h a (List.mem_of_find?_eq_some ha) hkey.1 hkey.2, Mem.read_nil]
  · rfl

theorem readLoc_zeroSlot (s : State) (o : AnvilOp) (n : Nat) : (s.zeroSlot o).readLoc (.acc o.quad (o.slot * 65536)) n = List.replicate n 0 := by
  refine readLoc_acc_of_blank (fun a ha hq hslot => ?_) n
  obtain ⟨c, -, rfl⟩ := List.mem_map.1 (mem_acc_of_opDone _ o ha)
  rw [Nat.mul_div_cancel _ (by decide)] at hslot
  by_cases hc : c.1 = o.quad ∧ c.2.1 = o.slot
  · rw [if_pos hc]
  · rw [if_neg hc] at hq hslot
    exact absurd ⟨hq, hslot⟩ hc

/-! ### Tile steps (07 R247, R250) -/

section
variable {s : State} {o : AnvilOp} {b : Block} {l : Launch} {t : TileShape} {p : Option Prologue}

/-- A row of a step is read and computed, and stands unwritten. -/
theorem tileRow_of_reached {rows : List (List Byte)} {gs : List Seg} {i : Nat}
    (hreach : s.reachRead (o.who b l) ((t.ranges p).a i).1 ((t.ranges p).a i).2 = .ok gs) (hprep : s.agentPrep (o.who b l) gs [] = none)
    (hslot : s.slotError o i (4 * t.n) = none) :
    let nb := t.bRows.1
    let ns := if p.isSome then t.n else 0
    s.tileRow o b l t p rows i = ((s.useReads 0 gs).dropFetched (.anvil o.id)).modOp o.id fun q => { q with unwritten := some (rowResult t
      ((List.range t.n).map (t.column p (rows.take nb) ((rows.drop nb).take ns) (rows.drop (nb + ns)))) (s.reachBytes (o.who b l) gs)
      (s.readLoc (o.at_ i 0) (4 * t.n))) } := by
  simp only [State.tileRow, hreach, hprep, hslot]

/-- A row that stands unwritten is written, and the stream counts it. -/
def State.rowWritten (s : State) (o : AnvilOp) (next : Nat) (row : List Byte) : State :=
  ((s.writeSite none none (o.at_ next 0) row).modStream o.block fun x => { x with next := next + 1 }).modOp o.id fun q => { q with unwritten := none }

variable {x : Stream}

theorem tilePass_of_row {row : List Byte} (hrow : o.unwritten = some row) (hx : b.stream = some x) :
    s.tilePass o b l t p = if t.m ≤ x.next + 1 then (s.rowWritten o x.next row).stepDone o else s.rowWritten o x.next row := by
  simp only [State.tilePass, hrow, hx]
  rfl
theorem tilePass_of_last (hrow : o.unwritten = none) (hx : b.stream = some x) (hlast : t.m ≤ x.next) : s.tilePass o b l t p = s.stepDone o := by
  simp only [State.tilePass, hrow, hx, hlast, if_true]

theorem acc_rowWritten (next : Nat) (row : List Byte) :
    (s.rowWritten o next row).quads.acc = (s.writeLoc (.acc o.quad (slotOff o.slot next 0)) row).quads.acc := rfl
theorem anyBlock?_rowWritten (hb : s.anyBlock? o.block = some b) (hx : b.stream = some x) (next : Nat) (row : List Byte) :
    (s.rowWritten o next row).anyBlock? o.block = some { b with stream := some { x with next := next + 1 } } := by
  have h := anyBlock?_modStream (s := s.writeSite none none (o.at_ next 0) row) (id := o.block) hb fun x => { x with next := next + 1 }
  rw [hx] at h
  exact h
end

end Sys2Proof.Machine

/-! PROOFS. Read-outs and loads of a slot, and the layers of a tile (family 07_matrix_and_neural_instructions.md; R252, R261). -/
namespace Sys2Proof.Machine

/-! ### The elements of a slot (01 R20) -/

theorem Mem.take_drop_read (m : Mem) (a : Nat) {n k c : Nat} (h : k + c ≤ n) : ((m.read a n).drop k).take c = m.read (a + k) c := by
  refine List.ext_getElem (by simp [Mem.read]; omega) fun i _ _ => ?_
  simp [Mem.read, Nat.add_assoc]

/-- An element of a row of a slot, read alone or with its row. -/
theorem take_drop_readLoc_row (s : State) (q slot : Nat) {i j : Nat} (hi : i < 128) (hj : j < 128) :
    ((s.readLoc (.acc q (slotOff slot i 0)) 512).drop (4 * j)).take 4 = s.readLoc (.acc q (slotOff slot i j)) 4 := by
  have hrow : slotOff slot i 0 / 65536 = slot ∧ slotOff slot i 0 % 65536 = i * 512 := by unfold slotOff; omega
  have helem : slotOff slot i j / 65536 = slot ∧ slotOff slot i j % 65536 = i * 512 + 4 * j := by unfold slotOff; omega
  simp only [State.readLoc, hrow, helem]
  cases s.quads.acc.find? _ with
  | some a => exact Mem.take_drop_read _ _ (by omega)
  | none =>
    dsimp only
    rw [List.drop_replicate, List.take_replicate, show min 4 (512 - 4 * j) = 4 by omega]

theorem slotRow_eq (s : State) (o : AnvilOp) {i : Nat} (hi : i < 128) :
    s.slotRow o i = (List.range 128).map fun j => widen .f32 (leNat (s.readLoc (.acc o.quad (slotOff o.slot i j)) 4)) :=
  List.map_congr_left fun _ hj => congrArg (fun xs => widen .f32 (leNat xs)) (take_drop_readLoc_row s o.quad o.slot hi (List.mem_range.1 hj))

/-- A row as it is read out, but under stochastic rounding. -/
theorem readOutRow_eq (w : SlotWindow) (f : FFmt) {rnd : Nat} (sat : Bool) (row : List XReal) {mode : RMode} (h : RMode.ofCode rnd = some mode)
    (hrs : mode ≠ .rs) : readOutRow w f rnd sat row =
      (List.range w.nc).flatMap fun k => leBytes (f.width / 8) (roundTo f (row.getD (w.fcol + k) .nan) mode sat 0) := by
  simp only [readOutRow, h, Option.getD_some, hrs, if_false]

/-! ### The granules of a slot that a granule of a source becomes -/

/-- A chunk of bytes strung together from chunks of one length. -/
theorem take_drop_flatMap {α β : Type} {c : Nat} {g : α → List β} (hg : ∀ a, (g a).length = c) {xs : List α} {i : Nat} {a : α} (h : xs[i]? = some a) :
    ((xs.flatMap g).drop (c * i)).take c = g a := by
  induction xs generalizing i with
  | nil => simp at h
  | cons x xs ih =>
    cases i with
    | zero =>
      obtain rfl : x = a := by simpa using h
      simp [hg]
    | succ i =>
      rw [List.flatMap_cons, List.drop_append, hg, List.drop_of_length_le (by rw [hg, Nat.mul_succ]; omega), List.nil_append, Nat.mul_succ,
        Nat.add_sub_cancel]
      exact ih (by simpa using h)

theorem exists_mem_slotGranules (ty : Nat) (p : SlotPart) (xs : List Byte) {k : Nat} (hk : k < p.n) :
    ∃ q ∈ slotGranules ty p xs, ∃ ys, q.xs = some ys ∧ q.row = p.row ∧ q.col ≤ p.col + k ∧ p.col + k < q.col + q.n ∧
      (ys.drop (4 * (p.col + k - q.col))).take 4 = leBytes 4 (roundTo .f32 (rowElem ty xs k) .rn) := by
  let g := (p.col + k) / 4
  have hg : g ∈ (List.range (ceilDiv (p.col + p.n) 4 - p.col / 4)).map (· + p.col / 4) := by
    refine List.mem_map.2 ⟨g - p.col / 4, List.mem_range.2 ?_, ?_⟩ <;> (simp only [ceilDiv, g]; omega)
  refine ⟨_, List.mem_map_of_mem hg, _, rfl, rfl, ?_, ?_, ?_⟩
  · show max p.col (4 * g) ≤ p.col + k
    omega
  · show p.col + k < max p.col (4 * g) + (min (p.col + p.n) (4 * g + 4) - max p.col (4 * g))
    omega
  · have hnth : (List.range (min (p.col + p.n) (4 * g + 4) - max p.col (4 * g)))[p.col + k - max p.col (4 * g)]? =
        some (p.col + k - max p.col (4 * g)) := by
      rw [List.getElem?_range]
      omega
    refine (take_drop_flatMap (fun _ => length_leBytes 4 _) hnth).trans ?_
    rw [show max p.col (4 * g) - p.col + (p.col + k - max p.col (4 * g)) = k by omega]

/-! ### Read-outs (07 R252; 06 R219, R223) -/

section
variable (s : State) (o : AnvilOp) (b : Block) (l : Launch) (base stride word : W64) (ty : Nat)

/-- A read-out or a load has begun: the granules of its window are left to move. -/
def State.partsBegun : State := s.withParts o ((SlotWindow.ofWord word).parts (16 / typeBytes ty))

theorem mem_opFatal (st : Nat) (t : Trap) : (s.opFatal o st t).mem = s.mem :=
  (mem_opDone _ o).trans (foldl_keeps (g := State.mem) (f := fun s d => s.spoil d st) (fun _ _ => rfl) s _)
theorem id_ne_of_mem_opFatal (st : Nat) (t : Trap) : ∀ q ∈ (s.opFatal o st t).quads.ops, q.id ≠ o.id := id_ne_of_mem_opDone _ o

variable {s o b l base stride word ty} {dm rnd : Nat} {sat : Bool}

theorem readOut_of_begins (h : o.parts = none) (hdm : dm ≠ 1) : s.readOut o b l base stride word ty dm rnd sat = s.partsBegun o word ty := by
  simp only [State.readOut, h, hdm, if_false]
  rfl

section
variable {gs : List Seg} (h : o.parts = none) (hdest : s.reachDest (o.who b l) 1 (windowRows base stride word ty) = .ok gs)
include h hdest
theorem readOut_of_no_region (hreg : oneRegion gs = none) :
    s.readOut o b l base stride word ty 1 rnd sat = s.opFatal o 5 { cause := 4, reason := 5, lane := 0, info := base } := by
  simp only [State.readOut, h, hdest, hreg, Option.isNone_none, if_true]
theorem readOut_of_region {d : Nat} (hreg : oneRegion gs = some d) :
    s.readOut o b l base stride word ty 1 rnd sat = if s.pubBefore d o.sentAt then s else s.partsBegun o word ty := by
  simp only [State.readOut, h, hdest, hreg, Option.isNone_some, Option.any_some, Bool.false_eq_true, if_false, if_true]
  rfl
end

theorem readOut_of_done (h : o.parts = some []) (hack : s.unacked o.id = false) : s.readOut o b l base stride word ty dm rnd sat = s.opDone o := by
  simp only [State.readOut, h, hack, Bool.false_eq_true, if_false]

section
variable {ps : List SlotPart} {gs : List Seg} (h : o.parts = some ps) (hne : ps ≠ [])
include h hne

theorem readOut_of_parts : s.readOut o b l base stride word ty dm rnd sat = s.readParts o b l base stride word ty dm rnd sat ps := by
  obtain ⟨p, ps, rfl⟩ := List.exists_cons_of_ne_nil hne
  simp only [State.readOut, h]
theorem loadSlot_of_parts : s.loadSlot o b l base stride word ty = s.loadParts o b l base stride word ty ps := by
  obtain ⟨p, ps, rfl⟩ := List.exists_cons_of_ne_nil hne
  simp only [State.loadSlot, h]
end

variable {ps : List SlotPart}

/-- Granules of a read-out whose destination and slot are good are written. -/
theorem readParts_of_reached {gs : List Seg}
    (hdest : s.reachDest (o.who b l) dm ((s.someOf ps).1.map fun p => ((SlotWindow.ofWord word).partAt base stride (typeBytes ty) p, 16)) = .ok gs)
    (hbuf : dm = 1 → ∀ g ∈ gs, g.buf ≠ none) (hprep : s.agentPrep (o.who b l) [] gs = none) (hslot : ∀ p ∈ (s.someOf ps).1, s.slotError o p.row 512 = none)
    (hpage : s.pageError gs = none) :
    let w := SlotWindow.ofWord word
    let xs := (s.someOf ps).1.flatMap fun p =>
      ((readOutRow w ((floatOf ty).getD .f32) rnd sat (s.slotRow o p.row)).drop ((p.col - w.fcol) * typeBytes ty)).take 16
    let t := (s.useSegs gs).engineWrites o.id 0 (dm == 2) gs xs
    s.readParts o b l base stride word ty dm rnd sat ps = (if dm = 1 then t.markWritten gs else t).withParts o (s.someOf ps).2 := by
  have hregion : ¬(dm = 1 ∧ (gs.any fun g => g.buf.isNone) = true) := by
    rintro ⟨hdm, hany⟩
    obtain ⟨g, hg, hnone⟩ := List.any_eq_true.1 hany
    exact hbuf hdm g hg (Option.isNone_iff_eq_none.1 hnone)
  have herror : ((s.someOf ps).1.findSome? fun p => s.slotError o p.row 512) = none := List.findSome?_eq_none_iff.2 hslot
  simp only [State.readParts, hdest, hregion, if_false, hprep, herror, hpage, Option.map_none, Option.or_none]

/-- Granules of a load are read, or written into the slot. -/
theorem loadParts_of_reached {gss : List (List Seg)}
    (hreach : s.reachAll (o.who b l) (((s.someOf ps).1.filter fun p => p.xs.isNone).map fun p =>
      ((SlotWindow.ofWord word).partAt base stride (typeBytes ty) p, 16)) = .ok gss) (hprep : s.agentPrep (o.who b l) gss.flatten [] = none) :
    s.loadParts o b l base stride word ty ps =
      ((s.someOf ps).1.foldl (fun s p => match p.xs with | some xs => s.writeSite none none (o.at_ p.row p.col) xs | none => s)
        (s.useReads 0 gss.flatten)).withParts o ((s.someOf ps).2 ++ (((s.someOf ps).1.filter fun p => p.xs.isNone).zip gss).flatMap fun (p, gs) =>
          slotGranules ty p (s.reachBytes (o.who b l) gs)) := by
  simp only [State.loadParts, hreach, hprep] <;> rfl
end

/-! ### The layers of a tile (07 R261) -/

section
variable {s : State} (o : AnvilOp) {tile layer : Nat} {y : Tile} (hfind : (s.quads.tiles.find? fun t => t.id == tile) = some y)
include hfind

theorem layerDone_of_more (h : layer < y.layers) : s.layerDone o tile layer = { s with
    quads := { s.quads with ops := s.quads.ops.filter (fun p => p.id != o.id) ++
      [{ o with id := s.ctr.cmd, kind := .tongs tile (layer + 1), granted := false, arrived := s.cycles }] }
    ctr := { s.ctr with cmd := s.ctr.cmd + 1 } } := by
  simp only [State.layerDone, hfind, h, if_true]
theorem layerDone_of_last (h : y.layers ≤ layer) : s.layerDone o tile layer = { s with
    quads := { s.quads with
      ops := s.quads.ops.filter fun p => p.id != o.id
      tiles := s.quads.tiles.map fun t => if t.id = tile then { t with passed := true } else t } } := by
  simp only [State.layerDone, hfind, Nat.not_lt.2 h, if_false]
end

end Sys2Proof.Machine

/-! PROOFS. Ray queries run, and with them the work of the Anvil and the ray engines (families 07 and 08; 08 R275 to R279). -/
namespace Sys2Proof.Machine

/-! ### Ends of requests (08 R275) -/

theorem anyWarp?_of_warp? {s : State} {id : Nat} {w : Warp} (h : s.warp? id = some w) : s.anyWarp? id = some w := by rw [State.anyWarp?, h]

theorem warp?_modAnyWarp (s : State) (id : Nat) {f : Warp → Warp} (hf : ∀ w, (f w).id = w.id) : (s.modAnyWarp id f).warp? id = (s.warp? id).map f :=
  find?_map_at Warp.id f s.warps hf id

section
variable {s : State} {r : RayReq} {w : Warp} (hr : r.warp = w.id) (hw : s.warp? w.id = some w)
include hr hw

theorem rayEnds_rayEnd (q : RayQuery) (words : List W32) : RayEnds s (s.rayEnd r q words) r w words q := by
  let back := words.zipIdx.map fun (x, k) => RegWrite.v r.lane (r.dest + k) x
  let u : State := { s.dropWait (.ray r.warp r.lane) with rays := s.rays.filter fun x => !(x.warp == r.warp && x.lane == r.lane && x.long == r.long) }
  have hfound : u.warp? r.warp = some w := hr ▸ hw
  refine ⟨fun x hx => ?gone, rfl, (w.setQuery r.lane q).longPart r.long back, ?there, rfl, fun hlane => ?query⟩
  case gone =>
    have hkeep := (List.mem_filter.1 hx).2
    simp only [Bool.not_eq_true', Bool.and_eq_false_iff, beq_eq_false_iff_ne] at hkeep
    tauto
  case there =>
    rw [← hr]
    exact (warp?_modAnyWarp u r.warp (f := fun w => (w.setQuery r.lane q).longPart r.long back) fun _ => rfl).trans (congrArg _ hfound)
  case query =>
    show ((w.regs.modLane r.lane fun t => { t with query := q }).lanes.getD r.lane Lane.none).query = q
    rw [lane_modLane, if_pos ⟨rfl, hlane⟩]

/-- A traversal with nothing left to visit ends with the final result of its query. -/
theorem rayEnds_traverse (who : Who) (n : Nat) {q : RayQuery} (hq : q.items = []) :
    RayEnds s (s.traverse r w who (n + 1) q) r w (q.final true) (q.ended (q.final true)) := by
  have hend : s.traverse r w who (n + 1) q = s.rayEnd r (q.ended (q.final true)) (q.final true) := by
    simp only [State.traverse, hq, List.getElem?_nil]
  rw [hend]
  exact rayEnds_rayEnd hr hw _ _
end

/-! ### A request is carried out (08 R279) -/

section
variable {s : State} {r : RayReq} {w : Warp} {b : Block} {l : Launch} (harg : s.arg = .two w.id r.lane) (hr : r.warp = w.id)
  (hfind : (s.rays.find? fun x => x.warp == w.id && x.lane == r.lane) = some r) (hw : s.warp? w.id = some w) (hb : s.anyBlock? w.block = some b)
  (hl : s.launch? b.launch = some l) (hidle : s.agentBusy (.ray w.id r.lane) = false) (hline : ∀ x ∈ s.remotes, x.lane = 65 → x.warp ≠ w.id)
include harg hfind hw hb hl hidle hline

theorem exec_rayTraversalDone : exec .rayTraversalDone s = .next (s.rayStep r w ⟨l, w.core, w.block, .ray w.id r.lane⟩) := by
  have hno : (s.remotes.any fun x => x.lane == 65 && x.warp == w.id) = false := by simpa using hline
  show execRayTraversalDone s = _
  simp only [execRayTraversalDone, harg, hfind, anyWarp?_of_warp? hw, hb, Option.bind_some, hl, hidle, hno, Bool.or_self, Bool.false_eq_true, if_false]

include hr

theorem leads_rayEnd {words : List W32} {q : RayQuery} (h : s.rayStep r w ⟨l, w.core, w.block, .ray w.id r.lane⟩ = s.rayEnd r q words) :
    Leads .rayTraversalDone s fun t => RayEnds s t r w words q :=
  ⟨_, (exec_rayTraversalDone harg hfind hw hb hl hidle hline).trans (congrArg _ h), rayEnds_rayEnd hr hw q words⟩
end

section
variable {s : State} {r : RayReq} {w : Warp} {who : Who}

theorem rayStep_of_trace (h : r.act = .trace) : s.rayStep r w who =
    if rayVoid r.ray then s.rayEnd r ((RayQuery.start r).ended (missWords r.ray)) (missWords r.ray) else s.traverse r w who rayFuel (.start r) := by
  simp only [State.rayStep, h]
theorem rayStep_of_run (h : r.act = .run) : s.rayStep r w who = s.traverse r w who rayFuel (w.lane r.lane).query := by
  simp only [State.rayStep, h]
theorem rayStep_of_query (h : r.act = .query) : s.rayStep r w who = s.rayEnd r (w.lane r.lane).query (w.lane r.lane).query.shown := by
  simp only [State.rayStep, h]

/-- What acts on a candidate shows the query without change where there is none; `finish` empties it. -/
theorem rayStep_of_no_candidate (hact : r.act = .next ∨ r.act = .hit ∨ r.act = .hitEnd) (h : (w.lane r.lane).query.state ≠ .cand) :
    s.rayStep r w who = s.rayEnd r (w.lane r.lane).query (w.lane r.lane).query.shown := by
  rcases hact with hact | hact | hact <;> simp only [State.rayStep, hact, h, if_false]
theorem rayStep_of_finish (hact : r.act = .finish) : s.rayStep r w who = let q := (w.lane r.lane).query
    if q.state = .cand then s.rayEnd r (q.ended (q.final false)) (q.final false) else s.rayEnd r RayQuery.empty q.shown := by
  simp only [State.rayStep, hact]

variable (h : (w.lane r.lane).query.state = .cand)
include h
theorem rayStep_of_next (hact : r.act = .next) :
    s.rayStep r w who = s.traverse r w who rayFuel { (w.lane r.lane).query with cand := none, state := .none } := by
  simp only [State.rayStep, hact, h, if_true]
theorem rayStep_of_hit (hact : r.act = .hit) : s.rayStep r w who = let q := (w.lane r.lane).query.commit
    s.traverse r w who rayFuel (if bits q.ctl.toNat 11 11 = 1 then { q with items := [] } else q) := by
  simp only [State.rayStep, hact, h, if_true]
theorem rayStep_of_hitEnd (hact : r.act = .hitEnd) : s.rayStep r w who = let q := (w.lane r.lane).query.commit
    s.rayEnd r (q.ended (q.final false)) (q.final false) := by
  simp only [State.rayStep, hact, h, if_true]
end

theorem ctl_commit (q : RayQuery) : q.commit.ctl = q.ctl := by
  unfold RayQuery.commit
  split <;> rfl

/-- Settles O58: what an operation does next is one function of its kind, each of its parts has one equation per case, and a ray request ends, or goes on,
as its query's state says. -/
theorem matrixAndRayWorkRuns : Obligations.MatrixAndRayWorkRuns := by
  refine ⟨?pass, ?tileStep, ?window, ?layer, ?ray⟩
  case pass =>
    refine fun s o harg hfind => ⟨leads_grant harg hfind, fun hgranted hidle => ⟨fun tile layer hkind =>
      exec_anvilPassDone_tongs harg hfind hgranted hidle hkind, fun b l hb hl => ?_⟩⟩
    have hexec := exec_anvilPassDone harg hfind hgranted hidle hb hl
    refine ⟨fun hkind => ?mzero, fun a r hkind => ?mmac, fun a r p hkind => ?mprol, fun base stride word ty dm rnd sat hkind => ?mread,
      fun base stride word ty hkind => ?mwrite⟩
    case mzero =>
      rw [hkind] at hexec
      exact ⟨_, hexec, id_ne_of_mem_opDone _ o, mem_opDone _ o, readLoc_zeroSlot s o⟩
    case mmac | mprol | mread | mwrite =>
      rw [hkind] at hexec
      exact hexec
  case tileStep =>
    refine fun s o b l t p => ⟨fun rows gs i hreach hprep hslot => ?read, fun row x hrow hb hx hblk hmore => ?written,
      fun row x hrow hb hx hrun hblk hlast => ?lastRow, fun x hrow hx hlast => ?none⟩
    case read =>
      rw [tileRow_of_reached hreach hprep hslot]
      have hacc : (s.useReads 0 gs).quads.acc = s.quads.acc := congrArg Quads.acc (quads_of_sansService (sansService_useReads s 0 gs))
      refine ⟨hacc, fun q hq hid => ?_⟩
      obtain ⟨q, rfl⟩ := exists_of_mem_modOp hq hid
      rfl
    case written =>
      rw [tilePass_of_row hrow hx, if_neg (Nat.not_le.2 hmore)]
      refine ⟨acc_rowWritten _ _, fun q hq hid => ?_, _, hblk ▸ anyBlock?_rowWritten (hblk ▸ hb) hx _ row, rfl⟩
      obtain ⟨q, rfl⟩ := exists_of_mem_modOp hq hid
      rfl
    case lastRow =>
      rw [tilePass_of_row hrow hx, if_pos hlast]
      have hthere := anyBlock?_rowWritten (s := s) (hblk ▸ hb) hx x.next row
      have hends : StepEnds ((s.rowWritten o x.next row).stepDone o) o { x with next := x.next + 1 } := stepEnds_stepDone hthere rfl hrun
      exact ⟨(acc_stepDone hthere rfl hrun).trans (acc_rowWritten _ _), hends⟩
    case none =>
      rw [tilePass_of_last hrow hx hlast]
      exact ⟨id_ne_of_mem_opDone _ o, fun hb hrun hblk => stepEnds_stepDone (hblk ▸ hb) hx hrun⟩
  case window =>
    intro s o b l base stride word ty w z begun place
    refine ⟨fun dm rnd sat => ⟨readOut_of_begins, fun gs h hdm hdest => ?shadow, fun h hack => ?done, fun ps gs h hne => ?parts⟩,
      fun i hi => slotRow_eq s o hi, fun f rnd sat row mode => readOutRow_eq w f sat row, ⟨fun h => ?begins, fun h => ?loaded, fun ps gss h hne => ?load⟩,
      fun p xs k hk => exists_mem_slotGranules ty p xs hk⟩
    case shadow =>
      subst hdm
      refine ⟨fun hreg => ?_, fun d hreg => readOut_of_region h hdest hreg⟩
      rw [readOut_of_no_region h hdest hreg]
      exact ⟨id_ne_of_mem_opFatal s o _ _, mem_opFatal s o _ _⟩
    case done =>
      rw [readOut_of_done h hack]
      exact id_ne_of_mem_opDone s o
    case parts =>
      rw [readOut_of_parts h hne]
      exact readParts_of_reached
    case begins =>
      rw [State.loadSlot, h]
      rfl
    case loaded =>
      rw [State.loadSlot, h]
      exact id_ne_of_mem_opDone s o
    case load =>
      rw [loadSlot_of_parts h hne]
      exact loadParts_of_reached
  case layer =>
    intro s o tile layer y hfind u rest
    have hmore (h : layer < y.layers) := layerDone_of_more o hfind h
    have hlast (h : y.layers ≤ layer) := layerDone_of_last o hfind h
    refine ⟨?mem, ?acc, fun h => ?_, fun h => ?_⟩
    case mem => rcases lt_or_ge layer y.layers with h | h <;> simp only [u, hmore, hlast, h]
    case acc => rcases lt_or_ge layer y.layers with h | h <;> simp only [u, hmore, hlast, h]
    · simp only [u, hmore h, rest, and_self]
    · simp only [u, hlast h, rest, and_self]
  case ray =>
    intro s r w b l harg hr hfind hw hb hl hidle hline q ends goes
    have hexec := exec_rayTraversalDone harg hfind hw hb hl hidle hline
    have hends {words : List W32} {q' : RayQuery} := leads_rayEnd harg hr hfind hw hb hl hidle hline (words := words) (q := q')
    refine ⟨fun hact => ?trace, fun hact => ?run, fun hact => hends (rayStep_of_query hact), fun hact => ?next, fun hact => ?hit, fun hact => ?hitEnd,
      fun hact => ?finish, fun n q' hq => rayEnds_traverse hr hw _ n hq⟩
    case trace =>
      split
      · exact hends ((rayStep_of_trace hact).trans (if_pos ‹_›))
      · exact hexec.trans (congrArg _ ((rayStep_of_trace hact).trans (if_neg ‹_›)))
    case run => exact hexec.trans (congrArg _ (rayStep_of_run hact))
    case next =>
      split
      · exact hexec.trans (congrArg _ (rayStep_of_next ‹_› hact))
      · exact hends (rayStep_of_no_candidate (.inl hact) ‹_›)
    case hit =>
      split
      · rw [← ctl_commit]
        exact hexec.trans (congrArg _ (rayStep_of_hit ‹_› hact))
      · exact hends (rayStep_of_no_candidate (.inr (.inl hact)) ‹_›)
    case hitEnd =>
      split
      · exact hends (rayStep_of_hitEnd ‹_› hact)
      · exact hends (rayStep_of_no_candidate (.inr (.inr hact)) ‹_›)
    case finish =>
      split
      · exact hends ((rayStep_of_finish hact).trans (if_pos ‹_›))
      · exact hends ((rayStep_of_finish hact).trans (if_neg ‹_›))

end Sys2Proof.Machine

/-! PROOFS. Rows join tiles, tiles are sent, and their results return (family 07_matrix_and_neural_instructions.md; R259, R261 to R263, R267). -/
namespace Sys2Proof.Machine

/-! ### Rows join tiles (07 R261) -/

/-- A row stands in a tile of a quad and launch, of its handle and format. -/
def State.RowIn (s : State) (quad launch : Nat) (x : NnRow) : Prop :=
  ∃ y ∈ s.quads.tiles, x ∈ y.rows ∧ y.quad = quad ∧ y.launch = launch ∧ y.handle = x.handle ∧ y.fmt = x.fmt

section
variable {s : State} {quad launch : Nat}

/-- A change of tiles that keeps what a tile is of, and its rows, keeps rows in their tiles. -/
theorem State.RowIn.modTile {x : NnRow} (h : s.RowIn quad launch x) (id : Nat) {f : Tile → Tile}
    (hf : ∀ y, y.rows ⊆ (f y).rows ∧ (f y).quad = y.quad ∧ (f y).launch = y.launch ∧ (f y).handle = y.handle ∧ (f y).fmt = y.fmt) :
    (s.modTile id f).RowIn quad launch x := by
  obtain ⟨y, hy, hx, hq, hl, hh, hfmt⟩ := h
  refine ⟨_, List.mem_map_of_mem hy, ?_⟩
  split
  · obtain ⟨hrows, hq', hl', hh', hfmt'⟩ := hf y
    exact ⟨hrows hx, hq'.trans hq, hl'.trans hl, hh'.trans hh, hfmt'.trans hfmt⟩
  · exact ⟨hx, hq, hl, hh, hfmt⟩

theorem rowIn_enterRow (r : NnRow) : (s.enterRow quad launch r).RowIn quad launch r := by
  unfold State.enterRow
  split
  · rename_i y hfind
    have hkey := List.find?_some hfind
    simp only [Bool.and_eq_true, beq_iff_eq] at hkey
    obtain ⟨⟨⟨⟨hq, hl⟩, hh⟩, hfmt⟩, -⟩ := hkey
    refine ⟨_, List.mem_map_of_mem (List.mem_of_find?_eq_some hfind), ?_⟩
    rw [if_pos rfl]
    exact ⟨List.mem_append_right _ (List.mem_singleton_self r), hq, hl, hh, hfmt⟩
  · exact ⟨_, List.mem_append_right _ (List.mem_singleton_self _), List.mem_singleton_self r, rfl, rfl, rfl, rfl⟩

theorem State.RowIn.enterRow {x : NnRow} (h : s.RowIn quad launch x) (q l : Nat) (r : NnRow) : (s.enterRow q l r).RowIn quad launch x := by
  unfold State.enterRow
  split
  · exact h.modTile _ fun y => ⟨List.subset_append_left _ _, rfl, rfl, rfl, rfl⟩
  · obtain ⟨y, hy, hrest⟩ := h
    exact ⟨y, List.mem_append_left _ hy, hrest⟩

theorem rowIn_enterRows (rows : List NnRow) : ∀ x ∈ rows, (rows.foldl (fun s x => s.enterRow quad launch x) s).RowIn quad launch x := by
  have hkeep (rows : List NnRow) (s : State) {x : NnRow} (h : s.RowIn quad launch x) : (rows.foldl (fun s x => s.enterRow quad launch x) s).RowIn quad launch x := by
    induction rows generalizing s with
    | nil => exact h
    | cons r rows ih => exact ih _ (h.enterRow quad launch r)
  induction rows generalizing s with
  | nil => exact fun x hx => absurd hx List.not_mem_nil
  | cons r rows ih =>
    intro x hx
    rcases List.mem_cons.1 hx with rfl | hx
    · exact hkeep rows _ (rowIn_enterRow x)
    · exact ih x hx

theorem nnReqs_enterRow (r : NnRow) : (s.enterRow quad launch r).quads.nnReqs = s.quads.nnReqs := by
  unfold State.enterRow
  split <;> rfl
theorem nnReqs_enterRows (rows : List NnRow) : (rows.foldl (fun s x => s.enterRow quad launch x) s).quads.nnReqs = s.quads.nnReqs :=
  foldl_keeps (g := fun s => s.quads.nnReqs) (fun _ r => nnReqs_enterRow r) s rows
end

/-! ### Tiles are sent -/

/-- A row whose tile is sent with the tiles that a test names. -/
theorem State.RowIn.sendTiles {s : State} {quad launch : Nat} {x : NnRow} (h : s.RowIn quad launch x) (p : Tile → Bool) :
    ∃ y ∈ (s.sendTiles p).quads.tiles, x ∈ y.rows ∧ y.quad = quad ∧ y.launch = launch ∧ y.handle = x.handle ∧ y.fmt = x.fmt ∧
      ((∀ y : Tile, x ∈ y.rows → p y = true) → y.sent = true) := by
  obtain ⟨y, hy, hx, hq, hl, hh, hfmt⟩ := h
  refine ⟨_, List.mem_map_of_mem hy, ?_⟩
  split
  · exact ⟨hx, hq, hl, hh, hfmt, fun _ => rfl⟩
  · exact ⟨hx, hq, hl, hh, hfmt, fun hall => absurd (hall y hx) ‹_›⟩

section
variable {s : State} {r : NnReq} (harg : s.arg = .id r.quad) (hfind : (s.quads.nnReqs.find? fun x => x.quad == r.quad) = some r)
include harg hfind

/-- The request has left the list of its quad's Tongs. -/
def State.tookRequest (s : State) (r : NnReq) : State := { s with quads := { s.quads with nnReqs := s.quads.nnReqs.erase r } }

theorem exec_tongsRequest_flush (h : r.rows = []) : exec .tongsRequest s =
    .next (((s.tookRequest r).sendTiles fun t => t.quad == r.quad && t.launch == r.launch).modAnyWarp r.warp fun w => w.longPart r.long []) := by
  show execTongsRequest s = _
  simp only [execTongsRequest, State.tookRequest, harg, hfind, h, List.isEmpty_nil, if_true]
theorem exec_tongsRequest_rows (h : r.rows ≠ []) : exec .tongsRequest s =
    .next (let t := r.rows.foldl (fun s x => s.enterRow r.quad r.launch x) (s.tookRequest r)
      if r.flush then t.sendTiles fun t => t.rows.any fun x => x.warp == r.warp && x.long == r.long else t) := by
  show execTongsRequest s = _
  simp only [execTongsRequest, State.tookRequest, harg, hfind, List.isEmpty_eq_false_iff.2 h, Bool.false_eq_true, if_false]

theorem leads_flush (h : r.rows = []) : Leads .tongsRequest s fun t => t.quads.nnReqs = s.quads.nnReqs.erase r ∧
    t.quads.tiles = s.quads.tiles.map (fun x => if x.quad = r.quad ∧ x.launch = r.launch then { x with sent := true } else x) ∧
    ∀ w, s.warp? r.warp = some w → t.warp? r.warp = some (w.longPart r.long []) := by
  refine ⟨_, exec_tongsRequest_flush harg hfind h, rfl, ?_, fun w hw => ?_⟩
  · exact List.map_congr_left fun x _ => by simp only [Bool.and_eq_true, beq_iff_eq]
  · exact (warp?_modAnyWarp _ r.warp (f := fun w => w.longPart r.long []) fun _ => rfl).trans (congrArg _ hw)

theorem leads_rows (h : r.rows ≠ []) : Leads .tongsRequest s fun t => t.quads.nnReqs = s.quads.nnReqs.erase r ∧
    ∀ x ∈ r.rows, ∃ y ∈ t.quads.tiles, x ∈ y.rows ∧ y.quad = r.quad ∧ y.launch = r.launch ∧ y.handle = x.handle ∧ y.fmt = x.fmt ∧
      (r.flush = true → x.warp = r.warp → x.long = r.long → y.sent = true) := by
  refine ⟨_, exec_tongsRequest_rows harg hfind h, ?_⟩
  have hreqs : (r.rows.foldl (fun s x => s.enterRow r.quad r.launch x) (s.tookRequest r)).quads.nnReqs = s.quads.nnReqs.erase r := nnReqs_enterRows r.rows
  have hrows := rowIn_enterRows (s := s.tookRequest r) (quad := r.quad) (launch := r.launch) r.rows
  extract_lets t
  cases hflush : r.flush with
  | false =>
    refine ⟨hreqs, fun x hx => ?_⟩
    obtain ⟨y, hy, hin, hq, hl, hh, hfmt⟩ := hrows x hx
    exact ⟨y, hy, hin, hq, hl, hh, hfmt, fun hno => absurd hno Bool.false_ne_true⟩
  | true =>
    refine ⟨hreqs, fun x hx => ?_⟩
    obtain ⟨y, hy, hin, hq, hl, hh, hfmt, hsent⟩ := (hrows x hx).sendTiles fun t => t.rows.any fun x => x.warp == r.warp && x.long == r.long
    exact ⟨y, hy, hin, hq, hl, hh, hfmt, fun _ hw hlong => hsent fun z hz => List.any_eq_true.2 ⟨x, hz, by simp [hw, hlong]⟩⟩
end

theorem leads_timer {s : State} {id : Nat} (harg : s.arg = .id id) : Leads .tongsTimerExpiry s fun t =>
    t.quads.tiles = s.quads.tiles.map (fun x => if x.id = id ∧ x.firstAt + x.timer ≤ s.clock then { x with sent := true } else x) ∧ t.warps = s.warps := by
  have hexec : exec .tongsTimerExpiry s = .next (s.sendTiles fun t => t.id == id && decide (t.firstAt + t.timer ≤ s.clock)) := by
    show execTongsTimerExpiry s = _
    simp only [execTongsTimerExpiry, harg]
  exact ⟨_, hexec, List.map_congr_left fun x _ => by simp only [Bool.and_eq_true, beq_iff_eq, decide_eq_true_eq], rfl⟩

/-! ### Results return (07 R259, R263) -/

/-- A row's result returns to its instruction. -/
def State.rowReturns (s : State) (y : Tile) (x : NnRow) : State :=
  s.modAnyWarp x.warp fun w => w.longPart x.long (((NetRec.mk (leNat y.record)).eval x.fmt y.data x.inputs).zipIdx.map fun (o, k) => .v x.lane (x.dst + k) o)

theorem warp?_rowReturns {s : State} {n : Nat} {w : Warp} (h : s.warp? n = some w) (y : Tile) (x : NnRow) : (s.rowReturns y x).warp? n =
    some (if x.warp = n then w.longPart x.long (((NetRec.mk (leNat y.record)).eval x.fmt y.data x.inputs).zipIdx.map fun (o, k) => .v x.lane (x.dst + k) o) else w) := by
  have hid := State.id_of_warp? h
  refine (find?_map_of_keeps Warp.id _ s.warps (fun w => ?_) n).trans ((congrArg _ h).trans (congrArg some ?_))
  · split <;> rfl
  · dsimp only
    rw [hid]
    exact if_congr eq_comm rfl rfl

theorem warp?_rowsReturn {s : State} {n : Nat} {w : Warp} (h : s.warp? n = some w) (y : Tile) (rows : List NnRow) :
    (rows.foldl (fun s x => s.rowReturns y x) s).warp? n = some (rows.foldl (fun v x => if x.warp = n then
      v.longPart x.long (((NetRec.mk (leNat y.record)).eval x.fmt y.data x.inputs).zipIdx.map fun (o, k) => .v x.lane (x.dst + k) o) else v) w) := by
  induction rows generalizing s w with
  | nil => exact h
  | cons x rows ih => exact ih (warp?_rowReturns h y x)

theorem leads_results {s : State} {y : Tile} (harg : s.arg = .id y.id) (hfind : (s.quads.tiles.find? fun x => x.id == y.id && x.passed) = some y) :
    Leads .tongsTileResult s fun t => (∀ x ∈ t.quads.tiles, x.id ≠ y.id) ∧ t.mem = s.mem ∧ ∀ w, s.warp? w.id = some w → t.warp? w.id =
      some (y.rows.foldl (fun v x => if x.warp = w.id then
        v.longPart x.long (((NetRec.mk (leNat y.record)).eval x.fmt y.data x.inputs).zipIdx.map fun (o, k) => .v x.lane (x.dst + k) o) else v) w) := by
  let u := y.rows.foldl (fun s x => s.rowReturns y x) s
  have hexec : exec .tongsTileResult s = .next { u with quads := { u.quads with tiles := u.quads.tiles.filter fun t => t.id != y.id } } := by
    show execTongsTileResult s = _
    simp only [execTongsTileResult, harg, hfind]
    rfl
  refine ⟨_, hexec, fun x hx => by simpa using (List.mem_filter.1 hx).2, ?_, fun w hw => warp?_rowsReturn hw y y.rows⟩
  exact foldl_keeps (g := State.mem) (f := fun s x => s.rowReturns y x) (fun _ _ => rfl) s y.rows

end Sys2Proof.Machine

/-! PROOFS. The traps of the networks' instructions (family 07_matrix_and_neural_instructions.md; R264, R265). -/
namespace Sys2Proof.Machine

/-! ### Warps that a trap of another one leaves -/

section
variable {s : State} {n : Nat}

theorem warp?_putWarp_of_ne {v : Warp} (h : v.id ≠ n) : (s.putWarp v).warp? n = s.warp? n := by
  refine (find?_map_of_keeps Warp.id (fun x => if x.id = v.id then v else x) s.warps (fun x => ?_) n).trans ?_
  · split
    · exact Eq.symm ‹_›
    · rfl
  · show (s.warp? n).map _ = s.warp? n
    cases hw : s.warp? n with
    | none => rfl
    | some w => exact congrArg some (if_neg fun hid => h (hid.symm.trans (State.id_of_warp? hw)))

theorem warp?_of_sansTrace {t : State} (h : t.sansTrace = s.sansTrace) (n : Nat) : t.warp? n = s.warp? n := by
  rw [State.warp?, warps_of_sansTrace h, State.warp?]

theorem warp?_traceWarp_of_ne {id : Nat} (h : id ≠ n) (flag : Option Nat) (kind info : Nat) (a1 : BitVec 54) (pc : Pc) :
    (s.traceWarp id flag kind info a1 pc).warp? n = s.warp? n := by
  rcases traceWarp_cases s id flag kind info a1 pc with ht | ⟨w, r, hw, -, ht⟩
  · exact warp?_of_sansTrace ht n
  · rw [ht]
    exact warp?_putWarp_of_ne fun hid => h ((State.id_of_warp? hw).symm.trans hid)

theorem quads_of_sansThreads {t : State} (h : t.sansThreads = s.sansThreads) : t.quads = s.quads := by
  have := congrArg State.quads h
  exact this
end

/-! ### A trap without a service (05 R182; 12 R380) -/

section
variable (s : State) (w : Warp) (l : Launch) (path : List Nat) (ext : Option Bool) {t : Trap} (again : Bool)

/-- A trap that no service takes changes its own warp alone, and there may be a trace record. -/
theorem raiseOn_unserved (h : t.served = none) : ∃ v, (s.raiseOn w l path ext t again = s.putWarp v ∨
    ∃ info a1 pc, s.raiseOn w l path ext t again = (s.putWarp v).traceWarp w.id none 8 info a1 pc) ∧ v.id = w.id := by
  unfold State.raiseOn
  split
  · exact ⟨_, .inl rfl, rfl⟩
  · extract_lets v pc record stop fatal
    have hid : v.id = w.id := (sameThreads_settleLongs w).id
    have hstop (t : Trap) (beyond : Bool) : ∃ x : Warp, stop t beyond = s.putWarp x ∧ x.id = w.id := by
      show ∃ x : Warp, (if again = true then s.withPermit v path pc _ else _) = _ ∧ _
      split
      · unfold State.withPermit
        split <;> exact ⟨_, rfl, hid⟩
      · exact ⟨_, rfl, hid⟩
    have hrecord (u : State) : record u false = u.traceWarp w.id none 8 (t.cause + false.toNat * 256) (addr54 t.info) pc := by
      rw [← hid]
    simp only [h]
    split
    · obtain ⟨x, hput, hx⟩ := hstop t t.beyond
      exact ⟨x, .inl hput, hx⟩
    · exact ⟨_, .inr ⟨_, _, _, hrecord _⟩, (sameThreads_enterHandler _ path t false pc.addr ext).id.trans hid⟩

theorem settleLongs_of_none {w : Warp} (h : w.longs = []) : w.settleLongs = w := by
  have hclose (ls : List Nat) : ls.foldl (fun v l => v.closeLane l true) w = w := by
    induction ls with
    | nil => rfl
    | cons l ls ih =>
      rw [List.foldl_cons, show w.closeLane l true = w by rw [Warp.closeLane, h]; rfl]
      exact ih
  rw [Warp.settleLongs, hclose, Warp.dropLongs]
  split
  · rfl
  · rw [h, List.filter_nil, ← h]

variable {w}
/-- A trap enters the handler of a settled warp that has one, is not masked and has nothing outstanding. -/
theorem raiseOn_enters (hset : w.settled = true) (hlongs : w.longs = []) (howe : w.owing path = false) (hmask : w.regs.trap.masked = false)
    (htba : w.regs.trap.tba ≠ 0) (hserved : t.served = none) (hfatal : t.fatal = false) : let pc := (w.lane (path.headD 0)).pc
    s.raiseOn w l path ext t again = (s.putWarp ((w.dropBackoff pc).enterHandler path t false pc.addr ext)).traceWarp w.id none 8
      (t.cause + false.toNat * 256) (addr54 t.info) pc := by
  have hdone : w.longsDone = true := by rw [Warp.longsDone, hlongs]; rfl
  simp only [State.raiseOn, hset, hdone, howe, Bool.not_true, Bool.or_self, Bool.false_eq_true, if_false, settleLongs_of_none hlongs, hserved, hfatal,
    hmask, beq_eq_false_iff_ne.2 htba]
end

/-! ### A warp that has entered its handler -/

section
variable (w : Warp) (ls : List Nat) {f : Lane → Lane} {β : Type} (g : Lane → β) (l : Nat)

theorem lane_modLanes_keeps (h : ∀ t, g (f t) = g t) : g ((w.modLanes ls f).lane l) = g (w.lane l) := by
  induction ls generalizing w with
  | nil => rfl
  | cons n ls ih =>
    refine (ih (w.modLanes [n] f)).trans ?_
    rw [Warp.lane_modLanes _ _ (List.nodup_singleton n)]
    split
    · exact h _
    · rfl
theorem lane_modLanes_sets {c : β} (h : ∀ t, g (f t) = c) {l : Nat} (hl : l ∈ ls) (hlt : l < w.width) : g ((w.modLanes ls f).lane l) = c := by
  have hset (v : Warp) : (w.width = v.width ∧ (g (v.lane l) = c ∨ l ∈ ls)) → g ((v.modLanes ls f).lane l) = c := by
    clear hl
    induction ls generalizing v with
    | nil => exact fun hv => hv.2.resolve_right List.not_mem_nil
    | cons n ls ih =>
      rintro ⟨hwidth, hv⟩
      refine ih (v.modLanes [n] f) ⟨hwidth.trans (length_foldl_modLane [n] v.regs f).symm, ?_⟩
      rw [Warp.lane_modLanes _ _ (List.nodup_singleton n)]
      by_cases hn : l = n
      · exact .inl (by rw [if_pos ⟨List.mem_singleton.2 hn, hwidth ▸ hlt⟩]; exact h _)
      · rw [if_neg fun hmem => hn (List.mem_singleton.1 hmem.1)]
        exact hv.imp id fun hmem => (List.mem_cons.1 hmem).resolve_left hn
  exact hset w ⟨rfl, .inr hl⟩
theorem trap_modLanes : (w.modLanes ls f).regs.trap = w.regs.trap := by
  show (ls.foldl (fun r n => r.modLane n f) w.regs).trap = _
  rw [foldl_modLane_other]
end

/-- The warp with its trap registers set. -/
def Warp.trapped (w : Warp) (tr : TrapRegs) (ext : Option Bool) : Warp := { w with regs := { w.regs with trap := tr }, decodedExt := ext }

theorem lane_trapped (w : Warp) (tr : TrapRegs) (ext : Option Bool) (l : Nat) : (w.trapped tr ext).lane l = w.lane l := by
  have hlanes : (w.trapped tr ext).regs.lanes = w.regs.lanes := rfl
  rw [Warp.lane, hlanes, Warp.lane]
theorem width_trapped (w : Warp) (tr : TrapRegs) (ext : Option Bool) : (w.trapped tr ext).width = w.width := by
  have hlanes : (w.trapped tr ext).regs.lanes = w.regs.lanes := rfl
  rw [Warp.width, hlanes, Warp.width]

section
variable (w : Warp) (path : List Nat) (t : Trap) (beyond : Bool) (pc : W64) (ext : Option Bool)

theorem enterHandler_eq : ∃ tr : TrapRegs, ∃ others,
    tr = ⟨trapCause t.cause t.reason t.lane t.aux.isSome false beyond, pc, t.info, t.aux.getD 0, w.regs.trap.tba, 3⟩ ∧
    w.enterHandler path t beyond pc ext = ((w.trapped tr ext).modLanes path fun l => { l.fresh with pc := .ofAddr tr.tba, handler := true }).modLanes others
      fun l => { l with held := true, handler := false } := ⟨_, _, rfl, rfl⟩

theorem trap_enterHandler : (w.enterHandler path t beyond pc ext).regs.trap =
    ⟨trapCause t.cause t.reason t.lane t.aux.isSome false beyond, pc, t.info, t.aux.getD 0, w.regs.trap.tba, 3⟩ := by
  obtain ⟨tr, others, htr, heq⟩ := enterHandler_eq w path t beyond pc ext
  rw [heq, trap_modLanes, trap_modLanes, ← htr]
  rfl
theorem v_enterHandler (l : Nat) : ((w.enterHandler path t beyond pc ext).lane l).v = (w.lane l).v := by
  obtain ⟨tr, others, -, heq⟩ := enterHandler_eq w path t beyond pc ext
  rw [heq, ← lane_trapped w tr ext]
  refine (lane_modLanes_keeps _ others Lane.v l ?_).trans (lane_modLanes_keeps _ path Lane.v l ?_) <;> exact fun _ => rfl
theorem pc_enterHandler {l : Nat} (hl : l ∈ path) (hlt : l < w.width) : ((w.enterHandler path t beyond pc ext).lane l).pc = .ofAddr w.regs.trap.tba := by
  obtain ⟨tr, others, htr, heq⟩ := enterHandler_eq w path t beyond pc ext
  have htba : tr.tba = w.regs.trap.tba := by rw [htr]
  rw [← width_trapped w tr ext] at hlt
  rw [heq, ← htba]
  refine (lane_modLanes_keeps _ others Lane.pc l ?_).trans (lane_modLanes_sets _ path Lane.pc ?_ hl hlt) <;> exact fun _ => rfl
end

theorem Warp.lt_of_populated {w : Warp} {l : Nat} (h : (w.lane l).populated = true) : l < w.width := by
  by_contra hlt
  rw [Warp.lane_of_width_le (Nat.le_of_not_lt hlt)] at h
  cases h

theorem toNat_trapCause {cause reason lane : Nat} (hcause : cause < 256) (hreason : reason < 256) :
    (trapCause cause reason lane true false false).toNat = cause + reason * 2 ^ 8 + lane % 64 * 2 ^ 16 + 2 ^ 22 := by
  simp only [trapCause, BitVec.toNat_ofNat, Bool.toNat_true, Bool.toNat_false]
  omega

/-! ### What the trap of an instruction leaves (07 R265) -/

/-- From `s` to `t` the rows of instructions that `P` does not name stay in their tiles, no row comes into one, and warps of which `P` names no instruction
are as they were. -/
structure NnKeeps (s t : State) (P : Nat → Nat → Prop) : Prop where
  stays : ∀ z ∈ s.quads.tiles, ∀ r ∈ z.rows, ¬P r.warp r.long → ∃ z' ∈ t.quads.tiles, z'.id = z.id ∧ r ∈ z'.rows
  comes : ∀ z' ∈ t.quads.tiles, ∀ r ∈ z'.rows, ∃ z ∈ s.quads.tiles, r ∈ z.rows
  others : ∀ n, (∀ o, ¬P n o) → t.warp? n = s.warp? n

section
variable {s t u : State} {P Q R : Nat → Nat → Prop}

theorem NnKeeps.refl (s : State) (P : Nat → Nat → Prop) : NnKeeps s s P :=
  ⟨fun z hz _ hr _ => ⟨z, hz, rfl, hr⟩, fun z hz _ hr => ⟨z, hz, hr⟩, fun _ _ => rfl⟩
theorem NnKeeps.trans (h : NnKeeps s t P) (h' : NnKeeps t u Q) (hP : ∀ n o, P n o → R n o) (hQ : ∀ n o, Q n o → R n o) : NnKeeps s u R where
  stays z hz r hr hno := by
    obtain ⟨z', hz', hid, hr'⟩ := h.stays z hz r hr (mt (hP _ _) hno)
    obtain ⟨z'', hz'', hid', hr''⟩ := h'.stays z' hz' r hr' (mt (hQ _ _) hno)
    exact ⟨z'', hz'', hid'.trans hid, hr''⟩
  comes z hz r hr := by
    obtain ⟨z', hz', hr'⟩ := h'.comes z hz r hr
    exact h.comes z' hz' r hr'
  others n hno := (h'.others n fun o => mt (hQ n o) (hno o)).trans (h.others n fun o => mt (hP n o) (hno o))
end

section
variable (s : State) (warp long : Nat)

theorem mem_withdraw {z : Tile} (hz : z ∈ (s.withdraw warp long).quads.tiles) {r : NnRow} (hr : r ∈ z.rows) :
    ¬(r.warp = warp ∧ r.long = long) ∧ ∃ z' ∈ s.quads.tiles, r ∈ z'.rows := by
  obtain ⟨z', hz', rfl⟩ := List.mem_map.1 (List.mem_filter.1 hz).1
  obtain ⟨hr, hkeep⟩ := List.mem_filter.1 hr
  simp only [Bool.not_eq_true', Bool.and_eq_false_iff, beq_eq_false_iff_ne] at hkeep
  exact ⟨fun ⟨hwarp, hlong⟩ => hkeep.elim (· hwarp) (· hlong), z', hz', hr⟩
theorem stays_withdraw {z : Tile} (hz : z ∈ s.quads.tiles) {r : NnRow} (hr : r ∈ z.rows) (hno : ¬(r.warp = warp ∧ r.long = long)) :
    ∃ z' ∈ (s.withdraw warp long).quads.tiles, z'.id = z.id ∧ r ∈ z'.rows := by
  have hin : r ∈ z.rows.filter fun r => !(r.warp == warp && r.long == long) := List.mem_filter.2 ⟨hr, by simpa [imp_iff_not_or] using hno⟩
  exact ⟨_, List.mem_filter.2 ⟨List.mem_map_of_mem hz, by simpa using List.ne_nil_of_mem hin⟩, rfl, hin⟩

variable {s warp long} {l : Launch} {t : Trap} {w : Warp} {o : LongOp}

/-- The warp as its instruction is withdrawn. -/
def Warp.withdrawn (w : Warp) (long : Nat) : Warp := { w with longs := w.longs.filter (fun o => o.id != long), disabled := false }
/-- The lanes of an instruction that still hold a thread. -/
def LongOp.path (o : LongOp) (w : Warp) : List Nat := (o.left.map (·.1)).filter fun l => (w.lane l).populated && !(w.lane l).exited

theorem nnTrap_of_found (hw : s.warp? warp = some w) (ho : (w.longs.find? fun o => o.id == long) = some o) : s.nnTrap l warp long t =
    ((s.withdraw warp long).putWarp (w.withdrawn long)).raiseOn (w.withdrawn long) l (o.path w) (some true) t := by
  simp only [State.nnTrap, hw, ho]
  rfl

theorem quads_nnTrap (hw : s.warp? warp = some w) (ho : (w.longs.find? fun o => o.id == long) = some o) :
    (s.nnTrap l warp long t).quads = (s.withdraw warp long).quads := by
  rw [nnTrap_of_found hw ho]
  exact quads_of_sansThreads (reacts_raiseOn _ _ l _ _ t true).sansThreads

theorem nnKeeps_nnTrap (hserved : t.served = none) : NnKeeps s (s.nnTrap l warp long t) fun n o => n = warp ∧ o = long := by
  cases hw : s.warp? warp with
  | none =>
    simp only [State.nnTrap, hw]
    exact .refl s _
  | some w =>
    cases ho : w.longs.find? fun o => o.id == long with
    | none =>
      simp only [State.nnTrap, hw, ho]
      exact .refl s _
    | some o =>
      have hquads := quads_nnTrap (l := l) (t := t) hw ho
      refine ⟨fun z hz r hr hno => hquads ▸ stays_withdraw s warp long hz hr hno, fun z hz r hr => (mem_withdraw s warp long (hquads ▸ hz) hr).2,
        fun n hn => ?_⟩
      have hne : w.id ≠ n := fun hid => hn long ⟨hid.symm.trans (State.id_of_warp? hw), rfl⟩
      have hput (v : Warp) (hv : v.id = w.id) : (((s.withdraw warp long).putWarp (w.withdrawn long)).putWarp v).warp? n = s.warp? n :=
        (warp?_putWarp_of_ne (hv ▸ hne)).trans (warp?_putWarp_of_ne hne)
      rw [nnTrap_of_found hw ho]
      obtain ⟨v, hput' | ⟨info, a1, pc, htrace⟩, hv⟩ :=
        raiseOn_unserved ((s.withdraw warp long).putWarp (w.withdrawn long)) (w.withdrawn long) l (o.path w) (some true) true hserved
      · rw [hput']
        exact hput v hv
      · rw [htrace]
        exact (warp?_traceWarp_of_ne hne _ _ _ _ _).trans (hput v hv)

/-- A settled warp with a handler, with that one instruction outstanding, begins its handler, and the rows of the instruction leave every tile. -/
theorem nnTrap_enters (hw : s.warp? warp = some w) (hlongs : w.longs = [o]) (ho : o.id = long) (hset : w.settled = true)
    (howe : w.owing (o.path w) = false) (hmask : w.regs.trap.masked = false) (htba : w.regs.trap.tba ≠ 0) (hserved : t.served = none)
    (hfatal : t.fatal = false) : let pc := (w.lane ((o.path w).headD 0)).pc
    (∀ z ∈ (s.nnTrap l warp long t).quads.tiles, ∀ r ∈ z.rows, r.warp = warp → r.long ≠ long) ∧
    (s.nnTrap l warp long t).warp? warp = some (((w.withdrawn long).dropBackoff pc).enterHandler (o.path w) t false pc.addr (some true)) := by
  have hfind : (w.longs.find? fun o => o.id == long) = some o := by simp [hlongs, ho]
  have hnone : (w.withdrawn long).longs = [] := by simp [Warp.withdrawn, hlongs, ho]
  have hid : w.id = warp := State.id_of_warp? hw
  have hquads := quads_nnTrap (l := l) (t := t) hw hfind
  intro pc
  refine ⟨fun z hz r hr hwarp hlong => (mem_withdraw s warp long (hquads ▸ hz) hr).1 ⟨hwarp, hlong⟩, ?_⟩
  have hthere := warp?_putWarp (s := s.withdraw warp long) (v := w.withdrawn long) hid hw
  have hentered := warp?_putWarp (v := ((w.withdrawn long).dropBackoff pc).enterHandler (o.path w) t false pc.addr (some true)) hid hthere
  rw [nnTrap_of_found hw hfind, raiseOn_enters _ l (o.path w) (some true) true (w := w.withdrawn long) hset hnone howe hmask htba hserved hfatal]
  refine (warp?_of_sansTrace (sansTrace_traceWarp_of_settled (fun v hv => ?_) _ _ _ _ _) _).trans hentered
  cases hentered.symm.trans (hid ▸ hv)
  exact hset
end

/-! ### The traps of a tile -/

/-- The instructions of a list trap in turn. -/
def State.trapEach (s : State) (l : Launch) (xs : List (Nat × Nat × Nat)) (trap : Nat → Trap) : State :=
  xs.foldl (fun s x => s.nnTrap l x.1 x.2.1 (trap x.2.2)) s

theorem failTile_eq_trapEach (s : State) (l : Launch) (y : Tile) (trap : Nat → Trap) : s.failTile l y trap = s.trapEach l y.owners trap := rfl

theorem nnKeeps_trapEach (s : State) (l : Launch) (xs : List (Nat × Nat × Nat)) {trap : Nat → Trap} (h : ∀ i, (trap i).served = none) :
    NnKeeps s (s.trapEach l xs trap) fun n o => ∃ x ∈ xs, x.1 = n ∧ x.2.1 = o := by
  induction xs generalizing s with
  | nil => exact .refl s _
  | cons x xs ih =>
    refine (nnKeeps_nnTrap (h x.2.2)).trans (ih _) ?_ ?_
    · rintro n o ⟨rfl, rfl⟩
      exact ⟨x, List.mem_cons_self, rfl, rfl⟩
    · rintro n o ⟨z, hz, h⟩
      exact ⟨z, List.mem_cons_of_mem x hz, h⟩

section
variable (y : Tile)

/-- Shape-invalid on behalf of a tile: TRAPINFO the handle, TRAPAUX the record. -/
def Tile.invalid (reason lane : Nat) : Trap := { cause := 8, reason := reason, lane := lane, info := y.handle, aux := some y.handle }

theorem nodup_owners : y.owners.Nodup := by
  refine (nodup_dedup _).map fun p q h => ?_
  have hwarp : p.1 = q.1 := congrArg (fun z : Nat × Nat × Nat => z.1) h
  have hlong : p.2 = q.2 := congrArg (fun z : Nat × Nat × Nat => z.2.1) h
  exact Prod.ext hwarp hlong
theorem exists_owner {r : NnRow} (hr : r ∈ y.rows) : ∃ x ∈ y.owners, x.1 = r.warp ∧ x.2.1 = r.long :=
  ⟨_, List.mem_map_of_mem ((mem_dedup _ _).2 (List.mem_map_of_mem hr)), rfl, rfl⟩

variable {y}
/-- The instructions of a tile that a test names trap: the first statement of `TileTraps` at the instruction's turn, the others as its turn's neighbours
leave them. -/
theorem tileTraps_trapEach (s : State) (l : Launch) {own : Nat → Nat → Prop} {xs : List (Nat × Nat × Nat)} (hnodup : xs.Nodup)
    (hxs : ∀ x, x ∈ xs ↔ x ∈ y.owners ∧ own x.1 x.2.1) {reason : Nat} (hreason : reason < 256) :
    TileTraps s (s.trapEach l xs (y.invalid reason)) y own reason := by
  have hkeeps (s : State) (xs : List (Nat × Nat × Nat)) := nnKeeps_trapEach s l xs (trap := y.invalid reason) fun _ => rfl
  refine ⟨fun x hx hown hsole w o hw hlongs ho hset howe hmask htba => ?enters, fun z hz r hr hno => ?stays, fun w hw hno => ?others⟩
  case stays => exact (hkeeps s xs).stays z hz r hr fun ⟨x, hx, hwarp, hlong⟩ => hno x ((hxs x).1 hx).1 ((hxs x).1 hx).2 hwarp.symm hlong.symm
  case others => exact ((hkeeps s xs).others w.id fun o ⟨x, hx, hwarp, _⟩ => hno x ((hxs x).1 hx).1 ((hxs x).1 hx).2 hwarp).trans hw
  case enters =>
    obtain ⟨as, bs, rfl⟩ := List.append_of_mem ((hxs x).2 ⟨hx, hown⟩)
    obtain ⟨-, hbs, has⟩ := List.nodup_append.1 hnodup
    have hbefore : ∀ z ∈ as, z.1 ≠ x.1 := fun z hz heq =>
      has z hz x List.mem_cons_self (hsole z ((hxs z).1 (List.mem_append_left _ hz)).1 heq)
    have hafter : ∀ z ∈ bs, z.1 ≠ x.1 := fun z hz heq =>
      (List.nodup_cons.1 hbs).1 (hsole z ((hxs z).1 (List.mem_append_right _ (List.mem_cons_of_mem x hz))).1 heq ▸ hz)
    let s1 := s.trapEach l as (y.invalid reason)
    let s2 := s1.nnTrap l x.1 x.2.1 (y.invalid reason x.2.2)
    have hsplit : s.trapEach l (as ++ x :: bs) (y.invalid reason) = s2.trapEach l bs (y.invalid reason) := by
      rw [State.trapEach, List.foldl_append, List.foldl_cons]
      rfl
    have hw1 : s1.warp? x.1 = some w := ((hkeeps s as).others x.1 fun o ⟨z, hz, hwarp, _⟩ => hbefore z hz hwarp).trans hw
    obtain ⟨hgone, hthere⟩ := nnTrap_enters (l := l) (t := y.invalid reason x.2.2) hw1 hlongs ho hset howe hmask htba rfl rfl
    rw [hsplit]
    refine ⟨fun z hz r hr => ?_, _, ((hkeeps s2 bs).others x.1 fun o ⟨z, hz, hwarp, _⟩ => hafter z hz hwarp).trans hthere, ?_, rfl, ?_⟩
    · obtain ⟨z', hz', hr'⟩ := (hkeeps s2 bs).comes z hz r hr
      exact hgone z' hz' r hr'
    · show w.longs.filter _ = []
      simp [hlongs, ho]
    · rw [trap_enterHandler]
      exact ⟨rfl, rfl, rfl, toNat_trapCause (by decide : 8 < 256) hreason, rfl,
        fun i hi => pc_enterHandler _ _ _ _ _ _ hi (Warp.lt_of_populated (Bool.and_eq_true_iff.1 (List.mem_filter.1 hi).2).1),
        fun i k => congrArg (fun v => v.getD k 0) (v_enterHandler _ _ _ _ _ _ i)⟩
end

end Sys2Proof.Machine

/-! PROOFS. A sent tile is checked (family 07_matrix_and_neural_instructions.md; R261 to R265). -/
namespace Sys2Proof.Machine

/-- The instructions of a tile with a row whose registers do not reach, in the order of its owners (07 R264). -/
def Tile.unfit (y : Tile) (r : NetRec) : List (Nat × Nat × Nat) :=
  y.owners.filter fun x => y.rows.any fun z => z.warp == x.1 && z.long == x.2.1 && !rowFits r z

theorem mem_unfit (y : Tile) (r : NetRec) (x : Nat × Nat × Nat) :
    x ∈ y.unfit r ↔ x ∈ y.owners ∧ ∃ z ∈ y.rows, z.warp = x.1 ∧ z.long = x.2.1 ∧ rowFits r z = false := by
  simp [Tile.unfit, and_assoc]
theorem unfit_of_fits {y : Tile} {r : NetRec} (h : ∀ x ∈ y.rows, rowFits r x = true) : y.unfit r = [] := by
  refine List.eq_nil_iff_forall_not_mem.2 fun x hx => ?_
  obtain ⟨-, z, hz, -, -, hno⟩ := (mem_unfit y r x).1 hx
  exact Bool.false_ne_true (hno.symm.trans (h z hz))
theorem unfit_ne_nil {y : Tile} {r : NetRec} (h : ∃ x ∈ y.rows, rowFits r x = false) : y.unfit r ≠ [] := by
  obtain ⟨z, hz, hno⟩ := h
  obtain ⟨x, hx, hwarp, hlong⟩ := exists_owner y hz
  exact List.ne_nil_of_mem ((mem_unfit y r x).2 ⟨hx, z, hz, hwarp.symm, hlong.symm, hno⟩)

theorem lt_of_bad {r : NetRec} {c : Nat} (h : r.bad = some c) : c < 256 := by
  have hcodes : c = 0x10 ∨ c = 0x11 ∨ c = 0x12 ∨ c = 0x13 := by
    simp only [NetRec.bad] at h
    split_ifs at h <;> cases h <;> decide
  omega

theorem splits_of_no_strangers {s : State} {y : Tile} {block : Nat} (h : s.strangers y block = []) (vas : List W64) : s.splits y block vas = false := by
  simp [State.splits, h]

theorem quads_nnOpen (s : State) (warp long : Nat) : (s.nnOpen warp long).quads = s.quads := by
  unfold State.nnOpen
  extract_lets mine
  split <;> rfl
theorem quads_nnOpens (s : State) (xs : List (Nat × Nat × Nat)) : (xs.foldl (fun s x => s.nnOpen x.1 x.2.1) s).quads = s.quads :=
  foldl_keeps (g := State.quads) (fun s x => quads_nnOpen s x.1 x.2.1) s xs

/-- A checked tile keeps its rows, and its first layer stands in the table of its quad. -/
theorem passTile_enters {s : State} {y : Tile} (hy : y ∈ s.quads.tiles) (l : Launch) (w : Who) (r : NetRec) (record : List Byte) (data : List (List Byte))
    (gs : List Seg) : let t := s.passTile l y w r record data gs
    (∃ z ∈ t.quads.tiles, z.id = y.id ∧ z.checked = true ∧ z.layers = r.layers ∧ z.rows = y.rows) ∧
    ∃ o ∈ t.quads.ops, o.quad = y.quad ∧ o.launch = l.id ∧ o.kind = .tongs y.id 1 ∧ o.granted = false := by
  have hread : (s.useReads 0 gs).quads = s.quads := quads_of_sansService (sansService_useReads s 0 gs)
  intro t
  have hquads : t.quads = _ := quads_nnOpens _ y.owners
  rw [hquads]
  refine ⟨⟨_, List.mem_map_of_mem (a := y) ?_, ?_⟩, _, List.mem_append_right _ (List.mem_singleton_self _), rfl, rfl, rfl, rfl⟩
  · exact congrArg Quads.tiles hread ▸ hy
  · rw [if_pos rfl]
    exact ⟨rfl, rfl, rfl, rfl⟩

section
variable {s : State} {y : Tile} {l : Launch} {w0 : Warp} (harg : s.arg = .id y.id)
  (hfind : (s.quads.tiles.find? fun x => x.id == y.id && x.sent && !x.checked) = some y) (hl : s.launch? y.launch = some l)
  (hw0 : s.warp? ((y.rows.map (·.warp)).headD 0) = some w0) (hroom : s.tableRoom y.quad = true)
include harg hfind hl hw0 hroom

theorem leads_split (hin : inWindow y.handle = true) (hne : s.strangers y w0.block ≠ []) : Leads .tongsTileCheck s fun t =>
    (∃ z ∈ t.quads.tiles, z.id = y.id ∧ ∀ x, x ∈ z.rows ↔ x ∈ y.rows ∧ x ∉ s.strangers y w0.block) ∧
    (∃ z ∈ t.quads.tiles, z.id = s.ctr.tile ∧ z.sent = true ∧ z.checked = false ∧ z.rows = s.strangers y w0.block) ∧ t.warps = s.warps := by
  have hsplits : s.splits y w0.block [y.handle] = true := by simp [State.splits, hin, hne]
  have hexec : exec .tongsTileCheck s = .next (s.splitTile y w0.block) := by
    show execTongsTileCheck s = _
    simp only [execTongsTileCheck, harg, hfind, hl, hw0, hroom, hsplits, Bool.not_true, Bool.false_eq_true, if_false, if_true]
  have hstate := List.find?_some hfind
  simp only [Bool.and_eq_true, Bool.not_eq_true'] at hstate
  obtain ⟨⟨-, hsent⟩, hopen⟩ := hstate
  refine ⟨_, hexec, ⟨_, List.mem_append_left _ (List.mem_map_of_mem (List.mem_of_find?_eq_some hfind)), ?_⟩,
    ⟨_, List.mem_append_right _ (List.mem_singleton_self _), rfl, hsent, hopen, rfl⟩, rfl⟩
  rw [if_pos rfl]
  exact ⟨rfl, fun x => by simp⟩

variable {g0 : List Seg} (hown : s.strangers y w0.block = []) (hreach : s.reachRead ⟨l, w0.core, w0.block, .tongs w0.id⟩ y.handle 64 = .ok g0)
  (hprep : s.agentPrep ⟨l, w0.core, w0.block, .tongs w0.id⟩ g0 [] = none) {r : NetRec}
  (hr : (NetRec.mk (leNat (s.reachBytes ⟨l, w0.core, w0.block, .tongs w0.id⟩ g0))) = r)
include hown hreach hprep hr

theorem leads_bad {c : Nat} (hbad : r.bad = some c) : Leads .tongsTileCheck s fun t => TileTraps s t y (fun _ _ => True) c := by
  have hexec : exec .tongsTileCheck s = .next (s.failTile l y (y.invalid c)) := by
    show execTongsTileCheck s = _
    simp only [execTongsTileCheck, harg, hfind, hl, hw0, hroom, splits_of_no_strangers hown, hreach, hprep, hr, hbad, Bool.not_true, Bool.false_eq_true,
      if_false]
    rfl
  exact ⟨_, hexec, tileTraps_trapEach s l (nodup_owners y) (by simp) (lt_of_bad hbad)⟩

variable (hgood : r.bad = none)
include hgood

theorem leads_unfit (h : ∃ x ∈ y.rows, rowFits r x = false) :
    Leads .tongsTileCheck s fun t => TileTraps s t y (fun w o => ∃ x ∈ y.rows, x.warp = w ∧ x.long = o ∧ rowFits r x = false) 0x15 := by
  have hsome : (y.unfit r).isEmpty = false := List.isEmpty_eq_false_iff.2 (unfit_ne_nil h)
  have hexec : exec .tongsTileCheck s = .next (s.trapEach l (y.unfit r) (y.invalid 0x15)) := by
    show execTongsTileCheck s = _
    simp only [execTongsTileCheck, harg, hfind, hl, hw0, hroom, splits_of_no_strangers hown, hreach, hprep, hr, hgood, Bool.not_true, Bool.false_eq_true,
      if_false]
    exact congrArg Host.Outcome.next (if_pos (congrArg Bool.not hsome))
  exact ⟨_, hexec, tileTraps_trapEach s l (xs := y.unfit r) ((nodup_owners y).filter _) (mem_unfit y r) (by decide)⟩

variable (hfits : ∀ x ∈ y.rows, rowFits r x = true)
include hfits

theorem leads_misaligned (h : r.misaligned = true) : Leads .tongsTileCheck s fun t => TileTraps s t y (fun _ _ => True) 0x16 := by
  have hnone : ¬(!(y.unfit r).isEmpty) = true := by simp [unfit_of_fits hfits]
  have hexec : exec .tongsTileCheck s = .next (s.failTile l y (y.invalid 0x16)) := by
    show execTongsTileCheck s = _
    simp only [execTongsTileCheck, harg, hfind, hl, hw0, hroom, splits_of_no_strangers hown, hreach, hprep, hr, hgood, h, Bool.not_true,
      Bool.false_eq_true, if_false, if_true]
    exact congrArg Host.Outcome.next (if_neg hnone)
  exact ⟨_, hexec, tileTraps_trapEach s l (nodup_owners y) (by simp) (by decide)⟩

theorem leads_passes (h : r.misaligned = false) {gss : List (List Seg)}
    (hall : s.reachAll ⟨l, w0.core, w0.block, .tongs w0.id⟩ (((List.range r.layers).map (· + 1)).flatMap fun k =>
      [(BitVec.ofNat 64 (r.field 63 0 + (r.weightsAt k).1), (r.weightsAt k).2), (BitVec.ofNat 64 (r.field 127 64 + (r.biasAt k).1), (r.biasAt k).2)]) = .ok gss)
    (hprep' : s.agentPrep ⟨l, w0.core, w0.block, .tongs w0.id⟩ gss.flatten [] = none) : Leads .tongsTileCheck s fun t =>
    (∃ z ∈ t.quads.tiles, z.id = y.id ∧ z.checked = true ∧ z.layers = r.layers ∧ z.rows = y.rows) ∧
    ∃ o ∈ t.quads.ops, o.quad = y.quad ∧ o.launch = l.id ∧ o.kind = .tongs y.id 1 ∧ o.granted = false := by
  have hnone : ¬(!(y.unfit r).isEmpty) = true := by simp [unfit_of_fits hfits]
  let who : Who := ⟨l, w0.core, w0.block, .tongs w0.id⟩
  have hexec : exec .tongsTileCheck s =
      .next (s.passTile l y who r (s.reachBytes who g0) (gss.map (s.reachBytes who)) (g0 ++ gss.flatten)) := by
    show execTongsTileCheck s = _
    simp only [execTongsTileCheck, harg, hfind, hl, hw0, hroom, splits_of_no_strangers hown, hreach, hprep, hr, hgood, h, hall, hprep', Bool.not_true,
      Bool.false_eq_true, if_false]
    exact congrArg Host.Outcome.next (if_neg hnone)
  exact ⟨_, hexec, passTile_enters (List.mem_of_find?_eq_some hfind) l who r _ _ _⟩
end

/-- Settles O57: requests and timers by the tiles they change; a sent tile by the check it fails first, its traps by `tileTraps_trapEach`. -/
theorem networkTilesRun : Obligations.NetworkTilesRun := by
  unfold Obligations.NetworkTilesRun
  refine ⟨fun s r harg hfind => ⟨leads_flush harg hfind, leads_rows harg hfind⟩, fun s id harg => leads_timer harg,
    fun s y l w0 g0 harg hfind hl hw0 hroom => ⟨leads_split harg hfind hl hw0 hroom, fun hown hreach hprep => ?_⟩,
    fun s y harg hfind => leads_results harg hfind⟩
  exact ⟨fun c => leads_bad harg hfind hl hw0 hroom hown hreach hprep rfl,
    leads_unfit harg hfind hl hw0 hroom hown hreach hprep rfl,
    leads_misaligned harg hfind hl hw0 hroom hown hreach hprep rfl,
    fun gss hgood hfits hmis hall => leads_passes harg hfind hl hw0 hroom hown hreach hprep rfl hgood hfits hmis hall⟩

end Sys2Proof.Machine

/-! PROOFS. Records to other packages and the offer of a core (family 08_ray_and_collective_instructions.md; R282, R283; 05 R192). -/
namespace Sys2Proof.Machine

/-! ### What a package is told (13 R425, R430) -/

section
variable {s : State} {dst id : Nat} {req : FabReq}

theorem tellPkg_of_routed (h : s.routed dst = true) : s.tellPkg dst id req = s.sendPacket ⟨s.pkg, dst, 0, 0, 0, 0, none, 0, 0, id, req⟩ := if_pos h

theorem tellPkg_of_peer (hroute : s.routed dst = false) (hknown : (s.ports.peerTable.any fun x => x.1 == dst) = true) (hup : s.ports.peers.contains dst = false) :
    s.tellPkg dst id req = { s with out := s.out ++ [.message dst req], ports := { s.ports with delivery := dedup (s.ports.delivery ++ [dst]) } } := by
  rw [State.tellPkg, hroute, hknown, hup]
  rfl

theorem sendPacket_of_up {p : Packet} (hroute : s.routed p.dst = true) (hup : s.ports.down.getLsbD (s.hopPort p) = false) :
    s.sendPacket p = { s with out := s.out ++ [.packet (s.hopPort p) p] } := by
  rw [State.sendPacket, hroute, hup]
  rfl
end

/-- What a package is told changes what is on its way and the ports' list of delivery contexts, and nothing else. -/
theorem tellPkg_eq (s : State) (dst id : Nat) (req : FabReq) : s.tellPkg dst id req =
    { s with out := (s.tellPkg dst id req).out, ports := { s.ports with delivery := (s.tellPkg dst id req).ports.delivery } } := by
  unfold State.tellPkg State.sendPacket
  split
  · split <;> rfl
  · split <;> rfl

@[simp] theorem tellPkg_mem (s : State) (dst id : Nat) (req : FabReq) : (s.tellPkg dst id req).mem = s.mem := by rw [tellPkg_eq]
@[simp] theorem tellPkg_credits (s : State) (dst id : Nat) (req : FabReq) : (s.tellPkg dst id req).credits = s.credits := by rw [tellPkg_eq]

/-! ### What an instruction keeps of its lanes' operands (01 R38) -/

/-- What an instruction keeps of the lane `l` when it has performed in part: the operands of its access among `as`. -/
def State.planFor (s : State) (as : List LaneAcc) (l : Nat) : Plan :=
  match as.find? fun a => a.lane == l with
  | some a => ⟨s.free, a.va, a.b, a.c, a.segs.map fun g => { g with mark := none, fill := none, sites := [] }, s.cur.code, none⟩
  | none => ⟨s.free, 0, 0, 0, [], s.cur.code, none⟩

theorem keepPlans_eq_planFor (s : State) (e : Env) (as : List LaneAcc) :
    s.keepPlans e as = e.w.mapAt (s.act e.w) fun l t => { t with plan := some (t.plan.getD (s.planFor as l)) } :=
  foldl_modLanes_eq_mapAt e.w (s.act e.w) (fun l t => { t with plan := some (t.plan.getD (s.planFor as l)) }) (s.nodup_act e.w)

theorem plan_keepPlans {s : State} {e : Env} {as : List LaneAcc} {l : Nat} (hl : l ∈ s.act e.w) :
    ((s.keepPlans e as).lane l).plan = some ((e.w.lane l).plan.getD (s.planFor as l)) := by
  rw [keepPlans_eq_planFor, lane_mapAt, if_pos ⟨hl, State.lt_of_mem_act hl⟩]

/-- A warp that keeps its lanes' operands and nothing else has performed in part. -/
theorem partDone_keepPlans (s : State) (e : Env) (as : List LaneAcc) : PartDone e.w (s.keepPlans e as) (s.act e.w) [] :=
  partDone_keepGoing s e as (now := []) List.nodup_nil

theorem find?_map_lane {g : Nat → LaneAcc} (hg : ∀ l, (g l).lane = l) {ls : List Nat} {l : Nat} (hl : l ∈ ls) :
    ((ls.map g).find? fun a => a.lane == l) = some (g l) := by
  induction ls with
  | nil => cases hl
  | cons k ls ih =>
    rw [List.map_cons, List.find?_cons, hg]
    by_cases hk : k = l
    · rw [hk, beq_self_eq_true]
    · rw [beq_false_of_ne hk]
      exact ih ((List.mem_cons.1 hl).resolve_left (Ne.symm hk))

/-! ### `rfwd` (R282, R283) -/

/-- The package that a lane of an `rfwd` names: as its issue evaluated it, else as its register says now. -/
def Warp.forwardPkg (w : Warp) (f : Fields) (l : Nat) : Nat :=
  match (w.lane l).plan with
  | some p => p.b.toNat
  | none => (w.opBi f l f.imm).toNat
/-- The endpoint that it names. -/
def Warp.forwardEp (w : Warp) (f : Fields) (l : Nat) : Nat :=
  match (w.lane l).plan with
  | some p => p.c.toNat
  | none => (w.opC f l).toNat
/-- The status that a lane of an `rfwd` has obtained; one that has obtained nothing counts as FAILED. -/
def Warp.forwardStatus (w : Warp) (l : Nat) : Nat :=
  match (w.lane l).got with
  | some (b :: _) => b.toNat
  | _ => 3

/-- The warp of an `rfwd` that keeps its lanes' operands. -/
def State.forwarder (s : State) (e : Env) (f : Fields) : Warp :=
  s.keepPlans e ((s.exec e.w f.ga f.gb).map fun l => ⟨l, 0, 0, (e.w.opBi f l f.imm).setWidth 64, (e.w.opC f l).setWidth 64, []⟩)

section
variable {s : State} {e : Env} {f : Fields} {l : Nat} (hl : l ∈ s.exec e.w f.ga f.gb)
include hl

theorem plan_forwarder : ((s.forwarder e f).lane l).plan =
    some ((e.w.lane l).plan.getD ⟨s.free, 0, (e.w.opBi f l f.imm).setWidth 64, (e.w.opC f l).setWidth 64, [], s.cur.code, none⟩) := by
  rw [State.forwarder, plan_keepPlans (State.act_of_exec hl), State.planFor, find?_map_lane (fun _ => rfl) hl]
  rfl

theorem forwardPkg_kept : (((s.forwarder e f).lane l).plan.map (·.b.toNat)).getD 0 = e.w.forwardPkg f l := by
  rw [plan_forwarder hl, Warp.forwardPkg]
  cases (e.w.lane l).plan with
  | some p => rfl
  | none => exact BitVec.toNat_setWidth_of_le (by decide)

theorem forwardEp_kept : (((s.forwarder e f).lane l).plan.map (·.c.toNat)).getD 0 = e.w.forwardEp f l := by
  rw [plan_forwarder hl, Warp.forwardEp]
  cases (e.w.lane l).plan with
  | some p => rfl
  | none => exact BitVec.toNat_setWidth_of_le (by decide)
end

/-- What an `rfwd` writes of a lane: its status under the package's number, and P(E) where it names one. -/
def Warp.forwardWrites (w : Warp) (f : Fields) (l : Nat) : List RegWrite :=
  .v l f.d (BitVec.ofNat 32 (w.forwardStatus l + w.forwardPkg f l * 256)) :: (if f.e < 15 then [.p l f.e (w.forwardStatus l == 0)] else [])

section
variable {w : Ext} {s : State} {e : Env} (he : s.env = some e) (hset : e.w.settled = true)
  (hne : s.exec e.w (Fields.ofExt w).ga (Fields.ofExt w).gb ≠ [])
  (hspill : (Fields.ofExt w).mod % 2 = 1 → e.l.overflowFor (Fields.ofExt w).recBytes ≠ none)
include he hset hne hspill

theorem exec_rfwd_of_lane {l : Nat} (hfind : ((s.exec e.w (Fields.ofExt w).ga (Fields.ofExt w).gb).find? fun l => (e.w.lane l).got.isNone) = some l) :
    let f := Fields.ofExt w
    ∃ v, PartDone e.w v (s.act e.w) [] ∧ exec (.rfwd w) s = .next ((s.putWarp v).forwardLane e l (e.w.forwardPkg f l) (e.w.forwardEp f l) f.recBytes
      (if f.mod % 2 = 1 then e.l.overflowFor f.recBytes else none) (e.w.regBytes l f.a f.recBytes)) := by
  intro f
  refine ⟨s.forwarder e f, partDone_keepPlans s e _, ?_⟩
  have hl := List.mem_of_find?_eq_some hfind
  rw [← forwardPkg_kept (f := f) hl, ← forwardEp_kept (f := f) hl]
  show execRfwd w s = _
  rw [execRfwd, State.whenSettled_of_env he hset]
  dsimp only
  split
  · exact absurd ‹_› hne
  · rw [if_neg fun h => hspill h.1 (Option.isNone_iff_eq_none.1 h.2.2), hfind]
    rfl

theorem exec_rfwd_of_all (hall : ∀ l ∈ s.exec e.w (Fields.ofExt w).ga (Fields.ofExt w).gb, (e.w.lane l).got ≠ none) :
    let f := Fields.ofExt w
    let ex := s.exec e.w f.ga f.gb
    exec (.rfwd w) s = .next (if (ex.any fun l => e.w.forwardStatus l == rfwdSent) = true then s.stall e.w
      else s.finishLong e f.la (.v f.d :: (if f.e < 15 then [.p f.e] else [])) (ex.flatMap (e.w.forwardWrites f))) := by
  intro f ex
  have hwrites : ex.flatMap (e.w.forwardWrites f) = _ := List.flatMap_congr fun l hl => by
    rw [Warp.forwardWrites, ← forwardPkg_kept (f := f) hl]
  have hfind : (ex.find? fun l => (e.w.lane l).got.isNone) = none :=
    List.find?_eq_none.2 fun l hl h => hall l hl (Option.isNone_iff_eq_none.1 h)
  rw [hwrites]
  show execRfwd w s = _
  rw [execRfwd, State.whenSettled_of_env he hset]
  dsimp only
  split
  · exact absurd ‹_› hne
  · rw [if_neg fun h => hspill h.1 (Option.isNone_iff_eq_none.1 h.2.2), hfind]
    rfl
end

/-! ### A record under a credit (13 R431, R432) -/

/-- A record is on its way under the credit `c` to the receive slot `slot` of the endpoint `ep`: the credit is spent and its count of records has risen. -/
def State.spendCredit (s : State) (e : Env) (lane pk ep slot : Nat) (c : Credit) : State := { s with
  credits := s.credits.map fun x : Credit => if x.pkg = pk ∧ x.ep = ep then { x with free := x.free - 1, rseq := x.rseq + 1 } else x
  ctr := { s.ctr with remote := s.ctr.remote + 1 }
  remotes := s.remotes ++ [⟨s.ctr.remote, e.w.id, pk, s.clock, false, 66, lane, 0, ep, slot, none, [], [], c.rseq.toNat, none⟩] }

section
variable {s : State} {pk : Nat} (hpk : pk ≤ 127) (hpath : s.hasPath pk = true) (hgone : s.peerGone pk = false)
include hpath hgone

theorem known_of_hasPath (hroute : s.routed pk = false) : (s.ports.peerTable.any fun x => x.1 == pk) = true ∧ s.ports.peers.contains pk = false := by
  rw [State.hasPath, hroute, Bool.false_or, Bool.and_eq_true] at hpath
  rw [State.peerGone, hroute] at hgone
  exact ⟨hpath.2, hgone⟩

variable {ep : Nat} (hep : ep ≤ 15) (hother : pk ≠ s.pkg) {c : Credit} {k : Nat}
  (hcredit : s.credits.find? (fun c => c.pkg == pk && c.ep == ep && decide (0 < c.free)) = some c) (hslot : s.nextSslot pk ep c.granted = some k)
include hpk hep hother hcredit hslot

theorem forwardLane_of_credit (e : Env) (l n : Nat) (spill : Option Nat) (bytes : List Byte) : s.forwardLane e l pk ep n spill bytes =
    ((s.spendCredit e l pk ep k c).tellPkg pk s.ctr.remote (.record (recordHeader e.l.hdr.tenant k n ep s.pkg c.rseq) bytes)).modWarp e.w.id
      fun w => w.settleLane l rfwdSent := by
  have hgood : ¬(pk > 127 ∨ ep > 15 ∨ (!(pk == s.pkg || s.hasPath pk)) = true) := by
    rw [hpath, Bool.or_true]
    simp only [Bool.not_true, Bool.false_eq_true, or_false]
    omega
  unfold State.forwardLane
  rw [if_neg hgood, hgone, if_neg Bool.false_ne_true, if_neg hother, hcredit]
  dsimp only [Option.bind_some]
  rw [hslot]
  rfl
end

/-! ### `ctxsw` (05 R192) -/

section
variable {w : Std} {s : State} {e : Env} (he : s.env = some e) (hset : e.w.settled = true)
include he hset

theorem exec_ctxsw_of_no_lane (hex : s.exec e.w (Fields.ofStd w).ga (Fields.ofStd w).gb = []) : exec (.ctxsw w) s = .next (s.skipWarp e) := by
  show execCtxsw w s = _
  rw [execCtxsw, State.whenSettled_of_env he hset, hex]

variable (hne : s.exec e.w (Fields.ofStd w).ga (Fields.ofStd w).gb ≠ [])
include hne

theorem exec_ctxsw_user (hpriv : e.l.hdr.privileged = false) :
    exec (.ctxsw w) s = .next (s.raise e (unprivileged ((s.exec e.w (Fields.ofStd w).ga (Fields.ofStd w).gb).headD 0))) := by
  obtain ⟨l, ls, hex⟩ := List.exists_cons_of_ne_nil hne
  show execCtxsw w s = _
  rw [execCtxsw, State.whenSettled_of_env he hset, hex, hpriv]
  rfl

variable (hpriv : e.l.hdr.privileged = true)
include hpriv

theorem exec_ctxsw_of_none (hnone : (s.skipWarp e).offered e.w.core e.l.hdr.prio = none) : exec (.ctxsw w) s = .next (s.skipWarp e) := by
  obtain ⟨l, ls, hex⟩ := List.exists_cons_of_ne_nil hne
  show execCtxsw w s = _
  rw [execCtxsw, State.whenSettled_of_env he hset, hex, hpriv]
  dsimp only
  rw [hnone]
  rfl

variable {x : Context} (hsome : (s.skipWarp e).offered e.w.core e.l.hdr.prio = some x)
include hsome

/-- Where a waiting context may take the core, its swap begins; else the instruction completes, or waits for a swap that is under way. -/
theorem exec_ctxsw_of_offer {o : Option State} (ho : (((s.skipWarp e).awaitSwap e.w.id).swapFor x e.w.core fun n => n.quiesce e.w.core) = o) :
    exec (.ctxsw w) s = .next (o.getD (if (s.core e.w.core).phase = .run ∨ s.swapsBack x e.w.core = true then s.skipWarp e else s.stall e.w)) := by
  obtain ⟨l, ls, hex⟩ := List.exists_cons_of_ne_nil hne
  show execCtxsw w s = _
  rw [execCtxsw, State.whenSettled_of_env he hset, hex, hpriv]
  dsimp only
  rw [hsome, if_neg (by decide)]
  dsimp only
  rw [ho]
  cases o with
  | some u => rfl
  | none => exact congrArg Host.Outcome.next (if_congr (by rw [Bool.or_eq_true, beq_iff_eq]) rfl rfl)
end

section
variable {s : State} {x : Context} {core : Nat} {quiet : State → State}

theorem swapFor_of_waits (hrun : (s.core core).phase = .run) (hwaits : s.contextWaits x = true) : s.swapFor x core quiet = s.beginSwap core (some x.num) .load := by
  rw [State.swapFor, hrun, hwaits]
  rfl

theorem swapFor_of_swapsBack (h : s.swapsBack x core = true) : s.swapFor x core quiet = (s.beginSwap core (some x.num) .swap).map quiet := by
  have hspill : (s.core core).phase = .spill := by
    simp only [State.swapsBack, Bool.and_eq_true, beq_iff_eq] at h
    exact h.1.1.1
  rw [State.swapFor, h, hspill]
  rfl
end

/-- Settles O44: each instruction by the equation of its execution; a record sent is one credit spent and one thing told. -/
theorem forwardAndOffer : Obligations.ForwardAndOffer := by
  unfold Obligations.ForwardAndOffer
  refine ⟨?rfwd, ?send, ?ctxsw⟩
  case rfwd =>
    intro w s e he hset f ex dests n pk ep st ws spill hne hspill
    refine ⟨fun hall hdone hroom => ⟨_, longEnd_finishLong f hroom, ?_⟩, fun hall hsent => ?_, fun l hfind => exec_rfwd_of_lane he hset hne hspill hfind⟩
    · have hnot : ¬(ex.any fun l => e.w.forwardStatus l == rfwdSent) = true := fun h => by
        obtain ⟨l, hl, h⟩ := List.any_eq_true.1 h
        exact hdone l hl (beq_iff_eq.1 h)
      exact (exec_rfwd_of_all he hset hne hspill hall).trans (congrArg Host.Outcome.next (if_neg hnot))
    · obtain ⟨l, hl, h⟩ := hsent
      have hwait : (ex.any fun l => e.w.forwardStatus l == rfwdSent) = true := List.any_eq_true.2 ⟨l, hl, beq_iff_eq.2 h⟩
      exact (exec_rfwd_of_all he hset hne hspill hall).trans (congrArg Host.Outcome.next (if_pos hwait))
  case send =>
    intro s e l pk ep n spill bytes c k hpk hep hpath hgone hother hcredit hslot t req p
    have ht : t = _ := forwardLane_of_credit hpk hpath hgone hep hother hcredit hslot e l n spill bytes
    rw [ht]
    refine ⟨fun hroute hup => ?_, fun hroute => ?_, fun x hx hmine => ?_, ?_⟩
    · rw [State.modWarp_out, tellPkg_of_routed (s := s.spendCredit e l pk ep k c) hroute]
      exact congrArg State.out (sendPacket_of_up (s := s.spendCredit e l pk ep k c) (p := p) hroute hup)
    · obtain ⟨hknown, hup⟩ := known_of_hasPath hpath hgone hroute
      rw [State.modWarp_out, tellPkg_of_peer (s := s.spendCredit e l pk ep k c) hroute hknown hup]
      rfl
    · rw [State.modWarp_credits, tellPkg_credits] at hx
      obtain ⟨y, hy, rfl⟩ := List.mem_map.1 hx
      split at hmine
      · exact ⟨y, hy, ‹y.pkg = pk ∧ y.ep = ep›.1, ‹y.pkg = pk ∧ y.ep = ep›.2, if_pos ‹_›⟩
      · exact absurd hmine ‹_›
    · rw [State.modWarp_mem, tellPkg_mem]
      rfl
  case ctxsw =>
    intro w s e he hset f ex
    refine ⟨fun hne hpriv => exec_ctxsw_user he hset hne hpriv, fun hok => ⟨_, s.moved_act e.w, ?_⟩⟩
    intro t
    refine ⟨fun h => ?_, fun x hne hsome => ?_⟩
    · by_cases hex : ex = []
      · exact exec_ctxsw_of_no_lane he hset hex
      · exact exec_ctxsw_of_none he hset hex (hok.resolve_left hex) (h.resolve_left hex)
    · have hpriv := hok.resolve_left hne
      refine ⟨fun hrun hwaits n hn => ?_, fun hback n hn => ?_, fun hnone => ?_⟩
      · exact exec_ctxsw_of_offer he hset hne hpriv hsome ((swapFor_of_waits hrun hwaits).trans hn)
      · exact exec_ctxsw_of_offer he hset hne hpriv hsome ((swapFor_of_swapsBack hback).trans (congrArg (Option.map _) hn))
      · exact exec_ctxsw_of_offer he hset hne hpriv hsome hnone

end Sys2Proof.Machine

/-! PROOFS. Records between packages, their credits, and peers that are given up (family 08_ray_and_collective_instructions.md; R283, R284; 13 R430 to
R432). -/
namespace Sys2Proof.Machine

/-! ### A lane's status is settled -/

section
variable (w : Warp) (n st : Nat)

theorem lane_settleLane (l : Nat) : (w.settleLane n st).lane l = if l = n ∧ n < w.width then { w.lane l with got := some [BitVec.ofNat 8 st] } else w.lane l :=
  lane_modLane w.regs n l _
theorem width_settleLane : (w.settleLane n st).width = w.width := length_modLane w.regs n _
theorem id_settleLane : (w.settleLane n st).id = w.id := rfl
end

/-- The lane `l` of a warp has failed: its status is 3. -/
def Warp.FailedAt (w : Warp) (l : Nat) : Prop := l < w.width ∧ (w.lane l).got = some [3]

theorem failedAt_settleLane {w : Warp} {l : Nat} (hl : l < w.width) : (w.settleLane l 3).FailedAt l := by
  refine ⟨(width_settleLane w l 3).symm ▸ hl, ?_⟩
  rw [lane_settleLane, if_pos ⟨rfl, hl⟩]
  rfl

theorem Warp.FailedAt.settleLane {w : Warp} {l : Nat} (h : w.FailedAt l) (n : Nat) : (w.settleLane n 3).FailedAt l := by
  refine ⟨(width_settleLane w n 3).symm ▸ h.1, ?_⟩
  rw [lane_settleLane]
  split
  · rfl
  · exact h.2

theorem width_settleLanes (w : Warp) (ls : List Nat) (st : Nat) : (ls.foldl (fun w l => w.settleLane l st) w).width = w.width := by
  induction ls generalizing w with
  | nil => rfl
  | cons n ls ih => rw [List.foldl_cons, ih, width_settleLane]

theorem id_settleLanes (w : Warp) (ls : List Nat) (st : Nat) : (ls.foldl (fun w l => w.settleLane l st) w).id = w.id := by
  induction ls generalizing w with
  | nil => rfl
  | cons n ls ih => rw [List.foldl_cons, ih, id_settleLane]

theorem failedAt_settleLanes {w : Warp} {ls : List Nat} {l : Nat} (h : w.FailedAt l ∨ (l ∈ ls ∧ l < w.width)) :
    (ls.foldl (fun w l => w.settleLane l 3) w).FailedAt l := by
  induction ls generalizing w with
  | nil => exact h.resolve_right fun h => List.not_mem_nil h.1
  | cons n ls ih =>
    rw [List.foldl_cons]
    rcases h with h | ⟨hmem, hl⟩
    · exact ih (.inl (h.settleLane n))
    · rcases List.mem_cons.1 hmem with rfl | hmem
      · exact ih (.inl (failedAt_settleLane hl))
      · exact ih (.inr ⟨hmem, (width_settleLane w n 3).symm ▸ hl⟩)

/-! ### Who waits for a credit looks again (13 R432) -/

section
variable (w : Warp) (p : Lane → Bool) (f : Lane → Lane)

theorem width_onLanes : (w.onLanes p f).width = w.width := List.length_map _
theorem lane_onLanes_eq (l : Nat) : (w.onLanes p f).lane l =
    if ((w.lane l).populated && !(w.lane l).exited && p (w.lane l)) = true then f (w.lane l) else w.lane l := by
  show ((w.regs.lanes.map fun t => if (t.populated && !t.exited && p t) = true then f t else t)[l]?).getD Lane.none = _
  rw [List.getElem?_map, ← Warp.lane_eq, List.getD_eq_getElem?_getD]
  cases w.regs.lanes[l]? with
  | none => rfl
  | some t => rfl
end

/-- The lane of an `rfwd` for whose record a thread waits at the credits of an endpoint. -/
def creditLane (pkg ep : Nat) (t : Lane) : Option Nat :=
  match t.wait with
  | .credit p e lane => if p = pkg ∧ e = ep then some lane else none
  | _ => none
/-- A warp with the records that wait for a credit of the endpoint settled as FAILED, if `fail`. -/
def Warp.failWaiting (pkg ep : Nat) (fail : Bool) (w : Warp) : Warp :=
  if fail then (dedup (w.live.filterMap fun l => creditLane pkg ep (w.lane l))).foldl (fun w l => w.settleLane l 3) w else w
/-- What a change of an endpoint's credits makes of a warp. -/
def Warp.wake (pkg ep : Nat) (fail : Bool) (w : Warp) : Warp :=
  (w.failWaiting pkg ep fail).onLanes (fun t => (creditLane pkg ep t).isSome) fun t => { t with wait := .none }

theorem wakeCredit_eq (s : State) (pkg ep : Nat) (fail : Bool) : s.wakeCredit pkg ep fail = s.mapWarps (Warp.wake pkg ep fail) := rfl

theorem creditLane_of_wait {t : Lane} {pkg ep k : Nat} (h : t.wait = .credit pkg ep k) : creditLane pkg ep t = some k := by
  rw [creditLane, h]
  exact if_pos ⟨rfl, rfl⟩

section
variable (w : Warp) (pkg ep : Nat) (fail : Bool)

theorem id_wake : (w.wake pkg ep fail).id = w.id := by
  cases fail with
  | false => rfl
  | true => exact id_settleLanes w _ 3

theorem width_wake : (w.wake pkg ep fail).width = w.width := by
  rw [Warp.wake, width_onLanes]
  cases fail with
  | false => rfl
  | true => exact width_settleLanes w _ 3

/-- No thread that still runs waits for a credit of the endpoint any more. -/
theorem wait_wake {l : Nat} (hl : l ∈ (w.wake pkg ep fail).live) (k : Nat) : ((w.wake pkg ep fail).lane l).wait ≠ .credit pkg ep k := by
  have hlive := (List.mem_filter.1 hl).2
  rw [Warp.wake, lane_onLanes_eq] at hlive ⊢
  by_cases hwaits : (((w.failWaiting pkg ep fail).lane l).populated && !((w.failWaiting pkg ep fail).lane l).exited &&
      (creditLane pkg ep ((w.failWaiting pkg ep fail).lane l)).isSome) = true
  · rw [if_pos hwaits]
    exact Wait.noConfusion
  · rw [if_neg hwaits] at hlive ⊢
    intro hwait
    rw [hlive, creditLane_of_wait hwait] at hwaits
    exact hwaits rfl

theorem got_wake (l : Nat) : ((w.wake pkg ep false).lane l).got = (w.lane l).got := by
  rw [Warp.wake, lane_onLanes_eq]
  split <;> rfl
end

/-- A lane whose record waited fails where the endpoint was revoked. -/
theorem failedAt_wake {w : Warp} {pkg ep l k : Nat} (hl : l ∈ w.live) (hwait : (w.lane l).wait = .credit pkg ep k) (hk : k < w.width) :
    (w.wake pkg ep true).FailedAt k := by
  have hmem : k ∈ dedup (w.live.filterMap fun l => creditLane pkg ep (w.lane l)) := (mem_dedup _ _).2 (List.mem_filterMap.2 ⟨l, hl, creditLane_of_wait hwait⟩)
  obtain ⟨hwidth, hgot⟩ := failedAt_settleLanes (.inr ⟨hmem, hk⟩)
  refine ⟨(width_onLanes _ _ _).symm ▸ hwidth, ?_⟩
  rw [Warp.wake, lane_onLanes_eq]
  split
  · exact hgot
  · exact hgot

theorem warp?_mapWarps {f : Warp → Warp} (hf : ∀ w, (f w).id = w.id) (s : State) (n : Nat) : (s.mapWarps f).warp? n = (s.warp? n).map f :=
  find?_map_of_keeps Warp.id f s.warps hf n

theorem warp?_wakeCredit (s : State) (pkg ep : Nat) (fail : Bool) (n : Nat) : (s.wakeCredit pkg ep fail).warp? n = (s.warp? n).map (Warp.wake pkg ep fail) :=
  warp?_mapWarps (fun w => id_wake w pkg ep fail) s n

theorem wait_wakeCredit {s : State} {pkg ep : Nat} {fail : Bool} :
    ∀ w ∈ (s.wakeCredit pkg ep fail).warps, ∀ l ∈ w.live, ∀ k, (w.lane l).wait ≠ .credit pkg ep k := by
  intro w hw l hl k
  obtain ⟨v, -, rfl⟩ := List.mem_map.1 hw
  exact wait_wake v pkg ep fail hl k

/-! ### Credits -/

theorem modCredit_eq (s : State) (pkg ep : Nat) (f : Credit → Credit) : s.modCredit pkg ep f = { s with credits := (s.modCredit pkg ep f).credits } := by
  unfold State.modCredit
  split <;> rfl
@[simp] theorem modCredit_mem (s : State) (pkg ep : Nat) (f : Credit → Credit) : (s.modCredit pkg ep f).mem = s.mem := by rw [modCredit_eq]
@[simp] theorem modCredit_ports (s : State) (pkg ep : Nat) (f : Credit → Credit) : (s.modCredit pkg ep f).ports = s.ports := by rw [modCredit_eq]
theorem warp?_modCredit (s : State) (pkg ep : Nat) (f : Credit → Credit) (n : Nat) : (s.modCredit pkg ep f).warp? n = s.warp? n := by
  rw [modCredit_eq, State.warp?, State.warp?]

section
variable (s : State) (pkg ep : Nat) (f : Credit → Credit)

/-- The endpoint's credits have been changed, where they were known; else they are known now. -/
theorem exists_mem_modCredit : ∃ c, c.pkg = pkg ∧ c.ep = ep ∧ f c ∈ (s.modCredit pkg ep f).credits := by
  unfold State.modCredit
  split
  · rename_i h
    obtain ⟨c, hc, heq⟩ := List.any_eq_true.1 h
    rw [Bool.and_eq_true, beq_iff_eq, beq_iff_eq] at heq
    obtain ⟨hpkg, hep⟩ := heq
    exact ⟨c, hpkg, hep, List.mem_map.2 ⟨c, hc, if_pos ⟨hpkg, hep⟩⟩⟩
  · exact ⟨⟨pkg, ep, 0, 0, 0⟩, rfl, rfl, List.mem_append_right _ (List.mem_singleton.2 rfl)⟩

theorem mem_modCredit {c : Credit} (hc : c ∈ s.credits) (hpkg : c.pkg = pkg) (hep : c.ep = ep) : f c ∈ (s.modCredit pkg ep f).credits := by
  have hany : (s.credits.any fun c => c.pkg == pkg && c.ep == ep) = true :=
    List.any_eq_true.2 ⟨c, hc, by rw [hpkg, hep, beq_self_eq_true, beq_self_eq_true]; rfl⟩
  rw [State.modCredit, if_pos hany]
  exact List.mem_map.2 ⟨c, hc, if_pos ⟨hpkg, hep⟩⟩

/-- All credits of the endpoint have been changed. -/
theorem of_mem_modCredit {c : Credit} (hc : c ∈ (s.modCredit pkg ep f).credits) (hpkg : c.pkg = pkg)
    (hep : c.ep = ep) : ∃ d, c = f d := by
  unfold State.modCredit at hc
  split at hc
  · obtain ⟨d, -, rfl⟩ := List.mem_map.1 hc
    by_cases hd : d.pkg = pkg ∧ d.ep = ep
    · exact ⟨d, if_pos hd⟩
    · rw [if_neg hd] at hpkg hep
      exact absurd ⟨hpkg, hep⟩ hd
  · rename_i hnone
    rcases List.mem_append.1 hc with hc | hc
    · exact absurd (List.any_eq_true.2 ⟨c, hc, by rw [hpkg, hep, beq_self_eq_true, beq_self_eq_true]; rfl⟩) hnone
    · exact ⟨_, List.mem_singleton.1 hc⟩
end

/-! ### What the package reports to the host (12 R408; 13 R416) -/

/-- The state without what a report to the host changes too. -/
def State.sansReport (s : State) : State := { s.sansTrace with eventQ := none, status := State.reset.status }

theorem sansReport_of_sansTrace {s t : State} (h : t.sansTrace = s.sansTrace) : t.sansReport = s.sansReport := by rw [State.sansReport, h, State.sansReport]

section
variable (s : State)

theorem sansReport_report (pa : Nat) (bs : List Byte) : (s.report pa bs).sansReport = s.sansReport := sansReport_of_sansTrace (sansTrace_ownStore s pa bs)

theorem sansReport_status32 (off x : Nat) : (s.status32 off x).sansReport = s.sansReport := by
  unfold State.status32
  split
  · rfl
  · exact (sansReport_report _ _ _).trans (sansReport_report s _ _)

theorem sansReport_event (kind sub d0 d1 : Nat) : (s.event kind sub d0 d1).sansReport = s.sansReport := by
  have hqueue (u : State) (q : Option EventQ) (n : Nat) :
      ({ u with eventQ := q, status := { u.status with evseq := n } } : State).sansReport = u.sansReport := rfl
  unfold State.event
  split
  · rfl
  · extract_lets n e pa t
    split
    · rw [sansReport_status32, hqueue, sansReport_report, sansReport_report, sansReport_report]
    · rfl
end

/-- What an event keeps. -/
theorem kept_of_sansReport {s t : State} (h : t.sansReport = s.sansReport) :
    t.remotes = s.remotes ∧ t.warps = s.warps ∧ t.ports = s.ports ∧ t.features = s.features ∧ t.routes = s.routes := by
  have hremotes := congrArg State.remotes h
  have hwarps := congrArg State.warps h
  have hports := congrArg State.ports h
  have hfeatures := congrArg State.features h
  have hroutes := congrArg State.routes h
  exact ⟨hremotes, hwarps, hports, hfeatures, hroutes⟩

/-! ### A peer that the transport gives up (13 R430) -/

/-- A record on its way to a peer that is given up: it is no longer on its way, and its lane has failed. -/
def State.failRecord (s : State) (r : Remote) : State := (s.dropRemote r.id).modAnyWarp r.warp fun w => w.settleLane r.off 3

/-- The lane `l` of a warp has failed. -/
def State.FailedAt (s : State) (n l : Nat) : Prop := ∃ w, s.warp? n = some w ∧ w.FailedAt l

theorem warp?_failRecord (s : State) (r : Remote) (n : Nat) :
    (s.failRecord r).warp? n = (s.warp? n).map fun w => if w.id = r.warp then w.settleLane r.off 3 else w :=
  find?_map_of_keeps Warp.id (fun w => if w.id = r.warp then w.settleLane r.off 3 else w) s.warps (fun w => by split <;> rfl) n

/-- Failing records keeps what has failed, and fails the lanes of those records. -/
theorem failedAt_failRecords {s : State} {rs : List Remote} {n l : Nat}
    (h : s.FailedAt n l ∨ ∃ r ∈ rs, r.warp = n ∧ r.off = l ∧ ∃ w, s.warp? n = some w ∧ l < w.width) : (rs.foldl State.failRecord s).FailedAt n l := by
  induction rs generalizing s with
  | nil => exact h.resolve_right fun ⟨r, hr, _⟩ => List.not_mem_nil hr
  | cons r rs ih =>
    rw [List.foldl_cons]
    rcases h with ⟨w, hw, hfailed⟩ | ⟨x, hx, hwarp, hoff, w, hw, hl⟩
    · refine ih (.inl ⟨_, (warp?_failRecord s r n).trans (congrArg _ hw), ?_⟩)
      dsimp only
      split
      · exact hfailed.settleLane _
      · exact hfailed
    · have hw' := (warp?_failRecord s r n).trans (congrArg _ hw)
      rcases List.mem_cons.1 hx with rfl | hx
      · refine ih (.inl ⟨_, hw', ?_⟩)
        dsimp only
        rw [if_pos ((State.id_of_warp? hw).trans hwarp.symm), hoff]
        exact failedAt_settleLane hl
      · refine ih (.inr ⟨x, hx, hwarp, hoff, _, hw', ?_⟩)
        dsimp only
        split
        · exact (width_settleLane w _ 3).symm ▸ hl
        · exact hl

theorem of_mem_remotes_failRecords {s : State} {rs : List Remote} {x : Remote} (h : x ∈ (rs.foldl State.failRecord s).remotes) :
    x ∈ s.remotes ∧ ∀ r ∈ rs, x.id ≠ r.id := by
  induction rs generalizing s with
  | nil => exact ⟨h, fun r hr => absurd hr List.not_mem_nil⟩
  | cons r rs ih =>
    obtain ⟨hmem, hrest⟩ := ih h
    obtain ⟨hmem, hne⟩ := List.mem_filter.1 hmem
    refine ⟨hmem, fun y hy => ?_⟩
    rcases List.mem_cons.1 hy with rfl | hy
    · exact bne_iff_ne.1 hne
    · exact hrest y hy

theorem ports_failRecords (s : State) (rs : List Remote) : (rs.foldl State.failRecord s).ports = s.ports :=
  foldl_keeps (g := State.ports) (f := State.failRecord) (fun _ _ => rfl) s rs

/-- Who waits for a credit of any endpoint of a package looks again. -/
def State.wakePkg (s : State) (pkg : Nat) : State := (List.range 16).foldl (fun s ep => s.wakeCredit pkg ep false) s

theorem ports_wakePkg (s : State) (pkg : Nat) : (s.wakePkg pkg).ports = s.ports :=
  foldl_keeps (g := State.ports) (f := fun s ep => s.wakeCredit pkg ep false) (fun _ _ => rfl) s _
theorem remotes_wakePkg (s : State) (pkg : Nat) : (s.wakePkg pkg).remotes = s.remotes :=
  foldl_keeps (g := State.remotes) (f := fun s ep => s.wakeCredit pkg ep false) (fun _ _ => rfl) s _

theorem State.FailedAt.wakeCredit {s : State} {n l : Nat} (h : s.FailedAt n l) (pkg ep : Nat) : (s.wakeCredit pkg ep false).FailedAt n l := by
  obtain ⟨w, hw, hl, hgot⟩ := h
  exact ⟨_, (warp?_wakeCredit s pkg ep false n).trans (congrArg _ hw), (width_wake w pkg ep false).symm ▸ hl, (got_wake w pkg ep l).trans hgot⟩

theorem State.FailedAt.wakePkg {s : State} {n l : Nat} (h : s.FailedAt n l) (pkg : Nat) : (s.wakePkg pkg).FailedAt n l :=
  List.foldlRecOn (motive := fun t : State => t.FailedAt n l) (List.range 16) (fun s ep => s.wakeCredit pkg ep false) h fun _ ht ep _ => ht.wakeCredit pkg ep

/-- The state in which a peer is given up: it is noted, and the host gets the event. -/
def State.givenUp (s : State) (port pkg : Nat) : State :=
  ({ s with ports := { s.ports with peers := dedup (s.ports.peers ++ [pkg]) } } : State).event 7 port pkg 0

theorem kept_givenUp (s : State) (port pkg : Nat) : (s.givenUp port pkg).remotes = s.remotes ∧ (s.givenUp port pkg).warps = s.warps ∧
    pkg ∈ (s.givenUp port pkg).ports.peers ∧ (s.givenUp port pkg).routed = s.routed := by
  obtain ⟨hremotes, hwarps, hports, hfeatures, hroutes⟩ := kept_of_sansReport
    (sansReport_event { s with ports := { s.ports with peers := dedup (s.ports.peers ++ [pkg]) } } 7 port pkg 0)
  refine ⟨hremotes, hwarps, ?_, ?_⟩
  · rw [State.givenUp, hports]
    exact (mem_dedup _ _).2 (List.mem_append_right _ (List.mem_singleton.2 rfl))
  · funext n
    rw [State.routed, State.givenUp, hfeatures, hroutes, State.routed]

section
variable {s : State} {port : Nat} {x : W32} (harg : s.arg = .word port x)
include harg

theorem exec_peergone_of_route (h : s.routed x.toNat = true) : exec .peergone s = .next (s.givenUp port x.toNat) := by
  obtain ⟨-, -, -, hrouted⟩ := kept_givenUp s port x.toNat
  have hroute : (s.givenUp port x.toNat).routed x.toNat = true := hrouted ▸ h
  show execPeergone s = _
  unfold execPeergone
  split
  · cases harg.symm.trans ‹_›
    exact congrArg Host.Outcome.next (if_pos hroute)
  · exact absurd harg (‹∀ p w, s.arg = .word p w → False› port x)

theorem exec_peergone_of_no_route (h : s.routed x.toNat = false) : exec .peergone s =
    .next (((s.remotes.filter fun r => r.lane == 66 && r.target == x.toNat).foldl State.failRecord (s.givenUp port x.toNat)).wakePkg x.toNat) := by
  obtain ⟨hremotes, -, -, hrouted⟩ := kept_givenUp s port x.toNat
  have hroute : ¬(s.givenUp port x.toNat).routed x.toNat = true := Bool.eq_false_iff.1 (hrouted ▸ h)
  rw [← hremotes]
  show execPeergone s = _
  unfold execPeergone
  split
  · cases harg.symm.trans ‹_›
    exact congrArg Host.Outcome.next (if_neg hroute)
  · exact absurd harg (‹∀ p w, s.arg = .word p w → False› port x)
end

/-! ### A record arrives (13 R431) -/

/-- The fields of a remote record's header. -/
theorem fields_recordHeader (tenant : BitVec 16) {slot n ep src : Nat} (rseq : W32) (hslot : slot < 65536) (hn : 0 < n) (hn16 : n ≤ 16) (hep : ep < 16)
    (hsrc : src < 256) : let x := (recordHeader tenant slot (16 * n) ep src rseq).toNat
    BitVec.ofNat 32 (bits x 31 0) = rseq ∧ bits x 39 32 = src ∧ bits x 43 40 = ep ∧ bits x 63 48 = slot ∧ 16 * (bits x 47 44 + 1) = 16 * n ∧
      BitVec.ofNat 16 (bits x 79 64) = tenant := by
  intro x
  have hr := rseq.isLt
  have ht := tenant.isLt
  have hx : x = rseq.toNat + src * 2 ^ 32 + ep * 2 ^ 40 + (n - 1) * 2 ^ 44 + slot * 2 ^ 48 + tenant.toNat * 2 ^ 64 := by
    have hlen : 16 * n / 16 - 1 = n - 1 := by omega
    show (BitVec.ofNat 128 _).toNat = _
    rw [BitVec.toNat_ofNat, hlen, Nat.mod_eq_of_lt hslot, Nat.mod_eq_of_lt hep, Nat.mod_eq_of_lt hsrc, Nat.mod_eq_of_lt (by omega : n - 1 < 16)]
    exact Nat.mod_eq_of_lt (by omega)
  have hrseq : bits x 31 0 = rseq.toNat := by unfold bits; omega
  have htenant : bits x 79 64 = tenant.toNat := by unfold bits; omega
  rw [hrseq, htenant, BitVec.ofNat_toNat, BitVec.ofNat_toNat, BitVec.setWidth_eq, BitVec.setWidth_eq]
  refine ⟨rfl, ?_, ?_, ?_, ?_, rfl⟩ <;> (unfold bits; omega)

/-- A record is refused: its number is noted, and its sender is told. -/
def State.refuseRecord (s : State) (ep src : Nat) (rseq : W32) : State := (s.noteRecord ep src rseq).tellPkg src 0 (.recordAck ep rseq false)
/-- A record is held in its receive slot of the endpoint `e`, and waits for its node's pool. -/
def State.holdRecord (s : State) (e : Endpoint) (ep src slot : Nat) (rseq : W32) (bytes : List Byte) : State :=
  ({ s.noteRecord ep src rseq with
    endpoints := s.endpoints.map fun y : Endpoint => if y.ep = ep then { y with held := y.held ++ [⟨src, slot, rseq, bytes⟩] } else y } :
      State).modLaunch e.launch fun l => { l with senders := l.senders ++ [⟨none, some (ep, src, slot), ⟨e.node, 0, bytes⟩, s.clock, none⟩] }
/-- What a package makes of a record of `n` bytes that arrives. -/
def State.takeRecord (s : State) (tenant : BitVec 16) (slot n ep src : Nat) (rseq : W32) (bytes : List Byte) : State :=
  if s.seen.contains (ep, src, rseq) then s
  else match s.takesRecord ep tenant n with
    | none => s.refuseRecord ep src rseq
    | some e => if !e.senders.contains src || e.held.any (fun h => h.src == src && h.sslot == slot) then s.refuseRecord ep src rseq
      else s.holdRecord e ep src slot rseq (bytes.take n)

theorem exec_recordArrival {s : State} {tenant : BitVec 16} {slot n ep src : Nat} {rseq : W32} {bs : List Byte} (hslot : slot < 65536)
    (hn : 0 < n) (hn16 : n ≤ 16) (hep : ep < 16) (hsrc : src < 256) (harg : s.arg = .message (recordHeader tenant slot (16 * n) ep src rseq) bs) :
    exec .remoteRecordArrival s = .next (s.takeRecord tenant slot (16 * n) ep src rseq bs) := by
  obtain ⟨hrseq, hsrc, hep, hslot, hlen, htenant⟩ := fields_recordHeader tenant rseq hslot hn hn16 hep hsrc
  show execRemoteRecordArrival s = _
  unfold execRemoteRecordArrival
  split
  · cases harg.symm.trans ‹_›
    dsimp only
    rw [hrseq, hsrc, hep, hslot, hlen, htenant]
    rfl
  · exact absurd harg (‹∀ h b, s.arg = .message h b → False› _ _)

section
variable {s : State} {tenant : BitVec 16} {slot n ep src : Nat} {rseq : W32} {bs : List Byte}

theorem takeRecord_of_seen (h : (ep, src, rseq) ∈ s.seen) : s.takeRecord tenant slot n ep src rseq bs = s := if_pos (List.contains_iff_mem.2 h)

variable (hnew : (ep, src, rseq) ∉ s.seen)
include hnew

theorem takeRecord_of_no_endpoint (hnone : s.takesRecord ep tenant n = none) : s.takeRecord tenant slot n ep src rseq bs = s.refuseRecord ep src rseq := by
  rw [State.takeRecord, if_neg fun h => hnew (List.contains_iff_mem.1 h), hnone]

variable {e : Endpoint} (hsome : s.takesRecord ep tenant n = some e)
include hsome

theorem takeRecord_of_stranger (h : src ∉ e.senders ∨ ∃ h ∈ e.held, h.src = src ∧ h.sslot = slot) :
    s.takeRecord tenant slot n ep src rseq bs = s.refuseRecord ep src rseq := by
  have hbad : (!e.senders.contains src || e.held.any (fun h => h.src == src && h.sslot == slot)) = true := by
    rcases h with h | ⟨h, hh, hsrc, hslot⟩
    · rw [Bool.eq_false_iff.2 fun hc => h (List.contains_iff_mem.1 hc)]
      rfl
    · rw [List.any_eq_true.2 ⟨h, hh, by rw [hsrc, hslot, beq_self_eq_true, beq_self_eq_true]; rfl⟩, Bool.or_true]
  rw [State.takeRecord, if_neg fun h => hnew (List.contains_iff_mem.1 h), hsome]
  exact if_pos hbad

theorem takeRecord_of_sender (hsender : src ∈ e.senders) (hfree : ∀ h ∈ e.held, h.src = src → h.sslot ≠ slot) :
    s.takeRecord tenant slot n ep src rseq bs = s.holdRecord e ep src slot rseq (bs.take n) := by
  have hgood : ¬(!e.senders.contains src || e.held.any (fun h => h.src == src && h.sslot == slot)) = true := by
    rw [List.contains_iff_mem.2 hsender, Bool.not_true, Bool.false_or]
    intro h
    obtain ⟨x, hx, h⟩ := List.any_eq_true.1 h
    rw [Bool.and_eq_true, beq_iff_eq, beq_iff_eq] at h
    obtain ⟨hsrc, hslot⟩ := h
    exact hfree x hx hsrc hslot
  rw [State.takeRecord, if_neg fun h => hnew (List.contains_iff_mem.1 h), hsome]
  exact if_neg hgood
end

theorem mem_seen_noteRecord (s : State) (ep src : Nat) (rseq : W32) : (ep, src, rseq) ∈ (s.noteRecord ep src rseq).seen :=
  List.mem_append_right _ (List.mem_singleton.2 rfl)

/-- The endpoint that takes a record is bound under the record's number. -/
theorem mem_of_takesRecord {s : State} {ep n : Nat} {tenant : BitVec 16} {e : Endpoint} (h : s.takesRecord ep tenant n = some e) :
    e ∈ s.endpoints ∧ e.ep = ep := by
  refine ⟨List.mem_of_find?_eq_some h, ?_⟩
  have hfound := List.find?_some h
  simp only [Bool.and_eq_true, beq_iff_eq] at hfound
  exact hfound.1.1

theorem launch?_holdRecord (s : State) (e : Endpoint) (ep src slot : Nat) (rseq : W32) (bytes : List Byte) :
    (s.holdRecord e ep src slot rseq bytes).launch? e.launch = (s.launch? e.launch).map fun l =>
      { l with senders := l.senders ++ [⟨none, some (ep, src, slot), ⟨e.node, 0, bytes⟩, s.clock, none⟩] } :=
  find?_map_at Launch.id (fun l => { l with senders := l.senders ++ [⟨none, some (ep, src, slot), ⟨e.node, 0, bytes⟩, s.clock, none⟩] }) s.launches
    (fun _ => rfl) e.launch

/-! ### Acknowledgements, grants, returns and revocations (13 R431, R432) -/

theorem exec_recordAckArrival {s : State} {r : Remote} {ok : Bool} (harg : s.arg = .flag r.id ok)
    (hfind : (s.remotes.find? fun x => x.id == r.id && x.lane == 66) = some r) : exec .recordAckArrival s =
    .next (((s.dropRemote r.id).modAnyWarp r.warp fun w => w.settleLane r.off (if ok then 0 else 3)).wakeCredit r.target r.flow false) := by
  show execRecordAckArrival s = _
  unfold execRecordAckArrival
  split
  · cases harg.symm.trans ‹_›
    rw [hfind]
    rfl
  · exact absurd harg (‹∀ i b, s.arg = .flag i b → False› _ _)

theorem exec_slotGrant {s : State} {pkg ep n : Nat} (harg : s.arg = .three pkg ep n) : exec .slotGrant s =
    .next ((({ s with ports := { s.ports with peers := s.ports.peers.filter fun p => p != pkg } } : State).modCredit pkg ep fun c =>
      { c with free := n, granted := n, rseq := 0 }).wakeCredit pkg ep false) := by
  show execSlotGrant s = _
  unfold execSlotGrant
  split
  · cases harg.symm.trans ‹_›
    rfl
  · exact absurd harg (‹∀ a b c, s.arg = .three a b c → False› _ _ _)

section
variable {s : State} {pkg ep : Nat} (harg : s.arg = .two pkg ep)
include harg

theorem exec_creditReturn {c : Credit} (hc : c ∈ s.credits) (hpkg : c.pkg = pkg) (hep : c.ep = ep) (hfree : c.free < c.granted) :
    exec .creditReturn s = .next ((s.modCredit pkg ep fun c => { c with free := c.free + 1 }).wakeCredit pkg ep false) := by
  have hany : (s.credits.any fun c => c.pkg == pkg && c.ep == ep && decide (c.free < c.granted)) = true :=
    List.any_eq_true.2 ⟨c, hc, by rw [hpkg, hep, beq_self_eq_true, beq_self_eq_true, decide_eq_true hfree]; rfl⟩
  show execCreditReturn s = _
  unfold execCreditReturn
  split
  · cases harg.symm.trans ‹_›
    rw [if_pos hany]
  · exact absurd harg (‹∀ a b, s.arg = .two a b → False› _ _)

theorem exec_slotRevoke : exec .slotRevoke s = .next ((s.modCredit pkg ep fun c => { c with free := 0, granted := 0 }).wakeCredit pkg ep true) := by
  show execSlotRevoke s = _
  unfold execSlotRevoke
  split
  · cases harg.symm.trans ‹_›
    rfl
  · exact absurd harg (‹∀ a b, s.arg = .two a b → False› _ _)
end

/-- Settles O55: a record by what is made of it; a peer that is given up by the records that fail, one after the other, and by who then looks again. -/
theorem fabricRecords : Obligations.FabricRecords := by
  unfold Obligations.FabricRecords
  refine ⟨?arrival, ?ack, ?grant, ?credit, ?revoke, ?gone⟩
  case arrival =>
    intro s tenant slot n ep src rseq bs hslot hn hn16 hep hsrc harg seen refused
    have hexec := exec_recordArrival hslot hn hn16 hep hsrc harg
    have hrefused : refused (s.refuseRecord ep src rseq) := ⟨s.noteRecord ep src rseq, rfl, rfl, mem_seen_noteRecord s ep src rseq⟩
    refine ⟨fun hseen => ?_, fun hnew hnone => ⟨_, hexec, ?_⟩, fun e hnew hsome => ⟨fun hbad => ⟨_, hexec, ?_⟩, fun l hsender hfree hl => ⟨_, hexec, ?_⟩⟩⟩
    · rw [hexec, takeRecord_of_seen hseen]
    · rwa [takeRecord_of_no_endpoint hnew hnone]
    · rwa [takeRecord_of_stranger hnew hsome hbad]
    · rw [takeRecord_of_sender hnew hsome hsender hfree]
      obtain ⟨he, hepEq⟩ := mem_of_takesRecord hsome
      refine ⟨rfl, rfl, rfl, ?_, _, List.mem_map.2 ⟨e, he, if_pos hepEq⟩, hepEq, ?_, mem_seen_noteRecord s ep src rseq⟩
      · exact (congrArg (State.launch? _) (State.id_of_launch? hl)).trans ((launch?_holdRecord s e ep src slot rseq _).trans (congrArg (Option.map _) hl))
      · exact List.mem_append_right _ (List.mem_singleton.2 rfl)
  case ack =>
    intro s r ok w harg hfind hw hoff
    refine ⟨_, exec_recordAckArrival harg hfind, rfl, rfl, ?_⟩
    have hsettled := (warp?_modAnyWarp (s.dropRemote r.id) r.warp (f := fun w => w.settleLane r.off (if ok then 0 else 3)) fun _ => rfl).trans (congrArg _ hw)
    refine ⟨_, (warp?_wakeCredit _ _ _ _ _).trans (congrArg _ hsettled), ?_⟩
    rw [got_wake, lane_settleLane, if_pos ⟨rfl, hoff⟩]
    cases ok <;> rfl
  case grant =>
    intro s pkg ep n harg
    refine ⟨_, exec_slotGrant harg, ?_, ?_, ?_, wait_wakeCredit⟩
    · obtain ⟨c, hpkg, hep, hc⟩ := exists_mem_modCredit { s with ports := { s.ports with peers := s.ports.peers.filter fun p => p != pkg } } pkg ep
        fun c => { c with free := n, granted := n, rseq := 0 }
      exact ⟨_, hc, hpkg, hep, rfl, rfl, rfl⟩
    · show pkg ∉ (State.modCredit _ _ _ _).ports.peers
      rw [modCredit_ports]
      exact fun h => bne_iff_ne.1 (List.mem_filter.1 h).2 rfl
    · exact modCredit_mem _ _ _ _
  case credit =>
    intro s pkg ep harg hcredit
    obtain ⟨c, hc, hpkg, hep, hfree⟩ := hcredit
    exact ⟨_, exec_creditReturn harg hc hpkg hep hfree, fun d hd hdpkg hdep => mem_modCredit s pkg ep _ hd hdpkg hdep, modCredit_mem _ _ _ _, wait_wakeCredit⟩
  case revoke =>
    intro s pkg ep harg
    refine ⟨_, exec_slotRevoke harg, fun c hc hpkg hep => ?_, modCredit_mem _ _ _ _, wait_wakeCredit, fun w hw l k hfind hwait hk => ?_⟩
    · obtain ⟨d, rfl⟩ := of_mem_modCredit s pkg ep _ hc hpkg hep
      exact ⟨rfl, rfl⟩
    · have hw' := (warp?_wakeCredit _ pkg ep true w.id).trans (congrArg _ ((warp?_modCredit s pkg ep (fun c => { c with free := 0, granted := 0 }) w.id).trans hw))
      exact ⟨_, hw', (failedAt_wake (List.mem_of_find?_eq_some hfind) hwait hk).2⟩
  case gone =>
    intro s port x harg
    obtain ⟨hremotes, hwarps, hpeer, -⟩ := kept_givenUp s port x.toNat
    have onItsWay {r : Remote} (hlane : r.lane = 66) (htarget : r.target = x.toNat) : (r.lane == 66 && r.target == x.toNat) = true := by
      rw [hlane, htarget, beq_self_eq_true, beq_self_eq_true]
      rfl
    cases hroute : s.routed x.toNat with
    | true => exact ⟨_, exec_peergone_of_route harg hroute, hpeer, fun _ => ⟨hremotes, hwarps⟩, Bool.noConfusion⟩
    | false =>
      refine ⟨_, exec_peergone_of_no_route harg hroute, ?_, Bool.noConfusion, fun _ => ⟨fun r hr hlane htarget => ?_, fun r hr w hlane htarget hw hoff => ?_⟩⟩
      · rw [ports_wakePkg, ports_failRecords]
        exact hpeer
      · rw [remotes_wakePkg] at hr
        obtain ⟨hmem, hne⟩ := of_mem_remotes_failRecords hr
        exact hne r (List.mem_filter.2 ⟨hremotes ▸ hmem, onItsWay hlane htarget⟩) rfl
      · have hw' : (s.givenUp port x.toNat).warp? r.warp = some w := by rw [State.warp?, hwarps]; exact hw
        have hmem : r ∈ s.remotes.filter fun r => r.lane == 66 && r.target == x.toNat := List.mem_filter.2 ⟨hr, onItsWay hlane htarget⟩
        obtain ⟨v, hv, -, hgot⟩ := (failedAt_failRecords (.inr ⟨r, hmem, rfl, rfl, w, hw', hoff⟩)).wakePkg x.toNat
        exact ⟨v, hv, hgot⟩

end Sys2Proof.Machine

/-! PROOFS. The Crucible's collectives, from their start to the publish of their destination (family 08_ray_and_collective_instructions.md; R285 to R295;
06 R223, R224; 16 R444). -/
namespace Sys2Proof.Machine

/-! ### Starting (R285, R287) -/

/-- How a rank goes on once its rank table is read: `k` its collective, `region` the region of a shadow destination, `read` what has been read. -/
def State.startGroup (s : State) (c : EngCmd) (l : Launch) (region : Option Nat) (k : Collective) (read : List Seg) : State :=
  let w := c.collWho l
  if s.ranksBad k || (s.coll? k.tag).isSome then s.endColl c l region 0x12 0 0 none
  else if c.op = .callred ∧ c.dm = 0 ∧ rangesMeet k.sbase k.dbase k.size then s.endColl c l none 0x13 0 0 none
  else match (if c.dm = 1 then s.reachDest w 1 [(k.dbase, k.size)] else .ok []) with
    | .error x => s.collFault c l .write region x
    | .ok ws =>
      if c.dm = 1 ∧ (oneRegion ws).isNone then s.endColl c l region 5 0 0 none
      else if (region.any fun r => s.pubBefore r c.sentAt) || decide (Config.collectives ≤ s.crucible.colls.length) then s
      else match s.reachRead w k.sbase k.size with
        | .error x => s.collFault c l .read region x
        | .ok ss => match s.agentPrep w ss [] with
          | some t => t
          | none => ((s.dropWait (.crucible c.id)).useReads 0 (read ++ ss)).beginColl (k.load (s.reachBytes w ss))

section
variable {s : State} {c : EngCmd} {l : Launch}

theorem exec_collectiveStart (harg : s.arg = .id c.id) (hfind : s.engines.find? EngCmd.collective = some c) (hl : s.launch? c.launch = some l)
    (hidle : s.agentBusy (.crucible c.id) = false) : exec .collectiveStart s = .next (s.startColl c l) := by
  show execCollectiveStart s = _
  rw [execCollectiveStart, harg]
  dsimp only
  rw [hfind]
  dsimp only
  rw [hl]
  dsimp only
  rw [hidle, bne_self_eq_false]
  rfl

section
variable {ds rs : List Seg} (hds : s.reachRead (c.collWho l) c.a 64 = .ok ds) (hprep : s.agentPrep (c.collWho l) ds [] = none)
include hds hprep

theorem startColl_of_bad (hbad : descBad c.op (leNat (s.reachBytes (c.collWho l) ds)) = true) :
    s.startColl c l = s.endColl c l (s.collRegion c l (BitVec.ofNat 64 (bits (leNat (s.reachBytes (c.collWho l) ds)) 127 64))) 0x12 0 0 none := by
  rw [State.startColl, hds]
  dsimp only
  rw [hprep]
  exact if_pos hbad

theorem startColl_of_table (hgood : descBad c.op (leNat (s.reachBytes (c.collWho l) ds)) = false)
    (hrs : let d := leNat (s.reachBytes (c.collWho l) ds)
      s.reachRead (c.collWho l) (BitVec.ofNat 64 (bits d 191 128)) (bits d 271 264 + 1) = .ok rs) (hprep' : s.agentPrep (c.collWho l) rs [] = none) :
    let d := leNat (s.reachBytes (c.collWho l) ds)
    s.startColl c l = s.startGroup c l (s.collRegion c l (BitVec.ofNat 64 (bits d 127 64)))
      (Collective.ofDesc c d ((s.reachBytes (c.collWho l) rs).map BitVec.toNat)) (ds ++ rs) := by
  intro d
  rw [State.startColl, hds]
  dsimp only
  rw [hprep]
  dsimp only
  rw [if_neg (Bool.eq_false_iff.1 hgood), hrs]
  dsimp only
  rw [hprep']
  rfl
end

variable {region : Option Nat} {k : Collective} {read : List Seg}

theorem startGroup_of_bad (h : s.ranksBad k = true ∨ (s.coll? k.tag).isSome = true) :
    s.startGroup c l region k read = s.endColl c l region 0x12 0 0 none := if_pos (Bool.or_eq_true_iff.2 h)

variable (hranks : s.ranksBad k = false) (hnew : s.coll? k.tag = none)
include hranks hnew

theorem startGroup_of_overlap (h : c.op = .callred ∧ c.dm = 0 ∧ rangesMeet k.sbase k.dbase k.size = true) :
    s.startGroup c l region k read = s.endColl c l none 0x13 0 0 none := by
  rw [State.startGroup, hranks, hnew]
  exact if_pos h

variable (hapart : ¬(c.op = .callred ∧ c.dm = 0 ∧ rangesMeet k.sbase k.dbase k.size = true)) {ws : List Seg}
  (hdest : c.dm = 1 → s.reachDest (c.collWho l) 1 [(k.dbase, k.size)] = .ok ws)
include hapart hdest

theorem startGroup_of_no_region (hdm : c.dm = 1) (h : oneRegion ws = none) : s.startGroup c l region k read = s.endColl c l region 5 0 0 none := by
  rw [State.startGroup, hranks, hnew, if_neg (by decide), if_neg hapart, if_pos hdm, hdest hdm]
  exact if_pos ⟨hdm, Option.isNone_iff_eq_none.2 h⟩

theorem startGroup_begins (hregion : c.dm = 1 → oneRegion ws ≠ none) (hpub : ∀ r, region = some r → s.pubBefore r c.sentAt = false)
    (hroom : s.crucible.colls.length < Config.collectives) {ss : List Seg} (hss : s.reachRead (c.collWho l) k.sbase k.size = .ok ss)
    (hprep : s.agentPrep (c.collWho l) ss [] = none) :
    s.startGroup c l region k read = ((s.dropWait (.crucible c.id)).useReads 0 (read ++ ss)).beginColl (k.load (s.reachBytes (c.collWho l) ss)) := by
  have hfree : ¬((region.any fun r => s.pubBefore r c.sentAt) || decide (Config.collectives ≤ s.crucible.colls.length)) = true := by
    rw [decide_eq_false (Nat.not_le.2 hroom), Bool.or_false]
    cases region with
    | none => exact Bool.false_ne_true
    | some r => exact Bool.eq_false_iff.1 (hpub r rfl)
  rw [State.startGroup, hranks, hnew, if_neg (by decide), if_neg hapart]
  split
  · split at ‹_ = _›
    · cases (hdest ‹_›).symm.trans ‹_›
    · cases ‹_ = _›
  · rename_i vs hvs
    have hone : ¬(c.dm = 1 ∧ (oneRegion vs).isNone = true) := by
      rintro ⟨hdm, hnone⟩
      rw [if_pos hdm, hdest hdm] at hvs
      cases hvs
      exact hregion hdm (Option.isNone_iff_eq_none.1 hnone)
    rw [if_neg hone, if_neg hfree, hss]
    dsimp only
    rw [hprep]
end

/-! ### Steps (R290, R292) -/

@[simp] theorem tellPkg_clock (s : State) (dst id : Nat) (req : FabReq) : (s.tellPkg dst id req).clock = s.clock := by rw [tellPkg_eq]

/-- The messages that a rank sends in the step `x`. -/
def State.stepMessages (s : State) (k : Collective) (x : CStep) : List CMsg :=
  (k.parts x.send).map fun i => ⟨k.image, k.ranks.getD x.dst 0, k.header 0 0 k.stepNo (i + if k.image then bandsOf x.send i * 2 ^ 24 else 0),
    s.codeMessage k (k.ranks.getD x.dst 0) x.send i⟩

/-- The collective with the units of its step's messages merged. -/
def Collective.takeAll (k : Collective) (x : CStep) : Collective :=
  (k.parts x.recv).foldl (fun (y : Collective) i => match k.arrived i with | some m => y.take x i m.payload | none => y) k

theorem mem_sendAll (s : State) (ms : List CMsg) : (ms.foldl State.sendKept s).mem = s.mem :=
  foldl_keeps (g := State.mem) (f := State.sendKept) (fun s m => tellPkg_mem s m.pkg 0 _) s ms
theorem clock_sendAll (s : State) (ms : List CMsg) : (ms.foldl State.sendKept s).clock = s.clock :=
  foldl_keeps (g := State.clock) (f := State.sendKept) (fun s m => tellPkg_clock s m.pkg 0 _) s ms

section
variable {s : State} {k : Collective} {x : CStep} (hx : k.steps[k.step]? = some x)
include hx

theorem enterStep_eq : s.enterStep k = ({ (s.stepMessages k x).foldl State.sendKept s with
    crucible := { s.crucible with kept := s.crucible.kept ++ s.stepMessages k x }
    codec := (s.enterStep k).codec } : State).putColl { k with deadline := s.clock + k.timer, requests := 0 } := by
  have hclock := clock_sendAll s (s.stepMessages k x)
  rw [← hclock]
  unfold State.enterStep
  rw [hx]
  rfl

variable (hk : s.coll? k.tag = some k)
include hk

theorem advanceColl_of_wait (n : Nat) (h : k.stat ≠ none ∨ ∃ i ∈ k.parts x.recv, k.arrived i = none) : s.advanceColl k.tag (n + 1) = s := by
  have hwait : (k.stat.isSome || (k.parts x.recv).any fun i => (k.arrived i).isNone) = true := by
    rcases h with h | ⟨i, hi, hnone⟩
    · rw [Option.isSome_iff_ne_none.2 h, Bool.true_or]
    · rw [List.any_eq_true.2 ⟨i, hi, Option.isNone_iff_eq_none.2 hnone⟩, Bool.or_true]
  rw [State.advanceColl, hk]
  dsimp only
  rw [hx]
  exact if_pos hwait

theorem advanceColl_of_all (n : Nat) (hrun : k.stat = none) (hall : ∀ i ∈ k.parts x.recv, k.arrived i ≠ none) : s.advanceColl k.tag (n + 1) =
    (s.enterStep { k.takeAll x with early := k.early.filter (fun m => hdrStep m.hdr != k.stepNo), step := k.step + 1 }).advanceColl k.tag n := by
  have hgo : ¬(k.stat.isSome || (k.parts x.recv).any fun i => (k.arrived i).isNone) = true := by
    rw [hrun, Option.isSome_none, Bool.false_or]
    intro h
    obtain ⟨i, hi, hnone⟩ := List.any_eq_true.1 h
    exact hall i hi (Option.isNone_iff_eq_none.1 hnone)
  rw [State.advanceColl, hk]
  dsimp only
  rw [hx]
  exact if_neg hgo
end

/-! ### Messages that arrive (R292, R293; 16 R444) -/

/-- What the collective `k` makes of a message of data with its tag. -/
def State.takeData (s : State) (k : Collective) (h : BitVec 128) (bs : List Byte) : State :=
  if k.stat.isSome then s.acknowledge h k.ranks k.cfg
  else if hdrCfg h ≠ k.cfg then (s.acknowledge h k.ranks k.cfg).abortColl k 0x11
  else if k.had h then s.acknowledge h k.ranks k.cfg
  else match s.decodeMessage k (k.ranks.getD (hdrFrom h) 0) bs with
    | .error .stale => s
    | .error .mismatch => (s.acknowledge h k.ranks k.cfg).putColl { k with stat := some 8 }
    | .ok xs => ((s.acknowledge h k.ranks k.cfg).putColl
        { k with early := k.early ++ [⟨k.image, k.ranks.getD (hdrFrom h) 0, h, xs⟩] }).advanceColl k.tag (k.steps.length + 1)

theorem had_iff {k : Collective} {h : BitVec 128} : k.had h = true ↔
    hdrStep h < k.stepNo ∨ ∃ m ∈ k.early, hdrStep m.hdr = hdrStep h ∧ hdrUnit k.image m.hdr = hdrUnit k.image h := by
  simp only [Collective.had, Bool.or_eq_true, decide_eq_true_eq, List.any_eq_true, Bool.and_eq_true, beq_iff_eq]

section
variable {s : State} {k : Collective} {h : BitVec 128} {bs : List Byte}

theorem takeData_of_ended (hstat : k.stat ≠ none) : s.takeData k h bs = s.acknowledge h k.ranks k.cfg := if_pos (Option.isSome_iff_ne_none.2 hstat)

variable (hrun : k.stat = none)
include hrun

theorem takeData_of_other_cfg (hcfg : hdrCfg h ≠ k.cfg) : s.takeData k h bs = (s.acknowledge h k.ranks k.cfg).abortColl k 0x11 := by
  rw [State.takeData, hrun]
  exact if_pos hcfg

variable (hcfg : hdrCfg h = k.cfg)
include hcfg

theorem takeData_of_had (hhad : k.had h = true) : s.takeData k h bs = s.acknowledge h k.ranks k.cfg := by
  rw [State.takeData, hrun, hhad, if_neg (not_not.2 hcfg)]
  rfl

variable (hnew : k.had h = false)
include hnew

theorem takeData_of_stale (hcode : s.decodeMessage k (k.ranks.getD (hdrFrom h) 0) bs = .error .stale) : s.takeData k h bs = s := by
  rw [State.takeData, hrun, hnew, if_neg (not_not.2 hcfg), hcode]
  rfl

theorem takeData_of_mismatch (hcode : s.decodeMessage k (k.ranks.getD (hdrFrom h) 0) bs = .error .mismatch) :
    s.takeData k h bs = (s.acknowledge h k.ranks k.cfg).putColl { k with stat := some 8 } := by
  rw [State.takeData, hrun, hnew, if_neg (not_not.2 hcfg), hcode]
  rfl

theorem takeData_of_ok {xs : List Byte} (hcode : s.decodeMessage k (k.ranks.getD (hdrFrom h) 0) bs = .ok xs) : s.takeData k h bs =
    ((s.acknowledge h k.ranks k.cfg).putColl { k with early := k.early ++ [⟨k.image, k.ranks.getD (hdrFrom h) 0, h, xs⟩] }).advanceColl k.tag
      (k.steps.length + 1) := by
  rw [State.takeData, hrun, hnew, if_neg (not_not.2 hcfg), hcode]
  rfl
end

section
variable {s : State} {h : BitVec 128} {bs : List Byte} (harg : s.arg = .message h bs)
include harg

/-! #### Data -/

section
variable (hkind : hdrKind h = 0)
include hkind

section
variable (hnone : s.coll? (hdrTag h) = none)
include hnone

theorem exec_crucibleData_of_unknown (htable : s.tableOf (hdrTag h) = none) : exec .crucibleData s = .next s := by
  show execCrucibleData s = _
  rw [execCrucibleData, harg]
  dsimp only
  rw [if_neg (not_not.2 hkind), hnone]
  dsimp only
  rw [htable]

theorem exec_crucibleData_of_done {ranks : List Nat} (htable : s.tableOf (hdrTag h) = some ranks) :
    exec .crucibleData s = .next (s.acknowledge h ranks (hdrCfg h)) := by
  show execCrucibleData s = _
  rw [execCrucibleData, harg]
  dsimp only
  rw [if_neg (not_not.2 hkind), hnone]
  dsimp only
  rw [htable]
end

variable {k : Collective} (hk : s.coll? (hdrTag h) = some k)
include hk

/-- What a running collective makes of a message of data. -/
theorem exec_crucibleData_of_coll : exec .crucibleData s = .next (s.takeData k h bs) := by
  show execCrucibleData s = _
  rw [execCrucibleData, harg]
  dsimp only
  rw [if_neg (not_not.2 hkind), hk]
  rfl
end

/-! #### Requests, aborts and acknowledgements -/

theorem exec_requestAgain_of_other_cfg {k : Collective} (hkind : hdrKind h = 1) (hother : s.otherCfg h = some k) :
    exec .requestAgain s = .next (s.abortColl k 0x11) := by
  show execRequestAgain s = _
  rw [execRequestAgain, harg]
  dsimp only
  rw [if_neg (not_not.2 hkind), hother]

theorem exec_requestAgain_of_kept {m : CMsg} (hkind : hdrKind h = 1) (hsame : s.otherCfg h = none)
    (hkept : (s.crucible.kept.find? fun y => y.answers h) = some m) : exec .requestAgain s = .next (s.sendKept m) := by
  show execRequestAgain s = _
  rw [execRequestAgain, harg]
  dsimp only
  rw [if_neg (not_not.2 hkind), hsame, hkept]

theorem exec_crucibleAbort {k : Collective} (hkind : hdrKind h = 2) (hk : s.coll? (hdrTag h) = some k) (hrun : k.stat = none) :
    exec .crucibleAbort s = .next (if hdrErr h = 0x11 then s.putColl { k with stat := some 0x11 }
      else if hdrCfg h ≠ k.cfg then s.abortColl k 0x11 else s.putColl { k with stat := some 0x14 }) := by
  have hgo : ¬(hdrKind h ≠ 2 ∨ k.stat.isSome = true) := by
    rw [hkind, hrun]
    decide
  show execCrucibleAbort s = _
  rw [execCrucibleAbort, harg]
  dsimp only
  rw [hk]
  exact congrArg Host.Outcome.next (if_neg hgo)

/-- The state without the kept messages that a header speaks of. -/
def State.dropKept (s : State) (h : BitVec 128) : State := { s with crucible := { s.crucible with kept := s.crucible.kept.filter fun m => !m.answers h } }

theorem exec_crucibleAck_of_same_cfg (hkind : hdrKind h = 3) (hsame : s.otherCfg h = none) : exec .crucibleAck s = .next (s.dropKept h) := by
  show execCrucibleAck s = _
  unfold execCrucibleAck
  split
  · cases harg.symm.trans ‹_›
    rw [if_neg (not_not.2 hkind), hsame]
    rfl
  · exact absurd harg (‹∀ x y, s.arg = .message x y → False› _ _)

theorem exec_crucibleAck_of_other_cfg {k : Collective} (hkind : hdrKind h = 3) (hother : s.otherCfg h = some k) :
    exec .crucibleAck s = .next ((s.dropKept h).abortColl k 0x11) := by
  show execCrucibleAck s = _
  unfold execCrucibleAck
  split
  · cases harg.symm.trans ‹_›
    rw [if_neg (not_not.2 hkind), hother]
    rfl
  · exact absurd harg (‹∀ x y, s.arg = .message x y → False› _ _)
end

/-! ### The timer of a step (R293) -/

section
variable {s : State} {k : Collective} (harg : s.arg = .id k.cmd.id) (hfind : (s.crucible.colls.find? fun y => y.cmd.id == k.cmd.id) = some k)
include harg hfind

theorem exec_crucibleRoundTimer {x : CStep} (hx : k.steps[k.step]? = some x) (hrun : k.stat = none) (hlate : k.deadline ≤ s.clock)
    (hmissing : ((k.parts x.recv).filter fun i => (k.arrived i).isNone) ≠ []) : exec .crucibleRoundTimer s = .next (if k.requests ≥ 3 then s.abortColl k 0x10
      else ((k.parts x.recv).filter fun i => (k.arrived i).isNone).foldl (fun u i => u.tellPkg (k.ranks.getD x.src 0) 0 (.crucible (k.header 1 0 k.stepNo i) []))
        (s.putColl { k with requests := k.requests + 1, deadline := s.clock + k.timer })) := by
  have hdue : ¬(k.stat.isSome || ((k.parts x.recv).filter fun i => (k.arrived i).isNone).isEmpty || decide (s.clock < k.deadline)) = true := by
    rw [hrun, Bool.eq_false_iff.2 fun h => hmissing (List.isEmpty_iff.1 h), decide_eq_false (Nat.not_lt.2 hlate)]
    exact Bool.false_ne_true
  show execCrucibleRoundTimer s = _
  rw [execCrucibleRoundTimer, harg]
  dsimp only
  rw [hfind]
  dsimp only
  rw [hx]
  exact congrArg Host.Outcome.next (if_neg hdue)

/-! ### Results (R294) -/

variable {l : Launch} (hl : s.launch? k.cmd.launch = some l) (hidle : s.agentBusy (.crucible k.cmd.id) = false)
include hl hidle

theorem exec_collectiveComplete_of_ended {st : Nat} (hstat : k.stat = some st) : exec .collectiveComplete s =
    .next (s.endColl k.cmd l (s.collRegion k.cmd l k.dbase) st 0 0 (if st = 8 then some (0xA, 0, BitVec.ofNat 64 (s.pick (2 ^ 78))) else none)) := by
  show execCollectiveComplete s = _
  rw [execCollectiveComplete, harg]
  dsimp only
  rw [hfind]
  dsimp only
  rw [hl]
  dsimp only
  rw [hidle, if_neg Bool.false_ne_true, hstat]

theorem exec_collectiveComplete_of_steps {ws : List Seg} (hrun : k.stat = none) (hdone : k.steps.length ≤ k.step)
    (hreach : s.reachDest (k.cmd.collWho l) k.cmd.dm (k.writes.map (·.1)) = .ok ws) (hpage : s.pageError ws = none)
    (hprep : s.agentPrep (k.cmd.collWho l) [] ws = none) :
    let t := (s.useSegs ws).engineWrites k.cmd.id k.cmd.warp false ws (k.writes.flatMap (·.2))
    exec .collectiveComplete s =
      .next ((if k.cmd.dm = 1 then t.markWritten ws else t).endColl k.cmd l (s.collRegion k.cmd l k.dbase) 1 0 k.finished none) := by
  intro t
  show execCollectiveComplete s = _
  rw [execCollectiveComplete, harg]
  dsimp only
  rw [hfind]
  dsimp only
  rw [hl]
  dsimp only
  rw [hidle, if_neg Bool.false_ne_true, hrun]
  dsimp only
  rw [if_neg (Nat.not_lt.2 hdone), hreach]
  dsimp only
  rw [hpage, hprep]
end

/-! ### The end of a command (R294, R295; 06 R218, R225) -/

section
variable {u : State} {c : EngCmd}

theorem region_of_regions {s t : State} (h : t.regions = s.regions) : t.region = s.region := by
  funext d
  rw [State.region, h, State.region]

theorem regions_cmdComplete (b : Bool) : (u.cmdComplete c b).regions = u.regions := rfl
theorem mem_cmdComplete (b : Bool) : (u.cmdComplete c b).mem = u.mem := rfl
theorem crucible_cmdComplete (b : Bool) : (u.cmdComplete c b).crucible = u.crucible := rfl

/-- A command of these numbers that completes is gone, and its channel counts one less. -/
theorem cmdEnds_cmdComplete {s : State} {d : EngCmd} (hwarps : u.warps = s.warps) (hid : d.id = c.id) (hwarp : d.warp = c.warp) (hch : d.ch = c.ch) :
    CmdEnds s (u.cmdComplete d false) c (d.stat != 1) := by
  refine ⟨fun x hx => hid ▸ bne_iff_ne.1 (List.mem_filter.1 hx).2, fun w hw => ?_⟩
  have hw' : u.warp? d.warp = some w := by rw [State.warp?, hwarps, hwarp]; exact hw
  refine ⟨{ w with chans := modifyNth w.chans d.ch fun x => ⟨x.count - 1, x.sticky || d.stat != 1 || false⟩ }, ?_, ?_⟩
  · rw [← hwarp]
    exact (warp?_modAnyWarp u d.warp (f := fun w => { w with chans := modifyNth w.chans d.ch fun x => ⟨x.count - 1, x.sticky || d.stat != 1 || false⟩ })
      fun _ => rfl).trans (congrArg (Option.map _) hw')
  · simp only [hch, Bool.or_false]

theorem cmdRecord_of_no_record {l : Launch} (hack : u.unacked c.id = false) (hphase : c.phase ≠ 2) (hrec : c.recAddr = none) :
    u.cmdRecord c l = u.cmdComplete c false := by
  rw [State.cmdRecord, hack, if_neg Bool.false_ne_true, if_neg hphase, hrec]

/-- The state in which a collective's command is over: its collective has ended, and the command stands as `d` among the engines' commands. -/
def State.retire (s : State) (c d : EngCmd) : State := { s.dropWait (.crucible c.id) with
  crucible := { s.crucible with
    colls := s.crucible.colls.filter (fun k => k.cmd.id != c.id)
    done := s.crucible.done ++ (s.crucible.colls.filter fun k => k.cmd.id == c.id).map fun k => (k.tag, k.ranks) }
  engines := s.engines.filter (fun x => x.id != c.id) ++ [d] }

theorem endColl_of_region (s : State) (l : Launch) (d st fin : Nat) (fva : W64) : s.endColl c l (some d) st fva fin none =
    s.retire c { c with phase := 0, stat := st, fva := fva, fin := fin, pub := some (s.clock, d) } := rfl

theorem endColl_of_no_record {s : State} (l : Launch) (st fin : Nat) (fva : W64) (hrec : c.recAddr = none) (hack : s.unacked c.id = false) :
    s.endColl c l none st fva fin none = (s.retire c { c with phase := 1, stat := st, fva := fva, fin := fin, pub := none }).cmdComplete
      { c with phase := 1, stat := st, fva := fva, fin := fin, pub := none } false :=
  cmdRecord_of_no_record (u := s.retire c { c with phase := 1, stat := st, fva := fva, fin := fin, pub := none })
    (c := { c with phase := 1, stat := st, fva := fva, fin := fin, pub := none }) hack (by simp) hrec

theorem colls_retire {s : State} {d : EngCmd} : ∀ k ∈ (s.retire c d).crucible.colls, k.cmd.id ≠ c.id := fun _ hk => bne_iff_ne.1 (List.mem_filter.1 hk).2

theorem cmdEnds_endColl {s : State} (l : Launch) (st fin : Nat) (fva : W64) (hrec : c.recAddr = none) (hack : s.unacked c.id = false) :
    CmdEnds s (s.endColl c l none st fva fin none) c (st != 1) ∧ (∀ k ∈ (s.endColl c l none st fva fin none).crucible.colls, k.cmd.id ≠ c.id) ∧
      (s.endColl c l none st fva fin none).mem = s.mem := by
  rw [endColl_of_no_record l st fin fva hrec hack]
  refine ⟨cmdEnds_cmdComplete (d := { c with phase := 1, stat := st, fva := fva, fin := fin, pub := none }) rfl rfl rfl rfl, ?_, mem_cmdComplete _⟩
  rw [crucible_cmdComplete]
  exact colls_retire

/-- A command whose publish is over goes on to its record. -/
def State.publishDone (s : State) (c : EngCmd) (l : Launch) : State :=
  ((s.dropWait (.engine c.id)).modCmd c.id fun _ => { c with phase := 1, pub := none }).cmdRecord { c with phase := 1, pub := none } l

theorem publishDone_of_no_record {l : Launch} (hack : u.unacked c.id = false) (hrec : c.recAddr = none) : u.publishDone c l =
    ((u.dropWait (.engine c.id)).modCmd c.id fun _ => { c with phase := 1, pub := none }).cmdComplete { c with phase := 1, pub := none } false :=
  cmdRecord_of_no_record (u := (u.dropWait (.engine c.id)).modCmd c.id fun _ => { c with phase := 1, pub := none }) (c := { c with phase := 1, pub := none })
    hack (by simp) hrec

theorem cmdEnds_publishDone {s : State} {d : EngCmd} {l : Launch} (hwarps : u.warps = s.warps) (hid : d.id = c.id) (hwarp : d.warp = c.warp) (hch : d.ch = c.ch)
    (hack : u.unacked d.id = false) (hrec : d.recAddr = none) :
    CmdEnds s (u.publishDone d l) c (d.stat != 1) ∧ (u.publishDone d l).region = u.region ∧ (u.publishDone d l).mem = u.mem := by
  rw [publishDone_of_no_record hack hrec]
  exact ⟨cmdEnds_cmdComplete (d := { d with phase := 1, pub := none }) hwarps hid hwarp hch, region_of_regions (regions_cmdComplete _), mem_cmdComplete _⟩

theorem region_putRegion (s : State) (r : Region) : (s.putRegion r).region r.desc = r := by
  have hnone : ((s.regions.filter fun x => x.desc != r.desc).find? fun x => x.desc == r.desc) = none :=
    List.find?_eq_none.2 fun x hx h => bne_iff_ne.1 (List.mem_filter.1 hx).2 (beq_iff_eq.1 h)
  rw [State.region, State.putRegion]
  dsimp only
  rw [List.find?_append, hnone, Option.none_or, List.find?_cons, beq_self_eq_true]
  rfl
end

section
variable {s : State} {c : EngCmd} {l : Launch} {at' d : Nat} (hfree : CmdFree s c l) (hpub : c.pub = some (at', d))
include hfree hpub

theorem exec_engineCommandDone_of_pub : exec .engineCommandDone s = .next (if s.collWaits d at' then s else s.collPublish c l d) := by
  obtain ⟨harg, hfind, hl, hidle, hheld⟩ := hfree
  show execEngineCommandDone s = _
  rw [execEngineCommandDone, harg]
  dsimp only
  rw [hfind]
  dsimp only
  rw [hl]
  dsimp only
  rw [hidle, hheld, if_neg (by decide), hpub]

end

section
variable {s : State} {c : EngCmd} {l : Launch} {d : Nat}

theorem collPublish_of_failed (h : c.stat ≠ 1) : s.collPublish c l d = (s.putRegion ⟨d, [], none⟩).publishDone c l := if_pos h

theorem collPublish_of_spoiled {st : Byte} (h : c.stat = 1) (hspoil : (s.region d).spoil = some st) :
    s.collPublish c l d = (s.putRegion ⟨d, [], none⟩).publishDone { c with stat := st.toNat, fin := 0 } l := by
  rw [State.collPublish, if_neg (not_not.2 h), hspoil]
  rfl

theorem collPublish_of_swap {u : State} {n : Nat} (h : c.stat = 1) (hspoil : (s.region d).spoil = none) (hswap : s.publish (c.who l) d = .ok u n) :
    s.collPublish c l d = u.publishDone c l := by
  rw [State.collPublish, if_neg (not_not.2 h), hspoil]
  dsimp only
  rw [hswap]
  rfl
end

theorem unacked_putRegion (s : State) (r : Region) (id : Nat) : (s.putRegion r).unacked id = s.unacked id := by rw [State.unacked, State.putRegion, State.unacked]

section
variable {s : State} {c : EngCmd} {l : Launch} {at' d : Nat} (hfree : CmdFree s c l) (hpub : c.pub = some (at', d)) (hgo : s.collWaits d at' = false)
  (hrec : c.recAddr = none)
include hfree hpub hgo

theorem exec_engineCommandDone_publishes : exec .engineCommandDone s = .next (s.collPublish c l d) :=
  (exec_engineCommandDone_of_pub hfree hpub).trans (congrArg Host.Outcome.next (if_neg (Bool.eq_false_iff.1 hgo)))

include hrec

theorem leads_publish_failed (hack : s.unacked c.id = false) (hstat : c.stat ≠ 1) : Leads .engineCommandDone s fun t =>
    CmdEnds s t c true ∧ t.region d = ⟨d, [], none⟩ ∧ t.mem = s.mem := by
  obtain ⟨hends, hregion, hmem⟩ := cmdEnds_publishDone (u := s.putRegion ⟨d, [], none⟩) (s := s) (c := c) (d := c) (l := l) rfl rfl rfl rfl
    ((unacked_putRegion _ _ _).trans hack) hrec
  rw [bne_iff_ne.2 hstat] at hends
  refine ⟨_, exec_engineCommandDone_publishes hfree hpub hgo, ?_⟩
  rw [collPublish_of_failed hstat]
  exact ⟨hends, (congrFun hregion d).trans (region_putRegion s ⟨d, [], none⟩), hmem⟩

theorem leads_publish_spoiled (hack : s.unacked c.id = false) {st : Byte} (hstat : c.stat = 1) (hspoil : (s.region d).spoil = some st) :
    Leads .engineCommandDone s fun t => CmdEnds s t c (st.toNat != 1) ∧ t.region d = ⟨d, [], none⟩ ∧ t.mem = s.mem := by
  obtain ⟨hends, hregion, hmem⟩ := cmdEnds_publishDone (u := s.putRegion ⟨d, [], none⟩) (s := s) (c := c) (d := { c with stat := st.toNat, fin := 0 }) (l := l)
    rfl rfl rfl rfl ((unacked_putRegion _ _ _).trans hack) hrec
  refine ⟨_, exec_engineCommandDone_publishes hfree hpub hgo, ?_⟩
  rw [collPublish_of_spoiled hstat hspoil]
  exact ⟨hends, (congrFun hregion d).trans (region_putRegion s ⟨d, [], none⟩), hmem⟩

theorem leads_publish_swaps {u : State} {n : Nat} (hstat : c.stat = 1) (hspoil : (s.region d).spoil = none) (hswap : s.publish (c.who l) d = .ok u n)
    (hack : u.unacked c.id = false) : Leads .engineCommandDone s fun t => CmdEnds u t c false ∧ t.mem = u.mem ∧ t.region d = u.region d := by
  obtain ⟨hends, hregion, hmem⟩ := cmdEnds_publishDone (u := u) (s := u) (c := c) (d := c) (l := l) rfl rfl rfl rfl hack hrec
  rw [hstat] at hends
  refine ⟨_, exec_engineCommandDone_publishes hfree hpub hgo, ?_⟩
  rw [collPublish_of_swap hstat hspoil hswap]
  exact ⟨hends, hmem, congrFun hregion d⟩
end

/-- Settles O60: each move by the equation of what it makes of the collective, and the publish of a destination by how it ends. -/
theorem collectivesRun : Obligations.CollectivesRun := by
  unfold Obligations.CollectivesRun
  refine ⟨?start, fun s k => rfl, ?enter, ?advance, fun s k st => rfl, ?messages, ?timer, ?complete, ?ends, ?publish⟩
  case start =>
    intro s c l ds rs harg hfind hl hidle hds hprep w d region
    have hexec := exec_collectiveStart harg hfind hl hidle
    refine ⟨fun hbad => ?_, fun hgood hrs hprep' => ?_⟩
    · rw [hexec, startColl_of_bad hds hprep hbad]
      rfl
    intro k
    rw [hexec, startColl_of_table hds hprep hgood hrs hprep']
    refine ⟨fun hbad => congrArg Host.Outcome.next (startGroup_of_bad hbad),
      fun hranks hnew hop hdm hmeet => congrArg Host.Outcome.next (startGroup_of_overlap hranks hnew ⟨hop, hdm, hmeet⟩), fun ws hranks hnew hapart hdest => ?_⟩
    exact ⟨fun hdm hnone => congrArg Host.Outcome.next (startGroup_of_no_region hranks hnew hapart hdest hdm hnone),
      fun ss hone hfree hroom hss hprep'' => congrArg Host.Outcome.next (startGroup_begins hranks hnew hapart hdest hone hfree hroom hss hprep'')⟩
  case enter =>
    intro s k x hx pkg msgs t
    have ht : t = _ := enterStep_eq hx
    rw [ht]
    exact ⟨rfl, rfl, mem_sendAll s _, fun hk => List.mem_map.2 ⟨k, hk, if_pos rfl⟩⟩
  case advance =>
    intro s k x n hk hx
    exact ⟨advanceColl_of_wait hx hk n, advanceColl_of_all hx hk n⟩
  case messages =>
    intro s h bs harg
    refine ⟨fun hkind hnone => ⟨exec_crucibleData_of_unknown harg hkind hnone, fun ranks => exec_crucibleData_of_done harg hkind hnone⟩, ?data,
      fun k hkind => exec_requestAgain_of_other_cfg harg hkind, fun m hkind => exec_requestAgain_of_kept harg hkind, ?abort,
      fun hkind => ⟨exec_crucibleAck_of_same_cfg harg hkind, fun k => exec_crucibleAck_of_other_cfg harg hkind⟩⟩
    case data =>
      intro k hkind hk acked
      rw [exec_crucibleData_of_coll harg hkind hk]
      refine ⟨fun hstat => congrArg Host.Outcome.next (takeData_of_ended hstat), fun hrun hcfg => congrArg Host.Outcome.next (takeData_of_other_cfg hrun hcfg),
        fun hrun hcfg hhad => congrArg Host.Outcome.next (takeData_of_had hrun hcfg (had_iff.2 hhad)), fun hrun hcfg hstep hearly => ?_⟩
      have hnew : k.had h = false := Bool.eq_false_iff.2 fun hhad => by
        rcases had_iff.1 hhad with hlt | ⟨m, hm, hsame⟩
        · exact Nat.not_lt.2 hstep hlt
        · exact hearly m hm hsame
      exact ⟨fun hcode => congrArg Host.Outcome.next (takeData_of_stale hrun hcfg hnew hcode),
        fun hcode => congrArg Host.Outcome.next (takeData_of_mismatch hrun hcfg hnew hcode),
        fun xs hcode => congrArg Host.Outcome.next (takeData_of_ok hrun hcfg hnew hcode)⟩
    case abort =>
      intro k hkind hk hrun
      rw [exec_crucibleAbort harg hkind hk hrun]
      refine ⟨fun herr => by rw [if_pos herr], fun herr hcfg => by rw [if_neg herr, if_pos hcfg], fun herr hcfg => by rw [if_neg herr, if_neg (not_not.2 hcfg)]⟩
  case timer =>
    intro s k x harg hfind hx hrun hlate missing hmissing
    rw [exec_crucibleRoundTimer harg hfind hx hrun hlate hmissing]
    exact ⟨fun h => by rw [if_neg (Nat.not_le.2 h)], fun h => by rw [if_pos h]⟩
  case complete =>
    intro s k l harg hfind hl hidle region
    refine ⟨fun st hstat hne => ?_, fun hstat => ⟨_, exec_collectiveComplete_of_ended harg hfind hl hidle hstat⟩,
      fun ws hrun hdone => exec_collectiveComplete_of_steps harg hfind hl hidle hrun hdone⟩
    rw [exec_collectiveComplete_of_ended harg hfind hl hidle hstat, if_neg hne]
    rfl
  case ends =>
    intro s c l st fin fva
    refine ⟨fun d => ?_, fun hrec hack => ?_⟩
    · rw [endColl_of_region]
      exact ⟨List.mem_append_right _ (List.mem_singleton.2 rfl), colls_retire, rfl, rfl⟩
    · exact cmdEnds_endColl l st fin fva hrec hack
  case publish =>
    intro s c l at' d hfree hpub
    refine ⟨fun hwait => (exec_engineCommandDone_of_pub hfree hpub).trans (congrArg Host.Outcome.next (if_pos hwait)), fun hgo hrec hack => ?_⟩
    exact ⟨leads_publish_failed hfree hpub hgo hrec hack, fun st => leads_publish_spoiled hfree hpub hgo hrec hack,
      fun u n => leads_publish_swaps hfree hpub hgo hrec⟩

end Sys2Proof.Machine

/-! PROOFS. What it means that an operation keeps the canonical form of memory, for each kind of answer, and how such operations compose (family 09_memory_model.md). -/
namespace Sys2Proof.Machine

/-- What a change of memory has to keep: a memory in canonical form stays in it. -/
def Mem.Kept (m m' : Mem) : Prop := m.wf = true → m'.wf = true
/-- The same of an operation that may answer no state. -/
def KeptSome (m : Mem) (o : Option State) : Prop := ∀ t, o = some t → m.Kept t.mem
/-- The same of one that may fail. -/
def KeptOk {ε : Type} (m : Mem) (x : Except ε State) : Prop := ∀ t, x = .ok t → m.Kept t.mem
/-- The same of a meaning's answer. -/
def KeptNext (m : Mem) (x : Answer) : Prop := ∀ t, x = .next t → m.Kept t.mem
/-- The same of an operation that may fail and that answers a state among other things. -/
def KeptVal {ε α : Type} (m : Mem) (g : α → State) (x : Except ε α) : Prop := ∀ a, x = .ok a → m.Kept (g a).mem
/-- The same of an operation that answers a state either way. -/
def KeptEither (m : Mem) : Except State State → Prop
  | .error t => m.Kept t.mem
  | .ok t => m.Kept t.mem
/-- The same of the reading of an index list. -/
def KeptListed (m : Mem) : Listed → Prop
  | .wait t => m.Kept t.mem
  | .ok t _ => m.Kept t.mem
  | .fail _ => True
/-- The same of the data of a command. -/
def KeptRes (m : Mem) : EngRes → Prop
  | .wait t => m.Kept t.mem
  | .ok t _ => m.Kept t.mem
  | .fail _ _ _ => True
/-- The same of a visit of a node. -/
def KeptVisit (m : Mem) : Visit → Prop
  | .prep t => m.Kept t.mem
  | _ => True
/-- The same of a stop of the scheduler. -/
def KeptStop (m : Mem) : SchedStop → Prop
  | .wait t => m.Kept t.mem
  | _ => True
/-- The same of a read of the scheduler. -/
def KeptRead {α : Type} (m : Mem) : Except SchedStop α → Prop
  | .error e => KeptStop m e
  | .ok _ => True
/-- The same of the end of a mailbox command. -/
def KeptEnd (m : Mem) : MbEnd → Prop
  | .done t _ => m.Kept t.mem
  | .failed t _ => m.Kept t.mem
  | _ => True
/-- The same of the end of a load. -/
def KeptLoad (m : Mem) (o : LoadOp) : Prop := ∀ s e ls got, m.Kept s.mem → m.Kept (o.finish s e ls got).mem
/-- The same of a move. -/
def KeptPrep (m : Mem) : Prep → Prop
  | .run _ t => m.Kept t.mem
  | .quiet t => m.Kept t.mem

section
variable {m m' : Mem} {s : State}

theorem Mem.Kept.write (h : m.Kept m') (a : Nat) (bs : List Byte) : m.Kept (m'.write a bs) := fun hm => Mem.write_wf a bs (h hm)
theorem Mem.Kept.set (h : m.Kept m') (a : Nat) (x : Byte) : m.Kept (m'.set a x) := fun hm => Mem.set_wf a x (h hm)
theorem Mem.Kept.filter (h : m.Kept m') (p : Host.Cell → Bool) : m.Kept (m'.filter p) := fun hm => Mem.filter_wf p (h hm)
/-- The state of a pair that an operation has answered. -/
theorem Mem.Kept.fst {α : Type} {p : State × α} {t : State} {x : α} (h : m.Kept p.1.mem) (e : p = (t, x)) : m.Kept t.mem := by rwa [e] at h

theorem keptSome_none : KeptSome m none := fun _ h => nomatch h
theorem keptSome_some {t : State} (h : m.Kept t.mem) : KeptSome m (some t) := fun _ e => Option.some.inj e ▸ h
theorem keptSome_bind {o : Option State} {f : State → Option State} (h : KeptSome m o) (hf : ∀ t, m.Kept t.mem → KeptSome m (f t)) : KeptSome m (o.bind f) := by
  intro u hu
  obtain ⟨t, ht, hu⟩ := Option.bind_eq_some_iff.1 hu
  exact hf t (h t ht) u hu
theorem keptSome_map {o : Option State} {f : State → State} (h : KeptSome m o) (hf : ∀ t, m.Kept t.mem → m.Kept (f t).mem) : KeptSome m (o.map f) := by
  intro u hu
  obtain ⟨t, ht, rfl⟩ := Option.map_eq_some_iff.1 hu
  exact hf t (h t ht)
theorem keptSome_bindOf {α : Type} {o : Option α} {f : α → Option State} (hf : ∀ t, KeptSome m (f t)) : KeptSome m (o.bind f) := by
  intro u hu
  obtain ⟨t, -, hu⟩ := Option.bind_eq_some_iff.1 hu
  exact hf t u hu
theorem keptSome_mapOf {α : Type} {o : Option α} {f : α → State} (hf : ∀ t, m.Kept (f t).mem) : KeptSome m (o.map f) := by
  intro u hu
  obtain ⟨t, -, rfl⟩ := Option.map_eq_some_iff.1 hu
  exact hf t
theorem kept_getD {o : Option State} {d : State} (h : KeptSome m o) (hd : m.Kept d.mem) : m.Kept (o.getD d).mem := by
  cases o with
  | none => exact hd
  | some t => exact h t rfl
theorem keptOk_ok {ε : Type} {t : State} (h : m.Kept t.mem) : KeptOk m (.ok t : Except ε State) := fun _ e => Except.ok.inj e ▸ h
theorem keptOk_error {ε : Type} {x : ε} : KeptOk m (.error x) := fun _ h => nomatch h
theorem keptNext_next {t : State} (h : m.Kept t.mem) : KeptNext m (.next t) := fun _ e => Host.Outcome.next.inj e ▸ h
theorem keptNext_fault {r : Fault} : KeptNext m (.fault r) := fun _ h => nomatch h
theorem keptNext_refused {r : Refusal} : KeptNext m (.refused r) := fun _ h => nomatch h
theorem KeptListed.wait {x : Listed} {t : State} (h : KeptListed m x) (e : x = .wait t) : m.Kept t.mem := by rw [e] at h; exact h
theorem KeptListed.ok {x : Listed} {t : State} {es : List (W64 × W64)} (h : KeptListed m x) (e : x = .ok t es) : m.Kept t.mem := by rw [e] at h; exact h
theorem KeptRes.wait {x : EngRes} {t : State} (h : KeptRes m x) (e : x = .wait t) : m.Kept t.mem := by rw [e] at h; exact h
theorem KeptRes.ok {x : EngRes} {t : State} {n : Nat} (h : KeptRes m x) (e : x = .ok t n) : m.Kept t.mem := by rw [e] at h; exact h
theorem KeptVisit.prep {x : Visit} {t : State} (h : KeptVisit m x) (e : x = .prep t) : m.Kept t.mem := by rw [e] at h; exact h
theorem KeptEnd.done {x : MbEnd} {t : State} {bs : List Byte} (h : KeptEnd m x) (e : x = .done t bs) : m.Kept t.mem := by rw [e] at h; exact h
theorem KeptEnd.failed {x : MbEnd} {t : State} {r : Nat} (h : KeptEnd m x) (e : x = .failed t r) : m.Kept t.mem := by rw [e] at h; exact h
theorem KeptPrep.run {x : Prep} {i : Instr} {t : State} (h : KeptPrep m x) (e : x = .run i t) : m.Kept t.mem := by rw [e] at h; exact h
theorem KeptPrep.quiet {x : Prep} {t : State} (h : KeptPrep m x) (e : x = .quiet t) : m.Kept t.mem := by rw [e] at h; exact h
theorem KeptRead.error {α : Type} {x : Except SchedStop α} {y : SchedStop} (h : KeptRead m x) (e : x = .error y) : KeptStop m y := by rw [e] at h; exact h
theorem keptSome_findSome {α : Type} {xs : List α} {f : α → Option State} (hf : ∀ x, KeptSome m (f x)) : KeptSome m (xs.findSome? f) := by
  intro t ht
  obtain ⟨x, -, hx⟩ := List.exists_of_findSome?_eq_some ht
  exact hf x t hx
theorem KeptEither.error {x : Except State State} {t : State} (h : KeptEither m x) (e : x = .error t) : m.Kept t.mem := by rw [e] at h; exact h
theorem KeptEither.ok {x : Except State State} {t : State} (h : KeptEither m x) (e : x = .ok t) : m.Kept t.mem := by rw [e] at h; exact h
theorem keptOk_map {ε : Type} {x : Except ε State} {f : State → State} (h : KeptOk m x) (hf : ∀ t, m.Kept t.mem → m.Kept (f t).mem) : KeptOk m (x.map f) := by
  intro u hu
  cases x with
  | error e => nomatch hu
  | ok t => exact Except.ok.inj hu ▸ hf t (h t rfl)
theorem kept_foldlM {ε α : Type} {xs : List α} {f : State → α → Except ε State} (hf : ∀ t x, m.Kept t.mem → KeptOk m (f t x)) (h : m.Kept s.mem) :
    KeptOk m (xs.foldlM f s) := by
  induction xs generalizing s with
  | nil => exact keptOk_ok h
  | cons x xs ih =>
    intro u hu
    rw [List.foldlM_cons] at hu
    cases hx : f s x with
    | error e => rw [hx] at hu; nomatch hu
    | ok t => rw [hx] at hu; exact ih (hf s x h t hx) u hu
theorem kept_foldl {α : Type} {xs : List α} {f : State → α → State} (hf : ∀ t x, m.Kept t.mem → m.Kept (f t x).mem) (h : m.Kept s.mem) :
    m.Kept (xs.foldl f s).mem := by
  induction xs generalizing s with
  | nil => exact h
  | cons x xs ih => exact ih (hf s x h)
theorem kept_foldl_fst {α β : Type} {xs : List α} {f : State × β → α → State × β} {p : State × β} (hf : ∀ q x, m.Kept q.1.mem → m.Kept (f q x).1.mem)
    (h : m.Kept p.1.mem) : m.Kept (xs.foldl f p).1.mem := by
  induction xs generalizing p with
  | nil => exact h
  | cons x xs ih => exact ih (hf p x h)
end

end Sys2Proof.Machine

/-! PROOFS. The canonical form of memory is kept by the operations of State, caches and operands (family 09_memory_model.md). -/
namespace Sys2Proof.Machine

section
variable {m : Mem} {s : State}

theorem kept_writePa {a : Nat} {bs : List Byte} (hm : m.Kept s.mem) : m.Kept (s.writePa a bs).mem :=
  .write hm _ _
theorem kept_putWarp {w : Warp} (hm : m.Kept s.mem) : m.Kept (s.putWarp w).mem := hm
theorem kept_modWarp {id : Nat} {f : Warp → Warp} (hm : m.Kept s.mem) : m.Kept (s.modWarp id f).mem := hm
theorem kept_mapWarps {f : Warp → Warp} (hm : m.Kept s.mem) : m.Kept (s.mapWarps f).mem := hm
theorem kept_modBlock {id : Nat} {f : Block → Block} (hm : m.Kept s.mem) : m.Kept (s.modBlock id f).mem := hm
theorem kept_modLaunch {id : Nat} {f : Launch → Launch} (hm : m.Kept s.mem) : m.Kept (s.modLaunch id f).mem := hm
theorem kept_modCore {no : Nat} {f : Core → Core} (hm : m.Kept s.mem) : m.Kept (s.modCore no f).mem := by
  unfold State.modCore
  split <;> exact hm
theorem kept_modAnyBlock {id : Nat} {f : Block → Block} (hm : m.Kept s.mem) : m.Kept (s.modAnyBlock id f).mem := hm
theorem kept_propose {i : Instr} {a : Arg} (hm : m.Kept s.mem) : m.Kept (s.propose i a).mem := hm
theorem kept_proposeFirst {i : Instr} {a : Arg} (hm : m.Kept s.mem) : m.Kept (s.proposeFirst i a).mem := hm
theorem kept_onWarp {k : Env → State} (hm : m.Kept s.mem) (hk : ∀ x, m.Kept (k x).mem) : m.Kept (s.onWarp k).mem := by
  unfold State.onWarp
  split
  · exact hk _
  · exact hm
theorem kept_waitLanes {w : Warp} {ls : List Nat} {why : Wait} (hm : m.Kept s.mem) : m.Kept (s.waitLanes w ls why).mem := hm
theorem kept_stall {w : Warp} (hm : m.Kept s.mem) : m.Kept (s.stall w).mem := hm
theorem kept_disable {w : Warp} (hm : m.Kept s.mem) : m.Kept (s.disable w).mem := hm
theorem kept_limit {w : Warp} (hm : m.Kept s.mem) : m.Kept (s.limit w).mem := hm
theorem kept_finish {e : Env} {ws : List RegWrite} (hm : m.Kept s.mem) : m.Kept (s.finish e ws).mem := by
  unfold State.finish
  split
  · exact kept_putWarp hm
  · exact kept_limit hm
theorem kept_finishLong {e : Env} {la : Nat} {dests : List Dest} {ws : List RegWrite} {parts : Nat} {bad : Option (Nat × W64 × Nat)} (hm : m.Kept s.mem) :
    m.Kept (s.finishLong e la dests ws parts bad).mem := by
  unfold State.finishLong
  dsimp only
  split
  · exact kept_limit hm
  · split <;> exact kept_putWarp hm
theorem kept_spPut {id o : Nat} {x : Byte} (hm : m.Kept s.mem) : m.Kept (s.spPut id o x).mem := by
  unfold State.spPut
  split
  · exact .set hm _ _
  · exact kept_modAnyBlock hm
theorem kept_spWrite {id o : Nat} {xs : List Byte} (hm : m.Kept s.mem) : m.Kept (s.spWrite id o xs).mem := by
  induction xs generalizing s o with
  | nil => exact hm
  | cons x xs ih => exact ih (kept_spPut hm)
theorem kept_writeLoc {l : Loc} {bs : List Byte} (hm : m.Kept s.mem) : m.Kept (s.writeLoc l bs).mem := by
  unfold State.writeLoc
  split
  · exact kept_writePa hm
  · exact kept_spWrite hm
  · exact hm
theorem kept_putGranule {id g : Nat} {full : Bool} (hm : m.Kept s.mem) : m.Kept (s.putGranule id g full).mem := by
  unfold State.putGranule
  split
  · exact hm
  · split
    · exact .set hm _ _
    · exact kept_modAnyBlock hm
theorem kept_disturb {lines : List Loc} {by_ : Option Nat} (hm : m.Kept s.mem) : m.Kept (s.disturb lines by_).mem := hm
theorem kept_evictL2 {line : Nat} (hm : m.Kept s.mem) : m.Kept (s.evictL2 line).mem := hm
theorem kept_makeRoomL2 {line : Nat} (hm : m.Kept s.mem) : m.Kept (s.makeRoomL2 line).mem := by
  unfold State.makeRoomL2
  dsimp only
  split
  · exact hm
  · split
    · exact hm
    · split
      · exact kept_evictL2 hm
      · exact hm
theorem kept_fillL2 {hint line : Nat} (hm : m.Kept s.mem) : m.Kept (s.fillL2 hint line).mem := by
  unfold State.fillL2
  split
  · exact hm
  · exact kept_makeRoomL2 hm
theorem kept_trimL2 (hm : m.Kept s.mem) : m.Kept (s.trimL2).mem := by
  unfold State.trimL2
  refine kept_foldl (fun _ _ ht => ?_) hm
  split
  · exact kept_makeRoomL2 ht
  · exact ht
theorem kept_makeRoom {core line : Nat} (hm : m.Kept s.mem) : m.Kept (s.makeRoom core line).mem := by
  unfold State.makeRoom
  dsimp only
  split
  · exact hm
  · split
    · exact hm
    · split
      · exact hm
      · exact kept_disturb hm
theorem kept_cacheLoadLine {core hint line : Nat} (hm : m.Kept s.mem) : m.Kept (s.cacheLoadLine core hint line).mem := by
  unfold State.cacheLoadLine
  dsimp only
  split
  · exact kept_fillL2 hm
  · split
    · exact kept_fillL2 hm
    · exact kept_makeRoom (kept_fillL2 hm)
theorem kept_cacheStoreAt {core hint a n : Nat} (hm : m.Kept s.mem) : m.Kept (s.cacheStoreAt core hint a n).mem :=
  kept_fillL2 hm
theorem kept_homeStoreAt {a n : Nat} (hm : m.Kept s.mem) : m.Kept (s.homeStoreAt a n).mem :=
  kept_fillL2 hm
theorem kept_recallLine {line : Nat} (hm : m.Kept s.mem) : m.Kept (s.recallLine line).mem := hm
theorem kept_prefetchL2 {hint line : Nat} (hm : m.Kept s.mem) : m.Kept (s.prefetchL2 hint line).mem :=
  kept_fillL2 hm
theorem kept_homeLoadAt {hint line : Nat} (hm : m.Kept s.mem) : m.Kept (s.homeLoadAt hint line).mem :=
  kept_prefetchL2 (kept_recallLine hm)
theorem kept_cacheStore {core : Option Nat} {hint : Nat} {l : Loc} {n : Nat} (hm : m.Kept s.mem) : m.Kept (s.cacheStore core hint l n).mem := by
  unfold State.cacheStore
  split
  · split
    · exact hm
    · refine kept_foldl (fun _ _ ht => ?_) hm
      split
      · exact kept_cacheStoreAt ht
      · exact kept_homeStoreAt ht
  · exact hm
theorem kept_homeLoad {hint : Nat} {l : Loc} {n : Nat} (hm : m.Kept s.mem) : m.Kept (s.homeLoad hint l n).mem :=
  kept_foldl (fun _ _ ht => kept_homeLoadAt ht) hm
theorem kept_uccLoadLine {core : Nat} {tenant : BitVec 16} {hint : Nat} {va : W64} {line : Nat} {t : TlbEntry} (hm : m.Kept s.mem) :
    m.Kept (s.uccLoadLine core tenant hint va line t).mem := by
  unfold State.uccLoadLine
  split
  · exact hm
  · exact kept_homeLoadAt hm
theorem kept_recallLines {l : Loc} {n : Nat} (hm : m.Kept s.mem) : m.Kept (s.recallLines l n).mem :=
  kept_foldl (fun _ _ ht => kept_recallLine ht) hm
theorem kept_backInvalidate {line : Nat} (hm : m.Kept s.mem) : m.Kept (s.backInvalidate line).mem := by
  unfold State.backInvalidate
  split <;> exact hm
theorem kept_mergeErrors {l : Loc} {n : Nat} (hm : m.Kept s.mem) : m.Kept (s.mergeErrors l n).mem := by
  unfold State.mergeErrors
  split
  · split <;> exact hm
  · exact hm
theorem kept_keepOld {l : Loc} {n : Nat} (hm : m.Kept s.mem) : m.Kept (s.keepOld l n).mem := hm
theorem kept_writeSite {core by_ : Option Nat} {l : Loc} {xs : List Byte} {hint : Nat} (hm : m.Kept s.mem) : m.Kept (s.writeSite core by_ l xs hint).mem :=
  kept_disturb (kept_writeLoc (kept_keepOld (kept_cacheStore (kept_mergeErrors (kept_recallLines hm)))))
theorem kept_needLines {l : Loc} {n : Nat} (hm : m.Kept s.mem) : m.Kept (s.needLines l n).mem := hm
theorem kept_ownStore {pa : Nat} {bs : List Byte} (hm : m.Kept s.mem) : m.Kept (s.ownStore pa bs).mem :=
  kept_writeSite (kept_needLines hm)
theorem kept_reKey {pa key : Nat} (hm : m.Kept s.mem) : m.Kept (s.reKey pa key).mem := by
  unfold State.reKey
  dsimp only
  exact kept_ownStore hm
theorem kept_traceOne {core : Nat} {tenant : BitVec 16} {r : TraceRec} (hm : m.Kept s.mem) : m.Kept (s.traceOne core tenant r).mem := by
  unfold State.traceOne
  dsimp only
  split
  · exact kept_modCore (kept_ownStore hm)
  · split
    · exact kept_modCore (kept_ownStore (kept_reKey hm))
    · exact kept_modCore hm
theorem kept_trace {core : Nat} {tenant : BitVec 16} {r : TraceRec} (hm : m.Kept s.mem) : m.Kept (s.trace core tenant r).mem := by
  unfold State.trace
  dsimp only
  split
  · exact kept_traceOne (kept_modCore (kept_traceOne hm))
  · exact kept_traceOne hm
theorem kept_traceWarp {id : Nat} {flag : Option Nat} {kind info : Nat} {a1 : BitVec 54} {pc : Pc} (hm : m.Kept s.mem) :
    m.Kept (s.traceWarp id flag kind info a1 pc).mem := by
  unfold State.traceWarp
  split
  · exact hm
  · split
    · exact hm
    · split
      · split
        · split
          · exact kept_putWarp hm
          · exact kept_trace hm
        · exact hm
      · split
        · split
          · exact kept_putWarp hm
          · exact kept_trace hm
        · exact hm
theorem kept_placeFault {f : FaultWait} (hm : m.Kept s.mem) : m.Kept (s.placeFault f).1.mem := by
  unfold State.placeFault
  dsimp only
  split
  · dsimp only
    exact hm
  · split
    · dsimp only
      refine kept_ownStore ?_
      refine kept_foldl (fun _ _ ht => ?_) ?_
      · exact kept_homeLoad ht
      · exact hm
    · split
      · dsimp only
        refine kept_ownStore ?_
        dsimp only
        refine kept_ownStore ?_
        refine kept_foldl (fun _ _ ht => ?_) ?_
        · exact kept_homeLoad ht
        · exact hm
      · dsimp only
        refine kept_foldl (fun _ _ ht => ?_) ?_
        · exact kept_homeLoad ht
        · exact hm
theorem kept_askPage {f : FaultWait} (hm : m.Kept s.mem) : m.Kept (s.askPage f).1.mem := by
  unfold State.askPage
  split
  · exact hm
  · split <;> exact hm
theorem kept_serve {agent : FaultAgent} {pasid : BitVec 20} {q : ServedFault} {launch core slot lane : Nat} (hm : m.Kept s.mem) :
    m.Kept (s.serve agent pasid q launch core slot lane).1.mem := by
  unfold State.serve
  dsimp only
  split
  · dsimp only
    exact hm
  · refine kept_placeFault ?_
    dsimp only
    exact hm
  · refine kept_askPage ?_
    dsimp only
    exact hm
theorem kept_withPermit {w : Warp} {path : List Nat} {pc : Pc} {k : Warp → State} (hm : m.Kept s.mem) (hk : ∀ x, m.Kept (k x).mem) :
    m.Kept (s.withPermit w path pc k).mem := by
  unfold State.withPermit
  split
  · exact hk _
  · exact kept_putWarp hm
theorem kept_raiseOn {w : Warp} {l : Launch} {path : List Nat} {ext : Option Bool} {t : Trap} {again : Bool} (hm : m.Kept s.mem) :
    m.Kept (s.raiseOn w l path ext t again).mem := by
  unfold State.raiseOn
  dsimp only
  split
  · exact kept_waitLanes hm
  · split
    · split
      · split
        · exact kept_withPermit hm (fun _ => kept_putWarp hm)
        · exact kept_putWarp hm
      · exact kept_traceWarp (kept_putWarp hm)
    · split
      · split
        · exact kept_withPermit hm (fun _ => kept_putWarp hm)
        · exact kept_putWarp hm
      · split
        · split
          · exact kept_withPermit hm (fun _ => kept_putWarp hm)
          · exact kept_putWarp hm
        · refine kept_withPermit hm fun _ => ?_
          split
          · exact kept_putWarp (kept_serve hm)
          · exact kept_traceWarp (kept_putWarp (kept_serve hm))
theorem kept_raise {e : Env} {t : Trap} (hm : m.Kept s.mem) : m.Kept (s.raise e t).mem :=
  kept_raiseOn hm
theorem kept_perLane {f : Fields} {r : Warp → Nat → List RegWrite} (hm : m.Kept s.mem) : m.Kept (s.perLane f r).mem :=
  kept_onWarp hm (fun _ => kept_finish hm)
theorem kept_perLaneLong {op : Nat} {f : Fields} {r : Warp → Nat → List RegWrite} (hm : m.Kept s.mem) : m.Kept (s.perLaneLong op f r).mem :=
  kept_onWarp hm (fun _ => kept_finishLong hm)
theorem kept_vOp {f : Fields} {r : Warp → Nat → W32} (hm : m.Kept s.mem) : m.Kept (s.vOp f r).mem :=
  kept_perLane hm
theorem kept_vOp64 {f : Fields} {r : Warp → Nat → W64} (hm : m.Kept s.mem) : m.Kept (s.vOp64 f r).mem :=
  kept_perLane hm
theorem kept_pOp {f : Fields} {r : Warp → Nat → Bool} (hm : m.Kept s.mem) : m.Kept (s.pOp f r).mem :=
  kept_perLane hm
theorem kept_vOpLong {op : Nat} {f : Fields} {r : Warp → Nat → W32} (hm : m.Kept s.mem) : m.Kept (s.vOpLong op f r).mem :=
  kept_perLaneLong hm
theorem kept_onStream {k : SEnv → State} (hm : m.Kept s.mem) (hk : ∀ x, m.Kept (k x).mem) : m.Kept (s.onStream k).mem := by
  unfold State.onStream
  split
  · exact hk _
  · exact hm
theorem kept_putStream {b : Nat} {x : Stream} (hm : m.Kept s.mem) : m.Kept (s.putStream b x).mem := hm
theorem kept_raiseStream {e : SEnv} {t : Trap} (hm : m.Kept s.mem) : m.Kept (s.raiseStream e t).mem := by
  unfold State.raiseStream
  split
  · refine kept_putStream ?_
    split
    · exact hm
    · exact kept_placeFault hm
    · exact kept_askPage hm
  · split <;> exact kept_putStream hm
theorem kept_uniform {f : Fields} {r : (Nat → W64) → W64} (hm : m.Kept s.mem) : m.Kept (s.uniform f r).mem := by
  unfold State.uniform
  split
  · exact kept_onStream hm (fun _ => kept_putStream hm)
  · exact kept_onWarp hm (fun _ => kept_finish hm)
theorem kept_flt2 {f : Fields} {r : RMode → XReal → XReal → XReal} (hm : m.Kept s.mem) : m.Kept (s.flt2 f r).mem :=
  kept_vOp hm
theorem kept_flt1Long {op : Nat} {f : Fields} {r : XReal → XReal} (hm : m.Kept s.mem) : m.Kept (s.flt1Long op f r).mem :=
  kept_vOpLong hm
theorem kept_halves2 {f : Fields} {r : RMode → XReal → XReal → XReal} (hm : m.Kept s.mem) : m.Kept (s.halves2 f r).mem :=
  kept_vOp hm
theorem kept_halves3 {f : Fields} (hm : m.Kept s.mem) : m.Kept (s.halves3 f).mem :=
  kept_vOp hm
theorem kept_fcmp2 {f : Fields} (hm : m.Kept s.mem) : m.Kept (s.fcmp2 f).mem :=
  kept_pOp hm
theorem kept_touchPages {l : Loc} {n : Nat} (hm : m.Kept s.mem) : m.Kept (s.touchPages l n).mem := by
  unfold State.touchPages
  split
  · exact kept_modAnyBlock hm
  · exact hm
theorem kept_useSeg {g : Seg} (hm : m.Kept s.mem) : m.Kept (s.useSeg g).mem := by
  unfold State.useSeg
  dsimp only
  split
  · dsimp only
    split
    · refine kept_ownStore ?_
      refine kept_foldl (fun _ _ ht => ?_) ?_
      · exact kept_homeLoad ht
      · split
        · exact kept_homeLoad (kept_touchPages hm)
        · exact kept_touchPages hm
    · refine kept_foldl (fun _ _ ht => ?_) ?_
      · exact kept_homeLoad ht
      · split
        · exact kept_homeLoad (kept_touchPages hm)
        · exact kept_touchPages hm
  · split
    · refine kept_ownStore ?_
      refine kept_foldl (fun _ _ ht => ?_) ?_
      · exact kept_homeLoad ht
      · split
        · exact kept_homeLoad (kept_touchPages hm)
        · exact kept_touchPages hm
    · refine kept_foldl (fun _ _ ht => ?_) ?_
      · exact kept_homeLoad ht
      · split
        · exact kept_homeLoad (kept_touchPages hm)
        · exact kept_touchPages hm
theorem kept_useSegs {gs : List Seg} (hm : m.Kept s.mem) : m.Kept (s.useSegs gs).mem :=
  kept_foldl (fun _ _ ht => kept_useSeg ht) hm
theorem kept_askHost {agent : FaultAgent} {l : Launch} {u : Use} {va : W64} {core slot : Nat} (hm : m.Kept s.mem) :
    m.Kept (s.askHost agent l u va core slot).mem := by
  unfold State.askHost
  dsimp only
  split
  · exact hm
  · dsimp only
    exact hm
theorem kept_dropHeld {pasid : BitVec 20} {va : W64} (hm : m.Kept s.mem) : m.Kept (s.dropHeld pasid va).mem := hm
theorem kept_faultLane {e : Env} {u : Use} {lane : Nat} {aux : Option W64} {f : AccFault} (hm : m.Kept s.mem) :
    m.Kept (s.faultLane e u lane aux f).mem := by
  unfold State.faultLane
  split
  · exact kept_disable (kept_askHost hm)
  · exact kept_raise (kept_dropHeld hm)
  · exact kept_raise hm
theorem kept_stallStream {e : SEnv} (hm : m.Kept s.mem) : m.Kept (s.stallStream e).mem := hm
theorem kept_faultStream {e : SEnv} {u : Use} {aux : Option W64} {f : AccFault} (hm : m.Kept s.mem) : m.Kept (s.faultStream e u aux f).mem := by
  unfold State.faultStream
  split
  · exact kept_stallStream (kept_askHost hm)
  · exact kept_raiseStream (kept_dropHeld hm)
  · exact kept_raiseStream hm

end

end Sys2Proof.Machine

/-! PROOFS. The canonical form of memory is kept by the operations of accesses, their performing and the fetch (family 09_memory_model.md). -/
namespace Sys2Proof.Machine

section
variable {m : Mem} {s : State}

theorem kept_cacheLoad {core hint : Nat} {gs : List Seg} {ucc : Option (BitVec 20 × BitVec 16)} (hm : m.Kept s.mem) :
    m.Kept (s.cacheLoad core hint gs ucc).mem := by
  unfold State.cacheLoad
  refine kept_foldl (fun _ _ ht => ?_) hm
  split
  · split
    · exact kept_cacheLoadLine ht
    · exact kept_uccLoadLine ht
  · exact kept_foldl (fun _ _ ht => kept_cacheLoadLine ht) ht
theorem kept_uccHeld {core : Nat} {pasid : BitVec 20} {tenant : BitVec 16} {va : W64} (hm : m.Kept s.mem) :
    m.Kept (s.uccHeld core pasid tenant va).mem := by
  unfold State.uccHeld
  split
  · split <;> exact hm
  · exact hm
theorem kept_wakeGranules (hm : m.Kept s.mem) : m.Kept (s.wakeGranules).mem := hm
theorem kept_setGranules {block first count : Nat} {full : Bool} (hm : m.Kept s.mem) : m.Kept (s.setGranules block first count full).mem := by
  unfold State.setGranules
  dsimp only
  split
  · refine kept_wakeGranules ?_
    split
    · split
      · exact kept_foldl (fun _ _ ht => kept_putGranule ht) hm
      · exact kept_modAnyBlock hm
    · split
      · exact kept_foldl (fun _ _ ht => kept_putGranule ht) hm
      · exact kept_modAnyBlock hm
  · split
    · split
      · exact kept_foldl (fun _ _ ht => kept_putGranule ht) hm
      · exact kept_modAnyBlock hm
    · split
      · exact kept_foldl (fun _ _ ht => kept_putGranule ht) hm
      · exact kept_modAnyBlock hm
theorem kept_setGranule {l : Loc} {full : Bool} (hm : m.Kept s.mem) : m.Kept (s.setGranule l full).mem := by
  unfold State.setGranule
  split
  · exact kept_setGranules hm
  · exact hm
theorem kept_performEff {core hint : Nat} {by_ : Option Nat} {e : StoreEff} (hm : m.Kept s.mem) : m.Kept (s.performEff core hint by_ e).mem := by
  unfold State.performEff
  split
  · exact kept_writeSite hm
  · exact kept_setGranule (kept_writeSite hm)
  · exact kept_disturb (kept_setGranules hm)
  · split
    · exact kept_writeSite hm
    · exact hm
theorem kept_retargetStores {desc : Nat} (hm : m.Kept s.mem) : m.Kept (s.retargetStores desc).mem := hm
theorem kept_countCore {core : Nat} (hm : m.Kept s.mem) : m.Kept (s.countCore core).mem := by
  unfold State.countCore
  dsimp only
  split
  · refine kept_modCore ?_
    dsimp only
    exact kept_modCore hm
  · exact kept_modCore hm
theorem kept_rollWarp {w : Warp} {cause : Option (W64 × Loc)} (hm : m.Kept s.mem) : m.Kept (s.rollWarp w cause).mem := by
  unfold State.rollWarp
  split
  · exact hm
  · dsimp only
    split
    · exact kept_trace (kept_countCore (kept_putWarp hm))
    · exact kept_countCore (kept_putWarp hm)
theorem kept_rollAll {ws : List Warp} (hm : m.Kept s.mem) : m.Kept (s.rollAll ws).mem := by
  unfold State.rollAll
  refine kept_foldl (fun _ _ ht => ?_) hm
  split
  · exact kept_rollWarp ht
  · exact ht
theorem kept_flushTrace {id : Nat} (hm : m.Kept s.mem) : m.Kept (s.flushTrace id).mem := by
  unfold State.flushTrace
  split
  · exact hm
  · split
    · exact hm
    · split
      · exact kept_modWarp (kept_foldl (fun _ _ ht => kept_trace ht) hm)
      · exact hm
theorem kept_sendPacket {p : Packet} (hm : m.Kept s.mem) : m.Kept (s.sendPacket p).mem := by
  unfold State.sendPacket
  split <;> exact hm
theorem kept_tellPkg {dst id : Nat} {req : FabReq} (hm : m.Kept s.mem) : m.Kept (s.tellPkg dst id req).mem := by
  unfold State.tellPkg
  split
  · exact kept_sendPacket hm
  · split <;> exact hm
theorem kept_ensureFlow {id : Nat} (hm : m.Kept s.mem) : m.Kept (s.ensureFlow id).mem := by
  unfold State.ensureFlow
  split
  · exact kept_mapWarps hm
  · exact hm
theorem kept_sendRemote {id lane t : Nat} {runs : List (Nat × Seg)} {near : List NearRun} {req : FabReq} (hm : m.Kept s.mem) :
    m.Kept (s.sendRemote id lane t runs near req).mem := by
  unfold State.sendRemote
  dsimp only
  split
  · refine kept_modWarp (kept_sendPacket ?_)
    split
    · exact kept_ensureFlow hm
    · exact hm
  · split
    · exact kept_ensureFlow hm
    · exact hm
theorem kept_sendAccess {id lane : Nat} {gs : List Seg} {near : List NearRun} {req : List (Nat × Seg) → FabReq} (hm : m.Kept s.mem) :
    m.Kept (s.sendAccess id lane gs near req).mem :=
  kept_foldl (fun _ _ ht => kept_sendRemote ht) hm
theorem kept_faultAcc {e : Env} {u : Use} {h : Shape} {x : LaneArgs} {y : Nat × AccFault} (hm : m.Kept s.mem) : m.Kept (s.faultAcc e u h x y).mem :=
  kept_faultLane hm
theorem kept_loadError {e : Env} {la : Nat} {dests : List Dest} {x : Nat × W64 × Nat} (hm : m.Kept s.mem) : m.Kept (s.loadError e la dests x).mem := by
  unfold State.loadError
  split
  · exact kept_finishLong hm
  · exact kept_raise hm
theorem kept_prepared {e : Env} {as : List LaneAcc} {k : State → State} (hm : m.Kept s.mem) (hk : ∀ t, m.Kept t.mem → m.Kept (k t).mem) :
    m.Kept (s.prepared e as k).mem := by
  unfold State.prepared
  split
  · exact kept_stall (kept_propose hm)
  · split
    · exact kept_stall (kept_propose hm)
    · split
      · exact kept_stall hm
      · split
        · exact kept_raise hm
        · exact hk _ (kept_useSegs hm)
theorem kept_planned {e : Env} {u : Use} {h : Shape} {x : LaneArgs} {todo : List Nat} {k : State → List LaneAcc → State} (hm : m.Kept s.mem)
    (hk : ∀ t y, m.Kept t.mem → m.Kept (k t y).mem) :
    m.Kept (s.planned e u h x todo k).mem := by
  unfold State.planned
  dsimp only
  split
  · split
    · exact kept_raise hm
    · split
      · exact kept_faultAcc hm
      · exact kept_prepared hm (fun _ ht => hk _ _ ht)
  · split
    · split
      · exact kept_faultAcc hm
      · split
        · exact kept_faultAcc hm
        · refine kept_prepared hm fun _ ht => ?_
          split
          · exact kept_raise ht
          · exact kept_faultAcc hm
    · split
      · exact kept_raise hm
      · split
        · exact kept_raise hm
        · refine kept_prepared hm fun _ ht => ?_
          split
          · exact kept_raise ht
          · exact kept_raise hm
    · exact kept_prepared hm (fun _ ht => hk _ _ ht)
theorem kept_ownLines {e : Env} {gs : List Seg} {k : State → State} (hm : m.Kept s.mem) (hk : ∀ t, m.Kept t.mem → m.Kept (k t).mem) :
    m.Kept (s.ownLines e gs k).mem := by
  unfold State.ownLines
  split
  · exact kept_stall (kept_backInvalidate hm)
  · exact hk _ hm
theorem kept_finishRegs {e : Env} {f : Fields} {dests : List Dest} {addr : Warp → Nat → W64} {kind : Nat} {writes : Nat → List Byte → List RegWrite}
    {ex : List Nat} {got : Nat → List Byte} (hm : m.Kept s.mem) :
    m.Kept (s.finishRegs e f dests addr kind writes ex got).mem := by
  unfold State.finishRegs
  split
  · exact kept_finishLong hm
  · exact kept_traceWarp (kept_finishLong hm)
theorem kept_regLoad {op : Nat} {f : Fields} {h : Shape} {writes : Nat → List Byte → List RegWrite} {kind : Nat} : KeptLoad m (regLoad op f h writes kind) := by
  intro t e ls got ht
  show m.Kept (t.finishRegs e f (opDests op f) (fun w l => w.address f l) kind writes ls got).mem
  exact kept_finishRegs ht
theorem kept_keepGoing {e : Env} {as : List LaneAcc} {now : List (Nat × List Byte)} (hm : m.Kept s.mem) : m.Kept (s.keepGoing e as now).mem := hm
theorem kept_askPeers {e : Env} {req : LaneAcc → FabReq} {as peer : List LaneAcc} (hm : m.Kept s.mem) : m.Kept (s.askPeers e req as peer).mem :=
  kept_modWarp (kept_foldl (fun _ _ ht => kept_sendAccess ht) (kept_keepGoing hm))
theorem kept_loadNow {e : Env} {o : LoadOp} {ex : List Nat} {as batch : List LaneAcc} (hm : m.Kept s.mem) (ho : KeptLoad m o) :
    m.Kept (s.loadNow e o ex as batch).mem := by
  unfold State.loadNow
  split
  · exact kept_keepGoing hm
  · exact ho _ _ _ _ hm
theorem kept_loadAhead {e : Env} {o : LoadOp} {ex : List Nat} {as : List LaneAcc} (hm : m.Kept s.mem) (ho : KeptLoad m o) :
    m.Kept (s.loadAhead e o ex as).mem := by
  unfold State.loadAhead
  dsimp only
  split
  · exact kept_stall hm
  · split
    · exact kept_stall hm
    · split
      · exact kept_limit hm
      · exact ho _ _ _ _ hm
theorem kept_loadGo {e : Env} {o : LoadOp} {ex : List Nat} {as : List LaneAcc} (hm : m.Kept s.mem) (ho : KeptLoad m o) :
    m.Kept (s.loadGo e o ex as).mem := by
  unfold State.loadGo
  dsimp only
  split
  · exact kept_stall hm
  · split
    · split
      · exact kept_askPeers hm
      · exact kept_loadNow (kept_cacheLoad hm) ho
    · split
      · exact kept_stall hm
      · exact kept_loadAhead (kept_cacheLoad hm) ho
theorem kept_memLoad {o : LoadOp} (hm : m.Kept s.mem) (ho : KeptLoad m o) : m.Kept (s.memLoad o).mem := by
  unfold State.memLoad
  refine kept_onWarp hm fun _ => ?_
  refine kept_planned ?_ fun _ _ ht => ?_
  · split
    · exact kept_uccHeld hm
    · exact hm
  · split
    · exact kept_loadError ht
    · exact kept_loadGo ht ho
theorem kept_finishStore {e : Env} {o : StoreOp} {ex : List Nat} (hm : m.Kept s.mem) : m.Kept (s.finishStore e o ex).mem := by
  unfold State.finishStore
  split
  · exact kept_finishLong hm
  · exact kept_traceWarp (kept_finishLong hm)
theorem kept_storeVersion {id : Nat} {va : W64} {x : W32} (hm : m.Kept s.mem) : m.Kept (s.storeVersion id va x).mem := hm
theorem kept_storeIo {id core hint : Nat} {g : Seg} {e : StoreEff} (hm : m.Kept s.mem) : m.Kept (s.storeIo id core hint g e).mem := by
  unfold State.storeIo
  split
  · split
    · exact kept_storeVersion hm
    · exact hm
  · split
    · exact hm
    · exact kept_performEff hm
theorem kept_storeRuns {e : Env} {o : StoreOp} {a : LaneAcc} (hm : m.Kept s.mem) : m.Kept (s.storeRuns e o a).mem := by
  unfold State.storeRuns
  split
  · exact kept_sendAccess hm
  · exact kept_foldl (fun _ _ ht => kept_storeIo ht) hm
theorem kept_storeFar {e : Env} {o : StoreOp} {done : State → Env → State} {as : List LaneAcc} (hm : m.Kept s.mem) (hdone : ∀ t y, m.Kept t.mem → m.Kept
    (done t y).mem) :
    m.Kept (s.storeFar e o done as).mem := by
  unfold State.storeFar
  split
  · exact hdone _ _ hm
  · dsimp only
    split
    · exact kept_stall hm
    · split
      · exact kept_limit hm
      · refine kept_ownLines hm fun _ ht => ?_
        split
        · refine kept_foldl (fun _ _ ht => ?_) ?_
          · exact kept_storeRuns ht
          · exact kept_keepGoing ht
        · refine kept_modWarp ?_
          refine kept_foldl (fun _ _ ht => ?_) ?_
          · exact kept_storeRuns ht
          · exact hdone _ _ ht
theorem kept_storeGo {e : Env} {o : StoreOp} {done : State → Env → State} {as : List LaneAcc} (hm : m.Kept s.mem) (hdone : ∀ t y, m.Kept t.mem → m.Kept
    (done t y).mem) :
    m.Kept (s.storeGo e o done as).mem := by
  unfold State.storeGo
  split
  · exact kept_storeFar hm (fun _ _ ht => hdone _ _ ht)
  · split
    · exact hdone _ _ hm
    · split
      · exact kept_stall hm
      · split
        · exact kept_limit hm
        · exact hdone _ _ hm
theorem kept_memStore {o : StoreOp} (hm : m.Kept s.mem) : m.Kept (s.memStore o).mem :=
  kept_onWarp hm (fun _ => kept_planned hm (fun _ _ ht => kept_storeGo ht (fun _ _ ht => kept_finishStore ht)))
theorem kept_serveAgent {a : FaultAgent} {l : Launch} {q : ServedFault} {core slot : Nat} (hm : m.Kept s.mem) :
    m.Kept (s.serveAgent a l q core slot).mem := by
  unfold State.serveAgent
  split
  · exact hm
  · exact kept_serve (kept_dropHeld hm)
theorem kept_dropWait {a : FaultAgent} (hm : m.Kept s.mem) : m.Kept (s.dropWait a).mem := hm
theorem kept_sendFetch {a : FaultAgent} {prio pa n : Nat} (hm : m.Kept s.mem) : m.Kept (s.sendFetch a prio pa n).mem :=
  kept_sendPacket hm
theorem kept_fetchRuns {a : FaultAgent} {prio : Nat} {gs : List Seg} (hm : m.Kept s.mem) : KeptSome m (s.fetchRuns a prio gs) := by
  unfold State.fetchRuns
  dsimp only
  split
  · exact keptSome_none
  · refine keptSome_some ?_
    refine kept_foldl (fun _ _ ht => ?_) ?_
    · split
      · exact ht
      · exact kept_sendFetch ht
    · exact hm
theorem kept_agentPrep {w : Who} {reads writes : List Seg} (hm : m.Kept s.mem) : KeptSome m (s.agentPrep w reads writes) := by
  unfold State.agentPrep
  split
  · exact keptSome_some (kept_propose hm)
  · split
    · exact keptSome_some (kept_propose hm)
    · split
      · exact keptSome_some hm
      · split
        · exact keptSome_some (kept_backInvalidate hm)
        · exact kept_fetchRuns hm
theorem kept_useReads {hint : Nat} {gs : List Seg} (hm : m.Kept s.mem) : m.Kept (s.useReads hint gs).mem :=
  kept_foldl (fun _ _ ht => kept_homeLoad ht) (kept_useSegs hm)
theorem kept_modAnyWarp {id : Nat} {f : Warp → Warp} (hm : m.Kept s.mem) : m.Kept (s.modAnyWarp id f).mem := hm
theorem kept_sendGranule {cmd warp : Nat} {va : W64} {pa : Nat} {xs : List Byte} (hm : m.Kept s.mem) : m.Kept (s.sendGranule cmd warp va pa xs).mem :=
  kept_modAnyWarp (kept_sendPacket (kept_ensureFlow hm))
theorem kept_engineWrite {cmd warp : Nat} {full : Bool} {g : Seg} {xs : List Byte} (hm : m.Kept s.mem) :
    m.Kept (s.engineWrite cmd warp full g xs).mem := by
  unfold State.engineWrite
  split
  · split
    · exact kept_foldl (fun _ _ ht => kept_sendGranule ht) hm
    · split
      · exact hm
      · exact kept_writeSite hm
  · split
    · exact kept_setGranules (kept_writeSite hm)
    · exact kept_writeSite hm
  · exact kept_writeSite hm
theorem kept_engineWrites {cmd warp : Nat} {full : Bool} {gs : List Seg} {xs : List Byte} (hm : m.Kept s.mem) :
    m.Kept (s.engineWrites cmd warp full gs xs).mem := by
  induction gs generalizing s xs with
  | nil => exact hm
  | cons g gs ih => exact ih (kept_engineWrite hm)
theorem kept_putRegion {r : Region} (hm : m.Kept s.mem) : m.Kept (s.putRegion r).mem := hm
theorem kept_markRegion {desc : Nat} {gs : List Seg} (hm : m.Kept s.mem) : m.Kept (s.markRegion desc gs).mem := hm
theorem kept_markWritten {gs : List Seg} (hm : m.Kept s.mem) : m.Kept (s.markWritten gs).mem :=
  kept_foldl (fun _ _ ht => kept_markRegion ht) hm
theorem kept_spoil {desc st : Nat} (hm : m.Kept s.mem) : m.Kept (s.spoil desc st).mem := hm
theorem kept_fetchWord {w : Who} {va : W64} (hm : m.Kept s.mem) : KeptVal m (·.2) (s.fetchWord w va) := by
  intro a ha
  unfold State.fetchWord at ha
  dsimp only at ha
  split at ha
  · nomatch ha
  · split at ha
    · split at ha
      · nomatch ha
      · split at ha
        · nomatch ha
        · split at ha
          · nomatch ha
          · split at ha
            · nomatch ha
            · rw [← Except.ok.inj ha]
              exact kept_touchPages hm
    · split at ha
      · nomatch ha
      · split at ha
        · nomatch ha
        · split at ha
          · nomatch ha
          · rw [← Except.ok.inj ha]
            exact kept_homeLoad (kept_useSeg hm)
theorem kept_fetchInstr {w : Who} {pc : Pc} (hm : m.Kept s.mem) : KeptVal m (·.2.2) (s.fetchInstr w pc) := by
  intro a ha
  unfold State.fetchInstr at ha
  split at ha
  · nomatch ha
  · rename_i x t hx
    have ht : m.Kept t.mem := kept_fetchWord hm _ hx
    split at ha
    · split at ha
      · nomatch ha
      · rename_i y u hy
        rw [← Except.ok.inj ha]
        exact kept_fetchWord ht _ hy
    · rw [← Except.ok.inj ha]
      exact ht
theorem kept_issueChecked {e : Env} {i : Instr} (hm : m.Kept s.mem) : KeptPrep m (s.issueChecked e i) := by
  unfold State.issueChecked
  dsimp only
  split
  · exact kept_putWarp hm
  · split
    · exact kept_raise (kept_putWarp hm)
    · split
      · exact kept_modLaunch (kept_putWarp hm)
      · split
        · exact kept_raise (kept_putWarp hm)
        · exact kept_putWarp (kept_putWarp hm)
theorem kept_pathWords {e : Env} {ls : List Nat} {pc : Pc} (hm : m.Kept s.mem) : KeptVal m (·.2.2) (s.pathWords e ls pc) := by
  unfold State.pathWords
  split
  · exact fun _ h => Except.ok.inj h ▸ hm
  · exact kept_fetchInstr hm
theorem kept_issueWarp {i : Issue} (hm : m.Kept s.mem) : KeptPrep m (s.issueWarp i) := by
  unfold State.issueWarp
  extract_lets u
  have hu : m.Kept u.mem := hm
  clear_value u
  split
  · exact hu
  · extract_lets lanes v
    have hv : m.Kept v.mem := hu
    clear_value v
    split
    · exact hv
    · split
      · split
        · exact kept_propose hv
        · exact kept_stall hv
      · split
        · exact kept_raise hv
        · split
          · show m.Kept (State.mem _)
            cases ‹FetchFail› with
            | fault g =>
              cases g with
              | ats va => exact kept_disable (kept_askHost hv)
              | served q => exact kept_raise (kept_dropHeld hv)
              | _ => exact kept_raise hv
            | error r va => exact kept_raise hv
            | unpinned b p => exact kept_stall (kept_propose hv)
            | tested => exact kept_stall hv
          · rename_i hwords
            have ht := kept_pathWords hv _ hwords
            dsimp only
            split
            · exact kept_raise ht
            · split
              · exact kept_putWarp ht
              · exact kept_issueChecked ht
theorem kept_issueStream {i : Issue} (hm : m.Kept s.mem) : KeptPrep m (s.issueStream i) := by
  unfold State.issueStream
  dsimp only
  split
  · exact hm
  · split
    · exact hm
    · split
      · split
        · exact kept_faultStream hm
        · exact kept_stallStream (kept_propose hm)
        · exact kept_stallStream hm
        · exact kept_raiseStream hm
      · split
        · refine kept_raiseStream ?_
          refine kept_fetchInstr ?_ _ ‹_›
          exact hm
        · refine kept_modLaunch ?_
          refine kept_fetchInstr ?_ _ ‹_›
          exact hm
theorem kept_issue {i : Issue} (hm : m.Kept s.mem) : KeptPrep m (s.issue i) := by
  unfold State.issue
  split
  · exact kept_issueStream hm
  · exact kept_issueWarp hm

end

end Sys2Proof.Machine

/-! PROOFS. The canonical form of memory is kept by the operations of ends and waits of warps and blocks (family 09_memory_model.md). -/
namespace Sys2Proof.Machine

section
variable {m : Mem} {s : State}

theorem kept_releaseBar {b k : Nat} {old : Bool} (hm : m.Kept s.mem) : m.Kept (s.releaseBar b k old).mem := hm
theorem kept_arrive {b k n : Nat} (hm : m.Kept s.mem) : m.Kept (s.arrive b k n).mem := by
  unfold State.arrive
  split
  · exact hm
  · dsimp only
    split
    · exact kept_releaseBar (kept_modBlock hm)
    · exact kept_modBlock hm
theorem kept_deadlockWarp {w : Warp} {l : Launch} (hm : m.Kept s.mem) : m.Kept (s.deadlockWarp w l).mem := by
  unfold State.deadlockWarp
  split
  · exact hm
  · exact kept_raiseOn hm
theorem kept_checkDeadlock {block : Nat} (hm : m.Kept s.mem) : m.Kept (s.checkDeadlock block).mem := by
  unfold State.checkDeadlock
  split
  · exact hm
  · split
    · exact hm
    · split
      · exact hm
      · split
        · exact kept_putStream hm
        · exact kept_foldl (fun _ _ ht => kept_deadlockWarp ht) hm
theorem kept_releaseLevels {launch : Nat} (hm : m.Kept s.mem) : m.Kept (s.releaseLevels launch).mem := by
  unfold State.releaseLevels
  split
  · exact hm
  · exact kept_mapWarps hm
theorem kept_endHandler {w : Warp} (hm : m.Kept s.mem) : m.Kept (s.endHandler w).mem := by
  unfold State.endHandler
  split
  · exact hm
  · rename_i b l _
    dsimp only
    split
    · exact kept_traceWarp (kept_putWarp hm)
    · split
      · exact kept_traceWarp (kept_putWarp hm)
      · generalize hword : s.fetchWord ⟨l, w.core, b.id, .warp w.id⟩ (Pc.ofAddr w.regs.trap.pc).addr = r
        cases r with
        | ok x => exact kept_traceWarp (kept_putWarp (kept_fetchWord hm _ hword))
        | error f =>
          cases f with
          | fault g =>
            cases g with
            | ats va => exact kept_askHost hm
            | _ => exact kept_raiseOn hm
          | error r va => exact kept_raiseOn hm
          | unpinned b p => exact kept_propose hm
          | tested => exact hm
theorem kept_tryLeave {id : Nat} (hm : m.Kept s.mem) : m.Kept (s.tryLeave id).mem := by
  unfold State.tryLeave
  split
  · exact hm
  · split
    · exact hm
    · split
      · exact kept_putWarp hm
      · exact kept_endHandler hm
theorem kept_retryHandlers (hm : m.Kept s.mem) : m.Kept (s.retryHandlers).mem :=
  kept_foldl (fun _ _ ht => kept_tryLeave ht) hm
theorem kept_wakeReservers (hm : m.Kept s.mem) : m.Kept (s.wakeReservers).mem := hm
theorem kept_releaseSlots {block : Nat} {slots : List Nat} (hm : m.Kept s.mem) : m.Kept (s.releaseSlots block slots).mem := hm
theorem kept_retireBlock {b : Block} (hm : m.Kept s.mem) : m.Kept (s.retireBlock b).mem := by
  unfold State.retireBlock
  dsimp only
  refine kept_releaseSlots ?_
  split
  · exact kept_modLaunch hm
  · exact hm
theorem kept_settleBlock {id : Nat} (hm : m.Kept s.mem) : m.Kept (s.settleBlock id).mem := by
  unfold State.settleBlock
  split
  · split
    · exact kept_retireBlock hm
    · exact hm
  · exact hm
theorem kept_settleWarp {id : Nat} (hm : m.Kept s.mem) : m.Kept (s.settleWarp id).mem := by
  unfold State.settleWarp
  split
  · split <;> exact hm
  · exact hm
theorem kept_exitLanes {e : Env} {ls : List Nat} (hm : m.Kept s.mem) : m.Kept (s.exitLanes e ls).mem := by
  unfold State.exitLanes
  refine kept_settleBlock (kept_checkDeadlock (kept_releaseLevels (kept_settleWarp (kept_tryLeave (kept_modWarp ?_)))))
  split
  · exact kept_modBlock hm
  · exact kept_modLaunch hm
theorem kept_traceStream {e : SEnv} {flag kind info : Nat} {a1 : BitVec 54} (hm : m.Kept s.mem) : m.Kept (s.traceStream e flag kind info a1).mem := by
  unfold State.traceStream
  split
  · exact kept_trace hm
  · exact hm
theorem kept_jump {f : Fields} {kind : Nat} {low link : Bool} {tgt : Warp → Nat → Pc} (hm : m.Kept s.mem) : m.Kept (s.jump f kind low link tgt).mem := by
  unfold State.jump
  dsimp only
  refine kept_onWarp hm fun _ => ?_
  split
  · split
    · exact kept_limit hm
    · split
      · exact kept_putWarp hm
      · exact kept_traceWarp (kept_putWarp hm)
  · split
    · exact kept_limit hm
    · split
      · exact kept_putWarp hm
      · exact kept_traceWarp (kept_putWarp hm)
theorem kept_jumpStream {kind : Nat} {link : Option Nat} {taken : SEnv → Bool} {tgt : SEnv → Pc} (hm : m.Kept s.mem) :
    m.Kept (s.jumpStream kind link taken tgt).mem := by
  unfold State.jumpStream
  refine kept_onStream hm fun _ => ?_
  split
  · exact kept_putStream hm
  · exact kept_traceStream (kept_putStream hm)
theorem kept_direct {f : Fields} {kind : Nat} {link : Bool} (hm : m.Kept s.mem) : m.Kept (s.direct f kind link).mem := by
  unfold State.direct
  split
  · exact kept_jumpStream hm
  · exact kept_jump hm
theorem kept_conditional {f : Fields} {kind : Nat} {link : Bool} (hm : m.Kept s.mem) : m.Kept (s.conditional f kind link).mem :=
  kept_jumpStream hm
theorem kept_indirect {f : Fields} {kind : Nat} {link : Bool} (hm : m.Kept s.mem) : m.Kept (s.indirect f kind link).mem := by
  unfold State.indirect
  split
  · exact kept_jumpStream hm
  · exact kept_jump hm
theorem kept_whenSettled {k : Env → State} (hm : m.Kept s.mem) (hk : ∀ x, m.Kept (k x).mem) : m.Kept (s.whenSettled k).mem := by
  unfold State.whenSettled
  refine kept_onWarp hm fun _ => ?_
  split
  · exact hk _
  · exact kept_stall hm
theorem kept_execExit {w : Std} (hm : m.Kept s.mem) : KeptNext m (execExit w s) := by
  unfold execExit
  dsimp only
  refine keptNext_next ?_
  split
  · exact kept_onStream hm (fun _ => kept_settleBlock (kept_checkDeadlock (kept_putStream hm)))
  · refine kept_whenSettled hm fun _ => ?_
    split
    · exact kept_putWarp hm
    · exact kept_exitLanes (kept_traceWarp (kept_putWarp hm))
theorem kept_execNop {w : Std} (hm : m.Kept s.mem) : KeptNext m (execNop w s) := by
  unfold execNop
  refine keptNext_next ?_
  split
  · exact kept_onStream hm (fun _ => kept_putStream hm)
  · exact kept_onWarp hm (fun _ => kept_finish hm)
theorem kept_skipWarp {e : Env} (hm : m.Kept s.mem) : m.Kept (s.skipWarp e).mem := hm
theorem kept_execBarInit {w : Std} (hm : m.Kept s.mem) : KeptNext m (execBarInit w s) := by
  unfold execBarInit
  refine keptNext_next ?_
  split
  · refine kept_onStream hm fun _ => ?_
    split
    · exact kept_raiseStream hm
    · exact kept_modBlock (kept_putStream hm)
  · refine kept_whenSettled hm fun _ => ?_
    split
    · exact kept_skipWarp hm
    · split
      · exact kept_raise hm
      · exact kept_modBlock (kept_skipWarp hm)
theorem kept_execBarArrive {w : Std} (hm : m.Kept s.mem) : KeptNext m (execBarArrive w s) := by
  unfold execBarArrive
  refine keptNext_next ?_
  split
  · refine kept_onStream hm fun _ => ?_
    split
    · exact kept_raiseStream hm
    · exact kept_arrive (kept_putStream hm)
  · refine kept_whenSettled hm fun _ => ?_
    split
    · exact kept_skipWarp hm
    · split
      · exact kept_raise hm
      · exact kept_arrive (kept_putWarp hm)
theorem kept_waitBar {e : Env} {ls : List Nat} {k : Nat} {tok : Nat → Bool} (hm : m.Kept s.mem) : m.Kept (s.waitBar e ls k tok).mem := hm
theorem kept_execBarWait {w : Std} (hm : m.Kept s.mem) : KeptNext m (execBarWait w s) := by
  unfold execBarWait
  dsimp only
  refine keptNext_next ?_
  split
  · refine kept_onStream hm fun _ => ?_
    split
    · exact kept_raiseStream hm
    · split
      · exact kept_checkDeadlock (kept_putStream hm)
      · exact kept_putStream hm
  · refine kept_whenSettled hm fun _ => ?_
    split
    · exact kept_skipWarp hm
    · split
      · exact kept_raise hm
      · exact kept_checkDeadlock (kept_waitBar hm)
theorem kept_execBarSync {w : Std} (hm : m.Kept s.mem) : KeptNext m (execBarSync w s) := by
  unfold execBarSync
  refine keptNext_next ?_
  split
  · refine kept_onStream hm fun _ => ?_
    split
    · exact kept_raiseStream hm
    · exact kept_checkDeadlock (kept_arrive (kept_putStream hm))
  · refine kept_whenSettled hm fun _ => ?_
    split
    · exact kept_skipWarp hm
    · split
      · exact kept_raise hm
      · exact kept_checkDeadlock (kept_arrive (kept_waitBar hm))
theorem kept_execLwait {w : Std} (hm : m.Kept s.mem) : KeptNext m (execLwait w s) := by
  unfold execLwait
  dsimp only
  refine keptNext_next ?_
  refine kept_whenSettled hm fun _ => ?_
  split
  · exact kept_raise hm
  · exact kept_checkDeadlock (kept_putWarp hm)

end

end Sys2Proof.Machine

/-! PROOFS. The canonical form of memory is kept by the operations of engines, the matrix units and rays (family 09_memory_model.md). -/
namespace Sys2Proof.Machine

section
variable {m : Mem} {s : State}

theorem kept_readList {w : Who} {c : EngCmd} (hm : m.Kept s.mem) : KeptListed m (s.readList w c) := by
  unfold State.readList
  split
  · exact trivial
  · split
    · exact kept_agentPrep hm _ ‹_›
    · exact kept_useReads hm
theorem kept_emptyRun {w : Who} {r : W64 × Nat} (hm : m.Kept s.mem) : m.Kept (s.emptyRun w r).mem := by
  unfold State.emptyRun
  split
  · exact hm
  · split
    · exact kept_disturb (kept_setGranules hm)
    · exact hm
theorem kept_emptyElems {w : Who} {c : EngCmd} {es : List (W64 × W64)} (hm : m.Kept s.mem) : m.Kept (s.emptyElems w c es).mem := by
  unfold State.emptyElems
  split
  · exact kept_foldl (fun _ _ ht => kept_emptyRun ht) hm
  · exact hm
theorem kept_sendWait {c : Cmd} (hm : m.Kept s.mem) : KeptSome m (s.sendWait c) := by
  unfold State.sendWait
  split
  · split
    · split
      · exact keptSome_some (KeptListed.wait (kept_readList hm) ‹_›)
      · split
        · exact keptSome_none
        · exact keptSome_some (kept_serveAgent hm)
      · exact keptSome_some (kept_askHost hm)
      · exact keptSome_none
    · exact keptSome_none
  · exact keptSome_none
theorem kept_sendCmd {c : Cmd} (hm : m.Kept s.mem) : m.Kept (s.sendCmd c).mem := by
  unfold State.sendCmd
  dsimp only
  split
  · split
    · exact hm
    · split
      · split
        · exact kept_emptyElems (KeptListed.ok (kept_readList hm) ‹_›)
        · exact hm
      · split
        · exact kept_emptyRun hm
        · exact hm
      · split
        · exact kept_emptyRun hm
        · exact hm
  · exact hm
  · exact hm
theorem kept_stageCmd {direct : Bool} {id : Nat} {c : Cmd} (hm : m.Kept s.mem) : m.Kept (s.stageCmd direct id c).mem := by
  unfold State.stageCmd
  split
  · exact kept_sendCmd hm
  · exact kept_modWarp hm
theorem kept_issueCmd {e : Env} {f : Fields} {c : EngCmd} (hm : m.Kept s.mem) : m.Kept (s.issueCmd e f c).mem := by
  unfold State.issueCmd
  split
  · exact kept_limit hm
  · exact kept_stageCmd (kept_finishLong hm)
theorem kept_engineOp {f : Fields} {op : EngOp} {priv : Bool} {args : Warp → List EngArg} {len : Warp → Option W64} {dest : Env → Option AccFault}
    {cmd : Warp → W64 × W64 × W64} {ra : Warp → Option W64} {dm : Nat} (hm : m.Kept s.mem) :
    m.Kept (s.engineOp f op priv args len dest cmd ra dm).mem := by
  unfold State.engineOp
  refine kept_onWarp hm fun _ => ?_
  split
  · exact kept_finishLong hm
  · split
    · exact kept_raise hm
    · split
      · exact kept_raise hm
      · split
        · exact kept_raise hm
        · exact kept_issueCmd hm
theorem kept_lengthOp {f : Fields} {op : EngOp} {priv src : Bool} (hm : m.Kept s.mem) : m.Kept (s.lengthOp f op priv src).mem :=
  kept_engineOp hm
theorem kept_indexOp {f : Fields} {op : EngOp} {n : Nat} (hm : m.Kept s.mem) : m.Kept (s.indexOp f op n).mem :=
  kept_engineOp hm
theorem kept_collectiveOp {f : Fields} {op : EngOp} (hm : m.Kept s.mem) : m.Kept (s.collectiveOp f op).mem :=
  kept_engineOp hm
theorem kept_execCwait {w : Std} (hm : m.Kept s.mem) : KeptNext m (execCwait w s) := by
  unfold execCwait
  dsimp only
  refine keptNext_next ?_
  refine kept_whenSettled hm fun _ => ?_
  split
  · exact kept_stall hm
  · exact kept_finishLong hm
theorem kept_execCtab {w : Ext} (hm : m.Kept s.mem) : KeptNext m (execCtab w s) := by
  unfold execCtab
  dsimp only
  refine keptNext_next ?_
  refine kept_whenSettled hm fun _ => ?_
  split
  · exact kept_finishLong hm
  · split
    · exact kept_raise hm
    · split
      · exact kept_raise hm
      · split
        · split
          · exact kept_stall hm
          · split
            · exact kept_finishLong hm
            · exact kept_memLoad hm (fun _ _ _ _ hs => kept_finishLong hs)
        · split
          · exact kept_stall hm
          · split
            · exact kept_finishLong hm
            · exact kept_memLoad hm (fun _ _ _ _ hs => kept_finishLong hs)
theorem kept_askCount {id : Nat} {x : Nat × Nat × Nat} (hm : m.Kept s.mem) : m.Kept (s.askCount id x).mem :=
  kept_sendPacket hm
theorem kept_execFabfence {w : Std} (hm : m.Kept s.mem) : KeptNext m (execFabfence w s) := by
  unfold execFabfence
  dsimp only
  refine keptNext_next ?_
  refine kept_whenSettled hm fun _ => ?_
  split
  · exact kept_finishLong hm
  · split
    · exact kept_stall hm
    · split
      · exact kept_modWarp (kept_foldl (fun _ _ ht => kept_askCount ht) (kept_putWarp hm))
      · split
        · exact kept_raise (kept_putWarp hm)
        · exact kept_finishLong hm
theorem kept_takeSlots {quad block : Nat} {mask : W32} (hm : m.Kept s.mem) : m.Kept (s.takeSlots quad block mask).mem := hm
theorem kept_execMres {w : Std} (hm : m.Kept s.mem) : KeptNext m (execMres w s) := by
  unfold execMres
  dsimp only
  refine keptNext_next ?_
  refine kept_onStream hm fun _ => ?_
  split
  · exact kept_putStream (kept_takeSlots hm)
  · split
    · exact kept_putStream hm
    · refine kept_putStream ?_
      split <;> exact hm
theorem kept_execMrel {w : Std} (hm : m.Kept s.mem) : KeptNext m (execMrel w s) := by
  unfold execMrel
  dsimp only
  refine keptNext_next ?_
  refine kept_onStream hm fun _ => ?_
  split
  · refine kept_putStream ?_
    split
    · exact hm
    · exact kept_releaseSlots hm
  · refine kept_stallStream ?_
    split
    · exact hm
    · exact kept_releaseSlots hm
theorem kept_passStream {e : SEnv} (hm : m.Kept s.mem) : m.Kept (s.passStream e).mem := hm
theorem kept_streamRecord {e : SEnv} {va : W64} {n : Nat} {k : Nat → State → State} (hm : m.Kept s.mem) (hk : ∀ x t, m.Kept t.mem → m.Kept (k x t).mem) :
    m.Kept (s.streamRecord e va n k).mem := by
  unfold State.streamRecord
  split
  · exact kept_faultStream hm
  · exact kept_raiseStream hm
  · split
    · exact kept_stallStream (kept_agentPrep hm _ ‹_›)
    · exact hk _ _ (kept_useReads hm)
theorem kept_tileRecords {e : SEnv} {slot : Nat} {va : W64} {prol : Option W64} {k : Nat → Nat → State → State} (hm : m.Kept s.mem)
    (hk : ∀ x y t, m.Kept t.mem → m.Kept (k x y t).mem) :
    m.Kept (s.tileRecords e slot va prol k).mem := by
  unfold State.tileRecords
  dsimp only
  split
  · exact kept_raiseStream hm
  · refine kept_streamRecord hm fun _ _ ht => ?_
    split
    · refine kept_streamRecord ht fun _ _ ht => ?_
      split
      · exact kept_raiseStream ht
      · exact hk _ _ _ ht
    · split
      · exact kept_raiseStream ht
      · exact hk _ _ _ ht
theorem kept_enterOp {e : SEnv} {slot : Nat} {k : AnvilKind} (hm : m.Kept s.mem) : m.Kept (s.enterOp e slot k).mem := hm
theorem kept_withRoom {k : SEnv → State} (hm : m.Kept s.mem) (hk : ∀ x, m.Kept (k x).mem) : m.Kept (s.withRoom k).mem := by
  unfold State.withRoom
  refine kept_onStream hm fun _ => ?_
  split
  · exact hk _
  · exact kept_stallStream hm
theorem kept_execMzero {w : Std} (hm : m.Kept s.mem) : KeptNext m (execMzero w s) := by
  unfold execMzero
  refine keptNext_next ?_
  refine kept_withRoom hm fun _ => ?_
  split
  · exact kept_enterOp hm
  · exact kept_raiseStream hm
theorem kept_execMread {w : Ext} (hm : m.Kept s.mem) : KeptNext m (execMread w s) := by
  unfold execMread
  dsimp only
  refine keptNext_next ?_
  refine kept_withRoom hm fun _ => ?_
  split
  · exact kept_raiseStream hm
  · split
    · exact kept_raiseStream hm
    · split
      · exact kept_raiseStream hm
      · split
        · exact kept_foldl (fun _ _ ht => kept_emptyRun ht) (kept_enterOp hm)
        · exact kept_enterOp hm
theorem kept_execMwrite {w : Ext} (hm : m.Kept s.mem) : KeptNext m (execMwrite w s) := by
  unfold execMwrite
  dsimp only
  refine keptNext_next ?_
  refine kept_withRoom hm fun _ => ?_
  split
  · exact kept_raiseStream hm
  · split
    · exact kept_raiseStream hm
    · exact kept_enterOp hm
theorem kept_execMwait {w : Std} (hm : m.Kept s.mem) : KeptNext m (execMwait w s) := by
  unfold execMwait
  refine keptNext_next ?_
  refine kept_onStream hm fun _ => ?_
  split
  · exact kept_putStream hm
  · exact kept_stallStream hm
theorem kept_engFault {c : EngCmd} {l : Launch} {u : Use} {x : ReadFail} (hm : m.Kept s.mem) : KeptRes m (s.engFault c l u x) := by
  unfold State.engFault
  split
  · split
    · exact trivial
    · exact kept_serveAgent hm
  · exact kept_askHost hm
  · exact trivial
  · exact trivial
  · exact trivial
theorem kept_modCmd {id : Nat} {f : EngCmd → EngCmd} (hm : m.Kept s.mem) : m.Kept (s.modCmd id f).mem := hm
theorem kept_engNext {c : EngCmd} {rest : List Granule} {fin : Nat} (hm : m.Kept s.mem) : KeptRes m (s.engNext c rest fin) := by
  unfold State.engNext
  split
  · exact hm
  · exact kept_modCmd hm
theorem kept_engMove {c : EngCmd} {l : Launch} {gs : List Granule} {fin : Nat} (hm : m.Kept s.mem) : KeptRes m (s.engMove c l gs fin) := by
  unfold State.engMove
  dsimp only
  split
  · exact kept_engFault hm
  · split
    · exact kept_engFault hm
    · split
      · exact trivial
      · split
        · exact kept_engFault hm
        · split
          · exact kept_agentPrep hm _ ‹_›
          · refine kept_engNext ?_
            split
            · exact kept_markWritten (kept_engineWrites (kept_useSegs (kept_useReads hm)))
            · exact kept_engineWrites (kept_useSegs (kept_useReads hm))
theorem kept_engBegin {c : EngCmd} {l : Launch} {dests : List (W64 × Nat)} {gs : List Granule} (hm : m.Kept s.mem) :
    KeptRes m (s.engBegin c l dests gs) := by
  unfold State.engBegin
  split
  · split
    · exact kept_engFault hm
    · split
      · exact trivial
      · exact kept_modCmd hm
  · exact kept_modCmd hm
theorem kept_unzip {c : EngCmd} {l : Launch} {n : Nat} {va : W64} (hm : m.Kept s.mem) : KeptRes m (s.unzip c l n va) := by
  unfold State.unzip
  dsimp only
  split
  · exact kept_engFault hm
  · split
    · exact kept_agentPrep hm _ ‹_›
    · split
      · generalize (if c.stale.1 = va.toNat then c.stale.2 + 1 else 1) = k
        split
        · exact trivial
        · exact hm
      · split
        · exact trivial
        · split
          · exact kept_engFault hm
          · split
            · exact kept_agentPrep hm _ ‹_›
            · split
              · exact trivial
              · split
                · exact trivial
                · split
                  · exact kept_engFault hm
                  · split
                    · exact trivial
                    · split
                      · exact kept_agentPrep hm _ ‹_›
                      · exact kept_engNext (kept_markWritten (kept_engineWrites (kept_useSegs (kept_useReads hm))))
theorem kept_publish {w : Who} {desc : Nat} (hm : m.Kept s.mem) : KeptRes m (s.publish w desc) := by
  unfold State.publish
  dsimp only
  split
  · exact trivial
  · split
    · exact trivial
    · split
      · exact kept_agentPrep hm _ ‹_›
      · exact kept_putRegion (kept_retargetStores (kept_disturb (kept_writeSite (kept_foldl (fun _ _ ht => kept_writeSite ht) (kept_foldl
            (fun _ _ ht => kept_homeLoad ht) hm)))))
theorem kept_readWhole (hm : m.Kept s.mem) : m.Kept (s.readWhole).mem := hm
theorem kept_takeImage {c : EngCmd} {l : Launch} (hm : m.Kept s.mem) : KeptRes m (s.takeImage c l) := by
  unfold State.takeImage
  split
  · exact kept_engFault hm
  · split
    · exact trivial
    · split
      · exact trivial
      · exact kept_modCmd (kept_readWhole hm)
theorem kept_engList {c : EngCmd} {l : Launch} (hm : m.Kept s.mem) : KeptRes m (s.engList c l) := by
  unfold State.engList
  split
  · exact KeptListed.wait (kept_readList hm) ‹_›
  · exact kept_engFault hm
  · exact kept_modCmd (KeptListed.ok (kept_readList hm) ‹_›)
theorem kept_engPublish {c : EngCmd} {l : Launch} (hm : m.Kept s.mem) : KeptRes m (s.engPublish c l) := by
  unfold State.engPublish
  dsimp only
  split
  · exact kept_engFault hm
  · split
    · split
      · exact trivial
      · split
        · exact hm
        · split
          · exact kept_agentPrep hm _ ‹_›
          · split
            · exact trivial
            · exact kept_publish (kept_useReads hm)
    · exact trivial
  · exact trivial
theorem kept_engData {c : EngCmd} {l : Launch} (hm : m.Kept s.mem) : KeptRes m (s.engData c l) := by
  unfold State.engData
  dsimp only
  split
  · split
    · exact hm
    · exact kept_engBegin hm
  · split
    · split
      · exact kept_unzip hm
      · exact hm
    · exact kept_engMove hm
  · split
    · exact hm
    · exact kept_engBegin hm
  · exact kept_engMove hm
  · split
    · exact kept_engList hm
    · exact kept_engBegin hm
  · split
    · exact kept_engList hm
    · split
      · exact kept_engFault hm
      · exact trivial
      · exact kept_modCmd hm
  · exact kept_engMove hm
  · exact kept_engMove hm
  · exact kept_engPublish hm
  · split
    · exact hm
    · split
      · exact trivial
      · split
        · exact trivial
        · exact kept_takeImage hm
  · exact kept_engMove hm
  · exact hm
  · exact hm
theorem kept_asyncTrapTo {warp block launch core : Nat} {a : AsyncTrap} (hm : m.Kept s.mem) : m.Kept (s.asyncTrapTo warp block launch core a).mem := by
  unfold State.asyncTrapTo
  dsimp only
  split
  · exact kept_modAnyWarp hm
  · split
    · exact kept_modAnyWarp hm
    · exact kept_modLaunch hm
theorem kept_asyncTrap {c : EngCmd} {t : Nat × Nat × W64} (hm : m.Kept s.mem) : m.Kept (s.asyncTrap c t).mem :=
  kept_asyncTrapTo hm
theorem kept_cmdComplete {c : EngCmd} {recordFailed : Bool} (hm : m.Kept s.mem) : m.Kept (s.cmdComplete c recordFailed).mem := hm
theorem kept_cmdRecord {c : EngCmd} {l : Launch} (hm : m.Kept s.mem) : m.Kept (s.cmdRecord c l).mem := by
  unfold State.cmdRecord
  split
  · exact hm
  · split
    · exact kept_cmdComplete hm
    · split
      · exact kept_cmdComplete hm
      · split
        · split
          · refine KeptRes.wait (kept_engFault ?_) ‹_›
            exact hm
          · exact kept_cmdComplete (kept_asyncTrap hm)
          · exact kept_cmdComplete hm
        · split
          · refine kept_agentPrep ?_ _ ‹_›
            exact hm
          · dsimp only
            split
            · exact kept_modCmd (kept_engineWrites (kept_useSegs hm))
            · exact kept_cmdComplete (kept_engineWrites (kept_useSegs hm))
theorem kept_cmdData {c : EngCmd} {l : Launch} {st : Nat} {fva : W64} {fin : Nat} {trap : Option (Nat × Nat × W64)} (hm : m.Kept s.mem) :
    m.Kept (s.cmdData c l st fva fin trap).mem := by
  unfold State.cmdData
  refine kept_cmdRecord ?_
  split
  · split
    · exact kept_asyncTrap (kept_modCmd (kept_dropWait hm))
    · exact kept_modCmd (kept_dropWait hm)
  · refine kept_foldl (fun _ _ ht => kept_spoil ht) ?_
    split
    · exact kept_asyncTrap (kept_modCmd (kept_dropWait hm))
    · exact kept_modCmd (kept_dropWait hm)
theorem kept_clearSpoil {c : EngCmd} (hm : m.Kept s.mem) : m.Kept (s.clearSpoil c).mem := by
  unfold State.clearSpoil
  split
  · exact kept_putRegion hm
  · exact hm
theorem kept_collPublish {c : EngCmd} {l : Launch} {desc : Nat} (hm : m.Kept s.mem) : m.Kept (s.collPublish c l desc).mem := by
  unfold State.collPublish
  split
  · exact kept_cmdRecord (kept_modCmd (kept_dropWait (kept_putRegion hm)))
  · split
    · exact kept_cmdRecord (kept_modCmd (kept_dropWait (kept_putRegion hm)))
    · split
      · exact KeptRes.wait (kept_publish hm) ‹_›
      · refine kept_cmdRecord (kept_modCmd (kept_dropWait ?_))
        split
        · exact kept_asyncTrap (kept_putRegion hm)
        · exact kept_putRegion hm
      · exact kept_cmdRecord (kept_modCmd (kept_dropWait (KeptRes.ok (kept_publish hm) ‹_›)))
theorem kept_execEngineCommandDone (hm : m.Kept s.mem) : KeptNext m (execEngineCommandDone s) := by
  unfold execEngineCommandDone
  refine keptNext_next ?_
  split
  · split
    · exact hm
    · split
      · exact hm
      · split
        · exact hm
        · split
          · split
            · exact hm
            · exact kept_collPublish hm
          · split
            · exact kept_cmdRecord hm
            · split
              · exact kept_cmdData hm
              · split
                · exact KeptRes.wait (kept_engData hm) ‹_›
                · refine kept_cmdData ?_
                  split
                  · exact kept_clearSpoil hm
                  · exact hm
                · exact kept_cmdData (KeptRes.ok (kept_engData hm) ‹_›)
  · exact hm
theorem kept_modOp {id : Nat} {f : AnvilOp → AnvilOp} (hm : m.Kept s.mem) : m.Kept (s.modOp id f).mem := hm
theorem kept_modStream {block : Nat} {f : Stream → Stream} (hm : m.Kept s.mem) : m.Kept (s.modStream block f).mem := hm
theorem kept_execAnvilPassGrant (hm : m.Kept s.mem) : KeptNext m (execAnvilPassGrant s) := by
  unfold execAnvilPassGrant
  refine keptNext_next ?_
  split
  · split
    · exact hm
    · split
      · exact hm
      · split
        · exact kept_modStream (kept_modOp hm)
        · exact kept_modStream (kept_modOp hm)
        · exact kept_modOp hm
  · exact hm
theorem kept_opDone {o : AnvilOp} (hm : m.Kept s.mem) : m.Kept (s.opDone o).mem := by
  unfold State.opDone
  refine kept_settleBlock ?_
  dsimp only
  exact kept_dropWait hm
theorem kept_stepDone {o : AnvilOp} (hm : m.Kept s.mem) : m.Kept (s.stepDone o).mem :=
  kept_opDone (kept_modStream hm)
theorem kept_opFatal {o : AnvilOp} {st : Nat} {t : Trap} (hm : m.Kept s.mem) : m.Kept (s.opFatal o st t).mem :=
  kept_opDone (kept_modStream (kept_foldl (fun _ _ ht => kept_spoil ht) hm))
theorem kept_opFault {o : AnvilOp} {b : Block} {l : Launch} {u : Use} {x : ReadFail} (hm : m.Kept s.mem) : m.Kept (s.opFault o b l u x).mem := by
  unfold State.opFault
  split
  · split
    · exact kept_opFatal hm
    · exact kept_serveAgent hm
  · exact kept_askHost hm
  · exact kept_opFatal hm
theorem kept_dropFetched {a : FaultAgent} (hm : m.Kept s.mem) : m.Kept (s.dropFetched a).mem := hm
theorem kept_tileKeep {o : AnvilOp} {b : Block} {l : Launch} {r : TileRanges} (hm : m.Kept s.mem) : m.Kept (s.tileKeep o b l r).mem := by
  unfold State.tileKeep
  split
  · exact kept_opFault hm
  · split
    · exact kept_agentPrep hm _ ‹_›
    · exact kept_modOp (kept_dropFetched (kept_useReads hm))
theorem kept_tileRow {o : AnvilOp} {b : Block} {l : Launch} {t : TileShape} {p : Option Prologue} {kept : List (List Byte)} {i : Nat} (hm : m.Kept s.mem) :
    m.Kept (s.tileRow o b l t p kept i).mem := by
  unfold State.tileRow
  dsimp only
  split
  · exact kept_opFault hm
  · split
    · exact kept_agentPrep hm _ ‹_›
    · exact kept_opFault hm
    · exact kept_modOp (kept_dropFetched (kept_useReads hm))
theorem kept_tilePass {o : AnvilOp} {b : Block} {l : Launch} {t : TileShape} {p : Option Prologue} (hm : m.Kept s.mem) :
    m.Kept (s.tilePass o b l t p).mem := by
  unfold State.tilePass
  dsimp only
  split
  · split
    · split
      · exact kept_stepDone (kept_modOp (kept_modStream (kept_writeSite hm)))
      · exact kept_modOp (kept_modStream (kept_writeSite hm))
    · split
      · exact kept_stepDone (kept_modOp (kept_modStream (kept_writeSite hm)))
      · exact kept_modOp (kept_modStream (kept_writeSite hm))
  · split
    · split
      · exact kept_stepDone hm
      · split
        · exact kept_tileKeep hm
        · exact kept_tileRow hm
    · split
      · exact kept_stepDone hm
      · split
        · exact kept_tileKeep hm
        · exact kept_tileRow hm
theorem kept_withParts {o : AnvilOp} {ps : List SlotPart} (hm : m.Kept s.mem) : m.Kept (s.withParts o ps).mem := hm
theorem kept_readParts {o : AnvilOp} {b : Block} {l : Launch} {base stride word : W64} {ty dm rnd : Nat} {sat : Bool} {ps : List SlotPart} (hm : m.Kept s.mem) :
    m.Kept (s.readParts o b l base stride word ty dm rnd sat ps).mem := by
  unfold State.readParts
  dsimp only
  split
  · exact kept_opFault hm
  · split
    · exact kept_opFatal hm
    · split
      · exact kept_agentPrep hm _ ‹_›
      · exact kept_opFault hm
      · refine kept_withParts ?_
        split
        · exact kept_markWritten (kept_engineWrites (kept_useSegs hm))
        · exact kept_engineWrites (kept_useSegs hm)
theorem kept_readOut {o : AnvilOp} {b : Block} {l : Launch} {base stride word : W64} {ty dm rnd : Nat} {sat : Bool} (hm : m.Kept s.mem) :
    m.Kept (s.readOut o b l base stride word ty dm rnd sat).mem := by
  unfold State.readOut
  split
  · split
    · exact hm
    · exact kept_opDone hm
  · exact kept_readParts hm
  · split
    · split
      · exact kept_opFault hm
      · split
        · exact kept_opFatal hm
        · split
          · exact hm
          · exact kept_withParts hm
    · exact kept_withParts hm
theorem kept_loadParts {o : AnvilOp} {b : Block} {l : Launch} {base stride word : W64} {ty : Nat} {ps : List SlotPart} (hm : m.Kept s.mem) :
    m.Kept (s.loadParts o b l base stride word ty ps).mem := by
  unfold State.loadParts
  dsimp only
  split
  · exact kept_opFault hm
  · split
    · exact kept_agentPrep hm _ ‹_›
    · refine kept_withParts ?_
      refine kept_foldl (fun _ _ ht => ?_) (kept_useReads hm)
      split
      · exact kept_writeSite ht
      · exact ht
theorem kept_loadSlot {o : AnvilOp} {b : Block} {l : Launch} {base stride word : W64} {ty : Nat} (hm : m.Kept s.mem) :
    m.Kept (s.loadSlot o b l base stride word ty).mem := by
  unfold State.loadSlot
  split
  · exact kept_opDone hm
  · exact kept_loadParts hm
  · exact kept_withParts hm
theorem kept_zeroSlot {o : AnvilOp} (hm : m.Kept s.mem) : m.Kept (s.zeroSlot o).mem :=
  kept_opDone (kept_disturb hm)
theorem kept_layerDone {o : AnvilOp} {tile layer : Nat} (hm : m.Kept s.mem) : m.Kept (s.layerDone o tile layer).mem := by
  unfold State.layerDone
  split
  · exact hm
  · split <;> exact hm
theorem kept_execAnvilPassDone (hm : m.Kept s.mem) : KeptNext m (execAnvilPassDone s) := by
  unfold execAnvilPassDone
  refine keptNext_next ?_
  split
  · split
    · exact hm
    · split
      · exact hm
      · split
        · exact kept_layerDone hm
        · split
          · split
            · exact kept_zeroSlot hm
            · exact kept_tilePass hm
            · exact kept_tilePass hm
            · exact kept_readOut hm
            · exact kept_loadSlot hm
            · exact hm
          · exact hm
  · exact hm
theorem kept_int2 {f : Fields} {r : Bool → W32 → W32 → W32} (hm : m.Kept s.mem) : m.Kept (s.int2 f r).mem :=
  kept_vOp hm
theorem kept_int3 {f : Fields} {r : Bool → W32 → W32 → W32 → W32} (hm : m.Kept s.mem) : m.Kept (s.int3 f r).mem :=
  kept_vOp hm
theorem kept_int1 {f : Fields} {r : W32 → W32} (hm : m.Kept s.mem) : m.Kept (s.int1 f r).mem :=
  kept_vOp hm
theorem kept_shift {f : Fields} {r : W32 → Nat → W32} (hm : m.Kept s.mem) : m.Kept (s.shift f r).mem :=
  kept_vOp hm
theorem kept_carryOp {f : Fields} {r : W32 → W32 → Bool → W32 × Bool} (hm : m.Kept s.mem) : m.Kept (s.carryOp f r).mem :=
  kept_perLane hm
theorem kept_icmp32 {f : Fields} (hm : m.Kept s.mem) : m.Kept (s.icmp32 f).mem :=
  kept_pOp hm
theorem kept_icmp64 {f : Fields} (hm : m.Kept s.mem) : m.Kept (s.icmp64 f).mem :=
  kept_pOp hm
theorem kept_int64 {f : Fields} {r : W64 → W64 → W64} (hm : m.Kept s.mem) : m.Kept (s.int64 f r).mem :=
  kept_vOp64 hm
theorem kept_shift64 {f : Fields} {r : W64 → Nat → W64} (hm : m.Kept s.mem) : m.Kept (s.shift64 f r).mem :=
  kept_vOp64 hm
theorem kept_divide {op reason : Nat} {f : Fields} {r : Bool → W32 → W32 → W32} (hm : m.Kept s.mem) : m.Kept (s.divide op reason f r).mem := by
  unfold State.divide
  refine kept_onWarp hm fun _ => ?_
  split
  · exact kept_raise hm
  · exact kept_vOpLong hm
theorem kept_execVote {w : Std} (hm : m.Kept s.mem) : KeptNext m (execVote w s) := by
  unfold execVote
  refine keptNext_next ?_
  refine kept_onWarp hm fun _ => ?_
  split
  · exact kept_pOp hm
  · exact kept_pOp hm
  · exact kept_pOp hm
  · exact kept_vOp64 hm
theorem kept_execNnev {w : Ext} (hm : m.Kept s.mem) : KeptNext m (execNnev w s) := by
  unfold execNnev
  dsimp only
  refine keptNext_next ?_
  refine kept_onWarp hm fun _ => ?_
  split
  · exact kept_finishLong hm
  · split
    · exact kept_raise hm
    · split
      · exact kept_limit hm
      · exact kept_stageCmd (kept_putWarp hm)
theorem kept_execNnflush {w : Std} (hm : m.Kept s.mem) : KeptNext m (execNnflush w s) := by
  unfold execNnflush
  refine keptNext_next ?_
  refine kept_onWarp hm fun _ => ?_
  split
  · exact kept_finishLong hm
  · split
    · exact kept_limit hm
    · exact kept_stageCmd (kept_finishLong hm)
theorem kept_modTile {id : Nat} {f : Tile → Tile} (hm : m.Kept s.mem) : m.Kept (s.modTile id f).mem := hm
theorem kept_enterRow {quad launch : Nat} {r : NnRow} (hm : m.Kept s.mem) : m.Kept (s.enterRow quad launch r).mem := by
  unfold State.enterRow
  split
  · exact kept_modTile hm
  · exact hm
theorem kept_sendTiles {p : Tile → Bool} (hm : m.Kept s.mem) : m.Kept (s.sendTiles p).mem := hm
theorem kept_execTongsRequest (hm : m.Kept s.mem) : KeptNext m (execTongsRequest s) := by
  unfold execTongsRequest
  refine keptNext_next ?_
  split
  · split
    · exact hm
    · split
      · exact kept_modAnyWarp (kept_sendTiles hm)
      · split
        · exact kept_sendTiles (kept_foldl (fun _ _ ht => kept_enterRow ht) hm)
        · exact kept_foldl (fun _ _ ht => kept_enterRow ht) hm
  · exact hm
theorem kept_execTongsTimerExpiry (hm : m.Kept s.mem) : KeptNext m (execTongsTimerExpiry s) := by
  unfold execTongsTimerExpiry
  refine keptNext_next ?_
  split
  · exact kept_sendTiles hm
  · exact hm
theorem kept_withdraw {warp long : Nat} (hm : m.Kept s.mem) : m.Kept (s.withdraw warp long).mem := hm
theorem kept_nnTrap {l : Launch} {warp long : Nat} {t : Trap} (hm : m.Kept s.mem) : m.Kept (s.nnTrap l warp long t).mem := by
  unfold State.nnTrap
  split
  · exact hm
  · split
    · exact hm
    · exact kept_raiseOn (kept_putWarp (kept_withdraw hm))
theorem kept_failTile {l : Launch} {t : Tile} {trap : Nat → Trap} (hm : m.Kept s.mem) : m.Kept (s.failTile l t trap).mem :=
  kept_foldl (fun _ _ ht => kept_nnTrap ht) hm
theorem kept_nnOpen {warp long : Nat} (hm : m.Kept s.mem) : m.Kept (s.nnOpen warp long).mem := by
  unfold State.nnOpen
  dsimp only
  split
  · exact hm
  · exact kept_modAnyWarp hm
theorem kept_passTile {l : Launch} {t : Tile} {w : Who} {r : NetRec} {record : List Byte} {data : List (List Byte)} {gs : List Seg} (hm : m.Kept s.mem) :
    m.Kept (s.passTile l t w r record data gs).mem := by
  unfold State.passTile
  dsimp only
  refine kept_foldl (fun _ _ ht => ?_) ?_
  · exact kept_nnOpen ht
  · dsimp only
    exact kept_modTile (kept_dropFetched (kept_useReads hm))
theorem kept_tileReadFail {l : Launch} {t : Tile} {w0 : Warp} {x : ReadFail} (hm : m.Kept s.mem) : m.Kept (s.tileReadFail l t w0 x).mem := by
  unfold State.tileReadFail
  split
  · exact kept_askHost hm
  · exact kept_failTile hm
theorem kept_splitTile {t : Tile} {block : Nat} (hm : m.Kept s.mem) : m.Kept (s.splitTile t block).mem := hm
theorem kept_execTongsTileCheck (hm : m.Kept s.mem) : KeptNext m (execTongsTileCheck s) := by
  unfold execTongsTileCheck
  dsimp only
  refine keptNext_next ?_
  split
  · split
    · exact hm
    · split
      · split
        · exact hm
        · split
          · exact kept_splitTile hm
          · split
            · exact kept_tileReadFail hm
            · split
              · exact kept_agentPrep hm _ ‹_›
              · split
                · exact kept_failTile hm
                · split
                  · exact kept_foldl (fun _ _ ht => kept_nnTrap ht) hm
                  · split
                    · exact kept_failTile hm
                    · split
                      · exact kept_splitTile hm
                      · split
                        · exact kept_tileReadFail hm
                        · split
                          · exact kept_agentPrep hm _ ‹_›
                          · exact kept_passTile hm
      · exact hm
  · exact hm
theorem kept_execTongsTileResult (hm : m.Kept s.mem) : KeptNext m (execTongsTileResult s) := by
  unfold execTongsTileResult
  refine keptNext_next ?_
  split
  · split
    · exact hm
    · exact kept_foldl (fun _ _ ht => kept_modAnyWarp ht) hm
  · exact hm
theorem kept_rayOp {op : Nat} {f : Fields} {act : RayAct} {root : Warp → Nat → W64} (hm : m.Kept s.mem) : m.Kept (s.rayOp op f act root).mem := by
  unfold State.rayOp
  dsimp only
  refine kept_onWarp hm fun _ => ?_
  split
  · exact kept_finishLong hm
  · split
    · exact kept_raise hm
    · split
      · exact kept_limit hm
      · exact kept_stageCmd (kept_finishLong hm)
theorem kept_visitRead {w : Who} {va : W64} {n : Nat} {k : List Seg → List Byte → Visit} (hm : m.Kept s.mem) (hk : ∀ x y, KeptVisit m (k x y)) :
    KeptVisit m (s.visitRead w va n k) := by
  unfold State.visitRead
  split
  · exact trivial
  · split
    · exact kept_agentPrep hm _ ‹_›
    · exact hk _ _
theorem kept_visitIn {w : Who} {it : RayItem} {k : Option InstRec → List Seg → Visit} (hm : m.Kept s.mem) (hk : ∀ x y, KeptVisit m (k x y)) :
    KeptVisit m (s.visitIn w it k) := by
  unfold State.visitIn
  split
  · exact hk _ _
  · exact kept_visitRead hm (fun _ _ => hk _ _)
theorem kept_visit {w : Who} {q : RayQuery} {it : RayItem} {salt : Nat} (hm : m.Kept s.mem) : KeptVisit m (s.visit w q it salt) := by
  unfold State.visit
  dsimp only
  refine kept_visitIn hm fun _ _ => ?_
  split
  · exact trivial
  · split
    · split
      · exact trivial
      · split
        · exact trivial
        · split
          · exact trivial
          · split <;> exact trivial
    · split
      · split
        · exact trivial
        · exact kept_visitRead hm (fun _ _ => trivial)
      · split
        · split
          · exact trivial
          · refine kept_visitRead hm fun _ _ => ?_
            split <;> split <;> exact trivial
        · split
          · exact trivial
          · refine kept_visitRead hm fun _ _ => ?_
            split
            · exact trivial
            · split <;> exact trivial
theorem kept_rayEnd {r : RayReq} {q : RayQuery} {words : List W32} (hm : m.Kept s.mem) : m.Kept (s.rayEnd r q words).mem := hm
theorem kept_rayPause {r : RayReq} {q : RayQuery} (hm : m.Kept s.mem) : m.Kept (s.rayPause r q).mem := hm
theorem kept_rayStatus {r : RayReq} {w : Warp} {launch : Nat} {q : RayQuery} {st : Nat} {va : W64} {trap : Option (Nat × Nat)} (hm : m.Kept s.mem) :
    m.Kept (s.rayStatus r w launch q st va trap).mem := by
  unfold State.rayStatus
  refine kept_rayEnd ?_
  split
  · exact kept_asyncTrapTo hm
  · exact hm
theorem kept_askLine {r : RayReq} {l : Launch} {va : W64} {owner : Nat} (hm : m.Kept s.mem) : m.Kept (s.askLine r l va owner).mem := by
  unfold State.askLine
  split
  · exact hm
  · split
    · exact hm
    · exact kept_sendPacket hm
theorem kept_traverse {r : RayReq} {wp : Warp} {w : Who} {fuel : Nat} {q : RayQuery} (hm : m.Kept s.mem) : m.Kept (s.traverse r wp w fuel q).mem := by
  induction fuel generalizing s q with
  | zero => exact kept_rayPause hm
  | succ fuel ih =>
    unfold State.traverse
    split
    · exact kept_rayEnd hm
    · split
      · exact ih (kept_useReads hm)
      · exact kept_rayPause (KeptVisit.prep (kept_visit hm) ‹_›)
      · split
        · exact kept_rayEnd (kept_useReads hm)
        · exact kept_rayPause hm
      · exact kept_rayStatus hm
      · exact kept_rayPause (kept_askLine hm)
      · rename_i x _
        cases x with
        | bad va c => exact kept_rayStatus hm
        | acc f =>
          cases f with
          | served f =>
            dsimp only
            split
            · exact kept_rayStatus hm
            · exact kept_rayPause (kept_serveAgent hm)
          | ats va => exact kept_rayPause (kept_askHost hm)
          | _ => exact kept_rayStatus hm
theorem kept_rayStep {r : RayReq} {wp : Warp} {w : Who} (hm : m.Kept s.mem) : m.Kept (s.rayStep r wp w).mem := by
  unfold State.rayStep
  dsimp only
  split
  · split
    · exact kept_rayEnd hm
    · exact kept_traverse hm
  · exact kept_traverse hm
  · exact kept_rayEnd hm
  · split
    · exact kept_traverse hm
    · exact kept_rayEnd hm
  · split
    · exact kept_traverse hm
    · exact kept_rayEnd hm
  · split <;> exact kept_rayEnd hm
  · split <;> exact kept_rayEnd hm
theorem kept_execRayTraversalDone (hm : m.Kept s.mem) : KeptNext m (execRayTraversalDone s) := by
  unfold execRayTraversalDone
  refine keptNext_next ?_
  split
  · split
    · split
      · split
        · exact hm
        · exact kept_rayStep hm
      · exact hm
    · exact hm
  · exact hm

end

end Sys2Proof.Machine

/-! PROOFS. The canonical form of memory is kept by the operations of work creation and collectives (family 09_memory_model.md). -/
namespace Sys2Proof.Machine

section
variable {m : Mem} {s : State}

theorem kept_stageRecords {direct : Bool} {w launch : Nat} {rs : List EmitRec} (hm : m.Kept s.mem) : m.Kept (s.stageRecords direct w launch rs).mem := by
  unfold State.stageRecords
  split
  · exact hm
  · split
    · exact kept_modWarp (kept_modLaunch hm)
    · exact kept_modWarp hm
theorem kept_finishEmit {e : Env} {f : Fields} {direct : Bool} {ex : List Nat} {nd : Nat → Nat} {bytes : Nat → List Byte} (hm : m.Kept s.mem) :
    m.Kept (s.finishEmit e f direct ex nd bytes).mem :=
  kept_stageRecords (kept_finish hm)
theorem kept_emitRoom {e : Env} {ex : List Nat} {nd : Nat → Nat} {k : State} (hm : m.Kept s.mem) (hm2 : m.Kept k.mem) :
    m.Kept (s.emitRoom e ex nd k).mem := by
  unfold State.emitRoom
  dsimp only
  split
  · exact kept_limit hm
  · exact hm2
theorem kept_emitReady {e : Env} {f : Fields} {ex : List Nat} {nd : Nat → Nat} {k : State} (hm : m.Kept s.mem) (hm2 : m.Kept k.mem) :
    m.Kept (s.emitReady e f ex nd k).mem := by
  unfold State.emitReady
  split
  · exact kept_raise hm
  · exact kept_emitRoom hm hm2
theorem kept_execReorder {w : Ext} (hm : m.Kept s.mem) : KeptNext m (execReorder w s) := by
  unfold execReorder
  refine keptNext_next ?_
  refine kept_whenSettled hm fun _ => ?_
  split
  · exact kept_skipWarp hm
  · split
    · exact kept_raise hm
    · exact kept_checkDeadlock (kept_settleWarp (kept_traceWarp (kept_modBlock (kept_putWarp hm))))
theorem kept_placeRecord {launch : Nat} {rc : EmitRec} (hm : m.Kept s.mem) : m.Kept (s.placeRecord launch rc).mem := by
  unfold State.placeRecord
  split
  · exact hm
  · split
    · exact hm
    · exact kept_modLaunch (kept_engineWrites (kept_useSegs (kept_foldl (fun _ _ ht => kept_needLines ht) hm)))
theorem kept_freeReceive {ep src sslot : Nat} (hm : m.Kept s.mem) : m.Kept (s.freeReceive ep src sslot).mem := by
  unfold State.freeReceive
  split
  · exact hm
  · exact kept_tellPkg (kept_tellPkg hm)
theorem kept_serveSender {launch node : Nat} (hm : m.Kept s.mem) : m.Kept (s.serveSender launch node).mem := by
  unfold State.serveSender
  split
  · exact hm
  · split
    · dsimp only
      split
      · refine kept_freeReceive ?_
        split
        · exact kept_modAnyWarp (kept_modLaunch (kept_placeRecord hm))
        · exact kept_modLaunch (kept_placeRecord hm)
      · split
        · exact kept_modAnyWarp (kept_modLaunch (kept_placeRecord hm))
        · exact kept_modLaunch (kept_placeRecord hm)
    · exact hm
theorem kept_execRecordPlacement (hm : m.Kept s.mem) : KeptNext m (execRecordPlacement s) := by
  unfold execRecordPlacement
  refine keptNext_next ?_
  split
  · exact kept_serveSender hm
  · exact hm
theorem kept_execPoolSlotFree (hm : m.Kept s.mem) : KeptNext m (execPoolSlotFree s) := by
  unfold execPoolSlotFree
  refine keptNext_next ?_
  split
  · exact kept_serveSender hm
  · exact hm
theorem kept_spillRecord {e : Env} {lane node : Nat} {bytes : List Byte} (hm : m.Kept s.mem) : m.Kept (s.spillRecord e lane node bytes).mem := hm
theorem kept_forwardLane {e : Env} {lane pk ep n : Nat} {spill : Option Nat} {bytes : List Byte} (hm : m.Kept s.mem) :
    m.Kept (s.forwardLane e lane pk ep n spill bytes).mem := by
  unfold State.forwardLane
  dsimp only
  split
  · exact kept_modWarp hm
  · split
    · exact kept_modWarp hm
    · split
      · split
        · exact kept_modWarp hm
        · split
          · exact kept_spillRecord hm
          · exact kept_modWarp (kept_modLaunch hm)
      · split
        · split
          · exact kept_spillRecord hm
          · exact kept_waitLanes hm
        · exact kept_modWarp (kept_tellPkg hm)
theorem kept_execRfwd {w : Ext} (hm : m.Kept s.mem) : KeptNext m (execRfwd w s) := by
  unfold execRfwd
  dsimp only
  refine keptNext_next ?_
  refine kept_whenSettled hm fun _ => ?_
  split
  · exact kept_finishLong hm
  · split
    · exact kept_raise hm
    · split
      · exact kept_forwardLane (kept_putWarp hm)
      · split
        · exact kept_stall hm
        · exact kept_finishLong hm
theorem kept_wakeCredit {pkg ep : Nat} {fail : Bool} (hm : m.Kept s.mem) : m.Kept (s.wakeCredit pkg ep fail).mem := hm
theorem kept_execRecordAckArrival (hm : m.Kept s.mem) : KeptNext m (execRecordAckArrival s) := by
  unfold execRecordAckArrival
  refine keptNext_next ?_
  split
  · split
    · exact hm
    · exact kept_wakeCredit (kept_modAnyWarp hm)
  · exact hm
theorem kept_modCredit {pkg ep : Nat} {f : Credit → Credit} (hm : m.Kept s.mem) : m.Kept (s.modCredit pkg ep f).mem := by
  unfold State.modCredit
  split <;> exact hm
theorem kept_execCreditReturn (hm : m.Kept s.mem) : KeptNext m (execCreditReturn s) := by
  unfold execCreditReturn
  refine keptNext_next ?_
  split
  · split
    · exact kept_wakeCredit (kept_modCredit hm)
    · exact hm
  · exact hm
theorem kept_execSlotGrant (hm : m.Kept s.mem) : KeptNext m (execSlotGrant s) := by
  unfold execSlotGrant
  refine keptNext_next ?_
  split
  · exact kept_wakeCredit (kept_modCredit hm)
  · exact hm
theorem kept_execSlotRevoke (hm : m.Kept s.mem) : KeptNext m (execSlotRevoke s) := by
  unfold execSlotRevoke
  refine keptNext_next ?_
  split
  · exact kept_wakeCredit (kept_modCredit hm)
  · exact hm
theorem kept_noteRecord {ep src : Nat} {rseq : W32} (hm : m.Kept s.mem) : m.Kept (s.noteRecord ep src rseq).mem := hm
theorem kept_execRemoteRecordArrival (hm : m.Kept s.mem) : KeptNext m (execRemoteRecordArrival s) := by
  unfold execRemoteRecordArrival
  dsimp only
  refine keptNext_next ?_
  split
  · split
    · exact hm
    · split
      · exact kept_tellPkg (kept_noteRecord hm)
      · split
        · exact kept_tellPkg (kept_noteRecord hm)
        · refine kept_modLaunch ?_
          dsimp only
          exact kept_noteRecord hm
  · exact hm
theorem kept_putColl {k : Collective} (hm : m.Kept s.mem) : m.Kept (s.putColl k).mem := hm
theorem kept_tell {pkg : Nat} {h : BitVec 128} (hm : m.Kept s.mem) : m.Kept (s.tell pkg h).mem :=
  kept_tellPkg hm
theorem kept_sendKept {m' : CMsg} (hm : m.Kept s.mem) : m.Kept (s.sendKept m').mem :=
  kept_tellPkg hm
theorem kept_enterStep {k : Collective} (hm : m.Kept s.mem) : m.Kept (s.enterStep k).mem := by
  unfold State.enterStep
  split
  · exact kept_putColl hm
  · exact kept_putColl (kept_foldl (fun _ _ ht => kept_sendKept ht) hm)
theorem kept_advanceColl {tag : W32} {n : Nat} (hm : m.Kept s.mem) : m.Kept (s.advanceColl tag n).mem := by
  induction n generalizing s with
  | zero => exact hm
  | succ n ih =>
    unfold State.advanceColl
    split
    · exact hm
    · split
      · exact hm
      · dsimp only
        split
        · exact hm
        · exact ih (kept_enterStep hm)
theorem kept_abortColl {k : Collective} {st : Nat} (hm : m.Kept s.mem) : m.Kept (s.abortColl k st).mem :=
  kept_foldl (fun _ _ ht => kept_tell ht) (kept_putColl hm)
theorem kept_endColl {c : EngCmd} {l : Launch} {region : Option Nat} {st : Nat} {fva : W64} {fin : Nat} {trap : Option (Nat × Nat × W64)} (hm : m.Kept s.mem) :
    m.Kept (s.endColl c l region st fva fin trap).mem := by
  unfold State.endColl
  dsimp only
  split
  · split
    · refine kept_asyncTrap ?_
      dsimp only
      exact kept_dropWait hm
    · dsimp only
      exact kept_dropWait hm
  · refine kept_cmdRecord ?_
    split
    · refine kept_asyncTrap ?_
      dsimp only
      exact kept_dropWait hm
    · dsimp only
      exact kept_dropWait hm
theorem kept_collFault {c : EngCmd} {l : Launch} {u : Use} {region : Option Nat} {x : ReadFail} (hm : m.Kept s.mem) :
    m.Kept (s.collFault c l u region x).mem := by
  unfold State.collFault
  split
  · split
    · exact kept_endColl hm
    · exact kept_serveAgent hm
  · exact kept_askHost hm
  · exact kept_endColl hm
  · exact kept_endColl hm
  · exact kept_endColl hm
theorem kept_beginColl {k : Collective} (hm : m.Kept s.mem) : m.Kept (s.beginColl k).mem :=
  kept_advanceColl (kept_enterStep hm)
theorem kept_startColl {c : EngCmd} {l : Launch} (hm : m.Kept s.mem) : m.Kept (s.startColl c l).mem := by
  unfold State.startColl
  dsimp only
  split
  · exact kept_collFault hm
  · split
    · exact kept_agentPrep hm _ ‹_›
    · split
      · exact kept_endColl hm
      · split
        · exact kept_collFault hm
        · split
          · exact kept_agentPrep hm _ ‹_›
          · split
            · exact kept_endColl hm
            · split
              · exact kept_endColl hm
              · split
                · exact kept_collFault hm
                · split
                  · exact kept_endColl hm
                  · split
                    · exact hm
                    · split
                      · exact kept_collFault hm
                      · split
                        · exact kept_agentPrep hm _ ‹_›
                        · exact kept_beginColl (kept_useReads (kept_dropWait hm))
theorem kept_execCollectiveStart (hm : m.Kept s.mem) : KeptNext m (execCollectiveStart s) := by
  unfold execCollectiveStart
  refine keptNext_next ?_
  split
  · split
    · split
      · split
        · exact hm
        · exact kept_startColl hm
      · exact hm
    · exact hm
  · exact hm
theorem kept_acknowledge {h : BitVec 128} {ranks : List Nat} {cfg : Nat} (hm : m.Kept s.mem) : m.Kept (s.acknowledge h ranks cfg).mem :=
  kept_tell hm
theorem kept_execCrucibleData (hm : m.Kept s.mem) : KeptNext m (execCrucibleData s) := by
  unfold execCrucibleData
  refine keptNext_next ?_
  split
  · split
    · exact hm
    · split
      · split
        · exact kept_acknowledge hm
        · exact hm
      · split
        · exact kept_acknowledge hm
        · split
          · exact kept_abortColl (kept_acknowledge hm)
          · split
            · exact kept_acknowledge hm
            · split
              · exact hm
              · exact kept_putColl (kept_acknowledge hm)
              · exact kept_advanceColl (kept_putColl (kept_acknowledge hm))
  · exact hm
theorem kept_execRequestAgain (hm : m.Kept s.mem) : KeptNext m (execRequestAgain s) := by
  unfold execRequestAgain
  refine keptNext_next ?_
  split
  · split
    · exact hm
    · split
      · exact kept_abortColl hm
      · exact kept_sendKept hm
      · exact hm
  · exact hm
theorem kept_execCrucibleAbort (hm : m.Kept s.mem) : KeptNext m (execCrucibleAbort s) := by
  unfold execCrucibleAbort
  refine keptNext_next ?_
  split
  · split
    · split
      · exact hm
      · split
        · exact kept_putColl hm
        · split
          · exact kept_abortColl hm
          · exact kept_putColl hm
    · exact hm
  · exact hm
theorem kept_execCrucibleAck (hm : m.Kept s.mem) : KeptNext m (execCrucibleAck s) := by
  unfold execCrucibleAck
  refine keptNext_next ?_
  split
  · split
    · exact hm
    · split
      · exact kept_abortColl hm
      · exact hm
  · exact hm
theorem kept_execCrucibleRoundTimer (hm : m.Kept s.mem) : KeptNext m (execCrucibleRoundTimer s) := by
  unfold execCrucibleRoundTimer
  refine keptNext_next ?_
  split
  · split
    · exact hm
    · split
      · exact hm
      · dsimp only
        split
        · exact hm
        · split
          · exact kept_abortColl hm
          · refine kept_foldl (fun _ _ ht => ?_) ?_
            · exact kept_tell ht
            · exact kept_putColl hm
  · exact hm
theorem kept_execCollectiveComplete (hm : m.Kept s.mem) : KeptNext m (execCollectiveComplete s) := by
  unfold execCollectiveComplete
  dsimp only
  refine keptNext_next ?_
  split
  · split
    · exact hm
    · split
      · exact hm
      · split
        · exact hm
        · split
          · exact kept_endColl hm
          · split
            · exact hm
            · split
              · exact kept_collFault hm
              · split
                · exact kept_collFault hm
                · exact kept_agentPrep hm _ ‹_›
                · refine kept_endColl ?_
                  split
                  · exact kept_markWritten (kept_engineWrites (kept_useSegs hm))
                  · exact kept_engineWrites (kept_useSegs hm)
  · exact hm

end

end Sys2Proof.Machine

/-! PROOFS. The canonical form of memory is kept by the operations of moves, reports and faults (family 09_memory_model.md). -/
namespace Sys2Proof.Machine

section
variable {m : Mem} {s : State}

theorem kept_pred2 {f : Fields} {r : Bool → Bool → Bool} (hm : m.Kept s.mem) : m.Kept (s.pred2 f r).mem :=
  kept_pOp hm
theorem kept_execPmov {w : Std} (hm : m.Kept s.mem) : KeptNext m (execPmov w s) := by
  unfold execPmov
  refine keptNext_next ?_
  split
  · exact kept_pOp hm
  · exact kept_vOp hm
  · exact kept_perLane hm
theorem kept_execMov {w : Std} (hm : m.Kept s.mem) : KeptNext m (execMov w s) := by
  unfold execMov
  refine keptNext_next ?_
  split
  · exact kept_vOp64 hm
  · exact kept_vOp hm
theorem kept_execMovi {w : Ext} (hm : m.Kept s.mem) : KeptNext m (execMovi w s) := by
  unfold execMovi
  refine keptNext_next ?_
  split
  · exact kept_vOp hm
  · exact kept_vOp64 hm
  · exact kept_uniform hm
theorem kept_execMovs {w : Std} (hm : m.Kept s.mem) : KeptNext m (execMovs w s) := by
  unfold execMovs
  refine keptNext_next ?_
  split
  · split
    · exact kept_vOp64 hm
    · exact kept_vOp hm
  · exact kept_onWarp hm (fun _ => kept_uniform hm)
theorem kept_uni2 {f : Fields} {r : W64 → W64 → W64} (hm : m.Kept s.mem) : m.Kept (s.uni2 f r).mem :=
  kept_uniform hm
theorem kept_execSprrd {w : Std} (hm : m.Kept s.mem) : KeptNext m (execSprrd w s) := by
  unfold execSprrd
  refine keptNext_next ?_
  split
  · exact kept_onStream hm (fun _ => kept_uniform hm)
  · refine kept_onWarp hm fun _ => ?_
    split
    · exact kept_vOp hm
    · exact kept_vOp64 hm
    · exact kept_uniform hm
theorem kept_execSprwr {w : Std} (hm : m.Kept s.mem) : KeptNext m (execSprwr w s) := by
  unfold execSprwr
  refine keptNext_next ?_
  split
  · refine kept_onStream hm fun _ => ?_
    split
    · exact kept_stallStream hm
    · exact kept_putStream hm
  · refine kept_onWarp hm fun _ => ?_
    split
    · exact kept_finish hm
    · split
      · exact kept_raise hm
      · exact kept_putWarp hm
theorem kept_report {pa : Nat} {bs : List Byte} (hm : m.Kept s.mem) : m.Kept (s.report pa bs).mem :=
  kept_ownStore hm
theorem kept_status32 {off x : Nat} (hm : m.Kept s.mem) : m.Kept (s.status32 off x).mem := by
  unfold State.status32
  split
  · exact hm
  · exact kept_report (kept_report hm)
theorem kept_statusQ {q field x : Nat} (hm : m.Kept s.mem) : m.Kept (s.statusQ q field x).mem :=
  kept_status32 hm
theorem kept_statusRecord {q : Nat} (hm : m.Kept s.mem) : m.Kept (s.statusRecord q).mem := by
  unfold State.statusRecord
  refine kept_foldl (fun _ _ ht => kept_statusQ ht) ?_
  split
  · exact kept_report hm
  · exact hm
theorem kept_statusPage (hm : m.Kept s.mem) : m.Kept (s.statusPage).mem := by
  unfold State.statusPage
  refine kept_foldl (fun _ _ ht => kept_statusRecord ht) ?_
  refine kept_status32 (kept_status32 (kept_status32 ?_))
  split
  · exact kept_report hm
  · exact hm
theorem kept_event {kind sub d0 d1 : Nat} (hm : m.Kept s.mem) : m.Kept (s.event kind sub d0 d1).mem := by
  unfold State.event
  split
  · exact hm
  · split
    · exact kept_status32 (kept_report (kept_report (kept_report hm)))
    · exact hm
theorem kept_modQueue {q : Nat} {f : Queue → Queue} (hm : m.Kept s.mem) : m.Kept (s.modQueue q f).mem := hm
theorem kept_moveMarks {q : Nat} (hm : m.Kept s.mem) : m.Kept (s.moveMarks q).mem := by
  unfold State.moveMarks
  split
  · exact hm
  · dsimp only
    split
    · split
      · exact kept_modQueue hm
      · exact kept_statusQ (kept_modQueue hm)
    · refine kept_statusQ ?_
      split
      · exact kept_modQueue hm
      · exact kept_statusQ (kept_modQueue hm)
theorem kept_execEventQueueHeadMove (hm : m.Kept s.mem) : KeptNext m (execEventQueueHeadMove s) := by
  unfold execEventQueueHeadMove
  refine keptNext_next ?_
  split
  · split
    · exact kept_event (kept_report hm)
    · exact kept_report hm
  · exact hm
theorem kept_execTrap {w : Std} (hm : m.Kept s.mem) : KeptNext m (execTrap w s) := by
  unfold execTrap
  dsimp only
  refine keptNext_next ?_
  refine kept_whenSettled hm fun _ => ?_
  split
  · exact kept_skipWarp hm
  · split <;> exact kept_raise hm
theorem kept_execRti {w : Std} (hm : m.Kept s.mem) : KeptNext m (execRti w s) := by
  unfold execRti
  refine keptNext_next ?_
  refine kept_whenSettled hm fun _ => ?_
  split
  · exact kept_raise hm
  · exact kept_tryLeave (kept_waitLanes hm)
theorem kept_setMask {f : Fields} {m' : Bool} (hm : m.Kept s.mem) : m.Kept (s.setMask f m').mem := by
  unfold State.setMask
  refine kept_whenSettled hm fun _ => ?_
  split <;> exact kept_putWarp hm
theorem kept_failLaunch {l : Launch} {cause reason : Nat} {info : W64} (hm : m.Kept s.mem) : m.Kept (s.failLaunch l cause reason info).mem := by
  unfold State.failLaunch
  dsimp only
  exact kept_mapWarps (kept_rollAll hm)
theorem kept_endLeases {n : Named} (hm : m.Kept s.mem) : m.Kept (s.endLeases n).mem := by
  unfold State.endLeases
  refine kept_foldl (fun _ _ ht => ?_) hm
  split
  · exact ht
  · split
    · exact ht
    · split
      · exact kept_modLaunch ht
      · split
        · exact kept_modLaunch (kept_failLaunch ht)
        · exact kept_modLaunch ht
theorem kept_invalidate {n : Named} (hm : m.Kept s.mem) : m.Kept (s.invalidate n).mem :=
  kept_endLeases hm
theorem kept_tlbInvalidate {f : Fields} (hm : m.Kept s.mem) : m.Kept (s.tlbInvalidate f).mem := by
  unfold State.tlbInvalidate
  refine kept_whenSettled hm fun _ => ?_
  split
  · exact kept_finishLong hm
  · split
    · exact kept_raise hm
    · split
      · exact kept_raise hm
      · dsimp only
        split
        · exact kept_invalidate (kept_finishLong hm)
        · exact kept_stall hm
theorem kept_cleanLine {line : Nat} (hm : m.Kept s.mem) : m.Kept (s.cleanLine line).mem := hm
theorem kept_dropFromL1 {core line : Nat} (hm : m.Kept s.mem) : m.Kept (s.dropFromL1 core line).mem := by
  unfold State.dropFromL1
  split
  · exact kept_disturb hm
  · exact hm
theorem kept_cacheOp {core op : Nat} {lines : List Nat} (hm : m.Kept s.mem) : m.Kept (s.cacheOp core op lines).mem := by
  unfold State.cacheOp
  split
  · exact kept_foldl (fun _ _ ht => kept_cleanLine ht) hm
  · exact kept_foldl (fun _ _ ht => kept_dropFromL1 ht) hm
  · exact kept_foldl (fun _ _ ht => kept_evictL2 (kept_cleanLine ht)) hm
theorem kept_execCachectl {w : Std} (hm : m.Kept s.mem) : KeptNext m (execCachectl w s) := by
  unfold execCachectl
  dsimp only
  refine keptNext_next ?_
  refine kept_whenSettled hm fun _ => ?_
  split
  · exact kept_finishLong hm
  · split
    · exact kept_raise hm
    · split
      · exact kept_modBlock (kept_finishLong hm)
      · exact kept_finishLong hm
      · split
        · exact kept_disable (kept_askHost hm)
        · exact kept_cacheOp (kept_finishLong hm)
theorem kept_execTmark {w : Std} (hm : m.Kept s.mem) : KeptNext m (execTmark w s) := by
  unfold execTmark
  refine keptNext_next ?_
  refine kept_onWarp hm fun _ => ?_
  split
  · exact kept_skipWarp hm
  · exact kept_traceWarp (kept_skipWarp hm)
theorem kept_setSoff {f : Fields} {x : Bool} (hm : m.Kept s.mem) : m.Kept (s.setSoff f x).mem :=
  kept_whenSettled hm (fun _ => kept_putWarp hm)
theorem kept_cancelCmds {launch : Nat} (hm : m.Kept s.mem) : m.Kept (s.cancelCmds launch).mem := hm
theorem kept_discardSaved {launch : Nat} (hm : m.Kept s.mem) : m.Kept (s.discardSaved launch).mem := hm
theorem kept_stopLaunch {launch : Nat} {stat reason : Byte} (hm : m.Kept s.mem) : m.Kept (s.stopLaunch launch stat reason).mem :=
  kept_cancelCmds (kept_discardSaved (kept_rollAll (kept_modLaunch hm)))
theorem kept_execHalt {w : Std} (hm : m.Kept s.mem) : KeptNext m (execHalt w s) := by
  unfold execHalt
  refine keptNext_next ?_
  refine kept_whenSettled hm fun _ => ?_
  split
  · exact kept_skipWarp hm
  · split
    · exact kept_raise hm
    · exact kept_stopLaunch (kept_skipWarp hm)
theorem kept_dumpWrite {l : Launch} {va : W64} {bs : List Byte} (hm : m.Kept s.mem) : m.Kept (s.dumpWrite l va bs).1.mem := by
  unfold State.dumpWrite
  refine kept_foldl_fst (fun _ _ hq => ?_) hm
  split
  · exact hq
  · split
    · exact hq
    · exact kept_report (kept_useSeg hq)
theorem kept_writeDump {l : Launch} {b : Block} {d : DumpInfo} {secs : List (List Byte)} {bad : Option Nat} (hm : m.Kept s.mem) :
    KeptOk m (s.writeDump l b d secs bad) := by
  unfold State.writeDump
  dsimp only
  split
  · exact keptOk_ok hm
  · split
    · exact keptOk_error
    · exact keptOk_ok (kept_event hm)
    · split
      · exact keptOk_ok hm
      · split
        · exact keptOk_error
        · refine keptOk_ok (kept_event ?_)
          refine kept_foldl_fst (fun _ _ hq => ?_) hm
          split
          · exact kept_dumpWrite hq
          · exact hq
        · refine keptOk_ok ?_
          split
          · refine kept_foldl_fst (fun _ _ hq => ?_) hm
            split
            · exact kept_dumpWrite hq
            · exact hq
          · refine kept_event ?_
            refine kept_foldl_fst (fun _ _ hq => ?_) hm
            split
            · exact kept_dumpWrite hq
            · exact hq
theorem kept_selectTurn {core q : Nat} (hm : m.Kept s.mem) : m.Kept (s.selectTurn core q).mem := by
  unfold State.selectTurn
  split
  · exact hm
  · dsimp only
    exact kept_putWarp hm
theorem kept_openTurn {trial : State → Issue → State} (hm : m.Kept s.mem) : m.Kept (s.openTurn trial).mem := by
  unfold State.openTurn
  split
  · exact hm
  · dsimp only
    split <;> exact hm
theorem kept_closeTurn {t : Turn} (hm : m.Kept s.mem) : m.Kept (s.closeTurn t).mem := by
  unfold State.closeTurn
  dsimp only
  split
  · exact hm
  · split
    · exact hm
    · exact kept_modCore (kept_putWarp hm)
theorem kept_pathDone {before : State} {p : Issue} {ran : Option Instr} (hm : m.Kept s.mem) : m.Kept (s.pathDone before p ran).mem := by
  unfold State.pathDone
  dsimp only
  split
  · split
    · exact kept_closeTurn hm
    · split
      · split
        · exact kept_closeTurn hm
        · exact hm
      · split
        · split
          · exact kept_closeTurn hm
          · exact hm
        · split
          · split
            · exact kept_closeTurn hm
            · exact hm
          · split
            · exact kept_closeTurn hm
            · exact hm
  · exact hm
theorem kept_nextMove {own : List Move} (hm : m.Kept s.mem) : KeptPrep m (s.nextMove own) := by
  unfold State.nextMove
  dsimp only
  split
  · exact hm
  · split
    · exact kept_issue hm
    · split
      · exact hm
      · split
        · split
          · exact kept_issue hm
          · exact hm
        · exact hm
      · exact hm
theorem kept_wake (hm : m.Kept s.mem) : m.Kept (s.wake).mem := hm
theorem kept_noteReady (hm : m.Kept s.mem) : m.Kept (s.noteReady).mem := hm
theorem kept_tick {clock free : Nat} {event : Bool} (hm : m.Kept s.mem) : m.Kept (s.tick clock free event).mem := by
  unfold State.tick
  refine kept_noteReady ?_
  split
  · exact kept_wake hm
  · exact hm
theorem kept_fatalDone {l : Launch} {first : FatalRec} {rest : List FatalRec} (hm : m.Kept s.mem) : KeptOk m (s.fatalDone l first rest) := by
  unfold State.fatalDone
  refine keptOk_map ?_ fun _ ht => ht
  have hstop : m.Kept ((s.stopLaunch l.id 3 (BitVec.ofNat 8 first.trap.cause)).modLaunch l.id fun l =>
      { l with dumped := true, otherf := l.otherf + rest.length, orphans := [] }).mem := kept_modLaunch (kept_stopLaunch hm)
  split
  · exact keptOk_ok (kept_trace hstop)
  · exact kept_writeDump (kept_trace hstop)
theorem kept_fatalStop {l : Launch} {first : FatalRec} {rest : List FatalRec} (hm : m.Kept s.mem) : m.Kept (s.fatalStop l first rest).mem := by
  unfold State.fatalStop
  split
  · exact kept_fatalDone hm _ ‹_›
  · exact kept_askHost hm
theorem kept_backOff {a : Agent} (hm : m.Kept s.mem) : m.Kept (s.backOff a).mem := by
  unfold State.backOff
  split
  · exact kept_modWarp hm
  · exact kept_modBlock hm
  · exact hm
  · exact hm
theorem kept_fatalAttempt {a : Agent} {order : List Agent} (hm : m.Kept s.mem) : m.Kept (s.fatalAttempt a order).mem := by
  unfold State.fatalAttempt
  dsimp only
  split
  · split
    · exact hm
    · split
      · exact hm
      · split
        · exact hm
        · split
          · exact kept_fatalStop hm
          · exact kept_backOff hm
  · exact hm
theorem kept_execFatalTrap (hm : m.Kept s.mem) : KeptNext m (execFatalTrap s) := by
  unfold execFatalTrap
  refine keptNext_next ?_
  split
  · split
    · exact kept_fatalAttempt hm
    · exact hm
  · exact hm
theorem kept_rejoinService {id : Nat} (hm : m.Kept s.mem) : m.Kept (s.rejoinService id).mem := by
  unfold State.rejoinService
  split
  · split
    · exact hm
    · split <;> exact kept_modWarp hm
  · exact hm
theorem kept_warpRetries {w : Warp} (hm : m.Kept s.mem) : m.Kept (s.warpRetries w).mem := by
  unfold State.warpRetries
  dsimp only
  split
  · exact hm
  · split
    · exact kept_fatalAttempt (kept_putWarp hm)
    · exact kept_rejoinService (kept_putWarp hm)
theorem kept_execPermitBackoffExpiry (hm : m.Kept s.mem) : KeptNext m (execPermitBackoffExpiry s) := by
  unfold execPermitBackoffExpiry
  refine keptNext_next ?_
  split
  · dsimp only
    split
    · split
      · exact kept_warpRetries hm
      · exact hm
    · split
      · split
        · exact hm
        · split
          · exact kept_fatalAttempt hm
          · exact kept_modBlock hm
      · exact hm
    · split
      · exact kept_fatalAttempt hm
      · exact hm
    · exact hm
  · exact hm
theorem kept_dropFault {id : Nat} (hm : m.Kept s.mem) : m.Kept (s.dropFault id).mem := hm
theorem kept_servedWarp {id fault : Nat} (hm : m.Kept s.mem) : m.Kept (s.servedWarp id fault).mem :=
  kept_tryLeave (kept_modWarp hm)
theorem kept_failedWarp {id : Nat} {f : FaultWait} (hm : m.Kept s.mem) : m.Kept (s.failedWarp id f).mem := hm
theorem kept_answeredStream {b : Nat} {f : FaultWait} {ok : Bool} (hm : m.Kept s.mem) : m.Kept (s.answeredStream b f ok).mem := hm
theorem kept_answerFault {f : FaultWait} (hm : m.Kept s.mem) : m.Kept (s.answerFault f).1.mem := by
  unfold State.answerFault
  split
  · split
    · split
      · exact kept_dropFault hm
      · split
        · exact kept_servedWarp (kept_dropFault hm)
        · exact kept_failedWarp (kept_dropFault hm)
    · split
      · exact kept_dropFault hm
      · exact hm
  · split
    · exact kept_answeredStream (kept_dropFault hm)
    · split
      · exact kept_dropFault hm
      · exact hm
  · split
    · exact kept_dropFault hm
    · exact hm
theorem kept_answerFaults (hm : m.Kept s.mem) : m.Kept (s.answerFaults).mem := by
  unfold State.answerFaults
  refine kept_foldl (fun _ _ ht => ?_) (kept_foldl_fst (fun _ _ hq => kept_answerFault hq) hm)
  split
  · exact kept_fatalAttempt ht
  · exact ht
theorem kept_markFaults {p : FaultWait → Bool} {ok : Bool} (hm : m.Kept s.mem) : m.Kept (s.markFaults p ok).mem :=
  kept_answerFaults hm
theorem kept_roomFaults {fq : Nat} (hm : m.Kept s.mem) : m.Kept (s.roomFaults fq).mem :=
  kept_foldl (fun _ _ ht => kept_placeFault ht) hm
theorem kept_execFaultEntryComplete (hm : m.Kept s.mem) : KeptNext m (execFaultEntryComplete s) := by
  unfold execFaultEntryComplete
  refine keptNext_next ?_
  split
  · split
    · split
      · exact hm
      · exact kept_roomFaults (kept_markFaults (kept_homeLoad hm))
    · exact hm
  · exact hm
theorem kept_execFaultQueueHeadMove (hm : m.Kept s.mem) : KeptNext m (execFaultQueueHeadMove s) := by
  unfold execFaultQueueHeadMove
  refine keptNext_next ?_
  split
  · split
    · refine kept_roomFaults (kept_homeLoad ?_)
      split
      · exact hm
      · exact kept_report hm
    · exact hm
  · exact hm
theorem kept_askHeld (hm : m.Kept s.mem) : m.Kept (s.askHeld).mem :=
  kept_foldl (fun _ _ ht => kept_askPage ht) hm
theorem kept_execPriResponse (hm : m.Kept s.mem) : KeptNext m (execPriResponse s) := by
  unfold execPriResponse
  refine keptNext_next ?_
  split
  · split
    · exact kept_askHeld (kept_markFaults hm)
    · exact hm
  · exact hm
theorem kept_execAtsTranslationCompletion (hm : m.Kept s.mem) : KeptNext m (execAtsTranslationCompletion s) := by
  unfold execAtsTranslationCompletion
  refine keptNext_next ?_
  split
  · split
    · dsimp only
      refine kept_retryHandlers ?_
      dsimp only
      exact kept_dropHeld hm
    · exact hm
  · exact hm
theorem kept_execAtsInvalidationRequest (hm : m.Kept s.mem) : KeptNext m (execAtsInvalidationRequest s) := by
  unfold execAtsInvalidationRequest
  refine keptNext_next ?_
  split
  · dsimp only
    split
    · dsimp only
      exact kept_invalidate hm
    · exact hm
  · exact hm
theorem kept_execAsyncTrapDelivery (hm : m.Kept s.mem) : KeptNext m (execAsyncTrapDelivery s) := by
  unfold execAsyncTrapDelivery
  refine keptNext_next ?_
  split
  · split
    · exact hm
    · split
      · split
        · exact hm
        · exact kept_raiseOn (kept_putWarp hm)
      · exact hm
  · exact hm

end

end Sys2Proof.Machine

/-! PROOFS. The canonical form of memory is kept by the operations of links and the host (family 09_memory_model.md). -/
namespace Sys2Proof.Machine

section
variable {m : Mem} {s : State}

theorem kept_discardPacket {dst : Nat} (hm : m.Kept s.mem) : m.Kept (s.discardPacket dst).mem := by
  unfold State.discardPacket
  split
  · exact hm
  · exact kept_event hm
theorem kept_execFabricPacketArrival (hm : m.Kept s.mem) : KeptNext m (execFabricPacketArrival s) := by
  unfold execFabricPacketArrival
  refine keptNext_next ?_
  split
  · split
    · split
      · exact hm
      · split
        · exact kept_propose hm
        · exact hm
    · split
      · exact kept_discardPacket hm
      · exact kept_sendPacket hm
  · exact hm
theorem kept_execFabricLinkChange (hm : m.Kept s.mem) : KeptNext m (execFabricLinkChange s) := by
  unfold execFabricLinkChange
  refine keptNext_next ?_
  split
  · split
    · exact hm
    · exact kept_event hm
  · split <;> exact hm
  · split <;> exact hm
  · split <;> exact hm
  · split <;> exact hm
  · exact hm
theorem kept_countWrite {src flow interval : Nat} (hm : m.Kept s.mem) : m.Kept (s.countWrite src flow interval).mem := by
  unfold State.countWrite
  split <;> exact hm
theorem kept_execCountQuery (hm : m.Kept s.mem) : KeptNext m (execCountQuery s) := by
  unfold execCountQuery
  refine keptNext_next ?_
  split
  · exact kept_sendPacket hm
  · exact hm
theorem kept_execCountEntryAgeOut (hm : m.Kept s.mem) : KeptNext m (execCountEntryAgeOut s) := by
  unfold execCountEntryAgeOut
  refine keptNext_next ?_
  split <;> exact hm
theorem kept_ingressRoom (hm : m.Kept s.mem) : m.Kept (s.ingressRoom).mem := by
  unfold State.ingressRoom
  split
  · exact hm
  · split
    · exact kept_recallLine hm
    · exact hm
theorem kept_takeLine {line : Nat} (hm : m.Kept s.mem) : m.Kept (s.takeLine line).mem := by
  unfold State.takeLine
  split
  · exact hm
  · exact kept_disturb (kept_ingressRoom hm)
theorem kept_useIngress {line : Nat} {write atomic : Bool} (hm : m.Kept s.mem) : m.Kept (s.useIngress line write atomic).mem := hm
theorem kept_ingressWrite {a : Nat} {xs : List Byte} {atomic : Bool} (hm : m.Kept s.mem) : m.Kept (s.ingressWrite a xs atomic).mem := by
  unfold State.ingressWrite
  dsimp only
  split
  · exact kept_disturb (kept_writeLoc (kept_keepOld (kept_foldl (fun _ _ ht => kept_useIngress ht) (kept_mergeErrors hm))))
  · exact kept_writeSite hm
theorem kept_ingressLoad {a n : Nat} (hm : m.Kept s.mem) : m.Kept (s.ingressLoad a n).mem := by
  unfold State.ingressLoad
  split
  · exact kept_useIngress hm
  · exact kept_homeLoad hm
theorem kept_ingressStore {rs : List (Nat × Nat)} {xs : List Byte} (hm : m.Kept s.mem) : m.Kept (s.ingressStore rs xs).mem := by
  induction rs generalizing s xs with
  | nil => exact hm
  | cons r rs ih =>
    refine ih ?_
    split
    · exact kept_ingressWrite hm
    · exact hm
theorem kept_applyPacket {p : Packet} (hm : m.Kept s.mem) : m.Kept (s.applyPacket p).1.mem := by
  unfold State.applyPacket
  dsimp only
  split
  · refine kept_foldl (fun _ _ ht => ?_) hm
    split
    · exact kept_ingressLoad ht
    · exact ht
  · exact kept_ingressStore hm
  · exact kept_ingressStore hm
  · exact kept_ingressLoad hm
  · split
    · exact hm
    · split
      · exact kept_useIngress (kept_ingressWrite (kept_takeLine hm))
      · exact kept_useIngress (kept_takeLine hm)
  · split
    · exact hm
    · split
      · exact kept_useIngress (kept_ingressWrite (kept_takeLine hm))
      · exact kept_useIngress (kept_takeLine hm)
  · exact hm
  · exact hm
  · exact hm
  · exact hm
  · exact hm
  · exact hm
  · exact hm
  · exact hm
  · exact hm
  · exact hm
  · exact hm
theorem kept_answerPacket {p : Packet} {ans : List Byte} (hm : m.Kept s.mem) : m.Kept (s.answerPacket p ans).mem :=
  kept_sendPacket hm
theorem kept_finishPacket {p : Packet} {ans : List Byte} (hm : m.Kept s.mem) : m.Kept (s.finishPacket p ans).mem := by
  unfold State.finishPacket
  refine kept_answerPacket ?_
  split
  · exact kept_countWrite hm
  · exact hm
theorem kept_serveArrived {p : Packet} (hm : m.Kept s.mem) : m.Kept (s.serveArrived p).mem := by
  unfold State.serveArrived
  split
  · exact hm
  · split
    · dsimp only
      split
      · exact hm
      · exact kept_proposeFirst hm
    · split
      · exact kept_backInvalidate hm
      · dsimp only
        exact kept_finishPacket (kept_applyPacket hm)
theorem kept_execRemoteAccessIngress (hm : m.Kept s.mem) : KeptNext m (execRemoteAccessIngress s) := by
  unfold execRemoteAccessIngress
  refine keptNext_next ?_
  split
  · exact kept_serveArrived hm
  · split
    · split
      · exact kept_answerPacket hm
      · exact hm
    · exact hm
  · exact hm
theorem kept_execAtomicCacheLeaseExpiry (hm : m.Kept s.mem) : KeptNext m (execAtomicCacheLeaseExpiry s) := by
  unfold execAtomicCacheLeaseExpiry
  refine keptNext_next ?_
  split
  · split
    · exact kept_recallLine hm
    · exact hm
  · exact hm
theorem kept_execAtomicCacheRecall (hm : m.Kept s.mem) : KeptNext m (execAtomicCacheRecall s) := by
  unfold execAtomicCacheRecall
  refine keptNext_next ?_
  split
  · exact kept_recallLine hm
  · exact hm
theorem kept_dropRemote {id : Nat} (hm : m.Kept s.mem) : m.Kept (s.dropRemote id).mem := hm
theorem kept_wakeRemote {id : Nat} (hm : m.Kept s.mem) : m.Kept (s.wakeRemote id).mem := by
  unfold State.wakeRemote
  split
  · exact hm
  · exact kept_modAnyWarp hm
theorem kept_remoteFailed {r : Remote} {reason : Nat} {va : W64} (hm : m.Kept s.mem) : m.Kept (s.remoteFailed r reason va).mem :=
  kept_wakeRemote (kept_modAnyWarp (kept_dropRemote hm))
theorem kept_fetchedNow {r : Remote} {a : FaultAgent} {x : Nat ⊕ List Byte} (hm : m.Kept s.mem) : m.Kept (s.fetchedNow r a x).mem := hm
theorem kept_nearStores {r : Remote} (hm : m.Kept s.mem) : m.Kept (s.nearStores r).mem := by
  unfold State.nearStores
  split
  · exact hm
  · exact kept_foldl (fun _ _ ht => kept_writeSite (kept_needLines ht)) hm
theorem kept_fillLost {r : Remote} (hm : m.Kept s.mem) : m.Kept (s.fillLost r).mem := hm
theorem kept_remoteAnswer {r : Remote} {bs : List Byte} (hm : m.Kept s.mem) : m.Kept (s.remoteAnswer r bs).mem := by
  unfold State.remoteAnswer
  split
  · exact kept_wakeRemote (kept_modAnyWarp (kept_dropRemote hm))
  · split
    · exact kept_fetchedNow hm
    · split
      · split
        · exact kept_fillLost hm
        · exact hm
      · split
        · split
          · exact kept_dropRemote hm
          · exact hm
        · split
          · exact kept_nearStores (kept_modAnyWarp (kept_dropRemote hm))
          · split
            · exact kept_remoteFailed hm
            · split
              · exact kept_remoteFailed hm
              · exact kept_wakeRemote (kept_modAnyWarp (kept_dropRemote hm))
theorem kept_execRemoteResponseArrival (hm : m.Kept s.mem) : KeptNext m (execRemoteResponseArrival s) := by
  unfold execRemoteResponseArrival
  refine keptNext_next ?_
  split
  · split
    · exact kept_remoteAnswer hm
    · exact hm
  · exact hm
theorem kept_execRemoteTimeout (hm : m.Kept s.mem) : KeptNext m (execRemoteTimeout s) := by
  unfold execRemoteTimeout
  refine keptNext_next ?_
  split
  · split
    · split
      · exact hm
      · split
        · exact kept_fetchedNow hm
        · split
          · exact kept_remoteFailed hm
          · exact kept_remoteAnswer hm
    · exact hm
  · exact hm
theorem kept_execPeergone (hm : m.Kept s.mem) : KeptNext m (execPeergone s) := by
  unfold execPeergone
  refine keptNext_next ?_
  split
  · dsimp only
    split
    · refine kept_event ?_
      dsimp only
      exact hm
    · refine kept_foldl (fun _ _ ht => ?_) ?_
      · exact kept_wakeCredit ht
      · refine kept_foldl (fun _ _ ht => ?_) ?_
        · exact kept_modAnyWarp (kept_dropRemote ht)
        · refine kept_event ?_
          dsimp only
          exact hm
  · exact hm
theorem kept_versionDone {k : Nat} {v : W32} (hm : m.Kept s.mem) : m.Kept (s.versionDone k v).mem := by
  unfold State.versionDone
  dsimp only
  split
  · split
    · refine kept_modAnyWarp (kept_dropRemote ?_)
      dsimp only
      exact hm
    · dsimp only
      exact hm
  · split
    · refine kept_finishPacket ?_
      dsimp only
      exact hm
    · dsimp only
      exact hm
theorem kept_versionTurn {k : Nat} {v : W32} (hm : m.Kept s.mem) : m.Kept (s.versionTurn k v).mem := by
  unfold State.versionTurn
  dsimp only
  split
  · exact kept_versionDone hm
  · refine kept_foldl (fun _ _ ht => ?_) ?_
    · exact kept_tellPkg ht
    · dsimp only
      exact hm
theorem kept_versionTurns {n : Nat} (hm : m.Kept s.mem) : m.Kept (s.versionTurns n).mem := by
  induction n generalizing s with
  | zero => exact hm
  | succ n ih =>
    unfold State.versionTurns
    split
    · exact ih (kept_versionTurn hm)
    · exact hm
theorem kept_execShardVersionWrite (hm : m.Kept s.mem) : KeptNext m (execShardVersionWrite s) := by
  unfold execShardVersionWrite
  refine keptNext_next ?_
  split
  · exact kept_versionTurns hm
  · exact hm
theorem kept_execVersionNoticeAcknowledgement (hm : m.Kept s.mem) : KeptNext m (execVersionNoticeAcknowledgement s) := by
  unfold execVersionNoticeAcknowledgement
  refine keptNext_next ?_
  split
  · split
    · exact hm
    · dsimp only
      split
      · refine kept_versionTurns (kept_versionDone ?_)
        dsimp only
        exact hm
      · dsimp only
        exact hm
  · exact hm
theorem kept_execVersionNotice (hm : m.Kept s.mem) : KeptNext m (execVersionNotice s) := by
  unfold execVersionNotice
  refine keptNext_next ?_
  split
  · exact kept_tellPkg hm
  · exact hm
theorem kept_installLine {x : LarderLine} (hm : m.Kept s.mem) : m.Kept (s.installLine x).mem := hm
theorem kept_execLarderFillResponse (hm : m.Kept s.mem) : KeptNext m (execLarderFillResponse s) := by
  unfold execLarderFillResponse
  dsimp only
  refine keptNext_next ?_
  split
  · split
    · exact hm
    · split
      · exact hm
      · exact kept_installLine hm
  · exact hm
theorem kept_evictLine {line : Nat} (hm : m.Kept s.mem) : m.Kept (s.evictLine line).mem := hm
theorem kept_answerSnoop {a : Nat} (hm : m.Kept s.mem) : m.Kept (s.answerSnoop a).mem := hm
theorem kept_execHostSnoopOwnership (hm : m.Kept s.mem) : KeptNext m (execHostSnoopOwnership s) := by
  unfold execHostSnoopOwnership
  refine keptNext_next ?_
  split
  · split
    · exact hm
    · dsimp only
      split
      · split
        · dsimp only
          refine .write ?_ _ _
          exact kept_evictLine (kept_answerSnoop hm)
        · dsimp only
          refine .write ?_ _ _
          exact kept_evictLine (kept_answerSnoop hm)
      · split
        · dsimp only
          refine .write ?_ _ _
          exact kept_evictLine (kept_answerSnoop hm)
        · dsimp only
          refine .write ?_ _ _
          exact kept_evictLine (kept_answerSnoop hm)
  · exact hm
theorem kept_execHostSnoopRead (hm : m.Kept s.mem) : KeptNext m (execHostSnoopRead s) := by
  unfold execHostSnoopRead
  refine keptNext_next ?_
  split
  · split
    · exact hm
    · dsimp only
      exact kept_answerSnoop hm
  · exact hm
theorem kept_execHostMemAccess (hm : m.Kept s.mem) : KeptNext m (execHostMemAccess s) := by
  unfold execHostMemAccess
  dsimp only
  refine keptNext_next ?_
  split
  · split
    · exact hm
    · split
      · dsimp only
        exact hm
      · split
        · split
          · dsimp only
            exact hm
          · dsimp only
            exact hm
        · dsimp only
          split
          · exact kept_writeSite (kept_recallLine hm)
          · dsimp only
            exact kept_homeLoadAt (kept_recallLine hm)
  · exact hm
theorem kept_unblock (hm : m.Kept s.mem) : m.Kept (s.unblock).mem := hm
theorem kept_execBackInvalidateAnswer (hm : m.Kept s.mem) : KeptNext m (execBackInvalidateAnswer s) := by
  unfold execBackInvalidateAnswer
  refine keptNext_next ?_
  split
  · split
    · exact kept_unblock hm
    · exact hm
  · exact hm
theorem kept_execWritebackAck (hm : m.Kept s.mem) : KeptNext m (execWritebackAck s) := by
  unfold execWritebackAck
  refine keptNext_next ?_
  split
  · split <;> exact hm
  · exact hm
theorem kept_bridgeBack (hm : m.Kept s.mem) : m.Kept (s.bridgeBack).mem := hm
theorem kept_execLinkDown (hm : m.Kept s.mem) : KeptNext m (execLinkDown s) := by
  unfold execLinkDown
  refine keptNext_next ?_
  split
  · exact hm
  · dsimp only
    split
    · dsimp only
      exact kept_bridgeBack hm
    · refine kept_event ?_
      dsimp only
      exact kept_bridgeBack hm
theorem kept_writeBackSectors (hm : m.Kept s.mem) : m.Kept (s.writeBackSectors).mem := hm
theorem kept_execLinkRetrain (hm : m.Kept s.mem) : KeptNext m (execLinkRetrain s) := by
  unfold execLinkRetrain
  refine keptNext_next ?_
  split
  · exact hm
  · exact kept_writeBackSectors hm
theorem kept_releaseSectors (hm : m.Kept s.mem) : m.Kept (s.releaseSectors).mem :=
  kept_foldl (fun _ _ ht => kept_evictLine ht) hm
theorem kept_askReset (hm : m.Kept s.mem) : m.Kept (s.askReset).mem :=
  kept_foldl (fun _ _ ht => kept_backInvalidate ht) (kept_writeBackSectors hm)
theorem kept_resetThen {i : Instr} {k : State → State} (hm : m.Kept s.mem) (hk : ∀ t, m.Kept t.mem → m.Kept (k t).mem) :
    m.Kept (s.resetThen i k).mem := by
  unfold State.resetThen
  dsimp only
  split
  · refine hk _ ?_
    dsimp only
    exact kept_releaseSectors (kept_askReset hm)
  · dsimp only
    exact kept_askReset hm
theorem kept_execFunctionReset (hm : m.Kept s.mem) : KeptNext m (execFunctionReset s) := by
  unfold execFunctionReset
  refine keptNext_next ?_
  split
  · exact kept_resetThen hm (fun _ ht => ht)
  · exact hm
theorem kept_execPowerGating (hm : m.Kept s.mem) : KeptNext m (execPowerGating s) := by
  unfold execPowerGating
  dsimp only
  refine keptNext_next ?_
  split
  · split
    · exact hm
    · split
      · exact hm
      · split <;> exact hm
  · exact hm

end

end Sys2Proof.Machine

/-! PROOFS. The canonical form of memory is kept by the operations of placement, launches and the Hearth (family 09_memory_model.md). -/
namespace Sys2Proof.Machine

section
variable {m : Mem} {s : State}

theorem kept_addWarp {core q : Nat} {mk : Nat → Nat → Warp} (hm : m.Kept s.mem) : KeptSome m (s.addWarp core q mk) :=
  keptSome_mapOf fun _ => hm
theorem kept_addBlock {b : Block} (hm : m.Kept s.mem) : m.Kept (s.addBlock b).mem := hm
theorem kept_ungate {core : Nat} (hm : m.Kept s.mem) : m.Kept (s.ungate core).mem := hm
theorem kept_modContext {n : Nat} {f : Context → Context} (hm : m.Kept s.mem) : m.Kept (s.modContext n f).mem := hm
theorem kept_cleared {core : Nat} (hm : m.Kept s.mem) : m.Kept (s.cleared core).mem := hm
theorem kept_seatWarps {core : Nat} {ws : List Warp} (hm : m.Kept s.mem) : KeptSome m (s.seatWarps core ws) := by
  induction ws generalizing s with
  | nil => exact keptSome_some hm
  | cons w ws ih =>
    unfold State.seatWarps
    dsimp only
    split
    · exact keptSome_none
    · exact ih hm
theorem kept_seated {x : Context} {core : Nat} (hm : m.Kept s.mem) : KeptSome m (s.seated x core) := by
  unfold State.seated
  dsimp only
  split
  · exact keptSome_none
  · split
    · exact keptSome_none
    · refine keptSome_bind (kept_seatWarps hm) fun _ ht => ?_
      split
      · exact keptSome_some ht
      · exact keptSome_none
theorem kept_addBlockWarps {h : Header} {id core blockx n : Nat} (hm : m.Kept s.mem) : KeptSome m (s.addBlockWarps h id core blockx n) := by
  induction n with
  | zero => exact keptSome_some hm
  | succ n ih => exact keptSome_bind ih fun _ ht => kept_addWarp ht
theorem kept_dropBacking {area : Nat} (hm : m.Kept s.mem) : m.Kept (s.dropBacking area).mem := hm
theorem kept_tryBlock {l : Launch} {core : Nat} (hm : m.Kept s.mem) : KeptSome m (s.tryBlock l core) := by
  unfold State.tryBlock
  dsimp only
  split
  · refine keptSome_bind (kept_addBlockWarps (kept_ungate (kept_addBlock (kept_dropBacking hm)))) fun _ ht => ?_
    split
    · exact keptSome_some (kept_modLaunch ht)
    · exact keptSome_none
  · exact keptSome_none
theorem kept_startBatch {l : Launch} {node core q : Nat} {reserve : Bool} {rs : List PoolRec} (hm : m.Kept s.mem) :
    KeptSome m (s.startBatch l node core q reserve rs) := by
  unfold State.startBatch
  split
  · refine keptSome_bind (kept_addWarp (kept_ungate (kept_addBlock (kept_dropBacking hm)))) fun _ ht => ?_
    split
    · exact keptSome_some (kept_modLaunch ht)
    · exact keptSome_none
  · exact keptSome_none
theorem kept_ordinaryBatch {l : Launch} {node core : Nat} {rs : List PoolRec} (hm : m.Kept s.mem) : KeptSome m (s.ordinaryBatch l node core rs) := by
  unfold State.ordinaryBatch
  split
  · exact keptSome_none
  · exact keptSome_findSome fun _ => kept_startBatch hm
theorem kept_reserveBatch {l : Launch} {node core : Nat} {rs : List PoolRec} (hm : m.Kept s.mem) : KeptSome m (s.reserveBatch l node core rs) := by
  unfold State.reserveBatch
  split
  · exact keptSome_none
  · refine keptSome_findSome fun _ => ?_
    dsimp only
    split
    · exact kept_startBatch hm
    · exact keptSome_none
theorem kept_execBatchLaunch (hm : m.Kept s.mem) : KeptNext m (execBatchLaunch s) := by
  unfold execBatchLaunch
  refine keptNext_next ?_
  split
  · split
    · split
      · exact hm
      · exact kept_getD (kept_ordinaryBatch hm) hm
    · exact hm
  · exact hm
theorem kept_execBinTimerExpiry (hm : m.Kept s.mem) : KeptNext m (execBinTimerExpiry s) := by
  unfold execBinTimerExpiry
  refine keptNext_next ?_
  split
  · split
    · split
      · exact hm
      · exact kept_getD (kept_ordinaryBatch hm) hm
    · exact hm
  · exact hm
theorem kept_execConsumerReserveFree (hm : m.Kept s.mem) : KeptNext m (execConsumerReserveFree s) := by
  unfold execConsumerReserveFree
  refine keptNext_next ?_
  split
  · split
    · split
      · split
        · exact hm
        · exact kept_getD (kept_reserveBatch hm) hm
      · exact hm
    · exact hm
  · exact hm
theorem kept_schedRead {l : Launch} {va : W64} {n : Nat} (hm : m.Kept s.mem) : KeptRead m (s.schedRead l va n) := by
  unfold State.schedRead
  split
  · exact trivial
  · split
    · exact trivial
    · split
      · exact kept_agentPrep hm _ ‹_›
      · exact trivial
theorem kept_schedServe {l : Launch} {u : Use} {f : AccFault} (hm : m.Kept s.mem) : KeptSome m (s.schedServe l u f) := by
  unfold State.schedServe
  split
  · split
    · exact keptSome_none
    · exact keptSome_some (kept_serveAgent hm)
  · exact keptSome_some (kept_askHost hm)
  · exact keptSome_none
theorem kept_endLaunch {id stat reason : Nat} (hm : m.Kept s.mem) : m.Kept (s.endLaunch id stat reason).mem :=
  kept_stopLaunch (kept_dropWait hm)
theorem kept_readLeases {l : Launch} {h : Header} (hm : m.Kept s.mem) : KeptRead m (s.readLeases l h) := by
  unfold State.readLeases
  split
  · exact trivial
  · split
    · exact trivial
    · split
      · exact KeptRead.error (kept_schedRead hm) ‹_›
      · split <;> exact trivial
theorem kept_readTableHead {l : Launch} {h : Header} (hm : m.Kept s.mem) : KeptRead m (s.readTableHead l h) := by
  unfold State.readTableHead
  split
  · exact trivial
  · split
    · exact KeptRead.error (kept_schedRead hm) ‹_›
    · split <;> exact trivial
theorem kept_readNodes {l : Launch} {h : Header} {x : Nat} (hm : m.Kept s.mem) : KeptRead m (s.readNodes l h x) := by
  unfold State.readNodes
  split
  · exact KeptRead.error (kept_schedRead hm) ‹_›
  · split
    · split <;> exact trivial
    · exact trivial
theorem kept_schedStop {l : Launch} {x : SchedStop} (hm : m.Kept s.mem) (hx3 : KeptStop m x) : m.Kept (s.schedStop l x).mem := by
  unfold State.schedStop
  split
  · exact kept_endLaunch hm
  · exact kept_getD (kept_schedServe hm) (kept_endLaunch hm)
  · exact hx3
theorem kept_readDone {l m' : Launch} {gs : List Seg} (hm : m.Kept s.mem) : m.Kept (s.readDone l m' gs).mem :=
  kept_modLaunch (kept_useReads (kept_dropWait hm))
theorem kept_loadNodes {l : Launch} {x : Nat} (hm : m.Kept s.mem) : m.Kept (s.loadNodes l x).mem := by
  unfold State.loadNodes
  split
  · exact kept_schedStop hm (KeptRead.error (kept_readNodes hm) ‹_›)
  · exact kept_readDone hm
theorem kept_loadTable {l : Launch} (hm : m.Kept s.mem) : m.Kept (s.loadTable l).mem := by
  unfold State.loadTable
  split
  · exact kept_loadNodes hm
  · split
    · exact kept_readDone hm
    · split
      · exact kept_schedStop hm (KeptRead.error (kept_readTableHead hm) ‹_›)
      · exact kept_loadNodes (kept_readDone hm)
theorem kept_loadLists {l : Launch} (hm : m.Kept s.mem) : m.Kept (s.loadLists l).mem := by
  unfold State.loadLists
  split
  · exact kept_schedStop hm (KeptRead.error (kept_readLeases hm) ‹_›)
  · exact kept_loadTable (kept_readDone hm)
theorem kept_loadHeader {l : Launch} (hm : m.Kept s.mem) : m.Kept (s.loadHeader l).mem := by
  unfold State.loadHeader
  dsimp only
  split
  · exact kept_endLaunch hm
  · split
    · exact kept_schedStop hm (KeptRead.error (kept_schedRead hm) ‹_›)
    · split
      · exact kept_endLaunch hm
      · exact kept_loadLists (kept_readDone hm)
theorem kept_loadLaunch {l : Launch} (hm : m.Kept s.mem) : m.Kept (s.loadLaunch l).mem := by
  unfold State.loadLaunch
  split
  · exact kept_loadHeader hm
  · exact kept_loadLists hm
  · exact kept_loadTable hm
  · exact hm
theorem kept_execTailWordWrite (hm : m.Kept s.mem) : KeptNext m (execTailWordWrite s) := by
  unfold execTailWordWrite
  refine keptNext_next ?_
  split
  · split
    · exact hm
    · refine kept_statusQ (kept_homeLoad (kept_modQueue ?_))
      split
      · exact hm
      · exact kept_report hm
  · exact hm
theorem kept_stopQueue {q why seq : Nat} (hm : m.Kept s.mem) : m.Kept (s.stopQueue q why seq).mem :=
  kept_event (kept_statusQ (kept_modQueue hm))
theorem kept_acceptEntry {q : Queue} (hm : m.Kept s.mem) : m.Kept (s.acceptEntry q).mem := by
  unfold State.acceptEntry
  dsimp only
  split
  · exact kept_stopQueue hm
  · split
    · exact kept_stopQueue (kept_homeLoad hm)
    · exact kept_loadHeader (kept_statusQ (kept_modQueue (kept_homeLoad hm)))
theorem kept_execLaunchEntryAccept (hm : m.Kept s.mem) : KeptNext m (execLaunchEntryAccept s) := by
  unfold execLaunchEntryAccept
  refine keptNext_next ?_
  split
  · split
    · split
      · exact kept_acceptEntry hm
      · exact hm
    · exact hm
  · split
    · split
      · exact kept_loadLaunch hm
      · exact hm
    · exact hm
  · exact hm
theorem kept_execDependenceSatisfied (hm : m.Kept s.mem) : KeptNext m (execDependenceSatisfied s) := by
  unfold execDependenceSatisfied
  refine keptNext_next ?_
  split
  · split
    · split
      · exact hm
      · split
        · exact kept_endLaunch hm
        · split
          · exact kept_modLaunch hm
          · exact hm
    · exact hm
  · exact hm
theorem kept_execLeaseSetupDone (hm : m.Kept s.mem) : KeptNext m (execLeaseSetupDone s) := by
  unfold execLeaseSetupDone
  refine keptNext_next ?_
  split
  · split
    · split
      · exact hm
      · split
        · refine kept_getD ?_ ?_
          · exact kept_schedServe hm
          · exact kept_endLaunch hm
        · dsimp only
          split
          · exact kept_endLaunch hm
          · exact kept_modLaunch (kept_useSegs (kept_dropWait hm))
    · exact hm
  · exact hm
theorem kept_execBlockPlace (hm : m.Kept s.mem) : KeptNext m (execBlockPlace s) := by
  unfold execBlockPlace
  refine keptNext_next ?_
  split
  · split
    · split
      · exact hm
      · exact kept_getD (kept_tryBlock hm) hm
    · exact hm
  · exact hm
theorem kept_execLaunchTrigger (hm : m.Kept s.mem) : KeptNext m (execLaunchTrigger s) := by
  unfold execLaunchTrigger
  refine keptNext_next ?_
  split
  · split
    · split
      · exact kept_moveMarks (kept_modLaunch hm)
      · exact hm
    · exact hm
  · exact hm
theorem kept_unbind {ep : Nat} (hm : m.Kept s.mem) : m.Kept (s.unbind ep).mem := by
  unfold State.unbind
  split
  · exact hm
  · exact kept_foldl (fun _ _ ht => kept_tellPkg ht) (kept_foldl (fun _ _ ht => kept_tellPkg ht) hm)
theorem kept_releaseLaunch {l : Launch} (hm : m.Kept s.mem) : m.Kept (s.releaseLaunch l).mem := by
  unfold State.releaseLaunch
  refine kept_foldl (fun _ _ ht => kept_unbind ht) ?_
  refine kept_foldl (fun _ _ ht => kept_retireBlock ht) ?_
  refine kept_foldl (fun _ _ ht => ?_) hm
  split
  · exact kept_modAnyWarp ht
  · exact ht
theorem kept_completed {l : Launch} (hm : m.Kept s.mem) : m.Kept (s.completed l).mem :=
  kept_moveMarks (kept_modLaunch (kept_releaseLaunch (kept_dropWait hm)))
theorem kept_recordFailed {l : Launch} (hm : m.Kept s.mem) : m.Kept (s.recordFailed l).mem :=
  kept_completed (kept_event hm)
theorem kept_execLaunchComplete (hm : m.Kept s.mem) : KeptNext m (execLaunchComplete s) := by
  unfold execLaunchComplete
  refine keptNext_next ?_
  split
  · split
    · split
      · exact hm
      · split
        · exact kept_completed hm
        · split
          · exact kept_getD (kept_schedServe hm) (kept_recordFailed hm)
          · split
            · exact kept_recordFailed hm
            · split
              · exact kept_agentPrep hm _ ‹_›
              · exact kept_completed (kept_engineWrites (kept_useSegs hm))
    · exact hm
  · exact hm
theorem kept_reboot {fail : Option BootFail} {resets : Nat} (hm : m.Kept s.mem) : m.Kept (s.reboot fail resets).mem := by
  unfold State.reboot
  dsimp only
  split
  · refine .filter ?_ _
    exact hm
  · exact hm
theorem kept_loseSectors (hm : m.Kept s.mem) : m.Kept (s.loseSectors).mem := by
  unfold State.loseSectors
  dsimp only
  split
  · exact hm
  · dsimp only
    refine kept_foldl (fun _ _ ht => ?_) ?_
    · exact kept_writePa ht
    · exact hm
theorem kept_execPowerOn (hm : m.Kept s.mem) : KeptNext m (execPowerOn s) := by
  unfold execPowerOn
  refine keptNext_next ?_
  split
  · split
    · exact kept_reboot (kept_loseSectors hm)
    · exact hm
  · exact hm
theorem kept_execPackageReset (hm : m.Kept s.mem) : KeptNext m (execPackageReset s) := by
  unfold execPackageReset
  refine keptNext_next ?_
  split
  · split
    · exact hm
    · split
      · exact kept_resetThen hm (fun _ ht => kept_reboot ht)
      · exact kept_reboot (kept_loseSectors hm)
  · exact hm
theorem kept_mailboxRun {h : MbHead} {code : Nat} {c : MbArgs} {inRange : Bool} {run : MbEnd} (hm : m.Kept s.mem) (hrun : KeptEnd m run) :
    m.Kept (s.mailboxRun h code c inRange run).mem := by
  unfold State.mailboxRun
  split
  · exact hm
  · split
    · exact hm
    · split
      · exact hm
      · exact hrun
      · exact hrun
      · exact hm
theorem kept_refusedIf {bad : Bool} {t : State} {res : List Byte} (hm : m.Kept t.mem) : KeptEnd m (refusedIf bad t res) := by
  unfold refusedIf
  split
  · exact trivial
  · exact hm
theorem kept_execSetPortRoles (hm : m.Kept s.mem) : KeptNext m (execSetPortRoles s) := by
  unfold execSetPortRoles
  refine keptNext_next ?_
  split
  · exact kept_mailboxRun hm (kept_refusedIf hm)
  · exact hm
theorem kept_execAcceptFeatures (hm : m.Kept s.mem) : KeptNext m (execAcceptFeatures s) := by
  unfold execAcceptFeatures
  refine keptNext_next ?_
  split
  · exact kept_mailboxRun hm (kept_refusedIf (kept_status32 hm))
  · exact hm
theorem kept_execRegisterLaunchQueue (hm : m.Kept s.mem) : KeptNext m (execRegisterLaunchQueue s) := by
  unfold execRegisterLaunchQueue
  refine keptNext_next ?_
  split
  · exact kept_mailboxRun hm (kept_refusedIf (kept_statusRecord hm))
  · exact hm
theorem kept_execRegisterFaultQueue (hm : m.Kept s.mem) : KeptNext m (execRegisterFaultQueue s) := by
  unfold execRegisterFaultQueue
  refine keptNext_next ?_
  split
  · exact kept_mailboxRun hm (kept_refusedIf (kept_roomFaults hm))
  · exact hm
theorem kept_execRegisterStatusPage (hm : m.Kept s.mem) : KeptNext m (execRegisterStatusPage s) := by
  unfold execRegisterStatusPage
  refine keptNext_next ?_
  split
  · rename_i pa _
    generalize (inHbm pa 4096 && s.keyOf pa != 0) = bad
    dsimp only
    exact kept_mailboxRun hm (kept_refusedIf (kept_statusPage hm))
  · exact hm
theorem kept_execRegisterEventQueue (hm : m.Kept s.mem) : KeptNext m (execRegisterEventQueue s) := by
  unfold execRegisterEventQueue
  refine keptNext_next ?_
  split
  · exact kept_mailboxRun hm (kept_refusedIf hm)
  · exact hm
theorem kept_execSetPasidContext (hm : m.Kept s.mem) : KeptNext m (execSetPasidContext s) := by
  unfold execSetPasidContext
  refine keptNext_next ?_
  split
  · exact kept_mailboxRun hm (kept_refusedIf hm)
  · exact hm
theorem kept_bulk {src n : Nat} (hm : m.Kept s.mem) : m.Kept (s.bulk src n).1.mem :=
  kept_homeLoad hm
theorem kept_execMapTenant (hm : m.Kept s.mem) : KeptNext m (execMapTenant s) := by
  unfold execMapTenant
  refine keptNext_next ?_
  split
  · exact kept_mailboxRun hm (kept_homeLoad hm)
  · exact hm
theorem kept_execReKeyPage (hm : m.Kept s.mem) : KeptNext m (execReKeyPage s) := by
  unfold execReKeyPage
  refine keptNext_next ?_
  split
  · exact kept_mailboxRun hm (kept_reKey hm)
  · exact hm
theorem kept_setRoutes {es : List W32} (hm : m.Kept s.mem) : m.Kept (s.setRoutes es).mem := hm
theorem kept_routeTable {src : Nat} (hm : m.Kept s.mem) : m.Kept (s.routeTable src).1.mem :=
  kept_homeLoad hm
theorem kept_loadRoutes {src : Nat} (hm : m.Kept s.mem) : KeptEnd m (s.loadRoutes src) := by
  unfold State.loadRoutes
  dsimp only
  split
  · exact trivial
  · split
    · exact trivial
    · exact kept_setRoutes (kept_routeTable hm)
theorem kept_mailboxAgain {x : MbEnd} (hm : m.Kept s.mem) (hx2 : KeptEnd m x) : m.Kept (s.mailboxAgain x).mem := by
  unfold State.mailboxAgain
  split
  · exact hm
  · exact hx2
  · exact hx2
  · exact hm
theorem kept_execLoadRouteTable (hm : m.Kept s.mem) : KeptNext m (execLoadRouteTable s) := by
  unfold execLoadRouteTable
  refine keptNext_next ?_
  split
  · exact kept_mailboxRun hm (kept_loadRoutes hm)
  · exact kept_mailboxAgain hm (kept_loadRoutes hm)
  · exact hm
theorem kept_execBindEndpoint (hm : m.Kept s.mem) : KeptNext m (execBindEndpoint s) := by
  unfold execBindEndpoint
  refine keptNext_next ?_
  split
  · refine kept_mailboxRun hm ?_
    split
    · exact trivial
    · split
      · exact kept_unbind hm
      · split
        · exact trivial
        · split
          · exact trivial
          · exact kept_foldl (fun _ _ ht => kept_tellPkg ht) (kept_unbind hm)
  · exact hm
theorem kept_execSetPools (hm : m.Kept s.mem) : KeptNext m (execSetPools s) := by
  unfold execSetPools
  refine keptNext_next ?_
  split
  · exact kept_mailboxRun hm (kept_foldl (fun _ _ ht => kept_modCore ht) hm)
  · exact hm
theorem kept_execSetLarderSize (hm : m.Kept s.mem) : KeptNext m (execSetLarderSize s) := by
  unfold execSetLarderSize
  refine keptNext_next ?_
  split
  · exact kept_mailboxRun hm (kept_refusedIf (kept_trimL2 hm))
  · exact hm
theorem kept_execSetTongsTimer (hm : m.Kept s.mem) : KeptNext m (execSetTongsTimer s) := by
  unfold execSetTongsTimer
  refine keptNext_next ?_
  split
  · exact kept_mailboxRun hm hm
  · exact hm
theorem kept_execSetThermalLimits (hm : m.Kept s.mem) : KeptNext m (execSetThermalLimits s) := by
  unfold execSetThermalLimits
  refine keptNext_next ?_
  split
  · exact kept_mailboxRun hm hm
  · exact hm
theorem kept_execAttest (hm : m.Kept s.mem) : KeptNext m (execAttest s) := by
  unfold execAttest
  refine keptNext_next ?_
  split
  · exact kept_mailboxRun hm hm
  · exact hm
theorem kept_execReleaseDumpOrTrace (hm : m.Kept s.mem) : KeptNext m (execReleaseDumpOrTrace s) := by
  unfold execReleaseDumpOrTrace
  refine keptNext_next ?_
  split
  · exact kept_mailboxRun hm (kept_refusedIf hm)
  · exact hm
theorem kept_imagePart {src off n : Nat} (hm : m.Kept s.mem) : m.Kept (s.imagePart src off n).1.mem := by
  unfold State.imagePart
  split
  · exact hm
  · exact kept_bulk hm
theorem kept_restorePages {src n p skipped : Nat} (hm : m.Kept s.mem) : KeptEnd m (s.restorePages src n p skipped) := by
  induction n generalizing s p skipped with
  | zero => exact hm
  | succ n ih =>
    have hpart : m.Kept (s.imagePart src (4096 + 4160 * p) 4160).1.mem := kept_imagePart hm
    unfold State.restorePages
    generalize s.imagePart src (4096 + 4160 * p) 4160 = part at hpart
    obtain ⟨t, bs⟩ := part
    dsimp only
    split
    · exact hpart
    · split
      · exact ih (kept_ownStore (kept_reKey (kept_ownStore hpart)))
      · exact ih (kept_ownStore hpart)
theorem kept_restoreImage {src : Nat} (hm : m.Kept s.mem) : KeptEnd m (s.restoreImage src) := by
  unfold State.restoreImage
  split
  · exact trivial
  · split
    · exact kept_restorePages hm
    · split
      · exact kept_restorePages hm
      · exact hm
      · exact trivial
theorem kept_execRestoreMemoryImage (hm : m.Kept s.mem) : KeptNext m (execRestoreMemoryImage s) := by
  unfold execRestoreMemoryImage
  refine keptNext_next ?_
  split
  · dsimp only
    split
    · exact kept_sendFetch (kept_mailboxRun hm (kept_restoreImage hm))
    · exact kept_mailboxRun hm (kept_restoreImage hm)
  · dsimp only
    split
    · exact kept_dropFetched (kept_mailboxAgain hm (kept_restoreImage hm))
    · exact kept_mailboxAgain hm (kept_restoreImage hm)
  · exact hm
theorem kept_codeWrite {code : Byte} (hm : m.Kept s.mem) : m.Kept (s.codeWrite code).mem := by
  unfold State.codeWrite
  dsimp only
  split
  · exact hm
  · split
    · exact hm
    · split
      · exact kept_proposeFirst hm
      · exact hm
theorem kept_execMailboxUnknownCode (hm : m.Kept s.mem) : KeptNext m (execMailboxUnknownCode s) := by
  unfold execMailboxUnknownCode
  refine keptNext_next ?_
  split
  · split
    · exact kept_codeWrite hm
    · exact hm
  · exact hm
  · split
    · exact hm
    · exact kept_codeWrite hm
  · exact hm
theorem kept_execPowerThrottle (hm : m.Kept s.mem) : KeptNext m (execPowerThrottle s) := by
  unfold execPowerThrottle
  refine keptNext_next ?_
  split <;> exact hm
theorem kept_execPowerRecover (hm : m.Kept s.mem) : KeptNext m (execPowerRecover s) := by
  unfold execPowerRecover
  refine keptNext_next ?_
  split <;> exact hm
theorem kept_spoilLine {line reason : Nat} (hm : m.Kept s.mem) : m.Kept (s.spoilLine line reason).mem := by
  unfold State.spoilLine
  split <;> exact hm
theorem kept_spoilUnit {u : TestUnit} {place : Nat} (hm : m.Kept s.mem) : m.Kept (s.spoilUnit u place).mem := by
  unfold State.spoilUnit
  dsimp only
  split
  · exact kept_spoilLine hm
  · exact kept_spoilLine hm
  · exact kept_spoilLine hm
  · dsimp only
    exact hm
  · dsimp only
    exact hm
  · dsimp only
    exact hm
theorem kept_execErrorSelftest (hm : m.Kept s.mem) : KeptNext m (execErrorSelftest s) := by
  unfold execErrorSelftest
  refine keptNext_next ?_
  split
  · split
    · exact hm
    · exact kept_spoilUnit hm
  · exact hm
theorem kept_execSelfTestEnd (hm : m.Kept s.mem) : KeptNext m (execSelfTestEnd s) := by
  unfold execSelfTestEnd
  refine keptNext_next ?_
  split
  · split
    · exact hm
    · exact kept_event (kept_retryHandlers (kept_unblock hm))
  · exact hm

end

end Sys2Proof.Machine

/-! PROOFS. The canonical form of memory is kept by the operations of memory instructions and pre-emption (family 09_memory_model.md). -/
namespace Sys2Proof.Machine

section
variable {m : Mem} {s : State}

theorem kept_loadBits {o : LoadOp} {l : Look} (ho : KeptLoad m o) : KeptLoad m { o with look := l } := ho
theorem kept_load {f : Fields} (hm : m.Kept s.mem) : m.Kept (s.load f).mem :=
  kept_memLoad hm kept_regLoad
theorem kept_storeData {f : Fields} {h : Shape} (hm : m.Kept s.mem) : m.Kept (s.storeData f h).mem :=
  kept_onWarp hm (fun _ => kept_memStore hm)
theorem kept_store {f : Fields} (hm : m.Kept s.mem) : m.Kept (s.store f).mem :=
  kept_storeData hm
theorem kept_takeFull {clr : Bool} {id : Nat} {ls : List LaneAcc} (hm : m.Kept s.mem) : m.Kept (s.takeFull clr id ls).1.mem := by
  induction ls generalizing s with
  | nil => exact hm
  | cons a as ih =>
    unfold State.takeFull
    split
    · exact ih hm
    · split
      · exact hm
      · refine ih ?_
        split
        · exact kept_disturb (kept_setGranule hm)
        · exact hm
theorem kept_loadFe {f : Fields} (hm : m.Kept s.mem) : m.Kept (s.loadFe f).mem := by
  unfold State.loadFe
  extract_lets clr o
  have ho : KeptLoad m o := kept_loadBits (o := regLoad 0x0E2 f (feShape f) (fun l bs => vWrites l f.d (loadWords false bs))
      (if clr then 7 else 5)) kept_regLoad
  clear_value o
  refine kept_onWarp hm fun _ => ?_
  refine kept_planned hm fun _ _ ht => ?_
  split
  · dsimp only
    split
    · exact kept_modWarp (kept_keepGoing (kept_takeFull ht))
    · split
      · exact kept_keepGoing (kept_takeFull ht)
      · exact ho _ _ _ _ (kept_takeFull ht)
  · split
    · exact kept_stall ht
    · exact kept_loadAhead ht ho
theorem kept_storeFe {f : Fields} (hm : m.Kept s.mem) : m.Kept (s.storeFe f).mem :=
  kept_onWarp hm (fun _ => kept_memStore hm)
theorem kept_execFereset {w : Std} (hm : m.Kept s.mem) : KeptNext m (execFereset w s) := by
  unfold execFereset
  dsimp only
  refine keptNext_next ?_
  refine kept_onWarp hm fun _ => ?_
  split
  · exact kept_finishLong hm
  · split
    · exact kept_faultLane hm
    · split
      · exact kept_finishLong hm
      · split
        · refine kept_prepared hm fun _ ht => ?_
          split
          · exact kept_stall ht
          · split
            · exact kept_limit ht
            · exact kept_traceWarp (kept_finishLong ht)
        · exact hm
theorem kept_prefetch {f : Fields} (hm : m.Kept s.mem) : m.Kept (s.prefetch f).mem := by
  unfold State.prefetch
  dsimp only
  refine kept_onWarp hm fun _ => ?_
  refine kept_finishLong ?_
  refine kept_foldl (fun _ _ ht => ?_) hm
  split
  · exact ht
  · split
    · exact ht
    · split
      · exact ht
      · split
        · exact kept_cacheLoadLine (kept_useSeg ht)
        · exact kept_prefetchL2 (kept_useSeg ht)
theorem kept_atomLane {core id op hint : Nat} {a : LaneAcc} {x c : W64} (hm : m.Kept s.mem) : m.Kept (s.atomLane core id op hint a x c).1.mem := by
  unfold State.atomLane
  split
  · dsimp only
    exact hm
  · dsimp only
    split
    · dsimp only
      exact hm
    · split
      · dsimp only
        exact kept_writeSite hm
      · dsimp only
        exact hm
theorem kept_atomLanes {e : Env} {f : Fields} {ls : List LaneAcc} (hm : m.Kept s.mem) : m.Kept (s.atomLanes e f ls).1.mem := by
  induction ls generalizing s with
  | nil => exact hm
  | cons a as ih => exact ih (kept_atomLane hm)
theorem kept_atomic {f : Fields} (hm : m.Kept s.mem) : m.Kept (s.atomic f).mem := by
  unfold State.atomic
  dsimp only
  refine kept_onWarp hm fun _ => ?_
  refine kept_planned hm fun _ _ ht => ?_
  refine kept_ownLines ht fun _ ht => ?_
  split
  · exact kept_loadError ht
  · split
    · split
      · exact kept_finishLong ht
      · exact kept_traceWarp (kept_finishLong ht)
    · split
      · exact kept_stall ht
      · split
        · exact kept_askPeers ht
        · split
          · exact kept_keepGoing (kept_atomLanes ht)
          · split
            · exact kept_finishLong (kept_atomLanes ht)
            · exact kept_traceWarp (kept_finishLong (kept_atomLanes ht))
theorem kept_reduction {f : Fields} (hm : m.Kept s.mem) : m.Kept (s.reduction f).mem :=
  kept_memStore hm
theorem kept_loadNet {f : Fields} (hm : m.Kept s.mem) : m.Kept (s.loadNet f).mem := by
  unfold State.loadNet
  dsimp only
  refine kept_onWarp hm fun _ => ?_
  refine kept_memLoad hm fun _ _ _ _ hs => ?_
  dsimp only
  exact kept_finishRegs hs
theorem kept_beginSwap {core : Nat} {incoming : Option Nat} {phase : CorePhase} (hm : m.Kept s.mem) : KeptSome m (s.beginSwap core incoming phase) :=
  keptSome_mapOf fun _ => kept_modCore hm
theorem kept_loadNew {core : Nat} {build : State → Option State} (hm : m.Kept s.mem) : KeptSome m (s.loadNew core build) := by
  unfold State.loadNew
  split
  · exact keptSome_none
  · exact kept_beginSwap hm
theorem kept_swapFor {x : Context} {core : Nat} {quiet : State → State} (hm : m.Kept s.mem) (hquiet : ∀ t, m.Kept t.mem → m.Kept (quiet t).mem) :
    KeptSome m (s.swapFor x core quiet) := by
  unfold State.swapFor
  split
  · exact kept_beginSwap hm
  · split
    · exact keptSome_map (kept_beginSwap hm) fun _ ht => hquiet _ ht
    · exact keptSome_none
theorem kept_quiesce {core : Nat} (hm : m.Kept s.mem) : m.Kept (s.quiesce core).mem :=
  kept_sendTiles (kept_rollAll hm)
theorem kept_execPriorityPreempt (hm : m.Kept s.mem) : KeptNext m (execPriorityPreempt s) := by
  unfold execPriorityPreempt
  refine keptNext_next ?_
  split
  · split
    · split
      · exact hm
      · split
        · exact kept_getD (kept_loadNew hm) hm
        · split
          · split
            · exact kept_getD (kept_loadNew hm) hm
            · exact hm
          · exact hm
    · exact hm
  · split
    · split
      · split
        · exact hm
        · exact kept_getD (kept_swapFor hm (fun _ ht => kept_quiesce ht)) hm
      · exact hm
    · exact hm
  · exact hm
theorem kept_execPoolStallRelief (hm : m.Kept s.mem) : KeptNext m (execPoolStallRelief s) := by
  unfold execPoolStallRelief
  refine keptNext_next ?_
  split
  · split
    · split
      · split
        · exact kept_getD (kept_loadNew hm) hm
        · exact hm
      · exact hm
    · exact hm
  · exact hm
theorem kept_execThermalMigration (hm : m.Kept s.mem) : KeptNext m (execThermalMigration s) := by
  unfold execThermalMigration
  dsimp only
  refine keptNext_next ?_
  split
  · split
    · split
      · dsimp only
        refine kept_modContext ?_
        refine kept_beginSwap ?_ _ ‹_›
        refine kept_foldl (fun _ _ ht => ?_) ?_
        · exact kept_modCore ht
        · exact hm
      · refine kept_foldl (fun _ _ ht => ?_) ?_
        · exact kept_modCore ht
        · exact hm
    · refine kept_foldl (fun _ _ ht => ?_) ?_
      · exact kept_modCore ht
      · exact hm
  · exact hm
theorem kept_awaitSwap {id : Nat} (hm : m.Kept s.mem) : m.Kept (s.awaitSwap id).mem := hm
theorem kept_execCtxsw {w : Std} (hm : m.Kept s.mem) : KeptNext m (execCtxsw w s) := by
  unfold execCtxsw
  dsimp only
  refine keptNext_next ?_
  refine kept_whenSettled hm fun _ => ?_
  split
  · exact kept_skipWarp hm
  · split
    · exact kept_raise hm
    · split
      · exact kept_skipWarp hm
      · split
        · exact kept_swapFor (kept_awaitSwap (kept_skipWarp hm)) (fun _ ht => kept_quiesce ht) _ ‹_›
        · split
          · exact kept_skipWarp hm
          · exact kept_stall hm
theorem kept_poisonBlock {x : Context} {reason : Nat} {b : Block} (hm : m.Kept s.mem) : KeptOk m (s.poisonBlock x reason b) := by
  unfold State.poisonBlock
  split
  · exact keptOk_ok hm
  · split
    · exact keptOk_ok hm
    · dsimp only
      split
      · exact keptOk_error
      · refine keptOk_ok (kept_event (kept_modLaunch (kept_stopLaunch ?_)))
        refine kept_writeDump ?_ _ ‹_›
        exact kept_trace hm
theorem kept_restoreFailed {x : Context} {reason : Nat} (hm : m.Kept s.mem) : KeptEither m (s.restoreFailed x reason) := by
  unfold State.restoreFailed
  split
  · exact kept_askHost hm
  · rename_i s' hfold
    have hs' : m.Kept s'.mem :=
      kept_foldlM (f := fun s b => s.poisonBlock x reason b) (fun _ _ ht => kept_poisonBlock ht) hm _ hfold
    exact hs'
theorem kept_dropOutgoing {core : Nat} (hm : m.Kept s.mem) : m.Kept (s.dropOutgoing core).mem := by
  unfold State.dropOutgoing
  split <;> exact hm
theorem kept_endAwait {core : Nat} (hm : m.Kept s.mem) : m.Kept (s.endAwait core).mem := hm
theorem kept_testBank {core : Nat} (hm : m.Kept s.mem) : m.Kept (s.testBank core).mem := hm
theorem kept_execShadowLoadDone (hm : m.Kept s.mem) : KeptNext m (execShadowLoadDone s) := by
  refine keptNext_next ?_
  split
  · split
    · exact hm
    · dsimp only
      split
      · split
        · exact KeptEither.error (kept_restoreFailed hm) ‹_›
        · exact kept_wakeReservers (kept_modCore (kept_endAwait (kept_dropOutgoing (KeptEither.ok (kept_restoreFailed hm) ‹_›))))
      · exact kept_modCore (kept_quiesce hm)
  · exact hm
theorem kept_traceContext {core : Nat} {bs : List Block} {into : Bool} (hm : m.Kept s.mem) : m.Kept (s.traceContext core bs into).mem := by
  unfold State.traceContext
  refine kept_foldl (fun _ _ ht => ?_) hm
  split
  · exact kept_trace ht
  · exact ht
theorem kept_takeOut {core n : Nat} (hm : m.Kept s.mem) : m.Kept (s.takeOut core n).mem :=
  kept_traceContext (kept_modContext (kept_cleared hm))
theorem kept_bringIn {x : Context} {core : Nat} (hm : m.Kept s.mem) : KeptSome m (s.bringIn x core) := by
  unfold State.bringIn
  refine keptSome_map (kept_seated hm) fun _ ht => ?_
  refine kept_foldl (fun _ _ ht => kept_rejoinService ht) ?_
  refine kept_answerFaults ?_
  split
  · exact kept_traceContext (kept_ungate ht)
  · exact kept_modContext (kept_traceContext (kept_ungate ht))
theorem kept_execShadowSwap (hm : m.Kept s.mem) : KeptNext m (execShadowSwap s) := by
  refine keptNext_next ?_
  split
  · extract_lets c
    split
    · exact hm
    · split
      · exact hm
      · extract_lets t u out
        have hu : m.Kept u.mem := kept_takeOut hm
        have hout : KeptSome m out := by
          unfold out
          clear_value u
          split
          · exact kept_bringIn hu
          · exact keptSome_some hu
        clear_value u out
        cases out with
        | none => exact hm
        | some v => exact kept_modCore (hout v rfl)
  · exact hm
theorem kept_spillBlock {x : Context} {b : Block} (hm : m.Kept s.mem) : m.Kept (s.spillBlock x b).mem := by
  unfold State.spillBlock
  split
  · exact hm
  · exact kept_ownStore hm
theorem kept_execSpillDone (hm : m.Kept s.mem) : KeptNext m (execSpillDone s) := by
  unfold execSpillDone
  refine keptNext_next ?_
  split
  · dsimp only
    split
    · exact hm
    · refine kept_testBank (kept_modCore ?_)
      split
      · refine kept_foldl (fun _ _ ht => ?_) ?_
        · exact kept_spillBlock ht
        · exact hm
      · exact hm
  · exact hm
theorem kept_execContextRestore (hm : m.Kept s.mem) : KeptNext m (execContextRestore s) := by
  refine keptNext_next ?_
  split
  · split
    · split
      · exact hm
      · split
        · split
          · exact KeptEither.error (kept_restoreFailed hm) ‹_›
          · exact KeptEither.ok (kept_restoreFailed hm) ‹_›
        · exact kept_getD (kept_bringIn hm) hm
    · exact hm
  · exact hm
theorem kept_execSaveAreaReturn (hm : m.Kept s.mem) : KeptNext m (execSaveAreaReturn s) := by
  unfold execSaveAreaReturn
  refine keptNext_next ?_
  split
  · split
    · split <;> exact hm
    · exact hm
  · exact hm
theorem kept_execLoadPerform (hm : m.Kept s.mem) : KeptNext m (execLoadPerform s) := by
  unfold execLoadPerform
  refine keptNext_next ?_
  split
  · split
    · split
      · split
        · exact hm
        · exact kept_flushTrace (kept_putWarp hm)
      · exact hm
    · exact hm
  · exact hm
theorem kept_execStorePerform (hm : m.Kept s.mem) : KeptNext m (execStorePerform s) := by
  unfold execStorePerform
  refine keptNext_next ?_
  split
  · split
    · split
      · dsimp only
        split
        · exact kept_backInvalidate hm
        · split
          · exact hm
          · refine kept_flushTrace (kept_modWarp ?_)
            refine kept_foldl (fun _ _ ht => ?_) ?_
            · exact kept_performEff ht
            · exact hm
      · exact hm
    · exact hm
  · exact hm
theorem kept_execRollback (hm : m.Kept s.mem) : KeptNext m (execRollback s) := by
  unfold execRollback
  refine keptNext_next ?_
  split
  · split
    · split
      · exact kept_rollWarp hm
      · exact hm
    · exact hm
  · exact hm
theorem kept_execRollbackIntervalExpiry (hm : m.Kept s.mem) : KeptNext m (execRollbackIntervalExpiry s) := by
  unfold execRollbackIntervalExpiry
  refine keptNext_next ?_
  split
  · split
    · exact hm
    · exact kept_modCore hm
  · exact hm
theorem kept_execLongInstructionComplete (hm : m.Kept s.mem) : KeptNext m (execLongInstructionComplete s) := by
  unfold execLongInstructionComplete
  refine keptNext_next ?_
  split
  · split
    · split
      · exact hm
      · dsimp only
        split
        · exact hm
        · split
          · exact kept_putWarp hm
          · exact kept_putWarp hm
      · dsimp only
        exact kept_putWarp hm
    · exact hm
  · exact hm
theorem kept_execStagedRelease (hm : m.Kept s.mem) : KeptNext m (execStagedRelease s) := by
  unfold execStagedRelease
  refine keptNext_next ?_
  split
  · split
    · split
      · exact hm
      · split
        · exact kept_flushTrace (kept_stageRecords (kept_modWarp hm))
        · split
          · exact kept_sendWait hm _ ‹_›
          · exact kept_flushTrace (kept_sendCmd (kept_modWarp hm))
        · exact kept_flushTrace hm
    · exact hm
  · exact hm
theorem kept_execQuarterIssueSelect (hm : m.Kept s.mem) : KeptNext m (execQuarterIssueSelect s) := by
  unfold execQuarterIssueSelect
  refine keptNext_next ?_
  split
  · exact kept_selectTurn hm
  · exact hm
theorem kept_execYieldTimeout (hm : m.Kept s.mem) : KeptNext m (execYieldTimeout s) := by
  unfold execYieldTimeout
  refine keptNext_next ?_
  split
  · split
    · split
      · exact kept_modWarp hm
      · exact hm
    · exact hm
  · exact hm
theorem kept_execCtabWaitTimeout (hm : m.Kept s.mem) : KeptNext m (execCtabWaitTimeout s) := by
  unfold execCtabWaitTimeout
  refine keptNext_next ?_
  split
  · split
    · split
      · exact kept_putWarp hm
      · exact hm
    · exact hm
  · exact hm
theorem kept_execQueuedBlockSent (hm : m.Kept s.mem) : KeptNext m (execQueuedBlockSent s) := by
  unfold execQueuedBlockSent
  refine keptNext_next ?_
  split
  · split <;> exact hm
  · exact hm
theorem kept_execRegisterSpaceOther (hm : m.Kept s.mem) : KeptNext m (execRegisterSpaceOther s) := by
  unfold execRegisterSpaceOther
  refine keptNext_next ?_
  split
  · dsimp only
    split
    · exact hm
    · split
      · exact hm
      · dsimp only
        exact hm
      · dsimp only
        exact hm
  · exact hm
theorem kept_execReorderPoolDepart (hm : m.Kept s.mem) : KeptNext m (execReorderPoolDepart s) := by
  unfold execReorderPoolDepart
  dsimp only
  refine keptNext_next ?_
  split
  · split
    · split
      · split
        · exact hm
        · split
          · exact hm
          · refine kept_getD ?_ (kept_modBlock hm)
            refine keptSome_findSome fun _ => ?_
            refine keptSome_bind (kept_addWarp (kept_modBlock (kept_modBlock hm))) fun _ ht => ?_
            split
            · exact keptSome_some ht
            · exact keptSome_none
      · exact hm
    · exact hm
  · exact hm
theorem kept_modPage {block page : Nat} {f : Page → Page} (hm : m.Kept s.mem) : m.Kept (s.modPage block page f).mem := hm
theorem kept_pinIn {b : Block} {page frame : Nat} (hm : m.Kept s.mem) : m.Kept (s.pinIn b page frame).mem := by
  unfold State.pinIn
  split
  · exact kept_modPage hm
  · exact kept_retryHandlers (kept_modBlock hm)
theorem kept_fillPage {b : Block} {page : Nat} (hm : m.Kept s.mem) : m.Kept (s.fillPage b page).mem := by
  unfold State.fillPage
  split
  · exact hm
  · exact kept_modAnyBlock (kept_homeLoad (kept_homeLoad hm))
theorem kept_writeChanged {a : Nat} {xs : List (List Byte)} (hm : m.Kept s.mem) : m.Kept (s.writeChanged a xs).mem := by
  induction xs generalizing s a with
  | nil => exact hm
  | cons x xs ih =>
    refine ih ?_
    split
    · exact hm
    · exact kept_ownStore hm
theorem kept_emptyPage {b : Block} {page : Nat} (hm : m.Kept s.mem) : m.Kept (s.emptyPage b page).mem := by
  unfold State.emptyPage
  split
  · exact hm
  · exact kept_modAnyBlock (kept_writeChanged (kept_writeChanged hm))
theorem kept_execScratchpadPin (hm : m.Kept s.mem) : KeptNext m (execScratchpadPin s) := by
  unfold execScratchpadPin
  refine keptNext_next ?_
  split
  · split
    · exact hm
    · split
      · exact hm
      · dsimp only
        split
        · exact kept_pinIn hm
        · split
          · exact kept_propose (kept_propose hm)
          · split
            · exact kept_propose (kept_propose hm)
            · exact hm
  · exact hm
theorem kept_execScratchpadFillDone (hm : m.Kept s.mem) : KeptNext m (execScratchpadFillDone s) := by
  unfold execScratchpadFillDone
  refine keptNext_next ?_
  split
  · split
    · split
      · refine kept_retryHandlers ?_
        split
        · exact kept_modPage hm
        · exact kept_modPage (kept_fillPage hm)
      · exact hm
    · exact hm
  · exact hm
theorem kept_execScratchpadUnpin (hm : m.Kept s.mem) : KeptNext m (execScratchpadUnpin s) := by
  unfold execScratchpadUnpin
  refine keptNext_next ?_
  split
  · split
    · split
      · exact kept_modPage (kept_emptyPage hm)
      · exact hm
    · exact hm
  · exact hm

end

end Sys2Proof.Machine

/-! PROOFS. The canonical form of memory is kept by every move and by every step (family 09_memory_model.md). -/
namespace Sys2Proof.Machine

section
variable {m : Mem} {s : State}

theorem kept_move (hm : m.Kept s.mem) : KeptPrep m (s.move) :=
  kept_nextMove hm
theorem kept_opened {ran : Option Instr} (hm : m.Kept s.mem) : m.Kept (s.opened ran).mem := by
  unfold State.opened
  split
  · exact kept_openTurn hm
  · exact hm
theorem kept_withhold {lines : List Nat} (hm : m.Kept s.mem) : m.Kept (s.withhold lines).mem := by
  unfold State.withhold
  split
  · exact kept_foldl (fun _ _ ht => kept_backInvalidate ht) hm
  · split
    · exact kept_modBlock (kept_foldl (fun _ _ ht => kept_backInvalidate ht) hm)
    · exact kept_modWarp (kept_foldl (fun _ _ ht => kept_backInvalidate ht) hm)
  · exact kept_foldl (fun _ _ ht => kept_backInvalidate ht) hm
/-- One arm for each move: its meaning is one of the operations above, or one of the shared forms applied to its operands. -/
theorem kept_exec {i : Instr} (hm : m.Kept s.mem) : KeptNext m (exec i s) := by
  cases i with
  | compactPair p => exact keptNext_next (kept_onWarp hm (fun _ => kept_finish hm))
  | iadd w => exact keptNext_next (kept_int2 hm)
  | iaddExt w => exact keptNext_next (kept_int2 hm)
  | isub w => exact keptNext_next (kept_int2 hm)
  | isubExt w => exact keptNext_next (kept_int2 hm)
  | iaddc w => exact keptNext_next (kept_carryOp hm)
  | isubb w => exact keptNext_next (kept_carryOp hm)
  | imul w => exact keptNext_next (kept_int2 hm)
  | imulExt w => exact keptNext_next (kept_int2 hm)
  | imulh w => exact keptNext_next (kept_int2 hm)
  | imad w => exact keptNext_next (kept_int3 hm)
  | imadw w => exact keptNext_next (kept_vOp64 hm)
  | ineg w => exact keptNext_next (kept_int1 hm)
  | iabs w => exact keptNext_next (kept_int1 hm)
  | imin w => exact keptNext_next (kept_int2 hm)
  | iminExt w => exact keptNext_next (kept_int2 hm)
  | imax w => exact keptNext_next (kept_int2 hm)
  | imaxExt w => exact keptNext_next (kept_int2 hm)
  | iclamp w => exact keptNext_next (kept_int3 hm)
  | iand w => exact keptNext_next (kept_int2 hm)
  | iandExt w => exact keptNext_next (kept_int2 hm)
  | ior w => exact keptNext_next (kept_int2 hm)
  | iorExt w => exact keptNext_next (kept_int2 hm)
  | ixor w => exact keptNext_next (kept_int2 hm)
  | ixorExt w => exact keptNext_next (kept_int2 hm)
  | inot w => exact keptNext_next (kept_int1 hm)
  | iandn w => exact keptNext_next (kept_int2 hm)
  | iandnExt w => exact keptNext_next (kept_int2 hm)
  | ishl w => exact keptNext_next (kept_shift hm)
  | ishr w => exact keptNext_next (kept_shift hm)
  | isar w => exact keptNext_next (kept_shift hm)
  | irot w => exact keptNext_next (kept_shift hm)
  | ibfe w => exact keptNext_next (kept_int2 hm)
  | ibfi w => exact keptNext_next (kept_int3 hm)
  | ipopc w => exact keptNext_next (kept_int1 hm)
  | iclz w => exact keptNext_next (kept_int1 hm)
  | ictz w => exact keptNext_next (kept_int1 hm)
  | ibrev w => exact keptNext_next (kept_int1 hm)
  | isel w => exact keptNext_next (kept_vOp hm)
  | icmp w => exact keptNext_next (kept_icmp32 hm)
  | icmpExt w => exact keptNext_next (kept_icmp32 hm)
  | idot4 w => exact keptNext_next (kept_int3 hm)
  | isad w => exact keptNext_next (kept_int3 hm)
  | lea w => exact keptNext_next (kept_vOp64 hm)
  | leahi w => exact keptNext_next (kept_vOp hm)
  | add64 w => exact keptNext_next (kept_int64 hm)
  | add64Ext w => exact keptNext_next (kept_int64 hm)
  | sub64 w => exact keptNext_next (kept_int64 hm)
  | sub64Ext w => exact keptNext_next (kept_int64 hm)
  | cmp64 w => exact keptNext_next (kept_icmp64 hm)
  | cmp64Ext w => exact keptNext_next (kept_icmp64 hm)
  | shl64 w => exact keptNext_next (kept_shift64 hm)
  | shr64 w => exact keptNext_next (kept_shift64 hm)
  | idiv w => exact keptNext_next (kept_divide hm)
  | irem w => exact keptNext_next (kept_divide hm)
  | fadd w => exact keptNext_next (kept_flt2 hm)
  | faddExt w => exact keptNext_next (kept_flt2 hm)
  | fsub w => exact keptNext_next (kept_flt2 hm)
  | fsubExt w => exact keptNext_next (kept_flt2 hm)
  | fmul w => exact keptNext_next (kept_flt2 hm)
  | fmulExt w => exact keptNext_next (kept_flt2 hm)
  | ffma w => exact keptNext_next (kept_vOp hm)
  | fmin w => exact keptNext_next (kept_vOp hm)
  | fmax w => exact keptNext_next (kept_vOp hm)
  | fcmp w => exact keptNext_next (kept_fcmp2 hm)
  | fcmpExt w => exact keptNext_next (kept_fcmp2 hm)
  | fclass w => exact keptNext_next (kept_vOp hm)
  | frnd w => exact keptNext_next (kept_vOp hm)
  | frcp w => exact keptNext_next (kept_flt1Long hm)
  | frsq w => exact keptNext_next (kept_flt1Long hm)
  | fsqrt w => exact keptNext_next (kept_flt1Long hm)
  | fdiv w => exact keptNext_next (kept_vOpLong hm)
  | fexp2 w => exact keptNext_next (kept_flt1Long hm)
  | flog2 w => exact keptNext_next (kept_flt1Long hm)
  | fsin w => exact keptNext_next (kept_flt1Long hm)
  | fcos w => exact keptNext_next (kept_flt1Long hm)
  | ftanh w => exact keptNext_next (kept_flt1Long hm)
  | fsig w => exact keptNext_next (kept_flt1Long hm)
  | hadd2 w => exact keptNext_next (kept_halves2 hm)
  | hadd2Ext w => exact keptNext_next (kept_halves2 hm)
  | hmul2 w => exact keptNext_next (kept_halves2 hm)
  | hmul2Ext w => exact keptNext_next (kept_halves2 hm)
  | hfma2 w => exact keptNext_next (kept_halves3 hm)
  | bfma2 w => exact keptNext_next (kept_halves3 hm)
  | fdot2 w => exact keptNext_next (kept_vOp hm)
  | cvt w => exact keptNext_next (kept_onWarp hm (fun _ => kept_perLane hm))
  | bxpack w => exact keptNext_next (kept_perLane hm)
  | bxunpack w => exact keptNext_next (kept_perLane hm)
  | pset w => exact keptNext_next (kept_pOp hm)
  | pand w => exact keptNext_next (kept_pred2 hm)
  | por w => exact keptNext_next (kept_pred2 hm)
  | pxor w => exact keptNext_next (kept_pred2 hm)
  | pnot w => exact keptNext_next (kept_pOp hm)
  | pmov w => exact kept_execPmov hm
  | mov w => exact kept_execMov hm
  | movi w => exact kept_execMovi hm
  | movs w => exact kept_execMovs hm
  | sadd w => exact keptNext_next (kept_uni2 hm)
  | saddExt w => exact keptNext_next (kept_uni2 hm)
  | ssub w => exact keptNext_next (kept_uni2 hm)
  | ssubExt w => exact keptNext_next (kept_uni2 hm)
  | sand w => exact keptNext_next (kept_uni2 hm)
  | sandExt w => exact keptNext_next (kept_uni2 hm)
  | sor w => exact keptNext_next (kept_uni2 hm)
  | sorExt w => exact keptNext_next (kept_uni2 hm)
  | sshl w => exact keptNext_next (kept_uni2 hm)
  | scmp w => exact keptNext_next (kept_uni2 hm)
  | scmpExt w => exact keptNext_next (kept_uni2 hm)
  | sprrd w => exact kept_execSprrd hm
  | sprwr w => exact kept_execSprwr hm
  | bnload w => exact keptNext_next (kept_loadNet hm)
  | bnloadExt w => exact keptNext_next (kept_loadNet hm)
  | bnperm w => exact keptNext_next (kept_onWarp hm (fun _ => kept_finishLong hm))
  | bnmov w => exact keptNext_next (kept_onWarp hm (fun _ => kept_finishLong hm))
  | shfl w => exact keptNext_next (kept_onWarp hm (fun _ => kept_vOpLong hm))
  | vote w => exact kept_execVote hm
  | redux w => exact keptNext_next (kept_onWarp hm (fun _ => kept_vOpLong hm))
  | scan w => exact keptNext_next (kept_onWarp hm (fun _ => kept_vOpLong hm))
  | matchLanes w => exact keptNext_next (kept_onWarp hm (fun _ => kept_perLaneLong hm))
  | popm w => exact keptNext_next (kept_vOp hm)
  | bra w => exact keptNext_next (kept_direct hm)
  | braExt w => exact keptNext_next (kept_direct hm)
  | braCond w => exact keptNext_next (kept_conditional hm)
  | brx w => exact keptNext_next (kept_indirect hm)
  | call w => exact keptNext_next (kept_direct hm)
  | callExt w => exact keptNext_next (kept_direct hm)
  | callCond w => exact keptNext_next (kept_conditional hm)
  | callx w => exact keptNext_next (kept_indirect hm)
  | ret w => exact keptNext_next (kept_indirect hm)
  | exit w => exact kept_execExit hm
  | yield w => exact keptNext_next (kept_onWarp hm (fun _ => kept_putWarp hm))
  | nop w => exact kept_execNop (w := w) hm
  | barInit w => exact kept_execBarInit hm
  | barArrive w => exact kept_execBarArrive hm
  | barWait w => exact kept_execBarWait hm
  | barSync w => exact kept_execBarSync hm
  | emit w => exact keptNext_next (kept_onWarp hm (fun _ => kept_emitReady hm (kept_finishEmit hm)))
  | emitm w => exact keptNext_next (kept_onWarp hm (fun _ => kept_emitRoom hm (kept_memLoad hm (fun _ _ _ _ hs => kept_finishEmit hs))))
  | reorder w => exact kept_execReorder hm
  | trig w => exact keptNext_next (kept_whenSettled hm (fun _ => kept_putWarp hm))
  | lwait w => exact kept_execLwait hm
  | ld w => exact keptNext_next (kept_load hm)
  | ldExt w => exact keptNext_next (kept_load hm)
  | st w => exact keptNext_next (kept_store hm)
  | stExt w => exact keptNext_next (kept_store hm)
  | ldfe w => exact keptNext_next (kept_loadFe hm)
  | ldfeExt w => exact keptNext_next (kept_loadFe hm)
  | stfe w => exact keptNext_next (kept_storeFe hm)
  | stfeExt w => exact keptNext_next (kept_storeFe hm)
  | fereset w => exact kept_execFereset hm
  | fequery w => exact keptNext_next (kept_memLoad hm (kept_loadBits kept_regLoad))
  | ldbx w => exact keptNext_next (kept_memLoad hm kept_regLoad)
  | stbx w => exact keptNext_next (kept_storeData hm)
  | pfetch w => exact keptNext_next (kept_prefetch hm)
  | pfetchExt w => exact keptNext_next (kept_prefetch hm)
  | atom w => exact keptNext_next (kept_atomic hm)
  | atomExt w => exact keptNext_next (kept_atomic hm)
  | red w => exact keptNext_next (kept_reduction hm)
  | redExt w => exact keptNext_next (kept_reduction hm)
  | copy w => exact keptNext_next (kept_lengthOp hm)
  | gather w => exact keptNext_next (kept_indexOp hm)
  | scatter w => exact keptNext_next (kept_indexOp hm)
  | fill w => exact keptNext_next (kept_lengthOp hm)
  | pub w => exact keptNext_next (kept_engineOp hm)
  | cwait w => exact kept_execCwait hm
  | cpoll w => exact keptNext_next (kept_onWarp hm (fun _ => kept_vOpLong hm))
  | ctab w => exact kept_execCtab hm
  | fabfence w => exact kept_execFabfence hm
  | mckpt w => exact keptNext_next (kept_lengthOp hm)
  | mres w => exact kept_execMres hm
  | mrel w => exact kept_execMrel hm
  | mshape w => exact keptNext_next (kept_onStream hm (fun _ => kept_tileRecords hm (fun _ _ _ ht0 => kept_passStream ht0)))
  | mprol w => exact keptNext_next (kept_withRoom hm (fun _ => kept_tileRecords hm (fun _ _ _ ht0 => kept_enterOp ht0)))
  | mzero w => exact kept_execMzero hm
  | mmac w => exact keptNext_next (kept_withRoom hm (fun _ => kept_tileRecords hm (fun _ _ _ ht0 => kept_enterOp ht0)))
  | mread w => exact kept_execMread hm
  | mwrite w => exact kept_execMwrite hm
  | mwait w => exact kept_execMwait hm
  | nnev w => exact kept_execNnev hm
  | nnflush w => exact kept_execNnflush hm
  | rtrace w => exact keptNext_next (kept_rayOp hm)
  | rnext w => exact keptNext_next (kept_rayOp hm)
  | rhit w => exact keptNext_next (kept_rayOp hm)
  | rend w => exact keptNext_next (kept_rayOp hm)
  | rquery w => exact keptNext_next (kept_rayOp hm)
  | rfwd w => exact kept_execRfwd hm
  | ccomp w => exact keptNext_next (kept_collectiveOp hm)
  | callred w => exact keptNext_next (kept_collectiveOp hm)
  | trap w => exact kept_execTrap hm
  | rti w => exact kept_execRti hm
  | tmask w => exact keptNext_next (kept_setMask hm)
  | tunmask w => exact keptNext_next (kept_setMask hm)
  | tlbinv w => exact keptNext_next (kept_tlbInvalidate hm)
  | tlbinvExt w => exact keptNext_next (kept_tlbInvalidate hm)
  | cachectl w => exact kept_execCachectl hm
  | tmark w => exact kept_execTmark hm
  | specoff w => exact keptNext_next (kept_setSoff hm)
  | specon w => exact keptNext_next (kept_setSoff hm)
  | halt w => exact kept_execHalt hm
  | ctxsw w => exact kept_execCtxsw hm
  | powerOn => exact kept_execPowerOn hm
  | packageReset => exact kept_execPackageReset hm
  | functionReset => exact kept_execFunctionReset hm
  | setPortRoles => exact kept_execSetPortRoles hm
  | acceptFeatures => exact kept_execAcceptFeatures hm
  | registerLaunchQueue => exact kept_execRegisterLaunchQueue hm
  | registerFaultQueue => exact kept_execRegisterFaultQueue hm
  | registerStatusPage => exact kept_execRegisterStatusPage hm
  | registerEventQueue => exact kept_execRegisterEventQueue hm
  | setPasidContext => exact kept_execSetPasidContext hm
  | mapTenant => exact kept_execMapTenant hm
  | reKeyPage => exact kept_execReKeyPage hm
  | loadRouteTable => exact kept_execLoadRouteTable hm
  | bindEndpoint => exact kept_execBindEndpoint hm
  | setPools => exact kept_execSetPools hm
  | setLarderSize => exact kept_execSetLarderSize hm
  | setTongsTimer => exact kept_execSetTongsTimer hm
  | setThermalLimits => exact kept_execSetThermalLimits hm
  | attest => exact kept_execAttest hm
  | releaseDumpOrTrace => exact kept_execReleaseDumpOrTrace hm
  | restoreMemoryImage => exact kept_execRestoreMemoryImage hm
  | mailboxUnknownCode => exact kept_execMailboxUnknownCode hm
  | tailWordWrite => exact kept_execTailWordWrite hm
  | launchEntryAccept => exact kept_execLaunchEntryAccept hm
  | dependenceSatisfied => exact kept_execDependenceSatisfied hm
  | leaseSetupDone => exact kept_execLeaseSetupDone hm
  | blockPlace => exact kept_execBlockPlace hm
  | launchTrigger => exact kept_execLaunchTrigger hm
  | launchComplete => exact kept_execLaunchComplete hm
  | recordPlacement => exact kept_execRecordPlacement hm
  | poolSlotFree => exact kept_execPoolSlotFree hm
  | batchLaunch => exact kept_execBatchLaunch hm
  | binTimerExpiry => exact kept_execBinTimerExpiry hm
  | poolStallRelief => exact kept_execPoolStallRelief hm
  | consumerReserveFree => exact kept_execConsumerReserveFree hm
  | quarterIssueSelect => exact kept_execQuarterIssueSelect hm
  | yieldTimeout => exact kept_execYieldTimeout hm
  | priorityPreempt => exact kept_execPriorityPreempt hm
  | thermalMigration => exact kept_execThermalMigration hm
  | shadowLoadDone => exact kept_execShadowLoadDone hm
  | shadowSwap => exact kept_execShadowSwap hm
  | spillDone => exact kept_execSpillDone hm
  | contextRestore => exact kept_execContextRestore hm
  | saveAreaReturn => exact kept_execSaveAreaReturn hm
  | stagedRelease => exact kept_execStagedRelease hm
  | loadPerform => exact kept_execLoadPerform hm
  | storePerform => exact kept_execStorePerform hm
  | rollback => exact kept_execRollback hm
  | rollbackIntervalExpiry => exact kept_execRollbackIntervalExpiry hm
  | longInstructionComplete => exact kept_execLongInstructionComplete hm
  | asyncTrapDelivery => exact kept_execAsyncTrapDelivery hm
  | fatalTrap => exact kept_execFatalTrap hm
  | permitBackoffExpiry => exact kept_execPermitBackoffExpiry hm
  | faultQueueHeadMove => exact kept_execFaultQueueHeadMove hm
  | faultEntryComplete => exact kept_execFaultEntryComplete hm
  | priResponse => exact kept_execPriResponse hm
  | atsInvalidationRequest => exact kept_execAtsInvalidationRequest hm
  | hostSnoopOwnership => exact kept_execHostSnoopOwnership hm
  | hostSnoopRead => exact kept_execHostSnoopRead hm
  | hostMemAccess => exact kept_execHostMemAccess hm
  | backInvalidateAnswer => exact kept_execBackInvalidateAnswer hm
  | writebackAck => exact kept_execWritebackAck hm
  | linkDown => exact kept_execLinkDown hm
  | linkRetrain => exact kept_execLinkRetrain hm
  | fabricLinkChange => exact kept_execFabricLinkChange hm
  | fabricPacketArrival => exact kept_execFabricPacketArrival hm
  | remoteAccessIngress => exact kept_execRemoteAccessIngress hm
  | remoteResponseArrival => exact kept_execRemoteResponseArrival hm
  | remoteTimeout => exact kept_execRemoteTimeout hm
  | atomicCacheLeaseExpiry => exact kept_execAtomicCacheLeaseExpiry hm
  | atomicCacheRecall => exact kept_execAtomicCacheRecall hm
  | countEntryAgeOut => exact kept_execCountEntryAgeOut hm
  | countQuery => exact kept_execCountQuery hm
  | remoteRecordArrival => exact kept_execRemoteRecordArrival hm
  | recordAckArrival => exact kept_execRecordAckArrival hm
  | slotGrant => exact kept_execSlotGrant hm
  | slotRevoke => exact kept_execSlotRevoke hm
  | creditReturn => exact kept_execCreditReturn hm
  | peergone => exact kept_execPeergone hm
  | collectiveStart => exact kept_execCollectiveStart hm
  | crucibleData => exact kept_execCrucibleData hm
  | requestAgain => exact kept_execRequestAgain hm
  | crucibleAbort => exact kept_execCrucibleAbort hm
  | crucibleAck => exact kept_execCrucibleAck hm
  | crucibleRoundTimer => exact kept_execCrucibleRoundTimer hm
  | collectiveComplete => exact kept_execCollectiveComplete hm
  | shardVersionWrite => exact kept_execShardVersionWrite hm
  | versionNotice => exact kept_execVersionNotice hm
  | larderFillResponse => exact kept_execLarderFillResponse hm
  | registerSpaceOther => exact kept_execRegisterSpaceOther hm
  | scratchpadPin => exact kept_execScratchpadPin hm
  | scratchpadFillDone => exact kept_execScratchpadFillDone hm
  | scratchpadUnpin => exact kept_execScratchpadUnpin hm
  | errorSelftest => exact kept_execErrorSelftest hm
  | powerThrottle => exact kept_execPowerThrottle hm
  | powerRecover => exact kept_execPowerRecover hm
  | tongsRequest => exact kept_execTongsRequest hm
  | tongsTimerExpiry => exact kept_execTongsTimerExpiry hm
  | tongsTileCheck => exact kept_execTongsTileCheck hm
  | tongsTileResult => exact kept_execTongsTileResult hm
  | anvilPassGrant => exact kept_execAnvilPassGrant hm
  | anvilPassDone => exact kept_execAnvilPassDone hm
  | rayTraversalDone => exact kept_execRayTraversalDone hm
  | engineCommandDone => exact kept_execEngineCommandDone hm
  | ctabWaitTimeout => exact kept_execCtabWaitTimeout hm
  | reorderPoolDepart => exact kept_execReorderPoolDepart hm
  | powerGating => exact kept_execPowerGating hm
  | atsTranslationCompletion => exact kept_execAtsTranslationCompletion hm
  | eventQueueHeadMove => exact kept_execEventQueueHeadMove hm
  | versionNoticeAcknowledgement => exact kept_execVersionNoticeAcknowledgement hm
  | selfTestEnd => exact kept_execSelfTestEnd hm
  | queuedBlockSent => exact kept_execQueuedBlockSent hm
theorem keptNext_endStep {clock free : Nat} {i : Option Instr} {x : Answer} (hx : KeptNext m x) : KeptNext m (endStep clock free i x) := by
  cases x with
  | next t => exact keptNext_next (kept_tick (hx t rfl))
  | fault r => exact keptNext_fault
  | refused r => exact keptNext_refused
theorem keptNext_afterMove {ran : Option Instr} {x : Answer} (hm : m.Kept s.mem) (hx : KeptNext m x) : KeptNext m (afterMove s ran x) := by
  cases x with
  | next t =>
    have hu : m.Kept (if t.hostWait = [] then t.opened ran else s.withhold t.hostWait).mem := by
      split
      · exact kept_opened (hx t rfl)
      · exact kept_withhold hm
    unfold afterMove
    refine keptNext_next ?_
    split
    · exact kept_pathDone hu
    · exact hu
  | fault r => exact keptNext_fault
  | refused r => exact keptNext_refused
theorem keptNext_step (hm : m.Kept s.mem) : KeptNext m (step s) := by
  unfold step
  split
  · exact keptNext_fault
  · have hmove : KeptPrep m s.move := kept_move hm
    split
    · exact keptNext_endStep (keptNext_afterMove hm (kept_exec (KeptPrep.run hmove ‹_›)))
    · exact keptNext_endStep (keptNext_afterMove hm (keptNext_next (KeptPrep.quiet hmove ‹_›)))

end

/-- Settles O6: what an operation of the model does to memory is to write, to set or to filter its cells, and all three keep the canonical form. -/
theorem memoryFormKept : Obligations.MemoryFormKept := by
  unfold Obligations.MemoryFormKept
  intro s t hwf hstep
  exact keptNext_step (m := s.mem) id t hstep hwf

end Sys2Proof.Machine

/-! PROOFS. Loads that perform and rollbacks (family 09_memory_model.md). -/
namespace Sys2Proof.Machine

/-- What is left of a window whose oldest access performs if it is a load. -/
def afterLoad : List Access → List Access
  | .load _ _ _ :: xs => xs
  | xs => xs
/-- Is the oldest access of a window the load at an address? -/
def firstLoadAt (addr : W64) : List Access → Bool
  | .load _ pc _ :: _ => decide (addr = pc)
  | _ => false

section
variable (w : Warp) (pc : W64)

theorem spec_dropLongs : w.dropLongs.spec = w.spec := by
  unfold Warp.dropLongs
  split <;> rfl
theorem regs_dropLongs : w.dropLongs.regs = w.regs := by
  unfold Warp.dropLongs
  split <;> rfl
theorem spec_loadDone : (w.loadDone pc).spec = { w.spec with rbCount := if w.spec.rbAddr = pc then 0 else w.spec.rbCount } := by
  unfold Warp.loadDone
  split <;> rfl
theorem regs_closeCkpt : w.closeCkpt.regs = w.regs := by
  unfold Warp.closeCkpt
  split
  · rfl
  · refine (regs_dropLongs _).trans ?_
    dsimp only
    split
    · exact regs_loadDone _ _
    · rfl
theorem closeCkpt_of_open (h : ∃ a ∈ w.spec.window.tail, a.loadLines ≠ []) : w.closeCkpt = w := by
  obtain ⟨a, ha, hne⟩ := h
  exact if_pos (List.any_eq_true.2 ⟨a, ha, by simpa using hne⟩)
theorem spec_closeCkpt_of_closed (h : ∀ a ∈ w.spec.window.tail, a.loadLines = []) :
    w.closeCkpt.spec = { w.spec with
      window := afterLoad w.spec.window, rbCount := if firstLoadAt w.spec.rbAddr w.spec.window = true then 0 else w.spec.rbCount
      ckpt := none, ulog := 0, readSet := [] } := by
  have hnone : ¬ (w.spec.window.tail.any fun a => !a.loadLines.isEmpty) = true := fun hany => by
    obtain ⟨a, ha, hne⟩ := List.any_eq_true.1 hany
    simp [h a ha] at hne
  unfold Warp.closeCkpt
  rw [if_neg hnone, spec_dropLongs]
  dsimp only
  cases hwin : w.spec.window with
  | nil => simp [hwin, afterLoad, firstLoadAt]
  | cons a rest =>
    cases a with
    | load q pc ls => simp [spec_loadDone, afterLoad, firstLoadAt]
    | store q hint es => simp [hwin, afterLoad, firstLoadAt]
end
/-- The warp that has performed the load at the head of its window, of which `rest` is left. -/
def Warp.loadLeft (w : Warp) (pc : W64) (rest : List Access) : Warp :=
  ({ w with spec := { w.spec with window := rest, readSet := readLines rest } } : Warp).loadDone pc

section
variable {s : State} {w : Warp} {q : Nat} {pc : W64} {ls : List Loc} {rest : List Access}

theorem exec_loadPerform (hw : s.warp? w.id = some w) (harg : s.arg = .id w.id) (hwin : w.spec.window = .load q pc ls :: rest)
    (hroll : s.rollBlocked w.id = false) :
    exec .loadPerform s = .next ((s.putWarp (w.loadLeft pc rest).closeCkpt).flushTrace w.id) := by
  show execLoadPerform s = _
  unfold execLoadPerform
  simp only [harg, hw, hwin, hroll]
  rfl
theorem spec_loadLeft : (w.loadLeft pc rest).spec =
    { w.spec with window := rest, readSet := readLines rest, rbCount := if w.spec.rbAddr = pc then 0 else w.spec.rbCount } := spec_loadDone _ _
theorem loadPerform_closes (h : ∀ a ∈ rest.tail, a.loadLines = []) :
    let v := (w.loadLeft pc rest).closeCkpt
    v.spec.ckpt = none ∧ v.spec.readSet = [] ∧ v.spec.window = afterLoad rest ∧
      v.spec.rbCount = (if w.spec.rbAddr = pc ∨ firstLoadAt w.spec.rbAddr rest = true then 0 else w.spec.rbCount) := by
  intro v
  have hspec := spec_closeCkpt_of_closed (w.loadLeft pc rest) (by rw [spec_loadLeft]; exact h)
  unfold v
  rw [hspec, spec_loadLeft]
  refine ⟨rfl, rfl, rfl, ?_⟩
  by_cases hpc : w.spec.rbAddr = pc
  · simp [hpc]
  · simp [hpc]
theorem loadPerform_keeps_open (h : ∃ a ∈ rest.tail, a.loadLines ≠ []) :
    let v := (w.loadLeft pc rest).closeCkpt
    v.spec.ckpt = w.spec.ckpt ∧ v.spec.readSet = readLines rest ∧ v.spec.window = rest ∧ v.spec.rbCount = (if w.spec.rbAddr = pc then 0 else w.spec.rbCount) := by
  intro v
  have hv : v = w.loadLeft pc rest := closeCkpt_of_open _ (by rw [spec_loadLeft]; exact h)
  rw [hv, spec_loadLeft]
  exact ⟨rfl, rfl, rfl, rfl⟩
theorem rbAddr_closeCkpt (w : Warp) : w.closeCkpt.spec.rbAddr = w.spec.rbAddr := by
  by_cases h : ∃ a ∈ w.spec.window.tail, a.loadLines ≠ []
  · rw [closeCkpt_of_open w h]
  · rw [spec_closeCkpt_of_closed w (by simpa using h)]
theorem loadPerforms (hw : s.warp? w.id = some w) (harg : s.arg = .id w.id) (hwin : w.spec.window = .load q pc ls :: rest)
    (hroll : s.rollBlocked w.id = false) :
    ∃ w', exec .loadPerform s = .next ((s.putWarp w').flushTrace w.id) ∧ w'.regs = w.regs ∧ w'.spec.rbAddr = w.spec.rbAddr ∧
      ((∀ a ∈ rest.tail, a.loadLines = []) → w'.spec.ckpt = none ∧ w'.spec.readSet = [] ∧
        w'.spec.window = afterLoad rest ∧
        w'.spec.rbCount = (if w.spec.rbAddr = pc ∨ firstLoadAt w.spec.rbAddr rest = true then 0 else w.spec.rbCount)) ∧
      ((∃ a ∈ rest.tail, a.loadLines ≠ []) → w'.spec.ckpt = w.spec.ckpt ∧ w'.spec.readSet = readLines rest ∧ w'.spec.window = rest ∧
        w'.spec.rbCount = (if w.spec.rbAddr = pc then 0 else w.spec.rbCount)) :=
  ⟨_, exec_loadPerform hw harg hwin hroll, (regs_closeCkpt _).trans (regs_loadDone _ _), (rbAddr_closeCkpt _).trans (by rw [spec_loadLeft]),
    loadPerform_closes, loadPerform_keeps_open⟩
end

/-! ### Rollbacks: a warp but for the counts of its rollbacks (09 R311, R312) -/

/-- A warp without its rollback count and its careful count. -/
def Warp.sansCount (w : Warp) : Warp := { w with spec := { w.spec with rbCount := 0, rbAddr := 0, crfl := 0 } }

theorem sansCount_countRollback (w : Warp) (pc : W64) : (w.countRollback pc).sansCount = w.sansCount := by
  unfold Warp.countRollback
  dsimp only
  split <;> rfl
/-- A count of a core changes no warp but for that. -/
theorem warps_countCore (s : State) (core : Nat) :
    ∃ f : Warp → Warp, (∀ u, (f u).sansCount = u.sansCount) ∧ (s.countCore core).warps = s.warps.map f := by
  have hcore (t : State) (f : Core → Core) : (t.modCore core f).warps = t.warps := warps_of_sansTrace (sansTrace_modCore t core f)
  unfold State.countCore
  dsimp only
  split
  · refine ⟨fun u => if u.core = core then { u with spec := { u.spec with crfl := max u.spec.crfl 512 } } else u, fun u => ?_, ?_⟩
    · dsimp only
      split <;> rfl
    · rw [hcore, hcore]
  · exact ⟨id, fun _ => rfl, by rw [hcore, List.map_id]⟩

section
variable {s : State} {w : Warp} {c : Ckpt} {pc : W64} {line : Loc}

theorem warps_rollWarp (hc : w.spec.ckpt = some c) : ∃ f : Warp → Warp, (∀ u, (f u).sansCount = u.sansCount) ∧
    (s.rollWarp w (some (pc, line))).warps = (s.putWarp ((w.rollTo c).countRollback pc)).warps.map f := by
  obtain ⟨f, hf, hwarps⟩ := warps_countCore (s.putWarp ((w.rollTo c).countRollback pc)) w.core
  refine ⟨f, hf, Eq.trans ?_ hwarps⟩
  simp only [State.rollWarp, hc]
  split
  · exact warps_of_sansTrace (sansTrace_trace _ _ _ _)
  · rfl
theorem exec_rollback {code : Nat} (hw : s.warp? w.id = some w) (harg : s.arg = .two w.id code) (hopen : w.openLoad code = some (pc, line)) :
    exec .rollback s = .next (s.rollWarp w (some (pc, line))) := by
  show execRollback s = _
  unfold execRollback
  simp only [harg, hw, hopen]
theorem lane_rollTo {l : Nat} {x y : Lane} (hx : w.regs.lanes[l]? = some x) (hy : c.regs.lanes[l]? = some y) : (w.rollTo c).lane l =
    { y with skip := x.skip, query := x.query, wait := if y.wait = .stall ∨ y.wait = .limit ∨ y.wait = .check ∨ y.wait = .long then .none else y.wait } := by
  have hlane : (w.rollTo c).lane l = x.rolled y := by
    have hzip : (w.regs.lanes.zip c.regs.lanes)[l]? = some (x, y) := List.getElem?_zip_eq_some.2 ⟨hx, hy⟩
    simp [Warp.lane, Warp.rollTo, hzip]
  rw [hlane]
  simp [Lane.rolled, Lane.stands, or_assoc]
theorem rollsBack {code : Nat} (hw : s.warp? w.id = some w) (harg : s.arg = .two w.id code) (hopen : w.openLoad code = some (pc, line))
    (hc : w.spec.ckpt = some c) :
    ∃ t v, exec .rollback s = .next t ∧ t.warp? w.id = some v ∧ v.sansCount = (w.rollTo c).sansCount ∧
      (∀ u ∈ s.warps, u.id ≠ w.id → ∃ u' ∈ t.warps, u'.sansCount = u.sansCount) ∧ t.launches = s.launches ∧ t.blocks = s.blocks := by
  obtain ⟨f, hf, hwarps⟩ := warps_rollWarp (s := s) (pc := pc) (line := line) hc
  have hid (u : Warp) : (f u).id = u.id := (congrArg Warp.id (hf u) :)
  have hrolled : ((w.rollTo c).countRollback pc).sansCount = (w.rollTo c).sansCount := sansCount_countRollback _ pc
  have hid' : ((w.rollTo c).countRollback pc).id = w.id := (congrArg Warp.id hrolled :)
  have hrest := sansCrew_rollWarp s w (some (pc, line))
  refine ⟨_, f ((w.rollTo c).countRollback pc), exec_rollback hw harg hopen, ?_, (hf _).trans hrolled, fun u hu hne => ⟨f u, ?_, hf u⟩,
    (congrArg State.launches hrest :), (congrArg State.blocks hrest :)⟩
  · rw [State.warp?, hwarps, find?_map_of_keeps Warp.id f _ hid]
    exact congrArg (Option.map f) (warp?_putWarp hid' hw)
  · rw [hwarps]
    exact List.mem_map_of_mem (List.mem_map.2 ⟨u, hu, if_neg (by rwa [hid'])⟩)
end

/-- Settles O34: a load that performs leaves the window and the read set; a rollback puts the checkpoint's registers and staged work in the warp's place. -/
theorem loadsPerformAndRollBack : Obligations.LoadsPerformAndRollBack := by
  unfold Obligations.LoadsPerformAndRollBack
  constructor
  · intro s w q pc ls rest hw harg hwin hroll
    obtain ⟨v, hexec, hregs, haddr, hcloses, hopen⟩ := loadPerforms hw harg hwin hroll
    refine ⟨v, hexec, hregs, haddr, ?_, hopen⟩
    cases rest with
    | nil => exact hcloses
    | cons a rest => cases a <;> exact hcloses
  · intro s w c code pc line hw _ harg hopen hc
    obtain ⟨t, v, hexec, hv, hsame, hothers, hlaunches, hblocks⟩ := rollsBack hw harg hopen hc
    have hregs : v.regs = (w.rollTo c).regs := (congrArg Warp.regs hsame :)
    have hlane (l : Nat) : v.lane l = (w.rollTo c).lane l := (congrArg (Warp.lane · l) hsame :)
    refine ⟨t, v, hexec, hv, hregs ▸ rfl, fun l x y hx hy => (hlane l).trans (lane_rollTo hx hy), (congrArg (·.spec.ckpt) hsame :),
      (congrArg (·.spec.readSet) hsame :), (congrArg Warp.yielded hsame :), (congrArg (·.spec.window) hsame :), (congrArg (·.spec.emits) hsame :), (congrArg (·.spec.cmds) hsame :),
      fun u hu hne => ?_, hlaunches, hblocks⟩
    obtain ⟨u', hu', hkeep⟩ := hothers u hu hne
    exact ⟨u', hu', (congrArg Warp.id hkeep :), (congrArg Warp.regs hkeep :), (congrArg (·.spec.window) hkeep :)⟩
end Sys2Proof.Machine

/-! PROOFS. Stores that perform (family 09_memory_model.md). -/
namespace Sys2Proof.Machine

/-! ### The entries of the first lane (01 R39) -/

section
variable (es : List StoreEff)

theorem firstLane_append : (firstLane es).1 ++ (firstLane es).2 = es := List.takeWhile_append_dropWhile
theorem firstLane_ne_nil (h : es ≠ []) : (firstLane es).1 ≠ [] := by
  obtain ⟨e, es, rfl⟩ := List.exists_cons_of_ne_nil h
  simp [firstLane]
theorem lane_of_mem_firstLane {x : StoreEff} (h : x ∈ (firstLane es).1) : x.lane = es.head?.bind StoreEff.lane :=
  beq_iff_eq.1 (List.mem_takeWhile_imp (p := fun e : StoreEff => e.lane == es.head?.bind StoreEff.lane) h)
theorem lane_ne_of_head?_later {y : StoreEff} (h : (firstLane es).2.head? = some y) : y.lane ≠ es.head?.bind StoreEff.lane := by
  have hdrop := List.head?_dropWhile_not (fun e : StoreEff => e.lane == es.head?.bind StoreEff.lane) es
  simp only [firstLane] at h
  rw [h] at hdrop
  simpa using hdrop
end

/-! ### What an entry that performs leaves of the warps -/

/-- What a store leaves of the warps: their numbers, uniform registers and windows. -/
def State.windows (s : State) : List (Nat × List W64 × List Access) := s.warps.map fun v => (v.id, v.regs.s, v.spec.window)

section
variable (s : State)

theorem windows_of_sansStore {t : State} (h : t.sansStore = s.sansStore) : t.windows = s.windows := (congrArg State.windows h :)
theorem windows_putGranule (id g : Nat) (full : Bool) : (s.putGranule id g full).windows = s.windows := by
  unfold State.putGranule
  split
  · rfl
  · split <;> rfl
theorem windows_wakeGranules : s.wakeGranules.windows = s.windows := by
  simp [State.windows, State.wakeGranules, State.mapWarps, Warp.onLanes]
theorem windows_setGranules (block first count : Nat) (full : Bool) : (s.setGranules block first count full).windows = s.windows := by
  have hfold := foldl_keeps (g := State.windows) (fun t g => windows_putGranule t block g full) s ((List.range count).map (· + first))
  unfold State.setGranules
  extract_lets away t
  have ht : t.windows = s.windows := by
    unfold t
    split
    · exact hfold
    · rfl
  clear_value t
  split
  · exact (windows_wakeGranules t).trans ht
  · exact ht
theorem windows_setGranule (l : Loc) (full : Bool) : (s.setGranule l full).windows = s.windows := by
  cases l with
  | sp b o => exact windows_setGranules s b (o / 16) 1 full
  | pa | acc => rfl
theorem windows_writeSite (core by_ : Option Nat) (l : Loc) (xs : List Byte) (hint : Nat) : (s.writeSite core by_ l xs hint).windows = s.windows :=
  windows_of_sansStore s (sansStore_writeSite s core by_ l xs hint)
theorem windows_performEff (core hint : Nat) (by_ : Option Nat) (e : StoreEff) : (s.performEff core hint by_ e).windows = s.windows := by
  cases e with
  | bytes lane l buf xs => exact windows_writeSite s _ _ l xs hint
  | fill lane l xs => exact (windows_setGranule _ l true).trans (windows_writeSite s _ _ l xs hint)
  | granules b first count full => exact windows_setGranules s b first count full
  | red lane l buf op wide x =>
    simp only [State.performEff]
    split
    · exact windows_writeSite s _ _ l _ hint
    · rfl
end

/-! ### The bytes of a store -/

section
variable {s : State}

theorem readLoc_of_mem_quads {t : State} (hmem : t.mem = s.mem) (hquads : t.quads = s.quads) {l : Loc} (hl : ∀ m k, l ≠ .sp m k) (n : Nat) :
    t.readLoc l n = s.readLoc l n := by
  cases l with
  | sp m k => exact absurd rfl (hl m k)
  | pa a => simp only [State.readLoc, State.readPa, hmem]
  | acc q o => simp only [State.readLoc, hquads]
theorem quads_spWrite (id o : Nat) (xs : List Byte) : (s.spWrite id o xs).quads = s.quads := by
  induction xs generalizing s o with
  | nil => rfl
  | cons x xs ih =>
    refine (ih (s := s.spPut id o x) (o + 1)).trans ?_
    unfold State.spPut
    split <;> rfl
/-- Does no byte of a run of a block's scratchpad lie in its backing area? -/
def State.onFrames (s : State) (id o n : Nat) : Prop := ∀ b, s.anyBlock? id = some b → ∀ k < n, b.areaAt (o + k) = none
theorem spPut_of_onFrames {id o n : Nat} (h : s.onFrames id o (n + 1)) (x : Byte) :
    s.spPut id o x = s.modAnyBlock id fun b => { b with scratch := b.scratch.set o x } := by
  have hnone : (s.anyBlock? id).bind (fun b => b.areaAt o) = none := by
    cases hb : s.anyBlock? id with
    | none => rfl
    | some b => exact h b hb 0 (Nat.succ_pos n)
  simp only [State.spPut, hnone]
theorem onFrames_scratch {id o n : Nat} (h : s.onFrames id o n) (f : Block → Mem) :
    (s.modAnyBlock id fun b => { b with scratch := f b }).onFrames id o n := by
  intro b hb k hk
  rw [anyBlock?_modAnyBlock s (f := fun b => { b with scratch := f b }) fun _ => rfl] at hb
  obtain ⟨b', hb', rfl⟩ := Option.map_eq_some_iff.1 hb
  have harea := h b' hb' k hk
  split <;> exact harea
theorem onFrames_succ {id o n : Nat} (h : s.onFrames id o (n + 1)) : s.onFrames id (o + 1) n := fun b hb k hk => by
  have := h b hb (k + 1) (Nat.succ_lt_succ hk)
  rwa [← Nat.add_assoc, Nat.add_right_comm] at this
theorem mem_spWrite_of_onFrames {id o : Nat} {xs : List Byte} (h : s.onFrames id o xs.length) : (s.spWrite id o xs).mem = s.mem := by
  induction xs generalizing s o with
  | nil => rfl
  | cons x xs ih =>
    have hput := spPut_of_onFrames h x
    refine (ih (s := s.spPut id o x) ?_).trans ?_
    · rw [hput]
      exact onFrames_succ (onFrames_scratch h _)
    · rw [hput]
      rfl
theorem onFrames_of_sansCache {t : State} (h : t.sansCache = s.sansCache) {id o n : Nat} (hs : s.onFrames id o n) : t.onFrames id o n := by
  have hany : t.anyBlock? id = s.anyBlock? id := (congrArg (State.anyBlock? · id) h :)
  unfold State.onFrames
  rw [hany]
  exact hs
/-- A store to a scratchpad page that holds a frame changes no place outside scratchpads. -/
theorem readLoc_writeSite_sp {b o : Nat} {xs : List Byte} (h : s.onFrames b o xs.length) {l : Loc} (hl : ∀ m k, l ≠ .sp m k)
    (core by_ : Option Nat) (hint n : Nat) :
    (s.writeSite core by_ (.sp b o) xs hint).readLoc l n = s.readLoc l n := by
  have hcache : ((s.recallLines (.sp b o) xs.length).cacheStore core hint (.sp b o) xs.length).sansCache = s.sansCache :=
    (sansCache_cacheStore _ _ _ _ _).trans (sansCache_recallLines s _ _)
  show (State.spWrite _ b o xs).readLoc l n = _
  refine readLoc_of_mem_quads ?_ ?_ hl n
  · refine (mem_spWrite_of_onFrames ?_).trans ?_
    · exact (onFrames_of_sansCache hcache h :)
    · exact (mem_of_sansCache hcache :)
  · exact (quads_spWrite b o xs).trans (congrArg State.quads hcache :)
end

/-! ### The oldest store performs -/

section
variable {s : State} {w : Warp} {q hint : Nat} {es : List StoreEff} {rest : List Access}

theorem exec_storePerform (hw : s.warp? w.id = some w) (harg : s.arg = .id w.id) (hwin : w.spec.window = .store q hint es :: rest)
    (hroll : s.rollBlocked w.id = false) (hhost : ∀ x ∈ (firstLane es).1, s.effHostLine x = none)
    (htest : ∀ x ∈ (firstLane es).1, ∀ p, x.span = some p → s.underTest p.1 p.2 = false) :
    exec .storePerform s = .next ((((firstLane es).1.foldl (fun t x => t.performEff w.core hint (some w.id) x) s).modWarp w.id fun v =>
      if (firstLane es).2.isEmpty then v.performed.closeCkpt else v.storeRest (firstLane es).2).flushTrace w.id) := by
  have hnone : (firstLane es).1.findSome? s.effHostLine = none := List.findSome?_eq_none_iff.2 hhost
  have htested : ((firstLane es).1.any fun e => e.span.any fun x => s.underTest x.1 x.2) = false := by
    refine List.any_eq_false.2 fun x hx => ?_
    cases hspan : x.span with
    | none => simp
    | some p => simpa using htest x hx p hspan
  show execStorePerform s = _
  unfold execStorePerform
  simp only [harg, hw, hwin, hnone, hroll, htested]
  rfl
end

/-- Settles O33: the effects of the first lane are made in order, each at its place; what is left of the store, or the rest of the window, stands. -/
theorem storesPerform : Obligations.StoresPerform := by
  unfold Obligations.StoresPerform
  intro s w q hint es rest hw harg hwin hroll now later hhost htest t
  have hexec := exec_storePerform hw harg hwin hroll hhost htest
  refine ⟨⟨firstLane_append es, firstLane_ne_nil es, fun x hx y hy => (lane_of_mem_firstLane es hx).trans (lane_of_mem_firstLane es hy).symm,
      fun x hx y hy => ?_⟩, fun hlast => ?_, fun hmore => ?_, ?_, ?_,
    foldl_keeps (g := State.windows) (fun t e => windows_performEff t w.core hint (some w.id) e) s now, fun u lane pa buf xs => ⟨fun hwf a => ?_, ?_⟩⟩
  · rw [lane_of_mem_firstLane es (List.mem_of_mem_head? hx)]
    exact (lane_ne_of_head?_later es hy).symm
  · rw [hexec, show (firstLane es).2 = [] from hlast]
    rfl
  · have hne : (firstLane es).2.isEmpty = false := by simpa using hmore
    rw [hexec, hne]
    rfl
  · rw [Warp.performed, hwin]
    rfl
  · rw [Warp.storeRest, hwin]
  · rw [show u.performEff w.core hint (some w.id) (.bytes lane (.pa pa) buf xs) = u.writeSite (some w.core) (some w.id) (.pa pa) xs hint from rfl, mem_writeSite_pa]
    exact Mem.get_write hwf pa a xs
  · intro b o l n hl hframe
    exact readLoc_writeSite_sp hframe hl _ _ hint n

end Sys2Proof.Machine

/-! PROOFS. Rollback intervals, long instructions, waits and other register space (family 09_memory_model.md). -/
namespace Sys2Proof.Machine

/-! ### Rollback intervals (09 R312) -/

section
variable {s : State}

theorem core_modCore {c : Nat} {f : Core → Core} (hf : ∀ x : Core, (f x).no = x.no) : (s.modCore c f).core c = f (s.core c) := by
  unfold State.modCore State.core
  cases hfind : s.cores.find? fun x => x.no == c with
  | none =>
    have hany : ¬ (s.cores.any fun x => x.no == c) = true := by
      rw [List.find?_eq_none] at hfind
      simpa using hfind
    have hfresh : ((f (Core.fresh c)).no == c) = true := beq_iff_eq.2 (hf _)
    rw [if_neg hany]
    simp only [List.find?_append, hfind, Option.none_or, List.find?_cons, hfresh, Option.getD_some, Option.getD_none]
  | some x =>
    have hany : (s.cores.any fun x => x.no == c) = true := 
      List.any_eq_true.2 ⟨x, List.mem_of_find?_eq_some hfind, List.find?_some (p := fun x : Core => x.no == c) hfind⟩
    have hat := find?_map_at Core.no f s.cores hf c
    rw [hfind] at hat
    rw [if_pos hany]
    exact congrArg (Option.getD · (Core.fresh c)) hat
theorem leads_rollbackInterval {c : Nat} (harg : s.arg = .id c) (hne : (s.core c).interval ≠ s.clock / 4096) : Leads .rollbackIntervalExpiry s fun t =>
    t.core c = { s.core c with rollbacks := 0, interval := s.clock / 4096 } ∧ t.warps = s.warps ∧ t.mem = s.mem := by
  refine ⟨s.modCore c fun x => { x with rollbacks := 0, interval := s.clock / 4096 }, ?_, core_modCore fun _ => rfl,
    State.modCore_warps .., State.modCore_mem ..⟩
  show execRollbackIntervalExpiry s = _
  unfold execRollbackIntervalExpiry
  rw [harg]
  exact congrArg Host.Outcome.next (if_neg hne)
end

/-! ### Threads that wait look again -/

/-- The threads of a warp that wait in a way look again. -/
def Warp.released (w : Warp) (x : Wait) : Warp := w.onLanes (fun t => t.wait == x) fun t => { t with wait := .none }

theorem mem_live_iff {w : Warp} {l : Nat} : l ∈ w.live ↔ (w.lane l).populated = true ∧ (w.lane l).exited = false := by
  have hlt (h : (w.lane l).populated = true) : l < w.width := by
    by_contra hge
    have hnone : w.lane l = Lane.none := List.getD_eq_default _ _ (Nat.le_of_not_lt hge)
    rw [hnone] at h
    exact absurd h (by decide)
  simp only [Warp.live, List.mem_filter, List.mem_range, Bool.and_eq_true, Bool.not_eq_true']
  exact ⟨And.right, fun h => ⟨hlt h.1, h⟩⟩
theorem lane_released (w : Warp) (x : Wait) (l : Nat) :
    (w.released x).lane l = if l ∈ w.live ∧ (w.lane l).wait = x then { w.lane l with wait := .none } else w.lane l := by
  unfold Warp.released
  rw [lane_onLanes_eq]
  simp only [mem_live_iff, Bool.and_eq_true, Bool.not_eq_true', beq_iff_eq]

/-! ### Long instructions (03 R86, R89) -/

section
variable {s : State} {w : Warp} {o : LongOp}

theorem leads_longCompletes (harg : s.arg = .two w.id o.id) (hw : s.warp? w.id = some w)
    (ho : (w.longs.find? fun x => x.id == o.id && x.parts == 0 && !x.done) = some o) (hbad : o.bad = none) : Leads .longInstructionComplete s fun t =>
    ∃ v, t = s.putWarp v ∧ v.longs = w.longs.map (fun x => if x.id = o.id then { x with done := true } else x) ∧
      ∀ l, v.lane l = if l ∈ w.live ∧ (w.lane l).wait = .long then { w.lane l with wait := .none } else w.lane l := by
  refine ⟨_, ?_, ({ w with longs := w.longs.map fun x => if x.id = o.id then { x with done := true } else x } : Warp).released .long, rfl, rfl,
    lane_released _ _⟩
  obtain ⟨id, addr, left, parts, done, dests, writes, shared, bad⟩ := o
  subst hbad
  show execLongInstructionComplete s = _
  unfold execLongInstructionComplete
  simp only [harg, hw, ho]
  rfl
theorem exec_longBad {lane : Nat} {va : W64} {r : Nat} (harg : s.arg = .two w.id o.id) (hw : s.warp? w.id = some w)
    (ho : (w.longs.find? fun x => x.id == o.id && x.parts == 0 && !x.done) = some o) (hbad : o.bad = some (lane, va, r)) (hset : w.settled = true)
    (hfatal : w.fatal = none) (hback : ∀ b ∈ w.backoff, b.pc = Pc.ofAddr o.addr → b.retryAt ≤ s.clock) :
    exec .longInstructionComplete s = .next (if w.permit || s.permitFree w.core then s.putWarp { w with
        permit := true, backoff := w.backoff.filter (fun b => b.pc != Pc.ofAddr o.addr)
        fatal := some ⟨0xF, r, lane, true, o.addr, va, 0, false, s.clock, none⟩ }
      else s.putWarp (w.backOff s.clock (.ofAddr o.addr))) := by
  obtain ⟨id, addr, left, parts, done, dests, writes, shared, bad⟩ := o
  subst hbad
  have hgo : (!w.settled || w.fatal.isSome || w.backoff.any fun b => b.pc == Pc.ofAddr addr && decide (s.clock < b.retryAt)) = false := by
    simp only [hset, hfatal, Bool.not_true, Option.isSome_none, Bool.false_or, List.any_eq_false, Bool.and_eq_true,
      beq_iff_eq, decide_eq_true_eq, not_and, Nat.not_lt]
    exact hback
  show execLongInstructionComplete s = _
  unfold execLongInstructionComplete
  simp only [harg, hw, ho, hgo]
  rfl
end

/-! ### Turns, waits, queued blocks and other register space (05 R166, 06 R228, 10 R448) -/

section
variable {s : State} {w : Warp}

theorem exec_yieldTimeout (harg : s.arg = .id w.id) (hw : s.warp? w.id = some w) {till : Nat} (hy : w.yielded = some till) (h : till ≤ s.cycles) :
    exec .yieldTimeout s = .next (s.modWarp w.id fun v => { v with yielded := none }) := by
  show execYieldTimeout s = _
  unfold execYieldTimeout
  simp only [harg, hw, hy]
  exact congrArg Host.Outcome.next (if_pos (decide_eq_true h))
theorem leads_ctabWaitTimeout (harg : s.arg = .id w.id) (hw : s.warp? w.id = some w) {since : Nat} (hc : w.ctabSince = some since) (h : since + 65536 ≤ s.clock) :
    Leads .ctabWaitTimeout s fun t => ∃ v, t = s.putWarp v ∧ v.ctabSince = some since ∧
      ∀ l, v.lane l = if l ∈ w.live ∧ (w.lane l).wait = .stall then { w.lane l with wait := .none } else w.lane l := by
  refine ⟨_, ?_, w.released .stall, rfl, hc, lane_released w .stall⟩
  show execCtabWaitTimeout s = _
  unfold execCtabWaitTimeout
  simp only [harg, hw, hc]
  exact congrArg Host.Outcome.next (if_pos (decide_eq_true h))
theorem exec_queuedBlockSent {port : Nat} {q : Nat × Nat × Nat} (harg : s.arg = .id port) (hq : (s.codec.queued.find? fun x => x.1 == port) = some q) :
    exec .queuedBlockSent s = .next { s with codec := { s.codec with queued := s.codec.queued.erase q } } := by
  show execQueuedBlockSent s = _
  unfold execQueuedBlockSent
  simp only [harg, hq]
theorem exec_registerSpaceOther {off : Nat} {x : IoAccess} (harg : s.arg = .io off x) (hreg : ¬(Config.regBase ≤ off ∧ off < Config.regBase + 4))
    (htel : ¬(Config.telemetryBase ≤ off ∧ off < Config.telemetryBase + 0x10000)) :
    ((∃ bs, x = .store bs) → exec .registerSpaceOther s = .next s) ∧
      ((¬∃ bs, x = .store bs) → exec .registerSpaceOther s = .next { s with ioResult := 0 }) := by
  have hnot : (decide (Config.regBase ≤ off ∧ off < Config.regBase + 4) ||
      decide (Config.telemetryBase ≤ off ∧ off < Config.telemetryBase + 0x10000)) = false := by
    rw [decide_eq_false hreg, decide_eq_false htel, Bool.or_self]
  show (_ → execRegisterSpaceOther s = _) ∧ (_ → execRegisterSpaceOther s = _)
  unfold execRegisterSpaceOther
  simp only [harg, hnot]
  cases x with
  | store bs => exact ⟨fun _ => rfl, fun h => absurd ⟨bs, rfl⟩ h⟩
  | load | atomic => exact ⟨(by rintro ⟨_, ⟨⟩⟩), fun _ => rfl⟩
end

end Sys2Proof.Machine

/-! PROOFS. The release of staged operations (family 09_memory_model.md). -/
namespace Sys2Proof.Machine

/-! ### Staged operations (01 R32) -/

section
variable (s : State)

theorem sansService_putGranule (id g : Nat) (full : Bool) : (s.putGranule id g full).sansService = s.sansService := by
  unfold State.putGranule
  split
  · rfl
  · split <;> rfl
theorem sansService_setGranules_empty (block first count : Nat) : (s.setGranules block first count false).sansService = s.sansService := by
  have hfold := foldl_keeps (g := State.sansService) (fun t g => sansService_putGranule t block g false) s ((List.range count).map (· + first))
  unfold State.setGranules
  extract_lets away t
  have ht : t.sansService = s.sansService := by
    unfold t
    split
    · exact hfold
    · rfl
  exact ht
theorem sansService_emptyRun (w : Who) (r : W64 × Nat) : (s.emptyRun w r).sansService = s.sansService := by
  unfold State.emptyRun
  split
  · rfl
  · split
    · exact sansService_setGranules_empty s _ _ _
    · rfl
theorem sansService_emptyElems (w : Who) (c : EngCmd) (es : List (W64 × W64)) : (s.emptyElems w c es).sansService = s.sansService := by
  unfold State.emptyElems
  split
  · exact foldl_keeps (g := State.sansService) (fun s e => sansService_emptyRun s w _) s es
  · rfl
theorem sansService_readList {w : Who} {c : EngCmd} {t : State} {es : List (W64 × W64)} (h : s.readList w c = .ok t es) : t.sansService = s.sansService := by
  unfold State.readList at h
  split at h
  · cases h
  · split at h
    · cases h
    · cases h
      exact sansService_useReads s _ _
/-- A sent engine command stands last in the engines' list, a scatter's with its elements; before that nothing but translations, blocks and granules has changed. -/
theorem sendCmd_engine (c : EngCmd) : ∃ (u : State) (y : EngCmd),
    s.sendCmd (.engine c) = u.putCmd y ∧ u.sansService = s.sansService ∧ { y with list := c.list } = c ∧ (c.op ≠ .scatter → y = c) := by
  have hempty (w : Who) (r : W64 × Nat) : (if c.dm = 2 then s.emptyRun w r else s).sansService = s.sansService := by
    split
    · exact sansService_emptyRun s w r
    · rfl
  unfold State.sendCmd
  dsimp only
  split
  · exact ⟨s, c, rfl, rfl, rfl, fun _ => rfl⟩
  · split
    · rename_i hop
      split
      · rename_i t es hlist
        exact ⟨t.emptyElems (c.who _) c es, { c with list := some es }, rfl,
          (sansService_emptyElems t _ c es).trans (sansService_readList s hlist), rfl, fun hne => absurd hop hne⟩
      · exact ⟨s, c, rfl, rfl, rfl, fun _ => rfl⟩
    · exact ⟨_, c, rfl, hempty _ _, rfl, fun _ => rfl⟩
    · exact ⟨_, c, rfl, hempty _ _, rfl, fun _ => rfl⟩
theorem warps_sendCmd (c : Cmd) : (s.sendCmd c).warps = s.warps := by
  cases c with
  | engine c =>
    obtain ⟨u, y, hsend, hu, -⟩ := sendCmd_engine s c
    rw [hsend]
    exact (congrArg State.warps hu :)
  | ray | nnev => rfl
theorem sansTrace_traces (core : Nat) (tenant : BitVec 16) (rs : List TraceRec) : (rs.foldl (fun s r => s.trace core tenant r) s).sansTrace = s.sansTrace :=
  foldl_keeps (fun t r => sansTrace_trace t core tenant r) s rs
theorem sansCrew_flushTrace (id : Nat) : (s.flushTrace id).sansCrew = s.sansCrew := by
  unfold State.flushTrace
  split
  · rfl
  · split
    · rfl
    · split
      · exact (sansCrew_withWarps _ _).trans (sansCrew_of_sansTrace (sansTrace_traces s _ _ _))
      · rfl
/-- Held trace records that are written leave what the warp has staged. -/
theorem spec_flushTrace {id : Nat} {w : Warp} (hw : s.warp? id = some w) : ∃ v, (s.flushTrace id).warp? id = some v ∧ v.spec = w.spec := by
  simp only [State.flushTrace, hw]
  split
  · exact ⟨w, hw, rfl⟩
  · split
    · refine ⟨{ w with heldTrace := [] }, ?_, rfl⟩
      rw [warp?_modWarp _ _ (f := fun w => { w with heldTrace := [] }) (fun _ => rfl), warp?_of_sansTrace (sansTrace_traces s _ _ _), hw]
      rfl
    · exact ⟨w, hw, rfl⟩
end

section
variable {s : State} {w : Warp} {b : Block} {os : List Bool}

theorem sends_of_maySend (h : w.maySend = true) : s.sends w = true := by rw [State.sends, h, Bool.true_or]

theorem leads_recordReleased (harg : s.arg = .id w.id) (hw : s.warp? w.id = some w) (hb : s.block? w.block = some b) (hsend : w.maySend = true) {r : EmitRec}
    {rs : List EmitRec} (horder : w.spec.order = true :: os) (hemits : w.spec.emits = r :: rs) {l : Launch} (hl : s.launch? b.launch = some l) :
    Leads .stagedRelease s fun t =>
      (∃ v, t.warp? w.id = some v ∧ v.spec.order = os ∧ v.spec.emits = rs ∧ v.spec.cmds = w.spec.cmds ∧ v.spec.sending = w.spec.sending + 1) ∧
      t.launch? l.id = some { l with senders := l.senders ++ [⟨some w.id, none, r, s.clock, none⟩] } := by
  let f (w : Warp) : Warp := { w with spec := { w.spec with order := os, emits := rs } }
  let g (w : Warp) : Warp := { w with spec := { w.spec with sending := w.spec.sending + 1 } }
  let waits (l : Launch) : Launch := { l with senders := l.senders ++ [⟨some w.id, none, r, s.clock, none⟩] }
  let u := ((s.modWarp w.id f).modLaunch b.launch waits).modWarp w.id g
  have hexec : exec .stagedRelease s = .next (u.flushTrace w.id) := by
    show execStagedRelease s = _
    unfold execStagedRelease
    simp only [harg, hw, sends_of_maySend hsend, horder, hemits, hb]
    rfl
  have hu : u.warp? w.id = some (g (f w)) := by
    have hf : (s.modWarp w.id f).warp? w.id = some (f w) := (warp?_modWarp s w.id (f := f) fun _ => rfl).trans (congrArg (Option.map f) hw)
    exact (warp?_modWarp _ w.id (f := g) fun _ => rfl).trans (congrArg (Option.map g) hf)
  have hlaunch : (u.flushTrace w.id).launch? l.id = u.launch? l.id := (congrArg (State.launch? · l.id) (sansCrew_flushTrace u w.id) :)
  obtain ⟨v, hv, hspec⟩ := spec_flushTrace u hu
  refine ⟨_, hexec, ⟨v, hv, by rw [hspec], by rw [hspec], by rw [hspec], by rw [hspec]⟩, hlaunch.trans ?_⟩
  have hthere : (s.modWarp w.id f).launch? b.launch = some l := hl
  exact (congrArg u.launch? (State.id_of_launch? hl)).trans
    ((launch?_modLaunch (s.modWarp w.id f) b.launch (f := waits) fun _ => rfl).trans (congrArg (Option.map waits) hthere))
/-- The state whose oldest staged command is out of the warp's list. -/
def State.unstaged (s : State) (id : Nat) (os : List Bool) (cs : List Cmd) : State :=
  s.modWarp id fun w => { w with spec := { w.spec with order := os, cmds := cs } }
theorem exec_commandReleased (harg : s.arg = .id w.id) (hw : s.warp? w.id = some w) (hb : s.block? w.block = some b) (hsend : w.maySend = true) {c : Cmd}
    {cs : List Cmd} (horder : w.spec.order = false :: os) (hcmds : w.spec.cmds = c :: cs) :
    exec .stagedRelease s = .next ((s.sendWait c).getD (((s.unstaged w.id os cs).sendCmd c).flushTrace w.id)) := by
  show execStagedRelease s = _
  unfold execStagedRelease
  simp only [harg, hw, sends_of_maySend hsend, horder, hcmds, hb]
  cases s.sendWait c with
  | none => rfl
  | some u => rfl
theorem leads_commandReleased (harg : s.arg = .id w.id) (hw : s.warp? w.id = some w) (hb : s.block? w.block = some b) (hsend : w.maySend = true) {c : Cmd}
    {cs : List Cmd} (horder : w.spec.order = false :: os) (hcmds : w.spec.cmds = c :: cs) (hwait : s.sendWait c = none) : Leads .stagedRelease s fun t =>
      (∃ v, t.warp? w.id = some v ∧ v.spec.order = os ∧ v.spec.cmds = cs ∧ v.spec.emits = w.spec.emits) ∧
      (∀ x, c = .engine x → ∃ y, t.engines = s.engines ++ [{ y with sentAt := s.clock }] ∧ { y with list := x.list } = x ∧ (x.op ≠ .scatter → y = x)) ∧
      (∀ rs, c = .ray rs → t.rays = s.rays ++ rs) ∧ ∀ r, c = .nnev r → t.quads.nnReqs = s.quads.nnReqs ++ [r] := by
  let u := (s.unstaged w.id os cs).sendCmd c
  have hexec : exec .stagedRelease s = .next (u.flushTrace w.id) := by rw [exec_commandReleased harg hw hb hsend horder hcmds, hwait, Option.getD_none]
  have hu : u.warp? w.id = some { w with spec := { w.spec with order := os, cmds := cs } } := by
    rw [State.warp?, warps_sendCmd]
    refine (warp?_modWarp s w.id (f := fun w => { w with spec := { w.spec with order := os, cmds := cs } }) fun _ => rfl).trans ?_
    rw [hw]
    rfl
  have hrest := sansCrew_flushTrace u w.id
  obtain ⟨v, hv, hspec⟩ := spec_flushTrace u hu
  refine ⟨_, hexec, ⟨v, hv, by rw [hspec], by rw [hspec], by rw [hspec]⟩, fun x hx => ?_, fun rs hx => ?_, fun r hx => ?_⟩
  · obtain ⟨z, y, hput, hz, hlist, hop⟩ := sendCmd_engine (s.unstaged w.id os cs) x
    have hengines : u.engines = z.engines ++ [{ y with sentAt := z.clock }] := by
      unfold u
      rw [hx, hput]
      rfl
    have hz₁ : z.engines = s.engines := (congrArg State.engines hz :)
    have hz₂ : z.clock = s.clock := (congrArg State.clock hz :)
    rw [hz₁, hz₂] at hengines
    exact ⟨y, (congrArg State.engines hrest :).trans hengines, hlist, hop⟩
  · subst hx
    exact (congrArg State.rays hrest :)
  · subst hx
    exact (congrArg (·.quads.nnReqs) hrest :)
end

end Sys2Proof.Machine

/-! PROOFS. Scratchpad pages, and the events of a core (family 09_memory_model.md). -/
namespace Sys2Proof.Machine

/-! ### Bytes and bits of a page (10 R325) -/

theorem Mem.getD_read (m : Mem) (a : Nat) {n k : Nat} (h : k < n) : (m.read a n).getD k 0 = m.get (a + k) := by
  simp [Mem.read, h]
theorem Mem.length_read (m : Mem) (a n : Nat) : (m.read a n).length = n := by simp [Mem.read]
theorem Mem.read_add (m : Mem) (a n k : Nat) : m.read a (n + k) = m.read a n ++ m.read (a + n) k := by
  simp [Mem.read, List.range_add, Function.comp_def, Nat.add_assoc]
/-- Runs read one after another are one run. -/
theorem Mem.flatten_reads (m : Mem) (a n k : Nat) : ((List.range k).map fun i => m.read (a + n * i) n).flatten = m.read a (n * k) := by
  induction k with
  | zero => simp [Mem.read]
  | succ k ih => simp [List.range_succ, ih, Nat.mul_succ, Mem.read_add]
theorem testBit_boolBits (bs : List Bool) (i : Nat) : (Block.bitBytes.boolBits bs).testBit i = bs.getD i false := by
  induction bs generalizing i with
  | nil => simp [Block.bitBytes.boolBits]
  | cons b bs ih =>
    cases i with
    | zero => cases b <;> simp [Block.bitBytes.boolBits, Nat.testBit_zero]
    | succ i =>
      have hdiv : (b.toNat + 2 * Block.bitBytes.boolBits bs) / 2 = Block.bitBytes.boolBits bs := by
        have := b.toNat_lt
        omega
      rw [Block.bitBytes.boolBits, Nat.testBit_succ, hdiv, ih, List.getD_cons_succ]
theorem length_bitBytes (b : Block) (page : Nat) : (b.bitBytes page).length = 32 := by simp [Block.bitBytes]
/-- The bit of a granule among those of its page. -/
theorem getLsbD_bitBytes (b : Block) {page g : Nat} (h : g / 256 = page) : ((b.bitBytes page).getD (g % 256 / 8) 0).getLsbD (g % 8) = !b.feEmpty.contains g := by
  have hj : g % 256 / 8 < 32 := by omega
  have hi : g % 8 < 8 := Nat.mod_lt _ (by decide)
  have hg : 256 * page + 8 * (g % 256 / 8) + g % 8 = g := by omega
  simp only [Block.bitBytes, List.getD_eq_getElem?_getD, List.getElem?_map, List.getElem?_range hj, Option.map_some, Option.getD_some,
    BitVec.getLsbD_ofNat, hi, decide_true, Bool.true_and, testBit_boolBits, List.getElem?_range hi, hg]
theorem mem_emptyOf {page g : Nat} {bs : List Byte} : g ∈ emptyOf page bs ↔ g / 256 = page ∧ (bs.getD (g % 256 / 8) 0).getLsbD (g % 8) = false := by
  simp only [emptyOf, List.mem_map, List.mem_filter, List.mem_range, Bool.not_eq_true']
  constructor
  · rintro ⟨i, ⟨hi, hbit⟩, rfl⟩
    have hmod : (i + 256 * page) % 256 = i := by omega
    have hlow : (i + 256 * page) % 8 = i % 8 := by omega
    rw [hmod, hlow]
    exact ⟨by omega, hbit⟩
  · rintro ⟨hpage, hbit⟩
    have hlow : g % 256 % 8 = g % 8 := by omega
    exact ⟨g % 256, ⟨Nat.mod_lt _ (by decide), hlow.symm ▸ hbit⟩, by omega⟩
theorem mem_insertNat_iff {x y : Nat} {xs : List Nat} : x ∈ insertNat y xs ↔ x = y ∨ x ∈ xs := by
  induction xs with
  | nil => simp [insertNat]
  | cons z zs ih =>
    unfold insertNat
    split
    · exact List.mem_cons
    · rw [List.mem_cons, ih, List.mem_cons, or_left_comm]
theorem mem_sortNat_iff {x : Nat} {xs : List Nat} : x ∈ sortNat xs ↔ x ∈ xs := by
  induction xs with
  | nil => exact Iff.rfl
  | cons y ys ih => exact mem_insertNat_iff.trans ((or_congr_right ih).trans List.mem_cons.symm)

/-! ### Where the bytes of a block's scratchpad lie (10 R326, R328) -/

/-- Does a page of a block lie in its backing area? -/
def Block.inArea (b : Block) (n : Nat) : Bool := (b.page? n).any fun p => p.frame.isNone || p.filling
/-- A block with a page changed. -/
def Block.onPage (b : Block) (page : Nat) (f : Page → Page) : Block := { b with pages := b.pages.map fun p => if p.no = page then f p else p }

section
variable {s t : State} {b b' : Block} {a page n : Nat} {p : Page} {f : Page → Page}

theorem areaAt_eq (b : Block) (o : Nat) : b.areaAt o = if b.inArea (o / 4096) then b.backing.map (· + o) else none := by
  unfold Block.areaAt Block.inArea
  cases b.page? (o / 4096) with
  | none => simp
  | some p => cases b.backing <;> simp
theorem spByte_eq (ha : b.backing = some a) (o : Nat) : s.spByte b o = if b.inArea (o / 4096) then s.mem.get (a + o) else b.scratch.get o := by
  unfold State.spByte
  rw [areaAt_eq, ha]
  cases b.inArea (o / 4096) <;> rfl
theorem granuleFull_eq (ha : b.backing = some a) (g : Nat) : s.granuleFull b g =
    if b.inArea (g / 256) then (s.mem.get (areaBits a (g / 256) + g % 256 / 8)).getLsbD (g % 8) else !b.feEmpty.contains g := by
  have hpage : 16 * g / 4096 = g / 256 := by omega
  unfold State.granuleFull
  rw [areaAt_eq, hpage, ha]
  cases b.inArea (g / 256) <;> rfl
/-- Blocks alike but for pages that lie in the area or out of it alike hold the same scratchpad. -/
theorem sameScratch_of_inArea (hmem : t.mem = s.mem) (hback : b'.backing = b.backing) (hscr : b'.scratch = b.scratch) (hfe : b'.feEmpty = b.feEmpty)
    (harea : ∀ n, b'.inArea n = b.inArea n) : SameScratch s t b b' := by
  have hat (o : Nat) : b'.areaAt o = b.areaAt o := by rw [areaAt_eq, areaAt_eq, harea, hback]
  intro _ _
  exact ⟨fun o _ => by simp only [State.spByte, hat, hmem, hscr], fun g _ => by simp only [State.granuleFull, hat, hmem, hback, hfe]⟩
theorem no_of_page? (h : b.page? n = some p) : p.no = n := key_of_find? Page.no h
theorem mem_pages_of_page? (h : b.page? n = some p) : p ∈ b.pages := List.mem_of_find?_eq_some h
theorem page?_onPage (hf : ∀ p : Page, (f p).no = p.no) : (b.onPage page f).page? page = (b.page? page).map f := find?_map_at Page.no f b.pages hf page
theorem page?_onPage_of_ne (hf : ∀ p : Page, (f p).no = p.no) (h : n ≠ page) : (b.onPage page f).page? n = b.page? n := by
  refine (find?_map_of_keeps Page.no (fun p => if p.no = page then f p else p) b.pages (fun p => by split <;> simp only [hf]) n).trans ?_
  cases hp : b.page? n with
  | none => exact congrArg _ hp
  | some p => exact (congrArg _ hp).trans (congrArg some (if_neg (by rwa [no_of_page? hp])))
theorem inArea_onPage_of_ne (hf : ∀ p : Page, (f p).no = p.no) (h : n ≠ page) : (b.onPage page f).inArea n = b.inArea n := by
  rw [Block.inArea, page?_onPage_of_ne hf h, Block.inArea]
theorem inArea_onPage (hf : ∀ p : Page, (f p).no = p.no) (hp : b.page? page = some p) : (b.onPage page f).inArea page = ((f p).frame.isNone || (f p).filling) := by
  rw [Block.inArea, page?_onPage hf, hp]
  rfl
theorem mem_modAnyBlock (s : State) (id : Nat) (f : Block → Block) : (s.modAnyBlock id f).mem = s.mem := rfl
theorem mem_modPage (s : State) (id page : Nat) (f : Page → Page) : (s.modPage id page f).mem = s.mem := rfl
theorem block?_modAnyBlock {f : Block → Block} {id : Nat} (hf : ∀ b, (f b).id = b.id) (hb : s.block? id = some b) :
    (s.modAnyBlock id f).block? id = some (f b) :=
  (find?_map_at Block.id f s.blocks hf id).trans (congrArg (Option.map f) hb)
end

/-! ### A page is pinned (10 R326, R327) -/

/-- A page that takes a frame and waits for its fill. -/
def Page.filled (p : Page) (frame clock : Nat) : Page := { p with frame := some frame, filling := true, lastUse := clock }

section
variable {s : State} {b : Block} {page frame : Nat}

theorem page?_eq_none (h : ¬∃ p ∈ b.pages, p.no = page) : b.page? page = none :=
  List.find?_eq_none.2 fun p hp => by simpa using fun hno => h ⟨p, hp, hno⟩
theorem page?_isSome (h : ∃ p ∈ b.pages, p.no = page) : ∃ p, b.page? page = some p := by
  obtain ⟨p, hp, hno⟩ := h
  exact Option.isSome_iff_exists.1 (List.find?_isSome.2 ⟨p, hp, by simpa using hno⟩)
/-- A page that has been pinned before takes the frame, its bytes in the area till they are fetched. -/
theorem pinIn_of_pinned (hb : s.block? b.id = some b) (hfree : ∀ p ∈ b.pages, p.no = page → p.frame = none) (hin : ∃ p ∈ b.pages, p.no = page) :
    ∃ u b', s.pinIn b page frame = u ∧ u.block? b.id = some b' ∧
      (∃ p ∈ b'.pages, p.no = page ∧ p.frame = some frame ∧ p.filling = true) ∧ SameScratch s u b b' := by
  have hany : (b.pages.any fun p => p.no == page) = true := by simpa using hin
  obtain ⟨p, hp⟩ := page?_isSome hin
  have hno : p.no = page := no_of_page? hp
  let f (q : Page) : Page := q.filled frame s.clock
  have hf (q : Page) : (f q).no = q.no := rfl
  have hpinned : (b.onPage page f).page? page = some (f p) := (page?_onPage hf).trans (congrArg _ hp)
  refine ⟨_, b.onPage page f, if_pos hany, block?_modAnyBlock (f := fun b => b.onPage page f) (fun _ => rfl) hb,
    ⟨f p, mem_pages_of_page? hpinned, hno, rfl, rfl⟩, sameScratch_of_inArea rfl rfl rfl rfl fun n => ?_⟩
  by_cases hn : n = page
  · subst hn
    rw [inArea_onPage hf hp, Block.inArea, hp]
    simp [f, Page.filled, hfree p (mem_pages_of_page? hp) hno]
  · exact inArea_onPage_of_ne hf hn
/-- A page pinned for the first time takes the frame, its bytes in the block as before. -/
theorem pinIn_of_new (hb : s.block? b.id = some b) (hout : ¬∃ p ∈ b.pages, p.no = page) :
    ∃ u b', s.pinIn b page frame = State.retryHandlers u ∧ u.block? b.id = some b' ∧
      (∃ p ∈ b'.pages, p.no = page ∧ p.frame = some frame ∧ p.filling = false) ∧ SameScratch s u b b' := by
  have hany : ¬ (b.pages.any fun p => p.no == page) = true := by simpa using hout
  let new : Page := ⟨page, some frame, false, s.clock, none⟩
  let f (x : Block) : Block := { x with pages := x.pages ++ [new] }
  refine ⟨s.modBlock b.id f, f b, if_neg hany, (block?_modBlock s b.id (f := f) fun _ => rfl).trans (congrArg (Option.map f) hb),
    ⟨new, List.mem_append_right _ List.mem_cons_self, rfl, rfl, rfl⟩, sameScratch_of_inArea rfl rfl rfl rfl fun n => ?_⟩
  have hpage : (f b).page? n = (b.page? n).or (if page = n then some new else none) := by
    simp [Block.page?, f, List.find?_append, List.find?_cons, new]
    split <;> simp_all
  rw [Block.inArea, hpage, Block.inArea]
  by_cases hn : page = n
  · subst hn
    rw [page?_eq_none hout, if_pos rfl]
    rfl
  · rw [if_neg hn, Option.or_none]
theorem any_frame_eq_false (hout : ∀ p ∈ b.pages, p.no = page → p.frame = none ∧ p.bad = none) :
    (b.pages.any fun p => p.no == page && (p.frame.isSome || p.bad.isSome)) = false := by
  refine List.any_eq_false.2 fun p hp => ?_
  by_cases hno : p.no = page
  · simp [hout p hp hno]
  · simp [hno]
theorem exec_scratchpadPin (harg : s.arg = .two b.id page) (hb : s.block? b.id = some b)
    (hout : ∀ p ∈ b.pages, p.no = page → p.frame = none ∧ p.bad = none) {f : Nat}
    (hf : s.pickFree 2000 64 ((s.framed b.core).filterMap fun x => x.2.frame) = some f) : exec .scratchpadPin s = .next (s.pinIn b page f) := by
  show execScratchpadPin s = _
  unfold execScratchpadPin
  simp only [harg, hb, any_frame_eq_false hout, coreFrames, hf]
  rfl
theorem exec_scratchpadPin_full (harg : s.arg = .two b.id page) (hb : s.block? b.id = some b)
    (hout : ∀ p ∈ b.pages, p.no = page → p.frame = none ∧ p.bad = none)
    {u : Block} {p : Page} (hf : s.pickFree 2000 64 ((s.framed b.core).filterMap fun x => x.2.frame) = none)
    (hold : minBy (fun x : Block × Page => x.2.lastUse)
      ((s.framed b.core).filter fun x : Block × Page => !x.2.filling && !s.pageLocked x.1.id x.2.no) = some (u, p)) :
    exec .scratchpadPin s = .next { s with agenda := s.agenda ++ [(.scratchpadUnpin, .two u.id p.no), (.scratchpadPin, .two b.id page)] } := by
  show execScratchpadPin s = _
  unfold execScratchpadPin
  simp only [harg, hb, any_frame_eq_false hout, coreFrames, hf, hold, State.propose, List.append_assoc]
  rfl
end

/-! ### A fill ends (10 R326, R329) -/

/-- A block with the data and the empty granules of a page taken from its area. -/
def Block.filledFrom (b : Block) (page : Nat) (xs : List Byte) (es : List Nat) : Block :=
  { b with scratch := (b.scratch.clear (4096 * page) 4096).write (4096 * page) xs, feEmpty := sortNat (b.feEmpty ++ es) }
theorem page?_filledFrom (b : Block) (page : Nat) (xs : List Byte) (es : List Nat) (n : Nat) : (b.filledFrom page xs es).page? n = b.page? n := rfl
theorem inArea_filledFrom (b : Block) (page : Nat) (xs : List Byte) (es : List Nat) (n : Nat) : (b.filledFrom page xs es).inArea n = b.inArea n := rfl
/-- A page whose fill has ended. -/
def Page.full (p : Page) : Page := { p with filling := false }
/-- A page whose fill met an error. -/
def Page.spoiled (p : Page) (bad : Option Byte) : Page := { p with filling := false, frame := none, bad := bad }

section
variable {s : State} {b : Block} {p : Page} {a : Nat}

theorem exec_scratchpadFillDone (hb : s.block? b.id = some b) (hp : b.page? p.no = some p)
    (harg : s.arg = .badPage b.id p.no (s.fillError b p.no)) (hfill : p.filling = true) :
    exec .scratchpadFillDone s = .next (if (s.fillError b p.no).isSome then s.modPage b.id p.no fun q => q.spoiled (s.fillError b p.no)
      else (s.fillPage b p.no).modPage b.id p.no Page.full).retryHandlers := by
  have hany : (b.pages.any fun q => q.no == p.no && q.filling) = true := List.any_eq_true.2 ⟨p, mem_pages_of_page? hp, by simp [hfill]⟩
  show execScratchpadFillDone s = _
  unfold execScratchpadFillDone
  simp only [harg, hb, hany, beq_self_eq_true]
  rfl
/-- A fill takes the bytes and the empty granules that the page's area holds. -/
theorem fillPage_eq (ha : b.backing = some a) (page : Nat) : ∃ (t : State) (xs : List Byte) (es : List Nat), t.sansCache = s.sansCache ∧
    s.fillPage b page = (t.modAnyBlock b.id fun b => b.filledFrom page xs es) ∧ xs.length = 4096 ∧ (∀ k < 4096, xs.getD k 0 = s.mem.get (a + 4096 * page + k)) ∧
    ∀ g, g ∈ es ↔ g / 256 = page ∧ (s.mem.get (areaBits a page + g % 256 / 8)).getLsbD (g % 8) = false := by
  have hload : ((s.homeLoad 0 (pageSites a page).1 4096).homeLoad 0 (pageSites a page).2 32).sansCache = s.sansCache :=
    (sansCache_homeLoad _ 0 _ 32).trans (sansCache_homeLoad s 0 _ 4096)
  refine ⟨_, s.mem.read (a + 4096 * page) 4096, emptyOf page (s.mem.read (areaBits a page) 32), hload, ?_,
    Mem.length_read _ _ _, fun k hk => Mem.getD_read _ _ hk, fun g => ?_⟩
  · unfold State.fillPage
    rw [ha, ← mem_of_sansCache hload]
    rfl
  · rw [mem_emptyOf, Mem.getD_read _ _ (by omega)]
theorem get_scratch_filledFrom (hscr : b.scratch.wf = true) {page : Nat} {xs : List Byte} (es : List Nat) (hlen : xs.length = 4096) (o : Nat) :
    (b.filledFrom page xs es).scratch.get o = if o / 4096 = page then xs.getD (o - 4096 * page) 0 else b.scratch.get o := by
  have hget := Mem.get_write (Mem.clear_wf (4096 * page) 4096 hscr) (4096 * page) o xs
  rw [Mem.get_clear, hlen] at hget
  refine hget.trans ?_
  by_cases ho : o / 4096 = page
  · rw [if_pos (by omega), if_pos ho]
  · rw [if_neg (by omega), if_neg (by omega), if_neg ho]
theorem contains_feEmpty_filledFrom (page : Nat) (xs : List Byte) (es : List Nat) (g : Nat) :
    (b.filledFrom page xs es).feEmpty.contains g = (decide (g ∈ b.feEmpty) || decide (g ∈ es)) := by
  have hmem : g ∈ (b.filledFrom page xs es).feEmpty ↔ g ∈ b.feEmpty ∨ g ∈ es := mem_sortNat_iff.trans List.mem_append
  rw [List.contains_eq_mem, decide_eq_decide.2 hmem, Bool.decide_or]
/-- A page filled with what its area holds: the block finds its bytes and bits as before. -/
theorem sameScratch_full {t : State} (hmem : t.mem = s.mem) (hp : b.page? p.no = some p) (ha : b.backing = some a) (hfill : p.filling = true)
    (hempty : ∀ g ∈ b.feEmpty, g / 256 ≠ p.no) {xs : List Byte} {es : List Nat} (hlen : xs.length = 4096)
    (hxs : ∀ k < 4096, xs.getD k 0 = s.mem.get (a + 4096 * p.no + k))
    (hes : ∀ g, g ∈ es ↔ g / 256 = p.no ∧ (s.mem.get (areaBits a p.no + g % 256 / 8)).getLsbD (g % 8) = false) :
    SameScratch s t b ((b.filledFrom p.no xs es).onPage p.no Page.full) := by
  intro _ hscr
  set c := (b.filledFrom p.no xs es).onPage p.no Page.full
  have hin : b.inArea p.no = true := by simp [Block.inArea, hp, hfill]
  have hin' : c.inArea p.no = p.frame.isNone := by
    rw [inArea_onPage (f := Page.full) (fun _ => rfl) ((page?_filledFrom b _ xs es _).trans hp)]
    simp [Page.full]
  have hout (n : Nat) (hn : n ≠ p.no) : c.inArea n = b.inArea n :=
    (inArea_onPage_of_ne (f := Page.full) (fun _ => rfl) hn).trans (inArea_filledFrom b _ xs es n)
  have hget (o : Nat) : c.scratch.get o = if o / 4096 = p.no then xs.getD (o - 4096 * p.no) 0 else b.scratch.get o := get_scratch_filledFrom hscr es hlen o
  have hcontains (g : Nat) : c.feEmpty.contains g = (decide (g ∈ b.feEmpty) || decide (g ∈ es)) := contains_feEmpty_filledFrom p.no xs es g
  have ha' : c.backing = some a := ha
  clear_value c
  refine ⟨fun o _ => ?_, fun g _ => ?_⟩
  · rw [spByte_eq ha', spByte_eq ha, hmem, hget]
    by_cases ho : o / 4096 = p.no
    · have hbyte : xs.getD (o - 4096 * p.no) 0 = s.mem.get (a + o) := (hxs _ (by omega)).trans (congrArg _ (by omega))
      rw [ho, hin', hin, if_pos rfl, if_pos rfl, hbyte, ite_self]
    · rw [hout _ ho, if_neg ho]
  · rw [granuleFull_eq ha', granuleFull_eq ha, hmem, hcontains]
    by_cases hg : g / 256 = p.no
    · have hnot : g ∉ b.feEmpty := fun hmemb => hempty g hmemb hg
      have hbit : decide (g ∈ es) = !(s.mem.get (areaBits a p.no + g % 256 / 8)).getLsbD (g % 8) := by simp [hes, hg]
      rw [hg, hin', hin, if_pos rfl, decide_eq_false hnot, Bool.false_or, hbit, Bool.not_not, ite_self]
    · have hnot : g ∉ es := fun hmemb => hg ((hes g).1 hmemb).1
      rw [hout _ hg, decide_eq_false hnot, Bool.or_false, List.contains_eq_mem]
end

/-! ### A page is unpinned (10 R328) -/

section
variable {s : State}

theorem get_mem_ownStore (hwf : s.mem.wf = true) (a : Nat) (bs : List Byte) (k : Nat) :
    (s.ownStore a bs).mem.get k = if a ≤ k ∧ k < a + bs.length then bs.getD (k - a) 0 else s.mem.get k := by
  have hmem : (s.ownStore a bs).mem = s.mem.write a bs := (mem_writeSite_pa ..).trans rfl
  rw [hmem, Mem.get_write hwf]
/-- Lines that are written only where they differ stand in memory afterwards. -/
theorem get_mem_writeChanged (hwf : s.mem.wf = true) (a : Nat) (xs : List (List Byte)) (k : Nat) :
    (s.writeChanged a xs).mem.get k = if a ≤ k ∧ k < a + xs.flatten.length then xs.flatten.getD (k - a) 0 else s.mem.get k := by
  induction xs generalizing s a with
  | nil =>
    rw [if_neg (by simp only [List.flatten_nil, List.length_nil]; omega)]
    rfl
  | cons x xs ih =>
    set t : State := if s.readPa a x.length = x then s else s.ownStore a x
    have hline (j : Nat) : t.mem.get j = if a ≤ j ∧ j < a + x.length then x.getD (j - a) 0 else s.mem.get j := by
      unfold t
      split
      · rename_i hsame
        split
        · rw [← hsame, State.readPa, Mem.getD_read _ _ (by omega)]
          congr 1
          omega
        · rfl
      · exact get_mem_ownStore hwf a x j
    have hwf' : t.mem.wf = true := by
      unfold t
      split
      · exact hwf
      · exact kept_ownStore (m := s.mem) id hwf
    refine (ih hwf' (a + x.length)).trans ?_
    rw [hline, List.flatten_cons, List.length_append]
    by_cases hlow : a ≤ k ∧ k < a + x.length
    · rw [if_neg (by omega), if_pos hlow, if_pos (by omega), List.getD_append _ _ _ _ (by omega)]
    · rw [if_neg hlow]
      by_cases hhigh : a + x.length ≤ k ∧ k < a + x.length + xs.flatten.length
      · rw [if_pos hhigh, if_pos (by omega), List.getD_append_right _ _ _ _ (by omega), Nat.sub_sub]
      · rw [if_neg hhigh, if_neg (by omega)]
theorem block?_of_sansTrace {t : State} (h : t.sansTrace = s.sansTrace) (id : Nat) : t.block? id = s.block? id := (congrArg (State.block? · id) h :)
theorem sansTrace_writeChanged (a : Nat) (xs : List (List Byte)) : (s.writeChanged a xs).sansTrace = s.sansTrace := by
  induction xs generalizing s a with
  | nil => rfl
  | cons x xs ih =>
    refine (ih _).trans ?_
    split
    · rfl
    · exact sansTrace_ownStore s a x
end

/-- A block whose page has gone to its area. -/
def Block.emptied (b : Block) (page : Nat) : Block :=
  { b with scratch := b.scratch.clear (4096 * page) 4096, feEmpty := b.feEmpty.filter fun g => g / 256 != page }
theorem page?_emptied (b : Block) (page n : Nat) : (b.emptied page).page? n = b.page? n := rfl
theorem inArea_emptied (b : Block) (page n : Nat) : (b.emptied page).inArea n = b.inArea n := rfl
/-- A page without its frame. -/
def Page.unframed (p : Page) : Page := { p with frame := none }

section
variable {s : State} {b : Block} {p : Page} {a : Nat}

/-- The state whose memory holds a page's data and bits in its block's area. -/
def State.areaWritten (s : State) (b : Block) (a page : Nat) : State :=
  (s.writeChanged (a + 4096 * page) ((List.range 32).map fun i => b.scratch.read (4096 * page + 128 * i) 128)).writeChanged (areaBits a page) [b.bitBytes page]

theorem get_areaWritten (hwf : s.mem.wf = true) (page k : Nat) : (s.areaWritten b a page).mem.get k =
    if areaBits a page ≤ k ∧ k < areaBits a page + 32 then (b.bitBytes page).getD (k - areaBits a page) 0
    else if a + 4096 * page ≤ k ∧ k < a + 4096 * page + 4096 then b.scratch.get (k - a) else s.mem.get k := by
  have hflat : ((List.range 32).map fun i => b.scratch.read (4096 * page + 128 * i) 128).flatten = b.scratch.read (4096 * page) 4096 :=
    Mem.flatten_reads b.scratch (4096 * page) 128 32
  unfold State.areaWritten
  rw [get_mem_writeChanged (kept_writeChanged (m := s.mem) id hwf), get_mem_writeChanged hwf, hflat, List.flatten_cons, List.flatten_nil,
    List.append_nil, length_bitBytes, Mem.length_read]
  split
  · rfl
  · split
    · rw [Mem.getD_read _ _ (by omega)]
      congr 1
      omega
    · rfl
theorem get_areaWritten_data (hwf : s.mem.wf = true) {page o : Nat} (hpage : page < 256) (ho : o < 2 ^ 20) :
    (s.areaWritten b a page).mem.get (a + o) = if o / 4096 = page then b.scratch.get o else s.mem.get (a + o) := by
  have hbits : ¬ (areaBits a page ≤ a + o ∧ a + o < areaBits a page + 32) := by
    unfold areaBits
    omega
  rw [get_areaWritten hwf, if_neg hbits, Nat.add_sub_cancel_left]
  by_cases h : o / 4096 = page
  · rw [if_pos h, if_pos (by omega)]
  · rw [if_neg h, if_neg (by omega)]
theorem get_areaWritten_bits (hwf : s.mem.wf = true) {page : Nat} (hpage : page < 256) (g : Nat) :
    (s.areaWritten b a page).mem.get (areaBits a (g / 256) + g % 256 / 8) =
      if g / 256 = page then (b.bitBytes page).getD (g % 256 / 8) 0 else s.mem.get (areaBits a (g / 256) + g % 256 / 8) := by
  rw [get_areaWritten hwf]
  by_cases h : g / 256 = page
  · rw [if_pos h, h, if_pos (by omega), Nat.add_sub_cancel_left]
  · unfold areaBits
    rw [if_neg h, if_neg (by omega), if_neg (by omega)]
theorem exec_scratchpadUnpin (harg : s.arg = .two b.id p.no) (hb : s.block? b.id = some b) (hp : b.page? p.no = some p) (ha : b.backing = some a)
    (hframe : p.frame.isSome = true) (hfill : p.filling = false) (hlock : s.pageLocked b.id p.no = false) :
    exec .scratchpadUnpin s = .next (((s.areaWritten b a p.no).modAnyBlock b.id fun c => c.emptied p.no).modPage b.id p.no Page.unframed) := by
  have hany : s.anyBlock? b.id = some b := by rw [State.anyBlock?, hb]
  have hpage : (b.pages.any fun q => q.no == p.no && q.frame.isSome && !q.filling) = true :=
    List.any_eq_true.2 ⟨p, mem_pages_of_page? hp, by simp [hframe, hfill]⟩
  show execScratchpadUnpin s = _
  unfold execScratchpadUnpin State.emptyPage
  simp only [harg, hany, hpage, ha, hlock]
  rfl
/-- What the area of an unpinned page holds is what the page held. -/
theorem sameScratch_unframed {t : State} (hmem : t.mem = (s.areaWritten b a p.no).mem) (hp : b.page? p.no = some p) (hno : p.no < 256) (ha : b.backing = some a)
    (hframe : p.frame.isSome = true) (hfill : p.filling = false) : SameScratch s t b ((b.emptied p.no).onPage p.no Page.unframed) := by
  intro hwf _
  set c := b.emptied p.no
  have hin : b.inArea p.no = false := by
    obtain ⟨f, hf⟩ := Option.isSome_iff_exists.1 hframe
    simp [Block.inArea, hp, hf, hfill]
  have hin' : (c.onPage p.no Page.unframed).inArea p.no = true := by
    rw [inArea_onPage (f := Page.unframed) (fun _ => rfl) ((page?_emptied b _ _).trans hp)]
    rfl
  have hout (n : Nat) (hn : n ≠ p.no) : (c.onPage p.no Page.unframed).inArea n = b.inArea n :=
    (inArea_onPage_of_ne (f := Page.unframed) (fun _ => rfl) hn).trans (inArea_emptied b p.no n)
  refine ⟨fun o ho => ?_, fun g _ => ?_⟩
  · rw [spByte_eq (b := c.onPage p.no Page.unframed) ha, spByte_eq ha, hmem, get_areaWritten_data hwf hno ho]
    by_cases hpage : o / 4096 = p.no
    · rw [hpage, hin', hin, if_pos rfl, if_pos rfl, if_neg Bool.false_ne_true]
    · have hscr : (c.onPage p.no Page.unframed).scratch.get o = b.scratch.get o := (Mem.get_clear _ _ _ _).trans (if_neg (by omega))
      rw [hout _ hpage, if_neg hpage, hscr]
  · rw [granuleFull_eq (b := c.onPage p.no Page.unframed) ha, granuleFull_eq ha, hmem, get_areaWritten_bits hwf hno]
    by_cases hpage : g / 256 = p.no
    · rw [if_pos hpage, hpage, hin', hin, if_pos rfl, if_neg Bool.false_ne_true]
      exact getLsbD_bitBytes b hpage
    · have hfe : (c.onPage p.no Page.unframed).feEmpty.contains g = b.feEmpty.contains g := by
        have hmemb : g ∈ (c.onPage p.no Page.unframed).feEmpty ↔ g ∈ b.feEmpty := List.mem_filter.trans (and_iff_left (by simpa using hpage))
        rw [List.contains_eq_mem, List.contains_eq_mem, decide_eq_decide.2 hmemb]
      rw [hout _ hpage, hfe, if_neg hpage]
end

/-! ### What the moves of a scratchpad page lead to -/

section
variable {s : State} {b : Block} {p : Page} {a : Nat}

theorem leads_pinned {page f : Nat} (harg : s.arg = .two b.id page) (hb : s.block? b.id = some b)
    (hout : ∀ p ∈ b.pages, p.no = page → p.frame = none ∧ p.bad = none)
    (hf : s.pickFree 2000 64 ((s.framed b.core).filterMap fun x => x.2.frame) = some f) : Leads .scratchpadPin s fun t =>
    ∃ u b', (t = u ∨ t = u.retryHandlers) ∧ u.block? b.id = some b' ∧
      (∃ p ∈ b'.pages, p.no = page ∧ p.frame = some f ∧ (p.filling = true ↔ ∃ q ∈ b.pages, q.no = page)) ∧ SameScratch s u b b' := by
  refine ⟨_, exec_scratchpadPin harg hb hout hf, ?_⟩
  by_cases hin : ∃ q ∈ b.pages, q.no = page
  · obtain ⟨u, b', hu, hb', ⟨q, hq, hno, hframe, hfill⟩, hsame⟩ := pinIn_of_pinned hb (fun q hq hno => (hout q hq hno).1) hin
    exact ⟨u, b', .inl hu, hb', ⟨q, hq, hno, hframe, iff_of_true hfill hin⟩, hsame⟩
  · obtain ⟨u, b', hu, hb', ⟨q, hq, hno, hframe, hfill⟩, hsame⟩ := pinIn_of_new hb hin
    exact ⟨u, b', .inr hu, hb', ⟨q, hq, hno, hframe, iff_of_false (by simp [hfill]) hin⟩, hsame⟩
theorem leads_fillDone (hb : s.block? b.id = some b) (hp : b.page? p.no = some p) (ha : b.backing = some a)
    (harg : s.arg = .badPage b.id p.no (s.fillError b p.no)) (hfill : p.filling = true) : Leads .scratchpadFillDone s fun t =>
    ∃ (u : State) (b' : Block), t = u.retryHandlers ∧ u.block? b.id = some b' ∧
      (∀ r, s.fillError b p.no = some r → b'.page? p.no = some { p with filling := false, frame := none, bad := some r }) ∧
      (s.fillError b p.no = none → b'.page? p.no = some { p with filling := false } ∧ ((∀ g ∈ b.feEmpty, g / 256 ≠ p.no) → SameScratch s u b b')) := by
  refine ⟨_, exec_scratchpadFillDone hb hp harg hfill, ?_⟩
  cases herr : s.fillError b p.no with
  | some r =>
    let f (q : Page) : Page := q.spoiled (some r)
    have hf (q : Page) : (f q).no = q.no := rfl
    refine ⟨_, b.onPage p.no f, rfl, block?_modAnyBlock (f := fun b => b.onPage p.no f) (fun _ => rfl) hb, fun r' hr => ?_, fun h => nomatch h⟩
    cases hr
    exact (page?_onPage hf).trans (congrArg _ hp)
  | none =>
    obtain ⟨u, xs, es, hu, hpage, hlen, hxs, hes⟩ := fillPage_eq (s := s) ha p.no
    have hb' : u.block? b.id = some b := (congrArg (State.block? · b.id) hu :).trans hb
    have hfilled : (s.fillPage b p.no).block? b.id = some (b.filledFrom p.no xs es) := by
      rw [hpage]
      exact block?_modAnyBlock (f := fun b => b.filledFrom p.no xs es) (fun _ => rfl) hb'
    have hmem : (s.fillPage b p.no).mem = s.mem := by
      rw [hpage]
      exact (mem_of_sansCache hu :)
    refine ⟨(s.fillPage b p.no).modPage b.id p.no Page.full, (b.filledFrom p.no xs es).onPage p.no Page.full, rfl,
      block?_modAnyBlock (f := fun b => b.onPage p.no Page.full) (fun _ => rfl) hfilled, (fun r h => nomatch h), fun _ => ⟨?_, fun hempty => ?_⟩⟩
    · exact (page?_onPage (f := Page.full) fun _ => rfl).trans (congrArg _ ((page?_filledFrom b _ _ _ _).trans hp))
    · exact sameScratch_full hmem hp ha hfill hempty hlen hxs hes
theorem leads_unpinned (harg : s.arg = .two b.id p.no) (hb : s.block? b.id = some b) (hp : b.page? p.no = some p) (hno : p.no < 256) (ha : b.backing = some a)
    (hframe : p.frame.isSome = true) (hfill : p.filling = false) (hlock : s.pageLocked b.id p.no = false) : Leads .scratchpadUnpin s fun t =>
    ∃ b', t.block? b.id = some b' ∧ b'.page? p.no = some { p with frame := none } ∧ SameScratch s t b b' := by
  have htrace : (s.areaWritten b a p.no).sansTrace = s.sansTrace := (sansTrace_writeChanged _ _).trans (sansTrace_writeChanged _ _)
  have hb' : (s.areaWritten b a p.no).block? b.id = some b := (block?_of_sansTrace htrace _).trans hb
  have hemptied : ((s.areaWritten b a p.no).modAnyBlock b.id fun c => c.emptied p.no).block? b.id = some (b.emptied p.no) :=
    block?_modAnyBlock (f := fun c => c.emptied p.no) (fun _ => rfl) hb'
  refine ⟨_, exec_scratchpadUnpin harg hb hp ha hframe hfill hlock, (b.emptied p.no).onPage p.no Page.unframed,
    block?_modAnyBlock (f := fun c => c.onPage p.no Page.unframed) (fun _ => rfl) hemptied, ?_, sameScratch_unframed ?_ hp hno ha hframe hfill⟩
  · exact (page?_onPage (f := Page.unframed) fun _ => rfl).trans (congrArg _ ((page?_emptied b _ _).trans hp))
  · rw [mem_modPage, mem_modAnyBlock]
end

/-- Settles O51: each move by its meaning, and a page's bytes and bits by where they lie before and after it. -/
theorem coreEvents : Obligations.CoreEvents := by
  unfold Obligations.CoreEvents
  refine ⟨fun s c => leads_rollbackInterval, fun s w o harg hw ho => ⟨leads_longCompletes harg hw ho, fun lane va r hbad hset hfatal hback => ?_⟩,
    fun s w b os harg hw hb hsend => ⟨fun r rs horder hemits l hl => leads_recordReleased harg hw hb hsend horder hemits hl,
      fun c cs horder hcmds => ⟨fun u hu => ?_, leads_commandReleased harg hw hb hsend horder hcmds⟩⟩,
    fun s w harg hw => ⟨fun till => exec_yieldTimeout harg hw, fun since => leads_ctabWaitTimeout harg hw⟩, fun s port q => exec_queuedBlockSent,
    fun s off x => exec_registerSpaceOther, fun s b page harg hb hout => ⟨fun f => leads_pinned harg hb hout, fun u p => exec_scratchpadPin_full harg hb hout⟩,
    fun s b p a hb hp hno ha => ⟨leads_fillDone hb hp ha, fun harg => leads_unpinned harg hb hp hno ha⟩⟩
  · have hexec := exec_longBad harg hw ho hbad hset hfatal hback
    refine ⟨fun hpermit => ?_, fun hpermit hfree => ?_⟩
    · rw [hexec, if_pos (by simpa using hpermit)]
    · rw [hexec, if_neg (by simp [hpermit, hfree])]
  · rw [exec_commandReleased harg hw hb hsend horder hcmds, hu, Option.getD_some]

end Sys2Proof.Machine
